-- ==== Sys2Proof/Word.lean ====
section
/-! DEFINITION. The word types of the device and the two plainest containers: bytes, register words, and a sparse
table of numbered entries in one canonical form (keys strictly rising). -/

namespace Sys2Proof

/-- A byte. -/
abbrev Byte := BitVec 8

/-- One vector lane, one FP32 value, one 32-bit integer. -/
abbrev W32 := BitVec 32

/-- A register of BAR0: every register is 64 bits wide (R19 and the like). -/
abbrev W64 := BitVec 64

/-- A stitch number (R20): 40 bits, compared modulo 2^40. -/
abbrev Stitch := BitVec 40

/-- A time-base cycle count (R21): 48 bits. -/
abbrev CycleCount := BitVec 48

/-- One context, 0 to 15; 0 is the system context (R302). -/
abbrev Ctx := Fin 16

/-- One panel, HBM stack or presser in the presented numbering (R3). -/
abbrev Panel := Fin 8

/-- One seam port SP_m (R219). -/
abbrev PortId := Fin 16

/-- One band by its global index 16p + b (Conventions of 00_scope). -/
abbrev BandId := Fin 128

/-- A sparse table: the entries that differ from the default, keys strictly rising. -/
abbrev Tab (α : Type) := List (Nat × α)

end Sys2Proof
end

