-- ==== Sys2Proof/Syntax.lean ====
section
/-! DEFINITION. The commands of the block: one constructor of `Instr` for every row of spec/opcode_table.json, in the
table's order, with the operands the command carries. A physical observation the device cannot derive from its own
state (a sensor reading, an ECC outcome, a test's outcome, what a neighbour sends) is an operand. -/

namespace Sys2Proof

/-- A logical core (panel, row, column), R83. -/
structure CoreId where
  panel : Fin 8
  row : Fin 80
  col : Fin 125
deriving DecidableEq, Repr

/-- A physical router (panel, physical row, physical column), R83, R111. -/
structure RouterId where
  panel : Fin 8
  row : Fin 80
  col : Fin 128
deriving DecidableEq, Repr

/-- What the check code found in what was read (R91, R152, R177): nothing, a corrected error, or an uncorrectable
one with its check syndrome and, for HBM, its sector. -/
inductive Ecc where
  | ok
  | corrected
  | uncorrectable (syndrome : BitVec 16) (sector : Bool)
deriving DecidableEq, Repr

/-- What a read of an HBM line brings besides its bytes (R177, R178): the corrections that the stack's on-die code reports, and what
the check code found in each sector. -/
structure LineEcc where
  onDie : Nat
  low : Ecc
  high : Ecc
deriving DecidableEq, Repr

/-- How a slot of an instruction word issues: on which core, at which core cycle of the stitch (R108), and whether the
word's GATE puts the slot under its predicate PRED (R106, Table 3-7). `ecc` is what the check code found in scratch, by byte
address, or for the control slot in the instruction word, by 64-bit half (R91); `boltEcc` what it found in the bolt lines the
slot reads, by the line's place among them (R152). -/
structure Issue where
  core : CoreId
  cycle : Nat
  pred : Fin 8
  gated : Bool
  ecc : List (Nat × Ecc)
  boltEcc : List (Nat × Ecc)
deriving DecidableEq, Repr

/-- The four slots of an instruction word (R103). -/
inductive Slot where
  | array | vector | move | control
deriving DecidableEq, Repr

/-- The MAC formats of Table 3-2; the reserved codes 0xD to 0xF have no constructor (refused at load, R110). -/
inductive MacFmt where
  | e4m3 | e5m2 | e4m3e5m2 | e5m2e4m3 | mxE4m3 | mxE5m2 | mxE3m2 | mxE2m3 | mxE2m1 | bf16 | fp16 | fp32 | int8
deriving DecidableEq, Repr

/-- The forms of ACCIN (R96). -/
inductive AccForm where
  | fp32 | gs16
deriving DecidableEq, Repr

/-- The rounding modes of R66. -/
inductive Rnd where
  | rne | rz | sr
deriving DecidableEq, Repr

/-- The drain destination formats of SETDC (Table 3-6). -/
inductive DrainFmt where
  | fp32 | bf16 | fp16 | e4m3 | e5m2 | int32 | int8
deriving DecidableEq, Repr

/-- Where operand B of LOAD or LDSC comes from (Table 3-4): a bolt stream, or scratch in 16-byte units. -/
inductive BSource where
  | bolt (stream : Fin 4)
  | scratch (addr : BitVec 12)
deriving DecidableEq, Repr

/-- The fields of a vector slot (Table 3-5). -/
structure VOp where
  vd : Fin 32
  va : Fin 32
  vb : Fin 32
  mask : Fin 8
  rnd : Rnd
  ieee : Bool
  tg : Fin 4
  srs : Fin 4
deriving DecidableEq, Repr

/-- The two forms of MSEND (Table 3-6): from scratch in 32-byte units, or a quarter of a vector register. -/
inductive MsendSrc where
  | scratch (addr : BitVec 11)
  | vreg (vs : Fin 32) (quarter : Fin 4)
deriving DecidableEq, Repr

/-- The sizes of VST (Table 3-6). -/
inductive VstSize where
  | b16 | b32 | b64 | b128
deriving DecidableEq, Repr

/-- The count source of LOOP (Table 3-7): COUNT − 1, or a count register. -/
inductive LoopCount where
  | imm (countM1 : BitVec 8)
  | reg (cr : Fin 16)
deriving DecidableEq, Repr

/-- The comparisons of PSET (R106). -/
inductive PredCmp where
  | eq | lt | ge | andZero
deriving DecidableEq, Repr

/-- The inputs of a router, in the order of R113: a lower one wins an output. -/
inductive MeshIn where
  | north | south | east | west | local | bridge
deriving DecidableEq, Repr

/-- A 256-bit flit with its route identity (The mesh, R111). -/
structure Flit where
  route : BitVec 8
  data : BitVec 256
deriving DecidableEq, Repr

/-- The MARKER message of Table 1-7. -/
structure MarkerMsg where
  groupId : BitVec 16
  epoch : BitVec 8
  tree : Bool
  stitch : Stitch
  hops : BitVec 8
  accDelay : BitVec 32
deriving DecidableEq, Repr

/-- The READY message of Table 1-7. -/
structure ReadyMsg where
  tag : BitVec 16
  start : Stitch
  expected : BitVec 16
  count : BitVec 16
deriving DecidableEq, Repr

/-- The VOTE message of Table 7-10. -/
structure VoteMsg where
  tag : BitVec 16
  voteStitch : Stitch
  members : BitVec 16
  count : BitVec 16
  skip : Bool
  fail : Bool
deriving DecidableEq, Repr

/-- The verdicts of Table 7-10. Code 3 has no meaning in the table; it has no constructor. -/
inductive Verdict where
  | commit | skip | rollback
deriving DecidableEq, Repr

/-- The VERDICT message of Table 7-10. -/
structure VerdictMsg where
  tag : BitVec 16
  voteStitch : Stitch
  verdict : Verdict
  step : BitVec 44
deriving DecidableEq, Repr

/-- The ABORT message of Table 9-5. -/
structure AbortMsg where
  groupId : BitVec 16
  tag : BitVec 16
  attempt : BitVec 16
  origin : BitVec 16
  originStitch : Stitch
  cause : BitVec 8
deriving DecidableEq, Repr

/-- The seven messages of the stitch unit, the vote messages and the abort token, as VC_0 carries them (R28, R231). -/
inductive Vc0Msg where
  | marker (m : MarkerMsg)
  | stretchReq (factor : BitVec 6) (reasons : BitVec 4)
  | stretchAnn (k : BitVec 6) (apply : Stitch)
  | periodAnn (units : BitVec 24) (apply : Stitch)
  | ready (m : ReadyMsg)
  | go (tag : BitVec 16) (start : Stitch)
  | miss (tag : BitVec 16) (start : Stitch)
  | vote (m : VoteMsg)
  | verdict (m : VerdictMsg)
  | abort (m : AbortMsg)
deriving DecidableEq, Repr

/-- Which thermal reason of Table 1-8 steps up. -/
inductive ThermalReason where
  | panel (p : Panel)
  | hbm
deriving DecidableEq, Repr

/-- What the rail monitor sees (R408, R440): a rail's reading in mV (rail 31 is the 48 V input), or the module input
power in W. -/
inductive SupplyObs where
  | rail (r : Fin 32) (mv : Nat)
  | inputPower (watts : Nat)
deriving DecidableEq, Repr

/-- A cell of 32 bytes (R222), byte 0 in the low bits. -/
abbrev CellData := BitVec 256

/-- What a payload position of a frame carries (R225, R227): a cell of a (channel, context) stream, a replay cell, a
VC_6 management cell of Thimble, or nothing. How a receiver knows which stream a cell belongs to is not stated; the
model carries it with the cell (DESIGN CHOICE, safe, assumption log 20). -/
inductive FrameCell where
  | stream (vc : Fin 8) (ctx : Fin 16) (data : CellData)
  | replay (data : CellData)
  | mgmt (data : CellData)
  | idle
deriving DecidableEq, Repr

/-- A frame as the receiver decodes it (R222, R232): its 256 payload cells, its trailer cell, the blocks that some
uncorrectable codeword overlaps (bit b for block b), and the codewords and symbols the FEC corrected or could not. -/
structure Frame where
  cells : List FrameCell
  trailer : CellData
  badFec : BitVec 8
  corrected : Nat
  uncorrectable : Nat
  symbols : Nat
deriving DecidableEq, Repr

/-- A packet: its header cell and its 1 to 64 data cells (R228). -/
structure Packet where
  header : CellData
  data : List CellData
deriving DecidableEq, Repr

/-- Why an ACTIVE port was lost (R243, the SEAM_LOST syndrome of Table 13-4). -/
inductive PortLoss where
  | laneLock | trailers | nak
deriving DecidableEq, Repr

/-- What training found (R220, R239 to R241): whether equalization or retune succeeded, the neighbour's identity and
the role of its port, the delay measurement and the symbol errors of the 100 ms count. -/
structure TrainingObs where
  success : Bool
  nbSerial : W64
  nbAddr : BitVec 15
  nbPort : Fin 16
  delayPs : BitVec 32
  sigmaPs : BitVec 16
  errorsOk : Bool
deriving DecidableEq, Repr

/-- A BAR2 access (R374): a read of some bytes, or a write of the bytes given. -/
inductive Bar2Kind where
  | read (count : Nat)
  | write (bytes : List Byte)
deriving DecidableEq, Repr

/-- What the pairing exchange found (Table 11-6). -/
structure PairingObs where
  partnerSerial : W64
  partnerFabric : W64
  partnerFw : W64
  partnerGrade : BitVec 8
  partnerKey : BitVec 256
  challengeOk : Bool
  partnerReady : Bool
  partnerOwnCounts : Bool
deriving DecidableEq, Repr

/-- How a certificate reaches Thimble (R327): SUBMIT in LIN_CERT_CMD with the value written, or the bytes in an OEM
request of the BMC. -/
inductive CertSource where
  | register (value : W64)
  | bmc (bytes : List Byte)
deriving DecidableEq, Repr

/-- The two PCIe ports (R371). -/
inductive PciePort where
  | h | s
deriving DecidableEq, Repr

/-- The way a reset of port H arrives (R361, Table 13-17). -/
inductive HotResetKind where
  | hotReset | functionLevel
deriving DecidableEq, Repr

/-- Which unit an on-demand test or a unit reset found faulty, as the result of Table 16-8. -/
structure TestObs where
  passed : Bool
  repaired : Bool
  detail : W64
  errors : BitVec 32
  checked : BitVec 32
  fuses : List (Nat × W64)
deriving DecidableEq, Repr

/-- The units that failed in a power-on or a device reset: bands, panels with their bolt stacks, HBM stacks with their
pressers, seam ports, each with the identity of the test it
failed, and whether the stitch or the serving unit failed (R364, R366, R427, Table 16-5). -/
structure ResetObs where
  bands : List (Fin 128 × BitVec 16)
  panels : List (Fin 8 × BitVec 16)
  stackList : List (Fin 8 × BitVec 16)
  ports : List (Fin 16 × BitVec 16)
  stitchFailed : Bool
  servingFailed : Bool
  testsRun : BitVec 16
  testsFailed : BitVec 16
  lastFailed : BitVec 16
  fuses : List (Nat × W64)
deriving DecidableEq, Repr

/-- What an HBM temperature read returns (R172): a signed reading in °C, or a failed read. -/
inductive TempObs where
  | reading (c : Int)
  | failed
deriving DecidableEq, Repr

/-- The transports of MCTP (R401). -/
inductive Transport where
  | i3c | pcie
deriving DecidableEq, Repr

/-- The OEM PUBKEY and FUSE sub-commands (Table 15-7). -/
inductive PubkeyOp where
  | add (key : BitVec 256)
  | remove (slot : Fin 16)
  | list
deriving DecidableEq, Repr

/-- The OEM FUSE sub-commands (Table 15-7). -/
inductive FuseOp where
  | add (map : Nat) (entry : W64)
  | read (map : Nat)
  | clear (map : Nat)
deriving DecidableEq, Repr

/-- The W1T quorum fields that QUORUM_WRITE writes (Table 15-7): the register's offset in the LIN block and the value. -/
structure QuorumWrite where
  offset : Nat
  value : W64
deriving DecidableEq, Repr

/-- The bytes that a result area or a boundary register carries. -/
abbrev Bytes := List (BitVec 8)

/-- The commands of the device: one constructor per row of spec/opcode_table.json, in the table's order. -/
inductive Instr where
  -- the stitch unit (01_stitch)
  | stitchBoundary
  | marker (port : PortId) (m : MarkerMsg) (arrivalPs : Int)
  | stretchReq (port : PortId) (factor : BitVec 6) (reasons : BitVec 4)
  | stretchAnn (port : PortId) (k : BitVec 6) (apply : Stitch)
  | periodAnn (port : PortId) (units : BitVec 24) (apply : Stitch)
  | ready (port : PortId) (m : ReadyMsg)
  | go (port : PortId) (tag : BitVec 16) (start : Stitch)
  | miss (port : PortId) (tag : BitVec 16) (start : Stitch)
  | barrierCheck
  | barrierTimeout
  | masterTakeover
  | holdover
  | alignmentFault
  | stretchChange
  | periodChange
  | stuPeriodWrite (value : W64)
  | stuEnable (value : W64)
  | sysFactor (value : W64)
  | thermalStepUp (r : ThermalReason)
  | thermalWithdraw (p : Panel)
  | supplyReason (o : SupplyObs)
  | supplyWithdraw
  | phaseLedgerRecord (n : Ctx)
  -- the array slot (03_core, Table 3-4)
  | nop (i : Issue) (slot : Slot)
  | load (i : Issue) (pair : Fin 2) (aAddr : BitVec 12) (b : BSource)
  | ldsc (i : Issue) (set : Fin 2) (saAddr : BitVec 12) (b : BSource)
  | mac (i : Issue) (bank : Fin 2) (pair : Fin 2) (set : Fin 2) (fmt : MacFmt)
  | accin (i : Issue) (bank : Fin 2) (pair : Fin 2) (row : Fin 16) (set : Fin 2) (form : AccForm)
  | drain (i : Issue) (bank : Fin 2) (row : Fin 16) (dst : BitVec 12) (dc : Fin 4) (clr : Bool)
  | clear (i : Issue) (bank : Fin 2)
  | setw (i : Issue) (bank : Fin 2) (d : BitVec 10)
  -- the vector slot (Table 3-3)
  | fadd (i : Issue) (v : VOp)
  | fsub (i : Issue) (v : VOp)
  | fmul (i : Issue) (v : VOp)
  | fma (i : Issue) (v : VOp)
  | fmax (i : Issue) (v : VOp)
  | fmin (i : Issue) (v : VOp)
  | fabs (i : Issue) (v : VOp)
  | fneg (i : Issue) (v : VOp)
  | fcmplt (i : Issue) (v : VOp)
  | fcmpeq (i : Issue) (v : VOp)
  | fcmple (i : Issue) (v : VOp)
  | sel (i : Issue) (v : VOp)
  | rsum (i : Issue) (v : VOp)
  | rmax (i : Issue) (v : VOp)
  | bcast (i : Issue) (v : VOp)
  | exp2 (i : Issue) (v : VOp)
  | exp (i : Issue) (v : VOp)
  | log2 (i : Issue) (v : VOp)
  | ln (i : Issue) (v : VOp)
  | rcp (i : Issue) (v : VOp)
  | rsqrt (i : Issue) (v : VOp)
  | sqrt (i : Issue) (v : VOp)
  | fdiv (i : Issue) (v : VOp)
  | tanh (i : Issue) (v : VOp)
  | sigmoid (i : Issue) (v : VOp)
  | salpha (i : Issue) (v : VOp)
  | sexp (i : Issue) (v : VOp)
  | sfin (i : Issue) (v : VOp)
  | slse (i : Issue) (v : VOp)
  | iadd (i : Issue) (v : VOp)
  | isub (i : Issue) (v : VOp)
  | imul (i : Issue) (v : VOp)
  | and (i : Issue) (v : VOp)
  | or (i : Issue) (v : VOp)
  | xor (i : Issue) (v : VOp)
  | shl (i : Issue) (v : VOp)
  | shr (i : Issue) (v : VOp)
  | sra (i : Issue) (v : VOp)
  | icmplt (i : Issue) (v : VOp)
  | icmpeq (i : Issue) (v : VOp)
  | imin (i : Issue) (v : VOp)
  | imax (i : Issue) (v : VOp)
  | nrwBf16 (i : Issue) (v : VOp)
  | nrwFp16 (i : Issue) (v : VOp)
  | nrwE4m3 (i : Issue) (v : VOp)
  | nrwE5m2 (i : Issue) (v : VOp)
  | nrwInt8 (i : Issue) (v : VOp)
  | nrwInt32 (i : Issue) (v : VOp)
  | cvtI2f (i : Issue) (v : VOp)
  | mxeE4m3 (i : Issue) (v : VOp)
  | mxeE5m2 (i : Issue) (v : VOp)
  | mxeE3m2 (i : Issue) (v : VOp)
  | mxeE2m3 (i : Issue) (v : VOp)
  | mxeE2m1 (i : Issue) (v : VOp)
  | gse (i : Issue) (v : VOp)
  | widBf16 (i : Issue) (v : VOp)
  | widFp16 (i : Issue) (v : VOp)
  | widE4m3 (i : Issue) (v : VOp)
  | widE5m2 (i : Issue) (v : VOp)
  | widInt8 (i : Issue) (v : VOp)
  | widMx (i : Issue) (v : VOp)
  | rand (i : Issue) (v : VOp)
  -- the move slot (Table 3-6)
  | vld (i : Issue) (vd : Fin 32) (line : BitVec 10)
  | vst (i : Issue) (vs : Fin 32) (addr : BitVec 12) (size : VstSize)
  | gather (i : Issue) (vd : Fin 32) (bank : Fin 4) (base : BitVec 8) (lenM1 : BitVec 8) (vi : Fin 32)
  | msend (i : Issue) (src : MsendSrc) (route : BitVec 8)
  | bset (i : Issue) (stream : Fin 4) (start : BitVec 20) (stride : BitVec 8)
  | bld (i : Issue) (stream : Fin 4) (line : BitVec 10)
  | hrd (i : Issue) (slot : BitVec 14) (line : BitVec 10)
  | hwr (i : Issue) (slot : BitVec 14) (line : BitVec 10)
  | setdc (i : Issue) (dc : Fin 4) (fmt : DrainFmt) (rnd : Rnd) (ieee : Bool) (sigma : BitVec 8) (tg : Fin 4) (srs : Fin 4)
  | stream (i : Issue) (srs : Fin 4) (purpose : BitVec 16) (sub : BitVec 10)
  | draw (i : Issue) (srs : Fin 4) (index : BitVec 20)
  | lmask (i : Issue) (mask : Fin 8) (addr : BitVec 12)
  -- the control slot (Table 3-7)
  | loop (i : Issue) (bodyM1 : BitVec 9) (count : LoopCount)
  | setc (i : Issue) (cr : Fin 16) (valueM1 : BitVec 14)
  | pset (i : Issue) (p : Fin 8) (level : Fin 4) (cmp : PredCmp) (imm : BitVec 11)
  | waits (i : Issue)
  | phase (i : Issue) (code : Fin 8)
  | delay (i : Issue) (cyclesM1 : BitVec 18)
  -- arrivals at cores, routers and the bolt
  | hrdReturn (core : CoreId)
  | flitArrival (router : RouterId) (flits : List (MeshIn × Flit))
  | boltWriteBack (panel : Panel) (slab : Fin 128)
  -- rings and descriptors (14_host_interface)
  | doorbellPoll
  | descriptorNop (n : Ctx)
  | loadPattern (n : Ctx)
  | patternLoaded (n : Ctx) (portOk : Bool)
  | arm (n : Ctx)
  | voteMark (n : Ctx)
  | disarm (n : Ctx)
  | unload (n : Ctx)
  | disarmEffect
  | copyIn (n : Ctx)
  | copyOut (n : Ctx)
  | copyDone (id : Nat) (portOk : Bool)
  | loadBundle (n : Ctx) (portOk : Bool)
  | bundleDone (id : Nat) (portOk : Bool)
  | ckptShard (n : Ctx)
  | captureEnd (id : Nat)
  | shardDrained (id : Nat) (portOk : Bool)
  | restoreShard (n : Ctx)
  | restoreDone (id : Nat) (portOk : Bool)
  | fence (n : Ctx)
  | begin (n : Ctx)
  | beginApply (n : Ctx)
  | rebuild (n : Ctx)
  | seqAdmit (n : Ctx)
  | seqRelease (n : Ctx)
  -- the training step (07_training_step)
  | voteForm (n : Ctx)
  | vote (port : PortId) (m : VoteMsg)
  | verdictDecision (tag : BitVec 16)
  | verdict (port : PortId) (m : VerdictMsg)
  | verdictMissing (n : Ctx)
  | commitStitch (n : Ctx)
  | inboxRecord (s : Panel)
  | mirrorRecord (s : Panel)
  | normRecord (s : Panel)
  | normPartial (s : Panel)
  | refillBlock (s : Panel)
  | refillState (s : Panel)
  | prsTblLoad (value : W64)
  | presserImageChecked (portOk : Bool)
  | prsBind (s : Panel) (value : W64)
  | prsReserveWrite (s : Panel) (value : W64)
  | prsMirrorWrite (value : W64)
  | presserLedgerRebuild
  | prsStepWrite (n : Ctx) (count : Bool) (value : W64)
  -- seams (08_seams)
  | frameSend (port : PortId)
  | frameReceive (port : PortId) (f : Frame)
  | packetTake (hem : Fin 2) (n : Ctx)
  | packetReceive (port : PortId) (n : Ctx) (vc : Fin 8)
  | deadlineExpiry (port : PortId) (n : Ctx) (vc : Fin 8)
  | portLost (port : PortId) (loss : PortLoss) (lanes : BitVec 8)
  | portFailed (port : PortId)
  | trainingDone (port : PortId) (o : TrainingObs)
  | fullEqRetry (port : PortId)
  | serWindow (port : PortId) (symbolErrors symbols : Nat)
  | portLedgerRebuild
  | retune (port : PortId) (value : W64)
  | fullEq (port : PortId) (value : W64)
  | loopbackSelect (port : PortId) (value : W64)
  | portEn (port : PortId) (value : W64)
  | seaRtDataAccess (write : Option W64)
  -- collectives (09_collectives)
  | abort (port : PortId) (m : AbortMsg)
  | abortSend (value : W64)
  | abortKeyExpiry
  | abortedEnd (n : Ctx)
  | colCreditWrite (n : Ctx) (value : W64)
  | colSeqWrite (n : Ctx) (v : Fin 6) (value : W64)
  | peakClr (n : Ctx) (value : W64)
  -- serving (10_serving)
  | resultRead
  | servingApply
  | listWrite
  | listBuild
  | seqTimeout (slot : Fin 4096)
  | seqCancel (n : Ctx) (tag : W64)
  | slotFree (slot : Fin 4096)
  | swapOutDone (slot : Fin 4096)
  | swapInDone (slot : Fin 4096)
  | admissionBacklog (n : Ctx)
  | srvEnable (n : Ctx) (value : W64)
  | srvDisable (n : Ctx) (value : W64)
  | srvRtWrite (n : Ctx) (reserve : Bool) (value : W64)
  -- the bolt (05_bolt)
  | bltDefine (value : W64)
  | bltRelease (value : W64)
  | regionLoaded (region : Fin 512)
  | regionWrittenBack (region : Fin 512)
  | boltScrubLap (panel : Panel) (length : Nat) (found : List (Fin 128 × BitVec 20 × Nat × Ecc))
  | scrubStarvation (panel : Panel)
  -- the HBM tier (06_hbm_tier)
  | hbtDefine (value : W64)
  | hbtRelease (value : W64)
  | zeroingDone (n : Ctx) (index : Fin 16)
  | hbmQueueArrival (pc : Fin 256) (ecc : LineEcc)
  | wcDrain (stack : Panel)
  | refreshWindow
  | calibrationWindow
  | hbmScrubLap (stack : Panel) (length : Nat) (found : List (Fin 256 × Nat × Bool × Ecc))
  | scrubFloorWrite (value : W64)
  | hbmTempRead (stack : Panel) (o : TempObs)
  | hbmTempMaxClr (stack : Panel) (value : W64)
  | bar2Access (offset : Nat) (k : Bar2Kind)
  | bar2Timeout
  | bar0AccessError (offset : Nat) (size : Nat) (write : Bool)
  -- lining, certificates (11_alterations)
  | pairing (value : W64)
  | liningDisable (value : W64)
  | pairingResult (o : PairingObs)
  | isolate
  | release
  | leave
  -- contexts, rings and queues (14_host_interface)
  | create (n : Ctx) (value : W64)
  | teardown (n : Ctx) (value : W64)
  | teardownBoundary (n : Ctx)
  | teardownDone (n : Ctx)
  | ctxSwitch (value : W64)
  | switchBegin
  | switchDone
  | ctxSeedWrite (n : Ctx) (rank : Bool) (value : W64)
  | ctxShareWrite (n : Ctx) (hi : Bool) (value : W64)
  | ringEnable (n : Ctx) (value : W64)
  | ringDisable (n : Ctx) (value : W64)
  | evqEnable (n : Ctx) (value : W64)
  -- faults, hangs, resets, power (13, 16, 17)
  | heartbeatSample (beats : BitVec 18)
  | resetHoldEnd
  | deviceReset (value : W64)
  | deviceResetDone (o : ResetObs)
  | unitReset (value : W64)
  | unitResetDone (ok : Bool)
  | fltViolClr (n : Ctx) (value : W64)
  | powerDown (g : BandId) (value : W64)
  | bandDomainOff (g : BandId)
  | powerUp (g : BandId) (value : W64)
  | bandOn (g : BandId)
  | dropsClr (g : BandId) (value : W64)
  | powerOn
  | powerOnDone (o : ResetObs)
  | inputLoss (mv : Nat)
  | inputReturn
  | perst (p : PciePort) (asserted : Bool)
  | hotReset (k : HotResetKind)
  | portSReset
  | pcieLoopback (p : PciePort)
  | panelThermal (sensor : Fin 96)
  | supply (rail : Fin 32) (mv : Nat)
  | clockLost (domain : Fin 25)
  -- Thimble (15_thimble)
  | panelSensorRead (readings : List Int)
  | thimbleRestart
  | pldmHeartbeat
  | storeCommitDone
  | trialTimeout
  | logRead (value : W64)
  | clearCritical (value : W64)
  | sensorSnapshot (value : W64)
  | pubkeyAdd (value : W64)
  | pubkeyRemove (value : W64)
  | keyRemovalDone (slot : Fin 16)
  | pubkeyList (value : W64)
  | fuseAdd (value : W64)
  | fuseRead (value : W64)
  | fuseClear (value : W64)
  | identity (value : W64)
  | sensorMaxClr (value : W64)
  | oemDeviceReset (t : Transport)
  | certSubmit (src : CertSource)
  | oemLogRead (t : Transport) (seq : BitVec 32)
  | oemPubkey (t : Transport) (op : PubkeyOp)
  | quorumWrite (t : Transport) (writes : List QuorumWrite)
  | oemFuse (t : Transport) (op : FuseOp)
  | domainState (t : Transport)
  | mctpControl (t : Transport) (command : Byte) (eid : Byte)
  | getTid (t : Transport)
  | getPldmVersion (t : Transport) (pldmType : Byte)
  | getPldmTypes (t : Transport)
  | getPldmCommands (t : Transport) (pldmType : Byte)
  | sensorReading (t : Transport) (sensorId : Nat)
  | pdrRepository (t : Transport)
  | setEventReceiver (t : Transport) (receiver : Byte) (enable : Bool)
  | fruRecord (t : Transport)
  | requestUpdate (t : Transport)
  | transferComplete (image : Bytes)
  | verifyComplete
  | activateFirmware (t : Transport)
  | queryDeviceIdentifiers (t : Transport)
  | getFirmwareParameters (t : Transport)
  | getVersion (t : Transport)
  | getCapabilities (t : Transport)
  | negotiateAlgorithms (t : Transport)
  | getDigests (t : Transport)
  | getCertificate (t : Transport) (slot : Byte) (offset length : Nat)
  | challenge (t : Transport) (slot : Byte) (nonce : BitVec 256)
  | getMeasurements (t : Transport) (index : Nat) (nonce : BitVec 256)
  | keyExchange (t : Transport)
  | pskExchange (t : Transport)
  -- the test access port and the test block (16_bringup_and_test)
  | idcode
  | samplePreload (preload : Option Bytes) (balls : Bytes)
  | extest
  | highz
  | clamp
  | extestPulse
  | extestTrain
  | hbmWrapper (select : Fin 8)
  | privateInstruction (code : Byte)
  | bypass (code : Byte)
  | tstStart (value : W64)
  | tstStop (value : W64)
  | testDone (o : TestObs) (elapsedUs : BitVec 32)
  -- BAR0 (00_scope, 14_host_interface)
  | registerWrite (offset : Nat) (wide : Bool) (value : W64)
  | thimbleRestartDone
  | clockReturn (domain : Fin 25)
  | farLoopbackRequest (port : PortId) (depth : Fin 8)
  | rebuildDone (n : Ctx)
  | registerRead (offset : Nat) (wide : Bool)
  | pcieLoopbackExit (p : PciePort)
deriving DecidableEq, Repr

end Sys2Proof
end

