-- ==== Sys2Proof/Config.lean ====
section
/-! DEFINITION. What an implementation fixes, and the free values: the values the spec leaves open have no body, so
nothing can be proved about which value they take (DESIGN CHOICE, safe, assumption log 1). The fused and strapped identity of
the modelled device is one choice among those the spec allows (DESIGN CHOICE, unsafe, assumption log 2). -/

namespace Sys2Proof.Config

/-- PC lines of one pseudo-channel (R160). -/
def pcLines : Nat := 12582912

/-- The fused serial (Table 14-9): a manufacture value without a stated number. -/
opaque serial : W64

/-- The fused silicon stepping (Table 14-9). -/
opaque stepping : BitVec 8

/-- The straps (Table 14-9): BOARD_SLOT. -/
opaque boardSlot : BitVec 3

/-- Yillan's JEDEC manufacturer code (R423). -/
opaque jedec : BitVec 11

/-- Yillan's assigned PCI vendor identifier (R371), as PLDM QueryDeviceIdentifiers reports it (R399). -/
opaque vendorId : BitVec 16

/-- Yillan's IANA enterprise number (Table 15-5). -/
opaque ianaNumber : BitVec 32

/-- The identity public key (R404), derived from the fused device secret. -/
opaque identityKey : BitVec 256

/-- The identity certificate chain in the persistent store (R404), X.509 DER. -/
opaque identityChain : List (BitVec 8)

/-- A signature of the identity private key, which never leaves Thimble (R404). -/
opaque identitySign : List (BitVec 8) → List (BitVec 8)

/-- The SHA-256 hashes of the four root key slots (R395). -/
opaque rootKeyHash : Fin 4 → BitVec 256

/-- The fused root key revocations and anti-rollback count at the start (Table 15-16, `fused`). -/
opaque fusedRevoked : BitVec 4

/-- The anti-rollback count fused at the start (R397). -/
opaque fusedCounter : BitVec 8

/-- The images in flash at manufacture, regions A and B (Table 15-1). -/
opaque imageA : List (BitVec 8)

/-- The second image in flash (Table 15-1). -/
opaque imageB : List (BitVec 8)

/-- The measurement digest of items no register holds: ROM, fuse maps (Table 15-6). -/
opaque romBytes : List (BitVec 8)

/-- The factory fuse maps (R157, R84), as bytes that measurement 4 covers. -/
opaque factoryFuseBytes : List (BitVec 8)

/-- The factory core fuse map (R84): physical (panel, row, column) ↦ 0 good, 1 core-failed, 2 router-failed. A device
qualifies as TVM-8032 only when every band is available (R85); the modelled device has no failed core (DESIGN CHOICE,
unsafe, assumption log 2). -/
def factoryCore (_panel _row _col : Nat) : Nat := 0

/-- Whether the component digests of an image match (R395): the spec gives the directory records no layout, so the
check is a free value of the image's bytes. -/
opaque componentsOk : List (BitVec 8) → Bool

/-- The bytes of the responses whose layout other documents give (DMTF DSP0236, DSP0240, DSP0248, DSP0267, DSP0274), by
the command and what Thimble puts into them. -/
opaque encodeResponse : Nat → List (List (BitVec 8)) → List (BitVec 8)

/-- A free bit: which payload a NaN result carries when both operands are NaN (R75 says only `where IEEE 754 permits`). -/
opaque nanPickSecond : W32 → W32 → Bool

/-- The fixed-in-hardware approximation of a vector function (R99, Table 3-3): the spec gives its accuracy and not its
bits. The value selects one of the results within the stated accuracy; the first argument is the opcode. -/
opaque approx : Nat → W32 → W32 → Nat

/-- The bank and row of an HBM line (R182): the spec gives no mapping. -/
opaque hbmRowOf : Nat → Nat × Nat

/-- The PC lines of a bank's row (R182). -/
opaque hbmRowLines : Nat → Nat → List Nat

/-- The spare rows of a bank of a pseudo-channel (R182): the spec gives no number. By pseudo-channel and bank. -/
opaque hbmSpareRows : Nat → Nat → Nat

/-- Which MX element type WID.MX reads (Table 3-3): the encoding names none, so it is a free function of the slot's
modifier bits: 0 E4M3, 1 E5M2, 2 E3M2, 3 E2M3, 4 E2M1, modulo 5. -/
opaque widMxType : Nat → Nat

/-- The library calls inlined in a core image (R249, R250), by the image's words: of each its routine, the row of Table 9-1 from 0,
its channel, and whether it moves working weights. No field of the container states them. -/
opaque libraryCalls : List Nat → List (Nat × Nat × Bool)

/-- Bits [47:0] of the stream number that a collective program draws from (R72, R255), the owner's logical rank and the block
index: the library sets them, and no field of the instruction word carries them. By pattern handle, core, and core cycle. -/
opaque combineStream : Nat → Nat → Nat → BitVec 48

/-- The tokens that the token-exchange program passes through on the residual path (R73, R216): by context, band, and stitch. -/
opaque passedTokens : Nat → Nat → Nat → Nat

/-- A context's job runs a later pleat at another stage in a stitch (R39), which nothing tells this device: by context and stitch. -/
opaque otherPleat : Nat → Nat → Bool

/-- The neighbour accepts a far-end loop-back that a port asks for (R244): by port and request. -/
opaque neighbourAccepts : Nat → Nat → Bool

/-- A fresh free value, indexed by a counter of the state. -/
opaque freeNat : Nat → Nat

/-- A free value of 32 bits for an operation whose result the spec does not state for these operands. -/
opaque freeWord : Nat → W32 → W32 → W32

/-- The body of a correctable-error or violation summary in the log, by kind and counts: its layout is not given
(Table 15-14). -/
opaque logSummary : Nat → List Nat → List (BitVec 8)

end Sys2Proof.Config
end

