-- ==== Sys2Proof/Machine/CoreState.lean ====
section
/-! DEFINITION. The state of a core (Table 3-1), of a router (R111) and of the mesh. -/

namespace Sys2Proof.Machine

/-- A memory: the bytes that differ from zero, addresses strictly rising. What an unlisted address reads as is 0
(DESIGN CHOICE, unsafe, assumption log 3). -/
abbrev Mem := List Host.Cell

/-- One accumulator cell (The long accumulator, R57 to R61, R76): the 112-bit value in units of 2^(W−72), the window
exponent once it is fixed, and the three bits. -/
structure AccCell where
  acc : BitVec 112 := 0
  window : Option Int := none
  sticky : Bool := false
  sat : Bool := false
  poison : Bool := false
deriving DecidableEq, Repr

/-- A drain configuration DC_n (Table 3-1, SETDC of Table 3-6): 19 bits. -/
structure DrainCfg where
  fmt : DrainFmt := .fp32
  rnd : Rnd := .rne
  ieee : Bool := false
  sigma : BitVec 8 := 0
  tg : Fin 4 := 0
  srs : Fin 4 := 0
deriving DecidableEq, Repr

/-- A bolt stream BST_n (Table 3-1): the line pointer and the signed stride. -/
structure BoltStream where
  ptr : BitVec 20 := 0
  stride : BitVec 8 := 0
deriving DecidableEq, Repr

/-- A bobbin stream register SRS_n (Table 3-1, R102). -/
structure BobbinReg where
  purpose : BitVec 16 := 0
  sub : BitVec 10 := 0
  index : BitVec 20 := 0
deriving DecidableEq, Repr

/-- One group of tallies (Table 2-9); MAXEXP starts at −32,768 (R73). -/
structure Tally where
  maxexp : BitVec 16 := 0x8000
  sat : BitVec 32 := 0
  nf : BitVec 32 := 0
  underrun : BitVec 32 := 0
  ftz : BitVec 32 := 0
  expertOvf : BitVec 32 := 0
  emptyRow : BitVec 32 := 0
deriving DecidableEq, Repr

/-- The live expression of a predicate (R106). -/
structure PredDef where
  level : Fin 4
  cmp : PredCmp
  imm : BitVec 11
deriving DecidableEq, Repr

/-- An active loop (R107): its first body word, its length, its count and its counter LC. -/
structure LoopFrame where
  first : Nat
  body : Nat
  count : Nat
  counter : Nat
deriving DecidableEq, Repr

/-- What an instruction writes when its latency has run (R92, Tables 3-3 and 3-8): an operand pair, a scale set, the live lanes of
a vector register, a lane mask. -/
inductive LateWrite where
  | pair (p : Fin 2) (a b : BitVec 512)
  | scales (s : Fin 2) (a b : BitVec 128)
  | vreg (r : Fin 32) (live : W32) (lanes : List W32)
  | mask (m : Fin 8) (bits : W32)
deriving DecidableEq, Repr

/-- A pending write of a register, and the first core cycle at which an issue sees it. -/
structure Pending where
  due : Nat
  write : LateWrite
deriving DecidableEq, Repr

/-- What a core is running (R108): the pattern, the image's length, the word that issues next, the core cycle at which it
issues, and whether WAITS was reached. -/
structure CoreRun where
  ctx : Ctx
  handle : Nat
  length : Nat
  pc : Nat
  nextCycle : Nat
  waiting : Bool
deriving DecidableEq, Repr

/-- A scratch or instruction-store uncorrectable error latched until the boundary (R91). -/
structure CoreUe where
  istore : Bool
  addr : Nat
  syndrome : BitVec 16
deriving DecidableEq, Repr

/-- A write that reached scratch in a core cycle, with what stood there before (R90): 0 an instruction's, 1 a mesh arrival, 2 an
HBM return, the later in this order leaving its value. -/
structure ScratchWrite where
  cycle : Nat
  rank : Nat
  addr : Nat
  old : List Byte
deriving DecidableEq, Repr

/-- What GS16 blocks summed into a bank since its clear have given (R55): the OR of FLAGS, the sum of COUNT, and the largest and
least nonzero E, 0 while there is none. -/
structure Combined where
  flags : Nat := 0
  count : Nat := 0
  top : Nat := 0
  low : Nat := 0
deriving DecidableEq, Repr

/-- A core (Table 3-1), named by its logical coordinates. `rx` counts ejections per route-table entry since dispatch
(R112); `slotCount` counts the issues of each HBM slot stream in the stitch (R122). `recent` are the scratch writes of one core
cycle (R90). `half` is the first half of a GS16 block taken by library code, its header and significands, `combined` what whole
blocks gave to each bank, and `drained` what they gave to the bank drained last (R55, R56). -/
structure Core where
  scratch : Mem := []
  istore : Tab (BitVec 128) := []
  ar : Vector (BitVec 512) 2 := Vector.replicate 2 0
  br : Vector (BitVec 512) 2 := Vector.replicate 2 0
  sa : Vector (BitVec 128) 2 := Vector.replicate 2 0
  sb : Vector (BitVec 128) 2 := Vector.replicate 2 0
  cells : Tab AccCell := []
  wd : Vector (BitVec 10) 2 := Vector.replicate 2 0
  dc : Vector DrainCfg 4 := Vector.replicate 4 {}
  vr : Vector (List W32) 32 := Vector.replicate 32 (List.replicate 32 0)
  masks : Vector W32 8 := Vector.replicate 8 0
  loops : List LoopFrame := []
  cr : Vector (BitVec 14) 16 := Vector.replicate 16 0
  preds : Vector (Option PredDef) 8 := Vector.replicate 8 none
  bst : Vector BoltStream 4 := Vector.replicate 4 {}
  srs : Vector BobbinReg 4 := Vector.replicate 4 {}
  rx : Tab Nat := []
  slotCount : Tab Nat := []
  tallies : Vector Tally 4 := Vector.replicate 4 {}
  ceCount : Nat := 0
  ue : List CoreUe := []
  pending : List Pending := []
  recent : List ScratchWrite := []
  half : Option (BitVec 128 × BitVec 512) := none
  combined : Vector Combined 2 := Vector.replicate 2 {}
  drained : Combined := {}
  run : Option CoreRun := none
deriving DecidableEq, Repr

/-- A router (R111 to R113): its route-table entries (page × 256 + route identity) and MESH_CONFLICT. The page in use is that
of the pattern its band runs. `conflict` holds the route identity of a conflict not yet reported. -/
structure Router where
  entries : Tab (BitVec 32) := []
  conflicts : BitVec 32 := 0
  conflict : Option (BitVec 8) := none
deriving DecidableEq, Repr

/-- A flit on its way to a router: where it arrives, on which input. -/
structure FlitInFlight where
  panel : Nat
  row : Nat
  col : Nat
  input : MeshIn
  flit : Flit
deriving DecidableEq, Repr

/-- An HBM read that has been taken from its queue and whose data is on its way to scratch (R105). -/
structure HrdReturn where
  core : Nat
  line : Nat
  data : BitVec 512
  due : Nat
deriving DecidableEq, Repr

/-- All cores, routers, flits and returns of the panels. Cores are numbered 10,000 × panel + 125 × row + column, routers
10,240 × panel + 128 × row + column. `corrected` counts per panel the corrected errors collected from its cores (R91). -/
structure Cores where
  cores : Tab Core := []
  routers : Tab Router := []
  flits : List FlitInFlight := []
  returns : List HrdReturn := []
  corrected : Vector Nat 8 := Vector.replicate 8 0
deriving DecidableEq, Repr

end Sys2Proof.Machine
end

