-- ==== Sys2Proof/Machine/Bits.lean ====
section
/-! DEFINITION. Bit fields, little-endian bytes, sparse tables, memories and checksums. -/

namespace Sys2Proof.Machine

/-- Bits hi to lo of a word, as a number. -/
def fld {n : Nat} (w : BitVec n) (hi lo : Nat) : Nat := (w.toNat >>> lo) % 2 ^ (hi + 1 - lo)

/-- Bit i of a word. -/
def bit {n : Nat} (w : BitVec n) (i : Nat) : Bool := w.getLsbD i

/-- The mask of bits hi to lo. -/
def mask64 (hi lo : Nat) : W64 := BitVec.ofNat 64 ((2 ^ (hi + 1 - lo) - 1) <<< lo)

/-- A word with a value placed at bit lo. -/
def at64 (lo v : Nat) : W64 := BitVec.ofNat 64 (v <<< lo)

/-- A word with bits hi to lo replaced. -/
def putFld (w : W64) (hi lo v : Nat) : W64 :=
  (w &&& ~~~ mask64 hi lo) ||| (at64 lo v &&& mask64 hi lo)

/-- A Boolean as one bit. -/
def b2n (b : Bool) : Nat := if b then 1 else 0

/-- The least value of n bits a saturating counter keeps (an addition that stops at the largest value). -/
def satAdd (bits v k : Nat) : Nat := min (2 ^ bits - 1) (v + k)

/-- A saturating increment of a counter of a word type. -/
def satInc {n : Nat} (w : BitVec n) (k : Nat) : BitVec n := BitVec.ofNat n (satAdd n w.toNat k)

/-- A number as k little-endian bytes. -/
def leBytes : Nat → Nat → List Byte
  | 0, _ => []
  | k + 1, v => BitVec.ofNat 8 (v % 256) :: leBytes k (v / 256)

/-- Little-endian bytes as a number. -/
def fromLe : List Byte → Nat
  | [] => 0
  | b :: bs => b.toNat + 256 * fromLe bs

/-- Big-endian bytes of a number. -/
def beBytes (k v : Nat) : List Byte := (leBytes k v).reverse

/-- Some bytes of a list, zeros beyond its end. -/
def slice (bs : List Byte) (first n : Nat) : List Byte :=
  let r := (bs.drop first).take n
  r ++ List.replicate (n - r.length) 0

/-- The little-endian number in n bytes from `first`. -/
def leAt (bs : List Byte) (first n : Nat) : Nat := fromLe ((bs.drop first).take n)

/-- A list with the bytes from `first` replaced, its length kept. -/
def patch (bs : List Byte) (first : Nat) (new : List Byte) : List Byte :=
  bs.take first ++ (new.take (bs.length - first)) ++ bs.drop (first + new.length)

/-- n zero bytes with pieces written at their offsets. -/
def layout (n : Nat) (pieces : List (Nat × List Byte)) : List Byte :=
  pieces.foldl (fun acc p => patch acc p.1 p.2) (List.replicate n 0)

/-! Sparse tables. -/

/-- The entry of a key, if listed. -/
def Tab.find {α : Type} : Tab α → Nat → Option α
  | [], _ => none
  | (k, v) :: t, i => if k = i then some v else Tab.find t i

/-- The entry of a key, or the default. -/
def Tab.getD {α : Type} (t : Tab α) (i : Nat) (d : α) : α := (Tab.find t i).getD d

/-- A table with one entry set, keys kept rising. -/
def Tab.put {α : Type} : Tab α → Nat → α → Tab α
  | [], i, v => [(i, v)]
  | (k, w) :: t, i, v =>
    if i < k then (i, v) :: (k, w) :: t
    else if i = k then (i, v) :: t
    else (k, w) :: Tab.put t i v

/-- A table with one entry removed. -/
def Tab.drop {α : Type} : Tab α → Nat → Tab α
  | [], _ => []
  | (k, w) :: t, i => if k = i then t else (k, w) :: Tab.drop t i

/-- A table of counters with k added to one. -/
def Tab.add (t : Tab Nat) (i k : Nat) : Tab Nat := if k = 0 then t else Tab.put t i (Tab.getD t i 0 + k)

/-! Memories. -/

/-- The byte at an address: what an unlisted address reads as is 0 (DESIGN CHOICE, unsafe, assumption log 3). -/
def Mem.byte : Mem → Nat → Byte
  | [], _ => 0
  | (k, v) :: m, a => if k = a then v else Mem.byte m a

/-- A memory with one byte written, the canonical form kept. -/
def Mem.put : Mem → Nat → Byte → Mem
  | [], a, v => if v = 0 then [] else [(a, v)]
  | (k, w) :: m, a, v =>
    if a < k then (if v = 0 then (k, w) :: m else (a, v) :: (k, w) :: m)
    else if a = k then (if v = 0 then m else (a, v) :: m)
    else (k, w) :: Mem.put m a v

/-- n bytes from an address. -/
def Mem.bytes (m : Mem) (a n : Nat) : List Byte := (List.range n).map (fun i => Mem.byte m (a + i))

/-- A memory with bytes written from an address on. -/
def Mem.write : Mem → Nat → List Byte → Mem
  | m, _, [] => m
  | m, a, b :: bs => Mem.write (Mem.put m a b) (a + 1) bs

/-- A memory whose bytes from `first` to before `last` read zero. -/
def Mem.clearRange (m : Mem) (first last : Nat) : Mem := m.filter (fun c => c.1 < first || last ≤ c.1)

/-- The little-endian number in n bytes of memory. -/
def Mem.le (m : Mem) (a n : Nat) : Nat := fromLe (Mem.bytes m a n)

/-- The addresses of the list rise strictly from a bound on, and no entry is zero. -/
def Mem.rising : Nat → Mem → Bool
  | _, [] => true
  | b, (k, v) :: m => decide (b ≤ k) && decide (v ≠ 0) && Mem.rising (k + 1) m

/-- The canonical form of a memory: addresses strictly rising, no entry equal to what an unlisted address reads as. -/
def Mem.wf (m : Mem) : Bool := Mem.rising 0 m

/-! Checksums. -/

/-- One bit step of CRC-16 with polynomial 0x1021, most significant bit first. -/
def crc16Bit (c : BitVec 16) : BitVec 16 := if c.getLsbD 15 then (c <<< 1) ^^^ 0x1021 else c <<< 1

/-- One byte of CRC-16. -/
def crc16Byte (c : BitVec 16) (b : Byte) : BitVec 16 :=
  let x := c ^^^ (b.setWidth 16 <<< 8)
  crc16Bit (crc16Bit (crc16Bit (crc16Bit (crc16Bit (crc16Bit (crc16Bit (crc16Bit x)))))))

/-- CRC-16 with the parameters of R54: polynomial 0x1021, initial value 0xFFFF, no reflection, no final XOR. -/
def crc16 (bs : List Byte) : BitVec 16 := bs.foldl crc16Byte 0xFFFF

/-- One bit step of the reflected IEEE 802.3 CRC-32. -/
def crc32Bit (c : BitVec 32) : BitVec 32 := if c.getLsbD 0 then (c >>> 1) ^^^ 0xEDB88320 else c >>> 1

/-- One byte of CRC-32. -/
def crc32Byte (c : BitVec 32) (b : Byte) : BitVec 32 :=
  let x := c ^^^ b.setWidth 32
  crc32Bit (crc32Bit (crc32Bit (crc32Bit (crc32Bit (crc32Bit (crc32Bit (crc32Bit x)))))))

/-- CRC-32 of IEEE 802.3 (R411). -/
def crc32 (bs : List Byte) : BitVec 32 := ~~~ (bs.foldl crc32Byte 0xFFFFFFFF)

end Sys2Proof.Machine
end

