-- ==== Sys2Proof/Machine/HostState.lean ====
section
/-! DEFINITION. The state of patterns and admission (04_patterns), of rings, event queues, windows and contexts
(14_host_interface) and of transfers (12_checkpoints, 14_host_interface). -/

namespace Sys2Proof.Machine

/-- A bolt extent (Table 4-5) with the presented band it is placed on. -/
structure Extent where
  region : Nat
  band : Nat
  slab : Nat
  first : Nat
  count : Nat
deriving DecidableEq, Repr

/-- An idle window (Table 4-6) on a presented band. -/
structure IdleWindow where
  band : Nat
  start : Nat
  length : Nat
deriving DecidableEq, Repr

/-- An HBM slot stream (Table 4-7), its core placed. -/
structure SlotStream where
  first : Nat
  period : Nat
  count : Nat
  core : Nat
  write : Bool
  indirect : Bool
  region : Nat
  pc : Nat
  base : Nat
  stride : BitVec 32
deriving DecidableEq, Repr

/-- Where a core's image was placed (Table 4-8, R127): the core, the instruction-store word of each word of the image, and
the image's word at which issue starts. -/
structure CorePlace where
  core : Nat
  words : List Nat
  entry : Nat
deriving DecidableEq, Repr

/-- A loaded pattern (R126 step 8). `bands` are presented bands; `pages` gives each band its route page, `bridges` the panels
its routes join (R117);
`hbm` is keyed by pseudo-channel and `seam` by 8 × port + channel. -/
structure Pattern where
  ctx : Ctx
  handle : Nat
  id : BitVec 128
  declared : Nat
  tenancy : Nat
  phaseMask : Byte
  pleat : Bool
  library : Bool
  epoch : BitVec 16
  bands : List Nat
  logical : List (Nat × Nat)
  hbm : Tab Nat
  seam : Tab Nat
  extents : List Extent
  idle : List IdleWindow
  streams : List SlotStream
  cores : List CorePlace
  pages : Tab Nat
  bridges : List (Nat × Nat)
deriving DecidableEq, Repr

/-- A LOAD_PATTERN in progress (R126, R380), with the fields of its descriptor. -/
structure LoadJob where
  ctx : Ctx
  handle : Nat
  ringIndex : Nat
  addr : Nat
  size : Nat
  panelMap : List Nat
  bandBase : List Nat
deriving DecidableEq, Repr

/-- An arm entry (R130, R131). `last` is none for an open run; `barrier` carries the job tag and member count. -/
structure ArmEntry where
  ctx : Ctx
  handle : Nat
  order : Nat
  first : Stitch
  last : Option Stitch
  notify : Option Nat
  barrier : Option (BitVec 16)
  go : Bool
  missed : Bool
  bands : List Nat
  ran : Option Stitch
deriving DecidableEq, Repr

/-- A DISARM read and not yet in effect (R132). `first` is none for ALL; entries armed from `order` on came after it. -/
structure PendingDisarm where
  ctx : Ctx
  handle : Nat
  ringIndex : Nat
  notify : Bool
  first : Option Stitch
  unload : Bool
  none_ : Bool
  read : Nat
  order : Nat
deriving DecidableEq, Repr

/-- A FENCE whose completion waits for the boundary after the region is FENCED (Table 14-5, R148). -/
structure PendingFence where
  ctx : Ctx
  ringIndex : Nat
  notify : Bool
deriving DecidableEq, Repr

/-- A vote-only ARM that asked for a completion (R190). -/
structure VoteNotify where
  ctx : Ctx
  ringIndex : Nat
  stitch : Stitch
deriving DecidableEq, Repr

/-- The shard kinds of Table 12-1. -/
inductive ShardKind where
  | masters | first | second | factored | working | jobState
deriving DecidableEq, Repr

/-- A shard being taken (R335): the fields of its descriptor, and once capture has ended its header and data. -/
structure Shard where
  presser : Nat
  mirror : Bool
  entry : Nat
  firstBlock : Nat
  blocks : Nat
  kind : ShardKind
  snap : Nat
  snapLine : Nat
  template : Nat
  dest : Nat
  header : List Byte
  data : List Byte
  captured : Option Stitch
deriving DecidableEq, Repr

/-- A shard being restored (R340). `target` is the bolt region whose staging copy it writes. -/
structure Restore where
  presser : Nat
  entry : Nat
  firstBlock : Nat
  blocks : Nat
  skip : Nat
  src : Nat
  digest : List Byte
  target : Option Nat
deriving DecidableEq, Repr

/-- One region record of a bundle (Table 12-11). -/
structure BundleRegion where
  bolt : Bool
  index : Nat
  lines : Nat
  offset : Nat
  size : Nat
  digest : List Byte
deriving DecidableEq, Repr

/-- A bundle being streamed (R348 step 5). -/
structure Bundle where
  src : Nat
  portH : Bool
  keyId : W64
  model : BitVec 128
  slot : Nat
  regions : List BundleRegion
deriving DecidableEq, Repr

/-- What a running transfer moves (R379). -/
inductive TransferKind where
  | copyIn (hostAddr length : Nat) (bolt : Bool) (region offset : Nat)
  | copyOut (hostAddr length : Nat) (bolt : Bool) (region offset : Nat)
  | bundle (b : Bundle)
  | shard (h : Shard)
  | restore (r : Restore)
deriving DecidableEq, Repr

/-- A running transfer. -/
structure Transfer where
  id : Nat
  ctx : Ctx
  ringIndex : Nat
  notify : Bool
  kind : TransferKind
deriving DecidableEq, Repr

/-- Patterns, arm entries and transfers. `order` numbers arms in the order admitted (R136). -/
structure Work where
  patterns : List Pattern := []
  loads : List LoadJob := []
  entries : List ArmEntry := []
  order : Nat := 0
  disarms : List PendingDisarm := []
  fences : List PendingFence := []
  voteNotifies : List VoteNotify := []
  transfers : List Transfer := []
  nextTransfer : Nat := 0
  ledgerDirty : Bool := false
  ledgerDue : Bool := false
deriving DecidableEq, Repr

/-- A descriptor taken and not yet handled (R378): the ring position it was taken from, its 64 bytes, and the number of the poll
that took it. -/
structure Taken where
  index : BitVec 32
  bytes : List Byte
  poll : Nat := 0
deriving DecidableEq, Repr

/-- A submission ring (Table 14-10). `state` is STATE, `live` tells whether descriptors are still taken. -/
structure Ring where
  base : W64 := 0
  cfg : W64 := 6
  db : W64 := 0
  st : W64 := 0
  head : BitVec 32 := 0
  state : Nat := 0
  live : Bool := false
  stopping : Bool := false
  err : Nat := 0
  errPos : BitVec 32 := 0
  taken : List Taken := []
deriving DecidableEq, Repr

/-- An event queue (Table 14-11, R382 to R384). -/
structure EventQueue where
  base : W64 := 0
  cfg : W64 := 6
  tail : BitVec 32 := 0
  lost : BitVec 16 := 0
  headRead : BitVec 32 := 0
  honoured : BitVec 16 := 0
  statusTail : BitVec 32 := 0
deriving DecidableEq, Repr

/-- The context states of Table 14-12. -/
inductive CtxState where
  | free | active | faulted | tearingDown
deriving DecidableEq, Repr

/-- The registers of a context (Table 14-12). `age` counts the stitches since it was created (R71). `shares` are in effect; the registers hold what was written (R389). -/
structure CtxRegs where
  state : CtxState := .free
  serving : Bool := false
  result : BitVec 8 := 0
  seed : W64 := 0
  rank : W64 := 0
  age : BitVec 44 := 0
  live : W64 := 0
  shareLo : W64 := 0
  shareHi : W64 := 0
  nowLo : W64 := 0
  nowHi : W64 := 0
  teardownPending : Bool := false
  teardownDue : Bool := false
  resetBands : List Nat := []
deriving DecidableEq, Repr

/-- A switch in progress (R388). `due` tells that a boundary has come since it was accepted, or since its transfers started. -/
structure Switch where
  from_ : Ctx
  to_ : Ctx
  bands : List Nat
  started : Bool
  due : Bool
deriving DecidableEq, Repr

/-- Rings, queues, windows and contexts (Tables 14-10 to 14-12). `polls` numbers the polls of the doorbell lines (R378). -/
structure HostIf where
  ctrl : W64 := 0
  bar2Timeouts : Nat := 0
  rings : Vector Ring 16 := Vector.replicate 16 {}
  windows : Vector W64 16 := Vector.replicate 16 0
  queues : Vector EventQueue 16 := Vector.replicate 16 {}
  ctxs : Vector CtxRegs 16 := (Vector.replicate 16 {}).set 0 { state := .active }
  sw : W64 := 0
  swResult : BitVec 8 := 0
  swLo : W64 := 0
  swHi : W64 := 0
  switch : Option Switch := none
  polls : Nat := 0
deriving DecidableEq, Repr

end Sys2Proof.Machine
end

