-- ==== Sys2Proof/Machine/LinkState.lean ====
section
/-! DEFINITION. The state of the seams (08_seams) and of the collectives (09_collectives). -/

namespace Sys2Proof.Machine

/-- The port states of Table 8-7. -/
inductive PortState where
  | down | trainFull | retune | check | active | loopback | fenced | failed
deriving DecidableEq, Repr

/-- A training the system context asked for at the next boundary (R240). -/
inductive TrainReq where
  | fullEq | retune
deriving DecidableEq, Repr

/-- A sent frame kept until ACK covers it (R233): its FSEQ and its 256 payload cells. -/
structure SentFrame where
  fseq : BitVec 32
  cells : List FrameCell
deriving DecidableEq, Repr

/-- A received frame with a block under repair (R232 to R234): its FSEQ, its cells, the BCRC words of its trailer and
the blocks still bad. `header` is the replay header whose block is arriving and `got` the cells of it so far. -/
structure HeldFrame where
  fseq : BitVec 32
  cells : List FrameCell
  crcs : List (BitVec 16)
  bad : BitVec 8
deriving DecidableEq, Repr

/-- A replayed block on its way in (R233): the frame and block of its header and the cells that have come. -/
structure ReplayIn where
  fseq : BitVec 32
  block : Nat
  got : List FrameCell
deriving DecidableEq, Repr

/-- A queued cell of a (VC, context) stream and whether it holds a credit of the book (R263). -/
structure QueuedCell where
  data : CellData
  hem : Fin 2
  credit : Bool
deriving DecidableEq, Repr

/-- A stream of one channel and one context at a port: cells queued for departure (R225), and cells received in order and not
yet taken as a packet (R234). `late` counts the cells still discarded when they come, of a packet that a deadline completed (R236) or
an abort cut (R270). `cut` tells that the last packet of `rx` gets no more cells (R237, R243); what came after it waits in `after`. -/
structure PortStream where
  vc : Fin 8
  ctx : Fin 16
  tx : List QueuedCell := []
  rx : List CellData := []
  late : Nat := 0
  cut : Bool := false
  after : List CellData := []
deriving DecidableEq, Repr

/-- A VC_0 message in a port's queue (R231). `since` is the arrival of a MARKER that is forwarded, in ps of the time base since
power-on: the forwarding latency runs from it. -/
structure QueuedMsg where
  msg : Vc0Msg
  since : Int := 0
deriving DecidableEq, Repr

/-- A seam port (R219 to R248). `met` tells that the training under way or in force has exchanged identities (R220), `group` counts
frames modulo five (R222), and `turned` holds the received cells that a link-layer far end returns (R244). -/
structure Port where
  cfg : W64 := 1
  state : PortState := .down
  powered : Bool := false
  fence : Bool := false
  fencePending : Option Bool := none
  trainPending : Option TrainReq := none
  loopPending : Option (Fin 8) := none
  loop : Fin 8 := 0
  farLoop : Bool := false
  fresh : Bool := true
  laneLock : BitVec 8 := 0
  nbAddr : BitVec 15 := 0
  nbPort : Fin 16 := 0
  nbSerial : W64 := 0
  saved : Bool := false
  savedSerial : W64 := 0
  met : Bool := false
  miswired : Bool := false
  degraded : Bool := false
  delayFails : Nat := 0
  held : Bool := false
  delayPs : BitVec 32 := 0
  sigmaPs : BitVec 16 := 0
  lost : Option PortLoss := none
  cwCorrected : Nat := 0
  cwUncorrectable : Nat := 0
  blockBad : Nat := 0
  poisoned : Nat := 0
  replayed : Nat := 0
  retunes : Nat := 0
  symCorrected : Nat := 0
  unsent : Nat := 0
  fseq : BitVec 32 := 0
  expected : BitVec 32 := 0
  frame : Nat := 0
  group : Nat := 0
  nak : List (BitVec 32 × BitVec 8) := []
  sent : List SentFrame := []
  replayOut : List CellData := []
  held256 : List HeldFrame := []
  replayIn : Option ReplayIn := none
  badTrailers : Nat := 0
  table : Tab (Fin 8 × Fin 16) := []
  streams : List PortStream := []
  vc0 : List QueuedMsg := []
  mgmt : List CellData := []
  turned : List CellData := []
deriving DecidableEq, Repr

/-- The seams (Table 8-11 and the ports). `route` is the management table; an unlisted entry reads 0xF. `ledgerDirty` tells that a
port changed state since the ledger was built (R238). -/
structure Sea where
  ctrl : W64 := 0x500
  addr : W64 := 0
  tree : W64 := 0x00F0_000F
  rtSel : W64 := 0
  route : Tab (BitVec 4) := []
  ports : Vector Port 16 := Vector.replicate 16 {}
  thimbleIn : List Packet := []
  ledgerDirty : Bool := false
deriving DecidableEq, Repr

/-- A remembered ABORT key (R269): the job, the attempt, and the time-base cycle count since power-on at which it was
entered. -/
structure AbortKey where
  job : BitVec 16
  attempt : BitVec 16
  entered : Nat
deriving DecidableEq, Repr

/-- The collective state of a context (Table 9-10). `lent` is keyed by 8 × hem die + VC. -/
structure ColCtx where
  job : BitVec 16 := 0
  aborted : Bool := false
  abortStitch : Stitch := 0
  abortPs : Nat := 0
  credit : W64 := 0
  creditPending : Option W64 := none
  staleSeq : BitVec 16 := 0
  staleEpoch : BitVec 16 := 0
  noCredit : BitVec 16 := 0
  aborts : BitVec 16 := 0
  lent : Tab Nat := []
  peak : BitVec 16 := 0
  seq : Vector (BitVec 32) 6 := Vector.replicate 6 0
  largest : Vector (Option (BitVec 32)) 6 := Vector.replicate 6 none
  poisoned : Bool := false
deriving DecidableEq, Repr

/-- The collectives (Tables 9-8 to 9-10). `mesh` holds the cells of the packet that an attachment router is passing to its hem die,
keyed by 16 × router + context; `packets` the whole packets in the order received, keyed by 16 × hem die + context (R228). -/
structure Col where
  ctrl : W64 := 2
  log0 : W64 := 0
  log1 : W64 := 0
  keys : List AbortKey := []
  ctxs : Vector ColCtx 16 := Vector.replicate 16 {}
  mesh : Tab (List CellData) := []
  packets : Tab (List Packet) := []
deriving DecidableEq, Repr

end Sys2Proof.Machine
end

