-- ==== Sys2Proof/Machine/MemState.lean ====
section
/-! DEFINITION. The state of the bolt (05_bolt) and of the HBM tier (06_hbm_tier). -/

namespace Sys2Proof.Machine

/-- The residency states of Table 5-3. -/
inductive BoltResidency where
  | free | loading | resident | dirty | fenced
deriving DecidableEq, Repr

/-- One run of a bolt region (R143): which band, logical column and slab, and its first line in the slab. -/
structure BoltRun where
  band : Nat
  col : Nat
  slab : Nat
  base : Nat
deriving DecidableEq, Repr

/-- A bolt region (R142 to R148): its configuration, its runs, its state, LIVE, the ranges of logical lines
loaded since DEFINE, and the lines the presser wrote to the staging copy in the step. `filling`: it fills from its backing;
`stopped`: its loader stopped when a band of it powered down (Table 5-2). -/
structure BoltRegion where
  ctx : Ctx
  index : Nat
  lines : Nat
  twin : Bool
  backed : Bool
  hbmRegion : Nat
  offset : Nat
  bands : List Nat
  runs : List BoltRun
  state : BoltResidency
  live : Bool
  loaded : List (Nat × Nat)
  stagedLines : Nat
  slot : Option Nat
  filling : Bool
  stopped : Bool
deriving DecidableEq, Repr

/-- Bytes of a working copy that a presser has to write to the staging copy of a twin region's run (R144, R147): the presser,
the device region, the band and logical column, the first byte within the run, and the elements' lines among them. -/
structure StageWrite where
  presser : Nat
  region : Nat
  band : Nat
  col : Nat
  first : Nat
  bytes : List Byte
  elements : Nat
deriving DecidableEq, Repr

/-- A corrected line waiting in a slab's write-back buffer (R153): its 20-bit line and the corrected data. -/
structure WriteBack where
  line : Nat
  data : BitVec 256
deriving DecidableEq, Repr

/-- A bolt uncorrectable error latched until the boundary (R154); `scrub`: the scrubber found it. -/
structure BoltUe where
  panel : Nat
  slab : Nat
  line : Nat
  syndrome : BitVec 16
  scrub : Bool
deriving DecidableEq, Repr

/-- A model slot of the hot tier (R149). -/
structure ModelSlot where
  valid : Bool := false
  id : BitVec 128 := 0
  regions : List Nat := []
  stamp : Stitch := 0
deriving DecidableEq, Repr

/-- The bolt (R139 to R159). `mem` is named by ((panel × 128 + slab) × 2^20 + line) × 32 + byte. Of lines named by
(panel × 128 + slab) × 2^20 + line: `weak` are those last read with a correctable error and `bad`, with its syndrome, with an
uncorrectable one, neither written since; `rewritten` were uncorrectable before they were last written (R158); `lapCorrected`
lists the bits corrected on the lap. `waiting` are the staging writes not yet made, `spent` the pair writes that the loaders
made in the stitch in a slab segment, named by 128 × band + slab, and `covered` the pairs that the scrubber has read of each
band's segments in the lap (R147, R155). -/
structure Bolt where
  mem : Mem := []
  ctrl : W64 := 3
  rgnSel : Nat := 0
  cfg : W64 := 0
  bandsLo : W64 := 0
  bandsHi : W64 := 0
  backing : W64 := 0
  result : BitVec 8 := 0
  regions : Tab BoltRegion := []
  excluded : List (Nat × Nat) := []
  buffers : Tab (List WriteBack) := []
  slots : Vector ModelSlot 64 := Vector.replicate 64 {}
  starved : Vector Bool 8 := Vector.replicate 8 false
  laps : Vector Nat 8 := Vector.replicate 8 0
  lastLap : Vector Nat 8 := Vector.replicate 8 0
  corrected : Vector Nat 8 := Vector.replicate 8 0
  uncorrectable : Vector Nat 8 := Vector.replicate 8 0
  wbDropped : Vector Nat 8 := Vector.replicate 8 0
  ue : List BoltUe := []
  lapCorrected : List (Nat × Nat) := []
  weak : List Nat := []
  bad : Tab (BitVec 16) := []
  rewritten : List Nat := []
  waiting : List StageWrite := []
  spent : Tab Nat := []
  covered : Vector Nat 128 := Vector.replicate 128 0
deriving DecidableEq, Repr

/-- An HBM region (R162 to R166). `mode` is MODE of Table 6-2. -/
structure HbmRegion where
  mode : Nat
  target : Nat
  pcLines : Nat
  parity : Bool
  base : Nat
  ready : Bool
  blocked : Bool
deriving DecidableEq, Repr

/-- Who makes an access, in the order in which one cycle's accesses are taken (R161). -/
inductive AccessSource where
  | pattern | presser | loader | portH | portS | drain | scrub
deriving DecidableEq, Repr

/-- What an access does at its queue: deliver a line to a core's scratch (HRD), a whole-line write (HWR or presser), a
write of some bytes of the line (spare-slot engines), or zeroing of a new region (R166). -/
inductive AccessKind where
  | hrd (core line due : Nat)
  | zeros (core line due : Nat)
  | lineWrite (data : BitVec 512)
  | bytesWrite (mask : W64) (data : BitVec 512)
  | bar2Read (count byte : Nat)
deriving DecidableEq, Repr

/-- An access on its way to its pseudo-channel queue (R161). `key` orders patterns of one cycle by band, row, column;
`owner` is the context whose region it names; `transfer` the transfer it belongs to. -/
structure Access where
  pc : Nat
  line : Nat
  source : AccessSource
  arrival : Nat
  key : Nat
  kind : AccessKind
  owner : Ctx
  region : Nat
  transfer : Option Nat
deriving DecidableEq, Repr

/-- A write-combining entry that is open or sealed (R173, R175); free entries are not listed. -/
structure WcEntry where
  pc : Nat
  line : Nat
  valid : W64
  data : BitVec 512
  sealed : Bool
deriving DecidableEq, Repr

/-- An HBM uncorrectable error latched until the boundary (R179); `scrub`: the scrubber found it. -/
structure HbmUe where
  pc : Nat
  line : Nat
  syndrome : BitVec 16
  sector : Bool
  scrub : Bool
deriving DecidableEq, Repr

/-- A VERIFIED backing (R298): the lines of a context's HBM region that a checked bundle filled, and the publisher key that signed
it (R350). -/
structure CheckedBacking where
  ctx : Nat
  region : Nat
  first : Nat
  count : Nat
  key : W64
deriving DecidableEq, Repr

/-- The HBM tier (R160 to R187). `tallyOut` are the tally lines waiting for the calibration window (context, line, bytes;
R186). `floorNow` is SCRUB_FLOOR in force (R181). `mem` is named by (pc × 12,582,912 + line) × 64 + byte. Of
sectors named by (pc × 12,582,912 + line) × 2 + sector: `weak`, `bad` and `rewritten` as in the bolt (R178, R179, R182), and
`lapCorrected` those corrected on the lap. `scrubbed` counts the lines that each pseudo-channel's scrub pointer has passed in the lap
in the slots of SCRUB_FLOOR (R180). `checked` are the VERIFIED backings. -/
structure Hbm where
  mem : Mem := []
  ctrl : W64 := 0x0010_0002
  floorNow : Nat := 16
  cpar : BitVec 16 := 0
  rgnSel : W64 := 0
  cfg : W64 := 0
  result : BitVec 8 := 0
  regions : Tab HbmRegion := []
  inflight : List Access := []
  wc : Vector (List WcEntry) 8 := Vector.replicate 8 []
  highWater : Vector Nat 8 := Vector.replicate 8 0
  temp : Vector (BitVec 8) 8 := Vector.replicate 8 0
  tempMax : Vector (BitVec 8) 8 := Vector.replicate 8 0
  tempFails : Vector Nat 8 := Vector.replicate 8 0
  faulted : Vector Bool 8 := Vector.replicate 8 false
  corrected : Vector Nat 8 := Vector.replicate 8 0
  uncorrectable : Vector Nat 8 := Vector.replicate 8 0
  onDie : Vector Nat 8 := Vector.replicate 8 0
  laps : Vector Nat 8 := Vector.replicate 8 0
  lastLap : Vector Nat 8 := Vector.replicate 8 0
  excluded : List (Nat × Nat) := []
  ue : List HbmUe := []
  lapCorrected : List Nat := []
  weak : List Nat := []
  bad : Tab (BitVec 16) := []
  rewritten : List Nat := []
  scrubbed : Tab Nat := []
  checked : List CheckedBacking := []
  refreshes : Nat := 0
  refreshIndex : Nat := 0
  calibrations : Nat := 0
  tallyOut : List (Nat × Nat × List Byte) := []
deriving DecidableEq, Repr

end Sys2Proof.Machine
end

