-- ==== Sys2Proof/Machine/MgmtState.lean ====
section
/-! DEFINITION. The state of faults and resets (13_faults_and_resets), of Thimble (15_thimble), of test and bring-up
(16_bringup_and_test), and of the module's balls (17_package_and_electrical). -/

namespace Sys2Proof.Machine

/-- A fault record (Table 13-3) waiting for the next boundary (R356), and whether it is an ABORT_RECEIVED record of a
context. -/
structure FaultRec where
  cause : Byte
  cls : Byte
  unitKind : Byte
  unitA : BitVec 16
  unitB : BitVec 32
  unitC : BitVec 32
  flags : Byte
  contexts : BitVec 16
  stitch : Stitch
  cycle : CycleCount
  address : W64
  syndrome : W64
deriving DecidableEq, Repr

/-- The power states of a band (Table 13-18). -/
inductive BandState where
  | on | fenced | poweringDown | off | poweringUp | unavailable | resetting
deriving DecidableEq, Repr

/-- A band's fault and power state (R368). `owner` is OWNER; `request` a PWR_OFF write waiting for its boundary;
`upAfter` a PWR_OFF = 0 written while the band goes down; `downAfter` a PWR_OFF = 1 written while it comes up;
`since` counts the boundaries marked when its power state last changed: what follows waits for a later one. -/
structure Band where
  owner : Ctx := 0
  state : BandState := .on
  pwrOff : Bool := false
  drops : BitVec 32 := 0
  downPending : Bool := false
  upAfter : Bool := false
  downAfter : Bool := false
  since : Nat := 0
  test : Bool := false
deriving DecidableEq, Repr

/-- Where a device reset or a power-on stands (R364, R417): none, the hold of step 1, steps 2 to 8, stopped after the
hold with AUTO_RESET clear (R359), or a power-on. -/
inductive ResetPhase where
  | none | hold | running | stopped | powerOn
deriving DecidableEq, Repr

/-- A violation counter (Table 13-18). -/
structure Violation where
  count : BitVec 32 := 0
  lastKind : Byte := 0
deriving DecidableEq, Repr

/-- Faults and resets (Tables 13-16 to 13-18, R354). `misses` and `beats` are per heartbeat source: panel sequencers
0 to 7, pressers 8 to 15, the stitch unit 16, the serving unit 17. `jobFault` and `deviceFault`: job-fault actions are due, and
a device fault was declared, in this stitch (R358, R369). `counted`: the reset in progress is in RESETS. Bit p of `beaten` tells
that panel sequencer p has written its heartbeat in a maintenance slot since the last sample (R16). -/
structure Flt where
  ctrl : W64 := 6
  resets : BitVec 16 := 0
  lastCause : Byte := 0
  lastTrigger : BitVec 3 := 0
  resetting : Bool := true
  mode : Nat := 0
  unitBusy : Bool := false
  unitResult : Byte := 0
  unitKind : Nat := 0
  unitIndex : Nat := 0
  hung : BitVec 18 := 0
  heldPorts : BitVec 16 := 0
  heldStacks : BitVec 8 := 0
  heldPanels : BitVec 8 := 0
  viol : Vector Violation 16 := Vector.replicate 16 {}
  bands : Vector Band 128 := Vector.replicate 128 {}
  misses : Vector Nat 18 := Vector.replicate 18 0
  beats : Vector (BitVec 32) 18 := Vector.replicate 18 0
  beaten : BitVec 8 := 0
  phase : ResetPhase := .powerOn
  restarts : Nat := 0
  pendingTrigger : BitVec 3 := 0
  pendingCause : Byte := 0
  counted : Bool := false
  jobFault : Bool := false
  deviceFault : Bool := false
  records : List FaultRec := []
  deferred : List FaultRec := []
deriving DecidableEq, Repr

/-- A panel's clock and thermal state (Table 15-16, R407). -/
structure PanelClock where
  hottest : BitVec 16 := 0
  targetK : Nat := 16
  clockK : Nat := 16
  hot : Nat := 0
  nominal : Nat := 0
  cooled : Bool := false
deriving DecidableEq, Repr

/-- Where a firmware update stands (R399). -/
inductive UpdateState where
  | idle | learning | transferring | transferred | verified
deriving DecidableEq, Repr

/-- A log entry (Table 15-13) without its CRC, which is computed when it is read. -/
structure LogEntry where
  seq : BitVec 32
  kind : Byte
  flags : Byte
  powerOn : BitVec 16
  uptime : W64
  stitch : Stitch
  cycle : CycleCount
  body : List Byte
deriving DecidableEq, Repr

/-- A THM mailbox command running (Table 15-9). -/
structure MboxCmd where
  cmd : Byte
  arg : BitVec 32
deriving DecidableEq, Repr

/-- Thimble (R391 to R416). `sensors` and `sensorMax` list the sensors whose readings differ from 0; `images` are the
bytes of regions A and B; `fuses` are the bolt, HBM-row and core soft-fuse maps; `applied` are those maps as the last
power-on or device reset applied them (R413); `second`, `ceSeen` and `violSeen` are the last whole second logged and the
counts as they stood then (Table 15-14). -/
structure Thm where
  ctrl : W64 := 6
  restarts : Byte := 0
  halted : Bool := false
  critFull : Bool := false
  flashBusy : Bool := false
  restarting : Bool := false
  firstRestart : Option Nat := none
  recovery : Bool := false
  counter : Byte := Config.fusedCounter
  revoked : BitVec 4 := Config.fusedRevoked
  imageA : List Byte := Config.imageA
  imageB : List Byte := Config.imageB
  activeB : Bool := false
  runningB : Bool := false
  updatePending : Bool := false
  trial : Bool := false
  attempts : Byte := 0
  update : UpdateState := .idle
  updateVia : Transport := .i3c
  mboxAddr : W64 := 0
  mboxLen : W64 := 0
  mboxArg : BitVec 32 := 0
  mboxResult : Byte := 0
  mbox : Option MboxCmd := none
  removal : Option (Fin 16) := none
  nextSeq : BitVec 32 := 0
  genNext : BitVec 16 := 0
  general : Tab LogEntry := []
  critical : List LogEntry := []
  powerOns : BitVec 16 := 0
  sensorSel : W64 := 0
  sensors : Tab (BitVec 32) := []
  sensorMax : Tab (BitVec 32) := []
  domHeld : List Nat := []
  clkLock : BitVec 25 := 0
  panels : Vector PanelClock 8 := Vector.replicate 8 {}
  fuses : Vector (List W64) 3 := Vector.replicate 3 []
  applied : Vector (List W64) 3 := Vector.replicate 3 []
  pubKeys : Vector (Option (BitVec 256)) 16 := Vector.replicate 16 none
  generation : Nat := 0
  commitCert : Bool := false
  receiver : Option Byte := none
  eidI3c : Byte := 0
  eidPcie : Byte := 0
  spdmNegotiated : Bool := false
  second : Nat := 0
  ceSeen : List Nat := []
  violSeen : List Nat := []
deriving DecidableEq, Repr

/-- The test block (Table 16-8) and the running test with its target. -/
structure Tst where
  ctrl : W64 := 0
  cmd : W64 := 0
  elapsed : BitVec 32 := 0
  result : Byte := 0
  busy : Bool := false
  test : BitVec 16 := 0
  target : Nat := 0
  edge : Nat := 0
  stopping : Bool := false
  detail : W64 := 0
  errors : BitVec 32 := 0
  checked : BitVec 32 := 0
  fst : W64 := 0
deriving DecidableEq, Repr

/-- The test access port (R422 to R424): the instruction register, the boundary register as last captured or preloaded,
whether the balls are driven from it, are high-impedance, or are in functional use, and the selected HBM wrapper. -/
structure Tap where
  ir : Byte := 0xFF
  boundary : List Byte := []
  driven : Bool := false
  highz : Bool := false
  wrapper : Option (Fin 8) := none
deriving DecidableEq, Repr

/-- The states of a PCIe port's link the spec names (R361, R419, R425). -/
inductive LinkState where
  | down | l0 | loopback
deriving DecidableEq, Repr

/-- The module's balls and supply (R418, R419, R438 to R442). `faultLow`: a device fault's reset has not ended. -/
structure Power where
  inputOk : Bool := true
  alwaysOn : Bool := true
  perstH : Bool := true
  perstS : Bool := true
  linkH : LinkState := .down
  linkS : LinkState := .down
  pwrgd : Bool := false
  faultLow : Bool := false
deriving DecidableEq, Repr

end Sys2Proof.Machine
end

