-- ==== Sys2Proof/Machine/ServeState.lean ====
section
/-! DEFINITION. The state of the serving unit (10_serving). -/

namespace Sys2Proof.Machine

/-- The slot states of Table 10-2. -/
inductive SlotState where
  | free | prefill | decode | retiring | parking | resuming
deriving DecidableEq, Repr

/-- A sequence slot record (Table 10-1). `since` is the boundary at which the slot entered RETIRING; `cause` is the
kind of the RETIRED record that a PARKING or RESUMING slot owes when its transfer ends (R282). -/
structure SeqSlot where
  tag : W64 := 0
  state : SlotState := .free
  prio : BitVec 3 := 0
  ctx : Ctx := 0
  length : Nat := 0
  promptLen : Nat := 0
  maxLen : Nat := 0
  swatches : Nat := 0
  window : Nat := 0
  gBase : Nat := 0
  globalMask : W64 := 0
  admitted : Stitch := 0
  keepLow : Nat := 0
  promptLine : BitVec 32 := 0
  timeout : BitVec 32 := 0
  swapAddr : W64 := 0
  since : Stitch := 0
  cause : Option Nat := none
deriving DecidableEq, Repr

/-- The kinds of a work-list entry (Table 10-5). -/
inductive EntryKind where
  | masked | decode | prefill
deriving DecidableEq, Repr

/-- A work-list entry (Table 10-5) with the position it stands at in the list. -/
structure ListEntry where
  index : Nat
  slot : Nat
  kind : EntryKind
  last : Bool
  count : Nat
  position : Nat
  newSwatch : Option Nat
  swatches : Nat
  window : Nat
  globalMask : W64
  gBase : Nat
  promptLine : BitVec 32
deriving DecidableEq, Repr

/-- A result as read from a leader core (Table 10-6). -/
structure ResultRec where
  index : Nat
  token : W32
  valid : Bool
  stop : Bool
deriving DecidableEq, Repr

/-- A release read in stitch `read`, which takes effect at the first boundary after (R282), with the ring index to report when NOTIFY
asks. -/
structure ReleaseReq where
  tag : W64
  notify : Option Nat
  read : Stitch
deriving DecidableEq, Repr

/-- An admission taken in stitch `taken` (R279): the slot record to enter at the boundary after, whether it resumes, and its ring
index when NOTIFY asks for a completion. -/
structure AdmitReq where
  slot : SeqSlot
  resume : Bool
  notify : Option Nat
  taken : Stitch
deriving DecidableEq, Repr

/-- The serving state of a context (Table 10-11). `owner` maps a pool swatch to its slot and swatch number (R284);
`current` is list N, `next` list N + 1, `listBefore` the list whose results are read. `serving`: EN is set, or a slot is left.
`disabling`: EN was cleared since the last boundary; `closing`: the clearing took effect at the last boundary, and its slots
retire at cycle 64. `head` is the ring index of the SEQ_ADMIT that stood at the ring's head at the last boundary, and `waited`
the whole stitches it has stood there (R281). -/
structure SrvCtx where
  cfg : W64 := 0x0100_0000_0000_0000
  pool : W64 := 0x0001_0000
  list : W64 := 0x0001_0100
  tqBase : W64 := 0
  tqCtrl : W64 := 12
  rt : W64 := 0
  rtNow : Bool := false
  reserveNow : W64 := 0
  serving : Bool := false
  disabling : Bool := false
  closing : Bool := false
  stalls : BitVec 16 := 0
  preempted : BitVec 16 := 0
  lost : BitVec 16 := 0
  tail : BitVec 32 := 0
  owner : Tab (Nat × Nat) := []
  current : List ListEntry := []
  next : List ListEntry := []
  results : Option (List ResultRec) := none
  listBefore : List ListEntry := []
  victims : List Nat := []
  trims : List (Nat × Nat × Nat) := []
  admits : List AdmitReq := []
  releases : List ReleaseReq := []
  head : Option (BitVec 32) := none
  waited : Nat := 0
  lastBacklog : Option Stitch := none
  discard : Bool := false
  discardNext : Bool := false
deriving DecidableEq, Repr

/-- The serving unit (R274 to R301). `slots` lists the slots that are not FREE with a zero record. -/
structure Srv where
  ctrl : W64 := 0
  slotSel : W64 := 0
  slots : Tab SeqSlot := []
  ctxs : Vector SrvCtx 16 := Vector.replicate 16 {}
  failed : Bool := false
deriving DecidableEq, Repr

end Sys2Proof.Machine
end

