-- ==== Sys2Proof/Machine/StitchState.lean ====
section
/-! DEFINITION. The state of the stitch unit (01_stitch): period, counters, alignment, stretch, barriers, and the phase
ledger. -/

namespace Sys2Proof.Machine

/-- A pending announcement (R34, R35): what it announces. -/
inductive AnnKind where
  | stretch (k : BitVec 6)
  | period (units : BitVec 24)
deriving DecidableEq, Repr

/-- A pending announcement with its apply stitch (R34). -/
structure Announcement where
  kind : AnnKind
  apply : Stitch
deriving DecidableEq, Repr

/-- The count a child port reported for a tag (R29). -/
structure ChildCount where
  port : PortId
  expected : BitVec 16
  count : BitVec 16
deriving DecidableEq, Repr

/-- The barrier state held for one job tag and start stitch (R29): this device's own expected count when it has armed,
the last READY of each child, the aggregate last sent, and the GO or MISS received (true for GO). -/
structure Barrier where
  tag : BitVec 16
  start : Stitch
  own : Option (BitVec 16)
  children : List ChildCount
  sent : Option (BitVec 16 × BitVec 16)
  outcome : Option Bool
deriving DecidableEq, Repr

/-- The open phase ledger record of a context (Table 1-14). -/
structure PhaseRec where
  layoutEpoch : BitVec 16 := 0
  step : W64 := 0
  firstStitch : Stitch := 0
  stitchCount : BitVec 32 := 0
  periodUnits : BitVec 32 := 0
  stretched : BitVec 32 := 0
  pleat : BitVec 32 := 0
  bandCount : BitVec 16 := 0
  flags : BitVec 16 := 0
  device : List W64 := List.replicate 8 0
  panels : List W64 := List.replicate 64 0
deriving DecidableEq, Repr

/-- What a band runs in the current stitch (R131, R44): the context and handle of the entry dispatched, the declared
cycles, whether it is a pleat variant, and the phase markers of its leader core, newest first. -/
structure BandRun where
  ctx : Ctx
  handle : Nat
  cycles : Nat
  pleat : Bool
  marks : List (Nat × Fin 8)
deriving DecidableEq, Repr

/-- The stitch unit. Registers whose fields software writes are held as words (`ctrl`, `ledgerBase`, `ledgerCfg`);
PENDING, HELD, PENDING_UNITS, PEND_* and REASONS are read off the fields below (Tables 1-2 to 1-6). `steps` holds each
band's step summary (R74); `marks` counts the boundaries marked, so that a
descriptor read before a boundary is told from one read after it; `counting` that a boundary has been marked since ENABLE
(R421); `sendsAlt` that a takeover made this master send on the alternate tree (R26); `supplyBad` names what the rail
monitor last saw outside its limits, 32 for the input power (R408); `correctionPs` is the phase correction that the next boundary
takes, and `phasePs` what of the corrections so far is less than a time-base cycle (R23); bit n of `pleatRan` tells that context n ran a
pleat in the stitch before (R39). -/
structure Stu where
  ctrl : W64 := 0
  periodUnits : BitVec 24 := 0x400
  held : Option (BitVec 24) := none
  immediate : Option (BitVec 24) := none
  queue : List Announcement := []
  stitch : Stitch := 0
  cycle : CycleCount := 0
  pos : Nat := 0
  length : Nat := 65536
  curFactor : BitVec 6 := 16
  sysFactor : BitVec 6 := 0
  ownFactor : BitVec 6 := 16
  subtreeFactor : BitVec 6 := 16
  childFactors : Tab (BitVec 6) := []
  childReasons : Tab (BitVec 4) := []
  sentReasons : BitVec 4 := 0
  lastAnnounced : BitVec 6 := 16
  factorAge : Nat := 0
  annSent : Bool := false
  stretchSent : Bool := false
  hbmTarget : Nat := 16
  hbmHot : Nat := 0
  supply : Bool := false
  supplyOk : Nat := 0
  supplyBad : List Nat := []
  offset : BitVec 16 := 0
  correctionPs : Int := 0
  phasePs : Nat := 0
  pleatRan : BitVec 16 := 0
  missed : BitVec 7 := 0
  holdover : Bool := false
  tree : Bool := false
  epoch : BitVec 8 := 0
  epochHeld : Bool := false
  hops : BitVec 8 := 0
  acquiring : Bool := false
  markerSeen : Bool := false
  primarySeen : Bool := false
  primaryMissed : Nat := 0
  sendsAlt : Bool := false
  barriers : List Barrier := []
  ledgerBase : Vector W64 16 := Vector.replicate 16 0
  ledgerCfg : Vector W64 16 := Vector.replicate 16 4
  ledgerNext : Vector (BitVec 32) 16 := Vector.replicate 16 0
  phase : Vector PhaseRec 16 := Vector.replicate 16 {}
  bands : Tab BandRun := []
  steps : Tab (List Tally) := []
  marks : Nat := 0
  counting : Bool := false
deriving DecidableEq, Repr

end Sys2Proof.Machine
end

