-- ==== Sys2Proof/Machine/TrainState.lean ====
section
/-! DEFINITION. The state of the pressers and of the training step (07_training_step), of the votes, and of lining and
alterations (11_alterations). -/

namespace Sys2Proof.Machine

/-- A hyperparameter set (Table 7-6). -/
structure HyperSet where
  lrScale : W32
  b1 : W32
  b2 : W32
  eps : W32
  lambda : W32
  mu : W32
  gradScale : W32
  eps1 : W32
  expCount : BitVec 16
  sigmaInit : BitVec 8
deriving DecidableEq, Repr

/-- A schedule segment with its two rates (Table 7-7). -/
structure SchedSeg where
  firstStep : W64
  length : BitVec 32
  cosine : Bool
  lr0 : W32
  lr1 : W32
deriving DecidableEq, Repr

/-- The optimizer of an entry (Table 7-8, KIND). -/
inductive OptKind where
  | adamw | sgd | factored
deriving DecidableEq, Repr

/-- A presser table entry (Table 7-8). `wfmt` is WFMT: 0 BF16, 1 E4M3 with delayed scale, 3 none. -/
structure PrsEntry where
  firstBlock : Nat
  blockCount : Nat
  kind : OptKind
  wfmt : Nat
  decay : Bool
  momBf16 : Bool
  nesterov : Bool
  whbm : Bool
  hp : Nat
  mreg : Nat
  oreg : Nat
  wreg : Nat
  mline : Nat
  oline : Nat
  wband : Nat
  wcol : Nat
  wline : Nat
  cols : Nat
deriving DecidableEq, Repr

/-- The committed and shadow banks of an entry's AMAX and SIGMA (Table 7-1, R208). -/
structure EntryBank where
  amax : W32 := 0
  sigma : BitVec 8 := 0
  shadowAmax : W32 := 0
  shadowSigma : BitVec 8 := 0
  sigmaSet : Bool := false
  copyRestored : Bool := false
deriving DecidableEq, Repr

/-- A presser image of a context (Table 7-5). `own` and `mirror` list the entries of each presser. -/
structure PrsImage where
  hyper : List HyperSet
  segs : List SchedSeg
  held : Bool
  clipMax : W32
  own : List (List PrsEntry)
  mirror : List (List PrsEntry)
deriving DecidableEq, Repr

/-- The sums that factored mode forms in a step for one entry (R205, R209): (row or column index, FP32 sum). -/
structure FactorSums where
  rows : Tab W32 := []
  cols : Tab W32 := []
deriving DecidableEq, Repr

/-- An inbox record whose bytes have arrived (Table 7-3). -/
abbrev RecordBytes := List (BitVec 8)

/-- One presser (R198 to R211): its registers, its tables' banks, the blocks taken in the step, the inbox ring with the
writes each of its lines has had in the step and the records that are never taken, the exact norm accumulator (in units of
2^−149) with its NaN mark, the records held for the norm, the records and refill packets waiting for the partner, and, per
bolt region, the blocks whose staging copy could not be written. `spent` counts the slots it has used beyond those of earlier
stitches, in quarters (R203). -/
structure Presser where
  bind : W64 := 0
  reserve : W64 := 0
  slotsNow : BitVec 32 := 0
  applied : BitVec 32 := 0
  mirrored : BitVec 32 := 0
  statApplied : BitVec 32 := 0
  statMirrored : BitVec 32 := 0
  stale : BitVec 16 := 0
  sat : BitVec 16 := 0
  flags : BitVec 11 := 0
  own : List EntryBank := []
  mirror : List EntryBank := []
  taken : List Nat := []
  takenMirror : List Nat := []
  normTaken : Bool := false
  ring : Mem := []
  lineWrites : Tab Nat := []
  lost : List Nat := []
  nextTake : Nat := 0
  normAcc : Nat := 0
  normNan : Bool := false
  normWritten : Bool := false
  held : List (RecordBytes × Bool) := []
  mirrorIn : List RecordBytes := []
  factors : Tab FactorSums := []
  mirrorFactors : Tab FactorSums := []
  refilled : List Nat := []
  mirrorOut : List RecordBytes := []
  refillOut : List Packet := []
  staging : Tab Nat := []
  spent : Nat := 0
deriving DecidableEq, Repr

/-- A device's aggregate of the votes for a job tag (R212): the votes received per child port, its own, and what it sent
last. -/
structure VoteState where
  tag : BitVec 16
  voteStitch : Stitch
  own : Option VoteMsg
  children : List (PortId × VoteMsg)
  sent : Option VoteMsg
deriving DecidableEq, Repr

/-- A pending BEGIN (Table 11-2, R308). -/
structure PendingBegin where
  applyAt : Stitch
  newEpoch : BitVec 16
  newRank : BitVec 16
  newMembers : BitVec 16
  newMirrorRank : BitVec 16
  forced : Bool
  notify : Bool
  ringIndex : Nat
deriving DecidableEq, Repr

/-- A running REBUILD (R312): its descriptor's ring index and NOTIFY. -/
structure RebuildState where
  notify : Bool
  ringIndex : Nat
  complete : Bool
deriving DecidableEq, Repr

/-- The training state of a context (Tables 7-1, 7-15, R190, R202, R213, LIN_EPOCH_n). -/
structure TrainCtx where
  step : BitVec 44 := 0
  skips : BitVec 32 := 0
  updates : BitVec 32 := 0
  vote : W64 := 0x0000_0007_0000_0000
  clipf : W32 := 0x3F80_0000
  lagged : W32 := 0
  shadowLagged : Option W32 := none
  voteStitch : Option Stitch := none
  votedStitch : Option Stitch := none
  verdict : Option Verdict := none
  cancelled : List Stitch := []
  lastCommit : Stitch := 0
  everCommitted : Bool := false
  image : Option PrsImage := none
  staged : Option PrsImage := none
  poisoned : Bool := false
  current : BitVec 16 := 0
  vEpoch : BitVec 16 := 0
  reslicing : Bool := false
  rebuildRead : Bool := false
  rebuild : Option RebuildState := none
  begin : Option PendingBegin := none
  oldEpoch : BitVec 16 := 0
deriving DecidableEq, Repr

/-- The presser registers that serve all pressers (Table 7-13). `mirrorNow` is the value of PRS_MIRROR in force and each presser's `slotsNow` that of SLOTS (R218); `loading` is the image being read: its context and host
address. -/
structure Prs where
  ctrl : W64 := 0
  tblAddr : W64 := 0
  tblCtx : Ctx := 0
  result : BitVec 8 := 0
  loading : Option (Ctx × W64) := none
  refillIn : List Packet := []
  mirror : BitVec 32 := 0
  mirrorNow : BitVec 32 := 0
  pressers : Vector Presser 8 := Vector.replicate 8 {}
  ctxs : Vector TrainCtx 16 := Vector.replicate 16 {}
  votes : List VoteState := []
  ledgerDirty : Bool := false
deriving DecidableEq, Repr

/-- The lining states of Table 11-7. -/
inductive LiningState where
  | solo | pairing | mirrored | carrying | refilling | fenced
deriving DecidableEq, Repr

/-- The actions of a certificate (Table 11-9). -/
inductive CertAction where
  | isolate | release | leave
deriving DecidableEq, Repr

/-- Lining and quorum (Tables 11-12 to 11-14). `accepted` is a certificate accepted and not yet acted on,
`certBmc` that its RESULT is owed to the BMC; `identityDue` is an identity not yet sent to the partner (R318). -/
structure Lin where
  threshold : BitVec 3 := 0
  fabricId : W64 := 0
  lastNonce : W64 := 0
  keysValid : BitVec 7 := 0
  mgrKeys : Vector W64 28 := Vector.replicate 28 0
  keyWords : BitVec 28 := 0
  certAddr : W64 := 0
  certResult : BitVec 8 := 0
  accepted : Option (CertAction × W64) := none
  certBmc : Bool := false
  pairCfg : W64 := 0
  expectSerial : W64 := 0
  state : LiningState := .solo
  reason : BitVec 8 := 0
  valid : Bool := false
  sending : Bool := false
  receiving : Bool := false
  refilled : BitVec 32 := 0
  partnerSerial : W64 := 0
  partnerKey : BitVec 256 := 0
  partnerKnown : Bool := false
  lastEpoch : BitVec 16 := 0
  fencePending : Option Bool := none
  refillPending : Bool := false
  identityDue : Bool := false
deriving DecidableEq, Repr

end Sys2Proof.Machine
end

