-- ==== Sys2Proof/Machine/State.lean ====
section
/-! DEFINITION. The state of the device, its reset, and the reasons a step can stop. -/

namespace Sys2Proof.Machine

/-- What the device has put out at a boundary of the block: the model's own record of it, newest first. -/
inductive Output where
  | readData (value : W64)
  | bar2Data (bytes : List Byte)
  | bar2Abort
  | msix (vector : Nat)
  | frame (port : Nat) (f : Frame)
  | mcuFrame (port : Nat) (words : List (BitVec 128))
  | mctp (t : Transport) (bytes : List Byte)
  | mctpError (t : Transport)
  | pldmHeartbeat
  | platformEvent (kind : Byte) (bytes : List Byte)
  | tdo (bytes : List Byte)
  | trainingRequest (port : Nat) (depth : Nat)
deriving DecidableEq, Repr

/-- The straps as sampled at power-on, the fused grade, and on a TVM-7028 the physical panel that is disabled (Table 14-9, Table
17-2, R3). -/
structure Straps where
  grade7 : Bool := false
  disabledPanel : Fin 8 := 7
  testMode : Bool := false
  portS : Bool := true
deriving DecidableEq, Repr

/-- The device. `hostMem` is what port H reaches and `portS` what port S reaches, by bus address; `ns` is the time-base
time since power-on; `free` counts the free values drawn (DESIGN CHOICE, safe, assumption log 1); `pending` is the queue of commands. -/
structure State where
  straps : Straps := {}
  stu : Stu := {}
  cores : Cores := {}
  bolt : Bolt := {}
  hbm : Hbm := {}
  prs : Prs := {}
  lin : Lin := {}
  sea : Sea := {}
  col : Col := {}
  srv : Srv := {}
  work : Work := {}
  hif : HostIf := {}
  flt : Flt := {}
  thm : Thm := {}
  tst : Tst := {}
  tap : Tap := {}
  power : Power := {}
  hostMem : Mem := []
  portS : Mem := []
  out : List Output := []
  ns : Nat := 0
  free : Nat := 0
  pending : List Instr := []
deriving DecidableEq, Repr

/-- The device when its power-on starts: every register at its reset value, nothing in memory, RESETTING set (R417,
R420, Table 13-17). The 48 V input is in range and both PERST# balls are asserted (R419). -/
def State.reset : State := {}

/-- The reasons a command stops the model with a fault. No command of the table raises one: every error the spec
describes is an effect on the state. -/
inductive Fault where
  /-- Kept for a total interface; raised by no meaning. Safe: a fault only ends a run. -/
  | unreachable
deriving DecidableEq, Repr

/-- The reasons a command is refused. -/
inductive Refusal where
  /-- The command has no meaning in the model yet. Raised only by an arm of `exec`. Safe: nothing is claimed. -/
  | notModelled (mnemonic : String)
  /-- A private test access port instruction while TEST_MODE is 1 (R422, Table 16-2): the spec names its uses (internal
  scan, fuse programming, BIST control) and gives no effect. Raised by PRIVATE_INSTRUCTION. Safe. -/
  | privateTest (code : Byte)
deriving DecidableEq, Repr

/-- The outcome of a command. -/
abbrev Out := Host.Outcome State Fault Refusal

/-- Presented panels, stacks and pressers (R3). -/
def State.nPanels (s : State) : Nat := if s.straps.grade7 then 7 else 8

/-- The physical panel of a presented one (R3): on a TVM-7028 those from the disabled one on count one further. The fuse map names
panels so. -/
def State.physPanel (s : State) (p : Nat) : Nat := if s.straps.grade7 ∧ s.straps.disabledPanel.val ≤ p then p + 1 else p

/-- Presented pseudo-channels, N_pc (R162). -/
def State.nPc (s : State) : Nat := 32 * s.nPanels

end Sys2Proof.Machine
end

