-- ==== Sys2Proof/Machine/Update.lean ====
section
/-! DEFINITION. The updates of one block of the state, and the accesses of the entries of its tables. -/

namespace Sys2Proof.Machine

/-- The entry of a vector at a number, or the default where there is none. -/
def vAt {α : Type} {n : Nat} (v : Vector α n) (i : Nat) (d : α) : α := if h : i < n then v[i] else d

/-- A vector with one entry changed; unchanged where there is none. -/
def vMod {α : Type} {n : Nat} (v : Vector α n) (i : Nat) (f : α → α) : Vector α n :=
  if h : i < n then v.set i (f v[i]) else v

/-- The state with its block `stu` changed. -/
def State.onStu (s : State) (f : Stu → Stu) : State := { s with stu := f s.stu }

/-- The state with its block `cores` changed. -/
def State.onCores (s : State) (f : Cores → Cores) : State := { s with cores := f s.cores }

/-- The state with its block `bolt` changed. -/
def State.onBolt (s : State) (f : Bolt → Bolt) : State := { s with bolt := f s.bolt }

/-- The state with its block `hbm` changed. -/
def State.onHbm (s : State) (f : Hbm → Hbm) : State := { s with hbm := f s.hbm }

/-- The state with its block `prs` changed. -/
def State.onPrs (s : State) (f : Prs → Prs) : State := { s with prs := f s.prs }

/-- The state with its block `lin` changed. -/
def State.onLin (s : State) (f : Lin → Lin) : State := { s with lin := f s.lin }

/-- The state with its block `sea` changed. -/
def State.onSea (s : State) (f : Sea → Sea) : State := { s with sea := f s.sea }

/-- The state with its block `col` changed. -/
def State.onCol (s : State) (f : Col → Col) : State := { s with col := f s.col }

/-- The state with its block `srv` changed. -/
def State.onSrv (s : State) (f : Srv → Srv) : State := { s with srv := f s.srv }

/-- The state with its block `work` changed. -/
def State.onWork (s : State) (f : Work → Work) : State := { s with work := f s.work }

/-- The state with its block `hif` changed. -/
def State.onHif (s : State) (f : HostIf → HostIf) : State := { s with hif := f s.hif }

/-- The state with its block `flt` changed. -/
def State.onFlt (s : State) (f : Flt → Flt) : State := { s with flt := f s.flt }

/-- The state with its block `thm` changed. -/
def State.onThm (s : State) (f : Thm → Thm) : State := { s with thm := f s.thm }

/-- The state with its block `tst` changed. -/
def State.onTst (s : State) (f : Tst → Tst) : State := { s with tst := f s.tst }

/-- The state with its block `tap` changed. -/
def State.onTap (s : State) (f : Tap → Tap) : State := { s with tap := f s.tap }

/-- The state with its block `power` changed. -/
def State.onPower (s : State) (f : Power → Power) : State := { s with power := f s.power }

/-- The state with `hostMem` replaced. -/
def State.setHostMem (s : State) (v : Mem) : State := { s with hostMem := v }

/-- The state with `portS` replaced. -/
def State.setPortS (s : State) (v : Mem) : State := { s with portS := v }

/-- The state with `pending` replaced. -/
def State.setPending (s : State) (v : List Instr) : State := { s with pending := v }

/-- The state with `ns` replaced. -/
def State.setNs (s : State) (v : Nat) : State := { s with ns := v }

/-- The state with `straps` replaced. -/
def State.setStraps (s : State) (v : Straps) : State := { s with straps := v }

/-- The state with one output more. -/
def State.emit (s : State) (o : Output) : State := { s with out := o :: s.out }

/-- The state after one free value has been drawn (DESIGN CHOICE, safe, assumption log 1). -/
def State.drew (s : State) : State := { s with free := s.free + 1 }

/-- The registers of a context. -/
def State.ctx (s : State) (n : Nat) : CtxRegs := vAt s.hif.ctxs n {}

/-- The state with a context's registers changed. -/
def State.onCtx (s : State) (n : Nat) (f : CtxRegs → CtxRegs) : State :=
  s.onHif fun h => { h with ctxs := vMod h.ctxs n f }

/-- The training state of a context. -/
def State.train (s : State) (n : Nat) : TrainCtx := vAt s.prs.ctxs n {}

/-- The state with a context's training state changed. -/
def State.onTrain (s : State) (n : Nat) (f : TrainCtx → TrainCtx) : State :=
  s.onPrs fun p => { p with ctxs := vMod p.ctxs n f }

/-- A presser. -/
def State.presser (s : State) (i : Nat) : Presser := vAt s.prs.pressers i {}

/-- The state with a presser changed. -/
def State.onPresser (s : State) (i : Nat) (f : Presser → Presser) : State :=
  s.onPrs fun p => { p with pressers := vMod p.pressers i f }

/-- The collective state of a context. -/
def State.colCtx (s : State) (n : Nat) : ColCtx := vAt s.col.ctxs n {}

/-- The state with a context's collective state changed. -/
def State.onColCtx (s : State) (n : Nat) (f : ColCtx → ColCtx) : State :=
  s.onCol fun c => { c with ctxs := vMod c.ctxs n f }

/-- The serving state of a context. -/
def State.srvCtx (s : State) (n : Nat) : SrvCtx := vAt s.srv.ctxs n {}

/-- The state with a context's serving state changed. -/
def State.onSrvCtx (s : State) (n : Nat) (f : SrvCtx → SrvCtx) : State :=
  s.onSrv fun c => { c with ctxs := vMod c.ctxs n f }

/-- A sequence slot. -/
def State.slot (s : State) (i : Nat) : SeqSlot := Tab.getD s.srv.slots i {}

/-- The state with a sequence slot changed. -/
def State.onSlot (s : State) (i : Nat) (f : SeqSlot → SeqSlot) : State :=
  s.onSrv fun c => { c with slots := Tab.put c.slots i (f (Tab.getD c.slots i {})) }

/-- A seam port. -/
def State.port (s : State) (m : Nat) : Port := vAt s.sea.ports m {}

/-- The state with a seam port changed. -/
def State.onPort (s : State) (m : Nat) (f : Port → Port) : State :=
  s.onSea fun c => { c with ports := vMod c.ports m f }

/-- A submission ring. -/
def State.ring (s : State) (n : Nat) : Ring := vAt s.hif.rings n {}

/-- The state with a ring changed. -/
def State.onRing (s : State) (n : Nat) (f : Ring → Ring) : State :=
  s.onHif fun h => { h with rings := vMod h.rings n f }

/-- An event queue. -/
def State.queue (s : State) (n : Nat) : EventQueue := vAt s.hif.queues n {}

/-- The state with an event queue changed. -/
def State.onQueue (s : State) (n : Nat) (f : EventQueue → EventQueue) : State :=
  s.onHif fun h => { h with queues := vMod h.queues n f }

/-- A band's fault and power state. -/
def State.band (s : State) (g : Nat) : Band := vAt s.flt.bands g {}

/-- The state with a band's fault and power state changed. -/
def State.onBand (s : State) (g : Nat) (f : Band → Band) : State :=
  s.onFlt fun b => { b with bands := vMod b.bands g f }

/-- A core, by its number. -/
def State.core (s : State) (c : Nat) : Core := Tab.getD s.cores.cores c {}

/-- The state with a core changed. -/
def State.onCore (s : State) (c : Nat) (f : Core → Core) : State :=
  s.onCores fun k => { k with cores := Tab.put k.cores c (f (Tab.getD k.cores c {})) }

/-- A router, by its number. -/
def State.router (s : State) (r : Nat) : Router := Tab.getD s.cores.routers r {}

/-- The state with a router changed. -/
def State.onRouter (s : State) (r : Nat) (f : Router → Router) : State :=
  s.onCores fun k => { k with routers := Tab.put k.routers r (f (Tab.getD k.routers r {})) }

/-- A fold of a state over a list. -/
def State.each {α : Type} (s : State) (l : List α) (f : State → α → State) : State := l.foldl f s

end Sys2Proof.Machine
end

