-- ==== Sys2Proof/Machine/Ops.lean ====
section
/-! DEFINITION. The operations many commands share: violations, events, the log, fault records, VC_0 messages, aborts,
poisoned deliveries, and the triggers of a device reset. -/

namespace Sys2Proof.Machine

/-- The time from the stitch's start at which a panel whose clock is 16/k reaches a core cycle (R31). -/
def coreNs (clockK cycle : Nat) : Nat := cycle * clockK / 16

/-- A stitch comes before another (R20): the other is later by 1 to 2^39 − 1, modulo 2^40. -/
def before (a b : Stitch) : Bool := decide (1 ≤ (b - a).toNat) && decide ((b - a).toNat < 2 ^ 39)

/-- The maintenance slot lasts (R16): core cycles 0 to 95. -/
def inMaintenance (s : State) : Bool := decide (s.stu.pos < 96)

/-- The time of the boundary that opened the stitch, in ps of the time base since power-on. -/
def stitchStartPs (s : State) : Int := 1000 * ((s.ns : Int) - s.stu.pos) + s.stu.phasePs

/-- A context is defined: it is not FREE (R367, R387). -/
def ctxDefined (s : State) (n : Nat) : Bool := (s.ctx n).state ≠ .free

/-- The violation rule's count (R367): the context's count grows and its last kind is written; a context no longer
defined counts against context 0. -/
def violate (n : Nat) (kind : Byte) (s : State) : State :=
  let k := if ctxDefined s n then n else 0
  s.onFlt fun f => { f with viol := vMod f.viol k fun v => { count := satInc v.count 1, lastKind := kind } }

/-- The ring size of a LOG2_ENTRIES field: 6 to 16, other values as 6 (Tables 14-10, 14-11). -/
def ringLog2 (cfg : W64) : Nat := let l := fld cfg 4 0; if 6 ≤ l ∧ l ≤ 16 then l else 6

/-- The 64 bytes of an event record (Table 14-6, R382). -/
def eventBytes (s : State) (n type : Nat) (body : List (Nat × List Byte)) : List Byte :=
  let q := s.queue n
  let phase := (q.tail.toNat / 2 ^ ringLog2 q.cfg + 1) % 2
  layout 64 ([(0, leBytes 1 type), (1, leBytes 1 (n + 16 * phase)), (2, leBytes 2 q.tail.toNat),
    (4, leBytes 5 s.stu.stitch.toNat), (9, leBytes 6 s.stu.cycle.toNat)] ++ body)

/-- A record is posted to a context's event queue: dropped and counted in LOST when the queue is full by the EVQ_HEAD
last read (R382, R383); a queue that is not enabled takes none (DEDUCED, unsafe, assumption log 31). -/
def post (n type : Nat) (body : List (Nat × List Byte)) (s : State) : State :=
  let q := s.queue n
  if ¬ bit q.cfg 8 then s
  else
    let l := ringLog2 q.cfg
    if (q.tail - q.headRead).toNat = 2 ^ l then s.onQueue n fun q => { q with lost := satInc q.lost 1 }
    else
      let a := fld q.base 63 12 * 4096 + 64 * (q.tail.toNat % 2 ^ l)
      (s.setHostMem (Mem.write s.hostMem a (eventBytes s n type body))).onQueue n fun q => { q with tail := q.tail + 1 }

/-- A completion event (Table 14-7). -/
def postCompletion (n dtype status flags ringIndex handle : Nat) (info : Stitch) (digest : List Byte) (s : State) :
    State :=
  post n 0x01 [(16, leBytes 1 dtype), (17, leBytes 1 status), (18, leBytes 1 flags), (20, leBytes 2 ringIndex),
    (22, leBytes 2 handle), (24, leBytes 5 info.toNat), (32, digest)] s

/-- The completion event of a descriptor that asked for one. -/
def complete (n dtype : Nat) (notify : Bool) (ringIndex handle : Nat) (s : State) : State :=
  if notify then postCompletion n dtype 0 0 ringIndex handle 0 [] s else s

/-- The completion of a context-block command, 0xF0 or 0xF1 (Table 14-7). It comes from no ring and names no handle: RING_INDEX
and HANDLE are free values (DESIGN CHOICE, safe, assumption log 45). -/
def blockCompletion (n dtype : Nat) (s : State) : State :=
  (postCompletion n dtype 0 0 (Config.freeNat s.free % 65536) (Config.freeNat (s.free + 1) % 65536) 0 [] s).drew.drew

/-- A refusal event (Table 14-7, R138). -/
def postRefusal (n reason dtype ringIndex handle d0 d1 : Nat) (s : State) : State :=
  post n 0x02 [(16, leBytes 1 reason), (17, leBytes 1 dtype), (20, leBytes 2 ringIndex), (22, leBytes 2 handle),
    (24, leBytes 4 d0), (28, leBytes 4 d1)] s

/-- The refusal event of a withdrawal at a boundary (R137, R138). -/
def postWithdrawal (n reason handle d0 d1 : Nat) (s : State) : State := postRefusal n reason 0xFF 0xFFFF handle d0 d1 s

/-! The log (R411, R412). -/

/-- The log entry that would be written now. -/
def logEntry (s : State) (kind : Byte) (flags : Byte) (body : List Byte) : LogEntry :=
  { seq := s.thm.nextSeq, kind := kind, flags := flags, powerOn := s.thm.powerOns,
    uptime := BitVec.ofNat 64 (s.ns / 1000), stitch := s.stu.stitch, cycle := s.stu.cycle, body := body }

/-- The bytes of a log entry (Table 15-13). -/
def logBytes (e : LogEntry) : List Byte :=
  let b := layout 124 [(0, leBytes 4 e.seq.toNat), (4, [e.kind]), (5, [e.flags]), (6, leBytes 2 e.powerOn.toNat),
    (8, leBytes 8 e.uptime.toNat), (16, leBytes 5 e.stitch.toNat), (21, leBytes 6 e.cycle.toNat), (28, e.body)]
  b ++ leBytes 4 (crc32 b).toNat

/-- A general entry takes the next ring position. -/
def logGeneral (kind flags : Byte) (body : List Byte) (s : State) : State :=
  let e := logEntry s kind flags body
  s.onThm fun t =>
    { t with general := Tab.put t.general t.genNext.toNat e, genNext := t.genNext + 1, nextSeq := t.nextSeq + 1 }

/-- A critical entry; when the critical region is full, it goes to the general region with FLAGS[1] set (R412). -/
def logCritical (kind : Byte) (body : List Byte) (s : State) : State :=
  if s.thm.critical.length < 512 then
    let e := logEntry s kind 1 body
    s.onThm fun t => { t with critical := t.critical ++ [e], nextSeq := t.nextSeq + 1 }
  else (logGeneral kind 3 body s).onThm fun t => { t with critFull := true }

/-- Thimble reports to the BMC (R403): an event message to the receiver it set. -/
def platformEvent (kind : Byte) (bytes : List Byte) (s : State) : State :=
  if s.thm.receiver.isSome ∧ ¬ s.thm.restarting ∧ ¬ s.thm.halted then s.emit (.platformEvent kind bytes) else s

/-! VC_0 messages (R231). -/

/-- The precedence of a message in a port's queue (R231). -/
def vc0Rank : Vc0Msg → Nat
  | .marker _ => 1
  | .abort _ => 2
  | .verdict _ => 3
  | .vote _ => 4
  | .stretchAnn _ _ => 5
  | .periodAnn _ _ => 5
  | .stretchReq _ _ => 6
  | .ready _ => 7
  | .go _ _ => 7
  | .miss _ _ => 7

/-- A message placed behind those of its own precedence and before lower ones. -/
def vc0Insert (m : QueuedMsg) : List QueuedMsg → List QueuedMsg
  | [] => [m]
  | x :: xs => if vc0Rank m.msg < vc0Rank x.msg then m :: x :: xs else x :: vc0Insert m xs

/-- A message queued on a port; VC_0 cells flow only on an ACTIVE port (R238). -/
def queueVc0 (m : Nat) (q : QueuedMsg) (s : State) : State :=
  if (s.port m).state = .active then s.onPort m fun p => { p with vc0 := vc0Insert q p.vc0 } else s

/-- A message of which no time is kept, queued on a port. -/
def sendVc0 (m : Nat) (msg : Vc0Msg) (s : State) : State := queueVc0 m { msg := msg } s

/-- The ports of the device. -/
def allPorts : List Nat := List.range 16

/-- The parent port of a tree (Table 8-11), none at a root. -/
def treeParent (s : State) (alt : Bool) : Option Nat :=
  let p := if alt then fld s.sea.tree 23 20 else fld s.sea.tree 3 0
  if p = 15 then none else some p

/-- The child ports of a tree. -/
def treeChildren (s : State) (alt : Bool) : List Nat :=
  let m := if alt then fld s.sea.tree 39 24 else fld s.sea.tree 19 4
  allPorts.filter (fun i => m.testBit i)

/-- A message down a tree. -/
def sendDown (alt : Bool) (msg : Vc0Msg) (s : State) : State := s.each (treeChildren s alt) fun s m => sendVc0 m msg s

/-- A message up the primary tree. -/
def sendUp (msg : Vc0Msg) (s : State) : State :=
  match treeParent s false with
  | some m => sendVc0 m msg s
  | none => s

/-! Roles of STU_CTRL (Table 1-2). -/

/-- STU_CTRL.ROLE: 0 standalone, 1 member, 2 master, 3 backup. -/
def role (s : State) : Nat := fld s.stu.ctrl 1 0

/-- The contexts 1 to 15. -/
def jobContexts : List Nat := (List.range 15).map (· + 1)

/-- Contexts 1 to 15 that are not FREE. -/
def liveContexts (s : State) : List Nat := jobContexts.filter (fun n => ctxDefined s n)

/-- The bit mask of a list of contexts, with bit 0 set (Table 13-3, CONTEXTS). -/
def contextMask (l : List Nat) : BitVec 16 :=
  BitVec.ofNat 16 ((0 :: l).foldl (fun a n => a ||| (1 <<< n)) 0)

/-! Cells and packets (R222, R228). -/

/-- The 32 bytes of a cell. -/
def cellBytes (c : CellData) : List Byte := leBytes 32 c.toNat

/-- A cell from 32 bytes. -/
def cellOf (bs : List Byte) : CellData := BitVec.ofNat 256 (fromLe (slice bs 0 32))

/-- The fields of a packet header (Table 8-4). -/
structure Header where
  vc : Nat
  kind : Nat
  port : Nat
  length : Nat
  destCtx : Nat
  panel : Nat
  dlNext : Bool
  column : Nat
  route : Nat
  epoch : BitVec 16
  seq : BitVec 32
  deadline : Nat
  srcStitch : BitVec 32
  crcOk : Bool
deriving DecidableEq, Repr

/-- The fields of a header cell. -/
def parseHeader (c : CellData) : Header :=
  let b := cellBytes c
  { vc := leAt b 0 1 % 8, kind := leAt b 0 1 / 8 % 4, port := leAt b 1 1 % 16, length := leAt b 2 1 % 64,
    destCtx := leAt b 3 1 % 16, panel := leAt b 4 1 % 8, dlNext := (leAt b 4 1).testBit 3, column := leAt b 6 2,
    route := leAt b 8 1, epoch := BitVec.ofNat 16 (leAt b 10 2), seq := BitVec.ofNat 32 (leAt b 12 4),
    deadline := leAt b 16 4, srcStitch := BitVec.ofNat 32 (leAt b 20 4),
    crcOk := crc16 (b.take 30) == BitVec.ofNat 16 (leAt b 30 2) }

/-- A header of a refill record (Table 11-8): on VC_4 its byte 5, LINES, is not zero. -/
def isRefill (vc : Nat) (header : CellData) : Bool := vc == 4 && leAt (cellBytes header) 5 1 != 0

/-- The data cells a header announces: LENGTH + 1 (Table 8-4), or 2 × LINES for a refill record (Table 11-8). -/
def packetCells (vc : Nat) (header : CellData) : Nat :=
  if isRefill vc header then 2 * leAt (cellBytes header) 5 1 else (parseHeader header).length + 1

/-- The header of the packet that a stream's last cells begin and do not complete, and the cells it lacks; the first argument bounds
the packets looked at. -/
def unfinished (vc : Nat) : Nat → List CellData → Option (CellData × Nat)
  | 0, _ => none
  | _, [] => none
  | f + 1, h :: rest =>
    let k := packetCells vc h
    if rest.length < k then some (h, k - rest.length) else unfinished vc f (rest.drop k)

/-- The unfinished packet of a stream. -/
def PortStream.part (t : PortStream) : Option (CellData × Nat) := unfinished t.vc.val t.rx.length t.rx

/-! Aborts (R267 to R270). -/

/-- A poisoned delivery is recorded for a context (R236). -/
def poison (n : Nat) (s : State) : State := s.onTrain n fun t => { t with poisoned := true }

/-- The credits that queued cells of a context hold are returned for one hem die and channel (R263). -/
def returnCredits (n hem vc k : Nat) (s : State) : State :=
  s.onColCtx n fun c => { c with lent := Tab.put c.lent (8 * hem + vc) (Tab.getD c.lent (8 * hem + vc) 0 - k) }

/-- The credits a stream's queued cells hold, by hem die. -/
def creditsOf (q : List QueuedCell) (hem : Nat) : Nat := (q.filter (fun c => c.credit && c.hem.val == hem)).length

/-- Every queued cell of a stream is discarded and its credits returned. -/
def discardStream (m : Nat) (t : PortStream) (s : State) : State :=
  let s := returnCredits t.ctx.val 0 t.vc.val (creditsOf t.tx 0) s
  let s := returnCredits t.ctx.val 1 t.vc.val (creditsOf t.tx 1) s
  s.onPort m fun p => { p with streams := p.streams.map fun u =>
    if u.vc = t.vc ∧ u.ctx = t.ctx then { u with tx := [] } else u }

/-- The channels whose cells an abort discards (R270). -/
def abortChannel (vc : Nat) : Bool := vc == 1 || vc == 2 || vc == 3 || vc == 5

/-- A stream whose received cells an abort discards: what its last packet still lacks is discarded when it comes. -/
def PortStream.dropRx (t : PortStream) : PortStream :=
  { t with
    rx := [], cut := false, after := []
    late := if t.cut then 0 else match t.part with
      | some x => x.2
      | none => t.late }

/-- Every queued and arriving cell of a context on the abort's channels is discarded. -/
def discardAborted (n : Nat) (s : State) : State :=
  let s := s.each allPorts fun s m =>
    s.each ((s.port m).streams.filter fun t => t.ctx.val == n && abortChannel t.vc.val) fun s t => discardStream m t s
  let dropRx (t : PortStream) : PortStream :=
    if t.ctx.val == n && abortChannel t.vc.val then t.dropRx else t
  s.onSea fun a => { a with ports := a.ports.map fun p => { p with streams := p.streams.map dropRx } }

/-- A record waiting for the next boundary. -/
def queueRecord (r : FaultRec) (s : State) : State := s.onFlt fun f => { f with records := f.records ++ [r] }

/-- A fault record with the time of its detection (Table 13-3). -/
def faultRec (s : State) (cause cls unitKind : Nat) (a b c : Nat) (contexts : BitVec 16) (address syndrome : Nat) :
    FaultRec :=
  { cause := BitVec.ofNat 8 cause, cls := BitVec.ofNat 8 cls, unitKind := BitVec.ofNat 8 unitKind,
    unitA := BitVec.ofNat 16 a, unitB := BitVec.ofNat 32 b, unitC := BitVec.ofNat 32 c, flags := 0,
    contexts := contexts ||| 1, stitch := s.stu.stitch, cycle := s.stu.cycle, address := BitVec.ofNat 64 address,
    syndrome := BitVec.ofNat 64 syndrome }

/-- The ABORT_RECEIVED record of a context (Table 13-4). -/
def abortRecord (s : State) (n : Nat) (m : AbortMsg) : FaultRec :=
  faultRec s 0x1B 1 0 0 0 0 (contextMask [n]) m.originStitch.toNat
    (m.tag.toNat + m.attempt.toNat * 2 ^ 16 + m.origin.toNat % 2 ^ 15 * 2 ^ 32 + m.cause.toNat * 2 ^ 56)

/-- What a context does when it acts on an ABORT (R270). -/
def actOnAbort (n : Nat) (m : AbortMsg) (record : Bool) (s : State) : State :=
  let s := discardAborted n s
  let (now, st) := (s.ns, s.stu.stitch)
  let s := s.onColCtx n fun c =>
    { c with aborted := true, abortStitch := st, abortPs := now, aborts := satInc c.aborts 1 }
  let s := poison n s
  if record then queueRecord (abortRecord s n m) s else s

/-- The contexts that act on an ABORT of a job (R270, Table 13-15): the job's, not FAULTED; a training one only in the
attempt named, a serving one only when it is not ABORTED already. -/
def abortActs (s : State) (m : AbortMsg) (origin : Bool) : List Nat :=
  jobContexts.filter fun n =>
    let c := s.colCtx n
    let x := s.ctx n
    decide (m.tag ≠ 0) && decide (c.job = m.tag) && decide (x.state = .active) &&
      (if x.serving then !c.aborted
       else origin || decide ((s.train n).lastCommit.setWidth 16 = m.attempt))

/-- COL_CTRL.ABORT_EN. -/
def abortEn (s : State) : Bool := bit s.col.ctrl 1

/-- The key of a token is remembered, from now where it was already: up to 64, the oldest discarded when full (R269); newest
last. -/
def rememberKey (m : AbortMsg) (s : State) : State :=
  s.onCol fun c =>
    let keys := c.keys.filter fun k => !(k.job == m.tag && k.attempt == m.attempt)
    { c with keys :=
      (if keys.length < 64 then keys else keys.drop 1) ++ [{ job := m.tag, attempt := m.attempt, entered := s.ns }] }

/-- The key of a token is remembered already. -/
def keyKnown (s : State) (m : AbortMsg) : Bool := s.col.keys.any fun k => k.job == m.tag && k.attempt == m.attempt

/-- The token a device originates for a job (Table 9-5); ATTEMPT of a job with a training context is its last commit
stitch, of any other 0. -/
def abortToken (s : State) (job : BitVec 16) (cause : Nat) : AbortMsg :=
  let own := jobContexts.find? fun n => (s.colCtx n).job == job && !(s.ctx n).serving && ctxDefined s n
  { groupId := BitVec.ofNat 16 (fld s.stu.ctrl 31 16), tag := job,
    attempt := match own with
      | some n => (s.train n).lastCommit.setWidth 16
      | none => 0
    origin := BitVec.ofNat 16 (fld s.sea.addr 14 0), originStitch := s.stu.stitch, cause := BitVec.ofNat 8 cause }

/-- The lining-bound context while EN is set (R318). -/
def liningCtx (s : State) : Option Nat := if bit s.lin.pairCfg 4 then some (fld s.lin.pairCfg 3 0) else none

/-- OBSERVER of the lining binding applies to a context (R320). -/
def observer (s : State) (n : Nat) : Bool := liningCtx s == some n && bit s.lin.pairCfg 8

/-- A device originates ABORTs for a job: ABORT_EN is set, the job is one, it does not merely observe it (R320), and for a device fault
it still has a working port (R267). -/
def originates (s : State) (job : BitVec 16) (cause : Nat) : Bool :=
  abortEn s && job != 0 && !(jobContexts.any fun n => (s.colCtx n).job == job && observer s n) &&
    (cause != 1 || allPorts.any fun m => (s.port m).state == .active)

/-- A device originates an ABORT for a job and acts on it itself (R267, R269, R270): the token goes to every ACTIVE port and its
key is remembered. -/
def originateAbort (job : BitVec 16) (cause : Nat) (s : State) : State :=
  if ¬ originates s job cause then s
  else
    let m := abortToken s job cause
    let acts := abortActs s m true
    let s := rememberKey m (s.each allPorts fun s p => sendVc0 p (.abort m) s)
    s.each acts fun s n => actOnAbort n m (cause == 2 || cause == 4) s

/-- The jobs that contexts 1 to 15 host (R358). -/
def hostedJobs (s : State) : List (BitVec 16) :=
  ((liveContexts s).map fun n => (s.colCtx n).job).filter (· ≠ 0) |>.eraseDups

/-! Fault records (R356 to R359). -/

/-- The 48 bytes of a fault record (Table 13-3). -/
def faultBytes (r : FaultRec) (flags : Byte) (index : Nat) : List Byte :=
  layout 48 [(0, [r.cause]), (1, [r.cls]), (2, [r.unitKind]), (3, [flags]), (4, leBytes 2 r.contexts.toNat),
    (6, leBytes 2 r.unitA.toNat), (8, leBytes 4 r.unitB.toNat), (12, leBytes 4 r.unitC.toNat),
    (16, leBytes 5 r.stitch.toNat), (22, leBytes 6 r.cycle.toNat), (28, leBytes 2 index), (32, leBytes 8 r.address.toNat),
    (40, leBytes 8 r.syndrome.toNat)]

/-- A fault record is logged, posted to the system context and to every context of CONTEXTS, and reported to the BMC
(R356, R403). FLAGS[1] tells that the critical region took it. -/
def postRecord (r : FaultRec) (s : State) : State :=
  let crit := r.cls = 3 ∨ r.cls = 4
  let took := crit ∧ s.thm.critical.length < 512
  let flags := r.flags ||| (if took then 2 else 0)
  let index := if took then s.thm.critical.length else s.thm.genNext.toNat
  let bytes := faultBytes r flags index
  let s := if crit then logCritical 0x01 bytes s else logGeneral 0x01 0 bytes s
  let s := s.each ((List.range 16).filter fun n => r.contexts.getLsbD n) fun s n => post n 0x03 [(16, bytes)] s
  platformEvent 0x01 bytes s

/-- A request for a device reset (R361) or a device fault (R359). A request while a reset or a power-on runs is ignored;
a device fault then restarts it once, and a second one leaves the device MANAGEMENT_ONLY (R364). -/
def triggerReset (trigger : Nat) (cause : Byte) (s : State) : State :=
  let stopTest (s : State) : State :=
    if s.tst.busy then s.onTst fun t => { t with busy := false, result := 0x06, stopping := false } else s
  match s.flt.phase with
  | .none | .stopped =>
    let t := BitVec.ofNat 3 trigger
    stopTest (s.onFlt fun f =>
      { f with phase := .hold, resetting := true, restarts := 0, pendingTrigger := t, pendingCause := cause, counted := false })
  | .hold | .running =>
    if trigger ≠ 1 then s
    else if s.flt.restarts = 0 then
      s.onFlt fun f => { f with phase := .hold, restarts := 1, pendingTrigger := 1, pendingCause := cause }
    else s.onFlt fun f =>
      { f with phase := .none, resetting := false, mode := 2, lastTrigger := 1, lastCause := cause
               resets := if f.counted then f.resets else satInc f.resets 1 }
  | .powerOn =>
    if trigger ≠ 1 then s
    else if s.flt.restarts = 0 then s.onFlt fun f => { f with restarts := 1 }
    else s.onFlt fun f => { f with phase := .none, resetting := false, mode := 2 }

/-- The SUPPLY fault of the input itself: a power-on follows it when the input returns, no device reset (R442). -/
def inputTrip (r : FaultRec) : Bool := r.cause == 0x22 && r.unitA == 31

/-- FAULT_N is low (R442): from a device fault until RESETTING clears, in MANAGEMENT_ONLY, and while Thimble is HALTED. -/
def faultPinLow (s : State) : Bool := s.power.faultLow || s.flt.mode == 2 || s.thm.halted

/-- A device fault declared now starts the device reset, or restarts the running one (R359, R364). -/
def resetBegins (s : State) : Bool :=
  match s.flt.phase with
  | .none | .stopped => bit s.flt.ctrl 1
  | .hold | .running | .powerOn => s.flt.restarts == 0

/-- A fault is declared (R352): NOTICE and UNIT records wait for the boundary; a JOB fault originates an ABORT for every
hosted job and takes effect on the contexts at the boundary (R358); a DEVICE fault does so, posts its record at once and
triggers the device reset (R359); the actions are applied once for all the faults of one stitch (R369); while Thimble restarts the record waits for
it (Table 15-17). FLAGS[2] tells that an ABORT was originated, FLAGS[3] that the reset begins. -/
def declareFault (r : FaultRec) (s : State) : State :=
  let jobs := hostedJobs s
  let everyone := contextMask (liveContexts s)
  if r.cls = 3 then
    let s0 := s
    let s := if s.flt.jobFault then s else s.each jobs fun s j => originateAbort j 0x03 s
    (queueRecord { r with contexts := everyone, flags := if jobs.any (originates s0 · 3) then 4 else 0 } s).onFlt fun f =>
      { f with jobFault := true }
  else if r.cls = 4 then
    let s0 := s
    let s := if s.flt.jobFault then s else s.each jobs fun s j => originateAbort j 0x01 s
    let second := s.flt.deviceFault
    let s := s.onFlt fun f => { f with jobFault := true, deviceFault := true }
    let s := s.onPower fun p => { p with faultLow := true }
    let begins := resetBegins s && !second && !inputTrip r
    let q := { r with contexts := everyone, flags := (if jobs.any (originates s0 · 1) then 4 else 0) ||| (if begins then 8 else 0) }
    let s := if s.thm.restarting ∨ s.thm.halted then s.onFlt fun f => { f with deferred := f.deferred ++ [q] }
      else postRecord q s
    if second then s else triggerReset 1 r.cause s
  else queueRecord r s

/-- A device reset the host, the BMC or port H asks for (R361, Table 13-10 step 1): the job-fault actions with CAUSE 0x04
and the trigger; ignored while a reset runs or the input is out. -/
def requestReset (trigger : Nat) (s : State) : State :=
  match s.flt.phase with
  | .none | .stopped =>
    let s := s.each (hostedJobs s) fun s j => originateAbort j 0x04 s
    triggerReset trigger 0 (s.onFlt fun f => { f with jobFault := true })
  | _ => s

/-- RESETTING is set or MODE is MANAGEMENT_ONLY: the device runs no job (R364, R366). -/
def outOfService (s : State) : Bool := s.flt.resetting || s.flt.mode == 2

/-- The stitch unit takes and sends no messages: the device is MANAGEMENT_ONLY (Table 13-13). It goes on through a device reset,
as far as its ports are ACTIVE (Tables 13-11, 13-12). -/
def stitchStops (s : State) : Bool := s.flt.mode == 2

/-- What a BAR0 read returns goes out; while the block is shut, zero, counted in MANAGEMENT_ONLY (R364, R366). -/
def bar0Read (f : State → State) (s : State) : State :=
  if s.flt.resetting then s.emit (.readData 0)
  else if s.flt.mode = 2 then (violate 0 0x03 s).emit (.readData 0)
  else f s

/-- A register write to a block other than IDN, FLT, THM and TST: ignored while RESETTING is set (R364), under the violation
rule in MANAGEMENT_ONLY (R366). -/
def bar0Write (f : State → State) (s : State) : State :=
  if s.flt.resetting then s else if s.flt.mode = 2 then violate 0 0x02 s else f s

/-- A write of a nonzero value to an RSV field is a violation (R12). -/
def checkRsv (rsv v : W64) (s : State) : State := if v &&& rsv ≠ 0 then violate 0 0x02 s else s

end Sys2Proof.Machine
end

