-- ==== Sys2Proof/Machine/HbmMap.lean ====
section
/-! DEFINITION. The interleave of HBM regions (R162 to R164) and the bytes of a region's lines. -/

namespace Sys2Proof.Machine

/-- The key of region `index` of a context in the region table. -/
def regionKey (n index : Nat) : Nat := 16 * n + index

/-- A defined region of a context. -/
def hbmRegion (s : State) (n index : Nat) : Option HbmRegion := Tab.find s.hbm.regions (regionKey n index)

/-- P: the pseudo-channels a region uses (Table 6-2). -/
def regionP (s : State) (r : HbmRegion) : Nat :=
  if r.mode ≤ 1 then s.nPc else if r.mode = 2 then 32 else 1

/-- V: the lines of one view of a region (R163). -/
def regionV (s : State) (r : HbmRegion) : Nat := r.pcLines * regionP s r

/-- The valid lines of a region: V, or 2V when PARITY is set (R163). -/
def regionLines (s : State) (r : HbmRegion) : Nat := if r.parity then 2 * regionV s r else regionV s r

/-- The pseudo-channel and PC line of line j of a region whose half and base are resolved (R163). -/
def interleave (s : State) (r : HbmRegion) (base j : Nat) : Nat × Nat :=
  if r.mode ≤ 1 then
    let g0 := if r.mode = 0 then 4 else 64
    let g := j / g0
    let q := g % s.nPc
    (32 * (q % s.nPanels) + q / s.nPanels, base + g0 * (g / s.nPc) + j % g0)
  else if r.mode = 2 then
    let g := j / 4
    (32 * r.target + g % 32, base + 4 * (g / 32) + j % 4)
  else (r.target, base + j)

/-- The pseudo-channel and PC line of line j of a context's region, none outside it (R163, R164). -/
def lineOf (s : State) (n : Nat) (r : HbmRegion) (j : Nat) : Option (Nat × Nat) :=
  if regionLines s r ≤ j then none
  else if r.parity then
    let v := regionV s r
    let half := Nat.xor (j / v) (b2n (s.hbm.cpar.getLsbD n))
    some (interleave s r (r.base + half * r.pcLines) (j % v))
  else some (interleave s r r.base j)

/-- The address of byte 0 of an HBM line in the model's memory. -/
def hbmAddr (pc line : Nat) : Nat := (pc * Config.pcLines + line) * 64

/-- The 64 bytes of an HBM line. -/
def hbmLine (s : State) (pc line : Nat) : List Byte := Mem.bytes s.hbm.mem (hbmAddr pc line) 64

/-- The number of a sector in the tier's lists. -/
def sectorKey (pc line : Nat) (sector : Bool) : Nat := (pc * Config.pcLines + line) * 2 + b2n sector

/-- The sectors of a line that hold one of the bytes written. -/
def sectorsWritten (pc line first count : Nat) : List Nat :=
  [false, true].filterMap fun x =>
    if first < 32 * (b2n x + 1) ∧ 32 * b2n x < first + count then some (sectorKey pc line x) else none

/-- Bytes written into an HBM line from a byte on, with fresh check bits: an error that a sector held is gone, and one seen
uncorrectable counts as rewritten (R182). -/
def writeHbm (pc line first : Nat) (bs : List Byte) (s : State) : State :=
  let hit := sectorsWritten pc line first bs.length
  s.onHbm fun h => { h with
    mem := Mem.write h.mem (hbmAddr pc line + first) bs
    weak := h.weak.filter fun k => !hit.contains k
    rewritten := h.rewritten ++ (h.bad.map (·.1)).filter fun k => hit.contains k
    bad := h.bad.filter fun x => !hit.contains x.1 }

/-! Write-combining (R173 to R175). -/

/-- The bytes of a line with an entry's valid bytes laid over them. -/
def overlay (bs : List Byte) (e : WcEntry) : List Byte :=
  bs.zipIdx.map fun x => if e.valid.getLsbD x.2 then BitVec.ofNat 8 (e.data.toNat / 2 ^ (8 * x.2) % 256) else x.1

/-- The entries of a stack's buffer, oldest first. -/
def wcEntries (s : State) (pc : Nat) : List WcEntry := vAt s.hbm.wc (pc / 32) []

/-- What a read of a line returns (R174): the stack's bytes, with the buffer's over them, oldest first. -/
def readHbm (s : State) (pc line : Nat) : List Byte :=
  ((wcEntries s pc).filter fun e => e.pc == pc && e.line == line).foldl overlay (hbmLine s pc line)

/-- A buffer's entries replaced, HIGH_WATER following. -/
def setWc (k : Nat) (l : List WcEntry) (s : State) : State :=
  s.onHbm fun h => { h with
    wc := vMod h.wc k fun _ => l
    highWater := vMod h.highWater k fun m => max m l.length }

/-- An entry has a valid byte of a sector. -/
def WcEntry.touches (e : WcEntry) (sector : Bool) : Bool := e.valid.toNat / 2 ^ (32 * b2n sector) % 2 ^ 32 != 0

/-- An entry's valid bytes written to the stack, a sector at a time (R175). -/
def drainEntry (e : WcEntry) (s : State) : State :=
  let bs := overlay (hbmLine s e.pc e.line) e
  s.each ([false, true].filter e.touches) fun s x => writeHbm e.pc e.line (32 * b2n x) (slice bs (32 * b2n x) 32) s

/-- Every entry that holds a line is drained and freed. -/
def drainLine (pc line : Nat) (s : State) : State :=
  let mine := (wcEntries s pc).filter fun e => e.pc == pc && e.line == line
  if mine.isEmpty then s
  else setWc (pc / 32) ((wcEntries s pc).filter fun e => !(e.pc == pc && e.line == line)) (s.each mine fun s e => drainEntry e s)

/-- A whole-line write of a pattern or a presser (R173): merged with an entry that holds the line, which becomes free. -/
def writeWhole (pc line : Nat) (bs : List Byte) (s : State) : State := writeHbm pc line 0 bs (drainLine pc line s)

/-- A spare-slot engine's write (R173): merged into the open entry of its line, or a free entry is opened; none when the
buffer has no free entry, and then the write waits (R175). -/
def engineWrite (pc line : Nat) (mask : W64) (data : BitVec 512) (s : State) : Option State :=
  let l := wcEntries s pc
  let wide : BitVec 512 := (List.range 64).foldl (fun m i => if mask.getLsbD i then m ||| (0xFF <<< (8 * i)) else m) 0
  let mine (e : WcEntry) : Bool := e.pc == pc && e.line == line && !e.sealed
  if l.any mine then
    some (setWc (pc / 32) (l.map fun e =>
      if mine e then { e with valid := e.valid ||| mask, data := (e.data &&& ~~~ wide) ||| (data &&& wide) } else e) s)
  else if 64 ≤ l.length then none
  else some (setWc (pc / 32)
    (l ++ [{ pc := pc, line := line, valid := mask, data := data &&& wide, sealed := false }]) s)

/-- A spare-slot engine writes bytes of one line: where the buffer has no free entry, the engine waits until the oldest has
drained (R175). -/
def engineStore (pc line first : Nat) (bs : List Byte) (s : State) : State :=
  let mask := BitVec.ofNat 64 ((2 ^ bs.length - 1) * 2 ^ first)
  let data := BitVec.ofNat 512 (fromLe bs * 2 ^ (8 * first))
  match engineWrite pc line mask data s, wcEntries s pc with
  | some s', _ => s'
  | none, e :: l => (engineWrite pc line mask data (setWc (pc / 32) l (drainEntry e s))).getD s
  | none, [] => s

/-- The 64 bytes of line j of a context's region; zeros outside it. -/
def regionLine (s : State) (n : Nat) (r : HbmRegion) (j : Nat) : List Byte :=
  match lineOf s n r j with
  | some (pc, line) => readHbm s pc line
  | none => List.replicate 64 0

/-- `count` bytes of a region from byte `first` of its line numbering. -/
def regionBytes (s : State) (n : Nat) (r : HbmRegion) (first count : Nat) : List Byte :=
  if count = 0 then []
  else
    let l0 := first / 64
    let lines := (first + count + 63) / 64 - l0
    (((List.range lines).map fun i => regionLine s n r (l0 + i)).flatten.drop (first % 64)).take count

/-- The parts of a run of bytes by line of a region: the line, the first byte in it, the bytes. -/
def lineParts (first : Nat) (bs : List Byte) : List (Nat × Nat × List Byte) :=
  (List.range ((first % 64 + bs.length + 63) / 64)).map fun i =>
    let a := max first (64 * (first / 64 + i))
    (a / 64, a % 64, (bs.drop (a - first)).take (64 - a % 64))

/-- Bytes that a spare-slot engine writes to a region from byte `first` of its line numbering, through the write-combining buffer
(R173); bytes outside the region are not written. -/
def writeRegion (n : Nat) (r : HbmRegion) (first : Nat) (bs : List Byte) (s : State) : State :=
  s.each (lineParts first bs) fun s x => match lineOf s n r x.1 with
    | some (pc, line) => engineStore pc line x.2.1 x.2.2 s
    | none => s

/-- Bytes that a presser or a panel sequencer writes to a region: whole lines, the rest of a line as it stood (R170, R173). -/
def storeLines (n : Nat) (r : HbmRegion) (first : Nat) (bs : List Byte) (s : State) : State :=
  s.each (lineParts first bs) fun s x => match lineOf s n r x.1 with
    | some (pc, line) => writeWhole pc line (patch (readHbm s pc line) x.2.1 x.2.2) s
    | none => s

/-! VERIFIED backings (R298). -/

/-- Another writer than a checked bundle has reached some lines of a context's HBM region: a backing that holds one of them is
no longer VERIFIED. -/
def unverifyLines (n region first count : Nat) (s : State) : State :=
  s.onHbm fun h => { h with checked := h.checked.filter fun c =>
    !(c.ctx == n && c.region == region && decide (first < c.first + c.count) && decide (c.first < first + count)) }

/-- The same for a run of bytes. -/
def unverifyBytes (n region first count : Nat) (s : State) : State :=
  unverifyLines n region (first / 64) ((first + count + 63) / 64 - first / 64) s

/-- The same for a line named by its place. -/
def unverify (n region pc line : Nat) (s : State) : State :=
  match hbmRegion s n region with
  | none => s
  | some r =>
    let hit (c : CheckedBacking) : Bool := c.ctx == n && c.region == region &&
      (List.range c.count).any fun k => lineOf s n r (c.first + k) == some (pc, line)
    s.onHbm fun h => { h with checked := h.checked.filter fun c => !hit c }

/-- A region counts as defined for admission and access once it is READY and no bundle is filling it (R166, R348). -/
def regionUsable (s : State) (n index : Nat) : Bool :=
  match hbmRegion s n index with
  | some r => r.ready && !r.blocked
  | none => false

end Sys2Proof.Machine
end

