-- ==== Sys2Proof/Machine/SeamOps.lean ====
section
/-! DEFINITION. The seam link layer's shared operations (08_seams): cells, headers, VC_0 messages, frames, trailers,
replay, in-order delivery, and the changes of a port's state. -/

namespace Sys2Proof.Machine

/-- Fields packed from bit 0 upward (R28): (width, value) pairs. -/
def packBits : List (Nat × Nat) → Nat
  | [] => 0
  | (w, v) :: fs => v % 2 ^ w + 2 ^ w * packBits fs

/-- A 16-byte VC_0 message: the code, then the fields (R28, Tables 1-7, 7-10, 9-5). -/
def vc0Bits : Vc0Msg → Nat
  | .marker m => 0x01 + 256 * packBits [(16, m.groupId.toNat), (8, m.epoch.toNat), (1, b2n m.tree), (40, m.stitch.toNat),
      (8, m.hops.toNat), (32, m.accDelay.toNat)]
  | .stretchReq f r => 0x02 + 256 * packBits [(6, f.toNat), (4, r.toNat)]
  | .stretchAnn k a => 0x03 + 256 * packBits [(6, k.toNat), (40, a.toNat)]
  | .periodAnn u a => 0x04 + 256 * packBits [(24, u.toNat), (40, a.toNat)]
  | .ready m => 0x05 + 256 * packBits [(16, m.tag.toNat), (40, m.start.toNat), (16, m.expected.toNat), (16, m.count.toNat)]
  | .go t n => 0x06 + 256 * packBits [(16, t.toNat), (40, n.toNat)]
  | .miss t n => 0x07 + 256 * packBits [(16, t.toNat), (40, n.toNat)]
  | .vote m => 0x10 + 256 * packBits [(16, m.tag.toNat), (40, m.voteStitch.toNat), (16, m.members.toNat),
      (16, m.count.toNat), (1, b2n m.skip), (1, b2n m.fail)]
  | .verdict m => 0x11 + 256 * packBits [(16, m.tag.toNat), (40, m.voteStitch.toNat),
      (2, match m.verdict with | .commit => 0 | .skip => 1 | .rollback => 2), (44, m.step.toNat)]
  | .abort m => 0x20 + 256 * packBits [(16, m.groupId.toNat), (16, m.tag.toNat), (16, m.attempt.toNat),
      (16, m.origin.toNat), (40, m.originStitch.toNat), (8, m.cause.toNat)]

/-- w bits of a number from bit lo. -/
def bitsAt (n lo w : Nat) : Nat := n / 2 ^ lo % 2 ^ w

/-- The message of a 16-byte payload (R28), none where the code is 0x00 or no message has it, or a verdict's code is 3. -/
def vc0Msg (n : Nat) : Option Vc0Msg :=
  let f (lo w : Nat) : BitVec w := BitVec.ofNat w (bitsAt (n / 256) lo w)
  let flag (i : Nat) : Bool := (n / 256).testBit i
  match n % 256 with
  | 0x01 => some (.marker { groupId := f 0 16, epoch := f 16 8, tree := flag 24, stitch := f 25 40, hops := f 65 8, accDelay := f 73 32 })
  | 0x02 => some (.stretchReq (f 0 6) (f 6 4))
  | 0x03 => some (.stretchAnn (f 0 6) (f 6 40))
  | 0x04 => some (.periodAnn (f 0 24) (f 24 40))
  | 0x05 => some (.ready { tag := f 0 16, start := f 16 40, expected := f 56 16, count := f 72 16 })
  | 0x06 => some (.go (f 0 16) (f 16 40))
  | 0x07 => some (.miss (f 0 16) (f 16 40))
  | 0x10 => some (.vote { tag := f 0 16, voteStitch := f 16 40, members := f 56 16, count := f 72 16, skip := flag 88, fail := flag 89 })
  | 0x11 =>
    let m (v : Verdict) : Vc0Msg := .verdict { tag := f 0 16, voteStitch := f 16 40, verdict := v, step := f 58 44 }
    match bitsAt (n / 256) 56 2 with
    | 0 => some (m .commit)
    | 1 => some (m .skip)
    | 2 => some (m .rollback)
    | _ => none
  | 0x20 => some (.abort { groupId := f 0 16, tag := f 16 16, attempt := f 32 16, origin := f 48 16, originStitch := f 64 40, cause := f 104 8 })
  | _ => none

/-- The messages of a received VC_0 cell (R28, R231). -/
def vc0Messages (c : CellData) : List Vc0Msg := (vc0Msg (c.toNat % 2 ^ 128)).toList ++ (vc0Msg (c.toNat / 2 ^ 128)).toList

/-- A VC_0 cell of at most two messages (R231); code 0x00 is an empty message. -/
def vc0Cell : List Vc0Msg → CellData
  | [] => 0
  | [a] => BitVec.ofNat 256 (vc0Bits a)
  | a :: b :: _ => BitVec.ofNat 256 (vc0Bits a + 2 ^ 128 * vc0Bits b)

/-- A header cell with COLL_SEQ replaced (R260), LAYOUT_EPOCH stamped (Table 11-1), and HCRC over the new bytes (DEDUCED, unsafe,
assumption log 33). -/
def withSeq (c : CellData) (epoch : BitVec 16) (seq : BitVec 32) : CellData :=
  let b := patch (patch (cellBytes c) 12 (leBytes 4 seq.toNat)) 10 (leBytes 2 epoch.toNat)
  cellOf (patch b 30 (leBytes 2 (crc16 (b.take 30)).toNat))

/-- The data a payload position carries; an empty one carries zeros. -/
def frameCellData : FrameCell → CellData
  | .stream _ _ d => d
  | .replay d => d
  | .mgmt d => d
  | .idle => 0

/-- BCRC of block b of a frame's cells (R232). -/
def blockCrc (cells : List FrameCell) (b : Nat) : BitVec 16 :=
  crc16 (((cells.drop (32 * b)).take 32).map (fun c => cellBytes (frameCellData c))).flatten

/-- F, the frames of a stitch (R223). -/
def framesPerStitch (units : Nat) : Nat := 25 * units / 16

/-- A frame sequence number is at or before another, modulo 2^32 (R232). -/
def fseqLe (a b : BitVec 32) : Bool := (b - a).toNat < 2 ^ 31

/-- The highest FSEQ received with every block good or repaired and every earlier frame likewise (Table 8-5, ACK). -/
def ackOf (p : Port) : BitVec 32 :=
  match p.held256.filter (fun h => h.bad ≠ 0) with
  | [] => p.expected - 1
  | h :: _ => h.fseq - 1

/-- The trailer cell of a frame (Table 8-5); the first frame of each group of five sets GROUP_START (R222). -/
def trailerOf (p : Port) (cells : List FrameCell) : CellData :=
  let (nf, nm, nv) : BitVec 32 × BitVec 8 × Bool := match p.nak with
    | [] => (0, 0, false)
    | (f, m) :: _ => (f, m, true)
  let flags := b2n (p.group = 0) + 2 * b2n nv + 4 * b2n (p.state = .fenced)
  let b := ((List.range 8).map fun i => leBytes 2 (blockCrc cells i).toNat).flatten ++ leBytes 4 p.fseq.toNat ++
    leBytes 4 (ackOf p).toNat ++ leBytes 4 nf.toNat ++ leBytes 1 nm.toNat ++ leBytes 1 flags
  cellOf (b ++ leBytes 2 (crc16 b).toNat)

/-- A stream of a port, empty when none is listed. -/
def portStream (p : Port) (vc ctx : Nat) : PortStream :=
  (p.streams.find? fun t => t.vc.val == vc && t.ctx.val == ctx).getD { vc := Fin.ofNat 8 vc, ctx := Fin.ofNat 16 ctx }

/-- A port with one stream replaced or added. -/
def putStream (p : Port) (t : PortStream) : Port :=
  if p.streams.any fun u => u.vc == t.vc && u.ctx == t.ctx then
    { p with streams := p.streams.map fun u => if u.vc = t.vc ∧ u.ctx = t.ctx then t else u }
  else { p with streams := p.streams ++ [t] }

/-- An empty position is filled with a replay cell, else a management cell of Thimble, else nothing (R227). A link-layer far end
returns the cells it has received in its own frames (R244). -/
def fillEmpty (p : Port) : FrameCell × Port :=
  match p.replayOut, p.turned with
  | c :: cs, _ => (.replay c, { p with replayOut := cs })
  | [], c :: cs => (.mgmt c, { p with turned := cs })
  | [], [] =>
    if p.state ≠ .active then (.idle, p)
    else match p.mgmt with
      | c :: cs => (.mgmt c, { p with mgmt := cs })
      | [] => (.idle, p)

/-- A message as it leaves at a time: a MARKER's ACC_DELAY has grown by the forwarding latency (R23, R231). -/
def leaves (at_ : Int) (q : QueuedMsg) : Vc0Msg :=
  match q.msg with
  | .marker m => .marker { m with accDelay := m.accDelay + BitVec.ofNat 32 (at_ - q.since).toNat }
  | msg => msg

/-- The cell of payload position e, which departs at the time given, with the port after it and the credit it returns, if any (R225,
R227, R231, R263). -/
def frameCellAt (at_ : Nat → Int) (p : Port) (e : Nat) : FrameCell × Port × Option (Nat × Nat × Nat) :=
  match Tab.find p.table e with
  | none => let (c, p) := fillEmpty p; (c, p, none)
  | some (vc, ctx) =>
    if vc = 0 then
      if p.state ≠ .active then (.idle, p, none)
      else (.stream 0 ctx (vc0Cell ((p.vc0.take 2).map (leaves (at_ e)))), { p with vc0 := p.vc0.drop 2 }, none)
    else
      let t := portStream p vc.val ctx.val
      match t.tx with
      | c :: cs =>
        if p.state = .active then
          (.stream vc ctx c.data, putStream p { t with tx := cs },
            if c.credit then some (ctx.val, c.hem.val, vc.val) else none)
        else let (c, p) := fillEmpty p; (c, p, none)
      | [] => let (c, p) := fillEmpty p; (c, p, none)

/-- The payload cells of a frame from position e on, the port after them, and the credits they return. -/
def frameCells (at_ : Nat → Int) (p : Port) : List Nat → List FrameCell × Port × List (Nat × Nat × Nat)
  | [] => ([], p, [])
  | e :: es =>
    let (c, p, r) := frameCellAt at_ p e
    let (cs, p, rs) := frameCells at_ p es
    (c :: cs, p, r.toList ++ rs)

/-- The blocks of a received frame that are bad (R232): BCRC differs or an uncorrectable codeword overlaps. -/
def badBlocks (f : Frame) : BitVec 8 :=
  let t := cellBytes f.trailer
  (List.range 8).foldl (fun m b =>
    if f.badFec.getLsbD b ∨ blockCrc f.cells b ≠ BitVec.ofNat 16 (leAt t (2 * b) 2) then m ||| (1 <<< b) else m) 0

/-- The number of set bits. -/
def popCount {n : Nat} (w : BitVec n) : Nat := ((List.range n).filter fun i => w.getLsbD i).length

/-- The cells of a replayed block, header first (R233). -/
def replayCells (f : SentFrame) (b : Nat) : List CellData :=
  let h := leBytes 4 f.fseq.toNat ++ leBytes 1 b ++ List.replicate 25 0
  cellOf (h ++ leBytes 2 (crc16 h).toNat) :: ((f.cells.drop (32 * b)).take 32).map frameCellData

/-- A cell is the header of a packet on a channel. -/
def startsPacket (vc : Nat) (d : CellData) : Bool := let h := parseHeader d; h.crcOk && h.vc == vc

/-- A stitch number's low half comes after another's, modulo 2^32. -/
def laterLow (a b : BitVec 32) : Bool := let d := (a - b).toNat; decide (1 ≤ d) && decide (d < 2 ^ 31)

/-- A stream cell is delivered in order. Cells of a packet that its deadline completed or an abort cut are discarded (R236, R270), up
to the header of a further packet; and the header of a packet sent in a later stitch ends one that lacks cells, since its sender
discarded them at the boundary (R237) (DESIGN CHOICE, unsafe, assumption log 96). -/
def takeCell (t : PortStream) (d : CellData) : PortStream :=
  let starts := startsPacket t.vc.val d
  if 0 < t.late ∧ ¬ starts then { t with late := t.late - 1 }
  else if t.cut then { t with after := t.after ++ [d] }
  else match t.part with
    | some (h, _) =>
      if starts && laterLow (parseHeader d).srcStitch (parseHeader h).srcStitch then { t with cut := true, after := [d] }
      else { t with rx := t.rx ++ [d] }
    | none => { t with rx := t.rx ++ [d], late := 0 }

/-- A stream cell of a port is delivered. -/
def deliverCell (p : Port) (vc ctx : Nat) (d : CellData) : Port := putStream p (takeCell (portStream p vc ctx) d)

/-- A stream whose link is being trained: nothing queued leaves any more, and no cell completes what it has received. -/
def PortStream.unlink (t : PortStream) : PortStream :=
  { t with tx := [], late := 0, cut := t.cut || t.part.isSome }

/-- A replay cell arrives: a header opens a block, 32 further cells complete it and repair the block they name. -/
def takeReplay (p : Port) (d : CellData) : Port :=
  match p.replayIn with
  | none =>
    let b := cellBytes d
    if crc16 (b.take 30) = BitVec.ofNat 16 (leAt b 30 2) then
      { p with replayIn := some { fseq := BitVec.ofNat 32 (leAt b 0 4), block := leAt b 4 1 % 8, got := [] } }
    else p
  | some r =>
    let got := r.got ++ [.replay d]
    if got.length < 32 then { p with replayIn := some { r with got := got } }
    else
      let retag (old new : FrameCell) : FrameCell := match old with
        | .stream v c _ => .stream v c (frameCellData new)
        | .mgmt _ => .mgmt (frameCellData new)
        | .replay _ => .idle
        | .idle => .idle
      let fix (h : HeldFrame) : HeldFrame :=
        if h.fseq ≠ r.fseq then h
        else
          let old := (h.cells.drop (32 * r.block)).take 32
          { h with
            cells := h.cells.take (32 * r.block) ++ (old.zip got).map (fun x => retag x.1 x.2) ++ h.cells.drop (32 * r.block + 32)
            bad := h.bad &&& ~~~ (1#8 <<< r.block) }
      { p with replayIn := none, held256 := p.held256.map fix }

/-- The frames held with bad blocks, each with its mask. -/
def badHeld (p : Port) : List (BitVec 32 × BitVec 8) := (p.held256.filter fun h => h.bad != 0).map fun h => (h.fseq, h.bad)

/-- A replay has arrived bad (R233): what has come of it is dropped, and every block still bad is requested again that no request
waits for. -/
def lostReplay (p : Port) : Port :=
  { p with replayIn := none, nak := p.nak ++ (badHeld p).filter fun x => !(p.nak.any fun y => y.1 == x.1) }

/-- The cells of one held frame in order (R234): a cell of a bad block blocks its stream, the management cells being one; a cell of
a blocked stream stays; every other cell is delivered. Answers the port, the streams blocked and the cells still held. -/
def releaseCells (bad : BitVec 8) : Nat → List FrameCell → Port → List (Nat × Nat) → Port × List (Nat × Nat) × List FrameCell
  | _, [], p, bl => (p, bl, [])
  | i, c :: cs, p, bl =>
    let isBad := bad.getLsbD (i / 32)
    match c with
    | .stream vc ctx d =>
      let k := (vc.val, ctx.val)
      if isBad ∨ bl.contains k then
        let (p, bl, r) := releaseCells bad (i + 1) cs p (if bl.contains k then bl else k :: bl)
        (p, bl, c :: r)
      else
        let (p, bl, r) := releaseCells bad (i + 1) cs (deliverCell p vc.val ctx.val d) bl
        (p, bl, .idle :: r)
    | .mgmt d =>
      if isBad ∨ bl.contains (8, 0) then
        let (p, bl, r) := releaseCells bad (i + 1) cs p (if bl.contains (8, 0) then bl else (8, 0) :: bl)
        (p, bl, c :: r)
      else let (p, bl, r) := releaseCells bad (i + 1) cs (deliverCell p 6 0 d) bl; (p, bl, .idle :: r)
    | .replay d =>
      if isBad then let (p, bl, r) := releaseCells bad (i + 1) cs (lostReplay p) bl; (p, bl, .idle :: r)
      else let (p, bl, r) := releaseCells bad (i + 1) cs (takeReplay p d) bl; (p, bl, .idle :: r)
    | .idle => let (p, bl, r) := releaseCells bad (i + 1) cs p bl; (p, bl, .idle :: r)

/-- Everything held is delivered as far as stream order allows, oldest frame first. -/
def releaseHeld : List HeldFrame → Port → List (Nat × Nat) → Port × List HeldFrame
  | [], p, _ => (p, [])
  | h :: hs, p, bl =>
    let (p, bl, cells) := releaseCells h.bad 0 h.cells p bl
    let (p, rest) := releaseHeld hs p bl
    if h.bad = 0 ∧ cells.all (fun c => c == .idle) then (p, rest) else (p, { h with cells := cells } :: rest)

/-- A held frame after a walk, with the blocks that a replay repaired during the walk taken over. -/
def mergeRepair (repaired : List HeldFrame) (h : HeldFrame) : HeldFrame :=
  match repaired.find? (fun r => r.fseq == h.fseq && r.bad != h.bad) with
  | none => h
  | some r =>
    let pick (x : (FrameCell × FrameCell) × Nat) : FrameCell :=
      if h.bad.getLsbD (x.2 / 32) && !(r.bad.getLsbD (x.2 / 32)) then x.1.2 else x.1.1
    { h with bad := r.bad, cells := ((h.cells.zip r.cells).zipIdx).map pick }

/-- One walk over the held frames, oldest first. -/
def walkHeld (p : Port) : Port :=
  let (q, rest) := releaseHeld p.held256 p []
  { q with held256 := rest.map (mergeRepair q.held256) }

/-- The frames held are walked, twice over, so that a block repaired in the first walk frees its stream in the second. -/
def settlePort (p : Port) : Port := walkHeld (walkHeld p)

/-- The cells that wait behind a repair (R234). -/
def waitingCells (p : Port) : Nat := (p.held256.map fun h => (h.cells.filter fun c => c != .idle).length).sum

/-- What training drops and clears on a port (R239, Table 8-9): FSEQ, the replay buffer, queued and held cells. A packet received in
part stays until its deadline poisons it (R243). -/
def clearLink (p : Port) : Port :=
  { p with fseq := 0, expected := 0, nak := [], sent := [], replayOut := [], held256 := [], replayIn := none,
           badTrailers := 0, vc0 := [], mgmt := [], turned := [], group := 0,
           streams := p.streams.map PortStream.unlink }

/-! Barrier counts (R29). -/

/-- The barrier held for a tag and start stitch. -/
def barrierOf (s : State) (tag : BitVec 16) (start : Stitch) : Option Barrier :=
  s.stu.barriers.find? fun b => b.tag == tag && b.start == start

/-- The barrier state changed; opened when there is none. -/
def onBarrier (tag : BitVec 16) (start : Stitch) (f : Barrier → Barrier) (s : State) : State :=
  let new : Barrier := { tag := tag, start := start, own := none, children := [], sent := none, outcome := none }
  match barrierOf s tag start with
  | some _ => s.onStu fun u => { u with barriers := u.barriers.map fun b => if b.tag = tag ∧ b.start = start then f b else b }
  | none => s.onStu fun u => { u with barriers := u.barriers ++ [f new] }

/-- The expected count and the subtree count of a barrier (R29): differing expected counts give 0. -/
def barrierSum (b : Barrier) : BitVec 16 × BitVec 16 :=
  let all := (match b.own with
    | some e => [(e, (1 : BitVec 16))]
    | none => []) ++ b.children.map fun c => (c.expected, c.count)
  let expected := match all with
    | [] => 0
    | (e, _) :: rest => if rest.all fun x => x.1 == e then e else 0
  (expected, (all.map (·.2)).foldl (· + ·) 0)

/-- READY goes up the primary tree when the subtree count has changed since the last one (R29). -/
def pushReady (tag : BitVec 16) (start : Stitch) (s : State) : State :=
  match barrierOf s tag start with
  | none => s
  | some b =>
    let now := barrierSum b
    if b.sent = some now then s
    else onBarrier tag start (fun b => { b with sent := some now })
      (sendUp (.ready { tag := tag, start := start, expected := now.1, count := now.2 }) s)

/-- The counts that came through a child port are discarded and the changed aggregates sent (R29). -/
def dropChild (port : Nat) (s : State) : State :=
  let mine := s.stu.barriers.filter fun b => b.children.any fun c => c.port.val == port
  s.each mine fun s b => pushReady b.tag b.start
    (onBarrier b.tag b.start (fun x => { x with children := x.children.filter fun c => c.port.val != port }) s)

/-! Ports. -/

/-- Every queued cell of a port is dropped and its credits returned. -/
def discardStreams (m : Nat) (s : State) : State := s.each (s.port m).streams fun s t => discardStream m t s

/-- What a port that leaves ACTIVE drops: every queued cell, its credits returned, and the READY counts that came through it
(R29, R243). -/
def discardPort (m : Nat) (s : State) : State := dropChild m (discardStreams m s)

/-- A training of a port starts and is counted in RETUNES; what is still queued on it is discarded and its credits return (R243,
R263). -/
def startTraining (m : Nat) (full : Bool) (s : State) : State :=
  ((discardStreams m s).onPort m fun p => { clearLink p with
    state := if full then .trainFull else .retune, retunes := satAdd 16 p.retunes 1, delayFails := 0, held := false,
    laneLock := 0, met := false, miswired := false, loop := 0 }).onSea fun a => { a with ledgerDirty := true }

/-- A training that no loss led to: it begins without a 400 ms limit (R243). -/
def retrain (m : Nat) (full : Bool) (s : State) : State :=
  (startTraining m full s).onPort m fun p => { p with lost := none }

/-- A port goes DOWN: its domain is off (Table 8-7). -/
def portDown (m : Nat) (s : State) : State :=
  ((discardPort m s).onPort m fun p => { clearLink p with
    state := .down, laneLock := 0, powered := false, met := false, lost := none }).onSea fun a => { a with ledgerDirty := true }

/-- The roles of the ports (Table 8-1): the direction code of a torus port (X+ 0, X− 1, Y+ 2, ...) or 6 for lining. -/
def portRole (m : Nat) : Nat := if m ≥ 12 then 6 else m / 2

/-- The neighbour's port has the role that Table 8-1 asks for. -/
def roleMeets (m nb : Nat) : Bool :=
  if portRole m = 6 then portRole nb == 6 else portRole nb == (if portRole m % 2 = 0 then portRole m + 1 else portRole m - 1)

/-- The check of R220 on a trained port: the neighbour's role, one neighbour behind all four lining ports, no torus port
meeting its own device. -/
def wiringOk (s : State) (m : Nat) (o : TrainingObs) : Bool :=
  roleMeets m o.nbPort.val &&
    (if m ≥ 12 then
      [12, 13, 14, 15].all fun j => j == m || !(s.port j).met || (s.port j).nbSerial == o.nbSerial
    else o.nbSerial != Config.serial)

/-- SEA_CTRL.LOCK. -/
def seaLocked (s : State) : Bool := bit s.sea.ctrl 0

/-! The lining state (R323), which a port that fails moves too. -/

/-- The code of a lining state (Table 11-7). -/
def liningCode : LiningState → Nat
  | .solo => 0
  | .pairing => 1
  | .mirrored => 2
  | .carrying => 3
  | .refilling => 4
  | .fenced => 5

/-- The body of a lining-state-change event (Table 14-6, R323). -/
def liningBody (old new : LiningState) (l : Lin) : List (Nat × List Byte) :=
  [(16, leBytes 1 (liningCode old)), (17, leBytes 1 (liningCode new)), (18, leBytes 1 l.reason.toNat),
    (19, leBytes 1 (b2n l.valid + 2 * b2n l.sending + 4 * b2n l.receiving)), (20, leBytes 4 l.refilled.toNat),
    (24, leBytes 8 l.partnerSerial.toNat)]

/-- The lining state becomes `new`: each transition posts an event to the system context and to the bound context, and the BMC
is told (R323, R403). SOLO and FENCED hold no mirror; only REFILLING keeps the refill flags. -/
def setLining (new : LiningState) (s : State) : State :=
  let old := s.lin.state
  if old = new then s
  else
    let refill : Bool := new == .refilling
    let none_ : Bool := new == .solo || new == .fenced
    let s := s.onLin fun l => { l with
      state := new
      valid := l.valid && !none_
      sending := l.sending && refill
      receiving := l.receiving && refill
      refillPending := l.refillPending && refill
      identityDue := new == .pairing }
    let body := liningBody old new s.lin
    let n := fld s.lin.pairCfg 3 0
    let s := post 0 0x08 body s
    let s := if n ≠ 0 ∧ ctxDefined s n then post n 0x08 body s else s
    platformEvent 0x08 (layout 48 (body.map fun x => (x.1 - 16, x.2))) s

end Sys2Proof.Machine
end

