-- ==== Sys2Proof/Machine/Seams.lean ====
section
/-! DEFINITION. The meanings of the seam commands (08_seams) and of the packet commands of the hem dies (08_seams,
09_collectives). -/

namespace Sys2Proof.Machine

/-- When payload position e of the port's next frame departs (R222, R223): frame f starts 40.96 × f × k/16 ns after the boundary, and
its 257 cells take 40.96 ns. -/
def departs (s : State) (f e : Nat) : Int :=
  stitchStartPs s + 40960 * f * s.stu.curFactor.toNat / 16 + 40960 * e / 257

/-- A port sends and takes frames: in service, fenced, and in loop-back. -/
def framing (p : Port) : Bool := p.state == .active || p.state == .fenced || p.state == .loopback

/-- A received frame's effect on its port (R232 to R234). More than 256 KiB of cells waiting behind a repair take the port down (DESIGN
CHOICE, unsafe, assumption log 97). -/
def receiveFrame (f : Frame) (p : Port) : Port :=
  let t := cellBytes f.trailer
  let ok := crc16 (t.take 30) == BitVec.ofNat 16 (leAt t 30 2)
  let bad := if ok then badBlocks f else 0xFF
  let fseq := if ok then BitVec.ofNat 32 (leAt t 16 4) else p.expected
  let p := { p with
    badTrailers := if ok then 0 else p.badTrailers + 1, expected := fseq + 1,
    lost := if ¬ ok ∧ 16 ≤ p.badTrailers + 1 then some .trailers else p.lost,
    cwCorrected := satAdd 48 p.cwCorrected f.corrected, cwUncorrectable := satAdd 32 p.cwUncorrectable f.uncorrectable,
    symCorrected := satAdd 48 p.symCorrected f.symbols, blockBad := satAdd 32 p.blockBad (popCount bad),
    nak := if bad = 0 then p.nak else p.nak ++ [(fseq, bad)],
    held256 := p.held256 ++
      [{ fseq := fseq, cells := f.cells, crcs := (List.range 8).map fun b => BitVec.ofNat 16 (leAt t (2 * b) 2), bad := bad }] }
  let p :=
    if ¬ ok then p
    else
      let ack := BitVec.ofNat 32 (leAt t 20 4)
      let p := { p with sent := p.sent.filter fun x => !fseqLe x.fseq ack }
      if ¬ (leAt t 29 1).testBit 1 then p
      else
        let nf := BitVec.ofNat 32 (leAt t 24 4)
        let nm := BitVec.ofNat 8 (leAt t 28 1)
        match p.sent.find? fun x => x.fseq == nf with
        | none => { p with lost := some .nak }
        | some x =>
          let blocks := (List.range 8).filter fun b => nm.getLsbD b
          { p with
            replayOut := p.replayOut ++ (blocks.map fun b => replayCells x b).flatten,
            replayed := satAdd 32 p.replayed blocks.length }
  let p := settlePort p
  if 8192 < waitingCells p then { p with lost := some .nak } else p

/-- The frame that a port sends next, and the port and the credits returned after it (R222 to R227, R231, R263). -/
def composeFrame (at_ : Nat → Int) (p : Port) : Frame × Port × List (Nat × Nat × Nat) :=
  let (cells, q, credits) := frameCells at_ p (List.range 256)
  let kept := q.sent ++ [{ fseq := q.fseq, cells := cells }]
  ({ cells := cells, trailer := trailerOf q cells, badFec := 0, corrected := 0, uncorrectable := 0, symbols := 0 },
    { q with
      fseq := q.fseq + 1, frame := q.frame + 1, group := (q.group + 1) % 5, nak := q.nak.drop 1,
      sent := kept.drop (kept.length - 32) },
    credits)

/-- FRAME_SEND (R222 to R227, R231, R233): the port's next frame of the stitch leaves, its positions filled as the slot
table and R227 say; departing cells return their credits (R263). A stitch has F frames (R223). The near-end loop-back before the FEC
encoder turns the frame into the port's own receiver (R244). -/
def frameSend (m : Nat) (s : State) : State :=
  let p := s.port m
  if ¬ framing p ∨ framesPerStitch s.stu.periodUnits.toNat ≤ p.frame then s
  else
    let (f, q, credits) := composeFrame (departs s p.frame) p
    let near : Bool := p.state == .loopback && p.loop == 1 && !p.farLoop
    let s := s.onPort m fun _ => if near then receiveFrame f q else q
    let s := s.each credits fun s c => returnCredits c.1 c.2.1 c.2.2 1 s
    if near then s else s.emit (.frame m f)

/-- FRAME_SEND. -/
def execFrameSend (port : PortId) (s : State) : Out := .next (frameSend port.val s)

/-! Collective sequence numbers and credit books (09_collectives). -/

/-- SEQ_v of a context, v from 1 to 6. -/
def seqOf (c : ColCtx) (v : Nat) : BitVec 32 := vAt c.seq (v - 1) 0

/-- A sequence number is later than another modulo 2^31 (R261). -/
def seqLater (a b : BitVec 32) : Bool := let d := (a - b).toNat; 1 ≤ d && d < 2 ^ 31

/-- A sequence number is earlier than another; a difference of 2^31 counts as earlier (R261). -/
def seqEarlier (a b : BitVec 32) : Bool := let d := (b - a).toNat; 1 ≤ d && d ≤ 2 ^ 31

/-- The pool of a channel in each hem die, in cells (Table 9-10). -/
def poolCells (credit : W64) (v : Nat) : Nat :=
  64 * (match v with
    | 1 => fld credit 9 0
    | 2 => fld credit 19 10
    | 3 => fld credit 29 20
    | 5 => fld credit 39 30
    | 6 => fld credit 49 40
    | _ => 0)

/-- The credits lent to a context in one hem die, all channels. -/
def lentIn (c : ColCtx) (hem : Nat) : Nat := ((List.range 8).map fun v => Tab.getD c.lent (8 * hem + v) 0).sum

/-- PEAK after a lending (Table 9-10). -/
def peakAfter (c : ColCtx) : BitVec 16 := BitVec.ofNat 16 (min 65535 (max c.peak.toNat (max (lentIn c 0) (lentIn c 1))))

/-- A flit reaches a hem die at an attachment router as a cell of its context's packet there; a packet that is whole joins the hem
die's queue, in the order received (R228). -/
def gatherCell (hem r n : Nat) (d : CellData) (s : State) : State :=
  let k := 16 * r + n
  let cells := Tab.getD s.col.mesh k [] ++ [d]
  match cells with
  | [] => s
  | h :: data =>
    if data.length < (parseHeader h).length + 1 then s.onCol fun c => { c with mesh := Tab.put c.mesh k cells }
    else
      let q := 16 * hem + n
      s.onCol fun c => { c with
        mesh := Tab.drop c.mesh k
        packets := Tab.put c.packets q (Tab.getD c.packets q [] ++ [{ header := h, data := data }]) }

/-- The largest offset taken from the cores in the stitch, with one more (R260): negative offsets do not count. -/
def takeOffset (n v : Nat) (o : BitVec 32) (s : State) : State :=
  if o.getLsbD 31 ∨ v < 1 ∨ 6 < v then s
  else s.onColCtx n fun c => { c with
    largest := vMod c.largest (v - 1) fun
      | none => some o
      | some p => some (if p.toNat < o.toNat then o else p) }

/-- A packet that the hem die takes (R260, R263, Table 11-1): it writes its sequence number and the context's layout epoch, lends its
credits and queues it at the port and channel its header names; a pool that is short discards the whole packet and poisons the sender. -/
def admitPacket (hem n : Nat) (x : Packet) (s : State) : State :=
  let hd := parseHeader x.header
  let v := hd.vc
  let c := s.colCtx n
  let lent := Tab.getD c.lent (8 * hem + v) 0
  let need := hd.length + 2
  if poolCells c.credit v < lent + need then
    poison n (s.onColCtx n fun c => { c with noCredit := satInc c.noCredit 1 })
  else
    let h := withSeq x.header (s.train n).current (seqOf c v + hd.seq)
    let q (d : CellData) : QueuedCell := { data := d, hem := Fin.ofNat 2 hem, credit := true }
    let s := s.onColCtx n fun c =>
      let c := { c with lent := Tab.put c.lent (8 * hem + v) (lent + need) }
      { c with peak := peakAfter c }
    s.onPort hd.port fun p =>
      let t := portStream p v n
      putStream p { t with tx := t.tx ++ (h :: x.data).map q }

/-- PACKET_TAKE (R228, R260, R263, R270): the hem die takes the oldest whole packet that the context's cores have sent it. What an
ABORTED context sends on the abort's channels is discarded, its offset counted. -/
def packetTake (hem : Nat) (n : Nat) (s : State) : State :=
  let k := 16 * hem + n
  match Tab.getD s.col.packets k [] with
  | [] => s
  | x :: rest =>
    let hd := parseHeader x.header
    let s := takeOffset n hd.vc hd.seq (s.onCol fun c => { c with packets := Tab.put c.packets k rest })
    if (s.colCtx n).aborted ∧ abortChannel hd.vc then s else admitPacket hem n x s

/-- PACKET_TAKE. -/
def execPacketTake (hem : Fin 2) (n : Ctx) (s : State) : Out := .next (packetTake hem.val n.val s)

/-- The edge router of a MESH packet (R229): panels 0 to 3 by hem die 0 at row 0, panels 4 to 7 by hem die 1 at row 79. -/
def attachRow (panel : Nat) : Nat := if panel < 4 then 0 else 79

/-- The physical column of a logical column: in each row the (c + 1)-th good column of the core fuse map as applied
(R84, R413). -/
def physCol (s : State) (panel row col : Nat) : Nat :=
  let q := s.physPanel panel
  let soft := (vAt s.thm.applied 2 []).filter fun e =>
    fld e 7 0 == q && fld e 15 8 == row && fld e 31 24 == 1
  let good := (List.range 128).filter fun c =>
    Config.factoryCore q row c == 0 && !(soft.any fun e => fld e 23 16 == c)
  good.getD col col

/-- A router's number. -/
def routerNum (panel row pcol : Nat) : Nat := 10240 * panel + 128 * row + pcol

/-- The route page a router uses: that of the pattern dispatched on its band (R111). -/
def routePage (s : State) (r : Nat) : Nat :=
  let g := 16 * (r / 10240) + r % 10240 / 640
  match Tab.find s.stu.bands g with
  | none => 0
  | some b => match s.work.patterns.find? fun p => p.ctx == b.ctx && p.handle == b.handle with
    | some p => Tab.getD p.pages g 0
    | none => 0

/-- A router's table entry under the page it uses now (R111); none when invalid. -/
def routeEntry (s : State) (r route : Nat) : Option (BitVec 32) :=
  let x := s.router r
  match Tab.find x.entries (256 * routePage s r + route) with
  | some e => if bit e 31 then some e else none
  | none => none

/-- A band drops what is addressed to it: it is not ON (R368). -/
def bandDrops (b : Band) : Bool :=
  b.state == .fenced || b.state == .poweringDown || b.state == .off || b.state == .poweringUp || b.state == .resetting

/-- FENCE_DROPS of a band grows and the violation rule counts it against a context (R368). -/
def fenceDrop (g n : Nat) (s : State) : State :=
  violate n 0x04 (s.onBand g fun b => { b with drops := satInc b.drops 1 })

/-- The stitch lies in the run of an arm entry. -/
def entryCovers (e : ArmEntry) (n : Stitch) : Bool :=
  decide (0 ≤ (n - e.first).toInt) && (match e.last with
    | none => true
    | some l => decide (0 ≤ (l - n).toInt))

/-- The contexts that have an arm entry in the current stitch. -/
def contextsInStitch (s : State) : List Nat :=
  jobContexts.filter fun n => s.work.entries.any fun e => e.ctx.val == n && entryCovers e s.stu.stitch

/-- Two inbox records of 144 bytes for every 9 data cells (R229). -/
def recordsOf (data : List CellData) : List RecordBytes :=
  let bs := (data.map cellBytes).flatten
  (List.range (bs.length / 144)).map fun i => slice bs (144 * i) 144

/-- A packet discarded by R230 (kind 0x09) or R262 (kind 0x08): counted against DEST_CTX, and a poisoned delivery for it
when it is defined. -/
def discardPacket (n : Nat) (kind : Byte) (fenced : Bool) (s : State) : State :=
  let s := violate n kind s
  if fenced ∨ ¬ ctxDefined s n then s else poison n s

/-- The destination address of a THIMBLE packet: bits [14:0] of its first data cell (DESIGN CHOICE, unsafe, assumption log 34). -/
def thimbleDest (data : List CellData) : Nat := (data.headD 0).toNat % 2 ^ 15

/-- COLL_SEQ is outside the window of R262. -/
def staleSeq (c : ColCtx) (vc : Nat) (seq : BitVec 32) : Bool := seqEarlier seq (seqOf c vc - 256) || seqLater seq (seqOf c vc + 255)

/-- An off-load transfer of the lining pair while the pair is not MIRRORED, or the partner is fenced (R185). -/
def offloadCut (s : State) (m vc : Nat) : Bool :=
  decide (12 ≤ m) && vc == 5 && (s.lin.state != .mirrored || (s.port m).fence || (s.port m).state == .fenced)

/-- A packet is delivered poisoned: counted at its port, and recorded for its context (R236). -/
def poisonedAt (m n : Nat) (s : State) : State := poison n (s.onPort m fun p => { p with poisoned := satAdd 32 p.poisoned 1 })

/-- What a hem die does with a whole received packet (R185, R229, R230, R245, R246, R262, R270). -/
def deliverPacket (m : Nat) (vc : Nat) (header : CellData) (data : List CellData) (s : State) : State :=
  let h := parseHeader header
  let fenced : Bool := (s.port m).state = .fenced
  let mine := fld s.sea.addr 14 0
  if isRefill vc header then
    if fenced then violate 0 0x09 s
    else s.onPrs fun p => { p with refillIn := p.refillIn ++ [{ header := header, data := data }] }
  else if ¬ h.crcOk then
    let s := violate 0 0x09 s
    if fenced then s else s.each (contextsInStitch s) fun s n => poison n s
  else if h.vc < 1 ∨ 6 < h.vc ∨ h.vc ≠ vc ∨ h.kind = 3 then discardPacket h.destCtx 0x09 fenced s
  else if h.kind = 2 then
    let d := thimbleDest data
    if d = mine then s.onSea fun a => { a with thimbleIn := a.thimbleIn ++ [{ header := header, data := data }] }
    else if fenced then discardPacket h.destCtx 0x09 true s
    else
      let next := (Tab.getD s.sea.route d 0xF).toNat
      if next = 15 then discardPacket h.destCtx 0x09 false s
      else s.onPort next fun p => { p with mgmt := p.mgmt ++ (header :: data) }
  else if fenced then discardPacket h.destCtx 0x09 true s
  else
    let c := s.colCtx h.destCtx
    let g := 16 * h.panel + attachRow h.panel / 5
    let b := s.band g
    let r := routerNum h.panel (attachRow h.panel) (physCol s h.panel (attachRow h.panel) h.column)
    let badMesh := h.kind = 0 ∧ (b.owner.val ≠ h.destCtx ∨ h.destCtx = 0 ∨ (¬ bandDrops b ∧ (routeEntry s r h.route).isNone))
    let bind := (s.presser h.column).bind
    let badPrs := h.kind = 1 ∧ ¬ (bit bind 0 ∧ fld bind 7 4 = h.destCtx)
    if badMesh ∨ badPrs then discardPacket h.destCtx 0x09 false s
    else if h.kind = 0 ∧ bandDrops b then fenceDrop g h.destCtx s
    else if staleSeq c vc h.seq ∨ h.epoch ≠ (s.train h.destCtx).current then
      discardPacket h.destCtx 0x08 false (s.onColCtx h.destCtx fun c => { c with
        staleSeq := satInc c.staleSeq (b2n (staleSeq c vc h.seq))
        staleEpoch := satInc c.staleEpoch (b2n (h.epoch != (s.train h.destCtx).current)) })
    else if c.aborted ∧ abortChannel vc then s
    else if h.kind = 1 then
      s.onPresser h.column fun p => { p with mirrorIn := p.mirrorIn ++ recordsOf data }
    else
      let s := if offloadCut s m vc then poisonedAt m h.destCtx s else s
      let flit (d : CellData) : FlitInFlight :=
        { panel := h.panel, row := attachRow h.panel, col := physCol s h.panel (attachRow h.panel) h.column,
          input := .bridge, flit := { route := BitVec.ofNat 8 h.route, data := d } }
      s.onCores fun k => { k with flits := k.flits ++ data.map flit }

/-- The packet at the head of a stream with what it leaves: none until all its cells are there. -/
def headPacket (t : PortStream) : Option (Packet × PortStream) :=
  match t.rx with
  | [] => none
  | h :: rest =>
    let k := packetCells t.vc.val h
    if rest.length < k then none else some ({ header := h, data := rest.take k }, { t with rx := rest.drop k })

/-- PACKET_RECEIVE (R229, R230, R262): the packet at the head of a stream, once all its cells are there. A far end that loops back
through its router turns it to the port it came from (R244). -/
def packetReceive (m n vc : Nat) (s : State) : State :=
  let p := s.port m
  match headPacket (portStream p vc n) with
  | none => s
  | some (x, t) =>
    if p.state = .loopback ∧ p.farLoop ∧ p.loop = 5 then
      let back (d : CellData) : QueuedCell := { data := d, hem := Fin.ofNat 2 (m / 8), credit := false }
      s.onPort m fun p => putStream p { t with tx := t.tx ++ (x.header :: x.data).map back }
    else deliverPacket m vc x.header x.data (s.onPort m fun p => putStream p t)

/-- PACKET_RECEIVE. -/
def execPacketReceive (port : PortId) (n : Ctx) (vc : Fin 8) (s : State) : Out :=
  .next (packetReceive port.val n.val vc.val s)

/-- The DEADLINE of a packet has passed (R236, Table 8-4): it lies in the receiver's stitch with the number SRC_STITCH, or in the next
when DL_NEXT is set, and counts the core cycles of the destination's panel. A refill record carries none. -/
def deadlinePassed (s : State) (vc : Nat) (header : CellData) : Bool :=
  let h := parseHeader header
  let due := h.srcStitch + BitVec.ofNat 32 (b2n h.dlNext)
  let now := s.stu.stitch.setWidth 32
  let cycle := (16 * s.stu.pos + 15) / max 1 (vAt s.thm.panels h.panel {}).clockK
  !isRefill vc header && (laterLow now due || (now == due && decide (h.deadline ≤ cycle)))

/-- The stream after its head packet, which lacked k cells, was completed with zeros: those cells are discarded if they come. -/
def passPart (vc n k : Nat) (p : Port) : Port :=
  let t := portStream p vc n
  let p := putStream p { t with rx := [], late := if t.cut then 0 else k, cut := false, after := [] }
  t.after.foldl (fun p d => deliverCell p vc n d) p

/-- DEADLINE_EXPIRY (R236): the packet at the head of a stream is not complete at its DEADLINE: its missing cells are
delivered as zeros and discarded when they come, POISONED grows and DEST_CTX has a poisoned delivery. -/
def deadlineExpiry (m n vc : Nat) (s : State) : State :=
  let t := portStream (s.port m) vc n
  match t.rx with
  | [] => s
  | h :: rest =>
    let k := packetCells vc h
    if k ≤ rest.length ∨ ¬ deadlinePassed s vc h then s
    else
      let missing := k - rest.length
      let s := s.onPort m fun p => let p := passPart vc n missing p; { p with poisoned := satAdd 32 p.poisoned 1 }
      let s := deliverPacket m vc h (rest ++ List.replicate missing 0) s
      let d := (parseHeader h).destCtx
      if ctxDefined s d then poison d s else s

/-- DEADLINE_EXPIRY. -/
def execDeadlineExpiry (port : PortId) (n : Ctx) (vc : Fin 8) (s : State) : Out :=
  .next (deadlineExpiry port.val n.val vc.val s)

/-! Port states (R238 to R246). -/

/-- The code of a loss in SEAM_LOST's syndrome (Table 13-4). -/
def lossCode : PortLoss → Nat
  | .laneLock => 1
  | .trailers => 2
  | .nak => 3

/-- The SEAM_LOST or SEAM_FAILED record of a port (Table 13-4). -/
def seamRec (s : State) (cause cls m : Nat) (loss : PortLoss) (lanes : BitVec 8) (state : Nat) : FaultRec :=
  faultRec s cause cls 8 m (s.port m).nbAddr.toNat state 0 0 (lossCode loss + 256 * lanes.toNat)

/-- A context has entries on a port (R225): an armed pattern of its declares cells there, or it is the lining-bound one and PRS_MIRROR
gives it VC_4 entries. -/
def usesPort (s : State) (m n : Nat) : Bool :=
  (liningCtx s == some n && decide (12 ≤ m) && fld s.prs.mirrorNow (8 * (m - 12) + 7) (8 * (m - 12)) != 0) ||
    s.work.entries.any fun e => e.ctx.val == n && s.work.patterns.any fun p => p.ctx.val == n && p.handle == e.handle &&
      (List.range 8).any fun v => Tab.getD p.seam (8 * m + v) 0 > 0

/-- The jobs with entries on a port (R243, R267). -/
def jobsOnPort (s : State) (m : Nat) : List (BitVec 16) :=
  ((((liveContexts s).filter (usesPort s m)).map fun n => (s.colCtx n).job).filter (· ≠ 0)).eraseDups

/-- A device reset is running: what befalls a port then is not reported (Table 13-15). -/
def inReset (s : State) : Bool := s.flt.phase == .hold || s.flt.phase == .running

/-- An ACTIVE port is lost (R243): its cells are discarded, an ABORT floods for every job with entries on it, a UNIT
record waits for the boundary, and a fast retune starts. -/
def losePort (m : Nat) (loss : PortLoss) (lanes : BitVec 8) (s : State) : State :=
  let jobs := jobsOnPort s m
  let r := { seamRec s 0x19 2 m loss lanes 2 with flags := if jobs.any (originates s · 2) then 4 else 0 }
  let quiet := inReset s
  let s := discardPort m s
  let s := s.onPort m fun p => { p with state := .retune }
  let s := s.each jobs fun s j => originateAbort j 0x02 s
  let s := if quiet then s else declareFault r s
  (startTraining m false s).onPort m fun p => { p with lost := some loss, laneLock := lanes }

/-- PORT_LOST (R243): a lane lost lock, or the port's own state shows 16 failed trailers or a NAK beyond the buffer. -/
def execPortLost (port : PortId) (loss : PortLoss) (lanes : BitVec 8) (s : State) : Out :=
  let p := s.port port.val
  if p.state = .active ∧ (loss = .laneLock ∨ p.lost = some loss) then .next (losePort port.val loss lanes s) else .next s

/-- PORT_FAILED (R243): a lost port that is not ACTIVE again within 400 ms becomes FAILED; a NOTICE record waits for the
boundary and Thimble logs it. A lining port that fails takes a MIRRORED device back to PAIRING (Table 11-7). -/
def execPortFailed (port : PortId) (s : State) : Out :=
  let p := s.port port.val
  match p.lost with
  | some loss =>
    if p.state = .retune ∨ p.state = .trainFull ∨ p.state = .check then
      let s' := s.onPort port.val fun p => { p with state := .failed }
      let s' := s'.onSea fun a => { a with ledgerDirty := true }
      let s' := if 12 ≤ port.val ∧ s.lin.state = .mirrored then setLining .pairing s' else s'
      .next (if inReset s then s' else declareFault (seamRec s 0x1A 1 port.val loss p.laneLock 7) s')
    else .next s
  | none => .next s

/-- A trained port fails R220: it is held in CHECK; where the lining ports have not met one device, all four are, those in service
too. -/
def holdMiswired (m : Nat) (o : TrainingObs) (s : State) : State :=
  let four : List Nat := if m ≥ 12 ∧ roleMeets m o.nbPort.val then [12, 13, 14, 15].filter fun j => j == m || (s.port j).met else [m]
  (s.each four fun s j =>
    let s := if (s.port j).state = .active then discardPort j s else s
    s.onPort j fun p => { p with state := .check, miswired := true, held := true, vc0 := [] }).onSea
      fun a => { a with ledgerDirty := true }

/-- What a training found is taken over (R220, R239 to R241): a fast retune that meets another serial than the saved one gives way to
full equalization (R240). -/
def finishTraining (m : Nat) (o : TrainingObs) (s : State) : State :=
  let p := s.port m
  if p.state = .retune ∧ p.saved ∧ p.savedSerial ≠ o.nbSerial then startTraining m true s
  else
    let ok := wiringOk s m o
    let s := s.onPort m fun p => { p with
      laneLock := 0xFF, nbSerial := o.nbSerial, nbAddr := o.nbAddr, nbPort := o.nbPort, met := true, miswired := !ok,
      state := .check }
    if ¬ ok then holdMiswired m o s
    else if o.sigmaPs.toNat > 80 then
      s.onPort m fun p => { p with delayFails := p.delayFails + 1, held := decide (3 ≤ p.delayFails + 1) }
    else if ¬ o.errorsOk then startTraining m true s
    else
      (s.onPort m fun p => { p with
        delayPs := o.delayPs, sigmaPs := o.sigmaPs, saved := true, savedSerial := o.nbSerial, lost := none, held := false,
        fresh := false, state := if p.fence then .fenced else .active }).onSea fun a => { a with ledgerDirty := true }

/-- TRAINING_DONE (R239 to R241, Table 8-7): success goes through CHECK to ACTIVE; a failed fast retune goes to full
equalization; a failed full equalization is retried. -/
def execTrainingDone (port : PortId) (o : TrainingObs) (s : State) : Out :=
  let p := s.port port.val
  match p.state with
  | .trainFull => if o.success then .next (finishTraining port.val o s) else .next s
  | .retune => if o.success then .next (finishTraining port.val o s) else .next (startTraining port.val true s)
  | .check => if o.success ∧ ¬ p.held then .next (finishTraining port.val o s) else .next s
  | _ => .next s

/-- FULL_EQ_RETRY (Table 8-7): 2.5 s of TRAIN_FULL without success: full equalization starts again. -/
def execFullEqRetry (port : PortId) (s : State) : Out :=
  if (s.port port.val).state = .trainFull then .next (startTraining port.val true s) else .next s

/-- SER_WINDOW (R243): over 1 s an ACTIVE port's symbol error ratio passes 10^−SER_LIMIT: DEGRADED is set and logged. -/
def execSerWindow (port : PortId) (symbolErrors symbols : Nat) (s : State) : Out :=
  let p := s.port port.val
  if p.state = .active ∧ symbols < symbolErrors * 10 ^ fld s.sea.ctrl 11 8 then
    .next (logGeneral 0x04 0 (leBytes 1 port.val) (s.onPort port.val fun p => { p with degraded := true }))
  else .next s

/-- SEA_PORT_CFG_m as it reads (Table 8-12). -/
def portCfgValue (p : Port) : W64 :=
  (p.cfg &&& mask64 6 0 &&& ~~~ mask64 2 1) ||| at64 7 (b2n p.fence)

/-- The judgement of a write of SEA_PORT_CFG_m (R12, R390, R244): EN and ACCEPT_FAR are locked by SEA_CTRL.LOCK, LOOP 6
and 7 are ignored, RETUNE and FULL_EQ act at the next boundary (R240). -/
def writePortCfg (m : Nat) (v : W64) (s : State) : State :=
  let p := s.port m
  let lockMask : W64 := 0x41
  let locked := seaLocked s
  let viol := v &&& ~~~ (0xFF : W64) ≠ 0 ∨ (locked ∧ (v ^^^ p.cfg) &&& lockMask ≠ 0)
  let loop := fld v 5 3
  let cfg := if locked then p.cfg else (p.cfg &&& ~~~ lockMask) ||| (v &&& lockMask)
  let cfg := if loop ≤ 5 then putFld cfg 5 3 loop else cfg
  let stopTest := loop ≤ 5 ∧ loop ≠ fld p.cfg 5 3 ∧ s.tst.busy ∧ s.tst.test.toNat / 256 = 4 ∧ s.tst.target = m
  let s := s.onPort m fun p => { p with
    cfg := cfg,
    loopPending := if loop ≤ 5 ∧ (loop ≠ fld p.cfg 5 3 ∨ loop ≠ p.loop) then some (Fin.ofNat 8 loop) else p.loopPending,
    trainPending := if bit v 1 then some .fullEq else if bit v 2 then some .retune else p.trainPending }
  let s := if stopTest then s.onTst fun t => { t with stopping := true } else s
  if viol then violate 0 0x02 s else s

/-- RETUNE (R240): a write of SEA_PORT_CFG_m that asks for a fast retune at the next boundary. -/
def execRetune (port : PortId) (value : W64) (s : State) : Out := .next (bar0Write (writePortCfg port.val (value ||| 4)) s)

/-- FULL_EQ (R240): a write of SEA_PORT_CFG_m that asks for full equalization at the next boundary. -/
def execFullEq (port : PortId) (value : W64) (s : State) : Out := .next (bar0Write (writePortCfg port.val (value ||| 2)) s)

/-- LOOPBACK_SELECT (R244): a write of SEA_PORT_CFG_m.LOOP. -/
def execLoopbackSelect (port : PortId) (value : W64) (s : State) : Out := .next (bar0Write (writePortCfg port.val value) s)

/-- PORT_EN (R240, Table 8-7): a write of SEA_PORT_CFG_m.EN; the power domain switches at the next boundary. -/
def execPortEn (port : PortId) (value : W64) (s : State) : Out := .next (bar0Write (writePortCfg port.val value) s)

/-- LOOP acts on a port at a stitch boundary (R244): 0 returns it, and for a far-end depth asks the neighbour to return, through
RETUNE; a far-end depth needs the neighbour to accept, which is a free value (DESIGN CHOICE, safe, assumption log 98). -/
def loopBoundary (m : Nat) (l : Fin 8) (s : State) : State :=
  let p := s.port m
  let far : Bool := decide (3 ≤ l.val)
  if l = 0 then
    if p.state = .loopback ∧ ¬ p.farLoop then
      retrain m (!p.saved) (if 3 ≤ p.loop.val then s.emit (.trainingRequest m 0) else s)
    else s
  else if p.state = .fenced ∨ (far ∧ p.state ≠ .active) then s
  else
    let s := if far then s.drew.emit (.trainingRequest m l.val) else s
    if far && !Config.neighbourAccepts m s.free then s
    else ((discardPort m s).onPort m fun p => { p with state := .loopback, loop := l, farLoop := false, vc0 := [] }).onSea
      fun a => { a with ledgerDirty := true }

/-- FENCE acts on a port at a stitch boundary (R246). -/
def fenceBoundary (m : Nat) (fence : Bool) (s : State) : State :=
  let p := s.port m
  if fence ∧ (p.state = .active ∨ p.state = .loopback) then
    ((discardPort m s).onPort m fun p => { p with state := .fenced, loop := 0, cfg := putFld p.cfg 5 3 0, vc0 := [] }).onSea
      fun a => { a with ledgerDirty := true }
  else if ¬ fence ∧ p.state = .fenced then
    (s.onPort m fun p => { p with state := .active }).onSea fun a => { a with ledgerDirty := true }
  else s

/-- What a port's configuration and requests do at a stitch boundary (R238, R240, R244, R246). -/
def portBoundary (m : Nat) (s : State) : State :=
  let p := s.port m
  let s := s.onPort m fun p => { p with
    frame := 0, trainPending := none, loopPending := none, fencePending := none,
    fence := (p.fencePending.getD p.fence) }
  let held := s.flt.heldPorts.getLsbD m
  if held then s
  else if ¬ bit p.cfg 0 then (if p.state = .down then s else portDown m s)
  else if p.state = .down then
    (retrain m (p.fresh || !p.saved) s).onPort m fun p => { p with powered := true }
  else match p.fencePending, p.trainPending, p.loopPending with
    | some f, _, _ => fenceBoundary m f s
    | none, some .fullEq, _ => retrain m true (discardPort m s)
    | none, some .retune, _ => retrain m (!p.saved) (discardPort m s)
    | none, none, some l => loopBoundary m l s
    | none, none, none => s

/-- FAR_LOOPBACK_REQUEST (R244): the neighbour asks over the back channel for a far-end depth; an ACTIVE port with
ACCEPT_FAR set enters LOOPBACK, and depth 0 returns it to service through RETUNE. -/
def execFarLoopbackRequest (port : PortId) (depth : Fin 8) (s : State) : Out :=
  let p := s.port port.val
  if 3 ≤ depth.val ∧ depth.val ≤ 5 ∧ p.state = .active ∧ bit p.cfg 6 then
    .next (((discardPort port.val s).onPort port.val fun p =>
      { p with state := .loopback, loop := depth, farLoop := true, vc0 := [] }).onSea fun a => { a with ledgerDirty := true })
  else if depth = 0 ∧ p.state = .loopback ∧ p.farLoop then
    .next ((retrain port.val (!p.saved) s).onPort port.val fun p => { p with farLoop := false })
  else .next s

/-- The management table entry that SEA_RT_SEL selects. -/
def seaRtHeld (s : State) : BitVec 4 := Tab.getD s.sea.route (fld s.sea.rtSel 14 0) 0xF

/-- With AUTOINC set, INDEX increments after each access of SEA_RT_DATA (R248). -/
def seaRtNext (s : State) : State :=
  if bit s.sea.rtSel 15 then
    s.onSea fun a => { a with rtSel := putFld a.rtSel 14 0 (fld a.rtSel 14 0 + 1) }
  else s

/-- A write of SEA_RT_DATA (Table 8-11): PORT is locked by SEA_CTRL.LOCK. -/
def writeSeaRt (v : W64) (s : State) : State :=
  let i := fld s.sea.rtSel 14 0
  let viol := v &&& ~~~ (0xF : W64) ≠ 0 ∨ (seaLocked s ∧ v.setWidth 4 ≠ seaRtHeld s)
  let s := if seaLocked s then s else s.onSea fun a =>
    { a with route := if v.setWidth 4 = (0xF : BitVec 4) then Tab.drop a.route i else Tab.put a.route i (v.setWidth 4) }
  seaRtNext (if viol then violate 0 0x02 s else s)

/-- SEA_RT_DATA_ACCESS (R248): a read or a write of the selected entry. -/
def execSeaRtDataAccess (write : Option W64) (s : State) : Out :=
  match write with
  | some v => .next (bar0Write (writeSeaRt v) s)
  | none => .next (bar0Read (fun s => seaRtNext (s.emit (.readData ((seaRtHeld s).setWidth 64)))) s)

end Sys2Proof.Machine
end

