-- ==== Sys2Proof/Machine/Entries.lean ====
section
/-! DEFINITION. Arm entries and loaded patterns as the boundary actions use them (04_patterns): coverage of a stitch,
removal, withdrawal with a refusal event (R137), and pattern release. -/

namespace Sys2Proof.Machine

/-- A loaded pattern by its context and handle. -/
def patternOf (s : State) (n h : Nat) : Option Pattern := s.work.patterns.find? fun p => p.ctx.val == n && p.handle == h

/-- One entry leaves the ledger, and its pins with it (R135). -/
def removeEntry (e : ArmEntry) (s : State) : State :=
  s.onWork fun w => { w with entries := w.entries.filter fun x => x.order != e.order }

/-- An entry is withdrawn whole, with its refusal event (R137, R138). -/
def withdraw (reason d0 d1 : Nat) (e : ArmEntry) (s : State) : State :=
  postWithdrawal e.ctx.val reason e.handle d0 d1 (removeEntry e s)

/-- The entries that use a band, in the order armed. -/
def entriesOn (s : State) (g : Nat) : List ArmEntry := s.work.entries.filter fun e => e.bands.contains g

/-- A context has an arm entry. -/
def hasEntries (s : State) (n : Nat) : Bool := s.work.entries.any fun e => e.ctx.val == n

/-- Core numbers of a band: contiguous. -/
def bandCores (g : Nat) : List Nat := (List.range 625).map fun i => 10000 * (g / 16) + 625 * (g % 16) + i

/-- The band of a core number. -/
def bandOfCore (c : Nat) : Nat := 16 * (c / 10000) + c % 10000 / 625

/-- The band of a router number. -/
def bandOfRouter (r : Nat) : Nat := 16 * (r / 10240) + r % 10240 / 640

/-- A band's cores and routers lose their contents (Table 13-8): scratch zero, instruction store, tallies and registers
cleared, route pages released, flits and returns on the way to them dropped. -/
def clearBand (g : Nat) (s : State) : State :=
  let s := s.onCores fun k =>
    { k with
      cores := k.cores.filter fun x => bandOfCore x.1 != g
      routers := k.routers.filter fun x => bandOfRouter x.1 != g
      flits := k.flits.filter fun f => bandOfRouter (10240 * f.panel + 128 * f.row + f.col) != g
      returns := k.returns.filter fun r => bandOfCore r.core != g }
  let s := s.onWork fun w => { w with patterns := w.patterns.map fun p => { p with pages := Tab.drop p.pages g } }
  s.onStu fun u => { u with bands := Tab.drop u.bands g, steps := Tab.drop u.steps g }

/-- The stitch that the unit counts next. -/
def nextStitch (s : State) : Stitch := s.stu.stitch + 1

end Sys2Proof.Machine
end

