-- ==== Sys2Proof/Machine/Crypto.lean ====
section
/-! DEFINITION. SHA-256 (R118, R332, R346, R395, R396), SHA-512 and the verification of PureEd25519 signatures of RFC
8032 (R326, R346, R395), and byte packing for them. -/

namespace Sys2Proof.Machine

/-- The round constants of SHA-256. -/
def sha256K : List (BitVec 32) :=
  [0x428a2f98, 0x71374491, 0xb5c0fbcf, 0xe9b5dba5, 0x3956c25b, 0x59f111f1, 0x923f82a4, 0xab1c5ed5] ++
  [0xd807aa98, 0x12835b01, 0x243185be, 0x550c7dc3, 0x72be5d74, 0x80deb1fe, 0x9bdc06a7, 0xc19bf174] ++
  [0xe49b69c1, 0xefbe4786, 0xfc19dc6, 0x240ca1cc, 0x2de92c6f, 0x4a7484aa, 0x5cb0a9dc, 0x76f988da] ++
  [0x983e5152, 0xa831c66d, 0xb00327c8, 0xbf597fc7, 0xc6e00bf3, 0xd5a79147, 0x6ca6351, 0x14292967] ++
  [0x27b70a85, 0x2e1b2138, 0x4d2c6dfc, 0x53380d13, 0x650a7354, 0x766a0abb, 0x81c2c92e, 0x92722c85] ++
  [0xa2bfe8a1, 0xa81a664b, 0xc24b8b70, 0xc76c51a3, 0xd192e819, 0xd6990624, 0xf40e3585, 0x106aa070] ++
  [0x19a4c116, 0x1e376c08, 0x2748774c, 0x34b0bcb5, 0x391c0cb3, 0x4ed8aa4a, 0x5b9cca4f, 0x682e6ff3] ++
  [0x748f82ee, 0x78a5636f, 0x84c87814, 0x8cc70208, 0x90befffa, 0xa4506ceb, 0xbef9a3f7, 0xc67178f2]

/-- The initial value of SHA-256. -/
def sha256H : List (BitVec 32) :=
  [0x6a09e667, 0xbb67ae85, 0x3c6ef372, 0xa54ff53a, 0x510e527f, 0x9b05688c, 0x1f83d9ab, 0x5be0cd19]

/-- The round constants of SHA-512. -/
def sha512K : List (BitVec 64) :=
  [0x428a2f98d728ae22, 0x7137449123ef65cd, 0xb5c0fbcfec4d3b2f, 0xe9b5dba58189dbbc, 0x3956c25bf348b538, 0x59f111f1b605d019, 0x923f82a4af194f9b, 0xab1c5ed5da6d8118] ++
  [0xd807aa98a3030242, 0x12835b0145706fbe, 0x243185be4ee4b28c, 0x550c7dc3d5ffb4e2, 0x72be5d74f27b896f, 0x80deb1fe3b1696b1, 0x9bdc06a725c71235, 0xc19bf174cf692694] ++
  [0xe49b69c19ef14ad2, 0xefbe4786384f25e3, 0xfc19dc68b8cd5b5, 0x240ca1cc77ac9c65, 0x2de92c6f592b0275, 0x4a7484aa6ea6e483, 0x5cb0a9dcbd41fbd4, 0x76f988da831153b5] ++
  [0x983e5152ee66dfab, 0xa831c66d2db43210, 0xb00327c898fb213f, 0xbf597fc7beef0ee4, 0xc6e00bf33da88fc2, 0xd5a79147930aa725, 0x6ca6351e003826f, 0x142929670a0e6e70] ++
  [0x27b70a8546d22ffc, 0x2e1b21385c26c926, 0x4d2c6dfc5ac42aed, 0x53380d139d95b3df, 0x650a73548baf63de, 0x766a0abb3c77b2a8, 0x81c2c92e47edaee6, 0x92722c851482353b] ++
  [0xa2bfe8a14cf10364, 0xa81a664bbc423001, 0xc24b8b70d0f89791, 0xc76c51a30654be30, 0xd192e819d6ef5218, 0xd69906245565a910, 0xf40e35855771202a, 0x106aa07032bbd1b8] ++
  [0x19a4c116b8d2d0c8, 0x1e376c085141ab53, 0x2748774cdf8eeb99, 0x34b0bcb5e19b48a8, 0x391c0cb3c5c95a63, 0x4ed8aa4ae3418acb, 0x5b9cca4f7763e373, 0x682e6ff3d6b2b8a3] ++
  [0x748f82ee5defb2fc, 0x78a5636f43172f60, 0x84c87814a1f0ab72, 0x8cc702081a6439ec, 0x90befffa23631e28, 0xa4506cebde82bde9, 0xbef9a3f7b2c67915, 0xc67178f2e372532b] ++
  [0xca273eceea26619c, 0xd186b8c721c0c207, 0xeada7dd6cde0eb1e, 0xf57d4f7fee6ed178, 0x6f067aa72176fba, 0xa637dc5a2c898a6, 0x113f9804bef90dae, 0x1b710b35131c471b] ++
  [0x28db77f523047d84, 0x32caab7b40c72493, 0x3c9ebe0a15c9bebc, 0x431d67c49c100d4c, 0x4cc5d4becb3e42b6, 0x597f299cfc657e2a, 0x5fcb6fab3ad6faec, 0x6c44198c4a475817]

/-- The initial value of SHA-512. -/
def sha512H : List (BitVec 64) :=
  [0x6a09e667f3bcc908, 0xbb67ae8584caa73b, 0x3c6ef372fe94f82b, 0xa54ff53a5f1d36f1, 0x510e527fade682d1, 0x9b05688c2b3e6c1f, 0x1f83d9abfb41bd6b, 0x5be0cd19137e2179]

/-- What a SHA-2 of word width w needs: its rotations and its constants. -/
structure Sha2 (w : Nat) where
  k : List (BitVec w)
  h : List (BitVec w)
  bigA : Nat × Nat × Nat
  bigE : Nat × Nat × Nat
  small0 : Nat × Nat × Nat
  small1 : Nat × Nat × Nat

/-- SHA-256. -/
def sha2of256 : Sha2 32 := ⟨sha256K, sha256H, (2, 13, 22), (6, 11, 25), (7, 18, 3), (17, 19, 10)⟩

/-- SHA-512. -/
def sha2of512 : Sha2 64 := ⟨sha512K, sha512H, (28, 34, 39), (14, 18, 41), (1, 8, 7), (19, 61, 6)⟩

/-- The rotation of a word to the right. -/
def rotr {w : Nat} (x : BitVec w) (n : Nat) : BitVec w := (x >>> n) ||| (x <<< (w - n))

/-- The big sigma functions. -/
def bigSigma {w : Nat} (t : Nat × Nat × Nat) (x : BitVec w) : BitVec w := rotr x t.1 ^^^ rotr x t.2.1 ^^^ rotr x t.2.2

/-- The small sigma functions. -/
def smallSigma {w : Nat} (t : Nat × Nat × Nat) (x : BitVec w) : BitVec w := rotr x t.1 ^^^ rotr x t.2.1 ^^^ (x >>> t.2.2)

/-- The message schedule, newest word first, extended by n words. -/
def sha2Extend {w : Nat} (p : Sha2 w) : Nat → List (BitVec w) → List (BitVec w)
  | 0, ws => ws
  | n + 1, ws =>
    let v := smallSigma p.small1 (ws.getD 1 0) + ws.getD 6 0 + smallSigma p.small0 (ws.getD 14 0) + ws.getD 15 0
    sha2Extend p n (v :: ws)

/-- One round of the compression. -/
def sha2Round {w : Nat} (p : Sha2 w) (s : List (BitVec w)) (kw : BitVec w × BitVec w) : List (BitVec w) :=
  match s with
  | [a, b, c, d, e, f, g, h] =>
    let t1 := h + bigSigma p.bigE e + ((e &&& f) ^^^ (~~~ e &&& g)) + kw.1 + kw.2
    let t2 := bigSigma p.bigA a + ((a &&& b) ^^^ (a &&& c) ^^^ (b &&& c))
    [t1 + t2, a, b, c, d + t1, e, f, g]
  | _ => s

/-- The compression of one block of 16 words. -/
def sha2Block {w : Nat} (p : Sha2 w) (h : List (BitVec w)) (block : List (BitVec w)) : List (BitVec w) :=
  let ws := (sha2Extend p (p.k.length - 16) block.reverse).reverse
  let s := (p.k.zip ws).foldl (sha2Round p) h
  (h.zip s).map (fun q => q.1 + q.2)

/-- Bytes as big-endian words of n bytes; `fuel` bounds their number. -/
def beWords (w n : Nat) : Nat → List Byte → List (BitVec w)
  | 0, _ => []
  | fuel + 1, bs =>
    if bs.isEmpty then [] else BitVec.ofNat w (fromLe (bs.take n).reverse) :: beWords w n fuel (bs.drop n)

/-- The blocks of a padded message. -/
def sha2Blocks {w : Nat} (p : Sha2 w) : Nat → List (BitVec w) → List (BitVec w) → List (BitVec w)
  | 0, h, _ => h
  | fuel + 1, h, ws => if ws.isEmpty then h else sha2Blocks p fuel (sha2Block p h (ws.take 16)) (ws.drop 16)

/-- The padding of a message whose block has b bytes. -/
def sha2Pad (b : Nat) (bs : List Byte) : List Byte :=
  let lenBytes := b / 8
  let z := (2 * b - 1 - lenBytes - bs.length % b) % b
  bs ++ (0x80 : Byte) :: List.replicate z 0 ++ beBytes lenBytes (8 * bs.length)

/-- A SHA-2 digest. -/
def sha2 {w : Nat} (p : Sha2 w) (b : Nat) (bs : List Byte) : List Byte :=
  let m := sha2Pad b bs
  ((sha2Blocks p m.length p.h (beWords w (b / 16) m.length m)).map (fun x => beBytes (b / 16) x.toNat)).flatten

/-- SHA-256 of a byte string. -/
def sha256 (bs : List Byte) : List Byte := sha2 sha2of256 64 bs

/-- SHA-512 of a byte string. -/
def sha512 (bs : List Byte) : List Byte := sha2 sha2of512 128 bs

/-- The prime of Curve25519. -/
def edP : Nat := 2 ^ 255 - 19

/-- The order of the base point. -/
def edL : Nat := 2 ^ 252 + 27742317777372353535851937790883648493

/-- Modular power by squaring over the bits of the exponent. -/
def powMod (m : Nat) : Nat → Nat → Nat → Nat
  | 0, _, _ => 1
  | fuel + 1, b, e =>
    if e = 0 then 1
    else
      let h := powMod m fuel (b * b % m) (e / 2)
      if e % 2 = 1 then b * h % m else h

/-- The inverse modulo the prime. -/
def edInv (x : Nat) : Nat := powMod edP 256 (x % edP) (edP - 2)

/-- The constant d of the twisted Edwards curve of RFC 8032. -/
def edD : Nat := (edP - 121665) * edInv 121666 % edP

/-- A point in extended coordinates. -/
structure EdPoint where
  x : Nat
  y : Nat
  z : Nat
  t : Nat
deriving DecidableEq, Repr

/-- The neutral point. -/
def edZero : EdPoint := ⟨0, 1, 1, 0⟩

/-- The addition of RFC 8032, 5.1.4. -/
def edAdd (p q : EdPoint) : EdPoint :=
  let a := (p.y + edP - p.x) * (q.y + edP - q.x) % edP
  let b := (p.y + p.x) * (q.y + q.x) % edP
  let c := 2 * p.t * q.t % edP * edD % edP
  let d := 2 * p.z * q.z % edP
  let e := b + edP - a
  let f := d + edP - c
  let g := d + c
  let h := b + a
  ⟨e * f % edP, g * h % edP, f * g % edP, e * h % edP⟩

/-- Scalar multiplication over the bits of the scalar. -/
def edMul : Nat → Nat → EdPoint → EdPoint
  | 0, _, _ => edZero
  | fuel + 1, k, p =>
    if k = 0 then edZero
    else
      let h := edMul fuel (k / 2) (edAdd p p)
      if k % 2 = 1 then edAdd p h else h

/-- Equality of points. -/
def edEq (p q : EdPoint) : Bool :=
  decide (p.x * q.z % edP = q.x * p.z % edP) && decide (p.y * q.z % edP = q.y * p.z % edP)

/-- The decoding of a point (RFC 8032, 5.1.3). -/
def edDecode (bs : List Byte) : Option EdPoint :=
  let v := fromLe bs
  let sign := v / 2 ^ 255 % 2
  let y := v % 2 ^ 255
  if edP ≤ y then none
  else
    let u := (y * y + edP - 1) % edP
    let w := (edD * (y * y % edP) + 1) % edP
    let x2 := u * edInv w % edP
    let x := powMod edP 256 x2 ((edP + 3) / 8)
    let x := if x * x % edP = x2 then x else x * powMod edP 256 2 ((edP - 1) / 4) % edP
    if x * x % edP ≠ x2 then none
    else if x = 0 ∧ sign = 1 then none
    else
      let x := if x % 2 = sign then x else edP - x
      some ⟨x, y, 1, x * y % edP⟩

/-- The base point, decoded from its encoding (4/5, even x). -/
def edBase : EdPoint := (edDecode (leBytes 32 (4 * edInv 5 % edP))).getD edZero

/-- The verification of a PureEd25519 signature (RFC 8032, 5.1.7). -/
def edVerify (key message signature : List Byte) : Bool :=
  match edDecode key, edDecode (signature.take 32) with
  | some a, some r =>
    let s := fromLe (signature.drop 32)
    if signature.length ≠ 64 ∨ key.length ≠ 32 ∨ edL ≤ s then false
    else
      let k := fromLe (sha512 (signature.take 32 ++ key ++ message)) % edL
      edEq (edMul 256 s edBase) (edAdd r (edMul 256 k a))
  | _, _ => false

end Sys2Proof.Machine
end

