-- ==== Sys2Proof/Machine/ThimbleOps.lean ====
section
/-! DEFINITION. Thimble's shared operations (15_thimble): images and boot, keys, soft-fuse maps, sensors, power domains,
and the mailbox. -/

namespace Sys2Proof.Machine

/-! Images (R395 to R398). -/

/-- SVN of an image's header (Table 15-3). -/
def imageSvn (b : List Byte) : Nat := leAt b 7 1

/-- FW_ID of an image (R396): bytes 0 to 7 of the SHA-256 of the whole image, little-endian. -/
def imageFwId (b : List Byte) : W64 := BitVec.ofNat 64 (leAt (sha256 b) 0 8)

/-- The header and size rules of Table 15-3. -/
def imageHeaderOk (b : List Byte) : Bool :=
  512 ≤ b.length && leAt b 0 4 == 0x57464C4D && leAt b 4 2 == 1 && leAt b 6 1 ≤ 3 && leAt b 7 1 ≤ 64 &&
    leAt b 8 4 == b.length && b.length ≤ 25165824 && 1 ≤ leAt b 12 2 && leAt b 12 2 ≤ 16

/-- An image is valid (R395): the root key's hash is the fused one of an unrevoked slot, the signature verifies, every
component digest matches, and SVN is at or above the fused counter. -/
def imageValid (s : State) (b : List Byte) : Bool :=
  imageHeaderOk b &&
    (sha256 (slice b 40 32) == leBytes 32 (Config.rootKeyHash (Fin.ofNat 4 (leAt b 6 1))).toNat) &&
    !(s.thm.revoked.getLsbD (leAt b 6 1)) && edVerify (slice b 40 32) (patch b 72 (List.replicate 64 0)) (slice b 72 64) &&
    Config.componentsOk b && decide (s.thm.counter.toNat ≤ imageSvn b)

/-- The image in region A or B. -/
def imageOf (t : Thm) (isB : Bool) : List Byte := if isB then t.imageB else t.imageA

/-- The running image (R396). -/
def runningImage (s : State) : List Byte := imageOf s.thm s.thm.runningB

/-- FW_ID of the running image; 0 in recovery, where none runs. -/
def fwId (s : State) : W64 := if s.thm.recovery then 0 else imageFwId (runningImage s)

/-- CUTTER_MIN of the running image. -/
def cutterMin (s : State) : W64 := if s.thm.recovery then 0 else BitVec.ofNat 64 (leAt (runningImage s) 16 8)

/-- The device reset that an abandoned trial starts at once (R398): a reset or a power-on that runs begins again. LAST_TRIGGER of one
it finds not running reads 0, since Table 13-17 gives no code for it (DESIGN CHOICE, unsafe, assumption log 106). -/
def revertReset (s : State) : State :=
  s.onFlt fun f =>
    if f.phase = .none ∨ f.phase = .stopped then
      { f with phase := .hold, resetting := true, restarts := 0, pendingTrigger := 0, pendingCause := 0, counted := false }
    else { f with phase := .hold, resetting := true }

/-- Thimble boots from ROM (R398): the active image, or the other when it is invalid, or recovery; an image made active
by an update boots in trial, at a device reset or a power-on (`take`, R399). The choice is logged. A trial image that fails
verification is abandoned, and a device reset starts at once. -/
def boot (take : Bool) (s : State) : State :=
  let t := s.thm
  let now := take && t.updatePending
  let a := if now then !t.activeB else t.activeB
  let trial := t.trial || now
  let okA := imageValid s (imageOf t a)
  let okB := imageValid s (imageOf t !a)
  let run := if okA then a else if okB then !a else a
  let back := trial && !okA
  let s := s.onThm fun t => { t with
    activeB := if back then !a else run, runningB := run, updatePending := t.updatePending && !take, trial := trial && okA,
    attempts := if trial && okA then satInc t.attempts 1 else 0, recovery := !okA && !okB }
  let s := logCritical 0x07 [if run then 1 else 0, if trial && okA then 1 else 0] s
  if back then revertReset (logCritical 0x07 [3] s) else s

/-- A trial image is confirmed (R397, R398): the counter is raised to its SVN, and with REVOKE_BELOW every root key slot
below its own is revoked. -/
def confirmImage (s : State) : State :=
  if ¬ s.thm.trial then s
  else
    let b := runningImage s
    let slot := leAt b 6 1
    let below : BitVec 4 := BitVec.ofNat 4 (2 ^ slot - 1)
    let s := s.onThm fun t => { t with
      trial := false, attempts := 0, counter := BitVec.ofNat 8 (max t.counter.toNat (imageSvn b)),
      revoked := if (leAt b 14 1).testBit 0 then t.revoked ||| below else t.revoked }
    logCritical 0x08 [1] (logCritical 0x07 [2] s)

/-- A trial image is abandoned (R398): the boot state names the image before it, the critical log says so. -/
def abandonTrial (s : State) : State :=
  let s := s.onThm fun t => { t with activeB := !t.activeB, trial := false, attempts := 0 }
  logCritical 0x07 [3] s

/-! Keys. -/

/-- KEY_ID of a publisher key (R347): the first 8 bytes of its SHA-256. -/
def keyId (k : BitVec 256) : W64 := BitVec.ofNat 64 (leAt (sha256 (leBytes 32 k.toNat)) 0 8)

/-- The slots of the publisher key store. -/
def keySlots : List Nat := List.range 16

/-- A publisher key is added to the first empty slot: RESULT 0x04 for a duplicate, 0x03 when the store is full (R414). -/
def addKey (k : BitVec 256) (s : State) : Nat × State :=
  let held := keySlots.filterMap fun i => vAt s.thm.pubKeys i none
  if held.any fun h => keyId h == keyId k then (0x04, s)
  else match keySlots.find? fun i => (vAt s.thm.pubKeys i none).isNone with
    | none => (0x03, s)
    | some i =>
      let s := s.onThm fun t => { t with pubKeys := vMod t.pubKeys i fun _ => some k, flashBusy := true }
      (0x00, logCritical 0x0B [BitVec.ofNat 8 i] s)

/-- The records of PUBKEY_LIST (Table 15-9): KEY_ID then key, zero when empty. -/
def keyListBytes (s : State) : List Byte :=
  (keySlots.map fun i => match vAt s.thm.pubKeys i none with
    | some k => leBytes 8 (keyId k).toNat ++ leBytes 32 k.toNat
    | none => List.replicate 40 0).flatten

/-- A LOAD_BUNDLE signed with a key is running (R414). -/
def bundleUses (s : State) (id : W64) : Bool :=
  s.work.transfers.any fun t => match t.kind with
    | .bundle b => b.keyId == id
    | _ => false

/-- A key leaves the store and VERIFIED clears on every backing a bundle of that key filled (R350, R414). -/
def removeKey (i : Nat) (s : State) : State :=
  match vAt s.thm.pubKeys i none with
  | none => s
  | some k =>
    let id := keyId k
    let s := s.onThm fun t => { t with pubKeys := vMod t.pubKeys i fun _ => none, flashBusy := true, removal := none }
    let s := s.onHbm fun h => { h with checked := h.checked.filter fun c => c.key != id }
    logCritical 0x0B [BitVec.ofNat 8 i] s

/-! Soft-fuse maps (R413, Table 15-2). -/

/-- The entries a map holds: 4,096 bolt, 1,024 HBM row, 1,024 core. -/
def fuseCapacity (m : Nat) : Nat := if m = 0 then 4096 else 1024

/-- An entry is added to a soft-fuse map; RESULT 0x03 when it is full. -/
def addFuse (m : Nat) (e : W64) (s : State) : Nat × State :=
  let l := vAt s.thm.fuses m []
  if fuseCapacity m ≤ l.length then (0x03, s)
  else
    let s := s.onThm fun t => { t with fuses := vMod t.fuses m fun l => l ++ [e], flashBusy := true }
    (0x00, logGeneral 0x05 0 (leBytes 1 m ++ leBytes 8 e.toNat) s)

/-- A soft-fuse map is emptied. -/
def clearFuses (m : Nat) (s : State) : State :=
  let s := s.onThm fun t => { t with fuses := vMod t.fuses m fun _ => [], flashBusy := true }
  logGeneral 0x05 0 (leBytes 1 m) s

/-- FUSE_READ's bytes: the count in 4 bytes, then the entries. -/
def fuseBytes (s : State) (m : Nat) : List Byte :=
  let l := vAt s.thm.fuses m []
  leBytes 4 l.length ++ (l.map fun e => leBytes 8 e.toNat).flatten

/-- The lines a bolt exclusion removes (R157, R158, Table 5-4): the 4 lines of a wordline or the 2,048 of a bank, as
(128 × panel + slab, line). -/
def boltExcluded (e : W64) : List (Nat × Nat) :=
  let slab := 128 * (fld e 15 8) + fld e 23 16 % 128
  let loc := fld e 39 24
  let base := (loc / 32 % 16) * 65536 + (loc / 16 % 2) * 32768 + (loc % 16) * 2
  let lineOf (i : Nat) : Nat := base + (i / 2) * 32 + i % 2
  if fld e 7 0 = 3 then (List.range 4).map fun i => (slab, lineOf (4 * fld e 55 40 + i))
  else if fld e 7 0 = 4 then (List.range 2048).map fun i => (slab, lineOf i)
  else []

/-- The lines of an HBM row entry (R413), as (pseudo-channel, PC line). -/
def hbmRowOut (e : W64) : List (Nat × Nat) :=
  (Config.hbmRowLines (fld e 23 16) (fld e 47 24)).map fun l => (32 * fld e 7 0 + fld e 15 8 % 32, l)

/-- The lines that stay excluded when the row entries of a list take effect at a training (R182): those of exclusions, and those of
repairs that find no spare row left in their bank. -/
def hbmExcluded (l : List W64) : List (Nat × Nat) :=
  let bank (e : W64) : Nat × Nat × Nat := (fld e 7 0, fld e 15 8 % 32, fld e 23 16)
  let repair (e : W64) : Bool := fld e 55 48 == 1
  let spares (e : W64) : Nat := Config.hbmSpareRows (32 * fld e 7 0 + fld e 15 8 % 32) (fld e 23 16)
  let out (x : W64 × Nat) : Bool := fld x.1 55 48 == 2 ||
    (repair x.1 && decide (spares x.1 ≤ ((l.take x.2).filter fun e => repair e && bank e == bank x.1).length))
  ((l.zipIdx.filter out).map fun x => hbmRowOut x.1).flatten.eraseDups

/-- The soft-fuse maps take effect (R413): Table 13-10 step 3, Table 16-1 step 3. What they do not exclude returns to
allocation. -/
def applyFuses (s : State) : State :=
  let s := s.onThm fun t => { t with applied := t.fuses }
  let s := s.onBolt fun b => { b with excluded := ((vAt s.thm.applied 0 []).map boltExcluded).flatten.eraseDups }
  s.onHbm fun h => { h with excluded := hbmExcluded (vAt s.thm.applied 1 []) }

/-- The HBM row map takes effect on one stack, as it is retrained (R182, Table 13-8): what it does not exclude returns to
allocation. -/
def applyRows (k : Nat) (s : State) : State :=
  let mine (e : W64) : Bool := fld e 7 0 == k
  let s := s.onThm fun t => { t with applied := vMod t.applied 1 fun l =>
    (l.filter fun e => !mine e) ++ (vAt t.fuses 1 []).filter mine }
  s.onHbm fun h => { h with excluded := (h.excluded.filter fun x => x.1 / 32 != k) ++
    (hbmExcluded (vAt s.thm.applied 1 [])).filter fun x => x.1 / 32 == k }

/-- A panel's band is unavailable by the core map applied (R85): a row has fewer than 125 good cores or a router-failed
core. -/
def bandUnavailable (s : State) (g : Nat) : Bool :=
  let p := s.physPanel (g / 16)
  (List.range 5).any fun i =>
    let row := 5 * (g % 16) + i
    let soft := (vAt s.thm.applied 2 []).filter fun e => fld e 7 0 == p && fld e 15 8 == row
    let routerBad := soft.any (fun e => fld e 31 24 == 2) || (List.range 128).any fun c => Config.factoryCore p row c == 2
    let good := (List.range 128).filter fun c =>
      Config.factoryCore p row c == 0 && !(soft.any fun e => fld e 23 16 == c)
    routerBad || decide (good.length < 125)

/-! Sensors (R406). -/

/-- A reading is taken over: VALUE, and MAX when it is larger (Table 15-16). -/
def takeReading (i : Nat) (v : Int) (s : State) : State :=
  let w := BitVec.ofInt 32 v
  s.onThm fun t => { t with
    sensors := Tab.put t.sensors i w,
    sensorMax := if (Tab.getD t.sensorMax i 0).toInt < v then Tab.put t.sensorMax i w else t.sensorMax }

/-- The readings of all sensors, 4 bytes each, in index order (Table 15-9). -/
def sensorBytes (s : State) : List Byte :=
  ((List.range 307).map fun i => leBytes 4 (Tab.getD s.thm.sensors i 0).toNat).flatten

/-! Power domains (R409, Table 15-11). -/

/-- A domain is held off. -/
def domainHeld (s : State) (d : Nat) : Bool :=
  if d < 128 then s.nPanels * 16 ≤ d || (s.band d).state == .unavailable || s.flt.heldPanels.getLsbD (d / 16)
  else if d < 136 then s.nPanels ≤ d - 128 || s.flt.heldPanels.getLsbD (d - 128)
  else if d < 144 then s.nPanels ≤ d - 136 || s.flt.heldStacks.getLsbD (d - 136)
  else if d < 152 then s.nPanels ≤ d - 144 || s.flt.heldStacks.getLsbD (d - 144)
  else if d < 168 then s.flt.heldPorts.getLsbD (d - 152)
  else if d = 168 then false
  else d = 169 && !s.straps.portS

/-- A domain is on. -/
def domainOn (s : State) (d : Nat) : Bool :=
  if domainHeld s d || !s.power.inputOk then false
  else if d < 128 then (s.band d).state != .off
  else if 152 ≤ d && d < 168 then (s.port (d - 152)).state != .down
  else true

/-- THM_DOM_ON_k and THM_DOM_HELD_k. -/
def domainWord (f : Nat → Bool) (k : Nat) : W64 :=
  BitVec.ofNat 64 ((List.range 64).foldl (fun a b => if 64 * k + b < 170 ∧ f (64 * k + b) then a + 2 ^ b else a) 0)

/-! Log reads (R411). -/

/-- Every log entry held, by SEQ. -/
def logEntries (s : State) : List LogEntry :=
  let all := s.thm.critical ++ s.thm.general.map (·.2)
  let rec insert (e : LogEntry) : List LogEntry → List LogEntry
    | [] => [e]
    | x :: xs => if e.seq.toNat < x.seq.toNat then e :: x :: xs else x :: insert e xs
  all.foldl (fun l e => insert e l) []

/-- The consecutive entries from a SEQ on, at most k. -/
def logFrom (s : State) (seq : BitVec 32) (k : Nat) : List Byte :=
  (((logEntries s).filter fun e => seq.toNat ≤ e.seq.toNat).take k |>.map logBytes).flatten

/-! The mailbox (R415, Table 15-9). -/

/-- A mailbox command completes: RESULT is written and vector 31 sent. -/
def mboxDone (result : Nat) (s : State) : State :=
  (s.onThm fun t => { t with mbox := none, mboxResult := BitVec.ofNat 8 result }).emit (.msix 31)

/-- The buffer address of the mailbox. -/
def mboxAddr (s : State) : Nat := fld s.thm.mboxAddr 63 6 * 64

/-- The buffer length of the mailbox. -/
def mboxLen (s : State) : Nat := fld s.thm.mboxLen 23 0

/-- Bytes written to the mailbox buffer. -/
def mboxWrite (bs : List Byte) (s : State) : State := s.setHostMem (Mem.write s.hostMem (mboxAddr s) bs)

/-- What a mailbox command answers (Table 15-9): its RESULT and the state, except that PUBKEY_REMOVE may wait (none). -/
def mboxRun (cmd : Nat) (arg : BitVec 32) (s : State) : Option (Nat × State) :=
  let len := mboxLen s
  let out (bs : List Byte) : Option (Nat × State) :=
    if len < bs.length then some (0x02, s) else some (0x00, mboxWrite bs s)
  let mayKeys := bit s.thm.ctrl 1
  let mayFuses := bit s.thm.ctrl 2
  match cmd with
  | 0x01 => if len < 128 then some (0x02, s) else some (0x00, mboxWrite (logFrom s arg (len / 128)) s)
  | 0x02 => some (0x00, s.onThm fun t => { t with critical := [], critFull := false, flashBusy := true })
  | 0x03 => out (sensorBytes s)
  | 0x04 =>
    if ¬ mayKeys then some (0x05, s)
    else if len < 32 then some (0x02, s)
    else some (addKey (BitVec.ofNat 256 (Mem.le s.hostMem (mboxAddr s) 32)) s)
  | 0x05 =>
    if ¬ mayKeys then some (0x05, s)
    else if 16 ≤ arg.toNat then some (0x06, s)
    else match vAt s.thm.pubKeys arg.toNat none with
      | none => some (0x06, s)
      | some k =>
        if bundleUses s (keyId k) then none else some (0x00, removeKey arg.toNat s)
  | 0x06 => out (keyListBytes s)
  | 0x07 =>
    if ¬ mayFuses then some (0x05, s)
    else if 3 ≤ arg.toNat then some (0x06, s)
    else if len < 8 then some (0x02, s)
    else some (addFuse arg.toNat (BitVec.ofNat 64 (Mem.le s.hostMem (mboxAddr s) 8)) s)
  | 0x08 => if 3 ≤ arg.toNat then some (0x06, s) else out (fuseBytes s arg.toNat)
  | 0x09 =>
    if ¬ mayFuses then some (0x05, s)
    else if 3 ≤ arg.toNat then some (0x06, s)
    else some (0x00, clearFuses arg.toNat s)
  | 0x0A => out (leBytes 32 Config.identityKey.toNat ++ Config.identityChain)
  | _ => some (0x06, s)

/-- A write of THM_MBOX_CMD (R392, R415, Table 15-17): a CMD while BUSY is a violation; during a Thimble restart it
reports 0x01 and changes nothing else; PUBKEY_REMOVE waits for bundles verified under its key (R414). -/
def writeMbox (v : W64) (s : State) : State :=
  let cmd := fld v 7 0
  let arg : BitVec 32 := BitVec.ofNat 32 (fld v 63 32)
  let busy : Bool := cmd != 0 && s.thm.mbox.isSome
  let s := if busy ∨ v &&& (mask64 23 17 ||| mask64 15 8) ≠ 0 then violate 0 0x02 s else s
  if cmd = 0 then s.onThm fun t => { t with mboxArg := arg }
  else if busy then s
  else if s.thm.restarting ∨ s.thm.halted then s.onThm fun t => { t with mboxArg := arg, mboxResult := 0x01 }
  else
    let s := s.onThm fun t => { t with mboxArg := arg }
    match mboxRun cmd arg s with
    | some (r, s) => mboxDone r s
    | none => s.onThm fun t => { t with
        mbox := some { cmd := BitVec.ofNat 8 cmd, arg := arg }, removal := some (Fin.ofNat 16 arg.toNat) }

/-- A write of THM_MBOX_CMD with one command's CMD. -/
def mboxCommand (cmd : Nat) (v : W64) (s : State) : State := writeMbox (putFld v 7 0 cmd) s

/-- Panel p of thermal sensor i, and its set point by ratio (Table 17-4), in mV. -/
def panelVoltage (k : Nat) : Nat :=
  if k ≤ 16 then 750 else if k ≤ 18 then 730 else if k ≤ 20 then 710 else if k ≤ 22 then 695 else if k ≤ 24 then 680
  else if k ≤ 28 then 660 else 640

/-- The set point of a rail in mV (Table 17-3). -/
def railSetPoint (s : State) (r : Nat) : Nat :=
  if 17 ≤ r ∧ r ≤ 24 then panelVoltage (vAt s.thm.panels (r - 17) {}).clockK
  else if 7 ≤ r ∧ r ≤ 14 then 1100
  else match r with
    | 0 => 750 | 1 => 1800 | 2 => 750 | 3 => 750 | 4 => 900 | 5 => 1200 | 6 => 1800 | 15 => 400 | 16 => 750
    | 25 => 800 | 26 => 700 | 27 => 900 | 28 => 900 | 29 => 1200 | 30 => 750 | _ => 48000

/-- A rail's reading lies in its absolute range (R440): 0 inside, 1 under, 2 over. -/
def railAbsolute (s : State) (r mv : Nat) : Nat :=
  if r = 31 then (if mv < 36000 then 1 else if 63000 < mv then 2 else 0)
  else
    let p := railSetPoint s r
    if 100 * mv < 92 * p then 1 else if 108 * p < 100 * mv then 2 else 0

/-- The rail of a panel or of a stack that is not presented: held off (R440). -/
def railHeld (s : State) (rail : Nat) : Bool :=
  (7 ≤ rail && rail ≤ 14 && s.nPanels ≤ rail - 7) || (17 ≤ rail && rail ≤ 24 && s.nPanels ≤ rail - 17)

/-- A rail's reading lies in its operating range (R440). -/
def railOperating (s : State) (r mv : Nat) : Bool :=
  if r = 31 then 40000 ≤ mv && mv ≤ 60000
  else let p := railSetPoint s r; decide (97 * p ≤ 100 * mv) && decide (100 * mv ≤ 103 * p)

end Sys2Proof.Machine
end

