-- ==== Sys2Proof/Machine/Resets.lean ====
section
/-! DEFINITION. What the resets clear and keep (Table 13-12), the service mode (R366), bands and their power (R368), and
unit resets (R363). -/

namespace Sys2Proof.Machine

/-! Bands (R368). -/

/-- The state of a band as FLT_BAND_g shows it: a band of a panel that is not presented is UNAVAILABLE (R370). -/
def bandState (s : State) (g : Nat) : BandState := if s.nPanels * 16 ≤ g then .unavailable else (s.band g).state

/-- PWR_OFF as it reads: 1 while the band is UNAVAILABLE. -/
def bandPwrOff (s : State) (g : Nat) : Bool := bandState s g == .unavailable || (s.band g).pwrOff

/-- The band takes part in a context switch. -/
def bandSwitching (s : State) (g : Nat) : Bool :=
  match s.hif.switch with
  | some w => w.bands.contains g
  | none => false

/-- The band is under a unit reset of itself or of its panel. -/
def bandUnitReset (s : State) (g : Nat) : Bool :=
  s.flt.unitBusy && ((s.flt.unitKind == 2 && s.flt.unitIndex == g) || (s.flt.unitKind == 3 && s.flt.unitIndex == g / 16))

/-- A band reset begins (Table 13-8): its contents are cleared and its state is the one given until it ends. -/
def startBandReset (g : Nat) (st : BandState) (s : State) : State :=
  let m := s.stu.marks
  (clearBand g s).onBand g fun b => { b with state := st, since := m }

/-- A band that ends a power transition in a context being torn down is unowned from then on (R387). -/
def disownTorn (g : Nat) (s : State) : State :=
  if (s.ctx (s.band g).owner.val).state = .tearingDown then s.onBand g fun b => { b with owner := 0 } else s

/-- A band becomes ON; a PWR_OFF written meanwhile takes effect at the next boundary (R368). -/
def bandBecomesOn (g : Nat) (s : State) : State :=
  (disownTorn g s).onBand g fun b => { b with state := .on, downPending := b.downAfter, downAfter := false, upAfter := false }

/-- A band's state for a write of PWR_OFF (R368). -/
def requestPower (off : Bool) (b : Band) : Band :=
  let b := { b with pwrOff := off }
  match b.state with
  | .on => { b with downPending := off }
  | .fenced | .poweringDown => { b with upAfter := !off }
  | .off => { b with upAfter := false }
  | .poweringUp | .resetting => { b with downAfter := off }
  | .unavailable => b

/-- A write of FLT_BAND_g (R368, Table 13-18): refused whole while the band is in a switch or a unit reset and the value
differs from the one held; PWR_OFF of an UNAVAILABLE band takes no write. -/
def writeFltBand (g : Nat) (v : W64) (s : State) : State :=
  let off := bit v 0
  let b := s.band g
  let gone : Bool := bandState s g == .unavailable
  let refused : Bool := !gone && (bandSwitching s g || bandUnitReset s g) && off != b.pwrOff
  let s := if refused ∨ v &&& (mask64 31 20 ||| mask64 15 11 ||| mask64 7 2) ≠ 0 then violate 0 0x02 s else s
  if refused then s
  else
    let s := s.onBand g fun b => if bit v 1 then { b with drops := 0 } else b
    if gone then s
    else if b.state = .off ∧ ¬ off then
      startBandReset g .poweringUp (s.onBand g fun b => { b with pwrOff := false, upAfter := false })
    else s.onBand g (requestPower off)

/-- An entry of a band that powers down is withdrawn: with BARRIER_MISSED, which R137 lists before FENCED, when its start stitch has
come and its barrier has not. -/
def withdrawFenced (g : Nat) (s : State) (e : ArmEntry) : State :=
  if e.barrier.isSome && !e.go && !before s.stu.stitch e.first then
    withdraw 0x32 (e.barrier.getD 0).toNat (e.first.toNat % 2 ^ 32) e s
  else withdraw 0x35 g 0 e s

/-- What a stitch boundary does to a band's power (R368): a requested power-down fences it and withdraws its entries with
reason FENCED; a power-up asked for during a power-down starts. -/
def bandBoundary (g : Nat) (s : State) : State :=
  let b := s.band g
  if b.state = .on ∧ b.downPending then
    let s := s.each (entriesOn s g) (withdrawFenced g)
    let s := s.onWork fun w => { w with patterns := w.patterns.map fun p => { p with pages := Tab.drop p.pages g } }
    let s := s.onStu fun u => { u with bands := Tab.drop u.bands g }
    let m := s.stu.marks
    s.onBand g fun b => { b with state := .poweringDown, downPending := false, since := m }
  else if b.state = .off ∧ b.upAfter then
    startBandReset g .poweringUp (s.onBand g fun b => { b with upAfter := false })
  else s

/-! The reset matrix (Table 13-12). -/

/-- A port after its domain was cycled: queues, FSEQ and counters cleared, saved parameters, FENCE and RETUNES kept. -/
def portAfterReset (p : Port) : Port :=
  { clearLink p with
    state := .down, powered := false, lost := none, met := false, fence := p.fencePending.getD p.fence, fencePending := none, trainPending := none, loopPending := none, loop := 0,
    farLoop := false, laneLock := 0, miswired := false, degraded := false, delayFails := 0, held := false,
    cwCorrected := 0, cwUncorrectable := 0, blockBad := 0, poisoned := 0, replayed := 0, symCorrected := 0,
    unsent := 0, frame := 0, table := [], streams := [] }

/-- Lining after a reset (Table 13-12): the quorum keys and the lining keys stay; LIN_PAIR_CFG goes with the contexts. -/
def linAfterReset (fenced : Bool) (l : Lin) : Lin :=
  { l with
    pairCfg := 0, state := if fenced then .fenced else .solo, reason := 0, valid := false, sending := false,
    receiving := false, refilled := 0, refillPending := false, fencePending := none }

/-- The bands at the start of a reset. -/
def bandsAfterReset : Vector Band 128 := Vector.replicate 128 { state := .resetting }

/-- What every reset of the device clears in FLT; AUTO_RESET and HANG_EN stay, LOCK clears. -/
def fltAfterReset (f : Flt) : Flt :=
  { f with
    ctrl := f.ctrl &&& 6, unitBusy := false, unitResult := 0, unitKind := 0, unitIndex := 0, hung := 0, heldPorts := 0,
    heldStacks := 0, heldPanels := 0, viol := Vector.replicate 16 {}, bands := bandsAfterReset,
    misses := Vector.replicate 18 0, jobFault := false, records := [] }

/-- A register with its LOCK bit cleared. -/
def unlock (w : W64) (lockBit : Nat) : W64 := putFld w lockBit lockBit 0

/-- The device reset's clearing (R364, R365, Tables 13-10 and 13-12): contexts, patterns, memories, pressers and the
serving unit are cleared; the stitch unit keeps counting in holdover; SEA identity, FENCE and saved parameters, the keys,
the log and what is outside the device stay. -/
def deviceClear (s : State) : State :=
  let following := role s = 1 ∨ role s = 3
  let s := s.onStu fun u => { u with
    ctrl := unlock u.ctrl 3, barriers := [], holdover := u.holdover || following,
    ledgerBase := Vector.replicate 16 0, ledgerCfg := Vector.replicate 16 4, ledgerNext := Vector.replicate 16 0,
    phase := Vector.replicate 16 {}, bands := [], steps := [] }
  let s := s.onCores fun _ => {}
  let s := s.onBolt fun b => { ctrl := unlock b.ctrl 2 }
  let s := s.onHbm fun h => { ctrl := unlock h.ctrl 2, floorNow := h.floorNow }
  let s := s.onPrs fun _ => {}
  let s := s.onLin (linAfterReset (s.lin.fencePending.getD (s.lin.state == .fenced)))
  let s := s.onSea fun a => { a with ports := a.ports.map portAfterReset, thimbleIn := [], ledgerDirty := false }
  let s := s.onCol fun c => { ctrl := unlock c.ctrl 0 }
  let s := s.onSrv fun _ => {}
  let s := s.onWork fun _ => {}
  let s := s.onHif fun _ => {}
  let s := s.onFlt fltAfterReset
  let s := s.onThm fun t => { t with ctrl := unlock t.ctrl 0 }
  s.onTst fun t => { t with ctrl := unlock t.ctrl 0 }

/-- The power-on's clearing (R365, R420): every register takes its reset value, except what flash keeps. -/
def powerOnClear (s : State) : State :=
  let l := s.lin
  let t := s.thm
  { ({} : State) with
    straps := s.straps
    lin := { threshold := l.threshold, fabricId := l.fabricId, lastNonce := l.lastNonce, keysValid := l.keysValid,
             mgrKeys := l.mgrKeys, keyWords := l.keyWords, partnerSerial := l.partnerSerial,
             partnerKey := l.partnerKey, partnerKnown := l.partnerKnown, lastEpoch := l.lastEpoch }
    thm := { counter := t.counter, revoked := t.revoked, imageA := t.imageA, imageB := t.imageB, activeB := t.activeB,
             runningB := t.runningB, updatePending := t.updatePending, trial := t.trial, attempts := t.attempts,
             nextSeq := t.nextSeq, genNext := t.genNext, general := t.general, critical := t.critical,
             critFull := t.critFull, powerOns := satInc t.powerOns 1, fuses := t.fuses, applied := t.applied,
             pubKeys := t.pubKeys, generation := t.generation }
    power := { s.power with inputOk := true, alwaysOn := true, linkH := .down, linkS := .down, pwrgd := true,
                            faultLow := false }
    hostMem := s.hostMem, portS := s.portS, out := s.out, free := s.free, pending := s.pending }

/-! The service mode (R366). -/

/-- The available bands of a panel. -/
def availableBands (s : State) (p : Nat) : Nat :=
  ((List.range 16).filter fun b => bandState s (16 * p + b) != .unavailable).length

/-- The presented panels, or stacks. -/
def presented (s : State) : List Nat := List.range s.nPanels

/-- The minimum service set is intact (R366). -/
def minimumSet (s : State) (stitchFailed : Bool) : Bool :=
  !s.thm.recovery && !stitchFailed &&
    (presented s).any (fun p => decide (8 ≤ availableBands s p) && !s.flt.heldPanels.getLsbD p) &&
    (presented s).any (fun k => !s.flt.heldStacks.getLsbD k)

/-- Something presented is held off. -/
def somethingHeld (s : State) : Bool :=
  s.flt.heldPorts != 0 || s.flt.heldStacks != 0 || s.flt.heldPanels != 0 ||
    (presented s).any fun p => decide (availableBands s p < 16)

/-- MODE of Table 13-13. -/
def serviceMode (s : State) (stitchFailed : Bool) : Nat :=
  if !minimumSet s stitchFailed then 2 else if somethingHeld s then 1 else 0

/-- The last temperature reading of a stack, in °C, as the 32-bit signed UNIT_C of Table 13-5. -/
def tempWord (s : State) (k : Nat) : Nat := ((vAt s.hbm.temp k 0).signExtend 32).toNat

/-- A HELD_OFF record (Table 13-4). -/
def heldOff (unitKind a c : Nat) (test : BitVec 16) (s : State) : State :=
  declareFault (faultRec s 0x29 1 unitKind a 0 c 1 0 test.toNat) s

/-- The bits of a list of unit numbers. -/
def bitsOf (n : Nat) (l : List Nat) : BitVec n := l.foldl (fun m i => m ||| BitVec.ofNat n (2 ^ i)) 0

/-- FENCE as an ISOLATE or a RELEASE taken during a reset left it: it is in force before RESETTING clears (R246, Table 13-15). -/
def fenceNow (s : State) : State :=
  let s := s.each allPorts fun s m => match (s.port m).fencePending with
    | some f => fenceBoundary m f (s.onPort m fun p => { p with fencePending := none, fence := f })
    | none => s
  match s.lin.fencePending with
  | some on => setLining (if on then .fenced else .solo) (s.onLin fun l => { l with fencePending := none })
  | none => s

/-- The end of a device reset or a power-on (R364 step 8, R417 step 10, R427): units held off, results posted, repairs
recorded, bands made ON or UNAVAILABLE, MODE decided, RESETTING cleared. -/
def finishReset (o : ResetObs) (s : State) : State :=
  let inPlace (p : Nat) : Bool := decide (p < s.nPanels)
  let panels := (o.panels.filter fun x => inPlace x.1.val)
  let stackList := (o.stackList.filter fun x => inPlace x.1.val)
  let bands := (o.bands.filter fun x => inPlace (x.1.val / 16))
  let s := s.onFlt fun f => { f with
    heldPanels := f.heldPanels ||| bitsOf 8 (panels.map (·.1.val)),
    heldStacks := f.heldStacks ||| bitsOf 8 (stackList.map (·.1.val)),
    heldPorts := f.heldPorts ||| bitsOf 16 (o.ports.map (·.1.val)) }
  let s := s.each bands fun s x => heldOff 0x02 x.1.val 0 x.2 s
  let s := s.each panels fun s x => heldOff 0x03 x.1.val 0 x.2 s
  let s := s.each stackList fun s x => heldOff 0x06 x.1.val (tempWord s x.1.val) x.2 s
  let s := s.each o.ports fun s x =>
    heldOff 0x08 x.1.val 0 x.2 (s.onPort x.1.val fun p => { portAfterReset p with retunes := p.retunes })
  let s := s.each o.fuses fun s f => (addFuse f.1 f.2 s).2
  let s := s.each (List.range 128) fun s g =>
    let off := !inPlace (g / 16) || bandUnavailable s g || s.flt.heldPanels.getLsbD (g / 16) ||
      bands.any fun x => x.1.val == g
    s.onBand g fun _ => { state := if off then .unavailable else .on, pwrOff := off }
  let s := s.onSrv fun v => { v with failed := o.servingFailed }
  let s := fenceNow s
  let mode := serviceMode s o.stitchFailed
  let s := s.onTst fun t => { t with
    fst := at64 48 o.lastFailed.toNat ||| at64 16 o.testsFailed.toNat ||| at64 0 o.testsRun.toNat }
  let counts := leBytes 2 o.testsRun.toNat ++ leBytes 2 o.testsFailed.toNat
  let s := platformEvent 0x07 counts (logCritical 0x07 counts s)
  let s := s.onFlt fun f => { f with
    mode := mode, resetting := false, phase := .none, restarts := 0, misses := Vector.replicate 18 0 }
  let s := s.onStu fun u => { u with missed := 0 }
  let s := s.onPower fun p => { p with faultLow := false }
  let locked := (List.range 24).filter fun d => inPlace (d % 8) || 16 ≤ d
  let s := s.onThm fun t => { t with clkLock := bitsOf 25 locked }
  if mode ≠ 2 then confirmImage s else s

/-! Unit resets (R363). -/

/-- A region of some context uses a pseudo-channel of a stack (Table 13-8). -/
def stackUsed (s : State) (k : Nat) : Bool :=
  s.hbm.regions.any fun x => if x.2.mode ≤ 1 then true else if x.2.mode = 2 then x.2.target == k else x.2.target / 32 == k

/-- PRS_BIND_s.EN. -/
def presserBound (s : State) (k : Nat) : Bool := bit (s.presser k).bind 0

/-- The stack's lines read zero, the row map takes effect on it, and its presser and counters are as after a reset (R182, Tables 13-8,
13-12). -/
def clearStack (k : Nat) (s : State) : State :=
  let s := s.onHbm fun h => { h with
    mem := Mem.clearRange h.mem (hbmAddr (32 * k) 0) (hbmAddr (32 * k + 32) 0)
    inflight := h.inflight.filter fun a => a.pc / 32 != k
    wc := vMod h.wc k fun _ => []
    highWater := vMod h.highWater k fun _ => 0
    corrected := vMod h.corrected k fun _ => 0
    uncorrectable := vMod h.uncorrectable k fun _ => 0
    onDie := vMod h.onDie k fun _ => 0
    faulted := vMod h.faulted k fun _ => false
    tempFails := vMod h.tempFails k fun _ => 0
    weak := h.weak.filter fun x => x / 2 / Config.pcLines / 32 != k
    bad := h.bad.filter fun x => x.1 / 2 / Config.pcLines / 32 != k
    rewritten := h.rewritten.filter fun x => x / 2 / Config.pcLines / 32 != k
    lapCorrected := h.lapCorrected.filter fun x => x / 2 / Config.pcLines / 32 != k
    scrubbed := h.scrubbed.filter fun x => x.1 / 32 != k }
  (applyRows k s).onPresser k fun _ => {}

/-- A unit reset's refusal: RESULT of Table 13-9, or none. Kinds: 2 band, 3 panel, 6 HBM stack, 8 seam port. In MANAGEMENT_ONLY the
seam ports are outside the minimum service set; bands, panels and stacks may make it up again (DEDUCED, unsafe, assumption log 105). -/
def unitRefusal (s : State) (kind i : Nat) : Option Nat :=
  if s.flt.resetting ∨ s.flt.phase ≠ .none ∨ (s.flt.mode = 2 ∧ kind = 8) then some 0x03
  else
    let absent :=
      if kind = 2 then bandState s i == .unavailable
      else if kind = 3 then s.nPanels ≤ i || s.flt.heldPanels.getLsbD i
      else if kind = 6 then s.nPanels ≤ i || s.flt.heldStacks.getLsbD i
      else 16 ≤ i || s.flt.heldPorts.getLsbD i
    let inUse :=
      if kind = 2 then (s.band i).owner != 0 || bandSwitching s i
      else if kind = 3 then (List.range 16).any fun b => (s.band (16 * i + b)).owner != 0 || bandSwitching s (16 * i + b)
      else if kind = 6 then stackUsed s i || presserBound s i
      else false
    if absent then some 0x02 else if s.flt.unitBusy || inUse then some 0x01 else none

/-- The effect of a unit reset (Table 13-8). -/
def unitEffect (kind i : Nat) (s : State) : State :=
  if kind = 2 then startBandReset i .resetting s
  else if kind = 3 then
    s.each ((List.range 16).map (16 * i + ·)) fun s g =>
      if bandState s g = .unavailable then s else startBandReset g .resetting s
  else if kind = 6 then clearStack i s
  else
    if bit (s.port i).cfg 0 then retrain i (!(s.port i).saved) (discardPort i s) else dropChild i s

/-- FLT_RESET.CMD UNIT (R363): performed under Table 13-8, or reported and nothing changed. -/
def startUnitReset (kind i : Nat) (s : State) : State :=
  if kind ≠ 2 ∧ kind ≠ 3 ∧ kind ≠ 6 ∧ kind ≠ 8 then s
  else match unitRefusal s kind i with
    | some r => s.onFlt fun f => { f with unitResult := BitVec.ofNat 8 r }
    | none => (unitEffect kind i s).onFlt fun f => { f with unitBusy := true, unitKind := kind, unitIndex := i }

/-- The bands a unit reset holds. -/
def unitBands (kind i : Nat) : List Nat :=
  if kind = 2 then [i] else if kind = 3 then (List.range 16).map (16 * i + ·) else []

/-- A unit that failed its own reset is held off (R363). -/
def holdUnit (kind i : Nat) (s : State) : State :=
  let s := s.each (unitBands kind i) fun s g =>
    s.onBand g fun b => { b with state := .unavailable, pwrOff := true, downAfter := false, upAfter := false }
  if kind = 3 then s.onFlt fun f => { f with heldPanels := f.heldPanels ||| bitsOf 8 [i] }
  else if kind = 6 then s.onFlt fun f => { f with heldStacks := f.heldStacks ||| bitsOf 8 [i] }
  else if kind = 8 then portDown i (s.onFlt fun f => { f with heldPorts := f.heldPorts ||| bitsOf 16 [i] })
  else s

/-- The end of a unit reset (R363): done, or failed with RESULT 0x04, the unit held off and a RESET_FAIL record. -/
def endUnitReset (ok : Bool) (s : State) : State :=
  let kind := s.flt.unitKind
  let i := s.flt.unitIndex
  let s := s.onFlt fun f => { f with unitBusy := false, unitResult := if ok then 0 else 4 }
  if ok then s.each (unitBands kind i) fun s g => if (s.band g).state = .resetting then bandBecomesOn g s else s
  else
    let c := if kind = 6 then tempWord s i else 0
    declareFault (faultRec s 0x28 1 kind i 0 c 1 0 4) (holdUnit kind i s)

/-- A write of FLT_RESET (Table 13-17). -/
def writeFltReset (v : W64) (s : State) : State :=
  let s := if v &&& (mask64 63 40 ||| mask64 31 28 ||| mask64 23 2) ≠ 0 then violate 0 0x02 s else s
  if fld v 1 0 = 1 then requestReset 2 s
  else if fld v 1 0 = 2 then startUnitReset (fld v 27 24) (fld v 39 32) s
  else s

end Sys2Proof.Machine
end

