-- ==== Sys2Proof/Machine/HbmOps.lean ====
section
/-! DEFINITION. The HBM tier's shared operations (06_hbm_tier): allocation, references, errors, repair, and what a
boundary does. -/

namespace Sys2Proof.Machine

/-- A region uses a pseudo-channel (Table 6-2). -/
def usesPc (s : State) (r : HbmRegion) (pc : Nat) : Bool :=
  if r.mode ≤ 1 then decide (pc < s.nPc) else if r.mode = 2 then pc / 32 == r.target else pc == r.target

/-- The PC lines a region takes on each of its pseudo-channels (R162). -/
def regionSpan (r : HbmRegion) : Nat := if r.parity then 2 * r.pcLines else r.pcLines

/-- Two regions share a pseudo-channel. -/
def sharePc (s : State) (a b : HbmRegion) : Bool := (List.range 256).any fun pc => usesPc s a pc && usesPc s b pc

/-- The lowest base at which a region's lines are free on every pseudo-channel it uses (R162; the lowest is the model's
DESIGN CHOICE, unsafe, assumption log 38). -/
def findHbmBase (s : State) (r : HbmRegion) : Option Nat :=
  let n := regionSpan r
  let taken := ((s.hbm.regions.filter fun x => sharePc s r x.2).map fun x => (x.2.base, x.2.base + regionSpan x.2)) ++
    (s.hbm.excluded.filter fun e => usesPc s r e.1).map fun e => (e.2, e.2 + 1)
  let ok (b : Nat) : Bool := decide (b + n ≤ Config.pcLines) && taken.all fun u => decide (u.2 ≤ b) || decide (b + n ≤ u.1)
  ((0 :: taken.map (·.2)).filter ok).min?

/-- The context and index of the region that holds a line, none for a free line. -/
def hbmRegionAt (s : State) (pc line : Nat) : Option (Nat × Nat) :=
  (s.hbm.regions.find? fun x =>
    usesPc s x.2 pc && decide (x.2.base ≤ line) && decide (line < x.2.base + regionSpan x.2)).map
      fun x => (x.1 / 16, x.1 % 16)

/-- Thimble adds the row that holds a line to the HBM row map and excludes its lines (R182). -/
def hbmRepair (pc line : Nat) (s : State) : State :=
  let (bank, row) := Config.hbmRowOf line
  let e : W64 := BitVec.ofNat 64 (fromLe (leBytes 1 (pc / 32) ++ leBytes 1 pc ++ leBytes 1 bank ++ leBytes 3 row ++ [1]))
  (addFuse 1 e s).2.onHbm fun h => { h with
    excluded := h.excluded ++ ((Config.hbmRowLines bank row).map fun l => (pc, l)).filter fun l => !h.excluded.contains l }

/-- A corrected sector is counted; it stays as it is until it is written (R178). -/
def hbmCorrected (pc line : Nat) (sector : Bool) (s : State) : State :=
  let k := sectorKey pc line sector
  s.onHbm fun h => { h with
    corrected := vMod h.corrected (pc / 32) fun c => satAdd 48 c 1
    weak := if h.weak.contains k then h.weak else h.weak ++ [k] }

/-- An uncorrectable sector is counted and latched for the next boundary (R179); one that was uncorrectable before it was last
written enters the row map (R182). -/
def hbmUncorrectable (pc line : Nat) (syndrome : BitVec 16) (sector scrub : Bool) (s : State) : State :=
  let k := sectorKey pc line sector
  let s := if s.hbm.rewritten.contains k then hbmRepair pc line s else s
  s.onHbm fun h => { h with
    uncorrectable := vMod h.uncorrectable (pc / 32) fun c => satAdd 32 c 1
    bad := Tab.put h.bad k syndrome
    rewritten := h.rewritten.filter (· != k)
    ue := h.ue ++ [{ pc := pc, line := line, syndrome := syndrome, sector := sector, scrub := scrub }] }

/-- What the check code found in one sector of a line read from a queue (R178, R179). -/
def sectorEcc (e : Ecc) (pc line : Nat) (sector : Bool) (s : State) : State :=
  match e with
  | .ok => s
  | .corrected => hbmCorrected pc line sector s
  | .uncorrectable y _ => hbmUncorrectable pc line y sector false s

/-- What a read of a line from a queue brings besides its bytes (R177 to R179). -/
def hbmEcc (e : LineEcc) (pc line : Nat) (s : State) : State :=
  let s := s.onHbm fun h => { h with onDie := vMod h.onDie (pc / 32) fun c => satAdd 32 c e.onDie }
  sectorEcc e.high pc line true (sectorEcc e.low pc line false s)

/-- What a reader whose command carries no observation finds in a line: the errors that its sectors held when they were last
read, and that no write has removed since (R178, R179; DESIGN CHOICE, unsafe, assumption log 83). -/
def knownEcc (s : State) (pc line : Nat) : LineEcc :=
  let of (sector : Bool) : Ecc :=
    match Tab.find s.hbm.bad (sectorKey pc line sector) with
    | some y => .uncorrectable y sector
    | none => if s.hbm.weak.contains (sectorKey pc line sector) then .corrected else .ok
  { onDie := 0, low := of false, high := of true }

/-- A presser, a loader or a spare-slot engine has read a run of bytes of a context's region (R178, R179). -/
def readFinds (n : Nat) (r : HbmRegion) (first count : Nat) (s : State) : State :=
  if s.hbm.weak.isEmpty ∧ s.hbm.bad.isEmpty then s
  else s.each (List.range ((first % 64 + count + 63) / 64)) fun s i => match lineOf s n r (first / 64 + i) with
    | some (pc, line) => hbmEcc (knownEcc s pc line) pc line s
    | none => s

/-- The record of an uncorrectable sector (R179, Tables 13-4, 13-5); in a region of a FAULTED context a NOTICE, FREE_UE when the
scrubber found it (Table 13-15). -/
def hbmUeRecord (s : State) (u : HbmUe) : FaultRec :=
  let y := u.syndrome.toNat + (if u.sector then 65536 else 0)
  match hbmRegionAt s u.pc u.line with
  | none => faultRec s 0x14 1 0x05 (u.pc / 32) u.pc u.line 1 0xFFFFFFFF y
  | some (n, i) =>
    let dead : Bool := (s.ctx n).state == .faulted
    faultRec s (if dead && u.scrub then 0x14 else 0x13) (if dead then 1 else 3) 0x05 (u.pc / 32) u.pc u.line (contextMask [n]) (16 * n + i) y

/-- The scrub pointers of the presented pseudo-channels after a stitch: SCRUB_FLOOR lines on, to the end (R180). The spare slots the
scrubber takes beyond them (R167) are not counted (DEDUCED, safe, assumption log 107). -/
def scrubPointers (s : State) : Tab Nat :=
  (List.range (32 * s.nPanels)).map fun pc => (pc, min Config.pcLines (Tab.getD s.hbm.scrubbed pc 0 + s.hbm.floorNow))

/-- What a stitch boundary does to the tier: open entries are sealed (R175), the scrub pointers go on (R180), a written SCRUB_FLOOR
comes into force (R181), latched errors are declared (R179). -/
def hbmBoundary (s : State) : State :=
  let l := s.hbm.ue
  let floor := fld s.hbm.ctrl 24 16
  let changed := decide (floor ≠ s.hbm.floorNow)
  let s := s.onHbm fun h => { h with
    wc := h.wc.map fun b => b.map fun e => { e with sealed := true }
    scrubbed := scrubPointers s, floorNow := floor, ue := [] }
  let s := if changed then s.onWork fun w => { w with ledgerDirty := true } else s
  s.each l fun s u => declareFault (hbmUeRecord s u) s

end Sys2Proof.Machine
end

