-- ==== Sys2Proof/Machine/BoltOps.lean ====
section
/-! DEFINITION. The bolt's shared operations (05_bolt): lines, runs and copies, allocation, pins, residency, backings, and
error handling. -/

namespace Sys2Proof.Machine

/-- Lines per slab. -/
def slabLines : Nat := 1048576

/-- The address of a bolt line's first byte in the model's memory. -/
def boltAddr (panel slab line : Nat) : Nat := ((panel * 128 + slab) * slabLines + line) * 32

/-- The 32 bytes of a bolt line. -/
def boltLine (s : State) (panel slab line : Nat) : List Byte := Mem.bytes s.bolt.mem (boltAddr panel slab line) 32

/-- The number of a line in the bolt's lists. -/
def lineKey (panel slab line : Nat) : Nat := (128 * panel + slab) * slabLines + line

/-- A whole bolt line is written with fresh check bits (R146): a pending write-back of the line is discarded (Table 5-2), an
error that the line held is gone, and one seen uncorrectable counts as rewritten (R158). -/
def writeBoltLine (panel slab line : Nat) (bs : List Byte) (s : State) : State :=
  let k := lineKey panel slab line
  s.onBolt fun b => { b with
    mem := Mem.write b.mem (boltAddr panel slab line) (slice bs 0 32)
    buffers := b.buffers.map fun x => if x.1 = 128 * panel + slab then (x.1, x.2.filter fun w => w.line != line) else x
    weak := b.weak.filter (· != k)
    rewritten := b.rewritten ++ (b.bad.map (·.1)).filter (· == k)
    bad := b.bad.filter fun x => x.1 != k }

/-- A line with its DIE bit inverted (R144). -/
def otherDie (line : Nat) : Nat := Nat.xor line 32768

/-- The lines of a band's segment start here (Table 5-1). -/
def segmentBase (g : Nat) : Nat := (g % 16) * 65536

/-- The live copy of line j of a run; `live` is LIVE of the region. -/
def liveLine (x : BoltRegion) (r : BoltRun) (j : Nat) : Nat :=
  if x.twin && x.live then otherDie (r.base + j) else r.base + j

/-- The staging copy of line j of a run of a TWIN region (R144). -/
def stagingLine (x : BoltRegion) (r : BoltRun) (j : Nat) : Nat :=
  if x.live then r.base + j else otherDie (r.base + j)

/-- Where a core reads a line of its slab (R144): in a twin range with LIVE set, bit 15 is inverted. -/
def readLine (s : State) (panel slab line : Nat) : Nat :=
  let twin := s.bolt.regions.any fun x => x.2.twin && x.2.live && x.2.runs.any fun r =>
    r.band / 16 == panel && r.slab == slab && decide (r.base ≤ line) && decide (line < r.base + x.2.lines)
  if twin then otherDie line else line

/-- The device region a context's region index names. -/
def boltRegionOf (s : State) (n index : Nat) : Option (Nat × BoltRegion) :=
  s.bolt.regions.find? fun x => x.2.ctx.val == n && x.2.index == index

/-- A device region. -/
def boltRegion (s : State) (i : Nat) : Option BoltRegion := Tab.find s.bolt.regions i

/-- The state with a region changed. -/
def onRegion (i : Nat) (f : BoltRegion → BoltRegion) (s : State) : State :=
  s.onBolt fun b => { b with regions := b.regions.map fun x => if x.1 = i then (x.1, f x.2) else x }

/-- An armed entry pins a region (R135): its pattern declares an extent in it. -/
def pinsOf (s : State) (n index : Nat) : Nat :=
  (s.work.entries.filter fun e => e.ctx.val == n && match patternOf s n e.handle with
    | some p => p.extents.any fun t => t.region == index
    | none => false).length

/-- A device region is pinned. -/
def pinned (s : State) (x : BoltRegion) : Bool := decide (0 < pinsOf s x.ctx.val x.index)

/-- The logical lines a region holds. -/
def regionTotal (x : BoltRegion) : Nat := x.bands.length * 125 * x.lines

/-- Line k of the backing's order (Table 5-7): band, logical column, line. -/
def logicalLine (x : BoltRegion) (k : Nat) : Nat × Nat × Nat :=
  (x.bands.getD (k / (125 * x.lines)) 0, k / x.lines % 125, k % x.lines)

/-- The runs that hold a band's logical column. -/
def runsOf (x : BoltRegion) (g c : Nat) : List BoltRun := x.runs.filter fun r => r.band == g && r.col == c

/-- The live copy of logical line k. -/
def readLogical (s : State) (x : BoltRegion) (k : Nat) : List Byte :=
  let (g, c, j) := logicalLine x k
  match runsOf x g c with
  | r :: _ => boltLine s (g / 16) r.slab (liveLine x r j)
  | [] => List.replicate 32 0

/-- Logical line k written in every copy (R147). -/
def writeLogical (x : BoltRegion) (k : Nat) (bs : List Byte) (s : State) : State :=
  let (g, c, j) := logicalLine x k
  s.each (runsOf x g c) fun s r => writeBoltLine (g / 16) r.slab (liveLine x r j) bs s

/-- A range of loaded lines joined to those there, kept rising and disjoint. -/
def addRange (a b : Nat) : List (Nat × Nat) → List (Nat × Nat)
  | [] => [(a, b)]
  | (c, d) :: l =>
    if b < c then (a, b) :: (c, d) :: l
    else if d < a then (c, d) :: addRange a b l
    else addRange (min a c) (max b d) l

/-- Every logical line has been loaded since DEFINE. -/
def allLoaded (x : BoltRegion) : Bool := x.loaded == [(0, regionTotal x)]

/-- The pair writes that whole lines cost the slab segments they go to (R147): each line counts half a pair in every run that
holds it, and an odd number is rounded up. -/
def pairWrites (x : BoltRegion) (lines : List Nat) : Tab Nat :=
  let hits := (lines.map fun k =>
    let (g, c, j) := logicalLine x k
    (runsOf x g c).map fun r => (128 * g + r.slab, (r.base + j) / 2)).flatten.eraseDups
  hits.foldl (fun t h => Tab.add t h.1 1) []

/-- The loader has taken pair writes of the stitch's offered cycles, ahead of the presser and the scrubber (R147). -/
def spendWrites (x : BoltRegion) (lines : List Nat) (s : State) : State :=
  s.onBolt fun b => { b with spent := (pairWrites x lines).foldl (fun t h => Tab.add t h.1 h.2) b.spent }

/-- A run of bytes of a region written by a loader, in whole lines (R146, R147). A loader that stopped when a band of the region
powered down writes nothing (Table 5-2). -/
def loadBytes (i first : Nat) (bs : List Byte) (s : State) : State :=
  match boltRegion s i with
  | none => s
  | some x => if x.stopped then s else
    let lines := (List.range (bs.length / 32)).map fun k => (first / 32 + k, (bs.drop (32 * k)).take 32)
    let inside := lines.filter fun l => decide (l.1 < regionTotal x)
    let s := spendWrites x (inside.map (·.1)) (s.each inside fun s l => writeLogical x l.1 l.2 s)
    let last := min (regionTotal x) (first / 32 + bs.length / 32)
    if first / 32 < last then onRegion i (fun x => { x with loaded := addRange (first / 32) last x.loaded }) s else s

/-- The bytes of a region in the order of its backing, from the live copies. -/
def boltBytes (s : State) (x : BoltRegion) (first count : Nat) : List Byte :=
  if count = 0 then []
  else
    let l0 := first / 32
    let lines := (first + count + 31) / 32 - l0
    (((List.range lines).map fun i =>
      if l0 + i < regionTotal x then readLogical s x (l0 + i) else List.replicate 32 0).flatten.drop (first % 32)).take count

/-! Regions and model slots (R148 to R150). -/

/-- A region goes FREE; it leaves its model slot, and a slot with no region left is no longer VALID (R149 says nothing of a slot
whose regions are released one by one: DESIGN CHOICE, unsafe, assumption log 94). -/
def freeRegion (i : Nat) (s : State) : State :=
  s.onBolt fun b => { b with
    regions := b.regions.filter fun x => x.1 != i
    slots := b.slots.map fun m =>
      if m.regions.contains i then
        let rest := m.regions.filter (· != i)
        { m with regions := rest, valid := m.valid && !rest.isEmpty }
      else m }

/-- The slots that may be evicted (R150): VALID, every region unpinned, and for space with a region on a band of the
request. -/
def evictable (s : State) (bands : Option (List Nat)) : List Nat :=
  (List.range 64).filter fun k =>
    let m := vAt s.bolt.slots k {}
    let rs := m.regions.filterMap fun i => boltRegion s i
    m.valid && rs.all (fun x => !pinned s x) && match bands with
      | none => true
      | some l => rs.any fun x => x.bands.any fun g => l.contains g

/-- The candidate with the earliest stamp, the lower index among equals; stamps compared modulo 2^40 (R20). -/
def earliestSlot (s : State) (l : List Nat) : Option Nat :=
  l.foldl (fun best k => match best with
    | none => some k
    | some b => if before (vAt s.bolt.slots k {}).stamp (vAt s.bolt.slots b {}).stamp then some k else some b) none

/-! Allocation (R143). -/

/-- The physical columns that hold a logical column in the five rows of a band: H(g, c). -/
def holders (s : State) (g c : Nat) : List Nat :=
  ((List.range 5).map fun i => physCol s (g / 16) (5 * (g % 16) + i) c).eraseDups

/-- The ranges of lines in use in a slab's segment under a band: regions' runs with both copies of a twin. -/
def usedRanges (s : State) (g slab : Nat) : List (Nat × Nat) :=
  let runs := (s.bolt.regions.map fun x => (x.2.runs.filter fun r => r.band == g && r.slab == slab).map fun r =>
    if x.2.twin then [(r.base, r.base + x.2.lines), (otherDie r.base, otherDie r.base + x.2.lines)]
    else [(r.base, r.base + x.2.lines)]).flatten.flatten
  let out := (s.bolt.excluded.filter fun e =>
    e.1 == 128 * (g / 16) + slab && decide (segmentBase g ≤ e.2) && decide (e.2 < segmentBase g + 65536)).map
      fun e => (e.2, e.2 + 1)
  runs ++ out

/-- A range of n lines from a base overlaps none of the ranges and lies in one die half. -/
def fits (used : List (Nat × Nat)) (base n : Nat) : Bool :=
  decide (base / 32768 = (base + n - 1) / 32768) && used.all fun u => decide (u.2 ≤ base) || decide (base + n ≤ u.1)

/-- The lowest even base at which a run fits, none when there is none (R143; the lowest is the model's choice, assumption
log 38: DESIGN CHOICE, unsafe). A twin's base lies in the lower die and both copies must fit: what is in use in the upper die
bounds it too. -/
def findBase (used : List (Nat × Nat)) (g n : Nat) (twin : Bool) : Option Nat :=
  let ends := used.map fun u => u.2 + u.2 % 2
  let starts := (segmentBase g) :: (segmentBase g + 32768) :: (ends ++ if twin then ends.map otherDie else [])
  (starts.filter fun b => decide (b / 65536 = g % 16) && fits used b n &&
    (!twin || (decide (b % 65536 < 32768) && fits used (otherDie b) n))).min?

/-- Every run of a region placed, one at a time in band, column and slab order; none when one does not fit. `acc` holds the
runs placed so far. -/
def placeRuns (s : State) (n : Nat) (twin : Bool) : List (Nat × Nat × Nat) → List BoltRun → Option (List BoltRun)
  | [], acc => some acc
  | (g, c, slab) :: rest, acc =>
    let mine := (acc.filter fun r => r.band == g && r.slab == slab).map fun r =>
      if twin then [(r.base, r.base + n), (otherDie r.base, otherDie r.base + n)] else [(r.base, r.base + n)]
    let twins := (s.bolt.regions.map fun x =>
      if x.2.twin then (x.2.runs.filter fun r => r.band / 16 == g / 16 && r.slab == slab).length else 0).sum +
        (acc.filter fun r => r.band / 16 == g / 16 && r.slab == slab).length
    if twin ∧ 64 ≤ twins then none
    else match findBase (usedRanges s g slab ++ mine.flatten) g n twin with
      | none => none
      | some b => placeRuns s n twin rest (acc ++ [{ band := g, col := c, slab := slab, base := b }])

/-- The bands of a 128-bit mask in two registers, ascending. -/
def maskBands (lo hi : W64) : List Nat :=
  (List.range 128).filter fun g => if g < 64 then lo.getLsbD g else hi.getLsbD (g - 64)

/-- The owner of a band for definitions (R142, R388): from the start of a switch its bands count as TO's. -/
def definingOwner (s : State) (g : Nat) : Nat :=
  match s.hif.switch with
  | some w => if w.started && w.bands.contains g then w.to_.val else (s.band g).owner.val
  | none => (s.band g).owner.val

/-- A band is available (R85). -/
def bandAvailable (s : State) (g : Nat) : Bool :=
  decide (g < 16 * s.nPanels) && (s.band g).state != .unavailable

/-- A new region's runs, none when they cannot be placed. -/
def planRegion (s : State) (bands : List Nat) (n : Nat) (twin : Bool) : Option (List BoltRun) :=
  let places := (bands.map fun g => ((List.range 125).map fun c => (holders s g c).map fun p => (g, c, p)).flatten).flatten
  placeRuns s n twin places []

/-! Errors (R152 to R158). -/

/-- The device region that a physical line belongs to, in either copy. -/
def regionAt (s : State) (panel slab line : Nat) : Option Nat :=
  (s.bolt.regions.find? fun x => x.2.runs.any fun r =>
    r.band / 16 == panel && r.slab == slab &&
      ((decide (r.base ≤ line) && decide (line < r.base + x.2.lines)) ||
        (x.2.twin && decide (r.base ≤ otherDie line) && decide (otherDie line < r.base + x.2.lines)))).map (·.1)

/-- A correctable error: counted, and the corrected line waits in the slab's write-back buffer of four, or WB_DROPPED
counts it (R153). -/
def boltCorrected (panel slab line : Nat) (s : State) : State :=
  let key := 128 * panel + slab
  let k := lineKey panel slab line
  let data := BitVec.ofNat 256 (fromLe (boltLine s panel slab line))
  let full := decide (4 ≤ (Tab.getD s.bolt.buffers key []).length)
  s.onBolt fun b => { b with
    corrected := vMod b.corrected panel fun c => satAdd 48 c 1
    wbDropped := if full then vMod b.wbDropped panel fun c => satAdd 32 c 1 else b.wbDropped
    weak := if b.weak.contains k then b.weak else b.weak ++ [k]
    buffers := if full then b.buffers
      else Tab.put b.buffers key (Tab.getD b.buffers key [] ++ [{ line := line, data := data }]) }

/-- The scrubber's uncorrectable line is excluded from allocation: a free one at once, one in a region of a FAULTED context
when the region is freed (R155, Table 13-15). -/
def boltGivesUp (s : State) (panel slab line : Nat) : Bool :=
  match (regionAt s panel slab line).bind (boltRegion s) with
  | none => true
  | some r => (s.ctx r.ctx.val).state == .faulted

/-- The wordline of a line in its bank: four lines interleaved per wordline (R139; DESIGN CHOICE, unsafe, assumption log 39). -/
def wordline (line : Nat) : Nat := (line / 32 % 1024 * 2 + line % 2) / 4

/-- The LOCATION of a line's bank (Table 5-4): SEGMENT, DIE, BANK. -/
def bankLocation (line : Nat) : Nat := (line / 65536) * 32 + (line / 32768 % 2) * 16 + line / 2 % 16

/-- A soft-fuse entry of the bolt map (Table 5-4). -/
def boltFuse (type panel slab loc index spare : Nat) : W64 :=
  BitVec.ofNat 64 (fromLe ([BitVec.ofNat 8 type, BitVec.ofNat 8 panel, BitVec.ofNat 8 slab] ++ leBytes 2 loc ++
    leBytes 2 index ++ [BitVec.ofNat 8 spare]))

/-- Thimble repairs a failing line (R158): the wordline, or the bitline when `bitline` names one, with the bank's next
unused spare; an exclusion when none is left. Until the entry takes effect the lines it affects are excluded: the four of the wordline, or the
lines of the bank that lie on the bitline, every one of the bank for a bank's exclusion. -/
def boltRepair (panel slab line : Nat) (bitline : Option Nat) (s : State) : State :=
  let loc := bankLocation line
  let used (type : Nat) : Nat := ((vAt s.thm.fuses 0 []).filter fun e =>
    fld e 7 0 == type && fld e 15 8 == panel && fld e 23 16 == slab && fld e 39 24 == loc).length
  let e := match bitline with
    | some b => if used 2 < 4 then boltFuse 2 panel slab loc b (used 2) else boltFuse 4 panel slab loc 0 0xFF
    | none =>
      if used 1 < 8 then boltFuse 1 panel slab loc (wordline line) (used 1)
      else boltFuse 3 panel slab loc (wordline line) 0xFF
  let onBitline (b : Nat) (x : Nat × Nat) : Bool := (x.2 / 32 % 1024 * 2 + x.2 % 2) % 4 == b % 4
  let bank := boltExcluded (boltFuse 4 panel slab loc 0 0xFF)
  let lines := match bitline with
    | some b => if used 2 < 4 then bank.filter (onBitline b) else bank
    | none => boltExcluded (boltFuse 3 panel slab loc (wordline line) 0xFF)
  (addFuse 0 e s).2.onBolt fun b => { b with
    excluded := b.excluded ++ lines.filter fun l => !b.excluded.contains l }

/-- An uncorrectable error is counted and latched for the next boundary (R154, R155); a line that was uncorrectable before it was
last written enters the fuse map (R158). -/
def boltUncorrectable (panel slab line : Nat) (syndrome : BitVec 16) (scrub : Bool) (s : State) : State :=
  let k := lineKey panel slab line
  let s := if s.bolt.rewritten.contains k then boltRepair panel slab line none s else s
  let out := scrub && boltGivesUp s panel slab line
  s.onBolt fun b => { b with
    uncorrectable := vMod b.uncorrectable panel fun c => satAdd 32 c 1
    bad := Tab.put b.bad k syndrome
    rewritten := b.rewritten.filter (· != k)
    ue := b.ue ++ [{ panel := panel, slab := slab, line := line, syndrome := syndrome, scrub := scrub }]
    excluded := if out && !b.excluded.contains (128 * panel + slab, line) then
      b.excluded ++ [(128 * panel + slab, line)] else b.excluded }

/-- What the check code found in a bolt line that was read (R152 to R154). -/
def boltEcc (e : Ecc) (panel slab line : Nat) (s : State) : State :=
  match e with
  | .ok => s
  | .corrected => boltCorrected panel slab line s
  | .uncorrectable y _ => boltUncorrectable panel slab line y false s

/-- What a reader whose command carries no observation finds in a line: the error it held when it was last read, which no write
has removed since (R153, R154; DESIGN CHOICE, unsafe, assumption log 83). -/
def knownBoltEcc (s : State) (panel slab line : Nat) : Ecc :=
  match Tab.find s.bolt.bad (lineKey panel slab line) with
  | some y => .uncorrectable y false
  | none => if s.bolt.weak.contains (lineKey panel slab line) then .corrected else .ok

/-- A loader or a DMA engine has read the live copy of some bytes of a region (R153, R154). -/
def boltReadFinds (x : BoltRegion) (first count : Nat) (s : State) : State :=
  if s.bolt.weak.isEmpty ∧ s.bolt.bad.isEmpty then s
  else s.each ((List.range ((first % 32 + count + 31) / 32)).map (· + first / 32)) fun s k =>
    let (g, c, j) := logicalLine x k
    match runsOf x g c with
    | r :: _ =>
      let line := liveLine x r j
      boltEcc (knownBoltEcc s (g / 16) r.slab line) (g / 16) r.slab line s
    | [] => s

/-- The record of an uncorrectable line (Tables 13-4, 13-5): BOLT_UE of its region's context, or FREE_UE. A context
already FAULTED gives a NOTICE, FREE_UE when the scrubber found the line (Table 13-15). -/
def boltUeRecord (s : State) (u : BoltUe) : FaultRec :=
  match regionAt s u.panel u.slab u.line with
  | none => faultRec s 0x14 1 0x04 u.panel u.slab u.line 1 0xFFFFFFFF u.syndrome.toNat
  | some i =>
    let n := match boltRegion s i with
      | some x => x.ctx.val
      | none => 0
    let dead : Bool := (s.ctx n).state == .faulted
    faultRec s (if dead && u.scrub then 0x14 else 0x12) (if dead then 1 else 3) 0x04 u.panel u.slab u.line (contextMask [n]) i u.syndrome.toNat

/-- The latched bolt errors are declared at a boundary (R154, R155). -/
def boltBoundary (s : State) : State :=
  let l := s.bolt.ue
  (s.onBolt fun b => { b with ue := [] }).each l fun s u => declareFault (boltUeRecord s u) s

/-! Backings (R148, Table 5-7). -/

/-- A region's backing written from its live copy. -/
def writeBacking (x : BoltRegion) (s : State) : State :=
  match hbmRegion s x.ctx.val x.hbmRegion with
  | some h =>
    boltReadFinds x 0 (regionTotal x * 32) (writeRegion x.ctx.val h (x.offset * 64) (boltBytes s x 0 (regionTotal x * 32)) s)
  | none => s

/-- A region filled from its backing. -/
def fillFromBacking (i : Nat) (x : BoltRegion) (s : State) : State :=
  match hbmRegion s x.ctx.val x.hbmRegion with
  | some h =>
    readFinds x.ctx.val h (x.offset * 64) (regionTotal x * 32)
      (loadBytes i 0 (regionBytes s x.ctx.val h (x.offset * 64) (regionTotal x * 32)) s)
  | none => s

/-- The lines of its HBM region that a region's backing takes (Table 5-7). -/
def backingLines (x : BoltRegion) : Nat := (regionTotal x + 1) / 2

/-- A region's backing is VERIFIED: a checked bundle filled all of it (R298). -/
def backingVerified (s : State) (x : BoltRegion) : Bool :=
  x.backed && s.hbm.checked.any fun c => c.ctx == x.ctx.val && c.region == x.hbmRegion && decide (c.first ≤ x.offset) &&
    decide (x.offset + backingLines x ≤ c.first + c.count)

/-- A checked bundle has filled a region's backing: it is VERIFIED (R298). -/
def markVerified (x : BoltRegion) (key : W64) (s : State) : State :=
  (unverifyLines x.ctx.val x.hbmRegion x.offset (backingLines x) s).onHbm fun h => { h with
    checked := h.checked ++ [{ ctx := x.ctx.val, region := x.hbmRegion, first := x.offset, count := backingLines x, key := key }] }

/-- A model slot is evicted whole (R150): a DIRTY region is written back first, then its regions are FREE. -/
def evictSlot (k : Nat) (s : State) : State :=
  let m := vAt s.bolt.slots k {}
  let s := s.each m.regions fun s i =>
    match boltRegion s i with
    | some x => freeRegion i (if x.state = .dirty then writeBacking x s else s)
    | none => s
  s.onBolt fun b => { b with slots := vMod b.slots k fun _ => {} }

end Sys2Proof.Machine
end

