-- ==== Sys2Proof/Machine/Admission.lean ====
section
/-! DEFINITION. Admission control (04_patterns, R130 to R136): the budget, the ledger's charges, and its rebuilding. -/

namespace Sys2Proof.Machine

/-- C of R15: core cycles per stitch. -/
def cyclesPerStitch (s : State) : Nat := 64 * s.stu.periodUnits.toNat

/-- B of R15. -/
def budget (s : State) : Nat := cyclesPerStitch s - 96

/-- What a pattern of context n exceeds, if anything (R17, R275, R276): the new B, reported as 0 when a serving pattern
meets a period below 51 units. -/
def overBudget (s : State) (p : Pattern) (n : Nat) : Option Nat :=
  if (s.ctx n).serving ∧ s.stu.periodUnits.toNat < 51 then some 0
  else if budget s < p.declared then some (budget s)
  else none

/-- cap(C) of R133. -/
def hbmCap (s : State) : Nat := cyclesPerStitch s * 23 / 40

/-- fixed_hbm(pc) of R168: refresh and calibration slots. -/
def fixedHbm (s : State) : Nat := 20 + 9 * ((cyclesPerStitch s + 255) / 256)

/-- presser_hbm(pc): SLOTS in force of the presser of the pseudo-channel's stack (R218). -/
def presserHbm (s : State) (pc : Nat) : Nat := (s.presser (pc / 32)).slotsNow.toNat

/-- A real-time serving context: RT in force (R299). -/
def realTime (s : State) (n : Nat) : Bool := (s.ctx n).serving && (s.srvCtx n).rtNow

/-- rt_hbm(x, pc): HBM_RESERVE in force, the same on every pseudo-channel (R299). -/
def rtHbm (s : State) (n : Nat) : Nat := (s.srvCtx n).reserveNow.toNat

/-- fixed_seam(m): the entries of VC_0 and VC_7 and of the mirror; 256 while the port is not ACTIVE (R225, R238). -/
def fixedSeam (s : State) (m : Nat) : Nat :=
  if (s.port m).state ≠ .active then 256
  else 5 + (if 12 ≤ m then fld s.prs.mirrorNow (8 * (m - 12) + 7) (8 * (m - 12)) else 0)

/-- share(x, m): the byte of CTX_SHARE in force (R134, R389). -/
def share (s : State) (n m : Nat) : Nat :=
  let c := s.ctx n
  if m < 8 then fld c.nowLo (8 * m + 7) (8 * m) else fld c.nowHi (8 * (m - 8) + 7) (8 * (m - 8))

/-- A run that ends at `l` ends before stitch f. -/
def endsBefore (l : Option Stitch) (f : Stitch) : Bool :=
  match l with
  | none => false
  | some l => before l f

/-- Two runs share a stitch. -/
def runsOverlap (f : Stitch) (l : Option Stitch) (e : ArmEntry) : Bool := !endsBefore l e.first && !endsBefore e.last f

/-- The pattern's HBM_PC count. -/
def hbmCount (p : Pattern) (pc : Nat) : Nat := Tab.getD p.hbm pc 0

/-- The pattern's SEAM counts of a port, all channels. -/
def seamCount (p : Pattern) (m : Nat) : Nat := ((List.range 8).map fun v => Tab.getD p.seam (8 * m + v) 0).sum

/-- The entries of a ledger with their patterns. -/
def charged (s : State) (l : List ArmEntry) : List (Nat × Pattern) :=
  l.filterMap fun e => (patternOf s e.ctx.val e.handle).map fun p => (e.ctx.val, p)

/-- The excess a new pattern of context n would put on a pseudo-channel (R134). -/
def hbmExcess (s : State) (p : Pattern) (n : Nat) (o : List (Nat × Pattern)) (pc : Nat) : Nat :=
  if realTime s n then
    hbmCount p pc + ((o.filter fun x => x.1 == n).map fun x => hbmCount x.2 pc).sum - rtHbm s n
  else
    fixedHbm s + presserHbm s pc + s.hbm.floorNow + ((jobContexts.filter fun y => realTime s y).map fun y => rtHbm s y).sum +
      hbmCount p pc + ((o.filter fun x => !realTime s x.1).map fun x => hbmCount x.2 pc).sum - hbmCap s

/-- The excess a new pattern of context n would put on a port (R134): over its share, else over the 256 entries. -/
def seamExcess (s : State) (p : Pattern) (n : Nat) (o : List (Nat × Pattern)) (m : Nat) : Nat :=
  let of (y : Nat) : Nat := (((n, p) :: o).filter fun x => x.1 == y).map (fun x => seamCount x.2 m) |>.sum
  if of n > share s n m then of n - share s n m
  else fixedSeam s m + (jobContexts.map fun y => min (share s y m) (of y)).sum - 256

/-- The first number of a range at which a count is not zero, with the count. -/
def firstExcess (k : Nat) (f : Nat → Nat) : Option (Nat × Nat) :=
  ((List.range k).find? fun i => f i ≠ 0).map fun i => (i, f i)

/-- The HBM and SEAM tests of R134 against the entries of a ledger whose runs overlap: the reason and its details. -/
def chargeRefusal (s : State) (p : Pattern) (n : Nat) (o : List (Nat × Pattern)) : Option (Nat × Nat × Nat) :=
  match firstExcess 256 (hbmExcess s p n o) with
  | some (pc, x) => some (0x24, pc, x)
  | none => match firstExcess 16 (seamExcess s p n o) with
    | some (m, x) => some (0x25, m, x)
    | none => none

/-- A band takes an entry of context n: it owns it, the band is ON, and no entry overlaps (R131, R134). With FIRST_STITCH 0
(`zero`) an open run overlaps wherever it starts (R130). Of several that overlap, detail 1 names the one armed first (DESIGN
CHOICE, unsafe, assumption log 92). -/
def bandRefusal (s : State) (n : Nat) (zero : Bool) (f : Stitch) (l : Option Stitch) (g : Nat) : Option (Nat × Nat × Nat) :=
  if (s.band g).owner.val ≠ n ∨ bandState s g ≠ .on then some (0x22, g, 0)
  else match (entriesOn s g).find? fun e => runsOverlap f l e || (zero && e.last.isNone) with
    | some e => some (0x23, g, e.first.toNat % 2 ^ 32)
    | none => none

/-- An extent lies inside a resident bolt region of the context (R134). -/
def extentInside (s : State) (n : Nat) (t : Extent) : Bool :=
  match boltRegionOf s n t.region with
  | some (_, x) => (x.state == .resident || x.state == .dirty) && x.bands.contains t.band &&
      decide (t.first + t.count ≤ x.lines)
  | none => false

/-- The first of a list whose number fails a test. -/
def firstBad {α : Type} (l : List α) (bad : α → Bool) : Option (Nat × α) :=
  (l.zipIdx.find? fun x => bad x.1).map fun x => (x.2, x.1)

/-- R134 whole: the refusal of an entry of context n with the run f to l, none when it is admitted; `zero` tells that the
ARM's FIRST_STITCH is 0. -/
def admission (s : State) (p : Pattern) (n : Nat) (zero : Bool) (f : Stitch) (l : Option Stitch) : Option (Nat × Nat × Nat) :=
  match overBudget s p n with
  | some b => some (0x21, p.declared, b)
  | none => match p.bands.findSome? fun g => bandRefusal s n zero f l g with
    | some r => some r
    | none =>
      if 1024 ≤ (s.work.entries.filter fun e => e.ctx.val == n).length then some (0x2A, n, 0)
      else
        let o := charged s (s.work.entries.filter fun e => runsOverlap f l e)
        match chargeRefusal s p n o with
        | some r => some r
        | none => match firstBad p.streams fun t => !regionUsable s n t.region with
          | some (i, t) => some (0x27, i, t.region)
          | none => match firstBad p.extents fun t => !extentInside s n t with
            | some (i, t) => some (0x26, i, t.region)
            | none => none

/-- What a removed entry's bands no longer run when they were dispatched in the stitch whose maintenance slot lasts. -/
def undispatch (e : ArmEntry) (s : State) : State :=
  if 96 ≤ s.stu.pos ∨ e.ran ≠ some s.stu.stitch then s
  else
    let mine (g : Nat) : Bool := e.bands.contains g
    let s := s.onStu fun u => { u with bands := u.bands.filter fun x => !mine x.1 }
    s.onCores fun k => { k with cores := k.cores.map fun x => if mine (bandOfCore x.1) then (x.1, { x.2 with run := none }) else x }

/-- An entry is withdrawn at a boundary, before issue (R137). -/
def withdrawNow (reason d0 d1 : Nat) (e : ArmEntry) (s : State) : State := withdraw reason d0 d1 e (undispatch e s)

/-- The ledger is rebuilt (R136, R181, R218, R389): the entries are admitted again in the order armed, and each that no
longer fits is withdrawn with PERIOD_LEDGER. `kept` are the entries already admitted again. -/
def rebuildFrom : List ArmEntry → List ArmEntry → State → State
  | [], _, s => s
  | e :: rest, kept, s =>
    match patternOf s e.ctx.val e.handle with
    | none => rebuildFrom rest kept s
    | some p =>
      match chargeRefusal s p e.ctx.val (charged s (kept.filter fun k => runsOverlap e.first e.last k)) with
      | some (_, d0, d1) => rebuildFrom rest kept (withdrawNow 0x31 d0 d1 e s)
      | none => rebuildFrom rest (kept ++ [e]) s

/-- Admission control rebuilds the ledger. -/
def rebuildLedger (s : State) : State := rebuildFrom s.work.entries [] s

/-- R17 at a period change: an entry whose pattern exceeds the new B is withdrawn with PERIOD_BUDGET. -/
def budgetCheck (s : State) : State :=
  s.each s.work.entries fun s e => match patternOf s e.ctx.val e.handle with
    | some p => match overBudget s p e.ctx.val with
      | some b => withdrawNow 0x30 p.declared b e s
      | none => s
    | none => s

/-- The boundary rebuilds the ledger when a port's state, a reservation, a share or the scrub floor changed since (R136, R181, R218,
R238, R299, R389). -/
def ledgerIfDirty (s : State) : State :=
  if s.sea.ledgerDirty ∨ s.work.ledgerDirty ∨ s.prs.ledgerDirty then
    rebuildLedger (((s.onSea fun a => { a with ledgerDirty := false }).onWork fun w =>
      { w with ledgerDirty := false, ledgerDue := true }).onPrs fun p => { p with ledgerDirty := false })
  else s.onWork fun w => { w with ledgerDue := false }

/-- The ledger is rebuilt once more in the maintenance slot whose boundary rebuilt it: nothing that fits is withdrawn. -/
def rebuildDue (s : State) : State := if s.work.ledgerDue ∧ inMaintenance s then rebuildLedger s else s

/-- PORT_LEDGER_REBUILD (R238): the rebuild at the first boundary after a port changed its state. -/
def execPortLedgerRebuild (s : State) : Out := .next (rebuildDue s)

end Sys2Proof.Machine
end

