-- ==== Sys2Proof/Machine/Flow.lean ====
section
/-! DEFINITION. The order of issue in a core (R106, R107): loops, predicates, and which word issues next. The run of a
pattern and the load-time check of R110 share it. -/

namespace Sys2Proof.Machine

/-- The word after the last of a loop body goes back to the first until the count is reached; loops may end on the same
word (R107). The frames are innermost first. -/
def endOfWord (pc : Nat) : List LoopFrame → Nat × List LoopFrame
  | [] => (pc + 1, [])
  | f :: rest =>
    if pc + 1 = f.first + f.body then
      if f.counter + 1 < f.count then (f.first, { f with counter := f.counter + 1 } :: rest) else endOfWord pc rest
    else (pc + 1, f :: rest)

/-- A LOOP at a word opens a frame over the words that follow it. -/
def openLoop (pc body count : Nat) (loops : List LoopFrame) : List LoopFrame :=
  { first := pc + 1, body := body, count := count, counter := 0 } :: loops

/-- The live expression of a predicate (R106): false when its level names no active loop. -/
def predHolds (d : PredDef) (loops : List LoopFrame) : Bool :=
  match loops[d.level.val]? with
  | none => false
  | some f => match d.cmp with
    | .eq => f.counter == d.imm.toNat
    | .lt => decide (f.counter < d.imm.toNat)
    | .ge => decide (d.imm.toNat ≤ f.counter)
    | .andZero => Nat.land f.counter d.imm.toNat == 0

/-- Predicate p of a core: P_0 is always true, an undefined one is false (R88, R106). -/
def predTrue (preds : Vector (Option PredDef) 8) (loops : List LoopFrame) (p : Nat) : Bool :=
  if p = 0 then true
  else match vAt preds p none with
    | some d => predHolds d loops
    | none => false

/-- The next word's core cycle after a word that issued at `cycle`; a DELAY issues nothing for its cycles after it. -/
def afterDelay (cycle : Nat) (delay : Nat) : Nat := cycle + 1 + delay

/-- The words that a LOOP at `pc` may cover: at most four nested, inside the enclosing body and the image (R107). -/
def loopFits (pc body length : Nat) (loops : List LoopFrame) : Bool :=
  decide (loops.length < 4) && decide (pc + body < length) && match loops with
    | [] => true
    | f :: _ => decide (pc + body < f.first + f.body)

end Sys2Proof.Machine
end

