-- ==== Sys2Proof/Machine/MeshOps.lean ====
section
/-! DEFINITION. The mesh's geometry (R83, R111, R115, R123): neighbours of a router, bridges, and the coordinates of cores
and routers in refusal details (Table 4-11). -/

namespace Sys2Proof.Machine

/-- The outputs of a route-table entry (Table 3-9). -/
inductive MeshOut where
  | north | south | east | west | bridge
deriving DecidableEq, Repr

/-- The entry bit of an output. -/
def MeshOut.bitOf : MeshOut → Nat
  | .north => 30
  | .south => 29
  | .east => 28
  | .west => 27
  | .bridge => 25

/-- All outputs that lead to another router. -/
def meshOuts : List MeshOut := [.north, .south, .east, .west, .bridge]

/-- The logical column of a physical one, none where no presented core stands. -/
def logCol (s : State) (panel row pcol : Nat) : Option Nat := (List.range 125).find? fun c => physCol s panel row c == pcol

/-- Panel, row and physical column of a router's number. -/
def routerAt (r : Nat) : Nat × Nat × Nat := (r / 10240, r % 10240 / 128, r % 128)

/-- Two panels lie side by side in a layout row (R115), the first to the west. -/
def eastOf (s : State) (p : Nat) : Option Nat := if p % 4 ≠ 3 ∧ p + 1 < s.nPanels then some (p + 1) else none

/-- The panel to the west of a panel. -/
def westOf (p : Nat) : Option Nat := if p % 4 ≠ 0 then some (p - 1) else none

/-- The router that an output leads to, the input at which a flit arrives there, and whether a bridge is crossed; none at a
panel edge without a neighbour, and at a hem-die attachment. -/
def neighbour (s : State) (r : Nat) (o : MeshOut) : Option (Nat × MeshIn × Bool) :=
  let (p, row, c) := routerAt r
  match o with
  | .north => if row = 0 then none else some (r - 128, .south, false)
  | .south => if row = 79 then none else some (r + 128, .north, false)
  | .east => if c < 127 then some (r + 1, .west, false) else (eastOf s p).map fun q => (routerNum q row 0, .bridge, true)
  | .west => if 0 < c then some (r - 1, .east, false) else (westOf p).map fun q => (routerNum q row 127, .bridge, true)
  | .bridge =>
    match logCol s p row c with
    | none => none
    | some l =>
      if row = 79 ∧ p < 4 ∧ p + 4 < s.nPanels then some (routerNum (p + 4) 0 (physCol s (p + 4) 0 l), .bridge, true)
      else if row = 0 ∧ 4 ≤ p then some (routerNum (p - 4) 79 (physCol s (p - 4) 79 l), .bridge, true)
      else none

/-- A router's bridge output leads to a hem die (R123): row 0 of panels 0 to 3, row 79 of panels 4 to 7. -/
def attachment (r : Nat) : Option Nat :=
  let (p, row, _) := routerAt r
  if row = 0 ∧ p < 4 then some 0 else if row = 79 ∧ 4 ≤ p then some 1 else none

/-- A core's number. -/
def coreNum (c : CoreId) : Nat := 10000 * c.panel.val + 125 * c.row.val + c.col.val

/-- The core with a number. -/
def coreIdOf (k : Nat) : CoreId :=
  { panel := Fin.ofNat 8 (k / 10000), row := Fin.ofNat 80 (k % 10000 / 125), col := Fin.ofNat 125 (k % 125) }

/-- A router's number from its identity. -/
def routerIdNum (r : RouterId) : Nat := routerNum r.panel.val r.row.val r.col.val

/-- The router of a core. -/
def routerOfCore (s : State) (k : Nat) : Nat :=
  routerNum (k / 10000) (k % 10000 / 125) (physCol s (k / 10000) (k % 10000 / 125) (k % 125))

/-- The core of a router, none in pass-through. -/
def coreOfRouter (s : State) (r : Nat) : Option Nat :=
  let (p, row, c) := routerAt r
  (logCol s p row c).map fun l => 10000 * p + 125 * row + l

/-- The word of a core detail (Table 4-11). -/
def coreDetail (k : Nat) : Nat := bandOfCoreNum k * 1024 + k % 10000 / 125 % 5 * 128 + k % 125
where
  /-- The global band index of a core's number. -/
  bandOfCoreNum (k : Nat) : Nat := 16 * (k / 10000) + k % 10000 / 625

/-- The word of a physical router detail (Table 4-11). -/
def routerDetail (r : Nat) : Nat :=
  let (p, row, c) := routerAt r
  131072 + (16 * p + row / 5) * 1024 + row % 5 * 128 + c

end Sys2Proof.Machine
end

