-- ==== Sys2Proof/Machine/Num.lean ====
section
/-! DEFINITION. Numbers (02_numerics): the element formats of Table 2-1, rounding and overflow (R66 to R69), and exact
binary32 arithmetic (R99). A finite value is a sign, a magnitude and a power of two: ± m × 2^e. -/

namespace Sys2Proof.Machine

/-- A value of a floating-point format: a NaN with its binary32 payload, an infinity, or ± m × 2^e. -/
inductive FVal where
  | nan (bits : W32)
  | inf (neg : Bool)
  | fin (neg : Bool) (m : Nat) (e : Int)
deriving DecidableEq, Repr

/-- How a format uses its largest exponent (Table 2-1): as IEEE 754, E4M3's single NaN, or no special values. -/
inductive FKind where
  | ieee | e4m3 | finiteOnly
deriving DecidableEq, Repr

/-- A floating-point format of Table 2-1. -/
structure FFmt where
  ebits : Nat
  mbits : Nat
  bias : Nat
  kind : FKind
deriving DecidableEq, Repr

/-- FP32 of Table 2-1. -/
def fmtFp32 : FFmt := { ebits := 8, mbits := 23, bias := 127, kind := .ieee }

/-- BF16. -/
def fmtBf16 : FFmt := { ebits := 8, mbits := 7, bias := 127, kind := .ieee }

/-- FP16. -/
def fmtFp16 : FFmt := { ebits := 5, mbits := 10, bias := 15, kind := .ieee }

/-- FP8 E5M2. -/
def fmtE5m2 : FFmt := { ebits := 5, mbits := 2, bias := 15, kind := .ieee }

/-- FP8 E4M3. -/
def fmtE4m3 : FFmt := { ebits := 4, mbits := 3, bias := 7, kind := .e4m3 }

/-- MX E5M2: as E5M2, whose largest finite element bounds an MX write (R50). -/
def fmtE3m2 : FFmt := { ebits := 3, mbits := 2, bias := 3, kind := .finiteOnly }

/-- MX E2M3. -/
def fmtE2m3 : FFmt := { ebits := 2, mbits := 3, bias := 1, kind := .finiteOnly }

/-- MX E2M1. -/
def fmtE2m1 : FFmt := { ebits := 2, mbits := 1, bias := 1, kind := .finiteOnly }

/-- The largest finite magnitude's bits. -/
def FFmt.maxBits (f : FFmt) : Nat :=
  match f.kind with
  | .ieee => (2 ^ f.ebits - 1) * 2 ^ f.mbits - 1
  | .e4m3 => 2 ^ (f.ebits + f.mbits) - 2
  | .finiteOnly => 2 ^ (f.ebits + f.mbits) - 1

/-- The width of a format in bits. -/
def FFmt.width (f : FFmt) : Nat := 1 + f.ebits + f.mbits

/-- The canonical NaN's bits (Table 2-1); formats without one read as their largest magnitude. -/
def FFmt.nanBits (f : FFmt) : Nat :=
  match f.kind with
  | .ieee => (2 ^ f.ebits - 1) * 2 ^ f.mbits + 2 ^ (f.mbits - 1)
  | .e4m3 => 2 ^ (f.ebits + f.mbits) - 1
  | .finiteOnly => 2 ^ (f.ebits + f.mbits) - 1

/-- The sign bit of a magnitude's bits. -/
def FFmt.signed (f : FFmt) (neg : Bool) (mag : Nat) : Nat := if neg then 2 ^ (f.ebits + f.mbits) + mag else mag

/-- The value that bits encode (R47, R48): subnormals at their value. -/
def FFmt.decode (f : FFmt) (w : Nat) : FVal :=
  let man := w % 2 ^ f.mbits
  let ex := w / 2 ^ f.mbits % 2 ^ f.ebits
  let neg := w / 2 ^ (f.ebits + f.mbits) % 2 == 1
  let top := ex + 1 == 2 ^ f.ebits
  if top ∧ f.kind = .ieee then
    (if man = 0 then .inf neg
     else .nan (BitVec.ofNat 32 (if f.mbits = 23 then w else fmtFp32.nanBits)))
  else if top ∧ f.kind = .e4m3 ∧ man + 1 = 2 ^ f.mbits then .nan (BitVec.ofNat 32 fmtFp32.nanBits)
  else if ex = 0 then .fin neg man (1 - (f.bias : Int) - f.mbits)
  else .fin neg (2 ^ f.mbits + man) ((ex : Int) - f.bias - f.mbits)

/-- The value of a binary32 word. -/
def f32 (w : W32) : FVal := fmtFp32.decode w.toNat

/-! Rounding (R66 to R69). -/

/-- m × 2^e as a whole number of units 2^u, rounded in a mode; `rv` is the 24-bit random value of R68. -/
def roundUnits (mode : Rnd) (rv m : Nat) (e u : Int) : Nat :=
  if u ≤ e then m * 2 ^ (e - u).toNat
  else
    let d := (u - e).toNat
    let q := m / 2 ^ d
    let r := m % 2 ^ d
    match mode with
    | .rz => q
    | .rne => if 2 * r > 2 ^ d ∨ (2 * r = 2 ^ d ∧ q % 2 = 1) then q + 1 else q
    | .sr => if rv < r * 2 ^ 24 / 2 ^ d then q + 1 else q

/-- ⌊log2⌋ of m × 2^e, m not 0. -/
def topExp (m : Nat) (e : Int) : Int := (Nat.log2 m : Int) + e

/-- What a narrowing write gives: the bits and what the tallies count (R73). -/
structure Narrowed where
  bits : Nat
  sat : Bool := false
  nf : Bool := false
  ftz : Bool := false
  exp : Option Int := none
deriving DecidableEq, Repr

/-- The bits of ± m × 2^e rounded to a format, without its overflow: magnitudes past the largest finite one keep counting
up, as the exponent range unbounded has it (R67). -/
def FFmt.roundMag (f : FFmt) (mode : Rnd) (rv m : Nat) (e : Int) : Nat :=
  if m = 0 then 0
  else
    let emin : Int := 1 - (f.bias : Int)
    let u := max (topExp m e) emin - f.mbits
    (u + f.mbits + f.bias - 1).toNat * 2 ^ f.mbits + roundUnits mode rv m e u

/-- A finite value narrowed to a format (R66 to R69, Table 2-6). One that overflows to an infinity or a NaN is a non-finite value
written, and gives no MAXEXP (DEDUCED, unsafe, assumption log 85). -/
def FFmt.narrowFin (f : FFmt) (mode : Rnd) (ieee : Bool) (rv : Nat) (neg : Bool) (m : Nat) (e : Int) : Narrowed :=
  if m = 0 then { bits := f.signed neg 0 }
  else
    let b := f.roundMag mode rv m e
    if f.maxBits < b then
      (if ieee ∧ f.kind ≠ .finiteOnly ∧ mode ≠ .rz then
        { bits := if f.kind = .e4m3 then f.nanBits else f.signed neg (f.maxBits + 1), nf := true }
       else { bits := f.signed neg f.maxBits, sat := true, exp := some (topExp m e) })
    else { bits := f.signed neg b, ftz := b == 0, exp := some (topExp m e) }

/-- A value narrowed to a floating-point format (R75, R77). -/
def FFmt.narrow (f : FFmt) (mode : Rnd) (ieee : Bool) (rv : Nat) : FVal → Narrowed
  | .nan _ => { bits := f.nanBits, nf := true }
  | .inf neg => { bits := if f.kind = .ieee then f.signed neg (f.maxBits + 1) else f.nanBits, nf := true }
  | .fin neg m e => f.narrowFin mode ieee rv neg m e

/-- A finite value narrowed to a two's-complement integer of n bits (R66, R67, R69). -/
def narrowInt (n : Nat) (mode : Rnd) (rv : Nat) (neg : Bool) (m : Nat) (e : Int) : Narrowed :=
  if m = 0 then { bits := 0 }
  else
    let q := roundUnits mode rv m e 0
    let top := if neg then 2 ^ (n - 1) else 2 ^ (n - 1) - 1
    let v := min q top
    { bits := if neg then (2 ^ n - v) % 2 ^ n else v, sat := decide (top < q), ftz := q == 0, exp := some (topExp m e) }

/-! Exact binary32 arithmetic (R99), rounded once by RNE. -/

/-- ± m × 2^e rounded to binary32 by RNE, IEEE 754 overflow. -/
def toF32 (neg : Bool) (m : Nat) (e : Int) : W32 := BitVec.ofNat 32 (fmtFp32.narrowFin .rne true 0 neg m e).bits

/-- The canonical NaN of binary32. -/
def f32NaN : W32 := BitVec.ofNat 32 fmtFp32.nanBits

/-- An infinity of binary32. -/
def f32Inf (neg : Bool) : W32 := if neg then 0xFF800000 else 0x7F800000

/-- A zero of binary32. -/
def f32Zero (neg : Bool) : W32 := if neg then 0x80000000 else 0

/-- The word is a NaN. -/
def isNaN (w : W32) : Bool := match f32 w with
  | .nan _ => true
  | _ => false

/-- The word is neither an infinity nor a NaN. -/
def isFinite (w : W32) : Bool := match f32 w with
  | .fin _ _ _ => true
  | _ => false

/-- A NaN made quiet. -/
def quiet (w : W32) : W32 := w ||| 0x00400000

/-- The NaN that two operands, one of them a NaN, propagate (R75): of two NaNs, which is a free value. -/
def nanOf (a b : W32) : W32 :=
  if ¬ isNaN a then quiet b
  else if ¬ isNaN b then quiet a
  else if Config.nanPickSecond a b then quiet b else quiet a

/-- The sum of two finite values, exact: sign, magnitude and exponent; an exact zero is +0, but −0 + −0 is −0 (R48). -/
def addFin (na : Bool) (ma : Nat) (ea : Int) (nb : Bool) (mb : Nat) (eb : Int) : Bool × Nat × Int :=
  let e := min ea eb
  let x : Int := (ma * 2 ^ (ea - e).toNat : Nat)
  let y : Int := (mb * 2 ^ (eb - e).toNat : Nat)
  let z := (if na then -x else x) + (if nb then -y else y)
  if z = 0 then (na && nb && ma == 0 && mb == 0, 0, e) else (decide (z < 0), z.natAbs, e)

/-- The sum of two values; an infinity less itself is invalid. -/
def addVal (a b : FVal) : FVal :=
  match a, b with
  | .nan x, _ => .nan x
  | _, .nan x => .nan x
  | .inf x, .inf y => if x = y then .inf x else .nan f32NaN
  | .inf x, _ => .inf x
  | _, .inf x => .inf x
  | .fin na ma ea, .fin nb mb eb => let (n, m, e) := addFin na ma ea nb mb eb; .fin n m e

/-- The product of two values, exact; zero times an infinity is invalid. -/
def mulVal (a b : FVal) : FVal :=
  match a, b with
  | .nan x, _ => .nan x
  | _, .nan x => .nan x
  | .inf x, .inf y => .inf (x != y)
  | .inf x, .fin n m _ => if m = 0 then .nan f32NaN else .inf (x != n)
  | .fin n m _, .inf x => if m = 0 then .nan f32NaN else .inf (x != n)
  | .fin na ma ea, .fin nb mb eb => .fin (na != nb) (ma * mb) (ea + eb)

/-- A value with its sign turned. -/
def negVal : FVal → FVal
  | .nan x => .nan x
  | .inf n => .inf (!n)
  | .fin n m e => .fin (!n) m e

/-- A value as a binary32 word, rounded by RNE. -/
def valF32 : FVal → W32
  | .nan x => quiet x
  | .inf n => f32Inf n
  | .fin n m e => toF32 n m e

/-- A two-operand operation with the NaN rule of R75. -/
def nanRule (f : FVal → FVal → FVal) (a b : W32) : W32 := if isNaN a ∨ isNaN b then nanOf a b else valF32 (f (f32 a) (f32 b))

/-- FADD. -/
def f32Add (a b : W32) : W32 := nanRule addVal a b

/-- FSUB. -/
def f32Sub (a b : W32) : W32 := nanRule (fun x y => addVal x (negVal y)) a b

/-- FMUL. -/
def f32Mul (a b : W32) : W32 := nanRule mulVal a b

/-- FMA: a × b + c, rounded once. -/
def f32Fma (a b c : W32) : W32 :=
  if isNaN a ∨ isNaN b then (let p := nanOf a b; if isNaN c then nanOf p c else p)
  else if isNaN c then quiet c
  else valF32 (addVal (mulVal (f32 a) (f32 b)) (f32 c))

/-- A quotient of magnitudes with its remainder folded into the last bit, so that one rounding to 24 bits is correct. -/
def quotient (ma : Nat) (ea : Int) (mb : Nat) (eb : Int) : Nat × Int :=
  let s := Nat.log2 mb + 30
  let q := ma * 2 ^ s / mb
  (2 * q + (if ma * 2 ^ s % mb = 0 then 0 else 1), ea - eb - s - 1)

/-- The quotient of two values. -/
def divVal (a b : FVal) : FVal :=
  match a, b with
  | .nan x, _ => .nan x
  | _, .nan x => .nan x
  | .inf _, .inf _ => .nan f32NaN
  | .inf x, .fin n _ _ => .inf (x != n)
  | .fin n _ _, .inf x => .fin (n != x) 0 0
  | .fin na ma ea, .fin nb mb eb =>
    if mb = 0 then (if ma = 0 then .nan f32NaN else .inf (na != nb))
    else let (m, e) := quotient ma ea mb eb; .fin (na != nb) m e

/-- FDIV. -/
def f32Div (a b : W32) : W32 := nanRule divVal a b

/-- ⌊√n⌋, found bit by bit from bit k down. -/
def isqrtFrom (n : Nat) : Nat → Nat → Nat
  | 0, r => r
  | k + 1, r => let t := r + 2 ^ k; isqrtFrom n k (if t * t ≤ n then t else r)

/-- ⌊√n⌋. -/
def isqrt (n : Nat) : Nat := isqrtFrom n (Nat.log2 n / 2 + 1) 0

/-- √(m × 2^e) with at least 30 places, the remainder folded into the last bit. -/
def rootMag (m : Nat) (e : Int) : Nat × Int :=
  let s : Int := if (e - 60) % 2 = 0 then 60 else 61
  let n := m * 2 ^ s.toNat
  let r := isqrt n
  (2 * r + (if r * r = n then 0 else 1), (e - s) / 2 - 1)

/-- SQRT: of a negative value, invalid; of a zero, itself. -/
def f32Sqrt (a : W32) : W32 :=
  match f32 a with
  | .nan x => quiet x
  | .inf n => if n then f32NaN else a
  | .fin n m e => if m = 0 then a else if n then f32NaN else let (r, x) := rootMag m e; toF32 false r x

/-- The order of two finite or infinite values as whole numbers of the same unit. -/
def f32Key (a : W32) : Int := if bit31 a then -((a.toNat % 2 ^ 31 : Nat) : Int) else (a.toNat % 2 ^ 31 : Nat)
where
  /-- The sign bit. -/
  bit31 (a : W32) : Bool := a.getLsbD 31

/-- va < vb; a NaN is unordered. -/
def f32Lt (a b : W32) : Bool := !isNaN a && !isNaN b && decide (f32Key a < f32Key b)

/-- va = vb; zeros of both signs are equal. -/
def f32Eq (a b : W32) : Bool := !isNaN a && !isNaN b && decide (f32Key a = f32Key b)

/-- va ≤ vb. -/
def f32Le (a b : W32) : Bool := !isNaN a && !isNaN b && decide (f32Key a ≤ f32Key b)

/-- FMAX (IEEE 754 maximum): NaN when either input is; −0 below +0. -/
def f32Max (a b : W32) : W32 :=
  if isNaN a ∨ isNaN b then nanOf a b
  else if f32Key a = f32Key b then (if a.getLsbD 31 then b else a)
  else if f32Key a < f32Key b then b else a

/-- FMIN (IEEE 754 minimum). -/
def f32Min (a b : W32) : W32 :=
  if isNaN a ∨ isNaN b then nanOf a b
  else if f32Key a = f32Key b then (if a.getLsbD 31 then a else b)
  else if f32Key a < f32Key b then a else b

/-- An integer as binary32, by RNE (CVT.I2F). -/
def f32OfInt (i : Int) : W32 := toF32 (decide (i < 0)) i.natAbs 0

end Sys2Proof.Machine
end

