-- ==== Sys2Proof/Machine/WordDecode.lean ====
section
/-! DEFINITION. The instruction word of a core (R103, Tables 3-4 to 3-7) as the load-time check of R110 reads it: what each
slot issues, none for an encoding that is refused with reason ENCODING. -/

namespace Sys2Proof.Machine

/-- Bits hi to lo of a number. -/
def cut (w hi lo : Nat) : Nat := (w >>> lo) % 2 ^ (hi + 1 - lo)

/-- A number as an index below n. -/
def idx (n : Nat) [NeZero n] (v : Nat) : Fin n := Fin.ofNat n v

/-- Operand B of LOAD and LDSC (Table 3-4). Bits [12:3] have no use where BSRC is 0, and Table 3-4 does not mark them RSV; a nonzero
value there is refused as a field value out of range (DESIGN CHOICE, unsafe, assumption log 87). -/
def decodeB (w : Nat) : Option BSource :=
  if cut w 0 0 ≠ 0 then none
  else if cut w 13 13 = 1 then some (.scratch (BitVec.ofNat 12 (cut w 12 1)))
  else if cut w 12 3 ≠ 0 then none
  else some (.bolt (idx 4 (cut w 2 1)))

/-- The format codes of Table 3-2. -/
def decodeFmt : Nat → Option MacFmt
  | 0 => some .e4m3
  | 1 => some .e5m2
  | 2 => some .e4m3e5m2
  | 3 => some .e5m2e4m3
  | 4 => some .mxE4m3
  | 5 => some .mxE5m2
  | 6 => some .mxE3m2
  | 7 => some .mxE2m3
  | 8 => some .mxE2m1
  | 9 => some .bf16
  | 10 => some .fp16
  | 11 => some .fp32
  | 12 => some .int8
  | _ => none

/-- The rounding codes of Tables 3-5 and 3-6. -/
def decodeRnd : Nat → Option Rnd
  | 0 => some .rne
  | 1 => some .rz
  | 2 => some .sr
  | _ => none

/-- The drain formats of SETDC (Table 3-6). -/
def decodeDrain : Nat → Option DrainFmt
  | 0 => some .fp32
  | 1 => some .bf16
  | 2 => some .fp16
  | 3 => some .e4m3
  | 4 => some .e5m2
  | 5 => some .int32
  | 6 => some .int8
  | _ => none

/-- The array slot (Table 3-4). -/
def decodeArray (i : Issue) (w : Nat) : Option Instr :=
  match cut w 31 27 with
  | 0 => if w = 0 then some (.nop i .array) else none
  | 1 => (decodeB w).map fun b => .load i (idx 2 (cut w 26 26)) (BitVec.ofNat 12 (cut w 25 14)) b
  | 2 => (decodeB w).map fun b => .ldsc i (idx 2 (cut w 26 26)) (BitVec.ofNat 12 (cut w 25 14)) b
  | 3 => if cut w 19 0 ≠ 0 then none
    else (decodeFmt (cut w 23 20)).map fun f =>
      .mac i (idx 2 (cut w 26 26)) (idx 2 (cut w 25 25)) (idx 2 (cut w 24 24)) f
  | 4 =>
    let row := cut w 24 21
    let form := cut w 19 16
    if cut w 15 0 ≠ 0 ∨ 1 < form ∨ (form = 1 ∧ row % 2 = 1) then none
    else some (.accin i (idx 2 (cut w 26 26)) (idx 2 (cut w 25 25)) (idx 16 row) (idx 2 (cut w 20 20))
      (if form = 0 then .fp32 else .gs16))
  | 5 => if cut w 6 0 ≠ 0 then none
    else some (.drain i (idx 2 (cut w 26 26)) (idx 16 (cut w 25 22)) (BitVec.ofNat 12 (cut w 21 10)) (idx 4 (cut w 9 8))
      (cut w 7 7 == 1))
  | 6 => if cut w 25 0 ≠ 0 then none else some (.clear i (idx 2 (cut w 26 26)))
  | 7 => if cut w 15 0 ≠ 0 then none else some (.setw i (idx 2 (cut w 26 26)) (BitVec.ofNat 10 (cut w 25 16)))
  | _ => none

/-- The vector opcodes (Table 3-3). -/
def vectorOp (i : Issue) (v : VOp) : Nat → Option Instr
  | 0x00 => some (.nop i .vector)
  | 0x01 => some (.fadd i v)
  | 0x02 => some (.fsub i v)
  | 0x03 => some (.fmul i v)
  | 0x04 => some (.fma i v)
  | 0x05 => some (.fmax i v)
  | 0x06 => some (.fmin i v)
  | 0x07 => some (.fabs i v)
  | 0x08 => some (.fneg i v)
  | 0x09 => some (.fcmplt i v)
  | 0x0A => some (.fcmpeq i v)
  | 0x0B => some (.fcmple i v)
  | 0x0C => some (.sel i v)
  | 0x0D => some (.rsum i v)
  | 0x0E => some (.rmax i v)
  | 0x0F => some (.bcast i v)
  | 0x10 => some (.exp2 i v)
  | 0x11 => some (.exp i v)
  | 0x12 => some (.log2 i v)
  | 0x13 => some (.ln i v)
  | 0x14 => some (.rcp i v)
  | 0x15 => some (.rsqrt i v)
  | 0x16 => some (.sqrt i v)
  | 0x17 => some (.fdiv i v)
  | 0x18 => some (.tanh i v)
  | 0x19 => some (.sigmoid i v)
  | 0x20 => some (.salpha i v)
  | 0x21 => some (.sexp i v)
  | 0x22 => some (.sfin i v)
  | 0x23 => some (.slse i v)
  | 0x30 => some (.iadd i v)
  | 0x31 => some (.isub i v)
  | 0x32 => some (.imul i v)
  | 0x33 => some (.and i v)
  | 0x34 => some (.or i v)
  | 0x35 => some (.xor i v)
  | 0x36 => some (.shl i v)
  | 0x37 => some (.shr i v)
  | 0x38 => some (.sra i v)
  | 0x39 => some (.icmplt i v)
  | 0x3A => some (.icmpeq i v)
  | 0x3B => some (.imin i v)
  | 0x3C => some (.imax i v)
  | 0x40 => some (.nrwBf16 i v)
  | 0x41 => some (.nrwFp16 i v)
  | 0x42 => some (.nrwE4m3 i v)
  | 0x43 => some (.nrwE5m2 i v)
  | 0x44 => some (.nrwInt8 i v)
  | 0x45 => some (.nrwInt32 i v)
  | 0x46 => some (.cvtI2f i v)
  | 0x48 => some (.mxeE4m3 i v)
  | 0x49 => some (.mxeE5m2 i v)
  | 0x4A => some (.mxeE3m2 i v)
  | 0x4B => some (.mxeE2m3 i v)
  | 0x4C => some (.mxeE2m1 i v)
  | 0x4D => some (.gse i v)
  | 0x50 => some (.widBf16 i v)
  | 0x51 => some (.widFp16 i v)
  | 0x52 => some (.widE4m3 i v)
  | 0x53 => some (.widE5m2 i v)
  | 0x54 => some (.widInt8 i v)
  | 0x55 => some (.widMx i v)
  | 0x60 => some (.rand i v)
  | _ => none

/-- A compare may not name mask 0 (Table 3-3); registers past the file are out of range for GSE and RAND. -/
def vectorOk (op : Nat) (v : VOp) : Bool :=
  if op = 0x09 ∨ op = 0x0A ∨ op = 0x0B ∨ op = 0x39 ∨ op = 0x3A then v.vd.val % 8 != 0
  else if op = 0x4D then decide (v.vd.val ≤ 29) && decide (v.va.val ≤ 30)
  else if op = 0x60 then decide (v.vd.val ≤ 30)
  else true

/-- The vector slot (Table 3-5). -/
def decodeVector (i : Issue) (w : Nat) : Option Instr :=
  match decodeRnd (cut w 6 5) with
  | none => none
  | some r =>
    let v : VOp := { vd := idx 32 (cut w 24 20), va := idx 32 (cut w 19 15), vb := idx 32 (cut w 14 10),
                     mask := idx 8 (cut w 9 7), rnd := r, ieee := cut w 4 4 == 1, tg := idx 4 (cut w 3 2),
                     srs := idx 4 (cut w 1 0) }
    if vectorOk (cut w 31 25) v then vectorOp i v (cut w 31 25) else none

/-- The sizes of VST (Table 3-6). -/
def decodeSize : Nat → VstSize
  | 0 => .b16
  | 1 => .b32
  | 2 => .b64
  | _ => .b128

/-- The move slot (Table 3-6). -/
def decodeMove (i : Issue) (w : Nat) : Option Instr :=
  match cut w 35 30 with
  | 0x00 => if w = 0 then some (.nop i .move) else none
  | 0x01 => if cut w 14 0 ≠ 0 then none else some (.vld i (idx 32 (cut w 29 25)) (BitVec.ofNat 10 (cut w 24 15)))
  | 0x02 => if cut w 10 0 ≠ 0 then none
    else some (.vst i (idx 32 (cut w 29 25)) (BitVec.ofNat 12 (cut w 24 13)) (decodeSize (cut w 12 11)))
  | 0x03 => if cut w 1 0 ≠ 0 then none
    else some (.gather i (idx 32 (cut w 29 25)) (idx 4 (cut w 24 23)) (BitVec.ofNat 8 (cut w 22 15))
      (BitVec.ofNat 8 (cut w 14 7)) (idx 32 (cut w 6 2)))
  | 0x04 =>
    if cut w 9 0 ≠ 0 then none
    else if cut w 29 29 = 0 then
      some (.msend i (.scratch (BitVec.ofNat 11 (cut w 28 18))) (BitVec.ofNat 8 (cut w 17 10)))
    else if cut w 21 18 ≠ 0 then none
    else some (.msend i (.vreg (idx 32 (cut w 28 24)) (idx 4 (cut w 23 22))) (BitVec.ofNat 8 (cut w 17 10)))
  | 0x05 => some (.bset i (idx 4 (cut w 29 28)) (BitVec.ofNat 20 (cut w 27 8)) (BitVec.ofNat 8 (cut w 7 0)))
  | 0x06 => if cut w 17 0 ≠ 0 then none else some (.bld i (idx 4 (cut w 29 28)) (BitVec.ofNat 10 (cut w 27 18)))
  | 0x07 => if cut w 5 0 ≠ 0 then none else some (.hrd i (BitVec.ofNat 14 (cut w 29 16)) (BitVec.ofNat 10 (cut w 15 6)))
  | 0x08 => if cut w 5 0 ≠ 0 then none else some (.hwr i (BitVec.ofNat 14 (cut w 29 16)) (BitVec.ofNat 10 (cut w 15 6)))
  | 0x09 =>
    match decodeDrain (cut w 27 24), decodeRnd (cut w 23 22) with
    | some f, some r =>
      if cut w 8 0 ≠ 0 ∨ cut w 20 13 = 128 then none
      else some (.setdc i (idx 4 (cut w 29 28)) f r (cut w 21 21 == 1) (BitVec.ofNat 8 (cut w 20 13)) (idx 4 (cut w 12 11))
        (idx 4 (cut w 10 9)))
    | _, _ => none
  | 0x0A => if cut w 1 0 ≠ 0 then none
    else some (.stream i (idx 4 (cut w 29 28)) (BitVec.ofNat 16 (cut w 27 12)) (BitVec.ofNat 10 (cut w 11 2)))
  | 0x0B => if cut w 7 0 ≠ 0 then none else some (.draw i (idx 4 (cut w 29 28)) (BitVec.ofNat 20 (cut w 27 8)))
  | 0x0C => if cut w 14 0 ≠ 0 ∨ cut w 29 27 = 0 then none
    else some (.lmask i (idx 8 (cut w 29 27)) (BitVec.ofNat 12 (cut w 26 15)))
  | _ => none

/-- The comparisons of PSET (R106). -/
def decodeCmp : Nat → PredCmp
  | 0 => .eq
  | 1 => .lt
  | 2 => .ge
  | _ => .andZero

/-- The control slot (Table 3-7), PRED and GATE apart. Bits [7:4] of a LOOP with CSRC 1 have no use, and Table 3-7 does not mark
them RSV; a nonzero value there is refused (DESIGN CHOICE, unsafe, assumption log 87). -/
def decodeControl (i : Issue) (w : Nat) : Option Instr :=
  let o := cut w 17 0
  match cut w 21 18 with
  | 0 => if o ≠ 0 then none else some (.nop i .control)
  | 1 =>
    if cut o 8 8 = 0 then some (.loop i (BitVec.ofNat 9 (cut o 17 9)) (.imm (BitVec.ofNat 8 (cut o 7 0))))
    else if cut o 7 4 ≠ 0 then none
    else some (.loop i (BitVec.ofNat 9 (cut o 17 9)) (.reg (idx 16 (cut o 3 0))))
  | 2 => some (.setc i (idx 16 (cut o 17 14)) (BitVec.ofNat 14 (cut o 13 0)))
  | 3 => if cut o 17 15 = 0 then none
    else some (.pset i (idx 8 (cut o 17 15)) (idx 4 (cut o 14 13)) (decodeCmp (cut o 12 11)) (BitVec.ofNat 11 (cut o 10 0)))
  | 4 => if o ≠ 0 then none else some (.waits i)
  | 5 => if cut o 17 3 ≠ 0 then none else some (.phase i (idx 8 (cut o 2 0)))
  | 6 => some (.delay i (BitVec.ofNat 18 o))
  | _ => none

/-- A decoded word: what its array, vector, move and control slots issue. -/
structure Word4 where
  array : Instr
  vector : Instr
  move : Instr
  control : Instr
deriving DecidableEq, Repr

/-- The issue of a word at a core and cycle; the load-time check looks at neither predicates nor check codes. -/
def plainIssue (core : CoreId) (cycle : Nat) : Issue :=
  { core := core, cycle := cycle, pred := 0, gated := false, ecc := [], boltEcc := [] }

/-- The issue of a slot of a word under its PRED and GATE fields. -/
def wordIssue (core : CoreId) (cycle w gateBit : Nat) : Issue :=
  { plainIssue core cycle with pred := idx 8 (cut w 127 125), gated := cut w gateBit gateBit == 1 }

/-- A word decoded (R103). -/
def decodeWord (core : CoreId) (cycle w : Nat) : Option Word4 :=
  match decodeArray (wordIssue core cycle w 124) (cut w 31 0), decodeVector (wordIssue core cycle w 123) (cut w 63 32),
      decodeMove (wordIssue core cycle w 122) (cut w 99 64), decodeControl (plainIssue core cycle) (cut w 127 100) with
  | some a, some v, some m, some c => some { array := a, vector := v, move := m, control := c }
  | _, _, _, _ => none

end Sys2Proof.Machine
end

