-- ==== Sys2Proof/Machine/CoreOps.lean ====
section
/-! DEFINITION. What the slots of an instruction word share (03_core, 02_numerics): issue and predication, late writes,
scratch, the bolt streams, bobbin draws and tallies. -/

namespace Sys2Proof.Machine

/-! Bobbins (R70 to R72). -/

/-- A 64-bit word rotated left. -/
def rol64 (x : W64) (k : Nat) : W64 := (x <<< k) ||| (x >>> (64 - k))

/-- A 64-bit word rotated right. -/
def ror64 (x : W64) (k : Nat) : W64 := (x >>> k) ||| (x <<< (64 - k))

/-- The round keys of R70 from round i on. -/
def bobbinKeys : Nat → W64 → W64 → W64 → List W64
  | 0, _, _, k => [k]
  | n + 1, i, l, k =>
    let l := (ror64 l 8 + k) ^^^ i
    k :: bobbinKeys n (i + 1) l (rol64 k 12 ^^^ l)

/-- The rounds of R70. -/
def bobbinRounds : List W64 → W64 → W64 → W64
  | [], _, y => y
  | k :: ks, x, y =>
    let x := (ror64 x 8 + y) ^^^ k
    bobbinRounds ks x (rol64 y 12 ^^^ x)

/-- The bobbin function (R70). -/
def bobbin (seed stream counter : W64) : W64 := bobbinRounds (bobbinKeys 9 0 stream seed) counter 0x9E3779B97F4A7C15

/-- The step or stitch field of the counter (R71): the step number of a training context, the stitches since a serving one
was created. -/
def drawField (s : State) (n : Nat) : BitVec 44 := if (s.ctx n).serving then (s.ctx n).age else (s.train n).step

/-- The pattern's own logical coordinates of a core (R125): panel, row, column. -/
def logicalCore (s : State) (n c : Nat) : Nat × Nat × Nat :=
  let g := bandOfCore c
  let placed : List (Nat × Nat) := match (s.core c).run with
    | some r => match patternOf s n r.handle with
      | some p => p.logical
      | none => []
    | none => []
  let b := match placed.find? fun x => x.1 == g with
    | some x => x.2
    | none => g
  (b / 16, 5 * (b % 16) + c % 625 / 125, c % 125)

/-- The stream number of a draw (Table 2-7). -/
def streamNumber (s : State) (n c : Nat) (r : BobbinReg) (lane : Nat) : W64 :=
  let (p, row, col) := logicalCore s n c
  at64 48 r.purpose.toNat ||| at64 32 (fld (s.ctx n).rank 15 0) ||| at64 29 p ||| at64 22 row ||| at64 15 col |||
    at64 10 lane ||| at64 0 r.sub.toNat

/-- The stream register serves a collective program (R72, R255): its PURPOSE is one of those reserved for firmware, which only a
pattern that calls the library may write (R102). -/
def forLibrary (r : BobbinReg) : Bool := decide (0xFF00 ≤ r.purpose.toNat)

/-- The stream number of a collective program's draw (R72, R255): bits [47:0] are the owner's rank and the block index. -/
def libraryStream (s : State) (c : Nat) (r : BobbinReg) : W64 :=
  let place : BitVec 48 := match (s.core c).run with
    | some k => Config.combineStream k.handle c k.nextCycle
    | none => Config.combineStream 0 c 0
  at64 48 r.purpose.toNat ||| at64 0 place.toNat

/-- One draw of a core: stream register, index beyond the one held, lane (R71, R102). A collective program's draw index passes
on with every value of a block instead, the lane having no field (R255). -/
def draw (s : State) (n c srs : Nat) (ahead : Nat) (lane : Nat) : W64 :=
  let r := vAt (s.core c).srs srs {}
  let (stream, index) := if forLibrary r then (libraryStream s c r, r.index.toNat + 32 * ahead + lane)
    else (streamNumber s n c r lane, r.index.toNat + ahead)
  bobbin (s.ctx n).seed stream (at64 20 (drawField s n).toNat ||| at64 0 (index % 2 ^ 20))

/-- The 24-bit Rv of a stochastic rounding (R71). -/
def drawRv (s : State) (n c srs ahead lane : Nat) : Nat := (draw s n c srs ahead lane).toNat % 2 ^ 24

/-- The draw index advances (R102). -/
def advanceDraw (srs k : Nat) (c : Core) : Core :=
  { c with srs := vMod c.srs srs fun r => { r with index := r.index + BitVec.ofNat 20 k } }

/-! Late writes (R92). -/

/-- New lanes where the mask is set, the old ones elsewhere. -/
def merge (mask : W32) (old new : List W32) : List W32 :=
  (List.range 32).map fun i => if mask.getLsbD i then new.getD i 0 else old.getD i 0

/-- A late write reaches its registers. -/
def lateWrite (k : Core) (w : Pending) : Core :=
  match w.write with
  | .pair p a b => { k with ar := k.ar.set p a, br := k.br.set p b }
  | .scales s a b => { k with sa := k.sa.set s a, sb := k.sb.set s b }
  | .vreg r live l => { k with vr := vMod k.vr r.val fun old => merge live old l }
  | .mask m b => { k with masks := k.masks.set m b }

/-- Every write due at a core cycle reaches its registers. -/
def settle (cycle : Nat) (k : Core) : Core :=
  let due := k.pending.filter fun w => decide (w.due ≤ cycle)
  due.foldl lateWrite { k with pending := k.pending.filter fun w => !decide (w.due ≤ cycle) }

/-- A write takes its place among those waiting, in the order they fall due. -/
def insertPending (w : Pending) : List Pending → List Pending
  | [] => [w]
  | x :: l => if w.due < x.due then w :: x :: l else x :: insertPending w l

/-- A write is put off to a cycle. -/
def later (due : Nat) (w : LateWrite) (k : Core) : Core :=
  { k with pending := insertPending { due := due, write := w } k.pending }

/-- The 32 lanes of a vector register. -/
def registerLanes (k : Core) (r : Nat) : List W32 := (List.range 32).map fun j => (vAt k.vr r []).getD j 0

/-! Issue (R106, R108). -/

/-- The instruction-store word that the core's run issues next. -/
def storeWord (s : State) (c : Nat) (r : CoreRun) : Nat :=
  match patternOf s r.ctx.val r.handle with
  | some p => match p.cores.find? fun x => x.core == c with
    | some x => x.words.getD r.pc 0
    | none => 0
  | none => 0

/-- The slot of the word holds the command, under the word's PRED and GATE (R103). -/
def slotHolds (cmd : Instr) (i : Issue) (w : Nat) : Bool :=
  let under (gate : Nat) : Bool := i.pred == idx 8 (cut w 127 125) && i.gated == (cut w gate gate == 1)
  (under 124 && decide (decodeArray i (cut w 31 0) = some cmd)) ||
    (under 123 && decide (decodeVector i (cut w 63 32) = some cmd)) ||
    (under 122 && decide (decodeMove i (cut w 99 64) = some cmd)) || decide (decodeControl i (cut w 127 100) = some cmd)

/-- The core issues the command at its cycle (R108): its run has come to a word at that cycle, and that word, as the instruction
store holds it, has the command in one of its slots (R40). -/
def issuesNow (s : State) (cmd : Instr) (i : Issue) : Bool :=
  let c := coreNum i.core
  match (s.core c).run with
  | some r => !r.waiting && r.nextCycle == i.cycle &&
    slotHolds cmd i (Tab.getD (s.core c).istore (storeWord s c r) 0).toNat
  | none => false

/-- The context whose pattern the core runs. -/
def runCtx (k : Core) : Nat := match k.run with
  | some r => r.ctx.val
  | none => 0

/-- The slot is gated off: PRED governs it and is false (R106). -/
def gatedOff (k : Core) (i : Issue) : Bool := i.gated && !predTrue k.preds k.loops i.pred.val

/-- A slot issues: registers due are written, and the slot has its effect on context, core and state unless it is gated
off. A command that the core does not issue at its cycle does nothing. -/
def onIssue (cmd : Instr) (i : Issue) (f : Nat → Nat → State → State) (s : State) : State :=
  let c := coreNum i.core
  if ¬ issuesNow s cmd i then s
  else
    let s := s.onCore c (settle i.cycle)
    if gatedOff (s.core c) i then s else f (runCtx (s.core c)) c s

/-- A slot that changes its core only. -/
def onIssueCore (cmd : Instr) (i : Issue) (f : Core → Core) (s : State) : State := onIssue cmd i (fun _ c s => s.onCore c f) s

/-! Scratch (R89 to R91). -/

/-- The bytes of scratch: 48 KiB. -/
def scratchBytes : Nat := 49152

/-- A write took a byte in a core cycle. -/
def ScratchWrite.takes (w : ScratchWrite) (cycle a : Nat) : Bool :=
  w.cycle == cycle && decide (w.addr ≤ a) && decide (a < w.addr + w.old.length)

/-- A byte of scratch as a read of a core cycle finds it: from before the writes of that cycle (R90). -/
def scratchByte (k : Core) (cycle a : Nat) : Byte :=
  match k.recent.find? fun w => w.takes cycle a with
  | some w => w.old.getD (a - w.addr) 0
  | none => Mem.byte k.scratch a

/-- Bytes of scratch read in a core cycle; beyond its end they read zero. -/
def scratchRead (k : Core) (cycle addr n : Nat) : List Byte :=
  (List.range n).map fun j => if addr + j < scratchBytes then scratchByte k cycle (addr + j) else 0

/-- The bytes that a write of a rank leaves in place of its own, where a write of the same cycle goes before it (R90). -/
def scratchKept (k : Core) (cycle rank addr : Nat) (bs : List Byte) : List Byte :=
  bs.zipIdx.map fun x =>
    if k.recent.any fun w => w.takes cycle (addr + x.2) && decide (rank < w.rank) then Mem.byte k.scratch (addr + x.2) else x.1

/-- Bytes written to scratch in a core cycle, by an instruction (0), a mesh arrival (1) or an HBM return (2): a byte that two
reach in one cycle has the value of the later in this order (R90). Beyond the end of scratch they are ignored. -/
def scratchWrite (cycle rank addr : Nat) (bs : List Byte) (k : Core) : Core :=
  let bs := bs.take (scratchBytes - addr)
  { k with
    scratch := Mem.write k.scratch addr (scratchKept k cycle rank addr bs)
    recent := (k.recent.filter fun w => w.cycle == cycle) ++ [{
      cycle := cycle, rank := rank, addr := addr, old := (List.range bs.length).map fun j => Mem.byte k.scratch (addr + j) }] }

/-- Bytes put into scratch while the core runs nothing. -/
def putScratch (addr : Nat) (bs : List Byte) (k : Core) : Core :=
  { k with scratch := Mem.write k.scratch addr (bs.take (scratchBytes - addr)) }

/-- The core cycle of a core's panel that the time has come to (R31). -/
def cycleNow (s : State) (c : Nat) : Nat := (16 * s.stu.pos + 15) / max 1 (vAt s.thm.panels (c / 10000) {}).clockK

/-- An access past the end of scratch is a violation of the issuing context (R89). -/
def scratchBound (n addr count : Nat) (s : State) : State := if scratchBytes < addr + count then violate n 0x0C s else s

/-- What the check code found at a byte address of scratch, or of the instruction store (R91). -/
def coreEcc (istore : Bool) (k : Core) (x : Nat × Ecc) : Core :=
  match x.2 with
  | .ok => k
  | .corrected => { k with ceCount := k.ceCount + 1 }
  | .uncorrectable y _ => { k with ue := k.ue ++ [{ istore := istore, addr := x.1, syndrome := y }] }

/-- What the check code found in the bytes a slot read (R91). -/
def scratchEcc (found : List (Nat × Ecc)) (addr count : Nat) (k : Core) : Core :=
  (found.filter fun x => decide (addr ≤ x.1) && decide (x.1 < addr + count)).foldl (coreEcc false) k

/-- What the check code found in an instruction word (R91), by its two 64-bit halves. -/
def wordEcc (found : List (Nat × Ecc)) (word : Nat) (k : Core) : Core :=
  (found.map fun x => (16 * word + 8 * x.1, x.2)).foldl (coreEcc true) k

/-- A read of scratch by a slot: its violation and what the check code found. -/
def readSlot (n c addr count : Nat) (found : List (Nat × Ecc)) (s : State) : State :=
  (scratchBound n addr count s).onCore c (scratchEcc found addr count)

/-- Little-endian bytes as a bit vector. -/
def bitsOfBytes (w : Nat) (bs : List Byte) : BitVec w := BitVec.ofNat w (fromLe bs)

/-- A register's bytes as 32-bit lanes. -/
def lanesOf (bs : List Byte) : List W32 := (List.range 32).map fun i => BitVec.ofNat 32 (leAt bs (4 * i) 4)

/-- A vector register's bytes. -/
def bytesOfLanes (l : List W32) : List Byte := (l.map fun w => leBytes 4 w.toNat).flatten

/-! The vertical port (R140, R144, R152). -/

/-- The slab above a core (R86). -/
def slabOf (s : State) (c : Nat) : Nat := physCol s (c / 10000) (c % 10000 / 125) (c % 125)

/-- The bytes of `count` lines from a bolt stream's pointer. -/
def streamLines (s : State) (c stream count : Nat) : List Byte :=
  let b := vAt (s.core c).bst stream {}
  ((List.range count).map fun j =>
    boltLine s (c / 10000) (slabOf s c) (readLine s (c / 10000) (slabOf s c) ((b.ptr.toNat + j) % slabLines))).flatten

/-- The pointer passes the lines taken and the stride. -/
def advanceStream (stream count : Nat) (k : Core) : Core :=
  { k with bst := vMod k.bst stream fun b => { b with ptr := b.ptr + BitVec.ofNat 20 count + b.stride.signExtend 20 } }

/-- A core takes lines of a stream: what the check code found in each, and the pointer advanced. -/
def takeStream (c stream count : Nat) (found : List (Nat × Ecc)) (s : State) : State :=
  let b := vAt (s.core c).bst stream {}
  let (panel, slab) := (c / 10000, slabOf s c)
  (s.each (found.filter fun x => decide (x.1 < count)) fun s x =>
    boltEcc x.2 panel slab (readLine s panel slab ((b.ptr.toNat + x.1) % slabLines)) s).onCore c (advanceStream stream count)

/-! Tallies (R73). -/

/-- MAXEXP after an exponent. -/
def maxExp (t : BitVec 16) (x : Option Int) : BitVec 16 :=
  match x with
  | some e => if t.toInt < e then BitVec.ofInt 16 e else t
  | none => t

/-- A group's tallies after one narrowed value. -/
def tallyOne (t : Tally) (r : Narrowed) : Tally :=
  { t with
    maxexp := maxExp t.maxexp r.exp
    sat := satInc t.sat (b2n r.sat)
    nf := satInc t.nf (b2n r.nf)
    ftz := satInc t.ftz (b2n r.ftz) }

/-- The tallies of a group changed. -/
def onTally (g : Nat) (f : Tally → Tally) (k : Core) : Core := { k with tallies := vMod k.tallies g f }

/-- The tallies of a group after narrowed values. -/
def tallyAll (g : Nat) (l : List Narrowed) (k : Core) : Core := onTally g (fun t => l.foldl tallyOne t) k

/-- The FLAGS that blocks combined leave: their OR, and UNF where one lies more than 57 binades below the largest (R55). -/
def Combined.flagsOut (x : Combined) : Nat := Nat.lor x.flags (4 * b2n (decide (x.low + 57 < x.top)))

end Sys2Proof.Machine
end

