-- ==== Sys2Proof/Machine/Array.lean ====
section
/-! DEFINITION. The array slot (R92 to R98, Table 3-4) and the long accumulator (R57 to R63, R76). -/

namespace Sys2Proof.Machine

/-! Cells. -/

/-- The number of cell (i, j) of a bank in the core's table. -/
def cellIx (bank row col : Nat) : Nat := 256 * bank + 16 * row + col

/-- A cell. -/
def cellAt (k : Core) (bank row col : Nat) : AccCell := Tab.getD k.cells (cellIx bank row col) {}

/-- The window exponent of a cell: W fixed since its clear, else the one it is now fixed at (R57). -/
def fixWindow (w : Int) (c : AccCell) : AccCell := if c.window.isSome then c else { c with window := some w }

/-- An exact product enters a cell whose window is fixed (R58, R60, R61). -/
def addProduct (neg : Bool) (m : Nat) (e : Int) (c : AccCell) : AccCell :=
  if c.poison ∨ m = 0 then c
  else
    let b := c.window.getD 0 - 72
    let big : Bool := decide (b + 91 ≤ topExp m e)
    let units := if big then 2 ^ 91 - 1 else if b ≤ e then m * 2 ^ (e - b).toNat else m / 2 ^ (b - e).toNat
    let low : Bool := !big && decide (e < b) && decide (m % 2 ^ (b - e).toNat ≠ 0)
    let d : BitVec 112 := BitVec.ofNat 112 units
    { c with acc := if neg then c.acc - d else c.acc + d, sticky := c.sticky || low, sat := c.sat || big }

/-- A value is presented to a cell: a non-finite one poisons it (R76). -/
def accumulate (w : Int) (v : FVal) (c : AccCell) : AccCell :=
  let c := fixWindow w c
  match v with
  | .fin n m e => addProduct n m e c
  | _ => { c with poison := true }

/-- Every cell of a list changed. -/
def onCells (l : List (Nat × (AccCell → AccCell))) (k : Core) : Core :=
  { k with cells := l.foldl (fun t x => Tab.put t x.1 (x.2 (Tab.getD t x.1 {}))) k.cells }

/-! Operands (R92 to R94, Table 3-2). -/

/-- The element format of a side of a MAC; none for INT8. -/
def operandFmt : MacFmt → Bool → Option FFmt
  | .e4m3, _ | .mxE4m3, _ => some fmtE4m3
  | .e5m2, _ | .mxE5m2, _ => some fmtE5m2
  | .e4m3e5m2, b => some (if b then fmtE5m2 else fmtE4m3)
  | .e5m2e4m3, b => some (if b then fmtE4m3 else fmtE5m2)
  | .mxE3m2, _ => some fmtE3m2
  | .mxE2m3, _ => some fmtE2m3
  | .mxE2m1, _ => some fmtE2m1
  | .bf16, _ => some fmtBf16
  | .fp16, _ => some fmtFp16
  | .fp32, _ => some fmtFp32
  | .int8, _ => none

/-- The bits of an element. -/
def elementWidth (f : MacFmt) : Nat := match operandFmt f false with
  | some x => x.width
  | none => 8

/-- The k-steps of a MAC (Table 3-2). -/
def kSteps : MacFmt → Nat
  | .mxE2m1 => 8
  | .bf16 | .fp16 => 2
  | .fp32 => 1
  | _ => 4

/-- MX formats take their scales from the scale set (R94). -/
def usesScales : MacFmt → Bool
  | .mxE4m3 | .mxE5m2 | .mxE3m2 | .mxE2m3 | .mxE2m1 => true
  | _ => false

/-- Element e of an operand register (R93). -/
def element (f : MacFmt) (bSide : Bool) (reg : BitVec 512) (e : Nat) : FVal :=
  let w := elementWidth f
  let x := reg.toNat / 2 ^ (w * e) % 2 ^ w
  match operandFmt f bSide with
  | some t => t.decode x
  | none => if 128 ≤ x then .fin true (256 - x) 0 else .fin false x 0

/-- A value times a power of two. -/
def scaleVal (k : Int) : FVal → FVal
  | .fin n m e => .fin n m (e + k)
  | v => v

/-- Byte i of a scale register. -/
def scaleByte (r : BitVec 128) (i : Nat) : Nat := fld r (8 * i + 7) (8 * i)

/-- What one MAC does to cell (i, j) of its bank (R57, R92 to R94). -/
def macCell (f : MacFmt) (d : Int) (a b : BitVec 512) (sa sb : BitVec 128) (i j : Nat) (c : AccCell) : AccCell :=
  let (xa, xb) := (scaleByte sa i, scaleByte sb j)
  let sum : Int := if usesScales f then (xa : Int) + xb - 254 else 0
  let w : Int := match f with
    | .int8 => 72
    | _ => sum + d
  let bad : Bool := usesScales f && (xa == 255 || xb == 255)
  (List.range (kSteps f)).foldl (fun c k =>
    let v := scaleVal sum (mulVal (element f false a (16 * k + i)) (element f true b (16 * k + j)))
    accumulate w (if bad then .nan 0 else v) c) c

/-- The cells of a bank. -/
def bankCells : List (Nat × Nat) := (List.range 256).map fun x => (x / 16, x % 16)

/-- MAC: every cell of the bank takes the products of operand pair p, in its format. -/
def macCore (bank pair set : Nat) (f : MacFmt) (k : Core) : Core :=
  let (a, b) := (vAt k.ar pair 0, vAt k.br pair 0)
  let (sa, sb) := (vAt k.sa set 0, vAt k.sb set 0)
  let d := (vAt k.wd bank 0).toInt
  onCells (bankCells.map fun x => (cellIx bank x.1 x.2, macCell f d a b sa sb x.1 x.2)) k

/-- ACCIN in FP32 form (R96). -/
def accinFp32 (bank pair row : Nat) (k : Core) : Core :=
  let a := vAt k.ar pair 0
  let d := (vAt k.wd bank 0).toInt
  onCells ((List.range 16).map fun j =>
    (cellIx bank row j, accumulate d (f32 (BitVec.ofNat 32 (fld a (32 * j + 31) (32 * j)))))) k

/-- ACCIN in GS16 form (R96): 32 significands under the exponent in byte 0 of SA_s; E = 255 is a non-finite block. -/
def accinGs16 (bank pair row set : Nat) (k : Core) : Core :=
  let a := vAt k.ar pair 0
  let x := scaleByte (vAt k.sa set 0) 0
  let d := (vAt k.wd bank 0).toInt
  onCells ((List.range 32).map fun n =>
    let g := (BitVec.ofNat 16 (fld a (16 * n + 15) (16 * n))).toInt
    let v : FVal := if x = 255 then .nan 0 else .fin (decide (g < 0)) g.natAbs ((x : Int) - 142)
    (cellIx bank (row + n / 16) (n % 16), accumulate ((x : Int) - 127 + d) v)) k

/-- EPOCH of the GS16 header that SA_s holds (Table 2-3): byte 0 is E, bytes 2 and 3 are the epoch under which the block was
produced. A reduction drops a block of another epoch (R55, R306). -/
def blockEpoch (k : Core) (set : Nat) : BitVec 16 := BitVec.ofNat 16 (fld (vAt k.sa set 0) 31 16)

/-! Blocks that library code combines (R55, R56). -/

/-- What a whole block gives to those combined before it: FLAGS, COUNT and E of its header. -/
def Combined.take (x : Combined) (header : BitVec 128) : Combined :=
  let e := scaleByte header 0
  { flags := Nat.lor x.flags (scaleByte header 1)
    count := min 65535 (x.count + fld header 47 32)
    top := max x.top e
    low := if e = 0 then x.low else if x.low = 0 then e else min x.low e }

/-- A receiving core's check of a block (R54, R56): the header and the two halves of its significands. -/
def blockCrcOk (header : BitVec 128) (first second : BitVec 512) : Bool :=
  let sigs := leBytes 64 first.toNat ++ leBytes 64 second.toNat
  fld header 63 48 == (crc16 ((leBytes 6 (fld header 47 0)) ++ sigs)).toNat

/-- The first half of a block waits for the second, which the ACCIN after it brings under the same header. -/
def takeHalf (header : BitVec 128) (sigs : BitVec 512) (k : Core) : Core := { k with half := some (header, sigs) }

/-- A whole block has entered a bank. -/
def takeWhole (bank : Nat) (header : BitVec 128) (k : Core) : Core :=
  { k with half := none, combined := vMod k.combined bank fun x => x.take header }

/-- Library code takes a GS16 block into a bank by two ACCINs (R55, R249): with the second the block's check code is compared,
and one that does not match is a poisoned delivery (R56). -/
def combineBlock (n c bank pair set : Nat) (s : State) : State :=
  let k := s.core c
  let (header, sigs) := (vAt k.sa set 0, vAt k.ar pair 0)
  match k.half with
  | some (h, first) =>
    if h ≠ header then s.onCore c (takeHalf header sigs)
    else
      let s := if blockCrcOk header first sigs then s else poison n s
      s.onCore c (takeWhole bank header)
  | none => s.onCore c (takeHalf header sigs)

/-- The core runs a pattern that calls the collective library (FLAGS[0], R249). -/
def runsLibrary (s : State) (c : Nat) : Bool :=
  match (s.core c).run with
  | some r => match patternOf s r.ctx.val r.handle with
    | some p => p.library
    | none => false
  | none => false

/-! Draining (R60 to R63, R76, R97). -/

/-- The floating-point format of a drain, none for the integers. -/
def drainFp : DrainFmt → Option FFmt
  | .fp32 => some fmtFp32
  | .bf16 => some fmtBf16
  | .fp16 => some fmtFp16
  | .e4m3 => some fmtE4m3
  | .e5m2 => some fmtE5m2
  | .int32 | .int8 => none

/-- The bytes of one drained value. -/
def drainBytes : DrainFmt → Nat
  | .fp32 | .int32 => 4
  | .bf16 | .fp16 => 2
  | .e4m3 | .e5m2 | .int8 => 1

/-- What a poisoned cell drains as (R76); INT8 has no canonical NaN, and its value there is free. -/
def poisonBits (f : DrainFmt) (c : AccCell) : Nat :=
  match drainFp f with
  | some t => t.nanBits
  | none => match f with
    | .int32 => 0x80000000
    | _ => (Config.freeWord 0x105 (c.acc.setWidth 32) 0).toNat % 256

/-- The largest finite magnitude of a drain's format with a sign (R61, Table 2-1). -/
def largestBits (f : DrainFmt) (neg : Bool) : Nat :=
  match drainFp f with
  | some t => t.signed neg t.maxBits
  | none => let n := 8 * drainBytes f; if neg then 2 ^ n - (2 ^ (n - 1) - 1) else 2 ^ (n - 1) - 1

/-- One cell drained under a configuration with the random value rv: what is written, and whether UNDERRUN counts it. -/
def drainCell (dc : DrainCfg) (rv : Nat) (c : AccCell) : Narrowed × Bool :=
  let v := c.acc.toInt
  let e := c.window.getD 0 - 72 + dc.sigma.toInt
  let neg := decide (v < 0)
  let top : Option Int := if v = 0 then none else some (topExp v.natAbs e)
  if c.poison then ({ bits := poisonBits dc.fmt c, nf := true }, false)
  else if c.sat then ({ bits := largestBits dc.fmt neg, sat := true, exp := top }, c.sticky)
  else match drainFp dc.fmt with
    | some t => (t.narrowFin dc.rnd dc.ieee rv neg v.natAbs e, c.sticky)
    | none => (narrowInt (8 * drainBytes dc.fmt) dc.rnd rv neg v.natAbs e, c.sticky)

/-- DRAIN: row `row` of a bank converted and written to scratch; CLR clears the row (R97). One draw index serves the
row under SR, the lane being the cell column. -/
def drainRow (n c cycle bank row dst dcIx : Nat) (clr : Bool) (s : State) : State :=
  let k := s.core c
  let dc := vAt k.dc dcIx {}
  let out := (List.range 16).map fun j => drainCell dc (drawRv s n c dc.srs.val 0 j) (cellAt k bank row j)
  let bytes := (out.map fun x => leBytes (drainBytes dc.fmt) x.1.bits).flatten
  let under := (out.filter fun x => x.2).length
  let s := scratchBound n (16 * dst) bytes.length s
  s.onCore c fun k =>
    let k := scratchWrite cycle 0 (16 * dst) bytes (tallyAll dc.tg.val (out.map (·.1)) k)
    let k := onTally dc.tg.val (fun t => { t with underrun := satInc t.underrun under }) k
    let k := if dc.rnd = .sr then advanceDraw dc.srs.val 1 k else k
    let k := { k with drained := vAt k.combined bank {} }
    if clr then { k with cells := k.cells.filter fun x => !(decide (cellIx bank row 0 ≤ x.1) && decide (x.1 < cellIx bank (row + 1) 0)) }
    else k

/-! The array slot's commands. -/

/-- Operand B of a LOAD: its bytes, the state after the bolt gave them, and the latency (Table 3-8). -/
def operandB (n c count : Nat) (b : BSource) (i : Issue) (lines : Nat) (s : State) : List Byte × State × Nat :=
  match b with
  | .bolt st => (streamLines s c st.val lines, takeStream c st.val lines i.boltEcc s, 4)
  | .scratch a => (scratchRead (s.core c) i.cycle (16 * a.toNat) count, readSlot n c (16 * a.toNat) count i.ecc s, 3)

/-- LOAD (Table 3-4, R92): AR_p and BR_p in the last cycle of its latency. -/
def execLoad (i : Issue) (pair : Fin 2) (aAddr : BitVec 12) (b : BSource) (s : State) : Out :=
  .next (onIssue (.load i pair aAddr b) i (fun n c s =>
    let a := scratchRead (s.core c) i.cycle (16 * aAddr.toNat) 64
    let s := readSlot n c (16 * aAddr.toNat) 64 i.ecc s
    let (bb, s, lat) := operandB n c 64 b i 2 s
    s.onCore c (later (i.cycle + lat) (.pair pair (bitsOfBytes 512 a) (bitsOfBytes 512 bb)))) s)

/-- LDSC: 16 bytes into SA_s and SB_s; from the bolt, bytes 0 to 15 of the next line. -/
def execLdsc (i : Issue) (set : Fin 2) (saAddr : BitVec 12) (b : BSource) (s : State) : Out :=
  .next (onIssue (.ldsc i set saAddr b) i (fun n c s =>
    let a := scratchRead (s.core c) i.cycle (16 * saAddr.toNat) 16
    let s := readSlot n c (16 * saAddr.toNat) 16 i.ecc s
    let (bb, s, lat) := operandB n c 16 b i 1 s
    s.onCore c (later (i.cycle + lat) (.scales set (bitsOfBytes 128 a) (bitsOfBytes 128 (bb.take 16))))) s)

/-- MAC. -/
def execMac (i : Issue) (bank pair set : Fin 2) (fmt : MacFmt) (s : State) : Out :=
  .next (onIssueCore (.mac i bank pair set fmt) i (macCore bank.val pair.val set.val fmt) s)

/-- ACCIN. -/
def execAccin (i : Issue) (bank pair : Fin 2) (row : Fin 16) (set : Fin 2) (form : AccForm) (s : State) : Out :=
  .next (onIssue (.accin i bank pair row set form) i (fun n c s => match form with
    | .fp32 => s.onCore c (accinFp32 bank.val pair.val row.val)
    | .gs16 =>
      if blockEpoch (s.core c) set.val ≠ (s.train n).current then violate n 0x07 s
      else
        let s := if runsLibrary s c then combineBlock n c bank.val pair.val set.val s else s
        s.onCore c (accinGs16 bank.val pair.val row.val set.val)) s)

/-- DRAIN. -/
def execDrain (i : Issue) (bank : Fin 2) (row : Fin 16) (dst : BitVec 12) (dc : Fin 4) (clr : Bool) (s : State) : Out :=
  .next (onIssue (.drain i bank row dst dc clr) i (fun n c s => drainRow n c i.cycle bank.val row.val dst.toNat dc.val clr s) s)

/-- CLEAR (R98). -/
def execClear (i : Issue) (bank : Fin 2) (s : State) : Out :=
  .next (onIssueCore (.clear i bank) i (fun k => { k with
    cells := k.cells.filter fun x => x.1 / 256 != bank.val
    combined := k.combined.set bank {} }) s)

/-- SETW (R95). -/
def execSetw (i : Issue) (bank : Fin 2) (d : BitVec 10) (s : State) : Out :=
  .next (onIssueCore (.setw i bank d) i (fun k => { k with wd := k.wd.set bank d }) s)

end Sys2Proof.Machine
end

