-- ==== Sys2Proof/Machine/PrsMath.lean ====
section
/-! DEFINITION. The presser's arithmetic (R204 to R208, R210): FP32 throughout, each operation rounded once by RNE. -/

namespace Sys2Proof.Machine

/-- 1.0. -/
def f32One : W32 := 0x3F800000

/-- 0.5. -/
def f32Half : W32 := 0x3F000000

/-- The absolute value. -/
def f32Abs (a : W32) : W32 := a &&& 0x7FFFFFFF

/-- The negation. -/
def f32Neg (a : W32) : W32 := a ^^^ 0x80000000

/-- pow(x, u) by square-and-multiply over the bits of u from bit n − 1 downward (R204). -/
def powBits (x : W32) (u : Nat) : Nat → W32 → W32
  | 0, r => r
  | n + 1, r =>
    let r := f32Mul r r
    powBits x u n (if u.testBit n then f32Mul r x else r)

/-- pow(x, u) (R204). -/
def f32Pow (x : W32) (u : Nat) : W32 := powBits x u (Nat.log2 u + 1) f32One

/-! cospi (R204): cos (πx) correctly rounded, from a value close to it. -/

/-- π in units of 2^−200. -/
def piUnits : Nat := 5048344754617993871973410141242436836214643421488662971535368

/-- An alternating series: each term is the one before times t2 over n × (n + 1), in units of 2^−200. -/
def altTerms (t2 : Nat) : Nat → Nat → Nat → Int
  | 0, _, _ => 0
  | fuel + 1, n, term => (term : Int) - altTerms t2 fuel (n + 2) (term * t2 / 2 ^ 200 / (n * (n + 1)))

/-- cos θ of θ in units of 2^−200. -/
def cosUnits (t : Nat) : Int := altTerms (t * t / 2 ^ 200) 40 1 (2 ^ 200)

/-- sin θ of θ in units of 2^−200. -/
def sinUnits (t : Nat) : Int := altTerms (t * t / 2 ^ 200) 40 2 t

/-- cos (πx) of x in units of 2^−200, 0 ≤ x ≤ 1, in units of 2^−200. -/
def cospiUnits (x : Nat) : Int :=
  let one := 2 ^ 200
  if x = one / 2 then 0
  else if 4 * x ≤ one then cosUnits (x * piUnits / one)
  else if 2 * x < one then sinUnits ((one / 2 - x) * piUnits / one)
  else if 4 * x < 3 * one then -(sinUnits ((x - one / 2) * piUnits / one))
  else -(cosUnits ((one - x) * piUnits / one))

/-- cospi of an FP32 from 0 to 1. -/
def f32Cospi (a : W32) : W32 :=
  match f32 a with
  | .fin _ m e =>
    let v := cospiUnits (if -200 ≤ e then m * 2 ^ (e + 200).toNat else 0)
    toF32 (decide (v < 0)) v.natAbs (-200)
  | _ => f32NaN

/-! The learning rate (R206). -/

/-- The segment in force at step n: the one with the largest FIRST_STEP not above n. -/
def segmentAt (l : List SchedSeg) (n : Nat) : Option SchedSeg := l.foldl (fun best g => if g.firstStep.toNat ≤ n then some g else best) none

/-- lr(n). -/
def learningRate (l : List SchedSeg) (n : Nat) : W32 :=
  match segmentAt l n, l with
  | some g, _ =>
    let x := f32Div (f32OfInt (n - g.firstStep.toNat : Nat)) (f32OfInt g.length.toNat)
    if f32Le f32One x then g.lr1
    else if g.cosine then f32Fma (f32Sub g.lr0 g.lr1) (f32Mul f32Half (f32Add f32One (f32Cospi x))) g.lr1
    else f32Fma (f32Sub g.lr1 g.lr0) x g.lr0
  | none, g :: _ => g.lr0
  | none, [] => 0

/-! One block (R205). -/

/-- The per-step constants of a hyperparameter set. -/
structure StepConsts where
  a : W32
  sg : W32
  q1 : W32
  q2 : W32
  k1 : W32
  s2 : W32
  wd : W32
  first : Bool
deriving DecidableEq, Repr

/-- The constants of step n with u = UPDATE_COUNT + 1 and clipf. -/
def stepConsts (segs : List SchedSeg) (h : HyperSet) (decay : Bool) (n u : Nat) (clipf : W32) : StepConsts :=
  let a := f32Mul (learningRate segs n) h.lrScale
  { a := a, sg := f32Mul clipf h.gradScale, q1 := f32Sub f32One h.b1, q2 := f32Sub f32One h.b2,
    k1 := f32Div a (f32Sub f32One (f32Pow h.b1 u)), s2 := f32Sqrt (f32Sub f32One (f32Pow h.b2 u)),
    wd := if decay then f32Sub f32One (f32Mul a h.lambda) else f32One, first := u == 1 }

/-- What a value of a block reads from V: its master, its moments, and in factored mode its row's and column's statistics
and their mean. -/
structure ValueIn where
  w : W32
  m : W32 := 0
  v : W32 := 0
  row : W32 := 0
  col : W32 := 0
  rmean : W32 := 0
deriving DecidableEq, Repr

/-- What it writes to V+1: the master, the moments, and in factored mode the square added to the sums. -/
structure ValueOut where
  w : W32
  m : W32 := 0
  v : W32 := 0
  sq : W32 := 0
deriving DecidableEq, Repr

/-- One value of a block with the decoded gradient d (R205). -/
def applyValue (kind : OptKind) (nesterov : Bool) (h : HyperSet) (c : StepConsts) (x : ValueIn) (d : W32) : ValueOut :=
  let g := f32Mul d c.sg
  let decayed := f32Mul x.w c.wd
  match kind with
  | .adamw =>
    let m := f32Fma h.b1 x.m (f32Mul c.q1 g)
    let v := f32Fma h.b2 x.v (f32Mul c.q2 (f32Mul g g))
    { w := f32Fma (f32Neg c.k1) (f32Div m (f32Add (f32Div (f32Sqrt v) c.s2) h.eps)) decayed, m := m, v := v }
  | .sgd =>
    let b := f32Fma h.mu x.m g
    let dir := if nesterov then f32Fma h.mu b g else b
    { w := f32Fma (f32Neg c.a) dir decayed, m := b }
  | .factored =>
    let sq := f32Add (f32Mul g g) h.eps1
    let vh := if c.first then sq else f32Div (f32Mul x.row x.col) x.rmean
    { w := f32Fma (f32Neg c.a) (f32Div g (f32Add (f32Sqrt vh) h.eps)) decayed, sq := sq }

/-! SIGMA and AMAX (R208). -/

/-- SIGMA from an AMAX that is finite and not zero; none otherwise. -/
def sigmaOf (amax : W32) : Option (BitVec 8) :=
  match f32 amax with
  | .fin _ m e => if m = 0 then none else some (BitVec.ofInt 8 (max (-124) (min 119 (topExp m e - 7))))
  | _ => none

/-- An AMAX that is infinite or NaN. -/
def amaxBad (amax : W32) : Bool := !isFinite amax

/-! GS16 blocks (R52, R54) and the norm accumulator (R210). -/

/-- The 64 values a finite block decodes to, exact in FP32. -/
def gsDecode (block : List Byte) : List W32 :=
  let e := leAt block 0 1
  (List.range 64).map fun i =>
    let g := (BitVec.ofNat 16 (leAt block (8 + 2 * i) 2)).toInt
    if e = 0 then 0 else if e = 255 then f32NaN else toF32 (decide (g < 0)) g.natAbs ((e : Int) - 142)

/-- The CRC of a block matches (R54). -/
def gsCrcOk (block : List Byte) : Bool := crc16 (block.take 6 ++ (block.drop 8).take 128) == BitVec.ofNat 16 (leAt block 6 2)

/-- The accumulator with one square: units of 2^−149 added, whether it is a NaN, whether it was clamped. -/
def squareOf (d gradScale : W32) : Nat × Bool × Bool :=
  let p := f32Mul d gradScale
  let q := f32Mul p p
  match f32 q with
  | .fin _ m e => (m * 2 ^ (e + 149).toNat, false, false)
  | .inf _ => ((2 ^ 24 - 1) * 2 ^ 253, false, true)
  | .nan _ => (0, true, false)

/-- The accumulator rounded to FP32, and whether it was clamped to the largest finite value. -/
def partialNorm (acc : Nat) : W32 × Bool :=
  let r := fmtFp32.narrowFin .rne false 0 false acc (-149)
  (BitVec.ofNat 32 r.bits, r.sat)

/-- clipf of a sum of squares (R211). -/
def clipFactor (clipMax n2 : W32) : W32 :=
  let n := f32Sqrt n2
  if clipMax.setWidth 31 = (0 : BitVec 31) ∨ f32Le n clipMax then f32One else f32Div clipMax n

end Sys2Proof.Machine
end

