-- ==== Sys2Proof/Machine/PrsOps.lean ====
section
/-! DEFINITION. The presser's shared operations (07_training_step): tables, the inbox ring, checks, applying a block, the
working copy, norms and the lining partner's packets. -/

namespace Sys2Proof.Machine

/-- The context a presser serves (R201). -/
def presserCtx (s : State) (k : Nat) : Option Nat :=
  let b := (s.presser k).bind
  if bit b 0 then some (fld b 7 4) else none

/-- The presented pressers that serve a context. -/
def pressersOf (s : State) (n : Nat) : List Nat := (List.range s.nPanels).filter fun k => presserCtx s k == some n

/-- A presser takes records: bound, its context not FAULTED (R358). -/
def presserLive (s : State) (k : Nat) : Option Nat :=
  match presserCtx s k with
  | some n => if (s.ctx n).state = .active then some n else none
  | none => none

/-- A flag of PRS_FAULT_s is set. -/
def setFlag (k bit : Nat) (s : State) : State := s.onPresser k fun p => { p with flags := p.flags ||| (1 <<< bit) }

/-- SAT of PRS_FAULT_s grows. -/
def presserSat (k n : Nat) (s : State) : State := s.onPresser k fun p => { p with sat := satInc p.sat n }

/-- The table of a presser in an image. -/
def tableOf (img : PrsImage) (mirror : Bool) (k : Nat) : List PrsEntry := (if mirror then img.mirror else img.own).getD k []

/-- The entry that holds a block, with its index. -/
def entryOfBlock (l : List PrsEntry) (block : Nat) : Option (Nat × PrsEntry) :=
  (l.zipIdx.find? fun x => decide (x.1.firstBlock ≤ block) && decide (block < x.1.firstBlock + x.1.blockCount)).map
    fun x => (x.2, x.1)

/-- The banks of a presser's own or mirror table. -/
def banksAt (p : Presser) (mirror : Bool) : List EntryBank := if mirror then p.mirror else p.own

/-- A bank changed. -/
def onBank (k : Nat) (mirror : Bool) (i : Nat) (f : EntryBank → EntryBank) (s : State) : State :=
  s.onPresser k fun p =>
    if mirror then { p with mirror := p.mirror.set i (f (p.mirror.getD i {})) }
    else { p with own := p.own.set i (f (p.own.getD i {})) }

/-- A hyperparameter set of an image; a missing one is all zero. -/
def hyperOf (img : PrsImage) (i : Nat) : HyperSet :=
  img.hyper.getD i { lrScale := 0, b1 := 0, b2 := 0, eps := 0, lambda := 0, mu := 0, gradScale := 0, eps1 := 0, expCount := 0, sigmaInit := 0 }

/-! The committed and shadow views of a context's regions (R164, R202). -/

/-- Bytes of the committed view of a region, from a byte on; zeros where there is none. -/
def committedBytes (s : State) (n region first count : Nat) : List Byte :=
  match hbmRegion s n region with
  | some r => regionBytes s n r first count
  | none => List.replicate count 0

/-- The first byte of a view of a region. -/
def viewAt (s : State) (r : HbmRegion) (shadow : Bool) : Nat := if shadow then 64 * regionV s r else 0

/-- A region lies on the stack of presser k (R170). -/
def onStack (k : Nat) (r : HbmRegion) : Bool := (r.mode == 2 && r.target == k) || (r.mode == 3 && r.target / 32 == k)

/-- Presser k writes bytes of the committed or the shadow view of a region, from a byte on, in whole lines (R170). A region that is
not defined, or not on its stack, is not reached: a violation, as is a line beyond the region's end (R165). -/
def writeView (k n region : Nat) (shadow : Bool) (first : Nat) (bs : List Byte) (s : State) : State :=
  match hbmRegion s n region with
  | some r =>
    if ¬ onStack k r then violate n 0x01 s
    else
      let at_ := viewAt s r shadow + first
      let s := if 64 * regionLines s r < at_ + bs.length then violate n 0x01 s else s
      unverifyBytes n region at_ bs.length (storeLines n r at_ bs s)
  | none => violate n 0x01 s

/-- A presser has read bytes of the committed or the shadow view of a region (R178, R179). -/
def viewFinds (n region : Nat) (shadow : Bool) (first count : Nat) (s : State) : State :=
  match hbmRegion s n region with
  | some r => readFinds n r (viewAt s r shadow + first) count s
  | none => s

/-- Bytes of the shadow view. -/
def shadowBytes (s : State) (n region first count : Nat) : List Byte :=
  match hbmRegion s n region with
  | some r => regionBytes s n r (64 * regionV s r + first) count
  | none => List.replicate count 0

/-- FP32 words of bytes. -/
def wordsOf (bs : List Byte) : List W32 := (List.range (bs.length / 4)).map fun i => BitVec.ofNat 32 (leAt bs (4 * i) 4)

/-- BF16 values of bytes, as FP32. -/
def halvesOf (bs : List Byte) : List W32 := (List.range (bs.length / 2)).map fun i => BitVec.ofNat 32 (leAt bs (2 * i) 2 * 65536)

/-- The bytes of FP32 words. -/
def bytesOf32 (l : List W32) : List Byte := (l.map fun w => leBytes 4 w.toNat).flatten

/-- Where an entry keeps its moments of block i (R202): the first byte of the first and of the second. -/
def momentAt (e : PrsEntry) (i : Nat) : Nat × Nat :=
  match e.kind, e.momBf16 with
  | .adamw, false => (64 * (e.oline + 8 * i), 64 * (e.oline + 8 * i + 4))
  | .adamw, true => (64 * (e.oline + 4 * i), 64 * (e.oline + 4 * i + 2))
  | _, false => (64 * (e.oline + 4 * i), 0)
  | _, true => (64 * (e.oline + 2 * i), 0)

/-- The 64 moments at a byte of the committed view. -/
def momentsAt (s : State) (n : Nat) (e : PrsEntry) (first : Nat) : List W32 :=
  if e.momBf16 then halvesOf (committedBytes s n e.oreg first 128) else wordsOf (committedBytes s n e.oreg first 256)

/-- Rows of a factored entry (R202). -/
def factorRows (e : PrsEntry) : Nat := 64 * e.blockCount / e.cols

/-- Statistic x of a factored entry: rows first, then columns, packed; the byte at which it lies. -/
def statAt (e : PrsEntry) (x : Nat) : Nat := 64 * e.oline + 4 * x

/-- The byte of rmean: the line after the statistics. -/
def rmeanAt (e : PrsEntry) : Nat := 64 * (e.oline + (4 * (factorRows e + e.cols) + 63) / 64)

/-- A committed statistic. -/
def statOf (s : State) (n : Nat) (e : PrsEntry) (first : Nat) : W32 := (wordsOf (committedBytes s n e.oreg first 4)).getD 0 0

/-! Draws of the presser (R207). -/

/-- Rv of a presser's rounding: purpose, owning shard's rank, block and value. -/
def presserRv (s : State) (n purpose rank block i : Nat) : Nat :=
  (bobbin (s.ctx n).seed (at64 48 purpose ||| at64 32 rank ||| at64 0 (block % 2 ^ 32))
    (at64 20 (s.train n).step.toNat ||| at64 0 i)).toNat % 2 ^ 24

/-- The rank for draws: the device's own for OWN entries, MIRROR_RANK for MIRROR entries (R201). -/
def drawRank (s : State) (n : Nat) (mirror : Bool) : Nat := if mirror then fld (s.train n).vote 63 48 else fld (s.ctx n).rank 15 0

/-- Moments as written: FP32, or BF16 under SR; with the clamps. -/
def momentBytes (s : State) (n purpose rank block : Nat) (bf16 : Bool) (l : List W32) : List Byte × Nat :=
  if bf16 then
    let out := l.zipIdx.map fun x => fmtBf16.narrow .sr false (presserRv s n purpose rank block x.2) (f32 x.1)
    ((out.map fun r => leBytes 2 r.bits).flatten, (out.filter (·.sat)).length)
  else (bytesOf32 l, 0)

/-! The working copy (R202, R207). -/

/-- The elements of a block's working copy under the committed SIGMA, with the clamps. -/
def copyBytes (wfmt : Nat) (sigma : BitVec 8) (l : List W32) : List Byte × Nat :=
  let out := l.map fun w =>
    if wfmt = 0 then fmtBf16.narrow .rne false 0 (f32 w) else fmtE4m3.narrow .rne false 0 (scaleVal (-sigma.toInt) (f32 w))
  ((out.map fun r => leBytes (if wfmt = 0 then 2 else 1) r.bits).flatten, (out.filter (·.sat)).length)

/-- The scale bytes of a block's E4M3 copy: SIGMA + 127 twice (R207). -/
def scaleBytes (sigma : BitVec 8) : List Byte := List.replicate 2 (BitVec.ofNat 8 (sigma.toInt + 127).toNat)

/-- The pieces of a working copy, as bytes of the run or of the fall-back region from its first line on: the elements of block
i, and for E4M3 its two scale bytes. `unit` is the bytes of a line there. -/
def copyPieces (e : PrsEntry) (unit i : Nat) (els scale : List Byte) : List (Nat × List Byte) :=
  let first := unit * e.wline
  if e.wfmt = 0 then [(first + 128 * i, els)]
  else [(first + 64 * i, els), (first + 64 * e.blockCount + 2 * i, scale)]

/-- A bolt region takes staging writes of an entry: a TWIN region that is not FENCED, with the run the entry names. -/
def stageable (x : BoltRegion) (e : PrsEntry) : Bool :=
  x.twin && x.state != .fenced && x.bands.contains e.wband && decide (e.wcol < 125)

/-- The bytes of a block's working copy go to the shadow view of the fall-back, or wait for the cycles in which the presser may
write the staging copy of the twin region (R147). A copy that has no place is remembered for R145. -/
def placeCopy (k n : Nat) (e : PrsEntry) (i : Nat) (els scale : List Byte) (s : State) : State :=
  if e.whbm then s.each (copyPieces e 64 i els scale) fun s p => writeView k n e.wreg true p.1 p.2 s
  else
    let failed (s : State) : State := s.onPresser k fun p => { p with staging := Tab.add p.staging e.wreg 1 }
    match boltRegionOf s n e.wreg with
    | none => failed s
    | some (d, x) =>
      let pieces := copyPieces e 32 i els scale
      if ¬ stageable x e ∨ pieces.any (fun p => decide (32 * x.lines < p.1 + p.2.length)) then failed s
      else s.onBolt fun b => { b with waiting := b.waiting ++ pieces.zipIdx.map fun p =>
        { presser := k, region := d, band := e.wband, col := e.wcol, first := p.1.1, bytes := p.1.2,
          elements := if p.2 = 0 then els.length / 32 else 0 } }

/-- A block's working copy under a SIGMA (R207). -/
def writeCopy (k n : Nat) (e : PrsEntry) (i : Nat) (sigma : BitVec 8) (ws : List W32) (s : State) : State :=
  if e.wfmt = 3 then s
  else
    let (els, sat) := copyBytes e.wfmt sigma ws
    placeCopy k n e i els (scaleBytes sigma) (presserSat k sat s)

/-! Applying a block (R205). -/

/-- The inputs of a block's 64 values from V. -/
def blockInputs (s : State) (n : Nat) (e : PrsEntry) (i : Nat) : List ValueIn :=
  let ws := wordsOf (committedBytes s n e.mreg (64 * (e.mline + 4 * i)) 256)
  match e.kind with
  | .adamw =>
    let ms := momentsAt s n e (momentAt e i).1
    let vs := momentsAt s n e (momentAt e i).2
    (List.range 64).map fun j => { w := ws.getD j 0, m := ms.getD j 0, v := vs.getD j 0 }
  | .sgd =>
    let ms := momentsAt s n e (momentAt e i).1
    (List.range 64).map fun j => { w := ws.getD j 0, m := ms.getD j 0 }
  | .factored =>
    let row := statOf s n e (statAt e (64 * i / e.cols))
    let mean := statOf s n e (rmeanAt e)
    (List.range 64).map fun j =>
      { w := ws.getD j 0, row := row, col := statOf s n e (statAt e (factorRows e + 64 * i % e.cols + j)), rmean := mean }

/-- The sums of a factored entry with the squares of block i added in order (R205, R209). -/
def addFactors (e : PrsEntry) (i : Nat) (f : FactorSums) (out : List ValueOut) : FactorSums :=
  let row := 64 * i / e.cols
  out.zipIdx.foldl (fun f x =>
    let c := 64 * i % e.cols + x.2
    { rows := Tab.put f.rows row (f32Add (Tab.getD f.rows row 0) x.1.sq)
      cols := Tab.put f.cols c (f32Add (Tab.getD f.cols c 0) x.1.sq) }) f

/-- The moments of a block written to V+1. -/
def writeMoments (k n rank : Nat) (e : PrsEntry) (i : Nat) (out : List ValueOut) (s : State) : State :=
  let block := e.firstBlock + i
  let (a, b) := momentAt e i
  match e.kind with
  | .adamw =>
    let (ms, x) := momentBytes s n 0xFF01 rank block e.momBf16 (out.map (·.m))
    let (vs, y) := momentBytes s n 0xFF02 rank block e.momBf16 (out.map (·.v))
    presserSat k (x + y) (writeView k n e.oreg true b vs (writeView k n e.oreg true a ms s))
  | .sgd =>
    let (ms, x) := momentBytes s n 0xFF03 rank block e.momBf16 (out.map (·.m))
    presserSat k x (writeView k n e.oreg true a ms s)
  | .factored => s

/-! The cost of a block (R203), in quarters of a slot. -/

/-- The lines that a factored entry's statistics take, rmean's line among them. -/
def statLines (e : PrsEntry) : Nat := (4 * (factorRows e + e.cols) + 63) / 64 + 1

/-- A block is the first of its entry that the presser applies in the step: it reads the entry's statistics. -/
def firstFactor (s : State) (k : Nat) (mirror : Bool) (ix : Nat) : Bool :=
  let p := s.presser k
  (Tab.find (if mirror then p.mirrorFactors else p.factors) ix).isNone

/-- The slots of Table 7-9 that a block costs, in quarters, with the scale line that the block completes and the statistics that it
reads. -/
def blockCost (e : PrsEntry) (mirror held first : Bool) (i : Nat) : Nat :=
  let base := match e.kind with
    | .adamw => if e.momBf16 then 16 else 24
    | .sgd => if e.momBf16 then 12 else 16
    | .factored => 8 + (if first then statLines e else 0)
  let copy := if mirror ∨ ¬ e.whbm ∨ e.wfmt = 3 then 0
    else if e.wfmt = 0 then 2 else 1 + b2n (decide (i % 32 = 31 ∨ i + 1 = e.blockCount))
  4 * (base + copy) + if held then 9 else 0

/-- A presser uses slots of its reservation. -/
def spendSlots (k q : Nat) (s : State) : State := s.onPresser k fun p => { p with spent := p.spent + q }

/-- The reads of a block: masters, moments, statistics (R178, R179, R205). -/
def blockFinds (n : Nat) (e : PrsEntry) (i : Nat) (s : State) : State :=
  let s := viewFinds n e.mreg false (64 * (e.mline + 4 * i)) 256 s
  let (a, b) := momentAt e i
  let size := if e.momBf16 then 128 else 256
  match e.kind with
  | .adamw => viewFinds n e.oreg false b size (viewFinds n e.oreg false a size s)
  | .sgd => viewFinds n e.oreg false a size s
  | .factored => viewFinds n e.oreg false (statAt e 0) (64 * statLines e) s

/-- A block of entry `ix` applied with its decoded gradient (R205 to R207): masters, moments, AMAX, sums, and for an OWN
entry the working copy. -/
def applyBlock (k n : Nat) (img : PrsImage) (mirror : Bool) (ix : Nat) (e : PrsEntry) (i : Nat) (ds : List W32) (s : State) :
    State :=
  let h := hyperOf img e.hp
  let t := s.train n
  let c := stepConsts img.segs h e.decay t.step.toNat (t.updates.toNat + 1) t.clipf
  let out := ((blockInputs s n e i).zip ds).map fun x => applyValue e.kind e.nesterov h c x.1 x.2
  let ws := out.map (·.w)
  let bank := (banksAt (s.presser k) mirror).getD ix {}
  let s := spendSlots k (blockCost e mirror img.held (firstFactor s k mirror ix) i) (blockFinds n e i s)
  let s := writeView k n e.mreg true (64 * (e.mline + 4 * i)) (bytesOf32 ws) s
  let s := writeMoments k n (drawRank s n mirror) e i out s
  let s := onBank k mirror ix (fun b => { b with shadowAmax := ws.foldl (fun m w => f32Max m (f32Abs w)) b.shadowAmax }) s
  let s := if e.kind ≠ .factored then s
    else if mirror then s.onPresser k fun p =>
      { p with mirrorFactors := Tab.put p.mirrorFactors ix (addFactors e i (Tab.getD p.mirrorFactors ix {}) out) }
    else s.onPresser k fun p => { p with factors := Tab.put p.factors ix (addFactors e i (Tab.getD p.factors ix {}) out) }
  if mirror then s.onPresser k fun p => { p with mirrored := satInc p.mirrored 1 }
  else writeCopy k n e i bank.sigma ws (s.onPresser k fun p => { p with applied := satInc p.applied 1 })

/-! Records (R198, R199, Tables 7-3 and 7-4). -/

/-- The GS16 block of a record. -/
def recordBlock (b : List Byte) : List Byte := b.drop 8

/-- What Table 7-4 makes of a gradient record. -/
inductive RecordCheck where
  | stale | noEntry | crc | count | duplicate | nonFinite | apply
deriving DecidableEq, Repr

/-- The first row of Table 7-4 that matches a record of KIND 0x01 or of an unknown kind, against the own or the mirror
table. -/
def checkRecord (s : State) (k n : Nat) (mirror : Bool) (b : List Byte) : RecordCheck :=
  let t := s.train n
  let g := recordBlock b
  if leAt b 6 2 ≠ t.step.toNat % 65536 ∨ leAt b 4 1 ≠ 1 ∨ leAt g 2 2 ≠ t.current.toNat then .stale
  else match t.image with
    | none => .noEntry
    | some img => match entryOfBlock (tableOf img mirror k) (leAt b 0 4) with
      | none => .noEntry
      | some (_, e) =>
        let p := s.presser k
        if ¬ gsCrcOk g then .crc
        else if leAt g 4 2 ≠ (hyperOf img e.hp).expCount.toNat then .count
        else if (if mirror then p.takenMirror else p.taken).contains (leAt b 0 4) then .duplicate
        else if (leAt g 1 1).testBit 0 then .nonFinite
        else .apply

/-- The squares of an own record's values enter the norm accumulator (R210). -/
def addNorm (k : Nat) (gradScale : W32) (ds : List W32) (s : State) : State :=
  let sq := ds.map fun d => squareOf d gradScale
  let nan := sq.any fun x => x.2.1
  let s := presserSat k (sq.filter fun x => x.2.2).length s
  let s := s.onPresser k fun p => { p with normAcc := p.normAcc + (sq.map (·.1)).sum, normNan := p.normNan || nan }
  if nan then setFlag k 0 s else s

/-- A record that passed every check is applied (R205). -/
def applyRecord (k n : Nat) (mirror : Bool) (b : List Byte) (s : State) : State :=
  match (s.train n).image with
  | none => s
  | some img => match entryOfBlock (tableOf img mirror k) (leAt b 0 4) with
    | none => s
    | some (ix, e) => applyBlock k n img mirror ix e (leAt b 0 4 - e.firstBlock) (gsDecode (recordBlock b)) s

/-- A record that passed every check: in held mode it waits in the held region for the norm, else it is applied. An own one
enters the norm first. -/
def acceptRecord (k n : Nat) (mirror : Bool) (b : List Byte) (s : State) : State :=
  match (s.train n).image with
  | none => s
  | some img =>
    let s := if mirror then s
      else match entryOfBlock (tableOf img false k) (leAt b 0 4) with
        | some (_, e) => addNorm k (hyperOf img e.hp).gradScale (gsDecode (recordBlock b)) s
        | none => s
    let p := s.presser k
    if img.held ∧ ¬ p.normTaken then
      let s := spendSlots k 9 (writeView k n (fld p.reserve 47 44) false (144 * p.held.length) b s)
      s.onPresser k fun p => { p with held := p.held ++ [(b, mirror)] }
    else applyRecord k n mirror b s

/-- A block counts as taken. -/
def markTaken (k : Nat) (mirror : Bool) (block : Nat) (s : State) : State :=
  s.onPresser k fun p =>
    if mirror then { p with takenMirror := if p.takenMirror.contains block then p.takenMirror else p.takenMirror ++ [block] }
    else { p with taken := if p.taken.contains block then p.taken else p.taken ++ [block] }

/-- The inbox ring's records: bytes of the ring over 144. -/
def ringRecords (p : Presser) : Nat := fld p.bind 39 16 * 64 / 144

/-- The ring lines that record position q touches. -/
def linesOfRecord (q : Nat) : List Nat := (List.range ((144 * q + 143) / 64 + 1 - 144 * q / 64)).map (· + 144 * q / 64)

/-- Record r of the step has arrived: every line it touches has been written once in its turn of the ring. -/
def recordArrived (p : Presser) (r : Nat) : Bool :=
  let n := ringRecords p
  decide (0 < n) && (linesOfRecord (r % n)).all fun l => decide (r / n < Tab.getD p.lineWrites l 0)

/-- The records that are never taken are passed over. -/
def skipLost (lost : List Nat) : Nat → Nat → Nat
  | 0, r => r
  | fuel + 1, r => if lost.contains r then skipLost lost fuel (r + 1) else r

/-- The next record the presser takes, once all its bytes have arrived. -/
def nextRecord (p : Presser) : Option (Nat × List Byte) :=
  let r := skipLost p.lost (p.lost.length + 1) p.nextTake
  if recordArrived p r then some (r, Mem.bytes p.ring (144 * (r % ringRecords p)) 144) else none

/-- A whole-line write reaches the inbox ring (R198): bytes of a record that is not yet taken stay, OVERFLOW is set, and the
later record is never taken. -/
def ringWrite (k line : Nat) (data : List Byte) (s : State) : State :=
  let p := s.presser k
  let n := ringRecords p
  let turn := Tab.getD p.lineWrites line 0
  let touched := (List.range n).filter fun q => (linesOfRecord q).contains line
  let beyond := if turn = 0 then [] else touched.filter fun q => decide (p.nextTake ≤ (turn - 1) * n + q)
  let kept (b : Nat) : Bool := beyond.any fun q => decide (144 * q ≤ 64 * line + b) && decide (64 * line + b < 144 * q + 144)
  let ring := (data.zipIdx).foldl (fun m x => if kept x.2 then m else Mem.put m (64 * line + x.2) x.1) p.ring
  let s := s.onPresser k fun p => { p with
    ring := ring
    lineWrites := Tab.put p.lineWrites line (turn + 1)
    lost := p.lost ++ (beyond.map fun q => turn * n + q).filter fun r => !p.lost.contains r }
  if beyond.isEmpty then s else setFlag k 7 s

/-- h of a context (R190). -/
def leadHalf (s : State) (n : Nat) : Nat := fld (s.train n).vote 34 32 + 1

/-- The commit stitch of a context's pending vote (R190). -/
def commitAt (s : State) (n : Nat) (v : Stitch) : Stitch := v + BitVec.ofNat 40 (2 * leadHalf s n)

/-! The lining partner's packets (R200, R320, R321). -/

/-- The VC_4 entries in force of a lining port (R218). -/
def mirrorEntries (s : State) (m : Nat) : Nat := if m < 12 then 0 else fld s.prs.mirrorNow (8 * (m - 12) + 7) (8 * (m - 12))

/-- The lining port that carries a presser's records: those with entries in turn, so that each presser's order is kept. -/
def mirrorPort (s : State) (k : Nat) : Option Nat :=
  let l := (List.range 4).filterMap fun i => if 0 < mirrorEntries s (12 + i) then some (12 + i) else none
  l[k % (max l.length 1)]?

/-- The header cell of a mirror packet (Table 8-4, R229). -/
def mirrorHeader (s : State) (n k m cells : Nat) : CellData :=
  let b := [0x0C, BitVec.ofNat 8 m, BitVec.ofNat 8 (cells - 1), BitVec.ofNat 8 n, 0, 0] ++ leBytes 2 k ++ [0, 0] ++
    leBytes 2 (s.train n).current.toNat ++ leBytes 4 (seqOf (s.colCtx n) 4).toNat ++ leBytes 4 s.stu.length ++
    leBytes 4 (s.stu.stitch.toNat % 2 ^ 32) ++ leBytes 2 (s.sea.addr.toNat % 2 ^ 15) ++ [0, 0, 0, 0]
  cellOf (b ++ leBytes 2 (crc16 b).toNat)

/-- Bytes in cells of 32. -/
def cellsOf (bs : List Byte) : List CellData := (List.range ((bs.length + 31) / 32)).map fun i => cellOf (slice bs (32 * i) 32)

/-- Cells queued on a lining port's VC_4. -/
def queueMirror (m n : Nat) (cells : List CellData) (s : State) : State :=
  s.onPort m fun p =>
    let t := portStream p 4 n
    putStream p { t with tx := t.tx ++ cells.map fun d => { data := d, hem := 0, credit := false } }

/-- Cells that go before all others in a stitch of whose frames none has been sent. -/
def queueFirst (m n : Nat) (cells : List CellData) (s : State) : State :=
  if (s.port m).frame ≠ 0 then queueMirror m n cells s
  else s.onPort m fun p =>
    let t := portStream p 4 n
    putStream p { t with tx := (cells.map fun d => { data := d, hem := 0, credit := false }) ++ t.tx }

/-- Mirror records two to a packet (R229), while cells are left. -/
def mirrorPackets (s : State) (n k m : Nat) : Nat → Nat → List RecordBytes → List CellData × Nat × List RecordBytes
  | 0, room, l => ([], room, l)
  | _, room, [] => ([], room, [])
  | fuel + 1, room, l =>
    let data := cellsOf (l.take 2).flatten
    if room < data.length + 1 then ([], room, l)
    else
      let (cells, room, rest) := mirrorPackets s n k m fuel (room - (data.length + 1)) (l.drop 2)
      (mirrorHeader s n k m data.length :: data ++ cells, room, rest)

/-- Refill packets while cells are left. -/
def refillPackets : Nat → List Packet → List CellData × List Packet
  | _, [] => ([], [])
  | room, p :: l =>
    if room < p.data.length + 1 then ([], p :: l)
    else
      let (cells, rest) := refillPackets (room - (p.data.length + 1)) l
      (p.header :: p.data ++ cells, rest)

/-- The blocks whose last refill packet is among those sent (LIN_STATE.REFILLED). -/
def refillSent (sent rest : List Packet) : Nat :=
  let block (p : Packet) : Option Nat := if leAt (cellBytes p.header) 4 1 = 3 then some (leAt (cellBytes p.header) 0 4) else none
  ((sent.filterMap block).eraseDups.filter fun b => !(rest.filterMap block).contains b).length

/-- The cells on a lining port that the STATE records of a commit stitch take first: three for each presser it carries (R320). -/
def stateCells (s : State) (n m : Nat) : Nat :=
  let due : Bool := match (s.train n).voteStitch with
    | some v => commitAt s n v == s.stu.stitch
    | none => false
  if due ∧ s.lin.state = .mirrored then 3 * ((pressersOf s n).filter fun k => mirrorPort s k == some m).length else 0

/-- The cells of PRS_MIRROR entries that a lining port has left in the stitch: those of the frames still to come, less what is queued
and what the STATE records of a commit stitch take. -/
def mirrorRoom (s : State) (n m : Nat) : Nat :=
  let frames := framesPerStitch s.stu.periodUnits.toNat - (s.port m).frame
  mirrorEntries s m * frames - (portStream (s.port m) 4 n).tx.length - stateCells s n m

/-- One presser's waiting records, then its refill packets, take the room its lining port has left in the stitch. -/
def sendMirror (n : Nat) (s : State) (k : Nat) : State :=
  match mirrorPort s k with
  | none => s
  | some m =>
    let p := s.presser k
    let (c1, free, recs) := mirrorPackets s n k m (p.mirrorOut.length + 1) (mirrorRoom s n m) p.mirrorOut
    let (c2, packets) := refillPackets free p.refillOut
    let done := refillSent (p.refillOut.take (p.refillOut.length - packets.length)) packets
    let s := s.onPresser k fun p => { p with mirrorOut := recs, refillOut := packets }
    let s := s.onLin fun l => { l with refilled := l.refilled + BitVec.ofNat 32 done }
    queueMirror m n (c1 ++ c2) s

/-- At a boundary the records of the stitch just ended go to the lining ports, and refill packets after them (R200, R321). -/
def mirrorBoundary (s : State) : State :=
  match liningCtx s with
  | none => s
  | some n => s.each (pressersOf s n) (sendMirror n)

/-- Every block of a table. -/
def blocksOf (l : List PrsEntry) : List Nat := (l.map fun e => (List.range e.blockCount).map (· + e.firstBlock)).flatten

/-! References of a region (R166). -/

/-- The HBM regions of an entry. -/
def entryRegions (e : PrsEntry) : List Nat := [e.mreg, e.oreg] ++ if e.whbm then [e.wreg] else []

/-- An entry of a context's image. -/
def imageEntry (s : State) (n : Nat) (mirror : Bool) (k i : Nat) : Option PrsEntry :=
  (s.train n).image.bind fun img => (tableOf img mirror k)[i]?

/-- The HBM regions a transfer in progress names: of a shard the regions it is captured from, until it is, and the snapshot region;
of a restore those of its entry. -/
def transferRegions (s : State) (t : Transfer) : List Nat :=
  let of (mirror : Bool) (k i : Nat) : List Nat := match imageEntry s t.ctx.val mirror k i with
    | some e => entryRegions e
    | none => []
  match t.kind with
  | .copyIn _ _ false r _ => [r]
  | .copyOut _ _ false r _ => [r]
  | .bundle b => (b.regions.filter fun r => !r.bolt).map (·.index)
  | .shard h => h.snap :: if h.captured.isNone ∧ h.kind ≠ .jobState then of h.mirror h.presser h.entry else []
  | .restore r => of false r.presser r.entry
  | _ => []

/-- REFS (R166): armed entries with a stream in the region, bolt regions it backs, transfers in progress on it. -/
def regionRefs (s : State) (n index : Nat) : Nat :=
  (s.work.entries.filter fun e => e.ctx.val == n && match patternOf s n e.handle with
    | some p => p.streams.any fun t => t.region == index
    | none => false).length +
  (s.bolt.regions.filter fun x => x.2.ctx.val == n && x.2.backed && x.2.hbmRegion == index).length +
  (s.work.transfers.filter fun t => t.ctx.val == n && (transferRegions s t).contains index).length

end Sys2Proof.Machine
end

