-- ==== Sys2Proof/Machine/HbmQueue.lean ====
section
/-! DEFINITION. The arrival of an HBM access at its pseudo-channel queue (06_hbm_tier, R161, R173, R174), with the inbox of a
presser in its way (07_training_step, R198). -/

namespace Sys2Proof.Machine

/-- The order in which one cycle's accesses are taken (R161), the spare-slot engines among themselves as R167 lists them. -/
def sourceRank : AccessSource → Nat
  | .pattern => 0
  | .presser => 1
  | .loader => 2
  | .portH => 3
  | .portS => 4
  | .drain => 5
  | .scrub => 6

/-- An access comes before another in its queue: by arrival, then by source, then by band, row and column. -/
def accessBefore (a b : Access) : Bool :=
  decide (a.arrival < b.arrival) || (a.arrival == b.arrival && (decide (sourceRank a.source < sourceRank b.source) ||
    (sourceRank a.source == sourceRank b.source && decide (a.key < b.key))))

/-- The first access of a list in queue order. -/
def firstAccess : List Access → Option Access
  | [] => none
  | a :: l => match firstAccess l with
    | some b => some (if accessBefore b a then b else a)
    | none => some a

/-- A region is being zeroed: nothing reads or writes what lies in it for another context (R166). -/
def zeroing (s : State) (owner region : Nat) : Bool := match hbmRegion s owner region with
  | some r => !r.ready
  | none => false

/-- An engine's access does not enter its queue yet: its region is not READY (R166), or it writes and finds the buffer of its
stack full (R175). -/
def accessWaits (s : State) (a : Access) : Bool :=
  match a.kind with
  | .bytesWrite m d => zeroing s a.owner.val a.region || (engineWrite a.pc a.line m d s).isNone
  | .bar2Read _ _ => zeroing s a.owner.val a.region
  | _ => false

/-- The accesses that are not held back: an engine that waits with one access keeps its later ones (R174, R175). -/
def openAccesses (s : State) : List Access → List AccessSource → List Access
  | [], _ => []
  | a :: l, stuck =>
    if stuck.contains a.source then openAccesses s l stuck
    else if accessWaits s a then openAccesses s l (a.source :: stuck)
    else a :: openAccesses s l stuck

/-- The access that a pseudo-channel's queue takes next. -/
def nextAccess (s : State) (pc : Nat) : Option Access :=
  firstAccess ((openAccesses s s.hbm.inflight []).filter fun a => a.pc == pc)

/-- The presser and ring line whose inbox holds a line of a context's region (R198): EN set, the region STACK_LOCAL on the
presser's stack. -/
def inboxAt (s : State) (owner region pc line : Nat) : Option (Nat × Nat) :=
  let k := pc / 32
  let p := s.presser k
  match hbmRegion s owner region with
  | none => none
  | some r =>
    if bit p.bind 0 ∧ fld p.bind 7 4 = owner ∧ fld p.reserve 39 36 = region ∧ r.mode = 2 ∧ ¬ r.parity ∧ r.base ≤ line then
      let l := line - r.base
      let j := 4 * (l / 4 * 32 + pc % 32) + l % 4
      if j < fld p.bind 39 16 then some (k, j) else none
    else none

/-- A line on its way to a core's scratch (R105). -/
def returnLine (core line due : Nat) (bs : List Byte) (s : State) : State :=
  s.onCores fun k => { k with returns := k.returns ++ [{ core := core, line := line, data := BitVec.ofNat 512 (fromLe bs), due := due }] }

/-- An HRD of a line: an inbox line reads as zeros, any other what R174 says. -/
def takeHrd (a : Access) (core line due : Nat) (e : LineEcc) (s : State) : State :=
  match inboxAt s a.owner.val a.region a.pc a.line with
  | some _ => returnLine core line due (List.replicate 64 0) s
  | none => returnLine core line due (readHbm s a.pc a.line) (hbmEcc e a.pc a.line s)

/-- A whole-line write (R173): into a presser's inbox, where it is discarded while the context is FAULTED; else into the
stack. -/
def takeLine (a : Access) (data : BitVec 512) (s : State) : State :=
  let bs := leBytes 64 data.toNat
  match inboxAt s a.owner.val a.region a.pc a.line with
  | some (k, j) => if (s.ctx a.owner.val).state = .faulted then s else ringWrite k j bs s
  | none => unverify a.owner.val a.region a.pc a.line (writeWhole a.pc a.line bs s)

/-- An access taken from its queue. -/
def takeAccess (a : Access) (e : LineEcc) (s : State) : State :=
  match a.kind with
  | .hrd core line due => takeHrd a core line due e s
  | .zeros core line due => returnLine core line due (List.replicate 64 0) s
  | .lineWrite data => takeLine a data s
  | .bytesWrite m d => unverify a.owner.val a.region a.pc a.line ((engineWrite a.pc a.line m d s).getD s)
  | .bar2Read count byte => (hbmEcc e a.pc a.line s).emit (.bar2Data (slice (readHbm s a.pc a.line) byte count))

/-- HBM_QUEUE_ARRIVAL (R161): the next access of a pseudo-channel takes effect; `ecc` is what the check code found in the line
when the access reads it. -/
def execHbmQueueArrival (pc : Fin 256) (ecc : LineEcc) (s : State) : Out :=
  match nextAccess s pc.val with
  | none => .next s
  | some a => .next (takeAccess a ecc (s.onHbm fun h => { h with inflight := h.inflight.erase a }))

/-! Accesses that reach their queues within one command (R161, R174). -/

/-- An access in flight is ahead of one that an engine makes now: it has arrived, or it arrives in this cycle and comes first. -/
def aheadOf (s : State) (by_ : AccessSource) (a : Access) : Bool :=
  decide (a.arrival < s.ns) || (a.arrival == s.ns && decide (sourceRank a.source < sourceRank by_))

/-- Up to `fuel` accesses that are ahead take effect; what they find is what was last known of their lines. -/
def meetAhead (by_ : AccessSource) : Nat → State → State
  | 0, s => s
  | fuel + 1, s => match firstAccess ((openAccesses s s.hbm.inflight []).filter (aheadOf s by_)) with
    | none => s
    | some a => meetAhead by_ fuel (takeAccess a (knownEcc s a.pc a.line) (s.onHbm fun h => { h with inflight := h.inflight.erase a }))

/-- An engine's accesses reach the queues behind everything that arrived there before them (R161, R174). -/
def meetQueues (by_ : AccessSource) (s : State) : State := meetAhead by_ s.hbm.inflight.length s

end Sys2Proof.Machine
end

