-- ==== Sys2Proof/Machine/HbmCmds.lean ====
section
/-! DEFINITION. The meanings of the HBM tier's commands (06_hbm_tier, R162 to R187) and of the BAR2 accesses (R373 to
R375), but for the arrival of an access at its queue. -/

namespace Sys2Proof.Machine

/-- RESULT of a region command. -/
def hbmResult (r : Nat) (s : State) : State := s.onHbm fun h => { h with result := BitVec.ofNat 8 r }

/-- The region a configuration word describes, before its base is chosen (Tables 6-2, 6-9). -/
def configuredRegion (cfg : W64) : HbmRegion :=
  { mode := fld cfg 1 0, target := fld cfg 23 16, pcLines := fld cfg 47 24, parity := bit cfg 2, base := 0, ready := false,
    blocked := false }

/-- The configuration cannot be defined (R165, R366): RESULT 0x05. -/
def invalidRegion (s : State) (n : Nat) (r : HbmRegion) : Bool :=
  let align := if r.mode = 0 ∨ r.mode = 2 then 4 else if r.mode = 1 then 64 else 1
  let absent := (r.mode == 2 && decide (s.nPanels ≤ r.target)) || (r.mode == 3 && decide (s.nPc ≤ r.target))
  let held := (List.range 8).any fun k => s.flt.heldStacks.getLsbD k && usesPc s r (32 * k + (if r.mode = 3 then r.target % 32 else 0))
  decide (r.pcLines = 0) || decide (r.pcLines % align ≠ 0) || absent || held ||
    (r.parity && decide (Config.pcLines < 2 * r.pcLines)) || decide ((s.ctx n).state ≠ .active)

/-- DEFINE (R162, R165, R166). -/
def hbmDefine (s : State) : State :=
  let (n, i) := (fld s.hbm.rgnSel 7 4, fld s.hbm.rgnSel 3 0)
  let r := configuredRegion s.hbm.cfg
  if (hbmRegion s n i).isSome then hbmResult 0x02 s
  else if invalidRegion s n r then hbmResult 0x05 s
  else match findHbmBase s r with
    | none => hbmResult 0x01 s
    | some b => hbmResult 0 (s.onHbm fun h => { h with regions := Tab.put h.regions (regionKey n i) { r with base := b } })

/-- RELEASE (R166). -/
def hbmRelease (s : State) : State :=
  let (n, i) := (fld s.hbm.rgnSel 7 4, fld s.hbm.rgnSel 3 0)
  if (hbmRegion s n i).isNone then hbmResult 0x06 s
  else if 0 < regionRefs s n i then hbmResult 0x04 s
  else hbmResult 0 (s.onHbm fun h => { h with
    regions := Tab.drop h.regions (regionKey n i), checked := h.checked.filter fun c => !(c.ctx == n && c.region == i) })

/-- A write of HBT_RGN_CMD. -/
def writeHbtCmd (v : W64) (s : State) : State :=
  let s := if v &&& mask64 63 2 ≠ 0 then violate 0 0x02 s else s
  if fld v 1 0 = 1 then hbmDefine s else if fld v 1 0 = 2 then hbmRelease s else s

/-- HBT_DEFINE: CMD DEFINE. -/
def execHbtDefine (value : W64) (s : State) : Out := .next (bar0Write (writeHbtCmd (putFld value 1 0 1)) s)

/-- HBT_RELEASE: CMD RELEASE. -/
def execHbtRelease (value : W64) (s : State) : Out := .next (bar0Write (writeHbtCmd (putFld value 1 0 2)) s)

/-- Every line of a region reads zero, with fresh check bits; entries of earlier contents have drained before (R166). -/
def zeroRegion (r : HbmRegion) (s : State) : State :=
  let pcs := (List.range 256).filter fun pc => usesPc s r pc
  let inside (e : WcEntry) : Bool := usesPc s r e.pc && decide (r.base ≤ e.line) && decide (e.line < r.base + regionSpan r)
  let held (k : Nat) : Bool :=
    let line := k / 2 % Config.pcLines
    usesPc s r (k / 2 / Config.pcLines) && decide (r.base ≤ line) && decide (line < r.base + regionSpan r)
  s.onHbm fun h => { h with
    mem := pcs.foldl (fun m pc => Mem.clearRange m (hbmAddr pc r.base) (hbmAddr pc (r.base + regionSpan r))) h.mem
    wc := h.wc.map fun b => b.filter fun e => !inside e
    weak := h.weak.filter fun k => !held k
    rewritten := h.rewritten ++ (h.bad.map (·.1)).filter held
    bad := h.bad.filter fun x => !held x.1 }

/-- ZEROING_DONE (R166): every zeroing write has reached its queue; the region is READY. -/
def execZeroingDone (n : Ctx) (index : Fin 16) (s : State) : Out :=
  match hbmRegion s n.val index.val with
  | none => .next s
  | some r =>
    if r.ready then .next s
    else .next ((zeroRegion r (meetQueues .drain s)).onHbm fun h => { h with
      regions := Tab.put h.regions (regionKey n.val index.val) { r with ready := true } })

/-- A sector of an entry that is only partly valid costs a read of its line before the write (R175). -/
def partlyValid (e : WcEntry) : Bool :=
  [false, true].any fun x => let v := e.valid.toNat / 2 ^ (32 * b2n x) % 2 ^ 32; v != 0 && v != 2 ^ 32 - 1

/-- An entry drains and becomes free. -/
def drainOldest (stack : Nat) (e : WcEntry) (s : State) : State :=
  let s := if partlyValid e then hbmEcc (knownEcc s e.pc e.line) e.pc e.line s else s
  setWc stack ((wcEntries s e.pc).erase e) (drainEntry e s)

/-- WC_DRAIN (R175): the oldest sealed entry of a stack drains and becomes free. -/
def execWcDrain (stack : Panel) (s : State) : Out :=
  let l := vAt s.hbm.wc stack.val []
  match l.find? (·.sealed) with
  | none => .next s
  | some e => .next (drainOldest stack.val e (meetQueues .drain s))

/-- REFRESH_WINDOW (R168): a fixed window issues its refresh commands on every pseudo-channel. -/
def execRefreshWindow (s : State) : Out :=
  .next (s.onHbm fun h => { h with
    refreshes := h.refreshes + 1, refreshIndex := (h.refreshIndex + 1) % ((64 * s.stu.periodUnits.toNat + 255) / 256) })

/-- CALIBRATION_WINDOW (R168, R186): the tally lines waiting are written to the tally tables of their contexts. -/
def execCalibrationWindow (s : State) : Out :=
  let l := s.hbm.tallyOut
  let s := meetQueues .presser (s.onHbm fun h => { h with calibrations := h.calibrations + 1, tallyOut := [] })
  .next (s.each l fun s x =>
    match hbmRegion s x.1 (fld (s.ctx x.1).rank 23 20) with
    | some r =>
      unverifyBytes x.1 (fld (s.ctx x.1).rank 23 20) (64 * x.2.1) x.2.2.length (storeLines x.1 r (64 * x.2.1) x.2.2 s)
    | none => s)

/-- One sector that the scrubber found in error (R179 to R182): one corrected is rewritten, one corrected on the lap before as well
enters the row map; an uncorrectable free line is excluded and rewritten with zeros. -/
def scrubHbm (before : List Nat) (f : Fin 256 × Nat × Bool × Ecc) (s : State) : State :=
  let (pc, line, sector) := (f.1.val, f.2.1, f.2.2.1)
  match f.2.2.2 with
  | .ok => s
  | .corrected =>
    let key := sectorKey pc line sector
    let s := (hbmCorrected pc line sector s).onHbm fun h => { h with
      weak := h.weak.filter (· != key), lapCorrected := h.lapCorrected ++ [key] }
    if before.contains key then hbmRepair pc line s else s
  | .uncorrectable y sec =>
    let free := (hbmRegionAt s pc line).isNone
    let out : Bool := match hbmRegionAt s pc line with
      | none => true
      | some (n, _) => (s.ctx n).state == .faulted
    let s := (hbmUncorrectable pc line y sec true s).onHbm fun h => { h with
      excluded := if out && !h.excluded.contains (pc, line) then h.excluded ++ [(pc, line)] else h.excluded }
    if free then writeWhole pc line (List.replicate 64 0) s else s

/-- HBM_SCRUB_LAP (R180): a stack's lap ends; its length and counts are recorded, an event posted when SCRUB_EVT is set, what it
found is handled, and its pointers start again. -/
def execHbmScrubLap (stack : Panel) (length : Nat) (found : List (Fin 256 × Nat × Bool × Ecc)) (s : State) : Out :=
  if s.nPanels ≤ stack.val then .next s
  else
    let k := stack.val
    let mine (x : Nat) : Bool := x / 2 / Config.pcLines / 32 == k
    let before := s.hbm.lapCorrected.filter mine
    let s := s.onHbm fun h => { h with
      laps := vMod h.laps k fun c => satAdd 16 c 1
      lastLap := vMod h.lastLap k fun _ => min length (2 ^ 48 - 1)
      lapCorrected := h.lapCorrected.filter fun x => !mine x
      scrubbed := h.scrubbed.filter fun x => x.1 / 32 != k }
    let s := s.each found fun s f => scrubHbm before f s
    let ce := (found.filter fun f => f.2.2.2 == .corrected).length
    let ue := (found.filter fun f => f.2.2.2 != .corrected && f.2.2.2 != .ok).length
    .next (if bit s.hbm.ctrl 1 then
      post 0 0x09 [(16, [1]), (17, leBytes 1 k), (24, leBytes 8 length), (32, leBytes 8 ce), (40, leBytes 8 ue)] s else s)

/-- A write of HBT_CTRL (R390, Table 6-8): SCRUB_FLOOR outside 1 to 256 is ignored; LOCK locks both fields. -/
def writeHbtCtrl (v : W64) (s : State) : State :=
  let old := s.hbm.ctrl
  let locked := bit old 2
  let differs := fld v 24 16 ≠ fld old 24 16 ∨ bit v 1 ≠ bit old 1
  let s := if v &&& (mask64 63 25 ||| mask64 15 3 ||| 1) ≠ 0 ∨ (locked ∧ differs) then violate 0 0x02 s else s
  if locked then s
  else
    let floor := fld v 24 16
    let keep := if 1 ≤ floor ∧ floor ≤ 256 then floor else fld old 24 16
    s.onHbm fun h => { h with ctrl := putFld (v &&& 6) 24 16 keep }

/-- SCRUB_FLOOR_WRITE (R181): in force from the next boundary, with a ledger rebuild. -/
def execScrubFloorWrite (value : W64) (s : State) : Out := .next (bar0Write (writeHbtCtrl value) s)

/-- A stack at 105 °C or more, or three failed reads (R37, Table 6-3): FAULTED and a device fault; during a device reset
the stack is held off and the reset goes on (Table 13-15). -/
def stackThermal (k syndrome : Nat) (s : State) : State :=
  let s := s.onHbm fun h => { h with faulted := vMod h.faulted k fun _ => true }
  if inReset s then
    heldOff 0x06 k (tempWord s k) 0 (s.onFlt fun f => { f with heldStacks := f.heldStacks ||| bitsOf 8 [k] })
  else declareFault (faultRec s 0x20 4 0x06 k 0 (tempWord s k) 1 0 syndrome) s

/-- A stack's temperature as Table 6-3 takes it: the last reading, or 105 °C after 3 failed reads in a row. -/
def stackTemp (s : State) (k : Nat) : Int := if 3 ≤ vAt s.hbm.tempFails k 0 then 105 else (vAt s.hbm.temp k 0).toInt

/-- The HBM temperature reason follows a reading (R33, Table 6-3). -/
def hbmReason (c : Int) (s : State) : State :=
  let cool := (presented s).all fun k => decide (stackTemp s k ≤ 90)
  if 95 ≤ c ∧ s.stu.hbmTarget = 16 then
    platformEvent 0x09 [1] (logGeneral 0x09 0 [1, 0, 1] (s.onStu fun u => { u with hbmTarget := 20, hbmHot := 0 }))
  else if cool ∧ s.stu.hbmTarget ≠ 16 then
    platformEvent 0x09 [1] (logGeneral 0x09 0 [1, 0, 0] (s.onStu fun u => { u with hbmTarget := 16, hbmHot := 0 }))
  else s

/-- The temperature reads of a stack are suspended: HBM_WRAPPER selects it, or an HBM test runs on it (R424, Table
16-6). -/
def tempSuspended (s : State) (k : Nat) : Bool :=
  (match s.tap.wrapper with
    | some w => w.val == k
    | none => false) ||
  (s.tst.busy && s.tst.target == k && s.tst.test.toNat / 256 == 3)

/-- HBM_TEMP_READ (R172, Table 6-3). -/
def execHbmTempRead (stack : Panel) (o : TempObs) (s : State) : Out :=
  let k := stack.val
  if s.nPanels ≤ k ∨ tempSuspended s k = true then .next s
  else match o with
    | .reading c =>
      let w : BitVec 8 := BitVec.ofInt 8 c
      let s := s.onHbm fun h => { h with
        temp := vMod h.temp k fun _ => w
        tempMax := vMod h.tempMax k fun m => if m.toInt < c then w else m
        tempFails := vMod h.tempFails k fun _ => 0 }
      let s := if s.thm.restarting ∨ s.thm.halted then s else takeReading (96 + k) c s
      let s := hbmReason c s
      .next (if 105 ≤ c then stackThermal k 1 s else s)
    | .failed =>
      let n := min 3 (vAt s.hbm.tempFails k 0 + 1)
      let s := s.onHbm fun h => { h with tempFails := vMod h.tempFails k fun _ => n }
      .next (if n = 3 then stackThermal k 2 (hbmReason 105 s) else s)

/-- A write of HBT_TEMP_s (Table 6-10): MAX_CLR resets MAX to CURRENT; on a TVM-7028 the register of stack 7 takes no write. -/
def writeHbtTemp (k : Nat) (v : W64) (s : State) : State :=
  let s := checkRsv (mask64 63 32 ||| mask64 30 28 ||| mask64 23 16) v s
  if s.nPanels ≤ k then s
  else if bit v 31 then s.onHbm fun h => { h with tempMax := vMod h.tempMax k fun _ => vAt h.temp k 0 } else s

/-- HBM_TEMP_MAX_CLR: MAX_CLR written 1. -/
def execHbmTempMaxClr (stack : Panel) (value : W64) (s : State) : Out :=
  .next (bar0Write (writeHbtTemp stack.val (putFld value 31 31 1)) s)

/-! BAR2 (R374, R375). -/

/-- One line's part of a BAR2 access: the line, its first byte, and how many bytes. -/
def bar2Parts : Nat → Nat → Nat → List (Nat × Nat × Nat)
  | 0, _, _ => []
  | _, _, 0 => []
  | fuel + 1, o, n =>
    let k := min n (64 - o % 64)
    (o / 64, o % 64, k) :: bar2Parts fuel (o + k) (n - k)

/-- One part reaches its line's queue as an access of the port H engine. -/
def bar2Part (n : Nat) (r : HbmRegion) (region base : Nat) (k : Bar2Kind) (skip : Nat) (part : Nat × Nat × Nat) (s : State) :
    State :=
  match lineOf s n r (base + part.1) with
  | none => s
  | some (pc, line) =>
    let kind : AccessKind := match k with
      | .read _ => .bar2Read part.2.2 part.2.1
      | .write bs =>
        .bytesWrite (mask64 (part.2.1 + part.2.2 - 1) part.2.1)
          (BitVec.ofNat 512 (fromLe ((bs.drop skip).take part.2.2) * 2 ^ (8 * part.2.1)))
    s.onHbm fun h => { h with inflight := h.inflight ++ [
      { pc := pc, line := line, source := .portH, arrival := s.ns, key := 0, kind := kind, owner := Fin.ofNat 16 n,
        region := region, transfer := none }] }

/-- BAR2_ACCESS (R374): through window w to the region HRG_WIN_w names; a violation of kind 0x01 where the window is closed
or the line is beyond the region. While RESETTING is set a read returns zeros and a write does nothing, uncounted (R364);
in MANAGEMENT_ONLY it is a violation (R366). -/
def execBar2Access (offset : Nat) (k : Bar2Kind) (s : State) : Out :=
  let count := match k with
    | .read n => n
    | .write bs => bs.length
  let zero (s : State) : State := match k with
    | .read n => s.emit (.bar2Data (List.replicate n 0))
    | .write _ => s
  if s.flt.resetting then .next (zero s)
  else
    let w := vAt s.hif.windows (offset / 2 ^ 34 % 16) 0
    let (n, i, base) := (fld w 43 40, fld w 39 36, fld w 35 0)
    let parts := bar2Parts (count + 1) (offset % 2 ^ 34) count
    match hbmRegion s n i with
    | none => .next (zero (violate 0 0x01 s))
    | some r =>
      if s.flt.mode = 2 ∨ ¬ bit w 63 ∨ parts.any fun p => decide (regionLines s r ≤ base + p.1) then
        .next (zero (violate 0 0x01 s))
      else
        .next (parts.foldl (fun (acc : State × Nat) p => (bar2Part n r i base k acc.2 p acc.1, acc.2 + p.2.2)) (s, 0)).1

/-- BAR2_TIMEOUT (R375): the oldest BAR2 read not served completes with Completer Abort and is counted. -/
def execBar2Timeout (s : State) : Out :=
  let isRead (a : Access) : Bool := match a.kind with
    | .bar2Read _ _ => true
    | _ => false
  match s.hbm.inflight.find? isRead with
  | none => .next s
  | some a =>
    let s := s.onHbm fun h => { h with inflight := h.inflight.erase a }
    .next ((s.onHif fun h => { h with bar2Timeouts := satAdd 32 h.bar2Timeouts 1 }).emit .bar2Abort)

/-- BAR0_ACCESS_ERROR (R373): a wrong size or a misaligned access reads zero, writes nothing, and is a violation of kind
0x02; while RESETTING is set it is not counted (R364). -/
def execBar0AccessError (_offset _size : Nat) (write : Bool) (s : State) : Out :=
  let s := if s.flt.resetting then s else violate 0 0x02 s
  .next (if write then s else s.emit (.readData 0))

end Sys2Proof.Machine
end

