-- ==== Sys2Proof/Machine/StuOps.lean ====
section
/-! DEFINITION. The stitch unit's shared operations (01_stitch): the start barrier's counts (R29, R30), the stretch request
and its announcements (R34, R35), and the lengths of a stitch (R31). -/

namespace Sys2Proof.Machine

/-- The tree down which this device sends: a master its own, any other the tree it follows (R25, R26). -/
def downTree (s : State) : Bool := if role s = 2 then s.stu.sendsAlt else s.stu.tree

/-! Barriers (R29). -/

/-- The state of a tag and start stitch is freed. -/
def dropBarrier (tag : BitVec 16) (start : Stitch) (s : State) : State :=
  s.onStu fun u => { u with barriers := u.barriers.filter fun b => !(b.tag == tag && b.start == start) }

/-- An entry armed with a barrier takes its outcome. -/
def markEntry (tag : BitVec 16) (start : Stitch) (go : Bool) (e : ArmEntry) : ArmEntry :=
  if e.barrier = some tag ∧ e.first = start then (if go then { e with go := true } else { e with missed := true }) else e

/-- Every entry armed with a barrier takes its outcome (R30). -/
def markEntries (tag : BitVec 16) (start : Stitch) (go : Bool) (s : State) : State :=
  s.onWork fun w => { w with entries := w.entries.map (markEntry tag start go) }

/-- GO or MISS reaches the device: its own entries are marked, the message goes down the tree, the state is freed (R29,
R30). -/
def barrierOutcome (tag : BitVec 16) (start : Stitch) (go : Bool) (s : State) : State :=
  let s := sendDown (downTree s) (if go then .go tag start else .miss tag start) s
  dropBarrier tag start (markEntries tag start go s)

/-! Stretch (R33 to R35). -/

/-- SYS_FACTOR requests a stretch: 17 to 32. -/
def sysRequest (s : State) : Nat := let k := s.stu.sysFactor.toNat; if 17 ≤ k ∧ k ≤ 32 then k else 16

/-- The largest factor that panel thermal reasons request (Table 1-8). -/
def panelRequest (s : State) : Nat := ((List.range 8).map fun p => (vAt s.thm.panels p {}).targetK).foldl max 16

/-- OWN_FACTOR: the largest k among the active reasons (R33). -/
def ownRequest (s : State) : Nat :=
  max (max (panelRequest s) s.stu.hbmTarget) (max (if s.stu.supply then 32 else 16) (sysRequest s))

/-- REASONS of this device (Table 1-5). -/
def ownReasons (s : State) : BitVec 4 :=
  BitVec.ofNat 4 (b2n (decide (16 < panelRequest s)) + 2 * b2n (decide (16 < s.stu.hbmTarget)) + 4 * b2n s.stu.supply +
    8 * b2n (decide (16 < sysRequest s)))

/-- SUBTREE_FACTOR (R34): the largest of OWN_FACTOR and what the children last sent. -/
def subtreeRequest (s : State) : Nat :=
  ((s.stu.childFactors.filter fun c => (treeChildren s false).contains c.1).map fun c => c.2.toNat).foldl max
    s.stu.ownFactor.toNat

/-- The reasons of the subtree. -/
def subtreeReasons (s : State) : BitVec 4 :=
  ((s.stu.childReasons.filter fun c => (treeChildren s false).contains c.1).map fun c => c.2).foldl (· ||| ·) (ownReasons s)

/-- SUBTREE_FACTOR is computed again; a change, of the factor or of the reasons, sends STRETCH_REQ up (R34). -/
def updateSubtree (s : State) : State :=
  let k := BitVec.ofNat 6 (subtreeRequest s)
  let r := subtreeReasons s
  if k = s.stu.subtreeFactor ∧ r = s.stu.sentReasons then s
  else sendUp (.stretchReq k r) (s.onStu fun u => { u with subtreeFactor := k, sentReasons := r })

/-- OWN_FACTOR is computed again at a boundary (R34); a change of reasons is reported to the BMC (R403). -/
def updateOwn (s : State) : State :=
  let k := BitVec.ofNat 6 (ownRequest s)
  let s := s.onStu fun u => { u with ownFactor := k }
  updateSubtree s

/-- An announcement joins the queue, in order of apply stitch; at most 8 are pending (R34). -/
def announce (a : Announcement) (s : State) : State :=
  if 8 ≤ s.stu.queue.length then s
  else
    let (early, late) := s.stu.queue.span fun b => !before a.apply b.apply
    s.onStu fun u => { u with queue := early ++ a :: late }

/-- The period in force once every announced period has applied (R35). -/
def targetPeriod (s : State) : BitVec 24 :=
  s.stu.queue.foldl (fun p a => match a.kind with
    | .period u => u
    | .stretch _ => p) s.stu.periodUnits

/-- A period announcement is pending. -/
def periodAnnounced (s : State) : Bool := s.stu.queue.any fun a => match a.kind with
  | .period _ => true
  | .stretch _ => false

/-- The device decides announcements itself: master or standalone. -/
def leads (s : State) : Bool := role s == 0 || role s == 2

/-- A period is announced now, applying 8 stitches later (R18, R35). -/
def announcePeriod (units : BitVec 24) (s : State) : State :=
  let at8 := s.stu.stitch + 8
  let s := announce { kind := .period units, apply := at8 } s
  let s := s.onStu fun u => { u with annSent := true, held := none }
  if role s = 2 then sendDown (downTree s) (.periodAnn units at8) s else s

/-- What the leader announces at a boundary (R34, R35): a new factor first, else a held period. -/
def leaderAnnounce (s : State) : State :=
  if ¬ leads s then s
  else
    let k := s.stu.subtreeFactor
    let lower : Bool := decide (k.toNat < s.stu.curFactor.toNat) && decide (s.stu.factorAge < 64)
    if k ≠ s.stu.lastAnnounced ∧ ¬ lower ∧ s.stu.queue.length < 8 then
      let at8 := s.stu.stitch + 8
      let s := announce { kind := .stretch k, apply := at8 } s
      let s := s.onStu fun u => { u with annSent := true, stretchSent := true, lastAnnounced := k }
      if role s = 2 then sendDown (downTree s) (.stretchAnn k at8) s else s
    else match s.stu.held with
      | some u => if s.stu.queue.length < 8 ∧ ¬ periodAnnounced s then announcePeriod u s else s
      | none => s

/-- The time-base cycles of a stitch (R31). -/
def stitchLength (units : BitVec 24) (k : BitVec 6) : Nat := 4 * units.toNat * k.toNat

/-- The stitch under way gets the length of the period and factor in force. -/
def relength (s : State) : State := s.onStu fun u => { u with length := stitchLength u.periodUnits u.curFactor }

/-- The patterns dispatched in the stitch, with the band that runs each. -/
def dispatched (s : State) : List (Nat × Pattern) :=
  s.stu.bands.filterMap fun b => (patternOf s b.2.ctx.val b.2.handle).map fun p => (b.1, p)

/-- A panel runs at 16/k of the nominal clock by its own reason: its thermal target is reached and it has not cooled
(R407), or a dispatched pattern on it declares seam entries (R224). -/
def slowedAlone (s : State) (p : Nat) : Bool :=
  let x := vAt s.thm.panels p {}
  (decide (16 < x.targetK) && !x.cooled && decide (x.targetK ≤ s.stu.curFactor.toNat)) ||
    (dispatched s).any fun b => b.1 / 16 == p && b.2.seam.any fun e => e.2 != 0

/-- One round of R117: panels joined to a slowed panel by a bridge of a dispatched pattern are slowed too. -/
def slowedJoin (s : State) (l : List Nat) : List Nat :=
  (List.range 8).filter fun p => l.contains p || (dispatched s).any fun b => b.2.bridges.any fun e =>
    (e.1 == p && l.contains e.2) || (e.2 == p && l.contains e.1)

/-- Every panel's clock for the stitch (R31, R117, R224, R407): 16/k where slowed, else nominal. -/
def panelClocks (s : State) : State :=
  let k := s.stu.curFactor.toNat
  let one := (List.range 8).filter fun p => slowedAlone s p
  let all := (List.range 8).foldl (fun l _ => slowedJoin s l) one
  s.onThm fun t => { t with panels := Vector.ofFn fun p =>
    { vAt t.panels p.val {} with clockK := if 16 < k ∧ all.contains p.val then k else 16 } }

/-- Every context that is not FREE gets a stretch event (R36, Table 14-7). -/
def stretchEvent (oldK : BitVec 6) (oldU : BitVec 24) (s : State) : State :=
  let (k, u) := (s.stu.curFactor, s.stu.periodUnits)
  s.each ((List.range 16).filter fun n => ctxDefined s n) fun s n =>
    post n 0x07 [(16, leBytes 1 oldK.toNat), (17, leBytes 1 k.toNat), (20, leBytes 4 oldU.toNat), (24, leBytes 4 u.toNat)] s

end Sys2Proof.Machine
end

