-- ==== Sys2Proof/Machine/StuCmds.lean ====
section
/-! DEFINITION. The commands of the stitch unit other than the boundary itself (01_stitch): messages, barriers, takeover and
holdover, stretch and period, the registers and the stretch reasons. -/

namespace Sys2Proof.Machine

/-- The device follows a marker tree: ROLE is member or backup. -/
def follows (s : State) : Bool := role s == 1 || role s == 3

/-- ROLE is rewritten by the device itself, LOCK or not (Table 1-2). -/
def setRole (r : Nat) (s : State) : State := s.onStu fun u => { u with ctrl := putFld u.ctrl 1 0 r }

/-! Markers (R23 to R27, R421). -/

/-- A marker goes down its tree: the delay of each outgoing link is added to ACC_DELAY (R23), and the latency from `since` when it
departs (R231). -/
def queueMarker (m : MarkerMsg) (since : Int) (s : State) : State :=
  s.each (treeChildren s m.tree) fun s i =>
    queueVc0 i { msg := .marker { m with accDelay := m.accDelay + (s.port i).delayPs }, since := since } s

/-- A marker that arrived at a time goes on down its tree, one hop more (R23). -/
def forwardMarker (m : MarkerMsg) (arrival : Int) (s : State) : State :=
  queueMarker { m with hops := satInc m.hops 1 } (stitchStartPs s + arrival) s

/-- The master's own MARKER for the boundary it has just marked (R23); the first receiver is one hop away. -/
def sendMarker (s : State) : State :=
  if role s ≠ 2 then s
  else queueMarker
    { groupId := BitVec.ofNat 16 (fld s.stu.ctrl 31 16), epoch := s.stu.epoch, tree := s.stu.sendsAlt,
      stitch := s.stu.stitch, hops := 1, accDelay := 0 } (stitchStartPs s) s

/-- An epoch is higher than another (R25): modulo 2^8. -/
def epochHigher (a b : BitVec 8) : Bool := let d := (a - b).toNat; decide (1 ≤ d) && decide (d ≤ 127)

/-- A marker of the group is accepted (R25, R26): of a higher epoch than any seen, or of the held one on the tree followed;
the alternate tree is followed once a boundary has passed without a primary marker. A master accepts a higher epoch only. -/
def acceptsMarker (s : State) (m : MarkerMsg) : Bool :=
  let u := s.stu
  m.groupId.toNat == fld u.ctrl 31 16 &&
    ((role s == 2 && epochHigher m.epoch u.epoch) ||
      (follows s && (!u.epochHeld || epochHigher m.epoch u.epoch ||
        (m.epoch == u.epoch && (!m.tree || decide (0 < u.primaryMissed))))))

/-- An alignment record (Table 13-4). -/
def alignmentRec (s : State) (cls sub : Nat) (stitch : Nat) : FaultRec :=
  faultRec s 0x08 cls 0x0A 0 0 0 0 0 (sub + 65536 * stitch)

/-- OFFSET: the arrival less ACC_DELAY, measured from the own boundary (Table 1-6). A correction beyond the field is a free
value. -/
def markerOffset (s : State) (m : MarkerMsg) (arrival : Int) : BitVec 16 :=
  let d := arrival - m.accDelay.toNat
  if -32768 ≤ d ∧ d ≤ 32767 then BitVec.ofInt 16 d else BitVec.ofNat 16 (Config.freeNat s.free)

/-- What an accepted marker sets (R23 to R27, R421): alignment status, the correction that the next boundary takes, the followed tree,
and, while acquiring, the stitch number. -/
def takeMarker (m : MarkerMsg) (arrival : Int) (s : State) : State :=
  let acquiring := s.stu.acquiring
  let off := markerOffset s m arrival
  let s := s.drew.onStu fun u => { u with
    offset := off, correctionPs := arrival - m.accDelay.toNat, missed := 0, holdover := false, tree := m.tree, epoch := m.epoch, epochHeld := true, hops := m.hops,
    markerSeen := true, primarySeen := u.primarySeen || !m.tree, acquiring := false, counting := u.counting || acquiring,
    stitch := if acquiring then m.stitch else u.stitch }
  if 64 < m.hops.toNat then declareFault (alignmentRec s 1 1 m.stitch.toNat) s else s

/-- MARKER (R25): checked for group and epoch, then taken; a stitch number other than the one the own boundary opened is
reported, not adopted; a former master becomes a member. It is forwarded along its tree. -/
def execMarker (port : PortId) (m : MarkerMsg) (arrivalPs : Int) (s : State) : Out :=
  if stitchStops s ∨ (s.port port.val).state ≠ .active ∨ ¬ acceptsMarker s m then .next s
  else
    let s := if role s = 2 then (setRole 1 s).onStu fun u => { u with sendsAlt := false } else s
    let differs : Bool := !s.stu.acquiring && s.stu.counting && decide (m.stitch ≠ s.stu.stitch)
    let s := if differs then declareFault (alignmentRec s 1 2 m.stitch.toNat) s else s
    .next (forwardMarker m arrivalPs (takeMarker m arrivalPs s))

/-- MASTER_TAKEOVER (R26): after 3 boundaries without a primary marker the backup becomes master at its next boundary and
sends on the alternate tree. The former master is its lining partner (R22), the neighbour of the lining ports. -/
def execMasterTakeover (s : State) : Out :=
  if role s ≠ 3 ∨ ¬ bit s.stu.ctrl 2 ∨ s.stu.acquiring ∨ s.stu.primaryMissed < 3 ∨ ¬ inMaintenance s then .next s
  else
    let epoch := s.stu.epoch + 1
    let former := (s.port 12).nbAddr.toNat
    let s := (setRole 2 s).onStu fun u => { u with
      epoch := epoch, epochHeld := true, sendsAlt := true, holdover := false, missed := 0, primaryMissed := 0,
      lastAnnounced := u.queue.foldl (fun k a => match a.kind with
        | .stretch j => j
        | .period _ => k) u.curFactor }
    .next (sendMarker (declareFault (faultRec s 0x09 1 0x0A 0 0 0 0 0 (former + 65536 * epoch.toNat)) s))

/-- HOLDOVER (R27): no MARKER for 3 consecutive boundaries. -/
def execHoldover (s : State) : Out :=
  if follows s ∧ bit s.stu.ctrl 2 ∧ ¬ s.stu.acquiring ∧ 3 ≤ s.stu.missed.toNat then
    .next (s.onStu fun u => { u with holdover := true })
  else .next s

/-- ALIGNMENT_FAULT (R27): MISSED has reached 64; the record has no marker's stitch number to carry, so that field is a free
value. Not during a device reset, whose end starts the count again (R369). -/
def execAlignmentFault (s : State) : Out :=
  if follows s ∧ bit s.stu.ctrl 2 ∧ ¬ s.stu.acquiring ∧ s.stu.missed.toNat = 64 ∧ ¬ inReset s then
    .next (declareFault (alignmentRec s 4 3 (Config.freeNat s.free % 2 ^ 40)) s.drew)
  else .next s

/-! Stretch messages (R34) and announcements. -/

/-- STRETCH_REQ (R34): a child's request is kept and a changed subtree factor goes up. -/
def execStretchReq (port : PortId) (factor : BitVec 6) (reasons : BitVec 4) (s : State) : Out :=
  if stitchStops s ∨ ¬ (treeChildren s false).contains port.val then .next s
  else .next (updateSubtree (s.onStu fun u => { u with
    childFactors := Tab.put u.childFactors port.val factor, childReasons := Tab.put u.childReasons port.val reasons }))

/-- STRETCH_ANN (R34): queued by a device that follows, and forwarded down the tree. -/
def execStretchAnn (_port : PortId) (k : BitVec 6) (apply : Stitch) (s : State) : Out :=
  if stitchStops s ∨ ¬ follows s then .next s
  else .next (sendDown (downTree s) (.stretchAnn k apply) (announce { kind := .stretch k, apply := apply } s))

/-- PERIOD_ANN (R18): queued by a device that follows, and forwarded down the tree. -/
def execPeriodAnn (_port : PortId) (units : BitVec 24) (apply : Stitch) (s : State) : Out :=
  if stitchStops s ∨ ¬ follows s then .next s
  else .next (sendDown (downTree s) (.periodAnn units apply) (announce { kind := .period units, apply := apply } s))

/-- The first pending announcement is due: its apply stitch has been opened, in the maintenance slot. -/
def dueHead (s : State) : Option Announcement :=
  match s.stu.queue with
  | [] => none
  | a :: _ => if inMaintenance s ∧ s.stu.counting ∧ ¬ stitchStops s ∧ ¬ before s.stu.stitch a.apply then some a else none

/-- A stretch factor takes effect (R31, R32, R36, R117, R224). -/
def applyStretch (k : BitVec 6) (s : State) : State :=
  let (oldK, oldU) := (s.stu.curFactor, s.stu.periodUnits)
  let s := panelClocks (relength (s.onStu fun u => { u with curFactor := k, factorAge := 0 }))
  if oldK = k then s else stretchEvent oldK oldU s

/-- The leader announces at a boundary by the factor and the queue as they stand once what is due has applied (R34, R35). -/
def announceAfter (s : State) : State := if s.stu.annSent || stitchStops s then s else leaderAnnounce s

/-- STRETCH_CHANGE (R31): the pending factor at the head of the queue takes effect at its apply stitch. -/
def execStretchChange (s : State) : Out :=
  match dueHead s with
  | some { kind := .stretch k, .. } => .next (announceAfter (applyStretch k (s.onStu fun u => { u with queue := u.queue.drop 1 })))
  | _ => .next s

/-- A period takes effect (R17, R36, R136, R276): what no longer fits is withdrawn before any pattern of the stitch issues. -/
def applyPeriod (units : BitVec 24) (s : State) : State :=
  let (oldK, oldU) := (s.stu.curFactor, s.stu.periodUnits)
  let s := relength (s.onStu fun u => { u with periodUnits := units })
  let s := rebuildLedger (budgetCheck s)
  if oldU = units then s else stretchEvent oldK oldU s

/-- PERIOD_CHANGE (R17): the pending period at the head of the queue takes effect at its apply stitch. -/
def execPeriodChange (s : State) : Out :=
  match dueHead s with
  | some { kind := .period u, .. } => .next (announceAfter (applyPeriod u (s.onStu fun x => { x with queue := x.queue.drop 1 })))
  | _ => .next s

/-! Barriers (R29, R30). -/

/-- READY (R29): a child's count for a tag; a seventeenth tag is discarded, and so is one whose start has passed. -/
def execReady (port : PortId) (m : ReadyMsg) (s : State) : Out :=
  let known := (barrierOf s m.tag m.start).isSome
  if stitchStops s ∨ ¬ (treeChildren s false).contains port.val ∨ ¬ before s.stu.stitch m.start ∨
      (¬ known ∧ 16 ≤ s.stu.barriers.length) then .next s
  else
    let c : ChildCount := { port := port, expected := m.expected, count := m.count }
    .next (pushReady m.tag m.start (onBarrier m.tag m.start (fun b =>
      { b with children := (b.children.filter fun x => x.port != port) ++ [c] }) s))

/-- GO (R30): ignored after the boundary of its start stitch. -/
def execGo (_port : PortId) (tag : BitVec 16) (start : Stitch) (s : State) : Out :=
  if stitchStops s ∨ ¬ follows s ∨ ¬ before s.stu.stitch start then .next s
  else .next (barrierOutcome tag start true s)

/-- MISS (R30): ignored after the boundary of its start stitch; the entries are withdrawn at the next boundary. -/
def execMiss (_port : PortId) (tag : BitVec 16) (start : Stitch) (s : State) : Out :=
  if stitchStops s ∨ ¬ follows s ∨ ¬ before s.stu.stitch start then .next s
  else .next (barrierOutcome tag start false s)

/-- The summed count of a barrier equals its expected count, which is not 0 (R30). -/
def barrierMet (b : Barrier) : Bool := let x := barrierSum b; x.1 == x.2 && x.1 != 0

/-- BARRIER_CHECK (R30): at the boundary of start − 8 the master decides every pending tag. -/
def execBarrierCheck (s : State) : Out :=
  if stitchStops s ∨ ¬ leads s ∨ ¬ inMaintenance s then .next s
  else
    let due := s.stu.barriers.filter fun b => b.start == s.stu.stitch + 8
    .next (s.each due fun s b => barrierOutcome b.tag b.start (barrierMet b) s)

/-- A barrier's start stitch has come without GO (R30): an entry armed with it is withdrawn. -/
def barrierExpired (s : State) (e : ArmEntry) : Bool := e.barrier.isSome && !e.go && !before s.stu.stitch e.first

/-- The withdrawals and the freed tags of start stitches that have come (R29, R30). -/
def expireBarriers (s : State) : State :=
  let s := s.each (s.work.entries.filter fun e => barrierExpired s e) fun s e =>
    withdrawNow 0x32 (e.barrier.getD 0).toNat (e.first.toNat % 2 ^ 32) e s
  s.onStu fun u => { u with barriers := u.barriers.filter fun b => before u.stitch b.start }

/-- BARRIER_TIMEOUT (R30): neither GO nor MISS by the boundary of the start stitch. -/
def execBarrierTimeout (s : State) : Out :=
  if stitchStops s ∨ ¬ inMaintenance s then .next s else .next (expireBarriers s)

/-! Registers (Tables 1-2, 1-3, 1-5). -/

/-- A change of ENABLE or ROLE (R421). -/
def enableChange (was now : Bool) (s : State) : State :=
  if ¬ was ∧ now then
    (if follows s then s.onStu fun u => { u with acquiring := true, holdover := true, missed := 0, counting := false }
     else s.onStu fun u => { u with counting := false })
  else if was ∧ ¬ now then s.onStu fun u => { u with counting := false, acquiring := false }
  else if ¬ follows s ∧ s.stu.acquiring then s.onStu fun u => { u with acquiring := false, holdover := false }
  else s

/-- A write of STU_CTRL (Table 1-2, R25, R390): locked fields keep their values; an applied write of GROUP_ID clears the held
epoch. -/
def writeStuCtrl (v : W64) (s : State) : State :=
  let rwl : W64 := 0xFFFF0007
  let old := s.stu.ctrl
  let rsv := v &&& ~~~ (0xFFFF000F : W64) ≠ 0
  if bit old 3 then
    (if rsv ∨ (v ^^^ old) &&& rwl ≠ 0 then violate 0 0x02 s else s)
  else
    let s := s.onStu fun u => { u with
      ctrl := v &&& 0xFFFF000F, epochHeld := false, epoch := 0, sendsAlt := u.sendsAlt && fld v 1 0 == fld u.ctrl 1 0 }
    let s := enableChange (bit old 2) (bit v 2) s
    if rsv then violate 0 0x02 s else s

/-- STU_ENABLE (R421): a write of STU_CTRL with ENABLE set. -/
def execStuEnable (value : W64) (s : State) : Out :=
  .next (bar0Write (writeStuCtrl (value ||| 4)) s)

/-- The least period a write may carry: 32, and 51 while a context has SRV_CFG_n.EN set (R18, R275). -/
def leastPeriod (s : State) : Nat :=
  if (List.range 16).any fun n => (s.srvCtx n).disabling || bit (s.srvCtx n).cfg 63 then 51 else 32

/-- A period that a master or standalone device accepts (R18, R35). -/
def acceptPeriod (u : BitVec 24) (s : State) : State :=
  if ¬ bit s.stu.ctrl 2 then s.onStu fun x => { x with immediate := some u, held := none }
  else
    let target := s.stu.queue.foldl (fun p a => match a.kind with
      | .period v => v
      | .stretch _ => p) (s.stu.immediate.getD s.stu.periodUnits)
    if u = target then s.onStu fun x => { x with held := none }
    else if role s = 0 ∧ ¬ s.stu.annSent ∧ s.stu.queue.length < 8 ∧ ¬ periodAnnounced s then announcePeriod u s
    else s.onStu fun x => { x with held := some u }

/-- A write of STU_PERIOD (R18, R35, R275). -/
def writeStuPeriod (v : W64) (s : State) : State :=
  let u := v.setWidth 24
  let viol := v &&& mask64 61 48 ≠ 0 ∨ (follows s ∧ u ≠ s.stu.periodUnits)
  let s := if viol then violate 0 0x02 s else s
  if follows s then s
  else if u.toNat < leastPeriod s then postWithdrawal 0 0x3F 0 u.toNat 0 s
  else acceptPeriod u s

/-- STU_PERIOD_WRITE. -/
def execStuPeriodWrite (value : W64) (s : State) : Out :=
  .next (bar0Write (writeStuPeriod value) s)

/-- A write of STU_STRETCH_REQ (Table 1-5). -/
def writeStretchReq (v : W64) (s : State) : State :=
  let s' := s.onStu fun u => { u with sysFactor := BitVec.ofNat 6 (fld v 21 16) }
  if v &&& (mask64 63 28 ||| mask64 23 22 ||| mask64 15 14 ||| mask64 7 6) ≠ 0 then violate 0 0x02 s' else s'

/-- SYS_FACTOR (R33). -/
def execSysFactor (value : W64) (s : State) : Out :=
  .next (bar0Write (writeStretchReq value) s)

/-! Stretch reasons (R33, Table 1-8). -/

/-- A factor two higher, up to 32. -/
def stepUp (k : Nat) : Nat := min 32 (k + 2)

/-- THERMAL_STEP_UP (R33): 256 boundaries at or above the threshold. -/
def execThermalStepUp (r : ThermalReason) (s : State) : Out :=
  match r with
  | .panel p =>
    let k := vAt s.thm.panels p.val {}
    if 256 ≤ k.hot ∧ 16 < k.targetK then
      .next (s.onThm fun t => { t with panels := vMod t.panels p.val fun x => { x with targetK := stepUp x.targetK, hot := 0 } })
    else .next s
  | .hbm =>
    if 256 ≤ s.stu.hbmHot ∧ 16 < s.stu.hbmTarget then
      .next (s.onStu fun u => { u with hbmTarget := stepUp u.hbmTarget, hbmHot := 0 })
    else .next s

/-- THERMAL_WITHDRAW (R33, R407): 1,024 stitches at nominal clock with every sensor at 85 °C or less. -/
def execThermalWithdraw (p : Panel) (s : State) : Out :=
  let k := vAt s.thm.panels p.val {}
  if 16 < k.targetK ∧ k.cooled ∧ 1024 ≤ k.nominal then
    let s := s.onThm fun t => { t with panels := vMod t.panels p.val fun x =>
      { x with targetK := 16, cooled := false, nominal := 0, hot := 0 } }
    .next (platformEvent 0x09 [0, BitVec.ofNat 8 p.val] (logGeneral 0x09 0 [0, BitVec.ofNat 8 p.val, 0] s))
  else .next s

/-- What the rail monitor sees lies outside its limit (R408, R440): its number and whether the supply reason is raised; a
rail outside its absolute range trips the comparator instead. -/
def supplySeen (s : State) : SupplyObs → Nat × Bool × Bool
  | .rail r mv => (r.val, !railHeld s r.val && !railOperating s r.val mv, railAbsolute s r.val mv == 0)
  | .inputPower w => (32, decide (9600 < w), true)

/-- SUPPLY_REASON (R408): a limit left raises the supply stretch reason; an observation inside its limit counts toward the
withdrawal. -/
def execSupplyReason (o : SupplyObs) (s : State) : Out :=
  if s.thm.restarting ∨ s.thm.halted ∨ ¬ s.power.inputOk then .next s
  else
    let (i, bad, raises) := supplySeen s o
    let others := s.stu.supplyBad.filter fun x => x != i
    let s := s.onStu fun u => { u with supplyBad := if bad then i :: others else others }
    if bad ∧ raises then
      let fresh := !s.stu.supply
      let s := s.onStu fun u => { u with supply := true, supplyOk := 0 }
      .next (if fresh then platformEvent 0x09 [2] (logGeneral 0x09 0 [2, 0, 1] s) else s)
    else .next s

/-- SUPPLY_WITHDRAW (R408): 1,024 stitches with every limit met. -/
def execSupplyWithdraw (s : State) : Out :=
  if s.stu.supply ∧ 1024 ≤ s.stu.supplyOk ∧ s.stu.supplyBad = [] then
    .next (platformEvent 0x09 [2] (logGeneral 0x09 0 [2, 0, 0] (s.onStu fun u => { u with supply := false, supplyOk := 0 })))
  else .next s

end Sys2Proof.Machine
end

