-- ==== Sys2Proof/Machine/Tallies.lean ====
section
/-! DEFINITION. The tally summaries (02_numerics, R73, R74): a stitch's tallies of a band's cores, the step summary they merge
into, and closing it. -/

namespace Sys2Proof.Machine

/-- The bands a context owns, in global order. -/
def ownedBands (s : State) (n : Nat) : List Nat :=
  (List.range 128).filter fun g => bandState s g != .unavailable && (s.band g).owner.val == n

/-- Two tallies combined (R74): MAXEXP by signed maximum, the counts by saturating sum. -/
def mergeTally (a b : Tally) : Tally :=
  { maxexp := if a.maxexp.toInt < b.maxexp.toInt then b.maxexp else a.maxexp
    sat := satInc a.sat b.sat.toNat
    nf := satInc a.nf b.nf.toNat
    underrun := satInc a.underrun b.underrun.toNat
    ftz := satInc a.ftz b.ftz.toNat
    expertOvf := satInc a.expertOvf b.expertOvf.toNat
    emptyRow := satInc a.emptyRow b.emptyRow.toNat }

/-- Four groups combined. -/
def mergeGroups (a b : List Tally) : List Tally := (a.zip b).map fun x => mergeTally x.1 x.2

/-- Four groups that have counted nothing. -/
def noTallies : List Tally := List.replicate 4 {}

/-- The tokens that library code passed through in the stitch just ended, in group 0 (R73, R216): none where the band ran no
pattern that calls the library. How the token-exchange program counts them is the program's, and the count is free. -/
def passedThrough (s : State) (n g : Nat) : List Tally :=
  let runs : Bool := match Tab.find s.stu.bands g with
    | some b => match patternOf s b.ctx.val b.handle with
      | some p => p.library
      | none => false
    | none => false
  if runs then { expertOvf := BitVec.ofNat 32 (Config.passedTokens n g s.stu.marks) } :: List.replicate 3 {} else noTallies

/-- The stitch summary of a band: the tallies of its cores. -/
def bandTally (s : State) (n g : Nat) : List Tally :=
  (s.cores.cores.filter fun x => bandOfCore x.1 == g).foldl (fun t x => mergeGroups t x.2.tallies.toList) (passedThrough s n g)

/-- The 32 bytes of one group (Table 2-10). -/
def groupBytes (t : Tally) : List Byte :=
  leBytes 4 t.maxexp.toNat ++ leBytes 4 t.sat.toNat ++ leBytes 4 t.nf.toNat ++ leBytes 4 t.underrun.toNat ++
    leBytes 4 t.ftz.toNat ++ leBytes 4 t.expertOvf.toNat ++ leBytes 4 t.emptyRow.toNat ++ leBytes 4 0

/-- The 128 bytes of a band's summary (Table 2-10). -/
def summaryBytes (l : List Tally) : List Byte := (l.map groupBytes).flatten

/-- A summary waits for the calibration window, in place of an older one of the same lines (R186). -/
def queueSummary (n line : Nat) (b : List Byte) (s : State) : State :=
  s.onHbm fun h => { h with tallyOut := h.tallyOut.filter (fun x => !(x.1 == n && x.2.1 == line)) ++ [(n, line, b)] }

/-- The stitch summary of one band of a context: written, and merged into the step summary (R74). -/
def collectBand (n : Nat) (s : State) (g : Nat) : State :=
  let t := bandTally s n g
  (queueSummary n (4 * g) (summaryBytes t) s).onStu fun u => { u with
    steps := Tab.put u.steps g (mergeGroups (Tab.getD u.steps g noTallies) t) }

/-- The panel sequencers collect the stitch just ended: tallies, which they clear, and corrected-error counts (R73, R74,
R91). -/
def collectTallies (s : State) : State :=
  let s := s.each (liveContexts s) fun s n => s.each (ownedBands s n) (collectBand n)
  let count (p : Nat) : Nat := ((s.cores.cores.filter fun x => x.1 / 10000 == p).map fun x => x.2.ceCount).sum
  s.onCores fun k => { k with
    corrected := Vector.ofFn fun p => satAdd 48 (vAt k.corrected p.val 0) (count p.val)
    cores := k.cores.map fun x => (x.1, { x.2 with tallies := Vector.replicate 4 {}, ceCount := 0 }) }

/-- The sum of a count over every band and group, saturating (Table 14-7). -/
def sumOver (f : Tally → W32) (l : List Tally) : Nat := l.foldl (fun a t => satAdd 32 a (f t).toNat) 0

/-- The largest MAXEXP of a group over bands. -/
def largestMaxexp (g : Nat) (l : List (List Tally)) : BitVec 16 :=
  ((l.map fun b => b.getD g {}).foldl mergeTally {}).maxexp

/-- A context's step summaries close (R74): each is written, the tally-summary event is posted, new ones open. -/
def closeSteps (n : Nat) (step : W64) (s : State) : State :=
  let bands := ownedBands s n
  let sums := bands.map fun g => (g, Tab.getD s.stu.steps g noTallies)
  let all := (sums.map (·.2)).flatten
  let s := s.each sums fun s x => (queueSummary n (4 * x.1 + 2) (summaryBytes x.2) s).onStu fun u => { u with
    steps := Tab.drop u.steps x.1 }
  post n 0x04 [(16, leBytes 8 step.toNat), (24, leBytes 2 bands.length),
    (28, ((List.range 4).map fun g => leBytes 2 (largestMaxexp g (sums.map (·.2))).toNat).flatten),
    (36, leBytes 4 (sumOver (·.nf) all)), (40, leBytes 4 (sumOver (·.sat) all)), (44, leBytes 4 (sumOver (·.underrun) all)),
    (48, leBytes 4 (sumOver (·.ftz) all)), (52, leBytes 4 (sumOver (·.expertOvf) all)),
    (56, leBytes 4 (sumOver (·.emptyRow) all))] s

end Sys2Proof.Machine
end

