-- ==== Sys2Proof/Machine/Phase.lean ====
section
/-! DEFINITION. The phase ledger (01_stitch, R44 to R46): what a stitch charges to a context's open record, and closing it. -/

namespace Sys2Proof.Machine

/-- The phase in force over the core cycles of a run, from a mark to the next: (first cycle, code), oldest first. Code 7 is
code 0 (R44). -/
def phaseMarks (r : BandRun) : List (Nat × Nat) := (96, 0) :: (r.marks.reverse.map fun m => (m.1, m.2.val % 7))

/-- The time charged to each phase between the marks of a list, up to a last cycle. -/
def chargeMarks (clockK last : Nat) : List (Nat × Nat) → List Nat → List Nat
  | [], t => t
  | (a, code) :: rest, t =>
    let b := match rest with
      | [] => last
      | (b, _) :: _ => b
    let (x, y) := (min a last, min b last)
    chargeMarks clockK last rest (t.set code (t.getD code 0 + (coreNs clockK y - coreNs clockK x)))

/-- What one band's stitch charges to the eight phases (R44): the maintenance slot, the cycles after the declared count and a
stitch without a pattern to idle; what lies beyond C core cycles to stretch. -/
def bandCharge (s : State) (g : Nat) : List Nat :=
  let clockK := (vAt s.thm.panels (g / 16) {}).clockK
  let zero := List.replicate 8 0
  let t := match Tab.find s.stu.bands g with
    | some r => chargeMarks clockK (96 + r.cycles) (phaseMarks r) zero
    | none => zero
  let inside := min s.stu.length (coreNs clockK (cyclesPerStitch s))
  let busy := t.sum
  (t.set 0 (t.getD 0 0 + (inside - busy))).set 7 (s.stu.length - max inside busy)

/-- Phase totals added up. -/
def addTotals (a : List W64) (b : List Nat) : List W64 := (a.zip b).map fun x => x.1 + BitVec.ofNat 64 x.2

/-- The eight totals of one panel inside the sixty-four. -/
def addPanel (l : List W64) (p : Nat) (b : List Nat) : List W64 :=
  l.take (8 * p) ++ addTotals ((l.drop (8 * p)).take 8) b ++ l.drop (8 * p + 8)

/-- A context's own bands ran a pleat in the stitch just ended (R39). -/
def ranPleat (s : State) (n : Nat) : Bool :=
  (ownedBands s n).any fun g => match Tab.find s.stu.bands g with
    | some b => b.pleat
    | none => false

/-- The stitch just ended is one of pleats 2 to n of its job (R39, R46): the context ran a pleat in it and in the stitch before, so that
it was not the first (DEDUCED, unsafe, assumption log 99); or it ran no pattern, while another stage ran such a pleat, of which nothing
tells this device: a free value. -/
def pleatStitch (s : State) (n : Nat) : Bool :=
  if ranPleat s n then s.stu.pleatRan.getLsbD n
  else (ownedBands s n).all (fun g => (Tab.find s.stu.bands g).isNone) && !(s.ctx n).serving &&
    Config.otherPleat n s.stu.stitch.toNat

/-- The stitch that has just ended is charged to a context's record (R44, Table 1-14). -/
def chargePhase (s : State) (n : Nat) (r : PhaseRec) : PhaseRec :=
  let bands := ownedBands s n
  let r := if r.stitchCount = 0 then { r with
      layoutEpoch := (s.train n).current
      step := BitVec.ofNat 64 (if (s.ctx n).serving then (s.ctx n).age.toNat / 65536 else (s.train n).step.toNat)
      firstStitch := s.stu.stitch, periodUnits := s.stu.periodUnits.setWidth 32 } else r
  let r := { r with
    stitchCount := r.stitchCount + 1, bandCount := BitVec.ofNat 16 bands.length
    stretched := r.stretched + (if 16 < s.stu.curFactor.toNat then 1 else 0), pleat := r.pleat + (if pleatStitch s n then 1 else 0)
    flags := r.flags ||| (if r.periodUnits = s.stu.periodUnits.setWidth 32 then 0 else 2) }
  bands.foldl (fun r g =>
    let c := bandCharge s g
    { r with device := addTotals r.device c, panels := addPanel r.panels (g / 16) c }) r

/-- The stitch that has just ended is charged to every context that is not FREE. -/
def chargePhases (s : State) : State :=
  let ran := bitsOf 16 ((liveContexts s).filter (ranPleat s))
  (s.each (liveContexts s) fun s n => s.onStu fun u => { u with phase := vMod u.phase n (chargePhase s n) }).onStu fun u =>
    { u with pleatRan := ran }

/-- The bytes of a record (Table 1-14). -/
def phaseBytes (s : State) (n : Nat) (r : PhaseRec) : List Byte :=
  let b := layout 640 ([(0, leBytes 2 1), (2, leBytes 2 640), (4, leBytes 1 n), (5, leBytes 1 (b2n (s.ctx n).serving)),
    (6, leBytes 2 r.layoutEpoch.toNat), (8, leBytes 8 r.step.toNat), (16, leBytes 5 r.firstStitch.toNat),
    (24, leBytes 4 r.stitchCount.toNat), (28, leBytes 4 r.periodUnits.toNat), (32, leBytes 4 r.stretched.toNat),
    (36, leBytes 4 r.pleat.toNat), (40, leBytes 2 r.bandCount.toNat), (42, leBytes 2 r.flags.toNat)] ++
    [(64, (r.device.map fun w => leBytes 8 w.toNat).flatten), (128, (r.panels.map fun w => leBytes 8 w.toNat).flatten)])
  patch b 60 (leBytes 4 (crc32 b).toNat)

/-- LOG2_ENTRIES of STU_LEDGER_CFG_n (Table 1-13). -/
def ledgerLog2 (cfg : W64) : Nat := let l := fld cfg 3 0; if 2 ≤ l ∧ l ≤ 10 then l else 2

/-- A flag of a context's open record. -/
def phaseFlag (n i : Nat) (s : State) : State :=
  s.onStu fun u => { u with phase := vMod u.phase n fun r => { r with flags := r.flags ||| (1 <<< i) } }

/-- A context's record is closed (R45): written to its ring with a ledger-ready event when EN is set; a new one opens.
The step summaries of its bands close with it (R74). -/
def closePhase (n : Nat) (s : State) : State :=
  let r := vAt s.stu.phase n {}
  let s := closeSteps n r.step s
  let cfg := vAt s.stu.ledgerCfg n 0
  let s' := s.onStu fun u => { u with phase := vMod u.phase n fun _ => {} }
  if ¬ bit cfg 4 then s'
  else
    let e := (vAt s.stu.ledgerNext n 0).toNat % 2 ^ ledgerLog2 cfg
    let a := fld (vAt s.stu.ledgerBase n 0) 63 12 * 4096 + 640 * e
    let s' := (s'.setHostMem (Mem.write s'.hostMem a (phaseBytes s n r))).onStu fun u =>
      { u with ledgerNext := vMod u.ledgerNext n fun k => k + 1 }
    post n 0x05 [(16, leBytes 2 e), (24, leBytes 8 r.step.toNat)] s'

/-- PHASE_LEDGER_RECORD (R45): a serving context's record closes once it covers 65,536 stitches. -/
def execPhaseLedgerRecord (n : Ctx) (s : State) : Out :=
  if (s.ctx n.val).serving ∧ ctxDefined s n.val ∧ 65536 ≤ (vAt s.stu.phase n.val {}).stitchCount.toNat then
    .next (closePhase n.val s)
  else .next s

end Sys2Proof.Machine
end

