-- ==== Sys2Proof/Machine/BoltCmds.lean ====
section
/-! DEFINITION. The meanings of the bolt's commands (05_bolt, R142 to R159). -/

namespace Sys2Proof.Machine

/-- RESULT of a bolt command. -/
def boltResult (r : Nat) (s : State) : State := s.onBolt fun b => { b with result := BitVec.ofNat 8 r }

/-- Why DEFINE is refused (Table 5-7, R142, R143), none when the configuration may be placed. Of several reasons the index in use
comes first, then the configuration, then the bands (the spec orders them not: DESIGN CHOICE, unsafe, assumption log 93). -/
def defineRefusal (s : State) (n index lines : Nat) (twin backed : Bool) (bands : List Nat) : Option Nat :=
  let b := s.bolt
  if (boltRegion s b.rgnSel).isSome ∨ (boltRegionOf s n index).isSome then some 0x02
  else if bands.isEmpty ∨ (twin ∧ 32768 < lines) ∨ ¬ ctxDefined s n ∨
      (backed ∧ (hbmRegion s n (fld b.backing 55 52)).isNone) then some 0x05
  else if bands.any fun g => !bandAvailable s g || definingOwner s g != n then some 0x03
  else none

/-- The runs of a new region, with model slots evicted one at a time until they can be placed, by R150: those with a region on a
band of the request, the earliest stamp first. None, with the slots evicted so far, when no candidate remains. -/
def placeEvicting (bands : List Nat) (n : Nat) (twin : Bool) : Nat → State → Option (List BoltRun) × State
  | 0, s => (planRegion s bands n twin, s)
  | fuel + 1, s => match planRegion s bands n twin with
    | some runs => (some runs, s)
    | none => match earliestSlot s (evictable s (some bands)) with
      | some k => placeEvicting bands n twin fuel (evictSlot k s)
      | none => (none, s)

/-- DEFINE (R142, R143, R150, Table 5-3): the region is placed and LOADING, or RESULT says why not. -/
def boltDefine (s : State) : State :=
  let b := s.bolt
  let (n, index, lines) := (fld b.cfg 3 0, fld b.cfg 13 8, fld b.cfg 33 18 + 1)
  let (twin, backed) := (bit b.cfg 16, bit b.cfg 17)
  let bands := maskBands b.bandsLo b.bandsHi
  match defineRefusal s n index lines twin backed bands with
  | some r => boltResult r s
  | none =>
    match placeEvicting bands lines twin 64 s with
    | (none, s) => boltResult 0x01 s
    | (some runs, s) =>
      let x : BoltRegion :=
        { ctx := Fin.ofNat 16 n, index := index, lines := lines, twin := twin, backed := backed,
          hbmRegion := fld b.backing 55 52, offset := fld b.backing 35 0, bands := bands, runs := runs,
          state := .loading, live := false, loaded := [], stagedLines := 0, slot := none,
          filling := false, stopped := false }
      boltResult 0 (s.onBolt fun b => { b with regions := Tab.put b.regions b.rgnSel x })

/-- RELEASE (R148, Table 5-7): frees an unpinned region. -/
def boltRelease (s : State) : State :=
  match boltRegion s s.bolt.rgnSel with
  | none => boltResult 0x06 s
  | some x => if pinned s x then boltResult 0x04 s else boltResult 0 (freeRegion s.bolt.rgnSel s)

/-- A write of BLT_RGN_CMD. -/
def writeBltCmd (v : W64) (s : State) : State :=
  let s := if v &&& mask64 63 2 ≠ 0 then violate 0 0x02 s else s
  if fld v 1 0 = 1 then boltDefine s else if fld v 1 0 = 2 then boltRelease s else s

/-- BLT_DEFINE: CMD DEFINE. -/
def execBltDefine (value : W64) (s : State) : Out := .next (bar0Write (writeBltCmd (putFld value 1 0 1)) s)

/-- BLT_RELEASE: CMD RELEASE. -/
def execBltRelease (value : W64) (s : State) : Out := .next (bar0Write (writeBltCmd (putFld value 1 0 2)) s)

/-- A transfer that writes the region is running. -/
def regionBusy (s : State) (x : BoltRegion) : Bool :=
  s.work.transfers.any fun t => match t.kind with
    | .copyIn _ _ true r _ => t.ctx == x.ctx && r == x.index
    | .bundle b => t.ctx == x.ctx && b.regions.any fun r => r.bolt && r.index == x.index
    | .restore r => t.ctx == x.ctx && match r.target.bind (boltRegion s) with
      | some y => y.index == x.index
      | none => false
    | _ => false

/-- REGION_LOADED (R148, Table 5-3): a fill from the backing ends, or the last line of a load is written; the region is
RESIDENT. One whose loader a power-down stopped stays LOADING (Table 5-2). -/
def execRegionLoaded (region : Fin 512) (s : State) : Out :=
  match boltRegion s region.val with
  | none => .next s
  | some x =>
    if x.state ≠ .loading ∨ x.stopped then .next s
    else if x.filling then
      .next (onRegion region.val (fun x => { x with state := .resident, filling := false })
        (fillFromBacking region.val x (meetQueues .loader s)))
    else if allLoaded x ∧ ¬ regionBusy s x then
      .next (onRegion region.val (fun x => { x with state := .resident }) s)
    else .next s

/-- REGION_WRITTEN_BACK (R148, Table 5-3): a DIRTY region's live copy is in its backing; the region is RESIDENT. -/
def execRegionWrittenBack (region : Fin 512) (s : State) : Out :=
  match boltRegion s region.val with
  | none => .next s
  | some x =>
    if x.state ≠ .dirty then .next s
    else .next (onRegion region.val (fun x => { x with state := .resident }) (writeBacking x (meetQueues .loader s)))

/-- The oldest corrected line of a slab's buffer is written to its line. -/
def writeBackOldest (key : Nat) (s : State) : State :=
  match Tab.getD s.bolt.buffers key [] with
  | [] => s
  | w :: ws =>
    let s := s.onBolt fun b => { b with buffers := if ws.isEmpty then Tab.drop b.buffers key else Tab.put b.buffers key ws }
    writeBoltLine (key / 128) (key % 128) w.line (leBytes 32 w.data.toNat) s

/-- BOLT_WRITE_BACK (R153): the oldest corrected line of a slab's buffer is written to its line. -/
def execBoltWriteBack (panel : Panel) (slab : Fin 128) (s : State) : Out :=
  .next (writeBackOldest (128 * panel.val + slab.val) s)

/-- What waits in the write-back buffers is written in the maintenance slot at the latest (R153). -/
def flushWriteBacks (s : State) : State :=
  s.each s.bolt.buffers fun s x => s.each x.2 fun s _ => writeBackOldest x.1 s

/-- One line that the scrubber found in error (R155, R158): (slab, line, failing bit, outcome). -/
def scrubBolt (panel : Nat) (before : List (Nat × Nat)) (f : Fin 128 × BitVec 20 × Nat × Ecc) (s : State) : State :=
  let (slab, line) := (f.1.val, f.2.1.toNat)
  let key := lineKey panel slab line
  match f.2.2.2 with
  | .ok => s
  | .corrected =>
    let s := s.onBolt fun b => { b with
      corrected := vMod b.corrected panel fun c => satAdd 48 c 1
      weak := b.weak.filter (· != key)
      lapCorrected := b.lapCorrected ++ [(key, f.2.2.1)] }
    if before.contains (key, f.2.2.1) then
      let sameBit := before.any fun k => k.2 == f.2.2.1 && k.1 / slabLines == 128 * panel + slab &&
        bankLocation (k.1 % slabLines) == bankLocation line && wordline (k.1 % slabLines) != wordline line
      boltRepair panel slab line (if sameBit then some (4 * f.2.2.1 + (line / 32 % 1024 * 2 + line % 2) % 4) else none) s
    else s
  | .uncorrectable y _ => boltUncorrectable panel slab line y true s

/-- A panel's lap may end (R156): every segment of the panel has been covered once. -/
def lapCovered (s : State) (p : Nat) : Bool :=
  (List.range 16).all fun b => decide (32768 ≤ vAt s.bolt.covered (16 * p + b) 0)

/-- BOLT_SCRUB_LAP (R155, R156): a panel's lap ends, once every segment has been covered; its length and counts are recorded, an
event posted when SCRUB_EVT is set, what it found is handled, and the next lap starts. -/
def execBoltScrubLap (panel : Panel) (length : Nat) (found : List (Fin 128 × BitVec 20 × Nat × Ecc)) (s : State) : Out :=
  if ¬ bit s.bolt.ctrl 0 ∨ s.nPanels ≤ panel.val ∨ ¬ lapCovered s panel.val then .next s
  else
    let p := panel.val
    let mine (k : Nat) : Bool := k / slabLines / 128 == p
    let before := s.bolt.lapCorrected.filter fun k => mine k.1
    let s := s.onBolt fun b => { b with
      laps := vMod b.laps p fun c => satAdd 27 c 1
      lastLap := vMod b.lastLap p fun _ => min length (2 ^ 36 - 1)
      lapCorrected := b.lapCorrected.filter fun k => !mine k.1
      covered := (List.range 16).foldl (fun v g => vMod v (16 * p + g) fun _ => 0) b.covered }
    let s := s.each found fun s f => scrubBolt p before f s
    let ce := (found.filter fun f => f.2.2.2 == .corrected).length
    let ue := (found.filter fun f => f.2.2.2 != .corrected && f.2.2.2 != .ok).length
    .next (if bit s.bolt.ctrl 1 then
      post 0 0x09 [(16, [0]), (17, leBytes 1 p), (24, leBytes 8 length), (32, leBytes 8 ce), (40, leBytes 8 ue)] s else s)

/-- SCRUB_STARVATION (R156): a lap in progress passes 2^32 cycles: STARVED, and Thimble logs it. -/
def execScrubStarvation (panel : Panel) (s : State) : Out :=
  if ¬ bit s.bolt.ctrl 0 ∨ s.nPanels ≤ panel.val then .next s
  else
    let s := s.onBolt fun b => { b with starved := vMod b.starved panel.val fun _ => true }
    .next (logGeneral 0x04 0 [1, BitVec.ofNat 8 panel.val] s)

/-- The last-use stamps at a boundary (R149): a slot with a region that a dispatched entry's extents name takes N. -/
def stampSlots (used : List (Nat × Nat)) (s : State) : State :=
  let n := s.stu.stitch
  let hit (m : ModelSlot) : Bool := m.valid && m.regions.any fun i => match boltRegion s i with
    | some x => used.contains (x.ctx.val, x.index)
    | none => false
  s.onBolt fun b => { b with slots := b.slots.map fun m => if hit m then { m with stamp := n } else m }

/-- EXCLUDED of BLT_CAP: the excluded lines that no region holds any more (R158). -/
def excludedFree (s : State) : Nat :=
  (s.bolt.excluded.filter fun e => (regionAt s (e.1 / 128) (e.1 % 128) e.2).isNone).length

/-- FREE of BLT_CAP: lines of presented panels in no region and not excluded. -/
def boltFree (s : State) : Nat :=
  let held := (s.bolt.regions.map fun x => x.2.runs.length * x.2.lines * (if x.2.twin then 2 else 1)).sum
  s.nPanels * 128 * slabLines - held - excludedFree s

end Sys2Proof.Machine
end

