-- ==== Sys2Proof/Machine/Container.lean ====
section
/-! DEFINITION. The pattern container (R118 to R124, Tables 4-1 to 4-10): its sections, its records, and the byte offset of
the first thing that is malformed. -/

namespace Sys2Proof.Machine

/-- A directory entry (Table 4-2) with the byte where it stands. -/
structure DirEntry where
  place : Nat
  type : Nat
  key : Nat
  offset : Nat
  size : Nat
deriving DecidableEq, Repr

/-- The directory of a container. -/
def directory (b : List Byte) : List DirEntry :=
  (List.range (leAt b 80 4)).map fun i =>
    let p := 256 + 16 * i
    { place := p, type := leAt b p 2, key := leAt b (p + 2) 2, offset := leAt b (p + 8) 4, size := leAt b (p + 12) 4 }

/-- The section of a type and key. -/
def findSection (b : List Byte) (type key : Nat) : Option DirEntry :=
  (directory b).find? fun d => d.type == type && d.key == key

/-- The records of a stretch of bytes: their places and their bytes. -/
def recordsAt (b : List Byte) (place count size : Nat) : List (Nat × List Byte) :=
  (List.range count).map fun i => (place + size * i, slice b (place + size * i) size)

/-- The records that fill a section. -/
def sectionRecords (b : List Byte) (type size : Nat) : List (Nat × List Byte) :=
  match findSection b type 0 with
  | some d => recordsAt b d.offset (d.size / size) size
  | none => []

/-- Where the LEDGER section begins. -/
def ledgerPlace (b : List Byte) : Nat :=
  match findSection b 1 0 with
  | some d => d.offset
  | none => 0

/-- The extent records (Table 4-5). -/
def extentRecords (b : List Byte) : List (Nat × List Byte) :=
  recordsAt b (ledgerPlace b + 1344) (leAt b (ledgerPlace b) 4) 16

/-- The idle window records (Table 4-6). -/
def idleRecords (b : List Byte) : List (Nat × List Byte) :=
  recordsAt b (ledgerPlace b + 1344 + 16 * leAt b (ledgerPlace b) 4) (leAt b (ledgerPlace b + 4) 4) 16

/-- The pattern band bits set in BAND_MASK, ascending. -/
def patternBands (b : List Byte) : List Nat := (List.range 128).filter fun i => (leAt b 40 16).testBit i

/-- The images in KEY order: their words, word 0 first. -/
def images (b : List Byte) : List (List Nat) :=
  (List.range ((directory b).filter fun d => d.type == 3).length).map fun k =>
    match findSection b 3 k with
    | some d => (List.range (d.size / 16)).map fun i => leAt b (d.offset + 16 * i) 16
    | none => []

/-- Every byte of a stretch is zero. -/
def zeros (b : List Byte) (first n : Nat) : Bool := leAt b first n == 0

/-- A failed check names a byte. -/
def fieldFail (ok : Bool) (at_ : Nat) : Option Nat := if ok then none else some at_

/-- The first nonzero byte of a stretch that must be zero. -/
def nonzeroAt (b : List Byte) (first n : Nat) : Option Nat :=
  ((List.range n).map (first + ·)).find? fun i => b.getD i 0 != 0

/-- The longest period's B (R14, R15). -/
def longestBudget : Nat := 64 * 16777215 - 96

/-- The header's checks (Table 4-1). -/
def headerFail (b : List Byte) : Option Nat :=
  [fieldFail (decide (352 ≤ b.length) && decide (b.length ≤ 67108864)) 8, fieldFail (leAt b 0 4 == 0x54504C4D) 0,
    fieldFail (leAt b 4 2 == 1) 4, fieldFail (leAt b 6 2 == 256) 6, fieldFail (leAt b 8 8 == b.length) 8,
    fieldFail (decide (1 ≤ leAt b 32 4) && decide (leAt b 32 4 ≤ longestBudget)) 32, fieldFail (decide (leAt b 37 1 ≤ 1)) 37,
    fieldFail (leAt b 39 1 / 4 == 0) 39, nonzeroAt b 58 6, fieldFail (decide (6 ≤ leAt b 80 4) && decide (leAt b 80 4 ≤ 4096)) 80,
    nonzeroAt b 84 4, nonzeroAt b 120 136, fieldFail (decide (256 + 16 * leAt b 80 4 ≤ b.length)) 80].findSome? id

/-- A section's own size rule (Tables 4-3 to 4-10). -/
def sizeOk (b : List Byte) (d : DirEntry) : Bool :=
  match d.type with
  | 1 => decide (1344 ≤ d.size) && decide (leAt b d.offset 4 ≤ 4096) && decide (leAt b (d.offset + 4) 4 ≤ 65536) &&
      d.size == 1344 + 16 * leAt b d.offset 4 + 16 * leAt b (d.offset + 4) 4
  | 2 => d.size % 32 == 0
  | 3 => d.size % 16 == 0 && decide (16 ≤ d.size) && decide (d.size ≤ 8192)
  | 4 => d.size == 8 * 625 * (patternBands b).length
  | 5 => d.size % 16 == 0
  | 6 => d.size % 8 == 0
  | _ => false

/-- The directory's checks (Table 4-2, R118, R119): each entry, overlaps, one of each type, the KEY values of the images;
256 stands for a section missing, doubled, or a gap in the keys (DEDUCED, unsafe, assumption log 41). -/
def directoryFail (b : List Byte) : Option Nat :=
  let l := directory b
  let first := 256 + 16 * l.length
  let one (d : DirEntry) : Option Nat :=
    [fieldFail (decide (1 ≤ d.type) && decide (d.type ≤ 6)) d.place, fieldFail (d.type == 3 || d.key == 0) (d.place + 2),
      nonzeroAt b (d.place + 4) 4, fieldFail (d.offset % 64 == 0 && decide (first ≤ d.offset)) (d.place + 8),
      fieldFail (decide (d.offset + d.size ≤ b.length)) (d.place + 12),
      fieldFail (l.all fun e => e.place == d.place || decide (d.offset + d.size ≤ e.offset) ||
        decide (e.offset + e.size ≤ d.offset) || d.size == 0 || e.size == 0) (d.place + 8)].findSome? id
  let count (t : Nat) : Nat := (l.filter fun d => d.type == t).length
  let keys := (l.filter fun d => d.type == 3).map (·.key)
  match l.findSome? one with
  | some i => some i
  | none =>
    if [1, 2, 4, 5, 6].any (fun t => count t != 1) || count 3 == 0 ||
      (List.range (count 3)).any (fun k => !keys.contains k) then some 256
    else (l.find? fun d => !sizeOk b d).map (·.place + 12)

/-- The first nonzero byte outside the header, the directory and the sections (R118). -/
def strayByte (b : List Byte) : Option Nat :=
  let l := directory b
  let inside (i : Nat) : Bool := decide (i < 256 + 16 * l.length) || l.any fun d => decide (d.offset ≤ i) && decide (i < d.offset + d.size)
  (b.zipIdx.find? fun x => x.1 ≠ 0 ∧ ¬ inside x.2).map (·.2)

/-- The checks of the records of the sections (Tables 4-4 to 4-10): fields in range, reserved bytes zero. -/
def recordFail (b : List Byte) : Option Nat :=
  let bands := patternBands b
  let has (r : List Byte) (i : Nat) : Bool := bands.contains (leAt r i 1)
  let imgs := images b
  let lp := ledgerPlace b
  let bad (l : List (Nat × List Byte)) (ok : List Byte → Bool) : Option Nat := (l.find? fun x => !ok x.2).map (·.1)
  let ledger := nonzeroAt b (lp + 8) 56
  let extents := bad (extentRecords b) fun r =>
    decide (leAt r 0 1 < 64) && has r 1 && decide (leAt r 2 2 < 125) && zeros r 12 4
  let idles := bad (idleRecords b) fun r => has r 0 && zeros r 1 3 && zeros r 12 4
  let slots := bad (sectionRecords b 2 32) fun r =>
    decide (1 ≤ leAt r 4 4) && has r 12 && decide (leAt r 13 1 < 5) && decide (leAt r 14 1 < 125) && leAt r 15 1 / 4 == 0 &&
      decide (leAt r 16 1 < 16) && zeros r 18 2 && zeros r 25 3
  let cores := bad (sectionRecords b 4 8) fun r =>
    zeros r 4 4 && (leAt r 0 2 == 0xFFFF || (decide (leAt r 0 2 < imgs.length) &&
      decide (leAt r 2 2 < (imgs.getD (leAt r 0 2) []).length)))
  let routes := bad (sectionRecords b 5 16) fun r =>
    let loc := (leAt r 4 1).testBit 1
    has r 1 && decide (leAt r 2 1 < 5) && decide (leAt r 3 1 < 125) && decide (leAt r 4 1 < 64) && zeros r 5 1 && zeros r 10 6 &&
      (if loc then decide (1 ≤ leAt r 8 2) && decide (leAt r 8 2 ≤ 2048) && decide (leAt r 6 2 < 2048)
       else zeros r 6 4)
  let relocs := bad (sectionRecords b 6 8) fun r =>
    decide (leAt r 0 2 < imgs.length) && decide (leAt r 2 2 < (imgs.getD (leAt r 0 2) []).length) && decide (leAt r 4 1 < 64) &&
      zeros r 5 3
  match ledger with
  | some i => some i
  | none => [extents, idles, slots, cores, routes, relocs].findSome? id

/-- Step 2 of R126 before HASH: the byte offset that FORMAT reports. -/
def formatFail (b : List Byte) : Option Nat :=
  match headerFail b with
  | some i => some i
  | none => match directoryFail b with
    | some i => some i
    | none => match strayByte b with
      | some i => some i
      | none => recordFail b

/-- HASH (Table 4-1): SHA-256 over the container with its own 32 bytes as zero. -/
def hashOk (b : List Byte) : Bool := sha256 (patch b 88 (List.replicate 32 0)) == slice b 88 32

end Sys2Proof.Machine
end

