-- ==== Sys2Proof/Machine/LoadCheck.lean ====
section
/-! DEFINITION. The symbolic execution of R110: every core image with every loop expanded, and the failures it finds
(ENCODING, HAZARD, CONFLICT, WINDOW, DEPTH, OVERRUN, GATHER, SLOTMAP). -/

namespace Sys2Proof.Machine

/-- What a check found: its reason of Table 4-11, the core cycle, the core, and the details. -/
structure Failure where
  code : Nat
  cycle : Nat
  core : Nat
  d0 : Nat
  d1 : Nat
deriving DecidableEq, Repr

/-- A word that issues: its cycle, its place in the image, its bits and slots, whether its predicate holds, whether a LOOP in
it fits, and the bytes a DRAIN in it writes. -/
structure Issued where
  cycle : Nat
  pc : Nat
  bits : Nat
  word : Word4
  pred : Bool
  loopOk : Bool
  drainBytes : Nat
deriving DecidableEq, Repr

/-- A slot of a word issues as more than a NOP: it is not gated off (R106). -/
def slotLive (x : Issued) (gateBit : Nat) : Bool := x.pred || cut x.bits gateBit gateBit == 0

/-- The part of a core's state that the order of issue depends on (R106, R107), and the drain formats. -/
structure FlowState where
  pc : Nat
  cycle : Nat
  loops : List LoopFrame
  counts : Vector (BitVec 14) 16
  preds : Vector (Option PredDef) 8
  drains : Vector DrainFmt 4
deriving DecidableEq, Repr

/-- The bytes a drained row takes (R97). -/
def drainSize : DrainFmt → Nat
  | .fp32 | .int32 => 64
  | .bf16 | .fp16 => 32
  | .e4m3 | .e5m2 | .int8 => 16

/-- The count of a LOOP. -/
def loopCount (counts : Vector (BitVec 14) 16) : LoopCount → Nat
  | .imm c => c.toNat + 1
  | .reg r => (vAt counts r.val 0).toNat + 1

/-- What issues from a state on until WAITS, the end of the image, or a cycle at or past `limit` has issued. -/
def trace (core : CoreId) (image : List Nat) (limit : Nat) : Nat → FlowState → List Issued
  | 0, _ => []
  | fuel + 1, f =>
    match image[f.pc]? with
    | none => []
    | some w =>
      match decodeWord core f.cycle w with
      | none => []
      | some word =>
        let fits : Bool := match word.control with
          | .loop _ body _ => loopFits f.pc (body.toNat + 1) image.length f.loops
          | _ => true
        let bytes := match word.array with
          | .drain _ _ _ _ dc _ => drainSize (vAt f.drains dc.val .fp32)
          | _ => 0
        let x : Issued :=
          { cycle := f.cycle, pc := f.pc, bits := w, word := word, pred := predTrue f.preds f.loops (cut w 127 125),
            loopOk := fits, drainBytes := bytes }
        if limit ≤ f.cycle ∨ ¬ fits then [x]
        else
          let f := match word.move with
            | .setdc _ dc fmt _ _ _ _ _ => if ¬ slotLive x 122 then f else { f with drains := vMod f.drains dc.val fun _ => fmt }
            | _ => f
          match word.control with
          | .waits _ => [x]
          | .loop _ body count =>
            x :: trace core image limit fuel { f with
              pc := f.pc + 1, cycle := f.cycle + 1,
              loops := openLoop f.pc (body.toNat + 1) (loopCount f.counts count) f.loops }
          | c =>
            let d := match c with
              | .delay _ k => k.toNat + 1
              | _ => 0
            let (pc, loops) := endOfWord f.pc f.loops
            let f := match c with
              | .setc _ r v => { f with counts := vMod f.counts r.val fun _ => v }
              | .pset _ p level cmp imm =>
                { f with preds := vMod f.preds p.val fun _ => some { level := level, cmp := cmp, imm := imm } }
              | _ => f
            x :: trace core image limit fuel { f with pc := pc, cycle := afterDelay f.cycle d, loops := loops }

/-- A core's whole trace from core cycle 96 (R108). -/
def coreTrace (core : Nat) (image : List Nat) (entry declared : Nat) : List Issued :=
  trace (coreIdOf core) image (96 + declared) (declared + 2)
    { pc := entry, cycle := 96, loops := [], counts := Vector.replicate 16 0, preds := Vector.replicate 8 none,
      drains := Vector.replicate 4 .fp32 }

/-! What an issued word reads and writes. Vector registers are numbered 0 to 31 and lane masks 32 to 39. -/

/-- The vector opcode of a word. -/
def vop (x : Issued) : Nat := cut x.bits 63 57

/-- The latencies of Table 3-3. -/
def vectorLatency (op : Nat) : Nat :=
  if op ≤ 4 then 4 else if op ≤ 0x0C then 2 else if op = 0x0D then 8 else if op = 0x0E then 6 else if op = 0x0F then 2
  else if op = 0x10 ∨ op = 0x12 then 10 else if op = 0x11 ∨ op = 0x13 ∨ op = 0x16 then 12
  else if op = 0x14 ∨ op = 0x15 then 8 else if op = 0x22 then 16 else if op ≤ 0x23 then 14
  else if op = 0x32 then 4 else if op ≤ 0x3C then 2 else if op ≤ 0x46 then 4 else if op ≤ 0x4C then 6
  else if op = 0x4D then 8 else if op ≤ 0x55 then 3 else 10

/-- The vector opcodes that write a mask. -/
def writesMask (op : Nat) : Bool := op == 0x09 || op == 0x0A || op == 0x0B || op == 0x39 || op == 0x3A

/-- The vector opcodes that read VB as a register. -/
def readsVb (op : Nat) : Bool :=
  decide (1 ≤ op ∧ op ≤ 6) || decide (0x09 ≤ op ∧ op ≤ 0x0C) || op == 0x17 || decide (0x20 ≤ op ∧ op ≤ 0x23) ||
    decide (0x30 ≤ op ∧ op ≤ 0x3C)

/-- Registers a vector slot reads. -/
def vectorReads (x : Issued) : List Nat :=
  let op := vop x
  let b := x.bits / 2 ^ 32
  if op = 0 then []
  else (32 + cut b 9 7) :: (if op = 0x60 then [] else [cut b 19 15]) ++ (if readsVb op then [cut b 14 10] else []) ++
    (if op = 0x04 then [cut b 24 20] else []) ++ (if op = 0x4D then [cut b 19 15 + 1] else [])

/-- Registers a vector slot writes, with the latency. -/
def vectorWrites (x : Issued) : List (Nat × Nat) :=
  let op := vop x
  let vd := cut (x.bits / 2 ^ 32) 24 20
  let l := vectorLatency op
  if op = 0 then []
  else if writesMask op then [(32 + vd % 8, l)]
  else if op = 0x4D then [(vd, l), (vd + 1, l), (vd + 2, l)]
  else if op = 0x60 then [(vd, l), (vd + 1, l)]
  else [(vd, l)]

/-- Registers a move slot reads. -/
def moveReads (x : Issued) : List Nat :=
  match x.word.move with
  | .vst _ vs _ _ => [vs.val]
  | .gather _ _ _ _ _ vi => [vi.val]
  | .msend _ (.vreg vs _) _ => [vs.val]
  | _ => []

/-- Registers a move slot writes, with the latency (Table 3-8). -/
def moveWrites (x : Issued) : List (Nat × Nat) :=
  match x.word.move with
  | .vld _ vd _ => [(vd.val, 3)]
  | .gather _ vd _ _ _ _ => [(vd.val, 4)]
  | .lmask _ m _ => [(32 + m.val, 3)]
  | _ => []

/-- Bytes of VST (Table 3-6). -/
def vstBytes : VstSize → Nat
  | .b16 => 16
  | .b32 => 32
  | .b64 => 64
  | .b128 => 128

/-- A scratch access of one operand: byte ranges (first, count). -/
abbrev Ranges := List (Nat × Nat)

/-- Scratch ranges a word reads, one list per operand. -/
def scratchReads (x : Issued) : List Ranges :=
  let b (n : Nat) : BSource → List Ranges
    | .bolt _ => []
    | .scratch a => [[(16 * a.toNat, n)]]
  let arr := match x.word.array with
    | .load _ _ a src => [(16 * a.toNat, 64)] :: b 64 src
    | .ldsc _ _ a src => [(16 * a.toNat, 16)] :: b 16 src
    | _ => []
  arr ++ match x.word.move with
    | .vld _ _ line => [[(64 * line.toNat, 128)]]
    | .gather _ _ bank base len _ =>
      [(List.range (len.toNat + 1)).map fun k => (64 * (4 * (base.toNat + k) + bank.val), 64)]
    | .msend _ (.scratch a) _ => [[(32 * a.toNat, 32)]]
    | .hwr _ _ line => [[(64 * line.toNat, 64)]]
    | .lmask _ _ a => [[(16 * a.toNat, 4)]]
    | _ => []

/-- Scratch ranges a word's instructions write, with the latency after which they are readable (Table 3-8). -/
def scratchWrites (x : Issued) : List (Ranges × Nat) :=
  (match x.word.array with
    | .drain _ _ _ dst _ _ => [([(16 * dst.toNat, x.drainBytes)], 5)]
    | _ => []) ++
  match x.word.move with
    | .vst _ _ a size => [([(16 * a.toNat, vstBytes size)], 2)]
    | .bld _ _ line => [([(64 * line.toNat, 64)], 5)]
    | _ => []

/-- Scratch that an HRD of the word fills, with its latency. -/
def arrivalWrites (x : Issued) : List (Ranges × Nat) :=
  match x.word.move with
  | .hrd _ _ line => [([(64 * line.toNat, 64)], 480)]
  | _ => []

/-- Two sets of ranges share a byte. -/
def rangesMeet (a b : Ranges) : Bool := a.any fun x => b.any fun y => decide (x.1 < y.1 + y.2) && decide (y.1 < x.1 + x.2)

/-- The banks of a set of ranges (R89). -/
def banksOf (r : Ranges) : List Nat :=
  (r.map fun x => (List.range ((x.1 + x.2 + 63) / 64 - x.1 / 64)).map fun k => (x.1 / 64 + k) % 4).flatten.eraseDups

/-- MAC's occupancy and k-steps (Table 3-2). -/
def macCycles : MacFmt → Nat
  | .fp32 => 8
  | _ => 4

/-- k-steps per MAC (Table 3-2). -/
def macSteps : MacFmt → Nat
  | .mxE2m1 => 8
  | .bf16 | .fp16 => 2
  | .fp32 => 1
  | _ => 4

/-- An MX format (R94). -/
def mxFmt : MacFmt → Bool
  | .mxE4m3 | .mxE5m2 | .mxE3m2 | .mxE2m3 | .mxE2m1 => true
  | _ => false

/-- The bank a word accumulates into and its occupancy of the multiplier. -/
def accumulates (x : Issued) : Option (Nat × Nat) :=
  match x.word.array with
  | .mac _ bank _ _ fmt => some (bank.val, macCycles fmt)
  | .accin _ bank _ _ _ _ => some (bank.val, 1)
  | _ => none

/-- The bank a word drains. -/
def drains (x : Issued) : Option Nat :=
  match x.word.array with
  | .drain _ bank _ _ _ _ => some bank.val
  | _ => none

/-- The least latency after which a word's last result is there. -/
def wordLatency (x : Issued) : Nat :=
  let arr := match x.word.array with
    | .load _ _ _ (.bolt _) | .ldsc _ _ _ (.bolt _) => 4
    | .load _ _ _ (.scratch _) | .ldsc _ _ _ (.scratch _) => 3
    | .mac _ _ _ _ fmt => macCycles fmt
    | .drain _ _ _ _ _ _ => 5
    | _ => 1
  ([arr] ++ (vectorWrites x).map (·.2) ++ (moveWrites x).map (·.2) ++ (scratchWrites x).map (·.2) ++
    (arrivalWrites x).map (·.2)).foldl max 1

/-- A later word uses a result of an earlier one before its latency has run, or breaks R98. -/
def hazardBetween (y x : Issued) : Bool :=
  let early (l : Nat) : Bool := decide (y.cycle < x.cycle) && decide (x.cycle < y.cycle + l)
  let regs := (vectorWrites y ++ moveWrites y).any fun w => early w.2 && (vectorReads x ++ moveReads x).contains w.1
  let mem := (scratchWrites y ++ arrivalWrites y).any fun w => early w.2 && (scratchReads x).any fun r => rangesMeet r w.1
  let array := match accumulates y with
    | none => false
    | some (b, o) => (match accumulates x with
        | some _ => early o
        | none => false) || (match drains x with
        | some d => d == b && early (o + 3)
        | none => false)
  regs || mem || array

/-- Two accesses of one word reach one scratch bank, or two vector results reach one register in one cycle (R110). -/
def conflictIn (x : Issued) : Bool :=
  let banks := ((scratchReads x ++ (scratchWrites x).map (·.1)).map banksOf).flatten
  banks.length != banks.eraseDups.length

/-- Two words write one register in the same cycle. -/
def conflictBetween (y x : Issued) : Bool :=
  (vectorWrites y ++ moveWrites y).any fun w => (vectorWrites x ++ moveWrites x).any fun v =>
    w.1 == v.1 && y.cycle + w.2 == x.cycle + v.2

/-- A failure of a core at an issued word, with the word's cycle as detail 1. -/
def failAt (code core : Nat) (x : Issued) : Failure :=
  { code := code, cycle := x.cycle, core := core, d0 := coreDetail core, d1 := x.cycle }

/-- HAZARD and CONFLICT of a core's trace; `before` are the words that issued earlier, newest first. -/
def pairFailures (core : Nat) : List Issued → List Issued → List Failure
  | _, [] => []
  | earlier, x :: rest =>
    (if earlier.any fun y => hazardBetween y x then [failAt 0x09 core x] else []) ++
    (if conflictIn x || (earlier.any fun y => conflictBetween y x) ||
        (vectorWrites x).any (fun v => (moveWrites x).any fun m => v == m) then [failAt 0x0A core x] else []) ++
    pairFailures core (x :: earlier) rest

/-- What WINDOW and DEPTH follow (R62, R95): D of each bank once set, and the depth of each bank's rows. -/
structure ArrayTrack where
  wd : List (Option Int) := [none, none]
  depth : List Nat := List.replicate 32 0
deriving DecidableEq, Repr

/-- The depth of rows of a bank raised or cleared. -/
def ArrayTrack.rows (t : ArrayTrack) (bank first count : Nat) (f : Nat → Nat) : ArrayTrack :=
  { t with depth := t.depth.zipIdx.map fun x =>
    if x.2 / 16 = bank ∧ first ≤ x.2 % 16 ∧ x.2 % 16 < first + count then f x.1 else x.1 }

/-- WINDOW and DEPTH of a core's trace. A slot gated off is a NOP (R106): it sets no D, clears nothing and adds to no depth. -/
def arrayFailures (core : Nat) : ArrayTrack → List Issued → List Failure
  | _, [] => []
  | t, x :: rest =>
    let deep (t : ArrayTrack) : List Failure :=
      let m := t.depth.foldl max 0
      if 2 ^ 20 < m then [{ failAt 0x0C core x with d1 := m }] else []
    let window (bank : Nat) (block : Bool) : List Failure :=
      match t.wd.getD bank none with
      | none => [failAt 0x0B core x]
      | some d => if block ∧ (d < -64 ∨ 63 < d) then [failAt 0x0B core x] else []
    if ¬ slotLive x 124 then arrayFailures core t rest
    else match x.word.array with
    | .setw _ bank d => arrayFailures core { t with wd := t.wd.set bank.val (some d.toInt) } rest
    | .clear _ bank => arrayFailures core (t.rows bank.val 0 16 fun _ => 0) rest
    | .drain _ bank row _ _ clr =>
      arrayFailures core (if clr then t.rows bank.val row.val 1 fun _ => 0 else t) rest
    | .mac _ bank _ _ fmt =>
      let u := t.rows bank.val 0 16 (· + macSteps fmt)
      window bank.val (mxFmt fmt) ++ deep u ++ arrayFailures core u rest
    | .accin _ bank _ row _ form =>
      let u := t.rows bank.val row.val (if form = .gs16 then 2 else 1) (· + 1)
      window bank.val (form == .gs16) ++ deep u ++ arrayFailures core u rest
    | _ => arrayFailures core t rest

/-- The registers that a LOAD or LDSC fills: 0 and 1 the operand pairs, 2 and 3 the scale sets, with the latency. -/
def fillsRegister (x : Issued) : Option (Nat × Nat) :=
  let lat : BSource → Nat
    | .bolt _ => 4
    | .scratch _ => 3
  match x.word.array with
  | .load _ p _ b => some (p.val, lat b)
  | .ldsc _ q _ b => some (2 + q.val, lat b)
  | _ => none

/-- The registers that a MAC or ACCIN latches (R92, R96). -/
def latches (x : Issued) : List Nat :=
  match x.word.array with
  | .mac _ _ p q _ => [p.val, 2 + q.val]
  | .accin _ _ p _ q .gs16 => [p.val, 2 + q.val]
  | .accin _ _ p _ _ .fp32 => [p.val]
  | _ => []

/-- R98 of a core's trace: a LOAD or LDSC may fill a register only when what it held last has been latched. `held` gives the
registers filled and not yet latched, with the cycle from which a MAC sees them. -/
def fillFailures (core : Nat) : Tab Nat → List Issued → List Failure
  | _, [] => []
  | held, x :: rest =>
    if ¬ slotLive x 124 then fillFailures core held rest
    else match fillsRegister x with
      | some (r, lat) =>
        (if (Tab.find held r).isSome then [failAt 0x09 core x] else []) ++ fillFailures core (Tab.put held r (x.cycle + lat)) rest
      | none =>
        fillFailures core (held.filter fun h => !((latches x).contains h.1 && decide (h.2 ≤ x.cycle))) rest

/-- R141 of one word: a bolt LOAD or LDSC beside a BLD. -/
def twoBoltReads (x : Issued) : Bool :=
  match x.word.array, x.word.move with
  | .load _ _ _ (.bolt _), .bld _ _ _ => true
  | .ldsc _ _ _ (.bolt _), .bld _ _ _ => true
  | _, _ => false

/-- The channels on which Table 9-1 allows a routine, its row from 0: VC_3 of ALL_GATHER is for working weights. -/
def callAllowed (x : Nat × Nat × Bool) : Bool :=
  let (routine, channel, weights) := x
  match routine with
  | 0 => channel == (if weights then 3 else 1)
  | 1 | 2 => channel == 1
  | 3 => channel == 1 || channel == 3
  | 4 => channel == 2
  | 5 => channel == 1 || channel == 5
  | 6 => channel == 5
  | _ => false

/-- A word writes a PURPOSE reserved for firmware (R102). -/
def reservedPurpose (w : Word4) : Bool :=
  match w.move with
  | .stream _ _ p _ => decide (0xFF00 ≤ p.toNat)
  | _ => false

/-- ENCODING of an image: the first word that does not decode (R103), or that writes a firmware PURPOSE in a pattern that does not
call the library (R102; the library's own code draws from 0xFF10, R255); then a library call on a channel that its routine is
not allowed (R250). -/
def encodingFailure (core : Nat) (library : Bool) (image : List Nat) : List Failure :=
  let bad (w : Nat) : Bool := match decodeWord (coreIdOf core) 0 w with
    | none => true
    | some x => !library && reservedPurpose x
  let fail (word : Nat) : Failure := { code := 0x08, cycle := 0, core := core, d0 := coreDetail core, d1 := word }
  match image.zipIdx.find? fun x => bad x.1 with
  | some x => [fail x.2]
  | none => if library && !(Config.libraryCalls image).all callAllowed then [fail 0] else []

/-- The failures of one core that R110 finds within the core. -/
def coreFailures (core declared : Nat) (library : Bool) (image : List Nat) (t : List Issued) : List Failure :=
  let loops := (t.filter fun x => !x.loopOk).map fun x => { failAt 0x08 core x with d1 := x.pc }
  let beyond := (t.filter fun x => decide (96 + declared ≤ x.cycle) || decide (96 + declared < x.cycle + wordLatency x)).map
    (failAt 0x0D core)
  let gather := (t.filter fun x => match x.word.move with
    | .gather _ _ _ base len _ => decide (192 < base.toNat + len.toNat + 1)
    | _ => false).map fun x => { failAt 0x11 core x with d1 := x.pc }
  encodingFailure core library image ++ loops ++ pairFailures core [] t ++ fillFailures core [] t ++
    (t.filter twoBoltReads).map (failAt 0x09 core) ++ arrayFailures core {} t ++ beyond ++ gather

/-- The HBM slot a word names, with its direction. -/
def hbmSlot (x : Issued) : Option (Nat × Bool) :=
  match x.word.move with
  | .hrd _ slot _ => some (slot.toNat, false)
  | .hwr _ slot _ => some (slot.toNat, true)
  | _ => none

/-- A failure comes before another: the lower reason, then the earlier cycle, then the lower core (R126). -/
def failureBefore (a b : Failure) : Bool :=
  decide (a.code < b.code) || (a.code == b.code && (decide (a.cycle < b.cycle) || (a.cycle == b.cycle && decide (a.core < b.core))))

/-- The failure that the refusal event reports. -/
def worst (l : List Failure) : Option Failure :=
  l.foldl (fun best x => match best with
    | none => some x
    | some b => if failureBefore x b then some x else some b) none

end Sys2Proof.Machine
end

