-- ==== Sys2Proof/Machine/Placement.lean ====
section
/-! DEFINITION. Placing and relocating a pattern (R125, R126 steps 4 and 5): bands, cores, images, BSET fields, and the
logical routes filled into physical route-table entries (R123). -/

namespace Sys2Proof.Machine

/-- The presented band a pattern band goes to (R125): none when it names no presented band. -/
def placedBand (s : State) (j : LoadJob) (i : Nat) : Option Nat :=
  let p := j.panelMap.getD (i / 16) 0xFF
  let b := i % 16 + j.bandBase.getD (i / 16) 0
  if p < s.nPanels ∧ b < 16 then some (16 * p + b) else none

/-- The core of a pattern band's row and logical column once placed. -/
def placedCore (g row col : Nat) : Nat := 10000 * (g / 16) + 125 * (5 * (g % 16) + row) + col

/-- PLACEMENT for bands (R125, R126 step 4): the pattern bands that are misplaced, placed twice, not owned by the context, or
unavailable. Of two placed on one presented band, the higher is the one at fault (DESIGN CHOICE, unsafe, assumption log 91). -/
def placeBands (s : State) (j : LoadJob) (l : List Nat) : List (Nat × Nat) :=
  l.filterMap fun i => match placedBand s j i with
    | none => some (i, 0xFFFFFFFF)
    | some g =>
      if (l.any fun k => decide (k < i) && placedBand s j k == some g) ∨ (s.band g).owner ≠ j.ctx ∨
        bandState s g = .unavailable then some (i, g) else none

/-- A route node (Table 4-9) with its pattern band and, once placed, its band; `row` is the row in the band. -/
structure RouteNode where
  route : Nat
  pband : Nat
  band : Nat
  row : Nat
  col : Nat
  out : Nat
  rxBase : Nat
  rxLen : Nat
deriving DecidableEq, Repr

/-- The nodes of a container, placed. -/
def routeNodes (s : State) (j : LoadJob) (b : List Byte) : List RouteNode :=
  (sectionRecords b 5 16).map fun x =>
    let r := x.2
    { route := leAt r 0 1, pband := leAt r 1 1, band := (placedBand s j (leAt r 1 1)).getD 0, row := leAt r 2 1,
      col := leAt r 3 1, out := leAt r 4 1, rxBase := leAt r 6 2, rxLen := leAt r 8 2 }

/-- Panel, global logical row and logical column of a node, by its pattern band or by its placed band. -/
def nodeAt (placed : Bool) (n : RouteNode) : Nat × Nat × Nat :=
  let g := if placed then n.band else n.pband
  (g / 16, 5 * (g % 16) + n.row, n.col)

/-- The position of a place along its layout row (R123): columns count on from panel to panel. -/
def alongRow (p col : Nat) : Nat := 125 * (p % 4) + col

/-- The node that a straight run from a node reaches (R123): the nearest of the route on the same logical row or column, or
across a long edge. -/
def nextNode (placed : Bool) (l : List RouteNode) (n : RouteNode) (o : MeshOut) : Option RouteNode :=
  let (p, row, col) := nodeAt placed n
  let mine := l.filter fun m => m.route == n.route
  let nearest (ok : RouteNode → Bool) (d : RouteNode → Nat) : Option RouteNode :=
    (mine.filter ok).foldl (fun best m => match best with
      | none => some m
      | some b => if d m < d b then some m else some b) none
  match o with
  | .east => nearest (fun m => let (q, r, c) := nodeAt placed m
      q / 4 == p / 4 && r == row && decide (alongRow p col < alongRow q c)) fun m =>
        let (q, _, c) := nodeAt placed m
        alongRow q c
  | .west => nearest (fun m => let (q, r, c) := nodeAt placed m
      q / 4 == p / 4 && r == row && decide (alongRow q c < alongRow p col)) fun m =>
        let (q, _, c) := nodeAt placed m
        1000 - alongRow q c
  | .south => nearest (fun m => let (q, r, c) := nodeAt placed m
      q == p && c == col && decide (row < r)) fun m => (nodeAt placed m).2.1
  | .north => nearest (fun m => let (q, r, c) := nodeAt placed m
      q == p && c == col && decide (r < row)) fun m => 100 - (nodeAt placed m).2.1
  | .bridge =>
    let (q, r) := if row = 79 then (p + 4, 0) else (p - 4, 79)
    mine.find? fun m => nodeAt placed m == (q, r, col)

/-- A node's bridge output stands at a hem-die attachment (R123). -/
def atHem (placed : Bool) (n : RouteNode) : Bool :=
  let (p, row, _) := nodeAt placed n
  (row == 0 && decide (p < 4)) || (row == 79 && decide (4 ≤ p))

/-- A node's output is selected. -/
def selects (n : RouteNode) (o : MeshOut) : Bool := n.out.testBit (o.bitOf - 25)

/-- The pattern band that a node's output crosses to over a bridge (R123): the same band of the next panel at columns 124 and 0,
the far end of the long edge at rows 79 and 0. -/
def crossesTo (n : RouteNode) (o : MeshOut) : Option Nat :=
  let (p, row, col) := nodeAt false n
  match o with
  | .east => if col = 124 ∧ p % 4 ≠ 3 then some (n.pband + 16) else none
  | .west => if col = 0 ∧ p % 4 ≠ 0 then some (n.pband - 16) else none
  | .bridge => if row = 79 ∧ p < 4 then some (n.pband + 49) else if row = 0 ∧ 4 ≤ p then some (n.pband - 49) else none
  | .north | .south => none

/-- Two presented bands stand to one another as the ends of the bridge that an output crosses (R115). -/
def bridgeKept (o : MeshOut) (x y : Nat) : Bool :=
  match o with
  | .east => x / 16 % 4 != 3 && y == x + 16
  | .west => x / 16 % 4 != 0 && y + 16 == x
  | .bridge => (x % 16 == 15 && decide (x < 64) && y == x + 49) || (x % 16 == 0 && decide (64 ≤ x) && y + 49 == x)
  | .north | .south => true

/-- Of placement failures, each a pattern band and where it is placed, the one of the lowest pattern band (R126). -/
def lowestBand (l : List (Nat × Nat)) : Option (Nat × Nat) :=
  l.foldl (fun best x => match best with
    | none => some x
    | some b => if x.1 < b.1 then some x else some b) none

/-- PLACEMENT for bridges (R126 step 4): every bridge that a route crosses, and the panels that a run joins, stay so once
placed. -/
def placeBridges (s : State) (j : LoadJob) (l : List RouteNode) : List (Nat × Nat) :=
  l.filterMap fun n => meshOuts.findSome? fun o =>
    if ¬ selects n o then none
    else if o = .bridge ∧ atHem false n then (if atHem true n then none else some (n.pband, n.band))
    else
      let crossing : Bool := match crossesTo n o with
        | none => true
        | some i => match placedBand s j i with
          | none => false
          | some y => bridgeKept o n.band y
      let joined : Bool := match nextNode false l n o with
        | none => true
        | some m =>
          let (p, q, x, y) := (n.pband / 16, m.pband / 16, n.band / 16, m.band / 16)
          (p == q && x == y) || (p != q && x + q == y + p && (o == .bridge || x / 4 == y / 4))
      if crossing && joined then none else some (n.pband, n.band)

/-! Images (R127). -/

/-- The cores that run an image: core number, image index, entry (Table 4-8). -/
def coreMap (s : State) (j : LoadJob) (b : List Byte) : List (Nat × Nat × Nat) :=
  let bands := patternBands b
  (sectionRecords b 4 8).zipIdx.filterMap fun x =>
    let r := x.1.2
    let k := x.2
    let g := (placedBand s j (bands.getD (k / 625) 0)).getD 0
    if leAt r 0 2 = 0xFFFF then none else some (placedCore g (k % 625 / 125) (k % 125), leAt r 0 2, leAt r 2 2)

/-- The instruction-store words that loaded patterns occupy in a core. -/
def usedWords (s : State) (core : Nat) : List Nat :=
  (s.work.patterns.map fun p => ((p.cores.filter fun c => c.core == core).map (·.words)).flatten).flatten

/-- The words a new image takes: the lowest free ones. -/
def freeWords (s : State) (core n : Nat) : List Nat := ((List.range 512).filter fun w => !(usedWords s core).contains w).take n

/-- STORE of step 4: the lowest core whose images do not fit, with the words needed. -/
def storeFailure (s : State) (cores : List (Nat × Nat × Nat)) (imgs : List (List Nat)) : Option Failure :=
  worst ((cores.filter fun c => decide (512 < (usedWords s c.1).length + (imgs.getD c.2.1 []).length)).map fun c =>
    { code := 0x0E, cycle := 0, core := c.1, d0 := coreDetail c.1,
      d1 := (usedWords s c.1).length + (imgs.getD c.2.1 []).length })

/-- The lowest free route page of a band (R111). -/
def freePage (s : State) (g : Nat) : Option Nat :=
  let used := s.work.patterns.filterMap fun p => Tab.find p.pages g
  (List.range 4).find? fun k => !used.contains k

/-! Relocation (R124). -/

/-- The base line of a context's bolt region in the slab above a core. -/
def regionBase (s : State) (n region core : Nat) : Option Nat :=
  let g := bandOfCore core
  let slab := physCol s (core / 10000) (core % 10000 / 125) (core % 125)
  match boltRegionOf s n region with
  | some (_, x) => ((runsOf x g (core % 125)).find? fun r => r.slab == slab).map (·.base)
  | none => none

/-- A word's BSET with a base added to its START; none when the word is not a BSET or the sum passes 2^20 − 1. -/
def relocWord (w base : Nat) : Option Nat :=
  let start := cut w 91 72
  if cut w 99 94 = 5 ∧ start + base < 2 ^ 20 then some (w + base * 2 ^ 72) else none

/-- A core's copy of its image after every RELOC record of the image (R124); none when one fails, as one does that names a region
undefined, or without a run above the core (DESIGN CHOICE, unsafe, assumption log 90). -/
def relocate (s : State) (n core image : Nat) (relocs : List (Nat × List Byte)) (words : List Nat) : Option (List Nat) :=
  relocs.foldl (fun acc x => match acc with
    | none => none
    | some ws =>
      if leAt x.2 0 2 ≠ image then some ws
      else match regionBase s n (leAt x.2 4 1) core with
        | none => none
        | some b => (relocWord (ws.getD (leAt x.2 2 2) 0) b).map fun w => ws.set (leAt x.2 2 2) w) (some words)

/-! Routes (R123). -/

/-- A physical entry under way: route, router, and the entry's outputs and region. -/
structure RouteFill where
  route : Nat
  router : Nat
  out : Nat
  rxBase : Nat
  rxLen : Nat
deriving DecidableEq, Repr

/-- Outputs added to a router's entry of a route. -/
def addFill (f : RouteFill) : List RouteFill → List RouteFill
  | [] => [f]
  | g :: l =>
    if g.route = f.route ∧ g.router = f.router then
      { g with out := Nat.lor g.out f.out, rxBase := Nat.lor g.rxBase f.rxBase, rxLen := Nat.lor g.rxLen f.rxLen } :: l
    else g :: addFill f l

/-- The routers from one to another in one direction, the first included and the last not; none when the panel ends
before. -/
def walk (s : State) (o : MeshOut) (to_ : Nat) : Nat → Nat → Option (List Nat)
  | 0, _ => none
  | fuel + 1, r =>
    if r = to_ then some []
    else match neighbour s r o with
      | none => none
      | some (q, _, _) => (walk s o to_ fuel q).map fun l => r :: l

/-- The entries of a straight run: the routers from the first on, each with its output. A vertical run between cores whose
physical columns differ first goes along the row to the column of its end (R114). A boundary router crosses a short edge by its
EAST or WEST output, as every router of the run does, and not by bit [25] (DESIGN CHOICE, unsafe, assumption log 89). -/
def runFills (s : State) (o : MeshOut) (a b : Nat × Nat × Nat) : Option (List (Nat × MeshOut)) :=
  let (p, row, col) := a
  let (q, row', col') := b
  let from' := routerNum p row (physCol s p row col)
  let to_ := routerNum q row' (physCol s q row' col')
  match o with
  | .east | .west => (walk s o to_ 600 from').map fun l => l.map fun r => (r, o)
  | .north | .south =>
    let turn := routerNum p row (physCol s q row' col')
    let side : MeshOut := if from' < turn then .east else .west
    match walk s side turn 200 from', walk s o to_ 200 turn with
    | some x, some y => some (x.map (fun r => (r, side)) ++ y.map fun r => (r, o))
    | _, _ => none
  | .bridge => some [(from', .bridge)]

/-- The entries that one node needs: its own region and bridge to a hem die, and its runs; none when a route rule is
broken (R112, R123). -/
def nodeFills (s : State) (l : List RouteNode) (n : RouteNode) : Option (List RouteFill) :=
  let (p, row, col) := nodeAt true n
  let own := routerNum p row (physCol s p row col)
  let loc := n.out.testBit 1
  let mk (r : Nat) (o : Nat) : RouteFill := { route := n.route, router := r, out := o, rxBase := 0, rxLen := 0 }
  if loc ∧ 1536 < n.rxBase + n.rxLen then none
  else
    let base : List RouteFill := [{ route := n.route, router := own, out := if loc then 2 else 0, rxBase := n.rxBase, rxLen := n.rxLen - 1 }]
    (meshOuts.filter fun o => selects n o).foldl (fun acc o => match acc with
      | none => none
      | some fs =>
        if o = .bridge ∧ row ≠ 0 ∧ row ≠ 79 then none
        else if o = .bridge ∧ atHem true n then some (fs ++ [mk own 1])
        else match nextNode true l n o with
          | none => none
          | some m => (runFills s o (nodeAt true n) (nodeAt true m)).map fun x =>
              fs ++ x.map fun y => mk y.1 (2 ^ (y.2.bitOf - 25))) (some base)

/-- A ROUTE failure. -/
def routeFailure (route router cycle : Nat) : Failure :=
  { code := 0x10, cycle := cycle, core := router, d0 := route, d1 := routerDetail router }

/-- Every physical entry of a pattern's routes, and the nodes that break a rule. -/
def fillRoutes (s : State) (l : List RouteNode) : List RouteFill × List Failure :=
  l.foldl (fun acc n => match nodeFills s l n with
    | some fs => (fs.foldl (fun a f => addFill f a) acc.1, acc.2)
    | none =>
      let (p, row, col) := nodeAt true n
      (acc.1, acc.2 ++ [routeFailure n.route (routerNum p row (physCol s p row col)) 0])) ([], [])

/-- The route-table entry of a fill (Table 3-9). -/
def entryOf (f : RouteFill) : BitVec 32 :=
  BitVec.ofNat 32 (2 ^ 31 + f.out * 2 ^ 25 + f.rxBase * 2 ^ 14 + f.rxLen * 2 ^ 3)

/-- One use of a router's output by a flit, or an ejection (R113). -/
structure MeshUse where
  time : Nat
  router : Nat
  out : Nat
  route : Nat
deriving DecidableEq, Repr

/-- The uses that a flit makes from a router on, with the ejections' times; a router without an entry is reported in the
second list. -/
def flitUses (s : State) (fills : List RouteFill) (route : Nat) : Nat → Nat → Nat → List MeshUse × List Nat
  | 0, r, _ => ([], [r])
  | fuel + 1, r, t =>
    match fills.find? fun f => f.route == route && f.router == r with
    | none => ([], [r])
    | some f =>
      let ej : List MeshUse := if f.out.testBit 1 then [{ time := t, router := r, out := 26, route := route }] else []
      let hem : List MeshUse := if f.out.testBit 0 ∧ (attachment r).isSome then [{ time := t, router := r, out := 25, route := route }] else []
      (meshOuts.filter fun o => f.out.testBit (o.bitOf - 25) && !(o == .bridge && (attachment r).isSome)).foldl
        (fun acc o => match neighbour s r o with
          | none => (acc.1, acc.2 ++ [r])
          | some (q, _, crossed) =>
            let sub := flitUses s fills route fuel q (t + 1 + (if crossed then 4 else 0))
            (acc.1 ++ [{ time := t, router := r, out := o.bitOf, route := route }] ++ sub.1, acc.2 ++ sub.2)) (ej ++ hem, [])

end Sys2Proof.Machine
end

