-- ==== Sys2Proof/Machine/Loading.lean ====
section
/-! DEFINITION. LOAD_PATTERN and what its completion checks and writes (R126 to R129). -/

namespace Sys2Proof.Machine

/-- An HBM slot stream of a container, placed (Table 4-7). -/
def slotStreams (s : State) (j : LoadJob) (b : List Byte) : List SlotStream :=
  (sectionRecords b 2 32).map fun x =>
    let r := x.2
    let flags := leAt r 15 1
    { first := leAt r 0 4, period := leAt r 4 4, count := leAt r 8 4,
      core := placedCore ((placedBand s j (leAt r 12 1)).getD 0) (leAt r 13 1) (leAt r 14 1),
      write := flags.testBit 0, indirect := flags.testBit 1, region := leAt r 16 1, pc := leAt r 17 1,
      base := leAt r 20 5, stride := BitVec.ofNat 32 (leAt r 28 4) }

/-- The line that access n of a direct stream names (R122): none below the region. -/
def directLine (t : SlotStream) (n : Nat) : Option Nat :=
  let l : Int := t.base + n * t.stride.toInt
  if l < 0 then none else some l.toNat

/-- SLOTMAP failure of a stream at an access. -/
def slotFailure (stream access cycle core : Nat) : Failure :=
  { code := 0x12, cycle := cycle, core := core, d0 := stream, d1 := access }

/-- SLOTMAP within one core's trace (R105, R122): each HRD and HWR is access n of its stream, at the access's cycle, in the
stream's core and direction. `seen` counts the accesses so far. -/
def slotChecks (core : Nat) (streams : List SlotStream) : Tab Nat → List Issued → List Failure × Tab Nat
  | seen, [] => ([], seen)
  | seen, x :: rest =>
    match hbmSlot x with
    | none => slotChecks core streams seen rest
    | some (k, write) =>
      let n := Tab.getD seen k 0
      let ok : Bool := match streams[k]? with
        | some t => t.core == core && t.write == write && decide (n < t.count) && x.cycle == t.first + n * t.period
        | none => false
      let r := slotChecks core streams (Tab.add seen k 1) rest
      ((if ok then [] else [slotFailure k n x.cycle core]) ++ r.1, r.2)

/-- SLOTMAP of the streams themselves: every access is issued, and a direct stream's lines lie on its pseudo-channel where
the region is defined at load. -/
def streamChecks (s : State) (n : Nat) (seen : Tab Nat) (streams : List SlotStream) : List Failure :=
  (streams.zipIdx.map fun x =>
    let t := x.1
    let issued := Tab.getD seen x.2 0
    let short := if issued < t.count then [slotFailure x.2 issued (t.first + issued * t.period) t.core] else []
    let wrong : List Failure := match hbmRegion s n t.region with
      | none => []
      | some r =>
        if t.indirect then []
        else match (List.range t.count).find? fun k => match directLine t k with
          | none => true
          | some l => match lineOf s n r l with
            | some (pc, _) => pc != t.pc
            | none => true with
          | some k => [slotFailure x.2 k (t.first + k * t.period) t.core]
          | none => []
    short ++ wrong).flatten

/-! Bolt reads (R120, R126 step 7). -/

/-- A read of the vertical port: the bolt stream, the lines, and whether the slot is live (R106). -/
structure PortRead where
  stream : Nat
  lines : Nat
  live : Bool
deriving DecidableEq, Repr

/-- What a word's array and move slots read of the bolt. -/
def boltReads (x : Issued) : List PortRead :=
  (match x.word.array with
    | .load _ _ _ (.bolt t) => [{ stream := t.val, lines := 2, live := slotLive x 124 }]
    | .ldsc _ _ _ (.bolt t) => [{ stream := t.val, lines := 1, live := slotLive x 124 }]
    | _ => []) ++
  match x.word.move with
    | .bld _ t _ => [{ stream := t.val, lines := 2, live := slotLive x 122 }]
    | _ => []

/-- A line of the bolt read at a core cycle; gated off, a read takes its bank all the same (R106). -/
structure LineRead where
  cycle : Nat
  line : Nat
  live : Bool
deriving DecidableEq, Repr

/-- The reads of one word, under the pointers and strides of the bolt streams, which live reads pass on. -/
def wordLines (cycle : Nat) (bst : List (Nat × Int)) (l : List PortRead) : List LineRead × List (Nat × Int) :=
  l.foldl (fun a r =>
    let (p, d) := a.2.getD r.stream (0, 0)
    let got := (List.range r.lines).map fun i => ({ cycle := cycle, line := (p + i) % 2 ^ 20, live := r.live } : LineRead)
    (a.1 ++ got, if r.live then a.2.set r.stream ((((p : Int) + r.lines + d) % 2 ^ 20).toNat, d) else a.2)) ([], bst)

/-- The lines that a trace reads, following its bolt streams (pointer and signed stride). -/
def linesRead : List (Nat × Int) → List Issued → List LineRead
  | _, [] => []
  | bst, x :: rest =>
    let (got, bst) := wordLines x.cycle bst (boltReads x)
    let bst := match x.word.move with
      | .bset _ t start stride => if slotLive x 122 then bst.set t.val (start.toNat, stride.toInt) else bst
      | _ => bst
    got ++ linesRead bst rest

/-- A loaded core: its number, its relocated image and its trace. -/
structure LoadedCore where
  core : Nat
  image : List Nat
  entry : Nat
  steps : List Issued

/-- The lines a core reads. -/
def LoadedCore.lines (c : LoadedCore) : List LineRead := linesRead (List.replicate 4 (0, 0)) c.steps

/-- The bank of a line within its segment (Table 5-1). -/
def bankOf (line : Nat) : Nat := line / 32768 % 2 * 16 + line / 2 % 16

/-- HAZARD of R141 over the cores above one segment: two distinct pairs of one bank read in one cycle, reported for each core that
reads one of them. -/
def bankFailures (s : State) (cores : List LoadedCore) : List Failure :=
  let reads := (cores.map fun c => c.lines.map fun r =>
    (c.core, bandOfCore c.core, physCol s (c.core / 10000) (c.core % 10000 / 125) (c.core % 125), r)).flatten
  (reads.filter fun x => reads.any fun y =>
    y.2.1 == x.2.1 && y.2.2.1 == x.2.2.1 && y.2.2.2.cycle == x.2.2.2.cycle && bankOf y.2.2.2.line == bankOf x.2.2.2.line &&
      y.2.2.2.line / 2 != x.2.2.2.line / 2).map fun x =>
    { code := 0x09, cycle := x.2.2.2.cycle, core := x.1, d0 := coreDetail x.1, d1 := x.2.2.2.cycle }

/-- LEDGER failure. -/
def ledgerFailure (cycle core d0 d1 : Nat) : Failure := { code := 0x13, cycle := cycle, core := core, d0 := d0, d1 := d1 }

/-- Extents and idle windows of a container, placed. -/
def extentsOf (s : State) (j : LoadJob) (b : List Byte) : List Extent :=
  (extentRecords b).map fun x =>
    { region := leAt x.2 0 1, band := (placedBand s j (leAt x.2 1 1)).getD 0, slab := leAt x.2 2 2, first := leAt x.2 4 4,
      count := leAt x.2 8 4 }

/-- The idle windows (Table 4-6), placed. -/
def idlesOf (s : State) (j : LoadJob) (b : List Byte) : List IdleWindow :=
  (idleRecords b).map fun x =>
    { band := (placedBand s j (leAt x.2 0 1)).getD 0, start := leAt x.2 4 4, length := leAt x.2 8 4 }

/-- HBM_PC of a container (Table 4-4). -/
def hbmPcOf (b : List Byte) : Tab Nat :=
  (List.range 256).filterMap fun k =>
    let v := leAt b (ledgerPlace b + 64 + 4 * k) 4
    if v = 0 then none else some (k, v)

/-- SEAM of a container, keyed by 8 × port + channel. -/
def seamOf (b : List Byte) : Tab Nat :=
  (List.range 128).filterMap fun k =>
    let v := leAt b (ledgerPlace b + 1088 + 2 * k) 2
    if v = 0 then none else some (k, v)

/-- The lines of a core's slab that an extent covers, as absolute lines; none where the region has no run there. -/
def extentLines (s : State) (n core : Nat) (t : Extent) : Option (Nat × Nat) :=
  (regionBase s n t.region core).map fun b => (b + t.first, b + t.first + t.count)

/-- LEDGER of one band and logical slab (R126 step 7, R141): every line read lies in an extent, and the lines read are as many as
the extents declare. -/
def slabLedger (s : State) (n g col : Nat) (ext : List Extent) (cores : List LoadedCore) : List Failure :=
  let mine := ext.filter fun t => t.band == g && t.slab == col
  let here := cores.filter fun c => bandOfCore c.core == g && c.core % 125 == col
  let rel := (here.map fun c => (c.lines.filter (·.live)).map fun r =>
    (c.core, r.cycle, mine.findSome? fun t => match extentLines s n c.core t with
      | some (a, b) => if a ≤ r.line ∧ r.line < b then some (t.region, r.line - a + t.first) else none
      | none => none)).flatten
  let count := (rel.filterMap (·.2.2)).eraseDups.length
  let outside := (rel.filter fun x => x.2.2.isNone).map fun x => ledgerFailure x.2.1 x.1 (128 * g + col) count
  outside ++ if count ≠ (mine.map (·.count)).sum then [ledgerFailure 0 (625 * g + col) (128 * g + col) count] else []

/-- LEDGER of one idle window (R120): the bolt reads of its band that fall in it, gated off or not, counted by slab. -/
def idleFailures (cores : List LoadedCore) (w : IdleWindow) : List Failure :=
  let reads := ((cores.filter fun c => bandOfCore c.core == w.band).map fun c =>
    (c.steps.filter fun x => !(boltReads x).isEmpty && decide (w.start ≤ x.cycle) && decide (x.cycle < w.start + w.length)).map
      fun x => (c.core, x.cycle)).flatten
  reads.map fun x =>
    ledgerFailure x.2 x.1 (128 * w.band + x.1 % 125) (reads.filter fun y => y.1 % 125 == x.1 % 125).length

/-- LEDGER of a pattern (R121, R126 step 7). On TVM-7028 no pseudo-channel from 224 on is there to declare (R160). -/
def ledgerFailures (s : State) (n : Nat) (b : List Byte) (bands : List Nat) (streams : List SlotStream) (ext : List Extent)
    (idle : List IdleWindow) (cores : List LoadedCore) : List Failure :=
  let pcs := (List.range 256).filterMap fun pc =>
    let used := ((streams.filter fun t => t.pc == pc).map (·.count)).sum
    let declared := Tab.getD (hbmPcOf b) pc 0
    if used = declared ∧ (declared = 0 ∨ pc < 32 * s.nPanels) then none else some (ledgerFailure 0 0 pc used)
  let own := (List.range 16).filterMap fun m =>
    let v := Tab.getD (seamOf b) (8 * m) 0 + Tab.getD (seamOf b) (8 * m + 7) 0
    if v = 0 then none else some (ledgerFailure 0 0 m v)
  let slabs := (bands.map fun g => ((List.range 125).map fun c => slabLedger s n g c ext cores).flatten).flatten
  pcs ++ own ++ slabs ++ (idle.map (idleFailures cores)).flatten

/-! Routes in time (R113, R114, R116). -/

/-- The flits that a core's trace injects: cycle, route. -/
def injections (t : List Issued) : List (Nat × Nat) :=
  t.filterMap fun x => match x.word.move with
    | .msend _ _ route => if slotLive x 122 then some (x.cycle, route.toNat) else none
    | _ => none

/-- The output of a use crosses a short edge (R116): the boundary routers' EAST and WEST. -/
def shortEdge (u : MeshUse) : Bool :=
  (u.out == MeshOut.east.bitOf && u.router % 128 == 127) || (u.out == MeshOut.west.bitOf && u.router % 128 == 0)

/-- A use goes beyond what its output carries, after the uses before it: one flit in a cycle (R113); at a short edge two in a cycle,
and 25 in an aligned window of 16 cycles (R116). -/
def overUsed (earlier : List MeshUse) (u : MeshUse) : Bool :=
  let same := earlier.filter fun y => y.router == u.router && y.out == u.out
  let now := (same.filter fun y => y.time == u.time).length
  if shortEdge u then decide (2 ≤ now) || decide (25 ≤ (same.filter fun y => y.time / 16 == u.time / 16).length) else decide (1 ≤ now)

/-- The uses that go beyond what their outputs carry. -/
def overUses : List MeshUse → List MeshUse → List MeshUse
  | _, [] => []
  | earlier, u :: rest => (if overUsed earlier u then [u] else []) ++ overUses (u :: earlier) rest

/-- A flit's ejection: the cycle of its MSEND, and where and when it reaches a local output. -/
structure Ejection where
  sent : Nat
  use : MeshUse
deriving DecidableEq, Repr

/-- HAZARD of R114: a core reads the place that a flit fills after its MSEND and before the flit is usable there. Its place is the
n-th of the entry's region, n counting the ejections before it (R112). -/
def arrivalHazards (s : State) (fills : List RouteFill) (cores : List LoadedCore) (l : List Ejection) : List Failure :=
  (l.map fun e =>
    let u := e.use
    match coreOfRouter s u.router, fills.find? fun f => f.route == u.route && f.router == u.router with
    | some core, some f =>
      let n := (l.filter fun x => x.use.router == u.router && x.use.route == u.route && decide (x.use.time < u.time)).length
      let place : Ranges := [(32 * (f.rxBase + n % (f.rxLen + 1)), 32)]
      ((cores.filter fun c => c.core == core).map fun c =>
        (c.steps.filter fun x => decide (e.sent < x.cycle) && decide (x.cycle < u.time + 3) &&
          (scratchReads x).any fun r => rangesMeet r place).map (failAt 0x09 core)).flatten
    | _, _ => []).flatten

/-- ROUTE, HAZARD and OVERRUN of the flits a pattern sends: a missing entry, more flits at an output than it carries, a read of a
flit's place before it is usable there, an ejection past the declared count. -/
def flitFailures (s : State) (declared : Nat) (fills : List RouteFill) (cores : List LoadedCore) : List Failure :=
  let sent := (cores.map fun c => (injections c.steps).map fun x => (c.core, x.1, x.2)).flatten
  let flown := sent.map fun x => (x, flitUses s fills x.2.2 20000 (routerOfCore s x.1) x.2.1)
  let missing := (flown.map fun f => f.2.2.map fun r => routeFailure f.1.2.2 r f.1.2.1).flatten
  let uses := (flown.map fun f => f.2.1).flatten
  let crowded := (overUses [] uses).map fun u => routeFailure u.route u.router u.time
  let ejected := (flown.map fun f => (f.2.1.filter fun u => u.out == 26).map fun u => ({ sent := f.1.2.1, use := u } : Ejection)).flatten
  let late := (flown.map fun f => (f.2.1.filter fun u => u.out == 26 && decide (96 + declared < u.time + 3)).map fun _ =>
    ({ code := 0x0D, cycle := f.1.2.1, core := f.1.1, d0 := coreDetail f.1.1, d1 := f.1.2.1 } : Failure)).flatten
  missing ++ crowded ++ arrivalHazards s fills cores ejected ++ late

/-- The panels that a pattern's routes join over bridges (R117). -/
def bridgesOf (s : State) (fills : List RouteFill) : List (Nat × Nat) :=
  ((fills.map fun f => meshOuts.filterMap fun o =>
    if f.out.testBit (o.bitOf - 25) then match neighbour s f.router o with
      | some (q, _, true) => some (f.router / 10240, q / 10240)
      | _ => none
    else none).flatten).eraseDups

/-! LOAD_PATTERN. -/

/-- The checks of R126 from step 2 on: the refusal, or the pattern with its images and its route-table entries. -/
def checkLoad (s : State) (j : LoadJob) (b : List Byte) (portOk : Bool) :
    Except (Nat × Nat × Nat) (Pattern × List (Nat × List Nat) × List RouteFill) :=
  let n := j.ctx.val
  if ¬ portOk then .error (0x01, 0, 0)
  else match formatFail b with
  | some o => .error (0x01, o, 0)
  | none =>
    if ¬ hashOk b then .error (0x02, 0, 0)
  else
    let grade := if s.straps.grade7 then 7 else 8
    let ten := b2n (s.ctx n).serving
    if leAt b 36 1 ≠ grade then .error (0x03, leAt b 36 1, grade)
    else if leAt b 64 8 ≠ (fwId s).toNat then .error (0x04, leAt b 64 4, (fwId s).toNat % 2 ^ 32)
    else if leAt b 72 8 < (cutterMin s).toNat then .error (0x05, leAt b 72 4, (cutterMin s).toNat % 2 ^ 32)
    else if leAt b 37 1 ≠ ten then .error (0x06, leAt b 37 1, ten)
    else
    let pbs := patternBands b
    let nodes := routeNodes s j b
    match lowestBand (placeBands s j pbs ++ placeBridges s j nodes) with
    | some (d0, d1) => .error (0x07, d0, d1)
    | none =>
    let bands := pbs.filterMap fun i => placedBand s j i
    let imgs := images b
    let map := coreMap s j b
    match storeFailure s map imgs with
    | some f => .error (f.code, f.d0, f.d1)
    | none =>
    let full := if nodes.isEmpty then none else bands.find? (fun g => (freePage s g).isNone)
    match full with
    | some g => .error (0x0F, g, 0)
    | none =>
    let relocs := sectionRecords b 6 8
    let copies := map.map fun c => (c, relocate s n c.1 c.2.1 relocs (imgs.getD c.2.1 []))
    match worst ((copies.filter fun x => x.2.isNone).map fun x =>
        { code := 0x0E, cycle := 0, core := x.1.1, d0 := coreDetail x.1.1, d1 := 0 }) with
    | some f => .error (f.code, f.d0, f.d1)
    | none =>
    let declared := leAt b 32 4
    let cores : List LoadedCore := copies.map fun x =>
      let ws := x.2.getD []
      { core := x.1.1, image := ws, entry := x.1.2.2, steps := coreTrace x.1.1 ws x.1.2.2 declared }
    let streams := slotStreams s j b
    let (fills, broken) := fillRoutes s nodes
    let foreign := (fills.filter fun f => !bands.contains (bandOfRouter f.router)).map fun f => routeFailure f.route f.router 0
    let library := (leAt b 39 1).testBit 0
    let inner := (cores.map fun c => coreFailures c.core declared library c.image c.steps).flatten ++ bankFailures s cores
    let slots := (cores.map fun c => (slotChecks c.core streams [] c.steps).1).flatten
    let seen : Tab Nat := cores.foldl (fun t c => (slotChecks c.core streams [] c.steps).2.foldl (fun t x => Tab.add t x.1 x.2) t) []
    match worst (inner ++ broken ++ foreign ++ flitFailures s declared fills cores ++ slots ++ streamChecks s n seen streams) with
    | some f => .error (f.code, f.d0, f.d1)
    | none =>
    let ext := extentsOf s j b
    let idle := idlesOf s j b
    match worst (ledgerFailures s n b bands streams ext idle cores) with
    | some f => .error (f.code, f.d0, f.d1)
    | none =>
    let placed : List CorePlace := cores.map fun c => { core := c.core, words := freeWords s c.core c.image.length, entry := c.entry }
    let pages : Tab Nat := if nodes.isEmpty then [] else bands.foldl (fun t g => Tab.put t g ((freePage s g).getD 0)) []
    let p : Pattern :=
      { ctx := j.ctx, handle := j.handle, id := BitVec.ofNat 128 (leAt b 16 16), declared := declared, tenancy := ten,
        phaseMask := BitVec.ofNat 8 (leAt b 38 1), pleat := (leAt b 39 1).testBit 1, library := library, epoch := BitVec.ofNat 16 (leAt b 56 2),
        bands := bands, logical := pbs.filterMap fun i => (placedBand s j i).map fun g => (g, i), hbm := hbmPcOf b,
        seam := seamOf b, extents := ext, idle := idle, streams := streams, cores := placed, pages := pages, bridges := bridgesOf s fills }
    .ok (p, cores.map fun c => (c.core, c.image), fills)

/-- A load ends: the job is gone. -/
def dropLoad (j : LoadJob) (s : State) : State :=
  s.onWork fun w => { w with loads := w.loads.filter fun x => !(x.ctx == j.ctx && x.handle == j.handle) }

/-- A router of a band loses the entries of a route page. -/
def clearPage (g page : Nat) (x : Nat × Router) : Nat × Router :=
  if bandOfRouter x.1 = g then (x.1, { x.2 with entries := x.2.entries.filter fun e => e.1 / 256 != page }) else x

/-- Step 8 of R126: images, route pages and the pattern are written. -/
def installPattern (p : Pattern) (copies : List (Nat × List Nat)) (fills : List RouteFill) (s : State) : State :=
  let s := s.each copies fun s c =>
    let words := match p.cores.find? fun k => k.core == c.1 with
      | some k => k.words
      | none => []
    s.onCore c.1 fun k => { k with istore := (words.zip c.2).foldl (fun t x => Tab.put t x.1 (BitVec.ofNat 128 x.2)) k.istore }
  let s := s.each p.bands fun s g => match Tab.find p.pages g with
    | none => s
    | some pg => s.onCores fun k => { k with routers := k.routers.map (clearPage g pg) }
  let s := s.each fills fun s f =>
    let pg := Tab.getD p.pages (bandOfRouter f.router) 0
    s.onRouter f.router fun r => { r with entries := Tab.put r.entries (256 * pg + f.route) (entryOf f) }
  s.onWork fun w => { w with patterns := w.patterns ++ [p] }

/-- PATTERN_LOADED (R126): the oldest load of a context's ring ends, with its completion event or its refusal. -/
def patternLoaded (n : Nat) (portOk : Bool) (s : State) : State :=
  match s.work.loads.find? fun j => j.ctx.val == n with
  | none => s
  | some j =>
    match checkLoad s j (Mem.bytes s.hostMem j.addr j.size) portOk with
    | .error (reason, d0, d1) => postRefusal n reason 0x01 j.ringIndex j.handle d0 d1 (dropLoad j s)
    | .ok (p, copies, fills) =>
      postCompletion n 0x01 0 0 j.ringIndex j.handle 0 [] (installPattern p copies fills (dropLoad j s))

/-- PATTERN_LOADED. -/
def execPatternLoaded (n : Ctx) (portOk : Bool) (s : State) : Out := .next (patternLoaded n.val portOk s)

/-- A pattern is unloaded (R129): its words and its pages are free, its handle may be used again. -/
def unloadPattern (n h : Nat) (s : State) : State :=
  match patternOf s n h with
  | none => s
  | some p =>
    let s := s.each p.cores fun s c => s.onCore c.core fun k => { k with istore := k.istore.filter fun x => !c.words.contains x.1 }
    let s := s.each p.pages fun s g => s.onCores fun k => { k with routers := k.routers.map (clearPage g.1 g.2) }
    s.onWork fun w => { w with patterns := w.patterns.filter fun q => !(q.ctx.val == n && q.handle == h) }

end Sys2Proof.Machine
end

