-- ==== Sys2Proof/Machine/ServeOps.lean ====
section
/-! DEFINITION. The serving unit's shared operations (10_serving): books, token records, list building and results. -/

namespace Sys2Proof.Machine

/-- QUOTA, DECODE_MAX, PREFILL_MAX and CHUNK_MAX of SRV_CFG_n (Table 10-11). -/
def srvQuota (c : SrvCtx) : Nat := fld c.cfg 12 0

/-- DECODE_MAX. -/
def srvDecodeMax (c : SrvCtx) : Nat := fld c.cfg 28 16

/-- PREFILL_MAX. -/
def srvPrefillMax (c : SrvCtx) : Nat := fld c.cfg 41 32

/-- CHUNK_MAX. -/
def srvChunkMax (c : SrvCtx) : Nat := fld c.cfg 56 48

/-- POOL_SWATCHES. -/
def poolSwatches (c : SrvCtx) : Nat := fld c.pool 47 32

/-- RESERVE. -/
def swatchReserve (c : SrvCtx) : Nat := fld c.pool 63 48

/-- SWATCH_UNITS. -/
def swatchUnits (c : SrvCtx) : Nat := fld c.pool 23 16

/-- FREE of the swatch books (R285): the pool less what the owner map lists. -/
def freeSwatches (c : SrvCtx) : Nat := poolSwatches c - c.owner.length

/-- The slots a context holds, with their indices. -/
def slotsOf (s : State) (n : Nat) : List (Nat × SeqSlot) :=
  s.srv.slots.filter fun x => x.2.ctx.val == n && x.2.state != .free

/-- HELD of SRV_STAT_n. -/
def slotsHeld (s : State) (n : Nat) : Nat := (slotsOf s n).length

/-- The swatches a slot holds. -/
def swatchesOf (c : SrvCtx) (slot : Nat) : List (Nat × Nat × Nat) := c.owner.filter fun o => o.2.1 == slot

/-- SWAPPING of SRV_STAT_n: swatches of slots that are PARKING or RESUMING. -/
def swatchesSwapping (s : State) (n : Nat) : Nat :=
  ((s.srvCtx n).owner.filter fun o =>
    (s.slot o.2.1).state == .parking || (s.slot o.2.1).state == .resuming).length

/-- The lowest pool swatch that no slot owns (DESIGN CHOICE, unsafe, assumption log 35). -/
def firstFree (c : SrvCtx) : Option Nat :=
  (List.range (poolSwatches c)).find? fun k => (Tab.find c.owner k).isNone

/-- A token record (Table 10-7) is written to the token ring, or dropped and counted in LOST (R290); a FAULTED context's slots
write none (R358). -/
def tokenRecord (n : Nat) (tag : W64) (position : Nat) (token : W32) (kind slot : Nat) (stitch : Stitch) (swatches : Nat)
    (s : State) : State :=
  let c := s.srvCtx n
  let l0 := fld c.tqCtrl 4 0
  let l := if 8 ≤ l0 ∧ l0 ≤ 16 then l0 else 8
  let head : BitVec 32 := BitVec.ofNat 32 (fld c.tqCtrl 47 16)
  if (s.ctx n).state = .faulted then s
  else if 2 ^ l ≤ (c.tail - head).toNat then s.onSrvCtx n fun c => { c with lost := satInc c.lost 1 }
  else
    let phase := (c.tail.toNat / 2 ^ l + 1) % 2
    let b := layout 32 [(0, leBytes 8 tag.toNat), (8, leBytes 4 position), (12, leBytes 4 token.toNat), (16, leBytes 1 kind),
      (17, leBytes 1 phase), (18, leBytes 2 slot), (20, leBytes 5 stitch.toNat), (25, leBytes 2 swatches)]
    let a := fld c.tqBase 63 12 * 4096 + 32 * (c.tail.toNat % 2 ^ l)
    (s.setHostMem (Mem.write s.hostMem a b)).onSrvCtx n fun c => { c with tail := c.tail + 1 }

/-- A slot becomes FREE and its swatches return to FREE (R285, R289). -/
def freeSlot (i : Nat) (s : State) : State :=
  let n := (s.slot i).ctx.val
  (s.onSrvCtx n fun c => { c with owner := c.owner.filter fun o => o.2.1 != i }).onSrv fun v =>
    { v with slots := Tab.drop v.slots i }

/-- A slot enters RETIRING. -/
def retireSlot (i : Nat) (s : State) : State :=
  let now := s.stu.stitch
  s.onSlot i fun t => { t with state := .retiring, since := now }

/-- A slot leaves service by a release (kind 0x05) or a timeout (kind 0x04) (R282): a listed slot goes to RETIRING with a
RETIRED record; one in a transfer finishes it first; any other is unaffected. -/
def endSlot (i kind : Nat) (s : State) : State :=
  let t := s.slot i
  match t.state with
  | .prefill | .decode =>
    tokenRecord t.ctx.val t.tag 0 0 kind i s.stu.stitch 0 (retireSlot i s)
  | .parking | .resuming => s.onSlot i fun t => { t with cause := some (t.cause.getD kind) }
  | .retiring | .free => s

/-- A slot's TIMEOUT is due (R282). -/
def timeoutDue (s : State) (t : SeqSlot) : Bool :=
  t.timeout ≠ 0 && decide (0 ≤ (s.stu.stitch - (t.admitted + t.timeout.setWidth 40)).toInt)

/-- The leader core of a band: its first logical row and column 0 (R109). -/
def leaderCore (g : Nat) : Nat := 10000 * (g / 16) + 125 * (5 * (g % 16))

/-- The leader core and place in its areas of list entry i (R288). -/
def listPlace (c : SrvCtx) (i : Nat) : Nat × Nat :=
  let per := max 1 (fld c.list 25 16)
  (leaderCore (fld c.list 6 0 + i / per), i % per)

/-- The bytes of a work-list entry (Table 10-5); a masked one is all zeros. -/
def listEntryBytes (e : ListEntry) : List Byte :=
  match e.kind with
  | .masked => List.replicate 32 0
  | k =>
    let kind := if k = .decode then 1 else 2
    layout 32 [(0, leBytes 2 (e.slot + 4096 * kind + 16384 * b2n e.last)), (2, leBytes 2 e.count),
      (4, leBytes 4 e.position), (8, leBytes 4 (e.newSwatch.getD 0xFFFF_FFFF)), (12, leBytes 2 e.swatches),
      (14, leBytes 2 e.window), (16, leBytes 8 e.globalMask.toNat), (24, leBytes 4 e.gBase),
      (28, leBytes 4 e.promptLine.toNat)]

/-- The masked entry at a list position (R287). -/
def maskedEntry (i : Nat) : ListEntry :=
  { index := i, slot := 0, kind := .masked, last := false, count := 0, position := 0, newSwatch := none, swatches := 0,
    window := 0, globalMask := 0, gBase := 0, promptLine := 0 }

/-- The entry of a slot at a position for some positions (R287, Table 10-5). -/
def entryFor (i : Nat) (t : SeqSlot) (kind : EntryKind) (position count : Nat) : ListEntry :=
  let samples := kind = .decode ∨ t.promptLen ≤ position + count
  { index := 0, slot := i, kind := kind, last := decide (samples ∧ t.maxLen ≤ position + count), count := count,
    position := position, newSwatch := none, swatches := t.swatches, window := t.window, globalMask := t.globalMask,
    gBase := t.gBase, promptLine := t.promptLine }

/-- An entry starts a swatch: its positions reach past the swatches started (R284). -/
def startsSwatch (e : ListEntry) : Bool := e.swatches * 256 < e.position + e.count

/-- The results of the list in force will be discarded (R296): ABORTED is set in this stitch or was in the one before. -/
def willDiscard (s : State) (n : Nat) : Bool := (s.colCtx n).aborted || (s.srvCtx n).discardNext

/-- LENGTH′ of a slot (R287): its LENGTH plus the COUNT of its entry in the list in force, unless that list's results will
be discarded. -/
def predicted (s : State) (n i : Nat) (t : SeqSlot) : Nat :=
  let c := s.srvCtx n
  if willDiscard s n then t.length
  else match c.current.find? fun e => e.kind != .masked && e.slot == i with
    | some e => e.position + e.count
    | none => t.length

/-- A list sorted by a Boolean order (insertion; `before a b` puts a first). -/
def sortBy {α : Type} (before : α → α → Bool) : List α → List α
  | [] => []
  | x :: xs =>
    let rec place : List α → List α
      | [] => [x]
      | y :: ys => if before y x then y :: place ys else x :: y :: ys
    place (sortBy before xs)

/-- The order of prefill entries (R287): PRIO descending, ADMIT_STITCH ascending, slot ascending. -/
def prefillBefore (a b : Nat × SeqSlot) : Bool :=
  if a.2.prio ≠ b.2.prio then decide (b.2.prio.toNat < a.2.prio.toNat)
  else if a.2.admitted ≠ b.2.admitted then decide ((a.2.admitted - b.2.admitted).toInt < 0)
  else decide (a.1 < b.1)

/-- The order in which victims are taken (R293): PRIO ascending, latest ADMIT_STITCH first, highest slot first. -/
def victimBefore (a b : Nat × SeqSlot) : Bool :=
  if a.2.prio ≠ b.2.prio then decide (a.2.prio.toNat < b.2.prio.toNat)
  else if a.2.admitted ≠ b.2.admitted then decide (0 < (a.2.admitted - b.2.admitted).toInt)
  else decide (b.1 < a.1)

/-- Victims are taken one at a time until those taken hold the shortfall (R293). `d` counts the entries that start a
swatch; answers the victims and the entries left. -/
def takeVictims (c : SrvCtx) (spare : Nat) : List (Nat × SeqSlot) → List ListEntry → Nat → Nat → List Nat →
    List Nat × List ListEntry
  | [], es, _, _, vs => (vs.reverse, es)
  | (i, _) :: rest, es, d, held, vs =>
    if d - spare ≤ held then (vs.reverse, es)
    else
      let mine := es.any fun e => e.slot == i && startsSwatch e
      takeVictims c spare rest (es.filter fun e => e.slot != i) (if mine then d - 1 else d)
        (held + (swatchesOf c i).length) (i :: vs)

/-- One swatch is allocated to the entry of a slot (R293): the owner map and the slot record it. -/
def allocateSwatch (n : Nat) (acc : State × List ListEntry) (e : ListEntry) : State × List ListEntry :=
  let (s, es) := acc
  match firstFree (s.srvCtx n) with
  | none => acc
  | some k =>
    let w := (s.slot e.slot).swatches
    let s := s.onSrvCtx n fun c => { c with owner := Tab.put c.owner k (e.slot, w) }
    let s := s.onSlot e.slot fun t => { t with swatches := w + 1 }
    (s, es.map fun x => if x.slot = e.slot then { x with newSwatch := some k, swatches := w + 1 } else x)

/-- The swatch numbers of a slot that a finite window no longer reaches (R292). -/
def trimmable (c : SrvCtx) (i : Nat) (t : SeqSlot) (len : Nat) : List (Nat × Nat × Nat) :=
  if t.window = 0 then []
  else (swatchesOf c i).filter fun o =>
    let w := o.2.2
    let global := (List.range 64).any fun b => t.globalMask.getLsbD b && decide (256 * w ≤ t.gBase + b) &&
      decide (t.gBase + b ≤ 256 * w + 255)
    decide (256 * w + 255 + t.window < len + 1) && !global

/-- The state a listed slot takes at a build (R287): DECODE once LENGTH′ reaches PROMPT_LEN; PREFILL below it, also where a build
whose list is discarded had made it DECODE, since each slot is listed again at the same position (R296; DEDUCED, unsafe,
assumption log 103). -/
def listedState (len : Nat) (t : SeqSlot) : SlotState :=
  match t.state with
  | .prefill | .decode => if t.promptLen ≤ len then .decode else .prefill
  | other => other

/-- LIST_BUILD for one context (R287, R292, R293). -/
def buildList (n : Nat) (s : State) : State :=
  let c := s.srvCtx n
  let s := s.each (slotsOf s n) fun s x =>
    let len := predicted s n x.1 x.2
    s.onSlot x.1 fun t => { t with state := listedState len t }
  let slots := slotsOf s n
  let decode := (slots.filter fun x => x.2.state == .decode).take (srvDecodeMax c)
  let prefill := (sortBy prefillBefore (slots.filter fun x => x.2.state == .prefill)).take (srvPrefillMax c)
  let dEntries := decode.map fun x => entryFor x.1 x.2 .decode (predicted s n x.1 x.2) 1
  let pEntries := prefill.map fun x =>
    let p := predicted s n x.1 x.2
    entryFor x.1 x.2 .prefill p (min (srvChunkMax c) (x.2.promptLen - p))
  let all := dEntries ++ pEntries
  let need := all.filter startsSwatch
  let free := freeSwatches c
  let reserve := swatchReserve c
  let enough : Bool := decide (need.length + reserve ≤ free)
  let candidates := sortBy victimBefore (slots.filter fun x =>
    (x.2.state == .decode || x.2.state == .prefill) && !(swatchesOf c x.1).isEmpty)
  let (victims, entries) :=
    if enough then ([], all) else takeVictims c (free - reserve) candidates all need.length 0 []
  let starters := entries.filter startsSwatch
  let order := if enough then starters else sortBy (fun a b => prefillBefore (a.slot, s.slot a.slot) (b.slot, s.slot b.slot)) starters
  let given := order.take (min starters.length free)
  let starved := (order.drop given.length).map (·.slot)
  let (s, entries) := given.foldl (allocateSwatch n) (s, entries.filter fun e => !(starved.contains e.slot))
  let dPart := entries.filter fun e => e.kind == .decode
  let pPart := entries.filter fun e => e.kind == .prefill
  let numbered (base size : Nat) (es : List ListEntry) : List ListEntry :=
    (List.range size).map fun i => match es[i]? with
      | some e => { e with index := base + i }
      | none => maskedEntry (base + i)
  let trims := (entries.map fun e => trimmable c e.slot (s.slot e.slot) e.position).flatten
  let list := numbered 0 (srvDecodeMax c) dPart ++ numbered (srvDecodeMax c) (srvPrefillMax c) pPart
  s.onSrvCtx n fun c => { c with
    next := list, victims := victims, trims := trims, stalls := satInc c.stalls starved.length,
    preempted := satInc c.preempted victims.length }

/-- The results of the stitch ended are applied to the slots, in slot order (R289, R290): LENGTH moves past the entry's positions,
a valid token is recorded, a FINAL one retires the slot. -/
def applyResults (n : Nat) (s : State) : State :=
  let c := s.srvCtx n
  match c.results with
  | none => s
  | some rs =>
    let s := s.onSrvCtx n fun c => { c with results := none }
    if c.discard then s
    else s.each (sortBy (fun a b => decide (a.slot < b.slot)) c.listBefore) fun s e =>
      let t := s.slot e.slot
      let listed := t.state = .prefill ∨ t.state = .decode
      if e.kind = .masked ∨ ¬ listed ∨ t.ctx.val ≠ n then s
      else
        let s := s.onSlot e.slot fun t => { t with length := e.position + e.count }
        match rs.find? fun r => r.index == e.index with
        | some r =>
          if r.valid then
            let final := r.stop || e.last
            let s := tokenRecord n t.tag (e.position + e.count) r.token (if final then 2 else 1) e.slot
              (s.stu.stitch - 1) 0 s
            if final then retireSlot e.slot s else s
          else s
        | none => s

/-- The slot number an admission takes: the lowest FREE one (DESIGN CHOICE, unsafe, assumption log 35). -/
def firstFreeSlot (s : State) : Nat :=
  ((List.range 4096).find? fun i => (s.slot i).state == .free).getD 0

/-- The trims of the list that comes into force are released (R292): KEEP_LOW becomes the lowest swatch number still held. -/
def applyTrims (n : Nat) (l : List (Nat × Nat × Nat)) (s : State) : State :=
  let s := s.onSrvCtx n fun c => { c with owner := c.owner.filter fun o => !l.contains o }
  s.each ((l.map fun o => o.2.1).eraseDups) fun s i =>
    let held := (swatchesOf (s.srvCtx n) i).map fun o => o.2.2
    s.onSlot i fun t => { t with keepLow := held.foldl min t.swatches }

/-- A slot is freed with its swatches at the boundary after the one at which it entered RETIRING (R285, R289). -/
def freeDue (s : State) (t : SeqSlot) : Bool := t.state == .retiring && t.since != s.stu.stitch

/-- An admission taken in an earlier stitch enters the table (R279). -/
def enterSlot (n : Nat) (s : State) (a : AdmitReq) : State :=
  let now := s.stu.stitch
  let s := s.onSlot (firstFreeSlot s) fun _ => { a.slot with admitted := now, state := if a.resume then .resuming else .prefill }
  match a.notify with
  | some r => postCompletion n 0x0A 0 0 r 0 0 [] s
  | none => s

/-- The slots of a context that a release names, or that the clearing of EN retires, and those whose TIMEOUT is due leave service,
in slot order (R282, R290, R301). -/
def endSlots (n : Nat) (tags : List W64) (s : State) : State :=
  let all := (s.srvCtx n).closing
  s.each (slotsOf s n) fun s x =>
    if all || tags.contains x.2.tag then endSlot x.1 5 s
    else if timeoutDue s x.2 then endSlot x.1 4 s else s

/-- SERVING_APPLY for one context (Table 10-4, R279, R282, R289, R292, R294, R301): results, then victims and trims, frees, the
admissions and releases of earlier stitches, and timeouts. -/
def applyServing (n : Nat) (s : State) : State :=
  let s := applyResults n s
  let now := s.stu.stitch
  let c := s.srvCtx n
  let s := s.each c.victims fun s i => match (s.slot i).state with
    | .prefill | .decode => s.onSlot i fun t => { t with state := .parking }
    | _ => s
  let s := applyTrims n c.trims s
  let s := s.each ((slotsOf s n).filter fun x => freeDue s x.2) fun s x => freeSlot x.1 s
  let s := s.each (c.admits.filter fun a => a.taken != now) (enterSlot n)
  let due := c.releases.filter fun r => r.read != now
  let s := endSlots n (due.map (·.tag)) s
  let s := s.each (due.filterMap (·.notify)) fun s i => postCompletion n 0x0B 0 0 i 0 0 [] s
  s.onSrvCtx n fun c => { c with
    victims := [], trims := [], closing := false, releases := c.releases.filter fun r => r.read == now,
    admits := c.admits.filter fun a => a.taken == now }

/-- The contexts whose slots the serving unit works on: EN is set or slots are left, and the context is ACTIVE (R274, R358). -/
def servedContexts (s : State) : List Nat :=
  jobContexts.filter fun n => (s.srvCtx n).serving && (s.ctx n).state == .active

/-- PERIOD_UNITS is at least the 51 that the builder's pass needs (R275, R276). -/
def periodServes (s : State) : Bool := decide (51 ≤ s.stu.periodUnits.toNat)

/-- The contexts for which lists are built: EN is set. -/
def listedContexts (s : State) : List Nat := (servedContexts s).filter fun n => bit (s.srvCtx n).cfg 63

/-- The swatch numbers that a swap image holds (R294, R295), ascending: those of global positions, which trimming leaves, and the
highest started ones, `count` in all (DEDUCED, unsafe, assumption log 36). -/
def imageNumbers (started count gBase : Nat) (mask : W64) : List Nat :=
  let global (w : Nat) : Bool := (List.range 64).any fun b => mask.getLsbD b && (gBase + b) / 256 == w
  let kept := (List.range started).filter global
  let rest := ((List.range started).filter fun w => !global w).reverse
  sortBy (fun a b => decide (a < b)) ((kept ++ rest).take count)

end Sys2Proof.Machine
end

