-- ==== Sys2Proof/Machine/Rings.lean ====
section
/-! DEFINITION. Rings (R376 to R381): the poll, what a descriptor must carry, when it waits, and what is refused before a
descriptor's own rules. -/

namespace Sys2Proof.Machine

/-- The bytes a descriptor type defines, as (first, count); all others must be zero (Tables 14-4, 14-5). -/
def definedBytes : Nat → List (Nat × Nat)
  | 0x00 => [(0, 2)]
  | 0x01 => [(0, 4), (8, 12), (24, 16)]
  | 0x02 => [(0, 4), (8, 5), (16, 8)]
  | 0x03 => [(0, 4), (8, 5)]
  | 0x04 => [(0, 2), (8, 18), (32, 8)]
  | 0x05 => [(0, 2), (8, 18), (32, 8)]
  | 0x06 => [(0, 2), (8, 9)]
  | 0x07 => [(0, 2), (8, 14), (24, 20)]
  | 0x08 => [(0, 2), (8, 1), (10, 22), (32, 32)]
  | 0x09 => [(0, 2), (8, 14)]
  | 0x0A => [(0, 2), (8, 23), (32, 24)]
  | 0x0B => [(0, 2), (8, 8)]
  | 0x0C => [(0, 2), (8, 1)]
  | _ => []

/-- A byte that the type does not define is not zero. -/
def reservedSet (b : List Byte) : Bool :=
  let l := definedBytes (leAt b 0 1)
  b.zipIdx.any fun x => x.1 != 0 && !(l.any fun d => decide (d.1 ≤ x.2) && decide (x.2 < d.1 + d.2))

/-- A ring stops (R378): nothing more is taken. -/
def stopRing (n err : Nat) (s : State) : State :=
  s.onRing n fun r => { r with state := 2, live := false, err := err, errPos := r.head }

/-- The ring position that RING_HEAD names (R376): the ring index of the descriptor there (DEDUCED, unsafe, assumption log 43). -/
def position (r : Ring) : BitVec 32 := BitVec.ofNat 32 (r.head.toNat % 2 ^ ringLog2 r.cfg)

/-- Up to `k` descriptors are taken from a ring's head (R378). -/
def takeDescriptors (n : Nat) (tail : BitVec 32) : Nat → State → State
  | 0, s => s
  | k + 1, s =>
    let r := s.ring n
    if r.head = tail then s
    else
      let a := fld r.base 63 12 * 4096 + 64 * (r.head.toNat % 2 ^ ringLog2 r.cfg)
      let b := Mem.bytes s.hostMem a 64
      if 0x0C < leAt b 0 1 then stopRing n 2 s
      else if reservedSet b then stopRing n 3 s
      else takeDescriptors n tail k
        (let poll := s.hif.polls
         s.onRing n fun r => { r with head := r.head + 1, taken := r.taken ++ [{ index := position r, bytes := b, poll := poll }] })

/-- A ring is polled: it is enabled and running, and descriptors are still taken. -/
def ringPolled (s : State) (n : Nat) : Bool := let r := s.ring n; r.live && r.state == 1

/-- The status line of a context (Table 14-3). -/
def writeStatus (n : Nat) (s : State) : State :=
  let r := s.ring n
  let q := s.queue n
  let line := layout 64 [(0, leBytes 4 r.head.toNat), (8, leBytes 4 q.tail.toNat), (16, leBytes 5 s.stu.stitch.toNat)]
  (s.setHostMem (Mem.write s.hostMem (fld r.st 63 6 * 64) line)).onQueue n fun q => { q with statusTail := q.tail }

/-- One context's doorbell line is read and its descriptors are taken (R377, R378). -/
def pollOne (n : Nat) (s : State) : State :=
  let r := s.ring n
  let q := s.queue n
  if ¬ (ringPolled s n ∨ bit q.cfg 8) then s
  else
    let a := fld r.db 63 6 * 64
    let tail := BitVec.ofNat 32 (Mem.le s.hostMem a 4)
    let head := BitVec.ofNat 32 (Mem.le s.hostMem (a + 8) 4)
    let want := BitVec.ofNat 16 (Mem.le s.hostMem (a + 12) 2)
    let s := if bit q.cfg 8 then s.onQueue n fun q => { q with headRead := head } else s
    let s := if ringPolled s n then
        (if 2 ^ ringLog2 r.cfg < (tail - r.head).toNat then stopRing n 1 s else takeDescriptors n tail 32 s)
      else s
    let q := s.queue n
    let s := if (s.ring n).head ≠ r.head ∨ q.tail ≠ q.statusTail then writeStatus n s else s
    let q := s.queue n
    if bit q.cfg 8 ∧ want ≠ q.honoured ∧ q.tail ≠ head then
      (s.emit (.msix (fld q.cfg 20 16))).onQueue n fun q => { q with honoured := want }
    else s

/-- DOORBELL_POLL (R377, R378, R384): every enabled doorbell line in ascending context order. -/
def execDoorbellPoll (s : State) : Out :=
  if outOfService s then .next s
  else .next ((s.onHif fun h => { h with polls := h.polls + 1 }).each (List.range 16) fun s n => pollOne n s)

/-! Descriptors (R379 to R381). -/

/-- Something an earlier descriptor of the ring started has not completed: loads, transfers, disarms, fences, releases and
admissions of the serving unit, a BEGIN or a REBUILD (R379, WAIT). -/
def ringOutstanding (s : State) (n : Nat) : Bool :=
  let w := s.work
  let c := s.srvCtx n
  let t := s.train n
  w.loads.any (fun x => x.ctx.val == n) || w.transfers.any (fun x => x.ctx.val == n) || w.disarms.any (fun x => x.ctx.val == n) ||
    w.fences.any (fun x => x.ctx.val == n) || !c.admits.isEmpty || !c.releases.isEmpty || t.begin.isSome || t.rebuild.any (fun r => !r.complete)

/-- Running transfers of a ring. -/
def ringTransfers (s : State) (n : Nat) : Nat := (s.work.transfers.filter fun t => t.ctx.val == n).length

/-- The descriptor types that run as transfers (R379). -/
def isTransfer (type : Nat) : Bool := decide (4 ≤ type) && decide (type ≤ 8)

/-- The HBM regions that a transfer's descriptor names (R166): a copy's region; a shard's snapshot region and the regions of its
entry; a restore's; those in the directory of a bundle. -/
def descriptorRegions (s : State) (n : Nat) (b : List Byte) : List Nat :=
  let entry (mirror : Bool) : List Nat := match imageEntry s n mirror (leAt b 8 1) (leAt b 10 2) with
    | some e => entryRegions e
    | none => []
  match leAt b 0 1 with
  | 4 | 5 => if leAt b 24 1 = 0 then [leAt b 25 1] else []
  | 6 =>
    let m := if leAt b 16 1 = 1 then s.hostMem else s.portS
    let at_ (i : Nat) : Nat := leAt b 8 8 + 256 + 64 * i
    (List.range (min 80 (Mem.le m (leAt b 8 8 + 6) 2))).filterMap fun i =>
      if Mem.le m (at_ i) 1 = 2 then some (Mem.le m (at_ i + 1) 1) else none
  | 7 => leAt b 21 1 :: entry (leAt b 9 1 == 1)
  | 8 => entry false
  | _ => []

/-- A descriptor names an HBM region that is not READY (R166). -/
def namesZeroing (s : State) (n : Nat) (b : List Byte) : Bool :=
  (descriptorRegions s n b).any fun i => decide (i < 16) && match hbmRegion s n i with
    | some r => !r.ready
    | none => false

/-- A descriptor waits to start (R166, R379): its WAIT flag, an ARM whose handle is still loading, a seventeenth transfer, a region
that is being zeroed. -/
def waits (s : State) (n : Nat) (b : List Byte) : Bool :=
  (bit (BitVec.ofNat 8 (leAt b 1 1)) 7 && ringOutstanding s n) ||
    (leAt b 0 1 == 2 && s.work.loads.any fun j => j.ctx.val == n && j.handle == leAt b 2 2) ||
    (isTransfer (leAt b 0 1) && decide (16 ≤ ringTransfers s n)) || namesZeroing s n b

/-- What R381 refuses before a descriptor's own rules: the reason and its details. -/
def ringRefusal (s : State) (n type : Nat) : Option (Nat × Nat × Nat) :=
  let c := s.ctx n
  if type = 0 then none
  else if n = 0 then some (0x06, type, 0xFF)
  else if c.state = .faulted then some (0x22, 0xFFFF, 0)
  else if c.state ≠ .active then some (0x06, type, 0xFF)
  else if c.serving ∧ type = 9 then some (0x06, 0, 1)
  else if ¬ c.serving ∧ (type = 0x0A ∨ type = 0x0B) then some (0x06, 1, 0)
  else none

/-! What a SEQ_ADMIT waits for (R279, R280, R295). -/

/-- The slot record of a SEQ_ADMIT (Tables 10-1, 14-5). -/
def admitSlot (n : Nat) (b : List Byte) : SeqSlot :=
  { tag := BitVec.ofNat 64 (leAt b 8 8), promptLen := leAt b 16 4, promptLine := BitVec.ofNat 32 (leAt b 20 4),
    maxLen := leAt b 24 4, window := leAt b 28 2, prio := BitVec.ofNat 3 (leAt b 30 1), gBase := leAt b 32 4,
    timeout := BitVec.ofNat 32 (leAt b 36 4), globalMask := BitVec.ofNat 64 (leAt b 40 8),
    swapAddr := BitVec.ofNat 64 (leAt b 48 8), ctx := Fin.ofNat 16 n }

/-- The prompt of a SEQ_ADMIT lies inside the prompt region: one 64-byte line holds 16 tokens. -/
def promptInside (s : State) (n : Nat) (t : SeqSlot) : Bool :=
  match hbmRegion s n (fld (s.srvCtx n).pool 11 8) with
  | some r => decide (t.promptLine.toNat + (t.promptLen + 15) / 16 ≤ regionLines s r)
  | none => false

/-- The rejections of R280. -/
def admitRejected (s : State) (n : Nat) (t : SeqSlot) : Bool :=
  t.promptLen == 0 || decide (t.maxLen < t.promptLen) || decide (1048576 < t.maxLen) || decide (8192 < t.window) ||
    decide (t.maxLen ≤ t.gBase + 63) || !promptInside s n t

/-- LENGTH of a resumed sequence, from its swap image (R295). -/
def resumedLength (s : State) (t : SeqSlot) (resume : Bool) : Nat := if resume then Mem.le s.hostMem (t.swapAddr.toNat + 8) 4 else 0

/-- The serving unit takes SEQ_ADMITs of a ring (R276, R279, R301): EN is set, the period is at least 51, and every earlier COPY_IN of
the ring has completed. -/
def admitsTaken (s : State) (n : Nat) : Bool :=
  bit (s.srvCtx n).cfg 63 && periodServes s && !s.work.transfers.any fun x => x.ctx.val == n && match x.kind with
    | .copyIn _ _ _ _ _ => true
    | _ => false

/-- A SEQ_ADMIT's sequence has room (R279): a slot within QUOTA, and its swatches beyond RESERVE. -/
def admitReady (s : State) (n : Nat) (t : SeqSlot) (resume : Bool) : Bool :=
  let c := s.srvCtx n
  let need := (t.promptLen - resumedLength s t resume + 255) / 256
  decide (slotsHeld s n + c.admits.length < srvQuota c) && decide (swatchReserve c + need ≤ freeSwatches c)

/-- A checkpoint or bundle descriptor that does not fit its context (R381): status ENTRY. -/
def shardMisfit (s : State) (n type : Nat) : Bool :=
  let c := s.ctx n
  n = 0 || c.state != .active || (if type = 6 then !c.serving else c.serving)

/-- The FLAGS bit of a descriptor. -/
def flag (b : List Byte) (i : Nat) : Bool := (leAt b 1 1).testBit i

/-- The handle field of a descriptor, as its completion carries it. -/
def handleOf (b : List Byte) : Nat := leAt b 2 2

/-- A refusal of the descriptor. -/
def refuse (n : Nat) (d : Taken) (reason d0 d1 : Nat) (s : State) : State :=
  postRefusal n reason (leAt d.bytes 0 1) d.index.toNat (handleOf d.bytes) d0 d1 s

/-- The serving unit takes a SEQ_ADMIT from its ring: it is rejected, or there is room for it (R279, R280). -/
def admitTakes (s : State) (n : Nat) (b : List Byte) : Bool :=
  let t := admitSlot n b
  admitsTaken s n && (admitRejected s n t || admitReady s n t (flag b 1))

/-- A descriptor waits at the head of its ring, and those behind it with it (R379). -/
def headWaits (s : State) (n : Nat) (b : List Byte) : Bool :=
  waits s n b || (leAt b 0 1 == 0x0A && (ringRefusal s n 0x0A).isNone && !admitTakes s n b)

/-- A descriptor's turn has come (R378): no other ring has a head that does not wait and that an earlier poll took, or the same poll
on a ring before this one. -/
def itsTurn (s : State) (n : Nat) (d : Taken) : Bool :=
  (List.range 16).all fun m => m == n || match (s.ring m).taken with
    | [] => true
    | e :: _ => headWaits s m e.bytes || !(decide (e.poll < d.poll) || (e.poll == d.poll && decide (m < n)))

/-- The descriptor at the front of a ring is handled when it is of the type and shape that a command names, does not wait and has
its turn; it is taken off, refused under R381, completed with ENTRY, or given to its own rules. -/
def onDescriptor (n type : Nat) (fits : List Byte → Bool) (f : Taken → State → State) (s : State) : State :=
  match (s.ring n).taken with
  | [] => s
  | d :: rest =>
    if leAt d.bytes 0 1 ≠ type ∨ ¬ fits d.bytes ∨ headWaits s n d.bytes ∨ ¬ itsTurn s n d then s
    else
      let s := s.onRing n fun r => { r with taken := rest }
      if 6 ≤ type ∧ type ≤ 8 then
        (if shardMisfit s n type then postCompletion n type 4 0 d.index.toNat 0 0 [] s else f d s)
      else match ringRefusal s n type with
        | some (r, d0, d1) => refuse n d r d0 d1 s
        | none => f d s

/-- DESCRIPTOR_NOP (Table 14-5): completes when taken. -/
def execDescriptorNop (n : Ctx) (s : State) : Out :=
  .next (onDescriptor n.val 0 (fun _ => true)
    (fun d s => complete n.val 0 (flag d.bytes 0) d.index.toNat 0 s) s)

/-- The patterns of a context, loaded or being loaded: a load in progress has its place (R127). -/
def loadedCount (s : State) (n : Nat) : Nat :=
  (s.work.patterns.filter fun p => p.ctx.val == n).length + (s.work.loads.filter fun j => j.ctx.val == n).length

/-- The patterns of the device, loaded or being loaded. -/
def loadedTotal (s : State) : Nat := s.work.patterns.length + s.work.loads.length

/-- LOAD_PATTERN as its descriptor gives it. -/
def startLoad (n : Nat) (d : Taken) (s : State) : State :=
  let b := d.bytes
  let h := handleOf b
  let used := (patternOf s n h).isSome || s.work.loads.any fun j => j.ctx.val == n && j.handle == h
  if 64 ≤ h ∨ used then refuse n d 0x20 h 0 s
  else if 256 ≤ loadedTotal s then refuse n d 0x14 (loadedTotal s) 256 s
  else if 64 ≤ loadedCount s n then refuse n d 0x14 (loadedCount s n) 64 s
  else s.onWork fun w => { w with loads := w.loads ++ [
    { ctx := Fin.ofNat 16 n, handle := h, ringIndex := d.index.toNat, addr := leAt b 8 8, size := leAt b 16 4,
      panelMap := (slice b 24 8).map (·.toNat), bandBase := (slice b 32 8).map (·.toNat) }] }

/-- LOAD_PATTERN (R126, R127, R129): the handle and the limits are checked, and the load starts. -/
def execLoadPattern (n : Ctx) (s : State) : Out := .next (onDescriptor n.val 1 (fun _ => true) (startLoad n.val) s)

/-! Arming (R29, R130, R190). -/

/-- A pending DISARM names an entry: one armed before it was read, ring order deciding (R132). -/
def disarms (p : PendingDisarm) (e : ArmEntry) : Bool :=
  p.ctx == e.ctx && p.handle == e.handle && !p.none_ && decide (e.order < p.order) && match p.first with
    | none => true
    | some f => f == e.first

/-- The entries as admission counts them: one that a DISARM ends leaves after the current stitch (R132). -/
def ledgerEntries (s : State) : List ArmEntry :=
  let now := s.stu.stitch
  s.work.entries.map fun e =>
    if s.work.disarms.any fun p => disarms p e then
      { e with last := match e.last with
          | some l => some (if before l now then l else now)
          | none => some now }
    else e

/-- FIRST_STITCH resolved (R130): 0 means N + 2 or the stitch after the last armed one on the bands; an open run has no last
stitch. -/
def resolveFirst (s : State) (bands : List Nat) (first : Stitch) : Stitch :=
  if first ≠ 0 then first
  else
    let soon := s.stu.stitch + 2
    let on := (ledgerEntries s).filter fun e => e.bands.any fun g => bands.contains g
    if on.any fun e => e.last.isNone then soon
    else on.foldl (fun m e => match e.last with
      | some l => if before m (l + 1) then l + 1 else m
      | none => m) soon

/-- START (R29, R130, R420): too early, or the stitch unit is not enabled. -/
def tooEarly (s : State) (first : Stitch) (lead : Nat) : Bool :=
  !bit s.stu.ctrl 2 || before first (s.stu.stitch + BitVec.ofNat 40 lead)

/-- The refusal of a VOTE (R190, R311). -/
def voteRefusal (s : State) (n : Nat) (nv : Stitch) : Option (Nat × Nat × Nat) :=
  let t := s.train n
  let early := (0x28, nv.toNat % 2 ^ 32, s.stu.stitch.toNat % 2 ^ 32)
  if tooEarly s nv 2 ∨ (t.reslicing ∧ ¬ t.rebuildRead) then some early
  else match t.voteStitch with
    | some v => some (0x29, fld t.vote 15 0, v.toNat % 2 ^ 32)
    | none => none

/-- The vote stitch is marked (R190). -/
def markVote (n : Nat) (nv : Stitch) (s : State) : State := s.onTrain n fun t => { t with voteStitch := some nv }

/-- The refusal of an ARM's barrier: a seventeenth tag (R29). -/
def barrierRefusal (s : State) (tag : BitVec 16) (start : Stitch) : Option (Nat × Nat × Nat) :=
  if (barrierOf s tag start).isNone ∧ 16 ≤ s.stu.barriers.length then some (0x29, tag.toNat, 0) else none

/-- The device's own arming counts for a tag (R29): once, with MEMBERS; a different MEMBERS makes the expected count 0. -/
def armBarrier (tag members : BitVec 16) (start : Stitch) (s : State) : State :=
  pushReady tag start (onBarrier tag start (fun b => { b with own := match b.own with
    | none => some members
    | some m => some (if m = members then m else 0) }) s)

/-- A handle's unload has been accepted and takes effect at the next boundary (R129). -/
def unloading (s : State) (n h : Nat) : Bool := s.work.disarms.any fun p => p.ctx.val == n && p.handle == h && p.unload

/-- ARM of a loaded handle (R130, R131, R134): checked in this order, then entered with its pins. -/
def armPattern (n : Nat) (d : Taken) (s : State) : State :=
  let b := d.bytes
  let h := handleOf b
  match if unloading s n h then none else patternOf s n h with
  | none => refuse n d 0x20 h 0 s
  | some p =>
    let barrier := flag b 1
    let vote := flag b 2
    let first := resolveFirst s p.bands (BitVec.ofNat 40 (leAt b 8 5))
    let tag := BitVec.ofNat 16 (leAt b 20 2)
    let last := if leAt b 16 4 = 0 then none else some (first + BitVec.ofNat 40 (leAt b 16 4) - 1)
    let early := tooEarly s first (if barrier then 16 else 2)
    let bar := if barrier then barrierRefusal s tag first else none
    let vot := if vote then voteRefusal s n first else none
    let view := s.onWork fun w => { w with entries := ledgerEntries s }
    if early then refuse n d 0x28 (first.toNat % 2 ^ 32) (s.stu.stitch.toNat % 2 ^ 32) s
    else match (bar.orElse fun _ => vot).orElse fun _ => admission view p n (leAt b 8 5 == 0) first last with
      | some (r, d0, d1) => refuse n d r d0 d1 s
      | none =>
        let e : ArmEntry :=
          { ctx := Fin.ofNat 16 n, handle := h, order := s.work.order, first := first, last := last,
            notify := if flag b 0 then some d.index.toNat else none, barrier := if barrier then some tag else none,
            go := false, missed := false, bands := p.bands, ran := none }
        let s := s.onWork fun w => { w with entries := w.entries ++ [e], order := w.order + 1 }
        let s := if barrier then armBarrier tag (BitVec.ofNat 16 (leAt b 22 2)) first s else s
        if vote then markVote n first s else s

/-- A vote-only ARM: HANDLE 0xFFFF with VOTE set (R190). -/
def voteOnly (b : List Byte) : Bool := handleOf b == 0xFFFF && flag b 2

/-- ARM (R130): also refuses HANDLE 0xFFFF with VOTE clear (R381). -/
def execArm (n : Ctx) (s : State) : Out := .next (onDescriptor n.val 2 (fun b => !voteOnly b) (armPattern n.val) s)

/-- A vote-only ARM's effect. -/
def armVote (n : Nat) (d : Taken) (s : State) : State :=
  let nv := resolveFirst s [] (BitVec.ofNat 40 (leAt d.bytes 8 5))
  match voteRefusal s n nv with
  | some (r, d0, d1) => refuse n d r d0 d1 s
  | none =>
    let s := markVote n nv s
    if flag d.bytes 0 then
      s.onWork fun w => { w with voteNotifies := w.voteNotifies ++
        [{ ctx := Fin.ofNat 16 n, ringIndex := d.index.toNat, stitch := nv }] }
    else s

/-- VOTE_MARK (R190): an ARM whose handle is 0xFFFF marks the vote stitch. -/
def execVoteMark (n : Ctx) (s : State) : Out := .next (onDescriptor n.val 2 voteOnly (armVote n.val) s)

/-! Disarming (R129, R132). -/

/-- A DISARM is read (R132): it takes effect at the next boundary. An UNLOAD is refused when an entry of the handle stays
(R129); the entries it names leave all the same. -/
def readDisarm (n : Nat) (d : Taken) (s : State) : State :=
  let b := d.bytes
  let h := handleOf b
  if (patternOf s n h).isNone then refuse n d 0x20 h 0 s
  else
    let first : Option Stitch := if flag b 1 then none else some (BitVec.ofNat 40 (leAt b 8 5))
    let p : PendingDisarm :=
      { ctx := Fin.ofNat 16 n, handle := h, ringIndex := d.index.toNat, notify := flag b 0, first := first,
        unload := false, none_ := false, read := s.stu.marks, order := s.work.order }
    let mine := s.work.entries.filter fun e => e.ctx.val == n && e.handle == h
    let none_ : Bool := first.isSome && !mine.any fun e => disarms p e
    let stays (e : ArmEntry) : Bool := !disarms p e && !s.work.disarms.any fun q => disarms q e
    let asked : Bool := flag b 2 && !none_
    let refused : Bool := asked && mine.any stays
    let p := { p with unload := asked && !refused, none_ := none_ }
    let s := s.onWork fun w => { w with disarms := w.disarms ++ [p] }
    if refused then refuse n d 0x20 h 0 s else s

/-- DISARM: UNLOAD clear. -/
def execDisarm (n : Ctx) (s : State) : Out := .next (onDescriptor n.val 3 (fun b => !flag b 2) (readDisarm n.val) s)

/-- UNLOAD: a DISARM with UNLOAD set (R129). -/
def execUnload (n : Ctx) (s : State) : Out := .next (onDescriptor n.val 3 (fun b => flag b 2) (readDisarm n.val) s)

/-- An ARM run ends by a DISARM: its completion carries FLAGS[1], and FLAGS[2] when none of its stitches ran. -/
def endByDisarm (e : ArmEntry) (s : State) : State :=
  let s := removeEntry e (undispatch e s)
  match e.notify, e.ran with
  | some i, some r => postCompletion e.ctx.val 0x02 0 2 i e.handle r [] s
  | some i, none => postCompletion e.ctx.val 0x02 0 6 i e.handle 0 [] s
  | none, _ => s

/-- One DISARM takes effect (R129, R132): the entries leave, and the handle is unloaded when that was asked and not refused. -/
def applyDisarm (p : PendingDisarm) (s : State) : State :=
  let n := p.ctx.val
  let s := s.each (s.work.entries.filter fun e => disarms p e) fun s e => endByDisarm e s
  let s := s.onWork fun w => { w with disarms := w.disarms.erase p }
  let s := if p.unload then unloadPattern n p.handle s else s
  complete n 0x03 p.notify p.ringIndex p.handle s

/-- A DISARM is due: a boundary has passed since it was read. -/
def disarmDue (s : State) (p : PendingDisarm) : Bool := decide (p.read < s.stu.marks)

/-- DISARM_EFFECT (R132): every DISARM read before this boundary takes effect, in the order read. -/
def execDisarmEffect (s : State) : Out :=
  .next (s.each (s.work.disarms.filter fun p => disarmDue s p) fun s p => applyDisarm p s)

/-! FENCE (R135, R148). -/

/-- FENCE: an unpinned region is FENCED at once; a pinned one is refused with reason BOLT. -/
def fenceRegion (n : Nat) (d : Taken) (s : State) : State :=
  let i := leAt d.bytes 8 1
  match boltRegionOf s n i with
  | none => refuse n d 0x26 0xFFFFFFFF i s
  | some (k, x) =>
    if pinned s x then refuse n d 0x26 0xFFFFFFFF k s
    else
      let s := onRegion k (fun x => { x with state := .fenced, filling := false }) s
      s.onWork fun w => { w with fences := w.fences ++
        [{ ctx := Fin.ofNat 16 n, ringIndex := d.index.toNat, notify := flag d.bytes 0 }] }

/-- FENCE. -/
def execFence (n : Ctx) (s : State) : Out := .next (onDescriptor n.val 0x0C (fun _ => true) (fenceRegion n.val) s)

/-! SEQ_ADMIT and SEQ_RELEASE (R279 to R282). -/

/-- A SEQ_ADMIT is taken (R279), or rejected with a record when it is malformed (R280). -/
def takeAdmit (n : Nat) (d : Taken) (s : State) : State :=
  let t := admitSlot n d.bytes
  let now := s.stu.stitch
  let notify := if flag d.bytes 0 then some d.index.toNat else none
  if admitRejected s n t then complete n 0x0A (flag d.bytes 0) d.index.toNat 0 (tokenRecord n t.tag 0 0 6 0xFFFF now 0 s)
  else s.onSrvCtx n fun c => { c with
    admits := c.admits ++ [{ slot := t, resume := flag d.bytes 1, notify := notify, taken := now }] }

/-- SEQ_ADMIT (R279, R280): it waits at the head until it can be taken. -/
def execSeqAdmit (n : Ctx) (s : State) : Out := .next (onDescriptor n.val 0x0A (fun _ => true) (takeAdmit n.val) s)

/-- SEQ_RELEASE (R282): takes effect at the first boundary after it is read. -/
def execSeqRelease (n : Ctx) (s : State) : Out :=
  let now := s.stu.stitch
  .next (onDescriptor n.val 0x0B (fun _ => true) (fun d s => s.onSrvCtx n.val fun c => { c with releases := c.releases ++
    [{ tag := BitVec.ofNat 64 (leAt d.bytes 8 8), read := now, notify := if flag d.bytes 0 then some d.index.toNat else none }] }) s)

end Sys2Proof.Machine
end

