-- ==== Sys2Proof/Machine/Copies.lean ====
section
/-! DEFINITION. The transfers COPY_IN and COPY_OUT (R372, R379, R380). -/

namespace Sys2Proof.Machine

/-- A transfer starts (R379): it runs while later descriptors are handled. -/
def startTransfer (n : Nat) (d : Taken) (notify : Bool) (kind : TransferKind) (s : State) : State :=
  s.onWork fun w => { w with
    transfers := w.transfers ++ [{ id := w.nextTransfer, ctx := Fin.ofNat 16 n, ringIndex := d.index.toNat, notify := notify,
                                   kind := kind }]
    nextTransfer := w.nextTransfer + 1 }

/-- A running transfer. -/
def transferOf (s : State) (id : Nat) : Option Transfer := s.work.transfers.find? fun t => t.id == id

/-- A transfer has ended. -/
def endTransfer (id : Nat) (s : State) : State :=
  s.onWork fun w => { w with transfers := w.transfers.filter fun t => t.id != id }

/-- A transfer's kind changed. -/
def setKind (id : Nat) (k : TransferKind) (s : State) : State :=
  s.onWork fun w => { w with transfers := w.transfers.map fun t => if t.id = id then { t with kind := k } else t }

/-- HOST_ADDR, LENGTH, whether the target is a bolt region, REGION and OFFSET of a copy (Table 14-5). A TARGET above 1 names
no region: it is carried as HBM region 16. -/
def copyFields (b : List Byte) : Nat × Nat × Bool × Nat × Nat :=
  (leAt b 8 8, leAt b 16 8, leAt b 24 1 == 1, if 1 < leAt b 24 1 then 16 else leAt b 25 1, leAt b 32 8)

/-- An unpinned region that is not FENCED goes to LOADING as a load into it starts (R148, Table 5-3). -/
def openLoad (k : Nat) (s : State) : State :=
  onRegion k (fun x => if x.state = .fenced then x else { x with state := .loading, filling := false, stopped := false }) s

/-- COPY_IN (R135, R148): refused when it would load into a pinned bolt region; an unpinned one goes to LOADING. -/
def copyIn (n : Nat) (d : Taken) (s : State) : State :=
  let (a, len, bolt, region, off) := copyFields d.bytes
  let go (s : State) : State := startTransfer n d (flag d.bytes 0) (.copyIn a len bolt region off) s
  if ¬ bolt then go s
  else match boltRegionOf s n region with
    | none => go s
    | some (k, x) =>
      if pinned s x then refuse n d 0x26 0xFFFFFFFF k s
      else go (openLoad k s)

/-- COPY_IN. -/
def execCopyIn (n : Ctx) (s : State) : Out := .next (onDescriptor n.val 4 (fun _ => true) (copyIn n.val) s)

/-- COPY_OUT. -/
def copyOut (n : Nat) (d : Taken) (s : State) : State :=
  let (a, len, bolt, region, off) := copyFields d.bytes
  startTransfer n d (flag d.bytes 0) (.copyOut a len bolt region off) s

/-- COPY_OUT. -/
def execCopyOut (n : Ctx) (s : State) : Out := .next (onDescriptor n.val 5 (fun _ => true) (copyOut n.val) s)

/-- The bytes that a copy's region holds: its size in bytes, 0 where it is not defined. -/
def copySize (s : State) (n : Nat) (bolt : Bool) (region : Nat) : Nat :=
  if bolt then match boltRegionOf s n region with
    | some (_, x) => 32 * regionTotal x
    | none => 0
  else match hbmRegion s n region with
    | some r => 64 * regionLines s r
    | none => 0

/-- How many of a copy's bytes lie inside its region. -/
def copyInside (s : State) (n : Nat) (bolt : Bool) (region off len : Nat) : Nat := min len (copySize s n bolt region - off)

/-- A copy into a bolt region whose offset or length is no multiple of a line is a narrow write (R146). -/
def narrowCopy (bolt : Bool) (off len : Nat) : Bool := bolt && (off % 32 != 0 || len % 32 != 0)

/-- The data of a COPY_IN reaches its region: whole lines of a bolt region, any bytes of an HBM region (R146, R147, R173, R298). -/
def copyInData (n : Nat) (bolt : Bool) (region off : Nat) (bs : List Byte) (s : State) : State :=
  if bolt then match boltRegionOf s n region with
    | some (k, _) => loadBytes k off bs s
    | none => s
  else match hbmRegion s n region with
    | some r => unverifyBytes n region off bs.length (writeRegion n r off bs s)
    | none => s

/-- What the reads of a COPY_OUT find (R153, R154, R178, R179). -/
def copyOutFinds (n : Nat) (bolt : Bool) (region off len : Nat) (s : State) : State :=
  let k := copyInside s n bolt region off len
  if k = 0 then s
  else if bolt then match boltRegionOf s n region with
    | some (_, x) => boltReadFinds x off k s
    | none => s
  else match hbmRegion s n region with
    | some r => readFinds n r off k s
    | none => s

/-- The bytes a COPY_OUT reads: the live copy of a bolt region, the lines of an HBM region; zeros outside. -/
def copyOutData (s : State) (n : Nat) (bolt : Bool) (region off len : Nat) : List Byte :=
  let k := copyInside s n bolt region off len
  let held := if bolt then match boltRegionOf s n region with
      | some (_, x) => boltBytes s x off k
      | none => []
    else match hbmRegion s n region with
      | some r => regionBytes s n r off k
      | none => []
  held ++ List.replicate (len - k) 0

/-- COPY_DONE (R380): the bytes inside the region have moved, those outside count one violation, and the descriptor
completes; a narrow write to the bolt writes nothing and counts one (R146); after an error on the port nothing moved and the status is PORT. -/
def copyDone (id : Nat) (portOk : Bool) (s : State) : State :=
  match transferOf s id with
  | none => s
  | some t =>
    let n := t.ctx.val
    let fin (type status : Nat) (s : State) : State :=
      if t.notify then postCompletion n type status 0 t.ringIndex 0 0 [] s else s
    match t.kind with
    | .copyIn a len bolt region off =>
      let s := endTransfer id s
      if ¬ portOk then fin 4 6 s
      else if narrowCopy bolt off len then fin 4 0 (violate n 0x06 s)
      else
        let s := meetQueues .portH s
        let k := copyInside s n bolt region off len
        let s := if k < len then violate n 0x01 s else s
        fin 4 0 (if k = 0 then s else copyInData n bolt region off (Mem.bytes s.hostMem a k) s)
    | .copyOut a len bolt region off =>
      let s := endTransfer id s
      if ¬ portOk then fin 5 6 s
      else
        let s := meetQueues .portH s
        let s := if copyInside s n bolt region off len < len then violate n 0x01 s else s
        let s := copyOutFinds n bolt region off len s
        fin 5 0 (s.setHostMem (Mem.write s.hostMem a (copyOutData s n bolt region off len)))
    | _ => s

/-- COPY_DONE. -/
def execCopyDone (id : Nat) (portOk : Bool) (s : State) : Out := .next (copyDone id portOk s)

end Sys2Proof.Machine
end

