-- ==== Sys2Proof/Machine/LinOps.lean ====
section
/-! DEFINITION. The lining's shared operations (11_alterations, R318 to R324): the state and its event, refill packets, and what
a commit stitch does to the state. -/

namespace Sys2Proof.Machine

/-! Refill packets (Table 11-8, R321). -/

/-- A refill packet: the header with its CRC over the header and the data cells. -/
def refillPacket (block kind lines step : Nat) (data : List Byte) : Packet :=
  let h := layout 30 [(0, leBytes 4 block), (4, leBytes 1 kind), (5, leBytes 1 lines), (6, leBytes 2 (step % 65536))]
  { header := cellOf (h ++ leBytes 2 (crc16 (h ++ data)).toNat), data := cellsOf data }

/-- The data bytes of a packet. -/
def packetData (p : Packet) : List Byte := (p.data.map cellBytes).flatten

/-- A field of a refill packet's header. -/
def refillField (p : Packet) (first n : Nat) : Nat := leAt (cellBytes p.header) first n

/-- A refill packet's CRC holds, and it carries the lines it names. -/
def refillOk (p : Packet) : Bool :=
  crc16 ((cellBytes p.header).take 30 ++ packetData p) == BitVec.ofNat 16 (refillField p 30 2) &&
    p.data.length == 2 * refillField p 5 1

/-- The STATE record of a context (Table 11-8). Byte 16 carries its CPAR bit. -/
def statePacket (s : State) (n : Nat) : Packet :=
  let t := s.train n
  refillPacket 0 4 1 t.step.toNat (layout 64 [(0, leBytes 8 t.step.toNat), (8, leBytes 4 t.updates.toNat),
    (12, leBytes 4 t.lagged.toNat), (16, leBytes 1 (b2n (s.hbm.cpar.getLsbD n)))])

/-- The bytes of moments of one block (R202). -/
def momentBytesOf (e : PrsEntry) : Nat :=
  match e.kind, e.momBf16 with
  | .adamw, false => 512
  | .adamw, true => 256
  | .sgd, false => 256
  | .sgd, true => 128
  | .factored, _ => 0

/-- The packets that carry a factored entry's statistics: at most 31 lines each (Table 11-8). -/
def statChunks (e : PrsEntry) : Nat := (statLines e + 30) / 31

/-- The BLOCK packet of block i of an entry, from the committed view. -/
def blockPacket (s : State) (n : Nat) (e : PrsEntry) (i : Nat) : Packet :=
  let m := committedBytes s n e.mreg (64 * (e.mline + 4 * i)) 256 ++ committedBytes s n e.oreg (momentAt e i).1 (momentBytesOf e)
  refillPacket (e.firstBlock + i) 3 (m.length / 64) (s.train n).step.toNat m

/-- The packets of an entry's statistics, in chunks. -/
def statPackets (s : State) (n : Nat) (e : PrsEntry) : List Packet :=
  (List.range (statChunks e)).map fun c =>
    let k := min 31 (statLines e - 31 * c)
    refillPacket (e.firstBlock + e.blockCount - 1) 3 k (s.train n).step.toNat
      (committedBytes s n e.oreg (64 * (e.oline + 31 * c)) (64 * k))

/-- The packets of an entry: its blocks in ascending order, then the statistics of a factored one. -/
def entryPackets (s : State) (n : Nat) (e : PrsEntry) : List Packet :=
  (List.range e.blockCount).map (blockPacket s n e) ++ (if e.kind = .factored then statPackets s n e else [])

/-- Every packet a presser sends in a refill (R321). -/
def refillAll (s : State) (n k : Nat) : List Packet :=
  statePacket s n :: (match (s.train n).image with
    | none => []
    | some img => ((tableOf img false k).map (entryPackets s n)).flatten)

/-- The reads that a presser's refill makes of its committed view (R178, R179, R321). -/
def refillFinds (n k : Nat) (s : State) : State :=
  match (s.train n).image with
  | none => s
  | some img => s.each (tableOf img false k) fun s e => s.each (List.range e.blockCount) fun s i => blockFinds n e i s

/-- A presser's mirror is refilled: every block of its mirror table and every factored entry's statistics have come. -/
def refillWhole (s : State) (n k : Nat) : Bool :=
  match (s.train n).image with
  | none => true
  | some img =>
    let got := (s.presser k).refilled
    (tableOf img true k).all fun e =>
      (List.range e.blockCount).all (fun i => got.contains (e.firstBlock + i)) &&
        (e.kind != .factored || decide (1 + statChunks e ≤ got.count (e.firstBlock + e.blockCount - 1)))

/-- The first ACTIVE lining port. -/
def liningPort (s : State) : Option Nat := [12, 13, 14, 15].find? fun m => (s.port m).state = .active

/-- A message for the partner's Thimble (R318, R323), on the first ACTIVE lining port. Its layout is not given: the bytes past the
destination are free (DESIGN CHOICE, unsafe, assumption log 34). -/
def tellPartner (s : State) : State :=
  match liningPort s with
  | none => s
  | some m =>
    let dest := (s.port m).nbAddr.toNat
    let h := layout 30 [(0, [0x16]), (1, leBytes 1 m)]
    let d := leBytes 2 dest ++ leBytes 30 (Config.freeNat s.free)
    s.drew.onPort m fun p => { p with mgmt := p.mgmt ++ [cellOf (h ++ leBytes 2 (crc16 h).toNat), cellOf d] }

/-- A REFILL request for the partner's Thimble (R323). -/
def requestRefill (s : State) : State := tellPartner s

/-- In PAIRING Thimble sends this device's identity to the partner as soon as a lining port is ACTIVE (R318). -/
def sendIdentity (s : State) : State :=
  if s.lin.state = .pairing ∧ s.lin.identityDue ∧ (liningPort s).isSome then
    (tellPartner s).onLin fun l => { l with identityDue := false }
  else s

/-- The pressers' mirror flags as the lining sees them: a mirror record failed (R200). -/
def mirrorStale (s : State) (n : Nat) : Bool := (pressersOf s n).any fun k => (s.presser k).flags.getLsbD 10

/-- MIRROR_STALE is set, and the partner's Thimble is asked for a refill when it was not set before. -/
def markStale (k : Nat) (s : State) : State :=
  let old := (s.presser k).flags.getLsbD 10
  let s := setFlag k 10 s
  if old then s else requestRefill s

/-- A refill begins or begins again in the directions given (R321): the sender queues its packets, the first of them in this
stitch; the receiver forgets what it had. -/
def startRefill (n : Nat) (sending receiving : Bool) (s : State) : State :=
  let s := s.onLin fun l => { l with
    sending := sending, receiving := receiving, refilled := 0, refillPending := false, valid := l.valid && !receiving }
  s.each (pressersOf s n) fun s k =>
    let out := if sending then refillAll s n k else []
    let s := if sending then refillFinds n k s else s
    sendMirror n (s.onPresser k fun p => { p with refillOut := out, refilled := if receiving then [] else p.refilled }) k

/-- Each presser of a MIRRORED owner sends a STATE record in the first VC_4 entries of the commit stitch (R320). -/
def sendState (n : Nat) (s : State) : State :=
  let p := statePacket s n
  s.each (pressersOf s n).reverse fun s k => match mirrorPort s k with
    | some m => queueFirst m n (p.header :: p.data) s
    | none => s

/-- A context's own entries on all of its pressers. -/
def ownEntries (s : State) (n : Nat) : Nat :=
  match (s.train n).image with
  | none => 0
  | some img => ((pressersOf s n).map fun k => (tableOf img false k).length).sum

/-- Every mirror block of the step was taken. -/
def mirrorWhole (s : State) (n : Nat) : Bool :=
  match (s.train n).image with
  | none => true
  | some img => (pressersOf s n).all fun k => (blocksOf (tableOf img true k)).all fun b => (s.presser k).takenMirror.contains b

/-- What the commit stitch found before the presser flags were reset: this side's mirror is not current, the partner asked for
a refill. -/
structure LiningSeen where
  stale : Bool
  asked : Bool
  whole : Bool

/-- The lining as the commit stitch of its context finds it (R200, R321, R323). With COMMIT a mirror block whose record did not
arrive makes the mirror stale; without it V has not changed and the mirror stands. -/
def seeLining (n : Nat) (commit : Bool) (s : State) : LiningSeen :=
  { stale := mirrorStale s n || (commit && !mirrorWhole s n)
    asked := !s.sea.thimbleIn.isEmpty
    whole := (pressersOf s n).all fun k => refillWhole s n k }

/-- The lining state moves in the commit stitch (Table 11-7): a stale side goes to or stays in REFILLING, a refill that is
complete ends in MIRRORED, one that was waiting starts; an owner that mirrors sends its STATE. -/
def liningCommit (n : Nat) (commit : Bool) (x : LiningSeen) (s : State) : State :=
  if liningCtx s ≠ some n then s
  else
    let s := if x.asked then s.onSea fun a => { a with thimbleIn := [] } else s
    match s.lin.state with
    | .mirrored =>
      if x.stale ∨ x.asked then setLining .refilling (startRefill n x.asked x.stale s)
      else sendState n s
    | .refilling =>
      if s.lin.refillPending then startRefill n s.lin.sending s.lin.receiving s
      else
        let more : Bool := s.lin.sending && (x.asked || (pressersOf s n).any fun k => !(s.presser k).refillOut.isEmpty)
        let again : Bool := s.lin.receiving && (x.stale || !x.whole)
        if more ∨ again then startRefill n (more || x.asked) again s
        else if x.asked ∨ x.stale then startRefill n x.asked x.stale s
        else sendState n (setLining .mirrored (s.onLin fun l => { l with valid := true }))
    | .pairing => if commit ∧ x.stale then s.onLin fun l => { l with valid := false } else s
    | _ => s

end Sys2Proof.Machine
end

