-- ==== Sys2Proof/Machine/TrainOps.lean ====
section
/-! DEFINITION. The training step's shared operations (07_training_step): what a presser takes, presser images, votes and their
aggregates. -/

namespace Sys2Proof.Machine

/-! Taking records (R198 to R200, R210, R211). -/

/-- The next record of a presser that takes records in its slots now, with its context: bound to an ACTIVE context (R358) in a
device in service. -/
def readyRecord (s : State) (k : Nat) : Option (Nat × Nat × List Byte) :=
  if outOfService s then none
  else match presserLive s k, nextRecord (s.presser k) with
    | some n, some (r, b) => some (n, r, b)
    | _, _ => none

/-- A record is a norm record. -/
def isNorm (b : List Byte) : Bool := leAt b 4 1 == 2

/-- A stale record is dropped and counted. -/
def dropStale (k : Nat) (s : State) : State := s.onPresser k fun p => { p with stale := satInc p.stale 1 }

/-- A record has been taken from the ring. -/
def takeNext (k r : Nat) (s : State) : State := s.onPresser k fun p => { p with nextTake := r + 1 }

/-- MIRROR_EN of a presser. -/
def mirrorOn (s : State) (k : Nat) : Bool := bit (s.presser k).bind 1

/-- A taken own record is forwarded to the partner (R200). -/
def forwardRecord (k : Nat) (b : List Byte) (s : State) : State :=
  if mirrorOn s k then s.onPresser k fun p => { p with mirrorOut := p.mirrorOut ++ [b] } else s

/-- The flag of PRS_FAULT_s that an outcome of Table 7-4 sets. -/
def outcomeFlag : RecordCheck → Option Nat
  | .crc => some 4
  | .count => some 5
  | .duplicate => some 6
  | .nonFinite => some 0
  | _ => none

/-- A record that would be applied waits: the slots that the presser's reservation gives the stitch are used up (R203). -/
def slotsMissing (s : State) (k n : Nat) (mirror : Bool) (b : List Byte) : Bool :=
  decide (128 * (s.presser k).slotsNow.toNat ≤ (s.presser k).spent) && match checkRecord s k n mirror b with
    | .apply => true
    | _ => false

/-- A stitch's slots of every presser, 32 × SLOTS, have passed; what was used beyond them is carried over (R203). -/
def passSlots (s : State) : State :=
  s.onPrs fun x => { x with pressers := x.pressers.map fun p => { p with spent := p.spent - 128 * p.slotsNow.toNat } }

/-- An own gradient record takes its outcome of Table 7-4. -/
def takeRecord (k n : Nat) (b : List Byte) (s : State) : State :=
  let c := checkRecord s k n false b
  match c with
  | .stale => dropStale k s
  | .noEntry => forwardRecord k b (violate n 0x0E s)
  | .apply => forwardRecord k b (markTaken k false (leAt b 0 4) (acceptRecord k n false b s))
  | _ =>
    let s := match outcomeFlag c with
      | some i => setFlag k i s
      | none => s
    forwardRecord k b (markTaken k false (leAt b 0 4) s)

/-- The clipping mode of a context. -/
def heldMode (s : State) (n : Nat) : Bool := match (s.train n).image with
  | some img => img.held
  | none => false

/-- The records held for the norm are applied in the order written (R211). -/
def applyHeld (k n : Nat) (s : State) : State :=
  let l := (s.presser k).held
  s.each l (fun s x => applyRecord k n x.2 x.1 s) |>.onPresser k fun p => { p with held := [] }

/-- A norm record (R199, R211): its step and whether one was taken are checked; its sum is stored as the shadow lagged norm,
and in held mode gives clipf and releases the held records. -/
def takeNorm (k n : Nat) (b : List Byte) (s : State) : State :=
  let t := s.train n
  if leAt b 6 2 ≠ t.step.toNat % 65536 then dropStale k s
  else if (s.presser k).normTaken then setFlag k 6 s
  else
    let n2 : W32 := BitVec.ofNat 32 (leAt b 8 4)
    let s := (s.onPresser k fun p => { p with normTaken := true }).onTrain n fun t => { t with shadowLagged := some n2 }
    match t.image with
    | some img =>
      if img.held then applyHeld k n (s.onTrain n fun t => { t with clipf := clipFactor img.clipMax n2 }) else s
    | none => s

/-- Every own block of a presser has been taken. -/
def ownTaken (s : State) (k n : Nat) : Bool :=
  match (s.train n).image with
  | none => true
  | some img => (blocksOf (tableOf img false k)).all fun b => (s.presser k).taken.contains b

/-- The partial norm is due (R210): every own record has been taken and it was not written. A presser without OWN entries has
none to write when its context observes. -/
def partialDue (s : State) (k n : Nat) : Bool :=
  let t := s.train n
  !(s.presser k).normWritten && !t.reslicing && ownTaken s k n && t.image.isSome && !observer s n

/-- The partial norm is written to line NORM_LINE of the region NORM_REGION (R210). -/
def writePartial (k n : Nat) (s : State) : State :=
  let p := s.presser k
  let (v, clamped) := partialNorm p.normAcc
  let out : W32 := if p.normNan then 0x7FC00000 else v
  let s := if clamped ∧ ¬ p.normNan then presserSat k 1 s else s
  let s := s.onPresser k fun p => { p with normWritten := true }
  writeView k n (fld p.reserve 43 40) false (64 * fld p.bind 63 40) (slice (leBytes 4 out.toNat) 0 64) s

/-- A mirror record takes its outcome (R200): whatever fails but for a stale one sets MIRROR_STALE, and none changes a vote. A
record that reaches a block not yet refilled does so too (R321). -/
def takeMirror (k n : Nat) (b : List Byte) (s : State) : State :=
  let block := leAt b 0 4
  let l := s.lin
  match checkRecord s k n true b with
  | .stale => dropStale k s
  | .noEntry => markStale k (violate n 0x0E s)
  | .apply =>
    let s' := markTaken k true block s
    if l.receiving ∧ l.refillPending then s'
    else if l.receiving ∧ ¬ (s.presser k).refilled.contains block then markStale k s'
    else acceptRecord k n true b s'
  | _ => markStale k (markTaken k true block s)

/-! Refill records as they arrive (R320 to R322, Table 11-8). -/

/-- A presser takes a BLOCK packet of the blocks of its mirror table; one that names no block of any presser is anybody's. -/
def takesBlock (s : State) (n k : Nat) (p : Packet) : Bool :=
  match (s.train n).image with
  | none => true
  | some img =>
    let has (j : Nat) : Bool := (entryOfBlock (tableOf img true j) (refillField p 0 4)).isSome
    has k || !(pressersOf s n).any has

/-- The first refill packet of a KIND that a presser takes. -/
def refillFirst (s : State) (n k kind : Nat) : Option Packet :=
  s.prs.refillIn.find? fun p => refillField p 4 1 == kind && (kind == 4 || takesBlock s n k p)

/-- Where a BLOCK packet's bytes go in the committed view of the mirror: (region, first byte, bytes). Later packets of the last
block of a factored entry carry its statistics. -/
def refillPieces (e : PrsEntry) (block seen : Nat) (d : List Byte) : List (Nat × Nat × List Byte) :=
  let i := block - e.firstBlock
  if seen = 0 then
    [(e.mreg, 64 * (e.mline + 4 * i), d.take 256), (e.oreg, (momentAt e i).1, d.drop 256)]
  else [(e.oreg, 64 * (e.oline + 31 * (seen - 1)), d)]

/-- A BLOCK packet (R321, R322): it belongs to a refill of this step, its lines go to the committed view of the mirror, and the
block is refilled. -/
def takeBlock (k n : Nat) (p : Packet) (s : State) : State :=
  let t := s.train n
  let block := refillField p 0 4
  if ¬ refillOk p then markStale k s
  else if ¬ s.lin.receiving ∨ s.lin.refillPending ∨ refillField p 6 2 ≠ t.step.toNat % 65536 then dropStale k s
  else match t.image.bind fun img => entryOfBlock (tableOf img true k) block with
    | none => markStale k (violate n 0x0E s)
    | some (_, e) =>
      let seen := (s.presser k).refilled.count block
      let s := s.each (refillPieces e block seen (packetData p)) fun s x => writeView k n x.1 false x.2.1 x.2.2 s
      let s := s.onPresser k fun q => { q with refilled := q.refilled ++ [block] }
      if seen = 0 then s.onLin fun l => { l with refilled := l.refilled + 1 } else s

/-- clipf of the step that opens (R211): from LAGGED in lagged mode, 1.0 in held mode. -/
def openingClipf (t : TrainCtx) : W32 := match t.image with
  | none => f32One
  | some img => if img.held then f32One else clipFactor img.clipMax t.lagged

/-- A STATE packet (R320, Table 11-8): an observer, or the receiver of a refill, takes the owner's committed values. -/
def takeState (k n : Nat) (p : Packet) (s : State) : State :=
  let d := packetData p
  if ¬ refillOk p then markStale k s
  else if ¬ (observer s n || s.lin.receiving) then s
  else
    let s := s.onTrain n fun t => { t with
      step := BitVec.ofNat 44 (leAt d 0 8), updates := BitVec.ofNat 32 (leAt d 8 4), lagged := BitVec.ofNat 32 (leAt d 12 4) }
    s.onTrain n fun t => { t with clipf := openingClipf t }

/-! Presser images (R202, Tables 7-5 to 7-8). -/

/-- A hyperparameter set (Table 7-6). -/
def readHyper (b : List Byte) : HyperSet :=
  let f (i : Nat) : W32 := BitVec.ofNat 32 (leAt b i 4)
  { lrScale := f 0, b1 := f 4, b2 := f 8, eps := f 12, lambda := f 16, mu := f 20, gradScale := f 24, eps1 := f 28,
    expCount := BitVec.ofNat 16 (leAt b 32 2), sigmaInit := BitVec.ofNat 8 (leAt b 34 1) }

/-- A schedule segment with its rates (Table 7-7). -/
def readSegment (b : List Byte) : SchedSeg :=
  { firstStep := BitVec.ofNat 64 (leAt b 0 8), length := BitVec.ofNat 32 (leAt b 8 4), cosine := leAt b 12 1 == 1,
    lr0 := BitVec.ofNat 32 (leAt b 16 4), lr1 := BitVec.ofNat 32 (leAt b 20 4) }

/-- A table entry (Table 7-8). -/
def readEntry (b : List Byte) : PrsEntry :=
  let m := leAt b 8 1
  { firstBlock := leAt b 0 4, blockCount := leAt b 4 4,
    kind := if m % 4 = 1 then .sgd else if m % 4 = 2 then .factored else .adamw,
    wfmt := m / 4 % 4, decay := m.testBit 4, momBf16 := m.testBit 5, nesterov := m.testBit 6, whbm := m.testBit 7,
    hp := leAt b 9 1 % 16, mreg := leAt b 9 1 / 16, oreg := leAt b 10 1 % 16, wreg := leAt b 11 1, mline := leAt b 12 4,
    oline := leAt b 16 4, wband := leAt b 20 1, wcol := leAt b 22 2, wline := leAt b 24 4, cols := leAt b 28 2 }

/-- OWN_COUNT and the MIRROR entries of a presser in an image header (Table 7-5). -/
def imageCounts (b : List Byte) (k : Nat) : Nat × Nat := (leAt b (16 + 2 * k) 2, 32 * leAt b (48 + k) 1)

/-- The entries before presser k's in an image. -/
def entriesBefore (b : List Byte) (k : Nat) : Nat :=
  ((List.range k).map fun i => (imageCounts b i).1 + (imageCounts b i).2).sum

/-- The bytes of the part of an image before its entries. -/
def entriesAt (b : List Byte) : Nat := 64 + 64 * leAt b 7 1 + 24 * leAt b 8 1

/-- The bytes of an image, from its header. -/
def imageSize (b : List Byte) : Nat := entriesAt b + 32 * entriesBefore b 8

/-- The hyperparameter sets, segments and entries of an image as bytes. -/
def hyperParts (b : List Byte) : List (List Byte) := (List.range (leAt b 7 1)).map fun i => slice b (64 + 64 * i) 64

/-- The segments of an image. -/
def segmentParts (b : List Byte) : List (List Byte) :=
  (List.range (leAt b 8 1)).map fun i => slice b (64 + 64 * leAt b 7 1 + 24 * i) 24

/-- The entries of a presser's own or mirror table as bytes. -/
def entryParts (b : List Byte) (mirror : Bool) (k : Nat) : List (List Byte) :=
  let (own, mir) := imageCounts b k
  let first := entriesAt b + 32 * (entriesBefore b k + if mirror then own else 0)
  (List.range (if mirror then mir else own)).map fun i => slice b (first + 32 * i) 32

/-- An image read whole. -/
def readImage (b : List Byte) : PrsImage :=
  { hyper := (hyperParts b).map readHyper, segs := (segmentParts b).map readSegment, held := leAt b 9 1 == 1,
    clipMax := BitVec.ofNat 32 (leAt b 12 4), own := (List.range 8).map fun k => (entryParts b false k).map readEntry,
    mirror := (List.range 8).map fun k => (entryParts b true k).map readEntry }

/-- The header follows Table 7-5 and is for the context. -/
def imageHeaderFormat (b : List Byte) (n : Nat) : Bool :=
  leAt b 0 4 == 0x52504C4D && leAt b 4 2 == 1 && leAt b 6 1 == n &&
    decide (1 ≤ leAt b 7 1) && decide (leAt b 7 1 ≤ 16) && decide (1 ≤ leAt b 8 1) && decide (leAt b 8 1 ≤ 64) &&
    decide (leAt b 9 1 ≤ 1) && leAt b 10 2 == 0 && leAt b 32 16 == 0 && leAt b 56 8 == 0

/-- A hyperparameter set follows Table 7-6. -/
def hyperFormat (b : List Byte) : Bool :=
  let x := (BitVec.ofNat 8 (leAt b 34 1)).toInt
  decide (-124 ≤ x) && decide (x ≤ 119) && leAt b 35 29 == 0

/-- A segment follows Table 7-7. -/
def segmentFormat (b : List Byte) : Bool :=
  decide (leAt b 0 8 < 2 ^ 44) && decide (1 ≤ leAt b 8 4) && decide (leAt b 12 1 ≤ 1) && leAt b 13 3 == 0

/-- An entry follows Table 7-8. -/
def entryFormat (hps : Nat) (b : List Byte) : Bool :=
  let m := leAt b 8 1
  let cols := leAt b 28 2
  decide (1 ≤ leAt b 4 4) && m % 4 != 3 && m / 4 % 4 != 2 && decide (leAt b 9 1 % 16 < hps) && decide (leAt b 10 1 < 16) &&
    decide (leAt b 11 1 < if m.testBit 7 then 16 else 64) && leAt b 21 1 == 0 && leAt b 30 2 == 0 &&
    (m % 4 != 2 || (cols != 0 && cols % 64 == 0 && 64 * leAt b 4 4 % cols == 0))

/-- Segments stand in ascending FIRST_STEP. -/
def segmentsRise : List SchedSeg → Bool
  | a :: b :: l => decide (a.firstStep.toNat < b.firstStep.toNat) && segmentsRise (b :: l)
  | _ => true

/-- Every part of an image follows its table. -/
def imageFormat (b : List Byte) : Bool :=
  (hyperParts b).all hyperFormat && (segmentParts b).all segmentFormat && segmentsRise (readImage b).segs &&
    (List.range 8).all fun k => (entryParts b false k ++ entryParts b true k).all (entryFormat (leAt b 7 1))

/-- A presser of stack k may use a region (R170), which must have PARITY (R202). -/
def presserRegion (s : State) (n k region : Nat) : Bool :=
  match hbmRegion s n region with
  | some r => r.parity && onStack k r
  | none => false

/-- Every HBM region that an image names is one its presser may use. -/
def imageRegions (s : State) (n : Nat) (img : PrsImage) : Bool :=
  (List.range 8).all fun k => (tableOf img false k ++ tableOf img true k).all fun e =>
    presserRegion s n k e.mreg && presserRegion s n k e.oreg && (!e.whbm || e.wfmt == 3 || presserRegion s n k e.wreg)

/-- A context is of training tenancy and defined. -/
def training (s : State) (n : Nat) : Bool := n != 0 && ctxDefined s n && !(s.ctx n).serving

/-- RESULT of a LOAD, or the image it brings (Table 7-13). -/
def checkImage (s : State) (n : Nat) (b : List Byte) (portOk : Bool) : Nat × Option PrsImage :=
  if ¬ portOk ∨ ¬ imageHeaderFormat b n then (1, none)
  else if (List.range 8).any fun k => decide (8192 < (imageCounts b k).1 + (imageCounts b k).2) then (2, none)
  else if ¬ imageFormat b then (1, none)
  else if ¬ training s n then (4, none)
  else if ¬ imageRegions s n (readImage b) then (3, none)
  else (0, some (readImage b))

/-- The bank an entry starts with: SIGMA_INIT of its set (R208). -/
def freshBank (img : PrsImage) (e : PrsEntry) : EntryBank := { sigma := (hyperOf img e.hp).sigmaInit }

/-- The bank of entry i of a new table: the committed SIGMA of the old entry at its place when FIRST_BLOCK, BLOCK_COUNT and WFMT
are equal (R208). -/
def carriedBank (old : List PrsEntry) (banks : List EntryBank) (img : PrsImage) (i : Nat) (e : PrsEntry) : EntryBank :=
  match old[i]? with
  | some o =>
    if o.firstBlock = e.firstBlock ∧ o.blockCount = e.blockCount ∧ o.wfmt = e.wfmt then
      { freshBank img e with sigma := (banks.getD i {}).sigma }
    else freshBank img e
  | none => freshBank img e

/-- The banks of a table under a new image. -/
def carryBanks (old : Option PrsImage) (img : PrsImage) (mirror : Bool) (k : Nat) (banks : List EntryBank) : List EntryBank :=
  let before := match old with
    | some o => tableOf o mirror k
    | none => []
  (tableOf img mirror k).zipIdx.map fun x => carriedBank before banks img x.2 x.1

/-- The shards of a context whose capture has not ended fail with a status (Table 12-5): their completions are posted. -/
def failShards (n status : Nat) (s : State) : State :=
  let failing (t : Transfer) : Bool := t.ctx.val == n && (match t.kind with
    | .shard h => h.captured.isNone
    | _ => false)
  s.each (s.work.transfers.filter failing) fun s t =>
    postCompletion n 7 status 0 t.ringIndex 0 0 [] (endTransfer t.id s)

/-- An image takes effect (R202); a capture in progress fails with VERSION (Table 12-5). -/
def installImage (n : Nat) (img : PrsImage) (s : State) : State :=
  let s := failShards n 1 s
  let old := (s.train n).image
  let s := s.each (pressersOf s n) fun s k => s.onPresser k fun p => { p with
    own := carryBanks old img false k p.own, mirror := carryBanks old img true k p.mirror }
  s.onTrain n fun t => { t with image := some img, staged := none }

/-- A checked image takes effect at once when the context has no pending vote, else it waits for the commit stitch. -/
def stageImage (n : Nat) (img : PrsImage) (s : State) : State :=
  if (s.train n).voteStitch.isNone then installImage n img s else s.onTrain n fun t => { t with staged := some img }

/-- What belongs to a step in a presser is gone (R214, Table 11-4): ring position, flags, held region, norm, sums, shadow
AMAX, staging writes not yet made. -/
def resetStep (k : Nat) (s : State) : State :=
  let fresh (b : EntryBank) : EntryBank := { b with shadowAmax := 0, shadowSigma := 0, sigmaSet := false, copyRestored := false }
  (s.onPresser k fun p => { p with
    applied := 0, mirrored := 0, flags := 0, own := p.own.map fresh, mirror := p.mirror.map fresh, taken := [], takenMirror := [],
    normTaken := false, ring := [], lineWrites := [], lost := [], nextTake := 0, normAcc := 0, normNan := false,
    normWritten := false, held := [], mirrorIn := [], mirrorOut := [], factors := [], mirrorFactors := [], staging := [] }).onBolt fun b => { b with waiting := b.waiting.filter fun w => w.presser != k }

/-- A presser begins to serve a context: its banks start from SIGMA_INIT (R208). -/
def bindPresser (k : Nat) (s : State) : State :=
  let banks (mirror : Bool) : List EntryBank := match presserCtx s k with
    | some n => match (s.train n).image with
      | some img => (tableOf img mirror k).map (freshBank img)
      | none => []
    | none => []
  let (a, b) := (banks false, banks true)
  (resetStep k s).onPresser k fun p => { p with own := a, mirror := b, refilled := [], refillOut := [] }

/-! Factored statistics (R209). -/

/-- R' or C' of one statistic: fma(B2, V, q2 × sum ÷ count). -/
def statNext (b2 q2 : W32) (count : Nat) (v sum : W32) : W32 :=
  f32Fma b2 v (f32Div (f32Mul q2 sum) (f32OfInt count))

/-- The shadow statistics of a factored entry (R209): rows, then columns, then rmean. -/
def statShadow (s : State) (n : Nat) (img : PrsImage) (e : PrsEntry) (f : FactorSums) : List W32 × W32 :=
  let b2 := (hyperOf img e.hp).b2
  let q2 := f32Sub f32One b2
  let r := factorRows e
  let rows := (List.range r).map fun i => statNext b2 q2 e.cols (statOf s n e (statAt e i)) (Tab.getD f.rows i 0)
  let cols := (List.range e.cols).map fun i => statNext b2 q2 r (statOf s n e (statAt e (r + i))) (Tab.getD f.cols i 0)
  (rows ++ cols, f32Div (rows.foldl f32Add 0) (f32OfInt r))

/-- One entry's statistics written to the shadow view, a slot for each of their lines (R203). -/
def writeStats (k n : Nat) (img : PrsImage) (e : PrsEntry) (f : FactorSums) (s : State) : State :=
  if e.kind ≠ .factored then s
  else
    let (l, mean) := statShadow s n img e f
    spendSlots k (4 * statLines e)
      (writeView k n e.oreg true (rmeanAt e) (slice (leBytes 4 mean.toNat) 0 64) (writeView k n e.oreg true (statAt e 0) (bytesOf32 l) s))

/-- The statistics of a presser's tables written at the vote stitch. -/
def writeAllStats (k n : Nat) (s : State) : State :=
  match (s.train n).image with
  | none => s
  | some img =>
    let p := s.presser k
    let s := s.each (tableOf img false k).zipIdx fun s x => writeStats k n img x.1 (Tab.getD p.factors x.2 {}) s
    s.each (tableOf img true k).zipIdx fun s x => writeStats k n img x.1 (Tab.getD p.mirrorFactors x.2 {}) s

/-! Votes (R212, R213). -/

/-- The vote state of a job tag. -/
def voteOf (s : State) (tag : BitVec 16) : Option VoteState := s.prs.votes.find? fun v => v.tag == tag

/-- Votes combined (R212): the flags OR-ed, the counts summed; differing MEMBERS or vote stitches give MEMBERS 0 with the vote
stitch of the first one taken. -/
def combineVotes (first : Stitch) (l : List VoteMsg) (tag : BitVec 16) : VoteMsg :=
  let members := (l.head?.map (·.members)).getD 0
  let same := l.all fun v => v.members == members && v.voteStitch == first
  { tag := tag, voteStitch := first, members := if same then members else 0, count := (l.map (·.count)).foldl (· + ·) 0,
    skip := l.any (·.skip), fail := l.any (·.fail) }

/-- A device's aggregate for a tag. -/
def aggregate (v : VoteState) : VoteMsg := combineVotes v.voteStitch (v.own.toList ++ v.children.map (·.2)) v.tag

/-- The vote state of a tag changed; opened with the vote stitch of its first VOTE. -/
def onVote (tag : BitVec 16) (first : Stitch) (f : VoteState → VoteState) (s : State) : State :=
  s.onPrs fun p => { p with votes := match p.votes.find? fun v => v.tag == tag with
    | some _ => p.votes.map fun v => if v.tag = tag then f v else v
    | none => p.votes ++ [f { tag := tag, voteStitch := first, own := none, children := [], sent := none }] }

/-- The changed aggregate goes up the primary marker tree (R212). -/
def pushVote (tag : BitVec 16) (s : State) : State :=
  match voteOf s tag with
  | none => s
  | some v =>
    let now := aggregate v
    if v.sent = some now then s else sendUp (.vote now) (onVote tag v.voteStitch (fun v => { v with sent := some now }) s)

/-- The state of a tag is dropped. -/
def dropVote (tag : BitVec 16) (s : State) : State := s.onPrs fun p => { p with votes := p.votes.filter fun v => v.tag != tag }

/-- JOB_TAG of a context. -/
def voteTag (s : State) (n : Nat) : BitVec 16 := BitVec.ofNat 16 (fld (s.train n).vote 15 0)

/-- The training contexts that take part in a tag's votes. -/
def voters (s : State) (tag : BitVec 16) : List Nat :=
  jobContexts.filter fun n => training s n && voteTag s n == tag && (s.train n).voteStitch.isSome

/-- A member that has cancelled a vote ignores what comes for it (R308). -/
def voteCancelled (s : State) (tag : BitVec 16) (v : Stitch) : Bool :=
  jobContexts.any fun n => training s n && voteTag s n == tag && (s.train n).cancelled.contains v

/-- An ACTIVE context of training tenancy. -/
def activeTraining (s : State) (n : Nat) : Bool := training s n && decide ((s.ctx n).state = .active)

/-- A presser has staging writes that it has not made yet (R145, R147). -/
def stageWaits (s : State) (k : Nat) : Bool := s.bolt.waiting.any fun w => w.presser == k

/-- The flags that the vote stitch itself sets in a presser (R211, R212, R311): MISSING, NORM and STAGING. -/
def voteFlags (s : State) (k n : Nat) : BitVec 11 :=
  let p := s.presser k
  let t := s.train n
  if t.reslicing then (if t.rebuild.any (·.complete) then 0 else 1 <<< 9)
  else
    (if ownTaken s k n then 0 else 1 <<< 8) ||| (if p.normTaken ∨ observer s n then 0 else 1 <<< 3) |||
      (if p.staging.isEmpty ∧ ¬ stageWaits s k then 0 else 1 <<< 9)

/-- A presser at the vote stitch: its flags, its counts latched, its statistics written. -/
def voteLatch (n : Nat) (s : State) (k : Nat) : State :=
  let f := voteFlags s k n
  let s := s.onPresser k fun p => { p with flags := p.flags ||| f, statApplied := p.applied, statMirrored := p.mirrored }
  if (s.train n).reslicing then s else writeAllStats k n s

/-- The local vote of a context from its pressers' flags and its poisoned deliveries (R212). -/
def localVote (s : State) (n : Nat) (v : Stitch) : VoteMsg :=
  let flags := (pressersOf s n).foldl (fun f k => f ||| (s.presser k).flags) (0 : BitVec 11)
  let t := s.train n
  let fail : Bool := flags &&& 0x3F8 != 0 || t.poisoned || (t.reslicing && !t.rebuild.any (·.complete))
  { tag := voteTag s n, voteStitch := v, members := BitVec.ofNat 16 (fld t.vote 31 16), count := 1, skip := bit flags 0,
    fail := fail }

/-- A member's own vote joins its tag's aggregate. -/
def castVote (m : VoteMsg) (s : State) : State :=
  pushVote m.tag (onVote m.tag m.voteStitch (fun v => { v with own := some (match v.own with
    | some o => combineVotes v.voteStitch [o, m] m.tag
    | none => m) }) s)

/-- The verdict of an aggregate (R213). -/
def decide213 (a : VoteMsg) : Verdict :=
  if a.count = a.members ∧ a.members ≠ 0 then (if a.fail then .rollback else if a.skip then .skip else .commit) else .rollback

/-- A VERDICT is held for the commit stitch by the contexts it is for (R213). -/
def holdVerdict (m : VerdictMsg) (s : State) : State :=
  s.each ((voters s m.tag).filter fun n => (s.train n).voteStitch == some m.voteStitch) fun s n =>
    s.onTrain n fun t => { t with verdict := some m.verdict }

end Sys2Proof.Machine
end

