-- ==== Sys2Proof/Machine/Staging.lean ====
section
/-! DEFINITION. What the cycles that a band offers bring about in its segments at a stitch boundary (05_bolt, R145, R147, R153,
R155): the pressers' staging writes, the scrubber's cover, the write-back buffers, and loaders that a power-down stops. -/

namespace Sys2Proof.Machine

/-- The core cycles of the stitch just ended that a band offered to the writers of its segments (R120, R147): the idle windows of
the pattern that ran, every cycle but those of the maintenance slot where none did. -/
def offered (s : State) (g : Nat) : Nat :=
  match Tab.find s.stu.bands g with
  | some r => match patternOf s r.ctx.val r.handle with
    | some p => ((p.idle.filter fun w => w.band == g).map (·.length)).sum
    | none => 0
  | none => 64 * s.stu.periodUnits.toNat - 96

/-- Bytes written to the staging copy of one run, line by line. -/
def stageRun (x : BoltRegion) (r : BoltRun) (off : Nat) (bs : List Byte) (s : State) : State :=
  let l0 := off / 32
  s.each (List.range ((off + bs.length + 31) / 32 - l0)) fun s d =>
    let j := l0 + d
    let line := stagingLine x r j
    let old := boltLine s (r.band / 16) r.slab line
    let part := (List.range 32).map fun b =>
      if off ≤ 32 * j + b ∧ 32 * j + b < off + bs.length then bs.getD (32 * j + b - off) 0 else old.getD b 0
    writeBoltLine (r.band / 16) r.slab line part s

/-- The pair writes of a staging write in each run that holds its column. -/
def stagePairs (w : StageWrite) : Nat := (w.first + w.bytes.length + 63) / 64 - w.first / 64

/-- One staging write: it is made when every slab segment it goes to has pair writes left, four in each offered cycle, the loader's
taken first (R147); else it waits. One whose region is gone, or is fenced, is made nowhere. -/
def drainStage (acc : State × List StageWrite) (w : StageWrite) : State × List StageWrite :=
  let (s, rest) := acc
  match boltRegion s w.region with
  | none => (s, rest)
  | some x =>
    let runs := runsOf x w.band w.col
    let room (r : BoltRun) : Bool :=
      decide (Tab.getD s.bolt.spent (128 * w.band + r.slab) 0 + stagePairs w ≤ 4 * offered s w.band)
    if x.state = .fenced then (s, rest)
    else if ¬ runs.all room then (s, rest ++ [w])
    else
      let s := s.each runs fun s r => stageRun x r w.first w.bytes s
      let s := s.onBolt fun b => { b with
        spent := runs.foldl (fun t r => Tab.add t (128 * w.band + r.slab) (stagePairs w)) b.spent }
      (onRegion w.region (fun x => { x with stagedLines := x.stagedLines + w.elements }) s, rest)

/-- The staging writes for which the stitch just ended offered cycles, in the order in which the pressers gave them. -/
def drainStaging (s : State) : State :=
  let (s, rest) := s.bolt.waiting.foldl drainStage (s, [])
  s.onBolt fun b => { b with waiting := rest }

/-- The pair writes made in the slab segments of a band: the most in any slab. -/
def mostSpent (s : State) (g : Nat) : Nat :=
  (s.bolt.spent.filter fun x => x.1 / 128 == g).foldl (fun m x => max m x.2) 0

/-- A band's segments are scrubbed in every cycle: it is unavailable, or no context owns it (R155). -/
def unusedBand (s : State) (g : Nat) : Bool := (s.band g).state == .unavailable || (s.band g).owner == 0

/-- The scrubber's pairs of the stitch in a band's segments: four in each offered cycle, less what the writers took, to the end of
the segments (R147, R155). -/
def coverSegments (s : State) : State :=
  if ¬ bit s.bolt.ctrl 0 then s
  else
    let pairs (g : Nat) : Nat :=
      if unusedBand s g then 256 * s.stu.periodUnits.toNat else 4 * offered s g - mostSpent s g
    s.onBolt fun b => { b with covered := Vector.ofFn fun g => min 32768 (vAt b.covered g.val 0 + pairs g.val) }

/-- What the stitch just ended brings to the bolt at the boundary. -/
def boltCycles (s : State) : State :=
  let s := coverSegments (drainStaging (flushWriteBacks s))
  s.onBolt fun b => { b with spent := [] }

/-- A band's loaders stop as it powers down: a region in LOADING that covers it stays so (Table 5-2). -/
def stopLoaders (g : Nat) (s : State) : State :=
  s.onBolt fun b => { b with regions := b.regions.map fun x =>
    (x.1, if x.2.state = .loading ∧ x.2.bands.contains g then { x.2 with stopped := true, filling := false } else x.2) }

/-! The commit stitch (R144, R145). -/

/-- The own entries of an image whose working copies go to a bolt region. -/
def stagedEntries (s : State) (n index : Nat) : List PrsEntry :=
  match (s.train n).image with
  | none => []
  | some img => ((pressersOf s n).map fun k => (tableOf img false k).filter fun e =>
      e.wfmt != 3 && !e.whbm && e.wreg == index).flatten

/-- The lines that a step's working copies take in a bolt region, their scale bytes aside (Table 7-8). -/
def stageTotal (s : State) (n index : Nat) : Nat :=
  ((stagedEntries s n index).map fun e => e.blockCount * (if e.wfmt = 0 then 4 else 2)).sum

/-- The bolt regions that the working copies of a context's own entries go to. -/
def stageTargets (s : State) (n : Nat) : List Nat :=
  match (s.train n).image with
  | none => []
  | some img => (((pressersOf s n).map fun k =>
      ((tableOf img false k).filter fun e => e.wfmt != 3 && !e.whbm).map (·.wreg)).flatten).eraseDups

/-- The staging copies that a step requires are complete (R145): no write waits or failed, and each region is a TWIN region in
service that took every line. A re-slice's copies are complete when REBUILD has written them (R312). -/
def stagingWhole (s : State) (n : Nat) : Bool :=
  let whole (i : Nat) : Bool := match boltRegionOf s n i with
    | some (_, x) => x.twin && x.state != .fenced && ((s.train n).reslicing || x.stagedLines == stageTotal s n i)
    | none => false
  (pressersOf s n).all (fun k => (s.presser k).staging.isEmpty && !stageWaits s k) && (stageTargets s n).all whole

end Sys2Proof.Machine
end

