-- ==== Sys2Proof/Machine/Commit.lean ====
section
/-! DEFINITION. What a verdict does in the maintenance slot of the commit stitch (07_training_step, R208, R214; 11_alterations,
R313). -/

namespace Sys2Proof.Machine

/-- The twin regions a context's pressers staged in the step, by their device index (R144). -/
def stagedRegions (s : State) (n : Nat) : List Nat := (stageTargets s n).filterMap fun i => (boltRegionOf s n i).map (·.1)

/-- LIVE of a region is inverted; a BACKED one becomes DIRTY (R144, Table 5-3). -/
def invertLive (d : Nat) (s : State) : State :=
  onRegion d (fun x => { x with
    live := !x.live
    state := if x.backed && x.state == .resident then .dirty else x.state }) s

/-- A bank at COMMIT (R208, R312): the shadow AMAX becomes committed and gives the next SIGMA, unless one was set in the step. -/
def commitBank (reslicing : Bool) (b : EntryBank) : EntryBank :=
  { b with
    amax := b.shadowAmax
    sigma := if b.sigmaSet then b.shadowSigma else if reslicing then b.sigma else (sigmaOf b.shadowAmax).getD b.sigma }

/-- A presser's banks at COMMIT; an infinite or NaN AMAX is counted in SAT (R208). -/
def commitBanks (reslicing : Bool) (s : State) (k : Nat) : State :=
  let p := s.presser k
  let bad := if reslicing then 0 else ((p.own ++ p.mirror).filter fun b => amaxBad b.shadowAmax).length
  presserSat k bad (s.onPresser k fun p => { p with
    own := p.own.map (commitBank reslicing), mirror := p.mirror.map (commitBank reslicing) })

/-- V+1 becomes V (Table 7-11): CPAR, LIVE of the staged twin regions, the banks. -/
def commitViews (n : Nat) (s : State) : State :=
  let regions := stagedRegions s n
  let reslicing := (s.train n).reslicing
  let s := s.onHbm fun h => { h with cpar := h.cpar ^^^ (1 <<< n) }
  (s.each regions fun s d => invertLive d s).each (pressersOf s n) (commitBanks reslicing)

/-- The alteration-done event (R309, R313). -/
def alterationDone (n phase : Nat) (old new : BitVec 16) (s : State) : State :=
  let body := [(16, leBytes 1 phase), (18, leBytes 2 old.toNat), (20, leBytes 2 new.toNat),
    (24, leBytes 8 (s.train n).step.toNat)]
  post 0 0x0A body (post n 0x0A body s)

/-- The counters of a context after a verdict of an ordinary step (Table 7-11). -/
def countVerdict (v : Verdict) (t : TrainCtx) : TrainCtx :=
  match v with
  | .commit => { t with step := t.step + 1, updates := t.updates + 1, lagged := t.shadowLagged.getD t.lagged }
  | .skip => { t with step := t.step + 1, skips := t.skips + 1 }
  | .rollback => t

/-- A re-slice vote ends (R313): COMMIT makes the new layout's epoch that of V and closes the interval. -/
def endReslice (n : Nat) (v : Verdict) (s : State) : State :=
  let t := s.train n
  let s := s.onTrain n fun t => { t with rebuildRead := false, rebuild := none }
  if v ≠ .commit then s
  else alterationDone n 1 t.oldEpoch t.current (s.onTrain n fun t => { t with reslicing := false, vEpoch := t.current })

/-- The step's state in a context goes (R214). A BEGIN that waited for the vote applies in this stitch (R308). -/
def clearStep (s : State) (t : TrainCtx) : TrainCtx :=
  { t with
    begin := if t.voteStitch.isSome then t.begin.map fun b => { b with applyAt := s.stu.stitch, forced := false } else t.begin
    voteStitch := none, votedStitch := none, verdict := none, poisoned := false, shadowLagged := none,
    lastCommit := s.stu.stitch, everCommitted := true }

/-- The verdict that a device applies: a COMMIT that finds a staging copy incomplete inverts nothing, and the step is rolled back
(R145; DEDUCED, unsafe, assumption log 100). -/
def verdictAt (s : State) (n : Nat) (v : Verdict) : Verdict := if v = .commit ∧ ¬ stagingWhole s n then .rollback else v

/-- A verdict takes effect (R214, R313): versions, counters, the record's flags, the pressers' step, a waiting image, the next
clipf, the phase ledger, the lining. ABORTED ends (R270). -/
def applyVerdict (n : Nat) (held : Verdict) (s : State) : State :=
  let v := verdictAt s n held
  let reslicing := (s.train n).reslicing
  let commit : Bool := v == .commit
  let seen := seeLining n (commit && !reslicing) s
  let s := if commit then commitViews n (failShards n 1 s) else s
  let s := if reslicing then endReslice n v s
    else s.onTrain n fun t => { countVerdict v t with vEpoch := if commit then t.current else t.vEpoch }
  let s := match v with
    | .commit => s
    | .skip => phaseFlag n 0 s
    | .rollback => phaseFlag n 2 s
  let s := s.each (pressersOf s n) fun s k => resetStep k s
  let s := s.onBolt fun b => { b with regions := b.regions.map fun x =>
    (x.1, if x.2.ctx.val = n then { x.2 with stagedLines := 0 } else x.2) }
  let s := dropVote (voteTag s n) (s.onTrain n (clearStep s))
  let s := match (s.train n).staged with
    | some img => installImage n img s
    | none => s
  let s := s.onTrain n fun t => { t with clipf := openingClipf t }
  let s := s.onColCtx n fun c => { c with aborted := false }
  liningCommit n commit seen (closePhase n s)

/-- A context's commit stitch has come in the maintenance slot (R190). -/
def commitDue (s : State) (n : Nat) : Bool :=
  match (s.train n).voteStitch with
  | some v => activeTraining s n && inMaintenance s && !before s.stu.stitch (commitAt s n v) && !outOfService s
  | none => false

end Sys2Proof.Machine
end

