-- ==== Sys2Proof/Machine/Alterations.lean ====
section
/-! DEFINITION. The meanings of the alteration commands (11_alterations, R305 to R317). -/

namespace Sys2Proof.Machine

/-- The fields of an ALTER descriptor (Tables 11-2, 14-5): OP, AT, NEW_EPOCH. -/
def alterOp (b : List Byte) : Nat := leAt b 8 1

/-- AT. -/
def alterAt (b : List Byte) : Stitch := BitVec.ofNat 40 (leAt b 9 5)

/-- NEW_EPOCH. -/
def alterEpoch (b : List Byte) : Nat := leAt b 14 2

/-- The refusals of a BEGIN (Table 11-3), in the table's order. -/
def beginRefusal (s : State) (n : Nat) (b : List Byte) : Option (Nat × Nat × Nat) :=
  let t := s.train n
  if alterEpoch b = 0 ∨ alterEpoch b = t.current.toNat then some (0x33, alterEpoch b, t.current.toNat)
  else if before (alterAt b) (s.stu.stitch + 16) then
    some (0x28, (alterAt b).toNat % 2 ^ 32, s.stu.stitch.toNat % 2 ^ 32)
  else if t.begin.isSome ∨ (t.reslicing ∧ t.voteStitch.isSome) then some (0x2A, n, 0)
  else none

/-- A BEGIN is accepted with its boundary, or refused (R307, R308). -/
def readBegin (n : Nat) (d : Taken) (s : State) : State :=
  let b := d.bytes
  match beginRefusal s n b with
  | some (r, d0, d1) => refuse n d r d0 d1 s
  | none =>
    let p : PendingBegin :=
      { applyAt := alterAt b, newEpoch := BitVec.ofNat 16 (alterEpoch b), newRank := BitVec.ofNat 16 (leAt b 16 2),
        newMembers := BitVec.ofNat 16 (leAt b 18 2), newMirrorRank := BitVec.ofNat 16 (leAt b 20 2), forced := flag b 1,
        notify := flag b 0, ringIndex := d.index.toNat }
    s.onTrain n fun t => { t with begin := some p }

/-- An ALTER that is not a REBUILD: BEGIN, or an OP without a meaning, which is refused (Table 11-2). -/
def readAlter (n : Nat) (d : Taken) (s : State) : State :=
  if alterOp d.bytes = 0 then readBegin n d s else refuse n d 0x20 0xFFFF 0 s

/-- BEGIN: an ALTER descriptor whose OP is not REBUILD. -/
def execBegin (n : Ctx) (s : State) : Out :=
  .next (onDescriptor n.val 9 (fun b => alterOp b != 1) (readAlter n.val) s)

/-- N_a (R308): the commit stitch of a pending vote, unless the BEGIN is forced and AT comes before it; else AT. -/
def beginStitch (s : State) (n : Nat) (b : PendingBegin) : Stitch :=
  match (s.train n).voteStitch with
  | some v => if b.forced ∧ before b.applyAt (commitAt s n v) then b.applyAt else commitAt s n v
  | none => b.applyAt

/-- A BEGIN is due: N_a has come, in the maintenance slot. -/
def beginDue (s : State) (n : Nat) (b : PendingBegin) : Bool :=
  activeTraining s n && inMaintenance s && !outOfService s && !before s.stu.stitch (beginStitch s n b)

/-- Order 1 of Table 11-4 at N_a: the pending vote's verdict, or the ROLLBACK effects of a forced BEGIN, which cancel the vote
and count as no commit stitch. None while a scheduled one has no verdict. -/
def beginVerdict (n : Nat) (b : PendingBegin) (s : State) : Option State :=
  let t := s.train n
  let forcedNow : Bool := b.forced && (match t.voteStitch with
    | some v => before b.applyAt (commitAt s n v)
    | none => true)
  if forcedNow then
    some ((applyVerdict n .rollback s).onTrain n fun u => { u with
      cancelled := t.cancelled ++ t.voteStitch.toList, lastCommit := t.lastCommit, everCommitted := t.everCommitted })
  else match t.voteStitch, t.verdict with
    | none, _ => some s
    | some _, some v => some (applyVerdict n v s)
    | some _, none => none

/-- The entries of a context whose pattern carries another nonzero epoch are withdrawn (R137). -/
def withdrawEpoch (n : Nat) (s : State) : State :=
  s.each (s.work.entries.filter fun e => e.ctx.val == n) fun s e =>
    match patternOf s n e.handle with
    | some p =>
      let cur := (s.train n).current
      if p.epoch ≠ 0 ∧ p.epoch ≠ cur then withdrawNow 0x33 p.epoch.toNat cur.toNat e s else s
    | none => s

/-- The registers that a BEGIN writes (Table 11-4, orders 2 to 4 and 6). -/
def newLayout (n : Nat) (b : PendingBegin) (s : State) : State :=
  let s := s.onTrain n fun t => { t with
    oldEpoch := t.current, current := b.newEpoch, reslicing := true, rebuildRead := false, rebuild := none, begin := none
    vote := putFld (putFld t.vote 63 48 b.newMirrorRank.toNat) 31 16 b.newMembers.toNat }
  let s := s.onColCtx n fun c => { c with seq := Vector.replicate 6 0, largest := Vector.replicate 6 none }
  let s := s.onCtx n fun c => { c with rank := putFld c.rank 15 0 b.newRank.toNat }
  if liningCtx s = some n then s.onLin fun l => { l with lastEpoch := b.newEpoch } else s

/-- Orders 2 to 7 of Table 11-4, and the BEGIN's completion. -/
def applyBegin (n : Nat) (b : PendingBegin) (s : State) : State :=
  let s := withdrawEpoch n (newLayout n b s)
  let s := s.each (pressersOf s n) fun s k => resetStep k s
  let t := s.train n
  complete n 9 b.notify b.ringIndex 0 (alterationDone n 0 t.oldEpoch t.current s)

/-- BEGIN_APPLY (R309): at N_a the actions of Table 11-4 in order. -/
def execBeginApply (n : Ctx) (s : State) : Out :=
  match (s.train n.val).begin with
  | none => .next s
  | some b =>
    if ¬ beginDue s n.val b then .next s
    else match beginVerdict n.val b s with
      | some s' => .next (applyBegin n.val b s')
      | none => .next s

/-! REBUILD (R312). -/

/-- AMAX of an entry's re-sliced masters, in ascending order. -/
def rebuildAmax (s : State) (n : Nat) (e : PrsEntry) : W32 :=
  (wordsOf (shadowBytes s n e.mreg (64 * e.mline) (256 * e.blockCount))).foldl (fun m w => f32Max m (f32Abs w)) 0

/-- The SIGMA that REBUILD gives an entry: from AMAX, SIGMA_INIT when it is zero, the committed one when it is infinite or NaN. -/
def rebuildSigma (img : PrsImage) (e : PrsEntry) (bank : EntryBank) (amax : W32) : BitVec 8 :=
  if amaxBad amax then bank.sigma else (sigmaOf amax).getD (hyperOf img e.hp).sigmaInit

/-- One OWN entry is rebuilt: its shadow SIGMA and AMAX, and its working copy from the shadow masters. An entry whose copy was
restored is passed over (R342). -/
def rebuildEntry (n k : Nat) (img : PrsImage) (s : State) (x : PrsEntry × Nat) : State :=
  let (e, i) := x
  if e.wfmt = 3 ∨ ((s.presser k).own.getD i {}).copyRestored then s
  else
    let amax := rebuildAmax s n e
    let s := viewFinds n e.mreg true (64 * e.mline) (256 * e.blockCount) s
    let sigma := rebuildSigma img e ((s.presser k).own.getD i {}) amax
    let s := presserSat k (b2n (amaxBad amax)) s
    let s := onBank k false i (fun b => { b with shadowAmax := amax, shadowSigma := sigma, sigmaSet := true }) s
    s.each (List.range e.blockCount) fun s j =>
      writeCopy k n e j sigma (wordsOf (shadowBytes s n e.mreg (64 * (e.mline + 4 * j)) 256)) s

/-- Every presser of a context writes the working copies of the new layout (R312). -/
def rebuildCopies (n : Nat) (s : State) : State :=
  match (s.train n).image with
  | none => s
  | some img => s.each (pressersOf s n) fun s k => s.each (tableOf img false k).zipIdx (rebuildEntry n k img)

/-- A REBUILD is refused while RESLICING is clear (Table 11-3), else starts. -/
def readRebuild (n : Nat) (d : Taken) (s : State) : State :=
  if ¬ (s.train n).reslicing then refuse n d 0x20 0xFFFF 0 s
  else
    let s := s.each (pressersOf s n) fun s k => s.onPresser k fun p => { p with staging := [] }
    let s := meetQueues .presser s
    rebuildCopies n (s.onTrain n fun t => { t with
      rebuildRead := true
      rebuild := some { notify := flag d.bytes 0, ringIndex := d.index.toNat, complete := false } })

/-- REBUILD: an ALTER descriptor with OP REBUILD. -/
def execRebuild (n : Ctx) (s : State) : Out :=
  .next (onDescriptor n.val 9 (fun b => alterOp b == 1) (readRebuild n.val) s)

/-- REBUILD_DONE (R312): every working copy has been written, which clears the STAGING condition and completes the descriptor; a
copy that has no place to be written leaves the REBUILD incomplete. -/
def execRebuildDone (n : Ctx) (s : State) : Out :=
  match (s.train n.val).rebuild with
  | none => .next s
  | some r =>
    if r.complete ∨ (pressersOf s n.val).any fun k => !(s.presser k).staging.isEmpty || stageWaits s k then .next s
    else .next (complete n.val 9 r.notify r.ringIndex 0
      (s.onTrain n.val fun t => { t with rebuild := some { r with complete := true } }))

end Sys2Proof.Machine
end

