-- ==== Sys2Proof/Machine/Collectives.lean ====
section
/-! DEFINITION. The meanings of the abort commands and of the COL registers (09_collectives), and what the collectives do
at a stitch boundary. -/

namespace Sys2Proof.Machine

/-- An ABORT with a key that is not remembered (R269): remembered, forwarded on every ACTIVE port but the one it came from, and logged
in COL_ABORT_LOG. -/
def passAbort (port : Nat) (m : AbortMsg) (s : State) : State :=
  let s := rememberKey m s
  let s := s.each (allPorts.filter (· ≠ port)) fun s p => sendVc0 p (.abort m) s
  s.onCol fun c => { c with
    log0 := BitVec.ofNat 64 (m.cause.toNat * 2 ^ 56 + m.attempt.toNat * 2 ^ 40 + m.originStitch.toNat),
    log1 := BitVec.ofNat 64 (m.tag.toNat * 2 ^ 48 + m.origin.toNat % 2 ^ 15 * 2 ^ 32 + satAdd 32 (fld c.log1 31 0) 1) }

/-- ABORT (R269, R270): an ABORT of this device's group is passed on unless its key is remembered, and acted on by each context it
concerns. A FENCED port delivers none; COL_CTRL.ABORT_EN clear leaves only the forwarding. -/
def receiveAbort (port : Nat) (m : AbortMsg) (s : State) : State :=
  if (s.port port).state ≠ .active then s
  else if m.groupId.toNat ≠ fld s.stu.ctrl 31 16 then s
  else
    let acts := if abortEn s then abortActs s m false else []
    let s := if keyKnown s m then s else passAbort port m s
    s.each acts fun s n => actOnAbort n m true s

/-- ABORT. -/
def execAbort (port : PortId) (m : AbortMsg) (s : State) : Out := .next (receiveAbort port.val m s)

/-- A write of COL_ABORT (Table 9-9): SEND originates an ABORT for JOB_TAG with CAUSE 0x04. -/
def writeColAbort (v : W64) (s : State) : State :=
  let s' := if v &&& ~~~ (0x8000FFFF : W64) ≠ 0 then violate 0 0x02 s else s
  if bit v 31 then originateAbort (v.setWidth 16) 0x04 s' else s'

/-- ABORT_SEND (R267). -/
def execAbortSend (value : W64) (s : State) : Out :=
  .next (bar0Write (writeColAbort value) s)

/-- ABORT_KEY_EXPIRY (R269): keys remembered for 32 µs are forgotten. -/
def execAbortKeyExpiry (s : State) : Out :=
  .next (s.onCol fun c => { c with keys := c.keys.filter fun k => decide (s.ns < k.entered + 32000) })

/-- ABORTED_END (R270): a serving context's ABORTED clears at the first boundary at least 32 µs after receipt; a training
context's clears in its commit stitch (COMMIT_STITCH). -/
def execAbortedEnd (n : Ctx) (s : State) : Out :=
  let c := s.colCtx n.val
  if c.aborted ∧ (s.ctx n.val).serving ∧ c.abortPs + 32000 ≤ s.ns ∧ s.stu.pos = 0 then
    .next (s.onColCtx n.val fun c => { c with aborted := false })
  else .next s

/-- The units of a pool set (Table 9-10). -/
def creditUnits (v : W64) : Nat := fld v 9 0 + fld v 19 10 + fld v 29 20 + fld v 39 30 + fld v 49 40

/-- The pool setting of a context that a later boundary will leave in force (R266). -/
def creditToBe (c : ColCtx) : W64 := c.creditPending.getD c.credit

/-- A write of COL_CREDIT_n (R266): refused whole when the pools of all contexts in a hem die would exceed 1,024 units;
else it takes effect at the next boundary. -/
def writeColCredit (n : Nat) (v : W64) (s : State) : State :=
  let others := ((List.range 16).filter (· ≠ n)).map fun k => creditUnits (creditToBe (s.colCtx k))
  let new := v &&& mask64 49 0
  if 1024 < others.sum + creditUnits v then
    if new = creditToBe (s.colCtx n) ∧ v = new then s else violate 0 0x02 s
  else
    let s' := s.onColCtx n fun c => { c with creditPending := some new }
    if v = new then s' else violate 0 0x02 s'

/-- COL_CREDIT_WRITE. -/
def execColCreditWrite (n : Ctx) (value : W64) (s : State) : Out :=
  .next (bar0Write (writeColCredit n.val value) s)

/-- A context has an arm entry. -/
def hasEntry (s : State) (n : Nat) : Bool := s.work.entries.any fun e => e.ctx.val == n

/-- A write of COL_SEQ_n_v (R273): refused while the context has any arm entry and the value differs. -/
def writeColSeq (n v : Nat) (value : W64) (s : State) : State :=
  let new := value.setWidth 32
  let rsv : Bool := value &&& ~~~ mask64 31 0 ≠ 0
  if hasEntry s n ∧ new ≠ seqOf (s.colCtx n) v then violate 0 0x02 s
  else
    let s' := s.onColCtx n fun c => { c with seq := vMod c.seq (v - 1) fun _ => new }
    if rsv then violate 0 0x02 s' else s'

/-- COL_SEQ_WRITE: channel VC_(v+1). -/
def execColSeqWrite (n : Ctx) (v : Fin 6) (value : W64) (s : State) : Out :=
  .next (bar0Write (writeColSeq n.val (v.val + 1) value) s)

/-- LENT of COL_BOOK_n: the credits lent now in both hem dies (Table 9-10). -/
def lentBoth (c : ColCtx) : Nat := min 65535 (lentIn c 0 + lentIn c 1)

/-- A write of COL_BOOK_n: PEAK_CLR resets PEAK to LENT (Table 9-10). -/
def writeColBook (n : Nat) (v : W64) (s : State) : State :=
  let s' := if v &&& mask64 62 32 ≠ 0 then violate 0 0x02 s else s
  if bit v 63 then s'.onColCtx n fun c => { c with peak := BitVec.ofNat 16 (lentBoth c) } else s'

/-- PEAK_CLR. -/
def execPeakClr (n : Ctx) (value : W64) (s : State) : Out :=
  .next (bar0Write (writeColBook n.val (value ||| at64 63 1)) s)

/-! At a stitch boundary. -/

/-- Every cell still queued for the entries of the ended stitch is discarded, counted in UNSENT, its credit returned
(R237). -/
def unsentDiscard (m : Nat) (s : State) : State :=
  let k := ((s.port m).streams.map fun t => t.tx.length).sum
  (discardStreams m s).onPort m fun p => { p with unsent := satAdd 32 p.unsent k }

/-- A credit book that is not balanced at the boundary (R264): the record names context, channel and credits. -/
def creditCheck (n : Nat) (s : State) : State :=
  let lent := (s.colCtx n).lent
  s.each (List.range 16) fun s k =>
    let c := Tab.getD lent k 0
    if c = 0 then s
    else declareFault (faultRec s 0x18 4 9 (k / 8) 0 0 0 0 (n % 16 + 256 * (k % 8) + 65536 * min c 65535)) s

/-- SEQ_v advances by one more than the largest nonnegative offset taken in the stitch (R260). -/
def seqAdvance (n : Nat) (s : State) : State :=
  s.onColCtx n fun c => { c with
    seq := (Vector.zip c.seq c.largest).map fun x => match x.2 with
      | some o => x.1 + o + 1
      | none => x.1
    largest := Vector.replicate 6 none }

/-- A credit setting written before takes effect (R266). -/
def creditApply (n : Nat) (s : State) : State :=
  s.onColCtx n fun c => { c with credit := creditToBe c, creditPending := none }

end Sys2Proof.Machine
end

