-- ==== Sys2Proof/Machine/Faults.lean ====
section
/-! DEFINITION. The meanings of the commands of faults, hangs, resets and power (13_faults_and_resets, R354 to R369;
16_bringup_and_test, R417 to R421; 17_package_and_electrical, R440 to R443). -/

namespace Sys2Proof.Machine

/-- A heartbeat source is sampled (R354): its domain is on, a presser's EN is set, no reset reaches it. -/
def sampled (s : State) (u : Nat) : Bool :=
  let unitReset (kind i : Nat) : Bool := s.flt.unitBusy && s.flt.unitKind == kind && s.flt.unitIndex == i
  if u < 8 then decide (u < s.nPanels) && !s.flt.heldPanels.getLsbD u && !unitReset 3 u
  else if u < 16 then
    decide (u - 8 < s.nPanels) && !s.flt.heldStacks.getLsbD (u - 8) && presserBound s (u - 8) && !unitReset 6 (u - 8)
  else true

/-- The hang record of a source (Table 13-4): SEQ_HANG, PRESSER_HANG, STITCH_HANG or SERVING_HANG. -/
def hangRecord (s : State) (u : Nat) : FaultRec :=
  let beat := (vAt s.flt.beats u 0).toNat
  if u < 8 then faultRec s 0x01 4 0x03 u 0 0 1 0 beat
  else if u < 16 then faultRec s 0x02 4 0x07 (u - 8) 0 0 1 0 beat
  else if u = 16 then faultRec s 0x03 4 0x0A 0 0 0 1 0 beat
  else faultRec s 0x04 4 0x0B 0 0 0 1 0 beat

/-- A source's counter has changed since the last sample: as observed, or as a panel sequencer's by the maintenance slot (R16). -/
def beatMoved (s : State) (observed : Bool) (u : Nat) : Bool := observed || (decide (u < 8) && s.flt.beaten.getLsbD u)

/-- One source at a sample: `moved` tells that its counter changed since the last sample. The third miss in a row declares
the hang, or is only logged while HANG_EN is clear (R354, R355). -/
def sampleOne (moved : Bool) (u : Nat) (s : State) : State :=
  if ¬ sampled s u then s.onFlt fun f => { f with misses := vMod f.misses u fun _ => 0 }
  else if moved then
    s.onFlt fun f => { f with
      misses := vMod f.misses u fun _ => 0
      beats := if u < 8 ∧ f.beaten.getLsbD u then f.beats else vMod f.beats u fun b => b + 1 }
  else
    let m := vAt s.flt.misses u 0 + 1
    let s := s.onFlt fun f => { f with misses := vMod f.misses u fun _ => m }
    if m ≠ 3 then s
    else if bit s.flt.ctrl 2 then
      let s := s.onFlt fun f => { f with hung := f.hung ||| BitVec.ofNat 18 (2 ^ u) }
      if s.flt.phase = .none then declareFault (hangRecord s u) s
      else postRecord { hangRecord s u with contexts := contextMask (liveContexts s) } s
    else logGeneral 0x04 0 [2, BitVec.ofNat 8 u] s

/-- HEARTBEAT_SAMPLE (R354, R355): Thimble samples every source; bit u of `beats` tells that source u's counter moved by more than
what the maintenance slots wrote.
Nothing is sampled while Thimble restarts or is halted, nor during a device reset. -/
def execHeartbeatSample (beats : BitVec 18) (s : State) : Out :=
  if s.thm.restarting ∨ s.thm.halted ∨ s.flt.phase ≠ .none ∨ s.flt.resetting then .next s
  else
    let s := s.each (List.range 18) fun s u => sampleOne (beatMoved s (beats.getLsbD u) u) u s
    .next (s.onFlt fun f => { f with beaten := 0 })

/-- The steps of a device reset from step 2 on (Table 13-10): everything of the Device column cleared, a pending image
booted, the fuse maps applied, the enabled ports retuned. -/
def resetDomains (s : State) : State :=
  let f := s.flt
  let s := deviceClear s
  let s := s.onFlt fun x => { x with
    phase := .running, resetting := true, counted := true, lastCause := f.pendingCause, lastTrigger := f.pendingTrigger
    resets := if f.counted then x.resets else satInc x.resets 1 }
  let s := if s.thm.updatePending ∨ s.thm.activeB ≠ s.thm.runningB then boot true s else s
  let s := applyFuses s
  s.each (List.range 16) fun s m =>
    if bit (s.port m).cfg 0 then
      (retrain m (!(s.port m).saved) s).onPort m fun p => { p with powered := true }
    else s

/-- RESET_HOLD_END (R359, Table 13-10): after the hold the reset proceeds; for a device fault with AUTO_RESET clear the
device stops instead, with every context FAULTED. -/
def execResetHoldEnd (s : State) : Out :=
  if s.flt.phase ≠ .hold then .next s
  else if s.flt.pendingTrigger = 1 ∧ ¬ bit s.flt.ctrl 1 ∧ s.flt.restarts = 0 then
    .next (s.onFlt fun f => { f with phase := .stopped, resetting := false })
  else .next (resetDomains s)

/-- DEVICE_RESET (R361): FLT_RESET.CMD DEVICE, with whatever else the value carries. -/
def execDeviceReset (value : W64) (s : State) : Out := .next (writeFltReset (putFld value 1 0 1) s)

/-- The PCIe links train where PERST# is deasserted and the link is not up (R419). -/
def trainLinks (s : State) : State :=
  s.onPower fun p => { p with
    linkH := if p.perstH then .down else if p.linkH = .down then .l0 else p.linkH
    linkS := if p.perstS ∨ ¬ s.straps.portS then .down else if p.linkS = .down then .l0 else p.linkS }

/-- DEVICE_RESET_DONE (R364 step 8, R366, R427). -/
def execDeviceResetDone (o : ResetObs) (s : State) : Out :=
  if s.flt.phase ≠ .running then .next s else .next (trainLinks (finishReset o s))

/-- UNIT_RESET (R363): FLT_RESET.CMD UNIT. -/
def execUnitReset (value : W64) (s : State) : Out := .next (writeFltReset (putFld value 1 0 2) s)

/-- UNIT_RESET_DONE (R363): the running unit reset ends, or fails and holds its unit off. -/
def execUnitResetDone (ok : Bool) (s : State) : Out :=
  if s.flt.unitBusy then .next (endUnitReset ok s) else .next s

/-- A write of FLT_VIOL_n (Table 13-18). -/
def writeFltViol (n : Nat) (v : W64) (s : State) : State :=
  let s := if bit v 32 then s.onFlt fun f => { f with viol := vMod f.viol n fun _ => {} } else s
  if v &&& mask64 55 33 ≠ 0 then violate 0 0x02 s else s

/-- FLT_VIOL_CLR (R367): CLR written 1. -/
def execFltViolClr (n : Ctx) (value : W64) (s : State) : Out := .next (writeFltViol n.val (putFld value 32 32 1) s)

/-- POWER_DOWN (R368): PWR_OFF written 1. -/
def execPowerDown (g : BandId) (value : W64) (s : State) : Out := .next (writeFltBand g.val (putFld value 0 0 1) s)

/-- A boundary has come after the one at which a band's power state last changed, and its maintenance slot lasts. -/
def laterBoundary (s : State) (g : Nat) : Bool := decide ((s.band g).since < s.stu.marks) && inMaintenance s

/-- BAND_DOMAIN_OFF (R368): at the boundary after the fencing the domain switches off and the scratch is lost. -/
def execBandDomainOff (g : BandId) (s : State) : Out :=
  if (s.band g.val).state = .poweringDown ∧ laterBoundary s g.val then
    .next ((clearBand g.val (disownTorn g.val s)).onBand g.val fun b => { b with state := .off })
  else .next s

/-- POWER_UP (R368): PWR_OFF written 0. -/
def execPowerUp (g : BandId) (value : W64) (s : State) : Out := .next (writeFltBand g.val (putFld value 0 0 0) s)

/-- BAND_ON (R368, R387): the first boundary after the band's reset; a band under a unit reset or a test waits for its
own end. -/
def execBandOn (g : BandId) (s : State) : Out :=
  let b := s.band g.val
  if laterBoundary s g.val ∧
      (b.state = .poweringUp ∨ (b.state = .resetting ∧ ¬ b.test ∧ ¬ bandUnitReset s g.val ∧ ¬ s.flt.resetting)) then
    .next (bandBecomesOn g.val s)
  else .next s

/-- DROPS_CLR (R368): DROPS_CLR written 1. -/
def execDropsClr (g : BandId) (value : W64) (s : State) : Out := .next (writeFltBand g.val (putFld value 1 1 1) s)

/-- A power-on begins (R417 to R421, Table 16-1): every register at its reset value, Thimble boots, the fuse maps are
applied, the enabled ports train. -/
def startPowerOn (s : State) : State :=
  let s := applyFuses (boot true (powerOnClear s))
  s.each (List.range 16) fun s m => (startTraining m true s).onPort m fun p => { p with powered := true }

/-- POWER_ON (R417): the input enters its operating range. -/
def execPowerOn (s : State) : Out := .next (startPowerOn s)

/-- POWER_ON_DONE (R417 step 10, R419, R427): the mode is decided, RESETTING clears, the PCIe links are up where PERST# is
deasserted. -/
def execPowerOnDone (o : ResetObs) (s : State) : Out :=
  if s.flt.phase ≠ .powerOn ∨ ¬ s.power.inputOk then .next s
  else .next (trainLinks (finishReset o s))

/-- The SUPPLY record of a rail (Tables 13-4, 13-5). -/
def supplyRecord (s : State) (rail mv : Nat) : FaultRec :=
  faultRec s 0x22 4 0x0C rail 0 mv 1 0 (railAbsolute s rail mv)

/-- A rail's comparator trips (R408, R440, R442): SUPPLY is declared and PWRGD falls. A rail held off trips nothing. -/
def supplyTrip (rail mv : Nat) (s : State) : State :=
  if railHeld s rail ∨ railAbsolute s rail mv = 0 then s
  else (declareFault (supplyRecord s rail mv) s).onPower fun p => { p with pwrgd := false }

/-- INPUT_LOSS (R442, R418): outside the absolute range SUPPLY is declared and every rail group but always-on drops; the
always-on group drops below 20 V. During a power-on leaving the operating range drops them. -/
def execInputLoss (mv : Nat) (s : State) : Out :=
  let during := s.flt.phase = .powerOn
  if ¬ s.power.inputOk ∨ (if during then railOperating s 31 mv = true else railAbsolute s 31 mv = 0) then .next s
  else
    let s := if during then s else supplyTrip 31 mv s
    let s := s.onPower fun p => { p with inputOk := false, alwaysOn := decide (20000 ≤ mv), pwrgd := false }
    .next (s.onFlt fun f => { f with phase := .powerOn, resetting := true })

/-- INPUT_RETURN (R418, R442): back in range for 100 ms, the power-on restarts from step 1. -/
def execInputReturn (s : State) : Out := if s.power.inputOk then .next s else .next (startPowerOn s)

/-- HOT_RESET (R361): a hot reset or a function level reset of port H. -/
def execHotReset (k : HotResetKind) (s : State) : Out :=
  match k with
  | .hotReset => .next (requestReset 5 s)
  | .functionLevel => .next (requestReset 5 s)

/-- PCIE_LOOPBACK (R425): the link partner puts a trained port into specification loop-back; Melra posts nothing. -/
def execPcieLoopback (p : PciePort) (s : State) : Out :=
  let enter (l : LinkState) : LinkState := if l = .l0 then .loopback else l
  match p with
  | .h => .next (s.onPower fun x => { x with linkH := enter x.linkH })
  | .s => .next (s.onPower fun x => { x with linkS := enter x.linkS })

/-- PCIE_LOOPBACK_EXIT (R425): the link returns to L0. -/
def execPcieLoopbackExit (p : PciePort) (s : State) : Out :=
  let leave (l : LinkState) : LinkState := if l = .loopback then .l0 else l
  match p with
  | .h => .next (s.onPower fun x => { x with linkH := leave x.linkH })
  | .s => .next (s.onPower fun x => { x with linkS := leave x.linkS })

/-- PANEL_THERMAL (R407): the junction comparator trips at 100 °C, whether or not Thimble runs. -/
def execPanelThermal (sensor : Fin 96) (s : State) : Out :=
  if s.nPanels ≤ sensor.val / 12 ∨ ¬ s.power.inputOk then .next s
  else .next (declareFault (faultRec s 0x21 4 0x03 (sensor.val / 12) 0 0 1 0 sensor.val) s)

/-- SUPPLY (R408, R440): a rail's reading outside its absolute range. -/
def execSupply (rail : Fin 32) (mv : Nat) (s : State) : Out :=
  if s.power.inputOk then .next (supplyTrip rail.val mv s) else .next s

/-- CLOCK_LOST's record (Tables 13-4, 13-5). -/
def clockRecord (s : State) (d : Nat) : FaultRec :=
  if d < 8 then faultRec s 0x23 4 0x03 d 0 0 1 0 d
  else if d < 16 then faultRec s 0x23 4 0x06 (d - 8) 0 (tempWord s (d - 8)) 1 0 d
  else if d = 20 then faultRec s 0x23 4 0x09 0 0 0 1 0 d
  else faultRec s 0x23 4 0x0A 0 0 0 1 0 d

/-- An on-demand test stops for a Thimble restart (Table 16-6); its unit reset runs when Thimble is running again. -/
def stopTestForThimble (s : State) : State :=
  if s.tst.busy then s.onTst fun t => { t with result := 0x06, stopping := true } else s

/-- Thimble stops and will restart from ROM (R392): counted, logged, halted by a second restart within 10 minutes of the
first; during a device reset it counts as a device fault (Table 15-17). -/
def thimbleRestart (s : State) : State :=
  let again := match s.thm.firstRestart with
    | some t => decide (s.ns - t < 600000000000)
    | none => false
  let s := s.onThm fun t => { t with
    restarts := satInc t.restarts 1, restarting := !again, halted := again,
    firstRestart := if again then t.firstRestart else some s.ns }
  let s := stopTestForThimble (logCritical 0x0A [] s)
  if s.flt.phase = .hold ∨ s.flt.phase = .running then triggerReset 1 0 s else s

/-- THIMBLE_RESTART (R392). -/
def execThimbleRestart (s : State) : Out := if s.thm.halted then .next s else .next (thimbleRestart s)

/-- THIMBLE_RESTART_DONE (R392, R398): Thimble has verified its image and runs again; misses restart from zero and the
records held meanwhile are posted. -/
def execThimbleRestartDone (s : State) : Out :=
  if ¬ s.thm.restarting then .next s
  else
    let s := boot false (s.onThm fun t => { t with restarting := false })
    let held := s.flt.deferred
    let s := s.onFlt fun f => { f with misses := Vector.replicate 18 0, deferred := [] }
    .next (s.each held fun s r => postRecord r s)

/-- CLOCK_LOST (R410, Table 15-12). -/
def execClockLost (domain : Fin 25) (s : State) : Out :=
  let d := domain.val
  let s' := s.onThm fun t => { t with clkLock := t.clkLock &&& ~~~ (BitVec.ofNat 25 (2 ^ d)) }
  if d = 24 then .next s
  else if d < 16 ∧ s.nPanels ≤ d % 8 then .next s
  else if d < 16 ∨ d = 20 ∨ d = 22 then .next (declareFault (clockRecord s' d) s')
  else if d < 20 then
    .next (s'.each ((List.range 4).map (4 * (d - 16) + ·)) fun s m =>
      if (s.port m).state = .active then losePort m .laneLock 0 s else s)
  else .next (stopTestForThimble (s'.onThm fun t => { t with restarting := !t.halted }))

/-- CLOCK_RETURN (R410): once both of Thimble's clocks run again, Thimble restarts under R392. -/
def execClockReturn (domain : Fin 25) (s : State) : Out :=
  let d := domain.val
  if d = 24 ∨ s.thm.clkLock.getLsbD d then .next s
  else
    let s := s.onThm fun t => { t with clkLock := t.clkLock ||| BitVec.ofNat 25 (2 ^ d) }
    if (d = 21 ∨ d = 23) ∧ s.thm.clkLock.getLsbD 21 ∧ s.thm.clkLock.getLsbD 23 ∧ ¬ s.thm.halted then
      .next (thimbleRestart s)
    else .next s

end Sys2Proof.Machine
end

