-- ==== Sys2Proof/Machine/Thimble.lean ====
section
/-! DEFINITION. The meanings of Thimble's commands (15_thimble): sensors, the PLDM heartbeat, store commits, the mailbox,
and the requests of the BMC over MCTP, PLDM and SPDM. The bytes of a response are a free value of what Thimble puts into
it, since other documents give their layout (DESIGN CHOICE, safe, assumption log 37). -/

namespace Sys2Proof.Machine

/-- Thimble is running: neither restarting nor halted (R392). -/
def thimbleRuns (s : State) : Bool := !s.thm.restarting && !s.thm.halted

/-- The hottest of a panel's 12 readings. -/
def hottestOf (r : List Int) (p : Nat) : Int := ((r.drop (12 * p)).take 12).foldl max (r.getD (12 * p) 0)

/-- One panel's thermal management at a sensor read (R407): the reason is raised with target 18 at 90 °C; at 85 °C or less
on every sensor the panel may return to nominal clock. -/
def managePanel (h : Int) (p : Nat) (s : State) : State :=
  let k := vAt s.thm.panels p {}
  let s := s.onThm fun t => { t with panels := vMod t.panels p fun x => { x with
    hottest := BitVec.ofInt 16 h
    targetK := if 1440 ≤ h ∧ x.targetK = 16 then 18 else x.targetK
    hot := if 1440 ≤ h ∧ x.targetK = 16 then 0 else x.hot
    nominal := if 1440 ≤ h then 0 else x.nominal
    cooled := if 1440 ≤ h then false else if h ≤ 1360 ∧ x.targetK ≠ 16 then true else x.cooled } }
  if 1440 ≤ h ∧ k.targetK = 16 then platformEvent 0x09 [0, BitVec.ofNat 8 p] (logGeneral 0x09 0 [0, BitVec.ofNat 8 p, 1] s)
  else s

/-- PANEL_SENSOR_READ (R406, R407): the 96 junction readings, in 0.0625 °C. The sensors of a panel not presented read 0. -/
def execPanelSensorRead (readings : List Int) (s : State) : Out :=
  if ¬ thimbleRuns s then .next s
  else
    let r := (List.range 96).map fun i => if i / 12 < s.nPanels then readings.getD i 0 else 0
    let s := s.each (List.range 96) fun s i => takeReading i (r.getD i 0) s
    .next (s.each (presented s) fun s p => managePanel (hottestOf r p) p s)

/-- PLDM_HEARTBEAT (R402): sent to the receiver that the BMC set, not while Thimble restarts or is halted. -/
def execPldmHeartbeat (s : State) : Out :=
  if s.thm.receiver.isSome ∧ thimbleRuns s then .next (s.emit .pldmHeartbeat) else .next s

/-- STORE_COMMIT_DONE (R394): FLASH_BUSY clears; an accepted certificate whose nonce this commit holds reports 0x00. -/
def execStoreCommitDone (s : State) : Out :=
  if ¬ s.thm.flashBusy then .next s
  else
    let cert := s.thm.commitCert
    let s := s.onThm fun t => { t with flashBusy := false, generation := t.generation + 1, commitCert := false }
    if ¬ cert then .next s
    else if s.lin.certBmc then
      .next ((s.onLin fun l => { l with certBmc := false }).emit (.mctp .i3c (Config.encodeResponse 0x3F02 [[0]])))
    else .next (s.onLin fun l => { l with certResult := 0 })

/-- TRIAL_TIMEOUT (R398): the trial image is abandoned and a device reset starts at once. -/
def execTrialTimeout (s : State) : Out :=
  if ¬ s.thm.trial then .next s else .next (revertReset (abandonTrial s))

/-! The mailbox (Table 15-9). -/

/-- LOG_READ (R411, R415). -/
def execLogRead (value : W64) (s : State) : Out := .next (mboxCommand 0x01 value s)

/-- CLEAR_CRITICAL (R412). -/
def execClearCritical (value : W64) (s : State) : Out := .next (mboxCommand 0x02 value s)

/-- SENSOR_SNAPSHOT (R406). -/
def execSensorSnapshot (value : W64) (s : State) : Out := .next (mboxCommand 0x03 value s)

/-- PUBKEY_ADD (R414). -/
def execPubkeyAdd (value : W64) (s : State) : Out := .next (mboxCommand 0x04 value s)

/-- PUBKEY_REMOVE (R414). -/
def execPubkeyRemove (value : W64) (s : State) : Out := .next (mboxCommand 0x05 value s)

/-- KEY_REMOVAL_DONE (R350, R414): the bundles under the key have completed; the key goes and VERIFIED clears. -/
def execKeyRemovalDone (slot : Fin 16) (s : State) : Out :=
  if s.thm.removal ≠ some slot then .next s
  else
    let waits := match vAt s.thm.pubKeys slot.val none with
      | some k => bundleUses s (keyId k)
      | none => false
    if waits then .next s
    else
      let s' := (removeKey slot.val s).onThm fun t => { t with removal := none }
      .next (if s.thm.mbox.isSome then mboxDone 0x00 s' else s')

/-- PUBKEY_LIST (R414). -/
def execPubkeyList (value : W64) (s : State) : Out := .next (mboxCommand 0x06 value s)

/-- FUSE_ADD (R413). -/
def execFuseAdd (value : W64) (s : State) : Out := .next (mboxCommand 0x07 value s)

/-- FUSE_READ (R413). -/
def execFuseRead (value : W64) (s : State) : Out := .next (mboxCommand 0x08 value s)

/-- FUSE_CLEAR (R413). -/
def execFuseClear (value : W64) (s : State) : Out := .next (mboxCommand 0x09 value s)

/-- IDENTITY (R404). -/
def execIdentity (value : W64) (s : State) : Out := .next (mboxCommand 0x0A value s)

/-- A write of THM_SENSOR_SEL (Table 15-16): INDEX, and MAX_CLR of the sensor it then selects. -/
def writeSensorSel (v : W64) (s : State) : State :=
  let s := if v &&& (mask64 63 16 ||| mask64 14 9) ≠ 0 then violate 0 0x02 s else s
  let s := s.onThm fun t => { t with sensorSel := BitVec.ofNat 64 (fld v 8 0) }
  if bit v 15 then s.onThm fun t => { t with sensorMax := Tab.put t.sensorMax (fld v 8 0) (Tab.getD t.sensors (fld v 8 0) 0) } else s

/-- SENSOR_MAX_CLR (R406): MAX_CLR written 1. -/
def execSensorMaxClr (value : W64) (s : State) : Out := .next (writeSensorSel (putFld value 15 15 1) s)

/-! Requests of the BMC (R401 to R405). -/

/-- Thimble answers a request; in recovery it accepts only MCTP control and PLDM types 0 and 5 (R398); while it restarts it
answers nothing. `code` names the command to the encoder. -/
def answer (t : Transport) (inRecovery : Bool) (code : Nat) (parts : List (List Byte)) (s : State) : State :=
  if ¬ thimbleRuns s then s
  else if s.thm.recovery ∧ ¬ inRecovery then s.emit (.mctpError t)
  else s.emit (.mctp t (Config.encodeResponse code parts))

/-- An OEM command (Table 15-7): during a Thimble restart it reports 0x01 and changes nothing (Table 15-17). -/
def oemAnswer (t : Transport) (code : Nat) (f : State → Nat × List Byte × State) (s : State) : State :=
  if ¬ thimbleRuns s then s.emit (.mctp t (Config.encodeResponse code [[0x01]]))
  else if s.thm.recovery then s.emit (.mctpError t)
  else
    let (r, bs, s) := f s
    s.emit (.mctp t (Config.encodeResponse code [[BitVec.ofNat 8 r], bs]))

/-- OEM DEVICE_RESET (R361, Table 15-7): LAST_TRIGGER 3. -/
def execOemDeviceReset (t : Transport) (s : State) : Out :=
  .next (oemAnswer t 0x3F01 (fun s => (0, [], requestReset 3 s)) s)

/-- OEM LOG_READ: entries from a SEQ on, up to 16. -/
def execOemLogRead (t : Transport) (seq : BitVec 32) (s : State) : Out :=
  .next (oemAnswer t 0x3F03 (fun s => (0, logFrom s seq 16, s)) s)

/-- OEM PUBKEY: as the mailbox commands; HOST_KEYS does not bind the BMC (R414). -/
def oemPubkeyRun (op : PubkeyOp) (s : State) : Nat × List Byte × State :=
  match op with
  | .add k => let (r, s) := addKey k s; (r, [], s)
  | .list => (0, keyListBytes s, s)
  | .remove i =>
    match vAt s.thm.pubKeys i.val none with
    | none => (0x06, [], s)
    | some k =>
      if bundleUses s (keyId k) then (0, [], s.onThm fun t => { t with removal := some i }) else (0, [], removeKey i.val s)

/-- OEM PUBKEY. -/
def execOemPubkey (t : Transport) (op : PubkeyOp) (s : State) : Out := .next (oemAnswer t 0x3F04 (oemPubkeyRun op) s)

/-- OEM FUSE: as the mailbox commands. -/
def oemFuseRun (op : FuseOp) (s : State) : Nat × List Byte × State :=
  match op with
  | .add m e => if 3 ≤ m then (0x06, [], s) else let (r, s) := addFuse m e s; (r, [], s)
  | .read m => if 3 ≤ m then (0x06, [], s) else (0, fuseBytes s m, s)
  | .clear m => if 3 ≤ m then (0x06, [], s) else (0, [], clearFuses m s)

/-- OEM FUSE. -/
def execOemFuse (t : Transport) (op : FuseOp) (s : State) : Out := .next (oemAnswer t 0x3F06 (oemFuseRun op) s)

/-- The states of the power and clock domains (Tables 15-11, 15-12): the words of THM_DOM_ON, THM_DOM_HELD and
THM_CLK_LOCK. -/
def domainBytes (s : State) : List Byte :=
  ([0, 1, 2].map fun k => leBytes 8 (domainWord (domainOn s) k).toNat).flatten ++
  ([0, 1, 2].map fun k => leBytes 8 (domainWord (domainHeld s) k).toNat).flatten ++
  leBytes 8 s.thm.clkLock.toNat

/-- OEM DOMAIN_STATE. -/
def execDomainState (t : Transport) (s : State) : Out := .next (oemAnswer t 0x3F07 (fun s => (0, domainBytes s, s)) s)

/-- MCTP_CONTROL (R401): Set Endpoint ID (command 0x01 of DSP0236) gives the endpoint its ID on that transport. -/
def execMctpControl (t : Transport) (command : Byte) (eid : Byte) (s : State) : Out :=
  if ¬ thimbleRuns s then .next s
  else
    let s := if command ≠ 0x01 then s
      else match t with
        | .i3c => s.onThm fun x => { x with eidI3c := eid }
        | .pcie => s.onThm fun x => { x with eidPcie := eid }
    .next (answer t true 0x0000 [[command], [s.thm.eidI3c, s.thm.eidPcie]] s)

/-- GET_TID (Table 15-5). -/
def execGetTid (t : Transport) (s : State) : Out := .next (answer t true 0x0002 [] s)

/-- GET_PLDM_VERSION (Table 15-5). -/
def execGetPldmVersion (t : Transport) (pldmType : Byte) (s : State) : Out := .next (answer t true 0x0003 [[pldmType]] s)

/-- GET_PLDM_TYPES (Table 15-5): types 0, 2, 4, 5 and 63. -/
def execGetPldmTypes (t : Transport) (s : State) : Out := .next (answer t true 0x0004 [[0, 2, 4, 5, 63]] s)

/-- GET_PLDM_COMMANDS (Table 15-5). -/
def execGetPldmCommands (t : Transport) (pldmType : Byte) (s : State) : Out :=
  .next (answer t true 0x0005 [[pldmType]] s)

/-- SENSOR_READING (R406): sensor ID index + 1. -/
def execSensorReading (t : Transport) (sensorId : Nat) (s : State) : Out :=
  let known := 1 ≤ sensorId ∧ sensorId ≤ 307
  .next (answer t false 0x0211
    (if known then [[0], leBytes 4 (Tab.getD s.thm.sensors (sensorId - 1) 0).toNat] else [[1]]) s)

/-- The switched power domains of the grade (R6, Table 0-2): populated, and held off. -/
def domainCounts (s : State) : List Byte := leBytes 1 (if s.straps.grade7 then 151 else 170) ++ leBytes 1 (if s.straps.grade7 then 19 else 0)

/-- PDR_REPOSITORY (Table 15-5): a record per sensor of Table 15-8, and the domain counts of the inventory (R6). -/
def execPdrRepository (t : Transport) (s : State) : Out := .next (answer t false 0x0251 [leBytes 2 307, domainCounts s] s)

/-- SET_EVENT_RECEIVER (R402). -/
def execSetEventReceiver (t : Transport) (receiver : Byte) (enable : Bool) (s : State) : Out :=
  if ¬ thimbleRuns s ∨ s.thm.recovery then .next (answer t false 0x0204 [] s)
  else .next (answer t false 0x0204 [] (s.onThm fun x => { x with receiver := if enable then some receiver else none }))

/-- The part number, grade, serial and stepping (Tables 14-9, 15-5). -/
def identityBytes (s : State) : List Byte :=
  leBytes 2 (if s.straps.grade7 then 0x7028 else 0x8032) ++ leBytes 1 s.nPanels ++ leBytes 8 Config.serial.toNat ++
    leBytes 1 Config.stepping.toNat

/-- FRU_RECORD (Table 15-5), with the domain counts of the inventory (R6). -/
def execFruRecord (t : Transport) (s : State) : Out := .next (answer t false 0x0402 [identityBytes s, domainCounts s] s)

/-! Firmware update (R399). -/

/-- The inactive image region with new contents. -/
def setInactive (b : List Byte) (s : State) : State :=
  s.onThm fun t => if t.runningB then { t with imageA := b } else { t with imageB := b }

/-- The inactive image. -/
def inactiveImage (s : State) : List Byte := imageOf s.thm (!s.thm.runningB)

/-- REQUEST_UPDATE (R399): the inactive region is erased and a transfer begins. -/
def execRequestUpdate (t : Transport) (s : State) : Out :=
  if ¬ thimbleRuns s then .next s
  else
    let s := (setInactive [] s).onThm fun x => { x with update := .transferring, updateVia := t }
    .next (answer t true 0x0510 [[0]] (logCritical 0x08 [0x10] s))

/-- TRANSFER_COMPLETE (R399): the image stands in the inactive region. -/
def execTransferComplete (image : Bytes) (s : State) : Out :=
  if s.thm.update ≠ .transferring then .next s
  else .next ((setInactive image s).onThm fun x => { x with update := .transferred })

/-- VERIFY_COMPLETE (R399): success only for an image valid under R395. -/
def execVerifyComplete (s : State) : Out :=
  if s.thm.update ≠ .transferred ∨ ¬ thimbleRuns s then .next s
  else
    let ok := imageValid s (inactiveImage s)
    let s := s.onThm fun x => { x with update := if ok then .verified else .idle }
    .next (answer s.thm.updateVia true 0x0517 [[if ok then 0 else 1]] (logCritical 0x08 [0x17] s))

/-- ACTIVATE_FIRMWARE (R399): the written image is pending for the next device reset or power-on. -/
def execActivateFirmware (t : Transport) (s : State) : Out :=
  if s.thm.update ≠ .verified ∨ ¬ thimbleRuns s then .next (answer t true 0x051A [[1]] s)
  else
    let s := s.onThm fun x => { x with update := .idle, updatePending := true, attempts := 0, flashBusy := true }
    .next (answer t true 0x051A [[0]] (logCritical 0x08 [0x1A] s))

/-- QUERY_DEVICE_IDENTIFIERS (R399). -/
def execQueryDeviceIdentifiers (t : Transport) (s : State) : Out :=
  .next (answer t true 0x0501 [leBytes 2 Config.vendorId.toNat, identityBytes s] s)

/-- VERSION, SVN and FW_ID of an image. -/
def imageParameters (b : List Byte) : List Byte := slice b 24 16 ++ leBytes 1 (imageSvn b) ++ leBytes 8 (imageFwId b).toNat

/-- GET_FIRMWARE_PARAMETERS (R399): both images. -/
def execGetFirmwareParameters (t : Transport) (s : State) : Out :=
  .next (answer t true 0x0502 [imageParameters s.thm.imageA, imageParameters s.thm.imageB] s)

/-! SPDM (R405). -/

/-- GET_VERSION. -/
def execGetVersion (t : Transport) (s : State) : Out := .next (answer t false 0x8404 [[0x12]] s)

/-- GET_CAPABILITIES: no session. -/
def execGetCapabilities (t : Transport) (s : State) : Out := .next (answer t false 0x84E1 [] s)

/-- NEGOTIATE_ALGORITHMS: Ed25519 and SHA-256. -/
def execNegotiateAlgorithms (t : Transport) (s : State) : Out :=
  .next (answer t false 0x84E3 [] (s.onThm fun x => { x with
    spdmNegotiated := x.spdmNegotiated || (thimbleRuns s && !s.thm.recovery) }))

/-- GET_DIGESTS: the digest of the slot 0 chain. -/
def execGetDigests (t : Transport) (s : State) : Out := .next (answer t false 0x8481 [sha256 Config.identityChain] s)

/-- GET_CERTIFICATE: slot 0 only; any other slot is an error. -/
def execGetCertificate (t : Transport) (slot : Byte) (offset length : Nat) (s : State) : Out :=
  .next (answer t false 0x8482
    (if slot = 0 then [[0], (Config.identityChain.drop offset).take length] else [[1]]) s)

/-- CHALLENGE: CHALLENGE_AUTH signed with the identity key (R404). -/
def execChallenge (t : Transport) (slot : Byte) (nonce : BitVec 256) (s : State) : Out :=
  let body := leBytes 32 nonce.toNat ++ sha256 Config.identityChain
  .next (answer t false 0x8483 (if slot = 0 then [[0], body, Config.identitySign body] else [[1]]) s)

/-- The bytes that a measurement covers (Table 15-6; the order of the items inside one is the model's own, assumption
log 37: DESIGN CHOICE, safe). Measurement 3 also reports the TEST_MODE strap (R423). -/
def measured (s : State) (i : Nat) : List Byte :=
  match i with
  | 1 => Config.romBytes
  | 2 => runningImage s
  | 3 => leBytes 8 (fwId s).toNat ++ [s.thm.counter] ++ leBytes 1 s.thm.revoked.toNat ++ leBytes 1 (b2n s.straps.testMode)
  | 4 => Config.factoryFuseBytes ++ fuseBytes s 0 ++ fuseBytes s 1 ++ fuseBytes s 2
  | 5 => (s.lin.mgrKeys.toList.map fun w => leBytes 8 w.toNat).flatten ++ leBytes 1 s.lin.threshold.toNat ++
      leBytes 8 s.lin.fabricId.toNat
  | 6 => keyListBytes s
  | 7 => leBytes 8 s.lin.partnerSerial.toNat ++ leBytes 32 s.lin.partnerKey.toNat ++ leBytes 2 s.lin.lastEpoch.toNat
  | _ => []

/-- GET_MEASUREMENTS: the digests of Table 15-6, signed (index 0xFF of DSP0274 asks for all). -/
def execGetMeasurements (t : Transport) (index : Nat) (nonce : BitVec 256) (s : State) : Out :=
  let which := if index = 0xFF then [1, 2, 3, 4, 5, 6, 7] else if 1 ≤ index ∧ index ≤ 7 then [index] else []
  let body := (which.map fun i => leBytes 1 i ++ sha256 (measured s i)).flatten ++ leBytes 32 nonce.toNat
  .next (answer t false 0x84E0 [body, Config.identitySign body] s)

/-- KEY_EXCHANGE is refused (R405). -/
def execKeyExchange (t : Transport) (s : State) : Out := .next (answer t false 0x847F [[0xE4]] s)

/-- PSK_EXCHANGE is refused (R405). -/
def execPskExchange (t : Transport) (s : State) : Out := .next (answer t false 0x847F [[0xE6]] s)

end Sys2Proof.Machine
end

