-- ==== Sys2Proof/Machine/Lining.lean ====
section
/-! DEFINITION. The meanings of the lining and certificate commands (11_alterations, R318 to R328; 15_thimble, Table 15-7). -/

namespace Sys2Proof.Machine

/-! Pairing (R318, R319). -/

/-- The reserved bits of LIN_PAIR_CFG (Table 11-14). -/
def pairRsv : W64 := mask64 63 16 ||| mask64 10 9 ||| mask64 7 5

/-- The lining binding is reset: EN written 0 (Table 11-7). An isolated device stays FENCED. -/
def unbindLining (s : State) : State :=
  if s.lin.state = .fenced then s else setLining .solo s

/-- EN written 1: from SOLO, or from CARRYING with the partner named anew, PAIRING is entered and the identity exchange begins
(R318). LAST_EPOCH follows the bound context. -/
def bindLining (s : State) : State :=
  let n := fld s.lin.pairCfg 3 0
  let s := s.onLin fun l => { l with lastEpoch := (s.train n).current }
  match s.lin.state with
  | .solo => sendIdentity (setLining .pairing s)
  | .carrying => sendIdentity (setLining .pairing s)
  | _ => s

/-- A write of LIN_PAIR_CFG (Table 11-14). -/
def writePairCfg (v : W64) (s : State) : State :=
  let s := if v &&& pairRsv ≠ 0 then violate 0 0x02 s else s
  let was := bit s.lin.pairCfg 4
  let s' := s.onLin fun l => { l with pairCfg := v &&& ~~~ pairRsv }
  if bit v 4 then bindLining s' else if was then unbindLining s' else s'

/-- PAIRING: EN written 1. -/
def execPairing (value : W64) (s : State) : Out := .next (bar0Write (writePairCfg (putFld value 4 4 1)) s)

/-- LINING_DISABLE: EN written 0. -/
def execLiningDisable (value : W64) (s : State) : Out := .next (bar0Write (writePairCfg (putFld value 4 4 0)) s)

/-- The REASON of the first check of Table 11-6 that fails, 0 when all pass. The checks that show whether there was an exchange
at all come first, then the others in the order of their codes. -/
def pairingReason (s : State) (o : PairingObs) : Nat :=
  let l := s.lin
  if ¬ [12, 13, 14, 15].all fun m => decide ((s.port m).state = .active) then 6
  else if ¬ o.partnerReady then 7
  else if o.partnerSerial ≠ l.expectSerial then 1
  else if o.partnerFabric ≠ l.fabricId then 2
  else if o.partnerFw ≠ fwId s then 3
  else if o.partnerGrade.toNat ≠ s.nPanels then 4
  else if l.partnerKnown ∧ l.expectSerial = l.partnerSerial ∧ ¬ o.challengeOk then 5
  else if ¬ training s (fld l.pairCfg 3 0) then 8
  else 0

/-- The lining keys are recorded (R319). -/
def recordPartner (o : PairingObs) (s : State) : State :=
  (s.onLin fun l => { l with partnerSerial := o.partnerSerial, partnerKey := o.partnerKey, partnerKnown := true, reason := 0 }).onThm
    fun t => { t with flashBusy := true }

/-- Pairing has succeeded: REFILLING in the directions that have something to send, or MIRRORED when neither has OWN entries. -/
def paired (o : PairingObs) (s : State) : State :=
  let out : Bool := decide (0 < ownEntries s (fld s.lin.pairCfg 3 0))
  let s := (recordPartner o s).onSea fun a => { a with thimbleIn := [] }
  if out ∨ o.partnerOwnCounts then
    setLining .refilling (s.onLin fun l => { l with
      sending := out, receiving := o.partnerOwnCounts, refillPending := true, refilled := 0
      valid := l.valid && !o.partnerOwnCounts })
  else setLining .mirrored (s.onLin fun l => { l with valid := true })

/-- PAIRING_RESULT (R319). -/
def execPairingResult (o : PairingObs) (s : State) : Out :=
  if s.lin.state ≠ .pairing ∨ ¬ thimbleRuns s then .next s
  else
    let r := pairingReason s o
    if r = 0 then .next (paired o s)
    else .next (setLining .solo (s.onLin fun l => { l with reason := BitVec.ofNat 8 r }))

/-! Certificates (R325 to R328, Table 11-9). -/

/-- The action of a certificate. -/
def certAction (b : List Byte) : Option CertAction :=
  match leAt b 6 1 with
  | 1 => some .isolate
  | 2 => some .release
  | 3 => some .leave
  | _ => none

/-- The bytes of manager key i. -/
def managerKey (l : Lin) (i : Nat) : List Byte :=
  ((List.range 4).map fun j => leBytes 8 (vAt l.mgrKeys (4 * i + j) 0).toNat).flatten

/-- The signatures that verify, from distinct written keys (R326). -/
def goodSignatures (l : Lin) (b : List Byte) : Nat :=
  let msg := patch (slice b 0 64) 7 [0]
  ((List.range 7).filter fun i =>
    (leAt b 7 1).testBit i && l.keysValid.getLsbD i && edVerify (managerKey l i) msg (slice b (64 + 64 * i) 64)).length

/-- The device or the partner that a certificate may name (R327). -/
def certNames (s : State) (a : CertAction) (serial : W64) : Bool :=
  let l := s.lin
  let lined : Bool := l.state == .pairing || l.state == .mirrored || l.state == .refilling
  serial == Config.serial || (a == .isolate && lined && l.partnerKnown && serial == l.partnerSerial)

/-- The epoch a certificate must carry (R327). -/
def certEpoch (s : State) : BitVec 16 :=
  match liningCtx s with
  | some n => (s.train n).current
  | none => s.lin.lastEpoch

/-- RESULT of a certificate (Table 11-13), and its action and device when it is accepted. -/
def checkCert (s : State) (b : List Byte) : Nat × Option (CertAction × W64) :=
  let l := s.lin
  let serial : W64 := BitVec.ofNat 64 (leAt b 8 8)
  match certAction b with
  | none => (2, none)
  | some a =>
    if leAt b 0 4 ≠ 0x43544C4D ∨ leAt b 4 2 ≠ 1 then (2, none)
    else if l.threshold = 0 then (8, none)
    else if leAt b 16 8 ≠ l.fabricId.toNat then (3, none)
    else if ¬ certNames s a serial then (4, none)
    else if leAt b 24 2 ≠ (certEpoch s).toNat then (5, none)
    else if leAt b 32 8 ≤ l.lastNonce.toNat then (6, none)
    else if goodSignatures l b < l.threshold.toNat then (7, none)
    else if a = .leave ∧ l.state ≠ .solo ∧ l.state ≠ .fenced then (9, none)
    else (0, some (a, serial))

/-- A certificate is submitted: the RESULT of a refused one, or the acceptance: LAST_NONCE, the critical log entry, and the
commit that the RESULT waits for. While an earlier one waits, or Thimble restarts, it is busy. -/
def submitCert (bmc : Bool) (b : List Byte) (s : State) : Nat × State :=
  if ¬ thimbleRuns s ∨ s.thm.commitCert ∨ s.lin.accepted.isSome then (1, s)
  else match checkCert s b with
    | (r, none) => (r, s)
    | (r, some x) =>
      let s := s.onLin fun l => { l with
        lastNonce := BitVec.ofNat 64 (leAt b 32 8), accepted := some x, certBmc := bmc }
      (r, (logCritical 0x06 (slice b 0 64) s).onThm fun t => { t with commitCert := true, flashBusy := true })

/-- A write of LIN_CERT_CMD (Table 11-13): SUBMIT reads the certificate at LIN_CERT_ADDR. An accepted one reads busy until its
commit. -/
def writeCertCmd (v : W64) (s : State) : State :=
  let s := if v &&& (mask64 63 24 ||| mask64 15 2) ≠ 0 then violate 0 0x02 s else s
  if fld v 1 0 ≠ 1 then s
  else
    let (r, s) := submitCert false (Mem.bytes s.hostMem (fld s.lin.certAddr 63 9 * 512) 512) s
    s.onLin fun l => { l with certResult := if r = 0 then 1 else BitVec.ofNat 8 r }

/-- The BMC's CERT_SUBMIT (Table 15-7): the response carries RESULT; that of an accepted certificate follows its commit. -/
def bmcCert (bytes : List Byte) (s : State) : State :=
  if s.thm.recovery ∧ thimbleRuns s then s.emit (.mctpError .i3c)
  else
    let (r, s) := submitCert true bytes s
    if r = 0 then s else s.emit (.mctp .i3c (Config.encodeResponse 0x3F02 [[BitVec.ofNat 8 r]]))

/-- CERT_SUBMIT (R327): by LIN_CERT_CMD or from the BMC. -/
def execCertSubmit (src : CertSource) (s : State) : Out :=
  match src with
  | .register v => .next (bar0Write (writeCertCmd (putFld v 1 0 1)) s)
  | .bmc b => .next (bmcCert b s)

/-- Every seam is fenced, or unfenced, at the next boundary (R246, R328). -/
def fenceSeams (on : Bool) (s : State) : State :=
  (s.each allPorts fun s m => s.onPort m fun p => { p with fencePending := some on }).onLin fun l =>
    { l with fencePending := some on }

/-- The accepted certificate has been acted on. -/
def certActed (s : State) : State := s.onLin fun l => { l with accepted := none }

/-- An ISOLATE during a re-slice interval makes that interval's vote fail (Table 11-5). -/
def failReslices (s : State) : State :=
  s.each (jobContexts.filter fun n => (s.train n).reslicing) fun s n => poison n s

/-- ISOLATE (R314, R328): naming this device, every hosted job is aborted and the seams are fenced at the next boundary; naming the
partner, CARRYING is entered at once. -/
def execIsolate (s : State) : Out :=
  match s.lin.accepted with
  | some (.isolate, serial) =>
    let s := failReslices (certActed s)
    if serial = Config.serial then .next (fenceSeams true (s.each (hostedJobs s) fun s j => originateAbort j 0x04 s))
    else .next (setLining .carrying s)
  | _ => .next s

/-- RELEASE (R328): the seams are unfenced and SOLO is entered at the next boundary. -/
def execRelease (s : State) : Out :=
  match s.lin.accepted with
  | some (.release, _) => .next (fenceSeams false (certActed s))
  | _ => .next s

/-- LEAVE (R328): the keys, THRESHOLD, the fabric identity and the lining keys are cleared; LAST_NONCE stays. -/
def execLeave (s : State) : Out :=
  match s.lin.accepted with
  | some (.leave, _) =>
    .next (((certActed s).onLin fun l => { l with
      threshold := 0, fabricId := 0, keysValid := 0, mgrKeys := Vector.replicate 28 0, keyWords := 0, partnerSerial := 0
      partnerKey := 0, partnerKnown := false, lastEpoch := 0 }).onThm fun t => { t with flashBusy := true })
  | _ => .next s

/-- The lining at a boundary: what an ISOLATE or a RELEASE put off until then, and an identity that waits for a port. -/
def liningBoundary (s : State) : State :=
  match s.lin.fencePending with
  | none => sendIdentity s
  | some on => setLining (if on then .fenced else .solo) (s.onLin fun l => { l with fencePending := none })

/-! The quorum fields (R325, R390, Table 11-13). -/

/-- A written W1T field keeps its value; one that differs is a violation. -/
def writeOnce (held new : Nat) : Option Nat × Bool :=
  if held = 0 then (if new = 0 then (none, false) else (some new, false)) else (none, decide (new ≠ held))

/-- A quorum field is written: logged and on its way to the flash. -/
def quorumChanged (offset value : Nat) (s : State) : State :=
  (logCritical 0x0B (leBytes 2 offset ++ leBytes 8 value) s).onThm fun t => { t with flashBusy := true }

/-- A write of LIN_QUORUM. -/
def writeQuorum (v : W64) (s : State) : State :=
  let (new, bad) := writeOnce s.lin.threshold.toNat (fld v 2 0)
  let s := if bad ∨ v &&& (mask64 63 15 ||| mask64 7 3) ≠ 0 then violate 0 0x02 s else s
  match new with
  | some k => quorumChanged 0 k (s.onLin fun l => { l with threshold := BitVec.ofNat 3 k })
  | none => s

/-- A write of LIN_FABRIC. -/
def writeFabric (v : W64) (s : State) : State :=
  let (new, bad) := writeOnce s.lin.fabricId.toNat v.toNat
  let s := if bad then violate 0 0x02 s else s
  match new with
  | some k => quorumChanged 8 k (s.onLin fun l => { l with fabricId := BitVec.ofNat 64 k })
  | none => s

/-- The keys whose four words are written. -/
def wholeKeys (words : BitVec 28) : BitVec 7 :=
  (List.range 7).foldl (fun m i => if (List.range 4).all fun j => words.getLsbD (4 * i + j) then m ||| (1 <<< i) else m) 0

/-- A write of word w of the manager keys, 4i + j. -/
def writeMgrKey (w : Nat) (v : W64) (s : State) : State :=
  let (new, bad) := writeOnce (vAt s.lin.mgrKeys w 0).toNat v.toNat
  let s := if bad then violate 0 0x02 s else s
  match new with
  | some k => quorumChanged (0x100 + 8 * w) k (s.onLin fun l =>
      let words := l.keyWords ||| (1 <<< w)
      { l with mgrKeys := vMod l.mgrKeys w fun _ => BitVec.ofNat 64 k, keyWords := words, keysValid := wholeKeys words })
  | none => s

/-- A write of one of the quorum registers by its offset; others are none of QUORUM_WRITE's. -/
def writeQuorumAt (s : State) (w : QuorumWrite) : State :=
  if w.offset = 0 then writeQuorum w.value s
  else if w.offset = 8 then writeFabric w.value s
  else if 0x100 ≤ w.offset ∧ w.offset < 0x1E0 ∧ w.offset % 8 = 0 then writeMgrKey ((w.offset - 0x100) / 8) w.value s
  else s

/-- QUORUM_WRITE (Table 15-7): the W1T quorum fields under R390. -/
def execQuorumWrite (t : Transport) (writes : List QuorumWrite) (s : State) : Out :=
  .next (oemAnswer t 0x3F05 (fun s => (0, [], s.each writes writeQuorumAt)) s)

end Sys2Proof.Machine
end

