-- ==== Sys2Proof/Machine/Contexts.lean ====
section
/-! DEFINITION. The meanings of the commands on contexts, switches, rings and event queues (14_host_interface, R386 to R389;
10_serving, R300). -/

namespace Sys2Proof.Machine

/-! Creation and teardown (R387). -/

/-- Every per-context register of every block at its reset value; the tenancy written beforehand stays. -/
def resetContext (n : Nat) (s : State) : State :=
  let serving := (s.ctx n).serving
  let s := s.onHif fun h => { h with
    ctxs := vMod h.ctxs n fun _ => { serving := serving }, rings := vMod h.rings n fun _ => {}
    queues := vMod h.queues n fun _ => {} }
  let s := s.onStu fun u => { u with
    ledgerBase := vMod u.ledgerBase n fun _ => 0, ledgerCfg := vMod u.ledgerCfg n fun _ => 4
    ledgerNext := vMod u.ledgerNext n fun _ => 0, phase := vMod u.phase n fun _ => {} }
  let s := (s.onTrain n fun _ => {}).onColCtx n fun _ => {}
  (s.onSrvCtx n fun _ => {}).onFlt fun f => { f with viol := vMod f.viol n fun _ => {} }

/-- RESULT of CTX_CFG_n. -/
def ctxResult (n r : Nat) (s : State) : State := s.onCtx n fun c => { c with result := BitVec.ofNat 8 r }

/-- CREATE: a FREE context becomes ACTIVE at once. -/
def createContext (n : Nat) (s : State) : State :=
  if (s.ctx n).state ≠ .free then ctxResult n 1 s
  else ctxResult n 0 ((resetContext n s).onCtx n fun c => { c with state := .active })

/-- TEARDOWN: of an ACTIVE or FAULTED context, for the next boundary. -/
def teardownContext (n : Nat) (s : State) : State :=
  match (s.ctx n).state with
  | .active | .faulted => ctxResult n 0 (s.onCtx n fun c => { c with teardownPending := true })
  | _ => ctxResult n 1 s

/-- A write of CTX_CFG_n (Table 14-12). TENANCY is taken while the context is FREE; a different one otherwise sets RESULT 0x02,
unless a command of the same write reports its own. A command to context 0 is a violation. -/
def writeCtxCfg (n : Nat) (v : W64) (s : State) : State :=
  let cmd := fld v 9 8
  let rsv := mask64 63 24 ||| mask64 15 10 ||| mask64 7 5 ||| mask64 3 3
  let isCmd : Bool := cmd == 1 || cmd == 2
  let s := if v &&& rsv ≠ 0 ∨ (n = 0 ∧ isCmd) then violate 0 0x02 s else s
  let s := if (s.ctx n).state = .free ∧ n ≠ 0 then s.onCtx n fun c => { c with serving := bit v 4 }
    else if bit v 4 ≠ (s.ctx n).serving then ctxResult n 2 s else s
  if n = 0 then s else if cmd = 1 then createContext n s else if cmd = 2 then teardownContext n s else s

/-- CREATE. -/
def execCreate (n : Ctx) (value : W64) (s : State) : Out := .next (bar0Write (writeCtxCfg n.val (putFld value 9 8 1)) s)

/-- TEARDOWN. -/
def execTeardown (n : Ctx) (value : W64) (s : State) : Out := .next (bar0Write (writeCtxCfg n.val (putFld value 9 8 2)) s)

/-- A shard whose capture has ended drains whatever happens to its context (Table 12-5). -/
def draining (t : Transfer) : Bool := match t.kind with
  | .shard h => h.captured.isSome
  | _ => false

/-- A context's work goes without events: entries, patterns, loads, disarms, fences, votes, transfers. A shard under capture
fails with ABORTED (Table 12-5). -/
def dropWork (n : Nat) (s : State) : State :=
  let s := failShards n 2 s
  let s := s.each (s.work.entries.filter fun e => e.ctx.val == n) fun s e => removeEntry e (undispatch e s)
  let s := s.each (s.work.patterns.filter fun p => p.ctx.val == n) fun s p => unloadPattern n p.handle s
  s.onWork fun w => { w with
    loads := w.loads.filter fun x => x.ctx.val != n
    disarms := w.disarms.filter fun x => x.ctx.val != n
    fences := w.fences.filter fun x => x.ctx.val != n
    voteNotifies := w.voteNotifies.filter fun x => x.ctx.val != n
    transfers := w.transfers.filter fun x => x.ctx.val != n || draining x }

/-- A context's bindings go: pressers, serving, job tag, lining. -/
def dropBindings (n : Nat) (s : State) : State :=
  let s := s.each (pressersOf s n) fun s k => bindPresser k (s.onPresser k fun p => { p with bind := 0 })
  let s := (s.onSrvCtx n fun _ => {}).onSrv fun v => { v with slots := v.slots.filter fun x => x.2.ctx.val != n }
  let s := (s.onColCtx n fun c => { c with job := 0 }).onTrain n fun _ => {}
  if liningCtx s = some n then unbindLining (s.onLin fun l => { l with pairCfg := 0 }) else s

/-- A context's HBM and bolt regions are freed as they are. -/
def dropRegions (n : Nat) (s : State) : State :=
  let s := s.each ((s.bolt.regions.filter fun x => x.2.ctx.val == n).map (·.1)) fun s i => freeRegion i s
  s.onHbm fun h => { h with regions := h.regions.filter fun x => x.1 / 16 != n }

/-- A band of a context that is torn down (R387): one that is ON, or fenced by no power change, is reset and unowned at once;
one in a power transition finishes that first. -/
def releaseBand (n : Nat) (s : State) (g : Nat) : State :=
  let clear (s : State) : State := s.onBand g fun b => { b with owner := 0 }
  match (s.band g).state with
  | .on | .fenced =>
    (clear (startBandReset g .resetting s)).onCtx n fun c => { c with resetBands := c.resetBands ++ [g] }
  | .off => clear s
  | .poweringDown => s
  | .poweringUp | .resetting => s.onCtx n fun c => { c with resetBands := c.resetBands ++ [g] }
  | .unavailable => clear s

/-- The bands a context owns, whatever their state. -/
def bandsOwned (s : State) (n : Nat) : List Nat := (List.range 128).filter fun g => (s.band g).owner.val == n

/-- A context's ring and event queue are disabled. -/
def closeRings (n : Nat) (s : State) : State :=
  let s := s.onRing n fun r => { r with cfg := putFld r.cfg 8 8 0, state := 0, live := false, stopping := false, taken := [] }
  s.onQueue n fun q => { q with cfg := putFld q.cfg 8 8 0 }

/-- TEARDOWN_BOUNDARY (R387): the teardown takes effect; its completion goes to the system context, then ring and event queue
are disabled (DEDUCED, unsafe, assumption log 44). -/
def execTeardownBoundary (n : Ctx) (s : State) : Out :=
  let c := s.ctx n.val
  if n.val = 0 ∨ ¬ c.teardownDue then .next s
  else
    let s := s.onCtx n.val fun c => { c with
      state := .tearingDown, teardownPending := false, teardownDue := false, resetBands := [] }
    let s := dropRegions n.val (dropBindings n.val (dropWork n.val s))
    let s := s.each (bandsOwned s n.val) (releaseBand n.val)
    .next (closeRings n.val (blockCompletion 0 0xF1 s))

/-- A band's reset has not ended. -/
def stillResetting (s : State) (g : Nat) : Bool :=
  match (s.band g).state with
  | .resetting | .poweringUp => true
  | _ => false

/-- TEARDOWN_DONE (R387): the last band reset has ended and the context is FREE. -/
def execTeardownDone (n : Ctx) (s : State) : Out :=
  let c := s.ctx n.val
  if c.state ≠ .tearingDown ∨ c.resetBands.any (stillResetting s) then .next s
  else
    let s := s.each (bandsOwned s n.val) fun s g => s.onBand g fun b => { b with owner := 0 }
    .next (s.onCtx n.val fun c => { c with state := .free, resetBands := [] })

/-! Switching bands (R388, R300). -/

/-- A switch would take a band of a real-time context (R299, R388). -/
def takesRealTime (s : State) (from_ to_ : Nat) (bands : List Nat) : Bool :=
  let owner (g : Nat) : Nat := (s.band g).owner.val
  bands.any (fun g => realTime s (owner g) && owner g != to_) || (realTime s from_ && to_ != 0)

/-- RESULT of a START (R388), 0 when it is accepted. -/
def switchRefusal (s : State) (from_ to_ : Nat) (bands : List Nat) : Nat :=
  let owner (g : Nat) : Nat := (s.band g).owner.val
  if s.hif.switch.isSome then 1
  else if bands.any fun g => owner g != from_ then 2
  else if (to_ ≠ 0 ∧ (s.ctx to_).state ≠ .active) ∨ from_ = to_ then 3
  else if takesRealTime s from_ to_ bands then 4
  else if bands.any fun g => bandState s g != .on then 5
  else 0

/-- A write of CTX_SW_CMD (Table 14-12). -/
def writeCtxSw (v : W64) (s : State) : State :=
  let s := if v &&& (mask64 63 24 ||| mask64 15 10) ≠ 0 then violate 0 0x02 s else s
  let s := s.onHif fun h => { h with sw := v &&& mask64 7 0 }
  if ¬ bit v 8 then s
  else
    let (from_, to_) := (fld v 3 0, fld v 7 4)
    let bands := maskBands s.hif.swLo s.hif.swHi
    let r := switchRefusal s from_ to_ bands
    let s := s.onHif fun h => { h with swResult := BitVec.ofNat 8 r }
    if r ≠ 0 then s
    else
      let w : Switch := { from_ := Fin.ofNat 16 from_, to_ := Fin.ofNat 16 to_, bands := bands, started := false, due := false }
      s.onHif fun h => { h with switch := some w }

/-- CTX_SWITCH: START. -/
def execCtxSwitch (value : W64) (s : State) : Out := .next (bar0Write (writeCtxSw (putFld value 8 8 1)) s)

/-- The cores of a list of bands in logical order, each with its place. -/
def coresOf (bands : List Nat) : List (Nat × Nat) := ((bands.map bandCores).flatten).zipIdx

/-- The live range of a context (CTX_LIVE_n): its first byte and its bytes per core. -/
def liveRange (s : State) (n : Nat) : Nat × Nat := (64 * fld (s.ctx n).live 9 0, 64 * fld (s.ctx n).live 25 16)

/-- A context's live scratch on some bands is saved to its SAVE_REGION. -/
def saveLive (n : Nat) (bands : List Nat) (s : State) : State :=
  let (first, count) := liveRange s n
  match hbmRegion s n (fld (s.ctx n).rank 27 24) with
  | none => s
  | some r => s.each (coresOf bands) fun s x =>
      unverifyBytes n (fld (s.ctx n).rank 27 24) (count * x.2) count
        (writeRegion n r (count * x.2) (Mem.bytes (s.core x.1).scratch first count) s)

/-- A context's live scratch is restored from its SAVE_REGION. -/
def restoreLive (n : Nat) (bands : List Nat) (s : State) : State :=
  let (first, count) := liveRange s n
  if ¬ bit (s.ctx n).live 32 then s
  else match hbmRegion s n (fld (s.ctx n).rank 27 24) with
    | none => s
    | some r => s.each (coresOf bands) fun s x =>
        readFinds n r (count * x.2) count (s.onCore x.1 (putScratch first (regionBytes s n r (count * x.2) count)))

/-- A context's bolt regions that cover one of some bands. -/
def coveringRegions (s : State) (n : Nat) (bands : List Nat) : List (Nat × BoltRegion) :=
  s.bolt.regions.filter fun x => x.2.ctx.val == n && x.2.bands.any fun g => bands.contains g

/-- The outgoing regions are written back when DIRTY, and freed. -/
def vacate (n : Nat) (bands : List Nat) (s : State) : State :=
  s.each (coveringRegions s n bands) fun s x => freeRegion x.1 (if x.2.state = .dirty then writeBacking x.2 s else s)

/-- The incoming BACKED regions in LOADING start to fill; one whose backing is not VERIFIED is refused (R298). -/
def startFills (n : Nat) (bands : List Nat) (s : State) : State :=
  s.each ((coveringRegions s n bands).filter fun x => x.2.backed && x.2.state == .loading) fun s x =>
    if backingVerified s x.2 then onRegion x.1 (fun r => { r with filling := true, stopped := false }) s
    else postWithdrawal n 0x26 0xFFFF 0xFFFFFFFE x.1 s

/-- The fills of the incoming context that are still running end. -/
def finishFills (n : Nat) (bands : List Nat) (s : State) : State :=
  s.each ((coveringRegions s n bands).filter fun x => x.2.filling) fun s x =>
    onRegion x.1 (fun r => { r with state := .resident, filling := false }) (fillFromBacking x.1 x.2 s)

/-- The bands are fenced and their route pages released (R303). -/
def quiesceBand (s : State) (g : Nat) : State :=
  let s := (s.onBand g fun b => { b with state := .fenced }).onStu fun u => { u with bands := Tab.drop u.bands g }
  s.onWork fun w => { w with patterns := w.patterns.map fun p => { p with pages := Tab.drop p.pages g } }

/-- SWITCH_BEGIN (R388, R299, R300): a switch accepted before its outgoing context became real-time is dropped with RESULT 0x04 (DESIGN
CHOICE, unsafe, assumption log 102); otherwise the outgoing entries on the bands are withdrawn with PREEMPTED, the bands are fenced and quiesced,
the live scratch is saved, the DIRTY regions are written back and freed, and the fills start. -/
def execSwitchBegin (s : State) : Out :=
  match s.hif.switch with
  | none => .next s
  | some w =>
    if w.started ∨ ¬ w.due then .next s
    else if takesRealTime s w.from_.val w.to_.val w.bands then .next (s.onHif fun h => { h with switch := none, swResult := 4 })
    else
      let (n, m) := (w.from_.val, w.to_.val)
      let mine := s.work.entries.filter fun e => e.ctx.val == n && e.bands.any fun g => w.bands.contains g
      let s := s.each mine fun s e =>
        withdrawNow 0x34 ((e.bands.find? fun g => w.bands.contains g).getD 0) m e s
      let s := s.each w.bands quiesceBand
      let s := meetQueues .loader s
      let s := if n = 0 then s else vacate n w.bands (saveLive n w.bands s)
      let s := if m = 0 then s else startFills m w.bands s
      .next (s.onHif fun h => { h with switch := some { w with started := true, due := false } })

/-- A band passes to its new owner; one returned to no owner is reset (R388). -/
def passBand (to_ : Ctx) (s : State) (g : Nat) : State :=
  if to_.val = 0 then (startBandReset g .resetting s).onBand g fun b => { b with owner := 0 }
  else s.onBand g fun b => { b with owner := to_, state := .on }

/-- SWITCH_DONE (R388): at the first boundary after the last transfer ownership passes and the completions are posted. -/
def execSwitchDone (s : State) : Out :=
  match s.hif.switch with
  | none => .next s
  | some w =>
    if ¬ w.started ∨ ¬ w.due then .next s
    else
      let m := w.to_.val
      let s := meetQueues .loader s
      let s := if m = 0 then s else restoreLive m w.bands (finishFills m w.bands s)
      let s := s.each w.bands (passBand w.to_)
      let s := s.onHif fun h => { h with switch := none }
      .next (s.each ([0, w.from_.val, m].eraseDups) fun s n => blockCompletion n 0xF0 s)

/-- What a boundary does to switches and teardowns: those asked for before it become due. A teardown of a context in a switch
waits until the switch has passed ownership. -/
def switchBoundary (s : State) : State :=
  let busy (n : Nat) : Bool := match s.hif.switch with
    | some w => w.from_.val == n || w.to_.val == n
    | none => false
  let s' := s.onHif fun h => { h with switch := h.switch.map fun w => { w with due := true } }
  s'.each jobContexts fun s n => s.onCtx n fun c => { c with teardownDue := c.teardownDue || (c.teardownPending && !busy n) }

/-! SEED, RANK and the shares (R389). -/

/-- A write of CTX_SEED_n. -/
def writeCtxSeed (n : Nat) (v : W64) (s : State) : State :=
  if hasEntries s n ∧ v ≠ (s.ctx n).seed then violate 0 0x02 s else s.onCtx n fun c => { c with seed := v }

/-- A write of CTX_RANK_n: refused whole when it changes RANK while the context has an arm entry. -/
def writeCtxRank (n : Nat) (v : W64) (s : State) : State :=
  let rsv := mask64 63 28 ||| mask64 19 16
  let refused : Bool := hasEntries s n && decide (fld v 15 0 ≠ fld (s.ctx n).rank 15 0)
  let s := if refused ∨ v &&& rsv ≠ 0 then violate 0 0x02 s else s
  if refused then s else s.onCtx n fun c => { c with rank := v &&& ~~~ rsv }

/-- CTX_SEED_WRITE. -/
def execCtxSeedWrite (n : Ctx) (rank : Bool) (value : W64) (s : State) : Out :=
  .next (bar0Write (if rank then writeCtxRank n.val value else writeCtxSeed n.val value) s)

/-- A write of CTX_SHARE_LO_n or CTX_SHARE_HI_n: in effect from the next boundary. -/
def writeCtxShare (n : Nat) (hi : Bool) (v : W64) (s : State) : State :=
  s.onCtx n fun c => if hi then { c with shareHi := v } else { c with shareLo := v }

/-- CTX_SHARE_WRITE. -/
def execCtxShareWrite (n : Ctx) (hi : Bool) (value : W64) (s : State) : Out := .next (bar0Write (writeCtxShare n.val hi value) s)

/-- What a boundary does to the shares: written ones take effect and the ledger is rebuilt (R389). -/
def shareBoundary (s : State) : State :=
  let changed : Bool := jobContexts.any fun n => let c := s.ctx n; c.shareLo != c.nowLo || c.shareHi != c.nowHi
  if ¬ changed then s
  else (s.onHif fun h => { h with ctxs := h.ctxs.map fun c => { c with nowLo := c.shareLo, nowHi := c.shareHi } }).onWork
    fun w => { w with ledgerDirty := true }

/-! Rings and event queues (R386). -/

/-- A ring register's write is refused while EN is set and a guarded value differs. -/
def ringGuard (s : State) (n : Nat) (held new : W64) : Bool := bit (s.ring n).cfg 8 && decide (held ≠ new)

/-- A ring is enabled: RING_HEAD 0, RUNNING, the status line written. -/
def enableRing (n : Nat) (s : State) : State :=
  writeStatus n (s.onRing n fun r => { r with head := 0, state := 1, live := true, stopping := false, err := 0, errPos := 0 })

/-- A write of HRG_RING_CFG_n. A write that changes LOG2_ENTRIES while EN is set is refused whole. -/
def writeRingCfg (n : Nat) (v : W64) (s : State) : State :=
  let r := s.ring n
  let rsv := mask64 31 28 ||| mask64 23 18 ||| mask64 15 9 ||| mask64 7 5
  let refused : Bool := bit r.cfg 8 && decide (fld v 4 0 ≠ fld r.cfg 4 0)
  let s := if refused ∨ v &&& rsv ≠ 0 then violate 0 0x02 s else s
  if refused then s
  else
    let s := s.onRing n fun r => { r with cfg := v &&& (mask64 8 8 ||| mask64 4 0) }
    if bit v 8 ∧ ¬ bit r.cfg 8 then enableRing n s
    else if ¬ bit v 8 ∧ bit r.cfg 8 then s.onRing n fun r => { r with stopping := true }
    else s

/-- RING_ENABLE. -/
def execRingEnable (n : Ctx) (value : W64) (s : State) : Out := .next (bar0Write (writeRingCfg n.val (putFld value 8 8 1)) s)

/-- RING_DISABLE. -/
def execRingDisable (n : Ctx) (value : W64) (s : State) : Out := .next (bar0Write (writeRingCfg n.val (putFld value 8 8 0)) s)

/-- What a boundary does to the rings: a disabled one takes no more descriptors. -/
def ringBoundary (s : State) : State :=
  s.onHif fun h => { h with rings := h.rings.map fun r =>
    if r.stopping then { r with stopping := false, live := false, state := 0 } else r }

/-- A write of EVQ_CFG_n: VECTOR 31 is refused as RSV; a queue enabled starts at EVQ_TAIL 0. -/
def writeEvqCfg (n : Nat) (v : W64) (s : State) : State :=
  let q := s.queue n
  let rsv := mask64 63 21 ||| mask64 15 9 ||| mask64 7 5
  let badVector : Bool := fld v 20 16 == 31
  let v' := if badVector then putFld v 20 16 (fld q.cfg 20 16) else v
  let guarded := mask64 20 16 ||| mask64 4 0
  let refused : Bool := bit q.cfg 8 && decide (v' &&& guarded ≠ q.cfg &&& guarded)
  let s := if refused ∨ v &&& rsv ≠ 0 ∨ badVector then violate 0 0x02 s else s
  if refused then s
  else
    let s := s.onQueue n fun q => { q with cfg := v' &&& ~~~ rsv }
    if bit v 8 ∧ ¬ bit q.cfg 8 then s.onQueue n fun q => { q with tail := 0, headRead := 0, statusTail := 0 } else s

/-- EVQ_ENABLE. -/
def execEvqEnable (n : Ctx) (value : W64) (s : State) : Out := .next (bar0Write (writeEvqCfg n.val (putFld value 8 8 1)) s)

end Sys2Proof.Machine
end

