-- ==== Sys2Proof/Machine/Serving.lean ====
section
/-! DEFINITION. The meanings of the serving commands (10_serving). -/

namespace Sys2Proof.Machine

/-- One result as the panel sequencer reads it from a leader core (R288, Table 10-6). -/
def readResult (s : State) (c : SrvCtx) (i : Nat) : ResultRec :=
  let (core, k) := listPlace c i
  let b := Mem.bytes (s.core core).scratch (fld c.list 57 48 * 64 + 8 * k) 8
  { index := i, token := BitVec.ofNat 32 (leAt b 0 4), valid := (leAt b 4 1).testBit 0, stop := (leAt b 4 1).testBit 1 }

/-- RESULT_READ (R286, R288): in core cycles 0 to 31 the result area of every list entry of the stitch before is read. -/
def execResultRead (s : State) : Out :=
  .next (s.each (servedContexts s) fun s n =>
    let c := s.srvCtx n
    if c.current.isEmpty then s
    else
      let rs := c.current.map fun e => readResult s c e.index
      s.onSrvCtx n fun c => { c with results := some rs, listBefore := c.current, current := [] })

/-- SERVING_APPLY (R276, R286, R289): at time-base cycle 64, for every context served, at any period. -/
def execServingApply (s : State) : Out := .next (s.each (servedContexts s) fun s n => applyServing n s)

/-- LIST_WRITE (R286, R288): in core cycles 32 to 95 the list of the stitch is written into the landing areas. While the period
is below 51 it is in force no longer, so that no result of it is applied (R276). -/
def execListWrite (s : State) : Out :=
  .next (s.each (servedContexts s) fun s n =>
    let c := s.srvCtx n
    if c.next.isEmpty then s
    else
      let s := s.each c.next fun s e =>
        let (core, k) := listPlace c e.index
        s.onCore core fun x =>
          { x with scratch := Mem.write x.scratch (fld c.list 41 32 * 64 + 32 * k) (listEntryBytes e) }
      let runs := periodServes s
      s.onSrvCtx n fun c => { c with current := if runs then c.next else [], next := [] })

/-- LIST_BUILD (R287): by time-base cycle 3,264 the list of the next stitch is built; none while the period is below 51. -/
def execListBuild (s : State) : Out :=
  if periodServes s then .next (s.each (listedContexts s) fun s n => buildList n s) else .next s

/-- The results of the stitch ended are known: they have been read, or no list ran (R282, R286). -/
def resultsKnown (c : SrvCtx) : Bool := c.results.isSome || c.current.isEmpty

/-- SEQ_TIMEOUT (R38, R276, R282): in the maintenance slot, once the results of the stitch ended are known, they are applied, and a
slot whose TIMEOUT is due and that they do not end retires with a RETIRED record. -/
def execSeqTimeout (slot : Fin 4096) (s : State) : Out :=
  let n := (s.slot slot.val).ctx.val
  if (servedContexts s).contains n ∧ inMaintenance s ∧ resultsKnown (s.srvCtx n) ∧ timeoutDue s (s.slot slot.val) then
    .next (endSlot slot.val 4 (applyResults n s))
  else .next s

/-- A release of the slot holding TAG at the next boundary (R282). -/
def seqCancel (n : Nat) (tag : W64) (s : State) : State :=
  let now := s.stu.stitch
  s.onSrvCtx n fun c => { c with releases := c.releases ++ [{ tag := tag, notify := none, read := now }] }

/-- SEQ_CANCEL: a write of TAG to SRV_CANCEL_n. -/
def execSeqCancel (n : Ctx) (tag : W64) (s : State) : Out :=
  .next (bar0Write (seqCancel n.val tag) s)

/-- SLOT_FREE (R285, R289): a slot is freed with its swatches at the boundary after the one at which it entered
RETIRING. -/
def execSlotFree (slot : Fin 4096) (s : State) : Out :=
  let t := s.slot slot.val
  if inMaintenance s ∧ freeDue s t ∧ (s.ctx t.ctx.val).state = .active then .next (freeSlot slot.val s) else .next s

/-- The bytes of pool swatch k: region lines k × SWATCH_UNITS × 64 × N_pc onward (R283). -/
def swatchBytes (s : State) (c : SrvCtx) : Nat := swatchUnits c * 64 * s.nPc * 64

/-- The content of a pool swatch. -/
def readSwatch (s : State) (n k : Nat) : List Byte :=
  let c := s.srvCtx n
  match hbmRegion s n (fld c.pool 3 0) with
  | some r => regionBytes s n r (k * swatchBytes s c) (swatchBytes s c)
  | none => []

/-- A swap has read a pool swatch (R178, R179). -/
def swatchFinds (n k : Nat) (s : State) : State :=
  let c := s.srvCtx n
  match hbmRegion s n (fld c.pool 3 0) with
  | some r => readFinds n r (k * swatchBytes s c) (swatchBytes s c) s
  | none => s

/-- The 64-byte header of a swap image (R294); the places of its fields are the model's (DESIGN CHOICE, unsafe, assumption log 36). -/
def swapHeader (t : SeqSlot) (count : Nat) : List Byte :=
  layout 64 [(0, leBytes 8 t.tag.toNat), (8, leBytes 4 t.length), (12, leBytes 2 t.swatches), (14, leBytes 2 t.keepLow),
    (16, leBytes 2 t.window), (20, leBytes 4 t.gBase), (24, leBytes 8 t.globalMask.toNat), (32, leBytes 2 count)]

/-- SWAP_OUT_DONE (R294): the swap image of a PARKING slot is in host memory, header first and then each swatch in
ascending swatch number; its swatches and the slot are freed, and a PARKED record, or the RETIRED one it owes, is
written. -/
def execSwapOutDone (slot : Fin 4096) (s : State) : Out :=
  let i := slot.val
  let t := s.slot i
  if t.state ≠ .parking then .next s
  else
    let n := t.ctx.val
    let own := sortBy (fun a b => decide (a.2.2 < b.2.2)) (swatchesOf (s.srvCtx n) i)
    let s := meetQueues .portH s
    let s := s.each own fun s o => swatchFinds n o.1 s
    let image := swapHeader t own.length ++ (own.map fun o => readSwatch s n o.1).flatten
    let s := s.setHostMem (Mem.write s.hostMem t.swapAddr.toNat image)
    let s := freeSlot i s
    match t.cause with
    | some k => .next (tokenRecord n t.tag 0 0 k i s.stu.stitch 0 s)
    | none => .next (tokenRecord n t.tag t.length 0 3 i s.stu.stitch own.length s)

/-- One swatch of a swap image is written into a newly allocated pool swatch, with its swatch table entry (R284, R295). -/
def swapInOne (n i : Nat) (image : Nat) (s : State) (x : Nat × Nat) : State :=
  let c := s.srvCtx n
  match firstFree c with
  | none => s
  | some k =>
    let size := swatchBytes s c
    let data := Mem.bytes s.hostMem (image + 64 + x.2 * size) size
    let s := match hbmRegion s n (fld c.pool 3 0) with
      | some r => unverifyBytes n (fld c.pool 3 0) (k * size) size (writeRegion n r (k * size) data s)
      | none => s
    let s := match hbmRegion s n (fld c.pool 7 4) with
      | some r =>
        let at_ := 256 * i * 64 + 4 * x.1
        unverifyBytes n (fld c.pool 7 4) at_ 4 (writeRegion n r at_ (leBytes 4 k) s)
      | none => s
    s.onSrvCtx n fun c => { c with owner := Tab.put c.owner k (i, x.1) }

/-- SWAP_IN_DONE (R295): the image of a RESUMING slot is read, its swatches are in newly allocated ones, and the slot
enters PREFILL with LENGTH and KEEP_LOW of the header. -/
def execSwapInDone (slot : Fin 4096) (s : State) : Out :=
  let i := slot.val
  let t := s.slot i
  if t.state ≠ .resuming then .next s
  else
    let n := t.ctx.val
    let a := t.swapAddr.toNat
    let h := Mem.bytes s.hostMem a 64
    let count := leAt h 32 2
    let sw := leAt h 12 2
    let numbers := (imageNumbers sw count (leAt h 20 4) (BitVec.ofNat 64 (leAt h 24 8))).zipIdx
    if freeSwatches (s.srvCtx n) < count then .next s
    else
      let s := meetQueues .portH s
      let s := s.each numbers (swapInOne n i a)
      match t.cause with
      | some k => .next (tokenRecord n t.tag 0 0 k i s.stu.stitch 0 (freeSlot i s))
      | none => .next (s.onSlot i fun t => { t with
          state := .prefill, length := leAt h 8 4, keepLow := leAt h 14 2, swatches := sw })

/-- The ring index of the SEQ_ADMIT at the head of a ring. -/
def admitHead (s : State) (n : Nat) : Option (BitVec 32) :=
  match (s.ring n).taken with
  | d :: _ => if leAt d.bytes 0 1 = 0x0A then some d.index else none
  | [] => none

/-- ADMISSION_BACKLOG (R281): a SEQ_ADMIT at the head of a ring through a whole stitch posts an event, at most one per
context in 1,024 stitches. -/
def execAdmissionBacklog (n : Ctx) (s : State) : Out :=
  let c := s.srvCtx n.val
  let recent : Bool := match c.lastBacklog with
    | some l => decide ((s.stu.stitch - l).toNat < 1024)
    | none => false
  let stands := admitHead s n.val
  if c.waited = 0 ∨ stands ≠ c.head ∨ recent then .next s
  else
    let index := (stands.getD 0).toNat
    let now := s.stu.stitch
    let s := post n.val 0x06 [(16, leBytes 4 c.waited), (20, leBytes 2 (slotsHeld s n.val)), (22, leBytes 2 index)] s
    .next (s.onSrvCtx n.val fun c => { c with lastBacklog := some now })

/-! SRV registers (R275, R299, R301). -/

/-- The checks of ERR when EN is set, in order (Table 10-11): 0 when all pass. -/
def srvErr (s : State) (n : Nat) (cfg : W64) : Nat :=
  let c := { s.srvCtx n with cfg := cfg }
  let others := ((List.range 16).filter fun k => k ≠ n ∧ bit (s.srvCtx k).cfg 63).map fun k => srvQuota (s.srvCtx k)
  let x := s.ctx n
  let poolOk : Bool := match hbmRegion s n (fld c.pool 3 0) with
    | some r => r.mode == 1 && decide (poolSwatches c * swatchUnits c * 64 * s.nPc ≤ regionLines s r)
    | none => false
  let bands := (List.range (fld c.list 15 8)).map (· + fld c.list 6 0)
  let owned := bands.all fun g => decide (g < 128) && (s.band g).owner.val == n
  let per := fld c.list 25 16
  if ¬ (x.serving ∧ x.state = .active) then 1
  else if srvDecodeMax c < srvQuota c ∨ 4096 < others.sum + srvQuota c then 2
  else if !poolOk then 3
  else if !owned ∨ per * fld c.list 15 8 < srvDecodeMax c + srvPrefillMax c then 4
  else if 768 < fld c.list 41 32 + (per + 1) / 2 ∨ 768 < fld c.list 57 48 + (per + 7) / 8 then 5
  else if ¬ periodServes s then 6
  else 0

/-- SRV_CTRL.LOCK. -/
def srvLocked (s : State) : Bool := bit s.srv.ctrl 0

/-- The writable fields of SRV_CFG_n but EN and RT. -/
def srvCfgMask : W64 := mask64 56 48 ||| mask64 41 32 ||| mask64 28 16 ||| mask64 12 0

/-- A write of SRV_CFG_n (R299, R301, R390). -/
def writeSrvCfg (n : Nat) (v : W64) (s : State) : State :=
  let c := s.srvCtx n
  let en : Bool := bit c.cfg 63
  let rt : W64 := mask64 59 59
  let rsv : Bool := v &&& (mask64 58 57 ||| mask64 47 42 ||| mask64 31 29 ||| mask64 15 13) ≠ 0
  let lockedDiffers : Bool := srvLocked s && (v ^^^ c.cfg) &&& rt ≠ 0
  if en ∧ ((v ^^^ c.cfg) &&& (srvCfgMask ||| rt) ≠ 0) then violate 0 0x02 s
  else
    let keep := if srvLocked s then c.cfg &&& rt else v &&& rt
    let base := (v &&& srvCfgMask) ||| keep
    let s' :=
      if bit v 63 ∧ ¬ en then
        let e := srvErr s n base
        if e = 0 ∧ ¬ s.srv.failed then
          s.onSrvCtx n fun c => { c with cfg := base ||| mask64 63 63, serving := true }
        else s.onSrvCtx n fun c => { c with cfg := putFld base 62 60 e }
      else if bit v 63 then s
      else if en then s.onSrvCtx n fun c => { c with cfg := base ||| (c.cfg &&& mask64 62 60), disabling := true }
      else s.onSrvCtx n fun c => { c with cfg := base ||| (c.cfg &&& mask64 62 60) }
    if rsv ∨ lockedDiffers then violate 0 0x02 s' else s'

/-- SRV_ENABLE: a write of SRV_CFG_n with EN set. -/
def execSrvEnable (n : Ctx) (value : W64) (s : State) : Out :=
  .next (bar0Write (writeSrvCfg n.val (value ||| mask64 63 63)) s)

/-- SRV_DISABLE: a write of SRV_CFG_n with EN clear. -/
def execSrvDisable (n : Ctx) (value : W64) (s : State) : Out :=
  .next (bar0Write (writeSrvCfg n.val (value &&& ~~~ mask64 63 63)) s)

/-- A write of SRV_RT_n (R299): HBM_RESERVE is locked by SRV_CTRL.LOCK and takes effect at the next boundary. -/
def writeSrvRt (n : Nat) (v : W64) (s : State) : State :=
  let c := s.srvCtx n
  let new := v &&& mask64 31 0
  let viol := v &&& mask64 63 32 ≠ 0 ∨ (srvLocked s ∧ new ≠ c.rt)
  let s' := if srvLocked s then s else s.onSrvCtx n fun c => { c with rt := new }
  if viol then violate 0 0x02 s' else s'

/-- SRV_RT_WRITE: a write of SRV_RT_n, or of RT in SRV_CFG_n. -/
def execSrvRtWrite (n : Ctx) (reserve : Bool) (value : W64) (s : State) : Out :=
  .next (bar0Write (if reserve then writeSrvRt n.val value else writeSrvCfg n.val value) s)

/-- The clearing of EN takes effect (R301): no list of the context comes into force, its slots retire at cycle 64. Once the last
slot is gone, the unit serves the context no more. -/
def closeServing (s : State) (n : Nat) (c : SrvCtx) : SrvCtx :=
  let en : Bool := bit c.cfg 63
  if c.disabling then { c with disabling := false, closing := true, next := if en then c.next else [] }
  else if en ∨ c.closing ∨ !(slotsOf s n).isEmpty ∨ !c.admits.isEmpty ∨ !c.releases.isEmpty then c
  else { c with serving := false, current := [], next := [], results := none, listBefore := [], victims := [], trims := [] }

/-- What the serving unit does for a context at a stitch boundary (R281, R296, R299, R301): the discard marks move on, RT
and HBM_RESERVE take effect, a cleared EN takes effect, and a SEQ_ADMIT that stood at the head at the boundary before has waited a
stitch more. -/
def srvBoundary (n : Nat) (s : State) : State :=
  let c := s.srvCtx n
  let aborted := (s.colCtx n).aborted
  let stands := admitHead s n
  let rt : Bool := bit c.cfg 63 && bit c.cfg 59
  let s := if rt ≠ c.rtNow ∨ c.rt ≠ c.reserveNow then s.onWork fun w => { w with ledgerDirty := true } else s
  s.onSrvCtx n fun c => closeServing s n { c with
    discard := aborted || c.discardNext, discardNext := aborted, rtNow := rt, reserveNow := c.rt, head := stands,
    waited := if stands.isSome ∧ stands = c.head then c.waited + 1 else 0 }

end Sys2Proof.Machine
end

