-- ==== Sys2Proof/Machine/Test.lean ====
section
/-! DEFINITION. The meanings of the test block and of the test access port (16_bringup_and_test, R422 to R432). -/

namespace Sys2Proof.Machine

/-- The units of Table 16-4. -/
inductive TestUnit where
  | band | panel | stack | port (depth : Nat) | pcie | pair
deriving DecidableEq, Repr

/-- A test that runs on demand: its unit and whether it is marked D (Table 16-4). -/
def testOf (id : Nat) : Option (TestUnit × Bool) :=
  match id with
  | 0x0101 | 0x0102 | 0x0601 => some (.band, true)
  | 0x0201 | 0x0602 => some (.panel, true)
  | 0x0301 | 0x0302 | 0x0303 | 0x0304 | 0x0701 => some (.stack, true)
  | 0x0411 => some (.port 1, false)
  | 0x0412 => some (.port 2, false)
  | 0x0413 => some (.port 3, false)
  | 0x0414 => some (.port 4, false)
  | 0x0415 => some (.port 5, false)
  | 0x0420 => some (.port 2, false)
  | 0x0502 => some (.pcie, false)
  | 0x0603 => some (.pair, true)
  | _ => none

/-- The two panels of an edge (Table 16-8, EDGE; Table 3-10). -/
def edgePanels (edge : Nat) : Option (Nat × Nat) :=
  if edge < 4 then some (edge, edge + 4)
  else if edge < 7 then some (edge - 4, edge - 3)
  else if edge < 10 then some (edge - 3, edge - 2)
  else none

/-- The panels a test reaches whole. -/
def testPanels (u : TestUnit) (target edge : Nat) : List Nat :=
  match u with
  | .panel => [target]
  | .pair => match edgePanels edge with
    | some (a, b) => [a, b]
    | none => []
  | _ => []

/-- The bands a test reaches. -/
def testBands (u : TestUnit) (target edge : Nat) : List Nat :=
  if u = .band then [target]
  else ((testPanels u target edge).map fun p => (List.range 16).map fun b => 16 * p + b).flatten

/-- The unit a test names exists, is presented and is not held off. -/
def testTarget (s : State) (u : TestUnit) (target edge : Nat) : Bool :=
  let panelOk (p : Nat) : Bool := decide (p < s.nPanels) && !s.flt.heldPanels.getLsbD p
  match u with
  | .band => bandState s target != .unavailable && decide (target < 128)
  | .panel => panelOk target
  | .stack => decide (target < s.nPanels) && !s.flt.heldStacks.getLsbD target
  | .port _ => decide (target < 16) && !s.flt.heldPorts.getLsbD target
  | .pcie => target == 0 || (target == 1 && s.straps.portS)
  | .pair => match edgePanels edge with
    | some (a, b) => a == target && panelOk a && panelOk b
    | none => false

/-- A transfer of a port runs (R428): port S carries shards and bundles of PORT 0, port H the rest. -/
def transferOnPort (s : State) (portS : Bool) : Bool :=
  s.work.transfers.any fun t => match t.kind with
    | .copyIn .. | .copyOut .. => !portS
    | .bundle b => b.portH != portS
    | .shard _ | .restore _ => portS

/-- A unit's use breaks the condition of Table 13-8. -/
def testInUse (s : State) (u : TestUnit) (target edge : Nat) : Bool :=
  match u with
  | .stack => stackUsed s target || presserBound s target
  | .pcie => transferOnPort s (target == 1)
  | .port _ => false
  | _ => (testBands u target edge).any fun g => (s.band g).owner != 0 || bandSwitching s g

/-- Why a START is refused (R428), as RESULT; none when the test starts. -/
def testRefusal (s : State) (id target edge : Nat) : Option Byte :=
  if s.flt.resetting then some 0x03
  else match testOf id with
    | none => some 0x05
    | some (u, d) =>
      if ¬ testTarget s u target edge then some 0x05
      else if d ∧ ¬ bit s.tst.ctrl 1 then some 0x04
      else if s.tst.busy ∨ testInUse s u target edge then some 0x02
      else match u with
        | .port depth => if (s.port target).state = .loopback ∧ (s.port target).loop.val = depth then none else some 0x05
        | _ => none

/-- A write of TST_CMD (Table 16-8). -/
def writeTstCmd (v : W64) (s : State) : State :=
  let s := if v &&& (mask64 63 48 ||| mask64 15 2) ≠ 0 then violate 0 0x02 s else s
  let s := s.onTst fun t => { t with cmd := v &&& mask64 47 16 }
  let (id, target, edge) := (fld v 47 32, fld v 31 24, fld v 23 16)
  if fld v 1 0 = 1 then
    match testRefusal s id target edge with
    | some r => s.onTst fun t => if t.busy then { t with result := r } else { t with result := r, test := BitVec.ofNat 16 id }
    | none =>
      let bands := match testOf id with
        | some (u, _) => (testBands u target edge).filter fun g => bandState s g != .unavailable
        | none => []
      let s := s.each bands fun s g => s.onBand g fun b => { b with state := .resetting, test := true }
      s.onTst fun t => { t with
        busy := true, test := BitVec.ofNat 16 id, target := target, edge := edge, stopping := false, elapsed := 0 }
  else if fld v 1 0 = 2 then s.onTst fun t => { t with stopping := t.busy }
  else s

/-- TST_START (R428). -/
def execTstStart (value : W64) (s : State) : Out := .next (writeTstCmd (putFld value 1 0 1) s)

/-- TST_STOP (R429). -/
def execTstStop (value : W64) (s : State) : Out := .next (writeTstCmd (putFld value 1 0 2) s)

/-- The unit reset after a destructive test (R428): bands, panels with their bolt stacks, or a stack with its presser. -/
def afterTest (u : TestUnit) (target edge : Nat) (s : State) : State :=
  let s := s.each (testBands u target edge) fun s g =>
    if (s.band g).test then bandBecomesOn g ((clearBand g s).onBand g fun b => { b with test := false }) else s
  match u with
  | .stack => clearStack target s
  | .panel => s.onBolt fun b => 
      let mine (k : Nat) : Bool := k / 2 ^ 27 == target
      { b with
        mem := Mem.clearRange b.mem (target * 2 ^ 32) ((target + 1) * 2 ^ 32)
        weak := b.weak.filter fun k => !mine k, bad := b.bad.filter fun x => !mine x.1
        rewritten := b.rewritten.filter fun k => !mine k, lapCorrected := b.lapCorrected.filter fun x => !mine x.1 }
  | _ => s

/-- A test ends with a RESULT: BUSY clears and vector 31 is sent (R432). -/
def endTest (r : Byte) (s : State) : State :=
  (s.onTst fun t => { t with busy := false, stopping := false, result := r }).emit (.msix 31)

/-- TEST_DONE (R428, R429): RESULT and the counts, the repair entries of a failure, the unit reset of a destructive test.
While Thimble restarts the end waits. -/
def execTestDone (o : TestObs) (elapsedUs : BitVec 32) (s : State) : Out :=
  if ¬ s.tst.busy ∨ ¬ thimbleRuns s then .next s
  else
    let t := s.tst
    let r : Byte := if t.stopping then 0x06 else if ¬ o.passed then 0x01 else if o.repaired then 0x07 else 0x00
    let s := s.onTst fun t => { t with elapsed := elapsedUs, detail := o.detail, errors := o.errors, checked := o.checked }
    let s := if r = 0x01 then logGeneral 0x04 0 (0x10 :: leBytes 2 t.test.toNat ++ leBytes 1 t.target) s else s
    let s := if t.stopping then s else s.each o.fuses fun s f => (addFuse f.1 f.2 s).2
    let s := match testOf t.test.toNat with
      | some (u, true) => afterTest u t.target t.edge s
      | _ => s
    .next (endTest r s)

/-- A SEAM test stops when its port leaves the loop-back it runs in (Table 16-6). -/
def seamTestCheck (s : State) : State :=
  match testOf s.tst.test.toNat with
  | some (.port depth, _) =>
    let p := s.port s.tst.target
    if s.tst.busy ∧ ¬ (p.state = .loopback ∧ p.loop.val = depth) then endTest 0x06 s else s
  | _ => s

/-! The test access port (R422 to R424). The boundary register is bytes of the model; BYPASS shifts out one 0 bit. -/

/-- BYPASS, and every code that acts as BYPASS. -/
def tapBypass (s : State) : State :=
  (s.onTap fun t => { t with ir := 0xFF, driven := false, highz := false, wrapper := none }).emit (.tdo [0])

/-- An instruction that needs TEST_MODE 1; with TEST_MODE 0 it acts as BYPASS (R422). -/
def tapInTest (f : Tap → Tap) (s : State) : State :=
  if s.straps.testMode then s.onTap f else tapBypass s

/-- The identification register (R423): STEPPING[3:0], the part, the manufacturer's code, 1. -/
def idcodeWord (s : State) : BitVec 32 :=
  BitVec.ofNat 32 (fld Config.stepping 3 0 * 2 ^ 28 + (if s.straps.grade7 then 0x7028 else 0x8032) * 2 ^ 12 +
    Config.jedec.toNat * 2 + 1)

/-- IDCODE (R423). -/
def execIdcode (s : State) : Out :=
  .next ((s.onTap fun t => { t with ir := 0x01, driven := false, highz := false, wrapper := none }).emit
    (.tdo (leBytes 4 (idcodeWord s).toNat)))

/-- SAMPLE/PRELOAD (R422): the balls are sampled; a preload is kept for EXTEST and CLAMP. -/
def execSamplePreload (preload : Option Bytes) (balls : Bytes) (s : State) : Out :=
  .next ((s.onTap fun t => { t with
    ir := 0x02, driven := false, highz := false, wrapper := none, boundary := preload.getD balls }).emit (.tdo balls))

/-- EXTEST (R422): the boundary register drives the balls. -/
def execExtest (s : State) : Out :=
  .next (tapInTest (fun t => { t with ir := 0x03, driven := true, highz := false, wrapper := none }) s)

/-- HIGHZ (R422): outputs are high-impedance. -/
def execHighz (s : State) : Out :=
  .next (tapInTest (fun t => { t with ir := 0x04, driven := false, highz := true, wrapper := none }) s)

/-- CLAMP (R422): outputs held from the boundary register, bypass selected. -/
def execClamp (s : State) : Out :=
  .next (tapInTest (fun t => { t with ir := 0x05, driven := true, highz := false, wrapper := none }) s)

/-- EXTEST_PULSE (R422). -/
def execExtestPulse (s : State) : Out :=
  .next (tapInTest (fun t => { t with ir := 0x06, driven := true, highz := false, wrapper := none }) s)

/-- EXTEST_TRAIN (R422). -/
def execExtestTrain (s : State) : Out :=
  .next (tapInTest (fun t => { t with ir := 0x07, driven := true, highz := false, wrapper := none }) s)

/-- HBM_WRAPPER (R424): the selected stack's wrapper path is passed through. -/
def execHbmWrapper (select : Fin 8) (s : State) : Out :=
  .next (tapInTest (fun t => { t with ir := 0x10, driven := false, highz := false, wrapper := some select }) s)

/-- PRIVATE_INSTRUCTION (Table 16-2): with TEST_MODE 0, and for a code outside 0x20 to 0x3F, BYPASS; with TEST_MODE 1 the
spec names its uses and gives no effect, so the command is refused by name. -/
def execPrivateInstruction (code : Byte) (s : State) : Out :=
  if s.straps.testMode ∧ 0x20 ≤ code.toNat ∧ code.toNat ≤ 0x3F then .refused (.privateTest code)
  else .next (tapBypass s)

/-- BYPASS (R422). -/
def execBypass (_code : Byte) (s : State) : Out := .next (tapBypass s)

end Sys2Proof.Machine
end

