-- ==== Sys2Proof/Machine/Training.lean ====
section
/-! DEFINITION. The meanings of the training step's commands (07_training_step). -/

namespace Sys2Proof.Machine

/-! Votes and verdicts (R212 to R214). -/

/-- VOTE_FORM (R212): at the boundary that opens the vote stitch the context's vote is formed from its pressers and sent up. An
observer sends none (R320). -/
def execVoteForm (n : Ctx) (s : State) : Out :=
  let t := s.train n.val
  match t.voteStitch with
  | none => .next s
  | some v =>
    if ¬ activeTraining s n.val ∨ outOfService s ∨ before s.stu.stitch v ∨ t.votedStitch = some v then .next s
    else
      let s := s.each (pressersOf s n.val) (voteLatch n.val)
      let s := s.onTrain n.val fun t => { t with votedStitch := some v }
      .next (if observer s n.val then s else castVote (localVote s n.val v) s)

/-- VOTE (R212): a child's aggregate for a tag replaces its last one, and a changed aggregate goes up. -/
def execVote (port : PortId) (m : VoteMsg) (s : State) : Out :=
  if stitchStops s ∨ ¬ (treeChildren s false).contains port.val ∨ voteCancelled s m.tag m.voteStitch then .next s
  else .next (pushVote m.tag (onVote m.tag m.voteStitch
    (fun v => { v with children := v.children.filter (fun c => c.1 != port) ++ [(port, m)] }) s))

/-- The step number a VERDICT carries: that of the master's own context of the job; a master outside the job holds none, and the
field is a free value. -/
def verdictStep (s : State) (tag : BitVec 16) : BitVec 44 :=
  match (voters s tag).head? with
  | some n => (s.train n).step
  | none => BitVec.ofNat 44 (Config.freeNat s.free)

/-- The master's decision is due: at N_v + h where a context of its own tells h (R213). -/
def decisionDue (s : State) (v : VoteState) : Bool :=
  match (voters s v.tag).head? with
  | some n => !before s.stu.stitch (v.voteStitch + BitVec.ofNat 40 (leadHalf s n))
  | none => !before s.stu.stitch (v.voteStitch + 1)

/-- VERDICT_DECISION (R213): the master, or a standalone device for itself, decides and sends VERDICT down the tree. -/
def execVerdictDecision (tag : BitVec 16) (s : State) : Out :=
  match voteOf s tag with
  | none => .next s
  | some v =>
    if ¬ leads s ∨ stitchStops s ∨ ¬ decisionDue s v then .next s
    else
      let m : VerdictMsg :=
        { tag := tag, voteStitch := v.voteStitch, verdict := decide213 (aggregate v), step := verdictStep s tag }
      .next (dropVote tag (holdVerdict m (sendDown (downTree s) (.verdict m) s.drew)))

/-- VERDICT (R213): a device that follows holds it for the commit stitch and forwards it down the tree. -/
def execVerdict (_port : PortId) (m : VerdictMsg) (s : State) : Out :=
  if stitchStops s ∨ ¬ follows s ∨ voteCancelled s m.tag m.voteStitch then .next s
  else .next (dropVote m.tag (holdVerdict m (sendDown (downTree s) (.verdict m) s)))

/-- VERDICT_MISSING (R213): no verdict by the boundary of the commit stitch is a device fault with the alignment cause; the
record carries the vote stitch. The member does not guess. -/
def execVerdictMissing (n : Ctx) (s : State) : Out :=
  let t := s.train n.val
  match t.voteStitch with
  | some v =>
    if commitDue s n.val ∧ t.verdict.isNone then
      .next (declareFault (alignmentRec s 4 4 v.toNat) (s.onTrain n.val fun t => { t with voteStitch := none }))
    else .next s
  | none => .next s

/-- COMMIT_STITCH (R214): the held verdict takes effect in the maintenance slot of the commit stitch. -/
def execCommitStitch (n : Ctx) (s : State) : Out :=
  match (s.train n.val).verdict with
  | some v => if commitDue s n.val then .next (applyVerdict n.val v s) else .next s
  | none => .next s

/-! Records (R198 to R200, R210, R211). -/

/-- INBOX_RECORD (R199): the next record of a ring, unless it is a norm record, takes its outcome. -/
def execInboxRecord (k : Panel) (s : State) : Out :=
  match readyRecord s k.val with
  | some (n, r, b) =>
    if isNorm b ∨ slotsMissing s k.val n false b then .next s
    else .next (takeRecord k.val n b (takeNext k.val r (meetQueues .presser s)))
  | none => .next s

/-- NORM_RECORD (R211): the next record of a ring, when it is a norm record. -/
def execNormRecord (k : Panel) (s : State) : Out :=
  match readyRecord s k.val with
  | some (n, r, b) => if isNorm b then .next (takeNorm k.val n b (takeNext k.val r (meetQueues .presser s))) else .next s
  | none => .next s

/-- NORM_PARTIAL (R210): at the first boundary after every own record was taken the partial norm is written. -/
def execNormPartial (k : Panel) (s : State) : Out :=
  match presserLive s k.val with
  | some n => if partialDue s k.val n ∧ ¬ outOfService s then .next (writePartial k.val n (meetQueues .presser s)) else .next s
  | none => .next s

/-- MIRROR_RECORD (R200): the first mirror record at a presser. It is replayed while the presser mirrors, in slots of its reservation
(R203); in CARRYING replay has stopped (R324). -/
def execMirrorRecord (k : Panel) (s : State) : Out :=
  let p := s.presser k.val
  match p.mirrorIn with
  | [] => .next s
  | b :: rest =>
    let drop (s : State) : State := s.onPresser k.val fun p => { p with mirrorIn := rest }
    match presserLive s k.val with
    | none => .next (drop s)
    | some n =>
      if outOfService s ∨ ¬ mirrorOn s k.val ∨ s.lin.state = .carrying then .next (drop s)
      else if slotsMissing s k.val n true b then .next s
      else .next (takeMirror k.val n b (drop (meetQueues .presser s)))

/-! Refill records (R320 to R322). -/

/-- A refill packet leaves the packets that have come. -/
def dropRefill (p : Packet) (s : State) : State := s.onPrs fun x => { x with refillIn := x.refillIn.erase p }

/-- REFILL_BLOCK (R321): the first BLOCK record of a presser's mirror. -/
def execRefillBlock (k : Panel) (s : State) : Out :=
  match presserLive s k.val with
  | none => .next s
  | some n => match refillFirst s n k.val 3 with
    | some p => .next (takeBlock k.val n p (dropRefill p (meetQueues .presser s)))
    | none => .next s

/-- REFILL_STATE (R320): the first STATE record. -/
def execRefillState (k : Panel) (s : State) : Out :=
  match presserLive s k.val with
  | none => .next s
  | some n => match refillFirst s n k.val 4 with
    | some p => .next (takeState k.val n p (dropRefill p s))
    | none => .next s

/-! Registers (R201, R202, R217, R218). -/

/-- A write of PRS_TBL_CMD (Table 7-13, R202): CONTEXT is stored; LOAD starts a read, or reports BUSY. -/
def writePrsTblCmd (v : W64) (s : State) : State :=
  let s := if v &&& (mask64 63 24 ||| mask64 15 10 ||| mask64 3 2) ≠ 0 then violate 0 0x02 s else s
  let n : Ctx := Fin.ofNat 16 (fld v 7 4)
  let s := s.onPrs fun p => { p with tblCtx := n }
  if fld v 1 0 ≠ 1 then s
  else if s.prs.loading.isSome then s.onPrs fun p => { p with result := 5 }
  else s.onPrs fun p => { p with loading := some (n, p.tblAddr) }

/-- PRS_TBL_LOAD: CMD LOAD. -/
def execPrsTblLoad (value : W64) (s : State) : Out := .next (bar0Write (writePrsTblCmd (putFld value 1 0 1)) s)

/-- PRESSER_IMAGE_CHECKED (R202): the image being read ends with its RESULT; a good one takes effect or is staged. -/
def execPresserImageChecked (portOk : Bool) (s : State) : Out :=
  match s.prs.loading with
  | none => .next s
  | some (n, addr) =>
    let head := Mem.bytes s.hostMem addr.toNat 64
    let (r, img) := checkImage s n.val (Mem.bytes s.hostMem addr.toNat (imageSize head)) portOk
    let s := s.onPrs fun p => { p with loading := none, result := BitVec.ofNat 8 r }
    match img with
    | some x => .next (stageImage n.val x s)
    | none => .next s

/-- PRS_CTRL.LOCK. -/
def prsLocked (s : State) : Bool := bit s.prs.ctrl 0

/-- PRS_BIND_s refuses a write whole (R198, R201, R390): a bad INBOX_LINES that differs from the held one; EN with a CONTEXT
that is not ACTIVE of training tenancy, either differing from what is held. -/
def bindRefused (s : State) (old v : W64) : Bool :=
  let lines := fld v 39 16
  (decide (lines ≠ fld old 39 16) && (lines == 0 || lines % 9 != 0)) ||
    (bit v 0 && (!bit old 0 || decide (fld v 7 4 ≠ fld old 7 4)) && !activeTraining s (fld v 7 4))

/-- A write of PRS_BIND_s (Table 7-14). A new binding starts the presser afresh. The
registers of a presser that is not presented take no write. -/
def writePrsBind (k : Nat) (v : W64) (s : State) : State :=
  let rsv := mask64 15 8 ||| mask64 3 2
  if s.nPanels ≤ k then checkRsv rsv v s else
  let old := (s.presser k).bind
  let new := v &&& ~~~ rsv
  let refused : Bool := if prsLocked s then decide (new ≠ old) else bindRefused s old v
  let s := if refused ∨ v &&& rsv ≠ 0 then violate 0 0x02 s else s
  if refused ∨ prsLocked s then s
  else
    let s := s.onPresser k fun p => { p with bind := new }
    if bit new 0 ≠ bit old 0 ∨ fld new 7 4 ≠ fld old 7 4 then bindPresser k s else s

/-- PRS_BIND. -/
def execPrsBind (k : Panel) (value : W64) (s : State) : Out := .next (bar0Write (writePrsBind k.val value) s)

/-- A write of PRS_RESERVE_s (Table 7-14): the regions change now, SLOTS comes into force at the next boundary (R218). -/
def writePrsReserve (k : Nat) (v : W64) (s : State) : State :=
  let rsv := mask64 63 48 ||| mask64 35 32
  if s.nPanels ≤ k then checkRsv rsv v s else
  let old := (s.presser k).reserve
  let new := v &&& ~~~ rsv
  let s := if v &&& rsv ≠ 0 ∨ (prsLocked s ∧ new ≠ old) then violate 0 0x02 s else s
  if prsLocked s then s else s.onPresser k fun p => { p with reserve := new }

/-- PRS_RESERVE_WRITE. -/
def execPrsReserveWrite (k : Panel) (value : W64) (s : State) : Out := .next (bar0Write (writePrsReserve k.val value) s)

/-- A write of PRS_MIRROR (Table 7-13): in force from the next boundary (R218). -/
def writePrsMirror (v : W64) (s : State) : State :=
  let new : BitVec 32 := BitVec.ofNat 32 (fld v 31 0)
  let s := if v &&& mask64 63 32 ≠ 0 ∨ (prsLocked s ∧ new ≠ s.prs.mirror) then violate 0 0x02 s else s
  if prsLocked s then s else s.onPrs fun p => { p with mirror := new }

/-- PRS_MIRROR_WRITE. -/
def execPrsMirrorWrite (value : W64) (s : State) : Out := .next (bar0Write (writePrsMirror value) s)

/-- What a boundary does to the reservations (R218): written SLOTS and PRS_MIRROR come into force, and the ledger is to be
rebuilt. -/
def reserveBoundary (s : State) : State :=
  let slots (p : Presser) : BitVec 32 := BitVec.ofNat 32 (fld p.reserve 31 0)
  let changed : Bool := s.prs.mirror != s.prs.mirrorNow || (List.range 8).any fun k => slots (s.presser k) != (s.presser k).slotsNow
  if ¬ changed then s
  else s.onPrs fun p => { p with
    mirrorNow := p.mirror, pressers := p.pressers.map fun q => { q with slotsNow := slots q }
    ledgerDirty := true }

/-- PRESSER_LEDGER_REBUILD (R218): the rebuild at the boundary where a changed reservation takes effect. -/
def execPresserLedgerRebuild (s : State) : Out := .next (rebuildDue s)

/-- A write of PRS_STEP_n or PRS_COUNT_n (R217, R390): refused whole while a vote is pending, when a value differs. -/
def writePrsStep (n : Nat) (count : Bool) (v : W64) (s : State) : State :=
  let t := s.train n
  let held : W64 := if count then at64 32 t.skips.toNat ||| at64 0 t.updates.toNat else at64 0 t.step.toNat
  let rsv : W64 := if count then 0 else mask64 63 44
  let refused : Bool := t.voteStitch.isSome && decide (v &&& ~~~ rsv ≠ held)
  let s := if refused ∨ v &&& rsv ≠ 0 then violate 0 0x02 s else s
  if refused then s
  else s.onTrain n fun t =>
    if count then { t with skips := BitVec.ofNat 32 (fld v 63 32), updates := BitVec.ofNat 32 (fld v 31 0) }
    else { t with step := BitVec.ofNat 44 (fld v 43 0) }

/-- PRS_STEP_WRITE. -/
def execPrsStepWrite (n : Ctx) (count : Bool) (value : W64) (s : State) : Out := .next (bar0Write (writePrsStep n.val count value) s)

end Sys2Proof.Machine
end

