-- ==== Sys2Proof/Machine/Boundary.lean ====
section
/-! DEFINITION. STITCH_BOUNDARY (R16): everything that a stitch boundary and the start of its maintenance slot bring about,
but for the steps the table lists as commands of their own. -/

namespace Sys2Proof.Machine

/-! Counters (R20, R21, R25 to R27, R421). -/

/-- The stitch unit counts at a boundary: ENABLE is set and it is not acquiring. -/
def counts (s : State) : Bool := bit s.stu.ctrl 2 && !s.stu.acquiring

/-- The time base reaches the boundary, which the last marker places earlier or later (R23): the correction acts between the stitches,
and what of it is less than a time-base cycle is kept. -/
def closeTime (s : State) : State :=
  let ps := 1000 * ((s.stu.length - s.stu.pos : Nat) : Int) + s.stu.phasePs + s.stu.correctionPs
  let rest := (ps / 1000).toNat
  (s.onStu fun u => { u with
    cycle := u.cycle + BitVec.ofNat 48 rest, pos := 0, marks := u.marks + 1, correctionPs := 0,
    phasePs := (ps % 1000).toNat }).setNs (s.ns + rest)

/-- The stitch counter and what counts stitches beside it; the first boundary after ENABLE keeps the counter (R421). A
follower that took no marker in the stitch has missed one more (R26, R27). -/
def advance (s : State) : State :=
  let on := counts s
  let follower := on && follows s && s.stu.counting
  s.onStu fun u => { u with
    stitch := if on && u.counting then u.stitch + 1 else u.stitch
    counting := u.counting || on
    annSent := false, stretchSent := false, factorAge := u.factorAge + 1
    missed := if follower && !u.markerSeen then BitVec.ofNat 7 (min 127 (u.missed.toNat + 1)) else u.missed
    primaryMissed := if u.primarySeen then 0 else if follower then u.primaryMissed + 1 else u.primaryMissed
    markerSeen := false, primarySeen := false }

/-- A period written while ENABLE was 0 takes effect (R18, R420). -/
def applyImmediate (s : State) : State :=
  match s.stu.immediate with
  | none => s
  | some u => applyPeriod u (s.onStu fun x => { x with immediate := none })

/-- The age of every context that is not FREE (R71). -/
def ageContexts (s : State) : State :=
  s.onHif fun h => { h with ctxs := h.ctxs.map fun c => if c.state = .free then c else { c with age := c.age + 1 } }

/-! Thermal and supply counts (R33, R407, R408). -/

/-- One panel's counts over the stitch just ended. -/
def countPanel (x : PanelClock) : PanelClock :=
  { x with
    hot := if 16 < x.targetK ∧ 1440 ≤ x.hottest.toInt then x.hot + 1 else x.hot
    nominal := if x.cooled then (if x.clockK = 16 then x.nominal + 1 else 0) else x.nominal }

/-- A presented stack's last reading is 95 °C or more. -/
def stackHot (s : State) : Bool := (presented s).any fun k => decide (95 ≤ stackTemp s k)

/-- What the stretch reasons count in stitches. -/
def countReasons (s : State) : State :=
  let hot := decide (16 < s.stu.hbmTarget) && stackHot s
  let s := s.onThm fun t => { t with panels := t.panels.map countPanel }
  s.onStu fun u => { u with
    hbmHot := if hot then u.hbmHot + 1 else u.hbmHot
    supplyOk := if u.supply && u.supplyBad == [] then u.supplyOk + 1 else 0 }

/-! The log's summaries (Table 15-14). -/

/-- The correctable-error counts of the units that keep one: panels' cores, bolt panels, stacks, ports. -/
def errorCounts (s : State) : List Nat :=
  s.cores.corrected.toList ++ s.bolt.corrected.toList ++ s.hbm.corrected.toList ++
    s.sea.ports.toList.map fun p => p.cwCorrected

/-- What was added to each count since it was last seen; a count that a reset cleared starts again. -/
def addedTo (seen now : List Nat) : List Nat :=
  now.zipIdx.map fun x => let old := seen.getD x.2 0; if old ≤ x.1 then x.1 - old else x.1

/-- Once a second the log takes the nonzero counts of correctable errors and of violations. -/
def logSeconds (s : State) : State :=
  let now := s.ns / 1000000000
  if now = s.thm.second ∨ s.thm.restarting ∨ s.thm.halted then s
  else
    let (e, v) := (errorCounts s, s.flt.viol.toList.map fun x => x.count.toNat)
    let (de, dv) := (addedTo s.thm.ceSeen e, addedTo s.thm.violSeen v)
    let s := s.onThm fun t => { t with second := now, ceSeen := e, violSeen := v }
    let s := if de.any (· ≠ 0) then logGeneral 0x02 0 (Config.logSummary 2 de) s else s
    if dv.any (· ≠ 0) then logGeneral 0x03 0 (Config.logSummary 3 dv) s else s

/-! Slot tables (R225, R238). -/

/-- An entry's run covers a stitch. -/
def covers (n : Stitch) (e : ArmEntry) : Bool := !before n e.first && !endsBefore e.last n

/-- The entries due in the stitch that opens. -/
def dueEntries (s : State) : List ArmEntry := s.work.entries.filter (covers s.stu.stitch)

/-- The owners of the free entries of a port, in the order they are given: mirror entries on SP_12 to SP_15, then each
context's SEAM counts of VC_1 to VC_6. -/
def slotDemand (s : State) (due : List (Nat × Pattern)) (m : Nat) : List (Fin 8 × Fin 16) :=
  let mirror := List.replicate (mirrorEntries s m) ((4 : Fin 8), Fin.ofNat 16 ((liningCtx s).getD 0))
  let of (n v : Nat) : List (Fin 8 × Fin 16) :=
    let k := ((due.filter fun x => x.1 == n).map fun x => Tab.getD x.2.seam (8 * m + v) 0).sum
    List.replicate k (Fin.ofNat 8 v, Fin.ofNat 16 n)
  mirror ++ ((List.range 16).map fun n => ([1, 2, 3, 4, 5, 6].map (of n)).flatten).flatten

/-- The fixed entries of every port. -/
def fixedSlots : Tab (Fin 8 × Fin 16) := [(0, (0, 0)), (64, (7, 0)), (128, (0, 0)), (144, (7, 0)), (224, (7, 0))]

/-- The free entries in ascending order. -/
def freeSlots : List Nat := (List.range 256).filter fun i => !([0, 64, 128, 144, 224] : List Nat).contains i

/-- A port's slot table for the stitch. -/
def slotTable (s : State) (due : List (Nat × Pattern)) (m : Nat) : Tab (Fin 8 × Fin 16) :=
  (freeSlots.zip (slotDemand s due m)).foldl (fun t x => Tab.put t x.1 x.2) fixedSlots

/-- Every port's slot table, from the entries armed for the stitch before any is withdrawn, and from PRS_MIRROR as it was in
force before the boundary (R218, R225). -/
def buildTables (s : State) : State :=
  let due := charged s (dueEntries s)
  s.onSea fun a => { a with ports := Vector.ofFn fun m => { vAt a.ports m.val {} with table := slotTable s due m.val } }

/-! Latched errors (R91, R113, R154, R179). -/

/-- The record of a core's uncorrectable error (R91). -/
def coreUeRecord (s : State) (c : Nat) (u : CoreUe) : FaultRec :=
  let (p, row, col) := (c / 10000, c % 10000 / 125, c % 125)
  let k := bandOfCore c
  faultRec s (if u.istore then 0x11 else 0x10) 3 0x01 p (row * 65536 + col) (physCol s p row col)
    (contextMask [(s.band k).owner.val]) u.addr u.syndrome.toNat

/-- The record of two flits that met at a router (R113). A router in pass-through has no core of its own: the logical column
is then a free value. -/
def defectRecord (s : State) (r : Nat) (x : Router) (route : BitVec 8) : FaultRec :=
  let (p, row, pcol) := routerAt r
  let col := match coreOfRouter s r with
    | some c => c % 125
    | none => Config.freeNat s.free % 256
  faultRec s 0x15 3 0x01 p (row * 65536 + col) pcol (contextMask [(s.band (bandOfRouter r)).owner.val]) 0
    (route.toNat + 256 * x.conflicts.toNat)

/-- The cores' and routers' latched errors are declared. -/
def coreBoundary (s : State) : State :=
  let ues := (s.cores.cores.map fun x => x.2.ue.map fun u => (x.1, u)).flatten
  let mets := s.cores.routers.filterMap fun x => x.2.conflict.map fun c => (x.1, x.2, c)
  let s := if ues.isEmpty then s
    else s.onCores fun k => { k with cores := k.cores.map fun x => (x.1, { x.2 with ue := [] }) }
  let s := if mets.isEmpty then s
    else s.onCores fun k => { k with routers := k.routers.map fun x => (x.1, { x.2 with conflict := none }) }
  let s := s.each ues fun s x => declareFault (coreUeRecord s x.1 x.2) s
  s.each mets fun s x => declareFault (defectRecord s x.1 x.2.1 x.2.2) s.drew

/-- A fault is known or latched that this boundary acts on. -/
def faultComing (s : State) : Bool :=
  s.flt.jobFault || (s.cores.cores.any fun x => !x.2.ue.isEmpty) || (s.cores.routers.any fun x => x.2.conflict.isSome) ||
    !s.bolt.ue.isEmpty || !s.hbm.ue.isEmpty || s.col.ctxs.toList.any fun c => c.lent.any fun x => x.2 != 0

/-- At the boundary that opens a commit stitch the VERDICT comes before the fault's actions (R369). -/
def verdictsFirst (s : State) : State :=
  if ¬ faultComing s then s
  else s.each jobContexts fun s n => match (s.train n).verdict with
    | some v => if commitDue s n then applyVerdict n v s else s
    | none => s

/-- The fault records of the stitch are posted (R356). -/
def postRecords (s : State) : State :=
  let l := s.flt.records
  (s.onFlt fun f => { f with records := [] }).each l fun s r => postRecord r s

/-- Step 2 of the job-fault actions (R358): contexts 1 to 15 are FAULTED and lose their arm entries, without events. -/
def jobFaultActions (s : State) : State :=
  let s := s.onFlt fun f => { f with deviceFault := false }
  if ¬ s.flt.jobFault then s
  else
    let fault (c : CtxRegs) : CtxRegs := if c.state = .active then { c with state := .faulted } else c
    let s := (s.onFlt fun f => { f with jobFault := false }).onWork fun w => { w with
      entries := w.entries.filter fun e => e.ctx.val == 0 }
    s.each jobContexts fun s n => s.onCtx n fault

/-! Entries at the boundary (R130 to R132, R137). -/

/-- An ARM run has ended: the entry leaves and its completion is posted. -/
def endRun (s : State) (e : ArmEntry) : State :=
  let s := removeEntry e s
  match e.notify, e.ran with
  | some i, some r => postCompletion e.ctx.val 0x02 0 0 i e.handle r [] s
  | some i, none => postCompletion e.ctx.val 0x02 0 4 i e.handle 0 [] s
  | none, _ => s

/-- The entries whose last stitch has ended leave. -/
def endRuns (s : State) : State := s.each (s.work.entries.filter fun e => endsBefore e.last s.stu.stitch) endRun

/-- The barrier of an entry has not let it start. -/
def notStarted (e : ArmEntry) : Bool := e.barrier.isSome && !e.go

/-- A MISS withdraws at the first boundary after it; an entry that its start stitch passed by goes too (R30). -/
def withdrawMissed (s : State) : State :=
  let out (e : ArmEntry) : Bool := notStarted e && (e.missed || before e.first s.stu.stitch)
  (s.each (s.work.entries.filter out) fun s e =>
    withdraw 0x32 (e.barrier.getD 0).toNat (e.first.toNat % 2 ^ 32) e s).onStu fun u => { u with
      barriers := u.barriers.filter fun b => !before b.start u.stitch }

/-- The layout epoch in force in the stitch that opens: a BEGIN that is due makes its own (R137, R309). -/
def epochNow (s : State) (n : Nat) : BitVec 16 :=
  let t := s.train n
  match t.begin with
  | some b => if beginDue s n b then b.newEpoch else t.current
  | none => t.current

/-- The first reason of R137, after the period and the barrier, to withdraw an entry due in the stitch. -/
def dueReason (s : State) (p : Pattern) (e : ArmEntry) : Option (Nat × Nat × Nat) :=
  let cur := epochNow s e.ctx.val
  if p.epoch ≠ 0 ∧ p.epoch ≠ cur then some (0x33, p.epoch.toNat, cur.toNat)
  else match e.bands.find? fun g => (s.band g).owner != e.ctx with
    | some g => some (0x34, g, (s.band g).owner.val)
    | none => match e.bands.find? fun g => bandState s g != .on with
      | some g => some (0x35, g, 0)
      | none => none

/-- A period change that applies in the stitch withdraws first (R17, R136, R137). -/
def withdrawPeriod (s : State) : State :=
  match dueHead s with
  | some { kind := .period u, .. } =>
    let old := s.stu.periodUnits
    let s := s.onStu fun x => { x with periodUnits := u }
    (rebuildLedger (budgetCheck s)).onStu fun x => { x with periodUnits := old }
  | _ => s

/-- The withdrawals of due entries by R137. -/
def withdrawDue (s : State) : State :=
  s.each ((dueEntries s).filter fun e => !notStarted e) fun s e => match patternOf s e.ctx.val e.handle with
    | some p => match dueReason s p e with
      | some (r, d0, d1) => withdraw r d0 d1 e s
      | none => s
    | none => s

/-! Dispatch (R88, R108, R111, R131). -/

/-- What R88 leaves of a core: scratch, instruction store, tallies, and the errors it has met. -/
def freshCore (k : Core) : Core :=
  { scratch := k.scratch, istore := k.istore, tallies := k.tallies, ceCount := k.ceCount, ue := k.ue }

/-- A placed core starts at core cycle 96 with the first word of its entry. -/
def startCore (p : Pattern) (s : State) (c : CorePlace) : State :=
  let r : CoreRun :=
    { ctx := p.ctx, handle := p.handle, length := c.words.length, pc := c.entry, nextCycle := 96,
      waiting := decide (c.words.length ≤ c.entry) }
  s.onCore c.core fun k => { freshCore k with run := some r }

/-- An entry that covers the stitch is dispatched on its bands. -/
def dispatchEntry (p : Pattern) (e : ArmEntry) (s : State) : State :=
  let now := s.stu.stitch
  let run : BandRun := { ctx := p.ctx, handle := p.handle, cycles := p.declared, pleat := p.pleat, marks := [] }
  let fresh (x : Nat × Core) : Nat × Core := if e.bands.contains (bandOfCore x.1) then (x.1, freshCore x.2) else x
  let s := s.onCores fun k => { k with cores := k.cores.map fresh }
  let s := s.each p.cores (startCore p)
  let s := s.onStu fun u => { u with bands := e.bands.foldl (fun t g => Tab.put t g run) u.bands }
  s.onWork fun w => { w with entries := w.entries.map fun x => if x.order = e.order then { x with ran := some now } else x }

/-- The panel sequencers dispatch: no entry whose barrier has not let it start, none that a DISARM ends at this boundary. -/
def dispatchDue (s : State) : State :=
  let ending (e : ArmEntry) : Bool := s.work.disarms.any fun p => disarmDue s p && disarms p e
  s.each ((dueEntries s).filter fun e => !notStarted e && !ending e) fun s e =>
    match patternOf s e.ctx.val e.handle with
    | some p => dispatchEntry p e s
    | none => s

/-- The patterns of the stitch just ended run no more. -/
def stopRuns (s : State) : State :=
  (s.onCores fun k => { k with cores := k.cores.map fun x => (x.1, { x.2 with run := none, recent := [] }) }).onStu fun u => { u with bands := [] }

/-- The regions that the extents of the dispatched entries name: context and region (R149). -/
def usedRegions (s : State) : List (Nat × Nat) :=
  ((dispatched s).map fun b => b.2.extents.map fun t => (b.2.ctx.val, t.region)).flatten

/-! Completions that wait for a boundary. -/

/-- FENCE descriptors complete at the boundary after the region is FENCED (R148). -/
def completeFences (s : State) : State :=
  let l := s.work.fences
  (s.onWork fun w => { w with fences := [] }).each l fun s f => complete f.ctx.val 0x0C f.notify f.ringIndex 0 s

/-- Vote-only ARMs complete after their vote stitch (R190). -/
def completeVotes (s : State) : State :=
  let done (v : VoteNotify) : Bool := before v.stitch s.stu.stitch
  let l := s.work.voteNotifies.filter done
  (s.onWork fun w => { w with voteNotifies := w.voteNotifies.filter fun v => !done v }).each l fun s v =>
    postCompletion v.ctx.val 0x02 0 0 v.ringIndex 0xFFFF v.stitch [] s

/-! The boundary. -/

/-- What a boundary does whether or not the stitch unit counts (R420): the end of the old stitch, then registers written for a
boundary, ports, bands, rings and switches. -/
def boundaryAlways (s : State) : State :=
  let s := s.each allPorts fun s m => unsentDiscard m s
  let s := s.each allPorts fun s m => portBoundary m s
  let s := mirrorBoundary s
  let s := s.each (List.range 16) fun s n => creditApply n (seqAdvance n (creditCheck n s))
  let s := s.each jobContexts fun s n => srvBoundary n s
  let s := hbmBoundary (boltBoundary (coreBoundary s))
  let s := liningBoundary (ringBoundary (switchBoundary (shareBoundary s)))
  completeVotes (completeFences (seamTestCheck s))

/-- What a boundary does with arm entries and patterns. -/
def boundaryWork (s : State) : State :=
  let s := withdrawMissed (withdrawPeriod (endRuns s))
  let s := withdrawDue s
  let s := s.each ((List.range 128).filter fun g => (s.band g).downPending || (s.band g).upAfter) fun s g =>
    bandBoundary g (if (s.band g).state = .on ∧ (s.band g).downPending then stopLoaders g s else s)
  let s := ledgerIfDirty s
  let s := if counts s then dispatchDue s else s
  stampSlots (usedRegions s) s

/-- The panel sequencers write their heartbeats in the maintenance slot (R16, R354). -/
def writeBeats (s : State) : State :=
  s.onFlt fun f => { f with
    beaten := bitsOf 8 (presented s)
    beats := (presented s).foldl (fun v p => vMod v p fun b => b + 1) f.beats }

/-- What a boundary does in a device in service. -/
def boundaryService (s : State) : State :=
  let s := reserveBoundary (buildTables (collectTallies (writeBeats s)))
  let s := stopRuns (passSlots (boltCycles s))
  let s := jobFaultActions (postRecords (boundaryAlways (verdictsFirst s)))
  if outOfService s then s else boundaryWork s

/-- What a boundary does to a port of a device that resets or is MANAGEMENT_ONLY (R222, R225, R237, R246): its configuration and its
training go on as they are, a new stitch of frames opens, and FENCE takes effect. -/
def portHeld (m : Nat) (s : State) : State :=
  let p := s.port m
  let s := (unsentDiscard m s).onPort m fun p => { p with frame := 0, fencePending := none, fence := p.fencePending.getD p.fence }
  match p.fencePending with
  | some f => fenceBoundary m f s
  | none => s

/-- What a boundary does in a device that resets or is MANAGEMENT_ONLY: slot tables are built, records are posted, and the ports'
frames go on. -/
def boundaryHeld (s : State) : State := jobFaultActions (postRecords ((buildTables s).each allPorts fun s m => portHeld m s))

/-- The messages of a boundary: MARKER (R23), the own request, then the announcement, which waits for a change that is due
(R34, R35). -/
def boundaryMessages (s : State) : State :=
  let s := if counts s then sendMarker s else s
  let s := updateOwn s
  if counts s && (dueHead s).isNone then leaderAnnounce s else s

/-- STITCH_BOUNDARY (R16): the stitch period expires and a new stitch opens. None is marked during a power-on. -/
def execStitchBoundary (s : State) : Out :=
  if s.flt.phase = .powerOn then .next s
  else
    let s := countReasons (chargePhases s)
    let s := advance (closeTime s)
    let s := if s.stu.counting then ageContexts s else s
    let s := applyImmediate (relength s)
    let s := if outOfService s then boundaryHeld s else boundaryService s
    .next (logSeconds (panelClocks (if stitchStops s then s else boundaryMessages s)))

end Sys2Proof.Machine
end

