-- ==== Sys2Proof/Machine/Checkpoints.lean ====
section
/-! DEFINITION. The meanings of the checkpoint and bundle descriptors (12_checkpoints, R332 to R351). -/

namespace Sys2Proof.Machine

/-! Shards (R332 to R338). -/

/-- The kind of a KIND byte (Table 12-1). -/
def shardKind (b : Nat) : Option ShardKind :=
  match b with
  | 1 => some .masters
  | 2 => some .first
  | 3 => some .second
  | 4 => some .factored
  | 5 => some .working
  | 7 => some .jobState
  | _ => none

/-- The KIND byte of a kind. -/
def shardCode : ShardKind → Nat
  | .masters => 1
  | .first => 2
  | .second => 3
  | .factored => 4
  | .working => 5
  | .jobState => 7

/-- A kind fits an entry (Table 12-1). -/
def kindFits (k : ShardKind) (e : PrsEntry) : Bool :=
  match k with
  | .masters => true
  | .first => e.kind == .adamw || e.kind == .sgd
  | .second => e.kind == .adamw
  | .factored => e.kind == .factored
  | .working => e.wfmt == 0 || e.wfmt == 1
  | .jobState => true

/-- ELEM of a shard (Table 12-2). -/
def shardElem (k : ShardKind) (e : PrsEntry) : Nat :=
  match k with
  | .masters => 0
  | .first => b2n e.momBf16
  | .second => b2n e.momBf16
  | .factored => 0
  | .working => if e.wfmt = 0 then 1 else 3
  | .jobState => 0xFF

/-- The bytes that one block's moment takes. -/
def momentSize (e : PrsEntry) : Nat := if e.momBf16 then 128 else 256

/-- The data bytes of `count` blocks of an entry (Table 12-1). -/
def shardSize (k : ShardKind) (e : PrsEntry) (count : Nat) : Nat :=
  match k with
  | .masters => 256 * count
  | .first => momentSize e * count
  | .second => momentSize e * count
  | .factored => 4 * (factorRows e + e.cols + 1)
  | .working => if e.wfmt = 0 then 128 * count else 66 * count
  | .jobState => 0

/-- The OWN entries of an image, presser by presser, each with its presser and index. -/
def ownPlaces (img : PrsImage) : List (Nat × Nat × PrsEntry) :=
  ((List.range 8).map fun k => (tableOf img false k).zipIdx.map fun x => (k, x.2, x.1)).flatten

/-- The job state (Table 12-3). -/
def jobState (s : State) (n : Nat) (img : PrsImage) : List Byte :=
  let t := s.train n
  layout 64 [(0, leBytes 8 t.step.toNat), (8, leBytes 4 t.updates.toNat), (12, leBytes 4 t.skips.toNat),
    (16, leBytes 4 t.lagged.toNat), (20, leBytes 1 (b2n img.held)),
    (32, ((List.range 8).map fun k => leBytes 2 (tableOf img false k).length).flatten)] ++
  (ownPlaces img).map fun x => ((s.presser x.1).own.getD x.2.1 {}).sigma

/-- Bytes of the live copy of an entry's run from a byte on; none without the region. -/
def runBytes (s : State) (n : Nat) (e : PrsEntry) (first count : Nat) : Option (List Byte) :=
  match boltRegionOf s n e.wreg with
  | none => none
  | some (_, x) => match runsOf x e.wband e.wcol with
    | [] => none
    | r :: _ =>
      let l0 := first / 32
      let lines := (first + count + 31) / 32 - l0
      let l := ((List.range lines).map fun i => boltLine s (r.band / 16) r.slab (liveLine x r (l0 + i))).flatten
      some ((l.drop (first % 32)).take count)

/-- Bytes of the committed view of a region; none without the region. -/
def viewBytes (s : State) (n region first count : Nat) : Option (List Byte) :=
  if (hbmRegion s n region).isSome then some (committedBytes s n region first count) else none

/-- The working weights of some blocks: elements, then for E4M3 the scale bytes. -/
def workingBytes (s : State) (n : Nat) (e : PrsEntry) (first count : Nat) : Option (List Byte) :=
  let unit := if e.whbm then 64 else 32
  let get (a c : Nat) : Option (List Byte) := if e.whbm then viewBytes s n e.wreg a c else runBytes s n e a c
  let base := unit * e.wline
  if e.wfmt = 0 then get (base + 128 * first) (128 * count)
  else match get (base + 64 * first) (64 * count), get (base + 64 * e.blockCount + 2 * first) (2 * count) with
    | some a, some b => some (a ++ b)
    | _, _ => none

/-- The source of a shard in V (Table 12-1); none when a region it names is not there. -/
def shardData (s : State) (n : Nat) (h : Shard) : Option (List Byte) :=
  match (s.train n).image with
  | none => none
  | some img =>
    if h.kind = .jobState then some (jobState s n img)
    else match (tableOf img h.mirror h.presser)[h.entry]? with
      | none => none
      | some e =>
        let each (f : Nat → List Byte) : List Byte := ((List.range h.blocks).map fun i => f (h.firstBlock + i)).flatten
        let moments (second : Bool) : Option (List Byte) :=
          if (hbmRegion s n e.oreg).isNone then none
          else some (each fun i => committedBytes s n e.oreg (if second then (momentAt e i).2 else (momentAt e i).1) (momentSize e))
        match h.kind with
        | .masters => viewBytes s n e.mreg (64 * (e.mline + 4 * h.firstBlock)) (256 * h.blocks)
        | .first => moments false
        | .second => moments true
        | .factored =>
          (viewBytes s n e.oreg (statAt e 0) (4 * (factorRows e + e.cols))).map fun b =>
            b ++ committedBytes s n e.oreg (rmeanAt e) 4
        | .working => workingBytes s n e h.firstBlock h.blocks
        | .jobState => none

/-- What the reads of a capture find (R153, R154, R178, R179). -/
def shardFinds (n : Nat) (h : Shard) (s : State) : State :=
  match imageEntry s n h.mirror h.presser h.entry with
  | none => s
  | some e =>
    let run (first count : Nat) (s : State) : State := match boltRegionOf s n e.wreg with
      | some (_, x) =>
        let base := (x.bands.idxOf e.wband * 125 + e.wcol) * x.lines
        boltReadFinds x (32 * base + first) count s
      | none => s
    match h.kind with
    | .masters => viewFinds n e.mreg false (64 * (e.mline + 4 * h.firstBlock)) (256 * h.blocks) s
    | .working =>
      let size := if e.wfmt = 0 then 128 else 64
      if e.whbm then viewFinds n e.wreg false (64 * e.wline + size * h.firstBlock) (size * h.blocks) s
      else run (32 * e.wline + size * h.firstBlock) (size * h.blocks) s
    | .jobState => s
    | _ => s.each (List.range h.blocks) fun s i => blockFinds n e (h.firstBlock + i) s

/-- The header of a captured shard (Table 12-2): the template with Melra's fields. -/
def shardHeader (s : State) (n : Nat) (h : Shard) (elem elements size : Nat) : List Byte :=
  let t := s.train n
  let tpl := Mem.bytes s.hostMem h.template 256
  let rank := if h.mirror then fld t.vote 63 48 else fld (s.ctx n).rank 15 0
  layout 256 [(0, leBytes 4 0x48534C4D), (4, leBytes 2 1), (6, leBytes 2 256), (8, leBytes 1 (shardCode h.kind)),
    (9, leBytes 1 elem), (10, slice tpl 10 1), (11, leBytes 1 s.nPanels), (16, slice tpl 16 88), (104, leBytes 8 elements),
    (112, leBytes 8 t.step.toNat), (120, leBytes 4 t.updates.toNat), (124, leBytes 2 t.vEpoch.toNat), (126, leBytes 2 rank),
    (128, leBytes 8 size), (136, leBytes 8 (fwId s).toNat), (144, leBytes 8 Config.serial.toNat),
    (152, leBytes 5 s.stu.stitch.toNat)]

/-- The entry a shard names in its context's image. -/
def shardEntry (s : State) (n : Nat) (h : Shard) : Option PrsEntry := imageEntry s n h.mirror h.presser h.entry

/-- The shard that a CKPT_SHARD descriptor names (Tables 12-4, 14-5). -/
def readShard (b : List Byte) (k : ShardKind) : Shard :=
  { presser := leAt b 8 1, mirror := leAt b 9 1 == 1, entry := leAt b 10 2, firstBlock := leAt b 12 4, blocks := leAt b 16 4,
    kind := k, snap := leAt b 21 1, snapLine := leAt b 40 4, template := leAt b 24 8, dest := leAt b 32 8, header := [],
    data := [], captured := none }

/-- A block range lies in an entry; KIND 0x04 takes the whole of it. -/
def rangeFits (k : ShardKind) (e : PrsEntry) (first count : Nat) : Bool :=
  decide (1 ≤ count) && decide (first + count ≤ e.blockCount) &&
    (k != .factored || (first == 0 && count == e.blockCount))

/-- The data bytes of a shard. -/
def shardBytes (s : State) (n : Nat) (h : Shard) : Nat :=
  match h.kind, shardEntry s n h with
  | .jobState, _ => match (s.train n).image with
    | some img => 64 + (ownPlaces img).length
    | none => 0
  | k, some e => shardSize k e h.blocks
  | _, none => 0

/-- The status of a CKPT_SHARD that cannot start (R336, R337, Table 12-8), 0 when it starts. -/
def shardRefusal (s : State) (n : Nat) (table : Nat) (h : Shard) : Nat :=
  if (s.train n).reslicing then 3
  else
    let entryOk : Bool := if h.kind = .jobState then (s.train n).image.isSome
      else decide (table ≤ 1) && match shardEntry s n h with
        | some e => kindFits h.kind e && rangeFits h.kind e h.firstBlock h.blocks
        | none => false
    if ¬ entryOk then 4
    else if h.snap = 0xF then 0
    else match hbmRegion s n h.snap with
      | none => 5
      | some r => if h.snap < 16 ∧ r.ready ∧ h.snapLine + (shardBytes s n h + 63) / 64 ≤ regionLines s r then 0 else 5

/-- CKPT_SHARD as its descriptor gives it (R335). -/
def startShard (n : Nat) (d : Taken) (s : State) : State :=
  let fail (status : Nat) : State := postCompletion n 7 status 0 d.index.toNat 0 0 [] s
  match shardKind (leAt d.bytes 20 1) with
  | none => fail (if (s.train n).reslicing then 3 else 4)
  | some k =>
    let h := readShard d.bytes k
    match shardRefusal s n (leAt d.bytes 9 1) h with
    | 0 => startTransfer n d true (.shard h) s
    | st => fail st

/-- CKPT_SHARD. -/
def execCkptShard (n : Ctx) (s : State) : Out := .next (onDescriptor n.val 7 (fun _ => true) (startShard n.val) s)

/-- Capture ends (R335): V's lines are in the snapshot region, or sent; a source or snapshot region that is gone fails the shard
with ABORTED (Table 12-5). -/
def captureEnd (t : Transfer) (h : Shard) (s : State) : State :=
  let n := t.ctx.val
  let snapGone : Bool := h.snap != 0xF && (hbmRegion s n h.snap).isNone
  match shardData s n h with
  | none => postCompletion n 7 2 0 t.ringIndex 0 0 [] (endTransfer t.id s)
  | some data =>
    if snapGone then postCompletion n 7 2 0 t.ringIndex 0 0 [] (endTransfer t.id s)
    else
      let s := shardFinds n h s
      let (elem, elements) := match shardEntry s n h with
        | some e => (shardElem h.kind e, match h.kind with
            | .factored => factorRows e + e.cols + 1
            | .jobState => data.length
            | _ => 64 * h.blocks)
        | none => (0xFF, data.length)
      let elem := if h.kind = .jobState then 0xFF else elem
      let head := shardHeader s n h elem elements data.length
      let s := setKind t.id (.shard { h with header := head, data := data, captured := some s.stu.stitch }) s
      if h.snap = 0xF then s
      else match hbmRegion s n h.snap with
        | some r => unverifyBytes n h.snap (64 * h.snapLine) data.length (writeRegion n r (64 * h.snapLine) data s)
        | none => s

/-- CAPTURE_END. -/
def execCaptureEnd (id : Nat) (s : State) : Out :=
  match transferOf s id with
  | some t => match t.kind with
    | .shard h => if h.captured.isSome then .next s else .next (captureEnd t h (meetQueues .portS s))
    | _ => .next s
  | none => .next s

/-- The data that drain sends: the snapshot region's, or what direct capture read. -/
def drainData (s : State) (n : Nat) (h : Shard) : List Byte :=
  if h.snap = 0xF then h.data
  else match hbmRegion s n h.snap with
    | some r => regionBytes s n r (64 * h.snapLine) h.data.length
    | none => h.data

/-- Drain ends (R335): header, data and digest are at DEST, and the completion carries CAPTURE_STITCH and the digest. A port
error ends it with PORT and no digest. -/
def shardDrained (t : Transfer) (h : Shard) (at_ : Stitch) (portOk : Bool) (s : State) : State :=
  let n := t.ctx.val
  let s' := endTransfer t.id s
  if ¬ portOk then postCompletion n 7 6 0 t.ringIndex 0 0 [] s'
  else
    let b := h.header ++ drainData s n h
    let digest := sha256 b
    let s' := match if h.snap = 0xF then none else hbmRegion s n h.snap with
      | some r => readFinds n r (64 * h.snapLine) h.data.length s'
      | none => s'
    postCompletion n 7 0 0 t.ringIndex 0 at_ digest (s'.setPortS (Mem.write s'.portS h.dest (b ++ digest)))

/-- SHARD_DRAINED. -/
def execShardDrained (id : Nat) (portOk : Bool) (s : State) : Out :=
  match transferOf s id with
  | some t => match t.kind with
    | .shard h => match h.captured with
      | some c => .next (shardDrained t h c portOk (meetQueues .portS s))
      | none => .next s
    | _ => .next s
  | none => .next s

/-! Restoring (R340 to R344). -/

/-- The bolt region whose staging copy a restore writes (R342): of a shard of working weights, that of the entry it names. -/
def restoreTarget (s : State) (n presser entry kind : Nat) : Option (Nat × BoltRegion) :=
  if kind ≠ 5 then none
  else match imageEntry s n false presser entry with
    | some e => if e.whbm ∨ e.wfmt = 3 then none else boltRegionOf s n e.wreg
    | none => none

/-- RESTORE_SHARD as its descriptor gives it: only while RESLICING is set. One that would load into a pinned bolt region is not
refused but completes with REGION (R148 against R351; DEDUCED, unsafe, assumption log 101); an unpinned one goes to LOADING
(Table 5-3). -/
def startRestore (n : Nat) (d : Taken) (s : State) : State :=
  let b := d.bytes
  let target := restoreTarget s n (leAt b 8 1) (leAt b 10 2) (Mem.le s.portS (leAt b 24 8 + 8) 1)
  let fail (status : Nat) : State := postCompletion n 8 status 0 d.index.toNat 0 0 [] s
  let held : Bool := match target with
    | some x => pinned s x.2
    | none => false
  if ¬ (s.train n).reslicing then fail 3
  else if held then fail 5
  else
    let s := match target with
      | some x => openLoad x.1 s
      | none => s
    startTransfer n d true (.restore
      { presser := leAt b 8 1, entry := leAt b 10 2, firstBlock := leAt b 12 4, blocks := leAt b 16 4, skip := leAt b 20 4,
        src := leAt b 24 8, digest := slice b 32 32, target := target.map (·.1) }) s

/-- RESTORE_SHARD. -/
def execRestoreShard (n : Ctx) (s : State) : Out := .next (onDescriptor n.val 8 (fun _ => true) (startRestore n.val) s)

/-- DATA_BYTES that a header's KIND, ELEM and ELEMENTS give; none for a KIND or ELEM of no table. -/
def headerData (b : List Byte) : Option Nat :=
  let n := leAt b 104 8
  match shardKind (leAt b 8 1), leAt b 9 1 with
  | some .working, 1 => some (2 * n)
  | some .working, 3 => some (n + n / 32)
  | some .working, _ => none
  | some .jobState, _ => some n
  | some _, 0 => some (4 * n)
  | some _, 1 => some (2 * n)
  | _, _ => none

/-- A shard's header is one (Table 12-7, first check). A KIND or ELEM it does not know is left to the ENTRY check. -/
def shardHeaderOk (b : List Byte) : Bool :=
  leAt b 0 4 == 0x48534C4D && leAt b 4 2 == 1 && leAt b 6 2 == 256 && match headerData b with
    | some k => leAt b 128 8 == k
    | none => true

/-- The blocks of a shard, from its ELEMENTS. -/
def shardBlocks (b : List Byte) : Nat := leAt b 104 8 / 64

/-- The ENTRY checks of Table 12-7 for a shard of entries: the target entry, when all hold. -/
def restoreEntry (img : PrsImage) (r : Restore) (k : ShardKind) (b : List Byte) : Option PrsEntry :=
  match (tableOf img false r.presser)[r.entry]? with
  | none => none
  | some e =>
    let whole : Bool := match k with
      | .factored => r.skip == 0 && r.firstBlock == 0 && r.blocks == e.blockCount && leAt b 104 8 == factorRows e + e.cols + 1
      | _ => decide (r.skip + r.blocks ≤ shardBlocks b)
    if kindFits k e && leAt b 9 1 == shardElem k e && rangeFits k e r.firstBlock r.blocks && whole then some e else none

/-- The ENTRY checks of a job state shard (R342): SKIP 0 and the image's OWN_COUNT values. -/
def jobStateFits (img : PrsImage) (r : Restore) (data : List Byte) : Bool :=
  r.skip == 0 && (List.range 8).all (fun k => leAt data (32 + 2 * k) 2 == (tableOf img false k).length) &&
    data.length == 64 + (ownPlaces img).length

/-- The status of a restore (Table 12-7), in the table's order. -/
def restoreStatus (s : State) (n : Nat) (r : Restore) (b data tail : List Byte) : Nat :=
  if ¬ shardHeaderOk b then 7
  else if leAt b 11 1 ≠ s.nPanels then 8
  else
    let fits : Bool := match shardKind (leAt b 8 1), (s.train n).image with
      | some .jobState, some img => jobStateFits img r data
      | some k, some img => (restoreEntry img r k b).isSome
      | _, _ => false
    if ¬ fits then 4
    else
      let digest := sha256 (b ++ data)
      if digest = r.digest ∧ digest = tail then 0 else 9

/-- The port S engine writes bytes of the shadow view of a region (R173, R340). -/
def restoreView (n region first : Nat) (bs : List Byte) (s : State) : State :=
  match hbmRegion s n region with
  | some r =>
    let at_ := viewAt s r true + first
    unverifyBytes n region at_ bs.length (writeRegion n r at_ bs s)
  | none => s

/-- One block's part of a shard's data written to the shadow view of a region. -/
def restoreBlocks (n region size : Nat) (place : Nat → Nat) (r : Restore) (data : List Byte) (s : State) : State :=
  s.each (List.range r.blocks) fun s i =>
    restoreView n region (place (r.firstBlock + i)) (slice data (size * (r.skip + i)) size) s

/-- The lines of a run that some bytes reach count as loaded in its region (Table 5-3). -/
def runLoaded (d : Nat) (e : PrsEntry) (first count : Nat) (s : State) : State :=
  onRegion d (fun x =>
    let base := (x.bands.idxOf e.wband * 125 + e.wcol) * x.lines
    if count = 0 then x else { x with loaded := addRange (base + first / 32) (base + (first + count + 31) / 32) x.loaded }) s

/-- A restored working copy (R342): the shadow view of the fall-back takes the shard's bytes, or the bolt loader writes them to
the staging copy in offered cycles (R146, R147). -/
def restoreCopy (n : Nat) (r : Restore) (e : PrsEntry) (blocks : Nat) (data : List Byte) (s : State) : State :=
  let size := if e.wfmt = 0 then 128 else 64
  let unit := if e.whbm then 64 else 32
  let pieces := ((List.range r.blocks).map fun i =>
    copyPieces e unit (r.firstBlock + i) (slice data (size * (r.skip + i)) size) (slice data (64 * blocks + 2 * (r.skip + i)) 2)).flatten
  let s := if e.whbm then s.each pieces fun s p => restoreView n e.wreg p.1 p.2 s
    else match boltRegionOf s n e.wreg with
      | some (d, x) =>
        if ¬ stageable x e ∨ x.stopped ∨ pieces.any (fun p => decide (32 * x.lines < p.1 + p.2.length)) then
          s.onPresser r.presser fun p => { p with staging := Tab.add p.staging e.wreg 1 }
        else s.each pieces fun s p =>
          runLoaded d e p.1 p.2.length (s.each (runsOf x e.wband e.wcol) fun s q => stageRun x q p.1 p.2 s)
      | none => s.onPresser r.presser fun p => { p with staging := Tab.add p.staging e.wreg 1 }
  onBank r.presser false r.entry (fun b => { b with copyRestored := true }) s

/-- The shadow SIGMA of every OWN entry from a job state shard (R342). -/
def restoreSigmas (img : PrsImage) (data : List Byte) (s : State) : State :=
  s.each (ownPlaces img).zipIdx fun s x =>
    onBank x.1.1 false x.1.2.1 (fun b => { b with
      shadowSigma := BitVec.ofNat 8 (leAt data (64 + x.2) 1), sigmaSet := true }) s

/-- What a good shard writes into V+1. -/
def restoreData (n : Nat) (r : Restore) (b data : List Byte) (s : State) : State :=
  match (s.train n).image, shardKind (leAt b 8 1) with
  | some img, some .jobState => restoreSigmas img data s
  | some img, some k => match restoreEntry img r k b with
    | none => s
    | some e => match k with
      | .masters => restoreBlocks n e.mreg 256 (fun i => 64 * (e.mline + 4 * i)) r data s
      | .first => restoreBlocks n e.oreg (momentSize e) (fun i => (momentAt e i).1) r data s
      | .second => restoreBlocks n e.oreg (momentSize e) (fun i => (momentAt e i).2) r data s
      | .factored =>
        let k := 4 * (factorRows e + e.cols)
        restoreView n e.oreg (rmeanAt e) (slice data k 4) (restoreView n e.oreg (statAt e 0) (data.take k) s)
      | .working => restoreCopy n r e (shardBlocks b) data s
      | .jobState => s
  | _, _ => s

/-- A restore ends (R340): its status decides; any but DONE is a poisoned delivery for the interval's vote. -/
def restoreDone (t : Transfer) (r : Restore) (portOk : Bool) (s : State) : State :=
  let n := t.ctx.val
  let s := endTransfer t.id s
  let b := Mem.bytes s.portS r.src 256
  let size := match headerData b with
    | some k => k
    | none => leAt b 128 8
  let data := Mem.bytes s.portS (r.src + 256) size
  let tail := Mem.bytes s.portS (r.src + 256 + size) 32
  let status := if portOk then (if (s.train n).reslicing then restoreStatus s n r b data tail else 3) else 6
  let other := b2n (decide (status = 0) && decide (leAt b 136 8 ≠ (fwId s).toNat))
  let s := if status = 0 then restoreData n r b data s else if (s.train n).reslicing then poison n s else s
  postCompletion n 8 status other t.ringIndex 0 0 (if portOk then sha256 (b ++ data) else []) s

/-- RESTORE_DONE. -/
def execRestoreDone (id : Nat) (portOk : Bool) (s : State) : Out :=
  match transferOf s id with
  | some t => match t.kind with
    | .restore r => .next (restoreDone t r portOk (meetQueues .portS s))
    | _ => .next s
  | none => .next s

/-! Bundles (R346 to R350). -/

/-- A bundle's region record (Table 12-11). -/
def bundleRegion (b : List Byte) : BundleRegion :=
  { bolt := leAt b 0 1 == 1, index := leAt b 1 1, lines := leAt b 4 4, offset := leAt b 8 8, size := leAt b 16 8,
    digest := slice b 24 32 }

/-- A record follows Table 12-11. -/
def bundleRecordOk (b : List Byte) : Bool :=
  let r := bundleRegion b
  leAt b 8 8 % 64 == 0 &&
    ((leAt b 0 1 == 1 && decide (r.index < 64) && r.size == leAt b 2 2 * 125 * r.lines * 32) ||
      (leAt b 0 1 == 2 && decide (r.index < 16) && leAt b 2 2 == 0 && r.size == 64 * r.lines))

/-- The memory that a LOAD_BUNDLE reads: host memory by port H, the file store by port S. -/
def bundleMem (s : State) (portH : Bool) : Mem := if portH then s.hostMem else s.portS

/-- The stored publisher key that a KEY_ID names (R347). -/
def publisherKey (s : State) (id : W64) : Option (BitVec 256) :=
  (keySlots.filterMap fun i => vAt s.thm.pubKeys i none).find? fun k => keyId k == id

/-- A model slot holds a model with every region RESIDENT (R348 step 3). -/
def modelHeld (s : State) (id : BitVec 128) : Bool :=
  s.bolt.slots.toList.any fun m => m.valid && m.id == id && m.regions.all fun i => match boltRegion s i with
    | some x => x.state == .resident
    | none => false

/-- A record meets the context's definitions (R348 step 4). `bands` is BANDS. -/
def bundleRegionFits (s : State) (n bands : Nat) (r : BundleRegion) : Bool :=
  if r.bolt then match boltRegionOf s n r.index with
    | some (_, x) => !pinned s x && x.bands.length == bands && x.lines == r.lines
    | none => false
  else match hbmRegion s n r.index with
    | some h => h.ready && decide (r.lines ≤ regionLines s h) &&
        !(s.work.entries.any fun e => e.ctx.val == n && match patternOf s n e.handle with
          | some p => p.streams.any fun t => t.region == r.index
          | none => false)
    | none => false

/-- The device regions of a bundle's bolt records. -/
def bundleBolt (s : State) (n : Nat) (l : List BundleRegion) : List Nat :=
  l.filterMap fun r => if r.bolt then (boltRegionOf s n r.index).map (·.1) else none

/-- A model slot for a bundle: the lowest free one that no running bundle holds, else the one R150 evicts; one that holds a
region of the bundle is not evicted for it. -/
def takeSlot (s : State) (target : List Nat) : Option (Nat × State) :=
  let held (k : Nat) : Bool := s.work.transfers.any fun t => match t.kind with
    | .bundle b => b.slot == k
    | _ => false
  match (List.range 64).find? fun k => !(vAt s.bolt.slots k {}).valid && !held k with
  | some k => some (k, s)
  | none =>
    let l := (evictable s none).filter fun k => !(vAt s.bolt.slots k {}).regions.any fun i => target.contains i
    (earliestSlot s l).map fun k => (k, evictSlot k s)

/-- The regions a bundle will write go to LOADING, and leave the model they held; the HBM regions count as undefined until the
load has ended (R348). -/
def openBundle (n : Nat) (l : List BundleRegion) (s : State) : State :=
  let mine := bundleBolt s n l
  let s := s.each mine fun s i => onRegion i (fun x => { x with
    state := .loading, loaded := [], filling := false, stopped := false, slot := none }) s
  let leave := fun (m : ModelSlot) =>
    if m.regions.any (fun i => mine.contains i) then
      ({ m with valid := false, regions := m.regions.filter (fun i => !mine.contains i) } : ModelSlot) else m
  let s := s.onBolt fun b => { b with slots := b.slots.map leave }
  s.each (l.filter fun r => !r.bolt) fun s r =>
    let block := fun (x : Nat × HbmRegion) =>
      if x.1 = regionKey n r.index then (x.1, { x.2 with blocked := true }) else x
    s.onHbm fun h => { h with regions := h.regions.map block }

/-- A LOAD_BUNDLE as its descriptor gives it: steps 1 to 4 of R348. -/
def startBundle (n : Nat) (portOk : Bool) (d : Taken) (s : State) : State :=
  let fail (status : Nat) : State := postCompletion n 6 status 0 d.index.toNat 0 0 [] s
  let (src, portH) := (leAt d.bytes 8 8, leAt d.bytes 16 1 == 1)
  let m := bundleMem s portH
  let head := Mem.bytes m src 256
  let count := leAt head 6 2
  let dir := Mem.bytes m (src + 256) (64 * count)
  let recs := (List.range count).map fun i => slice dir (64 * i) 64
  if ¬ portOk then fail 6
  else if leAt head 0 4 ≠ 0x44424C4D ∨ leAt head 4 2 ≠ 1 ∨ count < 1 ∨ 80 < count then fail 7
  else if leAt head 24 1 ≠ s.nPanels then fail 8
  else if ¬ recs.all bundleRecordOk then fail 7
  else
    let id : W64 := BitVec.ofNat 64 (leAt head 32 8)
    let model : BitVec 128 := BitVec.ofNat 128 (leAt head 8 16)
    match publisherKey s id with
    | none => fail 0xA
    | some key =>
      if ¬ edVerify (leBytes 32 key.toNat) (patch head 64 (List.replicate 64 0) ++ dir) (slice head 64 64) then fail 0xB
      else if modelHeld s model then fail 0xC
      else
        let l := recs.map bundleRegion
        if ¬ recs.all (fun b => bundleRegionFits s n (leAt b 2 2) (bundleRegion b)) then fail 5
        else match takeSlot s (bundleBolt s n l) with
          | none => fail 0xD
          | some (k, s) =>
            startTransfer n d true (.bundle
              { src := src, portH := portH, keyId := id, model := model, slot := k, regions := l }) (openBundle n l s)

/-- LOAD_BUNDLE. -/
def execLoadBundle (n : Ctx) (portOk : Bool) (s : State) : Out :=
  .next (onDescriptor n.val 6 (fun _ => true) (startBundle n.val portOk) s)

/-- The data of a bundle's region. -/
def bundleData (s : State) (b : Bundle) (r : BundleRegion) : List Byte :=
  Mem.bytes (bundleMem s b.portH) (b.src + r.offset) r.size

/-- A record's data streams into its bolt region and that one's backing, or into its HBM region (R348 step 5). -/
def streamRegion (n : Nat) (b : Bundle) (s : State) (r : BundleRegion) : State :=
  let data := bundleData s b r
  let put (region at_ : Nat) (s : State) : State := match hbmRegion s n region with
    | some h => unverifyBytes n region at_ data.length (writeRegion n h at_ data s)
    | none => s
  if r.bolt then match boltRegionOf s n r.index with
    | some (i, x) => loadBytes i 0 data (if x.backed then put x.hbmRegion (x.offset * 64) s else s)
    | none => s
  else put r.index 0 s

/-- A region's data has been found good (R348 step 6): a bolt region that its load has filled becomes RESIDENT and its backing
VERIFIED; an HBM region is there again. -/
def finishRegion (n : Nat) (b : Bundle) (s : State) (r : BundleRegion) : State :=
  if r.bolt then match boltRegionOf s n r.index with
    | none => s
    | some (i, x) =>
      let s := if x.backed then markVerified x b.keyId s else s
      if x.stopped then s else onRegion i (fun x => { x with state := .resident, slot := some b.slot }) s
  else match hbmRegion s n r.index with
    | none => s
    | some h => s.onHbm fun t => { t with regions := Tab.put t.regions (regionKey n r.index) { h with blocked := false } }

/-- A failed load (R349): the bolt regions stay in LOADING, the HBM regions are zeroed again before they count as defined. -/
def spoilBundle (n : Nat) (s : State) (r : BundleRegion) : State :=
  if r.bolt then s
  else match hbmRegion s n r.index with
    | none => s
    | some h => s.onHbm fun t => { t with
        regions := Tab.put t.regions (regionKey n r.index) { h with blocked := false, ready := false } }

/-- A record's data has the digest its directory gives. -/
def digestGood (s : State) (b : Bundle) (r : BundleRegion) : Bool := sha256 (bundleData s b r) == r.digest

/-- The records whose data streams: all of them, or up to and with the first one whose digest fails, where the load stops. Of a load
that ends with a port error none counts as streamed (DESIGN CHOICE, unsafe, assumption log 104). -/
def streamed (s : State) (b : Bundle) (portOk : Bool) : List BundleRegion :=
  let ok := b.regions.takeWhile (digestGood s b)
  if portOk then ok ++ (b.regions.drop ok.length).take 1 else []

/-- A bundle's data has streamed (R348 steps 5 and 6, R349). -/
def bundleDone (t : Transfer) (b : Bundle) (portOk : Bool) (s : State) : State :=
  let n := t.ctx.val
  let s := endTransfer t.id s
  let good : Bool := b.regions.all (digestGood s b)
  let s := s.each (streamed s b portOk) (streamRegion n b)
  if portOk ∧ good then
    let mine := bundleBolt s n b.regions
    let s := s.each b.regions (finishRegion n b)
    let m : ModelSlot := { valid := true, id := b.model, regions := mine, stamp := s.stu.stitch }
    postCompletion n 6 0 0 t.ringIndex 0 0 [] (s.onBolt fun x => { x with slots := vMod x.slots b.slot fun _ => m })
  else postCompletion n 6 (if portOk then 9 else 6) 0 t.ringIndex 0 0 [] (s.each b.regions (spoilBundle n))

/-- BUNDLE_DONE. -/
def execBundleDone (id : Nat) (portOk : Bool) (s : State) : Out :=
  match transferOf s id with
  | some t => match t.kind with
    | .bundle b => .next (bundleDone t b portOk (meetQueues .portS s))
    | _ => .next s
  | none => .next s

end Sys2Proof.Machine
end

