-- ==== Sys2Proof/Machine/Control.lean ====
section
/-! DEFINITION. The control slot (R106 to R109, Table 3-7), with which a word's issue ends: the core goes on to its next word. -/

namespace Sys2Proof.Machine

/-- A control slot issues: its effect on the core and its run, whatever the predicates. -/
def onControl (cmd : Instr) (i : Issue) (f : CoreRun → Core → Core) (s : State) : State :=
  let c := coreNum i.core
  if ¬ issuesNow s cmd i then s
  else match (s.core c).run with
    | none => s
    | some r => s.onCore c fun k => f r (wordEcc i.ecc (storeWord s c r) (settle i.cycle k))

/-- The core goes on to a word at a cycle. An image that runs off its end without WAITS is not refused, and the core idles from
there (DESIGN CHOICE, unsafe, assumption log 88). -/
def goTo (r : CoreRun) (pc next : Nat) (loops : List LoopFrame) (k : Core) : Core :=
  { k with loops := loops, run := some { r with pc := pc, nextCycle := next, waiting := decide (r.length ≤ pc) } }

/-- The next word in order (R107), after `delay` cycles in which nothing issues. -/
def goOn (i : Issue) (delay : Nat) (r : CoreRun) (k : Core) : Core :=
  let x := endOfWord r.pc k.loops
  goTo r x.1 (afterDelay i.cycle delay) x.2 k

/-- NOP: in the control slot the word ends; in another slot nothing happens. -/
def execNop (i : Issue) (slot : Slot) (s : State) : Out :=
  match slot with
  | .control => .next (onControl (.nop i slot) i (goOn i 0) s)
  | _ => .next s

/-- LOOP (R107): the body follows. -/
def execLoop (i : Issue) (bodyM1 : BitVec 9) (count : LoopCount) (s : State) : Out :=
  .next (onControl (.loop i bodyM1 count) i (fun r k =>
    goTo r (r.pc + 1) (afterDelay i.cycle 0) (openLoop r.pc (bodyM1.toNat + 1) (loopCount k.cr count) k.loops) k) s)

/-- SETC: a count register. -/
def execSetc (i : Issue) (cr : Fin 16) (valueM1 : BitVec 14) (s : State) : Out :=
  .next (onControl (.setc i cr valueM1) i (fun r k => goOn i 0 r { k with cr := k.cr.set cr valueM1 }) s)

/-- PSET (R106): a live predicate, in force from the next cycle; P_0 stays true. -/
def execPset (i : Issue) (p : Fin 8) (level : Fin 4) (cmp : PredCmp) (imm : BitVec 11) (s : State) : Out :=
  .next (onControl (.pset i p level cmp imm) i (fun r k =>
    goOn i 0 r { k with preds := k.preds.set p (some { level := level, cmp := cmp, imm := imm }) }) s)

/-- WAITS: the image ends and the core idles to the boundary. -/
def execWaits (i : Issue) (s : State) : Out :=
  .next (onControl (.waits i) i (fun r k => { k with run := some { r with waiting := true } }) s)

/-- The core is its band's leader core (R109): first logical row, logical column 0. -/
def isLeader (c : Nat) : Bool := c % 625 == 0

/-- PHASE (R109): the panel sequencer follows the leader core's phase markers. -/
def execPhase (i : Issue) (code : Fin 8) (s : State) : Out :=
  let c := coreNum i.core
  let g := bandOfCore c
  let live := issuesNow s (.phase i code) i
  let s := onControl (.phase i code) i (goOn i 0) s
  .next (if live ∧ isLeader c then
    s.onStu fun u => match Tab.find u.bands g with
      | some b => { u with bands := Tab.put u.bands g { b with marks := (i.cycle, code) :: b.marks } }
      | none => u
  else s)

/-- DELAY: nothing issues for the given cycles. -/
def execDelay (i : Issue) (cyclesM1 : BitVec 18) (s : State) : Out :=
  .next (onControl (.delay i cyclesM1) i (goOn i (cyclesM1.toNat + 1)) s)

end Sys2Proof.Machine
end

