-- ==== Sys2Proof/Machine/Mesh.lean ====
section
/-! DEFINITION. Arrivals (R105, R111 to R113): flits at routers, ejections into scratch, and HBM returns. -/

namespace Sys2Proof.Machine

/-! HBM returns. -/

/-- The earliest of a core's returns. -/
def firstReturn (c : Nat) (l : List HrdReturn) : Option HrdReturn :=
  (l.filter fun r => r.core == c).foldl (fun best r => match best with
    | none => some r
    | some b => if r.due < b.due then some r else some b) none

/-- HRD_RETURN (R105): the data of a core's earliest read reaches its scratch line. -/
def execHrdReturn (core : CoreId) (s : State) : Out :=
  let c := coreNum core
  match firstReturn c s.cores.returns with
  | none => .next s
  | some r =>
    let s := s.onCores fun k => { k with returns := k.returns.erase r }
    let s := scratchBound (runCtx (s.core c)) (64 * r.line) 64 s
    .next (s.onCore c (scratchWrite (cycleNow s c) 2 (64 * r.line) (leBytes 64 r.data.toNat)))

/-! Flits. -/

/-- The number of an input (R113): the lower one wins. -/
def inputRank : MeshIn → Nat
  | .north => 0
  | .south => 1
  | .east => 2
  | .west => 3
  | .local => 4
  | .bridge => 5

/-- A flit among others by its input, stable. -/
def insertFlit (x : MeshIn × Flit) : List (MeshIn × Flit) → List (MeshIn × Flit)
  | [] => [x]
  | y :: l => if inputRank x.1 < inputRank y.1 then x :: y :: l else y :: insertFlit x l

/-- Flits in the order in which the router serves them. -/
def byInput (l : List (MeshIn × Flit)) : List (MeshIn × Flit) := l.foldl (fun a x => insertFlit x a) []

/-- The context whose route page a band's routers use: that of the pattern the band runs, else the band's owner. -/
def pageContext (s : State) (g : Nat) : Nat := match Tab.find s.stu.bands g with
  | some b => b.ctx.val
  | none => (s.band g).owner.val

/-- A flit is ejected into its core's scratch (R112); a router in pass-through has no core. -/
def ejectFlit (r : Nat) (e : BitVec 32) (f : Flit) (s : State) : State :=
  match coreOfRouter s r with
  | none => s
  | some c =>
    let key := 256 * routePage s r + f.route.toNat
    s.onCore c fun k =>
      let n := Tab.getD k.rx key 0
      let a := 32 * (fld e 24 14 + n)
      scratchWrite (cycleNow s c) 1 a (leBytes 32 f.data.toNat) { k with rx := Tab.put k.rx key ((n + 1) % (fld e 13 3 + 1)) }

/-- A flit leaves a router by one output: to the next router, or at a hem-die attachment to the hem die as a cell of its
context's packets (R228, R229). -/
def leaveBy (r : Nat) (f : Flit) (o : MeshOut) (s : State) : State :=
  match o, attachment r with
  | .bridge, some hem => gatherCell hem r (pageContext s (bandOfRouter r)) f.data s
  | o, _ => match neighbour s r o with
    | none => s
    | some (q, input, _) =>
      let (p, row, col) := routerAt q
      s.onCores fun k => { k with flits := k.flits ++ [{ panel := p, row := row, col := col, input := input, flit := f }] }

/-- The outputs an entry selects, as entry bits: 26 is the local one. -/
def entryOuts (e : BitVec 32) : List Nat := (List.range 6).filterMap fun i => if bit e (25 + i) then some (25 + i) else none

/-- MESH_CONFLICT counts a flit discarded, and the boundary reports it (R113). -/
def meshConflict (r : Nat) (f : Flit) (s : State) : State :=
  s.onRouter r fun x => { x with
    conflicts := satInc x.conflicts 1
    conflict := match x.conflict with
      | some c => some c
      | none => some f.route }

/-- What an output carries in a cycle: two flits over a short edge (R116), else one. -/
def outputCarries (r o : Nat) : Nat :=
  if (o = MeshOut.east.bitOf ∧ r % 128 = 127) ∨ (o = MeshOut.west.bitOf ∧ r % 128 = 0) then 2 else 1

/-- One flit at a router of a band that takes it; `used` are the outputs that flits of lower inputs have taken in this
cycle. -/
def routeFlit (r : Nat) (f : Flit) (used : List Nat) (s : State) : State × List Nat :=
  match routeEntry s r f.route.toNat with
  | none => (violate (pageContext s (bandOfRouter r)) 0x0A s, used)
  | some e =>
    let outs := entryOuts e
    if outs.any fun o => decide (outputCarries r o ≤ used.count o) then (meshConflict r f s, used)
    else
      let s := if outs.contains 26 then ejectFlit r e f s else s
      (s.each (meshOuts.filter fun o => outs.contains o.bitOf) fun s o => leaveBy r f o s, used ++ outs)

/-- A flit is no longer on its way. -/
def takeFlit (r : Nat) (x : MeshIn × Flit) (s : State) : State :=
  let (p, row, col) := routerAt r
  s.onCores fun k => { k with
    flits := k.flits.erase { panel := p, row := row, col := col, input := x.1, flit := x.2 } }

/-- FLIT_ARRIVAL (R111 to R113, R368): the flits that reach a router in one cycle. A band that is not ON drops them, an
unavailable one too (R85). -/
def execFlitArrival (router : RouterId) (flits : List (MeshIn × Flit)) (s : State) : Out :=
  let r := routerIdNum router
  let g := bandOfRouter r
  let s := s.each flits fun s x => takeFlit r x s
  if bandState s g = .unavailable then .next (s.each flits fun s _ => violate (s.band g).owner.val 0x05 s)
  else if bandDrops (s.band g) then .next (s.each flits fun s _ => fenceDrop g (s.band g).owner.val s)
  else .next ((byInput flits).foldl (fun (a : State × List Nat) x => routeFlit r x.2 a.2 a.1) (s, [])).1

end Sys2Proof.Machine
end

