-- ==== Sys2Proof/Machine/Messages.lean ====
section
/-! DEFINITION. Frames received (08_seams, R232 to R235, R244, R246), and the VC_0 messages they carry (R28, R231). -/

namespace Sys2Proof.Machine

/-- The state a command leaves; a stop leaves the state before it. -/
def leftBy (s : State) : Out → State
  | .next t => t
  | .fault _ => s
  | .refused _ => s

/-- A VC_0 message arrives through a port (R28): it acts as the command of its name does; a MARKER's arrival is the present time. -/
def takeMessage (port : PortId) (m : Vc0Msg) (s : State) : State :=
  match m with
  | .marker x => leftBy s (execMarker port x (1000 * (s.stu.pos : Int)) s)
  | .stretchReq f r => leftBy s (execStretchReq port f r s)
  | .stretchAnn k a => leftBy s (execStretchAnn port k a s)
  | .periodAnn u a => leftBy s (execPeriodAnn port u a s)
  | .ready x => leftBy s (execReady port x s)
  | .go t n => leftBy s (execGo port t n s)
  | .miss t n => leftBy s (execMiss port t n s)
  | .vote x => leftBy s (execVote port x s)
  | .verdict x => leftBy s (execVerdict port x s)
  | .abort x => receiveAbort port.val x s

/-- A VC_0 cell received: its messages act on an ACTIVE port; at a FENCED one the cell falls under R230 (R246); a port in loop-back
carries no messages (R244). -/
def takeVc0Cell (port : PortId) (c : CellData) (s : State) : State :=
  match (s.port port.val).state with
  | .active => s.each (vc0Messages c) fun s m => takeMessage port m s
  | .fenced => violate 0 0x09 s
  | _ => s

/-- The VC_0 cells delivered on a port are taken in order. -/
def takeVc0 (port : PortId) (s : State) : State :=
  let cells := (((s.port port.val).streams.filter fun t => t.vc == 0).map fun t => t.rx).flatten
  let s := s.onPort port.val fun p => { p with streams := p.streams.filter fun t => t.vc != 0 }
  s.each cells fun s c => takeVc0Cell port c s

/-- A link-layer far end takes every cell delivered, to return it in its own frames (R244). -/
def turnCells (p : Port) : Port :=
  { p with turned := p.turned ++ (p.streams.map fun t => t.rx).flatten, streams := p.streams.map fun t => { t with rx := [] } }

/-- FRAME_RECEIVE (R232 to R235): the frame is checked block by block, its ACK and NAK act on the replay buffer, and cells are delivered
in stream order; VC_0 messages take effect. A far end retimes the frame into its transmitters, or returns its cells, as the depth
says (R244, Table 8-8). -/
def execFrameReceive (port : PortId) (f : Frame) (s : State) : Out :=
  let m := port.val
  let p := s.port m
  let far : Bool := p.state == .loopback && p.farLoop
  if ¬ framing p then .next s
  else if far ∧ p.loop = 3 then .next (s.emit (.frame m f))
  else if far ∧ p.loop = 4 then .next (s.onPort m fun p => turnCells (receiveFrame f p))
  else .next (takeVc0 port (s.onPort m (receiveFrame f)))

end Sys2Proof.Machine
end

