-- ==== Sys2Proof/Machine/Move.lean ====
section
/-! DEFINITION. The move slot (R104, R105, R122, Table 3-6). -/

namespace Sys2Proof.Machine

/-- The core's vector register as words. -/
def moveReg (k : Core) (r : Nat) : List W32 := registerLanes k r

/-- VLD: lines LINE and LINE + 1 into VD. -/
def execVld (i : Issue) (vd : Fin 32) (line : BitVec 10) (s : State) : Out :=
  .next (onIssue (.vld i vd line) i (fun n c s =>
    let bs := scratchRead (s.core c) i.cycle (64 * line.toNat) 128
    (readSlot n c (64 * line.toNat) 128 i.ecc s).onCore c (later (i.cycle + 3) (.vreg vd 0xFFFFFFFF (lanesOf bs)))) s)

/-- VST: 16 to 128 bytes of VS from its byte 0. -/
def execVst (i : Issue) (vs : Fin 32) (addr : BitVec 12) (size : VstSize) (s : State) : Out :=
  .next (onIssue (.vst i vs addr size) i (fun n c s =>
    let bs := (bytesOfLanes (moveReg (s.core c) vs.val)).take (vstBytes size)
    (scratchBound n (16 * addr.toNat) (vstBytes size) s).onCore c (scratchWrite i.cycle 0 (16 * addr.toNat) bs)) s)

/-- GATHER (R104): line BASE + index of BANK into lanes 0 to 15, the index being lane 0 of VI; zeros and a violation when
the index is LEN or more. -/
def execGather (i : Issue) (vd : Fin 32) (bank : Fin 4) (base : BitVec 8) (lenM1 : BitVec 8) (vi : Fin 32) (s : State) : Out :=
  .next (onIssue (.gather i vd bank base lenM1 vi) i (fun n c s =>
    let x := ((moveReg (s.core c) vi.val).getD 0 0).toNat
    if lenM1.toNat < x then
      (violate n 0x0B s).onCore c (later (i.cycle + 4) (.vreg vd 0xFFFFFFFF (List.replicate 32 0)))
    else
      let a := 64 * (4 * (base.toNat + x) + bank.val)
      let bs := scratchRead (s.core c) i.cycle a 64 ++ List.replicate 64 0
      (readSlot n c a 64 i.ecc s).onCore c (later (i.cycle + 4) (.vreg vd 0xFFFFFFFF (lanesOf bs)))) s)

/-- A flit enters the mesh at the local port of a core's router. -/
def injectFlit (c : Nat) (route : BitVec 8) (bs : List Byte) (s : State) : State :=
  let (p, row, col) := routerAt (routerOfCore s c)
  s.onCores fun k => { k with
    flits := k.flits ++ [{ panel := p, row := row, col := col, input := .local,
                           flit := { route := route, data := bitsOfBytes 256 bs } }] }

/-- MSEND: one 256-bit flit, from 32 bytes of scratch or a quarter of VS. -/
def execMsend (i : Issue) (src : MsendSrc) (route : BitVec 8) (s : State) : Out :=
  .next (onIssue (.msend i src route) i (fun n c s => match src with
    | .scratch a =>
      injectFlit c route (scratchRead (s.core c) i.cycle (32 * a.toNat) 32) (readSlot n c (32 * a.toNat) 32 i.ecc s)
    | .vreg vs q =>
      injectFlit c route ((bytesOfLanes (moveReg (s.core c) vs.val)).drop (32 * q.val) |>.take 32) s) s)

/-- BSET: a bolt stream's pointer and stride (Table 3-1). -/
def execBset (i : Issue) (stream : Fin 4) (start : BitVec 20) (stride : BitVec 8) (s : State) : Out :=
  .next (onIssueCore (.bset i stream start stride) i (fun k => { k with bst := k.bst.set stream { ptr := start, stride := stride } }) s)

/-- BLD: 64 bytes, two lines of a stream, from the bolt to a scratch line. -/
def execBld (i : Issue) (stream : Fin 4) (line : BitVec 10) (s : State) : Out :=
  .next (onIssue (.bld i stream line) i (fun n c s =>
    let bs := streamLines s c stream.val 2
    (takeStream c stream.val 2 i.boltEcc (scratchBound n (64 * line.toNat) 64 s)).onCore c
      (scratchWrite i.cycle 0 (64 * line.toNat) bs)) s)

/-! HBM accesses (R105, R122, R161). -/

/-- The time in ns at which a core's panel, its clock at 16/k of the time base, reaches a core cycle of the stitch in progress
(R31, R171). -/
def coreTime (s : State) (c cycle : Nat) : Nat := s.ns - s.stu.pos + coreNs (vAt s.thm.panels (c / 10000) {}).clockK cycle

/-- The line that access n of a stream addresses (R122), none below zero. -/
def streamLine (k : Core) (cycle : Nat) (t : SlotStream) (n : Nat) : Option Nat :=
  if t.indirect then some (t.base + fromLe (scratchRead k cycle (t.stride.toNat + 4 * n) 4))
  else
    let j : Int := t.base + n * t.stride.toInt
    if j < 0 then none else some j.toNat

/-- The pseudo-channel line of an access of a context, none when it lies outside the region or off the stream's
pseudo-channel (R122). -/
def streamTarget (s : State) (n : Nat) (t : SlotStream) (j : Option Nat) : Option (Nat × Nat) :=
  match j, hbmRegion s n t.region with
  | some j, some r => match lineOf s n r j with
    | some (pc, line) => if pc = t.pc then some (pc, line) else none
    | none => none
  | _, _ => none

/-- The stream of a slot of the pattern a core runs. -/
def slotStream (s : State) (n c slot : Nat) : Option SlotStream :=
  match (s.core c).run with
  | none => none
  | some r => match patternOf s n r.handle with
    | none => none
    | some p => p.streams[slot]?

/-- An HRD or HWR issues (R105): its stream counts the issue, also when the slot is gated off (R106); the access goes to its
pseudo-channel's queue, which it reaches 64 cycles later. `kind` is what it does there, `stray` what it does when it
resolves wrongly. -/
def hbmSlotIssue (cmd : Instr) (i : Issue) (slot : Nat) (kind : State → Nat → AccessKind) (stray : State → Nat → Option AccessKind)
    (ecc : Nat → Nat → State → State) (s : State) : State :=
  let c := coreNum i.core
  let n := runCtx (s.core c)
  if ¬ issuesNow s cmd i then s
  else match slotStream s n c slot with
    | none => s
    | some t =>
      let k := Tab.getD (s.core c).slotCount slot 0
      let j := streamLine (s.core c) i.cycle t k
      let s := s.onCore c fun x => { x with slotCount := Tab.put x.slotCount slot (k + 1) }
      onIssue cmd i (fun n c s =>
        let send (pc line : Nat) (a : AccessKind) (s : State) : State := s.onHbm fun h => { h with inflight := h.inflight ++ [
          { pc := pc, line := line, source := .pattern, arrival := coreTime s c (i.cycle + 64), key := c, kind := a,
            owner := Fin.ofNat 16 n, region := t.region, transfer := none }] }
        match streamTarget s n t j with
        | some (pc, line) => send pc line (kind s c) (ecc n c s)
        | none =>
          let s := violate n (if t.indirect then 0x0D else 0x01) s
          match stray s c with
          | some a => send t.pc 0 a s
          | none => s) s

/-- HRD: 64 bytes from HBM to a scratch line, there 480 cycles after issue. A stray access delivers zeros. -/
def execHrd (i : Issue) (slot : BitVec 14) (line : BitVec 10) (s : State) : Out :=
  .next (hbmSlotIssue (.hrd i slot line) i slot.toNat (fun s c => .hrd c line.toNat (coreTime s c (i.cycle + 480)))
    (fun s c => some (.zeros c line.toNat (coreTime s c (i.cycle + 480)))) (fun _ _ s => s) s)

/-- HWR: a scratch line, read at issue, to HBM. A stray access writes nothing. -/
def execHwr (i : Issue) (slot : BitVec 14) (line : BitVec 10) (s : State) : Out :=
  .next (hbmSlotIssue (.hwr i slot line) i slot.toNat
    (fun s c => .lineWrite (bitsOfBytes 512 (scratchRead (s.core c) i.cycle (64 * line.toNat) 64))) (fun _ _ => none)
    (fun n c s => readSlot n c (64 * line.toNat) 64 i.ecc s) s)

/-- SETDC: a drain configuration. -/
def execSetdc (i : Issue) (dc : Fin 4) (fmt : DrainFmt) (rnd : Rnd) (ieee : Bool) (sigma : BitVec 8) (tg srs : Fin 4)
    (s : State) : Out :=
  .next (onIssueCore (.setdc i dc fmt rnd ieee sigma tg srs) i (fun k => { k with
    dc := k.dc.set dc { fmt := fmt, rnd := rnd, ieee := ieee, sigma := sigma, tg := tg, srs := srs } }) s)

/-- STREAM: PURPOSE and SUB of a bobbin stream register (R102). -/
def execStream (i : Issue) (srs : Fin 4) (purpose : BitVec 16) (sub : BitVec 10) (s : State) : Out :=
  .next (onIssueCore (.stream i srs purpose sub) i (fun k => { k with srs := vMod k.srs srs.val fun r => { r with purpose := purpose, sub := sub } }) s)

/-- DRAW: the draw index of a bobbin stream register. -/
def execDraw (i : Issue) (srs : Fin 4) (index : BitVec 20) (s : State) : Out :=
  .next (onIssueCore (.draw i srs index) i (fun k => { k with srs := vMod k.srs srs.val fun r => { r with index := index } }) s)

/-- LMASK: a lane mask from four bytes of scratch; M_0 is not written (Table 3-1). -/
def execLmask (i : Issue) (mask : Fin 8) (addr : BitVec 12) (s : State) : Out :=
  .next (onIssue (.lmask i mask addr) i (fun n c s =>
    let w := bitsOfBytes 32 (scratchRead (s.core c) i.cycle (16 * addr.toNat) 4)
    let s := readSlot n c (16 * addr.toNat) 4 i.ecc s
    if mask = 0 then s else s.onCore c (later (i.cycle + 3) (.mask mask w))) s)

end Sys2Proof.Machine
end

