-- ==== Sys2Proof/Machine/Pcie.lean ====
section
/-! DEFINITION. PERST# and the reset of port S (R361, R419). -/

namespace Sys2Proof.Machine

/-- A transfer that moves bytes over port S: a shard on its way out, a restore, a bundle read there (R372). A shard that is
still being copied to its snapshot region is not on the port yet. -/
def failOnPortS (s : State) (t : Transfer) : State :=
  match t.kind with
  | .shard h => match h.captured with
    | some c => shardDrained t h c false s
    | none => if h.snap = 15 then shardDrained t h 0 false s else s
  | .restore r => restoreDone t r false s
  | .bundle b => if b.portH then s else bundleDone t b false s
  | .copyIn .. => s
  | .copyOut .. => s

/-- Port S is reset: every transfer in progress on it completes with status PORT (R361). -/
def resetPortS (s : State) : State := s.each s.work.transfers failOnPortS

/-- PORT_S_RESET (R361): a link loss or a conventional reset of port S; the link trains again. -/
def execPortSReset (s : State) : Out :=
  .next ((resetPortS s).onPower fun x => { x with linkS := if x.linkS = .loopback then .l0 else x.linkS })

/-- A port trains at once when PERST# rises after the power-on's step 3, else at the end of the power-on. -/
def linkAfter (s : State) (present : Bool) : LinkState := if present && s.flt.phase != .powerOn then .l0 else .down

/-- PERST (R361, R419): PERST# of port H resets the device, that of port S port S; when it rises the link trains. -/
def execPerst (p : PciePort) (asserted : Bool) (s : State) : Out :=
  match p, asserted with
  | .h, true =>
    if s.power.perstH then .next s
    else .next (requestReset 4 (s.onPower fun x => { x with perstH := true, linkH := .down }))
  | .h, false =>
    if s.power.perstH then .next (s.onPower fun x => { x with perstH := false, linkH := linkAfter s true }) else .next s
  | .s, true =>
    if s.power.perstS then .next s
    else .next ((resetPortS s).onPower fun x => { x with perstS := true, linkS := .down })
  | .s, false =>
    if s.power.perstS then .next (s.onPower fun x => { x with perstS := false, linkS := linkAfter s s.straps.portS })
    else .next s

end Sys2Proof.Machine
end

