-- ==== Sys2Proof/Machine/RegForm.lean ====
section
/-! DEFINITION. What a BAR0 register is to the host (R12, R390): how it reads, what a write does, which of its bits a 32-bit
write of the other half leaves as they are. -/

namespace Sys2Proof.Machine

/-- A register: its value, the RW, RWL and W1T bits that a write of the other half keeps, whether any field reads, what a write
does, and what a write of the upper half alone does where that differs from a write of the whole. -/
structure Reg where
  value : W64
  keep : W64
  readable : Bool := true
  write : W64 → State → State
  upper : Option (W64 → State → State) := none

/-- A word put together from fields: (high bit, low bit, value). -/
def word (l : List (Nat × Nat × Nat)) : W64 :=
  BitVec.ofNat 64 (l.foldl (fun a f => a + f.2.2 % 2 ^ (f.1 + 1 - f.2.1) * 2 ^ f.2.1) 0)

/-- The mask of some fields: (high bit, low bit). -/
def bitsMask (l : List (Nat × Nat)) : W64 := l.foldl (fun a f => a ||| mask64 f.1 f.2) 0

/-- A register whose readable fields are all RO. -/
def roReg (value rsv : W64) : Reg := { value := value, keep := 0, write := checkRsv rsv }

/-- A register with RW fields and none that needs more than storing. -/
def rwReg (value rsv rw : W64) (set : W64 → State → State) : Reg :=
  { value := value, keep := rw, write := fun v s => set (v &&& rw) (checkRsv rsv v s) }

/-- A register with RW, RWL and W1T fields: a locked field keeps its value, and a write of another value to it is a violation
(R390); a W1T bit once set stays set. -/
def lockReg (value rsv rw rwl w1t : W64) (locked : Bool) (set : W64 → State → State) : Reg :=
  { value := value, keep := rw ||| rwl ||| w1t
    write := fun v s =>
      let bad : Bool := v &&& rsv != 0 || (locked && (v ^^^ value) &&& rwl != 0)
      set ((v &&& rw) ||| ((if locked then value else v) &&& rwl) ||| ((value ||| v) &&& w1t))
        (if bad then violate 0 0x02 s else s) }

/-- A register with a write operation of its own. -/
def opReg (value keep : W64) (write : W64 → State → State) : Reg := { value := value, keep := keep, write := write }

/-- A register whose fields are all WO or RSV. -/
def woReg (write : W64 → State → State) : Reg := { value := 0, keep := 0, readable := false, write := write }

/-- A register with RW fields that its own rule refuses whole, where a guarded value differs (R390). -/
def guardReg (value rsv rw : W64) (refused : W64 → Bool) (set : W64 → State → State) : Reg :=
  { value := value, keep := rw
    write := fun v s =>
      if refused (v &&& rw) then violate 0 0x02 s else set (v &&& rw) (checkRsv rsv v s) }

/-- The number of the register of an array at an offset: base, stride, count. -/
def indexed (off base stride count : Nat) : Option Nat :=
  if base ≤ off ∧ (off - base) % stride = 0 ∧ (off - base) / stride < count then some ((off - base) / stride) else none

/-- The first register array of a list that has the offset. -/
def arrays (off : Nat) : List (Nat × Nat × Nat × (Nat → Reg)) → Option Reg
  | [] => none
  | (base, stride, count, f) :: rest =>
    match indexed off base stride count with
    | some i => some (f i)
    | none => arrays off rest

end Sys2Proof.Machine
end

