-- ==== Sys2Proof/Machine/RegsHost.lean ====
section
/-! DEFINITION. The registers of the IDN, STU, HRG, EVQ and CTX blocks (Tables 1-1 to 1-6, 1-13, 14-9 to 14-12). -/

namespace Sys2Proof.Machine

/-- AVAIL of 64 bands from one on (R85). -/
def availWord (s : State) (first : Nat) : W64 :=
  BitVec.ofNat 64 ((List.range 64).foldl (fun a b => if bandAvailable s (first + b) then a + 2 ^ b else a) 0)

/-- The registers of IDN (Table 14-9). -/
def idnReg (s : State) (off : Nat) : Option Reg :=
  let n := s.nPanels
  match off with
  | 0x00 => some (roReg (word [(31, 24, n), (23, 16, n), (15, 8, Config.stepping.toNat), (7, 0, n)]) (mask64 63 32))
  | 0x08 => some (roReg Config.serial 0)
  | 0x10 => some (roReg (fwId s) 0)
  | 0x18 => some (roReg (cutterMin s) 0)
  | 0x20 => some (roReg (word [(5, 5, b2n s.straps.testMode), (4, 2, Config.boardSlot.toNat), (1, 1, b2n s.thm.runningB),
      (0, 0, b2n s.straps.portS)]) (mask64 63 6))
  | 0x28 => some (roReg (availWord s 0) 0)
  | 0x30 => some (roReg (availWord s 64) 0)
  | _ => none

/-- The period announced and not yet applied. -/
def announcedPeriod (s : State) : Option (BitVec 24) :=
  s.stu.queue.findSome? fun a => match a.kind with
    | .period u => some u
    | .stretch _ => none

/-- STU_PERIOD as it reads (Table 1-3). -/
def stuPeriodValue (s : State) : W64 :=
  let ann := announcedPeriod s
  word [(63, 63, b2n (s.stu.held.isSome || ann.isSome)), (62, 62, b2n s.stu.held.isSome),
    (47, 24, ((ann.orElse fun _ => s.stu.held).getD 0).toNat), (23, 0, s.stu.periodUnits.toNat)]

/-- STU_STRETCH as it reads (Table 1-4). -/
def stuStretchValue (s : State) : W64 :=
  let cur := s.stu.curFactor.toNat
  let (head, stitch, factor) := match s.stu.queue with
    | [] => (false, 0, cur)
    | a :: _ => match a.kind with
      | .period _ => (true, a.apply.toNat, cur)
      | .stretch k => (false, a.apply.toNat, k.toNat)
  word [(63, 60, s.stu.queue.length), (56, 56, b2n head), (55, 16, stitch), (13, 8, factor), (5, 0, cur)]

/-- STU_STRETCH_REQ as it reads (Table 1-5). -/
def stretchReqValue (s : State) : W64 :=
  word [(27, 24, (ownReasons s).toNat), (21, 16, s.stu.sysFactor.toNat), (13, 8, s.stu.subtreeFactor.toNat),
    (5, 0, s.stu.ownFactor.toNat)]

/-- STU_ALIGN as it reads (Table 1-6). -/
def stuAlignValue (s : State) : W64 :=
  word [(47, 32, s.stu.offset.toNat), (24, 18, s.stu.missed.toNat), (17, 17, b2n s.stu.holdover), (16, 16, b2n s.stu.tree),
    (15, 8, s.stu.epoch.toNat), (7, 0, s.stu.hops.toNat)]

/-- STU_LEDGER_BASE_n. -/
def ledgerBaseReg (s : State) (n : Nat) : Reg :=
  rwReg (vAt s.stu.ledgerBase n 0) (mask64 11 0) (mask64 63 12)
    fun v s => s.onStu fun u => { u with ledgerBase := vMod u.ledgerBase n fun _ => v }

/-- STU_LEDGER_CFG_n. -/
def ledgerCfgReg (s : State) (n : Nat) : Reg :=
  rwReg (vAt s.stu.ledgerCfg n 0) (mask64 63 5) (mask64 4 0)
    fun v s => s.onStu fun u => { u with ledgerCfg := vMod u.ledgerCfg n fun _ => v }

/-- The registers of STU (Table 1-1). A write of the upper half of STU_PERIOD reaches no RW field. -/
def stuReg (s : State) (off : Nat) : Option Reg :=
  match off with
  | 0x00 => some (opReg s.stu.ctrl 0xFFFF000F writeStuCtrl)
  | 0x08 => some { opReg (stuPeriodValue s) (mask64 23 0) writeStuPeriod with upper := some (checkRsv (mask64 61 48)) }
  | 0x10 => some (roReg (at64 0 s.stu.stitch.toNat) (mask64 63 40))
  | 0x18 => some (roReg (at64 0 s.stu.cycle.toNat) (mask64 63 48))
  | 0x20 => some (roReg (stuStretchValue s) (bitsMask [(59, 57), (15, 14), (7, 6)]))
  | 0x28 => some (opReg (stretchReqValue s) (mask64 21 16) writeStretchReq)
  | 0x30 => some (roReg (stuAlignValue s) (bitsMask [(63, 48), (31, 25)]))
  | _ => arrays off [(0x100, 0x10, 16, ledgerBaseReg s), (0x108, 0x10, 16, ledgerCfgReg s)]

/-- HRG_WIN_w: RWL under HRG_CTRL.LOCK. -/
def windowReg (s : State) (w : Nat) : Reg :=
  lockReg (vAt s.hif.windows w 0) (mask64 62 44) 0 (mask64 63 63 ||| mask64 43 0) 0 (bit s.hif.ctrl 0)
    fun v s => s.onHif fun h => { h with windows := vMod h.windows w fun _ => v }

/-- HRG_RING_BASE_n, HRG_DB_ADDR_n or HRG_ST_ADDR_n: an address of `low` zero bits, written only while EN is clear (R386). -/
def ringAddrReg (s : State) (n low : Nat) (get : Ring → W64) (set : W64 → Ring → Ring) : Reg :=
  guardReg (get (s.ring n)) (mask64 (low - 1) 0) (mask64 63 low) (ringGuard s n (get (s.ring n)))
    fun v s => s.onRing n (set v)

/-- HRG_RING_CFG_n. -/
def ringCfgReg (s : State) (n : Nat) : Reg :=
  let r := s.ring n
  opReg (word [(63, 32, r.errPos.toNat), (27, 24, r.err), (17, 16, r.state), (8, 8, fld r.cfg 8 8), (4, 0, fld r.cfg 4 0)])
    (mask64 8 8 ||| mask64 4 0) (writeRingCfg n)

/-- The registers of HRG (Table 14-10). -/
def hrgReg (s : State) (off : Nat) : Option Reg :=
  match off with
  | 0x00 => some (lockReg s.hif.ctrl (mask64 63 1) 0 0 1 false fun v s => s.onHif fun h => { h with ctrl := v })
  | 0x08 => some (roReg (at64 0 s.hif.bar2Timeouts) (mask64 63 32))
  | _ => arrays off [
    (0x100, 0x20, 16, fun n => ringAddrReg s n 12 (·.base) fun v r => { r with base := v }),
    (0x108, 0x20, 16, ringCfgReg s),
    (0x110, 0x20, 16, fun n => ringAddrReg s n 6 (·.db) fun v r => { r with db := v }),
    (0x118, 0x20, 16, fun n => ringAddrReg s n 6 (·.st) fun v r => { r with st := v }),
    (0x800, 0x08, 16, windowReg s)]

/-- EVQ_BASE_n: written only while the queue's EN is clear (R386). -/
def evqBaseReg (s : State) (n : Nat) : Reg :=
  let q := s.queue n
  guardReg q.base (mask64 11 0) (mask64 63 12) (fun v => bit q.cfg 8 && v != q.base)
    fun v s => s.onQueue n fun q => { q with base := v }

/-- The registers of EVQ (Table 14-11). -/
def evqReg (s : State) (off : Nat) : Option Reg :=
  arrays off [
    (0x100, 0x20, 16, evqBaseReg s),
    (0x108, 0x20, 16, fun n => opReg (s.queue n).cfg (bitsMask [(20, 16), (8, 8), (4, 0)]) (writeEvqCfg n)),
    (0x110, 0x20, 16, fun n =>
      roReg (word [(63, 32, (s.queue n).tail.toNat), (15, 0, (s.queue n).lost.toNat)]) (mask64 31 16))]

/-- STATE of CTX_CFG_n. -/
def ctxStateCode : CtxState → Nat
  | .free => 0
  | .active => 1
  | .faulted => 2
  | .tearingDown => 3

/-- CTX_CFG_n. -/
def ctxCfgReg (s : State) (n : Nat) : Reg :=
  let c := s.ctx n
  opReg (word [(23, 16, c.result.toNat), (4, 4, b2n c.serving), (2, 0, ctxStateCode c.state)]) (mask64 4 4) (writeCtxCfg n)

/-- CTX_LIVE_n. -/
def ctxLiveReg (s : State) (n : Nat) : Reg :=
  rwReg (s.ctx n).live (bitsMask [(63, 33), (31, 26), (15, 10)]) (bitsMask [(32, 32), (25, 16), (9, 0)])
    fun v s => s.onCtx n fun c => { c with live := v }

/-- The registers of CTX (Table 14-12). -/
def ctxReg (s : State) (off : Nat) : Option Reg :=
  let all : W64 := mask64 63 0
  match off with
  | 0x00 => some (opReg (word [(23, 16, s.hif.swResult.toNat), (9, 9, b2n s.hif.switch.isSome), (7, 0, fld s.hif.sw 7 0)])
      (mask64 7 0) writeCtxSw)
  | 0x08 => some (rwReg s.hif.swLo 0 all fun v s => s.onHif fun h => { h with swLo := v })
  | 0x10 => some (rwReg s.hif.swHi 0 all fun v s => s.onHif fun h => { h with swHi := v })
  | _ => arrays off [
    (0x100, 0x40, 16, ctxCfgReg s),
    (0x108, 0x40, 16, fun n => opReg (s.ctx n).seed all (writeCtxSeed n)),
    (0x110, 0x40, 16, fun n => opReg (s.ctx n).rank (mask64 27 20 ||| mask64 15 0) (writeCtxRank n)),
    (0x118, 0x40, 16, ctxLiveReg s),
    (0x120, 0x40, 16, fun n => opReg (s.ctx n).shareLo all (writeCtxShare n false)),
    (0x128, 0x40, 16, fun n => opReg (s.ctx n).shareHi all (writeCtxShare n true))]

end Sys2Proof.Machine
end

