-- ==== Sys2Proof/Machine/RegsLink.lean ====
section
/-! DEFINITION. The registers of the SEA, COL, SRV and LIN blocks (Tables 8-10 to 8-13, 9-8 to 9-10, 10-9 to 10-11, 11-12 to
11-14). -/

namespace Sys2Proof.Machine

/-- STATE of SEA_PORT_STAT_m (Table 8-7). -/
def portStateCode : PortState → Nat
  | .down => 0
  | .trainFull => 1
  | .retune => 2
  | .check => 3
  | .active => 4
  | .loopback => 5
  | .fenced => 6
  | .failed => 7

/-- SEA_PORT_STAT_m: DEGRADED is cleared by writing 1. -/
def portStatReg (s : State) (m : Nat) : Reg :=
  let p := s.port m
  opReg (word [(34, 20, p.nbAddr.toNat), (19, 16, p.nbPort.val), (15, 8, p.laneLock.toNat), (6, 6, b2n p.saved),
      (5, 5, b2n p.miswired), (4, 4, b2n p.degraded), (2, 0, portStateCode p.state)]) 0
    fun v s =>
      let s := checkRsv (bitsMask [(63, 35), (7, 7), (3, 3)]) v s
      if bit v 4 then s.onPort m fun p => { p with degraded := false } else s

/-- SEA_SLOTS_m. -/
def portSlotsReg (s : State) (m : Nat) : Reg :=
  let t := (s.port m).table
  roReg (word ((List.range 8).map fun v => (8 * v + 7, 8 * v, (t.filter fun e => e.2.1.val == v).length))) 0

/-- The registers of one seam port (Table 8-10), by their offset in the port's group. -/
def portReg (s : State) (m off : Nat) : Option Reg :=
  let p := s.port m
  match off with
  | 0x00 => some (opReg (portCfgValue p) (bitsMask [(6, 3), (0, 0)]) (writePortCfg m))
  | 0x08 => some (portStatReg s m)
  | 0x10 => some (roReg (word [(47, 32, p.sigmaPs.toNat), (31, 0, p.delayPs.toNat)]) (mask64 63 48))
  | 0x18 => some (roReg (at64 0 p.cwCorrected) (mask64 63 48))
  | 0x20 => some (roReg (word [(63, 32, p.cwUncorrectable), (31, 0, p.blockBad)]) 0)
  | 0x28 => some (roReg (word [(63, 32, p.poisoned), (31, 0, p.replayed)]) 0)
  | 0x30 => some (roReg (word [(63, 48, p.retunes), (47, 0, p.symCorrected)]) 0)
  | 0x38 => some (roReg (at64 0 p.unsent) (mask64 63 32))
  | 0x40 => some (portSlotsReg s m)
  | _ => none

/-- The registers of SEA (Tables 8-10, 8-11). SEA_RT_DATA reads here without its increment. -/
def seaReg (s : State) (off : Nat) : Option Reg :=
  let a := s.sea
  let locked := seaLocked s
  match off with
  | 0x00 => some (lockReg a.ctrl (mask64 63 12 ||| mask64 7 1) 0 (mask64 11 8) 1 locked
      fun v s => s.onSea fun a => { a with ctrl := v })
  | 0x08 => some (lockReg a.addr (mask64 63 30) 0 (mask64 29 0) 0 locked fun v s => s.onSea fun a => { a with addr := v })
  | 0x10 => some (lockReg a.tree (mask64 63 40) 0 (mask64 39 0) 0 locked fun v s => s.onSea fun a => { a with tree := v })
  | 0x18 => some (rwReg a.rtSel (mask64 63 16) (mask64 15 0) fun v s => s.onSea fun a => { a with rtSel := v })
  | 0x20 => some (opReg ((seaRtHeld s).setWidth 64) (mask64 3 0) writeSeaRt)
  | _ => if 0x1000 ≤ off ∧ off < 0x1800 then portReg s ((off - 0x1000) / 0x80) ((off - 0x1000) % 0x80) else none

/-- COL_JOB_n. -/
def colJobReg (s : State) (n : Nat) : Reg :=
  let c := s.colCtx n
  rwReg (word [(16, 16, b2n c.aborted), (15, 0, c.job.toNat)]) (mask64 63 17) (mask64 15 0)
    fun v s => s.onColCtx n fun c => { c with job := v.setWidth 16 }

/-- COL_STAT_n. -/
def colStatReg (s : State) (n : Nat) : Reg :=
  let c := s.colCtx n
  roReg (word [(63, 48, c.staleSeq.toNat), (47, 32, c.staleEpoch.toNat), (31, 16, c.noCredit.toNat), (15, 0, c.aborts.toNat)]) 0

/-- COL_SEQ_n_v: the register at index 8n + v, v = 1 to 6. -/
def colSeqReg (s : State) (n v : Nat) : Reg :=
  opReg (at64 0 (seqOf (s.colCtx n) v).toNat) (mask64 31 0) (writeColSeq n v)

/-- The registers of COL (Table 9-8). -/
def colReg (s : State) (off : Nat) : Option Reg :=
  let c := s.col
  match off with
  | 0x00 => some (lockReg c.ctrl (mask64 63 2) 0 2 1 (bit c.ctrl 0) fun v s => s.onCol fun c => { c with ctrl := v })
  | 0x08 => some (woReg writeColAbort)
  | 0x10 => some (roReg c.log0 0)
  | 0x18 => some (roReg c.log1 (mask64 47 47))
  | _ =>
    if 0x400 ≤ off ∧ off < 0x800 ∧ 1 ≤ off % 0x40 / 8 ∧ off % 0x40 / 8 ≤ 6 then
      some (colSeqReg s ((off - 0x400) / 0x40) (off % 0x40 / 8))
    else arrays off [
      (0x100, 0x20, 16, colJobReg s),
      (0x108, 0x20, 16, fun n => opReg (creditToBe (s.colCtx n)) (mask64 49 0) (writeColCredit n)),
      (0x110, 0x20, 16, colStatReg s),
      (0x118, 0x20, 16, fun n => opReg (word [(31, 16, (s.colCtx n).peak.toNat), (15, 0, lentBoth (s.colCtx n))]) 0
        (writeColBook n))]

/-- STATE of a slot record (Table 10-2). -/
def slotStateCode : SlotState → Nat
  | .free => 0
  | .prefill => 1
  | .decode => 2
  | .retiring => 3
  | .parking => 4
  | .resuming => 5

/-- The 64 bytes of a slot record (Table 10-1). -/
def slotRecord (t : SeqSlot) : List Byte :=
  layout 64 [(0, leBytes 8 t.tag.toNat), (8, leBytes 1 (slotStateCode t.state)), (9, leBytes 1 t.prio.toNat),
    (10, leBytes 1 t.ctx.val), (12, leBytes 4 t.length), (16, leBytes 4 t.promptLen), (20, leBytes 4 t.maxLen),
    (24, leBytes 2 t.swatches), (26, leBytes 2 t.window), (28, leBytes 4 t.gBase), (32, leBytes 8 t.globalMask.toNat),
    (40, leBytes 5 t.admitted.toNat), (45, leBytes 2 t.keepLow), (48, leBytes 4 t.promptLine.toNat),
    (52, leBytes 4 t.timeout.toNat), (56, leBytes 8 t.swapAddr.toNat)]

/-- A register of a context that its rule refuses while SRV_CFG_n.EN is set and the value differs (R301). -/
def srvGuardReg (s : State) (n : Nat) (value rw : W64) (set : W64 → SrvCtx → SrvCtx) : Reg :=
  guardReg value (~~~ rw) rw (fun v => bit (s.srvCtx n).cfg 63 && v != value) fun v s => s.onSrvCtx n (set v)

/-- SRV_TQ_BASE_n. -/
def tqBaseReg (s : State) (n : Nat) : Reg :=
  rwReg (s.srvCtx n).tqBase (mask64 11 0) (mask64 63 12) fun v s => s.onSrvCtx n fun c => { c with tqBase := v }

/-- SRV_TQ_CTRL_n. -/
def tqCtrlReg (s : State) (n : Nat) : Reg :=
  rwReg (s.srvCtx n).tqCtrl (mask64 63 48 ||| mask64 15 5) (mask64 47 16 ||| mask64 4 0)
    fun v s => s.onSrvCtx n fun c => { c with tqCtrl := v }

/-- SRV_STAT_n. -/
def srvStatReg (s : State) (n : Nat) : Reg :=
  let c := s.srvCtx n
  roReg (word [(63, 48, c.stalls.toNat), (47, 32, swatchesSwapping s n), (31, 16, freeSwatches c), (12, 0, slotsHeld s n)])
    (mask64 15 13)

/-- SRV_STAT2_n. -/
def srvStat2Reg (s : State) (n : Nat) : Reg :=
  let c := s.srvCtx n
  roReg (word [(63, 48, c.preempted.toNat), (47, 32, c.lost.toNat), (31, 0, c.tail.toNat)]) 0

/-- The registers of SRV (Table 10-9). -/
def srvReg (s : State) (off : Nat) : Option Reg :=
  match off with
  | 0x00 => some (lockReg s.srv.ctrl (mask64 63 1) 0 0 1 false fun v s => s.onSrv fun r => { r with ctrl := v })
  | 0x08 => some (rwReg s.srv.slotSel (mask64 63 12) (mask64 11 0) fun v s => s.onSrv fun r => { r with slotSel := v })
  | _ => arrays off [
    (0x10, 8, 8, fun k => roReg (at64 0 (leAt (slotRecord (s.slot s.srv.slotSel.toNat)) (8 * k) 8)) 0),
    (0x100, 0x40, 16, fun n => opReg (s.srvCtx n).cfg (bitsMask [(63, 63), (59, 59), (56, 48), (41, 32), (28, 16), (12, 0)])
      (writeSrvCfg n)),
    (0x108, 0x40, 16, fun n => srvGuardReg s n (s.srvCtx n).pool (bitsMask [(63, 32), (23, 16), (11, 0)])
      fun v c => { c with pool := v }),
    (0x110, 0x40, 16, fun n => srvGuardReg s n (s.srvCtx n).list (bitsMask [(57, 48), (41, 32), (25, 8), (6, 0)])
      fun v c => { c with list := v }),
    (0x118, 0x40, 16, tqBaseReg s),
    (0x120, 0x40, 16, tqCtrlReg s),
    (0x128, 0x40, 16, fun n => opReg (s.srvCtx n).rt (mask64 31 0) (writeSrvRt n)),
    (0x130, 0x40, 16, srvStatReg s),
    (0x138, 0x40, 16, srvStat2Reg s),
    (0x800, 8, 16, fun n => woReg fun v s => seqCancel n v s)]

/-- LIN_STATE. -/
def linStateReg (s : State) : Reg :=
  let l := s.lin
  roReg (word [(63, 32, l.refilled.toNat), (31, 24, l.reason.toNat), (18, 18, b2n l.valid), (17, 17, b2n l.sending),
    (16, 16, b2n l.receiving), (2, 0, liningCode l.state)]) (mask64 23 19 ||| mask64 15 3)

/-- LIN_EPOCH_n. -/
def linEpochReg (s : State) (n : Nat) : Reg :=
  let t := s.train n
  let next := match t.begin with
    | some b => b.newEpoch.toNat
    | none => 0
  roReg (word [(49, 49, b2n t.reslicing), (48, 48, b2n t.begin.isSome), (47, 32, t.vEpoch.toNat), (31, 16, next),
    (15, 0, t.current.toNat)]) (mask64 63 50)

/-- LIN_APPLY_n: N_a of the pending BEGIN. -/
def linApplyReg (s : State) (n : Nat) : Reg :=
  roReg (at64 0 (match (s.train n).begin with
    | some b => (beginStitch s n b).toNat
    | none => 0)) (mask64 63 40)

/-- The registers of LIN (Table 11-12). -/
def linReg (s : State) (off : Nat) : Option Reg :=
  let l := s.lin
  let all : W64 := mask64 63 0
  match off with
  | 0x00 => some (opReg (word [(14, 8, l.keysValid.toNat), (2, 0, l.threshold.toNat)]) (mask64 2 0) writeQuorum)
  | 0x08 => some (opReg l.fabricId all writeFabric)
  | 0x10 => some (roReg l.lastNonce 0)
  | 0x18 => some (rwReg l.certAddr (mask64 8 0) (mask64 63 9) fun v s => s.onLin fun l => { l with certAddr := v })
  | 0x20 => some (opReg (at64 16 l.certResult.toNat) 0 writeCertCmd)
  | 0x28 => some (opReg l.pairCfg (bitsMask [(15, 11), (8, 8), (4, 0)]) writePairCfg)
  | 0x30 => some (rwReg l.expectSerial 0 all fun v s => s.onLin fun l => { l with expectSerial := v })
  | 0x38 => some (linStateReg s)
  | 0x40 => some (roReg (word [(63, 16, l.partnerSerial.toNat), (15, 0, l.lastEpoch.toNat)]) 0)
  | _ => arrays off [
    (0x48, 8, 4, fun j => roReg (at64 0 (fld l.partnerKey (64 * j + 63) (64 * j))) 0),
    (0x100, 8, 28, fun w => opReg (vAt l.mgrKeys w 0) all (writeMgrKey w)),
    (0x200, 0x10, 16, linEpochReg s),
    (0x208, 0x10, 16, linApplyReg s)]

end Sys2Proof.Machine
end

