-- ==== Sys2Proof/Machine/RegsMem.lean ====
section
/-! DEFINITION. The registers of the HBT, BLT and PRS blocks (Tables 5-5 to 5-8, 6-7 to 6-10, 7-12 to 7-15). -/

namespace Sys2Proof.Machine

/-- A register of panel, stack or presser k: on a TVM-7028 those of number 7 read zero and take no write (R187, R217, Table 5-8);
a nonzero value for an RSV field counts all the same (R12). -/
def presentReg (s : State) (rsv : W64) (f : Nat → Reg) (k : Nat) : Reg :=
  if k < s.nPanels then f k else { f k with value := 0, write := checkRsv rsv }

/-- HBT_RGN_STATUS. -/
def hbtStatusReg (s : State) : Reg :=
  let (n, i) := (fld s.hbm.rgnSel 7 4, fld s.hbm.rgnSel 3 0)
  let (refs, ready, defined) := match hbmRegion s n i with
    | none => (0, false, false)
    | some r => (min 65535 (regionRefs s n i), r.ready, true)
  roReg (word [(47, 32, refs), (15, 8, s.hbm.result.toNat), (1, 1, b2n ready), (0, 0, b2n defined)])
    (bitsMask [(63, 48), (31, 16), (7, 2)])

/-- HBT_TEMP_s. -/
def hbtTempReg (s : State) (k : Nat) : Reg :=
  let t := vAt s.hbm.temp k 0
  opReg (word [(27, 26, vAt s.hbm.tempFails k 0), (25, 25, b2n (vAt s.hbm.faulted k false)),
    (24, 24, b2n (decide (95 ≤ t.toInt))), (15, 8, (vAt s.hbm.tempMax k 0).toNat), (7, 0, t.toNat)]) 0 (writeHbtTemp k)

/-- HBT_WC_s. -/
def hbtWcReg (s : State) (k : Nat) : Reg :=
  let l := vAt s.hbm.wc k []
  let isSealed := (l.filter fun e => e.sealed).length
  roReg (word [(22, 16, vAt s.hbm.highWater k 0), (14, 8, isSealed), (6, 0, l.length - isSealed)])
    (bitsMask [(63, 23), (15, 15), (7, 7)])

/-- The registers of HBT (Table 6-7). -/
def hbtReg (s : State) (off : Nat) : Option Reg :=
  let h := s.hbm
  match off with
  | 0x00 => some (opReg h.ctrl (bitsMask [(24, 16), (2, 1)]) writeHbtCtrl)
  | 0x08 => some (roReg (word [(63, 32, hbmCap s), (31, 0, fixedHbm s)]) 0)
  | 0x10 => some (roReg (at64 0 h.cpar.toNat) (mask64 63 16))
  | 0x18 => some (rwReg h.rgnSel (mask64 63 8) (mask64 7 0) fun v s => s.onHbm fun h => { h with rgnSel := v })
  | 0x20 => some (rwReg h.cfg (bitsMask [(63, 48), (15, 3)]) (bitsMask [(47, 16), (2, 0)])
      fun v s => s.onHbm fun h => { h with cfg := v })
  | 0x28 => some (roReg (at64 0 (match hbmRegion s (fld h.rgnSel 7 4) (fld h.rgnSel 3 0) with
      | some r => r.base
      | none => 0)) (mask64 63 24))
  | 0x30 => some (woReg writeHbtCmd)
  | 0x38 => some (hbtStatusReg s)
  | _ => arrays off [
    (0x100, 8, 8, presentReg s (bitsMask [(63, 32), (30, 28), (23, 16)]) (hbtTempReg s)),
    (0x140, 8, 8, presentReg s (mask64 63 48) fun k => roReg (at64 0 (vAt h.corrected k 0)) (mask64 63 48)),
    (0x180, 8, 8, presentReg s 0 fun k => roReg (word [(63, 32, vAt h.onDie k 0), (31, 0, vAt h.uncorrectable k 0)]) 0),
    (0x1C0, 8, 8, presentReg s 0 fun k => roReg (word [(63, 48, vAt h.laps k 0), (47, 0, vAt h.lastLap k 0)]) 0),
    (0x200, 8, 8, presentReg s (bitsMask [(63, 23), (15, 15), (7, 7)]) (hbtWcReg s))]

/-- STATE of BLT_RGN_STATUS. -/
def residencyCode : BoltResidency → Nat
  | .free => 0
  | .loading => 1
  | .resident => 2
  | .dirty => 3
  | .fenced => 4

/-- BLT_RGN_STATUS. -/
def bltStatusReg (s : State) : Reg :=
  let (runs, pins, slot, st) := match boltRegion s s.bolt.rgnSel with
    | none => (0, 0, 0xFF, 0)
    | some x => (x.runs.length, pinsOf s x.ctx.val x.index, x.slot.getD 0xFF, residencyCode x.state)
  roReg (word [(63, 48, min 65535 runs), (47, 32, min 65535 pins), (23, 16, slot), (15, 8, s.bolt.result.toNat), (2, 0, st)])
    (mask64 31 24 ||| mask64 7 3)

/-- BLT_SCRUB_p: STARVED is cleared by writing 1. -/
def bltScrubReg (s : State) (p : Nat) : Reg :=
  opReg (word [(63, 63, b2n (vAt s.bolt.starved p false)), (62, 36, vAt s.bolt.laps p 0), (35, 0, vAt s.bolt.lastLap p 0)]) 0
    fun v s => if bit v 63 then s.onBolt fun b => { b with starved := vMod b.starved p fun _ => false } else s

/-- BLT_MSLOT_n. -/
def modelSlotReg (s : State) (n : Nat) : Reg :=
  let m : ModelSlot := vAt s.bolt.slots n {}
  roReg (word [(63, 63, b2n m.valid), (47, 40, m.regions.length), (39, 0, m.stamp.toNat)]) (mask64 62 48)

/-- The registers of BLT (Table 5-5). -/
def bltReg (s : State) (off : Nat) : Option Reg :=
  let b := s.bolt
  let all : W64 := mask64 63 0
  match off with
  | 0x00 => some (lockReg b.ctrl (mask64 63 3) 0 3 4 (bit b.ctrl 2) fun v s => s.onBolt fun b => { b with ctrl := v })
  | 0x08 => some (roReg (word [(61, 31, excludedFree s), (30, 0, boltFree s)]) (mask64 63 62))
  | 0x10 => some (rwReg (at64 0 b.rgnSel) (mask64 63 9) (mask64 8 0) fun v s => s.onBolt fun b => { b with rgnSel := v.toNat })
  | 0x18 => some (rwReg b.cfg (bitsMask [(63, 34), (15, 14), (7, 4)]) (bitsMask [(33, 16), (13, 8), (3, 0)])
      fun v s => s.onBolt fun b => { b with cfg := v })
  | 0x20 => some (rwReg b.bandsLo 0 all fun v s => s.onBolt fun b => { b with bandsLo := v })
  | 0x28 => some (rwReg b.bandsHi 0 all fun v s => s.onBolt fun b => { b with bandsHi := v })
  | 0x30 => some (rwReg b.backing (mask64 63 56 ||| mask64 51 36) (mask64 55 52 ||| mask64 35 0)
      fun v s => s.onBolt fun b => { b with backing := v })
  | 0x38 => some (woReg writeBltCmd)
  | 0x40 => some (bltStatusReg s)
  | _ => arrays off [
    (0x100, 8, 8, presentReg s 0 (bltScrubReg s)),
    (0x140, 8, 8, presentReg s (mask64 63 48) fun p => roReg (at64 0 (vAt b.corrected p 0)) (mask64 63 48)),
    (0x180, 8, 8, presentReg s 0 fun p => roReg (word [(63, 32, vAt b.wbDropped p 0), (31, 0, vAt b.uncorrectable p 0)]) 0),
    (0x1000, 0x10, 64, modelSlotReg s),
    (0x1008, 0x10, 64, fun n => roReg ((vAt b.slots n {}).id.setWidth 64) 0)]

/-- PRS_TBL_CMD: PENDING while an image of any context awaits its commit stitch. -/
def prsTblReg (s : State) : Reg :=
  let staged := (List.range 16).any fun n => (s.train n).staged.isSome
  opReg (word [(23, 16, s.prs.result.toNat), (9, 9, b2n s.prs.loading.isSome), (8, 8, b2n staged), (7, 4, s.prs.tblCtx.val)])
    (mask64 7 4) writePrsTblCmd

/-- PRS_BIND_s. -/
def prsBindReg (s : State) (k : Nat) : Reg :=
  opReg (s.presser k).bind (bitsMask [(63, 16), (7, 4), (1, 0)]) (writePrsBind k)

/-- PRS_RESERVE_s. -/
def prsReserveReg (s : State) (k : Nat) : Reg :=
  opReg (s.presser k).reserve (bitsMask [(47, 36), (31, 0)]) (writePrsReserve k)

/-- PRS_STAT_s. -/
def prsStatReg (s : State) (k : Nat) : Reg :=
  roReg (word [(63, 32, (s.presser k).statApplied.toNat), (31, 0, (s.presser k).statMirrored.toNat)]) 0

/-- PRS_FAULT_s. -/
def prsFaultReg (s : State) (k : Nat) : Reg :=
  let p := s.presser k
  roReg (word [(63, 48, p.stale.toNat), (47, 32, p.sat.toNat), (10, 0, p.flags.toNat)]) (mask64 31 11 ||| mask64 2 1)

/-- PRS_VOTE_n. -/
def prsVoteReg (s : State) (n : Nat) : Reg :=
  rwReg (s.train n).vote (mask64 47 35) (mask64 63 48 ||| mask64 34 0) fun v s => s.onTrain n fun t => { t with vote := v }

/-- PRS_COUNT_n. -/
def prsCountReg (s : State) (n : Nat) : Reg :=
  opReg (word [(63, 32, (s.train n).skips.toNat), (31, 0, (s.train n).updates.toNat)]) (mask64 63 0) (writePrsStep n true)

/-- The registers of PRS (Table 7-12). -/
def prsReg (s : State) (off : Nat) : Option Reg :=
  let p := s.prs
  match off with
  | 0x00 => some (lockReg p.ctrl (mask64 63 1) 0 0 1 false fun v s => s.onPrs fun p => { p with ctrl := v })
  | 0x08 => some (rwReg p.tblAddr (mask64 5 0) (mask64 63 6) fun v s => s.onPrs fun p => { p with tblAddr := v })
  | 0x10 => some (prsTblReg s)
  | 0x18 => some (opReg (at64 0 p.mirror.toNat) (mask64 31 0) writePrsMirror)
  | _ => arrays off [
    (0x100, 0x20, 8, presentReg s (bitsMask [(15, 8), (3, 2)]) (prsBindReg s)),
    (0x108, 0x20, 8, presentReg s (bitsMask [(63, 48), (35, 32)]) (prsReserveReg s)),
    (0x110, 0x20, 8, presentReg s 0 (prsStatReg s)),
    (0x118, 0x20, 8, presentReg s (bitsMask [(31, 11), (2, 1)]) (prsFaultReg s)),
    (0x400, 0x20, 16, fun n => opReg (at64 0 (s.train n).step.toNat) (mask64 43 0) (writePrsStep n false)),
    (0x408, 0x20, 16, prsCountReg s),
    (0x410, 0x20, 16, prsVoteReg s),
    (0x418, 0x20, 16, fun n => roReg (word [(63, 32, (s.train n).clipf.toNat), (31, 0, (s.train n).lagged.toNat)]) 0)]

end Sys2Proof.Machine
end

