-- ==== Sys2Proof/Machine/RegsMgmt.lean ====
section
/-! DEFINITION. The registers of the FLT, THM and TST blocks (Tables 13-16 to 13-18, 15-15, 15-16, 16-8). -/

namespace Sys2Proof.Machine

/-- FLT_STATUS. -/
def fltStatusReg (s : State) : Reg :=
  let f := s.flt
  roReg (word [(63, 48, f.resets.toNat), (47, 40, f.lastCause.toNat), (34, 32, f.lastTrigger.toNat), (2, 2, b2n f.resetting),
    (1, 0, f.mode)]) (mask64 39 35 ||| mask64 31 3)

/-- FLT_HELD. -/
def fltHeldReg (s : State) : Reg :=
  let f := s.flt
  roReg (word [(31, 16, f.heldPorts.toNat), (15, 8, f.heldStacks.toNat), (7, 0, f.heldPanels.toNat)]) (mask64 63 32)

/-- FLT_VIOL_n. -/
def fltViolReg (s : State) (n : Nat) : Reg :=
  let v : Violation := vAt s.flt.viol n {}
  opReg (word [(63, 56, v.lastKind.toNat), (31, 0, v.count.toNat)]) 0 (writeFltViol n)

/-- STATE of FLT_BAND_g. -/
def bandStateCode : BandState → Nat
  | .on => 0
  | .fenced => 1
  | .poweringDown => 2
  | .off => 3
  | .poweringUp => 4
  | .unavailable => 5
  | .resetting => 6

/-- FLT_BAND_g. -/
def fltBandReg (s : State) (g : Nat) : Reg :=
  let b := s.band g
  opReg (word [(63, 32, b.drops.toNat), (19, 16, b.owner.val), (10, 8, bandStateCode (bandState s g)),
    (0, 0, b2n (bandPwrOff s g))]) (mask64 0 0) (writeFltBand g)

/-- The registers of FLT (Table 13-16). -/
def fltReg (s : State) (off : Nat) : Option Reg :=
  let f := s.flt
  match off with
  | 0x00 => some (lockReg f.ctrl (mask64 63 3) 0 6 1 (bit f.ctrl 0) fun v s => s.onFlt fun f => { f with ctrl := v })
  | 0x08 => some (fltStatusReg s)
  | 0x10 => some (woReg writeFltReset)
  | 0x18 => some (roReg (word [(8, 8, b2n f.unitBusy), (7, 0, f.unitResult.toNat)]) (mask64 63 9))
  | 0x20 => some (roReg (at64 0 f.hung.toNat) (mask64 63 18))
  | 0x28 => some (fltHeldReg s)
  | _ => arrays off [(0x100, 8, 16, fltViolReg s), (0x400, 8, 128, fltBandReg s)]

/-- THM_STATUS. -/
def thmStatusReg (s : State) : Reg :=
  let t := s.thm
  roReg (word [(15, 8, t.restarts.toNat), (4, 4, b2n t.halted), (3, 3, b2n t.critFull), (2, 2, b2n t.flashBusy),
    (1, 1, b2n t.restarting), (0, 0, b2n t.recovery)]) (mask64 63 16 ||| mask64 7 5)

/-- The SVN of an image as THM_BOOT shows it: 0xFF when the image is invalid. -/
def svnShown (s : State) (b : List Byte) : Nat := if imageValid s b then imageSvn b else 0xFF

/-- THM_BOOT. -/
def thmBootReg (s : State) : Reg :=
  let t := s.thm
  roReg (word [(63, 56, t.counter.toNat), (55, 48, svnShown s t.imageA), (47, 40, svnShown s t.imageB),
    (39, 36, t.revoked.toNat), (10, 10, b2n t.updatePending), (9, 9, b2n t.trial), (8, 8, b2n t.activeB),
    (7, 0, t.attempts.toNat)]) (mask64 35 11)

/-- THM_MBOX_CMD. -/
def thmMboxReg (s : State) : Reg :=
  let t := s.thm
  opReg (word [(63, 32, t.mboxArg.toNat), (31, 24, t.mboxResult.toNat), (16, 16, b2n t.mbox.isSome)]) (mask64 63 32) writeMbox

/-- THM_LOG. -/
def thmLogReg (s : State) : Reg :=
  let t := s.thm
  roReg (word [(63, 32, t.nextSeq.toNat), (25, 16, t.critical.length), (15, 0, t.genNext.toNat)]) (mask64 31 26)

/-- THM_SENSOR_DATA of the selected sensor. -/
def sensorDataReg (s : State) : Reg :=
  let i := s.thm.sensorSel.toNat
  roReg (word [(63, 32, (Tab.getD s.thm.sensorMax i 0).toNat), (31, 0, (Tab.getD s.thm.sensors i 0).toNat)]) 0

/-- THM_DOM_ON_k or THM_DOM_HELD_k; bits above domain 169 are RSV. -/
def domainReg (f : Nat → Bool) (k : Nat) : Reg := roReg (domainWord f k) (if k = 2 then mask64 63 42 else 0)

/-- THM_PANEL_p. -/
def thmPanelReg (s : State) (p : Nat) : Reg :=
  let c : PanelClock := vAt s.thm.panels p {}
  roReg (word [(31, 16, c.hottest.toNat), (13, 8, c.targetK), (5, 0, c.clockK)]) (bitsMask [(63, 32), (15, 14), (7, 6)])

/-- The registers of THM (Table 15-15). -/
def thmReg (s : State) (off : Nat) : Option Reg :=
  let t := s.thm
  match off with
  | 0x00 => some (lockReg t.ctrl (mask64 63 3) 0 6 1 (bit t.ctrl 0) fun v s => s.onThm fun t => { t with ctrl := v })
  | 0x08 => some (thmStatusReg s)
  | 0x10 => some (thmBootReg s)
  | 0x18 => some (rwReg t.mboxAddr (mask64 5 0) (mask64 63 6) fun v s => s.onThm fun t => { t with mboxAddr := v })
  | 0x20 => some (rwReg t.mboxLen (mask64 63 24) (mask64 23 0) fun v s => s.onThm fun t => { t with mboxLen := v })
  | 0x28 => some (thmMboxReg s)
  | 0x30 => some (thmLogReg s)
  | 0x38 => some (opReg t.sensorSel (mask64 8 0) writeSensorSel)
  | 0x40 => some (sensorDataReg s)
  | 0x140 => some (roReg (at64 0 t.clkLock.toNat) (mask64 63 25))
  | _ => arrays off [(0x100, 8, 3, domainReg (domainOn s)), (0x120, 8, 3, domainReg (domainHeld s)),
      (0x180, 8, 8, thmPanelReg s)]

/-- The registers of TST (Table 16-8). -/
def tstReg (s : State) (off : Nat) : Option Reg :=
  let t := s.tst
  match off with
  | 0x00 => some (lockReg t.ctrl (mask64 63 2) 0 2 1 (bit t.ctrl 0) fun v s => s.onTst fun t => { t with ctrl := v })
  | 0x08 => some (opReg t.cmd (mask64 47 16) writeTstCmd)
  | 0x10 => some (roReg (word [(63, 32, t.elapsed.toNat), (31, 24, t.result.toNat), (16, 16, b2n t.busy), (15, 0, t.test.toNat)])
      (mask64 23 17))
  | 0x18 => some (roReg t.detail 0)
  | 0x20 => some (roReg (word [(63, 32, t.errors.toNat), (31, 0, t.checked.toNat)]) 0)
  | 0x28 => some (roReg t.fst (mask64 47 32))
  | _ => none

end Sys2Proof.Machine
end

