-- ==== Sys2Proof/Machine/Registers.lean ====
section
/-! DEFINITION. Reads and writes of BAR0 registers (R12, R373, R390, Table 14-2): REGISTER_WRITE and REGISTER_READ. -/

namespace Sys2Proof.Machine

/-- The register of a block (Table 14-2) at an offset within the block. -/
def blockReg (s : State) (block off : Nat) : Option Reg :=
  match block with
  | 0x0 => idnReg s off
  | 0x1 => stuReg s off
  | 0x2 => hrgReg s off
  | 0x3 => evqReg s off
  | 0x4 => ctxReg s off
  | 0x5 => hbtReg s off
  | 0x6 => bltReg s off
  | 0x7 => prsReg s off
  | 0x8 => seaReg s off
  | 0x9 => colReg s off
  | 0xA => srvReg s off
  | 0xB => linReg s off
  | 0xC => fltReg s off
  | 0xD => thmReg s off
  | 0xE => tstReg s off
  | _ => none

/-- The register that holds a BAR0 offset. -/
def regAt (s : State) (offset : Nat) : Option Reg := blockReg s (offset / 2 ^ 20) (offset % 2 ^ 20 / 8 * 8)

/-- SEA_RT_DATA holds the offset: its reads move INDEX on (R248). -/
def isRtData (offset : Nat) : Bool := offset / 8 * 8 == 0x800020

/-- An access of 4 or 8 bytes is naturally aligned (R373). -/
def aligned (offset : Nat) (wide : Bool) : Bool := offset % (if wide then 8 else 4) == 0

/-- What a write of 64 bits, or of the half that a 32-bit write addresses, does to a register (R373). -/
def writeReg (r : Reg) (offset : Nat) (wide : Bool) (v : W64) (s : State) : State :=
  let low : W64 := mask64 31 0
  if wide then r.write v s
  else if offset % 8 = 0 then r.write ((v &&& low) ||| (r.keep &&& r.value &&& ~~~ low)) s
  else
    let up := (v &&& low) <<< 32
    match r.upper with
    | some f => f up s
    | none => r.write (up ||| (r.keep &&& r.value &&& low)) s

/-- A write of an offset whether or not it holds a register: an offset not listed is RSV (R12). -/
def writeAt (offset : Nat) (wide : Bool) (v : W64) (s : State) : State :=
  match regAt s offset with
  | some r => writeReg r offset wide v s
  | none => checkRsv (if wide then mask64 63 0 else mask64 31 0) v s

/-- A block that stays open while RESETTING is set or in MANAGEMENT_ONLY: IDN, FLT and THM (R364, R366). -/
def openBlock (block : Nat) : Bool := block == 0x0 || block == 0xC || block == 0xD

/-- REGISTER_WRITE (R12, R373): a misaligned write does nothing and is a violation of kind 0x02; while RESETTING is set the blocks but IDN, FLT and
THM take no write, uncounted (R364), save that a START of TST_CMD reports reset in progress (Table 16-8); in MANAGEMENT_ONLY
the blocks but those and TST take none (R366). -/
def execRegisterWrite (offset : Nat) (wide : Bool) (value : W64) (s : State) : Out :=
  let block := offset / 2 ^ 20
  if ¬ aligned offset wide then .next (if s.flt.resetting then s else violate 0 0x02 s)
  else if openBlock block then .next (writeAt offset wide value s)
  else if block = 0xE then
    .next (if s.flt.resetting ∧ ¬ (offset % 2 ^ 20 = 8 ∧ fld value 1 0 = 1) then s else writeAt offset wide value s)
  else .next (bar0Write (writeAt offset wide value) s)

/-- What a read returns of a register, or of the half it addresses. -/
def readPart (offset : Nat) (wide : Bool) (v : W64) : W64 :=
  if wide then v else if offset % 8 = 0 then v &&& mask64 31 0 else v >>> 32

/-- A read of an offset: of a register with a readable field its value, of any other zero and a violation of kind 0x03
(R12). -/
def readAt (offset : Nat) (wide : Bool) (s : State) : State :=
  match regAt s offset with
  | some r =>
    if r.readable then
      let s' := s.emit (.readData (readPart offset wide r.value))
      if isRtData offset then seaRtNext s' else s'
    else (violate 0 0x03 s).emit (.readData 0)
  | none => (violate 0 0x03 s).emit (.readData 0)

/-- REGISTER_READ (R12, R364, R366, R373). -/
def execRegisterRead (offset : Nat) (wide : Bool) (s : State) : Out :=
  let block := offset / 2 ^ 20
  if ¬ aligned offset wide then .next ((if s.flt.resetting then s else violate 0 0x02 s).emit (.readData 0))
  else if openBlock block then .next (readAt offset wide s)
  else if block = 0xE then .next (if s.flt.resetting then s.emit (.readData 0) else readAt offset wide s)
  else .next (bar0Read (readAt offset wide) s)

end Sys2Proof.Machine
end

