-- ==== Sys2Proof/Machine/Approx.lean ====
section
/-! DEFINITION. The vector functions whose bits the hardware fixes and the spec gives by their accuracy (R99, Table 3-3). Each
is bracketed by integer arithmetic, far closer than its accuracy; the result is one of the binary32 words within the stated
distance of the exact value, and which one is a free value of the operands (`Config.approx`, DESIGN CHOICE, safe, assumption log 1). -/

namespace Sys2Proof.Machine

/-- A bracket of a real number: it lies between lo × 2^e and hi × 2^e. -/
structure Bracket where
  lo : Int
  hi : Int
  e : Int
deriving DecidableEq, Repr

/-- ln 2 in units of 2^−160. -/
def ln2Units : Nat := 1013035739299659071135698605846798551586536899366

/-- log2 e in units of 2^−160. -/
def log2eUnits : Nat := 2108501164428393954197770173035669514763056903505

/-- The largest binary32 magnitude at or below m × 2^e, past the largest finite one the infinity. -/
def magFloor (m : Nat) (e : Int) : Nat := min 0x7F800000 (fmtFp32.roundMag .rz 0 m e)

/-- The smallest binary32 magnitude at or above m × 2^e. -/
def magCeil (m : Nat) (e : Int) : Nat :=
  if m = 0 then 0
  else
    let u := max (topExp m e) (-126) - 23
    let exact := u ≤ e ∨ m % 2 ^ (u - e).toNat = 0
    min 0x7F800000 (fmtFp32.roundMag .rz 0 m e + (if exact then 0 else 1))

/-- The binary32 values in order, as signed magnitudes: the least at or above a value. -/
def keyCeil (n : Int) (e : Int) : Int := if 0 ≤ n then magCeil n.natAbs e else -(magFloor n.natAbs e : Int)

/-- The greatest at or below a value. -/
def keyFloor (n : Int) (e : Int) : Int := if 0 ≤ n then magFloor n.natAbs e else -(magCeil n.natAbs e : Int)

/-- The word of a signed magnitude. -/
def keyWord (k : Int) : W32 := BitVec.ofNat 32 (if k < 0 then 2 ^ 31 + k.natAbs else k.natAbs)

/-- A whole number of units 2^a in units 2^b, b at or below a. -/
def rescale (n : Int) (a b : Int) : Int := n * 2 ^ (a - b).toNat

/-- A binary32 word within `ulps` spacings of the bracketed value, and within 2^−23 where that is more and `near` says the
absolute bound of Table 3-3 holds there; the choice among them is free. -/
def pickNear (op : Nat) (a b : W32) (ulps : Nat) (absolute : Bool) (x : Bracket) : W32 :=
  let m := max x.lo.natAbs x.hi.natAbs
  let u : Int := (if m = 0 then -126 else max (topExp m x.e) (-126)) - 23
  let near : Bool := absolute && (m == 0 || decide (topExp m x.e < -20))
  let base := min x.e (min u (-23))
  let d : Int := max (rescale ulps u base) (if near then rescale 1 (-23) base else 0)
  let lo := keyCeil (rescale x.lo x.e base - d) base
  let hi := keyFloor (rescale x.hi x.e base + d) base
  keyWord (lo + ((Config.approx op a b % (hi - lo + 1).toNat : Nat) : Int))

/-- Terms of e^y − 1 after one of them; y in units of 2^−96. -/
def expTerms (y : Nat) : Nat → Nat → Nat → Nat
  | 0, _, _ => 0
  | fuel + 1, k, term => let t := term * y / (k * 2 ^ 96); t + expTerms y fuel (k + 1) t

/-- 2^x for x = n × 2^e: a mantissa in units of 2^−96 between 1 and 2, and its power of two; x is bounded by ±4,096. -/
def exp2Parts (n : Int) (e : Int) : Nat × Int :=
  let t : Int :=
    if n = 0 then 0
    else if 12 ≤ topExp n.natAbs e then (if n < 0 then -4096 * 2 ^ 96 else 4096 * 2 ^ 96)
    else if -96 ≤ e then rescale n e (-96)
    else n / 2 ^ (-96 - e).toNat
  let f := (t % 2 ^ 96).toNat
  (2 ^ 96 + expTerms (f * ln2Units / 2 ^ 160) 32 1 (2 ^ 96), t / 2 ^ 96)

/-- 2^x, bracketed. -/
def exp2Of (n : Int) (e : Int) : Bracket :=
  let (p, k) := exp2Parts n e
  { lo := p - 1024, hi := p + 1024, e := k - 96 }

/-- e^x, bracketed. -/
def expOf (n : Int) (e : Int) : Bracket := exp2Of (n * log2eUnits) (e - 160)

/-- The odd powers of t over their exponents; t in units of 2^−96. -/
def atanhTerms (t2 : Nat) : Nat → Nat → Nat → Nat
  | 0, _, _ => 0
  | fuel + 1, k, power => power / (2 * k + 1) + atanhTerms t2 fuel (k + 1) (power * t2 / 2 ^ 96)

/-- ln of the mantissa of m, in units of 2^−96. -/
def lnMantissa (m : Nat) : Nat :=
  let z := m * 2 ^ 96 / 2 ^ Nat.log2 m
  let t := (z - 2 ^ 96) * 2 ^ 96 / (z + 2 ^ 96)
  2 * atanhTerms (t * t / 2 ^ 96) 34 0 t

/-- ln (m × 2^e), bracketed. -/
def lnOf (m : Nat) (e : Int) : Bracket :=
  let n : Int := topExp m e * (ln2Units / 2 ^ 64 : Nat) + lnMantissa m
  { lo := n - 8192, hi := n + 8192, e := -96 }

/-- log2 (m × 2^e), bracketed. -/
def log2Of (m : Nat) (e : Int) : Bracket :=
  let n : Int := topExp m e * 2 ^ 96 + (lnMantissa m * log2eUnits / 2 ^ 160 : Nat)
  { lo := n - 8192, hi := n + 8192, e := -96 }

/-- 1 / (m × 2^e), bracketed. -/
def rcpOf (m : Nat) (e : Int) : Bracket :=
  let s := Nat.log2 m + 64
  let q : Int := (2 ^ s / m : Nat)
  { lo := q, hi := if 2 ^ s % m = 0 then q else q + 1, e := -e - s }

/-- 1 / √(m × 2^e), bracketed. -/
def rsqrtOf (m : Nat) (e : Int) : Bracket :=
  let (m, e) := if e % 2 = 0 then (m, e) else (2 * m, e - 1)
  let r : Int := isqrt (2 ^ 240 / m)
  { lo := r, hi := r + 1, e := -(e / 2) - 120 }

/-- tanh of m × 2^e, bracketed: a series near 0, else (E − 1) / (E + 1) with E = e^2x. -/
def tanhOf (m : Nat) (e : Int) : Bracket :=
  if m = 0 then { lo := 0, hi := 0, e := 0 }
  else if topExp m e < -12 then
    let down (x : Nat) (k : Int) : Nat := if 0 ≤ k then x * 2 ^ k.toNat else x / 2 ^ (-k).toNat
    let a : Int := (15 * 2 ^ 200 : Nat) - (down (5 * m * m) (2 * e + 200) : Nat) + (down (2 * m * m * m * m) (4 * e + 200) : Nat)
    { lo := m * (a - 2 ^ 130) / 15, hi := m * (a + 2 ^ 130) / 15 + 1, e := e - 200 }
  else if 6 ≤ topExp m e then { lo := 2 ^ 100 - 1, hi := 2 ^ 100, e := -100 }
  else
    let (p, k) := exp2Parts (2 * m * log2eUnits) (e - 160)
    let x := p * 2 ^ k.toNat
    let t : Int := ((x - 2 ^ 96) * 2 ^ 128 / (x + 2 ^ 96) : Nat)
    { lo := t - 2 ^ 60, hi := t + 2 ^ 60, e := -128 }

/-- 1 / (1 + e^−x) for x = n × 2^e, bracketed. -/
def sigmoidOf (n : Int) (e : Int) : Bracket :=
  let (p, k) := exp2Parts (-(n * log2eUnits)) (e - 160)
  if 0 ≤ k then
    let t : Int := (2 ^ (256 + k.toNat) / (2 ^ 96 + p * 2 ^ k.toNat) : Nat)
    { lo := t - 2 ^ 82, hi := t + 2 ^ 82, e := -160 - k }
  else
    let j := 96 + (-k).toNat
    let t : Int := (2 ^ (j + 160) / (2 ^ j + p) : Nat)
    { lo := t - 2 ^ 82, hi := t + 2 ^ 82, e := -160 }

/-- A finite value as a signed whole number of units. -/
def signedMag (neg : Bool) (m : Nat) : Int := if neg then -(m : Int) else m

/-- e^v of a value, given what to pick. -/
def expVal (op : Nat) (a b : W32) (ulps : Nat) (of : Int → Int → Bracket) : FVal → W32
  | .nan x => quiet x
  | .inf n => if n then 0 else f32Inf false
  | .fin n m e => pickNear op a b ulps false (of (signedMag n m) e)

/-- EXP2: at most 1 ulp. -/
def f32Exp2 (a : W32) : W32 := expVal 0x10 a 0 1 exp2Of (f32 a)

/-- EXP: at most 2 ulp. -/
def f32Exp (a : W32) : W32 := expVal 0x11 a 0 2 expOf (f32 a)

/-- A logarithm: of a zero −∞, of a negative value invalid. -/
def logVal (op : Nat) (of : Nat → Int → Bracket) (a : W32) : W32 :=
  match f32 a with
  | .nan x => quiet x
  | .inf n => if n then f32NaN else a
  | .fin n m e => if m = 0 then f32Inf true else if n then f32NaN else pickNear op a 0 2 true (of m e)

/-- LOG2. -/
def f32Log2 (a : W32) : W32 := logVal 0x12 log2Of a

/-- LN. -/
def f32Ln (a : W32) : W32 := logVal 0x13 lnOf a

/-- A bracket with its sign turned where a value is negative. -/
def signBracket (neg : Bool) (x : Bracket) : Bracket := if neg then { lo := -x.hi, hi := -x.lo, e := x.e } else x

/-- RCP: at most 1 ulp; of a zero, an infinity of its sign. -/
def f32Rcp (a : W32) : W32 :=
  match f32 a with
  | .nan x => quiet x
  | .inf n => f32Zero n
  | .fin n m e => if m = 0 then f32Inf n else pickNear 0x14 a 0 1 false (signBracket n (rcpOf m e))

/-- RSQRT: at most 1 ulp; of a zero, an infinity of its sign; of a negative value, invalid. -/
def f32Rsqrt (a : W32) : W32 :=
  match f32 a with
  | .nan x => quiet x
  | .inf n => if n then f32NaN else 0
  | .fin n m e => if m = 0 then f32Inf n else if n then f32NaN else pickNear 0x15 a 0 1 false (rsqrtOf m e)

/-- TANH: at most 2 ulp; the sign of a zero is kept. -/
def f32Tanh (a : W32) : W32 :=
  match f32 a with
  | .nan x => quiet x
  | .inf n => if n then 0xBF800000 else 0x3F800000
  | .fin n m e => if m = 0 then a else pickNear 0x18 a 0 2 false (signBracket n (tanhOf m e))

/-- SIGMOID: at most 2 ulp. -/
def f32Sigmoid (a : W32) : W32 :=
  match f32 a with
  | .nan x => quiet x
  | .inf n => if n then 0 else 0x3F800000
  | .fin n m e => pickNear 0x19 a 0 2 false (sigmoidOf (signedMag n m) e)

/-! The online softmax (R79 to R82, R100). -/

/-- A finite value that is zero. -/
def isZeroVal : FVal → Bool
  | .fin _ m _ => m == 0
  | _ => false

/-- e^(a − b) with at most 2 ulp, the difference exact; of equal finite values 1, as R82 has it of a row with one key. -/
def expDiff (op : Nat) (a b : W32) : W32 :=
  if isNaN a ∨ isNaN b then nanOf a b
  else
    let d := addVal (f32 a) (negVal (f32 b))
    if isZeroVal d then 0x3F800000 else expVal op a b 2 expOf d

/-- SALPHA: 1 when vb is −∞. -/
def f32Salpha (a b : W32) : W32 := if b = f32Inf true then 0x3F800000 else expDiff 0x20 a b

/-- SEXP: +0 when va is −∞. -/
def f32Sexp (a b : W32) : W32 := if a = f32Inf true then 0 else expDiff 0x21 a b

/-- SFIN: +0 when vb is 0. -/
def f32Sfin (a b : W32) : W32 := if b.setWidth 31 = (0 : BitVec 31) then 0 else f32Div a b

/-- SLSE: vb + ln va with at most 2 ulp; −∞ when va is 0, and a finite vb itself when va is 1, as R82 has it. -/
def f32Slse (a b : W32) : W32 :=
  if a.setWidth 31 = (0 : BitVec 31) then f32Inf true
  else if a = 0x3F800000 ∧ isFinite b then b
  else if isNaN a ∨ isNaN b then nanOf a b
  else match f32 a, f32 b with
    | .fin n m e, .fin nb mb eb =>
      if n then f32NaN
      else
        let x := lnOf m e
        let base := min eb (-96)
        let v := rescale (signedMag nb mb) eb base
        pickNear 0x23 a b 2 false { lo := rescale x.lo (-96) base + v, hi := rescale x.hi (-96) base + v, e := base }
    | .fin n _ _, .inf nb => if n then f32NaN else f32Inf nb
    | .inf n, .inf nb => if n ∨ nb then f32NaN else f32Inf false
    | .inf n, _ => if n then f32NaN else f32Inf false
    | _, _ => f32NaN

end Sys2Proof.Machine
end

