-- ==== Sys2Proof/Machine/Vector.lean ====
section
/-! DEFINITION. The vector slot (R99 to R102, Tables 3-3 and 3-5). -/

namespace Sys2Proof.Machine

/-- The mask a slot names: M_0 reads all ones (Table 3-1). -/
def maskOf (k : Core) (m : Nat) : W32 := if m = 0 then 0xFFFFFFFF else vAt k.masks m 0

/-- The 32 lanes of a register. -/
def vregOf (k : Core) (r : Nat) : List W32 := registerLanes k r

/-- Lane i of a register. -/
def laneOf (k : Core) (r i : Nat) : W32 := (vregOf k r).getD i 0

/-- A result for register r under a slot's mask, written when the latency has run. -/
def writeLanes (lat : Nat) (i : Issue) (v : VOp) (r : Nat) (lanes : List W32) (k : Core) : Core :=
  later (i.cycle + lat) (.vreg (Fin.ofNat 32 r) (maskOf k v.mask.val) lanes) k

/-- A lane function of va, vb and the old vd. -/
def lanewise (lat : Nat) (i : Issue) (v : VOp) (f : W32 → W32 → W32 → W32) (k : Core) : Core :=
  writeLanes lat i v v.vd.val ((List.range 32).map fun j => f (laneOf k v.va.val j) (laneOf k v.vb.val j) (laneOf k v.vd.val j)) k

/-- The commands that compute each lane by itself. -/
def execLanes (c : Instr) (lat : Nat) (i : Issue) (v : VOp) (f : W32 → W32 → W32 → W32) (s : State) : Out :=
  .next (onIssueCore c i (lanewise lat i v f) s)

/-- A compare writes mask M_(VD mod 8), all 32 bits (Table 3-3). -/
def compareLanes (i : Issue) (v : VOp) (f : W32 → W32 → Bool) (k : Core) : Core :=
  let m := (List.range 32).foldl (fun m j => if f (laneOf k v.va.val j) (laneOf k v.vb.val j) then m + 2 ^ j else m) 0
  later (i.cycle + 2) (.mask (Fin.ofNat 8 v.vd.val) (BitVec.ofNat 32 m)) k

/-- The compares. -/
def execCompare (c : Instr) (i : Issue) (v : VOp) (f : W32 → W32 → Bool) (s : State) : Out := .next (onIssueCore c i (compareLanes i v f) s)

/-- A binary tree over lanes: pairs (2n, 2n + 1) first (R99). -/
def pairUp (f : W32 → W32 → W32) : List W32 → List W32
  | a :: b :: l => f a b :: pairUp f l
  | l => l

/-- The five levels of the tree over 32 lanes. -/
def tree32 (f : W32 → W32 → W32) (l : List W32) : W32 :=
  (pairUp f (pairUp f (pairUp f (pairUp f (pairUp f l))))).headD 0

/-- One word in every lane. -/
def allLanes (w : W32) : List W32 := List.replicate 32 w

/-! Narrowing (R66 to R69, R73, R101). -/

/-- Value j of `bits` bits, packed from byte 0 up, is written when no destination lane that holds a part of it is masked off. -/
def packedLive (mask : W32) (bits j : Nat) : Bool := mask.getLsbD (bits * j / 32) && mask.getLsbD ((bits * j + bits - 1) / 32)

/-- The values of a packed list that a mask lets through: those that the tallies count (R73). -/
def written (mask : W32) (bits : Nat) (out : List Narrowed) : List Narrowed :=
  (out.zipIdx.filter fun x => packedLive mask bits x.2).map (·.1)

/-- Narrowed values of `bits` bits packed from byte 0 up. -/
def packValues (bits : Nat) (l : List Narrowed) : List W32 :=
  let n := l.zipIdx.foldl (fun a x => a + x.1.bits * 2 ^ (bits * x.2)) 0
  (List.range 32).map fun j => BitVec.ofNat 32 (n / 2 ^ (32 * j))

/-- The values of va narrowed lane by lane, each with its own draw under SR. -/
def narrowed (s : State) (n c : Nat) (v : VOp) (f : Nat → FVal → W32 → Narrowed) : List Narrowed :=
  (List.range 32).map fun j => let x := laneOf (s.core c) v.va.val j; f (drawRv s n c v.srs.val 0 j) (f32 x) x

/-- A narrowing instruction: packed result, tallies of what is written, one draw index under SR. -/
def narrowSlot (i : Issue) (v : VOp) (bits : Nat) (f : Nat → FVal → W32 → Narrowed) (n c : Nat) (s : State) : State :=
  let out := narrowed s n c v f
  s.onCore c fun k =>
    let k := tallyAll v.tg.val (written (maskOf k v.mask.val) bits out) (writeLanes 4 i v v.vd.val (packValues bits out) k)
    if v.rnd = .sr then advanceDraw v.srs.val 1 k else k

/-- Narrowing to a floating-point format. -/
def execNarrowFp (c : Instr) (i : Issue) (v : VOp) (t : FFmt) (s : State) : Out :=
  .next (onIssue c i (narrowSlot i v t.width fun rv x _ => t.narrow v.rnd v.ieee rv x) s)

/-- Narrowing to an integer: of a non-finite value −128 for INT8 (R77), a free value for INT32, where the spec gives none. -/
def narrowToInt (bits : Nat) (rnd : Rnd) (rv : Nat) (x : FVal) (w : W32) : Narrowed :=
  match x with
  | .fin n m e => narrowInt bits rnd rv n m e
  | _ => { bits := if bits = 8 then 128 else (Config.freeWord 0x45 w 0).toNat, nf := true }

/-- Narrowing to an integer. -/
def execNarrowInt (c : Instr) (i : Issue) (v : VOp) (bits : Nat) (s : State) : Out :=
  .next (onIssue c i (narrowSlot i v bits fun rv x w => narrowToInt bits v.rnd rv x w) s)

/-! MX blocks (R49, R50, Table 2-2). -/

/-- e_max of an MX element type (R50). -/
def mxEmax (t : FFmt) : Int := (2 ^ t.ebits - 1 : Nat) - (t.bias : Int) - (if t.kind = .ieee then 1 else 0)

/-- The magnitude of a finite value as (m, e), none for another. -/
def finiteParts : FVal → Option (Nat × Int)
  | .fin _ m e => some (m, e)
  | _ => none

/-- The largest ⌊log2 |x|⌋ over the finite nonzero values of a list. -/
def largestExp (l : List FVal) : Option Int :=
  l.foldl (fun t v => match v with
    | .fin _ m e => if m = 0 then t else match t with
      | some x => some (max x (topExp m e))
      | none => some (topExp m e)
    | _ => t) none

/-- The scale byte of a block of values, and whether it was clamped (R50). -/
def mxScale (t : FFmt) (l : List FVal) : Nat × Bool :=
  if l.any fun v => (finiteParts v).isNone then (255, false)
  else match largestExp l with
    | none => (0, false)
    | some e =>
      let x := e - mxEmax t + 127
      if x < 0 then (0, true) else if 254 < x then (254, true) else (x.toNat, false)

/-- One element of a block under its scale; a non-finite block has zero elements. -/
def mxElement (t : FFmt) (rnd : Rnd) (scale : Nat) (rv : Nat) (v : FVal) : Narrowed :=
  match v with
  | .fin n m e =>
    if scale = 255 then { bits := 0 }
    else
      let r := t.narrowFin rnd false rv n m (e + 127 - scale)
      { r with exp := if m = 0 then none else some (topExp m e) }
  | _ => { bits := 0, nf := true }

/-- MXE: the block of va's lanes, its elements packed from byte 0 and its scale in byte 0 of lane 16 (R101). -/
def mxeSlot (i : Issue) (v : VOp) (t : FFmt) (n c : Nat) (s : State) : State :=
  let vals := (List.range 32).map fun j => f32 (laneOf (s.core c) v.va.val j)
  let (x, _) := mxScale t vals
  let out := vals.zipIdx.map fun y => mxElement t v.rnd x (drawRv s n c v.srs.val 0 y.2) y.1
  let lanes := (packValues t.width out).zipIdx.map fun y => if y.2 = 16 then BitVec.ofNat 32 x else y.1
  s.onCore c fun k =>
    let k := tallyAll v.tg.val (written (maskOf k v.mask.val) t.width out) (writeLanes 6 i v v.vd.val lanes k)
    if v.rnd = .sr then advanceDraw v.srs.val 1 k else k

/-- MXE of an element type. -/
def execMxe (c : Instr) (i : Issue) (v : VOp) (t : FFmt) (s : State) : Out := .next (onIssue c i (mxeSlot i v t) s)

/-! GS16 blocks (R51 to R54). -/

/-- A GS16 block as encoded: its shared exponent, flags, and significands. -/
structure GsBlock where
  exp : Nat
  flags : Nat
  sigs : List Int
deriving DecidableEq, Repr

/-- One significand (R53): rounded in units of 2^(E − 142) and clamped; `rv` its random value. -/
def gsSig (rnd : Rnd) (e : Nat) (rv : Nat) (v : FVal) : Int :=
  match v with
  | .fin n m x => let q : Int := min 32767 (roundUnits rnd rv m (x + 142 - e) 0); if n then -q else q
  | _ => 0

/-- 64 values encoded (R53); `rvs` are their random values. -/
def gsEncode (rnd : Rnd) (vals : List FVal) (rvs : Nat → Nat) : GsBlock :=
  if vals.any fun v => (finiteParts v).isNone then { exp := 255, flags := 1, sigs := List.replicate 64 0 }
  else match largestExp vals with
    | none => { exp := 0, flags := 0, sigs := List.replicate 64 0 }
    | some top =>
      let e := top + 1
      let x := (max (-126) (min 127 e) + 127).toNat
      let sigs := vals.zipIdx.map fun y => gsSig rnd x (rvs y.2) y.1
      let lost := (vals.zip sigs).any fun y => y.2 == 0 && decide (finiteParts y.1 ≠ none) && (match y.1 with
        | .fin _ m _ => m != 0
        | _ => false)
      { exp := x, flags := 2 * b2n (decide (127 < e)) + 4 * b2n lost, sigs := sigs }

/-- The 136 bytes of a block with its header (Table 2-3), its CRC computed (R54). -/
def gsBytes (b : GsBlock) (flags epoch count : Nat) : List Byte :=
  let head := [BitVec.ofNat 8 b.exp, BitVec.ofNat 8 flags] ++ leBytes 2 epoch ++ leBytes 2 count
  let sig := (b.sigs.map fun x => leBytes 2 (x % 65536).toNat).flatten
  head ++ leBytes 2 (crc16 (head ++ sig)).toNat ++ sig

/-- What the tallies count of one block under a mask (R73): MAXEXP and FTZ of the values it lets through, two to a lane of VD, and
one SAT, NF and UNDERRUN for its flags where it lets through lane 0 of the header. The finite values of a block encoded NF give
their exponents to MAXEXP, though their significands are written zero (DEDUCED, unsafe, assumption log 85). -/
def gsTally (mask : W32) (b : GsBlock) (flags : Nat) (vals : List FVal) (t : Tally) : Tally :=
  let live := ((vals.zip b.sigs).zipIdx.filter fun y => packedLive mask 16 y.2).map (·.1)
  let zeros := live.filter fun y => b.exp != 255 && y.2 == 0 && (match y.1 with
    | .fin _ m _ => m != 0
    | _ => false)
  let head := b2n (mask.getLsbD 0)
  { t with
    maxexp := maxExp t.maxexp (largestExp (live.map (·.1)))
    sat := satInc t.sat (head * (flags / 2 % 2))
    nf := satInc t.nf (head * (flags % 2))
    underrun := satInc t.underrun (head * (flags / 4 % 2))
    ftz := satInc t.ftz zeros.length }

/-- FLAGS and COUNT of the header GSE writes: those of a fresh block (R53); under a stream of a collective program, with those of
the blocks that were combined into the bank drained last (R55). -/
def gsHeader (k : Core) (srs : Nat) (b : GsBlock) : Nat × Nat :=
  if forLibrary (vAt k.srs srs {}) then (Nat.lor b.flags k.drained.flagsOut, k.drained.count) else (b.flags, 1)

/-- GSE (R53, R101, R102): va and va + 1 give 64 values; the significands fill VD, VD + 1 is zero, and the header lies in
lanes 0 and 1 of VD + 2. The draws of va + 1 use the next index, and both are passed. -/
def gseSlot (i : Issue) (v : VOp) (n c : Nat) (s : State) : State :=
  let k := s.core c
  let vals := (vregOf k v.va.val ++ vregOf k (v.va.val + 1)).map f32
  let b := gsEncode v.rnd vals fun j => drawRv s n c v.srs.val (j / 32) (j % 32)
  let (flags, count) := gsHeader k v.srs.val b
  let bytes := gsBytes b flags (s.train n).current.toNat count
  s.onCore c fun k =>
    let k := writeLanes 8 i v v.vd.val (lanesOf (bytes.drop 8)) k
    let k := writeLanes 8 i v (v.vd.val + 1) (allLanes 0) k
    let k := writeLanes 8 i v (v.vd.val + 2) (lanesOf (bytes.take 8)) k
    let k := onTally v.tg.val (gsTally (maskOf k v.mask.val) b flags vals) k
    if v.rnd = .sr then advanceDraw v.srs.val 2 k else k

/-! Widening (R101). -/

/-- A value of a narrow format as binary32, exact; a NaN keeps its sign and payload where the format has one. -/
def widen (t : FFmt) (x : Nat) : W32 :=
  match t.decode x with
  | .nan _ =>
    let neg := x / 2 ^ (t.ebits + t.mbits) % 2
    let payload := if t.kind = .ieee then x % 2 ^ t.mbits * 2 ^ (23 - t.mbits) else 0
    quiet (BitVec.ofNat 32 (neg * 2 ^ 31 + 0x7F800000 + payload))
  | v => valF32 v

/-- The packed elements of va. -/
def unpack (k : Core) (r bits j : Nat) : Nat :=
  (fromLe (bytesOfLanes (vregOf k r))) / 2 ^ (bits * j) % 2 ^ bits

/-- WID from a floating-point format. -/
def execWiden (c : Instr) (i : Issue) (v : VOp) (t : FFmt) (s : State) : Out :=
  .next (onIssueCore c i (fun k =>
    writeLanes 3 i v v.vd.val ((List.range 32).map fun j => widen t (unpack k v.va.val t.width j)) k) s)

/-- The element type WID.MX reads. R194 has it widen the E4M3 copies that a presser writes, and names no modifier for them: with every
modifier bit 0 it reads E4M3 (DEDUCED, unsafe, assumption log 1). Which of the other types the modifier bits choose otherwise is
a free value, since the encoding names none (DESIGN CHOICE, safe, assumption log 1). -/
def widType (v : VOp) : FFmt :=
  let r := match v.rnd with
    | .rne => 0
    | .rz => 1
    | .sr => 2
  let m := 32 * r + 16 * b2n v.ieee + 4 * v.tg.val + v.srs.val
  if m = 0 then fmtE4m3 else match Config.widMxType m % 5 with
  | 0 => fmtE4m3
  | 1 => fmtE5m2
  | 2 => fmtE3m2
  | 3 => fmtE2m3
  | _ => fmtE2m1

/-- One element of an MX block as binary32 (R49): element × 2^(X − 127), NaN under scale 0xFF. Table 3-3 calls the widening exact;
a value outside what binary32 holds is rounded to nearest even, to a subnormal, a zero or an infinity (DESIGN CHOICE, unsafe,
assumption log 86). -/
def widenMx (t : FFmt) (scale x : Nat) : W32 :=
  if scale = 255 then f32NaN
  else match t.decode x with
    | .fin n m e => toF32 n m (e + scale - 127)
    | v => valF32 v

/-- The words of a shift, by vb mod 32. -/
def shiftBy (b : W32) : Nat := b.toNat % 32

/-- FADD: va + vb, correctly rounded (R99). -/
def execFadd (i : Issue) (v : VOp) (s : State) : Out := execLanes (.fadd i v) 4 i v (fun a b _ => f32Add a b) s

/-- FSUB. -/
def execFsub (i : Issue) (v : VOp) (s : State) : Out := execLanes (.fsub i v) 4 i v (fun a b _ => f32Sub a b) s

/-- FMUL. -/
def execFmul (i : Issue) (v : VOp) (s : State) : Out := execLanes (.fmul i v) 4 i v (fun a b _ => f32Mul a b) s

/-- FMA: va × vb + vd, rounded once. -/
def execFma (i : Issue) (v : VOp) (s : State) : Out := execLanes (.fma i v) 4 i v (fun a b d => f32Fma a b d) s

/-- FMAX. -/
def execFmax (i : Issue) (v : VOp) (s : State) : Out := execLanes (.fmax i v) 2 i v (fun a b _ => f32Max a b) s

/-- FMIN. -/
def execFmin (i : Issue) (v : VOp) (s : State) : Out := execLanes (.fmin i v) 2 i v (fun a b _ => f32Min a b) s

/-- FABS: the sign bit cleared. -/
def execFabs (i : Issue) (v : VOp) (s : State) : Out := execLanes (.fabs i v) 2 i v (fun a _ _ => a &&& 0x7FFFFFFF) s

/-- FNEG: the sign bit turned. -/
def execFneg (i : Issue) (v : VOp) (s : State) : Out := execLanes (.fneg i v) 2 i v (fun a _ _ => a ^^^ 0x80000000) s

/-- FCMPLT. -/
def execFcmplt (i : Issue) (v : VOp) (s : State) : Out := execCompare (.fcmplt i v) i v f32Lt s

/-- FCMPEQ. -/
def execFcmpeq (i : Issue) (v : VOp) (s : State) : Out := execCompare (.fcmpeq i v) i v f32Eq s

/-- FCMPLE. -/
def execFcmple (i : Issue) (v : VOp) (s : State) : Out := execCompare (.fcmple i v) i v f32Le s

/-- SEL: the mask selects va or vb in every lane. -/
def execSel (i : Issue) (v : VOp) (s : State) : Out :=
  .next (onIssueCore (.sel i v) i (fun k =>
    later (i.cycle + 2) (.vreg v.vd 0xFFFFFFFF (merge (maskOf k v.mask.val) (vregOf k v.vb.val) (vregOf k v.va.val))) k) s)

/-- RSUM: the sum of va's lanes by the tree of R99, in every lane. -/
def execRsum (i : Issue) (v : VOp) (s : State) : Out :=
  .next (onIssueCore (.rsum i v) i (fun k => writeLanes 8 i v v.vd.val (allLanes (tree32 f32Add (vregOf k v.va.val))) k) s)

/-- RMAX: the maximum of va's lanes, in every lane. -/
def execRmax (i : Issue) (v : VOp) (s : State) : Out :=
  .next (onIssueCore (.rmax i v) i (fun k => writeLanes 6 i v v.vd.val (allLanes (tree32 f32Max (vregOf k v.va.val))) k) s)

/-- BCAST: the lane of va that VB names, in every lane. -/
def execBcast (i : Issue) (v : VOp) (s : State) : Out :=
  .next (onIssueCore (.bcast i v) i (fun k => writeLanes 2 i v v.vd.val (allLanes (laneOf k v.va.val v.vb.val)) k) s)

/-- EXP2. -/
def execExp2 (i : Issue) (v : VOp) (s : State) : Out := execLanes (.exp2 i v) 10 i v (fun a _ _ => f32Exp2 a) s

/-- EXP. -/
def execExp (i : Issue) (v : VOp) (s : State) : Out := execLanes (.exp i v) 12 i v (fun a _ _ => f32Exp a) s

/-- LOG2. -/
def execLog2 (i : Issue) (v : VOp) (s : State) : Out := execLanes (.log2 i v) 10 i v (fun a _ _ => f32Log2 a) s

/-- LN. -/
def execLn (i : Issue) (v : VOp) (s : State) : Out := execLanes (.ln i v) 12 i v (fun a _ _ => f32Ln a) s

/-- RCP. -/
def execRcp (i : Issue) (v : VOp) (s : State) : Out := execLanes (.rcp i v) 8 i v (fun a _ _ => f32Rcp a) s

/-- RSQRT. -/
def execRsqrt (i : Issue) (v : VOp) (s : State) : Out := execLanes (.rsqrt i v) 8 i v (fun a _ _ => f32Rsqrt a) s

/-- SQRT, correctly rounded. -/
def execSqrt (i : Issue) (v : VOp) (s : State) : Out := execLanes (.sqrt i v) 12 i v (fun a _ _ => f32Sqrt a) s

/-- FDIV, correctly rounded. -/
def execFdiv (i : Issue) (v : VOp) (s : State) : Out := execLanes (.fdiv i v) 14 i v (fun a b _ => f32Div a b) s

/-- TANH. -/
def execTanh (i : Issue) (v : VOp) (s : State) : Out := execLanes (.tanh i v) 14 i v (fun a _ _ => f32Tanh a) s

/-- SIGMOID. -/
def execSigmoid (i : Issue) (v : VOp) (s : State) : Out := execLanes (.sigmoid i v) 14 i v (fun a _ _ => f32Sigmoid a) s

/-- SALPHA (R79, R100): the rescale factor of the old maximum va and the new one vb. -/
def execSalpha (i : Issue) (v : VOp) (s : State) : Out := execLanes (.salpha i v) 14 i v (fun a b _ => f32Salpha a b) s

/-- SEXP (R79, R100): the weight of a score va against the maximum vb. -/
def execSexp (i : Issue) (v : VOp) (s : State) : Out := execLanes (.sexp i v) 14 i v (fun a b _ => f32Sexp a b) s

/-- SFIN (R80, R81, R100): va / vb, +0 where vb is zero; NF counts each non-finite element written, and with COUNT set
EMPTY_ROW each lane whose vb is zero, written or not. -/
def execSfin (i : Issue) (v : VOp) (s : State) : Out :=
  .next (onIssueCore (.sfin i v) i (fun k =>
    let out := (List.range 32).map fun j => f32Sfin (laneOf k v.va.val j) (laneOf k v.vb.val j)
    let m := maskOf k v.mask.val
    let nf := ((List.range 32).filter fun j => m.getLsbD j && !isFinite (out.getD j 0)).length
    let empty := ((List.range 32).filter fun j => (laneOf k v.vb.val j).setWidth 31 == (0 : BitVec 31)).length
    let count := if v.srs.val % 2 = 1 then empty else 0
    onTally v.tg.val (fun t => { t with nf := satInc t.nf nf, emptyRow := satInc t.emptyRow count })
      (writeLanes 16 i v v.vd.val out k)) s)

/-- SLSE (R79, R80, R100): vb + ln va, −∞ where va is zero. -/
def execSlse (i : Issue) (v : VOp) (s : State) : Out := execLanes (.slse i v) 14 i v (fun a b _ => f32Slse a b) s

/-- IADD. -/
def execIadd (i : Issue) (v : VOp) (s : State) : Out := execLanes (.iadd i v) 2 i v (fun a b _ => a + b) s

/-- ISUB. -/
def execIsub (i : Issue) (v : VOp) (s : State) : Out := execLanes (.isub i v) 2 i v (fun a b _ => a - b) s

/-- IMUL: the low 32 bits. -/
def execImul (i : Issue) (v : VOp) (s : State) : Out := execLanes (.imul i v) 4 i v (fun a b _ => a * b) s

/-- AND. -/
def execAnd (i : Issue) (v : VOp) (s : State) : Out := execLanes (.and i v) 2 i v (fun a b _ => a &&& b) s

/-- OR. -/
def execOr (i : Issue) (v : VOp) (s : State) : Out := execLanes (.or i v) 2 i v (fun a b _ => a ||| b) s

/-- XOR. -/
def execXor (i : Issue) (v : VOp) (s : State) : Out := execLanes (.xor i v) 2 i v (fun a b _ => a ^^^ b) s

/-- SHL: by vb mod 32. -/
def execShl (i : Issue) (v : VOp) (s : State) : Out := execLanes (.shl i v) 2 i v (fun a b _ => a <<< shiftBy b) s

/-- SHR: logical, by vb mod 32. -/
def execShr (i : Issue) (v : VOp) (s : State) : Out := execLanes (.shr i v) 2 i v (fun a b _ => a >>> shiftBy b) s

/-- SRA: arithmetic, by vb mod 32. -/
def execSra (i : Issue) (v : VOp) (s : State) : Out := execLanes (.sra i v) 2 i v (fun a b _ => a.sshiftRight (shiftBy b)) s

/-- ICMPLT: signed. -/
def execIcmplt (i : Issue) (v : VOp) (s : State) : Out := execCompare (.icmplt i v) i v (fun a b => a.slt b) s

/-- ICMPEQ. -/
def execIcmpeq (i : Issue) (v : VOp) (s : State) : Out := execCompare (.icmpeq i v) i v (fun a b => a == b) s

/-- IMIN: signed. -/
def execImin (i : Issue) (v : VOp) (s : State) : Out := execLanes (.imin i v) 2 i v (fun a b _ => if a.slt b then a else b) s

/-- IMAX: signed. -/
def execImax (i : Issue) (v : VOp) (s : State) : Out := execLanes (.imax i v) 2 i v (fun a b _ => if a.slt b then b else a) s

/-- NRW to BF16. -/
def execNrwBf16 (i : Issue) (v : VOp) (s : State) : Out := execNarrowFp (.nrwBf16 i v) i v fmtBf16 s

/-- NRW to FP16. -/
def execNrwFp16 (i : Issue) (v : VOp) (s : State) : Out := execNarrowFp (.nrwFp16 i v) i v fmtFp16 s

/-- NRW to E4M3. -/
def execNrwE4m3 (i : Issue) (v : VOp) (s : State) : Out := execNarrowFp (.nrwE4m3 i v) i v fmtE4m3 s

/-- NRW to E5M2. -/
def execNrwE5m2 (i : Issue) (v : VOp) (s : State) : Out := execNarrowFp (.nrwE5m2 i v) i v fmtE5m2 s

/-- NRW to INT8. -/
def execNrwInt8 (i : Issue) (v : VOp) (s : State) : Out := execNarrowInt (.nrwInt8 i v) i v 8 s

/-- NRW to INT32: all 32 lanes. -/
def execNrwInt32 (i : Issue) (v : VOp) (s : State) : Out := execNarrowInt (.nrwInt32 i v) i v 32 s

/-- CVT.I2F: INT32 to FP32 by RNE. -/
def execCvtI2f (i : Issue) (v : VOp) (s : State) : Out := execLanes (.cvtI2f i v) 4 i v (fun a _ _ => f32OfInt a.toInt) s

/-- MXE to E4M3. -/
def execMxeE4m3 (i : Issue) (v : VOp) (s : State) : Out := execMxe (.mxeE4m3 i v) i v fmtE4m3 s

/-- MXE to E5M2. -/
def execMxeE5m2 (i : Issue) (v : VOp) (s : State) : Out := execMxe (.mxeE5m2 i v) i v fmtE5m2 s

/-- MXE to E3M2. -/
def execMxeE3m2 (i : Issue) (v : VOp) (s : State) : Out := execMxe (.mxeE3m2 i v) i v fmtE3m2 s

/-- MXE to E2M3. -/
def execMxeE2m3 (i : Issue) (v : VOp) (s : State) : Out := execMxe (.mxeE2m3 i v) i v fmtE2m3 s

/-- MXE to E2M1. -/
def execMxeE2m1 (i : Issue) (v : VOp) (s : State) : Out := execMxe (.mxeE2m1 i v) i v fmtE2m1 s

/-- GSE. -/
def execGse (i : Issue) (v : VOp) (s : State) : Out := .next (onIssue (.gse i v) i (gseSlot i v) s)

/-- WID from BF16. -/
def execWidBf16 (i : Issue) (v : VOp) (s : State) : Out := execWiden (.widBf16 i v) i v fmtBf16 s

/-- WID from FP16. -/
def execWidFp16 (i : Issue) (v : VOp) (s : State) : Out := execWiden (.widFp16 i v) i v fmtFp16 s

/-- WID from E4M3. -/
def execWidE4m3 (i : Issue) (v : VOp) (s : State) : Out := execWiden (.widE4m3 i v) i v fmtE4m3 s

/-- WID from E5M2. -/
def execWidE5m2 (i : Issue) (v : VOp) (s : State) : Out := execWiden (.widE5m2 i v) i v fmtE5m2 s

/-- WID from INT8. -/
def execWidInt8 (i : Issue) (v : VOp) (s : State) : Out :=
  .next (onIssueCore (.widInt8 i v) i (fun k =>
    writeLanes 3 i v v.vd.val ((List.range 32).map fun j => f32OfInt (BitVec.ofNat 8 (unpack k v.va.val 8 j)).toInt) k) s)

/-- WID from an MX block, its scale in byte 0 of lane 16. -/
def execWidMx (i : Issue) (v : VOp) (s : State) : Out :=
  .next (onIssueCore (.widMx i v) i (fun k =>
    let t := widType v
    let x := (laneOf k v.va.val 16).toNat % 256
    writeLanes 3 i v v.vd.val ((List.range 32).map fun j => widenMx t x (unpack k v.va.val t.width j)) k) s)

/-- RAND (R70, R102): the low half of each lane's output to VD, the high half to VD + 1. -/
def execRand (i : Issue) (v : VOp) (s : State) : Out :=
  .next (onIssue (.rand i v) i (fun n c s =>
    let out := (List.range 32).map fun j => draw s n c v.srs.val 0 j
    s.onCore c fun k =>
      let k := writeLanes 10 i v v.vd.val (out.map fun (w : W64) => w.setWidth 32) k
      let k := writeLanes 10 i v (v.vd.val + 1) (out.map fun (w : W64) => (w >>> 32).setWidth 32) k
      advanceDraw v.srs.val 1 k) s)

end Sys2Proof.Machine
end

