-- ==== Sys2Proof/Machine/Dispatch.lean ====
section
/-! DEFINITION. The dispatch of commands: one arm per constructor of `Instr`, in the table's order. -/

namespace Sys2Proof.Machine

def exec (i : Instr) (s : State) : Host.Outcome State Fault Refusal :=
  match i with
  -- the stitch unit (01_stitch)
  | .stitchBoundary => Sys2Proof.Machine.execStitchBoundary s
  | .marker port m arrivalPs => Sys2Proof.Machine.execMarker port m arrivalPs s
  | .stretchReq port factor reasons => Sys2Proof.Machine.execStretchReq port factor reasons s
  | .stretchAnn port k apply => Sys2Proof.Machine.execStretchAnn port k apply s
  | .periodAnn port units apply => Sys2Proof.Machine.execPeriodAnn port units apply s
  | .ready port m => Sys2Proof.Machine.execReady port m s
  | .go port tag start => Sys2Proof.Machine.execGo port tag start s
  | .miss port tag start => Sys2Proof.Machine.execMiss port tag start s
  | .barrierCheck => Sys2Proof.Machine.execBarrierCheck s
  | .barrierTimeout => Sys2Proof.Machine.execBarrierTimeout s
  | .masterTakeover => Sys2Proof.Machine.execMasterTakeover s
  | .holdover => Sys2Proof.Machine.execHoldover s
  | .alignmentFault => Sys2Proof.Machine.execAlignmentFault s
  | .stretchChange => Sys2Proof.Machine.execStretchChange s
  | .periodChange => Sys2Proof.Machine.execPeriodChange s
  | .stuPeriodWrite value => Sys2Proof.Machine.execStuPeriodWrite value s
  | .stuEnable value => Sys2Proof.Machine.execStuEnable value s
  | .sysFactor value => Sys2Proof.Machine.execSysFactor value s
  | .thermalStepUp r => Sys2Proof.Machine.execThermalStepUp r s
  | .thermalWithdraw p => Sys2Proof.Machine.execThermalWithdraw p s
  | .supplyReason o => Sys2Proof.Machine.execSupplyReason o s
  | .supplyWithdraw => Sys2Proof.Machine.execSupplyWithdraw s
  | .phaseLedgerRecord n => Sys2Proof.Machine.execPhaseLedgerRecord n s
  -- the array slot (03_core, Table 3-4)
  | .nop u slot => Sys2Proof.Machine.execNop u slot s
  | .load u pair aAddr b => Sys2Proof.Machine.execLoad u pair aAddr b s
  | .ldsc u set saAddr b => Sys2Proof.Machine.execLdsc u set saAddr b s
  | .mac u bank pair set fmt => Sys2Proof.Machine.execMac u bank pair set fmt s
  | .accin u bank pair row set form => Sys2Proof.Machine.execAccin u bank pair row set form s
  | .drain u bank row dst dc clr => Sys2Proof.Machine.execDrain u bank row dst dc clr s
  | .clear u bank => Sys2Proof.Machine.execClear u bank s
  | .setw u bank d => Sys2Proof.Machine.execSetw u bank d s
  -- the vector slot (Table 3-3)
  | .fadd u v => Sys2Proof.Machine.execFadd u v s
  | .fsub u v => Sys2Proof.Machine.execFsub u v s
  | .fmul u v => Sys2Proof.Machine.execFmul u v s
  | .fma u v => Sys2Proof.Machine.execFma u v s
  | .fmax u v => Sys2Proof.Machine.execFmax u v s
  | .fmin u v => Sys2Proof.Machine.execFmin u v s
  | .fabs u v => Sys2Proof.Machine.execFabs u v s
  | .fneg u v => Sys2Proof.Machine.execFneg u v s
  | .fcmplt u v => Sys2Proof.Machine.execFcmplt u v s
  | .fcmpeq u v => Sys2Proof.Machine.execFcmpeq u v s
  | .fcmple u v => Sys2Proof.Machine.execFcmple u v s
  | .sel u v => Sys2Proof.Machine.execSel u v s
  | .rsum u v => Sys2Proof.Machine.execRsum u v s
  | .rmax u v => Sys2Proof.Machine.execRmax u v s
  | .bcast u v => Sys2Proof.Machine.execBcast u v s
  | .exp2 u v => Sys2Proof.Machine.execExp2 u v s
  | .exp u v => Sys2Proof.Machine.execExp u v s
  | .log2 u v => Sys2Proof.Machine.execLog2 u v s
  | .ln u v => Sys2Proof.Machine.execLn u v s
  | .rcp u v => Sys2Proof.Machine.execRcp u v s
  | .rsqrt u v => Sys2Proof.Machine.execRsqrt u v s
  | .sqrt u v => Sys2Proof.Machine.execSqrt u v s
  | .fdiv u v => Sys2Proof.Machine.execFdiv u v s
  | .tanh u v => Sys2Proof.Machine.execTanh u v s
  | .sigmoid u v => Sys2Proof.Machine.execSigmoid u v s
  | .salpha u v => Sys2Proof.Machine.execSalpha u v s
  | .sexp u v => Sys2Proof.Machine.execSexp u v s
  | .sfin u v => Sys2Proof.Machine.execSfin u v s
  | .slse u v => Sys2Proof.Machine.execSlse u v s
  | .iadd u v => Sys2Proof.Machine.execIadd u v s
  | .isub u v => Sys2Proof.Machine.execIsub u v s
  | .imul u v => Sys2Proof.Machine.execImul u v s
  | .and u v => Sys2Proof.Machine.execAnd u v s
  | .or u v => Sys2Proof.Machine.execOr u v s
  | .xor u v => Sys2Proof.Machine.execXor u v s
  | .shl u v => Sys2Proof.Machine.execShl u v s
  | .shr u v => Sys2Proof.Machine.execShr u v s
  | .sra u v => Sys2Proof.Machine.execSra u v s
  | .icmplt u v => Sys2Proof.Machine.execIcmplt u v s
  | .icmpeq u v => Sys2Proof.Machine.execIcmpeq u v s
  | .imin u v => Sys2Proof.Machine.execImin u v s
  | .imax u v => Sys2Proof.Machine.execImax u v s
  | .nrwBf16 u v => Sys2Proof.Machine.execNrwBf16 u v s
  | .nrwFp16 u v => Sys2Proof.Machine.execNrwFp16 u v s
  | .nrwE4m3 u v => Sys2Proof.Machine.execNrwE4m3 u v s
  | .nrwE5m2 u v => Sys2Proof.Machine.execNrwE5m2 u v s
  | .nrwInt8 u v => Sys2Proof.Machine.execNrwInt8 u v s
  | .nrwInt32 u v => Sys2Proof.Machine.execNrwInt32 u v s
  | .cvtI2f u v => Sys2Proof.Machine.execCvtI2f u v s
  | .mxeE4m3 u v => Sys2Proof.Machine.execMxeE4m3 u v s
  | .mxeE5m2 u v => Sys2Proof.Machine.execMxeE5m2 u v s
  | .mxeE3m2 u v => Sys2Proof.Machine.execMxeE3m2 u v s
  | .mxeE2m3 u v => Sys2Proof.Machine.execMxeE2m3 u v s
  | .mxeE2m1 u v => Sys2Proof.Machine.execMxeE2m1 u v s
  | .gse u v => Sys2Proof.Machine.execGse u v s
  | .widBf16 u v => Sys2Proof.Machine.execWidBf16 u v s
  | .widFp16 u v => Sys2Proof.Machine.execWidFp16 u v s
  | .widE4m3 u v => Sys2Proof.Machine.execWidE4m3 u v s
  | .widE5m2 u v => Sys2Proof.Machine.execWidE5m2 u v s
  | .widInt8 u v => Sys2Proof.Machine.execWidInt8 u v s
  | .widMx u v => Sys2Proof.Machine.execWidMx u v s
  | .rand u v => Sys2Proof.Machine.execRand u v s
  -- the move slot (Table 3-6)
  | .vld u vd line => Sys2Proof.Machine.execVld u vd line s
  | .vst u vs addr size => Sys2Proof.Machine.execVst u vs addr size s
  | .gather u vd bank base lenM1 vi => Sys2Proof.Machine.execGather u vd bank base lenM1 vi s
  | .msend u src route => Sys2Proof.Machine.execMsend u src route s
  | .bset u stream start stride => Sys2Proof.Machine.execBset u stream start stride s
  | .bld u stream line => Sys2Proof.Machine.execBld u stream line s
  | .hrd u slot line => Sys2Proof.Machine.execHrd u slot line s
  | .hwr u slot line => Sys2Proof.Machine.execHwr u slot line s
  | .setdc u dc fmt rnd ieee sigma tg srs => Sys2Proof.Machine.execSetdc u dc fmt rnd ieee sigma tg srs s
  | .stream u srs purpose sub => Sys2Proof.Machine.execStream u srs purpose sub s
  | .draw u srs index => Sys2Proof.Machine.execDraw u srs index s
  | .lmask u mask addr => Sys2Proof.Machine.execLmask u mask addr s
  -- the control slot (Table 3-7)
  | .loop u bodyM1 count => Sys2Proof.Machine.execLoop u bodyM1 count s
  | .setc u cr valueM1 => Sys2Proof.Machine.execSetc u cr valueM1 s
  | .pset u p level cmp imm => Sys2Proof.Machine.execPset u p level cmp imm s
  | .waits u => Sys2Proof.Machine.execWaits u s
  | .phase u code => Sys2Proof.Machine.execPhase u code s
  | .delay u cyclesM1 => Sys2Proof.Machine.execDelay u cyclesM1 s
  -- arrivals at cores, routers and the bolt
  | .hrdReturn core => Sys2Proof.Machine.execHrdReturn core s
  | .flitArrival router flits => Sys2Proof.Machine.execFlitArrival router flits s
  | .boltWriteBack panel slab => Sys2Proof.Machine.execBoltWriteBack panel slab s
  -- rings and descriptors (14_host_interface)
  | .doorbellPoll => Sys2Proof.Machine.execDoorbellPoll s
  | .descriptorNop n => Sys2Proof.Machine.execDescriptorNop n s
  | .loadPattern n => Sys2Proof.Machine.execLoadPattern n s
  | .patternLoaded n portOk => Sys2Proof.Machine.execPatternLoaded n portOk s
  | .arm n => Sys2Proof.Machine.execArm n s
  | .voteMark n => Sys2Proof.Machine.execVoteMark n s
  | .disarm n => Sys2Proof.Machine.execDisarm n s
  | .unload n => Sys2Proof.Machine.execUnload n s
  | .disarmEffect => Sys2Proof.Machine.execDisarmEffect s
  | .copyIn n => Sys2Proof.Machine.execCopyIn n s
  | .copyOut n => Sys2Proof.Machine.execCopyOut n s
  | .copyDone id portOk => Sys2Proof.Machine.execCopyDone id portOk s
  | .loadBundle n portOk => Sys2Proof.Machine.execLoadBundle n portOk s
  | .bundleDone id portOk => Sys2Proof.Machine.execBundleDone id portOk s
  | .ckptShard n => Sys2Proof.Machine.execCkptShard n s
  | .captureEnd id => Sys2Proof.Machine.execCaptureEnd id s
  | .shardDrained id portOk => Sys2Proof.Machine.execShardDrained id portOk s
  | .restoreShard n => Sys2Proof.Machine.execRestoreShard n s
  | .restoreDone id portOk => Sys2Proof.Machine.execRestoreDone id portOk s
  | .fence n => Sys2Proof.Machine.execFence n s
  | .begin n => Sys2Proof.Machine.execBegin n s
  | .beginApply n => Sys2Proof.Machine.execBeginApply n s
  | .rebuild n => Sys2Proof.Machine.execRebuild n s
  | .seqAdmit n => Sys2Proof.Machine.execSeqAdmit n s
  | .seqRelease n => Sys2Proof.Machine.execSeqRelease n s
  -- the training step (07_training_step)
  | .voteForm n => Sys2Proof.Machine.execVoteForm n s
  | .vote port m => Sys2Proof.Machine.execVote port m s
  | .verdictDecision tag => Sys2Proof.Machine.execVerdictDecision tag s
  | .verdict port m => Sys2Proof.Machine.execVerdict port m s
  | .verdictMissing n => Sys2Proof.Machine.execVerdictMissing n s
  | .commitStitch n => Sys2Proof.Machine.execCommitStitch n s
  | .inboxRecord q => Sys2Proof.Machine.execInboxRecord q s
  | .mirrorRecord q => Sys2Proof.Machine.execMirrorRecord q s
  | .normRecord q => Sys2Proof.Machine.execNormRecord q s
  | .normPartial q => Sys2Proof.Machine.execNormPartial q s
  | .refillBlock q => Sys2Proof.Machine.execRefillBlock q s
  | .refillState q => Sys2Proof.Machine.execRefillState q s
  | .prsTblLoad value => Sys2Proof.Machine.execPrsTblLoad value s
  | .presserImageChecked portOk => Sys2Proof.Machine.execPresserImageChecked portOk s
  | .prsBind q value => Sys2Proof.Machine.execPrsBind q value s
  | .prsReserveWrite q value => Sys2Proof.Machine.execPrsReserveWrite q value s
  | .prsMirrorWrite value => Sys2Proof.Machine.execPrsMirrorWrite value s
  | .presserLedgerRebuild => Sys2Proof.Machine.execPresserLedgerRebuild s
  | .prsStepWrite n count value => Sys2Proof.Machine.execPrsStepWrite n count value s
  -- seams (08_seams)
  | .frameSend port => Sys2Proof.Machine.execFrameSend port s
  | .frameReceive port f => Sys2Proof.Machine.execFrameReceive port f s
  | .packetTake hem n => Sys2Proof.Machine.execPacketTake hem n s
  | .packetReceive port n vc => Sys2Proof.Machine.execPacketReceive port n vc s
  | .deadlineExpiry port n vc => Sys2Proof.Machine.execDeadlineExpiry port n vc s
  | .portLost port loss lanes => Sys2Proof.Machine.execPortLost port loss lanes s
  | .portFailed port => Sys2Proof.Machine.execPortFailed port s
  | .trainingDone port o => Sys2Proof.Machine.execTrainingDone port o s
  | .fullEqRetry port => Sys2Proof.Machine.execFullEqRetry port s
  | .serWindow port symbolErrors symbols => Sys2Proof.Machine.execSerWindow port symbolErrors symbols s
  | .portLedgerRebuild => Sys2Proof.Machine.execPortLedgerRebuild s
  | .retune port value => Sys2Proof.Machine.execRetune port value s
  | .fullEq port value => Sys2Proof.Machine.execFullEq port value s
  | .loopbackSelect port value => Sys2Proof.Machine.execLoopbackSelect port value s
  | .portEn port value => Sys2Proof.Machine.execPortEn port value s
  | .seaRtDataAccess write => Sys2Proof.Machine.execSeaRtDataAccess write s
  -- collectives (09_collectives)
  | .abort port m => Sys2Proof.Machine.execAbort port m s
  | .abortSend value => Sys2Proof.Machine.execAbortSend value s
  | .abortKeyExpiry => Sys2Proof.Machine.execAbortKeyExpiry s
  | .abortedEnd n => Sys2Proof.Machine.execAbortedEnd n s
  | .colCreditWrite n value => Sys2Proof.Machine.execColCreditWrite n value s
  | .colSeqWrite n v value => Sys2Proof.Machine.execColSeqWrite n v value s
  | .peakClr n value => Sys2Proof.Machine.execPeakClr n value s
  -- serving (10_serving)
  | .resultRead => Sys2Proof.Machine.execResultRead s
  | .servingApply => Sys2Proof.Machine.execServingApply s
  | .listWrite => Sys2Proof.Machine.execListWrite s
  | .listBuild => Sys2Proof.Machine.execListBuild s
  | .seqTimeout slot => Sys2Proof.Machine.execSeqTimeout slot s
  | .seqCancel n tag => Sys2Proof.Machine.execSeqCancel n tag s
  | .slotFree slot => Sys2Proof.Machine.execSlotFree slot s
  | .swapOutDone slot => Sys2Proof.Machine.execSwapOutDone slot s
  | .swapInDone slot => Sys2Proof.Machine.execSwapInDone slot s
  | .admissionBacklog n => Sys2Proof.Machine.execAdmissionBacklog n s
  | .srvEnable n value => Sys2Proof.Machine.execSrvEnable n value s
  | .srvDisable n value => Sys2Proof.Machine.execSrvDisable n value s
  | .srvRtWrite n reserve value => Sys2Proof.Machine.execSrvRtWrite n reserve value s
  -- the bolt (05_bolt)
  | .bltDefine value => Sys2Proof.Machine.execBltDefine value s
  | .bltRelease value => Sys2Proof.Machine.execBltRelease value s
  | .regionLoaded region => Sys2Proof.Machine.execRegionLoaded region s
  | .regionWrittenBack region => Sys2Proof.Machine.execRegionWrittenBack region s
  | .boltScrubLap panel length found => Sys2Proof.Machine.execBoltScrubLap panel length found s
  | .scrubStarvation panel => Sys2Proof.Machine.execScrubStarvation panel s
  -- the HBM tier (06_hbm_tier)
  | .hbtDefine value => Sys2Proof.Machine.execHbtDefine value s
  | .hbtRelease value => Sys2Proof.Machine.execHbtRelease value s
  | .zeroingDone n index => Sys2Proof.Machine.execZeroingDone n index s
  | .hbmQueueArrival pc ecc => Sys2Proof.Machine.execHbmQueueArrival pc ecc s
  | .wcDrain stack => Sys2Proof.Machine.execWcDrain stack s
  | .refreshWindow => Sys2Proof.Machine.execRefreshWindow s
  | .calibrationWindow => Sys2Proof.Machine.execCalibrationWindow s
  | .hbmScrubLap stack length found => Sys2Proof.Machine.execHbmScrubLap stack length found s
  | .scrubFloorWrite value => Sys2Proof.Machine.execScrubFloorWrite value s
  | .hbmTempRead stack o => Sys2Proof.Machine.execHbmTempRead stack o s
  | .hbmTempMaxClr stack value => Sys2Proof.Machine.execHbmTempMaxClr stack value s
  | .bar2Access offset k => Sys2Proof.Machine.execBar2Access offset k s
  | .bar2Timeout => Sys2Proof.Machine.execBar2Timeout s
  | .bar0AccessError offset size write => Sys2Proof.Machine.execBar0AccessError offset size write s
  -- lining, certificates (11_alterations)
  | .pairing value => Sys2Proof.Machine.execPairing value s
  | .liningDisable value => Sys2Proof.Machine.execLiningDisable value s
  | .pairingResult o => Sys2Proof.Machine.execPairingResult o s
  | .isolate => Sys2Proof.Machine.execIsolate s
  | .release => Sys2Proof.Machine.execRelease s
  | .leave => Sys2Proof.Machine.execLeave s
  -- contexts, rings and queues (14_host_interface)
  | .create n value => Sys2Proof.Machine.execCreate n value s
  | .teardown n value => Sys2Proof.Machine.execTeardown n value s
  | .teardownBoundary n => Sys2Proof.Machine.execTeardownBoundary n s
  | .teardownDone n => Sys2Proof.Machine.execTeardownDone n s
  | .ctxSwitch value => Sys2Proof.Machine.execCtxSwitch value s
  | .switchBegin => Sys2Proof.Machine.execSwitchBegin s
  | .switchDone => Sys2Proof.Machine.execSwitchDone s
  | .ctxSeedWrite n rank value => Sys2Proof.Machine.execCtxSeedWrite n rank value s
  | .ctxShareWrite n hi value => Sys2Proof.Machine.execCtxShareWrite n hi value s
  | .ringEnable n value => Sys2Proof.Machine.execRingEnable n value s
  | .ringDisable n value => Sys2Proof.Machine.execRingDisable n value s
  | .evqEnable n value => Sys2Proof.Machine.execEvqEnable n value s
  -- faults, hangs, resets, power (13, 16, 17)
  | .heartbeatSample beats => Sys2Proof.Machine.execHeartbeatSample beats s
  | .resetHoldEnd => Sys2Proof.Machine.execResetHoldEnd s
  | .deviceReset value => Sys2Proof.Machine.execDeviceReset value s
  | .deviceResetDone o => Sys2Proof.Machine.execDeviceResetDone o s
  | .unitReset value => Sys2Proof.Machine.execUnitReset value s
  | .unitResetDone ok => Sys2Proof.Machine.execUnitResetDone ok s
  | .fltViolClr n value => Sys2Proof.Machine.execFltViolClr n value s
  | .powerDown g value => Sys2Proof.Machine.execPowerDown g value s
  | .bandDomainOff g => Sys2Proof.Machine.execBandDomainOff g s
  | .powerUp g value => Sys2Proof.Machine.execPowerUp g value s
  | .bandOn g => Sys2Proof.Machine.execBandOn g s
  | .dropsClr g value => Sys2Proof.Machine.execDropsClr g value s
  | .powerOn => Sys2Proof.Machine.execPowerOn s
  | .powerOnDone o => Sys2Proof.Machine.execPowerOnDone o s
  | .inputLoss mv => Sys2Proof.Machine.execInputLoss mv s
  | .inputReturn => Sys2Proof.Machine.execInputReturn s
  | .perst p asserted => Sys2Proof.Machine.execPerst p asserted s
  | .hotReset k => Sys2Proof.Machine.execHotReset k s
  | .portSReset => Sys2Proof.Machine.execPortSReset s
  | .pcieLoopback p => Sys2Proof.Machine.execPcieLoopback p s
  | .panelThermal sensor => Sys2Proof.Machine.execPanelThermal sensor s
  | .supply rail mv => Sys2Proof.Machine.execSupply rail mv s
  | .clockLost domain => Sys2Proof.Machine.execClockLost domain s
  -- Thimble (15_thimble)
  | .panelSensorRead readings => Sys2Proof.Machine.execPanelSensorRead readings s
  | .thimbleRestart => Sys2Proof.Machine.execThimbleRestart s
  | .pldmHeartbeat => Sys2Proof.Machine.execPldmHeartbeat s
  | .storeCommitDone => Sys2Proof.Machine.execStoreCommitDone s
  | .trialTimeout => Sys2Proof.Machine.execTrialTimeout s
  | .logRead value => Sys2Proof.Machine.execLogRead value s
  | .clearCritical value => Sys2Proof.Machine.execClearCritical value s
  | .sensorSnapshot value => Sys2Proof.Machine.execSensorSnapshot value s
  | .pubkeyAdd value => Sys2Proof.Machine.execPubkeyAdd value s
  | .pubkeyRemove value => Sys2Proof.Machine.execPubkeyRemove value s
  | .keyRemovalDone slot => Sys2Proof.Machine.execKeyRemovalDone slot s
  | .pubkeyList value => Sys2Proof.Machine.execPubkeyList value s
  | .fuseAdd value => Sys2Proof.Machine.execFuseAdd value s
  | .fuseRead value => Sys2Proof.Machine.execFuseRead value s
  | .fuseClear value => Sys2Proof.Machine.execFuseClear value s
  | .identity value => Sys2Proof.Machine.execIdentity value s
  | .sensorMaxClr value => Sys2Proof.Machine.execSensorMaxClr value s
  | .oemDeviceReset t => Sys2Proof.Machine.execOemDeviceReset t s
  | .certSubmit src => Sys2Proof.Machine.execCertSubmit src s
  | .oemLogRead t seq => Sys2Proof.Machine.execOemLogRead t seq s
  | .oemPubkey t op => Sys2Proof.Machine.execOemPubkey t op s
  | .quorumWrite t writes => Sys2Proof.Machine.execQuorumWrite t writes s
  | .oemFuse t op => Sys2Proof.Machine.execOemFuse t op s
  | .domainState t => Sys2Proof.Machine.execDomainState t s
  | .mctpControl t command eid => Sys2Proof.Machine.execMctpControl t command eid s
  | .getTid t => Sys2Proof.Machine.execGetTid t s
  | .getPldmVersion t pldmType => Sys2Proof.Machine.execGetPldmVersion t pldmType s
  | .getPldmTypes t => Sys2Proof.Machine.execGetPldmTypes t s
  | .getPldmCommands t pldmType => Sys2Proof.Machine.execGetPldmCommands t pldmType s
  | .sensorReading t sensorId => Sys2Proof.Machine.execSensorReading t sensorId s
  | .pdrRepository t => Sys2Proof.Machine.execPdrRepository t s
  | .setEventReceiver t receiver enable => Sys2Proof.Machine.execSetEventReceiver t receiver enable s
  | .fruRecord t => Sys2Proof.Machine.execFruRecord t s
  | .requestUpdate t => Sys2Proof.Machine.execRequestUpdate t s
  | .transferComplete image => Sys2Proof.Machine.execTransferComplete image s
  | .verifyComplete => Sys2Proof.Machine.execVerifyComplete s
  | .activateFirmware t => Sys2Proof.Machine.execActivateFirmware t s
  | .queryDeviceIdentifiers t => Sys2Proof.Machine.execQueryDeviceIdentifiers t s
  | .getFirmwareParameters t => Sys2Proof.Machine.execGetFirmwareParameters t s
  | .getVersion t => Sys2Proof.Machine.execGetVersion t s
  | .getCapabilities t => Sys2Proof.Machine.execGetCapabilities t s
  | .negotiateAlgorithms t => Sys2Proof.Machine.execNegotiateAlgorithms t s
  | .getDigests t => Sys2Proof.Machine.execGetDigests t s
  | .getCertificate t slot offset length => Sys2Proof.Machine.execGetCertificate t slot offset length s
  | .challenge t slot nonce => Sys2Proof.Machine.execChallenge t slot nonce s
  | .getMeasurements t index nonce => Sys2Proof.Machine.execGetMeasurements t index nonce s
  | .keyExchange t => Sys2Proof.Machine.execKeyExchange t s
  | .pskExchange t => Sys2Proof.Machine.execPskExchange t s
  -- the test access port and the test block (16_bringup_and_test)
  | .idcode => Sys2Proof.Machine.execIdcode s
  | .samplePreload preload balls => Sys2Proof.Machine.execSamplePreload preload balls s
  | .extest => Sys2Proof.Machine.execExtest s
  | .highz => Sys2Proof.Machine.execHighz s
  | .clamp => Sys2Proof.Machine.execClamp s
  | .extestPulse => Sys2Proof.Machine.execExtestPulse s
  | .extestTrain => Sys2Proof.Machine.execExtestTrain s
  | .hbmWrapper select => Sys2Proof.Machine.execHbmWrapper select s
  | .privateInstruction code => Sys2Proof.Machine.execPrivateInstruction code s
  | .bypass code => Sys2Proof.Machine.execBypass code s
  | .tstStart value => Sys2Proof.Machine.execTstStart value s
  | .tstStop value => Sys2Proof.Machine.execTstStop value s
  | .testDone o elapsedUs => Sys2Proof.Machine.execTestDone o elapsedUs s
  -- BAR0 (00_scope, 14_host_interface)
  | .registerWrite offset wide value => Sys2Proof.Machine.execRegisterWrite offset wide value s
  | .thimbleRestartDone => Sys2Proof.Machine.execThimbleRestartDone s
  | .clockReturn domain => Sys2Proof.Machine.execClockReturn domain s
  | .farLoopbackRequest port depth => Sys2Proof.Machine.execFarLoopbackRequest port depth s
  | .rebuildDone n => Sys2Proof.Machine.execRebuildDone n s
  | .registerRead offset wide => Sys2Proof.Machine.execRegisterRead offset wide s
  | .pcieLoopbackExit p => Sys2Proof.Machine.execPcieLoopbackExit p s

end Sys2Proof.Machine
end

