-- ==== Sys2Proof/Machine/Tick.lean ====
section
/-! DEFINITION. What the passing of one nanosecond of the time base does when no command waits. -/

namespace Sys2Proof.Machine

/-- One tick of the 1 ns time base (R14, R21): the cycle counter advances while the stitch lasts; the boundary itself is a
command (DESIGN CHOICE, unsafe, assumption log 5). -/
def tick (s : State) : State :=
  if s.stu.pos + 1 < s.stu.length then
    (s.onStu fun u => { u with cycle := u.cycle + 1, pos := u.pos + 1 }).setNs (s.ns + 1)
  else s

end Sys2Proof.Machine
end

