-- ==== Sys2Proof/Laws/Memory.lean ====
section
/-! SUPPORT. Memories: the canonical form is kept by every operation, a read after a write gives what was written, and a write
leaves every other byte alone. -/

namespace Sys2Proof.Machine

theorem Mem.rising_mono {b c : Nat} (h : b ≤ c) (m : Mem) (hm : Mem.rising c m = true) : Mem.rising b m = true := by
  cases m with
  | nil => rfl
  | cons x m =>
    obtain ⟨k, v⟩ := x
    simp only [Mem.rising, Bool.and_eq_true, decide_eq_true_eq] at hm ⊢
    exact ⟨⟨Nat.le_trans h hm.1.1, hm.1.2⟩, hm.2⟩

theorem Mem.put_rising {b a : Nat} (m : Mem) (v : Byte) (hm : Mem.rising b m = true) (ha : b ≤ a) :
    Mem.rising b (Mem.put m a v) = true := by
  induction m generalizing b with
  | nil =>
    simp only [Mem.put]
    split
    · rfl
    · rename_i hv
      simp only [Mem.rising, Bool.and_eq_true, decide_eq_true_eq]
      exact ⟨⟨ha, hv⟩, trivial⟩
  | cons x m ih =>
    obtain ⟨k, w⟩ := x
    simp only [Mem.rising, Bool.and_eq_true, decide_eq_true_eq] at hm
    obtain ⟨⟨hk, hw⟩, hr⟩ := hm
    simp only [Mem.put]
    split
    · rename_i hlt
      split
      · simp only [Mem.rising, Bool.and_eq_true, decide_eq_true_eq]
        exact ⟨⟨hk, hw⟩, hr⟩
      · rename_i hv
        simp only [Mem.rising, Bool.and_eq_true, decide_eq_true_eq]
        exact ⟨⟨ha, hv⟩, ⟨by omega, hw⟩, hr⟩
    · rename_i hge
      split
      · rename_i heq
        split
        · exact Mem.rising_mono (by omega) m hr
        · rename_i hv
          subst heq
          simp only [Mem.rising, Bool.and_eq_true, decide_eq_true_eq]
          exact ⟨⟨ha, hv⟩, hr⟩
      · rename_i hne
        simp only [Mem.rising, Bool.and_eq_true, decide_eq_true_eq]
        exact ⟨⟨hk, hw⟩, ih hr (by omega)⟩

/-- A write of one byte keeps the canonical form. -/
theorem Mem.put_wf (m : Mem) (a : Nat) (v : Byte) (h : Mem.wf m = true) : Mem.wf (Mem.put m a v) = true :=
  Mem.put_rising m v h (Nat.zero_le a)

/-- A write of several bytes keeps the canonical form. -/
theorem Mem.write_wf (m : Mem) (a : Nat) (bs : List Byte) (h : Mem.wf m = true) : Mem.wf (Mem.write m a bs) = true := by
  induction bs generalizing m a with
  | nil => exact h
  | cons b bs ih => exact ih _ _ (Mem.put_wf m a b h)

theorem Mem.filter_rising {b : Nat} (p : Host.Cell → Bool) (m : Mem) (hm : Mem.rising b m = true) :
    Mem.rising b (m.filter p) = true := by
  induction m generalizing b with
  | nil => rfl
  | cons x m ih =>
    obtain ⟨k, v⟩ := x
    simp only [Mem.rising, Bool.and_eq_true, decide_eq_true_eq] at hm
    simp only [List.filter_cons]
    split
    · simp only [Mem.rising, Bool.and_eq_true, decide_eq_true_eq]
      exact ⟨hm.1, ih hm.2⟩
    · exact Mem.rising_mono (by omega) _ (ih hm.2)

/-- Clearing a stretch keeps the canonical form. -/
theorem Mem.clearRange_wf (m : Mem) (first last : Nat) (h : Mem.wf m = true) : Mem.wf (Mem.clearRange m first last) = true :=
  Mem.filter_rising _ m h

theorem Mem.wf_nil : Mem.wf [] = true := rfl

theorem Mem.byte_of_rising {b a : Nat} (m : Mem) (hm : Mem.rising b m = true) (h : a < b) : Mem.byte m a = 0 := by
  induction m generalizing b with
  | nil => rfl
  | cons x m ih =>
    obtain ⟨k, v⟩ := x
    simp only [Mem.rising, Bool.and_eq_true, decide_eq_true_eq] at hm
    have hk : k ≠ a := by omega
    simp [Mem.byte, hk, ih hm.2 (by omega)]

theorem Mem.byte_put_rising {b : Nat} (m : Mem) (a c : Nat) (v : Byte) (hm : Mem.rising b m = true) :
    Mem.byte (Mem.put m a v) c = if c = a then v else Mem.byte m c := by
  induction m generalizing b with
  | nil =>
    simp only [Mem.put]
    split
    · rename_i hv
      simp [Mem.byte, hv]
    · by_cases h : a = c <;> simp [Mem.byte, h, eq_comm]
  | cons x m ih =>
    obtain ⟨k, w⟩ := x
    simp only [Mem.rising, Bool.and_eq_true, decide_eq_true_eq] at hm
    obtain ⟨⟨_, _⟩, hr⟩ := hm
    simp only [Mem.put]
    split
    · rename_i hlt
      split
      · rename_i hv
        by_cases h : c = a
        · subst h
          have : k ≠ c := by omega
          rw [if_pos rfl, hv]
          simpa [Mem.byte, this] using Mem.byte_of_rising m hr (a := c) (by omega)
        · simp [h]
      · by_cases h : c = a
        · simp [Mem.byte, h]
        · have : a ≠ c := fun e => h e.symm
          simp [Mem.byte, h, this]
    · rename_i hge
      split
      · rename_i heq
        subst heq
        split
        · rename_i hv
          by_cases h : c = a
          · subst h
            rw [if_pos rfl, hv]
            exact Mem.byte_of_rising m hr (Nat.lt_succ_self c)
          · have : a ≠ c := fun e => h e.symm
            simp [Mem.byte, h, this]
        · by_cases h : c = a
          · simp [Mem.byte, h]
          · have : a ≠ c := fun e => h e.symm
            simp [Mem.byte, h, this]
      · rename_i hne
        by_cases h : c = k
        · subst h
          have : c ≠ a := fun e => hne e.symm
          simp [Mem.byte, this]
        · have : k ≠ c := fun e => h e.symm
          simp [Mem.byte, this, ih hr]

/-- A read after a write of one byte: the byte written at its address, what was there before elsewhere. -/
theorem Mem.byte_put (m : Mem) (a c : Nat) (v : Byte) (hm : Mem.wf m = true) :
    Mem.byte (Mem.put m a v) c = if c = a then v else Mem.byte m c :=
  Mem.byte_put_rising m a c v hm

/-- A read after a write of several bytes. -/
theorem Mem.byte_write (m : Mem) (a c : Nat) (bs : List Byte) (hm : Mem.wf m = true) :
    Mem.byte (Mem.write m a bs) c = if a ≤ c ∧ c < a + bs.length then bs.getD (c - a) 0 else Mem.byte m c := by
  induction bs generalizing m a with
  | nil =>
    have : ¬ (a ≤ c ∧ c < a + ([] : List Byte).length) := by simp only [List.length_nil]; omega
    rw [if_neg this, Mem.write]
  | cons b bs ih =>
    rw [Mem.write, ih _ _ (Mem.put_wf m a b hm), Mem.byte_put m a c b hm]
    by_cases h : c = a
    · subst h
      have h1 : ¬ (c + 1 ≤ c ∧ c < c + 1 + bs.length) := by omega
      have h2 : c ≤ c ∧ c < c + (b :: bs).length := by simp only [List.length_cons]; omega
      rw [if_neg h1, if_pos h2, if_pos rfl, Nat.sub_self, List.getD_cons_zero]
    · by_cases h2 : a + 1 ≤ c ∧ c < a + 1 + bs.length
      · have h3 : a ≤ c ∧ c < a + (b :: bs).length := by simp only [List.length_cons]; omega
        have h4 : c - a = (c - (a + 1)) + 1 := by omega
        rw [if_pos h2, if_pos h3, h4, List.getD_cons_succ]
      · have h3 : ¬ (a ≤ c ∧ c < a + (b :: bs).length) := by simp only [List.length_cons]; omega
        rw [if_neg h2, if_neg h3, if_neg h]

theorem Mem.byte_clearRange (m : Mem) (first last a : Nat) :
    Mem.byte (Mem.clearRange m first last) a = if first ≤ a ∧ a < last then 0 else Mem.byte m a := by
  induction m with
  | nil => simp [Mem.clearRange, Mem.byte]
  | cons x m ih =>
    obtain ⟨k, v⟩ := x
    simp only [Mem.clearRange, List.filter_cons] at ih ⊢
    split
    · rename_i hk
      simp only [Bool.or_eq_true, decide_eq_true_eq] at hk
      by_cases h : k = a
      · subst h
        have : ¬ (first ≤ k ∧ k < last) := by omega
        simp [Mem.byte, this]
      · simp [Mem.byte, h, ih]
    · rename_i hk
      simp only [Bool.or_eq_true, decide_eq_true_eq, not_or, Nat.not_lt, Nat.not_le] at hk
      rw [ih]
      by_cases h : k = a
      · subst h
        rw [if_pos ⟨hk.1, hk.2⟩, if_pos ⟨hk.1, hk.2⟩]
      · simp [Mem.byte, h]

end Sys2Proof.Machine
end

