-- ==== Sys2Proof/Safety.lean ====
section
/-! DEFINITION. What a safe run of the block is, in the terms the claims use: no step stops, and the memories stay canonical. -/

namespace Sys2Proof.Machine

/-- The step answers a next state: the command had its effect, nothing stopped. -/
def Answers (o : Out) : Prop := ∃ t, o = .next t

/-- Every memory of the block is in its canonical form: the host memory that ports H and S reach, the bolt, the HBM tier, the
scratch of every core and the inbox ring of every presser. -/
def memWf (s : State) : Prop :=
  Mem.wf s.hostMem = true ∧ Mem.wf s.portS = true ∧ Mem.wf s.bolt.mem = true ∧ Mem.wf s.hbm.mem = true ∧
    (∀ x ∈ s.cores.cores, Mem.wf x.2.scratch = true) ∧ ∀ p ∈ s.prs.pressers.toList, Mem.wf p.ring = true

/-- What no command does: it does not touch the queue of commands nor the straps and the fused grade, it takes back nothing that
went out, and it leaves canonical memories canonical. -/
structure Keeps (s t : State) : Prop where
  queue : t.pending = s.pending
  straps : t.straps = s.straps
  out : s.out <:+ t.out
  mem : memWf s → memWf t

/-- The registers of every block take writes (R364, R366): no device reset is in progress, and the device is not in
MANAGEMENT_ONLY. -/
def TakesWrites (s : State) : Prop := s.flt.resetting = false ∧ s.flt.mode ≠ 2

/-- The state with the late writes due at the slot's cycle in the registers of its core (R92). -/
def settled (s : State) (i : Issue) : State := s.onCore (coreNum i.core) (settle i.cycle)

/-- The registers of the core that a slot issues on, as the slot finds them. -/
def coreAt (s : State) (i : Issue) : Core := (settled s i).core (coreNum i.core)

/-- The command of a slot has its effect, the state t: where the word that the core issues at this cycle holds the command (R40,
R108), it completes with t, and where its predicate gates it off, with no effect beyond the late writes that fall due (R106). A
command that the core does not issue at its cycle changes nothing. -/
def SlotAnswers (c : Instr) (s : State) (i : Issue) (t : State) : Prop :=
  (issuesNow s c i = true → gatedOff (s.core (coreNum i.core)) i = false → exec c s = .next t) ∧
  (issuesNow s c i = true → gatedOff (s.core (coreNum i.core)) i = true → exec c s = .next (settled s i)) ∧
  (issuesNow s c i = false → exec c s = .next s)

/-- The command answers the state in which the slot's core alone is changed, and as the function says. -/
def ChangesCore (c : Instr) (s : State) (i : Issue) (f : Core → Core) : Prop :=
  SlotAnswers c s i ((settled s i).onCore (coreNum i.core) f)

/-- A vector command puts off the lanes it computes to its latency, into the lanes of VD that its mask keeps (R99, R100, Table 3-8). -/
def LaneResult (c : Instr) (s : State) (i : Issue) (v : VOp) (latency : Nat) (lane : Nat → W32) : Prop :=
  ChangesCore c s i (later (i.cycle + latency) (.vreg v.vd (maskOf (coreAt s i) v.mask.val) ((List.range 32).map lane)))

/-- A compare puts off the mask it computes, one bit for each lane, to M_(VD mod 8) (Table 3-3). -/
def MaskResult (c : Instr) (s : State) (i : Issue) (v : VOp) (bit : Nat → Bool) : Prop :=
  ∃ m : W32, (∀ j < 32, m.getLsbD j = bit j) ∧ ChangesCore c s i (later (i.cycle + 2) (.mask (Fin.ofNat 8 v.vd.val) m))

/-- The descriptor at the front of a context's ring starts (R378, R379, R381): it waits for nothing, its turn among the rings has
come, and no rule refuses it before its own rules, since the context is ACTIVE and is not the system context. -/
def Starts (s : State) (n : Ctx) (d : Taken) (rest : List Taken) : Prop :=
  (s.ring n.val).taken = d :: rest ∧ headWaits s n.val d.bytes = false ∧ itsTurn s n.val d = true ∧ n ≠ 0 ∧
    (s.ctx n.val).state = .active

/-- The state with a ring's front descriptor taken off. -/
def taken (n : Ctx) (rest : List Taken) (s : State) : State := s.onRing n.val fun r => { r with taken := rest }

/-- A run of k steps that never stops. -/
def SafeRun : Nat → State → Prop
  | 0, _ => True
  | k + 1, s => ∃ t, step s = .next t ∧ SafeRun k t

end Sys2Proof.Machine
end

