-- ==== Sys2Proof/Certificates/Slice0/Obligations.lean ====
section
/-! DEFINITION. The statements about the model, one definition for each, in the order of OBLIGATIONS.json. -/

open Sys2Proof Sys2Proof.Machine

/-- A step takes the command at the front of the queue and runs it on the state with the rest of the queue, first in, first out.
-/
def Obligations.StepRunsTheFrontCommand : Prop :=
  ∀ (c : Instr) (rest : List Instr) (s : State), step (s.setPending (c :: rest)) = exec c (s.setPending rest)

/-- With no command waiting, a step inside a stitch advances the time base by one cycle of the stitch and changes nothing else
(the model's DESIGN CHOICE, assumption log 5). -/
def Obligations.IdleStepTicks : Prop :=
  ∀ s : State, s.pending = [] → s.stu.pos + 1 < s.stu.length →
    step s = .next ((s.onStu fun u => { u with cycle := u.cycle + 1, pos := u.pos + 1 }).setNs (s.ns + 1))

/-- The vector commands that work lane by lane complete when their slot issues, each at its latency, in the lanes that the mask
keeps, nothing else changed, and as a NOP when their predicate gates them off (R106): the FP32 arithmetic, the functions that
Table 3-3 gives an accuracy, the integer commands (wrapping, shifts by vb mod 32, signed extrema) and the compares, whose mask
bit j is what lane j compares as. -/
def Obligations.LaneCommands : Prop :=
  ∀ (s : State) (i : Issue) (v : VOp),
    let a := laneOf (coreAt s i) v.va.val
    let b := laneOf (coreAt s i) v.vb.val
    let d := laneOf (coreAt s i) v.vd.val
    LaneResult (.fadd i v) s i v 4 (fun j => f32Add (a j) (b j)) ∧
    LaneResult (.fsub i v) s i v 4 (fun j => f32Sub (a j) (b j)) ∧
    LaneResult (.fmul i v) s i v 4 (fun j => f32Mul (a j) (b j)) ∧
    LaneResult (.fma i v) s i v 4 (fun j => f32Fma (a j) (b j) (d j)) ∧
    LaneResult (.fmax i v) s i v 2 (fun j => f32Max (a j) (b j)) ∧
    LaneResult (.fmin i v) s i v 2 (fun j => f32Min (a j) (b j)) ∧
    LaneResult (.fabs i v) s i v 2 (fun j => (a j).setWidth 31 |>.setWidth 32) ∧
    LaneResult (.fneg i v) s i v 2 (fun j => (~~~ (a j).extractLsb' 31 1) ++ (a j).extractLsb' 0 31) ∧
    LaneResult (.exp2 i v) s i v 10 (fun j => f32Exp2 (a j)) ∧
    LaneResult (.exp i v) s i v 12 (fun j => f32Exp (a j)) ∧
    LaneResult (.log2 i v) s i v 10 (fun j => f32Log2 (a j)) ∧
    LaneResult (.ln i v) s i v 12 (fun j => f32Ln (a j)) ∧
    LaneResult (.rcp i v) s i v 8 (fun j => f32Rcp (a j)) ∧
    LaneResult (.rsqrt i v) s i v 8 (fun j => f32Rsqrt (a j)) ∧
    LaneResult (.sqrt i v) s i v 12 (fun j => f32Sqrt (a j)) ∧
    LaneResult (.fdiv i v) s i v 14 (fun j => f32Div (a j) (b j)) ∧
    LaneResult (.tanh i v) s i v 14 (fun j => f32Tanh (a j)) ∧
    LaneResult (.sigmoid i v) s i v 14 (fun j => f32Sigmoid (a j)) ∧
    LaneResult (.salpha i v) s i v 14 (fun j => f32Salpha (a j) (b j)) ∧
    LaneResult (.sexp i v) s i v 14 (fun j => f32Sexp (a j) (b j)) ∧
    LaneResult (.slse i v) s i v 14 (fun j => f32Slse (a j) (b j)) ∧
    LaneResult (.cvtI2f i v) s i v 4 (fun j => f32OfInt (a j).toInt) ∧
    LaneResult (.iadd i v) s i v 2 (fun j => BitVec.ofInt 32 ((a j).toInt + (b j).toInt)) ∧
    LaneResult (.isub i v) s i v 2 (fun j => BitVec.ofInt 32 ((a j).toInt - (b j).toInt)) ∧
    LaneResult (.imul i v) s i v 4 (fun j => BitVec.ofInt 32 ((a j).toInt * (b j).toInt)) ∧
    LaneResult (.and i v) s i v 2 (fun j => a j &&& b j) ∧
    LaneResult (.or i v) s i v 2 (fun j => a j ||| b j) ∧
    LaneResult (.xor i v) s i v 2 (fun j => a j ^^^ b j) ∧
    LaneResult (.shl i v) s i v 2 (fun j => BitVec.ofNat 32 ((a j).toNat * 2 ^ ((b j).toNat % 32))) ∧
    LaneResult (.shr i v) s i v 2 (fun j => BitVec.ofNat 32 ((a j).toNat / 2 ^ ((b j).toNat % 32))) ∧
    LaneResult (.sra i v) s i v 2 (fun j => BitVec.ofInt 32 ((a j).toInt / 2 ^ ((b j).toNat % 32))) ∧
    LaneResult (.imin i v) s i v 2 (fun j => BitVec.ofInt 32 (min (a j).toInt (b j).toInt)) ∧
    LaneResult (.imax i v) s i v 2 (fun j => BitVec.ofInt 32 (max (a j).toInt (b j).toInt)) ∧
    MaskResult (.fcmplt i v) s i v (fun j => f32Lt (a j) (b j)) ∧
    MaskResult (.fcmpeq i v) s i v (fun j => f32Eq (a j) (b j)) ∧
    MaskResult (.fcmple i v) s i v (fun j => f32Le (a j) (b j)) ∧
    MaskResult (.icmplt i v) s i v (fun j => decide ((a j).toInt < (b j).toInt)) ∧
    MaskResult (.icmpeq i v) s i v (fun j => decide (a j = b j))

/-- SEL, RSUM, RMAX, BCAST and SFIN: SEL takes va where the mask is set and vb elsewhere, in every lane; RSUM and RMAX combine
the lanes in the tree of R99, pairs (2n, 2n + 1) first, and write the result to every lane the mask keeps; BCAST writes there
the lane of va that VB names; SFIN writes va / vb and +0 where vb is zero, NF of the tally group counting each result written
that is not finite and, with COUNT set, EMPTY_ROW each lane whose vb is zero, whatever the mask (R100). -/
def Obligations.AcrossLanes : Prop :=
  ∀ (s : State) (i : Issue) (v : VOp),
    let a := laneOf (coreAt s i) v.va.val
    let b := laneOf (coreAt s i) v.vb.val
    let m := maskOf (coreAt s i) v.mask.val
    let lanes (p : Nat → Bool) : Nat := ((List.range 32).filter p).length
    let level (f : W32 → W32 → W32) (l : Nat → W32) : Nat → W32 := fun n => f (l (2 * n)) (l (2 * n + 1))
    let tree (f : W32 → W32 → W32) : W32 := level f (level f (level f (level f (level f a)))) 0
    LaneResult (.rsum i v) s i v 8 (fun _ => tree f32Add) ∧
    LaneResult (.rmax i v) s i v 6 (fun _ => tree f32Max) ∧
    LaneResult (.bcast i v) s i v 2 (fun _ => a v.vb.val) ∧
    ChangesCore (.sel i v) s i (later (i.cycle + 2) (.vreg v.vd (BitVec.allOnes 32)
      ((List.range 32).map fun j => if m.getLsbD j then a j else b j))) ∧
    ChangesCore (.sfin i v) s i (fun k =>
      onTally v.tg.val (fun t => { t with
          nf := satInc t.nf (lanes fun j => m.getLsbD j && !isFinite (f32Sfin (a j) (b j)))
          emptyRow := satInc t.emptyRow (if v.srs.val % 2 = 1 then lanes fun j => (b j).setWidth 31 == (0 : BitVec 31) else 0) })
        (later (i.cycle + 16) (.vreg v.vd m ((List.range 32).map fun j => f32Sfin (a j) (b j))) k)) ∧
    ∀ x y : W32, y.setWidth 31 = (0 : BitVec 31) → f32Sfin x y = 0

/-- A late write reaches its register at its cycle and not before (R92), of a core with nothing else waiting: a lane of VD then
reads the new value where the mask has it and what it read before elsewhere, and before the cycle every register reads as
before; LOAD's pair reads new from its cycle on, and the other pair is never touched. -/
def Obligations.LateWriteLandsWhenDue : Prop :=
  ∀ (k : Core) (due cycle : Nat), k.pending = [] →
    (∀ (r : Fin 32) (live : W32) (l : List W32) (j : Nat), j < 32 →
      (cycle < due → (settle cycle (later due (.vreg r live l) k)).vr = k.vr) ∧
      (due ≤ cycle → ∀ q : Fin 32, laneOf (settle cycle (later due (.vreg r live l) k)) q.val j =
        if q = r ∧ live.getLsbD j then l.getD j 0 else laneOf k q.val j)) ∧
    ∀ (p : Fin 2) (a b : BitVec 512),
      (settle cycle (later due (.pair p a b) k)).ar = (if due ≤ cycle then k.ar.set p a else k.ar) ∧
      (settle cycle (later due (.pair p a b) k)).br = if due ≤ cycle then k.br.set p b else k.br

/-- The six narrowing commands: 32 values narrowed under the command's rounding with the draws of its stream register, packed
from byte 0 of VD upward; the tallies of group TG take each value written, that is, each whose bits lie in lanes the mask keeps;
under SR the draw index advances by one. The five MXE commands: one shared scale for the block of 32 values, each element
rounded under it, the elements packed from byte 0 of VD and the scale in byte 0 of lane 16; the tallies take each element
written, and SR advances the draw index. -/
def Obligations.NarrowedValues : Prop :=
  ∀ (s : State) (i : Issue) (v : VOp),
    let k0 := coreAt s i
    let n := runCtx (s.core (coreNum i.core))
    let rv := drawRv (settled s i) n (coreNum i.core) v.srs.val 0
    let a := laneOf k0 v.va.val
    let finish (lat bits : Nat) (out : List Narrowed) (lanes : List W32) (k : Core) : Core :=
      let kept := (out.zipIdx.filter fun x => (List.range bits).all fun b =>
        (maskOf k0 v.mask.val).getLsbD ((bits * x.2 + b) / 32)).map (·.1)
      let k := tallyAll v.tg.val kept (later (i.cycle + lat) (.vreg v.vd (maskOf k0 v.mask.val) lanes) k)
      if v.rnd = .sr then advanceDraw v.srs.val 1 k else k
    let packed (bits : Nat) (out : List Narrowed) : Core → Core := finish 4 bits out (packValues bits out)
    let fp (c : Instr) (t : FFmt) : Prop :=
      ChangesCore c s i (packed t.width ((List.range 32).map fun j => t.narrow v.rnd v.ieee (rv j) (f32 (a j))))
    fp (.nrwBf16 i v) fmtBf16 ∧ fp (.nrwFp16 i v) fmtFp16 ∧ fp (.nrwE4m3 i v) fmtE4m3 ∧ fp (.nrwE5m2 i v) fmtE5m2 ∧
    ChangesCore (.nrwInt8 i v) s i (packed 8 ((List.range 32).map fun j => narrowToInt 8 v.rnd (rv j) (f32 (a j)) (a j))) ∧
    ChangesCore (.nrwInt32 i v) s i (packed 32 ((List.range 32).map fun j => narrowToInt 32 v.rnd (rv j) (f32 (a j)) (a j))) ∧
    let vals := (List.range 32).map fun j => f32 (laneOf k0 v.va.val j)
    let mx (c : Instr) (t : FFmt) : Prop :=
      let x := (mxScale t vals).1
      let out := (List.range 32).map fun j => mxElement t v.rnd x (rv j) (f32 (laneOf k0 v.va.val j))
      ChangesCore c s i (finish 6 t.width out
        ((List.range 32).map fun j => if j = 16 then BitVec.ofNat 32 x else (packValues t.width out).getD j 0))
    mx (.mxeE4m3 i v) fmtE4m3 ∧ mx (.mxeE5m2 i v) fmtE5m2 ∧ mx (.mxeE3m2 i v) fmtE3m2 ∧ mx (.mxeE2m3 i v) fmtE2m3 ∧
      mx (.mxeE2m1 i v) fmtE2m1

/-- The edges of narrowing (R69, R77): a nonzero value that rounds to zero is written as a zero of its sign and counts in FTZ,
and a subnormal result is written as it rounds; an infinity narrows to E4M3 as 0x7F, a block with a non-finite value takes the
scale 0xFF, a non-finite value narrows to INT8 as −128, and each counts in NF. -/
def Obligations.NarrowingEdges : Prop :=
  (∀ (f : FFmt) (mode : Rnd) (ieee neg : Bool) (rv m : Nat) (e : Int) (t : Tally), m ≠ 0 →
    (f.roundMag mode rv m e = 0 →
      (f.narrow mode ieee rv (.fin neg m e)).bits = f.signed neg 0 ∧
      (tallyOne t (f.narrow mode ieee rv (.fin neg m e))).ftz = satInc t.ftz 1) ∧
    (0 < f.roundMag mode rv m e → f.roundMag mode rv m e ≤ f.maxBits →
      (f.narrow mode ieee rv (.fin neg m e)).bits = f.signed neg (f.roundMag mode rv m e) ∧
      (tallyOne t (f.narrow mode ieee rv (.fin neg m e))).ftz = satInc t.ftz 0)) ∧
  ∀ (mode : Rnd) (ieee : Bool) (rv : Nat) (t : Tally),
    (∀ neg : Bool, (fmtE4m3.narrow mode ieee rv (.inf neg)).bits = 0x7F ∧
      (tallyOne t (fmtE4m3.narrow mode ieee rv (.inf neg))).nf = satInc t.nf 1) ∧
    ∀ x : FVal, finiteParts x = none →
      (∀ (f : FFmt) (l : List FVal), x ∈ l → (mxScale f l).1 = 255 ∧
        (∀ y ∈ l, (mxElement f mode 255 rv y).bits = 0) ∧ (tallyOne t (mxElement f mode 255 rv x)).nf = satInc t.nf 1) ∧
      ∀ w : W32, (narrowToInt 8 mode rv x w).bits = 128 ∧ (tallyOne t (narrowToInt 8 mode rv x w)).nf = satInc t.nf 1

/-- The check code of a GS16 block (R54): CRC-16 with polynomial 0x1021, initial value 0xFFFF, most significant bit first and no
final XOR, whose value over the nine characters 1 to 9 is 0x29B1; a block written carries it in bytes 6 and 7, over bytes 0 to 5
and 8 to 135. -/
def Obligations.BlockCheckCode : Prop :=
  let shift (x : BitVec 16) : BitVec 16 := if x.msb then (x <<< 1) ^^^ 0x1021 else x <<< 1
  crc16 [] = 0xFFFF ∧
  (∀ (l : List Byte) (b : Byte), crc16 (l ++ [b]) = Nat.repeat shift 8 (crc16 l ^^^ (b.setWidth 16 <<< 8))) ∧
  crc16 [0x31, 0x32, 0x33, 0x34, 0x35, 0x36, 0x37, 0x38, 0x39] = 0x29B1 ∧
  ∀ (b : GsBlock) (flags epoch count : Nat), b.sigs.length = 64 →
    let bytes := gsBytes b flags epoch count
    bytes.length = 136 ∧ leAt bytes 6 2 = (crc16 (bytes.take 6 ++ bytes.drop 8)).toNat

/-- GSE and RAND write the registers after VD too: GSE the 64 significands to VD, zeros to VD + 1 and the header to VD + 2; RAND
the low halves of 32 draws to VD and their high halves to VD + 1. The six widening commands give lane j the exact FP32 value of
element j of va, 8 or 16 bits (or the element type's width) from byte 0 upward, an MX element scaled by the byte in lane 16
(which element type the modifier bits name beyond E4M3 is free, assumption log 1). The header of a block holds its own FLAGS and
COUNT 1; under a stream of a collective program the FLAGS and COUNT of the blocks combined in the bank drained last (R55). -/
def Obligations.MultiRegisterResults : Prop :=
  ∀ (s : State) (i : Issue) (v : VOp),
    let c := coreNum i.core
    let n := runCtx (s.core c)
    let k0 := coreAt s i
    let elt (bits j : Nat) : Nat := fromLe (bytesOfLanes (vregOf k0 v.va.val)) / 2 ^ (bits * j) % 2 ^ bits
    let put (lat : Nat) (r : Nat) (l : List W32) (k : Core) : Core :=
      later (i.cycle + lat) (.vreg (Fin.ofNat 32 r) (maskOf k0 v.mask.val) l) k
    let vals := (vregOf k0 v.va.val ++ vregOf k0 (v.va.val + 1)).map f32
    let block := gsEncode v.rnd vals fun j => drawRv (settled s i) n c v.srs.val (j / 32) (j % 32)
    let library : Bool := decide (0xFF00 ≤ (vAt k0.srs v.srs.val {}).purpose.toNat)
    let flags := if library then Nat.lor block.flags k0.drained.flagsOut else block.flags
    let bytes := gsBytes block flags (s.train n).current.toNat (if library then k0.drained.count else 1)
    let draws := (List.range 32).map fun j => draw (settled s i) n c v.srs.val 0 j
    ChangesCore (.gse i v) s i (fun k =>
      let k := put 8 (v.vd.val + 2) (lanesOf (bytes.take 8)) (put 8 (v.vd.val + 1) (List.replicate 32 0)
        (put 8 v.vd.val (lanesOf (bytes.drop 8)) k))
      let k := onTally v.tg.val (gsTally (maskOf k0 v.mask.val) block flags vals) k
      if v.rnd = .sr then advanceDraw v.srs.val 2 k else k) ∧
    ChangesCore (.rand i v) s i (fun k =>
      advanceDraw v.srs.val 1 (put 10 (v.vd.val + 1) (draws.map fun w => w.extractLsb' 32 32)
        (put 10 v.vd.val (draws.map fun w => w.extractLsb' 0 32) k))) ∧
    LaneResult (.widBf16 i v) s i v 3 (fun j => widen fmtBf16 (elt 16 j)) ∧
    LaneResult (.widFp16 i v) s i v 3 (fun j => widen fmtFp16 (elt 16 j)) ∧
    LaneResult (.widE4m3 i v) s i v 3 (fun j => widen fmtE4m3 (elt 8 j)) ∧
    LaneResult (.widE5m2 i v) s i v 3 (fun j => widen fmtE5m2 (elt 8 j)) ∧
    LaneResult (.widInt8 i v) s i v 3 (fun j => f32OfInt (BitVec.ofNat 8 (elt 8 j)).toInt) ∧
    LaneResult (.widMx i v) s i v 3 (fun j =>
      widenMx (widType v) ((laneOf k0 v.va.val 16).toNat % 256) (elt (widType v).width j))

/-- LOAD and LDSC complete when their slot issues: operand A from scratch in 16-byte units, operand B from scratch or from a bolt
stream whose pointer passes the lines taken and its stride; both registers are written when the latency has run, 4 cycles with
the bolt and 3 without. Of any read of scratch: past its end a violation, and the bytes there read zero; what the check codes
found in the bytes read, and only there, is counted or kept by its byte address (R91); a byte reads as it stands before the
writes of the same cycle (R90). -/
def Obligations.OperandLoads : Prop :=
  (∀ (s : State) (i : Issue) (x : Fin 2) (a : BitVec 12),
    let c := coreNum i.core
    let n := runCtx (s.core c)
    let s0 := settled s i
    let s64 := readSlot n c (16 * a.toNat) 64 i.ecc s0
    let s16 := readSlot n c (16 * a.toNat) 16 i.ecc s0
    let bytes (w addr count : Nat) : BitVec w := bitsOfBytes w (scratchRead (coreAt s i) i.cycle (16 * addr) count)
    (∀ b : BitVec 12,
      SlotAnswers (.load i x a (.scratch b)) s i ((readSlot n c (16 * b.toNat) 64 i.ecc s64).onCore c
        (later (i.cycle + 3) (.pair x (bytes 512 a.toNat 64) (bytes 512 b.toNat 64)))) ∧
      SlotAnswers (.ldsc i x a (.scratch b)) s i ((readSlot n c (16 * b.toNat) 16 i.ecc s16).onCore c
        (later (i.cycle + 3) (.scales x (bytes 128 a.toNat 16) (bytes 128 b.toNat 16))))) ∧
    ∀ st : Fin 4,
      SlotAnswers (.load i x a (.bolt st)) s i ((takeStream c st.val 2 i.boltEcc s64).onCore c
        (later (i.cycle + 4) (.pair x (bytes 512 a.toNat 64) (bitsOfBytes 512 (streamLines s64 c st.val 2))))) ∧
      SlotAnswers (.ldsc i x a (.bolt st)) s i ((takeStream c st.val 1 i.boltEcc s16).onCore c
        (later (i.cycle + 4) (.scales x (bytes 128 a.toNat 16) (bitsOfBytes 128 ((streamLines s16 c st.val 1).take 16)))))) ∧
  (∀ (s : State) (n c addr count : Nat) (found : List (Nat × Ecc)), readSlot n c addr count found s =
    (if 0xC000 < addr + count then violate n 0x0C s else s).onCore c (scratchEcc found addr count)) ∧
  ∀ (k : Core) (addr count : Nat),
    (scratchEcc [] addr count k = k ∧
      ∀ (a : Nat) (e : Ecc) (l : List (Nat × Ecc)), scratchEcc ((a, e) :: l) addr count k = scratchEcc l addr count
        (if addr ≤ a ∧ a < addr + count then (match e with
          | .ok => k
          | .corrected => { k with ceCount := k.ceCount + 1 }
          | .uncorrectable y _ => { k with ue := k.ue ++ [{ istore := false, addr := a, syndrome := y }] })
        else k)) ∧
    (∀ (cycle j : Nat), j < count → (0xC000 ≤ addr + j → (scratchRead k cycle addr count).getD j 0 = 0) ∧
      (addr + j < 0xC000 → (∀ w ∈ k.recent, w.cycle ≠ cycle) →
        (scratchRead k cycle addr count).getD j 0 = Mem.byte k.scratch (addr + j))) ∧
    ∀ (cycle rank dest : Nat) (bs : List Byte),
      scratchRead (scratchWrite cycle rank dest bs k) cycle addr count = scratchRead k cycle addr count

/-- MAC, ACCIN and CLEAR complete when their slot issues; they change the accumulator cells of one bank and no other cell, no
register and no memory; ACCIN in GS16 form drops a block of another epoch than the context's and counts a violation of kind
0x07. In library code a GS16 block that has come whole is checked, one that fails being a poisoned delivery of the context, and
its FLAGS, COUNT and exponent go to what the bank has combined, which CLEAR forgets (R55, R56). -/
def Obligations.AccumulatorCommands : Prop :=
  ∀ (s : State) (i : Issue) (bank pair set : Fin 2) (row : Fin 16) (f : MacFmt),
    let c := coreNum i.core
    let n := runCtx (s.core c)
    let k0 := coreAt s i
    let cells (g : Nat → Nat → AccCell → AccCell) (k : Core) : Prop :=
      (∀ x y, x < 16 → y < 16 → cellAt k bank.val x y = g x y (cellAt k0 bank.val x y)) ∧
      ∀ j, j / 256 ≠ bank.val → Tab.getD k.cells j {} = Tab.getD k0.cells j {}
    let header := vAt k0.sa set.val 0
    let enters : Core → Core := accinGs16 bank.val pair.val row.val set.val
    (∃ g, ChangesCore (.mac i bank pair set f) s i g ∧ g k0 = { k0 with cells := (g k0).cells } ∧
      cells (fun x y => macCell f (vAt k0.wd bank.val 0).toInt
        (vAt k0.ar pair.val 0) (vAt k0.br pair.val 0) (vAt k0.sa set.val 0) (vAt k0.sb set.val 0) x y) (g k0)) ∧
    (∃ g, ChangesCore (.accin i bank pair row set .fp32) s i g ∧ g k0 = { k0 with cells := (g k0).cells } ∧
      cells (fun x y cell => if x = row.val then
        accumulate (vAt k0.wd bank.val 0).toInt (f32 ((vAt k0.ar pair.val 0).extractLsb' (32 * y) 32)) cell else cell) (g k0)) ∧
    (row.val % 2 = 0 → enters k0 = { k0 with cells := (enters k0).cells } ∧ cells (fun x y cell =>
      let m := ((vAt k0.ar pair.val 0).extractLsb' (16 * (16 * (x - row.val) + y)) 16).toInt
      if x = row.val ∨ x = row.val + 1 then
        accumulate ((scaleByte header 0 : Int) - 127 + (vAt k0.wd bank.val 0).toInt)
          (if scaleByte header 0 = 255 then .nan 0
            else .fin (decide (m < 0)) m.natAbs ((scaleByte header 0 : Int) - 142)) cell
      else cell) (enters k0)) ∧
    (blockEpoch k0 set.val ≠ (s.train n).current →
      SlotAnswers (.accin i bank pair row set .gs16) s i (violate n 0x07 (settled s i))) ∧
    (blockEpoch k0 set.val = (s.train n).current →
      (runsLibrary (settled s i) c = false → ChangesCore (.accin i bank pair row set .gs16) s i enters) ∧
      (runsLibrary (settled s i) c = true →
        ((∀ first, k0.half ≠ some (header, first)) → ChangesCore (.accin i bank pair row set .gs16) s i fun k =>
          enters { k with half := some (header, vAt k0.ar pair.val 0) }) ∧
        ∀ first, k0.half = some (header, first) →
          let whole := leBytes 64 first.toNat ++ leBytes 64 (vAt k0.ar pair.val 0).toNat
          let good : Prop := fld header 63 48 = (crc16 (leBytes 6 (fld header 47 0) ++ whole)).toNat
          SlotAnswers (.accin i bank pair row set .gs16) s i
            ((if good then settled s i else poison n (settled s i)).onCore c fun k =>
              enters { k with half := none, combined := vMod k.combined bank.val fun x => x.take header }))) ∧
    ∃ g, ChangesCore (.clear i bank) s i g ∧
      g k0 = { k0 with cells := (g k0).cells, combined := k0.combined.set bank {} } ∧ cells (fun _ _ _ => {}) (g k0)

/-- The edges of an accumulator cell (R61, R76): a product of 2^(W + 19) or more enters as 2^(W + 19) less one unit of 2^(W −
72), with its sign, and saturates the cell, whose drain writes the largest finite value of the held sign and counts in SAT; a
non-finite operand or a block scale of 0xFF poisons the cell, which takes no further product until it is cleared, drains as the
canonical NaN (INT32: 0x8000_0000) and counts once in NF, in neither SAT nor UNDERRUN. -/
def Obligations.AccumulatorLimits : Prop :=
  (∀ (w : Int) (c : AccCell),
    let b := c.window.getD w
    (∀ (neg : Bool) (m : Nat) (e : Int), c.poison = false → m ≠ 0 → b + 19 ≤ topExp m e →
      accumulate w (.fin neg m e) c = { c with
        window := some b, sat := true, acc := c.acc + BitVec.ofInt 112 ((if neg then -1 else 1) * (2 ^ 91 - 1)) }) ∧
    (∀ v, finiteParts v = none → (accumulate w v c).poison = true) ∧
    ∀ v, c.poison = true → (accumulate w v c).poison = true ∧ (accumulate w v c).acc = c.acc ∧
      (accumulate w v c).sat = c.sat ∧ (accumulate w v c).sticky = c.sticky) ∧
  (∀ (f : MacFmt) (d : Int) (a b : BitVec 512) (sa sb : BitVec 128) (i j k : Nat) (c : AccCell), k < kSteps f →
    (usesScales f = true ∧ (scaleByte sa i = 255 ∨ scaleByte sb j = 255)) ∨
      finiteParts (element f false a (16 * k + i)) = none ∨ finiteParts (element f true b (16 * k + j)) = none →
    (macCell f d a b sa sb i j c).poison = true) ∧
  ({} : AccCell).poison = false ∧
  ∀ (cfg : DrainCfg) (rv : Nat) (c : AccCell) (t : Tally),
    let x := drainCell cfg rv c
    (c.poison = true → x.2 = false ∧ (tallyOne t x.1).nf = satInc t.nf 1 ∧ (tallyOne t x.1).sat = satInc t.sat 0 ∧
      (cfg.fmt = .int32 → x.1.bits = 0x80000000) ∧ ∀ f, drainFp cfg.fmt = some f → x.1.bits = f.nanBits) ∧
    (c.poison = false → c.sat = true → (tallyOne t x.1).sat = satInc t.sat 1 ∧
      ∀ f, drainFp cfg.fmt = some f → x.1.bits = f.signed (decide (c.acc.toInt < 0)) f.maxBits)

/-- DRAIN completes when its slot issues: the 16 cells of the row converted under drain configuration DC_n, packed in column
order to scratch at DST in 16-byte units, little-endian values of 4, 2 or 1 bytes; the tally group takes the 16 values, and its
UNDERRUN counts those under a cell whose sticky bit is set; SR passes one draw index, and CLR clears the row and no other. What
the bank combined is held for the block that a GSE of library code writes from the row (R55). Nothing else of the core changes.
-/
def Obligations.DrainedRow : Prop :=
  ∀ (s : State) (i : Issue) (bank : Fin 2) (row : Fin 16) (dst : BitVec 12) (dc : Fin 4) (clr : Bool),
    let c := coreNum i.core
    let n := runCtx (s.core c)
    let k0 := coreAt s i
    let cfg := vAt k0.dc dc.val {}
    let out := (List.range 16).map fun j =>
      drainCell cfg (drawRv (settled s i) n c cfg.srs.val 0 j) (cellAt k0 bank.val row.val j)
    let bytes := (out.map fun x => leBytes (drainBytes cfg.fmt) x.1.bits).flatten
    let t0 := (out.map (·.1)).foldl tallyOne (vAt k0.tallies cfg.tg.val {})
    ∃ g, SlotAnswers (.drain i bank row dst dc clr) s i
        ((scratchBound n (16 * dst.toNat) bytes.length (settled s i)).onCore c g) ∧
      bytes.length = 16 * drainBytes cfg.fmt ∧
      ((∀ w ∈ k0.recent, w.cycle ≠ i.cycle) →
        (g k0).scratch = Mem.write k0.scratch (16 * dst.toNat) (bytes.take (0xC000 - 16 * dst.toNat))) ∧
      (g k0).scratch = (scratchWrite i.cycle 0 (16 * dst.toNat) bytes k0).scratch ∧
      g k0 = { k0 with
        scratch := (g k0).scratch, recent := (g k0).recent, cells := (g k0).cells, tallies := (g k0).tallies, srs := (g k0).srs
        drained := vAt k0.combined bank.val {} } ∧
      (∀ t : Fin 4, vAt (g k0).tallies t.val {} =
        if t = cfg.tg then { t0 with underrun := satInc t0.underrun (out.filter fun x => x.2).length }
        else vAt k0.tallies t.val {}) ∧
      (∀ t : Fin 4, vAt (g k0).srs t.val {} =
        if cfg.rnd = .sr ∧ t = cfg.srs then { vAt k0.srs t.val {} with index := (vAt k0.srs t.val {}).index + 1 }
        else vAt k0.srs t.val {}) ∧
      ∀ b r j, b < 2 → r < 16 → j < 16 →
        cellAt (g k0) b r j = if clr ∧ b = bank.val ∧ r = row.val then {} else cellAt k0 b r j

/-- SETW, SETDC, STREAM, DRAW and BSET set one register of their core and nothing else; VLD, LMASK and GATHER bring the bytes of
scratch they name to their register when the latency has run: M_0 is not written, and a GATHER whose index is LEN or more writes
zeros and counts a violation of kind 0x0B. VST, BLD and MSEND: VST stores the first 16, 32, 64 or 128 bytes of VS, BLD two lines
of a bolt stream, to scratch, none of it past byte 0xBFFF; MSEND puts one 32-byte flit into the mesh at the local input of the
core's router. Each completes when its slot issues, and every other byte and register keeps its value. -/
def Obligations.CoreRegisterSets : Prop :=
  ∀ (s : State) (i : Issue),
    let c := coreNum i.core
    let n := runCtx (s.core c)
    let k0 := coreAt s i
    let read (addr count : Nat) : State := readSlot n c addr count i.ecc (settled s i)
    let bytes (addr count : Nat) : List Byte := scratchRead k0 i.cycle addr count
    (∀ (bank : Fin 2) (d : BitVec 10), ChangesCore (.setw i bank d) s i fun k => { k with wd := k.wd.set bank d }) ∧
    (∀ (dc : Fin 4) (fmt : DrainFmt) (rnd : Rnd) (ieee : Bool) (sigma : BitVec 8) (tg srs : Fin 4),
      ChangesCore (.setdc i dc fmt rnd ieee sigma tg srs) s i fun k => { k with
        dc := k.dc.set dc { fmt := fmt, rnd := rnd, ieee := ieee, sigma := sigma, tg := tg, srs := srs } }) ∧
    (∀ (r : Fin 4) (purpose : BitVec 16) (sub : BitVec 10), ChangesCore (.stream i r purpose sub) s i fun k => { k with
      srs := k.srs.set r { purpose := purpose, sub := sub, index := (vAt k.srs r.val {}).index } }) ∧
    (∀ (r : Fin 4) (index : BitVec 20), ChangesCore (.draw i r index) s i fun k => { k with
      srs := k.srs.set r { vAt k.srs r.val {} with index := index } }) ∧
    (∀ (st : Fin 4) (start : BitVec 20) (stride : BitVec 8), ChangesCore (.bset i st start stride) s i fun k => { k with
      bst := k.bst.set st { ptr := start, stride := stride } }) ∧
    (∀ vd vi : Fin 32,
      let put (lat : Nat) (l : List W32) : Core → Core := later (i.cycle + lat) (.vreg vd (BitVec.allOnes 32) l)
      (∀ line : BitVec 10, SlotAnswers (.vld i vd line) s i
        ((read (64 * line.toNat) 128).onCore c (put 3 (lanesOf (bytes (64 * line.toNat) 128))))) ∧
      (∀ (m : Fin 8) (a : BitVec 12), SlotAnswers (.lmask i m a) s i (if m = 0 then read (16 * a.toNat) 4
        else (read (16 * a.toNat) 4).onCore c (later (i.cycle + 3) (.mask m (bitsOfBytes 32 (bytes (16 * a.toNat) 4)))))) ∧
      ∀ (bank : Fin 4) (base lenM1 : BitVec 8),
        let x := (laneOf k0 vi.val 0).toNat
        let a := 64 * (4 * (base.toNat + x) + bank.val)
        SlotAnswers (.gather i vd bank base lenM1 vi) s i (if lenM1.toNat + 1 ≤ x
          then (violate n 0x0B (settled s i)).onCore c (put 4 (List.replicate 32 0))
          else (read a 64).onCore c (put 4 (lanesOf (bytes a 64 ++ List.replicate 64 0))))) ∧
    let s0 := settled s i
    let store (addr : Nat) (bs : List Byte) : Core → Core := scratchWrite i.cycle 0 addr bs
    let inject (route : BitVec 8) (bs : List Byte) (s : State) : State := s.onCores fun k => { k with
      flits := k.flits ++ [{ panel := (routerAt (routerOfCore s0 c)).1, row := (routerAt (routerOfCore s0 c)).2.1,
                             col := (routerAt (routerOfCore s0 c)).2.2, input := .local,
                             flit := { route := route, data := bitsOfBytes 256 bs } }] }
    (∀ (vs : Fin 32) (a : BitVec 12) (size : VstSize),
      let m := match size with
        | .b16 => 16
        | .b32 => 32
        | .b64 => 64
        | .b128 => 128
      SlotAnswers (.vst i vs a size) s i ((scratchBound n (16 * a.toNat) m s0).onCore c
        (store (16 * a.toNat) ((bytesOfLanes (vregOf k0 vs.val)).take m)))) ∧
    (∀ (st : Fin 4) (line : BitVec 10),
      SlotAnswers (.bld i st line) s i ((takeStream c st.val 2 i.boltEcc (scratchBound n (64 * line.toNat) 64 s0)).onCore c
        (store (64 * line.toNat) (streamLines s0 c st.val 2)))) ∧
    (∀ (a : BitVec 11) (route : BitVec 8), SlotAnswers (.msend i (.scratch a) route) s i
      (inject route (bytes (32 * a.toNat) 32) (readSlot n c (32 * a.toNat) 32 i.ecc s0))) ∧
    (∀ (vs : Fin 32) (q : Fin 4) (route : BitVec 8), SlotAnswers (.msend i (.vreg vs q) route) s i
      (inject route (((bytesOfLanes (vregOf k0 vs.val)).drop (32 * q.val)).take 32) s0)) ∧
    ∀ (k : Core) (addr a : Nat) (bs : List Byte), (∀ w ∈ k.recent, w.cycle ≠ i.cycle) → Mem.wf k.scratch = true →
      Mem.byte (store addr bs k).scratch a =
        if addr ≤ a ∧ a < addr + bs.length ∧ a < 0xC000 then bs.getD (a - addr) 0 else Mem.byte k.scratch a

/-- HRD and HWR complete when their slot issues: the access of the slot's stream, numbered by how often the slot has issued, goes
to its pseudo-channel's queue, which it reaches 64 cycles later; HRD's data is due 480 cycles after issue, HWR's line is read at
issue. An access that resolves outside the region or off its pseudo-channel is a violation; HRD then delivers zeros and HWR
writes nothing. The issue counts also when the slot is gated off (R106). -/
def Obligations.HbmSlotAccesses : Prop :=
  ∀ (s : State) (i : Issue) (slot : BitVec 14) (line : BitVec 10) (t : SlotStream),
    let c := coreNum i.core
    let n := runCtx (s.core c)
    slotStream s n c slot.toNat = some t →
    let count := Tab.getD (s.core c).slotCount slot.toNat 0
    let j := streamLine (s.core c) i.cycle t count
    let s1 := settled (s.onCore c fun x => { x with slotCount := Tab.put x.slotCount slot.toNat (count + 1) }) i
    let queue (pc l : Nat) (a : AccessKind) (u : State) : State := u.onHbm fun h => { h with inflight := h.inflight ++ [
      { pc := pc, line := l, source := .pattern, arrival := coreTime s c (i.cycle + 64), key := c, kind := a,
        owner := Fin.ofNat 16 n, region := t.region, transfer := none }] }
    let due := coreTime s c (i.cycle + 480)
    let stray := violate n (if t.indirect then 0x0D else 0x01) s1
    (issuesNow s (.hrd i slot line) i = true → gatedOff (s.core c) i = true → exec (.hrd i slot line) s = .next s1) ∧
    (issuesNow s (.hwr i slot line) i = true → gatedOff (s.core c) i = true → exec (.hwr i slot line) s = .next s1) ∧
    (gatedOff (s.core c) i = false →
      (issuesNow s (.hrd i slot line) i = true →
        (∀ pc l, streamTarget s n t j = some (pc, l) → exec (.hrd i slot line) s = .next (queue pc l (.hrd c line.toNat due) s1)) ∧
        (streamTarget s n t j = none → exec (.hrd i slot line) s = .next (queue t.pc 0 (.zeros c line.toNat due) stray))) ∧
      (issuesNow s (.hwr i slot line) i = true →
        (∀ pc l, streamTarget s n t j = some (pc, l) → exec (.hwr i slot line) s = .next (queue pc l
          (.lineWrite (bitsOfBytes 512 (scratchRead (coreAt s i) i.cycle (64 * line.toNat) 64)))
          (readSlot n c (64 * line.toNat) 64 i.ecc s1))) ∧
        (streamTarget s n t j = none → exec (.hwr i slot line) s = .next stray)))

/-- The control slot of a word that issues now (R106 to R108): NOP, SETC and PSET go on to the next word at the next cycle, DELAY
when its cycles have passed; SETC sets its count register and PSET its live predicate; LOOP opens a loop whose body follows;
WAITS ends the image. No predicate governs the control slot, and a word that ends the innermost loop's body goes back to its
first word while iterations are left, else on past it. In the other slots NOP does nothing. -/
def Obligations.ControlSlot : Prop :=
  (∀ (s : State) (i : Issue) (r : CoreRun), (s.core (coreNum i.core)).run = some r →
    let does (c : Instr) (f : Core → Core) : Prop := issuesNow s c i = true →
      exec c s = .next (s.onCore (coreNum i.core) fun k => f (wordEcc i.ecc (storeWord s (coreNum i.core) r) (settle i.cycle k)))
    let goes (next : Nat) (k : Core) : Core :=
      let x := endOfWord r.pc k.loops
      { k with loops := x.2, run := some { r with pc := x.1, nextCycle := next, waiting := decide (r.length ≤ x.1) } }
    does (.nop i .control) (goes (i.cycle + 1)) ∧
    (∀ slot : Slot, slot ≠ .control → exec (.nop i slot) s = .next s) ∧
    (∀ (cr : Fin 16) (v : BitVec 14), does (.setc i cr v) fun k => goes (i.cycle + 1) { k with cr := k.cr.set cr v }) ∧
    (∀ (p : Fin 8) (level : Fin 4) (cmp : PredCmp) (imm : BitVec 11), does (.pset i p level cmp imm) fun k =>
      goes (i.cycle + 1) { k with preds := k.preds.set p (some { level := level, cmp := cmp, imm := imm }) }) ∧
    (∀ d : BitVec 18, does (.delay i d) (goes (i.cycle + 1 + (d.toNat + 1)))) ∧
    (∀ (body : BitVec 9) (count : LoopCount), does (.loop i body count) fun k => { k with
      loops := openLoop r.pc (body.toNat + 1) (loopCount k.cr count) k.loops
      run := some { r with pc := r.pc + 1, nextCycle := i.cycle + 1, waiting := decide (r.length ≤ r.pc + 1) } }) ∧
    does (.waits i) fun k => { k with run := some { r with waiting := true } }) ∧
  ∀ (pc : Nat) (f : LoopFrame) (rest : List LoopFrame),
    endOfWord pc [] = (pc + 1, []) ∧ (pc + 1 ≠ f.first + f.body → endOfWord pc (f :: rest) = (pc + 1, f :: rest)) ∧
    (pc + 1 = f.first + f.body → endOfWord pc (f :: rest) =
      if f.counter + 1 < f.count then (f.first, { f with counter := f.counter + 1 } :: rest) else endOfWord pc rest)

/-- PHASE completes when its word issues (R109): the word ends as with NOP, on the leader core of a band, the core at its first
logical row and logical column 0, the run of the band takes the mark, and on any other core PHASE does nothing more. -/
def Obligations.PhaseMarks : Prop :=
  ∀ (s : State) (i : Issue) (code : Fin 8) (r : CoreRun), issuesNow s (.phase i code) i = true →
    (s.core (coreNum i.core)).run = some r →
    let t := s.onCore (coreNum i.core) fun k =>
      let k := wordEcc i.ecc (storeWord s (coreNum i.core) r) (settle i.cycle k)
      let x := endOfWord r.pc k.loops
      { k with loops := x.2, run := some { r with pc := x.1, nextCycle := i.cycle + 1, waiting := decide (r.length ≤ x.1) } }
    exec (.phase i code) s = .next (if i.core.row.val % 5 = 0 ∧ i.core.col.val = 0 then t.onStu fun u =>
      match Tab.find u.bands (bandOfCore (coreNum i.core)) with
      | some b => { u with bands := Tab.put u.bands (bandOfCore (coreNum i.core)) { b with marks := (i.cycle, code) :: b.marks } }
      | none => u
    else t)

/-- HRD_RETURN and FLIT_ARRIVAL (R90, R111 to R113, R116, R368): the earliest read of a core lies in its scratch line and is no
longer on its way, past the end of scratch nothing is written and a violation of kind 0x0C counts; a flit is a violation of kind
0x05 in an unavailable band, a counted drop in a band that drops it, of kind 0x0A without a route entry; it leaves by every
output its entry selects, the local one putting its 32 bytes at the entry's next place; of two flits that ask for one output the
lower input's has it, the other is discarded and counted, whichever came first in the command, but two pass over a short edge.
Of two writes to one byte of scratch in one cycle the HBM return's value stands before a flit's and a flit's before an
instruction's, whichever came first. -/
def Obligations.ArrivalsAtCoresAndRouters : Prop :=
  (∀ (s : State) (core : CoreId) (r : HrdReturn), firstReturn (coreNum core) s.cores.returns = some r →
    let c := coreNum core
    let taken := s.onCores fun k => { k with returns := k.returns.erase r }
    exec (.hrdReturn core) s = .next ((if 768 ≤ r.line then violate (runCtx (s.core c)) 0x0C taken else taken).onCore c
      (scratchWrite (cycleNow taken c) 2 (64 * r.line) (leBytes 64 r.data.toNat)))) ∧
  (∀ (s : State) (router : RouterId) (input : MeshIn) (f : Flit),
    let r := routerIdNum router
    let g := bandOfRouter r
    let s1 := takeFlit r (input, f) s
    (bandState s g = .unavailable →
      exec (.flitArrival router [(input, f)]) s = .next (violate (s.band g).owner.val 0x05 s1)) ∧
    (bandState s g ≠ .unavailable → bandDrops (s.band g) = true →
      exec (.flitArrival router [(input, f)]) s =
        .next (violate (s.band g).owner.val 0x04 (s1.onBand g fun b => { b with drops := satInc b.drops 1 }))) ∧
    (bandState s g ≠ .unavailable → bandDrops (s.band g) = false →
      (routeEntry s r f.route.toNat = none →
        exec (.flitArrival router [(input, f)]) s = .next (violate (pageContext s g) 0x0A s1)) ∧
      ∀ e : BitVec 32, routeEntry s r f.route.toNat = some e →
        let key := 256 * routePage s r + f.route.toNat
        let eject (u : State) : State := match coreOfRouter s r with
          | none => u
          | some c => u.onCore c fun k =>
            let n := Tab.getD k.rx key 0
            scratchWrite (cycleNow s c) 1 (32 * (fld e 24 14 + n)) (leBytes 32 f.data.toNat)
              { k with rx := Tab.put k.rx key ((n + 1) % (fld e 13 3 + 1)) }
        exec (.flitArrival router [(input, f)]) s = .next ((if e.getLsbD 26 then eject s1 else s1).each
          (meshOuts.filter fun o => e.getLsbD o.bitOf) fun u o => leaveBy r f o u))) ∧
  (∀ (s : State) (router : RouterId) (a b : MeshIn) (f g : Flit) (e d : BitVec 32) (o : Nat),
    let r := routerIdNum router
    let s2 := takeFlit r (b, g) (takeFlit r (a, f) s)
    bandState s (bandOfRouter r) ≠ .unavailable → bandDrops (s.band (bandOfRouter r)) = false → inputRank a < inputRank b →
    routeEntry s r f.route.toNat = some e → routeEntry s r g.route.toNat = some d →
    25 ≤ o → o < 31 → e.getLsbD o = true → d.getLsbD o = true →
    let first := (routeFlit r f [] s2).1
    ((o ≠ MeshOut.east.bitOf ∨ r % 128 ≠ 127) → (o ≠ MeshOut.west.bitOf ∨ r % 128 ≠ 0) →
      exec (.flitArrival router [(a, f), (b, g)]) s = .next (meshConflict r g first) ∧
      exec (.flitArrival router [(b, g), (a, f)]) s =
        .next (meshConflict r g (routeFlit r f [] (takeFlit r (a, f) (takeFlit r (b, g) s))).1)) ∧
    ∀ m : MeshOut, m.bitOf = o → (m = .east ∧ r % 128 = 127) ∨ (m = .west ∧ r % 128 = 0) →
      (∀ j, 25 ≤ j → j < 31 → (d.getLsbD j = true ↔ j = o)) →
      exec (.flitArrival router [(a, f), (b, g)]) s = .next (leaveBy r g m first)) ∧
  ∀ (k : Core) (cycle lower higher addr : Nat) (x y : List Byte), lower < higher → higher ≤ 2 → x.length = y.length →
    (∀ w ∈ k.recent, w.cycle ≠ cycle) → Mem.wf k.scratch = true → ∀ j, j < y.length → addr + j < 0xC000 →
      Mem.byte (scratchWrite cycle higher addr y (scratchWrite cycle lower addr x k)).scratch (addr + j) = y.getD j 0 ∧
      Mem.byte (scratchWrite cycle lower addr x (scratchWrite cycle higher addr y k)).scratch (addr + j) = y.getD j 0

/-- BLT_DEFINE and BLT_RELEASE while the registers take writes, whatever the written word (a reserved bit set counts a violation
first): DEFINE of a region that can be placed makes it LOADING with RESULT 0, model slots on its bands being evicted one at a
time, the earliest stamp first, while it cannot; with none left the RESULT is 0x01; an index in use reports 0x02, an invalid
configuration 0x05, a band that is unavailable or another's 0x03; RELEASE of an unpinned region frees it and takes it from its
model slot, of a pinned one reports 0x04, of none 0x06. REGION_LOADED and REGION_WRITTEN_BACK: a LOADING region whose last line
has been written, or whose fill from its backing ends, is RESIDENT, but one whose loader a power-down stopped stays LOADING; a
DIRTY region whose live copy has reached its backing is RESIDENT; no other region changes. -/
def Obligations.BoltRegionCommands : Prop :=
  (∀ (s : State) (v : W64), TakesWrites s →
    let u := checkRsv (mask64 63 2) v s
    let b := u.bolt
    let result (r : Nat) (u : State) : State := u.onBolt fun x => { x with result := BitVec.ofNat 8 r }
    let bands := maskBands b.bandsLo b.bandsHi
    let (n, index, lines) := (fld b.cfg 3 0, fld b.cfg 13 8, fld b.cfg 33 18 + 1)
    (defineRefusal u n index lines (bit b.cfg 16) (bit b.cfg 17) bands = none →
      (∀ runs t, placeEvicting bands lines (bit b.cfg 16) 64 u = (some runs, t) →
        let region : BoltRegion := {
          ctx := Fin.ofNat 16 n, index := index, lines := lines, twin := bit b.cfg 16, backed := bit b.cfg 17
          hbmRegion := fld b.backing 55 52, offset := fld b.backing 35 0, bands := bands, runs := runs, state := .loading
          live := false, loaded := [], stagedLines := 0, slot := none, filling := false, stopped := false }
        exec (.bltDefine v) s = .next (result 0 (t.onBolt fun x => { x with regions := Tab.put x.regions x.rgnSel region }))) ∧
      (∀ t, placeEvicting bands lines (bit b.cfg 16) 64 u = (none, t) → exec (.bltDefine v) s = .next (result 1 t))) ∧
    ((boltRegion u b.rgnSel).isSome → exec (.bltDefine v) s = .next (result 2 u)) ∧
    (∀ r, defineRefusal u n index lines (bit b.cfg 16) (bit b.cfg 17) bands = some r → exec (.bltDefine v) s = .next (result r u)) ∧
    (∀ x, boltRegion u b.rgnSel = some x →
      (pinned u x = false → exec (.bltRelease v) s = .next (result 0 (freeRegion b.rgnSel u))) ∧
      (pinned u x = true → exec (.bltRelease v) s = .next (result 4 u))) ∧
    (boltRegion u b.rgnSel = none → exec (.bltRelease v) s = .next (result 6 u))) ∧
  (∀ (s : State) (bands : List Nat) (n fuel : Nat) (twin : Bool),
    (∀ runs, planRegion s bands n twin = some runs → placeEvicting bands n twin fuel s = (some runs, s)) ∧
    (planRegion s bands n twin = none →
      (∀ k, earliestSlot s (evictable s (some bands)) = some k →
        placeEvicting bands n twin (fuel + 1) s = placeEvicting bands n twin fuel (evictSlot k s)) ∧
      (earliestSlot s (evictable s (some bands)) = none → placeEvicting bands n twin fuel s = (none, s)))) ∧
  ∀ (s : State) (i : Fin 512) (x : BoltRegion), boltRegion s i.val = some x →
    let becomes (u : State) : State := u.onBolt fun b => { b with
      regions := b.regions.map fun y => if y.1 = i.val then (y.1, { y.2 with state := .resident }) else y }
    (x.state = .loading → x.stopped = false → x.filling = false → allLoaded x = true → regionBusy s x = false →
      exec (.regionLoaded i) s = .next (becomes s)) ∧
    (x.state = .loading → x.stopped = false → x.filling = true → exec (.regionLoaded i) s = .next (onRegion i.val
      (fun y => { y with state := .resident, filling := false }) (fillFromBacking i.val x (meetQueues .loader s)))) ∧
    (x.state ≠ .loading ∨ x.stopped = true → exec (.regionLoaded i) s = .next s) ∧
    (x.state = .dirty → exec (.regionWrittenBack i) s = .next (becomes (writeBacking x (meetQueues .loader s)))) ∧
    (x.state ≠ .dirty → exec (.regionWrittenBack i) s = .next s)

/-- BOLT_WRITE_BACK and SCRUB_STARVATION: the oldest corrected line of the slab's buffer is written to its line and leaves the
buffer; a lap past its limit sets STARVED of its panel, and Thimble logs it. BOLT_SCRUB_LAP (once every segment of the panel has
been covered) and HBM_SCRUB_LAP: the lap counter of the panel or stack goes up, the lap's length is kept, its scrub pointers start
again, each error found is handled in turn, and the scrub event is posted with its counts where SCRUB_EVT asks for it; what earlier laps of other units
recorded stays. An error corrected is counted, and the one that the lap before corrected at the same place as well is repaired;
an uncorrectable one is counted and latched, and a free line of the tier is excluded and reads zero. -/
def Obligations.ScrubLaps : Prop :=
  (∀ (s : State) (p : Panel) (slab : Fin 128) (w : WriteBack) (ws : List WriteBack),
    let key := 128 * p.val + slab.val
    Tab.getD s.bolt.buffers key [] = w :: ws →
      exec (.boltWriteBack p slab) s = .next (writeBoltLine p.val slab.val w.line (leBytes 32 w.data.toNat)
        (s.onBolt fun b => { b with
          buffers := if ws.isEmpty then Tab.drop b.buffers key else Tab.put b.buffers key ws }))) ∧
  (∀ (s : State) (p : Panel), p.val < s.nPanels →
    (bit s.bolt.ctrl 0 = true →
      exec (.scrubStarvation p) s = .next (logGeneral 0x04 0 [1, BitVec.ofNat 8 p.val]
        (s.onBolt fun b => { b with starved := b.starved.set p true }))) ∧
    ∀ length : Nat,
      let event (tier : Byte) (ce ue : Nat) (u : State) : State := post 0 0x09 [(16, [tier]), (17, leBytes 1 p.val),
        (24, leBytes 8 length), (32, leBytes 8 ce), (40, leBytes 8 ue)] u
      let outcomes (l : List Ecc) (e : Bool) : Nat := (l.filter fun x => match x with
        | .ok => false
        | .corrected => e
        | .uncorrectable _ _ => !e).length
      (∀ found : List (Fin 128 × BitVec 20 × Nat × Ecc), bit s.bolt.ctrl 0 = true → lapCovered s p.val = true →
        let before := s.bolt.lapCorrected.filter fun k => k.1 / slabLines / 128 == p.val
        let t := (s.onBolt fun b => { b with
          laps := b.laps.set p (satAdd 27 b.laps[p] 1), lastLap := b.lastLap.set p (min length (2 ^ 36 - 1))
          lapCorrected := b.lapCorrected.filter fun k => k.1 / slabLines / 128 != p.val
          covered := (List.range 16).foldl (fun v g => vMod v (16 * p.val + g) fun _ => 0) b.covered }).each found
            fun u f => scrubBolt p.val before f u
        exec (.boltScrubLap p length found) s = .next (if bit s.bolt.ctrl 1 then
          event 0 (outcomes (found.map fun f => f.2.2.2) true) (outcomes (found.map fun f => f.2.2.2) false) t else t)) ∧
      ∀ found : List (Fin 256 × Nat × Bool × Ecc),
        let before := s.hbm.lapCorrected.filter fun x => x / 2 / Config.pcLines / 32 == p.val
        let t := (s.onHbm fun h => { h with
          laps := h.laps.set p (satAdd 16 h.laps[p] 1), lastLap := h.lastLap.set p (min length (2 ^ 48 - 1))
          lapCorrected := h.lapCorrected.filter fun x => x / 2 / Config.pcLines / 32 != p.val
          scrubbed := h.scrubbed.filter fun x => x.1 / 32 != p.val }).each found
            fun u f => scrubHbm before f u
        exec (.hbmScrubLap p length found) s = .next (if bit s.hbm.ctrl 1 then
          event 1 (outcomes (found.map fun f => f.2.2.2) true) (outcomes (found.map fun f => f.2.2.2) false) t else t)) ∧
  ∀ s : State,
    (∀ (p : Nat) (before : List (Nat × Nat)) (slab : Fin 128) (line : BitVec 20) (j : Nat),
      let key := lineKey p slab.val line.toNat
      (∀ y sec, scrubBolt p before (slab, line, j, .uncorrectable y sec) s =
        boltUncorrectable p slab.val line.toNat y true s) ∧
      (before.contains (key, j) = false → scrubBolt p before (slab, line, j, .corrected) s = s.onBolt fun b => { b with
        corrected := vMod b.corrected p fun c => satAdd 48 c 1
        weak := b.weak.filter (· != key), lapCorrected := b.lapCorrected ++ [(key, j)] }) ∧
      (before.contains (key, j) = true → ∃ repaired, scrubBolt p before (slab, line, j, .corrected) s =
        boltRepair p slab.val line.toNat repaired (scrubBolt p [] (slab, line, j, .corrected) s))) ∧
    ∀ (before : List Nat) (pc : Fin 256) (line : Nat) (sector : Bool),
      let key := sectorKey pc.val line sector
      (∀ y sec, hbmRegionAt s pc.val line = none →
        scrubHbm before (pc, line, sector, .uncorrectable y sec) s = writeWhole pc.val line (List.replicate 64 0)
          ((hbmUncorrectable pc.val line y sec true s).onHbm fun h => { h with
            excluded := if h.excluded.contains (pc.val, line) then h.excluded else h.excluded ++ [(pc.val, line)] })) ∧
      (before.contains key = false → scrubHbm before (pc, line, sector, .corrected) s =
        (hbmCorrected pc.val line sector s).onHbm fun h => { h with
          weak := h.weak.filter (· != key), lapCorrected := h.lapCorrected ++ [key] }) ∧
      (before.contains key = true → scrubHbm before (pc, line, sector, .corrected) s =
        hbmRepair pc.val line (scrubHbm [] (pc, line, sector, .corrected) s))

/-- HBT_DEFINE, HBT_RELEASE and ZEROING_DONE, the commands whatever the written word (a reserved bit set counts a violation
first): a region the tier has room for takes the lowest base with RESULT 0 and is not yet READY; an index in use reports 0x02,
an invalid configuration 0x05, no room 0x01; one in use is released only when nothing refers to it (else 0x04), and an index
of none reports 0x06; once its zeroing writes are done every line of it reads zero and it is READY. -/
def Obligations.HbmRegionCommands : Prop :=
  (∀ (s : State) (v : W64), TakesWrites s →
    let u := checkRsv (mask64 63 2) v s
    let (n, i) := (fld u.hbm.rgnSel 7 4, fld u.hbm.rgnSel 3 0)
    let r := configuredRegion u.hbm.cfg
    let result (x : Nat) (u : State) : State := u.onHbm fun h => { h with result := BitVec.ofNat 8 x }
    (∀ b, hbmRegion u n i = none → invalidRegion u n r = false → findHbmBase u r = some b →
      exec (.hbtDefine v) s =
        .next (result 0 (u.onHbm fun h => { h with regions := Tab.put h.regions (regionKey n i) { r with base := b } }))) ∧
    (hbmRegion u n i = none → invalidRegion u n r = true → exec (.hbtDefine v) s = .next (result 5 u)) ∧
    (hbmRegion u n i = none → invalidRegion u n r = false → findHbmBase u r = none →
      exec (.hbtDefine v) s = .next (result 1 u)) ∧
    ((hbmRegion u n i).isSome →
      exec (.hbtDefine v) s = .next (result 2 u) ∧
      exec (.hbtRelease v) s = .next (if 0 < regionRefs u n i then result 4 u
        else result 0 (u.onHbm fun h => { h with
          regions := Tab.drop h.regions (regionKey n i)
          checked := h.checked.filter fun c => !(c.ctx == n && c.region == i) }))) ∧
    (hbmRegion u n i = none → exec (.hbtRelease v) s = .next (result 6 u))) ∧
  ∀ (s : State) (m : Ctx) (j : Fin 16) (x : HbmRegion), hbmRegion s m.val j.val = some x → x.ready = false →
    exec (.zeroingDone m j) s = .next ((zeroRegion x (meetQueues .drain s)).onHbm fun h => { h with
      regions := Tab.put h.regions (regionKey m.val j.val) { x with ready := true } })

/-- Zeroing (R166): a byte of the region's lines reads zero in every pseudo-channel the region uses, and every other byte of the
tier reads as before. -/
def Obligations.ZeroedRegionReadsZero : Prop :=
  ∀ (s : State) (r : HbmRegion) (a : Nat),
    let inside : Prop := ∃ pc < 256, usesPc s r pc = true ∧ hbmAddr pc r.base ≤ a ∧ a < hbmAddr pc (r.base + regionSpan r)
    (inside → Mem.byte (zeroRegion r s).hbm.mem a = 0) ∧
    (¬ inside → Mem.byte (zeroRegion r s).hbm.mem a = Mem.byte s.hbm.mem a)

/-- HBM_QUEUE_ARRIVAL and WC_DRAIN: the access that comes first in the pseudo-channel's queue, of those that no engine holds
back, takes effect and leaves it, an access of the pattern before any engine's of the same cycle; the oldest sealed entry of a
stack's buffer is written to its line, once what arrived before has taken effect, and is free again. The windows of the tier
and its controls: a refresh window passes to the next of the period's windows; a calibration window writes the tally lines
waiting, each to the tally region of its context; SCRUB_FLOOR takes a value of 1 to 256 and ignores any other; MAX_CLR sets MAX
to the present temperature. HBM_TEMP_READ of a stack whose reads are not suspended: a reading is kept, with the maximum, and the
failed reads are forgotten; from 95 °C it raises the HBM factor to 20, until every stack is at 90 °C or below; a failed read
counts, to 3; the third, and a reading of 105 °C or more, is a device fault of its stack. -/
def Obligations.HbmQueuesAndWindows : Prop :=
  (∀ (s : State) (pc : Fin 256) (e : LineEcc) (a : Access), nextAccess s pc.val = some a →
    exec (.hbmQueueArrival pc e) s = .next (takeAccess a e (s.onHbm fun h => { h with inflight := h.inflight.erase a })) ∧
    a ∈ s.hbm.inflight ∧ a.pc = pc.val ∧
    ∀ b ∈ openAccesses s s.hbm.inflight [], b.pc = pc.val → accessBefore b a = false) ∧
  (∀ (s : State) (k : Panel) (e : WcEntry), (vAt s.hbm.wc k.val []).find? (·.sealed) = some e →
    exec (.wcDrain k) s = .next (drainOldest k.val e (meetQueues .drain s))) ∧
  (∀ (s : State) (k : Nat) (e : WcEntry), partlyValid e = false →
    drainOldest k e s = setWc k ((vAt s.hbm.wc (e.pc / 32) []).erase e) (drainEntry e s)) ∧
  (∀ s : State, exec .refreshWindow s = .next (s.onHbm fun h => { h with
    refreshes := h.refreshes + 1, refreshIndex := (h.refreshIndex + 1) % ((64 * s.stu.periodUnits.toNat + 255) / 256) })) ∧
  (∀ s : State,
    let tally (n : Nat) : Nat := fld (s.ctx n).rank 23 20
    exec .calibrationWindow s = .next ((meetQueues .presser (s.onHbm fun h => { h with
        calibrations := h.calibrations + 1, tallyOut := [] })).each s.hbm.tallyOut fun u x =>
      match hbmRegion u x.1 (fld (u.ctx x.1).rank 23 20) with
      | some r => unverifyBytes x.1 (fld (u.ctx x.1).rank 23 20) (64 * x.2.1) x.2.2.length (storeLines x.1 r (64 * x.2.1) x.2.2 u)
      | none => u) ∧
    ∀ n l bs, s.hbm.inflight = [] → s.hbm.tallyOut = [(n, l, bs)] → hbmRegion s n (tally n) = none →
      exec .calibrationWindow s = .next (s.onHbm fun h => { h with calibrations := h.calibrations + 1, tallyOut := [] })) ∧
  (∀ s : State, TakesWrites s →
    (∀ f : BitVec 9, bit s.hbm.ctrl 2 = false →
      exec (.scrubFloorWrite (f.setWidth 64 <<< 16)) s = .next (s.onHbm fun h => { h with
        ctrl := putFld 0 24 16 (if 1 ≤ f.toNat ∧ f.toNat ≤ 256 then f.toNat else fld s.hbm.ctrl 24 16) })) ∧
    ∀ k : Panel, k.val < s.nPanels →
      exec (.hbmTempMaxClr k 0) s = .next (s.onHbm fun h => { h with tempMax := h.tempMax.set k h.temp[k] })) ∧
  ∀ (s : State) (k : Panel), k.val < s.nPanels → tempSuspended s k.val = false →
    (∀ c : Int,
      let kept := s.onHbm fun h => { h with
        temp := h.temp.set k (BitVec.ofInt 8 c), tempFails := h.tempFails.set k 0
        tempMax := h.tempMax.set k (if (h.tempMax[k]).toInt < c then BitVec.ofInt 8 c else h.tempMax[k]) }
      let taken := if s.thm.restarting ∨ s.thm.halted then kept else takeReading (96 + k.val) c kept
      (c < 105 → exec (.hbmTempRead k (.reading c)) s = .next (hbmReason c taken)) ∧
      (105 ≤ c → exec (.hbmTempRead k (.reading c)) s = .next (stackThermal k.val 1 (hbmReason c taken)))) ∧
    (vAt s.hbm.tempFails k.val 0 < 2 → exec (.hbmTempRead k .failed) s = .next (s.onHbm fun h => { h with
      tempFails := h.tempFails.set k (h.tempFails[k] + 1) })) ∧
    (vAt s.hbm.tempFails k.val 0 = 2 → ∃ t, exec (.hbmTempRead k .failed) s = .next (stackThermal k.val 2 t) ∧
      vAt t.hbm.tempFails k.val 0 = 3 ∧ t.stu.hbmTarget ≠ 16) ∧
    ∀ c : Int,
      (95 ≤ c → s.stu.hbmTarget = 16 → (hbmReason c s).stu.hbmTarget = 20) ∧
      (c < 95 → s.stu.hbmTarget = 16 → hbmReason c s = s) ∧
      (c < 95 → (∀ j < s.nPanels, stackTemp s j ≤ 90) → (hbmReason c s).stu.hbmTarget = 16) ∧
      (c < 95 → s.stu.hbmTarget ≠ 16 → (∃ j < s.nPanels, 90 < stackTemp s j) → hbmReason c s = s)

/-- BAR2: an access inside an open window puts one access of the port H engine into the queue of each line it touches, in order;
through a closed window, to no region, with a line beyond the region, or in MANAGEMENT_ONLY it is a violation of kind 0x01, and
a read then returns zeros, as it does, uncounted, during a device reset; a read that is not served in time, the oldest waiting,
completes with Completer Abort and is counted; a BAR0 access of wrong size or alignment writes nothing, reads zero and counts
one violation of kind 0x02. -/
def Obligations.Bar2Accesses : Prop :=
  (∀ (s : State) (offset : Nat) (k : Bar2Kind),
    let w := vAt s.hif.windows (offset / 2 ^ 34 % 16) 0
    let (n, i, base) := (fld w 43 40, fld w 39 36, fld w 35 0)
    let count := match k with
      | .read m => m
      | .write bs => bs.length
    let parts := bar2Parts (count + 1) (offset % 2 ^ 34) count
    let zeros (u : State) : State := match k with
      | .read m => u.emit (.bar2Data (List.replicate m 0))
      | .write _ => u
    (s.flt.resetting = true → exec (.bar2Access offset k) s = .next (zeros s)) ∧
    (s.flt.resetting = false →
      (∀ r, hbmRegion s n i = some r → s.flt.mode ≠ 2 → bit w 63 = true →
        ((∀ p ∈ parts, base + p.1 < regionLines s r) → exec (.bar2Access offset k) s = .next
          (parts.foldl (fun acc p => (bar2Part n r i base k acc.2 p acc.1, acc.2 + p.2.2)) (s, 0)).1) ∧
        ((∃ p ∈ parts, regionLines s r ≤ base + p.1) →
          exec (.bar2Access offset k) s = .next (zeros (violate 0 0x01 s)))) ∧
      (bit w 63 = false ∨ hbmRegion s n i = none ∨ s.flt.mode = 2 →
        exec (.bar2Access offset k) s = .next (zeros (violate 0 0x01 s))))) ∧
  (∀ (s : State) (n region base skip line first count pc found : Nat) (r : HbmRegion), lineOf s n r (base + line) = some (pc, found) →
    let sends (kind : AccessKind) : State := s.onHbm fun h => { h with inflight := h.inflight ++ [
      { pc := pc, line := found, source := .portH, arrival := s.ns, key := 0, kind := kind, owner := Fin.ofNat 16 n,
        region := region, transfer := none }] }
    (∀ m, bar2Part n r region base (.read m) skip (line, first, count) s = sends (.bar2Read count first)) ∧
    ∀ bs, bar2Part n r region base (.write bs) skip (line, first, count) s = sends (.bytesWrite (mask64 (first + count - 1) first)
      (BitVec.ofNat 512 (fromLe ((bs.drop skip).take count) * 2 ^ (8 * first))))) ∧
  (∀ (s : State) (before after : List Access) (a : Access) (m b : Nat), s.hbm.inflight = before ++ a :: after →
    a.kind = .bar2Read m b → (∀ x ∈ before, ∀ m b, x.kind ≠ .bar2Read m b) →
    exec .bar2Timeout s = .next (((s.onHbm fun h => { h with inflight := before ++ after }).onHif fun h =>
      { h with bar2Timeouts := satAdd 32 h.bar2Timeouts 1 }).emit .bar2Abort)) ∧
  ∀ (s : State) (off size : Nat),
    let seen := if s.flt.resetting then s else violate 0 0x02 s
    exec (.bar0AccessError off size true) s = .next seen ∧
    exec (.bar0AccessError off size false) s = .next (seen.emit (.readData 0))

/-- MARKER, MASTER_TAKEOVER, HOLDOVER and ALIGNMENT_FAULT (R23 to R27): a marker that a running member or backup accepts, of its
group and of a higher epoch or of the tree it follows, sets the alignment status and the correction that the next boundary
takes, and goes on down its tree one hop more; the first one accepted while acquiring gives the stitch number; one over 64 hops,
or of another stitch number, is an alignment fault; one of another group is ignored. A backup that missed the primary tree for 3
boundaries becomes master with the next epoch; 3 missed boundaries set HOLDOVER; 64 are an alignment fault. -/
def Obligations.MarkersAndTakeover : Prop :=
  ∀ s : State, s.flt.mode ≠ 2 →
    let u := s.stu
    (∀ (p : PortId) (m : MarkerMsg) (arrival : Int), (s.port p.val).state = .active → role s = 1 ∨ role s = 3 →
      m.groupId.toNat = fld u.ctrl 31 16 →
      u.epochHeld = false ∨ (1 ≤ (m.epoch - u.epoch).toNat ∧ (m.epoch - u.epoch).toNat ≤ 127) ∨
        (m.epoch = u.epoch ∧ (m.tree = false ∨ 0 < u.primaryMissed)) →
      let report (sub : Nat) (x : State) : State := declareFault (alignmentRec x 1 sub m.stitch.toNat) x
      let seen := if u.acquiring = false ∧ u.counting = true ∧ m.stitch ≠ u.stitch then report 2 s else s
      let taken := seen.drew.onStu fun x => { x with
        offset := markerOffset seen m arrival, correctionPs := arrival - m.accDelay.toNat, missed := 0, holdover := false
        tree := m.tree, epoch := m.epoch, epochHeld := true, hops := m.hops, markerSeen := true
        primarySeen := x.primarySeen || !m.tree, acquiring := false, counting := x.counting || u.acquiring
        stitch := if u.acquiring then m.stitch else x.stitch }
      exec (.marker p m arrival) s =
        .next (forwardMarker m arrival (if 64 < m.hops.toNat then report 1 taken else taken))) ∧
    (∀ (x : State) (m : MarkerMsg) (arrival : Int), let d := arrival - m.accDelay.toNat
      d ≤ 32767 → -32768 ≤ d → (markerOffset x m arrival).toInt = d) ∧
    (∀ (p : PortId) (m : MarkerMsg) (arrival : Int), m.groupId.toNat ≠ fld u.ctrl 31 16 →
      exec (.marker p m arrival) s = .next s) ∧
    (role s = 3 → bit u.ctrl 2 = true → u.acquiring = false → 3 ≤ u.primaryMissed → u.pos < 96 →
      exec .masterTakeover s = .next (sendMarker (declareFault
        (faultRec s 0x09 1 0x0A 0 0 0 0 0 ((s.port 12).nbAddr.toNat + 65536 * (u.epoch + 1).toNat))
        (s.onStu fun u => { u with
          ctrl := putFld u.ctrl 1 0 2, epoch := u.epoch + 1, epochHeld := true, sendsAlt := true, holdover := false, missed := 0
          primaryMissed := 0
          lastAnnounced := u.queue.foldl (fun k a => match a.kind with
            | .stretch j => j
            | .period _ => k) u.curFactor })))) ∧
    (role s = 1 ∨ role s = 3 → bit u.ctrl 2 = true → u.acquiring = false →
      (3 ≤ u.missed.toNat → exec .holdover s = .next (s.onStu fun u => { u with holdover := true })) ∧
      (u.missed.toNat = 64 → s.flt.phase ≠ .hold → s.flt.phase ≠ .running →
        exec .alignmentFault s = .next (declareFault (alignmentRec s 4 3 (Config.freeNat s.free % 2 ^ 40)) s.drew)))

/-- Stretch and period messages and their changes (R17, R18, R31, R34 to R36): a child's request is kept and the subtree's
factor goes up when it changes; an announcement joins a follower's queue in the order of the apply stitches, unless 8 are
pending, and goes down the tree; at the apply stitch of the head entry, its factor or period is in force, the stitch has its new
length, every context is told of a change, and the device then announces what waits, if it may in this stitch. -/
def Obligations.StretchAndPeriodMessages : Prop :=
  (∀ (s : State) (p : PortId), s.flt.mode ≠ 2 →
    (∀ (k : BitVec 6) (r : BitVec 4), (s.sea.tree.getLsbD (4 + p.val)) = true →
      exec (.stretchReq p k r) s = .next (updateSubtree (s.onStu fun u => { u with
        childFactors := Tab.put u.childFactors p.val k, childReasons := Tab.put u.childReasons p.val r }))) ∧
    (role s = 1 ∨ role s = 3 → ∀ apply : Stitch,
      (∀ k : BitVec 6, exec (.stretchAnn p k apply) s =
        .next (sendDown s.stu.tree (.stretchAnn k apply) (announce { kind := .stretch k, apply := apply } s))) ∧
      ∀ units : BitVec 24, exec (.periodAnn p units apply) s =
        .next (sendDown s.stu.tree (.periodAnn units apply) (announce { kind := .period units, apply := apply } s))) ∧
    (s.stu.pos < 96 → s.stu.counting = true → ∀ (apply : Stitch) (rest : List Announcement),
      before s.stu.stitch apply = false →
      let told (u : State) : State := announceAfter (stretchEvent s.stu.curFactor s.stu.periodUnits u)
      (∀ k : BitVec 6, s.stu.queue = { kind := .stretch k, apply := apply } :: rest →
        let stretched := panelClocks (s.onStu fun u => { u with
          queue := rest, curFactor := k, factorAge := 0, length := 4 * u.periodUnits.toNat * k.toNat })
        exec .stretchChange s = .next (if k = s.stu.curFactor then announceAfter stretched else told stretched)) ∧
      ∀ units : BitVec 24, s.stu.queue = { kind := .period units, apply := apply } :: rest →
        let shorter := rebuildLedger (budgetCheck (s.onStu fun u => { u with
          queue := rest, periodUnits := units, length := 4 * units.toNat * u.curFactor.toNat }))
        exec .periodChange s = .next (if units = s.stu.periodUnits then announceAfter shorter else told shorter))) ∧
  (∀ (s : State) (a : Announcement),
    (8 ≤ s.stu.queue.length → announce a s = s) ∧
    (s.stu.queue.length < 8 → ∃ early late, s.stu.queue = early ++ late ∧
      announce a s = s.onStu (fun u => { u with queue := early ++ a :: late }) ∧
      (∀ b ∈ early, before a.apply b.apply = false) ∧ ∀ b ∈ late.head?, before a.apply b.apply = true)) ∧
  ∀ s : State, s.flt.mode ≠ 2 →
    (s.stu.annSent = true ∨ role s = 1 ∨ role s = 3 → announceAfter s = s) ∧
    (s.stu.annSent = false → role s = 0 → s.stu.subtreeFactor ≠ s.stu.lastAnnounced →
      s.stu.curFactor.toNat ≤ s.stu.subtreeFactor.toNat → s.stu.queue.length < 8 →
      let a : Announcement := { kind := .stretch s.stu.subtreeFactor, apply := s.stu.stitch + 8 }
      announceAfter s = (announce a s).onStu fun u => { u with
        annSent := true, stretchSent := true, lastAnnounced := s.stu.subtreeFactor })

/-- The registers of the stitch unit as commands (Tables 1-2, 1-3, 1-5; R18, R35, R275): STU_ENABLE of a disabled, unlocked unit
takes GROUP_ID and ROLE, the epoch starting again, and starts the acquisition of a member or a backup. A period written to a
standalone device or a master: one below 32, or below 51 while a context serves, is refused with the event of R18; any other is
taken for the next boundary while the unit is disabled, and on a running standalone device with no period or stretch under way
is announced 8 stitches ahead, or held where the stitch has its announcement. Written to a member or a backup it counts one
violation unless it is the period in force. SYS_FACTOR takes its six bits. -/
def Obligations.StitchUnitRegisters : Prop :=
  ∀ s : State, TakesWrites s →
    (∀ (g : BitVec 16) (r : BitVec 2), bit s.stu.ctrl 3 = false → bit s.stu.ctrl 2 = false →
      let v : W64 := (g.setWidth 64 <<< 16) ||| 4 ||| r.setWidth 64
      exec (.stuEnable v) s = .next (s.onStu fun u =>
        let u := { u with
          ctrl := v, epochHeld := false, epoch := 0, counting := false, sendsAlt := u.sendsAlt && decide (r.toNat = fld u.ctrl 1 0) }
        if r = 1 ∨ r = 3 then { u with acquiring := true, holdover := true, missed := 0 } else u)) ∧
    (∀ units : BitVec 24, role s = 0 ∨ role s = 2 →
      (units.toNat < 32 ∨ (units.toNat < 51 ∧ ∃ n : Ctx, bit (s.srvCtx n.val).cfg 63 = true) →
        exec (.stuPeriodWrite (units.setWidth 64)) s = .next (postWithdrawal 0 0x3F 0 units.toNat 0 s)) ∧
      (51 ≤ units.toNat → bit s.stu.ctrl 2 = false →
        exec (.stuPeriodWrite (units.setWidth 64)) s = .next (s.onStu fun u => { u with immediate := some units, held := none })) ∧
      (51 ≤ units.toNat → bit s.stu.ctrl 2 = true → role s = 0 → s.stu.annSent = false → s.stu.queue = [] →
        s.stu.immediate = none → units ≠ s.stu.periodUnits →
        exec (.stuPeriodWrite (units.setWidth 64)) s = .next (s.onStu fun u => { u with
          queue := [{ kind := .period units, apply := u.stitch + 8 }], annSent := true, held := none })) ∧
      (51 ≤ units.toNat → bit s.stu.ctrl 2 = true → role s = 0 → s.stu.annSent = true → s.stu.queue = [] →
        s.stu.immediate = none → units ≠ s.stu.periodUnits →
        exec (.stuPeriodWrite (units.setWidth 64)) s = .next (s.onStu fun u => { u with held := some units }))) ∧
    (∀ units : BitVec 24, role s = 1 ∨ role s = 3 → exec (.stuPeriodWrite (units.setWidth 64)) s = .next
      (if units = s.stu.periodUnits then s else violate 0 0x02 s)) ∧
    ∀ k : BitVec 6, exec (.sysFactor (k.setWidth 64 <<< 16)) s = .next (s.onStu fun u => { u with sysFactor := k })

/-- The start barrier (R29, R30): a child's READY counts once for each port, the last one standing, and the aggregate goes up
when it changes; a READY of a seventeenth tag, or one whose start has passed, is discarded; GO and MISS before the start stitch
mark the entries armed with the barrier, go down the tree and free its state, and later ones are ignored; the master decides
every tag 8 stitches ahead, GO where the summed count is the expected one and not 0; at the start stitch the entries still
without GO are withdrawn and the tags are free. -/
def Obligations.StartBarrier : Prop :=
  ∀ s : State, s.flt.mode ≠ 2 →
    let down (u : State) : Bool := if role u = 2 then u.stu.sendsAlt else u.stu.tree
    let outcome (tag : BitVec 16) (start : Stitch) (go : Bool) (u : State) : State :=
      ((sendDown (down u) (if go then .go tag start else .miss tag start) u).onWork fun w => { w with
        entries := w.entries.map fun e => if e.barrier = some tag ∧ e.first = start then
          (if go then { e with go := true } else { e with missed := true }) else e }).onStu fun x => { x with
            barriers := x.barriers.filter fun b => !(b.tag == tag && b.start == start) }
    (∀ (p : PortId) (m : ReadyMsg),
      (s.sea.tree.getLsbD (4 + p.val) = true → before s.stu.stitch m.start = true →
        (barrierOf s m.tag m.start).isSome ∨ s.stu.barriers.length < 16 →
        let new : Barrier := { tag := m.tag, start := m.start, own := none, children := [], sent := none, outcome := none }
        let old := (barrierOf s m.tag m.start).getD new
        let c : ChildCount := { port := p, expected := m.expected, count := m.count }
        let b := { old with children := (old.children.filter fun x => x.port != p) ++ [c] }
        let sum := barrierSum b
        ∃ t, exec (.ready p m) s = .next t ∧
          barrierOf t m.tag m.start = some { b with sent := some sum } ∧
          (∀ tag start, tag ≠ m.tag ∨ start ≠ m.start → barrierOf t tag start = barrierOf s tag start) ∧
          t = (if old.sent = some sum then s
            else sendUp (.ready { tag := m.tag, start := m.start, expected := sum.1, count := sum.2 }) s).onStu fun u =>
              { u with barriers := t.stu.barriers }) ∧
      (before s.stu.stitch m.start = false ∨ ((barrierOf s m.tag m.start).isNone ∧ 16 ≤ s.stu.barriers.length) →
        exec (.ready p m) s = .next s)) ∧
    (∀ (p : PortId) (tag : BitVec 16) (start : Stitch), role s = 1 ∨ role s = 3 →
      (before s.stu.stitch start = true →
        exec (.go p tag start) s = .next (outcome tag start true s) ∧
        exec (.miss p tag start) s = .next (outcome tag start false s)) ∧
      (before s.stu.stitch start = false → exec (.go p tag start) s = .next s ∧ exec (.miss p tag start) s = .next s)) ∧
    (s.stu.pos < 96 →
      (role s = 0 ∨ role s = 2 → exec .barrierCheck s = .next
        ((s.stu.barriers.filter fun b => b.start == s.stu.stitch + 8).foldl (fun u b => outcome b.tag b.start
          (decide ((barrierSum b).1 = (barrierSum b).2 ∧ (barrierSum b).1 ≠ 0)) u) s)) ∧
      exec .barrierTimeout s = .next (((s.work.entries.filter fun e =>
          e.barrier.isSome && !e.go && !before s.stu.stitch e.first).foldl (fun u e =>
            withdraw 0x32 (e.barrier.getD 0).toNat (e.first.toNat % 2 ^ 32) e (undispatch e u)) s).onStu fun u => { u with
        barriers := u.barriers.filter fun b => before u.stitch b.start }))

/-- STITCH_BOUNDARY: the stitch ends in the time base where the last marker's correction puts the boundary, what is less than a
cycle being kept; in a unit that counts, the stitch counter and the ages of the contexts in use go up by one; a period written
before the unit counted is in force; and everything of the boundary follows in that state. None is marked during a power-on.
PHASE_LEDGER_RECORD closes a serving context's record of 65,536 stitches: a new record opens, and with its ring on the record is
written to the ring's next entry and its event posted. -/
def Obligations.BoundaryAndPhaseRecord : Prop :=
  (∀ s : State, (s.flt.phase = .powerOn → exec .stitchBoundary s = .next s) ∧
    (s.flt.phase ≠ .powerOn →
      let u := countReasons (chargePhases s)
      let ps : Int := 1000 * ((s.stu.length - s.stu.pos : Nat) : Int) + s.stu.phasePs + s.stu.correctionPs
      let rest := (ps / 1000).toNat
      let on : Bool := bit s.stu.ctrl 2 && !s.stu.acquiring
      let follower : Bool := on && s.stu.counting && decide (role s = 1 ∨ role s = 3)
      let ended := (u.setNs (s.ns + rest)).onStu fun x => { x with
        cycle := s.stu.cycle + BitVec.ofNat 48 rest, pos := 0, marks := s.stu.marks + 1
        correctionPs := 0, phasePs := (ps % 1000).toNat
        stitch := if on && s.stu.counting then s.stu.stitch + 1 else s.stu.stitch, counting := s.stu.counting || on
        annSent := false, stretchSent := false, factorAge := s.stu.factorAge + 1, markerSeen := false, primarySeen := false
        missed := if follower && !s.stu.markerSeen then BitVec.ofNat 7 (min 127 (s.stu.missed.toNat + 1)) else s.stu.missed
        primaryMissed := if s.stu.primarySeen then 0 else if follower then s.stu.primaryMissed + 1 else s.stu.primaryMissed
        length := 4 * s.stu.periodUnits.toNat * s.stu.curFactor.toNat }
      let opened := applyImmediate (if s.stu.counting || on then ended.onHif fun h => { h with
        ctxs := h.ctxs.map fun c => if c.state = .free then c else { c with age := c.age + 1 } } else ended)
      let served := if s.flt.resetting = true ∨ s.flt.mode = 2 then boundaryHeld opened else boundaryService opened
      exec .stitchBoundary s = .next (logSeconds (panelClocks (if served.flt.mode = 2 then served else boundaryMessages served))))) ∧
  (∀ s : State, (s.stu.immediate = none → applyImmediate s = s) ∧
    ∀ units, s.stu.immediate = some units →
      (applyImmediate s).stu.periodUnits = units ∧ (applyImmediate s).stu.immediate = none ∧
      (applyImmediate s).stu.length = 4 * units.toNat * s.stu.curFactor.toNat) ∧
  ∀ (s : State) (n : Ctx), (s.ctx n.val).serving = true → (s.ctx n.val).state ≠ .free →
    65536 ≤ (s.stu.phase[n]).stitchCount.toNat →
    let r := s.stu.phase[n]
    let t := closeSteps n.val r.step s
    let cfg := t.stu.ledgerCfg[n]
    let e := t.stu.ledgerNext[n].toNat % 2 ^ ledgerLog2 cfg
    exec (.phaseLedgerRecord n) s = .next (if bit cfg 4 = false then t.onStu fun u => { u with phase := u.phase.set n {} }
      else post n.val 0x05 [(16, leBytes 2 e), (24, leBytes 8 r.step.toNat)]
        ((t.setHostMem (Mem.write t.hostMem (fld t.stu.ledgerBase[n] 63 12 * 4096 + 640 * e) (phaseBytes t n.val r))).onStu
          fun u => { u with phase := u.phase.set n {}, ledgerNext := u.ledgerNext.set n (u.ledgerNext[n] + 1) }))

/-- The stretch reasons (Table 1-8, R33, R407, R408): 256 stitches at or above the threshold raise a target by two, up to 32; a
panel cooled for 1,024 stitches at nominal clock has its request withdrawn, and the supply reason goes after 1,024 stitches
within every limit. A rail, the 48 V input among them, outside its operating range but inside its absolute range raises the
supply reason, as module input power over 9.6 kW does, and one inside again counts no more against the withdrawal; a rail
outside its absolute range is out of limits too, but raises no reason. -/
def Obligations.StretchReasons : Prop :=
  ∀ s : State,
    (∀ p : Panel, let k := s.thm.panels[p]
      (256 ≤ k.hot → 16 < k.targetK → exec (.thermalStepUp (.panel p)) s = .next (s.onThm fun t => { t with
        panels := t.panels.set p { k with targetK := min 32 (k.targetK + 2), hot := 0 } })) ∧
      (16 < k.targetK → k.cooled = true → 1024 ≤ k.nominal → exec (.thermalWithdraw p) s =
        .next (platformEvent 0x09 [0, BitVec.ofNat 8 p.val] (logGeneral 0x09 0 [0, BitVec.ofNat 8 p.val, 0] (s.onThm fun t =>
          { t with panels := t.panels.set p { k with targetK := 16, cooled := false, nominal := 0, hot := 0 } }))))) ∧
    (256 ≤ s.stu.hbmHot → 16 < s.stu.hbmTarget → exec (.thermalStepUp .hbm) s = .next (s.onStu fun u => { u with
      hbmTarget := min 32 (u.hbmTarget + 2), hbmHot := 0 })) ∧
    (s.thm.restarting = false → s.thm.halted = false → s.power.inputOk = true →
      let without (i : Nat) : List Nat := s.stu.supplyBad.filter fun x => x != i
      let within (i : Nat) : State := s.onStu fun u => { u with supplyBad := without i }
      let raised (i : Nat) : State :=
        let t := s.onStu fun u => { u with supply := true, supplyOk := 0, supplyBad := i :: without i }
        if s.stu.supply then t else platformEvent 0x09 [2] (logGeneral 0x09 0 [2, 0, 1] t)
      (∀ w : Nat,
        (9600 < w → exec (.supplyReason (.inputPower w)) s = .next (raised 32)) ∧
        (w ≤ 9600 → exec (.supplyReason (.inputPower w)) s = .next (within 32))) ∧
      ∀ (r : Fin 32) (mv : Nat),
        (railHeld s r.val = true ∨ railOperating s r.val mv = true →
          exec (.supplyReason (.rail r mv)) s = .next (within r.val)) ∧
        (railHeld s r.val = false → railOperating s r.val mv = false →
          (railAbsolute s r.val mv = 0 → exec (.supplyReason (.rail r mv)) s = .next (raised r.val)) ∧
          (railAbsolute s r.val mv ≠ 0 → exec (.supplyReason (.rail r mv)) s = .next (s.onStu fun u => { u with
            supplyBad := r.val :: without r.val })))) ∧
    (s.stu.supply = true → 1024 ≤ s.stu.supplyOk → s.stu.supplyBad = [] → exec .supplyWithdraw s =
      .next (platformEvent 0x09 [2] (logGeneral 0x09 0 [2, 0, 0] (s.onStu fun u => { u with supply := false, supplyOk := 0 }))))

/-- DOORBELL_POLL (R377, R378, R384): every context's line is served in ascending order. A ring that is off, stopped or no longer
taken from is left as it is. Of a running ring, up to 32 descriptors are taken from RING_HEAD on, RING_HEAD passes each, and the
status line then shows it; a RING_TAIL more than the ring's size ahead, an unknown TYPE or a nonzero reserved byte stops the
ring with its ERR and ERR_POS. An event queue that is on takes its EVQ_HEAD, and its interrupt goes out where the line asks for
one that was not honoured and the queue holds events. -/
def Obligations.DoorbellPolls : Prop :=
  (∀ s : State, TakesWrites s → exec .doorbellPoll s =
    .next ((List.range 16).foldl (fun u n => pollOne n u) (s.onHif fun h => { h with polls := h.polls + 1 }))) ∧
  (∀ (s : State) (n : Ctx),
    let r := s.ring n.val
    let q := s.queue n.val
    let line := fld r.db 63 6 * 64
    let tail := BitVec.ofNat 32 (Mem.le s.hostMem line 4)
    let stopped (e : Nat) : State := s.onRing n.val fun r => { r with state := 2, live := false, err := e, errPos := r.head }
    (bit q.cfg 8 = false → (r.live = false ∨ r.state ≠ 1) → pollOne n.val s = s) ∧
    (bit q.cfg 8 = false → r.live = true → r.state = 1 → q.tail = q.statusTail →
      (2 ^ ringLog2 r.cfg < (tail - r.head).toNat → pollOne n.val s = stopped 1) ∧
      ((tail - r.head).toNat ≤ 2 ^ ringLog2 r.cfg →
        let t := takeDescriptors n.val tail 32 s
        pollOne n.val s = if (t.ring n.val).head = r.head then t else writeStatus n.val t)) ∧
    (bit q.cfg 8 = true → (r.live = false ∨ r.state ≠ 1) → q.tail = q.statusTail →
      let head := BitVec.ofNat 32 (Mem.le s.hostMem (line + 8) 4)
      let want := BitVec.ofNat 16 (Mem.le s.hostMem (line + 12) 2)
      let heard := s.onQueue n.val fun q => { q with headRead := head }
      pollOne n.val s = if want ≠ q.honoured ∧ q.tail ≠ head then
        (heard.emit (.msix (fld q.cfg 20 16))).onQueue n.val fun q => { q with honoured := want } else heard)) ∧
  ∀ (s : State) (n : Ctx) (tail : BitVec 32) (k : Nat),
    let r := s.ring n.val
    let pos := r.head.toNat % 2 ^ ringLog2 r.cfg
    let b := Mem.bytes s.hostMem (fld r.base 63 12 * 4096 + 64 * pos) 64
    let stopped (e : Nat) : State := s.onRing n.val fun r => { r with state := 2, live := false, err := e, errPos := r.head }
    (r.head = tail → takeDescriptors n.val tail k s = s) ∧ takeDescriptors n.val tail 0 s = s ∧
    (r.head ≠ tail → takeDescriptors n.val tail (k + 1) s = if 0x0C < leAt b 0 1 then stopped 2
      else if reservedSet b then stopped 3
      else takeDescriptors n.val tail k (s.onRing n.val fun r => { r with
        head := r.head + 1, taken := r.taken ++ [{ index := BitVec.ofNat 32 pos, bytes := b, poll := s.hif.polls }] }))

/-- NOP, LOAD_PATTERN, ARM, VOTE_MARK, DISARM, UNLOAD and FENCE as descriptors that start, with the ends of a load and of a
DISARM. Each takes just its descriptor off the ring. NOP completes; LOAD_PATTERN enters its load, or is refused for its handle
or a full table; ARM enters its run in the ledger, with its barrier and its vote, or is refused as too early, for its barrier or
vote, or by admission; VOTE_MARK marks its vote stitch or is refused; DISARM and UNLOAD wait for the boundary, where the
entries named leave with their completions and the handle is unloaded; FENCE makes an unpinned region FENCED. A load that ends
is installed and completes, or posts the refusal that its check found. -/
def Obligations.PatternDescriptors : Prop :=
  (∀ (s : State) (n : Ctx) (d : Taken) (rest : List Taken), Starts s n d rest →
    let u := taken n rest s
    let b := d.bytes
    let h := leAt b 2 2
    let asked : Bool := (leAt b 1 1).testBit 0
    let refused (reason d0 d1 : Nat) (v : State) : State := postRefusal n.val reason (leAt b 0 1) d.index.toNat h d0 d1 v
    let soon (f : Stitch) : Bool := !bit s.stu.ctrl 2 || before f (s.stu.stitch + 2)
    (leAt b 0 1 = 0 →
      exec (.descriptorNop n) s = .next (if asked then postCompletion n.val 0 0 0 d.index.toNat 0 0 [] u else u)) ∧
    (leAt b 0 1 = 1 →
      let used : Bool := (patternOf s n.val h).isSome || s.work.loads.any fun j => j.ctx.val == n.val && j.handle == h
      (64 ≤ h ∨ used = true → exec (.loadPattern n) s = .next (refused 0x20 h 0 u)) ∧
      (h < 64 → used = false →
        (256 ≤ loadedTotal s → exec (.loadPattern n) s = .next (refused 0x14 (loadedTotal s) 256 u)) ∧
        (loadedTotal s < 256 → 64 ≤ loadedCount s n.val →
          exec (.loadPattern n) s = .next (refused 0x14 (loadedCount s n.val) 64 u)) ∧
        (loadedTotal s < 256 → loadedCount s n.val < 64 →
          exec (.loadPattern n) s = .next (u.onWork fun w => { w with loads := w.loads ++ [
            { ctx := n, handle := h, ringIndex := d.index.toNat, addr := leAt b 8 8, size := leAt b 16 4
              panelMap := (slice b 24 8).map (·.toNat), bandBase := (slice b 32 8).map (·.toNat) }] })))) ∧
    (leAt b 0 1 = 2 → ¬ (h = 0xFFFF ∧ (leAt b 1 1).testBit 2 = true) →
      (patternOf u n.val h = none ∨ unloading u n.val h = true → exec (.arm n) s = .next (refused 0x20 h 0 u)) ∧
      ∀ p : Pattern, patternOf u n.val h = some p → unloading u n.val h = false →
        let first := resolveFirst u p.bands (BitVec.ofNat 40 (leAt b 8 5))
        let last : Option Stitch := if leAt b 16 4 = 0 then none else some (first + BitVec.ofNat 40 (leAt b 16 4) - 1)
        let barrier : Bool := (leAt b 1 1).testBit 1
        let vote : Bool := (leAt b 1 1).testBit 2
        let tag := BitVec.ofNat 16 (leAt b 20 2)
        let early : Bool := !bit s.stu.ctrl 2 || before first (s.stu.stitch + if barrier then 16 else 2)
        let bar := if barrier then barrierRefusal u tag first else none
        let vot := if vote then voteRefusal u n.val first else none
        let adm := admission (u.onWork fun w => { w with entries := ledgerEntries u }) p n.val (leAt b 8 5 == 0) first last
        (early = true → exec (.arm n) s = .next (refused 0x28 (first.toNat % 2 ^ 32) (s.stu.stitch.toNat % 2 ^ 32) u)) ∧
        (early = false →
          (∀ r d0 d1, bar = some (r, d0, d1) → exec (.arm n) s = .next (refused r d0 d1 u)) ∧
          (∀ r d0 d1, bar = none → vot = some (r, d0, d1) → exec (.arm n) s = .next (refused r d0 d1 u)) ∧
          (∀ r d0 d1, bar = none → vot = none → adm = some (r, d0, d1) → exec (.arm n) s = .next (refused r d0 d1 u)) ∧
          (bar = none → vot = none → adm = none →
            let entered := u.onWork fun w => { w with order := w.order + 1, entries := w.entries ++ [
              { ctx := n, handle := h, order := w.order, first := first, last := last
                notify := if asked then some d.index.toNat else none, barrier := if barrier then some tag else none
                go := false, missed := false, bands := p.bands, ran := none }] }
            let counted := if barrier then armBarrier tag (BitVec.ofNat 16 (leAt b 22 2)) first entered else entered
            exec (.arm n) s =
              .next (if vote then counted.onTrain n.val fun t => { t with voteStitch := some first } else counted)))) ∧
    (leAt b 0 1 = 2 → h = 0xFFFF → (leAt b 1 1).testBit 2 = true →
      let f : Stitch := BitVec.ofNat 40 (leAt b 8 5)
      let v := if f = 0 then s.stu.stitch + 2 else f
      let marked := u.onTrain n.val fun t => { t with voteStitch := some v }
      let early : Bool := soon v || ((s.train n.val).reslicing && !(s.train n.val).rebuildRead)
      (early = true → exec (.voteMark n) s = .next (refused 0x28 (v.toNat % 2 ^ 32) (s.stu.stitch.toNat % 2 ^ 32) u)) ∧
      (early = false →
        ((s.train n.val).voteStitch = none → exec (.voteMark n) s = .next (if asked then marked.onWork fun w => { w with
          voteNotifies := w.voteNotifies ++ [{ ctx := n, ringIndex := d.index.toNat, stitch := v }] } else marked)) ∧
        ∀ x, (s.train n.val).voteStitch = some x → exec (.voteMark n) s =
          .next (refused 0x29 (fld (s.train n.val).vote 15 0) (x.toNat % 2 ^ 32) u))) ∧
    (leAt b 0 1 = 3 → patternOf s n.val h = none →
      ((leAt b 1 1).testBit 2 = false → exec (.disarm n) s = .next (refused 0x20 h 0 u)) ∧
      ((leAt b 1 1).testBit 2 = true → exec (.unload n) s = .next (refused 0x20 h 0 u))) ∧
    (leAt b 0 1 = 3 → (patternOf s n.val h).isSome →
      let all : Bool := (leAt b 1 1).testBit 1
      let p : PendingDisarm := {
        ctx := n, handle := h, ringIndex := d.index.toNat, notify := asked
        first := if all then none else some (BitVec.ofNat 40 (leAt b 8 5)), unload := false, none_ := false
        read := s.stu.marks, order := s.work.order }
      let mine := s.work.entries.filter fun e => e.ctx.val == n.val && e.handle == h
      let misses : Bool := !all && !mine.any (disarms p)
      let stays : Bool := mine.any fun e => !disarms p e && !s.work.disarms.any fun q => disarms q e
      let read (unload : Bool) : State := u.onWork fun w => { w with
        disarms := w.disarms ++ [{ p with none_ := misses, unload := unload }] }
      ((leAt b 1 1).testBit 2 = false → exec (.disarm n) s = .next (read false)) ∧
      ((leAt b 1 1).testBit 2 = true → exec (.unload n) s =
        .next (if misses then read false else if stays then refused 0x20 h 0 (read false) else read true))) ∧
    (leAt b 0 1 = 0x0C →
      (boltRegionOf s n.val (leAt b 8 1) = none → exec (.fence n) s = .next (refused 0x26 0xFFFFFFFF (leAt b 8 1) u)) ∧
      ∀ (k : Nat) (x : BoltRegion), boltRegionOf s n.val (leAt b 8 1) = some (k, x) →
        (pinned s x = false → exec (.fence n) s = .next ((onRegion k (fun x => { x with state := .fenced, filling := false }) u).onWork
          fun w => { w with fences := w.fences ++ [{ ctx := n, ringIndex := d.index.toNat, notify := asked }] })) ∧
        (pinned s x = true → exec (.fence n) s = .next (refused 0x26 0xFFFFFFFF k u)))) ∧
  (∀ (s : State) (bands : List Nat) (f : Stitch), (f ≠ 0 → resolveFirst s bands f = f) ∧
    ((∀ e ∈ s.work.entries, ∀ g ∈ e.bands, g ∉ bands) → resolveFirst s bands 0 = s.stu.stitch + 2)) ∧
  (∀ (s : State) (n : Ctx) (j : LoadJob), s.work.loads.find? (fun j => j.ctx.val == n.val) = some j → ∀ ok : Bool,
    exec (.patternLoaded n ok) s = .next (match checkLoad s j (Mem.bytes s.hostMem j.addr j.size) ok with
      | .error (reason, d0, d1) => postRefusal n.val reason 1 j.ringIndex j.handle d0 d1 (dropLoad j s)
      | .ok (p, copies, fills) =>
        postCompletion n.val 1 0 0 j.ringIndex j.handle 0 [] (installPattern p copies fills (dropLoad j s)))) ∧
  (∀ (s : State) (j : LoadJob) (b : List Byte), checkLoad s j b false = .error (1, 0, 0)) ∧
  (∀ s : State, exec .disarmEffect s =
    .next ((s.work.disarms.filter fun p => decide (p.read < s.stu.marks)).foldl (fun u p => applyDisarm p u) s)) ∧
  ∀ (s : State) (p : PendingDisarm),
    let left := (s.work.entries.filter (disarms p)).foldl (fun u e =>
      let gone := (undispatch e u).onWork fun w => { w with entries := w.entries.filter fun x => x.order != e.order }
      match e.notify, e.ran with
      | some i, some r => postCompletion e.ctx.val 2 0 2 i e.handle r [] gone
      | some i, none => postCompletion e.ctx.val 2 0 6 i e.handle 0 [] gone
      | none, _ => gone) s
    let done := left.onWork fun w => { w with disarms := w.disarms.erase p }
    let free := if p.unload then unloadPattern p.ctx.val p.handle done else done
    applyDisarm p s = if p.notify then postCompletion p.ctx.val 3 0 0 p.ringIndex p.handle 0 [] free else free

/-- The transfers COPY_IN and COPY_OUT, LOAD_BUNDLE, CKPT_SHARD and RESTORE_SHARD (R335, R340, R348, R372, R379, R380): a
descriptor that starts opens one transfer, or completes with the status of what it lacks, or is refused for a pinned region; the
end of a transfer moves its bytes, closes it and completes the descriptor, and an error on its port ends it with PORT and
nothing moved. A copy's bytes outside its region count one violation and do not move, and a narrow copy to the bolt writes
nothing (R146). -/
def Obligations.Transfers : Prop :=
  (∀ (s : State) (n : Ctx) (d : Taken) (rest : List Taken), Starts s n d rest →
    let u := taken n rest s
    let b := d.bytes
    let asked : Bool := (leAt b 1 1).testBit 0
    let opens (notify : Bool) (k : TransferKind) (v : State) : State := v.onWork fun w => { w with
      nextTransfer := w.nextTransfer + 1
      transfers := w.transfers ++ [{ id := w.nextTransfer, ctx := n, ringIndex := d.index.toNat, notify := notify, kind := k }] }
    let fails (type status : Nat) (v : State) : State := postCompletion n.val type status 0 d.index.toNat 0 0 [] v
    let loading (k : Nat) (v : State) : State := onRegion k (fun x => if x.state = .fenced then x
      else { x with state := .loading, filling := false, stopped := false }) v
    (leAt b 0 1 = 4 → leAt b 24 1 = 0 → exec (.copyIn n) s =
      .next (opens asked (.copyIn (leAt b 8 8) (leAt b 16 8) false (leAt b 25 1) (leAt b 32 8)) u)) ∧
    (leAt b 0 1 = 4 → leAt b 24 1 = 1 →
      (boltRegionOf s n.val (leAt b 25 1) = none → exec (.copyIn n) s =
        .next (opens asked (.copyIn (leAt b 8 8) (leAt b 16 8) true (leAt b 25 1) (leAt b 32 8)) u)) ∧
      ∀ (k : Nat) (x : BoltRegion), boltRegionOf s n.val (leAt b 25 1) = some (k, x) →
        (pinned s x = false → exec (.copyIn n) s =
          .next (opens asked (.copyIn (leAt b 8 8) (leAt b 16 8) true (leAt b 25 1) (leAt b 32 8)) (loading k u))) ∧
        (pinned s x = true → exec (.copyIn n) s =
          .next (postRefusal n.val 0x26 4 d.index.toNat (leAt b 2 2) 0xFFFFFFFF k u))) ∧
    (leAt b 0 1 = 5 → leAt b 24 1 ≤ 1 → exec (.copyOut n) s =
      .next (opens asked (.copyOut (leAt b 8 8) (leAt b 16 8) (decide (leAt b 24 1 = 1)) (leAt b 25 1) (leAt b 32 8)) u)) ∧
    (leAt b 0 1 = 6 →
      ((s.ctx n.val).serving = false → ∀ ok, exec (.loadBundle n ok) s = .next (fails 6 4 u)) ∧
      ((s.ctx n.val).serving = true → exec (.loadBundle n false) s = .next (fails 6 6 u) ∧
        let portH : Bool := decide (leAt b 16 1 = 1)
        let m := if portH then u.hostMem else u.portS
        let head := Mem.bytes m (leAt b 8 8) 256
        let count := leAt head 6 2
        let dir := Mem.bytes m (leAt b 8 8 + 256) (64 * count)
        let recs := (List.range count).map fun i => slice dir (64 * i) 64
        let id : W64 := BitVec.ofNat 64 (leAt head 32 8)
        let model : BitVec 128 := BitVec.ofNat 128 (leAt head 8 16)
        ∀ key k v, leAt head 0 4 = 0x44424C4D → leAt head 4 2 = 1 → 1 ≤ count → count ≤ 80 → leAt head 24 1 = s.nPanels →
          recs.all bundleRecordOk = true → publisherKey u id = some key →
          edVerify (leBytes 32 key.toNat) (patch head 64 (List.replicate 64 0) ++ dir) (slice head 64 64) = true →
          modelHeld u model = false → recs.all (fun r => bundleRegionFits u n.val (leAt r 2 2) (bundleRegion r)) = true →
          takeSlot u (bundleBolt u n.val (recs.map bundleRegion)) = some (k, v) →
          exec (.loadBundle n true) s = .next (opens true (.bundle {
            src := leAt b 8 8, portH := portH, keyId := id, model := model, slot := k, regions := recs.map bundleRegion })
              (openBundle n.val (recs.map bundleRegion) v)))) ∧
    (leAt b 0 1 = 7 → (s.ctx n.val).serving = false →
      ((s.train n.val).reslicing = true → exec (.ckptShard n) s = .next (fails 7 3 u)) ∧
      ∀ k, shardKind (leAt b 20 1) = some k →
        let status := shardRefusal u n.val (leAt b 9 1) (readShard b k)
        exec (.ckptShard n) s = .next (if status = 0 then opens true (.shard (readShard b k)) u else fails 7 status u)) ∧
    (leAt b 0 1 = 8 → (s.ctx n.val).serving = false →
      let target := restoreTarget u n.val (leAt b 8 1) (leAt b 10 2) (Mem.le u.portS (leAt b 24 8 + 8) 1)
      let restore : Restore := {
        presser := leAt b 8 1, entry := leAt b 10 2, firstBlock := leAt b 12 4, blocks := leAt b 16 4, skip := leAt b 20 4
        src := leAt b 24 8, digest := slice b 32 32, target := target.map (·.1) }
      ((s.train n.val).reslicing = false → exec (.restoreShard n) s = .next (fails 8 3 u)) ∧
      ((s.train n.val).reslicing = true →
        (target = none → exec (.restoreShard n) s = .next (opens true (.restore restore) u)) ∧
        ∀ k x, target = some (k, x) → exec (.restoreShard n) s =
          .next (if pinned u x then fails 8 5 u else opens true (.restore restore) (loading k u))))) ∧
  ∀ (s : State) (t : Transfer), transferOf s t.id = some t →
    let n := t.ctx.val
    let closed (u : State) : State := u.onWork fun w => { w with transfers := w.transfers.filter fun x => x.id != t.id }
    let gone := closed s
    let fin (type status : Nat) (v : State) : State :=
      if t.notify then postCompletion n type status 0 t.ringIndex 0 0 [] v else v
    let done (type status : Nat) (v : State) : State := postCompletion n type status 0 t.ringIndex 0 0 [] v
    (∀ a len bolt region off, t.kind = .copyIn a len bolt region off →
      let met := meetQueues .portH gone
      let k := copyInside met n bolt region off len
      let seen := if k < len then violate n 0x01 met else met
      exec (.copyDone t.id false) s = .next (fin 4 6 gone) ∧
      (bolt = true → off % 32 ≠ 0 ∨ len % 32 ≠ 0 → exec (.copyDone t.id true) s = .next (fin 4 0 (violate n 0x06 gone))) ∧
      (k = 0 → bolt = false ∨ (off % 32 = 0 ∧ len % 32 = 0) → exec (.copyDone t.id true) s = .next (fin 4 0 seen)) ∧
      (0 < k → bolt = false → ∀ r, hbmRegion seen n region = some r → exec (.copyDone t.id true) s = .next (fin 4 0
        (unverifyBytes n region off k (writeRegion n r off (Mem.bytes seen.hostMem a k) seen)))) ∧
      (0 < k → bolt = true → off % 32 = 0 → len % 32 = 0 → ∀ i x, boltRegionOf seen n region = some (i, x) →
        exec (.copyDone t.id true) s = .next (fin 4 0 (loadBytes i off (Mem.bytes seen.hostMem a k) seen)))) ∧
    (∀ a len bolt region off, t.kind = .copyOut a len bolt region off →
      let met := meetQueues .portH gone
      let seen := if copyInside met n bolt region off len < len then violate n 0x01 met else met
      let read := copyOutFinds n bolt region off len seen
      exec (.copyDone t.id false) s = .next (fin 5 6 gone) ∧
      exec (.copyDone t.id true) s =
        .next (fin 5 0 (read.setHostMem (Mem.write read.hostMem a (copyOutData read n bolt region off len))))) ∧
    (∀ h, t.kind = .shard h → h.captured = none →
      let met := meetQueues .portS s
      let read := shardFinds n h met
      (shardData met n h = none → exec (.captureEnd t.id) s = .next (done 7 2 (closed met))) ∧
      ∀ data e, shardData met n h = some data → shardEntry read n h = some e → h.kind = .masters →
        let kept := read.onWork fun w => { w with transfers := w.transfers.map fun x => if x.id = t.id then { x with kind := .shard {
          h with header := shardHeader read n h 0 (64 * h.blocks) data.length, data := data, captured := some read.stu.stitch } } else x }
        (h.snap = 0xF → exec (.captureEnd t.id) s = .next kept) ∧
        ∀ r, h.snap ≠ 0xF → hbmRegion met n h.snap = some r → hbmRegion kept n h.snap = some r → exec (.captureEnd t.id) s =
          .next (unverifyBytes n h.snap (64 * h.snapLine) data.length (writeRegion n r (64 * h.snapLine) data kept))) ∧
    (∀ h at_, t.kind = .shard h → h.captured = some at_ →
      let met := meetQueues .portS s
      let b := h.header ++ drainData met n h
      exec (.shardDrained t.id false) s = .next (done 7 6 (closed met)) ∧
      (h.snap = 0xF ∨ hbmRegion met n h.snap = none →
        exec (.shardDrained t.id true) s = .next (postCompletion n 7 0 0 t.ringIndex 0 at_ (sha256 b)
          ((closed met).setPortS (Mem.write met.portS h.dest (b ++ sha256 b))))) ∧
      ∀ r, h.snap ≠ 0xF → hbmRegion met n h.snap = some r →
        let read := readFinds n r (64 * h.snapLine) h.data.length (closed met)
        exec (.shardDrained t.id true) s = .next (postCompletion n 7 0 0 t.ringIndex 0 at_ (sha256 b)
          (read.setPortS (Mem.write read.portS h.dest (b ++ sha256 b))))) ∧
    (∀ r, t.kind = .restore r →
      let met := closed (meetQueues .portS s)
      let b := Mem.bytes met.portS r.src 256
      let size := (headerData b).getD (leAt b 128 8)
      let data := Mem.bytes met.portS (r.src + 256) size
      let status := restoreStatus met n r b data (Mem.bytes met.portS (r.src + 256 + size) 32)
      exec (.restoreDone t.id false) s = .next (done 8 6 (if (met.train n).reslicing then poison n met else met)) ∧
      ((met.train n).reslicing = false →
        exec (.restoreDone t.id true) s = .next (postCompletion n 8 3 0 t.ringIndex 0 0 (sha256 (b ++ data)) met)) ∧
      ((met.train n).reslicing = true →
        (status ≠ 0 → exec (.restoreDone t.id true) s =
          .next (postCompletion n 8 status 0 t.ringIndex 0 0 (sha256 (b ++ data)) (poison n met))) ∧
        (status = 0 → exec (.restoreDone t.id true) s = .next (postCompletion n 8 0
          (if leAt b 136 8 = (fwId met).toNat then 0 else 1) t.ringIndex 0 0 (sha256 (b ++ data)) (restoreData n r b data met))))) ∧
    ∀ x, t.kind = .bundle x →
      let met := closed (meetQueues .portS s)
      let good : Bool := x.regions.all (digestGood met x)
      let read := (streamed met x true).foldl (streamRegion n x) met
      exec (.bundleDone t.id false) s = .next (done 6 6 (x.regions.foldl (spoilBundle n) met)) ∧
      (good = false → exec (.bundleDone t.id true) s = .next (done 6 9 (x.regions.foldl (spoilBundle n) read))) ∧
      (good = true → exec (.bundleDone t.id true) s = .next (done 6 0
        ((x.regions.foldl (finishRegion n x) read).onBolt fun y => { y with slots := vMod y.slots x.slot fun _ => {
          valid := true, id := x.model, regions := bundleBolt read n x.regions
          stamp := (x.regions.foldl (finishRegion n x) read).stu.stitch } })))

/-- BEGIN and REBUILD, their boundary and their end (R307 to R309, R312; Table 11-3, Table 11-4): a BEGIN is refused for its epoch,
for a lead under 16 stitches and for another BEGIN or a re-slice vote that waits, in that order, else it waits for its boundary;
at N_a the pending vote takes its verdict, or a forced BEGIN cancels it as a ROLLBACK without a commit stitch; then the new epoch,
rank and members are in force, the sequences start over, RESLICING is set, entries of another epoch are withdrawn, the pressers
start a step and the alteration-done event is posted. A REBUILD outside RESLICING is refused; another starts the copies of the new
layout, and completes once no copy waits. -/
def Obligations.AlterationDescriptors : Prop :=
  ∀ (s : State) (n : Ctx) (d : Taken) (rest : List Taken),
    let u := taken n rest s
    let b := d.bytes
    let asked : Bool := (leAt b 1 1).testBit 0
    let epoch : Nat := leAt b 14 2
    let at_ : Stitch := BitVec.ofNat 40 (leAt b 9 5)
    let old := (s.train n.val).current
    let refused (reason d0 d1 : Nat) : State := postRefusal n.val reason 9 d.index.toNat (leAt b 2 2) d0 d1 u
    let soon : Bool := before at_ (s.stu.stitch + 16)
    let busy : Prop := (s.train n.val).begin.isSome ∨ ((s.train n.val).reslicing = true ∧ (s.train n.val).voteStitch.isSome)
    (Starts s n d rest → leAt b 0 1 = 9 → (s.ctx n.val).serving = false →
      (leAt b 8 1 = 0 →
        (epoch = 0 ∨ epoch = old.toNat → exec (.begin n) s = .next (refused 0x33 epoch old.toNat)) ∧
        (epoch ≠ 0 → epoch ≠ old.toNat → soon = true →
          exec (.begin n) s = .next (refused 0x28 (at_.toNat % 2 ^ 32) (s.stu.stitch.toNat % 2 ^ 32))) ∧
        (epoch ≠ 0 → epoch ≠ old.toNat → soon = false → busy → exec (.begin n) s = .next (refused 0x2A n.val 0)) ∧
        (epoch ≠ 0 → epoch ≠ old.toNat → soon = false → ¬ busy →
          exec (.begin n) s = .next (u.onTrain n.val fun t => { t with begin := some {
            applyAt := at_, newEpoch := BitVec.ofNat 16 epoch, newRank := BitVec.ofNat 16 (leAt b 16 2)
            newMembers := BitVec.ofNat 16 (leAt b 18 2), newMirrorRank := BitVec.ofNat 16 (leAt b 20 2)
            forced := (leAt b 1 1).testBit 1, notify := asked, ringIndex := d.index.toNat } }))) ∧
      (leAt b 8 1 ≠ 0 → leAt b 8 1 ≠ 1 → exec (.begin n) s = .next (refused 0x20 0xFFFF 0)) ∧
      (leAt b 8 1 = 1 → (s.train n.val).reslicing = false → exec (.rebuild n) s = .next (refused 0x20 0xFFFF 0)) ∧
      (leAt b 8 1 = 1 → (s.train n.val).reslicing = true →
        let bare := u.each (pressersOf u n.val) fun s k => s.onPresser k fun p => { p with staging := [] }
        exec (.rebuild n) s = .next (rebuildCopies n.val ((meetQueues .presser bare).onTrain n.val fun t => { t with
          rebuildRead := true, rebuild := some { notify := asked, ringIndex := d.index.toNat, complete := false } })))) ∧
    (∀ p : PendingBegin, (s.train n.val).begin = some p → beginDue s n.val p = true →
      let t := s.train n.val
      let cancels : Prop := p.forced = true ∧ ∀ v, t.voteStitch = some v → before p.applyAt (commitAt s n.val v) = true
      let applied (w : State) : State :=
        let x := ((w.onTrain n.val fun t => { t with
          oldEpoch := t.current, current := p.newEpoch, reslicing := true, rebuildRead := false, rebuild := none, begin := none
          vote := putFld (putFld t.vote 63 48 p.newMirrorRank.toNat) 31 16 p.newMembers.toNat }).onColCtx n.val fun c =>
            { c with seq := Vector.replicate 6 0, largest := Vector.replicate 6 none }).onCtx n.val fun c =>
              { c with rank := putFld c.rank 15 0 p.newRank.toNat }
        let x := if liningCtx x = some n.val then x.onLin fun l => { l with lastEpoch := p.newEpoch } else x
        let x := withdrawEpoch n.val x
        let x := x.each (pressersOf x n.val) fun s k => resetStep k s
        complete n.val 9 p.notify p.ringIndex 0 (alterationDone n.val 0 (x.train n.val).oldEpoch (x.train n.val).current x)
      (cancels → exec (.beginApply n) s = .next (applied ((applyVerdict n.val .rollback s).onTrain n.val fun u => { u with
        cancelled := t.cancelled ++ t.voteStitch.toList, lastCommit := t.lastCommit, everCommitted := t.everCommitted }))) ∧
      (¬ cancels → t.voteStitch = none → exec (.beginApply n) s = .next (applied s)) ∧
      ∀ v, ¬ cancels → t.voteStitch = some v →
        (t.verdict = none → exec (.beginApply n) s = .next s) ∧
        ∀ x, t.verdict = some x → exec (.beginApply n) s = .next (applied (applyVerdict n.val x s))) ∧
    ∀ r, (s.train n.val).rebuild = some r → r.complete = false →
      let waiting : Prop := ∃ k ∈ pressersOf s n.val, (s.presser k).staging ≠ [] ∨ stageWaits s k = true
      (waiting → exec (.rebuildDone n) s = .next s) ∧
      (¬ waiting → exec (.rebuildDone n) s = .next (complete n.val 9 r.notify r.ringIndex 0
        (s.onTrain n.val fun t => { t with rebuild := some { r with complete := true } })))

/-- The vote of a step (R212, R213, Table 7-11): in its vote stitch a context latches its pressers and gives one local vote, none
as an observer; a child's vote replaces its last one; each changed aggregate goes up; the device that leads decides by the count,
FAIL and SKIP, holds VERDICT for the commit stitch and sends it down, as a device that follows passes it on; a member without it
at the commit stitch declares a device fault; there COMMIT counts a step and an update, SKIP a step and a skip, ROLLBACK neither,
and an image that waited comes into force. -/
def Obligations.VotesAndVerdicts : Prop :=
  ∀ (s : State) (n : Ctx) (v : Stitch), s.flt.mode ≠ 2 →
    (activeTraining s n.val = true → s.flt.resetting = false → (s.train n.val).voteStitch = some v →
      before s.stu.stitch v = false → (s.train n.val).votedStitch ≠ some v →
      let u := (s.each (pressersOf s n.val) (voteLatch n.val)).onTrain n.val fun t => { t with votedStitch := some v }
      let flags := (pressersOf u n.val).foldl (fun f k => f ||| (u.presser k).flags) (0 : BitVec 11)
      let own : VoteMsg := {
        tag := voteTag u n.val, voteStitch := v, members := BitVec.ofNat 16 (fld (u.train n.val).vote 31 16), count := 1
        skip := flags.getLsbD 0
        fail := flags &&& 0x3F8 != 0 || (u.train n.val).poisoned ||
          ((u.train n.val).reslicing && !(u.train n.val).rebuild.any (·.complete)) }
      let mine (x : VoteState) : VoteState := { x with own := some (match x.own with
        | some o => combineVotes x.voteStitch [o, own] own.tag
        | none => own) }
      (observer u n.val = true → exec (.voteForm n) s = .next u) ∧
      (observer u n.val = false → voteOf u own.tag = none → exec (.voteForm n) s = .next (pushVote own.tag
        (u.onPrs fun p => { p with votes := p.votes ++ [{
          tag := own.tag, voteStitch := v, own := some own, children := [], sent := none }] }))) ∧
      (observer u n.val = false → (voteOf u own.tag).isSome → exec (.voteForm n) s = .next (pushVote own.tag
        (u.onPrs fun p => { p with votes := p.votes.map fun x => if x.tag = own.tag then mine x else x })))) ∧
    ((s.train n.val).voteStitch = some v → (s.train n.val).votedStitch = some v → exec (.voteForm n) s = .next s) ∧
    (∀ (p : PortId) (m : VoteMsg), (treeChildren s false).contains p.val = true → voteCancelled s m.tag m.voteStitch = false →
      (voteOf s m.tag = none → exec (.vote p m) s = .next (pushVote m.tag (s.onPrs fun x => { x with votes := x.votes ++ [
        { tag := m.tag, voteStitch := m.voteStitch, own := none, children := [(p, m)], sent := none }] }))) ∧
      ((voteOf s m.tag).isSome → exec (.vote p m) s = .next (pushVote m.tag (s.onPrs fun x => { x with votes :=
        (x.votes.map fun w => if w.tag = m.tag then
          { w with children := w.children.filter (fun c => c.1 != p) ++ [(p, m)] } else w) })))) ∧
    (∀ (tag : BitVec 16) (x : VoteState), voteOf s tag = some x →
      pushVote tag s = (if x.sent = some (aggregate x) then s else sendUp (.vote (aggregate x)) (s.onPrs fun p => { p with votes :=
        (p.votes.map fun w => if w.tag = tag then { w with sent := some (aggregate x) } else w) })) ∧
      (leads s = true → decisionDue s x = true →
        let a := aggregate x
        let verdict : Verdict := if a.count = a.members ∧ a.members ≠ 0 then
          (if a.fail then .rollback else if a.skip then .skip else .commit) else .rollback
        let m : VerdictMsg := { tag := tag, voteStitch := x.voteStitch, verdict := verdict, step := verdictStep s tag }
        exec (.verdictDecision tag) s =
          .next (dropVote tag (holdVerdict m (sendDown (downTree s) (.verdict m) s.drew))))) ∧
    (∀ (p : PortId) (m : VerdictMsg), role s = 1 ∨ role s = 3 → voteCancelled s m.tag m.voteStitch = false →
      exec (.verdict p m) s = .next (dropVote m.tag (holdVerdict m (sendDown (downTree s) (.verdict m) s)))) ∧
    (∀ m : VerdictMsg, training s n.val = true → voteTag s n.val = m.tag → (s.train n.val).voteStitch = some m.voteStitch →
      n ≠ 0 → ((holdVerdict m s).train n.val).verdict = some m.verdict) ∧
    (commitDue s n.val = true → (s.train n.val).voteStitch = some v →
      ((s.train n.val).verdict = none → exec (.verdictMissing n) s =
        .next (declareFault (alignmentRec s 4 4 v.toNat) (s.onTrain n.val fun t => { t with voteStitch := none }))) ∧
      ∀ x : Verdict, (s.train n.val).verdict = some x → ∃ t, exec (.commitStitch n) s = .next t ∧
        let y := if x = .commit ∧ stagingWhole s n.val = false then .rollback else x
        let counts : Bool := !(s.train n.val).reslicing
        (t.train n.val).voteStitch = none ∧ (t.train n.val).verdict = none ∧ (t.train n.val).staged = none ∧
        (t.train n.val).step = (s.train n.val).step + (if counts ∧ y ≠ .rollback then 1 else 0) ∧
        (t.train n.val).updates = (s.train n.val).updates + (if counts ∧ y = .commit then 1 else 0) ∧
        (t.train n.val).skips = (s.train n.val).skips + (if counts ∧ y = .skip then 1 else 0) ∧
        (t.train n.val).lastCommit = s.stu.stitch ∧ ∀ i, (s.train n.val).staged = some i → (t.train n.val).image = some i)

/-- The records that pressers take (R199, R200, R203, R210, R211, R320, R321): each outcome of Table 7-4 for an own record, which
waits when the stitch's slots are used up; norm records, which in held mode release the held records; the partial norm; mirror
records, whose failures set MIRROR_STALE; and refill packets, whose lines go to the committed view of the mirror; at presser k bound
to an ACTIVE context n. -/
def Obligations.PresserRecords : Prop :=
  ∀ (s : State) (k : Panel) (n : Nat), s.flt.resetting = false → s.flt.mode ≠ 2 → presserLive s k.val = some n →
    let p := s.presser k.val
    let m := meetQueues .presser s
    let stale (u : State) : State := u.onPresser k.val fun p => { p with stale := satInc p.stale 1 }
    let flagged (i : Nat) (u : State) : State := u.onPresser k.val fun p => { p with flags := p.flags ||| (1 <<< i) }
    let forward (b : List Byte) (u : State) : State := if (u.presser k.val).bind.getLsbD 1 then
      u.onPresser k.val fun p => { p with mirrorOut := p.mirrorOut ++ [b] } else u
    (∀ (r : Nat) (b : List Byte), nextRecord p = some (r, b) →
      let u := m.onPresser k.val fun p => { p with nextTake := r + 1 }
      let failed (i : Nat) : State := forward b (markTaken k.val false (leAt b 0 4) (flagged i u))
      (leAt b 4 1 ≠ 2 → slotsMissing s k.val n false b = true → exec (.inboxRecord k) s = .next s) ∧
      (leAt b 4 1 ≠ 2 → slotsMissing s k.val n false b = false → exec (.inboxRecord k) s = .next
        (match checkRecord u k.val n false b with
        | .stale => stale u
        | .noEntry => forward b (violate n 0x0E u)
        | .crc => failed 4
        | .count => failed 5
        | .duplicate => failed 6
        | .nonFinite => failed 0
        | .apply => forward b (markTaken k.val false (leAt b 0 4) (acceptRecord k.val n false b u)))) ∧
      (leAt b 4 1 = 2 →
        let sum : W32 := BitVec.ofNat 32 (leAt b 8 4)
        let x := (u.onPresser k.val fun p => { p with normTaken := true }).onTrain n fun t => { t with shadowLagged := some sum }
        (leAt b 6 2 ≠ (u.train n).step.toNat % 65536 → exec (.normRecord k) s = .next (stale u)) ∧
        (leAt b 6 2 = (u.train n).step.toNat % 65536 → (u.presser k.val).normTaken = true →
          exec (.normRecord k) s = .next (flagged 6 u)) ∧
        (leAt b 6 2 = (u.train n).step.toNat % 65536 → (u.presser k.val).normTaken = false →
          ((∀ img, (u.train n).image = some img → img.held = false) → exec (.normRecord k) s = .next x) ∧
          ∀ img, (u.train n).image = some img → img.held = true → exec (.normRecord k) s =
            .next (applyHeld k.val n (x.onTrain n fun t => { t with clipf := clipFactor img.clipMax sum }))))) ∧
    (partialDue s k.val n = true →
      let q := m.presser k.val
      let out : W32 := if q.normNan then 0x7FC00000 else (partialNorm q.normAcc).1
      let x := if (partialNorm q.normAcc).2 = true ∧ q.normNan = false then presserSat k.val 1 m else m
      exec (.normPartial k) s = .next (writeView k.val n (fld q.reserve 43 40) false (64 * fld q.bind 63 40)
        (slice (leBytes 4 out.toNat) 0 64) (x.onPresser k.val fun p => { p with normWritten := true }))) ∧
    (∀ (b : List Byte) (rest : List (List Byte)), p.mirrorIn = b :: rest →
      let off (u : State) : State := u.onPresser k.val fun p => { p with mirrorIn := rest }
      let u := off m
      let seen := markTaken k.val true (leAt b 0 4) u
      (mirrorOn s k.val = false ∨ s.lin.state = .carrying → exec (.mirrorRecord k) s = .next (off s)) ∧
      (mirrorOn s k.val = true → s.lin.state ≠ .carrying → slotsMissing s k.val n true b = true →
        exec (.mirrorRecord k) s = .next s) ∧
      (mirrorOn s k.val = true → s.lin.state ≠ .carrying → slotsMissing s k.val n true b = false →
        exec (.mirrorRecord k) s = .next (match checkRecord u k.val n true b with
        | .stale => stale u
        | .noEntry => markStale k.val (violate n 0x0E u)
        | .apply =>
          if u.lin.receiving = true ∧ u.lin.refillPending = true then seen
          else if u.lin.receiving = true ∧ leAt b 0 4 ∉ (u.presser k.val).refilled then markStale k.val seen
          else acceptRecord k.val n true b seen
        | _ => markStale k.val seen))) ∧
    (∀ q : Packet, refillFirst s n k.val 3 = some q →
      let u := dropRefill q m
      let block := refillField q 0 4
      let late : Prop := u.lin.receiving = false ∨ u.lin.refillPending = true ∨
        refillField q 6 2 ≠ (u.train n).step.toNat % 65536
      (refillOk q = false → exec (.refillBlock k) s = .next (markStale k.val u)) ∧
      (refillOk q = true → late → exec (.refillBlock k) s = .next (stale u)) ∧
      (refillOk q = true → ¬ late →
        (((u.train n).image.bind fun img => entryOfBlock (tableOf img true k.val) block) = none →
          exec (.refillBlock k) s = .next (markStale k.val (violate n 0x0E u))) ∧
        ∀ (i : Nat) (e : PrsEntry),
          ((u.train n).image.bind fun img => entryOfBlock (tableOf img true k.val) block) = some (i, e) →
          let before := (u.presser k.val).refilled.count block
          let x := (u.each (refillPieces e block before (packetData q)) fun s x =>
            writeView k.val n x.1 false x.2.1 x.2.2 s).onPresser k.val fun p => { p with refilled := p.refilled ++ [block] }
          exec (.refillBlock k) s =
            .next (if before = 0 then x.onLin fun l => { l with refilled := l.refilled + 1 } else x))) ∧
    ∀ q : Packet, refillFirst s n k.val 4 = some q →
      let u := dropRefill q s
      (refillOk q = false → exec (.refillState k) s = .next (markStale k.val u)) ∧
      (refillOk q = true → observer s n = false → s.lin.receiving = false → exec (.refillState k) s = .next u) ∧
      (refillOk q = true → observer s n = true ∨ s.lin.receiving = true →
        let d := packetData q
        let lagged : W32 := BitVec.ofNat 32 (leAt d 12 4)
        exec (.refillState k) s = .next (u.onTrain n fun t => { t with
          step := BitVec.ofNat 44 (leAt d 0 8), updates := BitVec.ofNat 32 (leAt d 8 4), lagged := lagged
          clipf := openingClipf { t with
            step := BitVec.ofNat 44 (leAt d 0 8), updates := BitVec.ofNat 32 (leAt d 8 4), lagged := lagged } }))

/-- The presser registers as commands (Tables 7-12 to 7-15; R198, R201, R202, R217, R218, R390): written values are kept, and a
new binding starts the presser afresh; a second LOAD reports BUSY; an image ends with its RESULT and comes into force, or waits for
the commit stitch of a pending vote; a reserved bit, a refused or a locked write counts one violation, and the last two keep the
register; a changed reservation rebuilds the ledger in the maintenance slot. -/
def Obligations.PresserRegisters : Prop :=
  ∀ (s : State) (k : Panel) (n : Ctx),
    (TakesWrites s →
      (∀ v : W64,
        let x := if v &&& (mask64 63 24 ||| mask64 15 10 ||| mask64 3 2) ≠ 0 then violate 0 0x02 s else s
        let c : Ctx := Fin.ofNat 16 (fld v 7 4)
        (s.prs.loading = none → exec (.prsTblLoad v) s =
          .next (x.onPrs fun p => { p with tblCtx := c, loading := some (c, p.tblAddr) })) ∧
        (s.prs.loading.isSome → exec (.prsTblLoad v) s = .next (x.onPrs fun p => { p with tblCtx := c, result := 5 }))) ∧
      (∀ v : W64,
        let old := (s.presser k.val).bind
        let new := v &&& ~~~ 0xFF0C#64
        let bad : Prop := (fld v 39 16 ≠ fld old 39 16 ∧ (fld v 39 16 = 0 ∨ fld v 39 16 % 9 ≠ 0)) ∨
          (bit v 0 = true ∧ (bit old 0 = false ∨ fld v 7 4 ≠ fld old 7 4) ∧ activeTraining s (fld v 7 4) = false)
        let x := if v &&& 0xFF0C#64 ≠ 0 then violate 0 0x02 s else s
        let kept := x.onPresser k.val fun p => { p with bind := new }
        (s.nPanels ≤ k.val → exec (.prsBind k v) s = .next x) ∧
        (k.val < s.nPanels → bit s.prs.ctrl 0 = true →
          exec (.prsBind k v) s = .next (if new ≠ old then violate 0 0x02 s else x)) ∧
        (k.val < s.nPanels → bit s.prs.ctrl 0 = false → bad → exec (.prsBind k v) s = .next (violate 0 0x02 s)) ∧
        (k.val < s.nPanels → bit s.prs.ctrl 0 = false → ¬ bad → exec (.prsBind k v) s =
          .next (if bit new 0 = bit old 0 ∧ fld new 7 4 = fld old 7 4 then kept else bindPresser k.val kept))) ∧
      (∀ v : W64,
        let rsv : W64 := 0xFFFF000F00000000
        let x := if v &&& rsv ≠ 0 then violate 0 0x02 s else s
        let locked := bit s.prs.ctrl 0
        (s.nPanels ≤ k.val → exec (.prsReserveWrite k v) s = .next x) ∧
        (k.val < s.nPanels → locked = false → exec (.prsReserveWrite k v) s =
          .next (x.onPresser k.val fun p => { p with reserve := v &&& ~~~ rsv })) ∧
        (k.val < s.nPanels → locked = true → exec (.prsReserveWrite k v) s =
          .next (if v &&& ~~~ rsv ≠ (s.presser k.val).reserve then violate 0 0x02 s else x))) ∧
      (∀ v : W64,
        let new : BitVec 32 := v.setWidth 32
        let x := if v >>> 32 ≠ 0 then violate 0 0x02 s else s
        (bit s.prs.ctrl 0 = false → exec (.prsMirrorWrite v) s = .next (x.onPrs fun p => { p with mirror := new })) ∧
        (bit s.prs.ctrl 0 = true →
          exec (.prsMirrorWrite v) s = .next (if new ≠ s.prs.mirror then violate 0 0x02 s else x))) ∧
      (∀ v : W64,
        let new : BitVec 44 := v.setWidth 44
        let x := if v >>> 44 ≠ 0 then violate 0 0x02 s else s
        let t := s.train n.val
        (t.voteStitch = none → exec (.prsStepWrite n false v) s = .next (x.onTrain n.val fun t => { t with step := new })) ∧
        (t.voteStitch.isSome → new ≠ t.step → exec (.prsStepWrite n false v) s = .next (violate 0 0x02 s))) ∧
      ∀ a b : BitVec 32,
        let t := s.train n.val
        (t.voteStitch = none → exec (.prsStepWrite n true (a ++ b)) s =
          .next (s.onTrain n.val fun t => { t with skips := a, updates := b })) ∧
        (t.voteStitch.isSome → a ≠ t.skips ∨ b ≠ t.updates →
          exec (.prsStepWrite n true (a ++ b)) s = .next (violate 0 0x02 s))) ∧
    (∀ (addr : W64) (portOk : Bool), s.prs.loading = some (n, addr) →
      let image := Mem.bytes s.hostMem addr.toNat (imageSize (Mem.bytes s.hostMem addr.toNat 64))
      let u (r : Nat) : State := s.onPrs fun p => { p with loading := none, result := BitVec.ofNat 8 r }
      (∀ r, checkImage s n.val image portOk = (r, none) → exec (.presserImageChecked portOk) s = .next (u r)) ∧
      ∀ r img, checkImage s n.val image portOk = (r, some img) → exec (.presserImageChecked portOk) s = .next
        (if (s.train n.val).voteStitch = none then installImage n.val img (u r)
          else (u r).onTrain n.val fun t => { t with staged := some img })) ∧
    exec .presserLedgerRebuild s = .next (if s.work.ledgerDue = true ∧ s.stu.pos < 96 then rebuildLedger s else s)

/-- Frames and packets (R222, R223, R229 to R236, R244, R260 to R263, R270): a frame that leaves is filled, numbered and kept for
replay, its departing cells return their credits, and a stitch carries no more than F; a received frame is judged block by block, or
turned back in loop-back; a packet the pool has no credits for is discarded and poisons its context, another lends its credits and
takes its sequence number and epoch; a whole packet leaves its stream for its destination; one that is incomplete at its deadline is
completed with zeros, POISONED grows and its context has a poisoned delivery. -/
def Obligations.FramesAndPackets : Prop :=
  ∀ (s : State) (m : PortId) (n : Ctx),
    let p := s.port m.val
    let runs : Prop := p.state = .active ∨ p.state = .fenced ∨ p.state = .loopback
    let far : Bool := p.state == .loopback && p.farLoop
    (¬ runs ∨ 25 * s.stu.periodUnits.toNat / 16 ≤ p.frame → exec (.frameSend m) s = .next s) ∧
    (runs → p.frame < 25 * s.stu.periodUnits.toNat / 16 →
      let out := frameCells (departs s p.frame) p (List.range 256)
      let q := out.2.1
      let kept := q.sent ++ [{ fseq := q.fseq, cells := out.1 }]
      let q' : Port := { q with
        fseq := q.fseq + 1, frame := q.frame + 1, group := (q.group + 1) % 5, nak := q.nak.drop 1
        sent := kept.drop (kept.length - 32) }
      let f : Frame := {
        cells := out.1, trailer := trailerOf q out.1, badFec := 0, corrected := 0, uncorrectable := 0, symbols := 0 }
      let paid (u : State) : State := u.each out.2.2 fun u c => returnCredits c.1 c.2.1 c.2.2 1 u
      let near : Prop := p.state = .loopback ∧ p.loop = 1 ∧ p.farLoop = false
      (near → exec (.frameSend m) s = .next (paid (s.onPort m.val fun _ => receiveFrame f q'))) ∧
      (¬ near → exec (.frameSend m) s = .next ((paid (s.onPort m.val fun _ => q')).emit (.frame m.val f)))) ∧
    (∀ f : Frame,
      (¬ runs → exec (.frameReceive m f) s = .next s) ∧
      (far = true → p.loop = 3 → exec (.frameReceive m f) s = .next (s.emit (.frame m.val f))) ∧
      (far = true → p.loop = 4 → exec (.frameReceive m f) s =
        .next (s.onPort m.val fun p => turnCells (receiveFrame f p))) ∧
      (runs → ¬ (far = true ∧ (p.loop = 3 ∨ p.loop = 4)) →
        exec (.frameReceive m f) s = .next (takeVc0 m (s.onPort m.val (receiveFrame f))))) ∧
    (∀ (hem : Fin 2) (x : Packet) (rest : List Packet), Tab.getD s.col.packets (16 * hem.val + n.val) [] = x :: rest →
      let hd := parseHeader x.header
      let u := takeOffset n.val hd.vc hd.seq
        (s.onCol fun c => { c with packets := Tab.put c.packets (16 * hem.val + n.val) rest })
      let c := u.colCtx n.val
      let lent := Tab.getD c.lent (8 * hem.val + hd.vc) 0
      let cut : Prop := c.aborted = true ∧ (hd.vc = 1 ∨ hd.vc = 2 ∨ hd.vc = 3 ∨ hd.vc = 5)
      (cut → exec (.packetTake hem n) s = .next u) ∧
      (¬ cut → poolCells c.credit hd.vc < lent + (hd.length + 2) → exec (.packetTake hem n) s =
        .next (poison n.val (u.onColCtx n.val fun c => { c with noCredit := satInc c.noCredit 1 }))) ∧
      (¬ cut → lent + (hd.length + 2) ≤ poolCells c.credit hd.vc → exec (.packetTake hem n) s =
        .next ((u.onColCtx n.val fun c =>
          let c := { c with lent := Tab.put c.lent (8 * hem.val + hd.vc) (lent + (hd.length + 2)) }
          { c with peak := peakAfter c }).onPort hd.port fun p =>
            let t := portStream p hd.vc n.val
            putStream p { t with tx := t.tx ++
              (withSeq x.header (u.train n.val).current (seqOf c hd.vc + hd.seq) :: x.data).map fun d =>
                { data := d, hem := hem, credit := true } }))) ∧
    ∀ (vc : Fin 8) (h : CellData) (data : List CellData), (portStream p vc.val n.val).rx = h :: data →
      let t := portStream p vc.val n.val
      let k := packetCells vc.val h
      let turns : Prop := p.state = .loopback ∧ p.farLoop = true ∧ p.loop = 5
      let left := s.onPort m.val fun p => putStream p { t with rx := data.drop k }
      (k ≤ data.length → ¬ turns →
        exec (.packetReceive m n vc) s = .next (deliverPacket m.val vc.val h (data.take k) left)) ∧
      (k ≤ data.length → turns → exec (.packetReceive m n vc) s = .next (s.onPort m.val fun p =>
        putStream p { t with rx := data.drop k, tx := t.tx ++ (h :: data.take k).map fun d =>
          { data := d, hem := Fin.ofNat 2 (m.val / 8), credit := false } })) ∧
      (k ≤ data.length ∨ deadlinePassed s vc.val h = false → exec (.deadlineExpiry m n vc) s = .next s) ∧
      (data.length < k → exec (.packetReceive m n vc) s = .next s) ∧
      (data.length < k → deadlinePassed s vc.val h = true →
        let ended := deliverPacket m.val vc.val h (data ++ List.replicate (k - data.length) 0)
          (s.onPort m.val fun p => let p := passPart vc.val n.val (k - data.length) p
            { p with poisoned := satAdd 32 p.poisoned 1 })
        let d := (parseHeader h).destCtx
        exec (.deadlineExpiry m n vc) s = .next (if (ended.ctx d).state = .free then ended else poison d ended))

/-- Sequence numbers (R261): the comparison modulo 2^31, a difference of exactly 2^31 counting as earlier; the packets a hem die
takes are then those numbered from SEQ_v − 256 to SEQ_v + 255, across the wrap of the counter too. -/
def Obligations.SequenceNumbersCompare : Prop :=
  ∀ a b : BitVec 32,
    let ahead := (a.toNat + (2 ^ 32 - b.toNat)) % 2 ^ 32
    let behind := (b.toNat + (2 ^ 32 - a.toNat)) % 2 ^ 32
    (seqLater a b = true ↔ 1 ≤ ahead ∧ ahead ≤ 2 ^ 31 - 1) ∧
    (seqEarlier a b = true ↔ (1 ≤ behind ∧ behind ≤ 2 ^ 31 - 1) ∨ ahead = 2 ^ 31) ∧
    (seqEarlier a (b - 256) = false ∧ seqLater a (b + 255) = false ↔ (a - (b - 256)).toNat ≤ 511)

/-- The states of a port (Table 8-7, R220, R239 to R244, R238): a lost port aborts the jobs with entries on it and retrains, one not
back in time fails, each with a record outside a reset; a training that succeeds takes the neighbour over, retrains, or is held in
CHECK; one that fails gives way to full equalization; degraded, looped back at the neighbour's request and returned; the ledger is
rebuilt in the maintenance slot after a change. -/
def Obligations.PortStates : Prop :=
  ∀ (s : State) (m : PortId),
    let p := s.port m.val
    let rebuilt (u : State) : State := u.onSea fun a => { a with ledgerDirty := true }
    let trains (full : Bool) (u : State) : State := rebuilt ((discardStreams m.val u).onPort m.val fun p => { clearLink p with
      state := if full then .trainFull else .retune, retunes := satAdd 16 p.retunes 1, delayFails := 0, held := false
      laneLock := 0, met := false, miswired := false, loop := 0 })
    let reports (r : FaultRec) (u : State) : State :=
      if s.flt.phase = .hold ∨ s.flt.phase = .running then u else declareFault r u
    (∀ (loss : PortLoss) (lanes : BitVec 8),
      let jobs := jobsOnPort s m.val
      let r : FaultRec := { seamRec s 0x19 2 m.val loss lanes 2 with flags := if jobs.any (originates s · 2) then 4 else 0 }
      let x := (discardPort m.val s).onPort m.val fun p => { p with state := .retune }
      (p.state = .active → loss = .laneLock ∨ p.lost = some loss → exec (.portLost m loss lanes) s =
        .next ((trains false (if s.flt.phase = .hold ∨ s.flt.phase = .running then x.each jobs fun u j => originateAbort j 0x02 u
          else declareFault r (x.each jobs fun u j => originateAbort j 0x02 u))).onPort m.val fun p =>
            { p with lost := some loss, laneLock := lanes })) ∧
      (p.state ≠ .active ∨ (loss ≠ .laneLock ∧ p.lost ≠ some loss) → exec (.portLost m loss lanes) s = .next s)) ∧
    (∀ loss, p.lost = some loss → p.state = .retune ∨ p.state = .trainFull ∨ p.state = .check →
      let x := rebuilt (s.onPort m.val fun p => { p with state := .failed })
      let x := if 12 ≤ m.val ∧ s.lin.state = .mirrored then setLining .pairing x else x
      exec (.portFailed m) s = .next (reports (seamRec s 0x1A 1 m.val loss p.laneLock 7) x)) ∧
    (∀ o : TrainingObs, p.state = .trainFull ∨ p.state = .retune ∨ (p.state = .check ∧ p.held = false) → o.success = true →
      let stranger : Prop := p.state = .retune ∧ p.saved = true ∧ p.savedSerial ≠ o.nbSerial
      let x := s.onPort m.val fun p => { p with
        laneLock := 0xFF, nbSerial := o.nbSerial, nbAddr := o.nbAddr, nbPort := o.nbPort, met := true
        miswired := !(wiringOk s m.val o), state := .check }
      (stranger → exec (.trainingDone m o) s = .next (trains true s)) ∧
      (¬ stranger → wiringOk s m.val o = false → ∃ t, exec (.trainingDone m o) s = .next t ∧
        (t.port m.val).state = .check ∧ (t.port m.val).miswired = true ∧ (t.port m.val).held = true) ∧
      (¬ stranger → wiringOk s m.val o = true →
        (80 < o.sigmaPs.toNat → exec (.trainingDone m o) s = .next (x.onPort m.val fun p =>
          { p with delayFails := p.delayFails + 1, held := decide (3 ≤ p.delayFails + 1) })) ∧
        (o.sigmaPs.toNat ≤ 80 → o.errorsOk = false → exec (.trainingDone m o) s = .next (trains true x)) ∧
        (o.sigmaPs.toNat ≤ 80 → o.errorsOk = true → exec (.trainingDone m o) s =
          .next (rebuilt (x.onPort m.val fun p => { p with
            delayPs := o.delayPs, sigmaPs := o.sigmaPs, saved := true, savedSerial := o.nbSerial, lost := none, held := false
            fresh := false, state := if p.fence then .fenced else .active }))))) ∧
    (∀ o : TrainingObs, p.state = .retune → o.success = false → exec (.trainingDone m o) s = .next (trains true s)) ∧
    (p.state = .trainFull → exec (.fullEqRetry m) s = .next (trains true s)) ∧
    (∀ errors symbols : Nat, p.state = .active →
      (symbols < errors * 10 ^ fld s.sea.ctrl 11 8 → exec (.serWindow m errors symbols) s =
        .next (logGeneral 0x04 0 (leBytes 1 m.val) (s.onPort m.val fun p => { p with degraded := true }))) ∧
      (errors * 10 ^ fld s.sea.ctrl 11 8 ≤ symbols → exec (.serWindow m errors symbols) s = .next s)) ∧
    (∀ depth : Fin 8, 3 ≤ depth.val → depth.val ≤ 5 → p.state = .active →
      (bit p.cfg 6 = true → exec (.farLoopbackRequest m depth) s = .next (rebuilt ((discardPort m.val s).onPort m.val fun p =>
        { p with state := .loopback, loop := depth, farLoop := true, vc0 := [] }))) ∧
      (bit p.cfg 6 = false → exec (.farLoopbackRequest m depth) s = .next s)) ∧
    (p.state = .loopback → p.farLoop = true → exec (.farLoopbackRequest m 0) s =
      .next ((trains (!p.saved) s).onPort m.val fun p => { p with lost := none, farLoop := false })) ∧
    exec .portLedgerRebuild s = .next (if s.work.ledgerDue = true ∧ s.stu.pos < 96 then rebuildLedger s else s)

/-- The seam and collective registers as commands (Tables 8-11, 8-12, 9-9, 9-10; R240, R244, R248, R266, R267, R273, R390): RETUNE and
FULL_EQ ask for a training at the next boundary, LOOP and EN are kept, a lock keeps EN and ACCEPT_FAR; SEA_RT_DATA writes and reads
the selected entry and moves on; COL_CREDIT_n waits for the boundary or is refused whole; COL_SEQ_n_v is refused with an arm entry;
PEAK_CLR; SEND originates an abort. A reserved bit, a refused or a locked difference counts one violation. -/
def Obligations.SeamAndCollectiveRegisters : Prop :=
  ∀ (s : State) (m : PortId) (n : Ctx) (v : W64), TakesWrites s →
    let judged (bad : Prop) [Decidable bad] (u : State) : State := if bad then violate 0 0x02 u else u
    let locked := bit s.sea.ctrl 0
    let p := s.port m.val
    let written (v : W64) : State :=
      let cfg := if locked then p.cfg else (p.cfg &&& ~~~ 0x41#64) ||| (v &&& 0x41#64)
      let x := s.onPort m.val fun p => { p with
        cfg := if fld v 5 3 ≤ 5 then putFld cfg 5 3 (fld v 5 3) else cfg
        loopPending := if fld v 5 3 ≤ 5 ∧ (fld v 5 3 ≠ fld p.cfg 5 3 ∨ fld v 5 3 ≠ p.loop) then some (Fin.ofNat 8 (fld v 5 3))
          else p.loopPending
        trainPending := if bit v 1 then some .fullEq else if bit v 2 then some .retune else p.trainPending }
      let x := if fld v 5 3 ≤ 5 ∧ fld v 5 3 ≠ fld p.cfg 5 3 ∧ s.tst.busy = true ∧ s.tst.test.toNat / 256 = 4 ∧ s.tst.target = m.val
        then x.onTst fun t => { t with stopping := true } else x
      judged (v &&& ~~~ 0xFF#64 ≠ 0 ∨ (locked = true ∧ (v ^^^ p.cfg) &&& 0x41#64 ≠ 0)) x
    let at_ := fld s.sea.rtSel 14 0
    let held := Tab.getD s.sea.route at_ 0xF
    let moved (u : State) : State := if bit u.sea.rtSel 15 then u.onSea fun a =>
      { a with rtSel := putFld a.rtSel 14 0 (fld a.rtSel 14 0 + 1) } else u
    let others := (((List.range 16).filter (· ≠ n.val)).map fun k => creditUnits (creditToBe (s.colCtx k))).sum
    let pools := v &&& mask64 49 0
    exec (.retune m v) s = .next (written (v ||| 4)) ∧ exec (.fullEq m v) s = .next (written (v ||| 2)) ∧
    exec (.loopbackSelect m v) s = .next (written v) ∧ exec (.portEn m v) s = .next (written v) ∧
    exec (.seaRtDataAccess (some v)) s = .next (moved (judged (v &&& ~~~ 0xF#64 ≠ 0 ∨ (locked = true ∧ v.setWidth 4 ≠ held))
      (if locked then s else s.onSea fun a => { a with
        route := if v.setWidth 4 = 0xF#4 then Tab.drop a.route at_ else Tab.put a.route at_ (v.setWidth 4) }))) ∧
    exec (.seaRtDataAccess none) s = .next (moved (s.emit (.readData (held.setWidth 64)))) ∧
    (others + creditUnits v ≤ 1024 → exec (.colCreditWrite n v) s =
      .next (judged (v ≠ pools) (s.onColCtx n.val fun c => { c with creditPending := some pools }))) ∧
    (1024 < others + creditUnits v → v ≠ creditToBe (s.colCtx n.val) ∨ v ≠ pools →
      exec (.colCreditWrite n v) s = .next (violate 0 0x02 s)) ∧
    (∀ k : Fin 6,
      let refused : Prop := hasEntry s n.val = true ∧ v.setWidth 32 ≠ (s.colCtx n.val).seq[k]
      (refused → exec (.colSeqWrite n k v) s = .next (violate 0 0x02 s)) ∧
      (¬ refused → exec (.colSeqWrite n k v) s = .next (judged (v >>> 32 ≠ 0)
        (s.onColCtx n.val fun c => { c with seq := c.seq.set k (v.setWidth 32) })))) ∧
    exec (.peakClr n v) s = .next ((judged (v &&& mask64 62 32 ≠ 0) s).onColCtx n.val fun c =>
      { c with peak := BitVec.ofNat 16 (lentBoth c) }) ∧
    let seen := judged (v &&& ~~~ 0x8000FFFF#64 ≠ 0) s
    exec (.abortSend v) s = .next (if bit v 31 then originateAbort (v.setWidth 16) 0x04 seen else seen)

/-- Aborts (R267 to R270): an ABORT of another group does nothing; one whose key is not remembered is remembered, forwarded on every
other ACTIVE port and logged; with ABORT_EN set each context that it concerns acts on it, a remembered one too; keys 32 µs old are
forgotten; a serving context's ABORTED ends at the first boundary at least 32 µs after it came. -/
def Obligations.Aborts : Prop :=
  ∀ (s : State) (port : PortId) (m : AbortMsg),
    let ours : Prop := (s.port port.val).state = .active ∧ m.groupId.toNat = fld s.stu.ctrl 31 16
    let known : Prop := ∃ k ∈ s.col.keys, k.job = m.tag ∧ k.attempt = m.attempt
    let noted := ((rememberKey m s).each (allPorts.filter (· ≠ port.val)) fun u q => sendVc0 q (.abort m) u).onCol fun c => { c with
      log0 := BitVec.ofNat 64 (m.cause.toNat * 2 ^ 56 + m.attempt.toNat * 2 ^ 40 + m.originStitch.toNat)
      log1 := BitVec.ofNat 64
        (m.tag.toNat * 2 ^ 48 + m.origin.toNat % 2 ^ 15 * 2 ^ 32 + satAdd 32 (fld c.log1 31 0) 1) }
    let acted (u : State) : State :=
      if abortEn s then u.each (abortActs s m false) fun u n => actOnAbort n m true u else u
    (¬ ours → exec (.abort port m) s = .next s) ∧
    (ours → ¬ known → exec (.abort port m) s = .next (acted noted)) ∧
    (ours → known → exec (.abort port m) s = .next (acted s)) ∧
    exec .abortKeyExpiry s = .next (s.onCol fun c => { c with
      keys := c.keys.filter fun k => decide (s.ns < k.entered + 32000) }) ∧
    ∀ n : Ctx, (s.colCtx n.val).aborted = true → (s.ctx n.val).serving = true →
      ((s.colCtx n.val).abortPs + 32000 ≤ s.ns → s.stu.pos = 0 →
        exec (.abortedEnd n) s = .next (s.onColCtx n.val fun c => { c with aborted := false })) ∧
      (s.ns < (s.colCtx n.val).abortPs + 32000 ∨ s.stu.pos ≠ 0 → exec (.abortedEnd n) s = .next s)

/-- The serving unit's passes over the contexts it serves (R276, R282, R286 to R289, R292, R294): the results of the list in force are
read; at cycle 64 results, victims, trims, frees, the admissions and releases of earlier stitches and timeouts are applied in that
order, an admission into the lowest free slot; the list is written to its landing areas, and is in force while the period is at least
51; below 51 none is built; a list has its places numbered, and with no slot in use is masked throughout. SRV_CFG_n and SRV_RT_n as
commands (R299, R301, Table 10-11): EN set over a good setting enables the context, over a bad one records ERR and leaves it disabled;
EN cleared asks the boundary to retire its slots; a setting that differs while EN is set is refused; RT and HBM_RESERVE are kept
unless locked; a reserved bit or a locked difference counts one violation. -/
def Obligations.ServingPasses : Prop :=
  ∀ (s : State) (n : Ctx),
    let served := servedContexts s
    exec .resultRead s = .next (s.each served fun u k =>
      let c := u.srvCtx k
      if c.current = [] then u else u.onSrvCtx k fun c => { c with
        results := some (c.current.map fun e => readResult u c e.index), listBefore := c.current, current := [] }) ∧
    exec .servingApply s = .next (s.each served fun s k =>
      let s := applyResults k s
      let now := s.stu.stitch
      let c := s.srvCtx k
      let s := s.each c.victims fun s i => match (s.slot i).state with
        | .prefill | .decode => s.onSlot i fun t => { t with state := .parking }
        | _ => s
      let s := applyTrims k c.trims s
      let s := s.each ((slotsOf s k).filter fun x => x.2.state == .retiring && x.2.since != s.stu.stitch) fun s x => freeSlot x.1 s
      let s := s.each (c.admits.filter fun a => a.taken != now) fun s a =>
        let s := s.onSlot (firstFreeSlot s) fun _ => { a.slot with
          admitted := s.stu.stitch, state := if a.resume then .resuming else .prefill }
        match a.notify with
        | some r => postCompletion k 0x0A 0 0 r 0 0 [] s
        | none => s
      let due := c.releases.filter fun r => r.read != now
      let s := endSlots k (due.map (·.tag)) s
      let s := s.each (due.filterMap (·.notify)) fun s i => postCompletion k 0x0B 0 0 i 0 0 [] s
      s.onSrvCtx k fun c => { c with
        victims := [], trims := [], closing := false, releases := c.releases.filter fun r => r.read == now
        admits := c.admits.filter fun a => a.taken == now }) ∧
    exec .listWrite s = .next (s.each served fun s k =>
      let c := s.srvCtx k
      if c.next = [] then s else (s.each c.next fun s e => s.onCore (listPlace c e.index).1 fun x => { x with
        scratch := Mem.write x.scratch (fld c.list 41 32 * 64 + 32 * (listPlace c e.index).2) (listEntryBytes e) }).onSrvCtx k
          fun c => { c with current := if 51 ≤ s.stu.periodUnits.toNat then c.next else [], next := [] }) ∧
    (s.stu.periodUnits.toNat < 51 → exec .listBuild s = .next s) ∧
    (51 ≤ s.stu.periodUnits.toNat →
      exec .listBuild s = .next (s.each (served.filter fun k => bit (s.srvCtx k).cfg 63) fun s k => buildList k s)) ∧
    (let c := s.srvCtx n.val;
      ((buildList n.val s).srvCtx n.val).next.map (·.index) = List.range (fld c.cfg 28 16 + fld c.cfg 41 32) ∧
      (slotsOf s n.val = [] → ((buildList n.val s).srvCtx n.val).next =
        (List.range (fld c.cfg 28 16 + fld c.cfg 41 32)).map maskedEntry)) ∧
    ∀ v : W64, TakesWrites s →
      let judged (bad : Prop) [Decidable bad] (u : State) : State := if bad then violate 0 0x02 u else u
      let c := (s.srvCtx n.val).cfg
      let rt : W64 := mask64 59 59
      let setting : W64 := mask64 56 48 ||| mask64 41 32 ||| mask64 28 16 ||| mask64 12 0
      let locked := bit s.srv.ctrl 0
      let base (v : W64) : W64 := (v &&& setting) ||| (if locked then c &&& rt else v &&& rt)
      let differs (v : W64) : Prop := (v ^^^ c) &&& (setting ||| rt) ≠ 0
      let bad (v : W64) : Prop := v &&& (mask64 58 57 ||| mask64 47 42 ||| mask64 31 29 ||| mask64 15 13) ≠ 0 ∨
        (locked = true ∧ (v ^^^ c) &&& rt ≠ 0)
      let put (f : SrvCtx → SrvCtx) : State := s.onSrvCtx n.val f
      let e := srvErr s n.val (base v)
      let on : W64 := v ||| mask64 63 63
      let off : W64 := v &&& ~~~ mask64 63 63
      (bit c 63 = true → differs v → exec (.srvEnable n v) s = .next (violate 0 0x02 s) ∧
        exec (.srvDisable n v) s = .next (violate 0 0x02 s) ∧ exec (.srvRtWrite n false v) s = .next (violate 0 0x02 s)) ∧
      (bit c 63 = true → ¬ differs v → exec (.srvEnable n v) s = .next (judged (bad v) s) ∧
        exec (.srvRtWrite n false on) s = .next (judged (bad v) s)) ∧
      (bit c 63 = false → e = 0 → s.srv.failed = false →
        exec (.srvEnable n v) s = .next (judged (bad v) (put fun x => { x with cfg := base v ||| mask64 63 63, serving := true })) ∧
        exec (.srvRtWrite n false on) s = exec (.srvEnable n v) s) ∧
      (bit c 63 = false → e ≠ 0 ∨ s.srv.failed = true →
        exec (.srvEnable n v) s = .next (judged (bad v) (put fun x => { x with cfg := putFld (base v) 62 60 e }))) ∧
      (bit c 63 = true → ¬ differs v → exec (.srvDisable n v) s = .next (judged (bad v) (put fun x =>
        { x with cfg := base v ||| (x.cfg &&& mask64 62 60), disabling := true }))) ∧
      (bit c 63 = false →
        exec (.srvDisable n v) s = .next (judged (bad v) (put fun x => { x with cfg := base v ||| (x.cfg &&& mask64 62 60) })) ∧
        exec (.srvRtWrite n false off) s = exec (.srvDisable n v) s) ∧
      exec (.srvRtWrite n true v) s = .next (judged (v &&& mask64 63 32 ≠ 0 ∨
        (locked = true ∧ v &&& mask64 31 0 ≠ (s.srvCtx n.val).rt))
        (if locked then s else put fun x => { x with rt := v &&& mask64 31 0 }))

/-- The life of a sequence (R279 to R282, R285, R289, R294, R295): SEQ_ADMIT waits at the head until it can be taken and a
malformed one is rejected with a record of kind 0x06; SEQ_RELEASE and SRV_CANCEL wait for a boundary; a due TIMEOUT ends a slot once
the results of the stitch ended are applied; a retired slot is freed in the maintenance slot of a later stitch with its swatches; a
swap image is written with its swatches in order and read back into new ones, and a slot whose end came during the transfer is freed
with the record it owes; a SEQ_ADMIT that stands at the head through a whole stitch posts its event, one in 1,024 stitches. -/
def Obligations.SequenceLife : Prop :=
  ∀ (s : State) (n : Ctx),
    (∀ (d : Taken) (rest : List Taken), (s.ctx n.val).serving = true →
      let t := admitSlot n.val d.bytes
      let asked : Bool := (leAt d.bytes 1 1).testBit 0
      let u := taken n rest s
      let note : Option Nat := if asked then some d.index.toNat else none
      (leAt d.bytes 0 1 = 0x0A → n ≠ 0 → (s.ctx n.val).state = .active → (s.ring n.val).taken = d :: rest →
        admitTakes s n.val d.bytes = false → exec (.seqAdmit n) s = .next s) ∧
      (Starts s n d rest → leAt d.bytes 0 1 = 0x0A →
        (admitRejected u n.val t = false → exec (.seqAdmit n) s = .next (u.onSrvCtx n.val fun c => { c with admits := c.admits ++
          [{ slot := t, resume := (leAt d.bytes 1 1).testBit 1, notify := note, taken := s.stu.stitch }] })) ∧
        (admitRejected u n.val t = true → exec (.seqAdmit n) s = .next (complete n.val 0x0A asked d.index.toNat 0
          (tokenRecord n.val t.tag 0 0 6 0xFFFF s.stu.stitch 0 u)))) ∧
      (Starts s n d rest → leAt d.bytes 0 1 = 0x0B → exec (.seqRelease n) s = .next (u.onSrvCtx n.val fun c => { c with
        releases := c.releases ++ [{ tag := BitVec.ofNat 64 (leAt d.bytes 8 8), notify := note, read := s.stu.stitch }] }))) ∧
    (∀ tag : W64, TakesWrites s → exec (.seqCancel n tag) s = .next (s.onSrvCtx n.val fun c => { c with
      releases := c.releases ++ [{ tag := tag, notify := none, read := s.stu.stitch }] })) ∧
    (∀ (i : Fin 4096),
      let t := s.slot i.val
      let k := t.ctx.val
      let known : Prop := (s.srvCtx k).results.isSome ∨ (s.srvCtx k).current = []
      let ended := applyResults k s
      let u := ended.slot i.val
      let times : Prop := k ∈ servedContexts s ∧ inMaintenance s = true ∧ known ∧ timeoutDue s t = true
      (times → u.state = .decode ∨ u.state = .prefill → exec (.seqTimeout i) s =
        .next (tokenRecord u.ctx.val u.tag 0 0 4 i.val ended.stu.stitch 0
          (ended.onSlot i.val fun t => { t with state := .retiring, since := ended.stu.stitch }))) ∧
      (times → u.state = .parking ∨ u.state = .resuming → exec (.seqTimeout i) s =
        .next (ended.onSlot i.val fun t => { t with cause := some (t.cause.getD 4) })) ∧
      (times → u.state = .retiring ∨ u.state = .free → exec (.seqTimeout i) s = .next ended) ∧
      (¬ times → exec (.seqTimeout i) s = .next s) ∧
      (let frees : Prop := t.state = .retiring ∧ t.since ≠ s.stu.stitch ∧ inMaintenance s = true ∧ (s.ctx k).state = .active;
        (frees → exec (.slotFree i) s =
          .next ((s.onSrvCtx k fun c => { c with owner := c.owner.filter fun o => o.2.1 != i.val }).onSrv fun v =>
            { v with slots := Tab.drop v.slots i.val })) ∧
        (¬ frees → exec (.slotFree i) s = .next s)) ∧
      (t.state = .parking →
        let own := sortBy (fun a b => decide (a.2.2 < b.2.2)) (swatchesOf (s.srvCtx k) i.val)
        let x := (meetQueues .portH s).each own fun s o => swatchFinds k o.1 s
        let y := freeSlot i.val (x.setHostMem (Mem.write x.hostMem t.swapAddr.toNat
          (swapHeader t own.length ++ (own.map fun o => readSwatch x k o.1).flatten)))
        (t.cause = none → exec (.swapOutDone i) s =
          .next (tokenRecord k t.tag t.length 0 3 i.val y.stu.stitch own.length y)) ∧
        ∀ c, t.cause = some c → exec (.swapOutDone i) s = .next (tokenRecord k t.tag 0 0 c i.val y.stu.stitch 0 y)) ∧
      (t.state = .resuming →
        let h := Mem.bytes s.hostMem t.swapAddr.toNat 64
        let count := leAt h 32 2
        let numbers := imageNumbers (leAt h 12 2) count (leAt h 20 4) (BitVec.ofNat 64 (leAt h 24 8))
        let x := (meetQueues .portH s).each numbers.zipIdx (swapInOne k i.val t.swapAddr.toNat)
        (freeSwatches (s.srvCtx k) < count → exec (.swapInDone i) s = .next s) ∧
        (count ≤ freeSwatches (s.srvCtx k) → t.cause = none → exec (.swapInDone i) s = .next (x.onSlot i.val fun t =>
          { t with state := .prefill, length := leAt h 8 4, keepLow := leAt h 14 2, swatches := leAt h 12 2 })) ∧
        ∀ c, count ≤ freeSwatches (s.srvCtx k) → t.cause = some c → exec (.swapInDone i) s =
          .next (tokenRecord k t.tag 0 0 c i.val x.stu.stitch 0 (freeSlot i.val x)))) ∧
    (let c := s.srvCtx n.val
      let recent : Prop := ∃ l, c.lastBacklog = some l ∧ (s.stu.stitch - l).toNat < 1024
      let posts : Prop := c.waited ≠ 0 ∧ admitHead s n.val = c.head ∧ ¬ recent
      (posts → exec (.admissionBacklog n) s = .next ((post n.val 0x06 [(16, leBytes 4 c.waited),
        (20, leBytes 2 (slotsHeld s n.val)), (22, leBytes 2 ((admitHead s n.val).getD 0).toNat)] s).onSrvCtx n.val fun c =>
          { c with lastBacklog := some s.stu.stitch })) ∧
      (¬ posts → exec (.admissionBacklog n) s = .next s))

/-- The lining and its certificates (R314, R318, R319, R325 to R328, Tables 11-6, 11-7, 11-13): EN written 1 starts PAIRING and the
identity exchange, EN written 0 ends in SOLO unless the device is FENCED; a failed check records its REASON and leaves PAIRING for
SOLO, one that passes enters REFILLING or MIRRORED; a certificate reads busy while another waits, its RESULT when it is refused, 0x02
where it is malformed, and an accepted one takes LAST_NONCE and is logged; then ISOLATE, RELEASE and LEAVE act. -/
def Obligations.LiningAndCertificates : Prop :=
  ∀ s : State,
    (TakesWrites s → ∀ v : W64,
      let judged (rsv : W64) : State := if v &&& rsv ≠ 0 then violate 0 0x02 s else s
      let rsv : W64 := mask64 63 16 ||| mask64 10 9 ||| mask64 7 5
      let on := (judged rsv).onLin fun l => { l with
        pairCfg := putFld v 4 4 1 &&& ~~~ rsv, lastEpoch := (s.train (fld v 3 0)).current }
      let off := (judged rsv).onLin fun l => { l with pairCfg := putFld v 4 4 0 &&& ~~~ rsv }
      (s.lin.state = .solo ∨ s.lin.state = .carrying → exec (.pairing v) s = .next (sendIdentity (setLining .pairing on))) ∧
      (s.lin.state ≠ .solo → s.lin.state ≠ .carrying → exec (.pairing v) s = .next on) ∧
      (bit s.lin.pairCfg 4 = true → s.lin.state ≠ .fenced → exec (.liningDisable v) s = .next (setLining .solo off)) ∧
      (bit s.lin.pairCfg 4 = false ∨ s.lin.state = .fenced → exec (.liningDisable v) s = .next off) ∧
      (let x := judged (mask64 63 24 ||| mask64 15 2)
        let b := Mem.bytes s.hostMem (fld s.lin.certAddr 63 9 * 512) 512
        let busy : Prop := thimbleRuns s = false ∨ s.thm.commitCert = true ∨ s.lin.accepted.isSome
        (busy → exec (.certSubmit (.register v)) s = .next (x.onLin fun l => { l with certResult := 1 })) ∧
        (¬ busy →
          (∀ r, checkCert x b = (r, none) → r ≠ 0 →
            exec (.certSubmit (.register v)) s = .next (x.onLin fun l => { l with certResult := BitVec.ofNat 8 r })) ∧
          ∀ a, checkCert x b = (0, some a) → exec (.certSubmit (.register v)) s =
            .next (((logCritical 0x06 (slice b 0 64) (x.onLin fun l => { l with
              lastNonce := BitVec.ofNat 64 (leAt b 32 8), accepted := some a, certBmc := false })).onThm fun t =>
                { t with commitCert := true, flashBusy := true }).onLin fun l => { l with certResult := 1 })))) ∧
    (∀ b : List Byte,
      (leAt b 6 1 = 0 ∨ 3 < leAt b 6 1 ∨ leAt b 0 4 ≠ 0x43544C4D ∨ leAt b 4 2 ≠ 1 → checkCert s b = (2, none)) ∧
      (thimbleRuns s = true → s.thm.recovery = false → s.thm.commitCert = false → s.lin.accepted = none →
        (∀ r, checkCert s b = (r, none) → r ≠ 0 → exec (.certSubmit (.bmc b)) s =
          .next (s.emit (.mctp .i3c (Config.encodeResponse 0x3F02 [[BitVec.ofNat 8 r]])))) ∧
        ∀ a, checkCert s b = (0, some a) → exec (.certSubmit (.bmc b)) s =
          .next ((logCritical 0x06 (slice b 0 64) (s.onLin fun l => { l with
            lastNonce := BitVec.ofNat 64 (leAt b 32 8), accepted := some a, certBmc := true })).onThm fun t =>
              { t with commitCert := true, flashBusy := true }))) ∧
    (s.lin.state = .pairing → thimbleRuns s = true → ∀ o : PairingObs,
      (pairingReason s o ≠ 0 → exec (.pairingResult o) s =
        .next (setLining .solo (s.onLin fun l => { l with reason := BitVec.ofNat 8 (pairingReason s o) }))) ∧
      (pairingReason s o = 0 →
        let met := ((s.onLin fun l => { l with
          partnerSerial := o.partnerSerial, partnerKey := o.partnerKey, partnerKnown := true, reason := 0 }).onThm fun t =>
            { t with flashBusy := true }).onSea fun a => { a with thimbleIn := [] }
        let sends : Bool := decide (0 < ownEntries s (fld s.lin.pairCfg 3 0))
        (sends = false → o.partnerOwnCounts = false → exec (.pairingResult o) s =
          .next (setLining .mirrored (met.onLin fun l => { l with valid := true }))) ∧
        (sends = true ∨ o.partnerOwnCounts = true → exec (.pairingResult o) s =
          .next (setLining .refilling (met.onLin fun l => { l with
            sending := sends, receiving := o.partnerOwnCounts, refillPending := true, refilled := 0
            valid := l.valid && !o.partnerOwnCounts }))))) ∧
    ∀ serial : W64,
      let acted := s.onLin fun l => { l with accepted := none }
      let fences (on : Bool) (u : State) : State :=
        (u.each allPorts fun u m => u.onPort m fun p => { p with fencePending := some on }).onLin fun l =>
          { l with fencePending := some on }
      (s.lin.accepted = some (.isolate, serial) →
        let failed := failReslices acted
        (serial = Config.serial →
          exec .isolate s = .next (fences true (failed.each (hostedJobs failed) fun u j => originateAbort j 0x04 u))) ∧
        (serial ≠ Config.serial → exec .isolate s = .next (setLining .carrying failed))) ∧
      (s.lin.accepted = some (.release, serial) → exec .release s = .next (fences false acted)) ∧
      (s.lin.accepted = some (.leave, serial) → exec .leave s = .next ((acted.onLin fun l => { l with
        threshold := 0, fabricId := 0, keysValid := 0, mgrKeys := Vector.replicate 28 0, keyWords := 0, partnerSerial := 0
        partnerKey := 0, partnerKnown := false, lastEpoch := 0 }).onThm fun t => { t with flashBusy := true }))

/-- The life of a context and a switch (R299, R300, R387, R388, Table 14-12): CREATE of a FREE context resets its registers and makes
it ACTIVE, of another reports 0x01; TEARDOWN of an ACTIVE or FAULTED context waits for its boundary, which drops what the context
holds, and ends when its bands are reset; commands to context 0 count a violation; a switch is refused with its RESULT, or at one
boundary withdraws the outgoing entries, fences the bands, saves and vacates and starts the fills, and at a later one ends the fills,
restores and passes the bands on; one that would then take a band of a real-time context is dropped with RESULT 0x04, which is the
model's choice (assumption log 102). -/
def Obligations.ContextLife : Prop :=
  ∀ (s : State) (n : Ctx),
    let result (r : Nat) (u : State) : State := u.onCtx n.val fun c => { c with result := BitVec.ofNat 8 r }
    let state := (s.ctx n.val).state
    (TakesWrites s → ∀ v : W64,
      let judged (rsv : W64) : State := if v &&& rsv ≠ 0 then violate 0 0x02 s else s
      let x := judged (mask64 63 24 ||| mask64 15 10 ||| mask64 7 5 ||| mask64 3 3)
      let tenancy (u : State) : State := u.onCtx n.val fun c => { c with serving := bit v 4 }
      (n = 0 →
        let y := if bit v 4 ≠ (s.ctx 0).serving then result 2 (violate 0 0x02 s) else violate 0 0x02 s
        exec (.create n v) s = .next y ∧ exec (.teardown n v) s = .next y) ∧
      (n ≠ 0 → state = .free →
        exec (.create n v) s = .next (result 0 ((resetContext n.val (tenancy x)).onCtx n.val fun c => { c with state := .active })) ∧
        exec (.teardown n v) s = .next (result 1 (tenancy x))) ∧
      (n ≠ 0 → state ≠ .free → exec (.create n v) s = .next (result 1 x)) ∧
      (n ≠ 0 → state = .active ∨ state = .faulted →
        exec (.teardown n v) s = .next (result 0 (x.onCtx n.val fun c => { c with teardownPending := true }))) ∧
      (n ≠ 0 → state = .tearingDown → exec (.teardown n v) s = .next (result 1 x)) ∧
      (let kept := (judged (mask64 63 24 ||| mask64 15 10)).onHif fun h => { h with sw := v &&& mask64 7 0 }
        let bands := maskBands s.hif.swLo s.hif.swHi
        let r := switchRefusal kept (fld v 3 0) (fld v 7 4) bands
        (r ≠ 0 → exec (.ctxSwitch v) s = .next (kept.onHif fun h => { h with swResult := BitVec.ofNat 8 r })) ∧
        (r = 0 → exec (.ctxSwitch v) s = .next (kept.onHif fun h => { h with
          swResult := 0, switch := some {
            from_ := Fin.ofNat 16 (fld v 3 0), to_ := Fin.ofNat 16 (fld v 7 4), bands := bands, started := false, due := false } }))))
      ∧
    (n ≠ 0 → (s.ctx n.val).teardownDue = true → exec (.teardownBoundary n) s =
      .next (closeRings n.val (blockCompletion 0 0xF1
        (let u := dropRegions n.val (dropBindings n.val (dropWork n.val (s.onCtx n.val fun c => { c with
          state := .tearingDown, teardownPending := false, teardownDue := false, resetBands := [] })))
        u.each (bandsOwned u n.val) (releaseBand n.val))))) ∧
    ((s.ctx n.val).teardownDue = false → exec (.teardownBoundary n) s = .next s) ∧
    (state = .tearingDown →
      let waits : Prop := ∃ g ∈ (s.ctx n.val).resetBands, (s.band g).state = .resetting ∨ (s.band g).state = .poweringUp
      (waits → exec (.teardownDone n) s = .next s) ∧
      (¬ waits → exec (.teardownDone n) s = .next ((s.each (bandsOwned s n.val) fun s g => s.onBand g fun b =>
        { b with owner := 0 }).onCtx n.val fun c => { c with state := .free, resetBands := [] }))) ∧
    ∀ w : Switch, s.hif.switch = some w →
      let (a, b) := (w.from_.val, w.to_.val)
      let real := takesRealTime s a b w.bands
      (w.due = false → exec .switchBegin s = .next s ∧ exec .switchDone s = .next s) ∧
      (w.started = true → exec .switchBegin s = .next s) ∧ (w.started = false → exec .switchDone s = .next s) ∧
      (w.due = true → w.started = false → real = true →
        exec .switchBegin s = .next (s.onHif fun h => { h with switch := none, swResult := 4 })) ∧
      (w.due = true → w.started = false → real = false →
        let x := s.each (s.work.entries.filter fun e => e.ctx.val == a && e.bands.any fun g => w.bands.contains g) fun s e =>
          withdrawNow 0x34 ((e.bands.find? fun g => w.bands.contains g).getD 0) b e s
        let x := meetQueues .loader (x.each w.bands quiesceBand)
        let x := if a = 0 then x else vacate a w.bands (saveLive a w.bands x)
        let x := if b = 0 then x else startFills b w.bands x
        exec .switchBegin s = .next (x.onHif fun h => { h with switch := some { w with started := true, due := false } })) ∧
      (w.due = true → w.started = true →
        let x := meetQueues .loader s
        let x := if b = 0 then x else restoreLive b w.bands (finishFills b w.bands x)
        let x := x.each w.bands fun s g =>
          if b = 0 then (startBandReset g .resetting s).onBand g fun y => { y with owner := 0 }
          else s.onBand g fun y => { y with owner := w.to_, state := .on }
        exec .switchDone s = .next ((x.onHif fun h => { h with switch := none }).each [0, a, b].eraseDups fun s k =>
          blockCompletion k 0xF0 s))

/-- The registers of contexts, rings and event queues as commands (R386, R389, R390, Tables 14-10 to 14-12): SEED and RANK keep
a written value, and refuse one that differs while the context has an arm entry; shares are kept for the boundary; a ring
enabled starts at RING_HEAD 0, RUNNING, a disabled one stops at the boundary, and LOG2_ENTRIES may not change while EN is set;
VECTOR 31 is refused and the old one kept; a queue enabled starts at EVQ_TAIL 0. A reserved bit counts one violation. -/
def Obligations.ContextRegisters : Prop :=
  ∀ (s : State) (n : Ctx) (v : W64), TakesWrites s →
    let judged (bad : Prop) [Decidable bad] : State := if bad then violate 0 0x02 s else s
    let refused : State := violate 0 0x02 s
    (let rsv : W64 := mask64 63 28 ||| mask64 19 16
      let rank := (s.ctx n.val).rank
      (hasEntries s n.val = false ∨ v = (s.ctx n.val).seed →
        exec (.ctxSeedWrite n false v) s = .next (s.onCtx n.val fun c => { c with seed := v })) ∧
      (hasEntries s n.val = true → v ≠ (s.ctx n.val).seed → exec (.ctxSeedWrite n false v) s = .next refused) ∧
      (hasEntries s n.val = false ∨ fld v 15 0 = fld rank 15 0 → exec (.ctxSeedWrite n true v) s =
        .next ((judged (v &&& rsv ≠ 0)).onCtx n.val fun c => { c with rank := v &&& ~~~ rsv })) ∧
      (hasEntries s n.val = true → fld v 15 0 ≠ fld rank 15 0 → exec (.ctxSeedWrite n true v) s = .next refused)) ∧
    exec (.ctxShareWrite n false v) s = .next (s.onCtx n.val fun c => { c with shareLo := v }) ∧
    exec (.ctxShareWrite n true v) s = .next (s.onCtx n.val fun c => { c with shareHi := v }) ∧
    (let cfg := (s.ring n.val).cfg
      let x := judged (v &&& (mask64 31 28 ||| mask64 23 18 ||| mask64 15 9 ||| mask64 7 5) ≠ 0)
      let on := x.onRing n.val fun r => { r with cfg := putFld v 8 8 1 &&& (mask64 8 8 ||| mask64 4 0) }
      let off := x.onRing n.val fun r => { r with cfg := v &&& mask64 4 0 }
      (bit cfg 8 = true → fld v 4 0 ≠ fld cfg 4 0 →
        exec (.ringEnable n v) s = .next refused ∧ exec (.ringDisable n v) s = .next refused) ∧
      (bit cfg 8 = true → fld v 4 0 = fld cfg 4 0 → exec (.ringEnable n v) s = .next on ∧
        exec (.ringDisable n v) s = .next (off.onRing n.val fun r => { r with stopping := true })) ∧
      (bit cfg 8 = false → exec (.ringDisable n v) s = .next off ∧
        exec (.ringEnable n v) s = .next (writeStatus n.val (on.onRing n.val fun r => { r with
          head := 0, state := 1, live := true, stopping := false, err := 0, errPos := 0 })))) ∧
    (let cfg := (s.queue n.val).cfg
      let bad : Bool := fld v 20 16 == 31
      let rsv : W64 := mask64 63 21 ||| mask64 15 9 ||| mask64 7 5
      let fields : W64 := mask64 20 16 ||| mask64 4 0
      let new := putFld (if bad then putFld v 20 16 (fld cfg 20 16) else v) 8 8 1 &&& ~~~ rsv
      let on := (judged (v &&& rsv ≠ 0 ∨ bad = true)).onQueue n.val fun q => { q with cfg := new }
      (bit cfg 8 = true → new &&& fields ≠ cfg &&& fields → exec (.evqEnable n v) s = .next refused) ∧
      (bit cfg 8 = true → new &&& fields = cfg &&& fields → exec (.evqEnable n v) s = .next on) ∧
      (bit cfg 8 = false →
        exec (.evqEnable n v) s = .next (on.onQueue n.val fun q => { q with tail := 0, headRead := 0, statusTail := 0 })))

/-- Hangs and resets (R16, R354, R355, R359 to R367, R372, Tables 13-8 to 13-10, 13-12): Thimble samples every source; where every
counter moved each sampled source's miss count is zero, the third miss in a row is a hang, or only logged while HANG_EN is clear; a
requested reset aborts the hosted jobs and holds, and is ignored while one runs; a device fault with AUTO_RESET clear stops the
device; after the hold every context, pattern, core and presser is as at reset and host memory stays; at its end RESETTING clears; a
unit reset has its effect or reports, and ends with its RESULT; CLR clears a violation record; a reset of port S ends the transfers
on it, and its PERST# moves its link. -/
def Obligations.HangsAndResets : Prop :=
  ∀ (s : State) (n : Ctx) (v : W64),
    let judged (rsv : W64) : State := if v &&& rsv ≠ 0 then violate 0 0x02 s else s
    let quiet : Prop := s.thm.restarting = true ∨ s.thm.halted = true ∨ s.flt.phase ≠ .none ∨ s.flt.resetting = true
    (∀ m : BitVec 18,
      (quiet → exec (.heartbeatSample m) s = .next s) ∧
      (¬ quiet → exec (.heartbeatSample m) s = .next ((s.each (List.range 18) fun u k =>
        sampleOne (beatMoved u (m.getLsbD k) k) k u).onFlt fun f => { f with beaten := 0 }))) ∧
    (¬ quiet → exec (.heartbeatSample (BitVec.allOnes 18)) s = .next (s.onFlt fun f => { f with
      misses := Vector.replicate 18 0, beaten := 0
      beats := Vector.ofFn fun u => if sampled s u.val = true ∧ ¬ (u.val < 8 ∧ f.beaten.getLsbD u.val = true)
        then f.beats[u] + 1 else f.beats[u] })) ∧
    (∀ u : Fin 18, sampled s u.val = true → s.flt.misses[u] = 2 →
      let missed := s.onFlt fun f => { f with misses := f.misses.set u 3 };
      (bit s.flt.ctrl 2 = true → s.flt.phase = .none → sampleOne false u.val s =
        (let x := missed.onFlt fun f => { f with hung := f.hung ||| BitVec.ofNat 18 (2 ^ u.val) };
        declareFault (hangRecord x u.val) x)) ∧
      (bit s.flt.ctrl 2 = false → sampleOne false u.val s = logGeneral 0x04 0 [2, BitVec.ofNat 8 u.val] missed)) ∧
    (let held (trigger : BitVec 3) (u : State) : State :=
        let x := (u.each (hostedJobs u) fun u j => originateAbort j 0x04 u).onFlt fun f => { f with
          jobFault := true, phase := .hold, resetting := true, restarts := 0, pendingTrigger := trigger, pendingCause := 0
          counted := false }
        if s.tst.busy then x.onTst fun t => { t with busy := false, result := 0x06, stopping := false } else x
      let asked := judged (mask64 63 40 ||| mask64 31 28 ||| mask64 23 2)
      let down := s.onPower fun p => { p with perstH := true, linkH := .down }
      let idle : Prop := s.flt.phase = .none ∨ s.flt.phase = .stopped
      (idle → exec (.deviceReset v) s = .next (held 2 asked) ∧ (∀ k : HotResetKind, exec (.hotReset k) s = .next (held 5 s)) ∧
        (s.power.perstH = false → exec (.perst .h true) s = .next (held 4 down))) ∧
      (¬ idle → exec (.deviceReset v) s = .next asked ∧ (∀ k : HotResetKind, exec (.hotReset k) s = .next s) ∧
        (s.power.perstH = false → exec (.perst .h true) s = .next down))) ∧
    (s.flt.phase = .hold →
      let stops : Prop := s.flt.pendingTrigger = 1 ∧ bit s.flt.ctrl 1 = false ∧ s.flt.restarts = 0
      (stops → exec .resetHoldEnd s = .next (s.onFlt fun f => { f with phase := .stopped, resetting := false })) ∧
      (¬ stops → ∃ t, exec .resetHoldEnd s = .next t ∧ t.flt.resetting = true ∧
        (s.thm.updatePending = false → s.thm.activeB = s.thm.runningB → t.flt.phase = .running) ∧
        t.flt.lastCause = s.flt.pendingCause ∧ t.flt.lastTrigger = s.flt.pendingTrigger ∧ t.hif = {} ∧ t.work = {} ∧
        t.cores = {} ∧ t.prs = {} ∧ t.srv = {} ∧ t.bolt.mem = [] ∧ t.hbm.mem = [] ∧ t.stu.stitch = s.stu.stitch ∧
        t.stu.cycle = s.stu.cycle ∧ t.hostMem = s.hostMem)) ∧
    (s.flt.phase = .running → ∀ o : ResetObs, ∃ t, exec (.deviceResetDone o) s = .next t ∧ t.flt.resetting = false ∧
      t.flt.phase = .none ∧ t.flt.restarts = 0 ∧ t.power.faultLow = false ∧ t.stu.missed = 0) ∧
    (let x := judged (mask64 63 40 ||| mask64 31 28 ||| mask64 23 2)
      let kind := fld v 27 24
      let i := fld v 39 32
      let runs (u : State) : State := u.onFlt fun f => { f with unitBusy := true, unitKind := kind, unitIndex := i }
      let all : List Nat := (List.range 16).map (16 * i + ·)
      (kind ≠ 2 → kind ≠ 3 → kind ≠ 6 → kind ≠ 8 → exec (.unitReset v) s = .next x) ∧
      (∀ r, unitRefusal x kind i = some r → kind = 2 ∨ kind = 3 ∨ kind = 6 ∨ kind = 8 →
        exec (.unitReset v) s = .next (x.onFlt fun f => { f with unitResult := BitVec.ofNat 8 r })) ∧
      (unitRefusal x kind i = none →
        (kind = 2 → exec (.unitReset v) s = .next (runs (startBandReset i .resetting x))) ∧
        (kind = 3 → exec (.unitReset v) s = .next (runs (x.each all fun u g =>
          if bandState u g = .unavailable then u else startBandReset g .resetting u))) ∧
        (kind = 6 → exec (.unitReset v) s = .next (runs (clearStack i x))) ∧
        (kind = 8 → exec (.unitReset v) s = .next (runs
          (if bit (x.port i).cfg 0 then retrain i (!(x.port i).saved) (discardPort i x) else dropChild i x))))) ∧
    (s.flt.unitBusy = false → ∀ ok, exec (.unitResetDone ok) s = .next s) ∧
    (s.flt.unitBusy = true →
      let kind := s.flt.unitKind
      let i := s.flt.unitIndex
      let ended (r : BitVec 8) : State := s.onFlt fun f => { f with unitBusy := false, unitResult := r }
      exec (.unitResetDone true) s = .next ((ended 0).each (unitBands kind i) fun u g =>
        if (u.band g).state = .resetting then bandBecomesOn g u else u) ∧
      exec (.unitResetDone false) s = .next (declareFault
        (faultRec (ended 4) 0x28 1 kind i 0 (if kind = 6 then tempWord s i else 0) 1 0 4) (holdUnit kind i (ended 4)))) ∧
    (let cleared := s.onFlt fun f => { f with viol := f.viol.set n {} };
      exec (.fltViolClr n v) s = .next (if v &&& mask64 55 33 ≠ 0 then violate 0 0x02 cleared else cleared)) ∧
    (let ended := s.each s.work.transfers failOnPortS;
      exec .portSReset s = .next (ended.onPower fun p => { p with linkS := if p.linkS = .loopback then .l0 else p.linkS }) ∧
      (s.power.perstS = false →
        exec (.perst .s true) s = .next (ended.onPower fun p => { p with perstS := true, linkS := .down }))) ∧
    (s.power.perstH = true → exec (.perst .h true) s = .next s ∧ exec (.perst .h false) s = .next (s.onPower fun p =>
      { p with perstH := false, linkH := if s.flt.phase = .powerOn then .down else .l0 })) ∧
    (s.power.perstS = true → exec (.perst .s false) s = .next (s.onPower fun p =>
      { p with perstS := false, linkS := if s.straps.portS = true ∧ s.flt.phase ≠ .powerOn then .l0 else .down }))

/-- The power of a band (R368, R387, Table 13-18): PWR_OFF written 1 to a band that is ON waits for its boundary and written 0 to one
that is OFF powers it up at once; in a transition it waits for the end of it; the domain switches off at the boundary after the
fencing with the scratch lost; at the boundary after its reset a band is ON, and a PWR_OFF written meanwhile waits for the next
boundary; a write of another PWR_OFF while the band is in a switch or a unit reset is refused; DROPS_CLR; a band of a context being
torn down is unowned at the end of its transition. -/
def Obligations.BandPower : Prop :=
  ∀ (s : State) (g : BandId) (v : W64), g.val < 16 * s.nPanels →
    let b := s.band g.val
    let judged : State := if v &&& (mask64 31 20 ||| mask64 15 11 ||| mask64 7 2) ≠ 0 then violate 0 0x02 s else s
    let cleared := judged.onBand g.val fun b => if bit v 1 then { b with drops := 0 } else b
    let refused (off : Bool) : Prop :=
      b.state ≠ .unavailable ∧ (bandSwitching s g.val = true ∨ bandUnitReset s g.val = true) ∧ off ≠ b.pwrOff
    let asks (off : Bool) (u : State) : State := u.onBand g.val fun b => match b.state with
      | .on => { b with pwrOff := off, downPending := off }
      | .fenced | .poweringDown => { b with pwrOff := off, upAfter := !off }
      | .off => { b with pwrOff := off, upAfter := false }
      | .poweringUp | .resetting => { b with pwrOff := off, downAfter := off }
      | .unavailable => b
    let torn : State := if (s.ctx b.owner.val).state = .tearingDown then s.onBand g.val fun b => { b with owner := 0 } else s
    let later : Prop := b.since < s.stu.marks ∧ s.stu.pos < 96
    (refused true → exec (.powerDown g v) s = .next (violate 0 0x02 s)) ∧
    (refused false → exec (.powerUp g v) s = .next (violate 0 0x02 s)) ∧
    (¬ refused true → exec (.powerDown g v) s = .next (asks true cleared)) ∧
    (¬ refused false → b.state ≠ .off → exec (.powerUp g v) s = .next (asks false cleared)) ∧
    (¬ refused false → b.state = .off → exec (.powerUp g v) s =
      .next (startBandReset g.val .poweringUp (cleared.onBand g.val fun b => { b with pwrOff := false, upAfter := false }))) ∧
    (let off := bit v 0
      let zero := judged.onBand g.val fun b => { b with drops := 0 }
      (refused off → exec (.dropsClr g v) s = .next (violate 0 0x02 s)) ∧
      (¬ refused off → b.state ≠ .off ∨ off = true → exec (.dropsClr g v) s = .next (asks off zero)) ∧
      (¬ refused off → b.state = .off → off = false → exec (.dropsClr g v) s =
        .next (startBandReset g.val .poweringUp (zero.onBand g.val fun b => { b with pwrOff := false, upAfter := false })))) ∧
    (b.state = .poweringDown → later → exec (.bandDomainOff g) s =
      .next ((clearBand g.val torn).onBand g.val fun b => { b with state := .off })) ∧
    (b.state ≠ .poweringDown ∨ ¬ later → exec (.bandDomainOff g) s = .next s) ∧
    (let turns : Prop := later ∧ (b.state = .poweringUp ∨
        (b.state = .resetting ∧ b.test = false ∧ bandUnitReset s g.val = false ∧ s.flt.resetting = false));
      (turns → exec (.bandOn g) s = .next (torn.onBand g.val fun b =>
        { b with state := .on, downPending := b.downAfter, downAfter := false, upAfter := false })) ∧
      (¬ turns → exec (.bandOn g) s = .next s))

/-- Power and clocks (R392, R398, R407, R408, R410, R417 to R419, R425, R440, R442): a power-on clears what flash does not keep and
its end clears RESETTING; the input lost or returned; a panel at 100 °C and a rail beyond its absolute range are device faults; a
clock lost is reported by its domain, loses the ports of a hem's clock, or stops Thimble, which restarts when its own clocks return;
a second restart within 10 minutes halts it, and at a restart's end the records held are posted; PCIe loop-back moves only the
link. -/
def Obligations.PowerAndClocks : Prop :=
  ∀ s : State,
    (∃ t, exec .powerOn s = .next t ∧ t.flt.resetting = true ∧
      (s.thm.trial = false → s.thm.updatePending = false → t.flt.phase = .powerOn) ∧ t.stu = {} ∧ t.cores = {} ∧ t.work = {} ∧
      t.hif = {} ∧ t.prs = {} ∧ t.hostMem = s.hostMem ∧ t.straps = s.straps ∧ t.power.inputOk = true ∧ t.power.pwrgd = true ∧
      t.power.faultLow = false ∧ (s.power.inputOk = false → exec .inputReturn s = .next t)) ∧
    (s.power.inputOk = true → exec .inputReturn s = .next s) ∧
    (s.flt.phase = .powerOn → s.power.inputOk = true → ∀ o : ResetObs, ∃ t, exec (.powerOnDone o) s = .next t ∧
      t.flt.resetting = false ∧ t.flt.phase = .none ∧ (s.power.perstH = true → t.power.linkH = .down) ∧
      (s.power.perstH = false → s.power.linkH = .down → t.power.linkH = .l0)) ∧
    (∀ mv : Nat,
      let falls (u : State) : State := (u.onPower fun p => { p with
        inputOk := false, alwaysOn := decide (20000 ≤ mv), pwrgd := false }).onFlt fun f => { f with phase := .powerOn, resetting := true }
      let starts : Prop := s.flt.phase = .powerOn
      (s.power.inputOk = true → starts → railOperating s 31 mv = false → exec (.inputLoss mv) s = .next (falls s)) ∧
      (s.power.inputOk = true → ¬ starts → railAbsolute s 31 mv ≠ 0 → exec (.inputLoss mv) s = .next (falls (supplyTrip 31 mv s))) ∧
      (s.power.inputOk = false ∨ (starts ∧ railOperating s 31 mv = true) ∨ (¬ starts ∧ railAbsolute s 31 mv = 0) →
        exec (.inputLoss mv) s = .next s)) ∧
    (∀ x : Fin 96,
      (x.val / 12 < s.nPanels → s.power.inputOk = true →
        exec (.panelThermal x) s = .next (declareFault (faultRec s 0x21 4 0x03 (x.val / 12) 0 0 1 0 x.val) s)) ∧
      (s.nPanels ≤ x.val / 12 ∨ s.power.inputOk = false → exec (.panelThermal x) s = .next s)) ∧
    (∀ (r : Fin 32) (mv : Nat),
      let trips : Prop := s.power.inputOk = true ∧ railHeld s r.val = false ∧ railAbsolute s r.val mv ≠ 0
      (trips → exec (.supply r mv) s = .next ((declareFault
        (faultRec s 0x22 4 0x0C r.val 0 mv 1 0 (railAbsolute s r.val mv)) s).onPower fun p => { p with pwrgd := false })) ∧
      (¬ trips → exec (.supply r mv) s = .next s)) ∧
    (∀ d : Fin 25,
      let absent : Prop := d.val < 16 ∧ s.nPanels ≤ d.val % 8
      let u := s.onThm fun t => { t with clkLock := t.clkLock &&& ~~~ (BitVec.ofNat 25 (2 ^ d.val)) }
      let r := s.onThm fun t => { t with clkLock := t.clkLock ||| BitVec.ofNat 25 (2 ^ d.val) }
      let own : Prop := (d.val = 21 ∨ d.val = 23) ∧ r.thm.clkLock.getLsbD 21 = true ∧ r.thm.clkLock.getLsbD 23 = true ∧
        s.thm.halted = false
      (d.val = 24 ∨ absent → exec (.clockLost d) s = .next s) ∧
      (d.val < 16 ∨ d.val = 20 ∨ d.val = 22 → ¬ absent → exec (.clockLost d) s = .next (declareFault (clockRecord u d.val) u)) ∧
      (16 ≤ d.val → d.val < 20 → exec (.clockLost d) s = .next (u.each ((List.range 4).map (4 * (d.val - 16) + ·)) fun u m =>
        if (u.port m).state = .active then losePort m .laneLock 0 u else u)) ∧
      (d.val = 21 ∨ d.val = 23 →
        exec (.clockLost d) s = .next (stopTestForThimble (u.onThm fun t => { t with restarting := !t.halted }))) ∧
      (d.val = 24 ∨ s.thm.clkLock.getLsbD d.val = true → exec (.clockReturn d) s = .next s) ∧
      (d.val ≠ 24 → s.thm.clkLock.getLsbD d.val = false → own → exec (.clockReturn d) s = exec .thimbleRestart r) ∧
      (d.val ≠ 24 → s.thm.clkLock.getLsbD d.val = false → ¬ own → exec (.clockReturn d) s = .next r)) ∧
    (s.thm.halted = true → exec .thimbleRestart s = .next s) ∧
    (s.thm.halted = false →
      let again : Bool := match s.thm.firstRestart with
        | some t => decide (s.ns - t < 600000000000)
        | none => false
      let x := stopTestForThimble (logCritical 0x0A [] (s.onThm fun t => { t with
        restarts := satInc t.restarts 1, restarting := !again, halted := again
        firstRestart := if again then t.firstRestart else some s.ns }))
      exec .thimbleRestart s = .next (if s.flt.phase = .hold ∨ s.flt.phase = .running then triggerReset 1 0 x else x)) ∧
    (s.thm.restarting = false → exec .thimbleRestartDone s = .next s) ∧
    (s.thm.restarting = true →
      let x := boot false (s.onThm fun t => { t with restarting := false })
      exec .thimbleRestartDone s = .next ((x.onFlt fun f => { f with misses := Vector.replicate 18 0, deferred := [] }).each
        x.flt.deferred fun s r => postRecord r s)) ∧
    (let enter (l : LinkState) : LinkState := if l = .l0 then .loopback else l
      let leave (l : LinkState) : LinkState := if l = .loopback then .l0 else l
      exec (.pcieLoopback .h) s = .next (s.onPower fun p => { p with linkH := enter p.linkH }) ∧
      exec (.pcieLoopback .s) s = .next (s.onPower fun p => { p with linkS := enter p.linkS }) ∧
      exec (.pcieLoopbackExit .h) s = .next (s.onPower fun p => { p with linkH := leave p.linkH }) ∧
      exec (.pcieLoopbackExit .s) s = .next (s.onPower fun p => { p with linkS := leave p.linkS }))

/-- The mailbox (R392, R411 to R415, Tables 15-9, 15-17): with Thimble running and no command under way a command with a buffer
long enough writes its bytes, RESULT 0x00 and vector 31, with one too short RESULT 0x02; keys and fuses change only where THM_CTRL
lets the host; an unknown map or an empty slot reports 0x06; a key in use goes when its bundles have ended, which completes the
command; a command while another is under way counts one violation; and during a Thimble restart every command reports 0x01. -/
def Obligations.MailboxCommands : Prop :=
  ∀ (s : State) (v : W64),
    let arg : BitVec 32 := v.extractLsb' 32 32
    let asked := (if v &&& (mask64 23 17 ||| mask64 15 8) ≠ 0 then violate 0 0x02 s else s).onThm fun t => { t with mboxArg := arg }
    let done (r : Byte) (u : State) : State := (u.onThm fun t => { t with mbox := none, mboxResult := r }).emit (.msix 31)
    let at_ := fld s.thm.mboxAddr 63 6 * 64
    let len := fld s.thm.mboxLen 23 0
    let written (bs : List Byte) : State := done 0 (asked.setHostMem (Mem.write asked.hostMem at_ bs))
    let given (x : Nat × State) : State := done (BitVec.ofNat 8 x.1) x.2
    let all : List Instr := [.logRead v, .clearCritical v, .sensorSnapshot v, .pubkeyAdd v, .pubkeyRemove v, .pubkeyList v, .fuseAdd v,
      .fuseRead v, .fuseClear v, .identity v]
    let keys := bit s.thm.ctrl 1
    let fuses := bit s.thm.ctrl 2
    let map := arg.toNat
    let id := leBytes 32 Config.identityKey.toNat ++ Config.identityChain
    (s.thm.mbox = none → s.thm.restarting = false → s.thm.halted = false →
      (128 ≤ len → exec (.logRead v) s = .next (written (logFrom asked arg (len / 128)))) ∧
      (len < 128 → exec (.logRead v) s = .next (done 2 asked)) ∧
      exec (.clearCritical v) s = .next (done 0 (asked.onThm fun t => { t with critical := [], critFull := false, flashBusy := true })) ∧
      ((sensorBytes asked).length ≤ len → exec (.sensorSnapshot v) s = .next (written (sensorBytes asked))) ∧
      (len < (sensorBytes asked).length → exec (.sensorSnapshot v) s = .next (done 2 asked)) ∧
      ((keyListBytes asked).length ≤ len → exec (.pubkeyList v) s = .next (written (keyListBytes asked))) ∧
      (len < (keyListBytes asked).length → exec (.pubkeyList v) s = .next (done 2 asked)) ∧
      (id.length ≤ len → exec (.identity v) s = .next (written id)) ∧
      (len < id.length → exec (.identity v) s = .next (done 2 asked)) ∧
      (keys = false → exec (.pubkeyAdd v) s = .next (done 5 asked) ∧ exec (.pubkeyRemove v) s = .next (done 5 asked)) ∧
      (keys = true → 32 ≤ len → exec (.pubkeyAdd v) s = .next (given (addKey (BitVec.ofNat 256 (Mem.le asked.hostMem at_ 32)) asked))) ∧
      (keys = true → len < 32 → exec (.pubkeyAdd v) s = .next (done 2 asked)) ∧
      (keys = true → 16 ≤ map ∨ (∃ i : Fin 16, map = i.val ∧ s.thm.pubKeys[i] = none) →
        exec (.pubkeyRemove v) s = .next (done 6 asked)) ∧
      (keys = true → ∀ (i : Fin 16) (k : BitVec 256), map = i.val → s.thm.pubKeys[i] = some k →
        (bundleUses s (keyId k) = false → exec (.pubkeyRemove v) s = .next (done 0 (removeKey i.val asked))) ∧
        (bundleUses s (keyId k) = true → exec (.pubkeyRemove v) s = .next (asked.onThm fun t => { t with
          mbox := some { cmd := 5, arg := arg }, removal := some i }))) ∧
      (fuses = false → exec (.fuseAdd v) s = .next (done 5 asked) ∧ exec (.fuseClear v) s = .next (done 5 asked)) ∧
      (3 ≤ map → exec (.fuseRead v) s = .next (done 6 asked) ∧
        (fuses = true → exec (.fuseAdd v) s = .next (done 6 asked) ∧ exec (.fuseClear v) s = .next (done 6 asked))) ∧
      (map < 3 →
        ((fuseBytes asked map).length ≤ len → exec (.fuseRead v) s = .next (written (fuseBytes asked map))) ∧
        (len < (fuseBytes asked map).length → exec (.fuseRead v) s = .next (done 2 asked)) ∧
        (fuses = true →
          exec (.fuseClear v) s = .next (done 0 (clearFuses map asked)) ∧
          (8 ≤ len → exec (.fuseAdd v) s =
            .next (given (addFuse map (BitVec.ofNat 64 (Mem.le asked.hostMem at_ 8)) asked))) ∧
          (len < 8 → exec (.fuseAdd v) s = .next (done 2 asked))))) ∧
    (s.thm.mbox = none → s.thm.restarting = true ∨ s.thm.halted = true → ∀ c ∈ all,
      exec c s = .next (asked.onThm fun t => { t with mboxResult := 1 })) ∧
    (s.thm.mbox.isSome → ∀ c ∈ all, exec c s = .next (violate 0 0x02 s)) ∧
    ∀ i : Fin 16,
      (s.thm.removal ≠ some i → exec (.keyRemovalDone i) s = .next s) ∧
      ∀ k : BitVec 256, s.thm.removal = some i → s.thm.pubKeys[i] = some k →
        let gone := (removeKey i.val s).onThm fun t => { t with removal := none }
        (bundleUses s (keyId k) = true → exec (.keyRemovalDone i) s = .next s) ∧
        (bundleUses s (keyId k) = false → s.thm.mbox = none → exec (.keyRemovalDone i) s = .next gone) ∧
        (bundleUses s (keyId k) = false → s.thm.mbox.isSome → exec (.keyRemovalDone i) s = .next (done 0 gone))

/-- Thimble's own work (R394, R397 to R399, R402, R406, R407): panel readings are kept, and a panel at 90 °C whose target is the
nominal clock gets target 18; readings below that are only kept; the heartbeat goes to the receiver; a commit clears FLASH_BUSY and ends a
certificate's wait; a trial not confirmed in time is abandoned with a reset at once; MAX_CLR; an update erases the inactive image,
takes the new one, verifies it, and makes it pending. While Thimble does not run it does none of this. -/
def Obligations.ThimbleUpkeep : Prop :=
  ∀ (s : State) (t : Transport),
    (∀ readings : List Int,
      let r := (List.range 96).map fun i => if i / 12 < s.nPanels then readings.getD i 0 else 0
      (thimbleRuns s = false → exec (.panelSensorRead readings) s = .next s) ∧
      (thimbleRuns s = true → ∃ u, exec (.panelSensorRead readings) s = .next u ∧
        (∀ i < 96, Tab.getD u.thm.sensors i 0 = BitVec.ofInt 32 (r.getD i 0)) ∧
        (∀ p : Fin 8, p.val < s.nPanels →
          let hot : Prop := 1440 ≤ hottestOf r p.val ∧ s.thm.panels[p].targetK = 16
          (hot → u.thm.panels[p].targetK = 18) ∧ (¬ hot → u.thm.panels[p].targetK = s.thm.panels[p].targetK)) ∧
        ((∀ x ∈ r, x < 1440) → u.out = s.out))) ∧
    (s.thm.receiver.isSome → thimbleRuns s = true → exec .pldmHeartbeat s = .next (s.emit .pldmHeartbeat)) ∧
    (s.thm.receiver = none ∨ thimbleRuns s = false → exec .pldmHeartbeat s = .next s) ∧
    (s.thm.flashBusy = false → exec .storeCommitDone s = .next s) ∧
    (s.thm.flashBusy = true →
      let kept := s.onThm fun x => { x with flashBusy := false, generation := x.generation + 1, commitCert := false }
      (s.thm.commitCert = false → exec .storeCommitDone s = .next kept) ∧
      (s.thm.commitCert = true → s.lin.certBmc = false →
        exec .storeCommitDone s = .next (kept.onLin fun l => { l with certResult := 0 })) ∧
      (s.thm.commitCert = true → s.lin.certBmc = true → exec .storeCommitDone s =
        .next ((kept.onLin fun l => { l with certBmc := false }).emit (.mctp .i3c (Config.encodeResponse 0x3F02 [[0]]))))) ∧
    (s.thm.trial = false → exec .trialTimeout s = .next s) ∧
    (s.thm.trial = true →
      let x := logCritical 0x07 [3] (s.onThm fun x => { x with activeB := !x.activeB, trial := false, attempts := 0 })
      (s.flt.phase = .none ∨ s.flt.phase = .stopped → exec .trialTimeout s = .next (x.onFlt fun f => { f with
        phase := .hold, resetting := true, restarts := 0, pendingTrigger := 0, pendingCause := 0, counted := false })) ∧
      (s.flt.phase ≠ .none → s.flt.phase ≠ .stopped →
        exec .trialTimeout s = .next (x.onFlt fun f => { f with phase := .hold, resetting := true }))) ∧
    (∀ v : W64,
      let x := if v &&& (mask64 63 16 ||| mask64 14 9) ≠ 0 then violate 0 0x02 s else s
      exec (.sensorMaxClr v) s = .next (x.onThm fun x => { x with
        sensorSel := BitVec.ofNat 64 (fld v 8 0), sensorMax := Tab.put x.sensorMax (fld v 8 0) (Tab.getD x.sensors (fld v 8 0) 0) })) ∧
    ∀ image : Bytes,
      let inactive (b : List Byte) (u : State) : State :=
        u.onThm fun x => if x.runningB then { x with imageA := b } else { x with imageB := b }
      let replies (code : Nat) (r : Byte) (via : Transport) (u : State) : State := u.emit (.mctp via (Config.encodeResponse code [[r]]))
      (thimbleRuns s = false →
        exec (.requestUpdate t) s = .next s ∧ exec .verifyComplete s = .next s ∧ exec (.activateFirmware t) s = .next s) ∧
      (s.thm.update = .transferring → exec (.transferComplete image) s =
        .next ((inactive image s).onThm fun x => { x with update := .transferred })) ∧
      (s.thm.update ≠ .transferring → exec (.transferComplete image) s = .next s) ∧
      (thimbleRuns s = true →
        exec (.requestUpdate t) s = .next (replies 0x0510 0 t (logCritical 0x08 [0x10]
          ((inactive [] s).onThm fun x => { x with update := .transferring, updateVia := t }))) ∧
        (s.thm.update ≠ .transferred → exec .verifyComplete s = .next s) ∧
        (s.thm.update = .transferred →
          let ok := imageValid s (if s.thm.runningB then s.thm.imageA else s.thm.imageB)
          exec .verifyComplete s = .next (replies 0x0517 (if ok then 0 else 1) s.thm.updateVia (logCritical 0x08 [0x17]
            (s.onThm fun x => { x with update := if ok then .verified else .idle })))) ∧
        (s.thm.update ≠ .verified → exec (.activateFirmware t) s = .next (replies 0x051A 1 t s)) ∧
        (s.thm.update = .verified → exec (.activateFirmware t) s = .next (replies 0x051A 0 t (logCritical 0x08 [0x1A]
          (s.onThm fun x => { x with update := .idle, updatePending := true, attempts := 0, flashBusy := true })))))

/-- The requests of the BMC (R6, R361, R398, R401 to R405, Tables 15-5 to 15-7, 15-17): of a Thimble that runs a valid image each is
answered on its transport, changing what it sets and nothing else; KEY_EXCHANGE and PSK_EXCHANGE are refused; in recovery only MCTP
control and PLDM types 0 and 5 are accepted; while Thimble does not run an OEM command reports 0x01 and no other is answered. What
the bytes of a response are to its named parts is a free value (assumption log 37). -/
def Obligations.ManagementRequests : Prop :=
  ∀ (s : State) (t : Transport) (seq : BitVec 32) (op : PubkeyOp) (fuse : FuseOp) (writes : List QuorumWrite) (b : Byte) (id : Nat)
      (on : Bool) (off len : Nat) (nonce : BitVec 256),
    let replies (code : Nat) (parts : List (List Byte)) (u : State) : State := u.emit (.mctp t (Config.encodeResponse code parts))
    let oem : List Instr := [.oemDeviceReset t, .oemLogRead t seq, .oemPubkey t op, .oemFuse t fuse, .quorumWrite t writes, .domainState t]
    let basic : List Instr := [.mctpControl t b b, .getTid t, .getPldmVersion t b, .getPldmTypes t, .getPldmCommands t b,
      .queryDeviceIdentifiers t, .getFirmwareParameters t]
    let other : List Instr := [.sensorReading t id, .pdrRepository t, .setEventReceiver t b on, .fruRecord t, .getVersion t,
      .getCapabilities t, .negotiateAlgorithms t, .getDigests t, .getCertificate t b off len, .challenge t b nonce,
      .getMeasurements t id nonce, .keyExchange t, .pskExchange t]
    let counts := leBytes 1 (if s.straps.grade7 then 151 else 170) ++ leBytes 1 (if s.straps.grade7 then 19 else 0)
    (thimbleRuns s = false → (∀ c ∈ oem, ∃ code, exec c s = .next (replies code [[0x01]] s)) ∧
      ∀ c ∈ basic ++ other, exec c s = .next s) ∧
    (thimbleRuns s = true → s.thm.recovery = true → ∀ c ∈ oem ++ other, exec c s = .next (s.emit (.mctpError t))) ∧
    (thimbleRuns s = true →
      exec (.getTid t) s = .next (replies 0x0002 [] s) ∧
      exec (.getPldmVersion t b) s = .next (replies 0x0003 [[b]] s) ∧
      exec (.getPldmTypes t) s = .next (replies 0x0004 [[0, 2, 4, 5, 63]] s) ∧
      exec (.getPldmCommands t b) s = .next (replies 0x0005 [[b]] s) ∧
      exec (.queryDeviceIdentifiers t) s = .next (replies 0x0501 [leBytes 2 Config.vendorId.toNat, identityBytes s] s) ∧
      exec (.getFirmwareParameters t) s = .next (replies 0x0502 [imageParameters s.thm.imageA, imageParameters s.thm.imageB] s) ∧
      (∀ e : Byte, exec (.mctpControl .i3c 0x01 e) s = .next ((s.onThm fun x => { x with eidI3c := e }).emit
          (.mctp .i3c (Config.encodeResponse 0 [[0x01], [e, s.thm.eidPcie]]))) ∧
        exec (.mctpControl .pcie 0x01 e) s = .next ((s.onThm fun x => { x with eidPcie := e }).emit
          (.mctp .pcie (Config.encodeResponse 0 [[0x01], [s.thm.eidI3c, e]]))) ∧
        (b ≠ 0x01 → exec (.mctpControl t b e) s = .next (replies 0 [[b], [s.thm.eidI3c, s.thm.eidPcie]] s)))) ∧
    (thimbleRuns s = true → s.thm.recovery = false →
      exec (.oemDeviceReset t) s = .next (replies 0x3F01 [[0], []] (requestReset 3 s)) ∧
      exec (.oemLogRead t seq) s = .next (replies 0x3F03 [[0], logFrom s seq 16] s) ∧
      exec (.oemPubkey t .list) s = .next (replies 0x3F04 [[0], keyListBytes s] s) ∧
      (∀ k, let x := addKey k s
        exec (.oemPubkey t (.add k)) s = .next (replies 0x3F04 [[BitVec.ofNat 8 x.1], []] x.2)) ∧
      (∀ i : Fin 16,
        (s.thm.pubKeys[i] = none → exec (.oemPubkey t (.remove i)) s = .next (replies 0x3F04 [[6], []] s)) ∧
        ∀ k, s.thm.pubKeys[i] = some k → exec (.oemPubkey t (.remove i)) s = .next (replies 0x3F04 [[0], []]
          (if bundleUses s (keyId k) then s.onThm fun x => { x with removal := some i } else removeKey i.val s))) ∧
      (∀ m e,
        (3 ≤ m → exec (.oemFuse t (.read m)) s = .next (replies 0x3F06 [[6], []] s) ∧
          exec (.oemFuse t (.add m e)) s = .next (replies 0x3F06 [[6], []] s) ∧
          exec (.oemFuse t (.clear m)) s = .next (replies 0x3F06 [[6], []] s)) ∧
        (m < 3 → exec (.oemFuse t (.read m)) s = .next (replies 0x3F06 [[0], fuseBytes s m] s) ∧
          exec (.oemFuse t (.add m e)) s = .next (replies 0x3F06 [[BitVec.ofNat 8 (addFuse m e s).1], []] (addFuse m e s).2) ∧
          exec (.oemFuse t (.clear m)) s = .next (replies 0x3F06 [[0], []] (clearFuses m s)))) ∧
      exec (.quorumWrite t writes) s = .next (replies 0x3F05 [[0], []] (s.each writes writeQuorumAt)) ∧
      (∀ w : QuorumWrite, w.offset = 8 → w.value ≠ 0 → s.lin.fabricId = 0 → writeQuorumAt s w =
        ((logCritical 0x0B (leBytes 2 8 ++ leBytes 8 w.value.toNat) (s.onLin fun l =>
          { l with fabricId := w.value })).onThm fun x => { x with flashBusy := true })) ∧
      exec (.domainState t) s = .next (replies 0x3F07 [[0], domainBytes s] s) ∧
      (∀ i : Fin 307, exec (.sensorReading t (i.val + 1)) s =
        .next (replies 0x0211 [[0], leBytes 4 (Tab.getD s.thm.sensors i.val 0).toNat] s)) ∧
      (id = 0 ∨ 307 < id → exec (.sensorReading t id) s = .next (replies 0x0211 [[1]] s)) ∧
      exec (.pdrRepository t) s = .next (replies 0x0251 [leBytes 2 307, counts] s) ∧
      exec (.setEventReceiver t b on) s =
        .next (replies 0x0204 [] (s.onThm fun x => { x with receiver := if on then some b else none })) ∧
      exec (.fruRecord t) s = .next (replies 0x0402 [identityBytes s, counts] s) ∧
      exec (.getVersion t) s = .next (replies 0x8404 [[0x12]] s) ∧
      exec (.getCapabilities t) s = .next (replies 0x84E1 [] s) ∧
      exec (.negotiateAlgorithms t) s = .next (replies 0x84E3 [] (s.onThm fun x => { x with spdmNegotiated := true })) ∧
      exec (.getDigests t) s = .next (replies 0x8481 [sha256 Config.identityChain] s) ∧
      exec (.getCertificate t b off len) s =
        .next (replies 0x8482 (if b = 0 then [[0], (Config.identityChain.drop off).take len] else [[1]]) s) ∧
      (let body := leBytes 32 nonce.toNat ++ sha256 Config.identityChain;
        exec (.challenge t b nonce) s =
          .next (replies 0x8483 (if b = 0 then [[0], body, Config.identitySign body] else [[1]]) s)) ∧
      (let which : List Nat := if id = 0xFF then [1, 2, 3, 4, 5, 6, 7] else if 1 ≤ id ∧ id ≤ 7 then [id] else []
        let body := (which.map fun i => leBytes 1 i ++ sha256 (measured s i)).flatten ++ leBytes 32 nonce.toNat;
        exec (.getMeasurements t id nonce) s = .next (replies 0x84E0 [body, Config.identitySign body] s)) ∧
      exec (.keyExchange t) s = .next (replies 0x847F [[0xE4]] s) ∧
      exec (.pskExchange t) s = .next (replies 0x847F [[0xE6]] s))

/-- The test access port and the test block (R422 to R424, R428, R429, R432, Tables 16-2, 16-8): the instructions that need
TEST_MODE act as BYPASS without it; IDCODE shifts out the identification register; a private instruction is refused by name in
TEST_MODE only, where the spec gives it no effect; a test starts, its bands then resetting, or reports why not; it is asked to stop;
and it ends with its counts, the repairs of a failure, the unit reset of a destructive one, RESULT and vector 31. -/
def Obligations.TestPortAndTests : Prop :=
  ∀ (s : State) (select : Fin 8) (code : Byte),
    let set (ir : Byte) (driven highz : Bool) (w : Option (Fin 8)) : State := s.onTap fun t => { t with
      ir := ir, driven := driven, highz := highz, wrapper := w }
    let bypassed := (set 0xFF false false none).emit (.tdo [0])
    let word := BitVec.ofNat 32 (fld Config.stepping 3 0 * 2 ^ 28 + (if s.straps.grade7 then 0x7028 else 0x8032) * 2 ^ 12 +
      Config.jedec.toNat * 2 + 1)
    exec .idcode s = .next ((set 0x01 false false none).emit (.tdo (leBytes 4 word.toNat))) ∧
    (∀ (p : Option Bytes) (balls : Bytes), exec (.samplePreload p balls) s = .next ((s.onTap fun t => { t with
      ir := 0x02, driven := false, highz := false, wrapper := none, boundary := p.getD balls }).emit (.tdo balls))) ∧
    exec (.bypass code) s = .next bypassed ∧
    (s.straps.testMode = true →
      exec .extest s = .next (set 0x03 true false none) ∧ exec .highz s = .next (set 0x04 false true none) ∧
      exec .clamp s = .next (set 0x05 true false none) ∧ exec .extestPulse s = .next (set 0x06 true false none) ∧
      exec .extestTrain s = .next (set 0x07 true false none) ∧
      exec (.hbmWrapper select) s = .next (set 0x10 false false (some select)) ∧
      (0x20 ≤ code.toNat → code.toNat ≤ 0x3F → exec (.privateInstruction code) s = .refused (.privateTest code))) ∧
    (code.toNat < 0x20 ∨ 0x3F < code.toNat → exec (.privateInstruction code) s = .next bypassed) ∧
    (s.straps.testMode = false →
      ∀ c ∈ [Instr.extest, .highz, .clamp, .extestPulse, .extestTrain, .hbmWrapper select, .privateInstruction code],
        exec c s = .next bypassed) ∧
    (∀ v : W64,
      let x := if v &&& (mask64 63 48 ||| mask64 15 2) ≠ 0 then violate 0 0x02 s else s
      let kept := x.onTst fun t => { t with cmd := v &&& mask64 47 16 }
      let (test, target, edge) := (fld v 47 32, fld v 31 24, fld v 23 16)
      let refusal := testRefusal kept test target edge
      (s.flt.resetting = true → refusal = some 0x03) ∧
      (s.flt.resetting = false → testOf test = none → refusal = some 0x05) ∧
      (∀ r, refusal = some r → exec (.tstStart v) s = .next (kept.onTst fun t =>
        if t.busy then { t with result := r } else { t with result := r, test := BitVec.ofNat 16 test })) ∧
      (∀ u d, refusal = none → testOf test = some (u, d) →
        let bands := (testBands u target edge).filter fun g => bandState kept g != .unavailable
        exec (.tstStart v) s = .next ((kept.each bands fun u g => u.onBand g fun b =>
          { b with state := .resetting, test := true }).onTst fun t => { t with
            busy := true, test := BitVec.ofNat 16 test, target := target, edge := edge, stopping := false, elapsed := 0 })) ∧
      exec (.tstStop v) s = .next (kept.onTst fun t => { t with stopping := t.busy })) ∧
    ∀ (o : TestObs) (us : BitVec 32),
      (s.tst.busy = false ∨ thimbleRuns s = false → exec (.testDone o us) s = .next s) ∧
      (s.tst.busy = true → thimbleRuns s = true →
        let t := s.tst
        let r : Byte := if t.stopping then 0x06 else if o.passed = false then 0x01 else if o.repaired then 0x07 else 0x00
        let x := s.onTst fun t => { t with elapsed := us, detail := o.detail, errors := o.errors, checked := o.checked }
        let x := if r = 0x01 then logGeneral 0x04 0 (0x10 :: leBytes 2 t.test.toNat ++ leBytes 1 t.target) x else x
        let x := if t.stopping then x else x.each o.fuses fun s f => (addFuse f.1 f.2 s).2
        let ends (u : State) : State := (u.onTst fun t => { t with busy := false, stopping := false, result := r }).emit (.msix 31)
        (∀ u, testOf t.test.toNat = some (u, true) →
          exec (.testDone o us) s = .next (ends (afterTest u t.target t.edge x))) ∧
        ((∀ u, testOf t.test.toNat ≠ some (u, true)) → exec (.testDone o us) s = .next (ends x)))

/-- Reads and writes of BAR0 (R12, R373), outside a device reset and MANAGEMENT_ONLY: an offset that holds no register takes nothing, reads
zero and counts a violation, for a write only when it is not zero; a misaligned access likewise with kind 0x02; a readable
register is read as it stands (SEA_RT_DATA, whose read also moves INDEX, aside); a write acts on the register, or on the half it addresses. LOCK and the fields it locks (R12,
R390), of FLT_CTRL, THM_CTRL and TST_CTRL: LOCK once set stays set; a locked field keeps its value and a write of another counts
one violation, as does a reserved bit; an unlocked one takes the value written, with LOCK set by the same write or not. The half
of a register that a 32-bit write does not address keeps its value (R373), shown on THM_MBOX_ADDR, whose bits 63 to 6 are RW. -/
def Obligations.RegisterAccesses : Prop :=
  ∀ (s : State) (v : W64), TakesWrites s →
    (∀ off, off % 8 = 0 →
      (regAt s off = none →
        exec (.registerWrite off true 0) s = .next s ∧
        (v ≠ 0 → exec (.registerWrite off true v) s = .next (violate 0 0x02 s)) ∧
        exec (.registerRead off true) s = .next ((violate 0 0x03 s).emit (.readData 0)) ∧
        exec (.registerRead (off + 4) false) s = .next ((violate 0 0x03 s).emit (.readData 0))) ∧
      (∀ r, regAt s off = some r →
        exec (.registerWrite off true v) s = .next (r.write v s) ∧
        (r.readable = true → off ≠ 0x800020 →
          exec (.registerRead off true) s = .next (s.emit (.readData r.value)) ∧
          exec (.registerRead off false) s = .next (s.emit (.readData (r.value &&& 0xFFFFFFFF))) ∧
          exec (.registerRead (off + 4) false) s = .next (s.emit (.readData (r.value >>> 32)))) ∧
        (r.readable = false → exec (.registerRead off true) s = .next ((violate 0 0x03 s).emit (.readData 0)))) ∧
      exec (.registerWrite (off + 4) true v) s = .next (violate 0 0x02 s) ∧
      exec (.registerWrite (off + 2) false v) s = .next (violate 0 0x02 s) ∧
      exec (.registerRead (off + 4) true) s = .next ((violate 0 0x02 s).emit (.readData 0))) ∧
    let judged (w rsv rwl : W64) (u : State) : State :=
      if v &&& rsv ≠ 0 ∨ (bit w 0 = true ∧ (v ^^^ w) &&& rwl ≠ 0) then violate 0 0x02 u else u
    let kept (w rwl : W64) : W64 := ((if bit w 0 then w else v) &&& rwl) ||| ((w ||| v) &&& 1)
    exec (.registerWrite 0xC00000 true v) s = .next ((judged s.flt.ctrl 0xFFFFFFFFFFFFFFF8 6 s).onFlt fun f =>
      { f with ctrl := kept s.flt.ctrl 6 }) ∧
    exec (.registerWrite 0xD00000 true v) s = .next ((judged s.thm.ctrl 0xFFFFFFFFFFFFFFF8 6 s).onThm fun t =>
      { t with ctrl := kept s.thm.ctrl 6 }) ∧
    exec (.registerWrite 0xE00000 true v) s = .next ((judged s.tst.ctrl 0xFFFFFFFFFFFFFFFC 2 s).onTst fun t =>
      { t with ctrl := kept s.tst.ctrl 2 }) ∧
    (∀ x : BitVec 32, x &&& 0x3F = 0 → s.thm.mboxAddr &&& 0x3F = 0 →
      exec (.registerWrite 0xD00018 false (x.setWidth 64)) s = .next (s.onThm fun t => { t with
        mboxAddr := s.thm.mboxAddr.extractLsb' 32 32 ++ x }) ∧
      exec (.registerWrite 0xD0001C false (x.setWidth 64)) s = .next (s.onThm fun t => { t with
        mboxAddr := x ++ s.thm.mboxAddr.extractLsb' 0 32 }))

/-- The commands that write a register outside IDN, FLT, THM and TST do nothing while a device reset is in progress (R364), and
in MANAGEMENT_ONLY count one violation and do nothing else (R366). -/
def Obligations.ClosedBlocksTakeNoWrites : Prop :=
  ∀ (s : State) (n : Ctx) (k : Panel) (p : PortId) (v : W64) (x : Bool) (q : Fin 6),
    ∀ c ∈ [Instr.stuPeriodWrite v, .stuEnable v, .sysFactor v, .prsTblLoad v, .prsBind k v, .prsReserveWrite k v, .prsMirrorWrite v,
        .prsStepWrite n x v, .retune p v, .fullEq p v, .loopbackSelect p v, .portEn p v, .seaRtDataAccess (some v), .abortSend v,
        .colCreditWrite n v, .colSeqWrite n q v, .peakClr n v, .seqCancel n v, .srvEnable n v, .srvDisable n v, .srvRtWrite n x v,
        .bltDefine v, .bltRelease v, .hbtDefine v, .hbtRelease v, .scrubFloorWrite v, .hbmTempMaxClr k v, .pairing v,
        .liningDisable v, .certSubmit (.register v), .create n v, .teardown n v, .ctxSwitch v, .ctxSeedWrite n x v,
        .ctxShareWrite n x v, .ringEnable n v, .ringDisable n v, .evqEnable n v],
      (s.flt.resetting = true → exec c s = .next s) ∧
      (s.flt.resetting = false → s.flt.mode = 2 → exec c s = .next (violate 0 0x02 s))

/-- The state right after reset, the fields whose reset value a table of the spec gives: period, stretch, stitch and cycle,
role, FLT_CTRL, RESETTING, no context but the system context, no ring or event queue enabled, no region, no arm entry and no
pending command. -/
def Obligations.ResetState : Prop :=
  let s := State.reset
  s.stu.ctrl = 0 ∧ s.stu.periodUnits = 0x400 ∧ s.stu.curFactor = 16 ∧ s.stu.ownFactor = 16 ∧ s.stu.subtreeFactor = 16 ∧
    s.stu.stitch = 0 ∧ s.stu.cycle = 0 ∧ s.stu.queue = [] ∧ s.flt.ctrl = 6 ∧ s.flt.resetting = true ∧ s.flt.resets = 0 ∧
    (∀ n : Ctx, (s.ctx n.val).state = if n = 0 then .active else .free) ∧ (∀ n : Ctx, bit (s.ring n.val).cfg 8 = false) ∧
    (∀ n : Ctx, bit (s.queue n.val).cfg 8 = false) ∧ s.bolt.regions = [] ∧ s.hbm.regions = [] ∧ s.work.entries = [] ∧
    s.work.patterns = [] ∧ s.pending = [] ∧ memWf s

/-- Every command has its effect: on any state it answers a next state, but for a private instruction of the test access port in
TEST_MODE, to which the spec gives no effect. -/
def Obligations.EveryCommandCompletes : Prop :=
  ∀ (c : Instr) (s : State), (∀ code, c = .privateInstruction code → s.straps.testMode = false ∨ code.toNat < 0x20 ∨ 0x3F < code.toNat) →
    Answers (exec c s)

/-- Every step keeps what no command may touch: the queue loses its front command and nothing else, the straps and the fused
grade stay, and nothing that went out is taken back. -/
def Obligations.EveryStepKeepsQueueStrapsAndOutput : Prop :=
  ∀ s t : State, step s = .next t → t.pending = s.pending.tail ∧ t.straps = s.straps ∧ s.out <:+ t.out

/-- Every step leaves every memory of the device in its canonical form, addresses strictly rising and no entry that reads as an
unlisted one: host memory, port S, bolt, HBM tier, the scratch of every core, the inbox ring of every presser. -/
def Obligations.EveryStepKeepsMemoriesCanonical : Prop :=
  ∀ s t : State, memWf s → step s = .next t → memWf t
end

