-- ==== Sys2Proof/Laws/State.lean ====
section
/-! SUPPORT. One lemma per field per update of the state, and the accessors of the entries of its tables. -/

namespace Sys2Proof.Machine

@[simp] theorem State.onStu_straps (s : State) (f : Stu → Stu) : (s.onStu f).straps = s.straps := rfl
@[simp] theorem State.onStu_stu (s : State) (f : Stu → Stu) : (s.onStu f).stu = f s.stu := rfl
@[simp] theorem State.onStu_cores (s : State) (f : Stu → Stu) : (s.onStu f).cores = s.cores := rfl
@[simp] theorem State.onStu_bolt (s : State) (f : Stu → Stu) : (s.onStu f).bolt = s.bolt := rfl
@[simp] theorem State.onStu_hbm (s : State) (f : Stu → Stu) : (s.onStu f).hbm = s.hbm := rfl
@[simp] theorem State.onStu_prs (s : State) (f : Stu → Stu) : (s.onStu f).prs = s.prs := rfl
@[simp] theorem State.onStu_lin (s : State) (f : Stu → Stu) : (s.onStu f).lin = s.lin := rfl
@[simp] theorem State.onStu_sea (s : State) (f : Stu → Stu) : (s.onStu f).sea = s.sea := rfl
@[simp] theorem State.onStu_col (s : State) (f : Stu → Stu) : (s.onStu f).col = s.col := rfl
@[simp] theorem State.onStu_srv (s : State) (f : Stu → Stu) : (s.onStu f).srv = s.srv := rfl
@[simp] theorem State.onStu_work (s : State) (f : Stu → Stu) : (s.onStu f).work = s.work := rfl
@[simp] theorem State.onStu_hif (s : State) (f : Stu → Stu) : (s.onStu f).hif = s.hif := rfl
@[simp] theorem State.onStu_flt (s : State) (f : Stu → Stu) : (s.onStu f).flt = s.flt := rfl
@[simp] theorem State.onStu_thm (s : State) (f : Stu → Stu) : (s.onStu f).thm = s.thm := rfl
@[simp] theorem State.onStu_tst (s : State) (f : Stu → Stu) : (s.onStu f).tst = s.tst := rfl
@[simp] theorem State.onStu_tap (s : State) (f : Stu → Stu) : (s.onStu f).tap = s.tap := rfl
@[simp] theorem State.onStu_power (s : State) (f : Stu → Stu) : (s.onStu f).power = s.power := rfl
@[simp] theorem State.onStu_hostMem (s : State) (f : Stu → Stu) : (s.onStu f).hostMem = s.hostMem := rfl
@[simp] theorem State.onStu_portS (s : State) (f : Stu → Stu) : (s.onStu f).portS = s.portS := rfl
@[simp] theorem State.onStu_out (s : State) (f : Stu → Stu) : (s.onStu f).out = s.out := rfl
@[simp] theorem State.onStu_ns (s : State) (f : Stu → Stu) : (s.onStu f).ns = s.ns := rfl
@[simp] theorem State.onStu_free (s : State) (f : Stu → Stu) : (s.onStu f).free = s.free := rfl
@[simp] theorem State.onStu_pending (s : State) (f : Stu → Stu) : (s.onStu f).pending = s.pending := rfl

@[simp] theorem State.onCores_straps (s : State) (f : Cores → Cores) : (s.onCores f).straps = s.straps := rfl
@[simp] theorem State.onCores_stu (s : State) (f : Cores → Cores) : (s.onCores f).stu = s.stu := rfl
@[simp] theorem State.onCores_cores (s : State) (f : Cores → Cores) : (s.onCores f).cores = f s.cores := rfl
@[simp] theorem State.onCores_bolt (s : State) (f : Cores → Cores) : (s.onCores f).bolt = s.bolt := rfl
@[simp] theorem State.onCores_hbm (s : State) (f : Cores → Cores) : (s.onCores f).hbm = s.hbm := rfl
@[simp] theorem State.onCores_prs (s : State) (f : Cores → Cores) : (s.onCores f).prs = s.prs := rfl
@[simp] theorem State.onCores_lin (s : State) (f : Cores → Cores) : (s.onCores f).lin = s.lin := rfl
@[simp] theorem State.onCores_sea (s : State) (f : Cores → Cores) : (s.onCores f).sea = s.sea := rfl
@[simp] theorem State.onCores_col (s : State) (f : Cores → Cores) : (s.onCores f).col = s.col := rfl
@[simp] theorem State.onCores_srv (s : State) (f : Cores → Cores) : (s.onCores f).srv = s.srv := rfl
@[simp] theorem State.onCores_work (s : State) (f : Cores → Cores) : (s.onCores f).work = s.work := rfl
@[simp] theorem State.onCores_hif (s : State) (f : Cores → Cores) : (s.onCores f).hif = s.hif := rfl
@[simp] theorem State.onCores_flt (s : State) (f : Cores → Cores) : (s.onCores f).flt = s.flt := rfl
@[simp] theorem State.onCores_thm (s : State) (f : Cores → Cores) : (s.onCores f).thm = s.thm := rfl
@[simp] theorem State.onCores_tst (s : State) (f : Cores → Cores) : (s.onCores f).tst = s.tst := rfl
@[simp] theorem State.onCores_tap (s : State) (f : Cores → Cores) : (s.onCores f).tap = s.tap := rfl
@[simp] theorem State.onCores_power (s : State) (f : Cores → Cores) : (s.onCores f).power = s.power := rfl
@[simp] theorem State.onCores_hostMem (s : State) (f : Cores → Cores) : (s.onCores f).hostMem = s.hostMem := rfl
@[simp] theorem State.onCores_portS (s : State) (f : Cores → Cores) : (s.onCores f).portS = s.portS := rfl
@[simp] theorem State.onCores_out (s : State) (f : Cores → Cores) : (s.onCores f).out = s.out := rfl
@[simp] theorem State.onCores_ns (s : State) (f : Cores → Cores) : (s.onCores f).ns = s.ns := rfl
@[simp] theorem State.onCores_free (s : State) (f : Cores → Cores) : (s.onCores f).free = s.free := rfl
@[simp] theorem State.onCores_pending (s : State) (f : Cores → Cores) : (s.onCores f).pending = s.pending := rfl

@[simp] theorem State.onBolt_straps (s : State) (f : Bolt → Bolt) : (s.onBolt f).straps = s.straps := rfl
@[simp] theorem State.onBolt_stu (s : State) (f : Bolt → Bolt) : (s.onBolt f).stu = s.stu := rfl
@[simp] theorem State.onBolt_cores (s : State) (f : Bolt → Bolt) : (s.onBolt f).cores = s.cores := rfl
@[simp] theorem State.onBolt_bolt (s : State) (f : Bolt → Bolt) : (s.onBolt f).bolt = f s.bolt := rfl
@[simp] theorem State.onBolt_hbm (s : State) (f : Bolt → Bolt) : (s.onBolt f).hbm = s.hbm := rfl
@[simp] theorem State.onBolt_prs (s : State) (f : Bolt → Bolt) : (s.onBolt f).prs = s.prs := rfl
@[simp] theorem State.onBolt_lin (s : State) (f : Bolt → Bolt) : (s.onBolt f).lin = s.lin := rfl
@[simp] theorem State.onBolt_sea (s : State) (f : Bolt → Bolt) : (s.onBolt f).sea = s.sea := rfl
@[simp] theorem State.onBolt_col (s : State) (f : Bolt → Bolt) : (s.onBolt f).col = s.col := rfl
@[simp] theorem State.onBolt_srv (s : State) (f : Bolt → Bolt) : (s.onBolt f).srv = s.srv := rfl
@[simp] theorem State.onBolt_work (s : State) (f : Bolt → Bolt) : (s.onBolt f).work = s.work := rfl
@[simp] theorem State.onBolt_hif (s : State) (f : Bolt → Bolt) : (s.onBolt f).hif = s.hif := rfl
@[simp] theorem State.onBolt_flt (s : State) (f : Bolt → Bolt) : (s.onBolt f).flt = s.flt := rfl
@[simp] theorem State.onBolt_thm (s : State) (f : Bolt → Bolt) : (s.onBolt f).thm = s.thm := rfl
@[simp] theorem State.onBolt_tst (s : State) (f : Bolt → Bolt) : (s.onBolt f).tst = s.tst := rfl
@[simp] theorem State.onBolt_tap (s : State) (f : Bolt → Bolt) : (s.onBolt f).tap = s.tap := rfl
@[simp] theorem State.onBolt_power (s : State) (f : Bolt → Bolt) : (s.onBolt f).power = s.power := rfl
@[simp] theorem State.onBolt_hostMem (s : State) (f : Bolt → Bolt) : (s.onBolt f).hostMem = s.hostMem := rfl
@[simp] theorem State.onBolt_portS (s : State) (f : Bolt → Bolt) : (s.onBolt f).portS = s.portS := rfl
@[simp] theorem State.onBolt_out (s : State) (f : Bolt → Bolt) : (s.onBolt f).out = s.out := rfl
@[simp] theorem State.onBolt_ns (s : State) (f : Bolt → Bolt) : (s.onBolt f).ns = s.ns := rfl
@[simp] theorem State.onBolt_free (s : State) (f : Bolt → Bolt) : (s.onBolt f).free = s.free := rfl
@[simp] theorem State.onBolt_pending (s : State) (f : Bolt → Bolt) : (s.onBolt f).pending = s.pending := rfl

@[simp] theorem State.onHbm_straps (s : State) (f : Hbm → Hbm) : (s.onHbm f).straps = s.straps := rfl
@[simp] theorem State.onHbm_stu (s : State) (f : Hbm → Hbm) : (s.onHbm f).stu = s.stu := rfl
@[simp] theorem State.onHbm_cores (s : State) (f : Hbm → Hbm) : (s.onHbm f).cores = s.cores := rfl
@[simp] theorem State.onHbm_bolt (s : State) (f : Hbm → Hbm) : (s.onHbm f).bolt = s.bolt := rfl
@[simp] theorem State.onHbm_hbm (s : State) (f : Hbm → Hbm) : (s.onHbm f).hbm = f s.hbm := rfl
@[simp] theorem State.onHbm_prs (s : State) (f : Hbm → Hbm) : (s.onHbm f).prs = s.prs := rfl
@[simp] theorem State.onHbm_lin (s : State) (f : Hbm → Hbm) : (s.onHbm f).lin = s.lin := rfl
@[simp] theorem State.onHbm_sea (s : State) (f : Hbm → Hbm) : (s.onHbm f).sea = s.sea := rfl
@[simp] theorem State.onHbm_col (s : State) (f : Hbm → Hbm) : (s.onHbm f).col = s.col := rfl
@[simp] theorem State.onHbm_srv (s : State) (f : Hbm → Hbm) : (s.onHbm f).srv = s.srv := rfl
@[simp] theorem State.onHbm_work (s : State) (f : Hbm → Hbm) : (s.onHbm f).work = s.work := rfl
@[simp] theorem State.onHbm_hif (s : State) (f : Hbm → Hbm) : (s.onHbm f).hif = s.hif := rfl
@[simp] theorem State.onHbm_flt (s : State) (f : Hbm → Hbm) : (s.onHbm f).flt = s.flt := rfl
@[simp] theorem State.onHbm_thm (s : State) (f : Hbm → Hbm) : (s.onHbm f).thm = s.thm := rfl
@[simp] theorem State.onHbm_tst (s : State) (f : Hbm → Hbm) : (s.onHbm f).tst = s.tst := rfl
@[simp] theorem State.onHbm_tap (s : State) (f : Hbm → Hbm) : (s.onHbm f).tap = s.tap := rfl
@[simp] theorem State.onHbm_power (s : State) (f : Hbm → Hbm) : (s.onHbm f).power = s.power := rfl
@[simp] theorem State.onHbm_hostMem (s : State) (f : Hbm → Hbm) : (s.onHbm f).hostMem = s.hostMem := rfl
@[simp] theorem State.onHbm_portS (s : State) (f : Hbm → Hbm) : (s.onHbm f).portS = s.portS := rfl
@[simp] theorem State.onHbm_out (s : State) (f : Hbm → Hbm) : (s.onHbm f).out = s.out := rfl
@[simp] theorem State.onHbm_ns (s : State) (f : Hbm → Hbm) : (s.onHbm f).ns = s.ns := rfl
@[simp] theorem State.onHbm_free (s : State) (f : Hbm → Hbm) : (s.onHbm f).free = s.free := rfl
@[simp] theorem State.onHbm_pending (s : State) (f : Hbm → Hbm) : (s.onHbm f).pending = s.pending := rfl

@[simp] theorem State.onPrs_straps (s : State) (f : Prs → Prs) : (s.onPrs f).straps = s.straps := rfl
@[simp] theorem State.onPrs_stu (s : State) (f : Prs → Prs) : (s.onPrs f).stu = s.stu := rfl
@[simp] theorem State.onPrs_cores (s : State) (f : Prs → Prs) : (s.onPrs f).cores = s.cores := rfl
@[simp] theorem State.onPrs_bolt (s : State) (f : Prs → Prs) : (s.onPrs f).bolt = s.bolt := rfl
@[simp] theorem State.onPrs_hbm (s : State) (f : Prs → Prs) : (s.onPrs f).hbm = s.hbm := rfl
@[simp] theorem State.onPrs_prs (s : State) (f : Prs → Prs) : (s.onPrs f).prs = f s.prs := rfl
@[simp] theorem State.onPrs_lin (s : State) (f : Prs → Prs) : (s.onPrs f).lin = s.lin := rfl
@[simp] theorem State.onPrs_sea (s : State) (f : Prs → Prs) : (s.onPrs f).sea = s.sea := rfl
@[simp] theorem State.onPrs_col (s : State) (f : Prs → Prs) : (s.onPrs f).col = s.col := rfl
@[simp] theorem State.onPrs_srv (s : State) (f : Prs → Prs) : (s.onPrs f).srv = s.srv := rfl
@[simp] theorem State.onPrs_work (s : State) (f : Prs → Prs) : (s.onPrs f).work = s.work := rfl
@[simp] theorem State.onPrs_hif (s : State) (f : Prs → Prs) : (s.onPrs f).hif = s.hif := rfl
@[simp] theorem State.onPrs_flt (s : State) (f : Prs → Prs) : (s.onPrs f).flt = s.flt := rfl
@[simp] theorem State.onPrs_thm (s : State) (f : Prs → Prs) : (s.onPrs f).thm = s.thm := rfl
@[simp] theorem State.onPrs_tst (s : State) (f : Prs → Prs) : (s.onPrs f).tst = s.tst := rfl
@[simp] theorem State.onPrs_tap (s : State) (f : Prs → Prs) : (s.onPrs f).tap = s.tap := rfl
@[simp] theorem State.onPrs_power (s : State) (f : Prs → Prs) : (s.onPrs f).power = s.power := rfl
@[simp] theorem State.onPrs_hostMem (s : State) (f : Prs → Prs) : (s.onPrs f).hostMem = s.hostMem := rfl
@[simp] theorem State.onPrs_portS (s : State) (f : Prs → Prs) : (s.onPrs f).portS = s.portS := rfl
@[simp] theorem State.onPrs_out (s : State) (f : Prs → Prs) : (s.onPrs f).out = s.out := rfl
@[simp] theorem State.onPrs_ns (s : State) (f : Prs → Prs) : (s.onPrs f).ns = s.ns := rfl
@[simp] theorem State.onPrs_free (s : State) (f : Prs → Prs) : (s.onPrs f).free = s.free := rfl
@[simp] theorem State.onPrs_pending (s : State) (f : Prs → Prs) : (s.onPrs f).pending = s.pending := rfl

@[simp] theorem State.onLin_straps (s : State) (f : Lin → Lin) : (s.onLin f).straps = s.straps := rfl
@[simp] theorem State.onLin_stu (s : State) (f : Lin → Lin) : (s.onLin f).stu = s.stu := rfl
@[simp] theorem State.onLin_cores (s : State) (f : Lin → Lin) : (s.onLin f).cores = s.cores := rfl
@[simp] theorem State.onLin_bolt (s : State) (f : Lin → Lin) : (s.onLin f).bolt = s.bolt := rfl
@[simp] theorem State.onLin_hbm (s : State) (f : Lin → Lin) : (s.onLin f).hbm = s.hbm := rfl
@[simp] theorem State.onLin_prs (s : State) (f : Lin → Lin) : (s.onLin f).prs = s.prs := rfl
@[simp] theorem State.onLin_lin (s : State) (f : Lin → Lin) : (s.onLin f).lin = f s.lin := rfl
@[simp] theorem State.onLin_sea (s : State) (f : Lin → Lin) : (s.onLin f).sea = s.sea := rfl
@[simp] theorem State.onLin_col (s : State) (f : Lin → Lin) : (s.onLin f).col = s.col := rfl
@[simp] theorem State.onLin_srv (s : State) (f : Lin → Lin) : (s.onLin f).srv = s.srv := rfl
@[simp] theorem State.onLin_work (s : State) (f : Lin → Lin) : (s.onLin f).work = s.work := rfl
@[simp] theorem State.onLin_hif (s : State) (f : Lin → Lin) : (s.onLin f).hif = s.hif := rfl
@[simp] theorem State.onLin_flt (s : State) (f : Lin → Lin) : (s.onLin f).flt = s.flt := rfl
@[simp] theorem State.onLin_thm (s : State) (f : Lin → Lin) : (s.onLin f).thm = s.thm := rfl
@[simp] theorem State.onLin_tst (s : State) (f : Lin → Lin) : (s.onLin f).tst = s.tst := rfl
@[simp] theorem State.onLin_tap (s : State) (f : Lin → Lin) : (s.onLin f).tap = s.tap := rfl
@[simp] theorem State.onLin_power (s : State) (f : Lin → Lin) : (s.onLin f).power = s.power := rfl
@[simp] theorem State.onLin_hostMem (s : State) (f : Lin → Lin) : (s.onLin f).hostMem = s.hostMem := rfl
@[simp] theorem State.onLin_portS (s : State) (f : Lin → Lin) : (s.onLin f).portS = s.portS := rfl
@[simp] theorem State.onLin_out (s : State) (f : Lin → Lin) : (s.onLin f).out = s.out := rfl
@[simp] theorem State.onLin_ns (s : State) (f : Lin → Lin) : (s.onLin f).ns = s.ns := rfl
@[simp] theorem State.onLin_free (s : State) (f : Lin → Lin) : (s.onLin f).free = s.free := rfl
@[simp] theorem State.onLin_pending (s : State) (f : Lin → Lin) : (s.onLin f).pending = s.pending := rfl

@[simp] theorem State.onSea_straps (s : State) (f : Sea → Sea) : (s.onSea f).straps = s.straps := rfl
@[simp] theorem State.onSea_stu (s : State) (f : Sea → Sea) : (s.onSea f).stu = s.stu := rfl
@[simp] theorem State.onSea_cores (s : State) (f : Sea → Sea) : (s.onSea f).cores = s.cores := rfl
@[simp] theorem State.onSea_bolt (s : State) (f : Sea → Sea) : (s.onSea f).bolt = s.bolt := rfl
@[simp] theorem State.onSea_hbm (s : State) (f : Sea → Sea) : (s.onSea f).hbm = s.hbm := rfl
@[simp] theorem State.onSea_prs (s : State) (f : Sea → Sea) : (s.onSea f).prs = s.prs := rfl
@[simp] theorem State.onSea_lin (s : State) (f : Sea → Sea) : (s.onSea f).lin = s.lin := rfl
@[simp] theorem State.onSea_sea (s : State) (f : Sea → Sea) : (s.onSea f).sea = f s.sea := rfl
@[simp] theorem State.onSea_col (s : State) (f : Sea → Sea) : (s.onSea f).col = s.col := rfl
@[simp] theorem State.onSea_srv (s : State) (f : Sea → Sea) : (s.onSea f).srv = s.srv := rfl
@[simp] theorem State.onSea_work (s : State) (f : Sea → Sea) : (s.onSea f).work = s.work := rfl
@[simp] theorem State.onSea_hif (s : State) (f : Sea → Sea) : (s.onSea f).hif = s.hif := rfl
@[simp] theorem State.onSea_flt (s : State) (f : Sea → Sea) : (s.onSea f).flt = s.flt := rfl
@[simp] theorem State.onSea_thm (s : State) (f : Sea → Sea) : (s.onSea f).thm = s.thm := rfl
@[simp] theorem State.onSea_tst (s : State) (f : Sea → Sea) : (s.onSea f).tst = s.tst := rfl
@[simp] theorem State.onSea_tap (s : State) (f : Sea → Sea) : (s.onSea f).tap = s.tap := rfl
@[simp] theorem State.onSea_power (s : State) (f : Sea → Sea) : (s.onSea f).power = s.power := rfl
@[simp] theorem State.onSea_hostMem (s : State) (f : Sea → Sea) : (s.onSea f).hostMem = s.hostMem := rfl
@[simp] theorem State.onSea_portS (s : State) (f : Sea → Sea) : (s.onSea f).portS = s.portS := rfl
@[simp] theorem State.onSea_out (s : State) (f : Sea → Sea) : (s.onSea f).out = s.out := rfl
@[simp] theorem State.onSea_ns (s : State) (f : Sea → Sea) : (s.onSea f).ns = s.ns := rfl
@[simp] theorem State.onSea_free (s : State) (f : Sea → Sea) : (s.onSea f).free = s.free := rfl
@[simp] theorem State.onSea_pending (s : State) (f : Sea → Sea) : (s.onSea f).pending = s.pending := rfl

@[simp] theorem State.onCol_straps (s : State) (f : Col → Col) : (s.onCol f).straps = s.straps := rfl
@[simp] theorem State.onCol_stu (s : State) (f : Col → Col) : (s.onCol f).stu = s.stu := rfl
@[simp] theorem State.onCol_cores (s : State) (f : Col → Col) : (s.onCol f).cores = s.cores := rfl
@[simp] theorem State.onCol_bolt (s : State) (f : Col → Col) : (s.onCol f).bolt = s.bolt := rfl
@[simp] theorem State.onCol_hbm (s : State) (f : Col → Col) : (s.onCol f).hbm = s.hbm := rfl
@[simp] theorem State.onCol_prs (s : State) (f : Col → Col) : (s.onCol f).prs = s.prs := rfl
@[simp] theorem State.onCol_lin (s : State) (f : Col → Col) : (s.onCol f).lin = s.lin := rfl
@[simp] theorem State.onCol_sea (s : State) (f : Col → Col) : (s.onCol f).sea = s.sea := rfl
@[simp] theorem State.onCol_col (s : State) (f : Col → Col) : (s.onCol f).col = f s.col := rfl
@[simp] theorem State.onCol_srv (s : State) (f : Col → Col) : (s.onCol f).srv = s.srv := rfl
@[simp] theorem State.onCol_work (s : State) (f : Col → Col) : (s.onCol f).work = s.work := rfl
@[simp] theorem State.onCol_hif (s : State) (f : Col → Col) : (s.onCol f).hif = s.hif := rfl
@[simp] theorem State.onCol_flt (s : State) (f : Col → Col) : (s.onCol f).flt = s.flt := rfl
@[simp] theorem State.onCol_thm (s : State) (f : Col → Col) : (s.onCol f).thm = s.thm := rfl
@[simp] theorem State.onCol_tst (s : State) (f : Col → Col) : (s.onCol f).tst = s.tst := rfl
@[simp] theorem State.onCol_tap (s : State) (f : Col → Col) : (s.onCol f).tap = s.tap := rfl
@[simp] theorem State.onCol_power (s : State) (f : Col → Col) : (s.onCol f).power = s.power := rfl
@[simp] theorem State.onCol_hostMem (s : State) (f : Col → Col) : (s.onCol f).hostMem = s.hostMem := rfl
@[simp] theorem State.onCol_portS (s : State) (f : Col → Col) : (s.onCol f).portS = s.portS := rfl
@[simp] theorem State.onCol_out (s : State) (f : Col → Col) : (s.onCol f).out = s.out := rfl
@[simp] theorem State.onCol_ns (s : State) (f : Col → Col) : (s.onCol f).ns = s.ns := rfl
@[simp] theorem State.onCol_free (s : State) (f : Col → Col) : (s.onCol f).free = s.free := rfl
@[simp] theorem State.onCol_pending (s : State) (f : Col → Col) : (s.onCol f).pending = s.pending := rfl

@[simp] theorem State.onSrv_straps (s : State) (f : Srv → Srv) : (s.onSrv f).straps = s.straps := rfl
@[simp] theorem State.onSrv_stu (s : State) (f : Srv → Srv) : (s.onSrv f).stu = s.stu := rfl
@[simp] theorem State.onSrv_cores (s : State) (f : Srv → Srv) : (s.onSrv f).cores = s.cores := rfl
@[simp] theorem State.onSrv_bolt (s : State) (f : Srv → Srv) : (s.onSrv f).bolt = s.bolt := rfl
@[simp] theorem State.onSrv_hbm (s : State) (f : Srv → Srv) : (s.onSrv f).hbm = s.hbm := rfl
@[simp] theorem State.onSrv_prs (s : State) (f : Srv → Srv) : (s.onSrv f).prs = s.prs := rfl
@[simp] theorem State.onSrv_lin (s : State) (f : Srv → Srv) : (s.onSrv f).lin = s.lin := rfl
@[simp] theorem State.onSrv_sea (s : State) (f : Srv → Srv) : (s.onSrv f).sea = s.sea := rfl
@[simp] theorem State.onSrv_col (s : State) (f : Srv → Srv) : (s.onSrv f).col = s.col := rfl
@[simp] theorem State.onSrv_srv (s : State) (f : Srv → Srv) : (s.onSrv f).srv = f s.srv := rfl
@[simp] theorem State.onSrv_work (s : State) (f : Srv → Srv) : (s.onSrv f).work = s.work := rfl
@[simp] theorem State.onSrv_hif (s : State) (f : Srv → Srv) : (s.onSrv f).hif = s.hif := rfl
@[simp] theorem State.onSrv_flt (s : State) (f : Srv → Srv) : (s.onSrv f).flt = s.flt := rfl
@[simp] theorem State.onSrv_thm (s : State) (f : Srv → Srv) : (s.onSrv f).thm = s.thm := rfl
@[simp] theorem State.onSrv_tst (s : State) (f : Srv → Srv) : (s.onSrv f).tst = s.tst := rfl
@[simp] theorem State.onSrv_tap (s : State) (f : Srv → Srv) : (s.onSrv f).tap = s.tap := rfl
@[simp] theorem State.onSrv_power (s : State) (f : Srv → Srv) : (s.onSrv f).power = s.power := rfl
@[simp] theorem State.onSrv_hostMem (s : State) (f : Srv → Srv) : (s.onSrv f).hostMem = s.hostMem := rfl
@[simp] theorem State.onSrv_portS (s : State) (f : Srv → Srv) : (s.onSrv f).portS = s.portS := rfl
@[simp] theorem State.onSrv_out (s : State) (f : Srv → Srv) : (s.onSrv f).out = s.out := rfl
@[simp] theorem State.onSrv_ns (s : State) (f : Srv → Srv) : (s.onSrv f).ns = s.ns := rfl
@[simp] theorem State.onSrv_free (s : State) (f : Srv → Srv) : (s.onSrv f).free = s.free := rfl
@[simp] theorem State.onSrv_pending (s : State) (f : Srv → Srv) : (s.onSrv f).pending = s.pending := rfl

@[simp] theorem State.onWork_straps (s : State) (f : Work → Work) : (s.onWork f).straps = s.straps := rfl
@[simp] theorem State.onWork_stu (s : State) (f : Work → Work) : (s.onWork f).stu = s.stu := rfl
@[simp] theorem State.onWork_cores (s : State) (f : Work → Work) : (s.onWork f).cores = s.cores := rfl
@[simp] theorem State.onWork_bolt (s : State) (f : Work → Work) : (s.onWork f).bolt = s.bolt := rfl
@[simp] theorem State.onWork_hbm (s : State) (f : Work → Work) : (s.onWork f).hbm = s.hbm := rfl
@[simp] theorem State.onWork_prs (s : State) (f : Work → Work) : (s.onWork f).prs = s.prs := rfl
@[simp] theorem State.onWork_lin (s : State) (f : Work → Work) : (s.onWork f).lin = s.lin := rfl
@[simp] theorem State.onWork_sea (s : State) (f : Work → Work) : (s.onWork f).sea = s.sea := rfl
@[simp] theorem State.onWork_col (s : State) (f : Work → Work) : (s.onWork f).col = s.col := rfl
@[simp] theorem State.onWork_srv (s : State) (f : Work → Work) : (s.onWork f).srv = s.srv := rfl
@[simp] theorem State.onWork_work (s : State) (f : Work → Work) : (s.onWork f).work = f s.work := rfl
@[simp] theorem State.onWork_hif (s : State) (f : Work → Work) : (s.onWork f).hif = s.hif := rfl
@[simp] theorem State.onWork_flt (s : State) (f : Work → Work) : (s.onWork f).flt = s.flt := rfl
@[simp] theorem State.onWork_thm (s : State) (f : Work → Work) : (s.onWork f).thm = s.thm := rfl
@[simp] theorem State.onWork_tst (s : State) (f : Work → Work) : (s.onWork f).tst = s.tst := rfl
@[simp] theorem State.onWork_tap (s : State) (f : Work → Work) : (s.onWork f).tap = s.tap := rfl
@[simp] theorem State.onWork_power (s : State) (f : Work → Work) : (s.onWork f).power = s.power := rfl
@[simp] theorem State.onWork_hostMem (s : State) (f : Work → Work) : (s.onWork f).hostMem = s.hostMem := rfl
@[simp] theorem State.onWork_portS (s : State) (f : Work → Work) : (s.onWork f).portS = s.portS := rfl
@[simp] theorem State.onWork_out (s : State) (f : Work → Work) : (s.onWork f).out = s.out := rfl
@[simp] theorem State.onWork_ns (s : State) (f : Work → Work) : (s.onWork f).ns = s.ns := rfl
@[simp] theorem State.onWork_free (s : State) (f : Work → Work) : (s.onWork f).free = s.free := rfl
@[simp] theorem State.onWork_pending (s : State) (f : Work → Work) : (s.onWork f).pending = s.pending := rfl

@[simp] theorem State.onHif_straps (s : State) (f : HostIf → HostIf) : (s.onHif f).straps = s.straps := rfl
@[simp] theorem State.onHif_stu (s : State) (f : HostIf → HostIf) : (s.onHif f).stu = s.stu := rfl
@[simp] theorem State.onHif_cores (s : State) (f : HostIf → HostIf) : (s.onHif f).cores = s.cores := rfl
@[simp] theorem State.onHif_bolt (s : State) (f : HostIf → HostIf) : (s.onHif f).bolt = s.bolt := rfl
@[simp] theorem State.onHif_hbm (s : State) (f : HostIf → HostIf) : (s.onHif f).hbm = s.hbm := rfl
@[simp] theorem State.onHif_prs (s : State) (f : HostIf → HostIf) : (s.onHif f).prs = s.prs := rfl
@[simp] theorem State.onHif_lin (s : State) (f : HostIf → HostIf) : (s.onHif f).lin = s.lin := rfl
@[simp] theorem State.onHif_sea (s : State) (f : HostIf → HostIf) : (s.onHif f).sea = s.sea := rfl
@[simp] theorem State.onHif_col (s : State) (f : HostIf → HostIf) : (s.onHif f).col = s.col := rfl
@[simp] theorem State.onHif_srv (s : State) (f : HostIf → HostIf) : (s.onHif f).srv = s.srv := rfl
@[simp] theorem State.onHif_work (s : State) (f : HostIf → HostIf) : (s.onHif f).work = s.work := rfl
@[simp] theorem State.onHif_hif (s : State) (f : HostIf → HostIf) : (s.onHif f).hif = f s.hif := rfl
@[simp] theorem State.onHif_flt (s : State) (f : HostIf → HostIf) : (s.onHif f).flt = s.flt := rfl
@[simp] theorem State.onHif_thm (s : State) (f : HostIf → HostIf) : (s.onHif f).thm = s.thm := rfl
@[simp] theorem State.onHif_tst (s : State) (f : HostIf → HostIf) : (s.onHif f).tst = s.tst := rfl
@[simp] theorem State.onHif_tap (s : State) (f : HostIf → HostIf) : (s.onHif f).tap = s.tap := rfl
@[simp] theorem State.onHif_power (s : State) (f : HostIf → HostIf) : (s.onHif f).power = s.power := rfl
@[simp] theorem State.onHif_hostMem (s : State) (f : HostIf → HostIf) : (s.onHif f).hostMem = s.hostMem := rfl
@[simp] theorem State.onHif_portS (s : State) (f : HostIf → HostIf) : (s.onHif f).portS = s.portS := rfl
@[simp] theorem State.onHif_out (s : State) (f : HostIf → HostIf) : (s.onHif f).out = s.out := rfl
@[simp] theorem State.onHif_ns (s : State) (f : HostIf → HostIf) : (s.onHif f).ns = s.ns := rfl
@[simp] theorem State.onHif_free (s : State) (f : HostIf → HostIf) : (s.onHif f).free = s.free := rfl
@[simp] theorem State.onHif_pending (s : State) (f : HostIf → HostIf) : (s.onHif f).pending = s.pending := rfl

@[simp] theorem State.onFlt_straps (s : State) (f : Flt → Flt) : (s.onFlt f).straps = s.straps := rfl
@[simp] theorem State.onFlt_stu (s : State) (f : Flt → Flt) : (s.onFlt f).stu = s.stu := rfl
@[simp] theorem State.onFlt_cores (s : State) (f : Flt → Flt) : (s.onFlt f).cores = s.cores := rfl
@[simp] theorem State.onFlt_bolt (s : State) (f : Flt → Flt) : (s.onFlt f).bolt = s.bolt := rfl
@[simp] theorem State.onFlt_hbm (s : State) (f : Flt → Flt) : (s.onFlt f).hbm = s.hbm := rfl
@[simp] theorem State.onFlt_prs (s : State) (f : Flt → Flt) : (s.onFlt f).prs = s.prs := rfl
@[simp] theorem State.onFlt_lin (s : State) (f : Flt → Flt) : (s.onFlt f).lin = s.lin := rfl
@[simp] theorem State.onFlt_sea (s : State) (f : Flt → Flt) : (s.onFlt f).sea = s.sea := rfl
@[simp] theorem State.onFlt_col (s : State) (f : Flt → Flt) : (s.onFlt f).col = s.col := rfl
@[simp] theorem State.onFlt_srv (s : State) (f : Flt → Flt) : (s.onFlt f).srv = s.srv := rfl
@[simp] theorem State.onFlt_work (s : State) (f : Flt → Flt) : (s.onFlt f).work = s.work := rfl
@[simp] theorem State.onFlt_hif (s : State) (f : Flt → Flt) : (s.onFlt f).hif = s.hif := rfl
@[simp] theorem State.onFlt_flt (s : State) (f : Flt → Flt) : (s.onFlt f).flt = f s.flt := rfl
@[simp] theorem State.onFlt_thm (s : State) (f : Flt → Flt) : (s.onFlt f).thm = s.thm := rfl
@[simp] theorem State.onFlt_tst (s : State) (f : Flt → Flt) : (s.onFlt f).tst = s.tst := rfl
@[simp] theorem State.onFlt_tap (s : State) (f : Flt → Flt) : (s.onFlt f).tap = s.tap := rfl
@[simp] theorem State.onFlt_power (s : State) (f : Flt → Flt) : (s.onFlt f).power = s.power := rfl
@[simp] theorem State.onFlt_hostMem (s : State) (f : Flt → Flt) : (s.onFlt f).hostMem = s.hostMem := rfl
@[simp] theorem State.onFlt_portS (s : State) (f : Flt → Flt) : (s.onFlt f).portS = s.portS := rfl
@[simp] theorem State.onFlt_out (s : State) (f : Flt → Flt) : (s.onFlt f).out = s.out := rfl
@[simp] theorem State.onFlt_ns (s : State) (f : Flt → Flt) : (s.onFlt f).ns = s.ns := rfl
@[simp] theorem State.onFlt_free (s : State) (f : Flt → Flt) : (s.onFlt f).free = s.free := rfl
@[simp] theorem State.onFlt_pending (s : State) (f : Flt → Flt) : (s.onFlt f).pending = s.pending := rfl

@[simp] theorem State.onThm_straps (s : State) (f : Thm → Thm) : (s.onThm f).straps = s.straps := rfl
@[simp] theorem State.onThm_stu (s : State) (f : Thm → Thm) : (s.onThm f).stu = s.stu := rfl
@[simp] theorem State.onThm_cores (s : State) (f : Thm → Thm) : (s.onThm f).cores = s.cores := rfl
@[simp] theorem State.onThm_bolt (s : State) (f : Thm → Thm) : (s.onThm f).bolt = s.bolt := rfl
@[simp] theorem State.onThm_hbm (s : State) (f : Thm → Thm) : (s.onThm f).hbm = s.hbm := rfl
@[simp] theorem State.onThm_prs (s : State) (f : Thm → Thm) : (s.onThm f).prs = s.prs := rfl
@[simp] theorem State.onThm_lin (s : State) (f : Thm → Thm) : (s.onThm f).lin = s.lin := rfl
@[simp] theorem State.onThm_sea (s : State) (f : Thm → Thm) : (s.onThm f).sea = s.sea := rfl
@[simp] theorem State.onThm_col (s : State) (f : Thm → Thm) : (s.onThm f).col = s.col := rfl
@[simp] theorem State.onThm_srv (s : State) (f : Thm → Thm) : (s.onThm f).srv = s.srv := rfl
@[simp] theorem State.onThm_work (s : State) (f : Thm → Thm) : (s.onThm f).work = s.work := rfl
@[simp] theorem State.onThm_hif (s : State) (f : Thm → Thm) : (s.onThm f).hif = s.hif := rfl
@[simp] theorem State.onThm_flt (s : State) (f : Thm → Thm) : (s.onThm f).flt = s.flt := rfl
@[simp] theorem State.onThm_thm (s : State) (f : Thm → Thm) : (s.onThm f).thm = f s.thm := rfl
@[simp] theorem State.onThm_tst (s : State) (f : Thm → Thm) : (s.onThm f).tst = s.tst := rfl
@[simp] theorem State.onThm_tap (s : State) (f : Thm → Thm) : (s.onThm f).tap = s.tap := rfl
@[simp] theorem State.onThm_power (s : State) (f : Thm → Thm) : (s.onThm f).power = s.power := rfl
@[simp] theorem State.onThm_hostMem (s : State) (f : Thm → Thm) : (s.onThm f).hostMem = s.hostMem := rfl
@[simp] theorem State.onThm_portS (s : State) (f : Thm → Thm) : (s.onThm f).portS = s.portS := rfl
@[simp] theorem State.onThm_out (s : State) (f : Thm → Thm) : (s.onThm f).out = s.out := rfl
@[simp] theorem State.onThm_ns (s : State) (f : Thm → Thm) : (s.onThm f).ns = s.ns := rfl
@[simp] theorem State.onThm_free (s : State) (f : Thm → Thm) : (s.onThm f).free = s.free := rfl
@[simp] theorem State.onThm_pending (s : State) (f : Thm → Thm) : (s.onThm f).pending = s.pending := rfl

@[simp] theorem State.onTst_straps (s : State) (f : Tst → Tst) : (s.onTst f).straps = s.straps := rfl
@[simp] theorem State.onTst_stu (s : State) (f : Tst → Tst) : (s.onTst f).stu = s.stu := rfl
@[simp] theorem State.onTst_cores (s : State) (f : Tst → Tst) : (s.onTst f).cores = s.cores := rfl
@[simp] theorem State.onTst_bolt (s : State) (f : Tst → Tst) : (s.onTst f).bolt = s.bolt := rfl
@[simp] theorem State.onTst_hbm (s : State) (f : Tst → Tst) : (s.onTst f).hbm = s.hbm := rfl
@[simp] theorem State.onTst_prs (s : State) (f : Tst → Tst) : (s.onTst f).prs = s.prs := rfl
@[simp] theorem State.onTst_lin (s : State) (f : Tst → Tst) : (s.onTst f).lin = s.lin := rfl
@[simp] theorem State.onTst_sea (s : State) (f : Tst → Tst) : (s.onTst f).sea = s.sea := rfl
@[simp] theorem State.onTst_col (s : State) (f : Tst → Tst) : (s.onTst f).col = s.col := rfl
@[simp] theorem State.onTst_srv (s : State) (f : Tst → Tst) : (s.onTst f).srv = s.srv := rfl
@[simp] theorem State.onTst_work (s : State) (f : Tst → Tst) : (s.onTst f).work = s.work := rfl
@[simp] theorem State.onTst_hif (s : State) (f : Tst → Tst) : (s.onTst f).hif = s.hif := rfl
@[simp] theorem State.onTst_flt (s : State) (f : Tst → Tst) : (s.onTst f).flt = s.flt := rfl
@[simp] theorem State.onTst_thm (s : State) (f : Tst → Tst) : (s.onTst f).thm = s.thm := rfl
@[simp] theorem State.onTst_tst (s : State) (f : Tst → Tst) : (s.onTst f).tst = f s.tst := rfl
@[simp] theorem State.onTst_tap (s : State) (f : Tst → Tst) : (s.onTst f).tap = s.tap := rfl
@[simp] theorem State.onTst_power (s : State) (f : Tst → Tst) : (s.onTst f).power = s.power := rfl
@[simp] theorem State.onTst_hostMem (s : State) (f : Tst → Tst) : (s.onTst f).hostMem = s.hostMem := rfl
@[simp] theorem State.onTst_portS (s : State) (f : Tst → Tst) : (s.onTst f).portS = s.portS := rfl
@[simp] theorem State.onTst_out (s : State) (f : Tst → Tst) : (s.onTst f).out = s.out := rfl
@[simp] theorem State.onTst_ns (s : State) (f : Tst → Tst) : (s.onTst f).ns = s.ns := rfl
@[simp] theorem State.onTst_free (s : State) (f : Tst → Tst) : (s.onTst f).free = s.free := rfl
@[simp] theorem State.onTst_pending (s : State) (f : Tst → Tst) : (s.onTst f).pending = s.pending := rfl

@[simp] theorem State.onTap_straps (s : State) (f : Tap → Tap) : (s.onTap f).straps = s.straps := rfl
@[simp] theorem State.onTap_stu (s : State) (f : Tap → Tap) : (s.onTap f).stu = s.stu := rfl
@[simp] theorem State.onTap_cores (s : State) (f : Tap → Tap) : (s.onTap f).cores = s.cores := rfl
@[simp] theorem State.onTap_bolt (s : State) (f : Tap → Tap) : (s.onTap f).bolt = s.bolt := rfl
@[simp] theorem State.onTap_hbm (s : State) (f : Tap → Tap) : (s.onTap f).hbm = s.hbm := rfl
@[simp] theorem State.onTap_prs (s : State) (f : Tap → Tap) : (s.onTap f).prs = s.prs := rfl
@[simp] theorem State.onTap_lin (s : State) (f : Tap → Tap) : (s.onTap f).lin = s.lin := rfl
@[simp] theorem State.onTap_sea (s : State) (f : Tap → Tap) : (s.onTap f).sea = s.sea := rfl
@[simp] theorem State.onTap_col (s : State) (f : Tap → Tap) : (s.onTap f).col = s.col := rfl
@[simp] theorem State.onTap_srv (s : State) (f : Tap → Tap) : (s.onTap f).srv = s.srv := rfl
@[simp] theorem State.onTap_work (s : State) (f : Tap → Tap) : (s.onTap f).work = s.work := rfl
@[simp] theorem State.onTap_hif (s : State) (f : Tap → Tap) : (s.onTap f).hif = s.hif := rfl
@[simp] theorem State.onTap_flt (s : State) (f : Tap → Tap) : (s.onTap f).flt = s.flt := rfl
@[simp] theorem State.onTap_thm (s : State) (f : Tap → Tap) : (s.onTap f).thm = s.thm := rfl
@[simp] theorem State.onTap_tst (s : State) (f : Tap → Tap) : (s.onTap f).tst = s.tst := rfl
@[simp] theorem State.onTap_tap (s : State) (f : Tap → Tap) : (s.onTap f).tap = f s.tap := rfl
@[simp] theorem State.onTap_power (s : State) (f : Tap → Tap) : (s.onTap f).power = s.power := rfl
@[simp] theorem State.onTap_hostMem (s : State) (f : Tap → Tap) : (s.onTap f).hostMem = s.hostMem := rfl
@[simp] theorem State.onTap_portS (s : State) (f : Tap → Tap) : (s.onTap f).portS = s.portS := rfl
@[simp] theorem State.onTap_out (s : State) (f : Tap → Tap) : (s.onTap f).out = s.out := rfl
@[simp] theorem State.onTap_ns (s : State) (f : Tap → Tap) : (s.onTap f).ns = s.ns := rfl
@[simp] theorem State.onTap_free (s : State) (f : Tap → Tap) : (s.onTap f).free = s.free := rfl
@[simp] theorem State.onTap_pending (s : State) (f : Tap → Tap) : (s.onTap f).pending = s.pending := rfl

@[simp] theorem State.onPower_straps (s : State) (f : Power → Power) : (s.onPower f).straps = s.straps := rfl
@[simp] theorem State.onPower_stu (s : State) (f : Power → Power) : (s.onPower f).stu = s.stu := rfl
@[simp] theorem State.onPower_cores (s : State) (f : Power → Power) : (s.onPower f).cores = s.cores := rfl
@[simp] theorem State.onPower_bolt (s : State) (f : Power → Power) : (s.onPower f).bolt = s.bolt := rfl
@[simp] theorem State.onPower_hbm (s : State) (f : Power → Power) : (s.onPower f).hbm = s.hbm := rfl
@[simp] theorem State.onPower_prs (s : State) (f : Power → Power) : (s.onPower f).prs = s.prs := rfl
@[simp] theorem State.onPower_lin (s : State) (f : Power → Power) : (s.onPower f).lin = s.lin := rfl
@[simp] theorem State.onPower_sea (s : State) (f : Power → Power) : (s.onPower f).sea = s.sea := rfl
@[simp] theorem State.onPower_col (s : State) (f : Power → Power) : (s.onPower f).col = s.col := rfl
@[simp] theorem State.onPower_srv (s : State) (f : Power → Power) : (s.onPower f).srv = s.srv := rfl
@[simp] theorem State.onPower_work (s : State) (f : Power → Power) : (s.onPower f).work = s.work := rfl
@[simp] theorem State.onPower_hif (s : State) (f : Power → Power) : (s.onPower f).hif = s.hif := rfl
@[simp] theorem State.onPower_flt (s : State) (f : Power → Power) : (s.onPower f).flt = s.flt := rfl
@[simp] theorem State.onPower_thm (s : State) (f : Power → Power) : (s.onPower f).thm = s.thm := rfl
@[simp] theorem State.onPower_tst (s : State) (f : Power → Power) : (s.onPower f).tst = s.tst := rfl
@[simp] theorem State.onPower_tap (s : State) (f : Power → Power) : (s.onPower f).tap = s.tap := rfl
@[simp] theorem State.onPower_power (s : State) (f : Power → Power) : (s.onPower f).power = f s.power := rfl
@[simp] theorem State.onPower_hostMem (s : State) (f : Power → Power) : (s.onPower f).hostMem = s.hostMem := rfl
@[simp] theorem State.onPower_portS (s : State) (f : Power → Power) : (s.onPower f).portS = s.portS := rfl
@[simp] theorem State.onPower_out (s : State) (f : Power → Power) : (s.onPower f).out = s.out := rfl
@[simp] theorem State.onPower_ns (s : State) (f : Power → Power) : (s.onPower f).ns = s.ns := rfl
@[simp] theorem State.onPower_free (s : State) (f : Power → Power) : (s.onPower f).free = s.free := rfl
@[simp] theorem State.onPower_pending (s : State) (f : Power → Power) : (s.onPower f).pending = s.pending := rfl

@[simp] theorem State.setHostMem_straps (s : State) (v : Mem) : (s.setHostMem v).straps = s.straps := rfl
@[simp] theorem State.setHostMem_stu (s : State) (v : Mem) : (s.setHostMem v).stu = s.stu := rfl
@[simp] theorem State.setHostMem_cores (s : State) (v : Mem) : (s.setHostMem v).cores = s.cores := rfl
@[simp] theorem State.setHostMem_bolt (s : State) (v : Mem) : (s.setHostMem v).bolt = s.bolt := rfl
@[simp] theorem State.setHostMem_hbm (s : State) (v : Mem) : (s.setHostMem v).hbm = s.hbm := rfl
@[simp] theorem State.setHostMem_prs (s : State) (v : Mem) : (s.setHostMem v).prs = s.prs := rfl
@[simp] theorem State.setHostMem_lin (s : State) (v : Mem) : (s.setHostMem v).lin = s.lin := rfl
@[simp] theorem State.setHostMem_sea (s : State) (v : Mem) : (s.setHostMem v).sea = s.sea := rfl
@[simp] theorem State.setHostMem_col (s : State) (v : Mem) : (s.setHostMem v).col = s.col := rfl
@[simp] theorem State.setHostMem_srv (s : State) (v : Mem) : (s.setHostMem v).srv = s.srv := rfl
@[simp] theorem State.setHostMem_work (s : State) (v : Mem) : (s.setHostMem v).work = s.work := rfl
@[simp] theorem State.setHostMem_hif (s : State) (v : Mem) : (s.setHostMem v).hif = s.hif := rfl
@[simp] theorem State.setHostMem_flt (s : State) (v : Mem) : (s.setHostMem v).flt = s.flt := rfl
@[simp] theorem State.setHostMem_thm (s : State) (v : Mem) : (s.setHostMem v).thm = s.thm := rfl
@[simp] theorem State.setHostMem_tst (s : State) (v : Mem) : (s.setHostMem v).tst = s.tst := rfl
@[simp] theorem State.setHostMem_tap (s : State) (v : Mem) : (s.setHostMem v).tap = s.tap := rfl
@[simp] theorem State.setHostMem_power (s : State) (v : Mem) : (s.setHostMem v).power = s.power := rfl
@[simp] theorem State.setHostMem_hostMem (s : State) (v : Mem) : (s.setHostMem v).hostMem = v := rfl
@[simp] theorem State.setHostMem_portS (s : State) (v : Mem) : (s.setHostMem v).portS = s.portS := rfl
@[simp] theorem State.setHostMem_out (s : State) (v : Mem) : (s.setHostMem v).out = s.out := rfl
@[simp] theorem State.setHostMem_ns (s : State) (v : Mem) : (s.setHostMem v).ns = s.ns := rfl
@[simp] theorem State.setHostMem_free (s : State) (v : Mem) : (s.setHostMem v).free = s.free := rfl
@[simp] theorem State.setHostMem_pending (s : State) (v : Mem) : (s.setHostMem v).pending = s.pending := rfl

@[simp] theorem State.setPortS_straps (s : State) (v : Mem) : (s.setPortS v).straps = s.straps := rfl
@[simp] theorem State.setPortS_stu (s : State) (v : Mem) : (s.setPortS v).stu = s.stu := rfl
@[simp] theorem State.setPortS_cores (s : State) (v : Mem) : (s.setPortS v).cores = s.cores := rfl
@[simp] theorem State.setPortS_bolt (s : State) (v : Mem) : (s.setPortS v).bolt = s.bolt := rfl
@[simp] theorem State.setPortS_hbm (s : State) (v : Mem) : (s.setPortS v).hbm = s.hbm := rfl
@[simp] theorem State.setPortS_prs (s : State) (v : Mem) : (s.setPortS v).prs = s.prs := rfl
@[simp] theorem State.setPortS_lin (s : State) (v : Mem) : (s.setPortS v).lin = s.lin := rfl
@[simp] theorem State.setPortS_sea (s : State) (v : Mem) : (s.setPortS v).sea = s.sea := rfl
@[simp] theorem State.setPortS_col (s : State) (v : Mem) : (s.setPortS v).col = s.col := rfl
@[simp] theorem State.setPortS_srv (s : State) (v : Mem) : (s.setPortS v).srv = s.srv := rfl
@[simp] theorem State.setPortS_work (s : State) (v : Mem) : (s.setPortS v).work = s.work := rfl
@[simp] theorem State.setPortS_hif (s : State) (v : Mem) : (s.setPortS v).hif = s.hif := rfl
@[simp] theorem State.setPortS_flt (s : State) (v : Mem) : (s.setPortS v).flt = s.flt := rfl
@[simp] theorem State.setPortS_thm (s : State) (v : Mem) : (s.setPortS v).thm = s.thm := rfl
@[simp] theorem State.setPortS_tst (s : State) (v : Mem) : (s.setPortS v).tst = s.tst := rfl
@[simp] theorem State.setPortS_tap (s : State) (v : Mem) : (s.setPortS v).tap = s.tap := rfl
@[simp] theorem State.setPortS_power (s : State) (v : Mem) : (s.setPortS v).power = s.power := rfl
@[simp] theorem State.setPortS_hostMem (s : State) (v : Mem) : (s.setPortS v).hostMem = s.hostMem := rfl
@[simp] theorem State.setPortS_portS (s : State) (v : Mem) : (s.setPortS v).portS = v := rfl
@[simp] theorem State.setPortS_out (s : State) (v : Mem) : (s.setPortS v).out = s.out := rfl
@[simp] theorem State.setPortS_ns (s : State) (v : Mem) : (s.setPortS v).ns = s.ns := rfl
@[simp] theorem State.setPortS_free (s : State) (v : Mem) : (s.setPortS v).free = s.free := rfl
@[simp] theorem State.setPortS_pending (s : State) (v : Mem) : (s.setPortS v).pending = s.pending := rfl

@[simp] theorem State.setPending_straps (s : State) (v : List Instr) : (s.setPending v).straps = s.straps := rfl
@[simp] theorem State.setPending_stu (s : State) (v : List Instr) : (s.setPending v).stu = s.stu := rfl
@[simp] theorem State.setPending_cores (s : State) (v : List Instr) : (s.setPending v).cores = s.cores := rfl
@[simp] theorem State.setPending_bolt (s : State) (v : List Instr) : (s.setPending v).bolt = s.bolt := rfl
@[simp] theorem State.setPending_hbm (s : State) (v : List Instr) : (s.setPending v).hbm = s.hbm := rfl
@[simp] theorem State.setPending_prs (s : State) (v : List Instr) : (s.setPending v).prs = s.prs := rfl
@[simp] theorem State.setPending_lin (s : State) (v : List Instr) : (s.setPending v).lin = s.lin := rfl
@[simp] theorem State.setPending_sea (s : State) (v : List Instr) : (s.setPending v).sea = s.sea := rfl
@[simp] theorem State.setPending_col (s : State) (v : List Instr) : (s.setPending v).col = s.col := rfl
@[simp] theorem State.setPending_srv (s : State) (v : List Instr) : (s.setPending v).srv = s.srv := rfl
@[simp] theorem State.setPending_work (s : State) (v : List Instr) : (s.setPending v).work = s.work := rfl
@[simp] theorem State.setPending_hif (s : State) (v : List Instr) : (s.setPending v).hif = s.hif := rfl
@[simp] theorem State.setPending_flt (s : State) (v : List Instr) : (s.setPending v).flt = s.flt := rfl
@[simp] theorem State.setPending_thm (s : State) (v : List Instr) : (s.setPending v).thm = s.thm := rfl
@[simp] theorem State.setPending_tst (s : State) (v : List Instr) : (s.setPending v).tst = s.tst := rfl
@[simp] theorem State.setPending_tap (s : State) (v : List Instr) : (s.setPending v).tap = s.tap := rfl
@[simp] theorem State.setPending_power (s : State) (v : List Instr) : (s.setPending v).power = s.power := rfl
@[simp] theorem State.setPending_hostMem (s : State) (v : List Instr) : (s.setPending v).hostMem = s.hostMem := rfl
@[simp] theorem State.setPending_portS (s : State) (v : List Instr) : (s.setPending v).portS = s.portS := rfl
@[simp] theorem State.setPending_out (s : State) (v : List Instr) : (s.setPending v).out = s.out := rfl
@[simp] theorem State.setPending_ns (s : State) (v : List Instr) : (s.setPending v).ns = s.ns := rfl
@[simp] theorem State.setPending_free (s : State) (v : List Instr) : (s.setPending v).free = s.free := rfl
@[simp] theorem State.setPending_pending (s : State) (v : List Instr) : (s.setPending v).pending = v := rfl

@[simp] theorem State.setNs_straps (s : State) (v : Nat) : (s.setNs v).straps = s.straps := rfl
@[simp] theorem State.setNs_stu (s : State) (v : Nat) : (s.setNs v).stu = s.stu := rfl
@[simp] theorem State.setNs_cores (s : State) (v : Nat) : (s.setNs v).cores = s.cores := rfl
@[simp] theorem State.setNs_bolt (s : State) (v : Nat) : (s.setNs v).bolt = s.bolt := rfl
@[simp] theorem State.setNs_hbm (s : State) (v : Nat) : (s.setNs v).hbm = s.hbm := rfl
@[simp] theorem State.setNs_prs (s : State) (v : Nat) : (s.setNs v).prs = s.prs := rfl
@[simp] theorem State.setNs_lin (s : State) (v : Nat) : (s.setNs v).lin = s.lin := rfl
@[simp] theorem State.setNs_sea (s : State) (v : Nat) : (s.setNs v).sea = s.sea := rfl
@[simp] theorem State.setNs_col (s : State) (v : Nat) : (s.setNs v).col = s.col := rfl
@[simp] theorem State.setNs_srv (s : State) (v : Nat) : (s.setNs v).srv = s.srv := rfl
@[simp] theorem State.setNs_work (s : State) (v : Nat) : (s.setNs v).work = s.work := rfl
@[simp] theorem State.setNs_hif (s : State) (v : Nat) : (s.setNs v).hif = s.hif := rfl
@[simp] theorem State.setNs_flt (s : State) (v : Nat) : (s.setNs v).flt = s.flt := rfl
@[simp] theorem State.setNs_thm (s : State) (v : Nat) : (s.setNs v).thm = s.thm := rfl
@[simp] theorem State.setNs_tst (s : State) (v : Nat) : (s.setNs v).tst = s.tst := rfl
@[simp] theorem State.setNs_tap (s : State) (v : Nat) : (s.setNs v).tap = s.tap := rfl
@[simp] theorem State.setNs_power (s : State) (v : Nat) : (s.setNs v).power = s.power := rfl
@[simp] theorem State.setNs_hostMem (s : State) (v : Nat) : (s.setNs v).hostMem = s.hostMem := rfl
@[simp] theorem State.setNs_portS (s : State) (v : Nat) : (s.setNs v).portS = s.portS := rfl
@[simp] theorem State.setNs_out (s : State) (v : Nat) : (s.setNs v).out = s.out := rfl
@[simp] theorem State.setNs_ns (s : State) (v : Nat) : (s.setNs v).ns = v := rfl
@[simp] theorem State.setNs_free (s : State) (v : Nat) : (s.setNs v).free = s.free := rfl
@[simp] theorem State.setNs_pending (s : State) (v : Nat) : (s.setNs v).pending = s.pending := rfl

@[simp] theorem State.setStraps_straps (s : State) (v : Straps) : (s.setStraps v).straps = v := rfl
@[simp] theorem State.setStraps_stu (s : State) (v : Straps) : (s.setStraps v).stu = s.stu := rfl
@[simp] theorem State.setStraps_cores (s : State) (v : Straps) : (s.setStraps v).cores = s.cores := rfl
@[simp] theorem State.setStraps_bolt (s : State) (v : Straps) : (s.setStraps v).bolt = s.bolt := rfl
@[simp] theorem State.setStraps_hbm (s : State) (v : Straps) : (s.setStraps v).hbm = s.hbm := rfl
@[simp] theorem State.setStraps_prs (s : State) (v : Straps) : (s.setStraps v).prs = s.prs := rfl
@[simp] theorem State.setStraps_lin (s : State) (v : Straps) : (s.setStraps v).lin = s.lin := rfl
@[simp] theorem State.setStraps_sea (s : State) (v : Straps) : (s.setStraps v).sea = s.sea := rfl
@[simp] theorem State.setStraps_col (s : State) (v : Straps) : (s.setStraps v).col = s.col := rfl
@[simp] theorem State.setStraps_srv (s : State) (v : Straps) : (s.setStraps v).srv = s.srv := rfl
@[simp] theorem State.setStraps_work (s : State) (v : Straps) : (s.setStraps v).work = s.work := rfl
@[simp] theorem State.setStraps_hif (s : State) (v : Straps) : (s.setStraps v).hif = s.hif := rfl
@[simp] theorem State.setStraps_flt (s : State) (v : Straps) : (s.setStraps v).flt = s.flt := rfl
@[simp] theorem State.setStraps_thm (s : State) (v : Straps) : (s.setStraps v).thm = s.thm := rfl
@[simp] theorem State.setStraps_tst (s : State) (v : Straps) : (s.setStraps v).tst = s.tst := rfl
@[simp] theorem State.setStraps_tap (s : State) (v : Straps) : (s.setStraps v).tap = s.tap := rfl
@[simp] theorem State.setStraps_power (s : State) (v : Straps) : (s.setStraps v).power = s.power := rfl
@[simp] theorem State.setStraps_hostMem (s : State) (v : Straps) : (s.setStraps v).hostMem = s.hostMem := rfl
@[simp] theorem State.setStraps_portS (s : State) (v : Straps) : (s.setStraps v).portS = s.portS := rfl
@[simp] theorem State.setStraps_out (s : State) (v : Straps) : (s.setStraps v).out = s.out := rfl
@[simp] theorem State.setStraps_ns (s : State) (v : Straps) : (s.setStraps v).ns = s.ns := rfl
@[simp] theorem State.setStraps_free (s : State) (v : Straps) : (s.setStraps v).free = s.free := rfl
@[simp] theorem State.setStraps_pending (s : State) (v : Straps) : (s.setStraps v).pending = s.pending := rfl

@[simp] theorem State.emit_straps (s : State) (o : Output) : (s.emit o).straps = s.straps := rfl
@[simp] theorem State.emit_stu (s : State) (o : Output) : (s.emit o).stu = s.stu := rfl
@[simp] theorem State.emit_cores (s : State) (o : Output) : (s.emit o).cores = s.cores := rfl
@[simp] theorem State.emit_bolt (s : State) (o : Output) : (s.emit o).bolt = s.bolt := rfl
@[simp] theorem State.emit_hbm (s : State) (o : Output) : (s.emit o).hbm = s.hbm := rfl
@[simp] theorem State.emit_prs (s : State) (o : Output) : (s.emit o).prs = s.prs := rfl
@[simp] theorem State.emit_lin (s : State) (o : Output) : (s.emit o).lin = s.lin := rfl
@[simp] theorem State.emit_sea (s : State) (o : Output) : (s.emit o).sea = s.sea := rfl
@[simp] theorem State.emit_col (s : State) (o : Output) : (s.emit o).col = s.col := rfl
@[simp] theorem State.emit_srv (s : State) (o : Output) : (s.emit o).srv = s.srv := rfl
@[simp] theorem State.emit_work (s : State) (o : Output) : (s.emit o).work = s.work := rfl
@[simp] theorem State.emit_hif (s : State) (o : Output) : (s.emit o).hif = s.hif := rfl
@[simp] theorem State.emit_flt (s : State) (o : Output) : (s.emit o).flt = s.flt := rfl
@[simp] theorem State.emit_thm (s : State) (o : Output) : (s.emit o).thm = s.thm := rfl
@[simp] theorem State.emit_tst (s : State) (o : Output) : (s.emit o).tst = s.tst := rfl
@[simp] theorem State.emit_tap (s : State) (o : Output) : (s.emit o).tap = s.tap := rfl
@[simp] theorem State.emit_power (s : State) (o : Output) : (s.emit o).power = s.power := rfl
@[simp] theorem State.emit_hostMem (s : State) (o : Output) : (s.emit o).hostMem = s.hostMem := rfl
@[simp] theorem State.emit_portS (s : State) (o : Output) : (s.emit o).portS = s.portS := rfl
@[simp] theorem State.emit_out (s : State) (o : Output) : (s.emit o).out = o :: s.out := rfl
@[simp] theorem State.emit_ns (s : State) (o : Output) : (s.emit o).ns = s.ns := rfl
@[simp] theorem State.emit_free (s : State) (o : Output) : (s.emit o).free = s.free := rfl
@[simp] theorem State.emit_pending (s : State) (o : Output) : (s.emit o).pending = s.pending := rfl

@[simp] theorem State.drew_straps (s : State) : s.drew.straps = s.straps := rfl
@[simp] theorem State.drew_stu (s : State) : s.drew.stu = s.stu := rfl
@[simp] theorem State.drew_cores (s : State) : s.drew.cores = s.cores := rfl
@[simp] theorem State.drew_bolt (s : State) : s.drew.bolt = s.bolt := rfl
@[simp] theorem State.drew_hbm (s : State) : s.drew.hbm = s.hbm := rfl
@[simp] theorem State.drew_prs (s : State) : s.drew.prs = s.prs := rfl
@[simp] theorem State.drew_lin (s : State) : s.drew.lin = s.lin := rfl
@[simp] theorem State.drew_sea (s : State) : s.drew.sea = s.sea := rfl
@[simp] theorem State.drew_col (s : State) : s.drew.col = s.col := rfl
@[simp] theorem State.drew_srv (s : State) : s.drew.srv = s.srv := rfl
@[simp] theorem State.drew_work (s : State) : s.drew.work = s.work := rfl
@[simp] theorem State.drew_hif (s : State) : s.drew.hif = s.hif := rfl
@[simp] theorem State.drew_flt (s : State) : s.drew.flt = s.flt := rfl
@[simp] theorem State.drew_thm (s : State) : s.drew.thm = s.thm := rfl
@[simp] theorem State.drew_tst (s : State) : s.drew.tst = s.tst := rfl
@[simp] theorem State.drew_tap (s : State) : s.drew.tap = s.tap := rfl
@[simp] theorem State.drew_power (s : State) : s.drew.power = s.power := rfl
@[simp] theorem State.drew_hostMem (s : State) : s.drew.hostMem = s.hostMem := rfl
@[simp] theorem State.drew_portS (s : State) : s.drew.portS = s.portS := rfl
@[simp] theorem State.drew_out (s : State) : s.drew.out = s.out := rfl
@[simp] theorem State.drew_ns (s : State) : s.drew.ns = s.ns := rfl
@[simp] theorem State.drew_free (s : State) : s.drew.free = s.free + 1 := rfl
@[simp] theorem State.drew_pending (s : State) : s.drew.pending = s.pending := rfl

/-! Entries of vectors. -/

theorem vAt_of_lt {α : Type} {n : Nat} (v : Vector α n) {i : Nat} (d : α) (h : i < n) : vAt v i d = v[i] := by
  simp [vAt, h]

@[simp] theorem vAt_vMod_same {α : Type} {n : Nat} (v : Vector α n) {i : Nat} (f : α → α) (d : α) (h : i < n) :
    vAt (vMod v i f) i d = f (vAt v i d) := by
  simp [vAt, vMod, h]

theorem vAt_vMod_other {α : Type} {n : Nat} (v : Vector α n) {i j : Nat} (f : α → α) (d : α) (h : i ≠ j) :
    vAt (vMod v i f) j d = vAt v j d := by
  by_cases hi : i < n <;> by_cases hj : j < n <;> simp [vAt, vMod, hi, hj, Vector.getElem_set, h]

@[simp] theorem State.ctx_onCtx (s : State) (n : Nat) (f : CtxRegs → CtxRegs) (h : n < 16) : (s.onCtx n f).ctx n = f (s.ctx n) := by
  simp [State.ctx, State.onCtx, h]

theorem State.ctx_onCtx_other (s : State) (n m : Nat) (f : CtxRegs → CtxRegs) (h : n ≠ m) : (s.onCtx n f).ctx m = s.ctx m := by
  simp [State.ctx, State.onCtx, vAt_vMod_other _ _ _ h]

@[simp] theorem State.train_onTrain (s : State) (n : Nat) (f : TrainCtx → TrainCtx) (h : n < 16) : (s.onTrain n f).train n = f (s.train n) := by
  simp [State.train, State.onTrain, h]

theorem State.train_onTrain_other (s : State) (n m : Nat) (f : TrainCtx → TrainCtx) (h : n ≠ m) : (s.onTrain n f).train m = s.train m := by
  simp [State.train, State.onTrain, vAt_vMod_other _ _ _ h]

@[simp] theorem State.presser_onPresser (s : State) (n : Nat) (f : Presser → Presser) (h : n < 8) : (s.onPresser n f).presser n = f (s.presser n) := by
  simp [State.presser, State.onPresser, h]

theorem State.presser_onPresser_other (s : State) (n m : Nat) (f : Presser → Presser) (h : n ≠ m) : (s.onPresser n f).presser m = s.presser m := by
  simp [State.presser, State.onPresser, vAt_vMod_other _ _ _ h]

@[simp] theorem State.colCtx_onColCtx (s : State) (n : Nat) (f : ColCtx → ColCtx) (h : n < 16) : (s.onColCtx n f).colCtx n = f (s.colCtx n) := by
  simp [State.colCtx, State.onColCtx, h]

theorem State.colCtx_onColCtx_other (s : State) (n m : Nat) (f : ColCtx → ColCtx) (h : n ≠ m) : (s.onColCtx n f).colCtx m = s.colCtx m := by
  simp [State.colCtx, State.onColCtx, vAt_vMod_other _ _ _ h]

@[simp] theorem State.srvCtx_onSrvCtx (s : State) (n : Nat) (f : SrvCtx → SrvCtx) (h : n < 16) : (s.onSrvCtx n f).srvCtx n = f (s.srvCtx n) := by
  simp [State.srvCtx, State.onSrvCtx, h]

theorem State.srvCtx_onSrvCtx_other (s : State) (n m : Nat) (f : SrvCtx → SrvCtx) (h : n ≠ m) : (s.onSrvCtx n f).srvCtx m = s.srvCtx m := by
  simp [State.srvCtx, State.onSrvCtx, vAt_vMod_other _ _ _ h]

@[simp] theorem State.port_onPort (s : State) (n : Nat) (f : Port → Port) (h : n < 16) : (s.onPort n f).port n = f (s.port n) := by
  simp [State.port, State.onPort, h]

theorem State.port_onPort_other (s : State) (n m : Nat) (f : Port → Port) (h : n ≠ m) : (s.onPort n f).port m = s.port m := by
  simp [State.port, State.onPort, vAt_vMod_other _ _ _ h]

@[simp] theorem State.ring_onRing (s : State) (n : Nat) (f : Ring → Ring) (h : n < 16) : (s.onRing n f).ring n = f (s.ring n) := by
  simp [State.ring, State.onRing, h]

theorem State.ring_onRing_other (s : State) (n m : Nat) (f : Ring → Ring) (h : n ≠ m) : (s.onRing n f).ring m = s.ring m := by
  simp [State.ring, State.onRing, vAt_vMod_other _ _ _ h]

@[simp] theorem State.queue_onQueue (s : State) (n : Nat) (f : EventQueue → EventQueue) (h : n < 16) : (s.onQueue n f).queue n = f (s.queue n) := by
  simp [State.queue, State.onQueue, h]

theorem State.queue_onQueue_other (s : State) (n m : Nat) (f : EventQueue → EventQueue) (h : n ≠ m) : (s.onQueue n f).queue m = s.queue m := by
  simp [State.queue, State.onQueue, vAt_vMod_other _ _ _ h]

@[simp] theorem State.band_onBand (s : State) (n : Nat) (f : Band → Band) (h : n < 128) : (s.onBand n f).band n = f (s.band n) := by
  simp [State.band, State.onBand, h]

theorem State.band_onBand_other (s : State) (n m : Nat) (f : Band → Band) (h : n ≠ m) : (s.onBand n f).band m = s.band m := by
  simp [State.band, State.onBand, vAt_vMod_other _ _ _ h]

/-! Entries of tables. -/

theorem Tab.find_put_same {α : Type} (t : Tab α) (i : Nat) (v : α) : Tab.find (Tab.put t i v) i = some v := by
  induction t with
  | nil => simp [Tab.put, Tab.find]
  | cons x t ih =>
    obtain ⟨k, w⟩ := x
    simp only [Tab.put]
    split
    · simp [Tab.find]
    · split
      · simp [Tab.find]
      · rename_i h1 h2
        have : k ≠ i := fun h => h2 h.symm
        simp [Tab.find, this, ih]

theorem Tab.find_put_other {α : Type} (t : Tab α) {i j : Nat} (v : α) (h : i ≠ j) :
    Tab.find (Tab.put t i v) j = Tab.find t j := by
  induction t with
  | nil => simp [Tab.put, Tab.find, h]
  | cons x t ih =>
    obtain ⟨k, w⟩ := x
    simp only [Tab.put]
    split
    · simp [Tab.find, h]
    · split
      · rename_i _ h2
        subst h2
        simp [Tab.find, h]
      · simp [Tab.find, ih]

@[simp] theorem Tab.getD_put_same {α : Type} (t : Tab α) (i : Nat) (v d : α) : Tab.getD (Tab.put t i v) i d = v := by
  simp [Tab.getD, Tab.find_put_same]

theorem Tab.getD_put_other {α : Type} (t : Tab α) {i j : Nat} (v d : α) (h : i ≠ j) :
    Tab.getD (Tab.put t i v) j d = Tab.getD t j d := by
  simp [Tab.getD, Tab.find_put_other t v h]

@[simp] theorem State.core_onCore (s : State) (c : Nat) (f : Core → Core) : (s.onCore c f).core c = f (s.core c) := by
  simp [State.core, State.onCore]

theorem State.core_onCore_other (s : State) (c d : Nat) (f : Core → Core) (h : c ≠ d) : (s.onCore c f).core d = s.core d := by
  simp [State.core, State.onCore, Tab.getD_put_other _ _ _ h]

@[simp] theorem State.router_onRouter (s : State) (r : Nat) (f : Router → Router) :
    (s.onRouter r f).router r = f (s.router r) := by
  simp [State.router, State.onRouter]

@[simp] theorem State.slot_onSlot (s : State) (i : Nat) (f : SeqSlot → SeqSlot) : (s.onSlot i f).slot i = f (s.slot i) := by
  simp [State.slot, State.onSlot]

end Sys2Proof.Machine
end

