-- ==== Sys2Proof/Laws/Keeps.lean ====
section
/-! SUPPORT. What no command does (Keeps, Safety.lean): the preorder, and its lemmas for the updates of the state. -/

namespace Sys2Proof.Machine

theorem Keeps.refl (s : State) : Keeps s s := ⟨rfl, rfl, List.suffix_refl _, id⟩

theorem Keeps.trans {s t u : State} (h : Keeps s t) (k : Keeps t u) : Keeps s u :=
  ⟨k.queue.trans h.queue, k.straps.trans h.straps, h.out.trans k.out, fun w => k.mem (h.mem w)⟩

/-- An outcome's next state keeps what no command touches. -/
structure OutKeeps (s : State) (o : Out) : Prop where
  next : ∀ t, o = .next t → Keeps s t

theorem outKeeps_next {s t : State} (h : Keeps s t) : OutKeeps s (.next t) :=
  ⟨fun _ e => by cases e; exact h⟩

theorem outKeeps_refused {s : State} (r : Refusal) : OutKeeps s (.refused r) := ⟨fun _ e => by cases e⟩

theorem outKeeps_fault {s : State} (r : Fault) : OutKeeps s (.fault r) := ⟨fun _ e => by cases e⟩

/-- A state kept through an update of blocks that hold no memory. -/
theorem keeps_of_same {s t u : State} (h : Keeps s t) (hq : u.pending = t.pending) (hs : u.straps = t.straps)
    (ho : u.out = t.out) (h1 : u.hostMem = t.hostMem) (h2 : u.portS = t.portS) (h3 : u.bolt = t.bolt) (h4 : u.hbm = t.hbm)
    (h5 : u.cores = t.cores) (h6 : u.prs = t.prs) : Keeps s u :=
  ⟨hq.trans h.queue, hs.trans h.straps, ho ▸ h.out, fun w => by
    have := h.mem w
    unfold memWf at this ⊢
    rw [h1, h2, h3, h4, h5, h6]
    exact this⟩

section
variable {s t : State} (h : Keeps s t)
include h

theorem onStu_keeps (f : Stu → Stu) : Keeps s (t.onStu f) := keeps_of_same h rfl rfl rfl rfl rfl rfl rfl rfl rfl
theorem onLin_keeps (f : Lin → Lin) : Keeps s (t.onLin f) := keeps_of_same h rfl rfl rfl rfl rfl rfl rfl rfl rfl
theorem onSea_keeps (f : Sea → Sea) : Keeps s (t.onSea f) := keeps_of_same h rfl rfl rfl rfl rfl rfl rfl rfl rfl
theorem onCol_keeps (f : Col → Col) : Keeps s (t.onCol f) := keeps_of_same h rfl rfl rfl rfl rfl rfl rfl rfl rfl
theorem onSrv_keeps (f : Srv → Srv) : Keeps s (t.onSrv f) := keeps_of_same h rfl rfl rfl rfl rfl rfl rfl rfl rfl
theorem onWork_keeps (f : Work → Work) : Keeps s (t.onWork f) := keeps_of_same h rfl rfl rfl rfl rfl rfl rfl rfl rfl
theorem onHif_keeps (f : HostIf → HostIf) : Keeps s (t.onHif f) := keeps_of_same h rfl rfl rfl rfl rfl rfl rfl rfl rfl
theorem onFlt_keeps (f : Flt → Flt) : Keeps s (t.onFlt f) := keeps_of_same h rfl rfl rfl rfl rfl rfl rfl rfl rfl
theorem onThm_keeps (f : Thm → Thm) : Keeps s (t.onThm f) := keeps_of_same h rfl rfl rfl rfl rfl rfl rfl rfl rfl
theorem onTst_keeps (f : Tst → Tst) : Keeps s (t.onTst f) := keeps_of_same h rfl rfl rfl rfl rfl rfl rfl rfl rfl
theorem onTap_keeps (f : Tap → Tap) : Keeps s (t.onTap f) := keeps_of_same h rfl rfl rfl rfl rfl rfl rfl rfl rfl
theorem onPower_keeps (f : Power → Power) : Keeps s (t.onPower f) := keeps_of_same h rfl rfl rfl rfl rfl rfl rfl rfl rfl
theorem setNs_keeps (n : Nat) : Keeps s (t.setNs n) := keeps_of_same h rfl rfl rfl rfl rfl rfl rfl rfl rfl
theorem drew_keeps : Keeps s t.drew := keeps_of_same h rfl rfl rfl rfl rfl rfl rfl rfl rfl

theorem emit_keeps (o : Output) : Keeps s (t.emit o) :=
  ⟨h.queue, h.straps, h.out.trans (List.suffix_cons o t.out), h.mem⟩

theorem onBolt_keeps (f : Bolt → Bolt) (hf : ∀ b, Mem.wf b.mem = true → Mem.wf (f b).mem = true) : Keeps s (t.onBolt f) :=
  ⟨h.queue, h.straps, h.out, fun w => let ⟨a, b, c, d⟩ := h.mem w; ⟨a, b, hf _ c, d⟩⟩

theorem onHbm_keeps (f : Hbm → Hbm) (hf : ∀ b, Mem.wf b.mem = true → Mem.wf (f b).mem = true) : Keeps s (t.onHbm f) :=
  ⟨h.queue, h.straps, h.out, fun w => let ⟨a, b, c, d, e⟩ := h.mem w; ⟨a, b, c, hf _ d, e⟩⟩

theorem setHostMem_keeps (m : Mem) (hm : Mem.wf t.hostMem = true → Mem.wf m = true) : Keeps s (t.setHostMem m) :=
  ⟨h.queue, h.straps, h.out, fun w => let ⟨a, b⟩ := h.mem w; ⟨hm a, b⟩⟩

theorem setPortS_keeps (m : Mem) (hm : Mem.wf t.portS = true → Mem.wf m = true) : Keeps s (t.setPortS m) :=
  ⟨h.queue, h.straps, h.out, fun w => let ⟨a, b, c⟩ := h.mem w; ⟨a, hm b, c⟩⟩

/-- The canonical form of every core's scratch. -/
theorem onCores_keeps (f : Cores → Cores) (hf : ∀ k : Cores, (∀ x ∈ k.cores, Mem.wf x.2.scratch = true) →
    ∀ x ∈ (f k).cores, Mem.wf x.2.scratch = true) : Keeps s (t.onCores f) :=
  ⟨h.queue, h.straps, h.out, fun w => let ⟨a, b, c, d, e, g⟩ := h.mem w; ⟨a, b, c, d, hf _ e, g⟩⟩

theorem onPrs_keeps (f : Prs → Prs) (hf : ∀ k : Prs, (∀ p ∈ k.pressers.toList, Mem.wf p.ring = true) →
    ∀ p ∈ (f k).pressers.toList, Mem.wf p.ring = true) : Keeps s (t.onPrs f) :=
  ⟨h.queue, h.straps, h.out, fun w => let ⟨a, b, c, d, e, g⟩ := h.mem w; ⟨a, b, c, d, e, hf _ g⟩⟩

theorem onHif_entry_keeps (f : HostIf → HostIf) : Keeps s (t.onHif f) := onHif_keeps h f
theorem onCtx_keeps (n : Nat) (f : CtxRegs → CtxRegs) : Keeps s (t.onCtx n f) := onHif_keeps h _
theorem onRing_keeps (n : Nat) (f : Ring → Ring) : Keeps s (t.onRing n f) := onHif_keeps h _
theorem onQueue_keeps (n : Nat) (f : EventQueue → EventQueue) : Keeps s (t.onQueue n f) := onHif_keeps h _
theorem onTrain_keeps (n : Nat) (f : TrainCtx → TrainCtx) : Keeps s (t.onTrain n f) := onPrs_keeps h _ fun _ k => k
theorem onColCtx_keeps (n : Nat) (f : ColCtx → ColCtx) : Keeps s (t.onColCtx n f) := onCol_keeps h _
theorem onSrvCtx_keeps (n : Nat) (f : SrvCtx → SrvCtx) : Keeps s (t.onSrvCtx n f) := onSrv_keeps h _
theorem onSlot_keeps (n : Nat) (f : SeqSlot → SeqSlot) : Keeps s (t.onSlot n f) := onSrv_keeps h _
theorem onPort_keeps (n : Nat) (f : Port → Port) : Keeps s (t.onPort n f) := onSea_keeps h _
theorem onBand_keeps (n : Nat) (f : Band → Band) : Keeps s (t.onBand n f) := onFlt_keeps h _
theorem onRouter_keeps (n : Nat) (f : Router → Router) : Keeps s (t.onRouter n f) := onCores_keeps h _ fun _ k => k

end

theorem mem_vMod {α : Type} {n : Nat} {v : Vector α n} {i : Nat} {f : α → α} {x : α} (hx : x ∈ (vMod v i f).toList) :
    x ∈ v.toList ∨ ∃ y ∈ v.toList, x = f y := by
  unfold vMod at hx
  split at hx
  · rename_i hi
    rw [Vector.mem_toList_iff, Vector.mem_iff_getElem] at hx
    obtain ⟨j, hj, rfl⟩ := hx
    rw [Vector.getElem_set]
    split
    · exact .inr ⟨v[i], by simp, rfl⟩
    · exact .inl (by simp)
  · exact .inl hx

theorem onPresser_keeps {s t : State} (h : Keeps s t) (n : Nat) (f : Presser → Presser)
    (hf : ∀ p : Presser, Mem.wf p.ring = true → Mem.wf (f p).ring = true) : Keeps s (t.onPresser n f) :=
  onPrs_keeps h _ fun k hk p hp => by
    rcases mem_vMod hp with hp | ⟨q, hq, rfl⟩
    · exact hk p hp
    · exact hf q (hk q hq)

theorem Tab.mem_put {α : Type} {t : Tab α} {i : Nat} {v : α} {x : Nat × α} (hx : x ∈ Tab.put t i v) : x ∈ t ∨ x = (i, v) := by
  induction t with
  | nil => simpa [Tab.put] using hx
  | cons y t ih =>
    obtain ⟨k, w⟩ := y
    simp only [Tab.put] at hx
    split at hx
    · rcases List.mem_cons.1 hx with hx | hx
      · exact .inr hx
      · exact .inl hx
    · split at hx
      · rcases List.mem_cons.1 hx with hx | hx
        · exact .inr hx
        · exact .inl (List.mem_cons_of_mem _ hx)
      · simp only [List.mem_cons] at hx ⊢
        rcases hx with hx | hx
        · exact .inl (.inl hx)
        · rcases ih hx with hx | hx
          · exact .inl (.inr hx)
          · exact .inr hx

theorem Tab.mem_of_find {α : Type} {t : Tab α} {i : Nat} {v : α} (h : Tab.find t i = some v) : (i, v) ∈ t := by
  induction t with
  | nil => simp [Tab.find] at h
  | cons y t ih =>
    obtain ⟨k, w⟩ := y
    simp only [Tab.find] at h
    split at h
    · rename_i hk
      cases h
      subst hk
      exact List.mem_cons_self
    · exact List.mem_cons_of_mem _ (ih h)

/-- The scratch of a core found in the table, or of a fresh one, is canonical. -/
theorem core_scratch_wf {t : Tab Core} (ht : ∀ x ∈ t, Mem.wf x.2.scratch = true) (c : Nat) :
    Mem.wf (Tab.getD t c {}).scratch = true := by
  unfold Tab.getD
  cases e : Tab.find t c with
  | none => rfl
  | some k => exact ht _ (Tab.mem_of_find e)

theorem onCore_keeps {s t : State} (h : Keeps s t) (c : Nat) (f : Core → Core)
    (hf : ∀ k : Core, Mem.wf k.scratch = true → Mem.wf (f k).scratch = true) : Keeps s (t.onCore c f) :=
  onCores_keeps h _ fun k hk x hx => by
    rcases Tab.mem_put hx with hx | rfl
    · exact hk x hx
    · exact hf _ (core_scratch_wf hk c)

theorem foldl_keeps {α : Type} {s t : State} (h : Keeps s t) (l : List α) (f : State → α → State)
    (hf : ∀ u a, Keeps s u → Keeps s (f u a)) : Keeps s (l.foldl f t) := by
  induction l generalizing t with
  | nil => exact h
  | cons a l ih => exact ih (hf t a h)

theorem each_keeps {α : Type} {s t : State} (h : Keeps s t) (l : List α) (f : State → α → State)
    (hf : ∀ u a, Keeps s u → Keeps s (f u a)) : Keeps s (t.each l f) := foldl_keeps h l f hf

end Sys2Proof.Machine
end

