-- ==== Sys2Proof/Laws/Cores.lean ====
section
/-! SUPPORT. The operations on one core change its scratch only where they write it. -/

namespace Sys2Proof.Machine

@[simp] theorem onCells_scratch (l : List (Nat × (AccCell → AccCell))) (k : Core) : (onCells l k).scratch = k.scratch := rfl
@[simp] theorem macCore_scratch (b p x : Nat) (f : MacFmt) (k : Core) : (macCore b p x f k).scratch = k.scratch := by
  unfold macCore
  exact onCells_scratch _ k
@[simp] theorem accinFp32_scratch (b p r : Nat) (k : Core) : (accinFp32 b p r k).scratch = k.scratch := by
  unfold accinFp32
  exact onCells_scratch _ k
@[simp] theorem accinGs16_scratch (b p r x : Nat) (k : Core) : (accinGs16 b p r x k).scratch = k.scratch := by
  unfold accinGs16
  exact onCells_scratch _ k
@[simp] theorem takeHalf_scratch (x : BitVec 128) (y : BitVec 512) (k : Core) : (takeHalf x y k).scratch = k.scratch := rfl
@[simp] theorem takeWhole_scratch (b : Nat) (x : BitVec 128) (k : Core) : (takeWhole b x k).scratch = k.scratch := rfl
@[simp] theorem freshCore_scratch (k : Core) : (freshCore k).scratch = k.scratch := rfl
@[simp] theorem coreEcc_scratch (b : Bool) (k : Core) (x : Nat × Ecc) : (coreEcc b k x).scratch = k.scratch := by
  unfold coreEcc
  split <;> rfl

theorem coreEccs_scratch (b : Bool) (l : List (Nat × Ecc)) (k : Core) : (l.foldl (coreEcc b) k).scratch = k.scratch := by
  induction l generalizing k with
  | nil => rfl
  | cons x l ih => rw [List.foldl_cons, ih, coreEcc_scratch]

@[simp] theorem wordEcc_scratch (l : List (Nat × Ecc)) (w : Nat) (k : Core) : (wordEcc l w k).scratch = k.scratch :=
  coreEccs_scratch _ _ _
@[simp] theorem goTo_scratch (r : CoreRun) (pc next : Nat) (l : List LoopFrame) (k : Core) :
    (goTo r pc next l k).scratch = k.scratch := rfl
@[simp] theorem goOn_scratch (i : Issue) (d : Nat) (r : CoreRun) (k : Core) : (goOn i d r k).scratch = k.scratch := by
  unfold goOn
  repeat' first | rfl | split
@[simp] theorem advanceDraw_scratch (x n : Nat) (k : Core) : (advanceDraw x n k).scratch = k.scratch := rfl
@[simp] theorem later_scratch (due : Nat) (w : LateWrite) (k : Core) : (later due w k).scratch = k.scratch := rfl
@[simp] theorem lateWrite_scratch (k : Core) (w : Pending) : (lateWrite k w).scratch = k.scratch := by
  unfold lateWrite
  split <;> rfl

theorem lateWrites_scratch (l : List Pending) (k : Core) : (l.foldl lateWrite k).scratch = k.scratch := by
  induction l generalizing k with
  | nil => rfl
  | cons w l ih => rw [List.foldl_cons, ih, lateWrite_scratch]

@[simp] theorem settle_scratch (cycle : Nat) (k : Core) : (settle cycle k).scratch = k.scratch := lateWrites_scratch _ _
@[simp] theorem scratchWrite_scratch (cycle rank a : Nat) (bs : List Byte) (k : Core) : (scratchWrite cycle rank a bs k).scratch =
    Mem.write k.scratch a (scratchKept k cycle rank a (bs.take (scratchBytes - a))) := rfl
@[simp] theorem putScratch_scratch (a : Nat) (bs : List Byte) (k : Core) :
    (putScratch a bs k).scratch = Mem.write k.scratch a (bs.take (scratchBytes - a)) := rfl
@[simp] theorem scratchEcc_scratch (l : List (Nat × Ecc)) (a n : Nat) (k : Core) : (scratchEcc l a n k).scratch = k.scratch :=
  coreEccs_scratch _ _ _
@[simp] theorem advanceStream_scratch (x n : Nat) (k : Core) : (advanceStream x n k).scratch = k.scratch := rfl
@[simp] theorem onTally_scratch (g : Nat) (f : Tally → Tally) (k : Core) : (onTally g f k).scratch = k.scratch := rfl
@[simp] theorem tallyAll_scratch (g : Nat) (l : List Narrowed) (k : Core) : (tallyAll g l k).scratch = k.scratch := rfl
@[simp] theorem writeLanes_scratch (lat : Nat) (i : Issue) (v : VOp) (r : Nat) (l : List W32) (k : Core) :
    (writeLanes lat i v r l k).scratch = k.scratch := rfl
@[simp] theorem lanewise_scratch (lat : Nat) (i : Issue) (v : VOp) (f : W32 → W32 → W32 → W32) (k : Core) :
    (lanewise lat i v f k).scratch = k.scratch := rfl
@[simp] theorem compareLanes_scratch (i : Issue) (v : VOp) (f : W32 → W32 → Bool) (k : Core) :
    (compareLanes i v f k).scratch = k.scratch := rfl
@[simp] theorem ite_scratch (c : Prop) [Decidable c] (a b : Core) :
    (if c then a else b).scratch = if c then a.scratch else b.scratch := by split <;> rfl

/-- A change of every core that leaves the scratch canonical. -/
theorem map_scratch {l : List (Nat × Core)} {f : Nat × Core → Nat × Core} (hl : ∀ x ∈ l, Mem.wf x.2.scratch = true)
    (hf : ∀ x, (f x).2.scratch = x.2.scratch) : ∀ x ∈ l.map f, Mem.wf x.2.scratch = true := by
  intro x hx
  obtain ⟨y, hy, rfl⟩ := List.mem_map.1 hx
  rw [hf]
  exact hl y hy

theorem filter_scratch {l : List (Nat × Core)} {p : Nat × Core → Bool} (hl : ∀ x ∈ l, Mem.wf x.2.scratch = true) :
    ∀ x ∈ l.filter p, Mem.wf x.2.scratch = true := fun x hx => hl x (List.mem_filter.1 hx).1

theorem map_ring {n : Nat} {v : Vector Presser n} {f : Presser → Presser} (hv : ∀ p ∈ v.toList, Mem.wf p.ring = true)
    (hf : ∀ p, (f p).ring = p.ring) : ∀ p ∈ (v.map f).toList, Mem.wf p.ring = true := by
  intro p hp
  rw [Vector.mem_toList_iff, Vector.mem_map] at hp
  obtain ⟨q, hq, rfl⟩ := hp
  rw [hf]
  exact hv q (Vector.mem_toList_iff.2 hq)

/-- What comes with a pair whose state is kept. -/
theorem snd_keeps {α : Type} {s u : State} {a : α} {p : α × State} (hp : Keeps s p.2) (e : p = (a, u)) : Keeps s u := by
  subst e
  exact hp

theorem snd2_keeps {α β : Type} {s u : State} {a : α} {b : β} {p : α × β × State} (hp : Keeps s p.2.2) (e : p = (a, b, u)) :
    Keeps s u := by
  subst e
  exact hp

theorem ite_keeps {s t u : State} {c : Prop} [Decidable c] (ht : Keeps s t) (hu : Keeps s u) : Keeps s (if c then t else u) := by
  split
  · exact ht
  · exact hu

theorem putAll_wf {α : Type} (l : List α) (g : Mem → α → Mem) (hg : ∀ m a, Mem.wf m = true → Mem.wf (g m a) = true) (m : Mem)
    (h : Mem.wf m = true) : Mem.wf (l.foldl g m) = true := by
  induction l generalizing m with
  | nil => exact h
  | cons a l ih => exact ih _ (hg m a h)

end Sys2Proof.Machine
end

