-- ==== Sys2Proof/Laws/KeepsOps.lean ====
section
/-! SUPPORT. Each operation and each meaning keeps what no command touches (Keeps, Safety.lean): the shared operations, the seams, the bolt and the resets. -/

namespace Sys2Proof.Machine

theorem post_keeps {s t : State} (h : Keeps s t) (n type body) : Keeps s (post n type body t) := by
  unfold post
  repeat' first
    | with_reducible assumption | extract_lets | with_reducible apply onQueue_keeps | with_reducible apply setHostMem_keeps
    | exact fun hw => Mem.write_wf _ _ _ hw | split

theorem platformEvent_keeps {s t : State} (h : Keeps s t) (kind bytes) : Keeps s (platformEvent kind bytes t) := by
  unfold platformEvent
  repeat' first
    | with_reducible assumption | with_reducible apply emit_keeps | split

theorem postCompletion_keeps {s t : State} (h : Keeps s t) (n dtype status flags ringIndex handle info digest) :
    Keeps s (postCompletion n dtype status flags ringIndex handle info digest t) := by
  unfold postCompletion
  repeat' first
    | with_reducible assumption | with_reducible apply post_keeps

theorem blockCompletion_keeps {s t : State} (h : Keeps s t) (n dtype) : Keeps s (blockCompletion n dtype t) := by
  unfold blockCompletion
  repeat' first
    | with_reducible assumption | extract_lets | with_reducible apply drew_keeps | with_reducible apply postCompletion_keeps

theorem violate_keeps {s t : State} (h : Keeps s t) (n kind) : Keeps s (violate n kind t) := by
  unfold violate
  repeat' first
    | with_reducible assumption | extract_lets | with_reducible apply onFlt_keeps

theorem logGeneral_keeps {s t : State} (h : Keeps s t) (kind flags body) : Keeps s (logGeneral kind flags body t) := by
  unfold logGeneral
  repeat' first
    | with_reducible assumption | extract_lets | with_reducible apply onThm_keeps

theorem logCritical_keeps {s t : State} (h : Keeps s t) (kind body) : Keeps s (logCritical kind body t) := by
  unfold logCritical
  repeat' first
    | with_reducible assumption | extract_lets | with_reducible apply onThm_keeps | with_reducible apply logGeneral_keeps | split

theorem queueVc0_keeps {s t : State} (h : Keeps s t) (a0) (a1) : Keeps s (queueVc0 a0 a1 t) := by
  unfold queueVc0
  repeat' first
    | with_reducible assumption | extract_lets | with_reducible apply onPort_keeps | split | (dsimp +zetaDelta only) | intro _
    | (intro _ hh; first | exact hh | exact Mem.write_wf _ _ _ hh | exact Mem.clearRange_wf _ _ _ hh)

theorem sendVc0_keeps {s t : State} (h : Keeps s t) (a0) (a1) : Keeps s (sendVc0 a0 a1 t) := by
  unfold sendVc0
  repeat' first
    | with_reducible assumption | extract_lets | with_reducible apply queueVc0_keeps | split | (dsimp +zetaDelta only)
    | intro _ | (intro _ hh; first | exact hh | exact Mem.write_wf _ _ _ hh | exact Mem.clearRange_wf _ _ _ hh)

theorem sendDown_keeps {s t : State} (h : Keeps s t) (alt msg) : Keeps s (sendDown alt msg t) := by
  unfold sendDown
  repeat' first
    | with_reducible assumption | extract_lets | with_reducible apply each_keeps | with_reducible apply sendVc0_keeps | intro _

theorem poison_keeps {s t : State} (h : Keeps s t) (n) : Keeps s (poison n t) := by
  unfold poison
  repeat' first
    | with_reducible assumption | with_reducible apply onTrain_keeps

theorem rememberKey_keeps {s t : State} (h : Keeps s t) (m) : Keeps s (rememberKey m t) := by
  unfold rememberKey
  repeat' first
    | with_reducible assumption | with_reducible apply onCol_keeps

theorem returnCredits_keeps {s t : State} (h : Keeps s t) (n hem vc k) : Keeps s (returnCredits n hem vc k t) := by
  unfold returnCredits
  repeat' first
    | with_reducible assumption | with_reducible apply onColCtx_keeps

theorem discardStream_keeps {s t : State} (h : Keeps s t) (m a1) : Keeps s (discardStream m a1 t) := by
  unfold discardStream
  repeat' first
    | with_reducible assumption | extract_lets | with_reducible apply returnCredits_keeps | with_reducible apply onPort_keeps

theorem discardAborted_keeps {s t : State} (h : Keeps s t) (n) : Keeps s (discardAborted n t) := by
  unfold discardAborted
  repeat' first
    | with_reducible assumption | extract_lets | with_reducible apply each_keeps | with_reducible apply discardStream_keeps
    | with_reducible apply onSea_keeps | intro _

theorem queueRecord_keeps {s t : State} (h : Keeps s t) (r) : Keeps s (queueRecord r t) := by
  unfold queueRecord
  repeat' first
    | with_reducible assumption | with_reducible apply onFlt_keeps

theorem actOnAbort_keeps {s t : State} (h : Keeps s t) (n m record) : Keeps s (actOnAbort n m record t) := by
  unfold actOnAbort
  repeat' first
    | with_reducible assumption | extract_lets | with_reducible apply discardAborted_keeps | with_reducible apply onColCtx_keeps
    | with_reducible apply poison_keeps | with_reducible apply queueRecord_keeps | split

theorem originateAbort_keeps {s t : State} (h : Keeps s t) (job cause) : Keeps s (originateAbort job cause t) := by
  unfold originateAbort
  repeat' first
    | with_reducible assumption | extract_lets | with_reducible apply rememberKey_keeps | with_reducible apply each_keeps
    | with_reducible apply sendVc0_keeps | with_reducible apply actOnAbort_keeps | split | (dsimp +zetaDelta only) | intro _

theorem postRecord_keeps {s t : State} (h : Keeps s t) (r) : Keeps s (postRecord r t) := by
  unfold postRecord
  repeat' first
    | with_reducible assumption | extract_lets | with_reducible apply logCritical_keeps | with_reducible apply logGeneral_keeps
    | with_reducible apply each_keeps | with_reducible apply post_keeps | with_reducible apply platformEvent_keeps | split
    | (dsimp +zetaDelta only) | intro _

theorem triggerReset_keeps {s t : State} (h : Keeps s t) (trigger cause) : Keeps s (triggerReset trigger cause t) := by
  unfold triggerReset
  repeat' first
    | with_reducible assumption | extract_lets | with_reducible apply onTst_keeps | with_reducible apply onFlt_keeps | split
    | (dsimp +zetaDelta only)

theorem declareFault_keeps {s t : State} (h : Keeps s t) (r) : Keeps s (declareFault r t) := by
  unfold declareFault
  repeat' first
    | with_reducible assumption | extract_lets | with_reducible apply each_keeps | with_reducible apply originateAbort_keeps
    | with_reducible apply onFlt_keeps | with_reducible apply queueRecord_keeps | with_reducible apply onPower_keeps
    | with_reducible apply postRecord_keeps | with_reducible apply triggerReset_keeps | split | (dsimp +zetaDelta only) | intro _

theorem postRefusal_keeps {s t : State} (h : Keeps s t) (n reason dtype ringIndex handle d0 d1) :
    Keeps s (postRefusal n reason dtype ringIndex handle d0 d1 t) := by
  unfold postRefusal
  repeat' first
    | with_reducible assumption | with_reducible apply post_keeps

theorem postWithdrawal_keeps {s t : State} (h : Keeps s t) (n reason handle d0 d1) :
    Keeps s (postWithdrawal n reason handle d0 d1 t) := by
  unfold postWithdrawal
  repeat' first
    | with_reducible assumption | with_reducible apply postRefusal_keeps

theorem sendUp_keeps {s t : State} (h : Keeps s t) (msg) : Keeps s (sendUp msg t) := by
  unfold sendUp
  repeat' first
    | with_reducible assumption | with_reducible apply sendVc0_keeps | split

theorem requestReset_keeps {s t : State} (h : Keeps s t) (trigger) : Keeps s (requestReset trigger t) := by
  unfold requestReset
  repeat' first
    | with_reducible assumption | extract_lets | with_reducible apply each_keeps | with_reducible apply originateAbort_keeps
    | with_reducible apply triggerReset_keeps | with_reducible apply onFlt_keeps | split | intro _

theorem bar0Write_keeps {s t : State} (h : Keeps s t) (f : State → State) (hf : ∀ u, Keeps s u → Keeps s (f u)) :
    Keeps s (bar0Write f t) := by
  unfold bar0Write
  split
  · exact h
  · split
    · exact violate_keeps h _ _
    · exact hf _ h

theorem complete_keeps {s t : State} (h : Keeps s t) (n dtype notify ringIndex handle) :
    Keeps s (complete n dtype notify ringIndex handle t) := by
  unfold complete
  repeat' first
    | with_reducible assumption | with_reducible apply postCompletion_keeps | split

theorem bar0Read_keeps {s t : State} (h : Keeps s t) (f : State → State) (hf : ∀ u, Keeps s u → Keeps s (f u)) :
    Keeps s (bar0Read f t) := by
  unfold bar0Read
  split
  · exact emit_keeps h _
  · split
    · exact emit_keeps (violate_keeps h _ _) _
    · exact hf _ h

theorem writeHbm_keeps {s t : State} (h : Keeps s t) (pc line first bs) : Keeps s (writeHbm pc line first bs t) := by
  unfold writeHbm
  repeat' first
    | with_reducible assumption | extract_lets | with_reducible apply onHbm_keeps
    | (intro _ hh; with_reducible first | apply Mem.write_wf | apply Mem.clearRange_wf)

theorem setWc_keeps {s t : State} (h : Keeps s t) (k l) : Keeps s (setWc k l t) := by
  unfold setWc
  repeat' first
    | with_reducible assumption | extract_lets | with_reducible apply onHbm_keeps | (intro _ hh; exact hh)

theorem drainEntry_keeps {s t : State} (h : Keeps s t) (a0) : Keeps s (drainEntry a0 t) := by
  unfold drainEntry
  repeat' first
    | with_reducible assumption | extract_lets | with_reducible apply each_keeps | with_reducible apply writeHbm_keeps | split
    | (dsimp +zetaDelta only) | intro _
    | (intro _ hh; first | exact hh | exact Mem.write_wf _ _ _ hh | exact Mem.clearRange_wf _ _ _ hh)

theorem drainLine_keeps {s t : State} (h : Keeps s t) (pc line : Nat) : Keeps s (drainLine pc line t) := by
  unfold drainLine
  extract_lets
  split
  · exact h
  · exact setWc_keeps (each_keeps h _ _ fun _ e hu => drainEntry_keeps hu e) _ _

theorem engineWrite_keeps {s t u : State} (h : Keeps s t) (pc line : Nat) (mask : W64) (data : BitVec 512)
    (e : engineWrite pc line mask data t = some u) : Keeps s u := by
  unfold engineWrite at e
  extract_lets at e
  split at e
  · cases e
    exact setWc_keeps h _ _
  · split at e
    · cases e
    · cases e
      exact setWc_keeps h _ _

theorem engineStore_keeps {s t : State} (h : Keeps s t) (pc line first : Nat) (bs : List Byte) :
    Keeps s (engineStore pc line first bs t) := by
  unfold engineStore
  extract_lets
  split
  · exact engineWrite_keeps h _ _ _ _ ‹_›
  · rename_i e l _ _
    have hd : Keeps s (setWc (pc / 32) l (drainEntry e t)) := setWc_keeps (drainEntry_keeps h _) _ _
    generalize hw : engineWrite _ _ _ _ (setWc (pc / 32) l (drainEntry e t)) = o
    cases o with
    | none => exact h
    | some u => exact engineWrite_keeps hd _ _ _ _ hw
  · exact h

theorem writeRegion_keeps {s t : State} (h : Keeps s t) (a0) (a1) (a2) (a3) : Keeps s (writeRegion a0 a1 a2 a3 t) := by
  unfold writeRegion
  repeat' first
    | with_reducible assumption | extract_lets | with_reducible apply each_keeps | with_reducible apply engineStore_keeps
    | split | (dsimp +zetaDelta only) | intro _
    | (intro _ hh; first | exact hh | exact Mem.write_wf _ _ _ hh | exact Mem.clearRange_wf _ _ _ hh)

theorem writeWhole_keeps {s t : State} (h : Keeps s t) (pc line bs) : Keeps s (writeWhole pc line bs t) := by
  unfold writeWhole
  repeat' first
    | with_reducible assumption | extract_lets | with_reducible apply writeHbm_keeps | with_reducible apply drainLine_keeps

theorem setLining_keeps {s t : State} (h : Keeps s t) (new) : Keeps s (setLining new t) := by
  unfold setLining
  repeat' first
    | with_reducible assumption | extract_lets | with_reducible apply onLin_keeps | with_reducible apply post_keeps
    | with_reducible apply platformEvent_keeps | split | (dsimp +zetaDelta only)

theorem onBarrier_keeps {s t : State} (h : Keeps s t) (tag start f) : Keeps s (onBarrier tag start f t) := by
  unfold onBarrier
  repeat' first
    | with_reducible assumption | extract_lets | with_reducible apply onStu_keeps | split

theorem pushReady_keeps {s t : State} (h : Keeps s t) (tag start) : Keeps s (pushReady tag start t) := by
  unfold pushReady
  repeat' first
    | with_reducible assumption | extract_lets | with_reducible apply onBarrier_keeps | with_reducible apply sendUp_keeps | split

theorem dropChild_keeps {s t : State} (h : Keeps s t) (port) : Keeps s (dropChild port t) := by
  unfold dropChild
  repeat' first
    | with_reducible assumption | extract_lets | with_reducible apply each_keeps | with_reducible apply pushReady_keeps
    | with_reducible apply onBarrier_keeps | intro _

theorem discardStreams_keeps {s t : State} (h : Keeps s t) (m) : Keeps s (discardStreams m t) := by
  unfold discardStreams
  repeat' first
    | with_reducible assumption | extract_lets | with_reducible apply each_keeps | with_reducible apply discardStream_keeps
    | intro _

theorem discardPort_keeps {s t : State} (h : Keeps s t) (m) : Keeps s (discardPort m t) := by
  unfold discardPort
  repeat' first
    | with_reducible assumption | extract_lets | with_reducible apply dropChild_keeps | with_reducible apply discardStreams_keeps

theorem startTraining_keeps {s t : State} (h : Keeps s t) (a0) (a1) : Keeps s (startTraining a0 a1 t) := by
  unfold startTraining
  repeat' first
    | with_reducible assumption | extract_lets | with_reducible apply onPort_keeps | with_reducible apply onSea_keeps
    | with_reducible apply discardStreams_keeps | split | (dsimp +zetaDelta only) | intro _
    | (intro _ hh; first | exact hh | exact Mem.write_wf _ _ _ hh | exact Mem.clearRange_wf _ _ _ hh)

theorem portDown_keeps {s t : State} (h : Keeps s t) (m) : Keeps s (portDown m t) := by
  unfold portDown
  repeat' first
    | with_reducible assumption | extract_lets | with_reducible apply onSea_keeps | with_reducible apply onPort_keeps
    | with_reducible apply discardPort_keeps

theorem admitPacket_keeps {s t : State} (h : Keeps s t) (a0) (a1) (a2) : Keeps s (admitPacket a0 a1 a2 t) := by
  unfold admitPacket
  repeat' first
    | with_reducible assumption | extract_lets | with_reducible apply onColCtx_keeps | with_reducible apply onPort_keeps
    | with_reducible apply poison_keeps | split | (dsimp +zetaDelta only) | intro _
    | (intro _ hh; first | exact hh | exact Mem.write_wf _ _ _ hh | exact Mem.clearRange_wf _ _ _ hh)

theorem takeOffset_keeps {s t : State} (h : Keeps s t) (a0) (a1) (a2) : Keeps s (takeOffset a0 a1 a2 t) := by
  unfold takeOffset
  repeat' first
    | with_reducible assumption | extract_lets | with_reducible apply onColCtx_keeps | split | (dsimp +zetaDelta only)
    | intro _ | (intro _ hh; first | exact hh | exact Mem.write_wf _ _ _ hh | exact Mem.clearRange_wf _ _ _ hh)

theorem packetTake_keeps {s t : State} (h : Keeps s t) (a0) (a1) : Keeps s (packetTake a0 a1 t) := by
  unfold packetTake
  repeat' first
    | with_reducible assumption | extract_lets | with_reducible apply onCol_keeps | with_reducible apply admitPacket_keeps
    | with_reducible apply takeOffset_keeps | split | (dsimp +zetaDelta only) | intro _
    | (intro _ hh; first | exact hh | exact Mem.write_wf _ _ _ hh | exact Mem.clearRange_wf _ _ _ hh)

theorem execPacketTake_keeps {s t : State} (h : Keeps s t) (hem n) : OutKeeps s (execPacketTake hem n t) := by
  unfold execPacketTake
  repeat' first
    | with_reducible assumption | extract_lets | with_reducible apply outKeeps_next | with_reducible apply packetTake_keeps

theorem discardPacket_keeps {s t : State} (h : Keeps s t) (n kind fenced) : Keeps s (discardPacket n kind fenced t) := by
  unfold discardPacket
  repeat' first
    | with_reducible assumption | extract_lets | with_reducible apply violate_keeps | with_reducible apply poison_keeps | split

theorem fenceDrop_keeps {s t : State} (h : Keeps s t) (g n) : Keeps s (fenceDrop g n t) := by
  unfold fenceDrop
  repeat' first
    | with_reducible assumption | extract_lets | with_reducible apply violate_keeps | with_reducible apply onBand_keeps

theorem poisonedAt_keeps {s t : State} (h : Keeps s t) (a0) (a1) : Keeps s (poisonedAt a0 a1 t) := by
  unfold poisonedAt
  repeat' first
    | with_reducible assumption | extract_lets | with_reducible apply onPort_keeps | with_reducible apply poison_keeps | split
    | (dsimp +zetaDelta only) | intro _
    | (intro _ hh; first | exact hh | exact Mem.write_wf _ _ _ hh | exact Mem.clearRange_wf _ _ _ hh)

theorem deliverPacket_keeps {s t : State} (h : Keeps s t) (m vc : Nat) (header : CellData) (data : List CellData) :
    Keeps s (deliverPacket m vc header data t) := by
  unfold deliverPacket
  dsimp only
  repeat' first
    | with_reducible assumption
    | with_reducible apply ite_keeps
    | with_reducible apply violate_keeps
    | with_reducible apply discardPacket_keeps
    | with_reducible apply fenceDrop_keeps
    | with_reducible apply poisonedAt_keeps
    | with_reducible apply onColCtx_keeps
    | with_reducible apply onSea_keeps
    | with_reducible apply onPort_keeps
    | with_reducible apply onPrs_keeps
    | with_reducible apply onPresser_keeps
    | with_reducible apply onCores_keeps
    | with_reducible apply each_keeps
    | with_reducible exact fun _ _ hu => poison_keeps hu _
    | exact fun _ hk => hk

theorem packetReceive_keeps {s t : State} (h : Keeps s t) (m n vc) : Keeps s (packetReceive m n vc t) := by
  unfold packetReceive
  repeat' first
    | with_reducible assumption | extract_lets | with_reducible apply deliverPacket_keeps | with_reducible apply onPort_keeps
    | split

theorem execPacketReceive_keeps {s t : State} (h : Keeps s t) (port n vc) : OutKeeps s (execPacketReceive port n vc t) := by
  unfold execPacketReceive
  repeat' first
    | with_reducible assumption | extract_lets | with_reducible apply outKeeps_next | with_reducible apply packetReceive_keeps

theorem retrain_keeps {s t : State} (h : Keeps s t) (a0) (a1) : Keeps s (retrain a0 a1 t) := by
  unfold retrain
  repeat' first
    | with_reducible assumption | extract_lets | with_reducible apply onPort_keeps | with_reducible apply startTraining_keeps
    | split | (dsimp +zetaDelta only) | intro _
    | (intro _ hh; first | exact hh | exact Mem.write_wf _ _ _ hh | exact Mem.clearRange_wf _ _ _ hh)

theorem execFarLoopbackRequest_keeps {s t : State} (h : Keeps s t) (a0) (a1) : OutKeeps s (execFarLoopbackRequest a0 a1 t) := by
  unfold execFarLoopbackRequest
  repeat' first
    | with_reducible assumption | extract_lets | with_reducible apply outKeeps_next | with_reducible apply onPort_keeps
    | with_reducible apply onSea_keeps | with_reducible apply discardPort_keeps | with_reducible apply retrain_keeps | split
    | (dsimp +zetaDelta only) | intro _
    | (intro _ hh; first | exact hh | exact Mem.write_wf _ _ _ hh | exact Mem.clearRange_wf _ _ _ hh)

theorem deadlineExpiry_keeps {s t : State} (h : Keeps s t) (m n vc) : Keeps s (deadlineExpiry m n vc t) := by
  unfold deadlineExpiry
  repeat' first
    | with_reducible assumption | extract_lets | with_reducible apply onPort_keeps | with_reducible apply deliverPacket_keeps
    | with_reducible apply poison_keeps | split

theorem losePort_keeps {s t : State} (h : Keeps s t) (m loss lanes) : Keeps s (losePort m loss lanes t) := by
  unfold losePort
  repeat' first
    | with_reducible assumption | extract_lets | with_reducible apply discardPort_keeps | with_reducible apply onPort_keeps
    | with_reducible apply each_keeps | with_reducible apply originateAbort_keeps | with_reducible apply declareFault_keeps
    | with_reducible apply startTraining_keeps | split | (dsimp +zetaDelta only) | intro _

theorem execPortLost_keeps {s t : State} (h : Keeps s t) (port loss lanes) : OutKeeps s (execPortLost port loss lanes t) := by
  unfold execPortLost
  repeat' first
    | with_reducible assumption | extract_lets | with_reducible apply outKeeps_next | with_reducible apply losePort_keeps | split

theorem fenceBoundary_keeps {s t : State} (h : Keeps s t) (a0) (a1) : Keeps s (fenceBoundary a0 a1 t) := by
  unfold fenceBoundary
  repeat' first
    | with_reducible assumption | extract_lets | with_reducible apply onPort_keeps | with_reducible apply onSea_keeps
    | with_reducible apply discardPort_keeps | split | (dsimp +zetaDelta only) | intro _
    | (intro _ hh; first | exact hh | exact Mem.write_wf _ _ _ hh | exact Mem.clearRange_wf _ _ _ hh)

theorem loopBoundary_keeps {s t : State} (h : Keeps s t) (a0) (a1) : Keeps s (loopBoundary a0 a1 t) := by
  unfold loopBoundary
  repeat' first
    | with_reducible assumption | extract_lets | with_reducible apply drew_keeps | with_reducible apply emit_keeps
    | with_reducible apply onPort_keeps | with_reducible apply onSea_keeps | with_reducible apply discardPort_keeps
    | with_reducible apply retrain_keeps | split | (dsimp +zetaDelta only) | intro _
    | (intro _ hh; first | exact hh | exact Mem.write_wf _ _ _ hh | exact Mem.clearRange_wf _ _ _ hh)

theorem portBoundary_keeps {s t : State} (h : Keeps s t) (a0) : Keeps s (portBoundary a0 t) := by
  unfold portBoundary
  repeat' first
    | with_reducible assumption | extract_lets | with_reducible apply onPort_keeps | with_reducible apply discardPort_keeps
    | with_reducible apply fenceBoundary_keeps | with_reducible apply loopBoundary_keeps | with_reducible apply portDown_keeps
    | with_reducible apply retrain_keeps | split | (dsimp +zetaDelta only) | intro _
    | (intro _ hh; first | exact hh | exact Mem.write_wf _ _ _ hh | exact Mem.clearRange_wf _ _ _ hh)

theorem seaRtNext_keeps {s t : State} (h : Keeps s t) : Keeps s (seaRtNext t) := by
  unfold seaRtNext
  repeat' first
    | with_reducible assumption | with_reducible apply onSea_keeps | split

theorem writeSeaRt_keeps {s t : State} (h : Keeps s t) (v) : Keeps s (writeSeaRt v t) := by
  unfold writeSeaRt
  repeat' first
    | with_reducible assumption | extract_lets | with_reducible apply onSea_keeps | with_reducible apply seaRtNext_keeps
    | with_reducible apply violate_keeps | split | (dsimp +zetaDelta only)

theorem execSeaRtDataAccess_keeps {s t : State} (h : Keeps s t) (write) : OutKeeps s (execSeaRtDataAccess write t) := by
  unfold execSeaRtDataAccess
  repeat' first
    | with_reducible assumption | extract_lets | with_reducible apply outKeeps_next | with_reducible apply bar0Write_keeps
    | with_reducible apply writeSeaRt_keeps | with_reducible apply bar0Read_keeps | with_reducible apply seaRtNext_keeps
    | with_reducible apply emit_keeps | split | intro _

theorem writePortCfg_keeps {s t : State} (h : Keeps s t) (m v) : Keeps s (writePortCfg m v t) := by
  unfold writePortCfg
  repeat' first
    | with_reducible assumption | extract_lets | with_reducible apply onPort_keeps | with_reducible apply onTst_keeps
    | with_reducible apply violate_keeps | split | (dsimp +zetaDelta only)

theorem execLoopbackSelect_keeps {s t : State} (h : Keeps s t) (port value) : OutKeeps s (execLoopbackSelect port value t) := by
  unfold execLoopbackSelect
  repeat' first
    | with_reducible assumption | extract_lets | with_reducible apply outKeeps_next | with_reducible apply bar0Write_keeps
    | with_reducible apply writePortCfg_keeps | intro _

theorem execPortEn_keeps {s t : State} (h : Keeps s t) (port value) : OutKeeps s (execPortEn port value t) := by
  unfold execPortEn
  repeat' first
    | with_reducible assumption | extract_lets | with_reducible apply outKeeps_next | with_reducible apply bar0Write_keeps
    | with_reducible apply writePortCfg_keeps | intro _

theorem execPortFailed_keeps {s t : State} (h : Keeps s t) (port) : OutKeeps s (execPortFailed port t) := by
  unfold execPortFailed
  repeat' first
    | with_reducible assumption | extract_lets | with_reducible apply outKeeps_next | with_reducible apply onPort_keeps
    | with_reducible apply onSea_keeps | with_reducible apply setLining_keeps | with_reducible apply declareFault_keeps | split
    | (dsimp +zetaDelta only)

theorem holdMiswired_keeps {s t : State} (h : Keeps s t) (a0) (a1) : Keeps s (holdMiswired a0 a1 t) := by
  unfold holdMiswired
  repeat' first
    | with_reducible assumption | extract_lets | with_reducible apply each_keeps | with_reducible apply onPort_keeps
    | with_reducible apply onSea_keeps | with_reducible apply discardPort_keeps | split | (dsimp +zetaDelta only) | intro _
    | (intro _ hh; first | exact hh | exact Mem.write_wf _ _ _ hh | exact Mem.clearRange_wf _ _ _ hh)

theorem finishTraining_keeps {s t : State} (h : Keeps s t) (a0) (a1) : Keeps s (finishTraining a0 a1 t) := by
  unfold finishTraining
  repeat' first
    | with_reducible assumption | extract_lets | with_reducible apply onPort_keeps | with_reducible apply onSea_keeps
    | with_reducible apply holdMiswired_keeps | with_reducible apply startTraining_keeps | split | (dsimp +zetaDelta only)
    | intro _ | (intro _ hh; first | exact hh | exact Mem.write_wf _ _ _ hh | exact Mem.clearRange_wf _ _ _ hh)

theorem execFullEq_keeps {s t : State} (h : Keeps s t) (port value) : OutKeeps s (execFullEq port value t) := by
  unfold execFullEq
  repeat' first
    | with_reducible assumption | extract_lets | with_reducible apply outKeeps_next | with_reducible apply bar0Write_keeps
    | with_reducible apply writePortCfg_keeps | intro _

theorem execSerWindow_keeps {s t : State} (h : Keeps s t) (port symbolErrors symbols) :
    OutKeeps s (execSerWindow port symbolErrors symbols t) := by
  unfold execSerWindow
  repeat' first
    | with_reducible assumption | extract_lets | with_reducible apply outKeeps_next | with_reducible apply logGeneral_keeps
    | with_reducible apply onPort_keeps | split

theorem frameSend_keeps {s t : State} (h : Keeps s t) (m) : Keeps s (frameSend m t) := by
  unfold frameSend
  repeat' first
    | with_reducible assumption | extract_lets | with_reducible apply onPort_keeps | with_reducible apply each_keeps
    | with_reducible apply returnCredits_keeps | with_reducible apply emit_keeps | split | intro _

theorem execFrameSend_keeps {s t : State} (h : Keeps s t) (port) : OutKeeps s (execFrameSend port t) := by
  unfold execFrameSend
  repeat' first
    | with_reducible assumption | extract_lets | with_reducible apply outKeeps_next | with_reducible apply frameSend_keeps

theorem execRetune_keeps {s t : State} (h : Keeps s t) (port value) : OutKeeps s (execRetune port value t) := by
  unfold execRetune
  repeat' first
    | with_reducible assumption | extract_lets | with_reducible apply outKeeps_next | with_reducible apply bar0Write_keeps
    | with_reducible apply writePortCfg_keeps | intro _

theorem leftBy_keeps {s t : State} {o : Out} (h : Keeps s t) (ho : OutKeeps s o) : Keeps s (leftBy t o) := by
  cases o with
  | next u => exact ho.next u rfl
  | fault _ => exact h
  | refused _ => exact h

theorem execDeadlineExpiry_keeps {s t : State} (h : Keeps s t) (port n vc) : OutKeeps s (execDeadlineExpiry port n vc t) := by
  unfold execDeadlineExpiry
  repeat' first
    | with_reducible assumption | extract_lets | with_reducible apply outKeeps_next | with_reducible apply deadlineExpiry_keeps

theorem execTrainingDone_keeps {s t : State} (h : Keeps s t) (port o) : OutKeeps s (execTrainingDone port o t) := by
  unfold execTrainingDone
  repeat' first
    | with_reducible assumption | extract_lets | with_reducible apply outKeeps_next | with_reducible apply finishTraining_keeps
    | with_reducible apply startTraining_keeps | split

theorem execFullEqRetry_keeps {s t : State} (h : Keeps s t) (port) : OutKeeps s (execFullEqRetry port t) := by
  unfold execFullEqRetry
  repeat' first
    | with_reducible assumption | extract_lets | with_reducible apply outKeeps_next | with_reducible apply startTraining_keeps
    | split

theorem removeEntry_keeps {s t : State} (h : Keeps s t) (e) : Keeps s (removeEntry e t) := by
  unfold removeEntry
  repeat' first
    | with_reducible assumption | with_reducible apply onWork_keeps

theorem clearBand_keeps {s t : State} (h : Keeps s t) (g : Nat) : Keeps s (clearBand g t) := by
  unfold clearBand
  dsimp only
  exact onStu_keeps (onWork_keeps (onCores_keeps h _ fun k hk => filter_scratch hk) _) _

theorem withdraw_keeps {s t : State} (h : Keeps s t) (reason d0 d1 e) : Keeps s (withdraw reason d0 d1 e t) := by
  unfold withdraw
  repeat' first
    | with_reducible assumption | extract_lets | with_reducible apply postWithdrawal_keeps
    | with_reducible apply removeEntry_keeps

theorem mboxWrite_keeps {s t : State} (h : Keeps s t) (bs) : Keeps s (mboxWrite bs t) := by
  unfold mboxWrite
  repeat' first
    | with_reducible assumption | extract_lets | with_reducible apply setHostMem_keeps | exact fun hw => Mem.write_wf _ _ _ hw

theorem addKey_keeps {s t : State} (h : Keeps s t) (k : BitVec 256) : Keeps s (addKey k t).2 := by
  unfold addKey
  extract_lets
  split
  · exact h
  · split
    · exact h
    · exact logCritical_keeps (onThm_keeps h _) _ _

theorem removeKey_keeps {s t : State} (h : Keeps s t) (a0) : Keeps s (removeKey a0 t) := by
  unfold removeKey
  repeat' first
    | with_reducible assumption | extract_lets | with_reducible apply onHbm_keeps | with_reducible apply onThm_keeps
    | with_reducible apply logCritical_keeps | split | (dsimp +zetaDelta only) | intro _
    | (intro _ hh; first | exact hh | exact Mem.write_wf _ _ _ hh | exact Mem.clearRange_wf _ _ _ hh)

theorem addFuse_keeps {s t : State} (h : Keeps s t) (m : Nat) (e : W64) : Keeps s (addFuse m e t).2 := by
  unfold addFuse
  extract_lets
  split
  · exact h
  · exact logGeneral_keeps (onThm_keeps h _) _ _ _

theorem clearFuses_keeps {s t : State} (h : Keeps s t) (m) : Keeps s (clearFuses m t) := by
  unfold clearFuses
  repeat' first
    | with_reducible assumption | extract_lets | with_reducible apply onThm_keeps | with_reducible apply logGeneral_keeps

theorem mboxRun_keeps {s t u : State} (h : Keeps s t) (cmd : Nat) (arg : BitVec 32) (r : Nat)
    (e : mboxRun cmd arg t = some (r, u)) : Keeps s u := by
  have h1 {p : Nat × State} {c : Prop} [Decidable c] {q : Nat × State} (hp : Keeps s p.2) (hq : Keeps s q.2)
      (e : (if c then some p else some q) = some (r, u)) : Keeps s u := by
    split at e <;> cases e
    · exact hp
    · exact hq
  have h2 {c : Prop} [Decidable c] {q : Option (Nat × State)} {n : Nat} (hq : q = some (r, u) → Keeps s u)
      (e : (if c then some (n, t) else q) = some (r, u)) : Keeps s u := by
    split at e
    · cases e
      exact h
    · exact hq e
  have h3 {p : Nat × State} (hp : Keeps s p.2) (e : some p = some (r, u)) : Keeps s u := by
    cases e
    exact hp
  unfold mboxRun at e
  dsimp only at e
  split at e
  · exact h1 h (mboxWrite_keeps h _) e
  · cases e
    exact onThm_keeps h _
  · exact h1 h (mboxWrite_keeps h _) e
  · exact h2 (h2 (h3 (addKey_keeps h _))) e
  · refine h2 (h2 fun e => ?_) e
    split at e
    · exact h3 h e
    · split at e
      · cases e
      · exact h3 (removeKey_keeps h _) e
  · exact h1 h (mboxWrite_keeps h _) e
  · exact h2 (h2 (h2 (h3 (addFuse_keeps h _ _)))) e
  · exact h2 (h1 h (mboxWrite_keeps h _)) e
  · exact h2 (h2 (h3 (clearFuses_keeps h _))) e
  · exact h1 h (mboxWrite_keeps h _) e
  · exact h3 h e

theorem mboxDone_keeps {s t : State} (h : Keeps s t) (result) : Keeps s (mboxDone result t) := by
  unfold mboxDone
  repeat' first
    | with_reducible assumption | extract_lets | with_reducible apply emit_keeps | with_reducible apply onThm_keeps

theorem writeMbox_keeps {s t : State} (h : Keeps s t) (v : W64) : Keeps s (writeMbox v t) := by
  unfold writeMbox
  extract_lets cmd arg busy s1 s2
  have h1 : Keeps s s1 := ite_keeps (violate_keeps h _ _) h
  split
  · exact onThm_keeps h1 _
  · split
    · exact h1
    · split
      · exact onThm_keeps h1 _
      · have h2 : Keeps s s2 := onThm_keeps h1 _
        split
        · exact mboxDone_keeps (mboxRun_keeps h2 _ _ _ ‹_›) _
        · exact onThm_keeps h2 _

theorem mboxCommand_keeps {s t : State} (h : Keeps s t) (cmd v) : Keeps s (mboxCommand cmd v t) := by
  unfold mboxCommand
  repeat' first
    | with_reducible assumption | with_reducible apply writeMbox_keeps

theorem abandonTrial_keeps {s t : State} (h : Keeps s t) : Keeps s (abandonTrial t) := by
  unfold abandonTrial
  repeat' first
    | with_reducible assumption | extract_lets | with_reducible apply onThm_keeps | with_reducible apply logCritical_keeps

theorem confirmImage_keeps {s t : State} (h : Keeps s t) : Keeps s (confirmImage t) := by
  unfold confirmImage
  repeat' first
    | with_reducible assumption | extract_lets | with_reducible apply onThm_keeps | with_reducible apply logCritical_keeps | split

theorem applyFuses_keeps {s t : State} (h : Keeps s t) : Keeps s (applyFuses t) := by
  unfold applyFuses
  repeat' first
    | with_reducible assumption | extract_lets | with_reducible apply onThm_keeps | with_reducible apply onBolt_keeps
    | with_reducible apply onHbm_keeps | (intro _ hh; exact hh)

theorem revertReset_keeps {s t : State} (h : Keeps s t) : Keeps s (revertReset t) := by
  unfold revertReset
  repeat' first
    | with_reducible assumption | extract_lets | with_reducible apply onFlt_keeps | split | (dsimp +zetaDelta only) | intro _
    | (intro _ hh; first | exact hh | exact Mem.write_wf _ _ _ hh | exact Mem.clearRange_wf _ _ _ hh)

theorem boot_keeps {s t : State} (h : Keeps s t) (a0) : Keeps s (boot a0 t) := by
  unfold boot
  repeat' first
    | with_reducible assumption | extract_lets | with_reducible apply onThm_keeps | with_reducible apply logCritical_keeps
    | with_reducible apply revertReset_keeps | split | (dsimp +zetaDelta only) | intro _
    | (intro _ hh; first | exact hh | exact Mem.write_wf _ _ _ hh | exact Mem.clearRange_wf _ _ _ hh)

theorem takeReading_keeps {s t : State} (h : Keeps s t) (i v) : Keeps s (takeReading i v t) := by
  unfold takeReading
  repeat' first
    | with_reducible assumption | extract_lets | with_reducible apply onThm_keeps

theorem freeRegion_keeps {s t : State} (h : Keeps s t) (i) : Keeps s (freeRegion i t) := by
  unfold freeRegion
  repeat' first
    | with_reducible assumption | extract_lets | with_reducible apply onBolt_keeps | (intro _ hh; exact hh)

theorem writeBoltLine_keeps {s t : State} (h : Keeps s t) (panel slab line bs) :
    Keeps s (writeBoltLine panel slab line bs t) := by
  unfold writeBoltLine
  repeat' first
    | with_reducible assumption | extract_lets | with_reducible apply onBolt_keeps
    | (intro _ hh; with_reducible first | apply Mem.write_wf | apply Mem.clearRange_wf)

theorem onRegion_keeps {s t : State} (h : Keeps s t) (i f) : Keeps s (onRegion i f t) := by
  unfold onRegion
  repeat' first
    | with_reducible assumption | extract_lets | with_reducible apply onBolt_keeps | (intro _ hh; exact hh)

theorem writeLogical_keeps {s t : State} (h : Keeps s t) (a0 k bs) : Keeps s (writeLogical a0 k bs t) := by
  unfold writeLogical
  repeat' first
    | with_reducible assumption | extract_lets | with_reducible apply each_keeps | with_reducible apply writeBoltLine_keeps
    | intro _

theorem spendWrites_keeps {s t : State} (h : Keeps s t) (a0) (a1) : Keeps s (spendWrites a0 a1 t) := by
  unfold spendWrites
  repeat' first
    | with_reducible assumption | extract_lets | with_reducible apply foldl_keeps | with_reducible apply onBolt_keeps | split
    | (dsimp +zetaDelta only) | intro _
    | (intro _ hh; first | exact hh | exact Mem.write_wf _ _ _ hh | exact Mem.clearRange_wf _ _ _ hh)

theorem loadBytes_keeps {s t : State} (h : Keeps s t) (a0) (a1) (a2) : Keeps s (loadBytes a0 a1 a2 t) := by
  unfold loadBytes
  repeat' first
    | with_reducible assumption | extract_lets | with_reducible apply each_keeps | with_reducible apply onRegion_keeps
    | with_reducible apply spendWrites_keeps | with_reducible apply writeLogical_keeps | split | (dsimp +zetaDelta only)
    | intro _ | (intro _ hh; first | exact hh | exact Mem.write_wf _ _ _ hh | exact Mem.clearRange_wf _ _ _ hh)

theorem boltRepair_keeps {s t : State} (h : Keeps s t) (panel slab line bitline) :
    Keeps s (boltRepair panel slab line bitline t) := by
  unfold boltRepair
  repeat' first
    | with_reducible assumption | extract_lets | with_reducible apply onBolt_keeps | with_reducible apply addFuse_keeps
    | (intro _ hh; exact hh)

theorem boltUncorrectable_keeps {s t : State} (h : Keeps s t) (a0) (a1) (a2) (a3) (a4) : Keeps s (boltUncorrectable a0 a1 a2 a3 a4 t) := by
  unfold boltUncorrectable
  repeat' first
    | with_reducible assumption | extract_lets | with_reducible apply onBolt_keeps | with_reducible apply boltRepair_keeps
    | split | (dsimp +zetaDelta only) | intro _
    | (intro _ hh; first | exact hh | exact Mem.write_wf _ _ _ hh | exact Mem.clearRange_wf _ _ _ hh)

theorem boltCorrected_keeps {s t : State} (h : Keeps s t) (panel slab line) : Keeps s (boltCorrected panel slab line t) := by
  unfold boltCorrected
  repeat' first
    | with_reducible assumption | extract_lets | with_reducible apply onBolt_keeps | (intro _ hh; exact hh)

theorem boltEcc_keeps {s t : State} (h : Keeps s t) (e panel slab line) : Keeps s (boltEcc e panel slab line t) := by
  unfold boltEcc
  repeat' first
    | with_reducible assumption | with_reducible apply boltCorrected_keeps | with_reducible apply boltUncorrectable_keeps | split

theorem boltReadFinds_keeps {s t : State} (h : Keeps s t) (a0) (a1) (a2) : Keeps s (boltReadFinds a0 a1 a2 t) := by
  unfold boltReadFinds
  repeat' first
    | with_reducible assumption | extract_lets | with_reducible apply each_keeps | with_reducible apply boltEcc_keeps | split
    | (dsimp +zetaDelta only) | intro _
    | (intro _ hh; first | exact hh | exact Mem.write_wf _ _ _ hh | exact Mem.clearRange_wf _ _ _ hh)

theorem writeBacking_keeps {s t : State} (h : Keeps s t) (a0) : Keeps s (writeBacking a0 t) := by
  unfold writeBacking
  repeat' first
    | with_reducible assumption | extract_lets | with_reducible apply boltReadFinds_keeps
    | with_reducible apply writeRegion_keeps | split | (dsimp +zetaDelta only) | intro _
    | (intro _ hh; first | exact hh | exact Mem.write_wf _ _ _ hh | exact Mem.clearRange_wf _ _ _ hh)

theorem unverify_keeps {s t : State} (h : Keeps s t) (a0) (a1) (a2) (a3) : Keeps s (unverify a0 a1 a2 a3 t) := by
  unfold unverify
  repeat' first
    | with_reducible assumption | extract_lets | with_reducible apply onHbm_keeps | split | (dsimp +zetaDelta only) | intro _
    | (intro _ hh; first | exact hh | exact Mem.write_wf _ _ _ hh | exact Mem.clearRange_wf _ _ _ hh)

theorem boltBoundary_keeps {s t : State} (h : Keeps s t) : Keeps s (boltBoundary t) := by
  unfold boltBoundary
  repeat' first
    | with_reducible assumption | extract_lets | with_reducible apply each_keeps | with_reducible apply onBolt_keeps
    | with_reducible apply declareFault_keeps | (intro _ hh; exact hh) | intro _

theorem evictSlot_keeps {s t : State} (h : Keeps s t) (k) : Keeps s (evictSlot k t) := by
  unfold evictSlot
  repeat' first
    | with_reducible assumption | extract_lets | with_reducible apply each_keeps | with_reducible apply freeRegion_keeps
    | with_reducible apply writeBacking_keeps | with_reducible apply onBolt_keeps | (intro _ hh; exact hh) | split | intro _

theorem startBandReset_keeps {s t : State} (h : Keeps s t) (g st) : Keeps s (startBandReset g st t) := by
  unfold startBandReset
  repeat' first
    | with_reducible assumption | extract_lets | with_reducible apply onBand_keeps | with_reducible apply clearBand_keeps

theorem heldOff_keeps {s t : State} (h : Keeps s t) (unitKind a c test) : Keeps s (heldOff unitKind a c test t) := by
  unfold heldOff
  repeat' first
    | with_reducible assumption | with_reducible apply declareFault_keeps

theorem fenceNow_keeps {s t : State} (h : Keeps s t) : Keeps s (fenceNow t) := by
  unfold fenceNow
  repeat' first
    | with_reducible assumption | extract_lets | with_reducible apply each_keeps | with_reducible apply onLin_keeps
    | with_reducible apply onPort_keeps | with_reducible apply fenceBoundary_keeps | with_reducible apply setLining_keeps
    | split | (dsimp +zetaDelta only) | intro _
    | (intro _ hh; first | exact hh | exact Mem.write_wf _ _ _ hh | exact Mem.clearRange_wf _ _ _ hh)

theorem finishReset_keeps {s t : State} (h : Keeps s t) (a0) : Keeps s (finishReset a0 t) := by
  unfold finishReset
  repeat' first
    | with_reducible assumption | extract_lets | with_reducible apply each_keeps | with_reducible apply onBand_keeps
    | with_reducible apply onFlt_keeps | with_reducible apply onPort_keeps | with_reducible apply onPower_keeps
    | with_reducible apply onSrv_keeps | with_reducible apply onStu_keeps | with_reducible apply onThm_keeps
    | with_reducible apply onTst_keeps | with_reducible apply addFuse_keeps | with_reducible apply confirmImage_keeps
    | with_reducible apply fenceNow_keeps | with_reducible apply heldOff_keeps | with_reducible apply logCritical_keeps
    | with_reducible apply platformEvent_keeps | split | (dsimp +zetaDelta only) | intro _
    | (intro _ hh; first | exact hh | exact Mem.write_wf _ _ _ hh | exact Mem.clearRange_wf _ _ _ hh)

theorem powerOnClear_keeps {s t : State} (h : Keeps s t) : Keeps s (powerOnClear t) := by
  refine ⟨h.queue, h.straps, h.out, fun w => ?_⟩
  obtain ⟨a, b, _⟩ := h.mem w
  refine ⟨a, b, rfl, rfl, fun x hx => ?_, ?_⟩
  · cases hx
  · show ∀ p ∈ (Vector.replicate 8 ({} : Presser)).toList, Mem.wf p.ring = true
    decide

theorem disownTorn_keeps {s t : State} (h : Keeps s t) (g) : Keeps s (disownTorn g t) := by
  unfold disownTorn
  repeat' first
    | with_reducible assumption | with_reducible apply onBand_keeps | split

theorem bandBecomesOn_keeps {s t : State} (h : Keeps s t) (g) : Keeps s (bandBecomesOn g t) := by
  unfold bandBecomesOn
  repeat' first
    | with_reducible assumption | extract_lets | with_reducible apply onBand_keeps | with_reducible apply disownTorn_keeps

theorem applyRows_keeps {s t : State} (h : Keeps s t) (a0) : Keeps s (applyRows a0 t) := by
  unfold applyRows
  repeat' first
    | with_reducible assumption | extract_lets | with_reducible apply onHbm_keeps | with_reducible apply onThm_keeps | split
    | (dsimp +zetaDelta only) | intro _
    | (intro _ hh; first | exact hh | exact Mem.write_wf _ _ _ hh | exact Mem.clearRange_wf _ _ _ hh)

theorem clearStack_keeps {s t : State} (h : Keeps s t) (a0) : Keeps s (clearStack a0 t) := by
  unfold clearStack
  repeat' first
    | with_reducible assumption | extract_lets | with_reducible apply onHbm_keeps | with_reducible apply onPresser_keeps
    | with_reducible apply applyRows_keeps | split | (dsimp +zetaDelta only) | exact fun _ hk => hk
    | exact fun _ hk => Mem.write_wf _ _ _ hk | exact fun _ hk => Mem.clearRange_wf _ _ _ hk
    | exact fun _ hk => map_ring hk fun _ => rfl | exact fun _ hk => map_scratch hk fun _ => rfl
    | exact fun _ hk => filter_scratch hk | exact fun _ _ => rfl | (intro _ hk; simpa using hk) | intro _

theorem unitEffect_keeps {s t : State} (h : Keeps s t) (a0) (a1) : Keeps s (unitEffect a0 a1 t) := by
  unfold unitEffect
  repeat' first
    | with_reducible assumption | extract_lets | with_reducible apply each_keeps | with_reducible apply clearStack_keeps
    | with_reducible apply discardPort_keeps | with_reducible apply dropChild_keeps | with_reducible apply retrain_keeps
    | with_reducible apply startBandReset_keeps | split | (dsimp +zetaDelta only) | intro _
    | (intro _ hh; first | exact hh | exact Mem.write_wf _ _ _ hh | exact Mem.clearRange_wf _ _ _ hh)

theorem startUnitReset_keeps {s t : State} (h : Keeps s t) (kind i) : Keeps s (startUnitReset kind i t) := by
  unfold startUnitReset
  repeat' first
    | with_reducible assumption | extract_lets | with_reducible apply onFlt_keeps | with_reducible apply unitEffect_keeps | split

theorem writeFltReset_keeps {s t : State} (h : Keeps s t) (v) : Keeps s (writeFltReset v t) := by
  unfold writeFltReset
  repeat' first
    | with_reducible assumption | extract_lets | with_reducible apply violate_keeps | with_reducible apply requestReset_keeps
    | with_reducible apply startUnitReset_keeps | split | (dsimp +zetaDelta only)

theorem holdUnit_keeps {s t : State} (h : Keeps s t) (kind i) : Keeps s (holdUnit kind i t) := by
  unfold holdUnit
  repeat' first
    | with_reducible assumption | extract_lets | with_reducible apply each_keeps | with_reducible apply onBand_keeps
    | with_reducible apply onFlt_keeps | with_reducible apply portDown_keeps | split | intro _

theorem endUnitReset_keeps {s t : State} (h : Keeps s t) (ok) : Keeps s (endUnitReset ok t) := by
  unfold endUnitReset
  repeat' first
    | with_reducible assumption | extract_lets | with_reducible apply onFlt_keeps | with_reducible apply each_keeps
    | with_reducible apply bandBecomesOn_keeps | with_reducible apply declareFault_keeps | with_reducible apply holdUnit_keeps
    | split | intro _

theorem writeFltBand_keeps {s t : State} (h : Keeps s t) (g v) : Keeps s (writeFltBand g v t) := by
  unfold writeFltBand
  repeat' first
    | with_reducible assumption | extract_lets | with_reducible apply violate_keeps | with_reducible apply onBand_keeps
    | with_reducible apply startBandReset_keeps | split | (dsimp +zetaDelta only)

theorem withdrawFenced_keeps {s t : State} (h : Keeps s t) (a0) (a2) : Keeps s (withdrawFenced a0 t a2) := by
  unfold withdrawFenced
  repeat' first
    | with_reducible assumption | extract_lets | with_reducible apply withdraw_keeps | split | (dsimp +zetaDelta only)
    | intro _

theorem bandBoundary_keeps {s t : State} (h : Keeps s t) (a0) : Keeps s (bandBoundary a0 t) := by
  unfold bandBoundary
  repeat' first
    | with_reducible assumption | extract_lets | with_reducible apply each_keeps | with_reducible apply onBand_keeps
    | with_reducible apply onStu_keeps | with_reducible apply onWork_keeps | with_reducible apply startBandReset_keeps
    | with_reducible apply withdrawFenced_keeps | split | (dsimp +zetaDelta only) | intro _

theorem deviceClear_keeps {s t : State} (h : Keeps s t) : Keeps s (deviceClear t) := by
  unfold deviceClear
  dsimp only
  refine onTst_keeps (onThm_keeps (onFlt_keeps (onHif_keeps (onWork_keeps (onSrv_keeps (onCol_keeps (onSea_keeps (onLin_keeps
    (onPrs_keeps (onHbm_keeps (onBolt_keeps (onCores_keeps (onStu_keeps h _) _ ?_) _ ?_) _ ?_) _ ?_) _) _) _) _) _) _) _) _) _
  · intro _ _ x hx
    cases hx
  · exact fun _ _ => rfl
  · exact fun _ _ => rfl
  · intro _ _
    decide

theorem undispatch_keeps {s t : State} (h : Keeps s t) (e : ArmEntry) : Keeps s (undispatch e t) := by
  unfold undispatch
  dsimp only
  split
  · exact h
  · exact onCores_keeps (onStu_keeps h _) _ fun k hk => map_scratch hk fun x => by split <;> rfl

theorem withdrawNow_keeps {s t : State} (h : Keeps s t) (reason d0 d1 e) : Keeps s (withdrawNow reason d0 d1 e t) := by
  unfold withdrawNow
  repeat' first
    | with_reducible assumption | extract_lets | with_reducible apply withdraw_keeps | with_reducible apply undispatch_keeps

theorem rebuildFrom_keeps {s t : State} (h : Keeps s t) (l kept : List ArmEntry) : Keeps s (rebuildFrom l kept t) := by
  induction l generalizing kept t with
  | nil => exact h
  | cons e l ih =>
    unfold rebuildFrom
    split
    · exact ih h _
    · split
      · exact ih (withdrawNow_keeps h _ _ _ _) _
      · exact ih h _

theorem rebuildLedger_keeps {s t : State} (h : Keeps s t) : Keeps s (rebuildLedger t) := by
  unfold rebuildLedger
  repeat' first
    | with_reducible assumption | with_reducible apply rebuildFrom_keeps

theorem ledgerIfDirty_keeps {s t : State} (h : Keeps s t) : Keeps s (ledgerIfDirty t) := by
  unfold ledgerIfDirty
  repeat' first
    | with_reducible assumption | extract_lets | with_reducible apply rebuildLedger_keeps | with_reducible apply onPrs_keeps
    | with_reducible apply onWork_keeps | with_reducible apply onSea_keeps | (intro _ hh; exact hh) | split

theorem budgetCheck_keeps {s t : State} (h : Keeps s t) : Keeps s (budgetCheck t) := by
  unfold budgetCheck
  repeat' first
    | with_reducible assumption | extract_lets | with_reducible apply each_keeps | with_reducible apply withdrawNow_keeps | split
    | intro _

theorem rebuildDue_keeps {s t : State} (h : Keeps s t) : Keeps s (rebuildDue t) := by
  unfold rebuildDue
  repeat' first
    | with_reducible assumption | extract_lets | with_reducible apply rebuildLedger_keeps | split | (dsimp +zetaDelta only)
    | intro _ | (intro _ hh; first | exact hh | exact Mem.write_wf _ _ _ hh | exact Mem.clearRange_wf _ _ _ hh)

theorem execPortLedgerRebuild_keeps {s t : State} (h : Keeps s t) : OutKeeps s (execPortLedgerRebuild t) := by
  unfold execPortLedgerRebuild
  repeat' first
    | with_reducible assumption | extract_lets | with_reducible apply outKeeps_next | with_reducible apply rebuildDue_keeps
    | split | (dsimp +zetaDelta only) | intro _
    | (intro _ hh; first | exact hh | exact Mem.write_wf _ _ _ hh | exact Mem.clearRange_wf _ _ _ hh)

theorem placeEvicting_keeps {s t : State} (h : Keeps s t) (bands n twin) (fuel : Nat) :
    Keeps s (placeEvicting bands n twin fuel t).2 := by
  induction fuel generalizing t with
  | zero => exact h
  | succ fuel ih =>
    unfold placeEvicting
    split
    · exact h
    · split
      · exact ih (evictSlot_keeps h _)
      · exact h

theorem combineBlock_keeps {s t : State} (h : Keeps s t) (a0) (a1) (a2) (a3) (a4) : Keeps s (combineBlock a0 a1 a2 a3 a4 t) := by
  unfold combineBlock
  repeat' first
    | with_reducible assumption | extract_lets | with_reducible apply onCore_keeps | with_reducible apply poison_keeps | split
    | (dsimp +zetaDelta only) | exact fun _ hk => hk | intro _

theorem writeBackOldest_keeps {s t : State} (h : Keeps s t) (a0) : Keeps s (writeBackOldest a0 t) := by
  unfold writeBackOldest
  repeat' first
    | with_reducible assumption | extract_lets | with_reducible apply onBolt_keeps | with_reducible apply writeBoltLine_keeps
    | split | (dsimp +zetaDelta only) | intro _
    | (intro _ hh; first | exact hh | exact Mem.write_wf _ _ _ hh | exact Mem.clearRange_wf _ _ _ hh)

theorem flushWriteBacks_keeps {s t : State} (h : Keeps s t) : Keeps s (flushWriteBacks t) := by
  unfold flushWriteBacks
  repeat' first
    | with_reducible assumption | extract_lets | with_reducible apply each_keeps | with_reducible apply writeBackOldest_keeps
    | split | (dsimp +zetaDelta only) | intro _
    | (intro _ hh; first | exact hh | exact Mem.write_wf _ _ _ hh | exact Mem.clearRange_wf _ _ _ hh)

theorem unverifyLines_keeps {s t : State} (h : Keeps s t) (a0) (a1) (a2) (a3) : Keeps s (unverifyLines a0 a1 a2 a3 t) := by
  unfold unverifyLines
  repeat' first
    | with_reducible assumption | extract_lets | with_reducible apply onHbm_keeps | split | (dsimp +zetaDelta only) | intro _
    | (intro _ hh; first | exact hh | exact Mem.write_wf _ _ _ hh | exact Mem.clearRange_wf _ _ _ hh)

theorem markVerified_keeps {s t : State} (h : Keeps s t) (a0) (a1) : Keeps s (markVerified a0 a1 t) := by
  unfold markVerified
  repeat' first
    | with_reducible assumption | extract_lets | with_reducible apply onHbm_keeps | with_reducible apply unverifyLines_keeps
    | split | (dsimp +zetaDelta only) | intro _
    | (intro _ hh; first | exact hh | exact Mem.write_wf _ _ _ hh | exact Mem.clearRange_wf _ _ _ hh)

theorem writeBeats_keeps {s t : State} (h : Keeps s t) : Keeps s (writeBeats t) := by
  unfold writeBeats
  repeat' first
    | with_reducible assumption | extract_lets | with_reducible apply foldl_keeps | with_reducible apply onFlt_keeps | split
    | (dsimp +zetaDelta only) | intro _
    | (intro _ hh; first | exact hh | exact Mem.write_wf _ _ _ hh | exact Mem.clearRange_wf _ _ _ hh)

theorem unverifyBytes_keeps {s t : State} (h : Keeps s t) (a0) (a1) (a2) (a3) : Keeps s (unverifyBytes a0 a1 a2 a3 t) := by
  unfold unverifyBytes
  repeat' first
    | with_reducible assumption | extract_lets | with_reducible apply unverifyLines_keeps | split | (dsimp +zetaDelta only)
    | intro _ | (intro _ hh; first | exact hh | exact Mem.write_wf _ _ _ hh | exact Mem.clearRange_wf _ _ _ hh)

theorem restoreView_keeps {s t : State} (h : Keeps s t) (a0) (a1) (a2) (a3) : Keeps s (restoreView a0 a1 a2 a3 t) := by
  unfold restoreView
  repeat' first
    | with_reducible assumption | extract_lets | with_reducible apply unverifyBytes_keeps
    | with_reducible apply writeRegion_keeps | split | (dsimp +zetaDelta only) | intro _
    | (intro _ hh; first | exact hh | exact Mem.write_wf _ _ _ hh | exact Mem.clearRange_wf _ _ _ hh)

theorem runLoaded_keeps {s t : State} (h : Keeps s t) (a0) (a1) (a2) (a3) : Keeps s (runLoaded a0 a1 a2 a3 t) := by
  unfold runLoaded
  repeat' first
    | with_reducible assumption | extract_lets | with_reducible apply onRegion_keeps | split | (dsimp +zetaDelta only)
    | intro _ | (intro _ hh; first | exact hh | exact Mem.write_wf _ _ _ hh | exact Mem.clearRange_wf _ _ _ hh)

theorem passAbort_keeps {s t : State} (h : Keeps s t) (a0) (a1) : Keeps s (passAbort a0 a1 t) := by
  unfold passAbort
  repeat' first
    | with_reducible assumption | extract_lets | with_reducible apply each_keeps | with_reducible apply onCol_keeps
    | with_reducible apply rememberKey_keeps | with_reducible apply sendVc0_keeps | split | (dsimp +zetaDelta only) | intro _
    | (intro _ hh; first | exact hh | exact Mem.write_wf _ _ _ hh | exact Mem.clearRange_wf _ _ _ hh)

theorem openLoad_keeps {s t : State} (h : Keeps s t) (a0) : Keeps s (openLoad a0 t) := by
  unfold openLoad
  repeat' first
    | with_reducible assumption | extract_lets | with_reducible apply onRegion_keeps | split | (dsimp +zetaDelta only)
    | intro _ | (intro _ hh; first | exact hh | exact Mem.write_wf _ _ _ hh | exact Mem.clearRange_wf _ _ _ hh)

theorem trainLinks_keeps {s t : State} (h : Keeps s t) : Keeps s (trainLinks t) := by
  unfold trainLinks
  repeat' first
    | with_reducible assumption | extract_lets | with_reducible apply onPower_keeps | split | (dsimp +zetaDelta only) | intro _
    | (intro _ hh; first | exact hh | exact Mem.write_wf _ _ _ hh | exact Mem.clearRange_wf _ _ _ hh)

theorem storeLines_keeps {s t : State} (h : Keeps s t) (a0) (a1) (a2) (a3) : Keeps s (storeLines a0 a1 a2 a3 t) := by
  unfold storeLines
  repeat' first
    | with_reducible assumption | extract_lets | with_reducible apply each_keeps | with_reducible apply writeWhole_keeps
    | split | (dsimp +zetaDelta only) | intro _
    | (intro _ hh; first | exact hh | exact Mem.write_wf _ _ _ hh | exact Mem.clearRange_wf _ _ _ hh)

theorem hbmCorrected_keeps {s t : State} (h : Keeps s t) (a0) (a1) (a2) : Keeps s (hbmCorrected a0 a1 a2 t) := by
  unfold hbmCorrected
  repeat' first
    | with_reducible assumption | extract_lets | with_reducible apply onHbm_keeps | split | (dsimp +zetaDelta only) | intro _
    | (intro _ hh; first | exact hh | exact Mem.write_wf _ _ _ hh | exact Mem.clearRange_wf _ _ _ hh)

theorem tellPartner_keeps {s t : State} (h : Keeps s t) : Keeps s (tellPartner t) := by
  unfold tellPartner
  repeat' first
    | with_reducible assumption | extract_lets | with_reducible apply drew_keeps | with_reducible apply onPort_keeps | split
    | (dsimp +zetaDelta only) | intro _
    | (intro _ hh; first | exact hh | exact Mem.write_wf _ _ _ hh | exact Mem.clearRange_wf _ _ _ hh)

theorem sendIdentity_keeps {s t : State} (h : Keeps s t) : Keeps s (sendIdentity t) := by
  unfold sendIdentity
  repeat' first
    | with_reducible assumption | extract_lets | with_reducible apply onLin_keeps | with_reducible apply tellPartner_keeps
    | split | (dsimp +zetaDelta only) | intro _
    | (intro _ hh; first | exact hh | exact Mem.write_wf _ _ _ hh | exact Mem.clearRange_wf _ _ _ hh)

theorem failReslices_keeps {s t : State} (h : Keeps s t) : Keeps s (failReslices t) := by
  unfold failReslices
  repeat' first
    | with_reducible assumption | extract_lets | with_reducible apply each_keeps | with_reducible apply poison_keeps | split
    | (dsimp +zetaDelta only) | intro _
    | (intro _ hh; first | exact hh | exact Mem.write_wf _ _ _ hh | exact Mem.clearRange_wf _ _ _ hh)

theorem spendSlots_keeps {s t : State} (h : Keeps s t) (a0) (a1) : Keeps s (spendSlots a0 a1 t) := by
  unfold spendSlots
  repeat' first
    | with_reducible assumption | extract_lets | with_reducible apply onPresser_keeps | split | (dsimp +zetaDelta only)
    | intro _ | (intro _ hh; first | exact hh | exact Mem.write_wf _ _ _ hh | exact Mem.clearRange_wf _ _ _ hh)

theorem gatherCell_keeps {s t : State} (h : Keeps s t) (a0) (a1) (a2) (a3) : Keeps s (gatherCell a0 a1 a2 a3 t) := by
  unfold gatherCell
  repeat' first
    | with_reducible assumption | extract_lets | with_reducible apply onCol_keeps | split | (dsimp +zetaDelta only) | intro _
    | (intro _ hh; first | exact hh | exact Mem.write_wf _ _ _ hh | exact Mem.clearRange_wf _ _ _ hh)

theorem applyTrims_keeps {s t : State} (h : Keeps s t) (a0) (a1) : Keeps s (applyTrims a0 a1 t) := by
  unfold applyTrims
  repeat' first
    | with_reducible assumption | extract_lets | with_reducible apply each_keeps | with_reducible apply foldl_keeps
    | with_reducible apply onSlot_keeps | with_reducible apply onSrvCtx_keeps | split | (dsimp +zetaDelta only) | intro _
    | (intro _ hh; first | exact hh | exact Mem.write_wf _ _ _ hh | exact Mem.clearRange_wf _ _ _ hh)

theorem coverSegments_keeps {s t : State} (h : Keeps s t) : Keeps s (coverSegments t) := by
  unfold coverSegments
  repeat' first
    | with_reducible assumption | extract_lets | with_reducible apply onBolt_keeps | split | (dsimp +zetaDelta only) | intro _
    | (intro _ hh; first | exact hh | exact Mem.write_wf _ _ _ hh | exact Mem.clearRange_wf _ _ _ hh)

theorem stopLoaders_keeps {s t : State} (h : Keeps s t) (a0) : Keeps s (stopLoaders a0 t) := by
  unfold stopLoaders
  repeat' first
    | with_reducible assumption | extract_lets | with_reducible apply onBolt_keeps | split | (dsimp +zetaDelta only) | intro _
    | (intro _ hh; first | exact hh | exact Mem.write_wf _ _ _ hh | exact Mem.clearRange_wf _ _ _ hh)

theorem queueMarker_keeps {s t : State} (h : Keeps s t) (a0) (a1) : Keeps s (queueMarker a0 a1 t) := by
  unfold queueMarker
  repeat' first
    | with_reducible assumption | extract_lets | with_reducible apply each_keeps | with_reducible apply queueVc0_keeps | split
    | (dsimp +zetaDelta only) | intro _
    | (intro _ hh; first | exact hh | exact Mem.write_wf _ _ _ hh | exact Mem.clearRange_wf _ _ _ hh)

theorem passSlots_keeps {s t : State} (h : Keeps s t) : Keeps s (passSlots t) := by
  unfold passSlots
  repeat' first
    | with_reducible assumption | extract_lets | with_reducible apply onPrs_keeps | split | (dsimp +zetaDelta only)
    | exact fun _ hk => hk | (intro _ hk; simpa using hk) | intro _

theorem streamRegion_keeps {s t : State} (h : Keeps s t) (a0) (a1) (a3) : Keeps s (streamRegion a0 a1 t a3) := by
  unfold streamRegion
  repeat' first
    | with_reducible assumption | extract_lets | with_reducible apply loadBytes_keeps
    | with_reducible apply unverifyBytes_keeps | with_reducible apply writeRegion_keeps | split | (dsimp +zetaDelta only)
    | intro _

theorem finishRegion_keeps {s t : State} (h : Keeps s t) (a0) (a1) (a3) : Keeps s (finishRegion a0 a1 t a3) := by
  unfold finishRegion
  repeat' first
    | with_reducible assumption | extract_lets | with_reducible apply onHbm_keeps | with_reducible apply markVerified_keeps
    | with_reducible apply onRegion_keeps | split | (dsimp +zetaDelta only) | intro _

theorem enterSlot_keeps {s t : State} (h : Keeps s t) (a0) (a2) : Keeps s (enterSlot a0 t a2) := by
  unfold enterSlot
  repeat' first
    | with_reducible assumption | extract_lets | with_reducible apply onSlot_keeps | with_reducible apply postCompletion_keeps
    | split | (dsimp +zetaDelta only) | intro _

theorem checkRsv_keeps {s t : State} (h : Keeps s t) (rsv v) : Keeps s (checkRsv rsv v t) := by
  unfold checkRsv
  repeat' first
    | with_reducible assumption | with_reducible apply violate_keeps | split

end Sys2Proof.Machine
end

