-- ==== Sys2Proof/Laws/KeepsHost.lean ====
section
/-! SUPPORT. Each operation and each meaning keeps what no command touches (Keeps, Safety.lean): the HBM tier, the stitch unit, the ledger, loading, the rings and the copies. -/

namespace Sys2Proof.Machine

theorem announce_keeps {s t : State} (h : Keeps s t) (a) : Keeps s (announce a t) := by
  unfold announce
  repeat' first
    | with_reducible assumption | with_reducible apply onStu_keeps | split

theorem execPeriodAnn_keeps {s t : State} (h : Keeps s t) (a0 units apply) : OutKeeps s (execPeriodAnn a0 units apply t) := by
  unfold execPeriodAnn
  repeat' first
    | with_reducible assumption | extract_lets | with_reducible apply outKeeps_next | with_reducible apply sendDown_keeps
    | with_reducible apply announce_keeps | split

theorem execStretchAnn_keeps {s t : State} (h : Keeps s t) (a0 k apply) : OutKeeps s (execStretchAnn a0 k apply t) := by
  unfold execStretchAnn
  repeat' first
    | with_reducible assumption | extract_lets | with_reducible apply outKeeps_next | with_reducible apply sendDown_keeps
    | with_reducible apply announce_keeps | split

theorem updateSubtree_keeps {s t : State} (h : Keeps s t) : Keeps s (updateSubtree t) := by
  unfold updateSubtree
  repeat' first
    | with_reducible assumption | extract_lets | with_reducible apply sendUp_keeps | with_reducible apply onStu_keeps | split

theorem execStretchReq_keeps {s t : State} (h : Keeps s t) (port factor reasons) :
    OutKeeps s (execStretchReq port factor reasons t) := by
  unfold execStretchReq
  repeat' first
    | with_reducible assumption | extract_lets | with_reducible apply outKeeps_next | with_reducible apply updateSubtree_keeps
    | with_reducible apply onStu_keeps | split

theorem setRole_keeps {s t : State} (h : Keeps s t) (r) : Keeps s (setRole r t) := by
  unfold setRole
  repeat' first
    | with_reducible assumption | with_reducible apply onStu_keeps

theorem takeMarker_keeps {s t : State} (h : Keeps s t) (m arrival) : Keeps s (takeMarker m arrival t) := by
  unfold takeMarker
  repeat' first
    | with_reducible assumption | extract_lets | with_reducible apply onStu_keeps | with_reducible apply drew_keeps
    | with_reducible apply declareFault_keeps | split

theorem forwardMarker_keeps {s t : State} (h : Keeps s t) (a0) (a1) : Keeps s (forwardMarker a0 a1 t) := by
  unfold forwardMarker
  repeat' first
    | with_reducible assumption | extract_lets | with_reducible apply queueMarker_keeps | split | (dsimp +zetaDelta only)
    | intro _

theorem execMarker_keeps {s t : State} (h : Keeps s t) (a0) (a1) (a2) : OutKeeps s (execMarker a0 a1 a2 t) := by
  unfold execMarker
  repeat' first
    | with_reducible assumption | extract_lets | with_reducible apply outKeeps_next | with_reducible apply onStu_keeps
    | with_reducible apply declareFault_keeps | with_reducible apply forwardMarker_keeps | with_reducible apply setRole_keeps
    | with_reducible apply takeMarker_keeps | split | (dsimp +zetaDelta only) | intro _

theorem markEntries_keeps {s t : State} (h : Keeps s t) (tag start go) : Keeps s (markEntries tag start go t) := by
  unfold markEntries
  repeat' first
    | with_reducible assumption | with_reducible apply onWork_keeps

theorem dropBarrier_keeps {s t : State} (h : Keeps s t) (tag start) : Keeps s (dropBarrier tag start t) := by
  unfold dropBarrier
  repeat' first
    | with_reducible assumption | with_reducible apply onStu_keeps

theorem barrierOutcome_keeps {s t : State} (h : Keeps s t) (tag start go) : Keeps s (barrierOutcome tag start go t) := by
  unfold barrierOutcome
  repeat' first
    | with_reducible assumption | extract_lets | with_reducible apply sendDown_keeps | with_reducible apply dropBarrier_keeps
    | with_reducible apply markEntries_keeps

theorem execMiss_keeps {s t : State} (h : Keeps s t) (a0 tag start) : OutKeeps s (execMiss a0 tag start t) := by
  unfold execMiss
  repeat' first
    | with_reducible assumption | extract_lets | with_reducible apply outKeeps_next | with_reducible apply barrierOutcome_keeps
    | split

theorem execReady_keeps {s t : State} (h : Keeps s t) (port m) : OutKeeps s (execReady port m t) := by
  unfold execReady
  repeat' first
    | with_reducible assumption | extract_lets | with_reducible apply outKeeps_next | with_reducible apply pushReady_keeps
    | with_reducible apply onBarrier_keeps | split

theorem execGo_keeps {s t : State} (h : Keeps s t) (a0 tag start) : OutKeeps s (execGo a0 tag start t) := by
  unfold execGo
  repeat' first
    | with_reducible assumption | extract_lets | with_reducible apply outKeeps_next | with_reducible apply barrierOutcome_keeps
    | split

theorem hbmRepair_keeps {s t : State} (h : Keeps s t) (pc line) : Keeps s (hbmRepair pc line t) := by
  unfold hbmRepair
  repeat' first
    | with_reducible assumption | extract_lets | with_reducible apply onHbm_keeps | with_reducible apply addFuse_keeps
    | (intro _ hh; exact hh)

theorem hbmUncorrectable_keeps {s t : State} (h : Keeps s t) (a0) (a1) (a2) (a3) (a4) : Keeps s (hbmUncorrectable a0 a1 a2 a3 a4 t) := by
  unfold hbmUncorrectable
  repeat' first
    | with_reducible assumption | extract_lets | with_reducible apply onHbm_keeps | with_reducible apply hbmRepair_keeps
    | split | (dsimp +zetaDelta only) | intro _

theorem sectorEcc_keeps {s t : State} (h : Keeps s t) (a0) (a1) (a2) (a3) : Keeps s (sectorEcc a0 a1 a2 a3 t) := by
  unfold sectorEcc
  repeat' first
    | with_reducible assumption | extract_lets | with_reducible apply hbmCorrected_keeps
    | with_reducible apply hbmUncorrectable_keeps | split | (dsimp +zetaDelta only) | intro _
    | (intro _ hh; first | exact hh | exact Mem.write_wf _ _ _ hh | exact Mem.clearRange_wf _ _ _ hh)

theorem hbmEcc_keeps {s t : State} (h : Keeps s t) (a0) (a1) (a2) : Keeps s (hbmEcc a0 a1 a2 t) := by
  unfold hbmEcc
  repeat' first
    | with_reducible assumption | extract_lets | with_reducible apply onHbm_keeps | with_reducible apply sectorEcc_keeps
    | split | (dsimp +zetaDelta only) | intro _

theorem readFinds_keeps {s t : State} (h : Keeps s t) (a0) (a1) (a2) (a3) : Keeps s (readFinds a0 a1 a2 a3 t) := by
  unfold readFinds
  repeat' first
    | with_reducible assumption | extract_lets | with_reducible apply each_keeps | with_reducible apply hbmEcc_keeps | split
    | (dsimp +zetaDelta only) | intro _
    | (intro _ hh; first | exact hh | exact Mem.write_wf _ _ _ hh | exact Mem.clearRange_wf _ _ _ hh)

theorem fillFromBacking_keeps {s t : State} (h : Keeps s t) (a0) (a1) : Keeps s (fillFromBacking a0 a1 t) := by
  unfold fillFromBacking
  repeat' first
    | with_reducible assumption | extract_lets | with_reducible apply loadBytes_keeps | with_reducible apply readFinds_keeps
    | split | (dsimp +zetaDelta only) | intro _
    | (intro _ hh; first | exact hh | exact Mem.write_wf _ _ _ hh | exact Mem.clearRange_wf _ _ _ hh)

theorem hbmBoundary_keeps {s t : State} (h : Keeps s t) : Keeps s (hbmBoundary t) := by
  unfold hbmBoundary
  repeat' first
    | with_reducible assumption | extract_lets | with_reducible apply onHbm_keeps | with_reducible apply onWork_keeps
    | with_reducible apply each_keeps | with_reducible apply declareFault_keeps | (intro _ hh; exact hh) | split
    | (dsimp +zetaDelta only) | intro _

theorem execBar0AccessError_keeps {s t : State} (h : Keeps s t) (a0 a1 write) :
    OutKeeps s (execBar0AccessError a0 a1 write t) := by
  unfold execBar0AccessError
  repeat' first
    | with_reducible assumption | extract_lets | with_reducible apply outKeeps_next | with_reducible apply violate_keeps
    | with_reducible apply emit_keeps | split | (dsimp +zetaDelta only)

theorem scrubHbm_keeps {s t : State} (h : Keeps s t) (a0) (a1) : Keeps s (scrubHbm a0 a1 t) := by
  unfold scrubHbm
  repeat' first
    | with_reducible assumption | extract_lets | with_reducible apply onHbm_keeps | with_reducible apply hbmCorrected_keeps
    | with_reducible apply hbmRepair_keeps | with_reducible apply hbmUncorrectable_keeps
    | with_reducible apply writeWhole_keeps | split | (dsimp +zetaDelta only) | intro _

theorem bar2Part_keeps {s t : State} (h : Keeps s t) (n r region base k skip part) :
    Keeps s (bar2Part n r region base k skip part t) := by
  unfold bar2Part
  repeat' first
    | with_reducible assumption | extract_lets | with_reducible apply onHbm_keeps | (intro _ hh; exact hh) | split

theorem writeHbtTemp_keeps {s t : State} (h : Keeps s t) (a0) (a1) : Keeps s (writeHbtTemp a0 a1 t) := by
  unfold writeHbtTemp
  repeat' first
    | with_reducible assumption | extract_lets | with_reducible apply onHbm_keeps | with_reducible apply checkRsv_keeps | split
    | (dsimp +zetaDelta only) | intro _

theorem hbmResult_keeps {s t : State} (h : Keeps s t) (r) : Keeps s (hbmResult r t) := by
  unfold hbmResult
  repeat' first
    | with_reducible assumption | extract_lets | with_reducible apply onHbm_keeps | (intro _ hh; exact hh)

theorem hbmDefine_keeps {s t : State} (h : Keeps s t) : Keeps s (hbmDefine t) := by
  unfold hbmDefine
  repeat' first
    | with_reducible assumption | extract_lets | with_reducible apply hbmResult_keeps | with_reducible apply onHbm_keeps
    | (intro _ hh; exact hh) | split

theorem hbmRelease_keeps {s t : State} (h : Keeps s t) : Keeps s (hbmRelease t) := by
  unfold hbmRelease
  repeat' first
    | with_reducible assumption | extract_lets | with_reducible apply hbmResult_keeps | with_reducible apply onHbm_keeps
    | (intro _ hh; exact hh) | split

theorem writeHbtCmd_keeps {s t : State} (h : Keeps s t) (v) : Keeps s (writeHbtCmd v t) := by
  unfold writeHbtCmd
  repeat' first
    | with_reducible assumption | extract_lets | with_reducible apply violate_keeps | with_reducible apply hbmDefine_keeps
    | with_reducible apply hbmRelease_keeps | split | (dsimp +zetaDelta only)

theorem execRefreshWindow_keeps {s t : State} (h : Keeps s t) : OutKeeps s (execRefreshWindow t) := by
  unfold execRefreshWindow
  repeat' first
    | with_reducible assumption | extract_lets | with_reducible apply outKeeps_next | with_reducible apply onHbm_keeps
    | (intro _ hh; exact hh)

theorem hbmReason_keeps {s t : State} (h : Keeps s t) (c) : Keeps s (hbmReason c t) := by
  unfold hbmReason
  repeat' first
    | with_reducible assumption | extract_lets | with_reducible apply platformEvent_keeps | with_reducible apply logGeneral_keeps
    | with_reducible apply onStu_keeps | split

theorem stackThermal_keeps {s t : State} (h : Keeps s t) (k syndrome) : Keeps s (stackThermal k syndrome t) := by
  unfold stackThermal
  repeat' first
    | with_reducible assumption | extract_lets | with_reducible apply onHbm_keeps | with_reducible apply heldOff_keeps
    | with_reducible apply onFlt_keeps | with_reducible apply declareFault_keeps | (intro _ hh; exact hh) | split

theorem execHbmTempRead_keeps {s t : State} (h : Keeps s t) (stack o) : OutKeeps s (execHbmTempRead stack o t) := by
  unfold execHbmTempRead
  repeat' first
    | with_reducible assumption | extract_lets | with_reducible apply outKeeps_next | with_reducible apply onHbm_keeps
    | with_reducible apply takeReading_keeps | with_reducible apply hbmReason_keeps | with_reducible apply stackThermal_keeps
    | (intro _ hh; exact hh) | split | (dsimp +zetaDelta only)

theorem execHbmScrubLap_keeps {s t : State} (h : Keeps s t) (stack length found) :
    OutKeeps s (execHbmScrubLap stack length found t) := by
  unfold execHbmScrubLap
  repeat' first
    | with_reducible assumption | extract_lets | with_reducible apply outKeeps_next | with_reducible apply onHbm_keeps
    | with_reducible apply each_keeps | with_reducible apply scrubHbm_keeps | with_reducible apply post_keeps
    | (intro _ hh; exact hh) | split | (dsimp +zetaDelta only) | intro _

theorem execHbtRelease_keeps {s t : State} (h : Keeps s t) (value) : OutKeeps s (execHbtRelease value t) := by
  unfold execHbtRelease
  repeat' first
    | with_reducible assumption | extract_lets | with_reducible apply outKeeps_next | with_reducible apply bar0Write_keeps
    | with_reducible apply writeHbtCmd_keeps | intro _

theorem writeHbtCtrl_keeps {s t : State} (h : Keeps s t) (v) : Keeps s (writeHbtCtrl v t) := by
  unfold writeHbtCtrl
  repeat' first
    | with_reducible assumption | extract_lets | with_reducible apply violate_keeps | with_reducible apply onHbm_keeps
    | (intro _ hh; exact hh) | split | (dsimp +zetaDelta only)

theorem bar2Parts_keeps {s : State} (n : Nat) (r : HbmRegion) (i base : Nat) (k : Bar2Kind) (l : List (Nat × Nat × Nat))
    (a : State × Nat) (h : Keeps s a.1) :
    Keeps s (l.foldl (fun (acc : State × Nat) p => (bar2Part n r i base k acc.2 p acc.1, acc.2 + p.2.2)) a).1 := by
  induction l generalizing a with
  | nil => exact h
  | cons x l ih => exact ih _ (bar2Part_keeps h _ _ _ _ _ _ _)

theorem execBar2Access_keeps {s t : State} (h : Keeps s t) (offset : Nat) (k : Bar2Kind) : OutKeeps s (execBar2Access offset k t) := by
  unfold execBar2Access
  cases k <;> dsimp only
  all_goals repeat' first
    | with_reducible assumption
    | with_reducible apply outKeeps_next
    | with_reducible apply emit_keeps
    | with_reducible apply violate_keeps
    | split
  · exact bar2Parts_keeps _ _ _ _ _ _ _ h
  · exact bar2Parts_keeps _ _ _ _ _ _ _ h

theorem drainOldest_keeps {s t : State} (h : Keeps s t) (a0) (a1) : Keeps s (drainOldest a0 a1 t) := by
  unfold drainOldest
  repeat' first
    | with_reducible assumption | extract_lets | with_reducible apply drainEntry_keeps | with_reducible apply hbmEcc_keeps
    | with_reducible apply setWc_keeps | split | (dsimp +zetaDelta only) | intro _
    | (intro _ hh; first | exact hh | exact Mem.write_wf _ _ _ hh | exact Mem.clearRange_wf _ _ _ hh)

theorem execBar2Timeout_keeps {s t : State} (h : Keeps s t) : OutKeeps s (execBar2Timeout t) := by
  unfold execBar2Timeout
  repeat' first
    | with_reducible assumption | extract_lets | with_reducible apply outKeeps_next | with_reducible apply onHbm_keeps
    | with_reducible apply emit_keeps | with_reducible apply onHif_keeps | (intro _ hh; exact hh) | split

theorem execHbtDefine_keeps {s t : State} (h : Keeps s t) (value) : OutKeeps s (execHbtDefine value t) := by
  unfold execHbtDefine
  repeat' first
    | with_reducible assumption | extract_lets | with_reducible apply outKeeps_next | with_reducible apply bar0Write_keeps
    | with_reducible apply writeHbtCmd_keeps | intro _

theorem execScrubFloorWrite_keeps {s t : State} (h : Keeps s t) (value) : OutKeeps s (execScrubFloorWrite value t) := by
  unfold execScrubFloorWrite
  repeat' first
    | with_reducible assumption | extract_lets | with_reducible apply outKeeps_next | with_reducible apply bar0Write_keeps
    | with_reducible apply writeHbtCtrl_keeps | intro _

theorem zeroRegion_keeps {s t : State} (h : Keeps s t) (r : HbmRegion) : Keeps s (zeroRegion r t) := by
  unfold zeroRegion
  dsimp only
  exact onHbm_keeps h _ fun _ hb => putAll_wf _ _ (fun _ _ hm => Mem.clearRange_wf _ _ _ hm) _ hb

theorem execHbmTempMaxClr_keeps {s t : State} (h : Keeps s t) (stack value) : OutKeeps s (execHbmTempMaxClr stack value t) := by
  unfold execHbmTempMaxClr
  repeat' first
    | with_reducible assumption | extract_lets | with_reducible apply outKeeps_next | with_reducible apply bar0Write_keeps
    | with_reducible apply writeHbtTemp_keeps | intro _

theorem announcePeriod_keeps {s t : State} (h : Keeps s t) (units) : Keeps s (announcePeriod units t) := by
  unfold announcePeriod
  repeat' first
    | with_reducible assumption | extract_lets | with_reducible apply announce_keeps | with_reducible apply onStu_keeps
    | with_reducible apply sendDown_keeps | split

theorem leaderAnnounce_keeps {s t : State} (h : Keeps s t) : Keeps s (leaderAnnounce t) := by
  unfold leaderAnnounce
  repeat' first
    | with_reducible assumption | extract_lets | with_reducible apply announce_keeps | with_reducible apply onStu_keeps
    | with_reducible apply sendDown_keeps | with_reducible apply announcePeriod_keeps | split

theorem relength_keeps {s t : State} (h : Keeps s t) : Keeps s (relength t) := by
  unfold relength
  repeat' first
    | with_reducible assumption | with_reducible apply onStu_keeps

theorem stretchEvent_keeps {s t : State} (h : Keeps s t) (oldK oldU) : Keeps s (stretchEvent oldK oldU t) := by
  unfold stretchEvent
  repeat' first
    | with_reducible assumption | extract_lets | with_reducible apply each_keeps | with_reducible apply post_keeps | intro _

theorem panelClocks_keeps {s t : State} (h : Keeps s t) : Keeps s (panelClocks t) := by
  unfold panelClocks
  repeat' first
    | with_reducible assumption | extract_lets | with_reducible apply onThm_keeps

theorem updateOwn_keeps {s t : State} (h : Keeps s t) : Keeps s (updateOwn t) := by
  unfold updateOwn
  repeat' first
    | with_reducible assumption | extract_lets | with_reducible apply onStu_keeps | with_reducible apply updateSubtree_keeps

theorem announceAfter_keeps {s t : State} (h : Keeps s t) : Keeps s (announceAfter t) := by
  unfold announceAfter
  repeat' first
    | with_reducible assumption | with_reducible apply leaderAnnounce_keeps | split

theorem execAlignmentFault_keeps {s t : State} (h : Keeps s t) : OutKeeps s (execAlignmentFault t) := by
  unfold execAlignmentFault
  repeat' first
    | with_reducible assumption | extract_lets | with_reducible apply outKeeps_next | with_reducible apply declareFault_keeps
    | with_reducible apply drew_keeps | split

theorem applyPeriod_keeps {s t : State} (h : Keeps s t) (units) : Keeps s (applyPeriod units t) := by
  unfold applyPeriod
  repeat' first
    | with_reducible assumption | extract_lets | with_reducible apply relength_keeps | with_reducible apply onStu_keeps
    | with_reducible apply rebuildLedger_keeps | with_reducible apply budgetCheck_keeps | with_reducible apply stretchEvent_keeps
    | split

theorem sendMarker_keeps {s t : State} (h : Keeps s t) : Keeps s (sendMarker t) := by
  unfold sendMarker
  repeat' first
    | with_reducible assumption | extract_lets | with_reducible apply queueMarker_keeps | split | (dsimp +zetaDelta only)
    | intro _

theorem execBarrierCheck_keeps {s t : State} (h : Keeps s t) : OutKeeps s (execBarrierCheck t) := by
  unfold execBarrierCheck
  repeat' first
    | with_reducible assumption | extract_lets | with_reducible apply outKeeps_next | with_reducible apply each_keeps
    | with_reducible apply barrierOutcome_keeps | split | intro _

theorem applyStretch_keeps {s t : State} (h : Keeps s t) (k) : Keeps s (applyStretch k t) := by
  unfold applyStretch
  repeat' first
    | with_reducible assumption | extract_lets | with_reducible apply panelClocks_keeps | with_reducible apply relength_keeps
    | with_reducible apply onStu_keeps | with_reducible apply stretchEvent_keeps | split

theorem writeStretchReq_keeps {s t : State} (h : Keeps s t) (v) : Keeps s (writeStretchReq v t) := by
  unfold writeStretchReq
  repeat' first
    | with_reducible assumption | extract_lets | with_reducible apply onStu_keeps | with_reducible apply violate_keeps | split

theorem execMasterTakeover_keeps {s t : State} (h : Keeps s t) : OutKeeps s (execMasterTakeover t) := by
  unfold execMasterTakeover
  repeat' first
    | with_reducible assumption | extract_lets | with_reducible apply outKeeps_next | with_reducible apply onStu_keeps
    | with_reducible apply setRole_keeps | with_reducible apply sendMarker_keeps | with_reducible apply declareFault_keeps | split

theorem enableChange_keeps {s t : State} (h : Keeps s t) (was now) : Keeps s (enableChange was now t) := by
  unfold enableChange
  repeat' first
    | with_reducible assumption | with_reducible apply onStu_keeps | split

theorem writeStuCtrl_keeps {s t : State} (h : Keeps s t) (v) : Keeps s (writeStuCtrl v t) := by
  unfold writeStuCtrl
  repeat' first
    | with_reducible assumption | extract_lets | with_reducible apply violate_keeps | with_reducible apply onStu_keeps
    | with_reducible apply enableChange_keeps | split

theorem execSupplyWithdraw_keeps {s t : State} (h : Keeps s t) : OutKeeps s (execSupplyWithdraw t) := by
  unfold execSupplyWithdraw
  repeat' first
    | with_reducible assumption | extract_lets | with_reducible apply outKeeps_next | with_reducible apply platformEvent_keeps
    | with_reducible apply logGeneral_keeps | with_reducible apply onStu_keeps | split

theorem expireBarriers_keeps {s t : State} (h : Keeps s t) : Keeps s (expireBarriers t) := by
  unfold expireBarriers
  repeat' first
    | with_reducible assumption | extract_lets | with_reducible apply each_keeps | with_reducible apply withdrawNow_keeps
    | with_reducible apply onStu_keeps | intro _

theorem execHoldover_keeps {s t : State} (h : Keeps s t) : OutKeeps s (execHoldover t) := by
  unfold execHoldover
  repeat' first
    | with_reducible assumption | extract_lets | with_reducible apply outKeeps_next | with_reducible apply onStu_keeps | split

theorem execThermalWithdraw_keeps {s t : State} (h : Keeps s t) (p) : OutKeeps s (execThermalWithdraw p t) := by
  unfold execThermalWithdraw
  repeat' first
    | with_reducible assumption | extract_lets | with_reducible apply outKeeps_next | with_reducible apply onThm_keeps
    | with_reducible apply platformEvent_keeps | with_reducible apply logGeneral_keeps | split

theorem execStuEnable_keeps {s t : State} (h : Keeps s t) (value) : OutKeeps s (execStuEnable value t) := by
  unfold execStuEnable
  repeat' first
    | with_reducible assumption | extract_lets | with_reducible apply outKeeps_next | with_reducible apply bar0Write_keeps
    | with_reducible apply writeStuCtrl_keeps | intro _

theorem execSysFactor_keeps {s t : State} (h : Keeps s t) (value) : OutKeeps s (execSysFactor value t) := by
  unfold execSysFactor
  repeat' first
    | with_reducible assumption | extract_lets | with_reducible apply outKeeps_next | with_reducible apply bar0Write_keeps
    | with_reducible apply writeStretchReq_keeps | intro _

theorem execBarrierTimeout_keeps {s t : State} (h : Keeps s t) : OutKeeps s (execBarrierTimeout t) := by
  unfold execBarrierTimeout
  repeat' first
    | with_reducible assumption | extract_lets | with_reducible apply outKeeps_next | with_reducible apply expireBarriers_keeps
    | split

theorem execSupplyReason_keeps {s t : State} (h : Keeps s t) (o) : OutKeeps s (execSupplyReason o t) := by
  unfold execSupplyReason
  repeat' first
    | with_reducible assumption | extract_lets | with_reducible apply outKeeps_next | with_reducible apply onStu_keeps
    | with_reducible apply platformEvent_keeps | with_reducible apply logGeneral_keeps | split

theorem acceptPeriod_keeps {s t : State} (h : Keeps s t) (a0) : Keeps s (acceptPeriod a0 t) := by
  unfold acceptPeriod
  repeat' first
    | with_reducible assumption | extract_lets | with_reducible apply onStu_keeps | with_reducible apply announcePeriod_keeps
    | split

theorem writeStuPeriod_keeps {s t : State} (h : Keeps s t) (v) : Keeps s (writeStuPeriod v t) := by
  unfold writeStuPeriod
  repeat' first
    | with_reducible assumption | extract_lets | with_reducible apply violate_keeps | with_reducible apply postWithdrawal_keeps
    | with_reducible apply acceptPeriod_keeps | split | (dsimp +zetaDelta only)

theorem execThermalStepUp_keeps {s t : State} (h : Keeps s t) (r) : OutKeeps s (execThermalStepUp r t) := by
  unfold execThermalStepUp
  repeat' first
    | with_reducible assumption | extract_lets | with_reducible apply outKeeps_next | with_reducible apply onThm_keeps
    | with_reducible apply onStu_keeps | split

theorem execStretchChange_keeps {s t : State} (h : Keeps s t) : OutKeeps s (execStretchChange t) := by
  unfold execStretchChange
  repeat' first
    | with_reducible assumption | extract_lets | with_reducible apply outKeeps_next | with_reducible apply announceAfter_keeps
    | with_reducible apply applyStretch_keeps | with_reducible apply onStu_keeps | split

theorem execPeriodChange_keeps {s t : State} (h : Keeps s t) : OutKeeps s (execPeriodChange t) := by
  unfold execPeriodChange
  repeat' first
    | with_reducible assumption | extract_lets | with_reducible apply outKeeps_next | with_reducible apply announceAfter_keeps
    | with_reducible apply applyPeriod_keeps | with_reducible apply onStu_keeps | split

theorem execStuPeriodWrite_keeps {s t : State} (h : Keeps s t) (value) : OutKeeps s (execStuPeriodWrite value t) := by
  unfold execStuPeriodWrite
  repeat' first
    | with_reducible assumption | extract_lets | with_reducible apply outKeeps_next | with_reducible apply bar0Write_keeps
    | with_reducible apply writeStuPeriod_keeps | intro _

theorem queueSummary_keeps {s t : State} (h : Keeps s t) (n line b) : Keeps s (queueSummary n line b t) := by
  unfold queueSummary
  repeat' first
    | with_reducible assumption | extract_lets | with_reducible apply onHbm_keeps | (intro _ hh; exact hh)

theorem closeSteps_keeps {s t : State} (h : Keeps s t) (n step) : Keeps s (closeSteps n step t) := by
  unfold closeSteps
  repeat' first
    | with_reducible assumption | extract_lets | with_reducible apply each_keeps | with_reducible apply onStu_keeps
    | with_reducible apply queueSummary_keeps | with_reducible apply post_keeps | intro _

theorem collectBand_keeps {s t : State} (h : Keeps s t) (n g) : Keeps s (collectBand n t g) := by
  unfold collectBand
  repeat' first
    | with_reducible assumption | extract_lets | with_reducible apply onStu_keeps | with_reducible apply queueSummary_keeps

theorem collectTallies_keeps {s t : State} (h : Keeps s t) : Keeps s (collectTallies t) := by
  unfold collectTallies
  dsimp only
  exact onCores_keeps (each_keeps h _ _ fun _ n hu => each_keeps hu _ _ fun _ _ hv => collectBand_keeps hv _ _) _
    fun k hk => map_scratch hk fun _ => rfl

theorem phaseFlag_keeps {s t : State} (h : Keeps s t) (n i) : Keeps s (phaseFlag n i t) := by
  unfold phaseFlag
  repeat' first
    | with_reducible assumption | with_reducible apply onStu_keeps

theorem closePhase_keeps {s t : State} (h : Keeps s t) (n : Nat) : Keeps s (closePhase n t) := by
  have h1 := closeSteps_keeps h n (vAt t.stu.phase n {}).step
  unfold closePhase
  dsimp only
  split
  · exact onStu_keeps h1 _
  · exact post_keeps (onStu_keeps (setHostMem_keeps (onStu_keeps h1 _) _ fun hm => Mem.write_wf _ _ _ hm) _) _ _ _

theorem execPhaseLedgerRecord_keeps {s t : State} (h : Keeps s t) (n) : OutKeeps s (execPhaseLedgerRecord n t) := by
  unfold execPhaseLedgerRecord
  repeat' first
    | with_reducible assumption | extract_lets | with_reducible apply outKeeps_next | with_reducible apply closePhase_keeps
    | split

theorem chargePhases_keeps {s t : State} (h : Keeps s t) : Keeps s (chargePhases t) := by
  unfold chargePhases
  repeat' first
    | with_reducible assumption | extract_lets | with_reducible apply each_keeps | with_reducible apply onStu_keeps | intro _

theorem unloadPattern_keeps {s t : State} (h : Keeps s t) (n a1) : Keeps s (unloadPattern n a1 t) := by
  unfold unloadPattern
  repeat' first
    | with_reducible assumption | extract_lets | with_reducible apply each_keeps | with_reducible apply onCore_keeps
    | with_reducible apply onCores_keeps | with_reducible apply onWork_keeps | (intro _ hh; exact hh) | split | intro _

theorem installPattern_keeps {s t : State} (h : Keeps s t) (p copies fills) : Keeps s (installPattern p copies fills t) := by
  unfold installPattern
  repeat' first
    | with_reducible assumption | extract_lets | with_reducible apply each_keeps | with_reducible apply onCore_keeps
    | with_reducible apply onCores_keeps | with_reducible apply onRouter_keeps | with_reducible apply onWork_keeps
    | (intro _ hh; exact hh) | split | (dsimp +zetaDelta only) | intro _

theorem dropLoad_keeps {s t : State} (h : Keeps s t) (j) : Keeps s (dropLoad j t) := by
  unfold dropLoad
  repeat' first
    | with_reducible assumption | with_reducible apply onWork_keeps

theorem patternLoaded_keeps {s t : State} (h : Keeps s t) (n portOk) : Keeps s (patternLoaded n portOk t) := by
  unfold patternLoaded
  repeat' first
    | with_reducible assumption | extract_lets | with_reducible apply postRefusal_keeps | with_reducible apply dropLoad_keeps
    | with_reducible apply postCompletion_keeps | with_reducible apply installPattern_keeps | split

theorem execPatternLoaded_keeps {s t : State} (h : Keeps s t) (n portOk) : OutKeeps s (execPatternLoaded n portOk t) := by
  unfold execPatternLoaded
  repeat' first
    | with_reducible assumption | extract_lets | with_reducible apply outKeeps_next | with_reducible apply patternLoaded_keeps

theorem tokenRecord_keeps {s t : State} (h : Keeps s t) (n tag position token kind slot stitch swatches) :
    Keeps s (tokenRecord n tag position token kind slot stitch swatches t) := by
  unfold tokenRecord
  repeat' first
    | with_reducible assumption | extract_lets | with_reducible apply onSrvCtx_keeps | with_reducible apply setHostMem_keeps
    | exact fun hw => Mem.write_wf _ _ _ hw | split

theorem retireSlot_keeps {s t : State} (h : Keeps s t) (i) : Keeps s (retireSlot i t) := by
  unfold retireSlot
  repeat' first
    | with_reducible assumption | extract_lets | with_reducible apply onSlot_keeps

theorem endSlot_keeps {s t : State} (h : Keeps s t) (i kind) : Keeps s (endSlot i kind t) := by
  unfold endSlot
  repeat' first
    | with_reducible assumption | extract_lets | with_reducible apply tokenRecord_keeps | with_reducible apply retireSlot_keeps
    | with_reducible apply onSlot_keeps | split

theorem freeSlot_keeps {s t : State} (h : Keeps s t) (i) : Keeps s (freeSlot i t) := by
  unfold freeSlot
  repeat' first
    | with_reducible assumption | extract_lets | with_reducible apply onSrv_keeps | with_reducible apply onSrvCtx_keeps

theorem applyResults_keeps {s t : State} (h : Keeps s t) (n) : Keeps s (applyResults n t) := by
  unfold applyResults
  repeat' first
    | with_reducible assumption | extract_lets | with_reducible apply onSrvCtx_keeps | with_reducible apply each_keeps
    | with_reducible apply onSlot_keeps | with_reducible apply tokenRecord_keeps | with_reducible apply retireSlot_keeps | split
    | (dsimp +zetaDelta only) | intro _

theorem endSlots_keeps {s t : State} (h : Keeps s t) (a0) (a1) : Keeps s (endSlots a0 a1 t) := by
  unfold endSlots
  repeat' first
    | with_reducible assumption | extract_lets | with_reducible apply each_keeps | with_reducible apply endSlot_keeps | split
    | (dsimp +zetaDelta only) | intro _
    | (intro _ hh; first | exact hh | exact Mem.write_wf _ _ _ hh | exact Mem.clearRange_wf _ _ _ hh)

theorem applyServing_keeps {s t : State} (h : Keeps s t) (a0) : Keeps s (applyServing a0 t) := by
  unfold applyServing
  repeat' first
    | with_reducible assumption | extract_lets | with_reducible apply each_keeps | with_reducible apply onSlot_keeps
    | with_reducible apply onSrvCtx_keeps | with_reducible apply applyResults_keeps | with_reducible apply applyTrims_keeps
    | with_reducible apply endSlots_keeps | with_reducible apply enterSlot_keeps | with_reducible apply freeSlot_keeps
    | with_reducible apply postCompletion_keeps | split | (dsimp +zetaDelta only) | intro _

theorem allocateSwatch_keeps {s : State} (n : Nat) (acc : State × List ListEntry) (e : ListEntry) (h : Keeps s acc.1) :
    Keeps s (allocateSwatch n acc e).1 := by
  unfold allocateSwatch
  dsimp only
  split
  · exact h
  · dsimp only
    exact onSlot_keeps (onSrvCtx_keeps h _ _) _ _

theorem allocated_keeps {s : State} (n : Nat) (l : List ListEntry) (a : State × List ListEntry) (h : Keeps s a.1) :
    Keeps s (l.foldl (allocateSwatch n) a).1 := by
  induction l generalizing a with
  | nil => exact h
  | cons e l ih => exact ih _ (allocateSwatch_keeps n a e h)

theorem buildList_keeps {s t : State} (h : Keeps s t) (n : Nat) : Keeps s (buildList n t) := by
  unfold buildList
  dsimp only
  exact onSrvCtx_keeps (allocated_keeps _ _ _ (each_keeps h _ _ fun _ _ hu => onSlot_keeps hu _ _)) _ _

theorem writeStatus_keeps {s t : State} (h : Keeps s t) (n) : Keeps s (writeStatus n t) := by
  unfold writeStatus
  repeat' first
    | with_reducible assumption | extract_lets | with_reducible apply onQueue_keeps | with_reducible apply setHostMem_keeps
    | exact fun hw => Mem.write_wf _ _ _ hw

theorem refuse_keeps {s t : State} (h : Keeps s t) (n d reason d0 d1) : Keeps s (refuse n d reason d0 d1 t) := by
  unfold refuse
  repeat' first
    | with_reducible assumption | with_reducible apply postRefusal_keeps

theorem onDescriptor_keeps {s t : State} (h : Keeps s t) (n type : Nat) (fits : List Byte → Bool) (f : Taken → State → State)
    (hf : ∀ d u, Keeps s u → Keeps s (f d u)) : Keeps s (onDescriptor n type fits f t) := by
  unfold onDescriptor
  split
  · exact h
  · split
    · exact h
    · dsimp only
      split
      · split
        · exact postCompletion_keeps (onRing_keeps h _ _) _ _ _ _ _ _ _ _
        · exact hf _ _ (onRing_keeps h _ _)
      · split
        · exact refuse_keeps (onRing_keeps h _ _) _ _ _ _ _
        · exact hf _ _ (onRing_keeps h _ _)

theorem markVote_keeps {s t : State} (h : Keeps s t) (n nv) : Keeps s (markVote n nv t) := by
  unfold markVote
  repeat' first
    | with_reducible assumption | with_reducible apply onTrain_keeps

theorem armVote_keeps {s t : State} (h : Keeps s t) (n d) : Keeps s (armVote n d t) := by
  unfold armVote
  repeat' first
    | with_reducible assumption | extract_lets | with_reducible apply refuse_keeps | with_reducible apply markVote_keeps
    | with_reducible apply onWork_keeps | split

theorem execVoteMark_keeps {s t : State} (h : Keeps s t) (n) : OutKeeps s (execVoteMark n t) := by
  unfold execVoteMark
  repeat' first
    | with_reducible assumption | extract_lets | with_reducible apply outKeeps_next | with_reducible apply onDescriptor_keeps
    | with_reducible apply armVote_keeps | intro _

theorem stopRing_keeps {s t : State} (h : Keeps s t) (n err) : Keeps s (stopRing n err t) := by
  unfold stopRing
  repeat' first
    | with_reducible assumption | with_reducible apply onRing_keeps

theorem takeDescriptors_keeps {s t : State} (h : Keeps s t) (n : Nat) (tail : BitVec 32) (k : Nat) :
    Keeps s (takeDescriptors n tail k t) := by
  induction k generalizing t with
  | zero => exact h
  | succ k ih =>
    unfold takeDescriptors
    dsimp only
    split
    · exact h
    · split
      · exact stopRing_keeps h _ _
      · split
        · exact stopRing_keeps h _ _
        · exact ih (onRing_keeps h _ _)

theorem pollOne_keeps {s t : State} (h : Keeps s t) (n) : Keeps s (pollOne n t) := by
  unfold pollOne
  repeat' first
    | with_reducible assumption | extract_lets | with_reducible apply onQueue_keeps | with_reducible apply stopRing_keeps
    | with_reducible apply takeDescriptors_keeps | with_reducible apply writeStatus_keeps | with_reducible apply emit_keeps
    | split | (dsimp +zetaDelta only)

theorem execDoorbellPoll_keeps {s t : State} (h : Keeps s t) : OutKeeps s (execDoorbellPoll t) := by
  unfold execDoorbellPoll
  repeat' first
    | with_reducible assumption | extract_lets | with_reducible apply outKeeps_next | with_reducible apply each_keeps
    | with_reducible apply onHif_keeps | with_reducible apply pollOne_keeps | split | (dsimp +zetaDelta only) | intro _

theorem readDisarm_keeps {s t : State} (h : Keeps s t) (n d) : Keeps s (readDisarm n d t) := by
  unfold readDisarm
  repeat' first
    | with_reducible assumption | extract_lets | with_reducible apply refuse_keeps | with_reducible apply onWork_keeps | split

theorem execDisarm_keeps {s t : State} (h : Keeps s t) (n) : OutKeeps s (execDisarm n t) := by
  unfold execDisarm
  repeat' first
    | with_reducible assumption | extract_lets | with_reducible apply outKeeps_next | with_reducible apply onDescriptor_keeps
    | with_reducible apply readDisarm_keeps | intro _

theorem armBarrier_keeps {s t : State} (h : Keeps s t) (tag members start) : Keeps s (armBarrier tag members start t) := by
  unfold armBarrier
  repeat' first
    | with_reducible assumption | extract_lets | with_reducible apply pushReady_keeps | with_reducible apply onBarrier_keeps

theorem endByDisarm_keeps {s t : State} (h : Keeps s t) (e) : Keeps s (endByDisarm e t) := by
  unfold endByDisarm
  repeat' first
    | with_reducible assumption | extract_lets | with_reducible apply removeEntry_keeps | with_reducible apply undispatch_keeps
    | with_reducible apply postCompletion_keeps | split

theorem fenceRegion_keeps {s t : State} (h : Keeps s t) (n d) : Keeps s (fenceRegion n d t) := by
  unfold fenceRegion
  repeat' first
    | with_reducible assumption | extract_lets | with_reducible apply refuse_keeps | with_reducible apply onRegion_keeps
    | with_reducible apply onWork_keeps | split

theorem execFence_keeps {s t : State} (h : Keeps s t) (n) : OutKeeps s (execFence n t) := by
  unfold execFence
  repeat' first
    | with_reducible assumption | extract_lets | with_reducible apply outKeeps_next | with_reducible apply onDescriptor_keeps
    | with_reducible apply fenceRegion_keeps | intro _

theorem applyDisarm_keeps {s t : State} (h : Keeps s t) (p) : Keeps s (applyDisarm p t) := by
  unfold applyDisarm
  repeat' first
    | with_reducible assumption | extract_lets | with_reducible apply each_keeps | with_reducible apply endByDisarm_keeps
    | with_reducible apply onWork_keeps | with_reducible apply unloadPattern_keeps | with_reducible apply complete_keeps | split
    | (dsimp +zetaDelta only) | intro _

theorem armPattern_keeps {s t : State} (h : Keeps s t) (n d) : Keeps s (armPattern n d t) := by
  unfold armPattern
  repeat' first
    | with_reducible assumption | extract_lets | with_reducible apply refuse_keeps | with_reducible apply onWork_keeps
    | with_reducible apply armBarrier_keeps | with_reducible apply markVote_keeps | split | (dsimp +zetaDelta only)

theorem execArm_keeps {s t : State} (h : Keeps s t) (n) : OutKeeps s (execArm n t) := by
  unfold execArm
  repeat' first
    | with_reducible assumption | extract_lets | with_reducible apply outKeeps_next | with_reducible apply onDescriptor_keeps
    | with_reducible apply armPattern_keeps | intro _

theorem execUnload_keeps {s t : State} (h : Keeps s t) (n) : OutKeeps s (execUnload n t) := by
  unfold execUnload
  repeat' first
    | with_reducible assumption | extract_lets | with_reducible apply outKeeps_next | with_reducible apply onDescriptor_keeps
    | with_reducible apply readDisarm_keeps | intro _

theorem startLoad_keeps {s t : State} (h : Keeps s t) (n d) : Keeps s (startLoad n d t) := by
  unfold startLoad
  repeat' first
    | with_reducible assumption | extract_lets | with_reducible apply refuse_keeps | with_reducible apply onWork_keeps | split

theorem execLoadPattern_keeps {s t : State} (h : Keeps s t) (n) : OutKeeps s (execLoadPattern n t) := by
  unfold execLoadPattern
  repeat' first
    | with_reducible assumption | extract_lets | with_reducible apply outKeeps_next | with_reducible apply onDescriptor_keeps
    | with_reducible apply startLoad_keeps | intro _

theorem execDescriptorNop_keeps {s t : State} (h : Keeps s t) (n) : OutKeeps s (execDescriptorNop n t) := by
  unfold execDescriptorNop
  repeat' first
    | with_reducible assumption | extract_lets | with_reducible apply outKeeps_next | with_reducible apply onDescriptor_keeps
    | with_reducible apply complete_keeps | intro _

theorem execDisarmEffect_keeps {s t : State} (h : Keeps s t) : OutKeeps s (execDisarmEffect t) := by
  unfold execDisarmEffect
  repeat' first
    | with_reducible assumption | extract_lets | with_reducible apply outKeeps_next | with_reducible apply each_keeps
    | with_reducible apply applyDisarm_keeps | intro _

theorem takeAdmit_keeps {s t : State} (h : Keeps s t) (a0) (a1) : Keeps s (takeAdmit a0 a1 t) := by
  unfold takeAdmit
  repeat' first
    | with_reducible assumption | extract_lets | with_reducible apply onSrvCtx_keeps | with_reducible apply complete_keeps
    | with_reducible apply tokenRecord_keeps | split | (dsimp +zetaDelta only) | intro _
    | (intro _ hh; first | exact hh | exact Mem.write_wf _ _ _ hh | exact Mem.clearRange_wf _ _ _ hh)

theorem execSeqAdmit_keeps {s t : State} (h : Keeps s t) (a0) : OutKeeps s (execSeqAdmit a0 t) := by
  unfold execSeqAdmit
  repeat' first
    | with_reducible assumption | extract_lets | with_reducible apply outKeeps_next | with_reducible apply onDescriptor_keeps
    | with_reducible apply takeAdmit_keeps | split | (dsimp +zetaDelta only) | intro _

theorem execSeqRelease_keeps {s t : State} (h : Keeps s t) (n) : OutKeeps s (execSeqRelease n t) := by
  unfold execSeqRelease
  repeat' first
    | with_reducible assumption | extract_lets | with_reducible apply outKeeps_next | with_reducible apply onDescriptor_keeps
    | with_reducible apply onSrvCtx_keeps | split | intro _

theorem endTransfer_keeps {s t : State} (h : Keeps s t) (id) : Keeps s (endTransfer id t) := by
  unfold endTransfer
  repeat' first
    | with_reducible assumption | with_reducible apply onWork_keeps

theorem startTransfer_keeps {s t : State} (h : Keeps s t) (n d notify kind) : Keeps s (startTransfer n d notify kind t) := by
  unfold startTransfer
  repeat' first
    | with_reducible assumption | with_reducible apply onWork_keeps

theorem copyOut_keeps {s t : State} (h : Keeps s t) (n d) : Keeps s (copyOut n d t) := by
  unfold copyOut
  repeat' first
    | with_reducible assumption | with_reducible apply startTransfer_keeps

theorem execCopyOut_keeps {s t : State} (h : Keeps s t) (n) : OutKeeps s (execCopyOut n t) := by
  unfold execCopyOut
  repeat' first
    | with_reducible assumption | extract_lets | with_reducible apply outKeeps_next | with_reducible apply onDescriptor_keeps
    | with_reducible apply copyOut_keeps | intro _

theorem setKind_keeps {s t : State} (h : Keeps s t) (id k) : Keeps s (setKind id k t) := by
  unfold setKind
  repeat' first
    | with_reducible assumption | with_reducible apply onWork_keeps

theorem copyIn_keeps {s t : State} (h : Keeps s t) (a0) (a1) : Keeps s (copyIn a0 a1 t) := by
  unfold copyIn
  repeat' first
    | with_reducible assumption | extract_lets | with_reducible apply openLoad_keeps | with_reducible apply refuse_keeps
    | with_reducible apply startTransfer_keeps | split | (dsimp +zetaDelta only) | intro _

theorem copyInData_keeps {s t : State} (h : Keeps s t) (a0) (a1) (a2) (a3) (a4) : Keeps s (copyInData a0 a1 a2 a3 a4 t) := by
  unfold copyInData
  repeat' first
    | with_reducible assumption | extract_lets | with_reducible apply loadBytes_keeps
    | with_reducible apply unverifyBytes_keeps | with_reducible apply writeRegion_keeps | split | (dsimp +zetaDelta only)
    | intro _

theorem copyOutFinds_keeps {s t : State} (h : Keeps s t) (a0) (a1) (a2) (a3) (a4) : Keeps s (copyOutFinds a0 a1 a2 a3 a4 t) := by
  unfold copyOutFinds
  repeat' first
    | with_reducible assumption | extract_lets | with_reducible apply boltReadFinds_keeps
    | with_reducible apply readFinds_keeps | split | (dsimp +zetaDelta only) | intro _
    | (intro _ hh; first | exact hh | exact Mem.write_wf _ _ _ hh | exact Mem.clearRange_wf _ _ _ hh)

theorem execCopyIn_keeps {s t : State} (h : Keeps s t) (n) : OutKeeps s (execCopyIn n t) := by
  unfold execCopyIn
  repeat' first
    | with_reducible assumption | extract_lets | with_reducible apply outKeeps_next | with_reducible apply onDescriptor_keeps
    | with_reducible apply copyIn_keeps | intro _

theorem viewFinds_keeps {s t : State} (h : Keeps s t) (a0) (a1) (a2) (a3) (a4) : Keeps s (viewFinds a0 a1 a2 a3 a4 t) := by
  unfold viewFinds
  repeat' first
    | with_reducible assumption | extract_lets | with_reducible apply readFinds_keeps | split | (dsimp +zetaDelta only)
    | intro _ | (intro _ hh; first | exact hh | exact Mem.write_wf _ _ _ hh | exact Mem.clearRange_wf _ _ _ hh)

theorem blockFinds_keeps {s t : State} (h : Keeps s t) (a0) (a1) (a2) : Keeps s (blockFinds a0 a1 a2 t) := by
  unfold blockFinds
  repeat' first
    | with_reducible assumption | extract_lets | with_reducible apply viewFinds_keeps | split | (dsimp +zetaDelta only)
    | intro _ | (intro _ hh; first | exact hh | exact Mem.write_wf _ _ _ hh | exact Mem.clearRange_wf _ _ _ hh)

theorem shardFinds_keeps {s t : State} (h : Keeps s t) (a0) (a1) : Keeps s (shardFinds a0 a1 t) := by
  unfold shardFinds
  repeat' first
    | with_reducible assumption | extract_lets | with_reducible apply each_keeps | with_reducible apply blockFinds_keeps
    | with_reducible apply boltReadFinds_keeps | with_reducible apply viewFinds_keeps | split | (dsimp +zetaDelta only)
    | intro _ | (intro _ hh; first | exact hh | exact Mem.write_wf _ _ _ hh | exact Mem.clearRange_wf _ _ _ hh)

theorem refillFinds_keeps {s t : State} (h : Keeps s t) (a0) (a1) : Keeps s (refillFinds a0 a1 t) := by
  unfold refillFinds
  repeat' first
    | with_reducible assumption | extract_lets | with_reducible apply each_keeps | with_reducible apply blockFinds_keeps
    | split | (dsimp +zetaDelta only) | intro _
    | (intro _ hh; first | exact hh | exact Mem.write_wf _ _ _ hh | exact Mem.clearRange_wf _ _ _ hh)

theorem swatchFinds_keeps {s t : State} (h : Keeps s t) (a0) (a1) : Keeps s (swatchFinds a0 a1 t) := by
  unfold swatchFinds
  repeat' first
    | with_reducible assumption | extract_lets | with_reducible apply readFinds_keeps | split | (dsimp +zetaDelta only)
    | intro _ | (intro _ hh; first | exact hh | exact Mem.write_wf _ _ _ hh | exact Mem.clearRange_wf _ _ _ hh)

end Sys2Proof.Machine
end

