-- ==== Sys2Proof/Laws/KeepsUnits.lean ====
section
/-! SUPPORT. Each operation and each meaning keeps what no command touches (Keeps, Safety.lean): the engines, the pressers, training, alterations and collectives. -/

namespace Sys2Proof.Machine

theorem setFlag_keeps {s t : State} (h : Keeps s t) (k bit) : Keeps s (setFlag k bit t) := by
  unfold setFlag
  repeat' first
    | with_reducible assumption | extract_lets | with_reducible apply onPresser_keeps | (intro _ hh; exact hh)

theorem ringWrite_keeps {s t : State} (h : Keeps s t) (k line : Nat) (data : List Byte) :
    Keeps s (ringWrite k line data t) := by
  have h1 (g : Mem → Byte × Nat → Mem) (hg : ∀ m a, Mem.wf m = true → Mem.wf (g m a) = true) (f : Presser → Presser)
      (hf : ∀ p, (f p).ring = data.zipIdx.foldl g (t.presser k).ring) : Keeps s (t.onPresser k f) := by
    refine ⟨h.queue, h.straps, h.out, fun w => ?_⟩
    obtain ⟨a, b, c, d, e, w⟩ := h.mem w
    refine ⟨a, b, c, d, e, fun p hp => ?_⟩
    rcases mem_vMod hp with hp | ⟨q, hq, rfl⟩
    · exact w p hp
    · rw [hf]
      refine putAll_wf _ _ hg _ ?_
      unfold State.presser vAt
      split
      · exact w _ (by simp)
      · rfl
  unfold ringWrite
  dsimp only
  have hg (c : Byte × Nat → Bool) (m : Mem) (a : Byte × Nat) (hm : Mem.wf m = true) :
      Mem.wf (if c a = true then m else Mem.put m (64 * line + a.2) a.1) = true := by
    split
    · exact hm
    · exact Mem.put_wf _ _ _ hm
  refine ite_keeps (h1 _ (hg _) _ fun _ => rfl) (setFlag_keeps (h1 _ (hg _) _ fun _ => rfl) _ _)

theorem takeLine_keeps {s t : State} (h : Keeps s t) (a data) : Keeps s (takeLine a data t) := by
  unfold takeLine
  repeat' first
    | with_reducible assumption | extract_lets | with_reducible apply ringWrite_keeps | with_reducible apply unverify_keeps
    | with_reducible apply writeWhole_keeps | split

theorem returnLine_keeps {s t : State} (h : Keeps s t) (core line due bs) : Keeps s (returnLine core line due bs t) := by
  unfold returnLine
  repeat' first
    | with_reducible assumption | extract_lets | with_reducible apply onCores_keeps | (intro _ hh; exact hh)

theorem takeHrd_keeps {s t : State} (h : Keeps s t) (a core line due e) : Keeps s (takeHrd a core line due e t) := by
  unfold takeHrd
  repeat' first
    | with_reducible assumption | extract_lets | with_reducible apply returnLine_keeps | with_reducible apply hbmEcc_keeps | split

theorem takeAccess_keeps {s t : State} (h : Keeps s t) (a : Access) (e : LineEcc) : Keeps s (takeAccess a e t) := by
  unfold takeAccess
  split
  · exact takeHrd_keeps h _ _ _ _ _
  · exact returnLine_keeps h _ _ _ _
  · exact takeLine_keeps h _ _
  · refine unverify_keeps ?_ _ _ _ _
    cases e : engineWrite _ _ _ _ t with
    | none => exact h
    | some u => exact engineWrite_keeps h _ _ _ _ e
  · exact emit_keeps (hbmEcc_keeps h _ _ _) _

theorem meetAhead_keeps {s t : State} (h : Keeps s t) (by_) (fuel : Nat) : Keeps s (meetAhead by_ fuel t) := by
  induction fuel generalizing t with
  | zero => exact h
  | succ fuel ih =>
    unfold meetAhead
    split
    · exact h
    · exact ih (takeAccess_keeps (onHbm_keeps h _ (by exact fun _ hh => hh)) _ _)

theorem meetQueues_keeps {s t : State} (h : Keeps s t) (by_) : Keeps s (meetQueues by_ t) := meetAhead_keeps h _ _

theorem execWcDrain_keeps {s t : State} (h : Keeps s t) (a0) : OutKeeps s (execWcDrain a0 t) := by
  unfold execWcDrain
  repeat' first
    | with_reducible assumption | extract_lets | with_reducible apply outKeeps_next | with_reducible apply drainOldest_keeps
    | with_reducible apply meetQueues_keeps | split | (dsimp +zetaDelta only) | intro _

theorem execZeroingDone_keeps {s t : State} (h : Keeps s t) (a0) (a1) : OutKeeps s (execZeroingDone a0 a1 t) := by
  unfold execZeroingDone
  repeat' first
    | with_reducible assumption | extract_lets | with_reducible apply outKeeps_next | with_reducible apply onHbm_keeps
    | with_reducible apply meetQueues_keeps | with_reducible apply zeroRegion_keeps | split | (dsimp +zetaDelta only) | intro _

theorem execCalibrationWindow_keeps {s t : State} (h : Keeps s t) : OutKeeps s (execCalibrationWindow t) := by
  unfold execCalibrationWindow
  repeat' first
    | with_reducible assumption | extract_lets | with_reducible apply outKeeps_next | with_reducible apply each_keeps
    | with_reducible apply onHbm_keeps | with_reducible apply meetQueues_keeps | with_reducible apply storeLines_keeps
    | with_reducible apply unverifyBytes_keeps | split | (dsimp +zetaDelta only) | intro _

theorem copyDone_keeps {s t : State} (h : Keeps s t) (id : Nat) (portOk : Bool) : Keeps s (copyDone id portOk t) := by
  have h1 {u : State} (hu : Keeps s u) (c : Bool) (n a b d e f : Nat) (x : List Byte) :
      Keeps s (if c = true then postCompletion n a b d e f 0 x u else u) :=
    ite_keeps (postCompletion_keeps hu _ _ _ _ _ _ _ _) hu
  have he := endTransfer_keeps h id
  have hm (x : AccessSource) := meetQueues_keeps he x
  unfold copyDone
  split
  · exact h
  · dsimp only
    repeat' first
      | with_reducible apply h1
      | with_reducible assumption
      | with_reducible apply ite_keeps
      | with_reducible apply violate_keeps
      | with_reducible apply copyInData_keeps
      | with_reducible apply copyOutFinds_keeps
      | with_reducible apply setHostMem_keeps
      | exact hm _
      | exact fun hm => Mem.write_wf _ _ _ hm
      | split

theorem execCopyDone_keeps {s t : State} (h : Keeps s t) (id portOk) : OutKeeps s (execCopyDone id portOk t) := by
  unfold execCopyDone
  repeat' first
    | with_reducible assumption | extract_lets | with_reducible apply outKeeps_next | with_reducible apply copyDone_keeps

theorem dropVote_keeps {s t : State} (h : Keeps s t) (tag) : Keeps s (dropVote tag t) := by
  unfold dropVote
  repeat' first
    | with_reducible assumption | extract_lets | with_reducible apply onPrs_keeps | (intro _ hh; exact hh)

theorem holdVerdict_keeps {s t : State} (h : Keeps s t) (m) : Keeps s (holdVerdict m t) := by
  unfold holdVerdict
  repeat' first
    | with_reducible assumption | extract_lets | with_reducible apply each_keeps | with_reducible apply onTrain_keeps | intro _

theorem onVote_keeps {s t : State} (h : Keeps s t) (tag first f) : Keeps s (onVote tag first f t) := by
  unfold onVote
  repeat' first
    | with_reducible assumption | extract_lets | with_reducible apply onPrs_keeps | (intro _ hh; exact hh)

theorem pushVote_keeps {s t : State} (h : Keeps s t) (tag) : Keeps s (pushVote tag t) := by
  unfold pushVote
  repeat' first
    | with_reducible assumption | extract_lets | with_reducible apply sendUp_keeps | with_reducible apply onVote_keeps | split

theorem receiveAbort_keeps {s t : State} (h : Keeps s t) (port : Nat) (m : AbortMsg) : Keeps s (receiveAbort port m t) := by
  unfold receiveAbort
  split
  · exact h
  · split
    · exact h
    · exact each_keeps (ite_keeps h (passAbort_keeps h _ _)) _ _ fun _ _ hu => actOnAbort_keeps hu _ _ _

theorem onIssue_keeps {s t : State} (h : Keeps s t) {c : Instr} (i : Issue) (f : Nat → Nat → State → State)
    (hf : ∀ n c u, Keeps s u → Keeps s (f n c u)) : Keeps s (onIssue c i f t) := by
  unfold onIssue
  dsimp only
  split
  · exact h
  · have h1 : Keeps s (t.onCore (coreNum i.core) (settle i.cycle)) :=
      onCore_keeps h _ _ fun k hk => by rw [settle_scratch]; exact hk
    split
    · exact h1
    · exact hf _ _ _ h1

theorem onIssueCore_keeps {s t : State} (h : Keeps s t) {c : Instr} (i : Issue) (f : Core → Core)
    (hf : ∀ k : Core, Mem.wf k.scratch = true → Mem.wf (f k).scratch = true) : Keeps s (onIssueCore c i f t) :=
  onIssue_keeps h i _ fun _ c _ hu => onCore_keeps hu c f hf

theorem takeStream_keeps {s t : State} (h : Keeps s t) (a0) (a1) (a2) (a3) : Keeps s (takeStream a0 a1 a2 a3 t) := by
  unfold takeStream
  repeat' first
    | with_reducible assumption | extract_lets | with_reducible apply each_keeps | with_reducible apply onCore_keeps
    | with_reducible apply boltEcc_keeps | split | (dsimp +zetaDelta only) | exact fun _ hk => hk | intro _

theorem scratchBound_keeps {s t : State} (h : Keeps s t) (n addr count) : Keeps s (scratchBound n addr count t) := by
  unfold scratchBound
  repeat' first
    | with_reducible assumption | with_reducible apply violate_keeps | split

theorem readSlot_keeps {s t : State} (h : Keeps s t) (n c addr count e) : Keeps s (readSlot n c addr count e t) := by
  unfold readSlot
  repeat' first
    | with_reducible assumption | extract_lets | with_reducible apply onCore_keeps | with_reducible apply scratchBound_keeps
    | (intro _ hh; simpa using hh)

theorem operandB_keeps {s t : State} (h : Keeps s t) (n c count : Nat) (b : BSource) (i : Issue) (lines : Nat) :
    Keeps s (operandB n c count b i lines t).2.1 := by
  unfold operandB
  split
  · exact takeStream_keeps h _ _ _ _
  · exact readSlot_keeps h _ _ _ _ _

theorem execLoad_keeps {s t : State} (h : Keeps s t) (i pair aAddr b) : OutKeeps s (execLoad i pair aAddr b t) := by
  unfold execLoad
  repeat' first
    | with_reducible assumption | extract_lets | with_reducible apply outKeeps_next | with_reducible apply onIssue_keeps
    | with_reducible apply readSlot_keeps | with_reducible apply operandB_keeps | with_reducible apply onCore_keeps
    | (intro _ hh; exact hh) | (dsimp +zetaDelta only) | intro _

theorem execSetw_keeps {s t : State} (h : Keeps s t) (i bank d) : OutKeeps s (execSetw i bank d t) := by
  unfold execSetw
  repeat' first
    | with_reducible assumption | extract_lets | with_reducible apply outKeeps_next | with_reducible apply onIssueCore_keeps
    | (intro _ hh; exact hh)

theorem drainRow_keeps {s t : State} (h : Keeps s t) (a0) (a1) (a2) (a3) (a4) (a5) (a6) (a7) : Keeps s (drainRow a0 a1 a2 a3 a4 a5 a6 a7 t) := by
  unfold drainRow
  repeat' first
    | with_reducible assumption | extract_lets | with_reducible apply onCore_keeps | with_reducible apply scratchBound_keeps
    | split | (dsimp +zetaDelta only) | exact fun _ hk => hk | exact fun _ hk => Mem.write_wf _ _ _ hk
    | exact fun _ hk => Mem.clearRange_wf _ _ _ hk | exact fun _ hk => map_ring hk fun _ => rfl
    | exact fun _ hk => map_scratch hk fun _ => rfl | exact fun _ hk => filter_scratch hk | exact fun _ _ => rfl
    | (intro _ hk; simpa using hk) | intro _

theorem execDrain_keeps {s t : State} (h : Keeps s t) (i bank row dst dc clr) :
    OutKeeps s (execDrain i bank row dst dc clr t) := by
  unfold execDrain
  repeat' first
    | with_reducible assumption | extract_lets | with_reducible apply outKeeps_next | with_reducible apply onIssue_keeps
    | with_reducible apply drainRow_keeps | intro _

theorem execClear_keeps {s t : State} (h : Keeps s t) (i bank) : OutKeeps s (execClear i bank t) := by
  unfold execClear
  repeat' first
    | with_reducible assumption | extract_lets | with_reducible apply outKeeps_next | with_reducible apply onIssueCore_keeps
    | (intro _ hh; exact hh)

theorem execLdsc_keeps {s t : State} (h : Keeps s t) (i set saAddr b) : OutKeeps s (execLdsc i set saAddr b t) := by
  unfold execLdsc
  repeat' first
    | with_reducible assumption | extract_lets | with_reducible apply outKeeps_next | with_reducible apply onIssue_keeps
    | with_reducible apply readSlot_keeps | with_reducible apply operandB_keeps | with_reducible apply onCore_keeps
    | (intro _ hh; exact hh) | (dsimp +zetaDelta only) | intro _

theorem execMac_keeps {s t : State} (h : Keeps s t) (i : Issue) (bank pair set : Fin 2) (fmt : MacFmt) :
    OutKeeps s (execMac i bank pair set fmt t) := by
  unfold execMac
  exact outKeeps_next (onIssueCore_keeps h _ _ fun k hk => by rw [macCore_scratch]; exact hk)

theorem execAccin_keeps {s t : State} (h : Keeps s t) (i : Issue) (bank pair : Fin 2) (row : Fin 16) (set : Fin 2)
    (form : AccForm) : OutKeeps s (execAccin i bank pair row set form t) := by
  unfold execAccin
  refine outKeeps_next (onIssue_keeps h _ _ fun n c u hu => ?_)
  split
  · exact onCore_keeps hu _ _ fun k hk => by rw [accinFp32_scratch]; exact hk
  · split
    · exact violate_keeps hu _ _
    · exact onCore_keeps (ite_keeps (combineBlock_keeps hu _ _ _ _ _) hu) _ _ fun k hk => by rw [accinGs16_scratch]; exact hk

theorem writeView_keeps {s t : State} (h : Keeps s t) (a0) (a1) (a2) (a3) (a4) (a5) : Keeps s (writeView a0 a1 a2 a3 a4 a5 t) := by
  unfold writeView
  repeat' first
    | with_reducible assumption | extract_lets | with_reducible apply storeLines_keeps
    | with_reducible apply unverifyBytes_keeps | with_reducible apply violate_keeps | split | (dsimp +zetaDelta only) | intro _

theorem stageRun_keeps {s t : State} (h : Keeps s t) (x : BoltRegion) (r : BoltRun) (off : Nat) (bs : List Byte) :
    Keeps s (stageRun x r off bs t) := by
  unfold stageRun
  exact each_keeps h _ _ fun _ _ hu => writeBoltLine_keeps hu _ _ _ _

theorem placeCopy_keeps {s t : State} (h : Keeps s t) (a0) (a1) (a2) (a3) (a4) (a5) : Keeps s (placeCopy a0 a1 a2 a3 a4 a5 t) := by
  unfold placeCopy
  repeat' first
    | with_reducible assumption | extract_lets | with_reducible apply each_keeps | with_reducible apply onBolt_keeps
    | with_reducible apply onPresser_keeps | with_reducible apply writeView_keeps | split | (dsimp +zetaDelta only) | intro _

theorem presserSat_keeps {s t : State} (h : Keeps s t) (k n) : Keeps s (presserSat k n t) := by
  unfold presserSat
  repeat' first
    | with_reducible assumption | extract_lets | with_reducible apply onPresser_keeps | (intro _ hh; exact hh)

theorem writeCopy_keeps {s t : State} (h : Keeps s t) (k n e i sigma ws) : Keeps s (writeCopy k n e i sigma ws t) := by
  unfold writeCopy
  repeat' first
    | with_reducible assumption | extract_lets | with_reducible apply placeCopy_keeps | with_reducible apply presserSat_keeps
    | split

theorem onBank_keeps {s t : State} (h : Keeps s t) (k mirror i f) : Keeps s (onBank k mirror i f t) := by
  unfold onBank
  repeat' first
    | with_reducible assumption | extract_lets | with_reducible apply onPresser_keeps | (intro _ hh; exact hh) | split

theorem markTaken_keeps {s t : State} (h : Keeps s t) (k mirror block) : Keeps s (markTaken k mirror block t) := by
  unfold markTaken
  repeat' first
    | with_reducible assumption | extract_lets | with_reducible apply onPresser_keeps | (intro _ hh; exact hh) | split

theorem addNorm_keeps {s t : State} (h : Keeps s t) (k gradScale ds) : Keeps s (addNorm k gradScale ds t) := by
  unfold addNorm
  repeat' first
    | with_reducible assumption | extract_lets | with_reducible apply presserSat_keeps | with_reducible apply onPresser_keeps
    | with_reducible apply setFlag_keeps | (intro _ hh; exact hh) | split

theorem writeMoments_keeps {s t : State} (h : Keeps s t) (a0) (a1) (a2) (a3) (a4) (a5) : Keeps s (writeMoments a0 a1 a2 a3 a4 a5 t) := by
  unfold writeMoments
  repeat' first
    | with_reducible assumption | extract_lets | with_reducible apply presserSat_keeps | with_reducible apply writeView_keeps
    | split | (dsimp +zetaDelta only) | intro _

theorem applyBlock_keeps {s t : State} (h : Keeps s t) (a0) (a1) (a2) (a3) (a4) (a5) (a6) (a7) : Keeps s (applyBlock a0 a1 a2 a3 a4 a5 a6 a7 t) := by
  unfold applyBlock
  repeat' first
    | with_reducible assumption | extract_lets | with_reducible apply foldl_keeps | with_reducible apply onPresser_keeps
    | with_reducible apply blockFinds_keeps | with_reducible apply onBank_keeps | with_reducible apply spendSlots_keeps
    | with_reducible apply writeCopy_keeps | with_reducible apply writeMoments_keeps | with_reducible apply writeView_keeps
    | split | (dsimp +zetaDelta only) | intro _

theorem applyRecord_keeps {s t : State} (h : Keeps s t) (k n mirror b) : Keeps s (applyRecord k n mirror b t) := by
  unfold applyRecord
  repeat' first
    | with_reducible assumption | with_reducible apply applyBlock_keeps | split

theorem acceptRecord_keeps {s t : State} (h : Keeps s t) (a0) (a1) (a2) (a3) : Keeps s (acceptRecord a0 a1 a2 a3 t) := by
  unfold acceptRecord
  repeat' first
    | with_reducible assumption | extract_lets | with_reducible apply onPresser_keeps | with_reducible apply addNorm_keeps
    | with_reducible apply applyRecord_keeps | with_reducible apply spendSlots_keeps | with_reducible apply writeView_keeps
    | split | (dsimp +zetaDelta only) | intro _

theorem queueMirror_keeps {s t : State} (h : Keeps s t) (m n cells) : Keeps s (queueMirror m n cells t) := by
  unfold queueMirror
  repeat' first
    | with_reducible assumption | with_reducible apply onPort_keeps

theorem sendMirror_keeps {s t : State} (h : Keeps s t) (a0) (a2) : Keeps s (sendMirror a0 t a2) := by
  unfold sendMirror
  repeat' first
    | with_reducible assumption | extract_lets | with_reducible apply onLin_keeps | with_reducible apply onPresser_keeps
    | with_reducible apply queueMirror_keeps | split | (dsimp +zetaDelta only) | intro _

theorem mirrorBoundary_keeps {s t : State} (h : Keeps s t) : Keeps s (mirrorBoundary t) := by
  unfold mirrorBoundary
  repeat' first
    | with_reducible assumption | extract_lets | with_reducible apply each_keeps | with_reducible apply sendMirror_keeps
    | split | (dsimp +zetaDelta only) | intro _

theorem requestRefill_keeps {s t : State} (h : Keeps s t) : Keeps s (requestRefill t) := by
  unfold requestRefill
  repeat' first
    | with_reducible assumption | extract_lets | with_reducible apply tellPartner_keeps | split | (dsimp +zetaDelta only)
    | intro _

theorem markStale_keeps {s t : State} (h : Keeps s t) (k) : Keeps s (markStale k t) := by
  unfold markStale
  repeat' first
    | with_reducible assumption | extract_lets | with_reducible apply setFlag_keeps | with_reducible apply requestRefill_keeps
    | split

theorem startRefill_keeps {s t : State} (h : Keeps s t) (a0) (a1) (a2) : Keeps s (startRefill a0 a1 a2 t) := by
  unfold startRefill
  repeat' first
    | with_reducible assumption | extract_lets | with_reducible apply each_keeps | with_reducible apply onLin_keeps
    | with_reducible apply onPresser_keeps | with_reducible apply refillFinds_keeps | with_reducible apply sendMirror_keeps
    | split | (dsimp +zetaDelta only) | intro _

theorem queueFirst_keeps {s t : State} (h : Keeps s t) (a0) (a1) (a2) : Keeps s (queueFirst a0 a1 a2 t) := by
  unfold queueFirst
  repeat' first
    | with_reducible assumption | extract_lets | with_reducible apply onPort_keeps | with_reducible apply queueMirror_keeps
    | split | (dsimp +zetaDelta only) | intro _
    | (intro _ hh; first | exact hh | exact Mem.write_wf _ _ _ hh | exact Mem.clearRange_wf _ _ _ hh)

theorem sendState_keeps {s t : State} (h : Keeps s t) (a0) : Keeps s (sendState a0 t) := by
  unfold sendState
  repeat' first
    | with_reducible assumption | extract_lets | with_reducible apply each_keeps | with_reducible apply queueFirst_keeps
    | split | (dsimp +zetaDelta only) | intro _

theorem liningCommit_keeps {s t : State} (h : Keeps s t) (n commit a2) : Keeps s (liningCommit n commit a2 t) := by
  unfold liningCommit
  repeat' first
    | with_reducible assumption | extract_lets | with_reducible apply onSea_keeps | with_reducible apply setLining_keeps
    | with_reducible apply startRefill_keeps | with_reducible apply sendState_keeps | with_reducible apply onLin_keeps | split
    | (dsimp +zetaDelta only)

theorem execHbmQueueArrival_keeps {s t : State} (h : Keeps s t) (a0) (a1) : OutKeeps s (execHbmQueueArrival a0 a1 t) := by
  unfold execHbmQueueArrival
  repeat' first
    | with_reducible assumption | extract_lets | with_reducible apply outKeeps_next | with_reducible apply onHbm_keeps
    | with_reducible apply takeAccess_keeps | split | (dsimp +zetaDelta only) | intro _

theorem resetStep_keeps {s t : State} (h : Keeps s t) (a0) : Keeps s (resetStep a0 t) := by
  unfold resetStep
  repeat' first
    | with_reducible assumption | extract_lets | with_reducible apply onBolt_keeps | with_reducible apply onPresser_keeps
    | split | (dsimp +zetaDelta only) | exact fun _ hk => hk | exact fun _ hk => Mem.write_wf _ _ _ hk
    | exact fun _ hk => Mem.clearRange_wf _ _ _ hk | exact fun _ hk => map_ring hk fun _ => rfl
    | exact fun _ hk => map_scratch hk fun _ => rfl | exact fun _ hk => filter_scratch hk | exact fun _ _ => rfl
    | (intro _ hk; simpa using hk) | intro _

theorem bindPresser_keeps {s t : State} (h : Keeps s t) (k) : Keeps s (bindPresser k t) := by
  unfold bindPresser
  repeat' first
    | with_reducible assumption | extract_lets | with_reducible apply onPresser_keeps | with_reducible apply resetStep_keeps
    | (intro _ hh; exact hh)

theorem failShards_keeps {s t : State} (h : Keeps s t) (n status) : Keeps s (failShards n status t) := by
  unfold failShards
  repeat' first
    | with_reducible assumption | extract_lets | with_reducible apply each_keeps | with_reducible apply postCompletion_keeps
    | with_reducible apply endTransfer_keeps | intro _

theorem writePartial_keeps {s t : State} (h : Keeps s t) (a0) (a1) : Keeps s (writePartial a0 a1 t) := by
  unfold writePartial
  repeat' first
    | with_reducible assumption | extract_lets | with_reducible apply onPresser_keeps | with_reducible apply presserSat_keeps
    | with_reducible apply writeView_keeps | split | (dsimp +zetaDelta only) | intro _

theorem dropStale_keeps {s t : State} (h : Keeps s t) (k) : Keeps s (dropStale k t) := by
  unfold dropStale
  repeat' first
    | with_reducible assumption | extract_lets | with_reducible apply onPresser_keeps | (intro _ hh; exact hh)

theorem takeBlock_keeps {s t : State} (h : Keeps s t) (a0) (a1) (a2) : Keeps s (takeBlock a0 a1 a2 t) := by
  unfold takeBlock
  repeat' first
    | with_reducible assumption | extract_lets | with_reducible apply each_keeps | with_reducible apply onLin_keeps
    | with_reducible apply onPresser_keeps | with_reducible apply dropStale_keeps | with_reducible apply markStale_keeps
    | with_reducible apply violate_keeps | with_reducible apply writeView_keeps | split | (dsimp +zetaDelta only) | intro _

theorem writeStats_keeps {s t : State} (h : Keeps s t) (a0) (a1) (a2) (a3) (a4) : Keeps s (writeStats a0 a1 a2 a3 a4 t) := by
  unfold writeStats
  repeat' first
    | with_reducible assumption | extract_lets | with_reducible apply spendSlots_keeps | with_reducible apply writeView_keeps
    | split | (dsimp +zetaDelta only) | intro _

theorem writeAllStats_keeps {s t : State} (h : Keeps s t) (a0) (a1) : Keeps s (writeAllStats a0 a1 t) := by
  unfold writeAllStats
  repeat' first
    | with_reducible assumption | extract_lets | with_reducible apply each_keeps | with_reducible apply writeStats_keeps
    | split | (dsimp +zetaDelta only) | intro _

theorem voteLatch_keeps {s t : State} (h : Keeps s t) (n k) : Keeps s (voteLatch n t k) := by
  unfold voteLatch
  repeat' first
    | with_reducible assumption | extract_lets | with_reducible apply onPresser_keeps | with_reducible apply writeAllStats_keeps
    | (intro _ hh; exact hh) | split

theorem installImage_keeps {s t : State} (h : Keeps s t) (n img) : Keeps s (installImage n img t) := by
  unfold installImage
  repeat' first
    | with_reducible assumption | extract_lets | with_reducible apply failShards_keeps | with_reducible apply each_keeps
    | with_reducible apply onPresser_keeps | with_reducible apply onTrain_keeps | (intro _ hh; exact hh) | (dsimp +zetaDelta only)
    | intro _

theorem castVote_keeps {s t : State} (h : Keeps s t) (m) : Keeps s (castVote m t) := by
  unfold castVote
  repeat' first
    | with_reducible assumption | extract_lets | with_reducible apply pushVote_keeps | with_reducible apply onVote_keeps

theorem applyHeld_keeps {s t : State} (h : Keeps s t) (k n) : Keeps s (applyHeld k n t) := by
  unfold applyHeld
  repeat' first
    | with_reducible assumption | extract_lets | with_reducible apply onPresser_keeps | with_reducible apply each_keeps
    | with_reducible apply applyRecord_keeps | (intro _ hh; exact hh) | intro _

theorem stageImage_keeps {s t : State} (h : Keeps s t) (n img) : Keeps s (stageImage n img t) := by
  unfold stageImage
  repeat' first
    | with_reducible assumption | with_reducible apply installImage_keeps | with_reducible apply onTrain_keeps | split

theorem forwardRecord_keeps {s t : State} (h : Keeps s t) (k b) : Keeps s (forwardRecord k b t) := by
  unfold forwardRecord
  repeat' first
    | with_reducible assumption | extract_lets | with_reducible apply onPresser_keeps | (intro _ hh; exact hh) | split

theorem takeRecord_keeps {s t : State} (h : Keeps s t) (k n b) : Keeps s (takeRecord k n b t) := by
  unfold takeRecord
  repeat' first
    | with_reducible assumption | extract_lets | with_reducible apply dropStale_keeps | with_reducible apply violate_keeps
    | with_reducible apply forwardRecord_keeps | with_reducible apply markTaken_keeps | with_reducible apply acceptRecord_keeps
    | with_reducible apply setFlag_keeps | split | (dsimp +zetaDelta only)

theorem takeNext_keeps {s t : State} (h : Keeps s t) (k r) : Keeps s (takeNext k r t) := by
  unfold takeNext
  repeat' first
    | with_reducible assumption | extract_lets | with_reducible apply onPresser_keeps | (intro _ hh; exact hh)

theorem takeState_keeps {s t : State} (h : Keeps s t) (k n p) : Keeps s (takeState k n p t) := by
  unfold takeState
  repeat' first
    | with_reducible assumption | extract_lets | with_reducible apply markStale_keeps | with_reducible apply onTrain_keeps | split

theorem takeNorm_keeps {s t : State} (h : Keeps s t) (k n b) : Keeps s (takeNorm k n b t) := by
  unfold takeNorm
  repeat' first
    | with_reducible assumption | extract_lets | with_reducible apply dropStale_keeps | with_reducible apply setFlag_keeps
    | with_reducible apply onTrain_keeps | with_reducible apply onPresser_keeps | with_reducible apply applyHeld_keeps
    | (intro _ hh; exact hh) | split

theorem takeMirror_keeps {s t : State} (h : Keeps s t) (k n b) : Keeps s (takeMirror k n b t) := by
  unfold takeMirror
  repeat' first
    | with_reducible assumption | extract_lets | with_reducible apply dropStale_keeps | with_reducible apply markStale_keeps
    | with_reducible apply violate_keeps | with_reducible apply markTaken_keeps | with_reducible apply acceptRecord_keeps | split

theorem invertLive_keeps {s t : State} (h : Keeps s t) (d) : Keeps s (invertLive d t) := by
  unfold invertLive
  repeat' first
    | with_reducible assumption | with_reducible apply onRegion_keeps

theorem commitBanks_keeps {s t : State} (h : Keeps s t) (reslicing k) : Keeps s (commitBanks reslicing t k) := by
  unfold commitBanks
  repeat' first
    | with_reducible assumption | extract_lets | with_reducible apply presserSat_keeps | with_reducible apply onPresser_keeps
    | (intro _ hh; exact hh)

theorem commitViews_keeps {s t : State} (h : Keeps s t) (n) : Keeps s (commitViews n t) := by
  unfold commitViews
  repeat' first
    | with_reducible assumption | extract_lets | with_reducible apply onHbm_keeps | with_reducible apply each_keeps
    | with_reducible apply invertLive_keeps | with_reducible apply commitBanks_keeps | (intro _ hh; exact hh)
    | (dsimp +zetaDelta only) | intro _

theorem alterationDone_keeps {s t : State} (h : Keeps s t) (n phase old new) : Keeps s (alterationDone n phase old new t) := by
  unfold alterationDone
  repeat' first
    | with_reducible assumption | extract_lets | with_reducible apply post_keeps

theorem endReslice_keeps {s t : State} (h : Keeps s t) (n v) : Keeps s (endReslice n v t) := by
  unfold endReslice
  repeat' first
    | with_reducible assumption | extract_lets | with_reducible apply onTrain_keeps | with_reducible apply alterationDone_keeps
    | split

theorem applyVerdict_keeps {s t : State} (h : Keeps s t) (a0) (a1) : Keeps s (applyVerdict a0 a1 t) := by
  unfold applyVerdict
  repeat' first
    | with_reducible assumption | extract_lets | with_reducible apply each_keeps | with_reducible apply onBolt_keeps
    | with_reducible apply onColCtx_keeps | with_reducible apply onTrain_keeps | with_reducible apply closePhase_keeps
    | with_reducible apply commitViews_keeps | with_reducible apply dropVote_keeps | with_reducible apply endReslice_keeps
    | with_reducible apply failShards_keeps | with_reducible apply installImage_keeps | with_reducible apply liningCommit_keeps
    | with_reducible apply phaseFlag_keeps | with_reducible apply resetStep_keeps | split | (dsimp +zetaDelta only) | intro _

theorem rebuildEntry_keeps {s t : State} (h : Keeps s t) (a0) (a1) (a2) (a4) : Keeps s (rebuildEntry a0 a1 a2 t a4) := by
  unfold rebuildEntry
  repeat' first
    | with_reducible assumption | extract_lets | with_reducible apply each_keeps | with_reducible apply onBank_keeps
    | with_reducible apply presserSat_keeps | with_reducible apply viewFinds_keeps | with_reducible apply writeCopy_keeps
    | split | (dsimp +zetaDelta only) | intro _

theorem rebuildCopies_keeps {s t : State} (h : Keeps s t) (n) : Keeps s (rebuildCopies n t) := by
  unfold rebuildCopies
  repeat' first
    | with_reducible assumption | extract_lets | with_reducible apply each_keeps | with_reducible apply rebuildEntry_keeps | split
    | intro _

theorem readRebuild_keeps {s t : State} (h : Keeps s t) (a0) (a1) : Keeps s (readRebuild a0 a1 t) := by
  unfold readRebuild
  repeat' first
    | with_reducible assumption | extract_lets | with_reducible apply each_keeps | with_reducible apply onPresser_keeps
    | with_reducible apply onTrain_keeps | with_reducible apply complete_keeps | with_reducible apply meetQueues_keeps
    | with_reducible apply rebuildCopies_keeps | with_reducible apply refuse_keeps | split | (dsimp +zetaDelta only) | intro _

theorem readBegin_keeps {s t : State} (h : Keeps s t) (n d) : Keeps s (readBegin n d t) := by
  unfold readBegin
  repeat' first
    | with_reducible assumption | extract_lets | with_reducible apply refuse_keeps | with_reducible apply onTrain_keeps | split

theorem readAlter_keeps {s t : State} (h : Keeps s t) (n d) : Keeps s (readAlter n d t) := by
  unfold readAlter
  repeat' first
    | with_reducible assumption | with_reducible apply readBegin_keeps | with_reducible apply refuse_keeps | split

theorem beginVerdict_keeps {s t u : State} (h : Keeps s t) (n : Nat) (b : PendingBegin) (e : beginVerdict n b t = some u) :
    Keeps s u := by
  unfold beginVerdict at e
  extract_lets at e
  split at e
  · cases e
    exact onTrain_keeps (applyVerdict_keeps h _ _) _ _
  · split at e <;> cases e
    · exact h
    · exact applyVerdict_keeps h _ _

theorem withdrawEpoch_keeps {s t : State} (h : Keeps s t) (n) : Keeps s (withdrawEpoch n t) := by
  unfold withdrawEpoch
  repeat' first
    | with_reducible assumption | extract_lets | with_reducible apply each_keeps | with_reducible apply withdrawNow_keeps | split
    | (dsimp +zetaDelta only) | intro _

theorem newLayout_keeps {s t : State} (h : Keeps s t) (n b) : Keeps s (newLayout n b t) := by
  unfold newLayout
  repeat' first
    | with_reducible assumption | extract_lets | with_reducible apply onTrain_keeps | with_reducible apply onColCtx_keeps
    | with_reducible apply onCtx_keeps | with_reducible apply onLin_keeps | split

theorem applyBegin_keeps {s t : State} (h : Keeps s t) (n b) : Keeps s (applyBegin n b t) := by
  unfold applyBegin
  repeat' first
    | with_reducible assumption | extract_lets | with_reducible apply withdrawEpoch_keeps | with_reducible apply newLayout_keeps
    | with_reducible apply each_keeps | with_reducible apply resetStep_keeps | with_reducible apply complete_keeps
    | with_reducible apply alterationDone_keeps | intro _

theorem execBeginApply_keeps {s t : State} (h : Keeps s t) (n : Ctx) : OutKeeps s (execBeginApply n t) := by
  unfold execBeginApply
  split
  · exact outKeeps_next h
  · split
    · exact outKeeps_next h
    · split
      · exact outKeeps_next (applyBegin_keeps (beginVerdict_keeps h _ _ ‹_›) _ _)
      · exact outKeeps_next h

theorem execRebuild_keeps {s t : State} (h : Keeps s t) (n) : OutKeeps s (execRebuild n t) := by
  unfold execRebuild
  repeat' first
    | with_reducible assumption | extract_lets | with_reducible apply outKeeps_next | with_reducible apply onDescriptor_keeps
    | with_reducible apply readRebuild_keeps | intro _

theorem execRebuildDone_keeps {s t : State} (h : Keeps s t) (n) : OutKeeps s (execRebuildDone n t) := by
  unfold execRebuildDone
  repeat' first
    | with_reducible assumption | extract_lets | with_reducible apply outKeeps_next | with_reducible apply complete_keeps
    | with_reducible apply onTrain_keeps | split

theorem execBegin_keeps {s t : State} (h : Keeps s t) (n) : OutKeeps s (execBegin n t) := by
  unfold execBegin
  repeat' first
    | with_reducible assumption | extract_lets | with_reducible apply outKeeps_next | with_reducible apply onDescriptor_keeps
    | with_reducible apply readAlter_keeps | intro _

theorem boltResult_keeps {s t : State} (h : Keeps s t) (r) : Keeps s (boltResult r t) := by
  unfold boltResult
  repeat' first
    | with_reducible assumption | extract_lets | with_reducible apply onBolt_keeps | (intro _ hh; exact hh)

theorem boltDefine_keeps {s t : State} (h : Keeps s t) : Keeps s (boltDefine t) := by
  unfold boltDefine
  dsimp only
  split
  · exact boltResult_keeps h _
  · have hp := placeEvicting_keeps h (maskBands t.bolt.bandsLo t.bolt.bandsHi) (fld t.bolt.cfg 33 18 + 1) (bit t.bolt.cfg 16) 64
    split
    · exact boltResult_keeps (snd_keeps hp ‹_›) _
    · exact boltResult_keeps (onBolt_keeps (snd_keeps hp ‹_›) _ (by exact fun _ hh => hh)) _

theorem boltRelease_keeps {s t : State} (h : Keeps s t) : Keeps s (boltRelease t) := by
  unfold boltRelease
  repeat' first
    | with_reducible assumption | extract_lets | with_reducible apply boltResult_keeps | with_reducible apply freeRegion_keeps
    | split

theorem writeBltCmd_keeps {s t : State} (h : Keeps s t) (v) : Keeps s (writeBltCmd v t) := by
  unfold writeBltCmd
  repeat' first
    | with_reducible assumption | extract_lets | with_reducible apply violate_keeps | with_reducible apply boltDefine_keeps
    | with_reducible apply boltRelease_keeps | split | (dsimp +zetaDelta only)

theorem stampSlots_keeps {s t : State} (h : Keeps s t) (used) : Keeps s (stampSlots used t) := by
  unfold stampSlots
  repeat' first
    | with_reducible assumption | extract_lets | with_reducible apply onBolt_keeps | (intro _ hh; exact hh)

theorem scrubBolt_keeps {s t : State} (h : Keeps s t) (panel before f) : Keeps s (scrubBolt panel before f t) := by
  unfold scrubBolt
  repeat' first
    | with_reducible assumption | extract_lets | with_reducible apply onBolt_keeps | with_reducible apply boltRepair_keeps
    | with_reducible apply boltUncorrectable_keeps | (intro _ hh; exact hh) | split | (dsimp +zetaDelta only)

theorem execBoltScrubLap_keeps {s t : State} (h : Keeps s t) (panel length found) :
    OutKeeps s (execBoltScrubLap panel length found t) := by
  unfold execBoltScrubLap
  repeat' first
    | with_reducible assumption | extract_lets | with_reducible apply outKeeps_next | with_reducible apply onBolt_keeps
    | with_reducible apply each_keeps | with_reducible apply scrubBolt_keeps | with_reducible apply post_keeps
    | (intro _ hh; exact hh) | split | (dsimp +zetaDelta only) | intro _

theorem execBoltWriteBack_keeps {s t : State} (h : Keeps s t) (a0) (a1) : OutKeeps s (execBoltWriteBack a0 a1 t) := by
  unfold execBoltWriteBack
  repeat' first
    | with_reducible assumption | extract_lets | with_reducible apply outKeeps_next
    | with_reducible apply writeBackOldest_keeps | split | (dsimp +zetaDelta only) | intro _

theorem execBltDefine_keeps {s t : State} (h : Keeps s t) (value) : OutKeeps s (execBltDefine value t) := by
  unfold execBltDefine
  repeat' first
    | with_reducible assumption | extract_lets | with_reducible apply outKeeps_next | with_reducible apply bar0Write_keeps
    | with_reducible apply writeBltCmd_keeps | intro _

theorem execBltRelease_keeps {s t : State} (h : Keeps s t) (value) : OutKeeps s (execBltRelease value t) := by
  unfold execBltRelease
  repeat' first
    | with_reducible assumption | extract_lets | with_reducible apply outKeeps_next | with_reducible apply bar0Write_keeps
    | with_reducible apply writeBltCmd_keeps | intro _

theorem execRegionLoaded_keeps {s t : State} (h : Keeps s t) (a0) : OutKeeps s (execRegionLoaded a0 t) := by
  unfold execRegionLoaded
  repeat' first
    | with_reducible assumption | extract_lets | with_reducible apply outKeeps_next
    | with_reducible apply fillFromBacking_keeps | with_reducible apply meetQueues_keeps | with_reducible apply onRegion_keeps
    | split | (dsimp +zetaDelta only) | intro _

theorem execRegionWrittenBack_keeps {s t : State} (h : Keeps s t) (a0) : OutKeeps s (execRegionWrittenBack a0 t) := by
  unfold execRegionWrittenBack
  repeat' first
    | with_reducible assumption | extract_lets | with_reducible apply outKeeps_next | with_reducible apply meetQueues_keeps
    | with_reducible apply onRegion_keeps | with_reducible apply writeBacking_keeps | split | (dsimp +zetaDelta only) | intro _

theorem execScrubStarvation_keeps {s t : State} (h : Keeps s t) (panel) : OutKeeps s (execScrubStarvation panel t) := by
  unfold execScrubStarvation
  repeat' first
    | with_reducible assumption | extract_lets | with_reducible apply outKeeps_next | with_reducible apply onBolt_keeps
    | with_reducible apply logGeneral_keeps | (intro _ hh; exact hh) | split

theorem creditApply_keeps {s t : State} (h : Keeps s t) (n) : Keeps s (creditApply n t) := by
  unfold creditApply
  repeat' first
    | with_reducible assumption | with_reducible apply onColCtx_keeps

theorem execAbort_keeps {s t : State} (h : Keeps s t) (port m) : OutKeeps s (execAbort port m t) := by
  unfold execAbort
  repeat' first
    | with_reducible assumption | extract_lets | with_reducible apply outKeeps_next | with_reducible apply receiveAbort_keeps

theorem writeColAbort_keeps {s t : State} (h : Keeps s t) (v) : Keeps s (writeColAbort v t) := by
  unfold writeColAbort
  repeat' first
    | with_reducible assumption | extract_lets | with_reducible apply violate_keeps | with_reducible apply originateAbort_keeps
    | split | (dsimp +zetaDelta only)

theorem execAbortSend_keeps {s t : State} (h : Keeps s t) (value) : OutKeeps s (execAbortSend value t) := by
  unfold execAbortSend
  repeat' first
    | with_reducible assumption | extract_lets | with_reducible apply outKeeps_next | with_reducible apply bar0Write_keeps
    | with_reducible apply writeColAbort_keeps | intro _

theorem unsentDiscard_keeps {s t : State} (h : Keeps s t) (m) : Keeps s (unsentDiscard m t) := by
  unfold unsentDiscard
  repeat' first
    | with_reducible assumption | extract_lets | with_reducible apply onPort_keeps | with_reducible apply discardStreams_keeps

theorem seqAdvance_keeps {s t : State} (h : Keeps s t) (n) : Keeps s (seqAdvance n t) := by
  unfold seqAdvance
  repeat' first
    | with_reducible assumption | with_reducible apply onColCtx_keeps

theorem creditCheck_keeps {s t : State} (h : Keeps s t) (n) : Keeps s (creditCheck n t) := by
  unfold creditCheck
  repeat' first
    | with_reducible assumption | extract_lets | with_reducible apply each_keeps | with_reducible apply declareFault_keeps | split
    | (dsimp +zetaDelta only) | intro _

theorem writeColBook_keeps {s t : State} (h : Keeps s t) (n v) : Keeps s (writeColBook n v t) := by
  unfold writeColBook
  repeat' first
    | with_reducible assumption | extract_lets | with_reducible apply violate_keeps | with_reducible apply onColCtx_keeps | split
    | (dsimp +zetaDelta only)

theorem execPeakClr_keeps {s t : State} (h : Keeps s t) (n value) : OutKeeps s (execPeakClr n value t) := by
  unfold execPeakClr
  repeat' first
    | with_reducible assumption | extract_lets | with_reducible apply outKeeps_next | with_reducible apply bar0Write_keeps
    | with_reducible apply writeColBook_keeps | intro _

theorem writeColCredit_keeps {s t : State} (h : Keeps s t) (n v) : Keeps s (writeColCredit n v t) := by
  unfold writeColCredit
  repeat' first
    | with_reducible assumption | extract_lets | with_reducible apply violate_keeps | with_reducible apply onColCtx_keeps | split

theorem execColCreditWrite_keeps {s t : State} (h : Keeps s t) (n value) : OutKeeps s (execColCreditWrite n value t) := by
  unfold execColCreditWrite
  repeat' first
    | with_reducible assumption | extract_lets | with_reducible apply outKeeps_next | with_reducible apply bar0Write_keeps
    | with_reducible apply writeColCredit_keeps | intro _

theorem writeColSeq_keeps {s t : State} (h : Keeps s t) (n v value) : Keeps s (writeColSeq n v value t) := by
  unfold writeColSeq
  repeat' first
    | with_reducible assumption | extract_lets | with_reducible apply violate_keeps | with_reducible apply onColCtx_keeps | split

theorem execAbortedEnd_keeps {s t : State} (h : Keeps s t) (n) : OutKeeps s (execAbortedEnd n t) := by
  unfold execAbortedEnd
  repeat' first
    | with_reducible assumption | extract_lets | with_reducible apply outKeeps_next | with_reducible apply onColCtx_keeps | split

theorem execAbortKeyExpiry_keeps {s t : State} (h : Keeps s t) : OutKeeps s (execAbortKeyExpiry t) := by
  unfold execAbortKeyExpiry
  repeat' first
    | with_reducible assumption | extract_lets | with_reducible apply outKeeps_next | with_reducible apply onCol_keeps

theorem execColSeqWrite_keeps {s t : State} (h : Keeps s t) (n v value) : OutKeeps s (execColSeqWrite n v value t) := by
  unfold execColSeqWrite
  repeat' first
    | with_reducible assumption | extract_lets | with_reducible apply outKeeps_next | with_reducible apply bar0Write_keeps
    | with_reducible apply writeColSeq_keeps | intro _

theorem drainStage_keeps {s : State} {acc : State × List StageWrite} (h : Keeps s acc.1) (w) : Keeps s (drainStage acc w).1 := by
  obtain ⟨t, rest⟩ := acc
  unfold drainStage
  change Keeps s t at h
  dsimp only
  split
  · exact h
  · split
    · exact h
    · split
      · exact h
      · dsimp only
        refine onRegion_keeps (onBolt_keeps (each_keeps h _ _ fun _ _ hu => ?_) _ ?_) _ _
        · exact stageRun_keeps hu _ _ _ _
        · exact fun _ hh => hh

theorem drainStages_keeps {s : State} (l : List StageWrite) {acc : State × List StageWrite} (h : Keeps s acc.1) :
    Keeps s (l.foldl drainStage acc).1 := by
  induction l generalizing acc with
  | nil => exact h
  | cons w l ih => exact ih (drainStage_keeps h w)

theorem drainStaging_keeps {s t : State} (h : Keeps s t) : Keeps s (drainStaging t) := by
  unfold drainStaging
  dsimp only
  refine onBolt_keeps (drainStages_keeps t.bolt.waiting (acc := (t, [])) h) _ ?_
  exact fun _ hh => hh

theorem portHeld_keeps {s t : State} (h : Keeps s t) (a0) : Keeps s (portHeld a0 t) := by
  unfold portHeld
  repeat' first
    | with_reducible assumption | extract_lets | with_reducible apply onPort_keeps | with_reducible apply fenceBoundary_keeps
    | with_reducible apply unsentDiscard_keeps | split | (dsimp +zetaDelta only) | intro _
    | (intro _ hh; first | exact hh | exact Mem.write_wf _ _ _ hh | exact Mem.clearRange_wf _ _ _ hh)

theorem boltCycles_keeps {s t : State} (h : Keeps s t) : Keeps s (boltCycles t) := by
  unfold boltCycles
  repeat' first
    | with_reducible assumption | extract_lets | with_reducible apply onBolt_keeps | with_reducible apply coverSegments_keeps
    | with_reducible apply drainStaging_keeps | with_reducible apply flushWriteBacks_keeps | split | (dsimp +zetaDelta only)
    | intro _ | (intro _ hh; first | exact hh | exact Mem.write_wf _ _ _ hh | exact Mem.clearRange_wf _ _ _ hh)

end Sys2Proof.Machine
end

