-- ==== Sys2Proof/Laws/KeepsMgmt.lean ====
section
/-! SUPPORT. Each operation and each meaning keeps what no command touches (Keeps, Safety.lean): faults, the Thimble, the lining and the contexts. -/

namespace Sys2Proof.Machine

theorem execDeviceResetDone_keeps {s t : State} (h : Keeps s t) (a0) : OutKeeps s (execDeviceResetDone a0 t) := by
  unfold execDeviceResetDone
  repeat' first
    | with_reducible assumption | extract_lets | with_reducible apply outKeeps_next | with_reducible apply finishReset_keeps
    | with_reducible apply trainLinks_keeps | split | (dsimp +zetaDelta only) | intro _

theorem execBandOn_keeps {s t : State} (h : Keeps s t) (g) : OutKeeps s (execBandOn g t) := by
  unfold execBandOn
  repeat' first
    | with_reducible assumption | extract_lets | with_reducible apply outKeeps_next | with_reducible apply bandBecomesOn_keeps
    | split

theorem startPowerOn_keeps {s t : State} (h : Keeps s t) : Keeps s (startPowerOn t) := by
  unfold startPowerOn
  repeat' first
    | with_reducible assumption | extract_lets | with_reducible apply applyFuses_keeps | with_reducible apply boot_keeps
    | with_reducible apply powerOnClear_keeps | with_reducible apply each_keeps | with_reducible apply onPort_keeps
    | with_reducible apply startTraining_keeps | intro _

theorem execPowerOn_keeps {s t : State} (h : Keeps s t) : OutKeeps s (execPowerOn t) := by
  unfold execPowerOn
  repeat' first
    | with_reducible assumption | extract_lets | with_reducible apply outKeeps_next | with_reducible apply startPowerOn_keeps

theorem execUnitResetDone_keeps {s t : State} (h : Keeps s t) (ok) : OutKeeps s (execUnitResetDone ok t) := by
  unfold execUnitResetDone
  repeat' first
    | with_reducible assumption | extract_lets | with_reducible apply outKeeps_next | with_reducible apply endUnitReset_keeps
    | split

theorem writeFltViol_keeps {s t : State} (h : Keeps s t) (n v) : Keeps s (writeFltViol n v t) := by
  unfold writeFltViol
  repeat' first
    | with_reducible assumption | extract_lets | with_reducible apply onFlt_keeps | with_reducible apply violate_keeps | split
    | (dsimp +zetaDelta only)

theorem execFltViolClr_keeps {s t : State} (h : Keeps s t) (n value) : OutKeeps s (execFltViolClr n value t) := by
  unfold execFltViolClr
  repeat' first
    | with_reducible assumption | extract_lets | with_reducible apply outKeeps_next | with_reducible apply writeFltViol_keeps

theorem execPowerUp_keeps {s t : State} (h : Keeps s t) (g value) : OutKeeps s (execPowerUp g value t) := by
  unfold execPowerUp
  repeat' first
    | with_reducible assumption | extract_lets | with_reducible apply outKeeps_next | with_reducible apply writeFltBand_keeps

theorem sampleOne_keeps {s t : State} (h : Keeps s t) (moved a1) : Keeps s (sampleOne moved a1 t) := by
  unfold sampleOne
  repeat' first
    | with_reducible assumption | extract_lets | with_reducible apply onFlt_keeps | with_reducible apply declareFault_keeps
    | with_reducible apply postRecord_keeps | with_reducible apply logGeneral_keeps | split

theorem execInputReturn_keeps {s t : State} (h : Keeps s t) : OutKeeps s (execInputReturn t) := by
  unfold execInputReturn
  repeat' first
    | with_reducible assumption | extract_lets | with_reducible apply outKeeps_next | with_reducible apply startPowerOn_keeps
    | split

theorem execPowerOnDone_keeps {s t : State} (h : Keeps s t) (a0) : OutKeeps s (execPowerOnDone a0 t) := by
  unfold execPowerOnDone
  repeat' first
    | with_reducible assumption | extract_lets | with_reducible apply outKeeps_next | with_reducible apply finishReset_keeps
    | with_reducible apply trainLinks_keeps | split | (dsimp +zetaDelta only) | intro _

theorem execPcieLoopback_keeps {s t : State} (h : Keeps s t) (p) : OutKeeps s (execPcieLoopback p t) := by
  unfold execPcieLoopback
  repeat' first
    | with_reducible assumption | extract_lets | with_reducible apply outKeeps_next | with_reducible apply onPower_keeps | split

theorem supplyTrip_keeps {s t : State} (h : Keeps s t) (rail mv) : Keeps s (supplyTrip rail mv t) := by
  unfold supplyTrip
  repeat' first
    | with_reducible assumption | extract_lets | with_reducible apply onPower_keeps | with_reducible apply declareFault_keeps
    | split

theorem execInputLoss_keeps {s t : State} (h : Keeps s t) (mv) : OutKeeps s (execInputLoss mv t) := by
  unfold execInputLoss
  repeat' first
    | with_reducible assumption | extract_lets | with_reducible apply outKeeps_next | with_reducible apply supplyTrip_keeps
    | with_reducible apply onPower_keeps | with_reducible apply onFlt_keeps | split | (dsimp +zetaDelta only)

theorem execPanelThermal_keeps {s t : State} (h : Keeps s t) (sensor) : OutKeeps s (execPanelThermal sensor t) := by
  unfold execPanelThermal
  repeat' first
    | with_reducible assumption | extract_lets | with_reducible apply outKeeps_next | with_reducible apply declareFault_keeps
    | split

theorem stopTestForThimble_keeps {s t : State} (h : Keeps s t) : Keeps s (stopTestForThimble t) := by
  unfold stopTestForThimble
  repeat' first
    | with_reducible assumption | with_reducible apply onTst_keeps | split

theorem thimbleRestart_keeps {s t : State} (h : Keeps s t) : Keeps s (thimbleRestart t) := by
  unfold thimbleRestart
  repeat' first
    | with_reducible assumption | extract_lets | with_reducible apply onThm_keeps | with_reducible apply stopTestForThimble_keeps
    | with_reducible apply logCritical_keeps | with_reducible apply triggerReset_keeps | split

theorem execThimbleRestart_keeps {s t : State} (h : Keeps s t) : OutKeeps s (execThimbleRestart t) := by
  unfold execThimbleRestart
  repeat' first
    | with_reducible assumption | extract_lets | with_reducible apply outKeeps_next | with_reducible apply thimbleRestart_keeps
    | split

theorem execClockLost_keeps {s t : State} (h : Keeps s t) (domain) : OutKeeps s (execClockLost domain t) := by
  unfold execClockLost
  repeat' first
    | with_reducible assumption | extract_lets | with_reducible apply outKeeps_next | with_reducible apply onThm_keeps
    | with_reducible apply declareFault_keeps | with_reducible apply each_keeps | with_reducible apply losePort_keeps
    | with_reducible apply stopTestForThimble_keeps | split | intro _

theorem execSupply_keeps {s t : State} (h : Keeps s t) (rail mv) : OutKeeps s (execSupply rail mv t) := by
  unfold execSupply
  repeat' first
    | with_reducible assumption | extract_lets | with_reducible apply outKeeps_next | with_reducible apply supplyTrip_keeps
    | split

theorem resetDomains_keeps {s t : State} (h : Keeps s t) : Keeps s (resetDomains t) := by
  unfold resetDomains
  repeat' first
    | with_reducible assumption | extract_lets | with_reducible apply each_keeps | with_reducible apply onFlt_keeps
    | with_reducible apply onPort_keeps | with_reducible apply applyFuses_keeps | with_reducible apply boot_keeps
    | with_reducible apply deviceClear_keeps | with_reducible apply retrain_keeps | split | (dsimp +zetaDelta only) | intro _

theorem execPowerDown_keeps {s t : State} (h : Keeps s t) (g value) : OutKeeps s (execPowerDown g value t) := by
  unfold execPowerDown
  repeat' first
    | with_reducible assumption | extract_lets | with_reducible apply outKeeps_next | with_reducible apply writeFltBand_keeps

theorem execThimbleRestartDone_keeps {s t : State} (h : Keeps s t) : OutKeeps s (execThimbleRestartDone t) := by
  unfold execThimbleRestartDone
  repeat' first
    | with_reducible assumption | extract_lets | with_reducible apply outKeeps_next | with_reducible apply boot_keeps
    | with_reducible apply onThm_keeps | with_reducible apply onFlt_keeps | with_reducible apply each_keeps
    | with_reducible apply postRecord_keeps | split | intro _

theorem execHeartbeatSample_keeps {s t : State} (h : Keeps s t) (a0) : OutKeeps s (execHeartbeatSample a0 t) := by
  unfold execHeartbeatSample
  repeat' first
    | with_reducible assumption | extract_lets | with_reducible apply outKeeps_next | with_reducible apply each_keeps
    | with_reducible apply onFlt_keeps | with_reducible apply sampleOne_keeps | split | (dsimp +zetaDelta only) | intro _

theorem execResetHoldEnd_keeps {s t : State} (h : Keeps s t) : OutKeeps s (execResetHoldEnd t) := by
  unfold execResetHoldEnd
  repeat' first
    | with_reducible assumption | extract_lets | with_reducible apply outKeeps_next | with_reducible apply onFlt_keeps
    | with_reducible apply resetDomains_keeps | split

theorem execDeviceReset_keeps {s t : State} (h : Keeps s t) (value) : OutKeeps s (execDeviceReset value t) := by
  unfold execDeviceReset
  repeat' first
    | with_reducible assumption | extract_lets | with_reducible apply outKeeps_next | with_reducible apply writeFltReset_keeps

theorem execUnitReset_keeps {s t : State} (h : Keeps s t) (value) : OutKeeps s (execUnitReset value t) := by
  unfold execUnitReset
  repeat' first
    | with_reducible assumption | extract_lets | with_reducible apply outKeeps_next | with_reducible apply writeFltReset_keeps

theorem execBandDomainOff_keeps {s t : State} (h : Keeps s t) (g) : OutKeeps s (execBandDomainOff g t) := by
  unfold execBandDomainOff
  repeat' first
    | with_reducible assumption | extract_lets | with_reducible apply outKeeps_next | with_reducible apply onBand_keeps
    | with_reducible apply clearBand_keeps | with_reducible apply disownTorn_keeps | split

theorem execDropsClr_keeps {s t : State} (h : Keeps s t) (g value) : OutKeeps s (execDropsClr g value t) := by
  unfold execDropsClr
  repeat' first
    | with_reducible assumption | extract_lets | with_reducible apply outKeeps_next | with_reducible apply writeFltBand_keeps

theorem execHotReset_keeps {s t : State} (h : Keeps s t) (k) : OutKeeps s (execHotReset k t) := by
  unfold execHotReset
  repeat' first
    | with_reducible assumption | extract_lets | with_reducible apply outKeeps_next | with_reducible apply requestReset_keeps
    | split

theorem execClockReturn_keeps {s t : State} (h : Keeps s t) (domain) : OutKeeps s (execClockReturn domain t) := by
  unfold execClockReturn
  repeat' first
    | with_reducible assumption | extract_lets | with_reducible apply outKeeps_next | with_reducible apply onThm_keeps
    | with_reducible apply thimbleRestart_keeps | split

theorem execPcieLoopbackExit_keeps {s t : State} (h : Keeps s t) (p) : OutKeeps s (execPcieLoopbackExit p t) := by
  unfold execPcieLoopbackExit
  repeat' first
    | with_reducible assumption | extract_lets | with_reducible apply outKeeps_next | with_reducible apply onPower_keeps | split

theorem execPubkeyList_keeps {s t : State} (h : Keeps s t) (value) : OutKeeps s (execPubkeyList value t) := by
  unfold execPubkeyList
  repeat' first
    | with_reducible assumption | extract_lets | with_reducible apply outKeeps_next | with_reducible apply mboxCommand_keeps

theorem execFuseAdd_keeps {s t : State} (h : Keeps s t) (value) : OutKeeps s (execFuseAdd value t) := by
  unfold execFuseAdd
  repeat' first
    | with_reducible assumption | extract_lets | with_reducible apply outKeeps_next | with_reducible apply mboxCommand_keeps

theorem execSensorSnapshot_keeps {s t : State} (h : Keeps s t) (value) : OutKeeps s (execSensorSnapshot value t) := by
  unfold execSensorSnapshot
  repeat' first
    | with_reducible assumption | extract_lets | with_reducible apply outKeeps_next | with_reducible apply mboxCommand_keeps

theorem answer_keeps {s t : State} (h : Keeps s t) (a0 inRecovery code parts) : Keeps s (answer a0 inRecovery code parts t) := by
  unfold answer
  repeat' first
    | with_reducible assumption | with_reducible apply emit_keeps | split

theorem execSensorReading_keeps {s t : State} (h : Keeps s t) (a0 sensorId) : OutKeeps s (execSensorReading a0 sensorId t) := by
  unfold execSensorReading
  repeat' first
    | with_reducible assumption | extract_lets | with_reducible apply outKeeps_next | with_reducible apply answer_keeps

theorem execPdrRepository_keeps {s t : State} (h : Keeps s t) (a0) : OutKeeps s (execPdrRepository a0 t) := by
  unfold execPdrRepository
  repeat' first
    | with_reducible assumption | extract_lets | with_reducible apply outKeeps_next | with_reducible apply answer_keeps

theorem execSetEventReceiver_keeps {s t : State} (h : Keeps s t) (a0 receiver enable) :
    OutKeeps s (execSetEventReceiver a0 receiver enable t) := by
  unfold execSetEventReceiver
  repeat' first
    | with_reducible assumption | extract_lets | with_reducible apply outKeeps_next | with_reducible apply answer_keeps
    | with_reducible apply onThm_keeps | split

theorem execKeyRemovalDone_keeps {s t : State} (h : Keeps s t) (slot) : OutKeeps s (execKeyRemovalDone slot t) := by
  unfold execKeyRemovalDone
  repeat' first
    | with_reducible assumption | extract_lets | with_reducible apply outKeeps_next | with_reducible apply onThm_keeps
    | with_reducible apply removeKey_keeps | with_reducible apply mboxDone_keeps | split

theorem execGetPldmCommands_keeps {s t : State} (h : Keeps s t) (a0 pldmType) :
    OutKeeps s (execGetPldmCommands a0 pldmType t) := by
  unfold execGetPldmCommands
  repeat' first
    | with_reducible assumption | extract_lets | with_reducible apply outKeeps_next | with_reducible apply answer_keeps

theorem execKeyExchange_keeps {s t : State} (h : Keeps s t) (a0) : OutKeeps s (execKeyExchange a0 t) := by
  unfold execKeyExchange
  repeat' first
    | with_reducible assumption | extract_lets | with_reducible apply outKeeps_next | with_reducible apply answer_keeps

theorem execGetFirmwareParameters_keeps {s t : State} (h : Keeps s t) (a0) : OutKeeps s (execGetFirmwareParameters a0 t) := by
  unfold execGetFirmwareParameters
  repeat' first
    | with_reducible assumption | extract_lets | with_reducible apply outKeeps_next | with_reducible apply answer_keeps

theorem writeSensorSel_keeps {s t : State} (h : Keeps s t) (v) : Keeps s (writeSensorSel v t) := by
  unfold writeSensorSel
  repeat' first
    | with_reducible assumption | extract_lets | with_reducible apply violate_keeps | with_reducible apply onThm_keeps | split
    | (dsimp +zetaDelta only)

theorem execFuseClear_keeps {s t : State} (h : Keeps s t) (value) : OutKeeps s (execFuseClear value t) := by
  unfold execFuseClear
  repeat' first
    | with_reducible assumption | extract_lets | with_reducible apply outKeeps_next | with_reducible apply mboxCommand_keeps

theorem execStoreCommitDone_keeps {s t : State} (h : Keeps s t) : OutKeeps s (execStoreCommitDone t) := by
  unfold execStoreCommitDone
  repeat' first
    | with_reducible assumption | extract_lets | with_reducible apply outKeeps_next | with_reducible apply onThm_keeps
    | with_reducible apply emit_keeps | with_reducible apply onLin_keeps | split

theorem oemAnswer_keeps {s t : State} (h : Keeps s t) (x : Transport) (code : Nat) (f : State → Nat × List Byte × State)
    (hf : ∀ u, Keeps s u → Keeps s (f u).2.2) : Keeps s (oemAnswer x code f t) := by
  unfold oemAnswer
  split
  · exact emit_keeps h _
  · split
    · exact emit_keeps h _
    · exact emit_keeps (hf _ h) _

theorem execOemDeviceReset_keeps {s t : State} (h : Keeps s t) (a0) : OutKeeps s (execOemDeviceReset a0 t) := by
  unfold execOemDeviceReset
  repeat' first
    | with_reducible assumption | extract_lets | with_reducible apply outKeeps_next | with_reducible apply oemAnswer_keeps
    | with_reducible apply requestReset_keeps | (dsimp +zetaDelta only) | intro _

theorem execPubkeyAdd_keeps {s t : State} (h : Keeps s t) (value) : OutKeeps s (execPubkeyAdd value t) := by
  unfold execPubkeyAdd
  repeat' first
    | with_reducible assumption | extract_lets | with_reducible apply outKeeps_next | with_reducible apply mboxCommand_keeps

theorem managePanel_keeps {s t : State} (h : Keeps s t) (a0 p) : Keeps s (managePanel a0 p t) := by
  unfold managePanel
  repeat' first
    | with_reducible assumption | extract_lets | with_reducible apply onThm_keeps | with_reducible apply platformEvent_keeps
    | with_reducible apply logGeneral_keeps | split

theorem execPanelSensorRead_keeps {s t : State} (h : Keeps s t) (readings) : OutKeeps s (execPanelSensorRead readings t) := by
  unfold execPanelSensorRead
  repeat' first
    | with_reducible assumption | extract_lets | with_reducible apply outKeeps_next | with_reducible apply each_keeps
    | with_reducible apply takeReading_keeps | with_reducible apply managePanel_keeps | split | (dsimp +zetaDelta only) | intro _

theorem execChallenge_keeps {s t : State} (h : Keeps s t) (a0 slot nonce) : OutKeeps s (execChallenge a0 slot nonce t) := by
  unfold execChallenge
  repeat' first
    | with_reducible assumption | extract_lets | with_reducible apply outKeeps_next | with_reducible apply answer_keeps

theorem oemFuseRun_keeps {s t : State} (h : Keeps s t) (op : FuseOp) : Keeps s (oemFuseRun op t).2.2 := by
  unfold oemFuseRun
  split
  · split
    · exact h
    · exact addFuse_keeps h _ _
  · split <;> exact h
  · split
    · exact h
    · exact clearFuses_keeps h _

theorem execOemFuse_keeps {s t : State} (h : Keeps s t) (a0 op) : OutKeeps s (execOemFuse a0 op t) := by
  unfold execOemFuse
  repeat' first
    | with_reducible assumption | extract_lets | with_reducible apply outKeeps_next | with_reducible apply oemAnswer_keeps
    | with_reducible apply oemFuseRun_keeps | intro _

theorem execClearCritical_keeps {s t : State} (h : Keeps s t) (value) : OutKeeps s (execClearCritical value t) := by
  unfold execClearCritical
  repeat' first
    | with_reducible assumption | extract_lets | with_reducible apply outKeeps_next | with_reducible apply mboxCommand_keeps

theorem oemPubkeyRun_keeps {s t : State} (h : Keeps s t) (op : PubkeyOp) : Keeps s (oemPubkeyRun op t).2.2 := by
  unfold oemPubkeyRun
  split
  · exact addKey_keeps h _
  · exact h
  · split
    · exact h
    · split
      · dsimp only
        exact onThm_keeps h _
      · exact removeKey_keeps h _

theorem execMctpControl_keeps {s t : State} (h : Keeps s t) (a0 command eid) : OutKeeps s (execMctpControl a0 command eid t) := by
  unfold execMctpControl
  repeat' first
    | with_reducible assumption | extract_lets | with_reducible apply outKeeps_next | with_reducible apply onThm_keeps
    | with_reducible apply answer_keeps | split | (dsimp +zetaDelta only)

theorem execPldmHeartbeat_keeps {s t : State} (h : Keeps s t) : OutKeeps s (execPldmHeartbeat t) := by
  unfold execPldmHeartbeat
  repeat' first
    | with_reducible assumption | extract_lets | with_reducible apply outKeeps_next | with_reducible apply emit_keeps | split

theorem execActivateFirmware_keeps {s t : State} (h : Keeps s t) (a0) : OutKeeps s (execActivateFirmware a0 t) := by
  unfold execActivateFirmware
  repeat' first
    | with_reducible assumption | extract_lets | with_reducible apply outKeeps_next | with_reducible apply answer_keeps
    | with_reducible apply onThm_keeps | with_reducible apply logCritical_keeps | split

theorem execIdentity_keeps {s t : State} (h : Keeps s t) (value) : OutKeeps s (execIdentity value t) := by
  unfold execIdentity
  repeat' first
    | with_reducible assumption | extract_lets | with_reducible apply outKeeps_next | with_reducible apply mboxCommand_keeps

theorem execFruRecord_keeps {s t : State} (h : Keeps s t) (a0) : OutKeeps s (execFruRecord a0 t) := by
  unfold execFruRecord
  repeat' first
    | with_reducible assumption | extract_lets | with_reducible apply outKeeps_next | with_reducible apply answer_keeps

theorem execGetDigests_keeps {s t : State} (h : Keeps s t) (a0) : OutKeeps s (execGetDigests a0 t) := by
  unfold execGetDigests
  repeat' first
    | with_reducible assumption | extract_lets | with_reducible apply outKeeps_next | with_reducible apply answer_keeps

theorem execGetPldmTypes_keeps {s t : State} (h : Keeps s t) (a0) : OutKeeps s (execGetPldmTypes a0 t) := by
  unfold execGetPldmTypes
  repeat' first
    | with_reducible assumption | extract_lets | with_reducible apply outKeeps_next | with_reducible apply answer_keeps

theorem execGetCertificate_keeps {s t : State} (h : Keeps s t) (a0 slot offset length) :
    OutKeeps s (execGetCertificate a0 slot offset length t) := by
  unfold execGetCertificate
  repeat' first
    | with_reducible assumption | extract_lets | with_reducible apply outKeeps_next | with_reducible apply answer_keeps

theorem execOemPubkey_keeps {s t : State} (h : Keeps s t) (a0 op) : OutKeeps s (execOemPubkey a0 op t) := by
  unfold execOemPubkey
  repeat' first
    | with_reducible assumption | extract_lets | with_reducible apply outKeeps_next | with_reducible apply oemAnswer_keeps
    | with_reducible apply oemPubkeyRun_keeps | intro _

theorem execTrialTimeout_keeps {s t : State} (h : Keeps s t) : OutKeeps s (execTrialTimeout t) := by
  unfold execTrialTimeout
  repeat' first
    | with_reducible assumption | extract_lets | with_reducible apply outKeeps_next | with_reducible apply abandonTrial_keeps
    | with_reducible apply revertReset_keeps | split | (dsimp +zetaDelta only) | intro _

theorem execLogRead_keeps {s t : State} (h : Keeps s t) (value) : OutKeeps s (execLogRead value t) := by
  unfold execLogRead
  repeat' first
    | with_reducible assumption | extract_lets | with_reducible apply outKeeps_next | with_reducible apply mboxCommand_keeps

theorem execPubkeyRemove_keeps {s t : State} (h : Keeps s t) (value) : OutKeeps s (execPubkeyRemove value t) := by
  unfold execPubkeyRemove
  repeat' first
    | with_reducible assumption | extract_lets | with_reducible apply outKeeps_next | with_reducible apply mboxCommand_keeps

theorem execFuseRead_keeps {s t : State} (h : Keeps s t) (value) : OutKeeps s (execFuseRead value t) := by
  unfold execFuseRead
  repeat' first
    | with_reducible assumption | extract_lets | with_reducible apply outKeeps_next | with_reducible apply mboxCommand_keeps

theorem execSensorMaxClr_keeps {s t : State} (h : Keeps s t) (value) : OutKeeps s (execSensorMaxClr value t) := by
  unfold execSensorMaxClr
  repeat' first
    | with_reducible assumption | extract_lets | with_reducible apply outKeeps_next | with_reducible apply writeSensorSel_keeps

theorem execOemLogRead_keeps {s t : State} (h : Keeps s t) (a0 seq) : OutKeeps s (execOemLogRead a0 seq t) := by
  unfold execOemLogRead
  repeat' first
    | with_reducible assumption | extract_lets | with_reducible apply outKeeps_next | with_reducible apply oemAnswer_keeps
    | (intro _ hh; exact hh)

theorem execDomainState_keeps {s t : State} (h : Keeps s t) (a0) : OutKeeps s (execDomainState a0 t) := by
  unfold execDomainState
  repeat' first
    | with_reducible assumption | extract_lets | with_reducible apply outKeeps_next | with_reducible apply oemAnswer_keeps
    | (intro _ hh; exact hh)

theorem execGetTid_keeps {s t : State} (h : Keeps s t) (a0) : OutKeeps s (execGetTid a0 t) := by
  unfold execGetTid
  repeat' first
    | with_reducible assumption | extract_lets | with_reducible apply outKeeps_next | with_reducible apply answer_keeps

theorem execGetPldmVersion_keeps {s t : State} (h : Keeps s t) (a0 pldmType) : OutKeeps s (execGetPldmVersion a0 pldmType t) := by
  unfold execGetPldmVersion
  repeat' first
    | with_reducible assumption | extract_lets | with_reducible apply outKeeps_next | with_reducible apply answer_keeps

theorem setInactive_keeps {s t : State} (h : Keeps s t) (b) : Keeps s (setInactive b t) := by
  unfold setInactive
  repeat' first
    | with_reducible assumption | with_reducible apply onThm_keeps

theorem execRequestUpdate_keeps {s t : State} (h : Keeps s t) (a0) : OutKeeps s (execRequestUpdate a0 t) := by
  unfold execRequestUpdate
  repeat' first
    | with_reducible assumption | extract_lets | with_reducible apply outKeeps_next | with_reducible apply onThm_keeps
    | with_reducible apply setInactive_keeps | with_reducible apply answer_keeps | with_reducible apply logCritical_keeps | split

theorem execTransferComplete_keeps {s t : State} (h : Keeps s t) (image) : OutKeeps s (execTransferComplete image t) := by
  unfold execTransferComplete
  repeat' first
    | with_reducible assumption | extract_lets | with_reducible apply outKeeps_next | with_reducible apply onThm_keeps
    | with_reducible apply setInactive_keeps | split

theorem execVerifyComplete_keeps {s t : State} (h : Keeps s t) : OutKeeps s (execVerifyComplete t) := by
  unfold execVerifyComplete
  repeat' first
    | with_reducible assumption | extract_lets | with_reducible apply outKeeps_next | with_reducible apply onThm_keeps
    | with_reducible apply answer_keeps | with_reducible apply logCritical_keeps | split

theorem execQueryDeviceIdentifiers_keeps {s t : State} (h : Keeps s t) (a0) : OutKeeps s (execQueryDeviceIdentifiers a0 t) := by
  unfold execQueryDeviceIdentifiers
  repeat' first
    | with_reducible assumption | extract_lets | with_reducible apply outKeeps_next | with_reducible apply answer_keeps

theorem execGetVersion_keeps {s t : State} (h : Keeps s t) (a0) : OutKeeps s (execGetVersion a0 t) := by
  unfold execGetVersion
  repeat' first
    | with_reducible assumption | extract_lets | with_reducible apply outKeeps_next | with_reducible apply answer_keeps

theorem execGetCapabilities_keeps {s t : State} (h : Keeps s t) (a0) : OutKeeps s (execGetCapabilities a0 t) := by
  unfold execGetCapabilities
  repeat' first
    | with_reducible assumption | extract_lets | with_reducible apply outKeeps_next | with_reducible apply answer_keeps

theorem execNegotiateAlgorithms_keeps {s t : State} (h : Keeps s t) (a0) : OutKeeps s (execNegotiateAlgorithms a0 t) := by
  unfold execNegotiateAlgorithms
  repeat' first
    | with_reducible assumption | extract_lets | with_reducible apply outKeeps_next | with_reducible apply answer_keeps
    | with_reducible apply onThm_keeps

theorem execGetMeasurements_keeps {s t : State} (h : Keeps s t) (a0 index nonce) :
    OutKeeps s (execGetMeasurements a0 index nonce t) := by
  unfold execGetMeasurements
  repeat' first
    | with_reducible assumption | extract_lets | with_reducible apply outKeeps_next | with_reducible apply answer_keeps

theorem execPskExchange_keeps {s t : State} (h : Keeps s t) (a0) : OutKeeps s (execPskExchange a0 t) := by
  unfold execPskExchange
  repeat' first
    | with_reducible assumption | extract_lets | with_reducible apply outKeeps_next | with_reducible apply answer_keeps

theorem unbindLining_keeps {s t : State} (h : Keeps s t) : Keeps s (unbindLining t) := by
  unfold unbindLining
  repeat' first
    | with_reducible assumption | with_reducible apply setLining_keeps | split

theorem submitCert_keeps {s t : State} (h : Keeps s t) (bmc : Bool) (b : List Byte) : Keeps s (submitCert bmc b t).2 := by
  unfold submitCert
  split
  · exact h
  · split
    · exact h
    · dsimp only
      exact onThm_keeps (logCritical_keeps (onLin_keeps h _) _ _) _

theorem bmcCert_keeps {s t : State} (h : Keeps s t) (b : List Byte) : Keeps s (bmcCert b t) := by
  unfold bmcCert
  split
  · exact emit_keeps h _
  · split
    rename_i e
    have h1 := snd_keeps (submitCert_keeps h _ _) e
    split
    · exact h1
    · exact emit_keeps h1 _

theorem liningBoundary_keeps {s t : State} (h : Keeps s t) : Keeps s (liningBoundary t) := by
  unfold liningBoundary
  repeat' first
    | with_reducible assumption | extract_lets | with_reducible apply onLin_keeps | with_reducible apply sendIdentity_keeps
    | with_reducible apply setLining_keeps | split | (dsimp +zetaDelta only) | intro _

theorem recordPartner_keeps {s t : State} (h : Keeps s t) (o) : Keeps s (recordPartner o t) := by
  unfold recordPartner
  repeat' first
    | with_reducible assumption | extract_lets | with_reducible apply onThm_keeps | with_reducible apply onLin_keeps

theorem paired_keeps {s t : State} (h : Keeps s t) (o) : Keeps s (paired o t) := by
  unfold paired
  repeat' first
    | with_reducible assumption | extract_lets | with_reducible apply onSea_keeps | with_reducible apply recordPartner_keeps
    | with_reducible apply setLining_keeps | with_reducible apply onLin_keeps | split

theorem execPairingResult_keeps {s t : State} (h : Keeps s t) (o) : OutKeeps s (execPairingResult o t) := by
  unfold execPairingResult
  repeat' first
    | with_reducible assumption | extract_lets | with_reducible apply outKeeps_next | with_reducible apply paired_keeps
    | with_reducible apply setLining_keeps | with_reducible apply onLin_keeps | split

theorem quorumChanged_keeps {s t : State} (h : Keeps s t) (offset value) : Keeps s (quorumChanged offset value t) := by
  unfold quorumChanged
  repeat' first
    | with_reducible assumption | extract_lets | with_reducible apply onThm_keeps | with_reducible apply logCritical_keeps

theorem writeMgrKey_keeps {s t : State} (h : Keeps s t) (w v) : Keeps s (writeMgrKey w v t) := by
  unfold writeMgrKey
  repeat' first
    | with_reducible assumption | extract_lets | with_reducible apply violate_keeps | with_reducible apply quorumChanged_keeps
    | with_reducible apply onLin_keeps | split | (dsimp +zetaDelta only)

theorem bindLining_keeps {s t : State} (h : Keeps s t) : Keeps s (bindLining t) := by
  unfold bindLining
  repeat' first
    | with_reducible assumption | extract_lets | with_reducible apply onLin_keeps | with_reducible apply sendIdentity_keeps
    | with_reducible apply setLining_keeps | split | (dsimp +zetaDelta only) | intro _

theorem writePairCfg_keeps {s t : State} (h : Keeps s t) (v) : Keeps s (writePairCfg v t) := by
  unfold writePairCfg
  repeat' first
    | with_reducible assumption | extract_lets | with_reducible apply violate_keeps | with_reducible apply onLin_keeps
    | with_reducible apply bindLining_keeps | with_reducible apply unbindLining_keeps | split | (dsimp +zetaDelta only)

theorem execPairing_keeps {s t : State} (h : Keeps s t) (value) : OutKeeps s (execPairing value t) := by
  unfold execPairing
  repeat' first
    | with_reducible assumption | extract_lets | with_reducible apply outKeeps_next | with_reducible apply bar0Write_keeps
    | with_reducible apply writePairCfg_keeps | intro _

theorem writeCertCmd_keeps {s t : State} (h : Keeps s t) (v) : Keeps s (writeCertCmd v t) := by
  unfold writeCertCmd
  repeat' first
    | with_reducible assumption | extract_lets | with_reducible apply violate_keeps | with_reducible apply submitCert_keeps
    | with_reducible apply onLin_keeps | split | (dsimp +zetaDelta only)

theorem execCertSubmit_keeps {s t : State} (h : Keeps s t) (src) : OutKeeps s (execCertSubmit src t) := by
  unfold execCertSubmit
  repeat' first
    | with_reducible assumption | extract_lets | with_reducible apply outKeeps_next | with_reducible apply bar0Write_keeps
    | with_reducible apply writeCertCmd_keeps | with_reducible apply bmcCert_keeps | split | intro _

theorem certActed_keeps {s t : State} (h : Keeps s t) : Keeps s (certActed t) := by
  unfold certActed
  repeat' first
    | with_reducible assumption | with_reducible apply onLin_keeps

theorem execLeave_keeps {s t : State} (h : Keeps s t) : OutKeeps s (execLeave t) := by
  unfold execLeave
  repeat' first
    | with_reducible assumption | extract_lets | with_reducible apply outKeeps_next | with_reducible apply onThm_keeps
    | with_reducible apply onLin_keeps | with_reducible apply certActed_keeps | split

theorem execLiningDisable_keeps {s t : State} (h : Keeps s t) (value) : OutKeeps s (execLiningDisable value t) := by
  unfold execLiningDisable
  repeat' first
    | with_reducible assumption | extract_lets | with_reducible apply outKeeps_next | with_reducible apply bar0Write_keeps
    | with_reducible apply writePairCfg_keeps | intro _

theorem writeQuorum_keeps {s t : State} (h : Keeps s t) (v) : Keeps s (writeQuorum v t) := by
  unfold writeQuorum
  repeat' first
    | with_reducible assumption | extract_lets | with_reducible apply violate_keeps | with_reducible apply quorumChanged_keeps
    | with_reducible apply onLin_keeps | split | (dsimp +zetaDelta only)

theorem writeFabric_keeps {s t : State} (h : Keeps s t) (v) : Keeps s (writeFabric v t) := by
  unfold writeFabric
  repeat' first
    | with_reducible assumption | extract_lets | with_reducible apply violate_keeps | with_reducible apply quorumChanged_keeps
    | with_reducible apply onLin_keeps | split | (dsimp +zetaDelta only)

theorem writeQuorumAt_keeps {s t : State} (h : Keeps s t) (w) : Keeps s (writeQuorumAt t w) := by
  unfold writeQuorumAt
  repeat' first
    | with_reducible assumption | with_reducible apply writeQuorum_keeps | with_reducible apply writeFabric_keeps
    | with_reducible apply writeMgrKey_keeps | split

theorem fenceSeams_keeps {s t : State} (h : Keeps s t) (on) : Keeps s (fenceSeams on t) := by
  unfold fenceSeams
  repeat' first
    | with_reducible assumption | extract_lets | with_reducible apply onLin_keeps | with_reducible apply each_keeps
    | with_reducible apply onPort_keeps | intro _

theorem execRelease_keeps {s t : State} (h : Keeps s t) : OutKeeps s (execRelease t) := by
  unfold execRelease
  repeat' first
    | with_reducible assumption | extract_lets | with_reducible apply outKeeps_next | with_reducible apply fenceSeams_keeps
    | with_reducible apply certActed_keeps | split

theorem execIsolate_keeps {s t : State} (h : Keeps s t) : OutKeeps s (execIsolate t) := by
  unfold execIsolate
  repeat' first
    | with_reducible assumption | extract_lets | with_reducible apply outKeeps_next | with_reducible apply each_keeps
    | with_reducible apply certActed_keeps | with_reducible apply failReslices_keeps | with_reducible apply fenceSeams_keeps
    | with_reducible apply originateAbort_keeps | with_reducible apply setLining_keeps | split | (dsimp +zetaDelta only)
    | intro _

theorem execQuorumWrite_keeps {s t : State} (h : Keeps s t) (a0 writes) : OutKeeps s (execQuorumWrite a0 writes t) := by
  unfold execQuorumWrite
  repeat' first
    | with_reducible assumption | extract_lets | with_reducible apply outKeeps_next | with_reducible apply oemAnswer_keeps
    | with_reducible apply each_keeps | with_reducible apply writeQuorumAt_keeps | (dsimp +zetaDelta only) | intro _

theorem dropRegions_keeps {s t : State} (h : Keeps s t) (n) : Keeps s (dropRegions n t) := by
  unfold dropRegions
  repeat' first
    | with_reducible assumption | extract_lets | with_reducible apply each_keeps | with_reducible apply freeRegion_keeps
    | with_reducible apply onHbm_keeps | (intro _ hh; exact hh) | intro _

theorem dropBindings_keeps {s t : State} (h : Keeps s t) (n) : Keeps s (dropBindings n t) := by
  unfold dropBindings
  repeat' first
    | with_reducible assumption | extract_lets | with_reducible apply each_keeps | with_reducible apply bindPresser_keeps
    | with_reducible apply onPresser_keeps | with_reducible apply onSrv_keeps | with_reducible apply onSrvCtx_keeps
    | with_reducible apply onTrain_keeps | with_reducible apply onColCtx_keeps | with_reducible apply unbindLining_keeps
    | with_reducible apply onLin_keeps | (intro _ hh; exact hh) | split | intro _

theorem dropWork_keeps {s t : State} (h : Keeps s t) (n) : Keeps s (dropWork n t) := by
  unfold dropWork
  repeat' first
    | with_reducible assumption | extract_lets | with_reducible apply failShards_keeps | with_reducible apply each_keeps
    | with_reducible apply removeEntry_keeps | with_reducible apply undispatch_keeps | with_reducible apply unloadPattern_keeps
    | with_reducible apply onWork_keeps | intro _

theorem releaseBand_keeps {s t : State} (h : Keeps s t) (n g) : Keeps s (releaseBand n t g) := by
  unfold releaseBand
  repeat' first
    | with_reducible assumption | extract_lets | with_reducible apply onBand_keeps | with_reducible apply onCtx_keeps
    | with_reducible apply startBandReset_keeps | split

theorem closeRings_keeps {s t : State} (h : Keeps s t) (n) : Keeps s (closeRings n t) := by
  unfold closeRings
  repeat' first
    | with_reducible assumption | extract_lets | with_reducible apply onRing_keeps | with_reducible apply onQueue_keeps

theorem execTeardownBoundary_keeps {s t : State} (h : Keeps s t) (n) : OutKeeps s (execTeardownBoundary n t) := by
  unfold execTeardownBoundary
  repeat' first
    | with_reducible assumption | extract_lets | with_reducible apply outKeeps_next | with_reducible apply onCtx_keeps
    | with_reducible apply dropRegions_keeps | with_reducible apply dropBindings_keeps | with_reducible apply dropWork_keeps
    | with_reducible apply each_keeps | with_reducible apply releaseBand_keeps | with_reducible apply closeRings_keeps
    | with_reducible apply blockCompletion_keeps | split | intro _

theorem quiesceBand_keeps {s t : State} (h : Keeps s t) (g) : Keeps s (quiesceBand t g) := by
  unfold quiesceBand
  repeat' first
    | with_reducible assumption | extract_lets | with_reducible apply onStu_keeps | with_reducible apply onBand_keeps
    | with_reducible apply onWork_keeps

theorem vacate_keeps {s t : State} (h : Keeps s t) (n bands) : Keeps s (vacate n bands t) := by
  unfold vacate
  repeat' first
    | with_reducible assumption | extract_lets | with_reducible apply each_keeps | with_reducible apply freeRegion_keeps
    | with_reducible apply writeBacking_keeps | split | intro _

theorem saveLive_keeps {s t : State} (h : Keeps s t) (a0) (a1) : Keeps s (saveLive a0 a1 t) := by
  unfold saveLive
  repeat' first
    | with_reducible assumption | extract_lets | with_reducible apply each_keeps | with_reducible apply unverifyBytes_keeps
    | with_reducible apply writeRegion_keeps | split | (dsimp +zetaDelta only) | intro _

theorem startFills_keeps {s t : State} (h : Keeps s t) (n bands) : Keeps s (startFills n bands t) := by
  unfold startFills
  repeat' first
    | with_reducible assumption | extract_lets | with_reducible apply each_keeps | with_reducible apply onRegion_keeps
    | with_reducible apply postWithdrawal_keeps | split | intro _

theorem execSwitchBegin_keeps {s t : State} (h : Keeps s t) : OutKeeps s (execSwitchBegin t) := by
  unfold execSwitchBegin
  repeat' first
    | with_reducible assumption | extract_lets | with_reducible apply outKeeps_next | with_reducible apply each_keeps
    | with_reducible apply onHif_keeps | with_reducible apply meetQueues_keeps | with_reducible apply quiesceBand_keeps
    | with_reducible apply saveLive_keeps | with_reducible apply startFills_keeps | with_reducible apply vacate_keeps
    | with_reducible apply withdrawNow_keeps | split | (dsimp +zetaDelta only) | intro _

theorem writeCtxShare_keeps {s t : State} (h : Keeps s t) (n hi v) : Keeps s (writeCtxShare n hi v t) := by
  unfold writeCtxShare
  repeat' first
    | with_reducible assumption | with_reducible apply onCtx_keeps

theorem passBand_keeps {s t : State} (h : Keeps s t) (to_ g) : Keeps s (passBand to_ t g) := by
  unfold passBand
  repeat' first
    | with_reducible assumption | extract_lets | with_reducible apply onBand_keeps | with_reducible apply startBandReset_keeps
    | split

theorem enableRing_keeps {s t : State} (h : Keeps s t) (n) : Keeps s (enableRing n t) := by
  unfold enableRing
  repeat' first
    | with_reducible assumption | extract_lets | with_reducible apply writeStatus_keeps | with_reducible apply onRing_keeps

theorem writeCtxSw_keeps {s t : State} (h : Keeps s t) (v) : Keeps s (writeCtxSw v t) := by
  unfold writeCtxSw
  repeat' first
    | with_reducible assumption | extract_lets | with_reducible apply violate_keeps | with_reducible apply onHif_keeps | split
    | (dsimp +zetaDelta only)

theorem execCtxSwitch_keeps {s t : State} (h : Keeps s t) (value) : OutKeeps s (execCtxSwitch value t) := by
  unfold execCtxSwitch
  repeat' first
    | with_reducible assumption | extract_lets | with_reducible apply outKeeps_next | with_reducible apply bar0Write_keeps
    | with_reducible apply writeCtxSw_keeps | intro _

theorem ctxResult_keeps {s t : State} (h : Keeps s t) (n r) : Keeps s (ctxResult n r t) := by
  unfold ctxResult
  repeat' first
    | with_reducible assumption | with_reducible apply onCtx_keeps

theorem resetContext_keeps {s t : State} (h : Keeps s t) (n) : Keeps s (resetContext n t) := by
  unfold resetContext
  repeat' first
    | with_reducible assumption | extract_lets | with_reducible apply onHif_keeps | with_reducible apply onStu_keeps
    | with_reducible apply onColCtx_keeps | with_reducible apply onTrain_keeps | with_reducible apply onFlt_keeps
    | with_reducible apply onSrvCtx_keeps

theorem createContext_keeps {s t : State} (h : Keeps s t) (n) : Keeps s (createContext n t) := by
  unfold createContext
  repeat' first
    | with_reducible assumption | extract_lets | with_reducible apply ctxResult_keeps | with_reducible apply onCtx_keeps
    | with_reducible apply resetContext_keeps | split

theorem writeCtxRank_keeps {s t : State} (h : Keeps s t) (n v) : Keeps s (writeCtxRank n v t) := by
  unfold writeCtxRank
  repeat' first
    | with_reducible assumption | extract_lets | with_reducible apply violate_keeps | with_reducible apply onCtx_keeps | split
    | (dsimp +zetaDelta only)

theorem teardownContext_keeps {s t : State} (h : Keeps s t) (n) : Keeps s (teardownContext n t) := by
  unfold teardownContext
  repeat' first
    | with_reducible assumption | extract_lets | with_reducible apply ctxResult_keeps | with_reducible apply onCtx_keeps | split

theorem writeCtxCfg_keeps {s t : State} (h : Keeps s t) (n v) : Keeps s (writeCtxCfg n v t) := by
  unfold writeCtxCfg
  repeat' first
    | with_reducible assumption | extract_lets | with_reducible apply violate_keeps | with_reducible apply onCtx_keeps
    | with_reducible apply ctxResult_keeps | with_reducible apply createContext_keeps | with_reducible apply teardownContext_keeps
    | split | (dsimp +zetaDelta only)

theorem execCreate_keeps {s t : State} (h : Keeps s t) (n value) : OutKeeps s (execCreate n value t) := by
  unfold execCreate
  repeat' first
    | with_reducible assumption | extract_lets | with_reducible apply outKeeps_next | with_reducible apply bar0Write_keeps
    | with_reducible apply writeCtxCfg_keeps | intro _

theorem switchBoundary_keeps {s t : State} (h : Keeps s t) : Keeps s (switchBoundary t) := by
  unfold switchBoundary
  repeat' first
    | with_reducible assumption | extract_lets | with_reducible apply onHif_keeps | with_reducible apply each_keeps
    | with_reducible apply onCtx_keeps | split | (dsimp +zetaDelta only) | intro _

theorem ringBoundary_keeps {s t : State} (h : Keeps s t) : Keeps s (ringBoundary t) := by
  unfold ringBoundary
  repeat' first
    | with_reducible assumption | with_reducible apply onHif_keeps

theorem shareBoundary_keeps {s t : State} (h : Keeps s t) : Keeps s (shareBoundary t) := by
  unfold shareBoundary
  repeat' first
    | with_reducible assumption | extract_lets | with_reducible apply onWork_keeps | with_reducible apply onHif_keeps | split

theorem execCtxShareWrite_keeps {s t : State} (h : Keeps s t) (n hi value) : OutKeeps s (execCtxShareWrite n hi value t) := by
  unfold execCtxShareWrite
  repeat' first
    | with_reducible assumption | extract_lets | with_reducible apply outKeeps_next | with_reducible apply bar0Write_keeps
    | with_reducible apply writeCtxShare_keeps | intro _

theorem writeCtxSeed_keeps {s t : State} (h : Keeps s t) (n v) : Keeps s (writeCtxSeed n v t) := by
  unfold writeCtxSeed
  repeat' first
    | with_reducible assumption | with_reducible apply violate_keeps | with_reducible apply onCtx_keeps | split

theorem execCtxSeedWrite_keeps {s t : State} (h : Keeps s t) (n rank value) : OutKeeps s (execCtxSeedWrite n rank value t) := by
  unfold execCtxSeedWrite
  repeat' first
    | with_reducible assumption | extract_lets | with_reducible apply outKeeps_next | with_reducible apply bar0Write_keeps
    | with_reducible apply writeCtxRank_keeps | with_reducible apply writeCtxSeed_keeps | split | intro _

theorem restoreLive_keeps {s t : State} (h : Keeps s t) (a0) (a1) : Keeps s (restoreLive a0 a1 t) := by
  unfold restoreLive
  repeat' first
    | with_reducible assumption | extract_lets | with_reducible apply each_keeps | with_reducible apply onCore_keeps
    | with_reducible apply readFinds_keeps | split | (dsimp +zetaDelta only) | exact fun _ hk => hk
    | exact fun _ hk => Mem.write_wf _ _ _ hk | exact fun _ hk => Mem.clearRange_wf _ _ _ hk
    | exact fun _ hk => map_ring hk fun _ => rfl | exact fun _ hk => map_scratch hk fun _ => rfl
    | exact fun _ hk => filter_scratch hk | exact fun _ _ => rfl | (intro _ hk; simpa using hk) | intro _

theorem writeEvqCfg_keeps {s t : State} (h : Keeps s t) (n v) : Keeps s (writeEvqCfg n v t) := by
  unfold writeEvqCfg
  repeat' first
    | with_reducible assumption | extract_lets | with_reducible apply violate_keeps | with_reducible apply onQueue_keeps | split
    | (dsimp +zetaDelta only)

theorem execEvqEnable_keeps {s t : State} (h : Keeps s t) (n value) : OutKeeps s (execEvqEnable n value t) := by
  unfold execEvqEnable
  repeat' first
    | with_reducible assumption | extract_lets | with_reducible apply outKeeps_next | with_reducible apply bar0Write_keeps
    | with_reducible apply writeEvqCfg_keeps | intro _

theorem writeRingCfg_keeps {s t : State} (h : Keeps s t) (n v) : Keeps s (writeRingCfg n v t) := by
  unfold writeRingCfg
  repeat' first
    | with_reducible assumption | extract_lets | with_reducible apply violate_keeps | with_reducible apply onRing_keeps
    | with_reducible apply enableRing_keeps | split | (dsimp +zetaDelta only)

theorem finishFills_keeps {s t : State} (h : Keeps s t) (n bands) : Keeps s (finishFills n bands t) := by
  unfold finishFills
  repeat' first
    | with_reducible assumption | extract_lets | with_reducible apply each_keeps | with_reducible apply onRegion_keeps
    | with_reducible apply fillFromBacking_keeps | intro _

theorem execTeardown_keeps {s t : State} (h : Keeps s t) (n value) : OutKeeps s (execTeardown n value t) := by
  unfold execTeardown
  repeat' first
    | with_reducible assumption | extract_lets | with_reducible apply outKeeps_next | with_reducible apply bar0Write_keeps
    | with_reducible apply writeCtxCfg_keeps | intro _

theorem execTeardownDone_keeps {s t : State} (h : Keeps s t) (n) : OutKeeps s (execTeardownDone n t) := by
  unfold execTeardownDone
  repeat' first
    | with_reducible assumption | extract_lets | with_reducible apply outKeeps_next | with_reducible apply each_keeps
    | with_reducible apply onBand_keeps | with_reducible apply onCtx_keeps | split | intro _

theorem execSwitchDone_keeps {s t : State} (h : Keeps s t) : OutKeeps s (execSwitchDone t) := by
  unfold execSwitchDone
  repeat' first
    | with_reducible assumption | extract_lets | with_reducible apply outKeeps_next | with_reducible apply each_keeps
    | with_reducible apply onHif_keeps | with_reducible apply blockCompletion_keeps | with_reducible apply finishFills_keeps
    | with_reducible apply meetQueues_keeps | with_reducible apply passBand_keeps | with_reducible apply restoreLive_keeps
    | split | (dsimp +zetaDelta only) | intro _

theorem execRingEnable_keeps {s t : State} (h : Keeps s t) (n value) : OutKeeps s (execRingEnable n value t) := by
  unfold execRingEnable
  repeat' first
    | with_reducible assumption | extract_lets | with_reducible apply outKeeps_next | with_reducible apply bar0Write_keeps
    | with_reducible apply writeRingCfg_keeps | intro _

theorem execRingDisable_keeps {s t : State} (h : Keeps s t) (n value) : OutKeeps s (execRingDisable n value t) := by
  unfold execRingDisable
  repeat' first
    | with_reducible assumption | extract_lets | with_reducible apply outKeeps_next | with_reducible apply bar0Write_keeps
    | with_reducible apply writeRingCfg_keeps | intro _

end Sys2Proof.Machine
end

