-- ==== Sys2Proof/Laws/KeepsRun.lean ====
section
/-! SUPPORT. Each operation and each meaning keeps what no command touches (Keeps, Safety.lean): serving, tests, training, the stitch boundary and checkpoints. -/

namespace Sys2Proof.Machine

theorem execVerdict_keeps {s t : State} (h : Keeps s t) (a0 m) : OutKeeps s (execVerdict a0 m t) := by
  unfold execVerdict
  repeat' first
    | with_reducible assumption | extract_lets | with_reducible apply outKeeps_next | with_reducible apply dropVote_keeps
    | with_reducible apply holdVerdict_keeps | with_reducible apply sendDown_keeps | split

theorem execVote_keeps {s t : State} (h : Keeps s t) (port m) : OutKeeps s (execVote port m t) := by
  unfold execVote
  repeat' first
    | with_reducible assumption | extract_lets | with_reducible apply outKeeps_next | with_reducible apply pushVote_keeps
    | with_reducible apply onVote_keeps | split

theorem takeMessage_keeps {s t : State} (h : Keeps s t) (port m) : Keeps s (takeMessage port m t) := by
  cases m with
  | marker _ => exact leftBy_keeps h (execMarker_keeps h _ _ _)
  | stretchReq _ _ => exact leftBy_keeps h (execStretchReq_keeps h _ _ _)
  | stretchAnn _ _ => exact leftBy_keeps h (execStretchAnn_keeps h _ _ _)
  | periodAnn _ _ => exact leftBy_keeps h (execPeriodAnn_keeps h _ _ _)
  | ready _ => exact leftBy_keeps h (execReady_keeps h _ _)
  | go _ _ => exact leftBy_keeps h (execGo_keeps h _ _ _)
  | miss _ _ => exact leftBy_keeps h (execMiss_keeps h _ _ _)
  | vote _ => exact leftBy_keeps h (execVote_keeps h _ _)
  | verdict _ => exact leftBy_keeps h (execVerdict_keeps h _ _)
  | abort _ => exact receiveAbort_keeps h _ _

theorem takeVc0Cell_keeps {s t : State} (h : Keeps s t) (a0) (a1) : Keeps s (takeVc0Cell a0 a1 t) := by
  unfold takeVc0Cell
  repeat' first
    | with_reducible assumption | extract_lets | with_reducible apply each_keeps | with_reducible apply takeMessage_keeps
    | with_reducible apply violate_keeps | split | (dsimp +zetaDelta only) | intro _
    | (intro _ hh; first | exact hh | exact Mem.write_wf _ _ _ hh | exact Mem.clearRange_wf _ _ _ hh)

theorem takeVc0_keeps {s t : State} (h : Keeps s t) (a0) : Keeps s (takeVc0 a0 t) := by
  unfold takeVc0
  repeat' first
    | with_reducible assumption | extract_lets | with_reducible apply each_keeps | with_reducible apply onPort_keeps
    | with_reducible apply takeVc0Cell_keeps | split | (dsimp +zetaDelta only) | intro _
    | (intro _ hh; first | exact hh | exact Mem.write_wf _ _ _ hh | exact Mem.clearRange_wf _ _ _ hh)

theorem execFrameReceive_keeps {s t : State} (h : Keeps s t) (a0) (a1) : OutKeeps s (execFrameReceive a0 a1 t) := by
  unfold execFrameReceive
  repeat' first
    | with_reducible assumption | extract_lets | with_reducible apply outKeeps_next | with_reducible apply emit_keeps
    | with_reducible apply onPort_keeps | with_reducible apply takeVc0_keeps | split | (dsimp +zetaDelta only) | intro _
    | (intro _ hh; first | exact hh | exact Mem.write_wf _ _ _ hh | exact Mem.clearRange_wf _ _ _ hh)

theorem writeSrvCfg_keeps {s t : State} (h : Keeps s t) (n v) : Keeps s (writeSrvCfg n v t) := by
  unfold writeSrvCfg
  repeat' first
    | with_reducible assumption | extract_lets | with_reducible apply violate_keeps | with_reducible apply onSrvCtx_keeps | split
    | (dsimp +zetaDelta only)

theorem seqCancel_keeps {s t : State} (h : Keeps s t) (n tag) : Keeps s (seqCancel n tag t) := by
  unfold seqCancel
  repeat' first
    | with_reducible assumption | with_reducible apply onSrvCtx_keeps

theorem execSeqTimeout_keeps {s t : State} (h : Keeps s t) (a0) : OutKeeps s (execSeqTimeout a0 t) := by
  unfold execSeqTimeout
  repeat' first
    | with_reducible assumption | extract_lets | with_reducible apply outKeeps_next | with_reducible apply applyResults_keeps
    | with_reducible apply endSlot_keeps | split | (dsimp +zetaDelta only) | intro _

theorem srvBoundary_keeps {s t : State} (h : Keeps s t) (n) : Keeps s (srvBoundary n t) := by
  unfold srvBoundary
  repeat' first
    | with_reducible assumption | extract_lets | with_reducible apply onWork_keeps | with_reducible apply onSrvCtx_keeps
    | with_reducible apply each_keeps | with_reducible apply endSlot_keeps | with_reducible apply freeSlot_keeps | split
    | (dsimp +zetaDelta only) | intro _

theorem execSlotFree_keeps {s t : State} (h : Keeps s t) (slot) : OutKeeps s (execSlotFree slot t) := by
  unfold execSlotFree
  repeat' first
    | with_reducible assumption | extract_lets | with_reducible apply outKeeps_next | with_reducible apply freeSlot_keeps | split

theorem execAdmissionBacklog_keeps {s t : State} (h : Keeps s t) (n) : OutKeeps s (execAdmissionBacklog n t) := by
  unfold execAdmissionBacklog
  repeat' first
    | with_reducible assumption | extract_lets | with_reducible apply outKeeps_next | with_reducible apply post_keeps
    | with_reducible apply onSrvCtx_keeps | split

theorem writeSrvRt_keeps {s t : State} (h : Keeps s t) (n v) : Keeps s (writeSrvRt n v t) := by
  unfold writeSrvRt
  repeat' first
    | with_reducible assumption | extract_lets | with_reducible apply onSrvCtx_keeps | with_reducible apply violate_keeps | split
    | (dsimp +zetaDelta only)

theorem execSeqCancel_keeps {s t : State} (h : Keeps s t) (n tag) : OutKeeps s (execSeqCancel n tag t) := by
  unfold execSeqCancel
  repeat' first
    | with_reducible assumption | extract_lets | with_reducible apply outKeeps_next | with_reducible apply bar0Write_keeps
    | with_reducible apply seqCancel_keeps | intro _

theorem execServingApply_keeps {s t : State} (h : Keeps s t) : OutKeeps s (execServingApply t) := by
  unfold execServingApply
  repeat' first
    | with_reducible assumption | extract_lets | with_reducible apply outKeeps_next | with_reducible apply each_keeps
    | with_reducible apply applyServing_keeps | split | intro _

theorem execListWrite_keeps {s t : State} (h : Keeps s t) : OutKeeps s (execListWrite t) := by
  unfold execListWrite
  repeat' first
    | with_reducible assumption | extract_lets | with_reducible apply outKeeps_next | with_reducible apply each_keeps
    | with_reducible apply onCore_keeps | with_reducible apply onSrvCtx_keeps | split | (dsimp +zetaDelta only)
    | exact fun _ hk => hk | exact fun _ hk => Mem.write_wf _ _ _ hk | exact fun _ hk => Mem.clearRange_wf _ _ _ hk
    | exact fun _ hk => map_ring hk fun _ => rfl | exact fun _ hk => map_scratch hk fun _ => rfl
    | exact fun _ hk => filter_scratch hk | exact fun _ _ => rfl | (intro _ hk; simpa using hk) | intro _

theorem execSrvRtWrite_keeps {s t : State} (h : Keeps s t) (n reserve value) : OutKeeps s (execSrvRtWrite n reserve value t) := by
  unfold execSrvRtWrite
  repeat' first
    | with_reducible assumption | extract_lets | with_reducible apply outKeeps_next | with_reducible apply bar0Write_keeps
    | with_reducible apply writeSrvRt_keeps | with_reducible apply writeSrvCfg_keeps | split | intro _

theorem execResultRead_keeps {s t : State} (h : Keeps s t) : OutKeeps s (execResultRead t) := by
  unfold execResultRead
  repeat' first
    | with_reducible assumption | extract_lets | with_reducible apply outKeeps_next | with_reducible apply each_keeps
    | with_reducible apply onSrvCtx_keeps | split | (dsimp +zetaDelta only) | intro _

theorem execListBuild_keeps {s t : State} (h : Keeps s t) : OutKeeps s (execListBuild t) := by
  unfold execListBuild
  repeat' first
    | with_reducible assumption | extract_lets | with_reducible apply outKeeps_next | with_reducible apply each_keeps
    | with_reducible apply buildList_keeps | split | intro _

theorem execSwapOutDone_keeps {s t : State} (h : Keeps s t) (a0) : OutKeeps s (execSwapOutDone a0 t) := by
  unfold execSwapOutDone
  repeat' first
    | with_reducible assumption | extract_lets | with_reducible apply outKeeps_next | with_reducible apply each_keeps
    | with_reducible apply setHostMem_keeps | with_reducible apply freeSlot_keeps | with_reducible apply meetQueues_keeps
    | with_reducible apply swatchFinds_keeps | with_reducible apply tokenRecord_keeps | split | (dsimp +zetaDelta only)
    | exact fun hm => Mem.write_wf _ _ _ hm | exact fun _ hk => hk | intro _

theorem swapInOne_keeps {s t : State} (h : Keeps s t) (a0) (a1) (a2) (a4) : Keeps s (swapInOne a0 a1 a2 t a4) := by
  unfold swapInOne
  repeat' first
    | with_reducible assumption | extract_lets | with_reducible apply onSrvCtx_keeps | with_reducible apply unverifyBytes_keeps
    | with_reducible apply writeRegion_keeps | split | (dsimp +zetaDelta only) | intro _

theorem execSwapInDone_keeps {s t : State} (h : Keeps s t) (a0) : OutKeeps s (execSwapInDone a0 t) := by
  unfold execSwapInDone
  repeat' first
    | with_reducible assumption | extract_lets | with_reducible apply outKeeps_next | with_reducible apply each_keeps
    | with_reducible apply onSlot_keeps | with_reducible apply freeSlot_keeps | with_reducible apply meetQueues_keeps
    | with_reducible apply swapInOne_keeps | with_reducible apply tokenRecord_keeps | split | (dsimp +zetaDelta only) | intro _

theorem execSrvEnable_keeps {s t : State} (h : Keeps s t) (n value) : OutKeeps s (execSrvEnable n value t) := by
  unfold execSrvEnable
  repeat' first
    | with_reducible assumption | extract_lets | with_reducible apply outKeeps_next | with_reducible apply bar0Write_keeps
    | with_reducible apply writeSrvCfg_keeps | intro _

theorem execSrvDisable_keeps {s t : State} (h : Keeps s t) (n value) : OutKeeps s (execSrvDisable n value t) := by
  unfold execSrvDisable
  repeat' first
    | with_reducible assumption | extract_lets | with_reducible apply outKeeps_next | with_reducible apply bar0Write_keeps
    | with_reducible apply writeSrvCfg_keeps | intro _

theorem execSamplePreload_keeps {s t : State} (h : Keeps s t) (preload balls) :
    OutKeeps s (execSamplePreload preload balls t) := by
  unfold execSamplePreload
  repeat' first
    | with_reducible assumption | extract_lets | with_reducible apply outKeeps_next | with_reducible apply emit_keeps
    | with_reducible apply onTap_keeps

theorem tapBypass_keeps {s t : State} (h : Keeps s t) : Keeps s (tapBypass t) := by
  unfold tapBypass
  repeat' first
    | with_reducible assumption | extract_lets | with_reducible apply emit_keeps | with_reducible apply onTap_keeps

theorem tapInTest_keeps {s t : State} (h : Keeps s t) (f) : Keeps s (tapInTest f t) := by
  unfold tapInTest
  repeat' first
    | with_reducible assumption | with_reducible apply onTap_keeps | with_reducible apply tapBypass_keeps | split

theorem execExtestTrain_keeps {s t : State} (h : Keeps s t) : OutKeeps s (execExtestTrain t) := by
  unfold execExtestTrain
  repeat' first
    | with_reducible assumption | extract_lets | with_reducible apply outKeeps_next | with_reducible apply tapInTest_keeps

theorem endTest_keeps {s t : State} (h : Keeps s t) (r) : Keeps s (endTest r t) := by
  unfold endTest
  repeat' first
    | with_reducible assumption | extract_lets | with_reducible apply emit_keeps | with_reducible apply onTst_keeps

theorem afterTest_keeps {s t : State} (h : Keeps s t) (a0 target edge) : Keeps s (afterTest a0 target edge t) := by
  unfold afterTest
  repeat' first
    | with_reducible assumption | extract_lets | with_reducible apply each_keeps | with_reducible apply bandBecomesOn_keeps
    | with_reducible apply onBand_keeps | with_reducible apply clearBand_keeps | with_reducible apply onThm_keeps
    | with_reducible apply clearStack_keeps | with_reducible apply onBolt_keeps
    | (intro _ hh; with_reducible first | apply Mem.write_wf | apply Mem.clearRange_wf) | split | intro _

theorem execTestDone_keeps {s t : State} (h : Keeps s t) (o elapsedUs) : OutKeeps s (execTestDone o elapsedUs t) := by
  unfold execTestDone
  repeat' first
    | with_reducible assumption | extract_lets | with_reducible apply outKeeps_next | with_reducible apply onTst_keeps
    | with_reducible apply logGeneral_keeps | with_reducible apply each_keeps | with_reducible apply addFuse_keeps
    | with_reducible apply afterTest_keeps | with_reducible apply endTest_keeps | split | (dsimp +zetaDelta only) | intro _

theorem execExtest_keeps {s t : State} (h : Keeps s t) : OutKeeps s (execExtest t) := by
  unfold execExtest
  repeat' first
    | with_reducible assumption | extract_lets | with_reducible apply outKeeps_next | with_reducible apply tapInTest_keeps

theorem seamTestCheck_keeps {s t : State} (h : Keeps s t) : Keeps s (seamTestCheck t) := by
  unfold seamTestCheck
  repeat' first
    | with_reducible assumption | extract_lets | with_reducible apply endTest_keeps | split

theorem execPrivateInstruction_keeps {s t : State} (h : Keeps s t) (code) : OutKeeps s (execPrivateInstruction code t) := by
  unfold execPrivateInstruction
  repeat' first
    | with_reducible assumption | extract_lets | with_reducible apply outKeeps_next | with_reducible apply outKeeps_refused
    | with_reducible apply tapBypass_keeps | split

theorem execIdcode_keeps {s t : State} (h : Keeps s t) : OutKeeps s (execIdcode t) := by
  unfold execIdcode
  repeat' first
    | with_reducible assumption | extract_lets | with_reducible apply outKeeps_next | with_reducible apply emit_keeps
    | with_reducible apply onTap_keeps

theorem writeTstCmd_keeps {s t : State} (h : Keeps s t) (v) : Keeps s (writeTstCmd v t) := by
  unfold writeTstCmd
  repeat' first
    | with_reducible assumption | extract_lets | with_reducible apply violate_keeps | with_reducible apply onTst_keeps
    | with_reducible apply each_keeps | with_reducible apply onBand_keeps | split | (dsimp +zetaDelta only) | intro _

theorem execBypass_keeps {s t : State} (h : Keeps s t) (a0) : OutKeeps s (execBypass a0 t) := by
  unfold execBypass
  repeat' first
    | with_reducible assumption | extract_lets | with_reducible apply outKeeps_next | with_reducible apply tapBypass_keeps

theorem execClamp_keeps {s t : State} (h : Keeps s t) : OutKeeps s (execClamp t) := by
  unfold execClamp
  repeat' first
    | with_reducible assumption | extract_lets | with_reducible apply outKeeps_next | with_reducible apply tapInTest_keeps

theorem execHighz_keeps {s t : State} (h : Keeps s t) : OutKeeps s (execHighz t) := by
  unfold execHighz
  repeat' first
    | with_reducible assumption | extract_lets | with_reducible apply outKeeps_next | with_reducible apply tapInTest_keeps

theorem execTstStart_keeps {s t : State} (h : Keeps s t) (value) : OutKeeps s (execTstStart value t) := by
  unfold execTstStart
  repeat' first
    | with_reducible assumption | extract_lets | with_reducible apply outKeeps_next | with_reducible apply writeTstCmd_keeps

theorem execExtestPulse_keeps {s t : State} (h : Keeps s t) : OutKeeps s (execExtestPulse t) := by
  unfold execExtestPulse
  repeat' first
    | with_reducible assumption | extract_lets | with_reducible apply outKeeps_next | with_reducible apply tapInTest_keeps

theorem execHbmWrapper_keeps {s t : State} (h : Keeps s t) (select) : OutKeeps s (execHbmWrapper select t) := by
  unfold execHbmWrapper
  repeat' first
    | with_reducible assumption | extract_lets | with_reducible apply outKeeps_next | with_reducible apply tapInTest_keeps

theorem execTstStop_keeps {s t : State} (h : Keeps s t) (value) : OutKeeps s (execTstStop value t) := by
  unfold execTstStop
  repeat' first
    | with_reducible assumption | extract_lets | with_reducible apply outKeeps_next | with_reducible apply writeTstCmd_keeps

theorem execNormPartial_keeps {s t : State} (h : Keeps s t) (a0) : OutKeeps s (execNormPartial a0 t) := by
  unfold execNormPartial
  repeat' first
    | with_reducible assumption | extract_lets | with_reducible apply outKeeps_next | with_reducible apply meetQueues_keeps
    | with_reducible apply writePartial_keeps | split | (dsimp +zetaDelta only) | intro _

theorem writePrsTblCmd_keeps {s t : State} (h : Keeps s t) (v) : Keeps s (writePrsTblCmd v t) := by
  unfold writePrsTblCmd
  repeat' first
    | with_reducible assumption | extract_lets | with_reducible apply violate_keeps | with_reducible apply onPrs_keeps
    | (intro _ hh; exact hh) | split | (dsimp +zetaDelta only)

theorem writePrsBind_keeps {s t : State} (h : Keeps s t) (a0) (a1) : Keeps s (writePrsBind a0 a1 t) := by
  unfold writePrsBind
  repeat' first
    | with_reducible assumption | extract_lets | with_reducible apply onPresser_keeps | with_reducible apply bindPresser_keeps
    | with_reducible apply checkRsv_keeps | with_reducible apply violate_keeps | split | (dsimp +zetaDelta only) | intro _

theorem dropRefill_keeps {s t : State} (h : Keeps s t) (p) : Keeps s (dropRefill p t) := by
  unfold dropRefill
  repeat' first
    | with_reducible assumption | extract_lets | with_reducible apply onPrs_keeps | (intro _ hh; exact hh)

theorem execRefillBlock_keeps {s t : State} (h : Keeps s t) (a0) : OutKeeps s (execRefillBlock a0 t) := by
  unfold execRefillBlock
  repeat' first
    | with_reducible assumption | extract_lets | with_reducible apply outKeeps_next | with_reducible apply dropRefill_keeps
    | with_reducible apply meetQueues_keeps | with_reducible apply takeBlock_keeps | split | (dsimp +zetaDelta only) | intro _

theorem writePrsStep_keeps {s t : State} (h : Keeps s t) (n count v) : Keeps s (writePrsStep n count v t) := by
  unfold writePrsStep
  repeat' first
    | with_reducible assumption | extract_lets | with_reducible apply violate_keeps | with_reducible apply onTrain_keeps | split
    | (dsimp +zetaDelta only)

theorem execVoteForm_keeps {s t : State} (h : Keeps s t) (n) : OutKeeps s (execVoteForm n t) := by
  unfold execVoteForm
  repeat' first
    | with_reducible assumption | extract_lets | with_reducible apply outKeeps_next | with_reducible apply each_keeps
    | with_reducible apply voteLatch_keeps | with_reducible apply onTrain_keeps | with_reducible apply castVote_keeps | split
    | intro _

theorem reserveBoundary_keeps {s t : State} (h : Keeps s t) : Keeps s (reserveBoundary t) := by
  unfold reserveBoundary
  dsimp only
  split
  · exact h
  · exact onPrs_keeps h _ fun _ hk => map_ring hk fun _ => rfl

theorem execPresserImageChecked_keeps {s t : State} (h : Keeps s t) (portOk) : OutKeeps s (execPresserImageChecked portOk t) := by
  unfold execPresserImageChecked
  repeat' first
    | with_reducible assumption | extract_lets | with_reducible apply outKeeps_next | with_reducible apply onPrs_keeps
    | with_reducible apply stageImage_keeps | (intro _ hh; exact hh) | split

theorem execVerdictMissing_keeps {s t : State} (h : Keeps s t) (n) : OutKeeps s (execVerdictMissing n t) := by
  unfold execVerdictMissing
  repeat' first
    | with_reducible assumption | extract_lets | with_reducible apply outKeeps_next | with_reducible apply declareFault_keeps
    | with_reducible apply onTrain_keeps | split

theorem writePrsMirror_keeps {s t : State} (h : Keeps s t) (v) : Keeps s (writePrsMirror v t) := by
  unfold writePrsMirror
  repeat' first
    | with_reducible assumption | extract_lets | with_reducible apply violate_keeps | with_reducible apply onPrs_keeps
    | (intro _ hh; exact hh) | split | (dsimp +zetaDelta only)

theorem execPrsMirrorWrite_keeps {s t : State} (h : Keeps s t) (value) : OutKeeps s (execPrsMirrorWrite value t) := by
  unfold execPrsMirrorWrite
  repeat' first
    | with_reducible assumption | extract_lets | with_reducible apply outKeeps_next | with_reducible apply bar0Write_keeps
    | with_reducible apply writePrsMirror_keeps | intro _

theorem execCommitStitch_keeps {s t : State} (h : Keeps s t) (n) : OutKeeps s (execCommitStitch n t) := by
  unfold execCommitStitch
  repeat' first
    | with_reducible assumption | extract_lets | with_reducible apply outKeeps_next | with_reducible apply applyVerdict_keeps
    | split

theorem execPrsTblLoad_keeps {s t : State} (h : Keeps s t) (value) : OutKeeps s (execPrsTblLoad value t) := by
  unfold execPrsTblLoad
  repeat' first
    | with_reducible assumption | extract_lets | with_reducible apply outKeeps_next | with_reducible apply bar0Write_keeps
    | with_reducible apply writePrsTblCmd_keeps | intro _

theorem execPrsStepWrite_keeps {s t : State} (h : Keeps s t) (n count value) : OutKeeps s (execPrsStepWrite n count value t) := by
  unfold execPrsStepWrite
  repeat' first
    | with_reducible assumption | extract_lets | with_reducible apply outKeeps_next | with_reducible apply bar0Write_keeps
    | with_reducible apply writePrsStep_keeps | intro _

theorem execInboxRecord_keeps {s t : State} (h : Keeps s t) (a0) : OutKeeps s (execInboxRecord a0 t) := by
  unfold execInboxRecord
  repeat' first
    | with_reducible assumption | extract_lets | with_reducible apply outKeeps_next | with_reducible apply meetQueues_keeps
    | with_reducible apply takeNext_keeps | with_reducible apply takeRecord_keeps | split | (dsimp +zetaDelta only) | intro _

theorem writePrsReserve_keeps {s t : State} (h : Keeps s t) (a0) (a1) : Keeps s (writePrsReserve a0 a1 t) := by
  unfold writePrsReserve
  repeat' first
    | with_reducible assumption | extract_lets | with_reducible apply onPresser_keeps | with_reducible apply checkRsv_keeps
    | with_reducible apply violate_keeps | split | (dsimp +zetaDelta only) | intro _

theorem execPrsBind_keeps {s t : State} (h : Keeps s t) (k value) : OutKeeps s (execPrsBind k value t) := by
  unfold execPrsBind
  repeat' first
    | with_reducible assumption | extract_lets | with_reducible apply outKeeps_next | with_reducible apply bar0Write_keeps
    | with_reducible apply writePrsBind_keeps | intro _

theorem execVerdictDecision_keeps {s t : State} (h : Keeps s t) (tag) : OutKeeps s (execVerdictDecision tag t) := by
  unfold execVerdictDecision
  repeat' first
    | with_reducible assumption | extract_lets | with_reducible apply outKeeps_next | with_reducible apply dropVote_keeps
    | with_reducible apply holdVerdict_keeps | with_reducible apply sendDown_keeps | with_reducible apply drew_keeps | split

theorem execRefillState_keeps {s t : State} (h : Keeps s t) (k) : OutKeeps s (execRefillState k t) := by
  unfold execRefillState
  repeat' first
    | with_reducible assumption | extract_lets | with_reducible apply outKeeps_next | with_reducible apply takeState_keeps
    | with_reducible apply dropRefill_keeps | split

theorem execMirrorRecord_keeps {s t : State} (h : Keeps s t) (a0) : OutKeeps s (execMirrorRecord a0 t) := by
  unfold execMirrorRecord
  repeat' first
    | with_reducible assumption | extract_lets | with_reducible apply outKeeps_next | with_reducible apply onPresser_keeps
    | with_reducible apply meetQueues_keeps | with_reducible apply takeMirror_keeps | split | (dsimp +zetaDelta only) | intro _

theorem execNormRecord_keeps {s t : State} (h : Keeps s t) (a0) : OutKeeps s (execNormRecord a0 t) := by
  unfold execNormRecord
  repeat' first
    | with_reducible assumption | extract_lets | with_reducible apply outKeeps_next | with_reducible apply meetQueues_keeps
    | with_reducible apply takeNext_keeps | with_reducible apply takeNorm_keeps | split | (dsimp +zetaDelta only) | intro _

theorem execPrsReserveWrite_keeps {s t : State} (h : Keeps s t) (k value) : OutKeeps s (execPrsReserveWrite k value t) := by
  unfold execPrsReserveWrite
  repeat' first
    | with_reducible assumption | extract_lets | with_reducible apply outKeeps_next | with_reducible apply bar0Write_keeps
    | with_reducible apply writePrsReserve_keeps | intro _

theorem execPresserLedgerRebuild_keeps {s t : State} (h : Keeps s t) : OutKeeps s (execPresserLedgerRebuild t) := by
  unfold execPresserLedgerRebuild
  repeat' first
    | with_reducible assumption | extract_lets | with_reducible apply outKeeps_next | with_reducible apply rebuildDue_keeps
    | split | (dsimp +zetaDelta only) | intro _

theorem verdictsFirst_keeps {s t : State} (h : Keeps s t) : Keeps s (verdictsFirst t) := by
  unfold verdictsFirst
  repeat' first
    | with_reducible assumption | extract_lets | with_reducible apply each_keeps | with_reducible apply applyVerdict_keeps | split
    | intro _

theorem startCore_keeps {s t : State} (h : Keeps s t) (p c) : Keeps s (startCore p t c) := by
  unfold startCore
  repeat' first
    | with_reducible assumption | extract_lets | with_reducible apply onCore_keeps | (intro _ hh; exact hh)

theorem dispatchEntry_keeps {s t : State} (h : Keeps s t) (p : Pattern) (e : ArmEntry) : Keeps s (dispatchEntry p e t) := by
  unfold dispatchEntry
  dsimp only
  refine onWork_keeps (onStu_keeps (each_keeps (onCores_keeps h _ fun k hk => map_scratch hk fun x => ?_) _ _ fun _ _ hu => ?_) _) _
  · split <;> rfl
  · exact startCore_keeps hu _ _

theorem dispatchDue_keeps {s t : State} (h : Keeps s t) : Keeps s (dispatchDue t) := by
  unfold dispatchDue
  repeat' first
    | with_reducible assumption | extract_lets | with_reducible apply each_keeps | with_reducible apply dispatchEntry_keeps
    | split | intro _

theorem buildTables_keeps {s t : State} (h : Keeps s t) : Keeps s (buildTables t) := by
  unfold buildTables
  repeat' first
    | with_reducible assumption | extract_lets | with_reducible apply onSea_keeps

theorem stopRuns_keeps {s t : State} (h : Keeps s t) : Keeps s (stopRuns t) := by
  unfold stopRuns
  repeat' first
    | with_reducible assumption | extract_lets | with_reducible apply onCores_keeps | with_reducible apply onStu_keeps | split
    | (dsimp +zetaDelta only) | exact fun _ hk => hk | exact fun _ hk => Mem.write_wf _ _ _ hk
    | exact fun _ hk => Mem.clearRange_wf _ _ _ hk | exact fun _ hk => map_ring hk fun _ => rfl
    | exact fun _ hk => map_scratch hk fun _ => rfl | exact fun _ hk => filter_scratch hk | exact fun _ _ => rfl
    | (intro _ hk; simpa using hk) | intro _

theorem jobFaultActions_keeps {s t : State} (h : Keeps s t) : Keeps s (jobFaultActions t) := by
  unfold jobFaultActions
  repeat' first
    | with_reducible assumption | extract_lets | with_reducible apply onFlt_keeps | with_reducible apply onWork_keeps
    | with_reducible apply each_keeps | with_reducible apply onCtx_keeps | split | (dsimp +zetaDelta only) | intro _

theorem postRecords_keeps {s t : State} (h : Keeps s t) : Keeps s (postRecords t) := by
  unfold postRecords
  repeat' first
    | with_reducible assumption | extract_lets | with_reducible apply each_keeps | with_reducible apply onFlt_keeps
    | with_reducible apply postRecord_keeps | intro _

theorem coreBoundary_keeps {s t : State} (h : Keeps s t) : Keeps s (coreBoundary t) := by
  unfold coreBoundary
  extract_lets ues mets s1 s2 s3
  have h1 : Keeps s s1 := by
    refine ite_keeps h (onCores_keeps h _ fun k hk => ?_)
    exact map_scratch (f := fun x => (x.1, { x.2 with ue := [] })) hk fun _ => rfl
  have h2 : Keeps s s2 := by
    refine ite_keeps h1 (onCores_keeps h1 _ ?_)
    exact fun _ hk => hk
  exact each_keeps (each_keeps h2 _ _ fun _ _ hu => declareFault_keeps hu _) _ _ fun _ _ hu =>
    declareFault_keeps (drew_keeps hu) _

theorem completeVotes_keeps {s t : State} (h : Keeps s t) : Keeps s (completeVotes t) := by
  unfold completeVotes
  repeat' first
    | with_reducible assumption | extract_lets | with_reducible apply each_keeps | with_reducible apply onWork_keeps
    | with_reducible apply postCompletion_keeps | intro _

theorem completeFences_keeps {s t : State} (h : Keeps s t) : Keeps s (completeFences t) := by
  unfold completeFences
  repeat' first
    | with_reducible assumption | extract_lets | with_reducible apply each_keeps | with_reducible apply onWork_keeps
    | with_reducible apply complete_keeps | intro _

theorem boundaryAlways_keeps {s t : State} (h : Keeps s t) : Keeps s (boundaryAlways t) := by
  unfold boundaryAlways
  repeat' first
    | with_reducible assumption | extract_lets | with_reducible apply each_keeps | with_reducible apply unsentDiscard_keeps
    | with_reducible apply portBoundary_keeps | with_reducible apply mirrorBoundary_keeps | with_reducible apply creditApply_keeps
    | with_reducible apply seqAdvance_keeps | with_reducible apply creditCheck_keeps | with_reducible apply srvBoundary_keeps
    | with_reducible apply hbmBoundary_keeps | with_reducible apply boltBoundary_keeps | with_reducible apply coreBoundary_keeps
    | with_reducible apply liningBoundary_keeps | with_reducible apply ringBoundary_keeps
    | with_reducible apply switchBoundary_keeps | with_reducible apply shareBoundary_keeps
    | with_reducible apply completeVotes_keeps | with_reducible apply completeFences_keeps
    | with_reducible apply seamTestCheck_keeps | intro _

theorem withdrawMissed_keeps {s t : State} (h : Keeps s t) : Keeps s (withdrawMissed t) := by
  unfold withdrawMissed
  repeat' first
    | with_reducible assumption | extract_lets | with_reducible apply onStu_keeps | with_reducible apply each_keeps
    | with_reducible apply withdraw_keeps | intro _

theorem withdrawPeriod_keeps {s t : State} (h : Keeps s t) : Keeps s (withdrawPeriod t) := by
  unfold withdrawPeriod
  repeat' first
    | with_reducible assumption | extract_lets | with_reducible apply onStu_keeps | with_reducible apply rebuildLedger_keeps
    | with_reducible apply budgetCheck_keeps | split

theorem endRun_keeps {s t : State} (h : Keeps s t) (e) : Keeps s (endRun t e) := by
  unfold endRun
  repeat' first
    | with_reducible assumption | extract_lets | with_reducible apply removeEntry_keeps
    | with_reducible apply postCompletion_keeps | split

theorem endRuns_keeps {s t : State} (h : Keeps s t) : Keeps s (endRuns t) := by
  unfold endRuns
  repeat' first
    | with_reducible assumption | extract_lets | with_reducible apply each_keeps | with_reducible apply endRun_keeps | intro _

theorem withdrawDue_keeps {s t : State} (h : Keeps s t) : Keeps s (withdrawDue t) := by
  unfold withdrawDue
  repeat' first
    | with_reducible assumption | extract_lets | with_reducible apply each_keeps | with_reducible apply withdraw_keeps | split
    | intro _

theorem boundaryWork_keeps {s t : State} (h : Keeps s t) : Keeps s (boundaryWork t) := by
  unfold boundaryWork
  repeat' first
    | with_reducible assumption | extract_lets | with_reducible apply each_keeps | with_reducible apply bandBoundary_keeps
    | with_reducible apply dispatchDue_keeps | with_reducible apply endRuns_keeps | with_reducible apply ledgerIfDirty_keeps
    | with_reducible apply stampSlots_keeps | with_reducible apply stopLoaders_keeps | with_reducible apply withdrawDue_keeps
    | with_reducible apply withdrawMissed_keeps | with_reducible apply withdrawPeriod_keeps | split | (dsimp +zetaDelta only)
    | intro _

theorem boundaryService_keeps {s t : State} (h : Keeps s t) : Keeps s (boundaryService t) := by
  unfold boundaryService
  repeat' first
    | with_reducible assumption | extract_lets | with_reducible apply boltCycles_keeps
    | with_reducible apply boundaryAlways_keeps | with_reducible apply boundaryWork_keeps
    | with_reducible apply buildTables_keeps | with_reducible apply collectTallies_keeps
    | with_reducible apply jobFaultActions_keeps | with_reducible apply passSlots_keeps
    | with_reducible apply postRecords_keeps | with_reducible apply reserveBoundary_keeps | with_reducible apply stopRuns_keeps
    | with_reducible apply verdictsFirst_keeps | with_reducible apply writeBeats_keeps | split | (dsimp +zetaDelta only)
    | intro _

theorem advance_keeps {s t : State} (h : Keeps s t) : Keeps s (advance t) := by
  unfold advance
  repeat' first
    | with_reducible assumption | extract_lets | with_reducible apply onStu_keeps

theorem logSeconds_keeps {s t : State} (h : Keeps s t) : Keeps s (logSeconds t) := by
  unfold logSeconds
  repeat' first
    | with_reducible assumption | extract_lets | with_reducible apply onThm_keeps | with_reducible apply logGeneral_keeps | split
    | (dsimp +zetaDelta only)

theorem countReasons_keeps {s t : State} (h : Keeps s t) : Keeps s (countReasons t) := by
  unfold countReasons
  repeat' first
    | with_reducible assumption | extract_lets | with_reducible apply onThm_keeps | with_reducible apply onStu_keeps

theorem closeTime_keeps {s t : State} (h : Keeps s t) : Keeps s (closeTime t) := by
  unfold closeTime
  repeat' first
    | with_reducible assumption | extract_lets | with_reducible apply setNs_keeps | with_reducible apply onStu_keeps

theorem ageContexts_keeps {s t : State} (h : Keeps s t) : Keeps s (ageContexts t) := by
  unfold ageContexts
  repeat' first
    | with_reducible assumption | with_reducible apply onHif_keeps

theorem applyImmediate_keeps {s t : State} (h : Keeps s t) : Keeps s (applyImmediate t) := by
  unfold applyImmediate
  repeat' first
    | with_reducible assumption | extract_lets | with_reducible apply applyPeriod_keeps | with_reducible apply onStu_keeps | split

theorem boundaryHeld_keeps {s t : State} (h : Keeps s t) : Keeps s (boundaryHeld t) := by
  unfold boundaryHeld
  repeat' first
    | with_reducible assumption | extract_lets | with_reducible apply each_keeps | with_reducible apply buildTables_keeps
    | with_reducible apply jobFaultActions_keeps | with_reducible apply portHeld_keeps | with_reducible apply postRecords_keeps
    | split | (dsimp +zetaDelta only) | intro _

theorem boundaryMessages_keeps {s t : State} (h : Keeps s t) : Keeps s (boundaryMessages t) := by
  unfold boundaryMessages
  repeat' first
    | with_reducible assumption | extract_lets | with_reducible apply sendMarker_keeps | with_reducible apply updateOwn_keeps
    | with_reducible apply leaderAnnounce_keeps | split | (dsimp +zetaDelta only)

theorem execStitchBoundary_keeps {s t : State} (h : Keeps s t) : OutKeeps s (execStitchBoundary t) := by
  unfold execStitchBoundary
  repeat' first
    | with_reducible assumption | extract_lets | with_reducible apply outKeeps_next | with_reducible apply countReasons_keeps
    | with_reducible apply chargePhases_keeps | with_reducible apply advance_keeps | with_reducible apply closeTime_keeps
    | with_reducible apply ageContexts_keeps | with_reducible apply applyImmediate_keeps | with_reducible apply relength_keeps
    | with_reducible apply boundaryHeld_keeps | with_reducible apply boundaryService_keeps | with_reducible apply logSeconds_keeps
    | with_reducible apply panelClocks_keeps | with_reducible apply boundaryMessages_keeps | split | (dsimp +zetaDelta only)

theorem openBundle_keeps {s t : State} (h : Keeps s t) (n l) : Keeps s (openBundle n l t) := by
  unfold openBundle
  repeat' first
    | with_reducible assumption | extract_lets | with_reducible apply each_keeps | with_reducible apply onRegion_keeps
    | with_reducible apply onBolt_keeps | with_reducible apply onHbm_keeps | (intro _ hh; exact hh) | (dsimp +zetaDelta only)
    | intro _

theorem spoilBundle_keeps {s t : State} (h : Keeps s t) (n r) : Keeps s (spoilBundle n t r) := by
  unfold spoilBundle
  repeat' first
    | with_reducible assumption | extract_lets | with_reducible apply onHbm_keeps | (intro _ hh; exact hh) | split

theorem bundleDone_keeps {s t : State} (h : Keeps s t) (a0) (a1) (a2) : Keeps s (bundleDone a0 a1 a2 t) := by
  unfold bundleDone
  repeat' first
    | with_reducible assumption | extract_lets | with_reducible apply each_keeps | with_reducible apply onBolt_keeps
    | with_reducible apply endTransfer_keeps | with_reducible apply finishRegion_keeps
    | with_reducible apply postCompletion_keeps | with_reducible apply spoilBundle_keeps
    | with_reducible apply streamRegion_keeps | split | (dsimp +zetaDelta only) | intro _

theorem restoreSigmas_keeps {s t : State} (h : Keeps s t) (img data) : Keeps s (restoreSigmas img data t) := by
  unfold restoreSigmas
  repeat' first
    | with_reducible assumption | extract_lets | with_reducible apply each_keeps | with_reducible apply onBank_keeps | intro _

theorem restoreBlocks_keeps {s t : State} (h : Keeps s t) (a0) (a1) (a2) (a3) (a4) (a5) : Keeps s (restoreBlocks a0 a1 a2 a3 a4 a5 t) := by
  unfold restoreBlocks
  repeat' first
    | with_reducible assumption | extract_lets | with_reducible apply each_keeps | with_reducible apply restoreView_keeps
    | split | (dsimp +zetaDelta only) | intro _

theorem restoreCopy_keeps {s t : State} (h : Keeps s t) (a0) (a1) (a2) (a3) (a4) : Keeps s (restoreCopy a0 a1 a2 a3 a4 t) := by
  unfold restoreCopy
  repeat' first
    | with_reducible assumption | extract_lets | with_reducible apply each_keeps | with_reducible apply onPresser_keeps
    | with_reducible apply onBank_keeps | with_reducible apply restoreView_keeps | with_reducible apply runLoaded_keeps
    | with_reducible apply stageRun_keeps | split | (dsimp +zetaDelta only) | intro _

theorem restoreData_keeps {s t : State} (h : Keeps s t) (a0) (a1) (a2) (a3) : Keeps s (restoreData a0 a1 a2 a3 t) := by
  unfold restoreData
  repeat' first
    | with_reducible assumption | extract_lets | with_reducible apply restoreBlocks_keeps
    | with_reducible apply restoreCopy_keeps | with_reducible apply restoreSigmas_keeps
    | with_reducible apply restoreView_keeps | split | (dsimp +zetaDelta only) | intro _

theorem restoreDone_keeps {s t : State} (h : Keeps s t) (a0 r portOk) : Keeps s (restoreDone a0 r portOk t) := by
  unfold restoreDone
  repeat' first
    | with_reducible assumption | extract_lets | with_reducible apply endTransfer_keeps | with_reducible apply restoreData_keeps
    | with_reducible apply poison_keeps | with_reducible apply postCompletion_keeps | split | (dsimp +zetaDelta only)

theorem shardDrained_keeps {s t : State} (h : Keeps s t) (a0) (a1) (a2) (a3) : Keeps s (shardDrained a0 a1 a2 a3 t) := by
  unfold shardDrained
  repeat' first
    | with_reducible assumption | extract_lets | with_reducible apply setPortS_keeps | with_reducible apply endTransfer_keeps
    | with_reducible apply postCompletion_keeps | with_reducible apply readFinds_keeps | split | (dsimp +zetaDelta only)
    | exact fun hm => Mem.write_wf _ _ _ hm | exact fun _ hk => hk | intro _

theorem startShard_keeps {s t : State} (h : Keeps s t) (n d) : Keeps s (startShard n d t) := by
  unfold startShard
  repeat' first
    | with_reducible assumption | extract_lets | with_reducible apply postCompletion_keeps
    | with_reducible apply startTransfer_keeps | split

theorem startRestore_keeps {s t : State} (h : Keeps s t) (a0) (a1) : Keeps s (startRestore a0 a1 t) := by
  unfold startRestore
  repeat' first
    | with_reducible assumption | extract_lets | with_reducible apply openLoad_keeps
    | with_reducible apply postCompletion_keeps | with_reducible apply startTransfer_keeps | split | (dsimp +zetaDelta only)
    | intro _

theorem captureEnd_keeps {s t : State} (h : Keeps s t) (a0) (a1) : Keeps s (captureEnd a0 a1 t) := by
  unfold captureEnd
  repeat' first
    | with_reducible assumption | extract_lets | with_reducible apply endTransfer_keeps
    | with_reducible apply postCompletion_keeps | with_reducible apply setKind_keeps | with_reducible apply shardFinds_keeps
    | with_reducible apply unverifyBytes_keeps | with_reducible apply writeRegion_keeps | split | (dsimp +zetaDelta only)
    | intro _

theorem execShardDrained_keeps {s t : State} (h : Keeps s t) (a0) (a1) : OutKeeps s (execShardDrained a0 a1 t) := by
  unfold execShardDrained
  repeat' first
    | with_reducible assumption | extract_lets | with_reducible apply outKeeps_next | with_reducible apply meetQueues_keeps
    | with_reducible apply shardDrained_keeps | split | (dsimp +zetaDelta only) | intro _

theorem execRestoreDone_keeps {s t : State} (h : Keeps s t) (a0) (a1) : OutKeeps s (execRestoreDone a0 a1 t) := by
  unfold execRestoreDone
  repeat' first
    | with_reducible assumption | extract_lets | with_reducible apply outKeeps_next | with_reducible apply meetQueues_keeps
    | with_reducible apply restoreDone_keeps | split | (dsimp +zetaDelta only) | intro _

theorem takeSlot_keeps {s t u : State} (h : Keeps s t) (target : List Nat) (k : Nat) (e : takeSlot t target = some (k, u)) :
    Keeps s u := by
  unfold takeSlot at e
  extract_lets at e
  split at e
  · cases e
    exact h
  · rw [Option.map_eq_some_iff] at e
    obtain ⟨_, _, e⟩ := e
    cases e
    exact evictSlot_keeps h _

theorem startBundle_keeps {s t : State} (h : Keeps s t) (n : Nat) (portOk : Bool) (d : Taken) :
    Keeps s (startBundle n portOk d t) := by
  unfold startBundle
  dsimp only
  repeat' first
    | with_reducible exact postCompletion_keeps h _ _ _ _ _ _ _ _
    | with_reducible exact startTransfer_keeps (openBundle_keeps (takeSlot_keeps h _ _ ‹_›) _ _) _ _ _ _
    | split

theorem execLoadBundle_keeps {s t : State} (h : Keeps s t) (n portOk) : OutKeeps s (execLoadBundle n portOk t) := by
  unfold execLoadBundle
  repeat' first
    | with_reducible assumption | extract_lets | with_reducible apply outKeeps_next | with_reducible apply onDescriptor_keeps
    | with_reducible apply startBundle_keeps | intro _

theorem execBundleDone_keeps {s t : State} (h : Keeps s t) (a0) (a1) : OutKeeps s (execBundleDone a0 a1 t) := by
  unfold execBundleDone
  repeat' first
    | with_reducible assumption | extract_lets | with_reducible apply outKeeps_next | with_reducible apply bundleDone_keeps
    | with_reducible apply meetQueues_keeps | split | (dsimp +zetaDelta only) | intro _

theorem execCkptShard_keeps {s t : State} (h : Keeps s t) (n) : OutKeeps s (execCkptShard n t) := by
  unfold execCkptShard
  repeat' first
    | with_reducible assumption | extract_lets | with_reducible apply outKeeps_next | with_reducible apply onDescriptor_keeps
    | with_reducible apply startShard_keeps | intro _

theorem execCaptureEnd_keeps {s t : State} (h : Keeps s t) (a0) : OutKeeps s (execCaptureEnd a0 t) := by
  unfold execCaptureEnd
  repeat' first
    | with_reducible assumption | extract_lets | with_reducible apply outKeeps_next | with_reducible apply captureEnd_keeps
    | with_reducible apply meetQueues_keeps | split | (dsimp +zetaDelta only) | intro _

theorem execRestoreShard_keeps {s t : State} (h : Keeps s t) (n) : OutKeeps s (execRestoreShard n t) := by
  unfold execRestoreShard
  repeat' first
    | with_reducible assumption | extract_lets | with_reducible apply outKeeps_next | with_reducible apply onDescriptor_keeps
    | with_reducible apply startRestore_keeps | intro _

end Sys2Proof.Machine
end

