-- ==== Sys2Proof/Laws/KeepsCore.lean ====
section
/-! SUPPORT. Each operation and each meaning keeps what no command touches (Keeps, Safety.lean): control, mesh, move, PCIe and vector words. -/

namespace Sys2Proof.Machine

theorem onControl_keeps {s t : State} (h : Keeps s t) {c : Instr} (i : Issue) (f : CoreRun → Core → Core)
    (hf : ∀ r k, Mem.wf k.scratch = true → Mem.wf (f r k).scratch = true) : Keeps s (onControl c i f t) := by
  unfold onControl
  dsimp only
  split
  · exact h
  · split
    · exact h
    · exact onCore_keeps h _ _ fun k hk => hf _ _ (by rw [wordEcc_scratch, settle_scratch]; exact hk)

theorem execWaits_keeps {s t : State} (h : Keeps s t) (a0) : OutKeeps s (execWaits a0 t) := by
  unfold execWaits
  repeat' first
    | with_reducible assumption | extract_lets | with_reducible apply outKeeps_next | with_reducible apply onControl_keeps
    | split | (dsimp +zetaDelta only) | intro _

theorem execLoop_keeps {s t : State} (h : Keeps s t) (a0) (a1) (a2) : OutKeeps s (execLoop a0 a1 a2 t) := by
  unfold execLoop
  repeat' first
    | with_reducible assumption | extract_lets | with_reducible apply outKeeps_next | with_reducible apply onControl_keeps
    | split | (dsimp +zetaDelta only) | exact fun _ hk => hk | intro _

theorem execDelay_keeps {s t : State} (h : Keeps s t) (a0) (a1) : OutKeeps s (execDelay a0 a1 t) := by
  unfold execDelay
  repeat' first
    | with_reducible assumption | extract_lets | with_reducible apply outKeeps_next | with_reducible apply onControl_keeps
    | split | (dsimp +zetaDelta only) | exact fun _ hk => hk | intro _

theorem execPhase_keeps {s t : State} (h : Keeps s t) (a0) (a1) : OutKeeps s (execPhase a0 a1 t) := by
  unfold execPhase
  repeat' first
    | with_reducible assumption | extract_lets | with_reducible apply outKeeps_next | with_reducible apply onStu_keeps
    | with_reducible apply onControl_keeps | split | (dsimp +zetaDelta only) | exact fun _ hk => hk | intro _

theorem execNop_keeps {s t : State} (h : Keeps s t) (a0) (a1) : OutKeeps s (execNop a0 a1 t) := by
  unfold execNop
  repeat' first
    | with_reducible assumption | extract_lets | with_reducible apply outKeeps_next | with_reducible apply onControl_keeps
    | split | (dsimp +zetaDelta only) | exact fun _ hk => hk | intro _

theorem execSetc_keeps {s t : State} (h : Keeps s t) (a0) (a1) (a2) : OutKeeps s (execSetc a0 a1 a2 t) := by
  unfold execSetc
  repeat' first
    | with_reducible assumption | extract_lets | with_reducible apply outKeeps_next | with_reducible apply onControl_keeps
    | split | (dsimp +zetaDelta only) | exact fun _ hk => hk | intro _

theorem execPset_keeps {s t : State} (h : Keeps s t) (a0) (a1) (a2) (a3) (a4) : OutKeeps s (execPset a0 a1 a2 a3 a4 t) := by
  unfold execPset
  repeat' first
    | with_reducible assumption | extract_lets | with_reducible apply outKeeps_next | with_reducible apply onControl_keeps
    | split | (dsimp +zetaDelta only) | exact fun _ hk => hk | intro _

theorem takeFlit_keeps {s t : State} (h : Keeps s t) (r a1) : Keeps s (takeFlit r a1 t) := by
  unfold takeFlit
  repeat' first
    | with_reducible assumption | extract_lets | with_reducible apply onCores_keeps | (intro _ hh; exact hh)

theorem meshConflict_keeps {s t : State} (h : Keeps s t) (r f) : Keeps s (meshConflict r f t) := by
  unfold meshConflict
  repeat' first
    | with_reducible assumption | with_reducible apply onRouter_keeps

theorem ejectFlit_keeps {s t : State} (h : Keeps s t) (r e f) : Keeps s (ejectFlit r e f t) := by
  unfold ejectFlit
  repeat' first
    | with_reducible assumption | extract_lets | with_reducible apply onCore_keeps | exact fun hw => Mem.write_wf _ _ _ hw | split
    | (dsimp +zetaDelta only) | intro _

theorem leaveBy_keeps {s t : State} (h : Keeps s t) (a0) (a1) (a2) : Keeps s (leaveBy a0 a1 a2 t) := by
  unfold leaveBy
  repeat' first
    | with_reducible assumption | extract_lets | with_reducible apply onCores_keeps | with_reducible apply gatherCell_keeps
    | split | (dsimp +zetaDelta only) | intro _

theorem routeFlit_keeps {s t : State} (h : Keeps s t) (r : Nat) (f : Flit) (used : List Nat) :
    Keeps s (routeFlit r f used t).1 := by
  unfold routeFlit
  split
  · exact violate_keeps h _ _
  · extract_lets
    split
    · exact meshConflict_keeps h _ _
    · refine each_keeps ?_ _ _ fun u o hu => leaveBy_keeps hu _ _ _
      dsimp +zetaDelta only
      split
      · exact ejectFlit_keeps h _ _ _
      · exact h

theorem execFlitArrival_keeps {s t : State} (h : Keeps s t) (router : RouterId) (flits : List (MeshIn × Flit)) :
    OutKeeps s (execFlitArrival router flits t) := by
  have h1 : Keeps s (t.each flits fun s x => takeFlit (routerIdNum router) x s) :=
    each_keeps h _ _ fun _ _ hu => takeFlit_keeps hu _ _
  have h2 (l : List (MeshIn × Flit)) : ∀ a : State × List Nat, Keeps s a.1 →
      Keeps s (l.foldl (fun (a : State × List Nat) x => routeFlit (routerIdNum router) x.2 a.2 a.1) a).1 := by
    induction l with
    | nil => exact fun _ ha => ha
    | cons x l ih => exact fun a ha => ih _ (routeFlit_keeps ha _ _ _)
  unfold execFlitArrival
  dsimp only
  split
  · exact outKeeps_next (each_keeps h1 _ _ fun _ _ hu => violate_keeps hu _ _)
  · split
    · exact outKeeps_next (each_keeps h1 _ _ fun _ _ hu => fenceDrop_keeps hu _ _)
    · exact outKeeps_next (h2 _ _ h1)

theorem execHrdReturn_keeps {s t : State} (h : Keeps s t) (core) : OutKeeps s (execHrdReturn core t) := by
  unfold execHrdReturn
  repeat' first
    | with_reducible assumption | extract_lets | with_reducible apply outKeeps_next | with_reducible apply onCores_keeps
    | with_reducible apply scratchBound_keeps | with_reducible apply onCore_keeps | (intro _ hh; exact hh)
    | exact fun hw => Mem.write_wf _ _ _ hw | split | intro _

theorem execVst_keeps {s t : State} (h : Keeps s t) (i vs addr size) : OutKeeps s (execVst i vs addr size t) := by
  unfold execVst
  repeat' first
    | with_reducible assumption | extract_lets | with_reducible apply outKeeps_next | with_reducible apply onIssue_keeps
    | with_reducible apply onCore_keeps | with_reducible apply scratchBound_keeps | exact fun hw => Mem.write_wf _ _ _ hw
    | (dsimp +zetaDelta only) | intro _

theorem injectFlit_keeps {s t : State} (h : Keeps s t) (c route bs) : Keeps s (injectFlit c route bs t) := by
  unfold injectFlit
  repeat' first
    | with_reducible assumption | extract_lets | with_reducible apply onCores_keeps | (intro _ hh; exact hh)

theorem hbmSlotIssue_keeps {s t : State} (h : Keeps s t) {c : Instr} (i : Issue) (slot : Nat) (kind : State → Nat → AccessKind)
    (stray : State → Nat → Option AccessKind) (ecc : Nat → Nat → State → State)
    (he : ∀ n c u, Keeps s u → Keeps s (ecc n c u)) : Keeps s (hbmSlotIssue c i slot kind stray ecc t) := by
  unfold hbmSlotIssue
  dsimp only
  split
  · exact h
  · split
    · exact h
    · refine onIssue_keeps (onCore_keeps h _ _ ?_) i _ fun n c u hu => ?_
      · exact fun _ hk => hk
      split
      · refine onHbm_keeps (he _ _ _ hu) _ ?_
        exact fun _ hb => hb
      · split
        · refine onHbm_keeps (violate_keeps hu _ _) _ ?_
          exact fun _ hb => hb
        · exact violate_keeps hu _ _

theorem execSetdc_keeps {s t : State} (h : Keeps s t) (i dc fmt rnd ieee sigma tg srs) :
    OutKeeps s (execSetdc i dc fmt rnd ieee sigma tg srs t) := by
  unfold execSetdc
  repeat' first
    | with_reducible assumption | extract_lets | with_reducible apply outKeeps_next | with_reducible apply onIssueCore_keeps
    | (intro _ hh; exact hh)

theorem execHrd_keeps {s t : State} (h : Keeps s t) (a0) (a1) (a2) : OutKeeps s (execHrd a0 a1 a2 t) := by
  unfold execHrd
  repeat' first
    | with_reducible assumption | extract_lets | with_reducible apply outKeeps_next | with_reducible apply hbmSlotIssue_keeps
    | split | (dsimp +zetaDelta only) | intro _

theorem execMsend_keeps {s t : State} (h : Keeps s t) (i src route) : OutKeeps s (execMsend i src route t) := by
  unfold execMsend
  repeat' first
    | with_reducible assumption | extract_lets | with_reducible apply outKeeps_next | with_reducible apply onIssue_keeps
    | with_reducible apply injectFlit_keeps | with_reducible apply readSlot_keeps | split | intro _

theorem execVld_keeps {s t : State} (h : Keeps s t) (i vd line) : OutKeeps s (execVld i vd line t) := by
  unfold execVld
  repeat' first
    | with_reducible assumption | extract_lets | with_reducible apply outKeeps_next | with_reducible apply onIssue_keeps
    | with_reducible apply onCore_keeps | with_reducible apply readSlot_keeps | (intro _ hh; exact hh) | (dsimp +zetaDelta only)
    | intro _

theorem execGather_keeps {s t : State} (h : Keeps s t) (i vd bank base lenM1 vi) :
    OutKeeps s (execGather i vd bank base lenM1 vi t) := by
  unfold execGather
  repeat' first
    | with_reducible assumption | extract_lets | with_reducible apply outKeeps_next | with_reducible apply onIssue_keeps
    | with_reducible apply onCore_keeps | with_reducible apply violate_keeps | with_reducible apply readSlot_keeps
    | (intro _ hh; exact hh) | split | (dsimp +zetaDelta only) | intro _

theorem execBset_keeps {s t : State} (h : Keeps s t) (i stream start stride) : OutKeeps s (execBset i stream start stride t) := by
  unfold execBset
  repeat' first
    | with_reducible assumption | extract_lets | with_reducible apply outKeeps_next | with_reducible apply onIssueCore_keeps
    | (intro _ hh; exact hh)

theorem execBld_keeps {s t : State} (h : Keeps s t) (i stream line) : OutKeeps s (execBld i stream line t) := by
  unfold execBld
  repeat' first
    | with_reducible assumption | extract_lets | with_reducible apply outKeeps_next | with_reducible apply onIssue_keeps
    | with_reducible apply onCore_keeps | with_reducible apply takeStream_keeps | with_reducible apply scratchBound_keeps
    | exact fun hw => Mem.write_wf _ _ _ hw | (dsimp +zetaDelta only) | intro _

theorem execHwr_keeps {s t : State} (h : Keeps s t) (a0) (a1) (a2) : OutKeeps s (execHwr a0 a1 a2 t) := by
  unfold execHwr
  repeat' first
    | with_reducible assumption | extract_lets | with_reducible apply outKeeps_next | with_reducible apply hbmSlotIssue_keeps
    | with_reducible apply readSlot_keeps | split | (dsimp +zetaDelta only) | intro _

theorem execStream_keeps {s t : State} (h : Keeps s t) (i srs purpose sub) : OutKeeps s (execStream i srs purpose sub t) := by
  unfold execStream
  repeat' first
    | with_reducible assumption | extract_lets | with_reducible apply outKeeps_next | with_reducible apply onIssueCore_keeps
    | (intro _ hh; exact hh)

theorem execDraw_keeps {s t : State} (h : Keeps s t) (i srs index) : OutKeeps s (execDraw i srs index t) := by
  unfold execDraw
  repeat' first
    | with_reducible assumption | extract_lets | with_reducible apply outKeeps_next | with_reducible apply onIssueCore_keeps
    | (intro _ hh; exact hh)

theorem execLmask_keeps {s t : State} (h : Keeps s t) (i mask addr) : OutKeeps s (execLmask i mask addr t) := by
  unfold execLmask
  repeat' first
    | with_reducible assumption | extract_lets | with_reducible apply outKeeps_next | with_reducible apply onIssue_keeps
    | with_reducible apply readSlot_keeps | with_reducible apply onCore_keeps | (intro _ hh; exact hh) | split
    | (dsimp +zetaDelta only) | intro _

theorem failOnPortS_keeps {s t : State} (h : Keeps s t) (a1) : Keeps s (failOnPortS t a1) := by
  unfold failOnPortS
  repeat' first
    | with_reducible assumption | with_reducible apply shardDrained_keeps | with_reducible apply restoreDone_keeps
    | with_reducible apply bundleDone_keeps | split

theorem resetPortS_keeps {s t : State} (h : Keeps s t) : Keeps s (resetPortS t) := by
  unfold resetPortS
  repeat' first
    | with_reducible assumption | extract_lets | with_reducible apply each_keeps | with_reducible apply failOnPortS_keeps
    | intro _

theorem execPerst_keeps {s t : State} (h : Keeps s t) (p asserted) : OutKeeps s (execPerst p asserted t) := by
  unfold execPerst
  repeat' first
    | with_reducible assumption | extract_lets | with_reducible apply outKeeps_next | with_reducible apply requestReset_keeps
    | with_reducible apply onPower_keeps | with_reducible apply resetPortS_keeps | split

theorem execPortSReset_keeps {s t : State} (h : Keeps s t) : OutKeeps s (execPortSReset t) := by
  unfold execPortSReset
  repeat' first
    | with_reducible assumption | extract_lets | with_reducible apply outKeeps_next | with_reducible apply onPower_keeps
    | with_reducible apply resetPortS_keeps

theorem mxeSlot_keeps {s t : State} (h : Keeps s t) (i v a2 n c) : Keeps s (mxeSlot i v a2 n c t) := by
  unfold mxeSlot
  repeat' first
    | with_reducible assumption | extract_lets | with_reducible apply onCore_keeps | (intro _ hh; simpa using hh)

theorem execWidInt8_keeps {s t : State} (h : Keeps s t) (i v) : OutKeeps s (execWidInt8 i v t) := by
  unfold execWidInt8
  repeat' first
    | with_reducible assumption | extract_lets | with_reducible apply outKeeps_next | with_reducible apply onIssueCore_keeps
    | (intro _ hh; exact hh)

theorem execLanes_keeps {s t : State} (h : Keeps s t) (a0) (a1) (a2) (a3) (a4) : OutKeeps s (execLanes a0 a1 a2 a3 a4 t) := by
  unfold execLanes
  repeat' first
    | with_reducible assumption | extract_lets | with_reducible apply outKeeps_next | with_reducible apply onIssueCore_keeps
    | split | (dsimp +zetaDelta only) | exact fun _ hk => hk | intro _

theorem execFadd_keeps {s t : State} (h : Keeps s t) (a0) (a1) : OutKeeps s (execFadd a0 a1 t) := by
  unfold execFadd
  repeat' first
    | with_reducible assumption | extract_lets | with_reducible apply outKeeps_next | with_reducible apply execLanes_keeps
    | split | (dsimp +zetaDelta only) | intro _

theorem execSqrt_keeps {s t : State} (h : Keeps s t) (a0) (a1) : OutKeeps s (execSqrt a0 a1 t) := by
  unfold execSqrt
  repeat' first
    | with_reducible assumption | extract_lets | with_reducible apply outKeeps_next | with_reducible apply execLanes_keeps
    | split | (dsimp +zetaDelta only) | intro _

theorem execBcast_keeps {s t : State} (h : Keeps s t) (i v) : OutKeeps s (execBcast i v t) := by
  unfold execBcast
  repeat' first
    | with_reducible assumption | extract_lets | with_reducible apply outKeeps_next | with_reducible apply onIssueCore_keeps
    | (intro _ hh; exact hh)

theorem execWidMx_keeps {s t : State} (h : Keeps s t) (i v) : OutKeeps s (execWidMx i v t) := by
  unfold execWidMx
  repeat' first
    | with_reducible assumption | extract_lets | with_reducible apply outKeeps_next | with_reducible apply onIssueCore_keeps
    | (intro _ hh; exact hh)

theorem execFdiv_keeps {s t : State} (h : Keeps s t) (a0) (a1) : OutKeeps s (execFdiv a0 a1 t) := by
  unfold execFdiv
  repeat' first
    | with_reducible assumption | extract_lets | with_reducible apply outKeeps_next | with_reducible apply execLanes_keeps
    | split | (dsimp +zetaDelta only) | intro _

theorem execImul_keeps {s t : State} (h : Keeps s t) (a0) (a1) : OutKeeps s (execImul a0 a1 t) := by
  unfold execImul
  repeat' first
    | with_reducible assumption | extract_lets | with_reducible apply outKeeps_next | with_reducible apply execLanes_keeps
    | split | (dsimp +zetaDelta only) | intro _

theorem execLog2_keeps {s t : State} (h : Keeps s t) (a0) (a1) : OutKeeps s (execLog2 a0 a1 t) := by
  unfold execLog2
  repeat' first
    | with_reducible assumption | extract_lets | with_reducible apply outKeeps_next | with_reducible apply execLanes_keeps
    | split | (dsimp +zetaDelta only) | intro _

theorem execRsum_keeps {s t : State} (h : Keeps s t) (i v) : OutKeeps s (execRsum i v t) := by
  unfold execRsum
  repeat' first
    | with_reducible assumption | extract_lets | with_reducible apply outKeeps_next | with_reducible apply onIssueCore_keeps
    | (intro _ hh; exact hh)

theorem execAnd_keeps {s t : State} (h : Keeps s t) (a0) (a1) : OutKeeps s (execAnd a0 a1 t) := by
  unfold execAnd
  repeat' first
    | with_reducible assumption | extract_lets | with_reducible apply outKeeps_next | with_reducible apply execLanes_keeps
    | split | (dsimp +zetaDelta only) | intro _

theorem execWiden_keeps {s t : State} (h : Keeps s t) (a0) (a1) (a2) (a3) : OutKeeps s (execWiden a0 a1 a2 a3 t) := by
  unfold execWiden
  repeat' first
    | with_reducible assumption | extract_lets | with_reducible apply outKeeps_next | with_reducible apply onIssueCore_keeps
    | split | (dsimp +zetaDelta only) | exact fun _ hk => hk | intro _

theorem execWidE5m2_keeps {s t : State} (h : Keeps s t) (a0) (a1) : OutKeeps s (execWidE5m2 a0 a1 t) := by
  unfold execWidE5m2
  repeat' first
    | with_reducible assumption | extract_lets | with_reducible apply outKeeps_next | with_reducible apply execWiden_keeps
    | split | (dsimp +zetaDelta only) | intro _

theorem execFsub_keeps {s t : State} (h : Keeps s t) (a0) (a1) : OutKeeps s (execFsub a0 a1 t) := by
  unfold execFsub
  repeat' first
    | with_reducible assumption | extract_lets | with_reducible apply outKeeps_next | with_reducible apply execLanes_keeps
    | split | (dsimp +zetaDelta only) | intro _

theorem execMxe_keeps {s t : State} (h : Keeps s t) (a0) (a1) (a2) (a3) : OutKeeps s (execMxe a0 a1 a2 a3 t) := by
  unfold execMxe
  repeat' first
    | with_reducible assumption | extract_lets | with_reducible apply outKeeps_next | with_reducible apply mxeSlot_keeps
    | with_reducible apply onIssue_keeps | split | (dsimp +zetaDelta only) | intro _

theorem execRmax_keeps {s t : State} (h : Keeps s t) (i v) : OutKeeps s (execRmax i v t) := by
  unfold execRmax
  repeat' first
    | with_reducible assumption | extract_lets | with_reducible apply outKeeps_next | with_reducible apply onIssueCore_keeps
    | (intro _ hh; exact hh)

theorem execSexp_keeps {s t : State} (h : Keeps s t) (a0) (a1) : OutKeeps s (execSexp a0 a1 t) := by
  unfold execSexp
  repeat' first
    | with_reducible assumption | extract_lets | with_reducible apply outKeeps_next | with_reducible apply execLanes_keeps
    | split | (dsimp +zetaDelta only) | intro _

theorem narrowSlot_keeps {s t : State} (h : Keeps s t) (i v bits f n c) : Keeps s (narrowSlot i v bits f n c t) := by
  unfold narrowSlot
  repeat' first
    | with_reducible assumption | extract_lets | with_reducible apply onCore_keeps | (intro _ hh; simpa using hh)

theorem execNarrowInt_keeps {s t : State} (h : Keeps s t) (a0) (a1) (a2) (a3) : OutKeeps s (execNarrowInt a0 a1 a2 a3 t) := by
  unfold execNarrowInt
  repeat' first
    | with_reducible assumption | extract_lets | with_reducible apply outKeeps_next | with_reducible apply narrowSlot_keeps
    | with_reducible apply onIssue_keeps | split | (dsimp +zetaDelta only) | intro _

theorem execNrwInt8_keeps {s t : State} (h : Keeps s t) (a0) (a1) : OutKeeps s (execNrwInt8 a0 a1 t) := by
  unfold execNrwInt8
  repeat' first
    | with_reducible assumption | extract_lets | with_reducible apply outKeeps_next | with_reducible apply execNarrowInt_keeps
    | split | (dsimp +zetaDelta only) | intro _

theorem execShr_keeps {s t : State} (h : Keeps s t) (a0) (a1) : OutKeeps s (execShr a0 a1 t) := by
  unfold execShr
  repeat' first
    | with_reducible assumption | extract_lets | with_reducible apply outKeeps_next | with_reducible apply execLanes_keeps
    | split | (dsimp +zetaDelta only) | intro _

theorem execFma_keeps {s t : State} (h : Keeps s t) (a0) (a1) : OutKeeps s (execFma a0 a1 t) := by
  unfold execFma
  repeat' first
    | with_reducible assumption | extract_lets | with_reducible apply outKeeps_next | with_reducible apply execLanes_keeps
    | split | (dsimp +zetaDelta only) | intro _

theorem execTanh_keeps {s t : State} (h : Keeps s t) (a0) (a1) : OutKeeps s (execTanh a0 a1 t) := by
  unfold execTanh
  repeat' first
    | with_reducible assumption | extract_lets | with_reducible apply outKeeps_next | with_reducible apply execLanes_keeps
    | split | (dsimp +zetaDelta only) | intro _

theorem execNrwInt32_keeps {s t : State} (h : Keeps s t) (a0) (a1) : OutKeeps s (execNrwInt32 a0 a1 t) := by
  unfold execNrwInt32
  repeat' first
    | with_reducible assumption | extract_lets | with_reducible apply outKeeps_next | with_reducible apply execNarrowInt_keeps
    | split | (dsimp +zetaDelta only) | intro _

theorem execRand_keeps {s t : State} (h : Keeps s t) (i v) : OutKeeps s (execRand i v t) := by
  unfold execRand
  repeat' first
    | with_reducible assumption | extract_lets | with_reducible apply outKeeps_next | with_reducible apply onIssue_keeps
    | with_reducible apply onCore_keeps | (intro _ hh; exact hh) | (dsimp +zetaDelta only) | intro _

theorem execSlse_keeps {s t : State} (h : Keeps s t) (a0) (a1) : OutKeeps s (execSlse a0 a1 t) := by
  unfold execSlse
  repeat' first
    | with_reducible assumption | extract_lets | with_reducible apply outKeeps_next | with_reducible apply execLanes_keeps
    | split | (dsimp +zetaDelta only) | intro _

theorem execExp_keeps {s t : State} (h : Keeps s t) (a0) (a1) : OutKeeps s (execExp a0 a1 t) := by
  unfold execExp
  repeat' first
    | with_reducible assumption | extract_lets | with_reducible apply outKeeps_next | with_reducible apply execLanes_keeps
    | split | (dsimp +zetaDelta only) | intro _

theorem execExp2_keeps {s t : State} (h : Keeps s t) (a0) (a1) : OutKeeps s (execExp2 a0 a1 t) := by
  unfold execExp2
  repeat' first
    | with_reducible assumption | extract_lets | with_reducible apply outKeeps_next | with_reducible apply execLanes_keeps
    | split | (dsimp +zetaDelta only) | intro _

theorem execMxeE2m1_keeps {s t : State} (h : Keeps s t) (a0) (a1) : OutKeeps s (execMxeE2m1 a0 a1 t) := by
  unfold execMxeE2m1
  repeat' first
    | with_reducible assumption | extract_lets | with_reducible apply outKeeps_next | with_reducible apply execMxe_keeps
    | split | (dsimp +zetaDelta only) | intro _

theorem execNarrowFp_keeps {s t : State} (h : Keeps s t) (a0) (a1) (a2) (a3) : OutKeeps s (execNarrowFp a0 a1 a2 a3 t) := by
  unfold execNarrowFp
  repeat' first
    | with_reducible assumption | extract_lets | with_reducible apply outKeeps_next | with_reducible apply narrowSlot_keeps
    | with_reducible apply onIssue_keeps | split | (dsimp +zetaDelta only) | intro _

theorem execNrwE5m2_keeps {s t : State} (h : Keeps s t) (a0) (a1) : OutKeeps s (execNrwE5m2 a0 a1 t) := by
  unfold execNrwE5m2
  repeat' first
    | with_reducible assumption | extract_lets | with_reducible apply outKeeps_next | with_reducible apply execNarrowFp_keeps
    | split | (dsimp +zetaDelta only) | intro _

theorem execFmul_keeps {s t : State} (h : Keeps s t) (a0) (a1) : OutKeeps s (execFmul a0 a1 t) := by
  unfold execFmul
  repeat' first
    | with_reducible assumption | extract_lets | with_reducible apply outKeeps_next | with_reducible apply execLanes_keeps
    | split | (dsimp +zetaDelta only) | intro _

theorem execFmax_keeps {s t : State} (h : Keeps s t) (a0) (a1) : OutKeeps s (execFmax a0 a1 t) := by
  unfold execFmax
  repeat' first
    | with_reducible assumption | extract_lets | with_reducible apply outKeeps_next | with_reducible apply execLanes_keeps
    | split | (dsimp +zetaDelta only) | intro _

theorem execNrwE4m3_keeps {s t : State} (h : Keeps s t) (a0) (a1) : OutKeeps s (execNrwE4m3 a0 a1 t) := by
  unfold execNrwE4m3
  repeat' first
    | with_reducible assumption | extract_lets | with_reducible apply outKeeps_next | with_reducible apply execNarrowFp_keeps
    | split | (dsimp +zetaDelta only) | intro _

theorem gseSlot_keeps {s t : State} (h : Keeps s t) (i : Issue) (v : VOp) (n c : Nat) : Keeps s (gseSlot i v n c t) := by
  unfold gseSlot
  dsimp only
  exact onCore_keeps h _ _ fun k hk => by
    rw [ite_scratch]
    simp only [advanceDraw_scratch, onTally_scratch, writeLanes_scratch, ite_self]
    exact hk

theorem execImax_keeps {s t : State} (h : Keeps s t) (a0) (a1) : OutKeeps s (execImax a0 a1 t) := by
  unfold execImax
  repeat' first
    | with_reducible assumption | extract_lets | with_reducible apply outKeeps_next | with_reducible apply execLanes_keeps
    | split | (dsimp +zetaDelta only) | intro _

theorem execCompare_keeps {s t : State} (h : Keeps s t) (a0) (a1) (a2) (a3) : OutKeeps s (execCompare a0 a1 a2 a3 t) := by
  unfold execCompare
  repeat' first
    | with_reducible assumption | extract_lets | with_reducible apply outKeeps_next | with_reducible apply onIssueCore_keeps
    | split | (dsimp +zetaDelta only) | exact fun _ hk => hk | intro _

theorem execIcmplt_keeps {s t : State} (h : Keeps s t) (i v) : OutKeeps s (execIcmplt i v t) := by
  unfold execIcmplt
  repeat' first
    | with_reducible assumption | with_reducible apply execCompare_keeps

theorem execMxeE3m2_keeps {s t : State} (h : Keeps s t) (i v) : OutKeeps s (execMxeE3m2 i v t) := by
  unfold execMxeE3m2
  repeat' first
    | with_reducible assumption | with_reducible apply execMxe_keeps

theorem execFcmple_keeps {s t : State} (h : Keeps s t) (i v) : OutKeeps s (execFcmple i v t) := by
  unfold execFcmple
  repeat' first
    | with_reducible assumption | with_reducible apply execCompare_keeps

theorem execIcmpeq_keeps {s t : State} (h : Keeps s t) (i v) : OutKeeps s (execIcmpeq i v t) := by
  unfold execIcmpeq
  repeat' first
    | with_reducible assumption | with_reducible apply execCompare_keeps

theorem execNrwBf16_keeps {s t : State} (h : Keeps s t) (i v) : OutKeeps s (execNrwBf16 i v t) := by
  unfold execNrwBf16
  repeat' first
    | with_reducible assumption | with_reducible apply execNarrowFp_keeps

theorem execWidBf16_keeps {s t : State} (h : Keeps s t) (i v) : OutKeeps s (execWidBf16 i v t) := by
  unfold execWidBf16
  repeat' first
    | with_reducible assumption | with_reducible apply execWiden_keeps

theorem execFmin_keeps {s t : State} (h : Keeps s t) (i v) : OutKeeps s (execFmin i v t) := by
  unfold execFmin
  repeat' first
    | with_reducible assumption | with_reducible apply execLanes_keeps

theorem execFabs_keeps {s t : State} (h : Keeps s t) (i v) : OutKeeps s (execFabs i v t) := by
  unfold execFabs
  repeat' first
    | with_reducible assumption | with_reducible apply execLanes_keeps

theorem execFneg_keeps {s t : State} (h : Keeps s t) (i v) : OutKeeps s (execFneg i v t) := by
  unfold execFneg
  repeat' first
    | with_reducible assumption | with_reducible apply execLanes_keeps

theorem execFcmplt_keeps {s t : State} (h : Keeps s t) (i v) : OutKeeps s (execFcmplt i v t) := by
  unfold execFcmplt
  repeat' first
    | with_reducible assumption | with_reducible apply execCompare_keeps

theorem execFcmpeq_keeps {s t : State} (h : Keeps s t) (i v) : OutKeeps s (execFcmpeq i v t) := by
  unfold execFcmpeq
  repeat' first
    | with_reducible assumption | with_reducible apply execCompare_keeps

theorem execSel_keeps {s t : State} (h : Keeps s t) (i v) : OutKeeps s (execSel i v t) := by
  unfold execSel
  repeat' first
    | with_reducible assumption | extract_lets | with_reducible apply outKeeps_next | with_reducible apply onIssueCore_keeps
    | (intro _ hh; exact hh)

theorem execLn_keeps {s t : State} (h : Keeps s t) (i v) : OutKeeps s (execLn i v t) := by
  unfold execLn
  repeat' first
    | with_reducible assumption | with_reducible apply execLanes_keeps

theorem execRcp_keeps {s t : State} (h : Keeps s t) (i v) : OutKeeps s (execRcp i v t) := by
  unfold execRcp
  repeat' first
    | with_reducible assumption | with_reducible apply execLanes_keeps

theorem execRsqrt_keeps {s t : State} (h : Keeps s t) (i v) : OutKeeps s (execRsqrt i v t) := by
  unfold execRsqrt
  repeat' first
    | with_reducible assumption | with_reducible apply execLanes_keeps

theorem execSigmoid_keeps {s t : State} (h : Keeps s t) (i v) : OutKeeps s (execSigmoid i v t) := by
  unfold execSigmoid
  repeat' first
    | with_reducible assumption | with_reducible apply execLanes_keeps

theorem execSalpha_keeps {s t : State} (h : Keeps s t) (i v) : OutKeeps s (execSalpha i v t) := by
  unfold execSalpha
  repeat' first
    | with_reducible assumption | with_reducible apply execLanes_keeps

theorem execSfin_keeps {s t : State} (h : Keeps s t) (i v) : OutKeeps s (execSfin i v t) := by
  unfold execSfin
  repeat' first
    | with_reducible assumption | extract_lets | with_reducible apply outKeeps_next | with_reducible apply onIssueCore_keeps
    | (intro _ hh; exact hh)

theorem execIadd_keeps {s t : State} (h : Keeps s t) (i v) : OutKeeps s (execIadd i v t) := by
  unfold execIadd
  repeat' first
    | with_reducible assumption | with_reducible apply execLanes_keeps

theorem execIsub_keeps {s t : State} (h : Keeps s t) (i v) : OutKeeps s (execIsub i v t) := by
  unfold execIsub
  repeat' first
    | with_reducible assumption | with_reducible apply execLanes_keeps

theorem execOr_keeps {s t : State} (h : Keeps s t) (i v) : OutKeeps s (execOr i v t) := by
  unfold execOr
  repeat' first
    | with_reducible assumption | with_reducible apply execLanes_keeps

theorem execXor_keeps {s t : State} (h : Keeps s t) (i v) : OutKeeps s (execXor i v t) := by
  unfold execXor
  repeat' first
    | with_reducible assumption | with_reducible apply execLanes_keeps

theorem execShl_keeps {s t : State} (h : Keeps s t) (i v) : OutKeeps s (execShl i v t) := by
  unfold execShl
  repeat' first
    | with_reducible assumption | with_reducible apply execLanes_keeps

theorem execSra_keeps {s t : State} (h : Keeps s t) (i v) : OutKeeps s (execSra i v t) := by
  unfold execSra
  repeat' first
    | with_reducible assumption | with_reducible apply execLanes_keeps

theorem execImin_keeps {s t : State} (h : Keeps s t) (i v) : OutKeeps s (execImin i v t) := by
  unfold execImin
  repeat' first
    | with_reducible assumption | with_reducible apply execLanes_keeps

theorem execNrwFp16_keeps {s t : State} (h : Keeps s t) (i v) : OutKeeps s (execNrwFp16 i v t) := by
  unfold execNrwFp16
  repeat' first
    | with_reducible assumption | with_reducible apply execNarrowFp_keeps

theorem execCvtI2f_keeps {s t : State} (h : Keeps s t) (i v) : OutKeeps s (execCvtI2f i v t) := by
  unfold execCvtI2f
  repeat' first
    | with_reducible assumption | with_reducible apply execLanes_keeps

theorem execMxeE4m3_keeps {s t : State} (h : Keeps s t) (i v) : OutKeeps s (execMxeE4m3 i v t) := by
  unfold execMxeE4m3
  repeat' first
    | with_reducible assumption | with_reducible apply execMxe_keeps

theorem execMxeE5m2_keeps {s t : State} (h : Keeps s t) (i v) : OutKeeps s (execMxeE5m2 i v t) := by
  unfold execMxeE5m2
  repeat' first
    | with_reducible assumption | with_reducible apply execMxe_keeps

theorem execMxeE2m3_keeps {s t : State} (h : Keeps s t) (i v) : OutKeeps s (execMxeE2m3 i v t) := by
  unfold execMxeE2m3
  repeat' first
    | with_reducible assumption | with_reducible apply execMxe_keeps

theorem execGse_keeps {s t : State} (h : Keeps s t) (i v) : OutKeeps s (execGse i v t) := by
  unfold execGse
  repeat' first
    | with_reducible assumption | extract_lets | with_reducible apply outKeeps_next | with_reducible apply onIssue_keeps
    | with_reducible apply gseSlot_keeps | intro _

theorem execWidFp16_keeps {s t : State} (h : Keeps s t) (i v) : OutKeeps s (execWidFp16 i v t) := by
  unfold execWidFp16
  repeat' first
    | with_reducible assumption | with_reducible apply execWiden_keeps

theorem execWidE4m3_keeps {s t : State} (h : Keeps s t) (i v) : OutKeeps s (execWidE4m3 i v t) := by
  unfold execWidE4m3
  repeat' first
    | with_reducible assumption | with_reducible apply execWiden_keeps

end Sys2Proof.Machine
end

