-- ==== Sys2Proof/Laws/KeepsRegs.lean ====
section
/-! SUPPORT. Each operation and each meaning keeps what no command touches (Keeps, Safety.lean): the registers and the tick. -/

namespace Sys2Proof.Machine

theorem readAt_keeps {s t : State} (h : Keeps s t) (offset wide) : Keeps s (readAt offset wide t) := by
  unfold readAt
  repeat' first
    | with_reducible assumption | extract_lets | with_reducible apply emit_keeps | with_reducible apply seaRtNext_keeps
    | with_reducible apply violate_keeps | split

theorem execRegisterRead_keeps {s t : State} (h : Keeps s t) (offset wide) : OutKeeps s (execRegisterRead offset wide t) := by
  unfold execRegisterRead
  repeat' first
    | with_reducible assumption | extract_lets | with_reducible apply outKeeps_next | with_reducible apply emit_keeps
    | with_reducible apply violate_keeps | with_reducible apply readAt_keeps | with_reducible apply bar0Read_keeps | split
    | intro _

/-- Every write that a register takes keeps what no command touches. -/
structure RegOk (r : Reg) : Prop where
  write : ∀ s t v, Keeps s t → Keeps s (r.write v t)
  upper : ∀ f, r.upper = some f → ∀ s t v, Keeps s t → Keeps s (f v t)

theorem checkRsv_ok (rsv : W64) (s t : State) (v : W64) (h : Keeps s t) : Keeps s (checkRsv rsv v t) := checkRsv_keeps h rsv v

theorem roReg_ok (value rsv : W64) : RegOk (roReg value rsv) := ⟨checkRsv_ok rsv, fun _ e => by cases e⟩

theorem opReg_ok (value keep : W64) (f : W64 → State → State) (hf : ∀ s t v, Keeps s t → Keeps s (f v t)) :
    RegOk (opReg value keep f) := ⟨hf, fun _ e => by cases e⟩

theorem woReg_ok (f : W64 → State → State) (hf : ∀ s t v, Keeps s t → Keeps s (f v t)) : RegOk (woReg f) :=
  ⟨hf, fun _ e => by cases e⟩

theorem rwReg_ok (value rsv rw : W64) (f : W64 → State → State) (hf : ∀ s t v, Keeps s t → Keeps s (f v t)) :
    RegOk (rwReg value rsv rw f) :=
  ⟨fun _ _ _ h => hf _ _ _ (checkRsv_ok _ _ _ _ h), fun _ e => by cases e⟩

theorem guardReg_ok (value rsv rw : W64) (g : W64 → Bool) (f : W64 → State → State) (hf : ∀ s t v, Keeps s t → Keeps s (f v t)) :
    RegOk (guardReg value rsv rw g f) :=
  ⟨fun _ _ _ h => ite_keeps (violate_keeps h _ _) (hf _ _ _ (checkRsv_ok _ _ _ _ h)), fun _ e => by cases e⟩

theorem lockReg_ok (value rsv rw rwl w1t : W64) (l : Bool) (f : W64 → State → State)
    (hf : ∀ s t v, Keeps s t → Keeps s (f v t)) : RegOk (lockReg value rsv rw rwl w1t l f) :=
  ⟨fun _ _ _ h => hf _ _ _ (ite_keeps (violate_keeps h _ _) h), fun _ e => by cases e⟩

theorem presentReg_ok (s : State) (rsv : W64) (f : Nat → Reg) (hf : ∀ i, RegOk (f i)) (k : Nat) : RegOk (presentReg s rsv f k) := by
  unfold presentReg
  split
  · exact hf k
  · exact ⟨checkRsv_ok rsv, (hf k).upper⟩

/-- The register an offset finds takes only such writes. -/
def RegsOk (o : Option Reg) : Prop := ∀ r, o = some r → RegOk r

theorem regsOk_some {r : Reg} (h : RegOk r) : RegsOk (some r) := fun _ e => by cases e; exact h

theorem regsOk_none : RegsOk none := fun _ e => by cases e

theorem arrays_nil_ok (off : Nat) : RegsOk (arrays off []) := regsOk_none

theorem arrays_cons_ok (off base stride count : Nat) (f : Nat → Reg) (l : List (Nat × Nat × Nat × (Nat → Reg)))
    (hf : ∀ i, RegOk (f i)) (hl : RegsOk (arrays off l)) : RegsOk (arrays off ((base, stride, count, f) :: l)) := by
  unfold arrays
  split
  · exact regsOk_some (hf _)
  · exact hl

theorem idnReg_ok (s : State) (off : Nat) : RegsOk (idnReg s off) := by
  unfold idnReg
  repeat' first
    | with_reducible apply roReg_ok
    | with_reducible apply regsOk_some
    | with_reducible apply regsOk_none
    | split

theorem ledgerBaseReg_ok (s : State) (n : Nat) : RegOk (ledgerBaseReg s n) := by
  unfold ledgerBaseReg
  repeat' first
    | with_reducible apply rwReg_ok
    | split
    | (with_reducible intro s t v h)
    | intro _
    | exact onStu_keeps h _

theorem ledgerCfgReg_ok (s : State) (n : Nat) : RegOk (ledgerCfgReg s n) := by
  unfold ledgerCfgReg
  repeat' first
    | with_reducible apply rwReg_ok
    | split
    | (with_reducible intro s t v h)
    | intro _
    | exact onStu_keeps h _

theorem stuReg_ok (s : State) (off : Nat) : RegsOk (stuReg s off) := by
  unfold stuReg
  split
  · exact regsOk_some (opReg_ok _ _ _ fun _ _ v h => writeStuCtrl_keeps h v)
  · exact regsOk_some ⟨fun _ _ v h => writeStuPeriod_keeps h v, fun _ e => by cases e; exact checkRsv_ok _⟩
  · exact regsOk_some (roReg_ok _ _)
  · exact regsOk_some (roReg_ok _ _)
  · exact regsOk_some (roReg_ok _ _)
  · exact regsOk_some (opReg_ok _ _ _ fun _ _ v h => writeStretchReq_keeps h v)
  · exact regsOk_some (roReg_ok _ _)
  · exact arrays_cons_ok _ _ _ _ _ _ (ledgerBaseReg_ok s) (arrays_cons_ok _ _ _ _ _ _ (ledgerCfgReg_ok s) (arrays_nil_ok _))

theorem windowReg_ok (s : State) (w : Nat) : RegOk (windowReg s w) := by
  unfold windowReg
  repeat' first
    | with_reducible apply lockReg_ok
    | split
    | (with_reducible intro s t v h)
    | intro _
    | exact onHif_keeps h _

theorem ringAddrReg_ok (s : State) (n low : Nat) (get : Ring → W64) (set : W64 → Ring → Ring) : RegOk (ringAddrReg s n low get set) := by
  unfold ringAddrReg
  repeat' first
    | with_reducible apply guardReg_ok
    | split
    | (with_reducible intro s t v h)
    | intro _
    | exact onRing_keeps h _ _

theorem ringCfgReg_ok (s : State) (n : Nat) : RegOk (ringCfgReg s n) := by
  unfold ringCfgReg
  repeat' first
    | with_reducible apply opReg_ok
    | split
    | (with_reducible intro s t v h)
    | intro _
    | with_reducible apply writeRingCfg_keeps h

theorem hrgReg_ok (s : State) (off : Nat) : RegsOk (hrgReg s off) := by
  unfold hrgReg
  repeat' first
    | with_reducible apply roReg_ok
    | with_reducible apply lockReg_ok
    | with_reducible apply windowReg_ok
    | with_reducible apply ringAddrReg_ok
    | with_reducible apply ringCfgReg_ok
    | with_reducible apply regsOk_some
    | with_reducible apply regsOk_none
    | with_reducible apply arrays_nil_ok
    | with_reducible apply arrays_cons_ok
    | split
    | (with_reducible intro s t v h)
    | intro _
    | exact onHif_keeps h _

theorem evqBaseReg_ok (s : State) (n : Nat) : RegOk (evqBaseReg s n) := by
  unfold evqBaseReg
  repeat' first
    | with_reducible apply guardReg_ok
    | split
    | (with_reducible intro s t v h)
    | intro _
    | exact onQueue_keeps h _ _

theorem evqReg_ok (s : State) (off : Nat) : RegsOk (evqReg s off) := by
  unfold evqReg
  repeat' first
    | with_reducible apply roReg_ok
    | with_reducible apply opReg_ok
    | with_reducible apply evqBaseReg_ok
    | with_reducible apply regsOk_some
    | with_reducible apply regsOk_none
    | with_reducible apply arrays_nil_ok
    | with_reducible apply arrays_cons_ok
    | split
    | (with_reducible intro s t v h)
    | intro _
    | with_reducible apply writeEvqCfg_keeps h

theorem ctxCfgReg_ok (s : State) (n : Nat) : RegOk (ctxCfgReg s n) := by
  unfold ctxCfgReg
  repeat' first
    | with_reducible apply opReg_ok
    | split
    | (with_reducible intro s t v h)
    | intro _
    | with_reducible apply writeCtxCfg_keeps h

theorem ctxLiveReg_ok (s : State) (n : Nat) : RegOk (ctxLiveReg s n) := by
  unfold ctxLiveReg
  repeat' first
    | with_reducible apply rwReg_ok
    | split
    | (with_reducible intro s t v h)
    | intro _
    | exact onCtx_keeps h _ _

theorem ctxReg_ok (s : State) (off : Nat) : RegsOk (ctxReg s off) := by
  unfold ctxReg
  repeat' first
    | with_reducible apply opReg_ok
    | with_reducible apply rwReg_ok
    | with_reducible apply ctxCfgReg_ok
    | with_reducible apply ctxLiveReg_ok
    | with_reducible apply regsOk_some
    | with_reducible apply regsOk_none
    | with_reducible apply arrays_nil_ok
    | with_reducible apply arrays_cons_ok
    | split
    | (with_reducible intro s t v h)
    | intro _
    | exact onHif_keeps h _
    | with_reducible apply writeCtxRank_keeps h
    | with_reducible apply writeCtxSeed_keeps h
    | with_reducible apply writeCtxShare_keeps h
    | with_reducible apply writeCtxSw_keeps h

theorem hbtStatusReg_ok (s : State) : RegOk (hbtStatusReg s) := by
  unfold hbtStatusReg
  repeat' first
    | with_reducible apply roReg_ok
    | split

theorem hbtTempReg_ok (s : State) (k : Nat) : RegOk (hbtTempReg s k) := by
  unfold hbtTempReg
  repeat' first
    | with_reducible apply opReg_ok
    | split
    | (with_reducible intro s t v h)
    | intro _
    | with_reducible apply writeHbtTemp_keeps h

theorem hbtWcReg_ok (s : State) (k : Nat) : RegOk (hbtWcReg s k) := by
  unfold hbtWcReg
  repeat' first
    | with_reducible apply roReg_ok
    | split

theorem hbtReg_ok (s : State) (off : Nat) : RegsOk (hbtReg s off) := by
  unfold hbtReg
  repeat' first
    | with_reducible apply roReg_ok
    | with_reducible apply opReg_ok
    | with_reducible apply woReg_ok
    | with_reducible apply rwReg_ok
    | with_reducible apply presentReg_ok
    | with_reducible apply hbtStatusReg_ok
    | with_reducible apply hbtTempReg_ok
    | with_reducible apply hbtWcReg_ok
    | with_reducible apply regsOk_some
    | with_reducible apply regsOk_none
    | with_reducible apply arrays_nil_ok
    | with_reducible apply arrays_cons_ok
    | split
    | (with_reducible intro s t v h)
    | intro _
    | (refine onHbm_keeps h _ ?_; exact fun _ hb => hb)
    | with_reducible apply writeHbtCmd_keeps h
    | with_reducible apply writeHbtCtrl_keeps h

theorem bltStatusReg_ok (s : State) : RegOk (bltStatusReg s) := by
  unfold bltStatusReg
  repeat' first
    | with_reducible apply roReg_ok
    | split

theorem bltScrubReg_ok (s : State) (p : Nat) : RegOk (bltScrubReg s p) := by
  unfold bltScrubReg
  refine opReg_ok _ _ _ fun s t v h => ?_
  refine ite_keeps (onBolt_keeps h _ ?_) h
  exact fun _ hb => hb

theorem modelSlotReg_ok (s : State) (n : Nat) : RegOk (modelSlotReg s n) := by
  unfold modelSlotReg
  repeat' first
    | with_reducible apply roReg_ok
    | split

theorem bltReg_ok (s : State) (off : Nat) : RegsOk (bltReg s off) := by
  unfold bltReg
  repeat' first
    | with_reducible apply roReg_ok
    | with_reducible apply woReg_ok
    | with_reducible apply rwReg_ok
    | with_reducible apply lockReg_ok
    | with_reducible apply presentReg_ok
    | with_reducible apply bltStatusReg_ok
    | with_reducible apply bltScrubReg_ok
    | with_reducible apply modelSlotReg_ok
    | with_reducible apply regsOk_some
    | with_reducible apply regsOk_none
    | with_reducible apply arrays_nil_ok
    | with_reducible apply arrays_cons_ok
    | split
    | (with_reducible intro s t v h)
    | intro _
    | (refine onBolt_keeps h _ ?_; exact fun _ hb => hb)
    | with_reducible apply writeBltCmd_keeps h

theorem prsTblReg_ok (s : State) : RegOk (prsTblReg s) := by
  unfold prsTblReg
  repeat' first
    | with_reducible apply opReg_ok
    | split
    | (with_reducible intro s t v h)
    | intro _
    | with_reducible apply writePrsTblCmd_keeps h

theorem prsBindReg_ok (s : State) (k : Nat) : RegOk (prsBindReg s k) := by
  unfold prsBindReg
  repeat' first
    | with_reducible apply opReg_ok
    | split
    | (with_reducible intro s t v h)
    | intro _
    | with_reducible apply writePrsBind_keeps h

theorem prsReserveReg_ok (s : State) (k : Nat) : RegOk (prsReserveReg s k) := by
  unfold prsReserveReg
  repeat' first
    | with_reducible apply opReg_ok
    | split
    | (with_reducible intro s t v h)
    | intro _
    | with_reducible apply writePrsReserve_keeps h

theorem prsStatReg_ok (s : State) (k : Nat) : RegOk (prsStatReg s k) := by
  unfold prsStatReg
  repeat' first
    | with_reducible apply roReg_ok
    | split

theorem prsFaultReg_ok (s : State) (k : Nat) : RegOk (prsFaultReg s k) := by
  unfold prsFaultReg
  repeat' first
    | with_reducible apply roReg_ok
    | split

theorem prsVoteReg_ok (s : State) (n : Nat) : RegOk (prsVoteReg s n) := by
  unfold prsVoteReg
  repeat' first
    | with_reducible apply rwReg_ok
    | split
    | (with_reducible intro s t v h)
    | intro _
    | exact onTrain_keeps h _ _

theorem prsCountReg_ok (s : State) (n : Nat) : RegOk (prsCountReg s n) := by
  unfold prsCountReg
  repeat' first
    | with_reducible apply opReg_ok
    | split
    | (with_reducible intro s t v h)
    | intro _
    | with_reducible apply writePrsStep_keeps h

theorem prsReg_ok (s : State) (off : Nat) : RegsOk (prsReg s off) := by
  unfold prsReg
  repeat' first
    | with_reducible apply roReg_ok
    | with_reducible apply opReg_ok
    | with_reducible apply rwReg_ok
    | with_reducible apply lockReg_ok
    | with_reducible apply presentReg_ok
    | with_reducible apply prsTblReg_ok
    | with_reducible apply prsBindReg_ok
    | with_reducible apply prsReserveReg_ok
    | with_reducible apply prsStatReg_ok
    | with_reducible apply prsFaultReg_ok
    | with_reducible apply prsVoteReg_ok
    | with_reducible apply prsCountReg_ok
    | with_reducible apply regsOk_some
    | with_reducible apply regsOk_none
    | with_reducible apply arrays_nil_ok
    | with_reducible apply arrays_cons_ok
    | split
    | (with_reducible intro s t v h)
    | intro _
    | (refine onPrs_keeps h _ ?_; exact fun _ hb => hb)
    | with_reducible apply writePrsMirror_keeps h
    | with_reducible apply writePrsStep_keeps h

theorem portStatReg_ok (s : State) (m : Nat) : RegOk (portStatReg s m) := by
  unfold portStatReg
  refine opReg_ok _ _ _ fun s t v h => ?_
  dsimp only
  exact ite_keeps (onPort_keeps (checkRsv_keeps h _ _) _ _) (checkRsv_keeps h _ _)

theorem portSlotsReg_ok (s : State) (m : Nat) : RegOk (portSlotsReg s m) := by
  unfold portSlotsReg
  repeat' first
    | with_reducible apply roReg_ok
    | split

theorem portReg_ok (s : State) (m off : Nat) : RegsOk (portReg s m off) := by
  unfold portReg
  repeat' first
    | with_reducible apply roReg_ok
    | with_reducible apply opReg_ok
    | with_reducible apply portStatReg_ok
    | with_reducible apply portSlotsReg_ok
    | with_reducible apply regsOk_some
    | with_reducible apply regsOk_none
    | split
    | (with_reducible intro s t v h)
    | intro _
    | with_reducible apply writePortCfg_keeps h

theorem seaReg_ok (s : State) (off : Nat) : RegsOk (seaReg s off) := by
  unfold seaReg
  repeat' first
    | with_reducible apply opReg_ok
    | with_reducible apply rwReg_ok
    | with_reducible apply lockReg_ok
    | with_reducible apply regsOk_some
    | with_reducible apply regsOk_none
    | with_reducible apply portReg_ok
    | split
    | (with_reducible intro s t v h)
    | intro _
    | exact onSea_keeps h _
    | with_reducible apply writeSeaRt_keeps h

theorem colJobReg_ok (s : State) (n : Nat) : RegOk (colJobReg s n) := by
  unfold colJobReg
  repeat' first
    | with_reducible apply rwReg_ok
    | split
    | (with_reducible intro s t v h)
    | intro _
    | exact onColCtx_keeps h _ _

theorem colStatReg_ok (s : State) (n : Nat) : RegOk (colStatReg s n) := by
  unfold colStatReg
  repeat' first
    | with_reducible apply roReg_ok
    | split

theorem colSeqReg_ok (s : State) (n v : Nat) : RegOk (colSeqReg s n v) := by
  unfold colSeqReg
  repeat' first
    | with_reducible apply opReg_ok
    | split
    | (with_reducible intro s t v h)
    | intro _
    | with_reducible apply writeColSeq_keeps h

theorem colReg_ok (s : State) (off : Nat) : RegsOk (colReg s off) := by
  unfold colReg
  repeat' first
    | with_reducible apply roReg_ok
    | with_reducible apply opReg_ok
    | with_reducible apply woReg_ok
    | with_reducible apply lockReg_ok
    | with_reducible apply colJobReg_ok
    | with_reducible apply colStatReg_ok
    | with_reducible apply colSeqReg_ok
    | with_reducible apply regsOk_some
    | with_reducible apply regsOk_none
    | with_reducible apply arrays_nil_ok
    | with_reducible apply arrays_cons_ok
    | split
    | (with_reducible intro s t v h)
    | intro _
    | exact onCol_keeps h _
    | with_reducible apply writeColAbort_keeps h
    | with_reducible apply writeColBook_keeps h
    | with_reducible apply writeColCredit_keeps h

theorem srvGuardReg_ok (s : State) (n : Nat) (value rw : W64) (set : W64 → SrvCtx → SrvCtx) : RegOk (srvGuardReg s n value rw set) := by
  unfold srvGuardReg
  repeat' first
    | with_reducible apply guardReg_ok
    | split
    | (with_reducible intro s t v h)
    | intro _
    | exact onSrvCtx_keeps h _ _

theorem tqBaseReg_ok (s : State) (n : Nat) : RegOk (tqBaseReg s n) := by
  unfold tqBaseReg
  repeat' first
    | with_reducible apply rwReg_ok
    | split
    | (with_reducible intro s t v h)
    | intro _
    | exact onSrvCtx_keeps h _ _

theorem tqCtrlReg_ok (s : State) (n : Nat) : RegOk (tqCtrlReg s n) := by
  unfold tqCtrlReg
  repeat' first
    | with_reducible apply rwReg_ok
    | split
    | (with_reducible intro s t v h)
    | intro _
    | exact onSrvCtx_keeps h _ _

theorem srvStatReg_ok (s : State) (n : Nat) : RegOk (srvStatReg s n) := by
  unfold srvStatReg
  repeat' first
    | with_reducible apply roReg_ok
    | split

theorem srvStat2Reg_ok (s : State) (n : Nat) : RegOk (srvStat2Reg s n) := by
  unfold srvStat2Reg
  repeat' first
    | with_reducible apply roReg_ok
    | split

theorem srvReg_ok (s : State) (off : Nat) : RegsOk (srvReg s off) := by
  unfold srvReg
  repeat' first
    | with_reducible apply roReg_ok
    | with_reducible apply opReg_ok
    | with_reducible apply woReg_ok
    | with_reducible apply rwReg_ok
    | with_reducible apply lockReg_ok
    | with_reducible apply srvGuardReg_ok
    | with_reducible apply tqBaseReg_ok
    | with_reducible apply tqCtrlReg_ok
    | with_reducible apply srvStatReg_ok
    | with_reducible apply srvStat2Reg_ok
    | with_reducible apply regsOk_some
    | with_reducible apply regsOk_none
    | with_reducible apply arrays_nil_ok
    | with_reducible apply arrays_cons_ok
    | split
    | (with_reducible intro s t v h)
    | intro _
    | exact onSrv_keeps h _
    | with_reducible apply seqCancel_keeps h
    | with_reducible apply writeSrvCfg_keeps h
    | with_reducible apply writeSrvRt_keeps h

theorem linStateReg_ok (s : State) : RegOk (linStateReg s) := by
  unfold linStateReg
  repeat' first
    | with_reducible apply roReg_ok
    | split

theorem linEpochReg_ok (s : State) (n : Nat) : RegOk (linEpochReg s n) := by
  unfold linEpochReg
  repeat' first
    | with_reducible apply roReg_ok
    | split

theorem linApplyReg_ok (s : State) (n : Nat) : RegOk (linApplyReg s n) := by
  unfold linApplyReg
  repeat' first
    | with_reducible apply roReg_ok
    | split

theorem linReg_ok (s : State) (off : Nat) : RegsOk (linReg s off) := by
  unfold linReg
  repeat' first
    | with_reducible apply roReg_ok
    | with_reducible apply opReg_ok
    | with_reducible apply rwReg_ok
    | with_reducible apply linStateReg_ok
    | with_reducible apply linEpochReg_ok
    | with_reducible apply linApplyReg_ok
    | with_reducible apply regsOk_some
    | with_reducible apply regsOk_none
    | with_reducible apply arrays_nil_ok
    | with_reducible apply arrays_cons_ok
    | split
    | (with_reducible intro s t v h)
    | intro _
    | exact onLin_keeps h _
    | with_reducible apply writeCertCmd_keeps h
    | with_reducible apply writeFabric_keeps h
    | with_reducible apply writeMgrKey_keeps h
    | with_reducible apply writePairCfg_keeps h
    | with_reducible apply writeQuorum_keeps h

theorem fltStatusReg_ok (s : State) : RegOk (fltStatusReg s) := by
  unfold fltStatusReg
  repeat' first
    | with_reducible apply roReg_ok
    | split

theorem fltHeldReg_ok (s : State) : RegOk (fltHeldReg s) := by
  unfold fltHeldReg
  repeat' first
    | with_reducible apply roReg_ok
    | split

theorem fltViolReg_ok (s : State) (n : Nat) : RegOk (fltViolReg s n) := by
  unfold fltViolReg
  repeat' first
    | with_reducible apply opReg_ok
    | split
    | (with_reducible intro s t v h)
    | intro _
    | with_reducible apply writeFltViol_keeps h

theorem fltBandReg_ok (s : State) (g : Nat) : RegOk (fltBandReg s g) := by
  unfold fltBandReg
  repeat' first
    | with_reducible apply opReg_ok
    | split
    | (with_reducible intro s t v h)
    | intro _
    | with_reducible apply writeFltBand_keeps h

theorem fltReg_ok (s : State) (off : Nat) : RegsOk (fltReg s off) := by
  unfold fltReg
  repeat' first
    | with_reducible apply roReg_ok
    | with_reducible apply woReg_ok
    | with_reducible apply lockReg_ok
    | with_reducible apply fltStatusReg_ok
    | with_reducible apply fltHeldReg_ok
    | with_reducible apply fltViolReg_ok
    | with_reducible apply fltBandReg_ok
    | with_reducible apply regsOk_some
    | with_reducible apply regsOk_none
    | with_reducible apply arrays_nil_ok
    | with_reducible apply arrays_cons_ok
    | split
    | (with_reducible intro s t v h)
    | intro _
    | exact onFlt_keeps h _
    | with_reducible apply writeFltReset_keeps h

theorem thmStatusReg_ok (s : State) : RegOk (thmStatusReg s) := by
  unfold thmStatusReg
  repeat' first
    | with_reducible apply roReg_ok
    | split

theorem thmBootReg_ok (s : State) : RegOk (thmBootReg s) := by
  unfold thmBootReg
  repeat' first
    | with_reducible apply roReg_ok
    | split

theorem thmMboxReg_ok (s : State) : RegOk (thmMboxReg s) := by
  unfold thmMboxReg
  repeat' first
    | with_reducible apply opReg_ok
    | split
    | (with_reducible intro s t v h)
    | intro _
    | with_reducible apply writeMbox_keeps h

theorem thmLogReg_ok (s : State) : RegOk (thmLogReg s) := by
  unfold thmLogReg
  repeat' first
    | with_reducible apply roReg_ok
    | split

theorem sensorDataReg_ok (s : State) : RegOk (sensorDataReg s) := by
  unfold sensorDataReg
  repeat' first
    | with_reducible apply roReg_ok
    | split

theorem domainReg_ok (f : Nat → Bool) (k : Nat) : RegOk (domainReg f k) := by
  unfold domainReg
  repeat' first
    | with_reducible apply roReg_ok
    | split

theorem thmPanelReg_ok (s : State) (p : Nat) : RegOk (thmPanelReg s p) := by
  unfold thmPanelReg
  repeat' first
    | with_reducible apply roReg_ok
    | split

theorem thmReg_ok (s : State) (off : Nat) : RegsOk (thmReg s off) := by
  unfold thmReg
  repeat' first
    | with_reducible apply roReg_ok
    | with_reducible apply opReg_ok
    | with_reducible apply rwReg_ok
    | with_reducible apply lockReg_ok
    | with_reducible apply thmStatusReg_ok
    | with_reducible apply thmBootReg_ok
    | with_reducible apply thmMboxReg_ok
    | with_reducible apply thmLogReg_ok
    | with_reducible apply sensorDataReg_ok
    | with_reducible apply domainReg_ok
    | with_reducible apply thmPanelReg_ok
    | with_reducible apply regsOk_some
    | with_reducible apply regsOk_none
    | with_reducible apply arrays_nil_ok
    | with_reducible apply arrays_cons_ok
    | split
    | (with_reducible intro s t v h)
    | intro _
    | exact onThm_keeps h _
    | with_reducible apply writeSensorSel_keeps h

theorem tstReg_ok (s : State) (off : Nat) : RegsOk (tstReg s off) := by
  unfold tstReg
  repeat' first
    | with_reducible apply roReg_ok
    | with_reducible apply opReg_ok
    | with_reducible apply lockReg_ok
    | with_reducible apply regsOk_some
    | with_reducible apply regsOk_none
    | split
    | (with_reducible intro s t v h)
    | intro _
    | exact onTst_keeps h _
    | with_reducible apply writeTstCmd_keeps h

theorem blockReg_ok (s : State) (block off : Nat) : RegsOk (blockReg s block off) := by
  unfold blockReg
  split
  · exact idnReg_ok _ _
  · exact stuReg_ok _ _
  · exact hrgReg_ok _ _
  · exact evqReg_ok _ _
  · exact ctxReg_ok _ _
  · exact hbtReg_ok _ _
  · exact bltReg_ok _ _
  · exact prsReg_ok _ _
  · exact seaReg_ok _ _
  · exact colReg_ok _ _
  · exact srvReg_ok _ _
  · exact linReg_ok _ _
  · exact fltReg_ok _ _
  · exact thmReg_ok _ _
  · exact tstReg_ok _ _
  · exact regsOk_none

theorem writeReg_keeps {s t : State} (h : Keeps s t) {r : Reg} (hr : RegOk r) (offset : Nat) (wide : Bool) (v : W64) :
    Keeps s (writeReg r offset wide v t) := by
  unfold writeReg
  dsimp only
  split
  · exact hr.write _ _ _ h
  · split
    · exact hr.write _ _ _ h
    · split
      · exact hr.upper _ ‹_› _ _ _ h
      · exact hr.write _ _ _ h

theorem writeAt_keeps {s t : State} (h : Keeps s t) (offset : Nat) (wide : Bool) (v : W64) :
    Keeps s (writeAt offset wide v t) := by
  unfold writeAt
  split
  · exact writeReg_keeps h (blockReg_ok _ _ _ _ ‹_›) _ _ _
  · exact checkRsv_keeps h _ _

theorem execRegisterWrite_keeps {s t : State} (h : Keeps s t) (offset wide value) :
    OutKeeps s (execRegisterWrite offset wide value t) := by
  unfold execRegisterWrite
  repeat' first
    | with_reducible assumption | extract_lets | with_reducible apply outKeeps_next | with_reducible apply violate_keeps
    | with_reducible apply writeAt_keeps | with_reducible apply bar0Write_keeps | split | intro _

theorem tick_keeps {s t : State} (h : Keeps s t) : Keeps s (tick t) := by
  unfold tick
  repeat' first
    | with_reducible assumption | extract_lets | with_reducible apply setNs_keeps | with_reducible apply onStu_keeps | split

end Sys2Proof.Machine
end

