-- ==== Sys2Proof/Laws/Slots.lean ====
section
/-! SUPPORT. What a slot of an instruction word does where it has its effect, and what the late writes do. -/

namespace Sys2Proof.Machine

theorem onCore_congr {s : State} {c : Nat} {f g : Core → Core} (h : f (s.core c) = g (s.core c)) : s.onCore c f = s.onCore c g := by
  have h' : f (Tab.getD s.cores.cores c {}) = g (Tab.getD s.cores.cores c {}) := h
  unfold State.onCore State.onCores
  dsimp only
  rw [h']

/-- The late writes change neither the run of a core nor its predicates, nor its open loops. -/
theorem lateWrite_run (k : Core) (w : Pending) :
    (lateWrite k w).run = k.run ∧ (lateWrite k w).preds = k.preds ∧ (lateWrite k w).loops = k.loops := by
  unfold lateWrite
  split <;> exact ⟨rfl, rfl, rfl⟩

theorem lateWrites_run (l : List Pending) (k : Core) :
    (l.foldl lateWrite k).run = k.run ∧ (l.foldl lateWrite k).preds = k.preds ∧ (l.foldl lateWrite k).loops = k.loops := by
  induction l generalizing k with
  | nil => exact ⟨rfl, rfl, rfl⟩
  | cons w l ih =>
    obtain ⟨a, b, c⟩ := ih (lateWrite k w)
    obtain ⟨d, e, f⟩ := lateWrite_run k w
    exact ⟨a.trans d, b.trans e, c.trans f⟩

@[simp] theorem settle_run (cycle : Nat) (k : Core) : (settle cycle k).run = k.run := (lateWrites_run _ _).1
@[simp] theorem settle_preds (cycle : Nat) (k : Core) : (settle cycle k).preds = k.preds := (lateWrites_run _ _).2.1
@[simp] theorem settle_loops (cycle : Nat) (k : Core) : (settle cycle k).loops = k.loops := (lateWrites_run _ _).2.2

@[simp] theorem coreAt_eq (s : State) (i : Issue) : coreAt s i = settle i.cycle (s.core (coreNum i.core)) :=
  State.core_onCore ..

@[simp] theorem core_settled (s : State) (i : Issue) :
    (settled s i).core (coreNum i.core) = settle i.cycle (s.core (coreNum i.core)) := State.core_onCore ..

theorem runCtx_settle (cycle : Nat) (k : Core) : runCtx (settle cycle k) = runCtx k := by
  unfold runCtx
  rw [settle_run]

theorem gatedOff_settle (cycle : Nat) (k : Core) (i : Issue) : gatedOff (settle cycle k) i = gatedOff k i := by
  unfold gatedOff
  rw [settle_preds, settle_loops]

/-- A slot that has its effect has it on the state with the writes due in the registers; one gated off leaves that state (R106). -/
theorem onIssue_issues {c : Instr} {s : State} {i : Issue} (h : issuesNow s c i = true) (f : Nat → Nat → State → State) :
    onIssue c i f s = if gatedOff (s.core (coreNum i.core)) i then settled s i
      else f (runCtx (s.core (coreNum i.core))) (coreNum i.core) (settled s i) := by
  have h3 := core_settled s i
  unfold settled at h3
  unfold onIssue
  simp only [h, not_true_eq_false, if_false]
  rw [h3, gatedOff_settle, runCtx_settle]
  rfl

/-- A slot that its core does not issue at its cycle does nothing. -/
theorem onIssue_idle {c : Instr} {s : State} {i : Issue} (h : issuesNow s c i = false) (f : Nat → Nat → State → State) :
    onIssue c i f s = s := by
  unfold onIssue
  simp [h]

/-- What a slot's command answers, once for every command that runs through onIssue. -/
theorem slotAnswers {c : Instr} {s : State} {i : Issue} {f : Nat → Nat → State → State}
    (h : exec c s = .next (onIssue c i f s)) :
    SlotAnswers c s i (f (runCtx (s.core (coreNum i.core))) (coreNum i.core) (settled s i)) := by
  refine ⟨fun h1 h2 => ?_, fun h1 h2 => ?_, fun h1 => ?_⟩
  · rw [h, onIssue_issues h1, h2]; rfl
  · rw [h, onIssue_issues h1, h2]; rfl
  · rw [h, onIssue_idle h1]

end Sys2Proof.Machine
end

