-- ==== Sys2Proof/WellFormed.lean ====
section
/-! DEFINITION. The well-formed commands: what the operands must be for a command to name something that can happen at the
device's boundary. The meanings are total on all commands. -/

namespace Sys2Proof

/-- A stretch numerator (R32): 16 to 32. -/
def factorOk (k : BitVec 6) : Bool := decide (16 ≤ k.toNat) && decide (k.toNat ≤ 32)

/-- A BAR2 access moves at least one byte and at most a 4 KiB request. -/
def bar2KindOk : Bar2Kind → Bool
  | .read n => decide (1 ≤ n) && decide (n ≤ 4096)
  | .write bs => decide (1 ≤ bs.length) && decide (bs.length ≤ 4096)

/-- A certificate in an OEM request is 512 bytes (Table 11-9, R326). -/
def certSourceOk : CertSource → Bool
  | .register _ => true
  | .bmc bs => bs.length == 512

/-- A command is well formed. -/
def Instr.wf (i : Instr) : Bool :=
  match i with
  | .stitchBoundary | .marker _ _ _ => true
  | .stretchReq _ factor _ => factorOk factor
  | .stretchAnn _ k _ => factorOk k
  | .periodAnn _ units _ => decide (32 ≤ units.toNat)
  | .ready _ _ | .go _ _ _ | .miss _ _ _ | .barrierCheck | .barrierTimeout | .masterTakeover | .holdover
  | .alignmentFault | .stretchChange | .periodChange | .stuPeriodWrite _ | .stuEnable _ | .sysFactor _
  | .thermalStepUp _ | .thermalWithdraw _ | .supplyReason _ | .supplyWithdraw | .phaseLedgerRecord _ | .nop _ _
  | .load _ _ _ _ | .ldsc _ _ _ _ | .mac _ _ _ _ _ | .accin _ _ _ _ _ _ | .drain _ _ _ _ _ _ | .clear _ _ | .setw _ _ _
  | .fadd _ _ | .fsub _ _ | .fmul _ _ | .fma _ _ | .fmax _ _ | .fmin _ _ | .fabs _ _ | .fneg _ _ | .fcmplt _ _
  | .fcmpeq _ _ | .fcmple _ _ | .sel _ _ | .rsum _ _ | .rmax _ _ | .bcast _ _ | .exp2 _ _ | .exp _ _ | .log2 _ _
  | .ln _ _ | .rcp _ _ | .rsqrt _ _ | .sqrt _ _ | .fdiv _ _ | .tanh _ _ | .sigmoid _ _ | .salpha _ _ | .sexp _ _
  | .sfin _ _ | .slse _ _ | .iadd _ _ | .isub _ _ | .imul _ _ | .and _ _ | .or _ _ | .xor _ _ | .shl _ _ | .shr _ _
  | .sra _ _ | .icmplt _ _ | .icmpeq _ _ | .imin _ _ | .imax _ _ | .nrwBf16 _ _ | .nrwFp16 _ _ | .nrwE4m3 _ _
  | .nrwE5m2 _ _ | .nrwInt8 _ _ | .nrwInt32 _ _ | .cvtI2f _ _ | .mxeE4m3 _ _ | .mxeE5m2 _ _ | .mxeE3m2 _ _
  | .mxeE2m3 _ _ | .mxeE2m1 _ _ | .gse _ _ | .widBf16 _ _ | .widFp16 _ _ | .widE4m3 _ _ | .widE5m2 _ _ | .widInt8 _ _
  | .widMx _ _ | .rand _ _ | .vld _ _ _ | .vst _ _ _ _ | .gather _ _ _ _ _ _ | .msend _ _ _ | .bset _ _ _ _ | .bld _ _ _
  | .hrd _ _ _ | .hwr _ _ _ | .setdc _ _ _ _ _ _ _ _ | .stream _ _ _ _ | .draw _ _ _ | .lmask _ _ _ | .loop _ _ _
  | .setc _ _ _ | .pset _ _ _ _ _ | .waits _ | .phase _ _ | .delay _ _ | .hrdReturn _ | .flitArrival _ _
  | .boltWriteBack _ _ | .doorbellPoll | .descriptorNop _ | .loadPattern _ | .patternLoaded _ _ | .arm _ | .voteMark _
  | .disarm _ | .unload _ | .disarmEffect | .copyIn _ | .copyOut _ | .copyDone _ _ | .loadBundle _ _ | .bundleDone _ _
  | .ckptShard _ | .captureEnd _ | .shardDrained _ _ | .restoreShard _ | .restoreDone _ _ | .fence _ | .begin _
  | .beginApply _ | .rebuild _ | .seqAdmit _ | .seqRelease _ | .voteForm _ | .vote _ _ | .verdictDecision _
  | .verdict _ _ | .verdictMissing _ | .commitStitch _ | .inboxRecord _ | .mirrorRecord _ | .normRecord _
  | .normPartial _ | .refillBlock _ | .refillState _ | .prsTblLoad _ | .presserImageChecked _ | .prsBind _ _
  | .prsReserveWrite _ _ | .prsMirrorWrite _ | .presserLedgerRebuild | .prsStepWrite _ _ _ | .frameSend _ => true
  | .frameReceive _ f => f.cells.length == 256
  | .packetTake _ _ | .packetReceive _ _ _ | .deadlineExpiry _ _ _ | .portLost _ _ _ | .portFailed _ | .trainingDone _ _
  | .fullEqRetry _ | .serWindow _ _ _ | .portLedgerRebuild | .retune _ _ | .fullEq _ _ | .loopbackSelect _ _
  | .portEn _ _ | .seaRtDataAccess _ | .abort _ _ | .abortSend _ | .abortKeyExpiry | .abortedEnd _ | .colCreditWrite _ _
  | .colSeqWrite _ _ _ | .peakClr _ _ | .resultRead | .servingApply | .listWrite | .listBuild | .seqTimeout _
  | .seqCancel _ _ | .slotFree _ | .swapOutDone _ | .swapInDone _ | .admissionBacklog _ | .srvEnable _ _
  | .srvDisable _ _ | .srvRtWrite _ _ _ | .bltDefine _ | .bltRelease _ | .regionLoaded _ | .regionWrittenBack _
  | .boltScrubLap _ _ _ | .scrubStarvation _ | .hbtDefine _ | .hbtRelease _ | .zeroingDone _ _ | .hbmQueueArrival _ _
  | .wcDrain _ | .refreshWindow | .calibrationWindow => true
  | .hbmScrubLap _ _ found => found.all fun x => decide (x.2.1 < Config.pcLines)
  | .scrubFloorWrite _ | .hbmTempRead _ _ | .hbmTempMaxClr _ _ => true
  | .bar2Access offset k => decide (offset < 2 ^ 38) && bar2KindOk k
  | .bar2Timeout => true
  | .bar0AccessError offset size _ => decide (offset < 2 ^ 26) && !((size == 4 || size == 8) && offset % size == 0)
  | .pairing _ | .liningDisable _ | .pairingResult _ | .isolate | .release | .leave | .create _ _ | .teardown _ _
  | .teardownBoundary _ | .teardownDone _ | .ctxSwitch _ | .switchBegin | .switchDone | .ctxSeedWrite _ _ _
  | .ctxShareWrite _ _ _ | .ringEnable _ _ | .ringDisable _ _ | .evqEnable _ _ | .heartbeatSample _ | .resetHoldEnd
  | .deviceReset _ | .deviceResetDone _ | .unitReset _ | .unitResetDone _ | .fltViolClr _ _ | .powerDown _ _
  | .bandDomainOff _ | .powerUp _ _ | .bandOn _ | .dropsClr _ _ | .powerOn | .powerOnDone _ | .inputLoss _
  | .inputReturn | .perst _ _ | .hotReset _ | .portSReset | .pcieLoopback _ | .panelThermal _ | .supply _ _
  | .clockLost _ => true
  | .panelSensorRead readings => readings.length == 96
  | .thimbleRestart | .pldmHeartbeat | .storeCommitDone | .trialTimeout | .logRead _ | .clearCritical _
  | .sensorSnapshot _ | .pubkeyAdd _ | .pubkeyRemove _ | .keyRemovalDone _ | .pubkeyList _ | .fuseAdd _ | .fuseRead _
  | .fuseClear _ | .identity _ | .sensorMaxClr _ | .oemDeviceReset _ => true
  | .certSubmit src => certSourceOk src
  | .oemLogRead _ _ | .oemPubkey _ _ => true
  | .quorumWrite _ writes => writes.all fun w => w.offset % 8 == 0
  | .oemFuse _ _ | .domainState _ | .mctpControl _ _ _ | .getTid _ | .getPldmVersion _ _ | .getPldmTypes _
  | .getPldmCommands _ _ | .sensorReading _ _ | .pdrRepository _ | .setEventReceiver _ _ _ | .fruRecord _
  | .requestUpdate _ => true
  | .transferComplete image => decide (image.length ≤ 24 * 2 ^ 20)
  | .verifyComplete | .activateFirmware _ | .queryDeviceIdentifiers _ | .getFirmwareParameters _ | .getVersion _
  | .getCapabilities _ | .negotiateAlgorithms _ | .getDigests _ | .getCertificate _ _ _ _ | .challenge _ _ _
  | .getMeasurements _ _ _ | .keyExchange _ | .pskExchange _ | .idcode | .samplePreload _ _ | .extest | .highz | .clamp
  | .extestPulse | .extestTrain | .hbmWrapper _ | .privateInstruction _ | .bypass _ | .tstStart _ | .tstStop _
  | .testDone _ _ => true
  | .registerWrite offset _ _ => decide (offset < 2 ^ 26)
  | .thimbleRestartDone | .clockReturn _ | .farLoopbackRequest _ _ | .rebuildDone _ => true
  | .registerRead offset _ => decide (offset < 2 ^ 26)
  | .pcieLoopbackExit _ => true

end Sys2Proof
end

