-- ==== Sys2Proof/Tests/Slice0.lean ====
section
/-! SUPPORT. The tests: for each statement, states and operands that meet its hypotheses, clause by clause, with the step they
take; for each check of the well-formed commands, a term it refuses. Expected values are the spec's, worked out by hand. -/

namespace Sys2Proof.Tests

set_option Elab.async false

open Sys2Proof.Machine

/-- A running device: the reset state once its resets are over, with the flash contents of a test. -/
def up : State := { State.reset with
  thm := { State.reset.thm with counter := 0, revoked := 0, imageA := [], imageB := [] }
  flt := { State.reset.flt with resetting := false, phase := .none }
  power := { State.reset.power with perstH := false, perstS := false, pwrgd := true } }

/-- Two fault blocks are the same, field by field. -/
def sameFlt (f g : Flt) : Bool :=
  decide (f.bands.toList = g.bands.toList) && decide (f.viol.toList = g.viol.toList) && decide (f.misses = g.misses) &&
  decide (f.beats = g.beats) && decide ((f.ctrl, f.resets, f.lastCause, f.lastTrigger) = (g.ctrl, g.resets, g.lastCause, g.lastTrigger)) &&
  decide ((f.resetting, f.mode) = (g.resetting, g.mode)) &&
  decide ((f.unitBusy, f.unitResult, f.unitKind, f.unitIndex) = (g.unitBusy, g.unitResult, g.unitKind, g.unitIndex)) &&
  decide ((f.hung, f.heldPorts, f.heldStacks, f.heldPanels) = (g.hung, g.heldPorts, g.heldStacks, g.heldPanels)) &&
  decide ((f.phase, f.restarts, f.pendingTrigger, f.pendingCause) = (g.phase, g.restarts, g.pendingTrigger, g.pendingCause)) &&
  decide ((f.counted, f.jobFault, f.deviceFault, f.records) = (g.counted, g.jobFault, g.deviceFault, g.records)) && decide (f.deferred = g.deferred) &&
  decide (f.beaten = g.beaten)

/-- Two bolts are the same, field by field. -/
def sameBolt (f g : Bolt) : Bool :=
  decide (f.mem = g.mem) && decide (f.ctrl = g.ctrl) && decide (f.rgnSel = g.rgnSel) && decide (f.cfg = g.cfg) &&
  decide (f.bandsLo = g.bandsLo) && decide (f.bandsHi = g.bandsHi) && decide (f.backing = g.backing) &&
  decide (f.result = g.result) && decide (f.regions = g.regions) && decide (f.excluded = g.excluded) &&
  decide (f.buffers = g.buffers) && decide (f.slots.toList = g.slots.toList) && decide (f.starved.toList = g.starved.toList) &&
  decide (f.laps.toList = g.laps.toList) && decide (f.lastLap.toList = g.lastLap.toList) &&
  decide (f.corrected.toList = g.corrected.toList) && decide (f.uncorrectable.toList = g.uncorrectable.toList) &&
  decide (f.wbDropped.toList = g.wbDropped.toList) && decide (f.ue = g.ue) && decide (f.lapCorrected = g.lapCorrected) &&
  decide (f.weak = g.weak) && decide (f.bad = g.bad) && decide (f.rewritten = g.rewritten) && decide (f.waiting = g.waiting) &&
  decide (f.spent = g.spent) && decide (f.covered.toList = g.covered.toList)

/-- Two stitch units are the same, field by field. -/
def sameStu (f g : Stu) : Bool :=
  decide (f.ctrl = g.ctrl) && decide (f.periodUnits = g.periodUnits) && decide (f.held = g.held) &&
  decide (f.immediate = g.immediate) && decide (f.queue = g.queue) && decide (f.stitch = g.stitch) &&
  decide (f.cycle = g.cycle) && decide (f.pos = g.pos) && decide (f.length = g.length) && decide (f.curFactor = g.curFactor) &&
  decide (f.sysFactor = g.sysFactor) && decide (f.ownFactor = g.ownFactor) && decide (f.subtreeFactor = g.subtreeFactor) &&
  decide (f.childFactors = g.childFactors) && decide (f.childReasons = g.childReasons) &&
  decide (f.sentReasons = g.sentReasons) && decide (f.lastAnnounced = g.lastAnnounced) && decide (f.factorAge = g.factorAge) &&
  decide (f.annSent = g.annSent) && decide (f.stretchSent = g.stretchSent) && decide (f.hbmTarget = g.hbmTarget) &&
  decide (f.hbmHot = g.hbmHot) && decide (f.supply = g.supply) && decide (f.supplyOk = g.supplyOk) &&
  decide (f.supplyBad = g.supplyBad) && decide (f.offset = g.offset) && decide (f.missed = g.missed) &&
  decide (f.holdover = g.holdover) && decide (f.tree = g.tree) && decide (f.epoch = g.epoch) &&
  decide (f.epochHeld = g.epochHeld) && decide (f.hops = g.hops) && decide (f.acquiring = g.acquiring) &&
  decide (f.markerSeen = g.markerSeen) && decide (f.primarySeen = g.primarySeen) &&
  decide (f.primaryMissed = g.primaryMissed) && decide (f.sendsAlt = g.sendsAlt) && decide (f.barriers = g.barriers) &&
  decide (f.ledgerBase.toList = g.ledgerBase.toList) && decide (f.ledgerCfg.toList = g.ledgerCfg.toList) &&
  decide (f.ledgerNext.toList = g.ledgerNext.toList) && decide (f.phase.toList = g.phase.toList) &&
  decide (f.bands = g.bands) && decide (f.steps = g.steps) && decide (f.marks = g.marks) && decide (f.counting = g.counting) &&
  decide (f.correctionPs = g.correctionPs) && decide (f.phasePs = g.phasePs) && decide (f.pleatRan = g.pleatRan)

/-- Two host interfaces are the same, field by field. -/
def sameHostIf (f g : HostIf) : Bool :=
  decide (f.ctrl = g.ctrl) && decide (f.bar2Timeouts = g.bar2Timeouts) && decide (f.rings.toList = g.rings.toList) &&
  decide (f.windows.toList = g.windows.toList) && decide (f.queues.toList = g.queues.toList) &&
  decide (f.ctxs.toList = g.ctxs.toList) && decide (f.sw = g.sw) && decide (f.swResult = g.swResult) &&
  decide (f.swLo = g.swLo) && decide (f.swHi = g.swHi) && decide (f.switch = g.switch) && decide (f.polls = g.polls)

/-- Two states are the same, block by block. -/
def same (u t : State) : Bool :=
  sameFlt u.flt t.flt && sameStu u.stu t.stu && decide (u.cores = t.cores) && sameBolt u.bolt t.bolt && decide (u.hbm = t.hbm) &&
  decide (u.prs = t.prs) && decide (u.lin = t.lin) && decide (u.sea = t.sea) && decide (u.col = t.col) &&
  decide (u.srv = t.srv) && decide (u.work = t.work) && sameHostIf u.hif t.hif &&
  decide (u.thm = t.thm) && decide (u.tst = t.tst) && decide (u.tap = t.tap) && decide (u.power = t.power) &&
  decide (u.hostMem = t.hostMem) && decide (u.portS = t.portS) && decide (u.out = t.out) && decide (u.ns = t.ns) &&
  decide (u.free = t.free) && decide (u.pending = t.pending) && decide (u.straps = t.straps)

/-- The command answers this state, and nothing stops. -/
def gives (o : Out) (t : State) : Bool := match o with
  | .next u => same u t
  | _ => false

/-- A member of a group whose marker tree runs in at port 0, in a role. -/
def member (r : Nat) : State := (up.onStu fun u => { u with
  ctrl := BitVec.ofNat 64 (4 + r), counting := true, epochHeld := true, epoch := 3 }).onPort 0 fun p => { p with state := .active }

/-- Context 1 ACTIVE with its event queue and its ring enabled, and one descriptor taken from the ring. -/
def withDesc (b : List (Nat × List Byte)) : State := ((up.onCtx 1 fun c => { c with state := .active }).onQueue 1 fun q =>
  { q with cfg := 0x106, base := 0x10000 }).onRing 1 fun r => { r with
    cfg := 0x106, state := 1, live := true, taken := [{ index := 5, bytes := layout 64 b }] }

/-- An entry armed with a barrier. -/
def armedEntry : ArmEntry :=
  { ctx := 1, handle := 3, order := 0, first := 8, last := none, notify := none, barrier := some 7, go := false, missed := false
    bands := [], ran := none }

/-- A pattern that uses nothing. -/
def emptyPattern : Pattern :=
  { ctx := 1, handle := 3, id := 0, declared := 0, tenancy := 0, phaseMask := 0, pleat := false, library := false, epoch := 0, bands := [], logical := []
    hbm := [], seam := [], extents := [], idle := [], streams := [], cores := [], pages := [], bridges := [] }

/-- A bolt region of context 1. -/
def boltRegion1 : BoltRegion :=
  { ctx := 1, index := 9, lines := 2, twin := false, backed := false, hbmRegion := 0, offset := 0, bands := [0], runs := [], state := .resident
    live := false, loaded := [], stagedLines := 0, slot := none, filling := false, stopped := false }

/-- A presser image without entries. -/
def emptyImage : PrsImage :=
  { hyper := [], segs := [], held := false, clipMax := 0, own := List.replicate 8 [], mirror := List.replicate 8 [] }

/-! ## Cores, lanes and slots -/

/-- Core 0 issues at core cycle 100, for context 1, the word of its image that the instruction store holds as given. -/
def coreUp (word : Nat) (f : Core → Core) : State := up.onCore 0 fun k => f { k with
  istore := [(0, BitVec.ofNat 128 word)]
  run := some { ctx := 1, handle := 3, length := 10, pc := 4, nextCycle := 100, waiting := false } }

/-- A slot of that word. -/
def slot0 : Issue := { core := { panel := 0, row := 0, col := 0 }, cycle := 100, pred := 0, gated := false, ecc := [], boltEcc := [] }

/-- Registers V_1 to V_3 with one value in lane 0. -/
def lanes (a b d : W32) (k : Core) : Core := { k with
  vr := ((k.vr.set 1 (a :: List.replicate 31 0)).set 2 (b :: List.replicate 31 0)).set 3 (d :: List.replicate 31 0), masks := k.masks.set 1 1 }

/-- A vector operation of V_1 and V_2 into V_3, in lane 0 alone. -/
def vop : VOp := { vd := 3, va := 1, vb := 2, mask := 1, rnd := .rne, ieee := false, tg := 0, srs := 0 }

/-- The word with that operation in its vector slot (Table 3-5): OP [31:25], VD [24:20], VA [19:15], VB [14:10], MASK [9:7]. -/
def vectorWord (op : Nat) : Nat := (op * 2 ^ 25 + 3 * 2 ^ 20 + 1 * 2 ^ 15 + 2 * 2 ^ 10 + 1 * 2 ^ 7) * 2 ^ 32

/-- What a lane command, of an opcode, leaves of lane 0. -/
def laneOut (op : Nat) (c : Issue → VOp → Instr) (a b d : W32) : Option W32 :=
  match exec (c slot0 vop) (coreUp (vectorWord op) (lanes a b d)) with
  | .next t => (t.core 0).pending.head?.bind fun w => match w.write with
    | .vreg _ _ l => l.head?
    | .mask _ m => some m
    | _ => none
  | _ => none

/-- A word holds what its slots spell; the command of another slot, or of another cycle, is not issued; a gated slot whose
predicate is false has no effect beyond the late writes due. -/
theorem test_issues :
    let s := coreUp (vectorWord 1) (lanes 1 2 3)
    let g := coreUp (vectorWord 1 + 2 ^ 125 + 2 ^ 123) (later 100 (.mask 2 7))
    let i : Issue := { slot0 with pred := 1, gated := true }
    issuesNow s (.fadd slot0 vop) slot0 = true ∧ gatedOff (s.core 0) slot0 = false ∧ issuesNow s (.fsub slot0 vop) slot0 = false ∧
    gives (exec (.fsub slot0 vop) s) s = true ∧ gives (exec (.fadd { slot0 with cycle := 99 } vop) s) s = true ∧
    issuesNow g (.fadd i vop) i = true ∧ gatedOff (g.core 0) i = true ∧
    gives (exec (.fadd i vop) g) (g.onCore 0 fun k => { k with pending := [], masks := k.masks.set 2 7 }) = true := by
  decide +kernel

/-- IEEE 754 results and the corners of the integer commands, worked by hand. -/
theorem test_lane_commands :
    laneOut 1 .fadd 0x3F800000 0x33800000 0 = some 0x3F800000 ∧ laneOut 2 .fsub 0x3F800000 0x3F800000 0 = some 0 ∧
    laneOut 3 .fmul 0x40400000 0x40000000 0 = some 0x40C00000 ∧ laneOut 4 .fma 0x40400000 0x40000000 0x3F800000 = some 0x40E00000 ∧
    laneOut 5 .fmax 0x80000000 0 0 = some 0 ∧ laneOut 6 .fmin 0x80000000 0 0 = some 0x80000000 ∧
    laneOut 7 .fabs 0xFF800000 0 0 = some 0x7F800000 ∧ laneOut 8 .fneg 0 0 0 = some 0x80000000 ∧
    laneOut 0x16 .sqrt 0x40800000 0 0 = some 0x40000000 ∧ laneOut 0x17 .fdiv 0x3F800000 0x40400000 0 = some 0x3EAAAAAB ∧
    laneOut 0x30 .iadd 0xFFFFFFFF 1 0 = some 0 ∧ laneOut 0x31 .isub 0 1 0 = some 0xFFFFFFFF ∧
    laneOut 0x32 .imul 0x80000000 3 0 = some 0x80000000 ∧ laneOut 0x36 .shl 1 33 0 = some 2 ∧ laneOut 0x37 .shr 0x80000000 31 0 = some 1 ∧
    laneOut 0x38 .sra 0x80000000 31 0 = some 0xFFFFFFFF ∧ laneOut 0x3B .imin 0x80000000 1 0 = some 0x80000000 ∧
    laneOut 0x3C .imax 0x80000000 1 0 = some 1 ∧ laneOut 0x46 .cvtI2f 0xFFFFFFFF 0 0 = some 0xBF800000 ∧
    laneOut 0x0C .sel 7 9 0 = some 7 ∧ laneOut 0x0D .rsum 0x40400000 0 0 = some 0x40400000 ∧ laneOut 0x52 .widE4m3 0x38 0 0 = some 0x3F800000 := by
  decide +kernel

theorem test_masks :
    laneOut 9 .fcmplt 0x80000000 0 0 = some 0 ∧ laneOut 0xA .fcmpeq 0x80000000 0 0 = some 0xFFFFFFFF ∧
    laneOut 0xB .fcmple 0 0x7FC00000 0 = some 0xFFFFFFFE ∧
    laneOut 0x39 .icmplt 0x80000000 0 0 = some 1 ∧ laneOut 0x3A .icmpeq 1 0 0 = some 0xFFFFFFFE := by decide +kernel

/-- SFIN with COUNT: every lane whose vb is zero counts in EMPTY_ROW, whatever the mask; NRW.BF16 and MXE.E4M3 tally the elements
whose bits lie in live lanes; GSE and RAND write the registers after VD. -/
theorem test_tallied :
    let v : VOp := { vop with srs := 1 }
    let s := coreUp (vectorWord 0x22 + 2 ^ 32) (lanes 0x7F800000 0x3F800000 0)
    let n := coreUp (vectorWord 0x40) (lanes 0x7F800000 0 0)
    issuesNow s (.sfin slot0 v) slot0 = true ∧ issuesNow n (.nrwBf16 slot0 vop) slot0 = true ∧
    (match exec (.sfin slot0 v) s with
      | .next t => (t.core 0).tallies[0].nf == 1 && (t.core 0).tallies[0].emptyRow == 31
      | _ => false) = true ∧
    (match exec (.nrwBf16 slot0 vop) n with
      | .next t => (t.core 0).tallies[0].nf == 1 && (t.core 0).tallies[0].maxexp == 0x8000
      | _ => false) = true ∧
    issuesNow (coreUp (vectorWord 0x48) id) (.mxeE4m3 slot0 vop) slot0 = true ∧
    issuesNow (coreUp (vectorWord 0x4D) id) (.gse slot0 vop) slot0 = true ∧ issuesNow (coreUp (vectorWord 0x60) id) (.rand slot0 vop) slot0 = true := by
  decide +kernel

theorem test_narrowing :
    (fmtBf16.narrow .rne false 0 (f32 0x3F808000)).bits = 0x3F80 ∧ (fmtFp16.narrow .rne true 0 (f32 0x47800000)).bits = 0x7C00 ∧
    (fmtE4m3.narrow .rne false 0 (f32 0x44000000)).bits = 0x7E ∧ (fmtE5m2.narrow .rz false 0 (f32 0x3FFFFFFF)).bits = 0x3F ∧
    (narrowToInt 8 .rne 0 (f32 0x42FF0000) 0).bits = 127 ∧ (fmtBf16.narrow .rne false 0 (f32 1)).bits = 0 ∧
    (fmtBf16.roundMag .rne 0 1 (-149) = 0) ∧ (fmtE5m2.roundMag .rne 0 1 (-16) = 1) := by decide +kernel

theorem test_mx_scale :
    mxScale fmtE4m3 [f32 0x43E00000] = (127, false) ∧ mxScale fmtE4m3 [f32 0] = (0, false) ∧ mxScale fmtE4m3 [f32 0x7F800000] = (255, false) := by
  decide +kernel

theorem test_late_write :
    let k := later 104 (.vreg 3 1 [7]) (coreUp 0 id |>.core 0)
    laneOf (settle 103 k) 3 0 = 0 ∧ laneOf (settle 104 k) 3 0 = 7 ∧ laneOf (settle 104 k) 3 1 = 0 := by decide +kernel

/-- LOAD [31:27] = 1, PAIR [26], ADDR_A [25:14], BSRC [13], B [12:1]; LDSC [31:27] = 2. -/
theorem test_operand_loads :
    let s (op : Nat) := (coreUp (op * 2 ^ 27 + 2 ^ 26 + 2 ^ 13 + 0xBFF * 2) id).onCore 0 fun k => { k with
      scratch := [(0, 9), (0xBFFF, 8)] }
    let i : Issue := { slot0 with ecc := [(0xBFF0, .corrected), (16, .uncorrectable 5 false), (64, .corrected)] }
    issuesNow (s 1) (.load i 1 0 (.scratch 0xBFF)) i = true ∧
    gives (exec (.load i 1 0 (.scratch 0xBFF)) (s 1)) ((violate 1 0x0C (s 1)).onCore 0 fun k =>
      later 103 (.pair 1 9 (8 <<< 120)) { k with ceCount := 1, ue := [{ istore := false, addr := 16, syndrome := 5 }] }) = true ∧
    gives (exec (.ldsc i 1 0 (.scratch 0xBFF)) (s 2)) ((s 2).onCore 0 fun k =>
      later 103 (.scales 1 9 (8 <<< 120)) { k with ceCount := 1 }) = true := by decide +kernel

/-- LOAD with operand B of bolt stream 2, [2:1]. -/
theorem test_bolt_loads :
    let s (op : Nat) := (coreUp (op * 2 ^ 27 + 2 * 2) id).onCore 0 fun k => { k with bst := k.bst.set 2 { ptr := 5, stride := 0xFF } }
    let i : Issue := { slot0 with boltEcc := [(1, .corrected)] }
    issuesNow (s 1) (.load i 0 0 (.bolt 2)) i = true ∧ issuesNow (s 2) (.ldsc slot0 0 0 (.bolt 2)) slot0 = true ∧
    (match exec (.load i 0 0 (.bolt 2)) (s 1) with
      | .next t => t.bolt.corrected[0] == 1 && (t.core 0).bst[2].ptr == 6
      | _ => false) = true := by decide +kernel

theorem test_accumulator :
    let c := accumulate 0 (.fin true 3 (-80)) {}
    let big := accumulate 0 (.fin true 1 19) {}
    c.acc = 0 ∧ c.sticky = true ∧ c.window = some 0 ∧
    big.sat = true ∧ big.acc = BitVec.ofInt 112 (-(2 ^ 91 - 1)) ∧ (accumulate 0 (.inf true) {}).poison = true ∧
    (drainCell {} 0 big).1.bits = 0xFF7FFFFF ∧ (drainCell { fmt := .int32 } 0 { poison := true }).1.bits = 0x80000000 ∧
    (drainCell { fmt := .e4m3 } 0 { poison := true, sat := true, sticky := true }).1.bits = 0x7F := by decide +kernel

theorem test_scale_poison :
    usesScales .mxE2m1 = true ∧ scaleByte 0xFF 0 = 255 ∧ (macCell .mxE2m1 0 0 0 0xFF 0 0 0 {}).poison = true ∧
    finiteParts (element .fp32 false 0x7F800000 0) = none ∧ (macCell .fp32 0 0x7F800000 0 0 0 0 0 {}).poison = true := by decide +kernel

/-- ACCIN [31:27] = 4, BANK [26], PAIR [25], ROW [24:21], SET [20], FORM [19:16]; MAC 3, CLEAR 6. -/
theorem test_accin_epoch :
    let g (e : BitVec 16) := (coreUp (4 * 2 ^ 27 + 2 ^ 20 + 2 ^ 16) fun k => { k with sa := k.sa.set 1 (e.setWidth 128 <<< 16) })
    blockEpoch (coreAt (g 0) slot0) 1 = ((g 0).train 1).current ∧ blockEpoch (coreAt (g 5) slot0) 1 ≠ ((g 5).train 1).current ∧
    runsLibrary (settled (g 0) slot0) 0 = false ∧ issuesNow (g 0) (.accin slot0 0 0 0 1 .gs16) slot0 = true ∧
    gives (exec (.accin slot0 0 0 0 1 .gs16) (g 5)) (violate 1 0x07 (g 5)) = true ∧
    issuesNow (coreUp (3 * 2 ^ 27 + 2 ^ 24 + 8 * 2 ^ 20) id) (.mac slot0 0 0 1 .mxE2m1) slot0 = true ∧
    issuesNow (coreUp (4 * 2 ^ 27 + 15 * 2 ^ 21) id) (.accin slot0 0 0 15 0 .fp32) slot0 = true ∧
    issuesNow (coreUp (6 * 2 ^ 27 + 2 ^ 26) id) (.clear slot0 1) slot0 = true := by decide +kernel

/-- The pattern of context 1 that core 0 runs, library code or not. -/
def running (library : Bool) (s : State) : State := s.onWork fun w => { w with patterns := [{ emptyPattern with library := library }] }

set_option maxRecDepth 100000 in
/-- In library code a GS16 block is whole with its second half, and one whose CRC does not hold is a poisoned delivery. -/
theorem test_library_block :
    let whole := leBytes 64 5 ++ leBytes 64 6
    let good : BitVec 128 := BitVec.ofNat 128 ((crc16 (leBytes 6 0x0300 ++ whole)).toNat * 2 ^ 48 + 0x0300)
    let s (h : BitVec 128) := running true ((coreUp (4 * 2 ^ 27 + 2 ^ 20 + 2 ^ 16) fun k => { k with
      sa := k.sa.set 1 h, ar := k.ar.set 0 6, half := some (h, 5) }).onTrain 1 fun t => { t with current := 0 })
    let after (h : BitVec 128) (s : State) := (poison 1 s).onCore 0 fun k => accinGs16 0 0 0 1 { k with
      half := none, combined := vMod k.combined 0 fun x => x.take h }
    runsLibrary (settled (s good) slot0) 0 = true ∧ (coreAt (s good) slot0).half = some (good, 5) ∧
    blockEpoch (coreAt (s good) slot0) 1 = ((s good).train 1).current ∧
    fld good 63 48 = (crc16 (leBytes 6 (fld good 47 0) ++ whole)).toNat ∧
    gives (exec (.accin slot0 0 0 0 1 .gs16) (s 0x0300)) (after 0x0300 (s 0x0300)) = true := by decide +kernel

/-- DRAIN [31:27] = 5, BANK [26], ROW [25:22], DST [21:10], DC [9:8], CLR [7]: the last row to the last 64 bytes of scratch. -/
theorem test_drain :
    let s := coreUp (5 * 2 ^ 27 + 2 ^ 26 + 15 * 2 ^ 22 + 0xBFC * 2 ^ 10 + 2 ^ 7) fun k => { k with
      cells := [(256 + 15 * 16 + 15, { acc := 2 ^ 72, window := some 0, sticky := true })] }
    issuesNow s (.drain slot0 1 15 0xBFC 0 true) slot0 = true ∧ (coreAt s slot0).recent = [] ∧
    (match exec (.drain slot0 1 15 0xBFC 0 true) s with
      | .next t => decide ((t.core 0).scratch = [(0xBFFE, 0x80), (0xBFFF, 0x3F)]) && decide ((t.core 0).tallies[0].underrun = 1) &&
          decide (cellAt (t.core 0) 1 15 15 = {})
      | _ => false) = true := by decide +kernel

/-- GATHER OP [35:30] = 3, VD [29:25], BANK [24:23], BASE [22:15], LEN − 1 [14:7], VI [6:2]; MSEND 4 of scratch, VST 2, BLD 6. -/
theorem test_move_slot :
    let at_ (w : Nat) := coreUp (w * 2 ^ 64) (lanes 3 0 0)
    let s := at_ (3 * 2 ^ 30 + 3 * 2 ^ 23 + 191 * 2 ^ 15 + 2 * 2 ^ 7 + 1 * 2 ^ 2)
    gives (exec (.gather slot0 0 3 191 2 1) s) (violate 1 0x0B (s.onCore 0 (later 104 (.vreg 0 (BitVec.allOnes 32) (List.replicate 32 0))))) =
      true ∧
    issuesNow (at_ (0xC * 2 ^ 30 + 7 * 2 ^ 27 + 0xBFF * 2 ^ 15)) (.lmask slot0 7 0xBFF) slot0 = true ∧
    issuesNow (at_ (1 * 2 ^ 30 + 31 * 2 ^ 25 + 0x2FE * 2 ^ 15)) (.vld slot0 31 0x2FE) slot0 = true ∧
    issuesNow (at_ (2 * 2 ^ 30 + 1 * 2 ^ 25 + 0xBFF * 2 ^ 13 + 3 * 2 ^ 11)) (.vst slot0 1 0xBFF .b128) slot0 = true ∧
    issuesNow (at_ (6 * 2 ^ 30 + 3 * 2 ^ 28 + 0x2FF * 2 ^ 18)) (.bld slot0 3 0x2FF) slot0 = true ∧
    issuesNow (at_ (4 * 2 ^ 30 + 0x5FF * 2 ^ 18 + 9 * 2 ^ 10)) (.msend slot0 (.scratch 0x5FF) 9) slot0 = true ∧
    issuesNow (at_ (4 * 2 ^ 30 + 2 ^ 29 + 1 * 2 ^ 24 + 3 * 2 ^ 22 + 9 * 2 ^ 10)) (.msend slot0 (.vreg 1 3) 9) slot0 = true ∧
    issuesNow (at_ (9 * 2 ^ 30 + 1 * 2 ^ 28 + 5 * 2 ^ 24 + 2 * 2 ^ 22 + 2 ^ 21 + 0x81 * 2 ^ 13 + 3 * 2 ^ 11 + 2 * 2 ^ 9))
      (.setdc slot0 1 .int32 .sr true 0x81 3 2) slot0 = true ∧
    issuesNow (at_ (0xA * 2 ^ 30 + 3 * 2 ^ 28 + 0xFFFF * 2 ^ 12 + 0x3FF * 2 ^ 2)) (.stream slot0 3 0xFFFF 0x3FF) slot0 = true ∧
    issuesNow (at_ (0xB * 2 ^ 30 + 3 * 2 ^ 28 + 0xFFFFF * 2 ^ 8)) (.draw slot0 3 0xFFFFF) slot0 = true ∧
    issuesNow (at_ (5 * 2 ^ 30 + 3 * 2 ^ 28 + 0xFFFFF * 2 ^ 8 + 0x80)) (.bset slot0 3 0xFFFFF 0x80) slot0 = true ∧
    issuesNow (coreUp (7 * 2 ^ 27 + 2 ^ 26 + 0x200 * 2 ^ 16) id) (.setw slot0 1 0x200) slot0 = true := by decide +kernel

theorem test_stores_and_sends :
    let st := (coreUp ((2 * 2 ^ 30 + 1 * 2 ^ 25 + 0xBFF * 2 ^ 13 + 3 * 2 ^ 11) * 2 ^ 64) (lanes 0x04030201 0 0))
    let se := coreUp ((4 * 2 ^ 30 + 2 ^ 29 + 1 * 2 ^ 24 + 9 * 2 ^ 10) * 2 ^ 64) (lanes 3 0 0)
    gives (exec (.vst slot0 1 0xBFF .b128) st) ((violate 1 0x0C st).onCore 0 (scratchWrite 100 0 0xBFF0 ([1, 2, 3, 4] ++ List.replicate 124 0))) =
      true ∧
    ((match exec (.vst slot0 1 0xBFF .b128) st with
      | .next t => (t.core 0).scratch
      | _ => []) = [(0xBFF0, 1), (0xBFF1, 2), (0xBFF2, 3), (0xBFF3, 4)]) ∧
    gives (exec (.msend slot0 (.vreg 1 0) 9) se) (se.onCores fun k => { k with flits := [
      { panel := 0, row := 0, col := 0, input := .local, flit := { route := 9, data := 3 } }] }) = true := by decide +kernel

/-- A pattern whose slot stream reads or writes line 5 of region 2 on pseudo-channel 0 for core 0, and a word of HRD (OP 7) or
HWR (OP 8) of slot 0 with scratch line 3. -/
def streaming (op base : Nat) : State := (((coreUp ((op * 2 ^ 30 + 3 * 2 ^ 6) * 2 ^ 64) id).onCtx 1 fun c => { c with state := .active }).onWork
  fun w => { w with patterns := [{
    emptyPattern with streams := [{ first := 0, period := 1, count := 1, core := 0, write := false, indirect := false, region := 2, pc := 0
                                    base := base, stride := 1 }] }] }).onHbm fun h => { h with
  regions := [(regionKey 1 2, { mode := 3, target := 0, pcLines := 6, parity := false, base := 64, ready := true, blocked := false })] }

theorem test_slot_streams :
    let hit := streaming 8 5
    let miss := streaming 8 6
    let count (s : State) := s.onCore 0 fun x => { x with slotCount := [(0, 1)] }
    let put (a : AccessKind) (line : Nat) (s : State) := (count s).onHbm fun h => { h with inflight := [
      { pc := 0, line := line, source := .pattern, arrival := coreTime s 0 164, key := 0, kind := a, owner := 1, region := 2
        transfer := none }] }
    ((slotStream hit 1 0 0).map fun t => streamTarget hit 1 t (streamLine (hit.core 0) 100 t 0)) = some (some (0, 69)) ∧
    ((slotStream miss 1 0 0).map fun t => streamTarget miss 1 t (streamLine (miss.core 0) 100 t 0)) = some none ∧
    issuesNow hit (.hwr slot0 0 3) slot0 = true ∧ gatedOff (hit.core 0) slot0 = false ∧
    gives (exec (.hwr slot0 0 3) miss) (violate 1 0x01 (count miss)) = true ∧
    gives (exec (.hwr slot0 0 3) hit) (put (.lineWrite 0) 69 hit) = true ∧
    gives (exec (.hrd slot0 0 3) (streaming 7 5)) (put (.hrd 0 3 (coreTime hit 0 580)) 69 (streaming 7 5)) = true ∧
    gives (exec (.hrd slot0 0 3) (streaming 7 6)) (violate 1 0x01 (put (.zeros 0 3 (coreTime hit 0 580)) 0 (streaming 7 6))) = true := by
  decide +kernel

/-- The control slot: OP [21:18] with the operand below; the word ends the innermost loop's body, which has one iteration left. -/
theorem test_control_slot :
    let s (op o : Nat) := coreUp ((op * 2 ^ 18 + o) * 2 ^ 100) fun k => { k with loops := [{ first := 3, body := 2, count := 2, counter := 0 }] }
    let at_ (pc cycle counter : Nat) (k : Core) : Core := { k with
      run := some { ctx := 1, handle := 3, length := 10, pc := pc, nextCycle := cycle, waiting := false }
      loops := [{ first := 3, body := 2, count := 2, counter := counter }] }
    gives (exec (.nop slot0 .control) (s 0 0)) ((s 0 0).onCore 0 (at_ 3 101 1)) = true ∧
    gives (exec (.delay slot0 0x3FFFF) (s 6 0x3FFFF)) ((s 6 0x3FFFF).onCore 0 (at_ 3 (100 + 1 + 0x40000) 1)) = true ∧
    gives (exec (.nop slot0 .array) (s 0 0)) (s 0 0) = true ∧
    gives (exec (.waits slot0) (s 4 0)) ((s 4 0).onCore 0 fun k => { k with
      run := some { ctx := 1, handle := 3, length := 10, pc := 4, nextCycle := 100, waiting := true } }) = true ∧
    issuesNow (s 2 (15 * 2 ^ 14 + 0x3FFF)) (.setc slot0 15 0x3FFF) slot0 = true ∧
    issuesNow (s 3 (7 * 2 ^ 15 + 3 * 2 ^ 13 + 2 * 2 ^ 11 + 0x7FF)) (.pset slot0 7 3 .ge 0x7FF) slot0 = true ∧
    issuesNow (s 1 (0x1FF * 2 ^ 9 + 2 ^ 8 + 15)) (.loop slot0 0x1FF (.reg 15)) slot0 = true ∧
    issuesNow (s 1 (0x1FF * 2 ^ 9 + 255)) (.loop slot0 0x1FF (.imm 255)) slot0 = true := by decide +kernel

theorem test_phase_marks :
    let b : BandRun := { ctx := 1, handle := 3, cycles := 0, pleat := false, marks := [] }
    let s := (coreUp ((5 * 2 ^ 18 + 7) * 2 ^ 100) id).onStu fun u => { u with bands := [(0, b)] }
    let n := (coreUp 0 id).onStu fun u => { u with bands := [(0, b)] }
    issuesNow s (.phase slot0 7) slot0 = true ∧
    (match exec (.phase slot0 7) s, exec (.nop slot0 .control) n with
      | .next t, .next u => decide (t.stu.bands = [(0, { b with marks := [(100, 7)] })]) && decide ((t.core 0).run = (u.core 0).run)
      | _, _ => false) = true := by decide +kernel

theorem test_hrd_return :
    let r : HrdReturn := { core := 0, line := 767, data := 5, due := 3 }
    let s := up.onCores fun k => { k with returns := [{ r with due := 4, data := 6 }, r, { r with core := 1, due := 1 }] }
    firstReturn 0 s.cores.returns = some r ∧
    gives (exec (.hrdReturn { panel := 0, row := 0, col := 0 }) s) ((s.onCores fun k => { k with returns := k.returns.erase r }).onCore 0
      (scratchWrite 0 2 (64 * 767) (leBytes 64 5))) = true ∧
    Mem.byte (scratchWrite 0 2 (64 * 767) (leBytes 64 5) {}).scratch (64 * 767) = 5 := by decide +kernel

/-- Router (0, 0, 0) with a route entry, band 0 in context 1. -/
def routed (e : BitVec 32) : State := ((up.onRouter 0 fun x => { x with entries := [(9, e)] }).onCtx 1 fun c => { c with state := .active }).onBand 0
  fun b => { b with owner := 1 }

theorem test_flits :
    let f : Flit := { route := 9, data := 7 }
    let r : RouterId := { panel := 0, row := 0, col := 0 }
    let s := routed 0x85FFE000
    let off := s.onBand 0 fun b => { b with state := .off }
    let no := s.onBand 0 fun b => { b with state := .unavailable }
    routeEntry s 0 9 = some 0x85FFE000 ∧ coreOfRouter s 0 = some 0 ∧
    ((List.range 31).filter fun b => 25 ≤ b && (0x85FFE000 : BitVec 32).getLsbD b) = [26] ∧
    gives (exec (.flitArrival r [(.north, f)]) no) (violate 1 0x05 no) = true ∧
    bandDrops (off.band 0) = true ∧
    gives (exec (.flitArrival r [(.north, f)]) off) (violate 1 0x04 (off.onBand 0 fun b => { b with drops := 1 })) = true ∧
    gives (exec (.flitArrival r [(.north, { f with route := 8 })]) s) (violate (pageContext s 0) 0x0A s) = true := by decide +kernel

theorem test_mesh_conflict :
    let r : RouterId := { panel := 0, row := 0, col := 0 }
    let s := routed 0x84000000
    let f : Flit := { route := 9, data := 7 }
    let g : Flit := { route := 9, data := 8 }
    gives (exec (.flitArrival r [(.local, g), (.north, f)]) s) (meshConflict 0 g (routeFlit 0 f [] s).1) = true ∧
    ((routeFlit 0 f [] s).1.core 0).scratch = [(0, 7)] := by decide +kernel

/-- Two flits of one cycle pass over a short edge; of two writes to one byte in one cycle the HBM return's value stands. -/
theorem test_short_edge_and_write_order :
    let r : RouterId := { panel := 0, row := 0, col := 127 }
    let e : BitVec 32 := 0x90000000
    let s := ((up.onRouter 127 fun x => { x with entries := [(9, e)] }).onCtx 1 fun c => { c with state := .active }).onBand 0
      fun b => { b with owner := 1 }
    let f : Flit := { route := 9, data := 7 }
    let g : Flit := { route := 9, data := 8 }
    routerIdNum r = 127 ∧ bandOfRouter 127 = 0 ∧ routeEntry s 127 9 = some e ∧ e.getLsbD MeshOut.east.bitOf = true ∧
    gives (exec (.flitArrival r [(.north, f), (.south, g)]) s) (leaveBy 127 g .east (leaveBy 127 f .east s)) = true ∧
    Mem.byte (scratchWrite 5 1 0 [7] (scratchWrite 5 2 0 [9] {})).scratch 0 = 9 ∧
    Mem.byte (scratchWrite 5 2 0 [9] (scratchWrite 5 1 0 [7] {})).scratch 0 = 9 ∧
    Mem.byte (scratchWrite 6 1 0 [7] (scratchWrite 5 2 0 [9] {})).scratch 0 = 7 := by decide +kernel

/-! ## Bolt, HBM and the apertures -/

/-- The band of the tests on and owned by a context that is ACTIVE, with DEFINE's staging values for a region of one line. -/
def defining : State := (((up.onCtx 1 fun c => { c with state := .active }).onBand 0 fun b => { b with state := .on, owner := 1 })).onBolt
  fun b => { b with rgnSel := 5, cfg := 0x901, bandsLo := 1 }

theorem test_bolt_define :
    defineRefusal defining 1 9 1 false false (maskBands 1 0) = none ∧
    (match placeEvicting (maskBands 1 0) 1 false 64 defining with
      | (some runs, t) => gives (exec (.bltDefine 0) defining) (t.onBolt fun b => { b with
          result := 0, regions := [(5, { boltRegion1 with lines := 1, runs := runs, state := .loading })] })
      | _ => false) = true ∧
    gives (exec (.bltDefine 4) (defining.onBolt fun b => { b with regions := [(5, boltRegion1)] }))
      ((violate 0 0x02 (defining.onBolt fun b => { b with regions := [(5, boltRegion1)] })).onBolt fun b => { b with result := 2 }) = true ∧
    defineRefusal defining 1 9 1 false false (maskBands 0 0) = some 5 ∧
    defineRefusal (defining.onBand 0 fun b => { b with owner := 2 }) 1 9 1 false false (maskBands 1 0) = some 3 := by decide +kernel

/-- A region that takes all of its band's slabs, and a model slot whose one region holds the whole band. -/
theorem test_bolt_eviction :
    let full := defining.onBolt fun b => { b with
      excluded := (List.range 80).map fun k => (k, 0)
      regions := [(7, { boltRegion1 with index := 7, slot := some 3, lines := 1, bands := [0], runs := [] })]
      slots := b.slots.set 3 { valid := true, id := 1, regions := [7], stamp := 5 } }
    earliestSlot full (evictable full (some [0])) = some 3 ∧
    earliestSlot (evictSlot 3 full) (evictable (evictSlot 3 full) (some [0])) = none ∧
    (boltRegion (evictSlot 3 full) 7).isNone = true := by decide +kernel

theorem test_bolt_release :
    let s := defining.onBolt fun b => { b with regions := [(5, boltRegion1)] }
    pinned s boltRegion1 = false ∧ gives (exec (.bltRelease 0) s) ((freeRegion 5 s).onBolt fun b => { b with result := 0 }) = true ∧
    gives (exec (.bltRelease 0) defining) (defining.onBolt fun b => { b with result := 6 }) = true := by decide +kernel

theorem test_bolt_release_pinned :
    let held := (defining.onBolt fun b => { b with regions := [(5, boltRegion1)] }).onWork fun w => { w with
      entries := [armedEntry]
      patterns := [{ emptyPattern with extents := [{ region := 9, band := 0, slab := 0, first := 0, count := 1 }] }] }
    pinned held boltRegion1 = true ∧ gives (exec (.bltRelease 0) held) (held.onBolt fun b => { b with result := 4 }) = true := by
  decide +kernel

theorem test_region_loading :
    let whole : BoltRegion := { boltRegion1 with state := .loading, loaded := [(0, regionTotal boltRegion1)] }
    let s := up.onBolt fun b => { b with regions := [(5, whole)] }
    let dirty := up.onBolt fun b => { b with regions := [(5, { boltRegion1 with state := .dirty })] }
    let filling := up.onBolt fun b => { b with regions := [(5, { boltRegion1 with state := .loading, filling := true })] }
    gives (exec (.regionLoaded 5) s) (up.onBolt fun b => { b with regions := [(5, { whole with state := .resident })] }) = true ∧
    gives (exec (.regionLoaded 5) dirty) dirty = true ∧
    gives (exec (.regionWrittenBack 5) dirty) (writeBacking { boltRegion1 with state := .dirty }
      (up.onBolt fun b => { b with regions := [(5, boltRegion1)] })) = true ∧
    gives (exec (.regionWrittenBack 5) s) s = true ∧
    (match exec (.regionLoaded 5) filling with
      | .next t => (boltRegion t 5).map (·.state) == some .resident
      | _ => false) = true := by decide +kernel

/-- The bolt of panel 7 covered by its scrubber, SCRUB_EVT set or not. -/
def lapped (events : Bool) : State := up.onBolt fun b => { b with
  ctrl := if events then 3 else 1, covered := b.covered.map fun _ => 32768 }

theorem test_scrub_laps :
    let s := up.onBolt fun b => { b with buffers := [(3, [{ line := 6, data := 1 }, { line := 7, data := 2 }])] }
    (match exec (.boltWriteBack 0 3) s with
      | .next t => t.bolt.buffers == [(3, [{ line := 7, data := 2 }])] && decide (t.bolt.mem.map (·.2) = [1])
      | _ => false) = true ∧
    lapCovered (lapped true) 7 = true ∧ lapCovered up 7 = false ∧ gives (exec (.boltScrubLap 7 5 []) up) up = true ∧
    (match exec (.boltScrubLap 7 (2 ^ 36) [(3, 6, 5, .corrected)]) (lapped false) with
      | .next t => t.bolt.lastLap[7] == 2 ^ 36 - 1 && t.bolt.laps[7] == 1 && t.bolt.corrected[7] == 1 && lapCovered t 0 && !lapCovered t 7
      | _ => false) = true ∧
    (match exec (.scrubStarvation 7) up with
      | .next t => t.bolt.starved[7]
      | _ => false) = true := by decide +kernel

theorem test_hbm_scrub :
    let f : Fin 256 × Nat × Bool × Ecc := (0, 5, true, .uncorrectable 3 true)
    let s := up.onHbm fun h => { h with ctrl := 0 }
    hbmRegionAt s 0 5 = none ∧
    (match exec (.hbmScrubLap 0 9 [f, (0, 6, false, .corrected)]) s with
      | .next t => t.hbm.lastLap[0] == 9 && t.hbm.laps[0] == 1 && t.hbm.uncorrectable[0] == 1 && t.hbm.corrected[0] == 1 &&
          t.hbm.excluded == [(0, 5)] && t.hbm.lapCorrected == [12]
      | _ => false) = true := by decide +kernel

/-- DEFINE's staging values for four lines on pseudo-channel 9 of context 1, index 3. -/
def hbmStaged (cfg : W64) : State := (up.onCtx 1 fun c => { c with state := .active }).onHbm fun h => { h with rgnSel := 0x13, cfg := cfg }

theorem test_hbm_define :
    let ok := hbmStaged 0x000004090003
    let r : HbmRegion := { mode := 3, target := 9, pcLines := 4, parity := false, base := 0, ready := false, blocked := false }
    let after (b n : Nat) (s : State) : State := s.onHbm fun h => { h with result := BitVec.ofNat 8 n
                                                                           regions := h.regions ++ [(19, { r with base := b })] }
    let full := (hbmStaged 0x000004090003).onHbm fun h => { h with
      regions := [(2, { r with base := 0, pcLines := Config.pcLines })] }
    let held := (hbmStaged 0).onHbm fun h => { h with regions := [(19, r)] }
    gives (exec (.hbtDefine 0) ok) (after 0 0 ok) = true ∧
    gives (exec (.hbtDefine 0) full) (full.onHbm fun h => { h with result := 1 }) = true ∧
    gives (exec (.hbtDefine 0) (hbmStaged 3)) ((hbmStaged 3).onHbm fun h => { h with result := 5 }) = true ∧
    gives (exec (.hbtDefine 0) held) (held.onHbm fun h => { h with result := 2 }) = true ∧
    gives (exec (.hbtRelease 0) held) (held.onHbm fun h => { h with regions := [] }) = true ∧
    gives (exec (.hbtRelease 0) ok) (ok.onHbm fun h => { h with result := 6 }) = true ∧
    gives (exec (.zeroingDone 1 3) held)
      ((zeroRegion r held).onHbm fun h => { h with regions := [(19, { r with ready := true })] }) = true := by decide +kernel

theorem test_zeroed_region :
    let r : HbmRegion := { mode := 3, target := 1, pcLines := 1, parity := false, base := 2, ready := false, blocked := false }
    let at_ (a : Nat) := hbmAddr 1 2 + a
    let s := up.onHbm fun h => { h with mem := Mem.write (Mem.write (Mem.write [] (hbmAddr 1 2 + 63) [5]) (hbmAddr 1 2) [5]) (hbmAddr 1 3) [6] }
    usesPc s r 1 = true ∧ usesPc s r 2 = false ∧
    Mem.byte (zeroRegion r s).hbm.mem (at_ 63) = 0 ∧ Mem.byte (zeroRegion r s).hbm.mem (hbmAddr 1 3) = 6 := by decide +kernel

theorem test_hbm_queue :
    let a : Access := { pc := 2, line := 3, source := .loader, arrival := 4, key := 0, kind := .bytesWrite 1 7, owner := 1, region := 0
                        transfer := none }
    let b : Access := { a with arrival := 5, kind := .bytesWrite 1 8 }
    let e : LineEcc := { onDie := 1, low := .corrected, high := .ok }
    let s := up.onHbm fun h => { h with inflight := [b, a] }
    nextAccess s 2 = some a ∧ nextAccess s 3 = none ∧
    gives (exec (.hbmQueueArrival 2 e) s) (takeAccess a e (up.onHbm fun h => { h with inflight := [b] })) = true := by decide +kernel

theorem test_write_combining :
    let e : WcEntry := { pc := 2, line := 3, valid := 1, data := 7, sealed := true }
    let s := up.onHbm fun h => { h with wc := h.wc.set 0 [e] }
    gives (exec (.wcDrain 0) s) (drainEntry e up) = true := by decide +kernel

theorem test_hbm_windows :
    let r : HbmRegion := { mode := 3, target := 9, pcLines := 4, parity := false, base := 0, ready := true, blocked := false }
    let s := (up.onCtx 1 fun c => { c with rank := 0x300000 }).onHbm fun h => { h with regions := [(19, r)], tallyOut := [(1, 2, [5])] }
    gives (exec .refreshWindow up) (up.onHbm fun h => { h with refreshes := 1, refreshIndex := 1 }) = true ∧
    gives (exec .calibrationWindow up) (up.onHbm fun h => { h with calibrations := 1 }) = true ∧
    gives (exec .calibrationWindow s) (unverifyBytes 1 3 128 1 (storeLines 1 r 128 [5]
      (s.onHbm fun h => { h with calibrations := 1, tallyOut := [] }))) = true := by
  decide +kernel

theorem test_scrub_floor :
    gives (exec (.scrubFloorWrite (256 <<< 16)) up) (up.onHbm fun h => { h with ctrl := 256 <<< 16 }) = true ∧
    gives (exec (.scrubFloorWrite (257 <<< 16)) up) (up.onHbm fun h => { h with ctrl := 16 <<< 16 }) = true ∧
    gives (exec (.scrubFloorWrite 0) up) (up.onHbm fun h => { h with ctrl := 16 <<< 16 }) = true := by decide +kernel

theorem test_stack_readings :
    let s := up.onHbm fun h => { h with temp := h.temp.set 7 0x50, tempMax := h.tempMax.set 7 0x51, tempFails := h.tempFails.set 7 2 }
    tempSuspended s 7 = false ∧ s.stu.hbmTarget = 16 ∧
    gives (exec (.hbmTempMaxClr 7 0) s) (s.onHbm fun h => { h with tempMax := h.tempMax.set 7 0x50 }) = true ∧
    (match exec (.hbmTempRead 7 .failed) s with
      | .next t => t.hbm.faulted[7] && t.stu.hbmTarget == 20
      | _ => false) = true ∧
    (match exec (.hbmTempRead 7 (.reading 94)) s with
      | .next t => t.hbm.temp[7] == 94 && t.hbm.tempMax[7] == 94 && t.hbm.tempFails[7] == 0
      | _ => false) = true ∧
    (match exec (.hbmTempRead 0 .failed) s with
      | .next t => t.hbm.tempFails[0] == 1 && t.stu.hbmTarget == 16
      | _ => false) = true := by decide +kernel

theorem test_bar2 :
    let r : HbmRegion := { mode := 3, target := 9, pcLines := 4, parity := false, base := 0, ready := true, blocked := false }
    let s := (up.onHbm fun h => { h with regions := [(19, r)] }).onHif fun h => { h with windows := h.windows.set 0 0x8000013000000001 }
    let out (u : State) : State := u.emit (.bar2Data [0, 0])
    gives (exec (.bar2Access (2 * 64 + 62) (.read 2)) s) (bar2Part 1 r 3 1 (.read 2) 0 (2, 62, 2) s) = true ∧
    gives (exec (.bar2Access (3 * 64 + 62) (.read 2)) s) (out (violate 0 0x01 s)) = true ∧
    gives (exec (.bar2Access (2 ^ 34) (.read 2)) s) (out (violate 0 0x01 s)) = true ∧
    gives (exec (.bar2Access (2 ^ 34) (.write [1])) s) (violate 0 0x01 s) = true ∧
    gives (exec (.bar0AccessError 4 8 true) s) (violate 0 0x02 s) = true := by decide +kernel

theorem test_bar2_timeout :
    let a : Access := { pc := 2, line := 3, source := .portH, arrival := 4, key := 0, kind := .bar2Read 4 0, owner := 1, region := 0
                        transfer := none }
    gives (exec .bar2Timeout (up.onHbm fun h => { h with inflight := [a] }))
      ((up.onHif fun h => { h with bar2Timeouts := 1 }).emit .bar2Abort) = true := by decide +kernel

theorem test_wellformed :
    (Instr.stretchReq 0 15 0).wf = false ∧ (Instr.stretchReq 0 33 0).wf = false ∧ (Instr.stretchReq 0 32 0).wf = true ∧
    (Instr.stretchAnn 0 15 0).wf = false ∧ (Instr.periodAnn 0 31 0).wf = false ∧ (Instr.periodAnn 0 32 0).wf = true := by decide +kernel

theorem test_wellformed_bar :
    (Instr.bar2Access (2 ^ 38) (.read 1)).wf = false ∧ (Instr.bar2Access 0 (.read 0)).wf = false ∧
    (Instr.bar2Access 0 (.read 4097)).wf = false ∧ (Instr.bar2Access 0 (.write [])).wf = false ∧
    (Instr.bar2Access 0 (.write (List.replicate 4097 0))).wf = false ∧ (Instr.bar2Access 0 (.read 4096)).wf = true ∧
    (Instr.bar0AccessError (2 ^ 26) 1 true).wf = false ∧ (Instr.bar0AccessError 8 8 true).wf = false ∧
    (Instr.bar0AccessError 4 8 true).wf = true ∧ (Instr.registerRead (2 ^ 26) true).wf = false := by decide +kernel

theorem test_wellformed_lengths :
    (Instr.frameReceive 0 { cells := [], trailer := 0, badFec := 0, corrected := 0, uncorrectable := 0, symbols := 0 }).wf = false ∧ (Instr.panelSensorRead []).wf = false ∧
    (Instr.certSubmit (.bmc [])).wf = false ∧ (Instr.certSubmit (.register 0)).wf = true ∧
    (Instr.hbmScrubLap 0 0 [(0, Config.pcLines, false, .corrected)]).wf = false := by decide +kernel

/-! ## The stitch unit -/

/-- A marker of the first stitch. -/
def markerMsg (epoch : BitVec 8) (tree : Bool) (hops : BitVec 8) : MarkerMsg :=
  { groupId := 0, epoch := epoch, tree := tree, stitch := 0, hops := hops, accDelay := 7 }

/-- What a member's stitch unit takes from a marker that reaches it at 100 ps. -/
def heard (m : MarkerMsg) (s : State) : State := s.drew.onStu fun u => { u with
  offset := markerOffset s m 100, correctionPs := 93, missed := 0, holdover := false, tree := m.tree, epoch := m.epoch, epochHeld := true
  hops := m.hops, markerSeen := true, primarySeen := u.primarySeen || !m.tree, acquiring := false, counting := true
  stitch := if u.acquiring then m.stitch else u.stitch }

theorem test_marker_accepted :
    let s := member 1
    let m := markerMsg 130 true 64
    gives (exec (.marker 0 m 100) s) (forwardMarker m 100 (heard m s)) = true ∧ (markerOffset s m 100).toInt = 93 ∧
      (s.port 0).state = .active ∧ role s = 1 ∧ s.stu.acquiring = false ∧ s.stu.counting = true ∧ m.stitch = s.stu.stitch ∧
      (m.epoch - s.stu.epoch).toNat = 127 ∧ fld s.stu.ctrl 31 16 = 0 := by decide +kernel

/-- One of the epoch in force on the primary tree, one of another group, one over 64 hops, and one of another stitch. -/
theorem test_marker_same_epoch_primary :
    let s := member 3
    let m := markerMsg 3 false 0
    let far := markerMsg 3 false 65
    let other : MarkerMsg := { m with stitch := 5 }
    let t := declareFault (alignmentRec s 1 2 5) s
    gives (exec (.marker 0 m 100) s) (forwardMarker m 100 (heard m s)) = true ∧
    gives (exec (.marker 0 { m with groupId := 1 } 100) s) s = true ∧
    gives (exec (.marker 0 far 100) s) (forwardMarker far 100 (declareFault (alignmentRec (heard far s) 1 1 0) (heard far s))) = true ∧
    gives (exec (.marker 0 other 100) s) (forwardMarker other 100 (heard other t)) = true := by decide +kernel

theorem test_marker_acquires :
    let s := (member 1).onStu fun u => { u with acquiring := true, counting := false, epochHeld := false }
    let m : MarkerMsg := { markerMsg 9 true 1 with stitch := 77 }
    (heard m s).stu.stitch = 77 ∧ gives (exec (.marker 0 m 100) s) (forwardMarker m 100 (heard m s)) = true := by decide +kernel

theorem test_master_takeover :
    let s := (member 3).onStu fun u => { u with primaryMissed := 3, pos := 95 }
    gives (exec .masterTakeover s) (sendMarker (declareFault
        (faultRec s 0x09 1 0x0A 0 0 0 0 0 ((s.port 12).nbAddr.toNat + 65536 * (s.stu.epoch + 1).toNat))
        (s.onStu fun u => { u with
          ctrl := putFld u.ctrl 1 0 2, epoch := u.epoch + 1, epochHeld := true, sendsAlt := true, holdover := false, missed := 0
          primaryMissed := 0, lastAnnounced := u.curFactor }))) = true := by decide +kernel

theorem test_holdover_and_alignment :
    let s := (member 1).onStu fun u => { u with missed := 3 }
    let v := (member 1).onStu fun u => { u with missed := 64 }
    gives (exec .holdover s) (s.onStu fun u => { u with holdover := true }) = true ∧
    v.flt.phase ≠ .hold ∧ v.flt.phase ≠ .running ∧ v.stu.missed.toNat = 64 := by decide +kernel

theorem test_alignment_fault :
    let v := (member 1).onStu fun u => { u with missed := 64 }
    exec .alignmentFault v = .next (declareFault (alignmentRec v 4 3 (Config.freeNat v.free % 2 ^ 40)) v.drew) := by rfl

theorem test_stretch_req :
    let s := up.onSea fun a => { a with tree := putFld a.tree 4 4 1 }
    gives (exec (.stretchReq 0 32 15) s) (updateSubtree (s.onStu fun u => { u with
        childFactors := Tab.put u.childFactors 0 32, childReasons := Tab.put u.childReasons 0 15 })) = true ∧
      s.sea.tree.getLsbD 4 = true := by decide +kernel

/-- An announcement takes its place by its apply stitch; with 8 pending it is dropped; a standalone device announces what waits. -/
theorem test_announcement_order :
    let a (n : Stitch) : Announcement := { kind := .stretch 20, apply := n }
    let s (l : List Announcement) := (member 0).onStu fun u => { u with queue := l }
    (announce (a 9) (s [a 8, a 10])).stu.queue = [a 8, a 9, a 10] ∧
    (announce (a 9) (s (List.replicate 8 (a 1)))).stu.queue = List.replicate 8 (a 1) ∧
    (announceAfter ((member 0).onStu fun u => { u with subtreeFactor := 32 })).stu.queue = [{ kind := .stretch 32, apply := 8 }] := by
  decide +kernel

theorem test_announcements :
    let s := member 1
    gives (exec (.stretchAnn 0 32 8) s) (sendDown s.stu.tree (.stretchAnn 32 8)
        (s.onStu fun u => { u with queue := [{ kind := .stretch 32, apply := 8 }] })) = true ∧
    gives (exec (.periodAnn 0 0xFFFFFF 8) s) (sendDown s.stu.tree (.periodAnn 0xFFFFFF 8)
        (s.onStu fun u => { u with queue := [{ kind := .period 0xFFFFFF, apply := 8 }] })) = true := by decide +kernel

theorem test_stretch_change :
    let s := (member 1).onStu fun u => { u with
      stitch := 8, pos := 95, annSent := true, queue := [{ kind := .stretch 32, apply := 8 }] }
    gives (exec .stretchChange s) (stretchEvent s.stu.curFactor s.stu.periodUnits (panelClocks (s.onStu fun u => { u with
          queue := [], curFactor := 32, factorAge := 0, length := 4 * u.periodUnits.toNat * 32 }))) = true ∧
      before s.stu.stitch 8 = false := by decide +kernel

theorem test_period_change :
    let s := (member 1).onStu fun u => { u with
      stitch := 9, annSent := true, queue := [{ kind := .period 32, apply := 8 }, { kind := .stretch 17, apply := 9 }] }
    gives (exec .periodChange s) (stretchEvent s.stu.curFactor s.stu.periodUnits (rebuildLedger (s.onStu fun u => { u with
            queue := [{ kind := .stretch 17, apply := 9 }], periodUnits := 32, length := 4 * 32 * u.curFactor.toNat }))) = true := by
  decide +kernel

theorem test_stu_enable :
    let v : W64 := (0xFFFF#16).setWidth 64 <<< 16 ||| 4 ||| (1#2).setWidth 64
    gives (exec (.stuEnable v) up) (up.onStu fun u =>
        let u := { u with
          ctrl := v, epochHeld := false, epoch := 0, counting := false, sendsAlt := u.sendsAlt && decide (1 = fld u.ctrl 1 0) }
        { u with acquiring := true, holdover := true, missed := 0 }) = true ∧
      bit up.stu.ctrl 3 = false ∧ bit up.stu.ctrl 2 = false := by decide +kernel

theorem test_stu_enable_master :
    let v : W64 := (7#16).setWidth 64 <<< 16 ||| 4 ||| (2#2).setWidth 64
    gives (exec (.stuEnable v) up) (up.onStu fun u => { u with
          ctrl := v, epochHeld := false, epoch := 0, counting := false, sendsAlt := u.sendsAlt && decide (2 = fld u.ctrl 1 0) }) =
      true := by decide +kernel

theorem test_period_write :
    let s := member 0
    gives (exec (.stuPeriodWrite 31) s) (postWithdrawal 0 0x3F 0 31 0 s) = true ∧
    gives (exec (.stuPeriodWrite 51) up) (up.onStu fun u => { u with immediate := some 51, held := none }) = true ∧
    gives (exec (.stuPeriodWrite 0xFFFFFF) s) (s.onStu fun u => { u with
          queue := [{ kind := .period 0xFFFFFF, apply := u.stitch + 8 }], annSent := true, held := none }) = true ∧
    gives (exec (.stuPeriodWrite 50) (up.onSrvCtx 15 fun c => { c with cfg := 0x8000000000000000 }))
      (postWithdrawal 0 0x3F 0 50 0 (up.onSrvCtx 15 fun c => { c with cfg := 0x8000000000000000 })) = true ∧
    gives (exec (.stuPeriodWrite 0x400) (member 1)) (member 1) = true ∧
    gives (exec (.stuPeriodWrite 51) (member 3)) (violate 0 0x02 (member 3)) = true ∧
    gives (exec (.stuPeriodWrite 51) (s.onStu fun u => { u with annSent := true }))
      ((s.onStu fun u => { u with annSent := true }).onStu fun u => { u with held := some 51 }) = true := by decide +kernel

theorem test_sys_factor :
    gives (exec (.sysFactor ((63#6).setWidth 64 <<< 16)) up) (up.onStu fun u => { u with sysFactor := 63 }) = true := by
  decide +kernel

/-- A barrier in the state of a device. -/
def barrier (own : Option (BitVec 16)) (children : List ChildCount) : Barrier :=
  { tag := 7, start := 8, own := own, children := children, sent := none, outcome := none }

theorem test_ready :
    let s := up.onSea fun a => { a with tree := putFld a.tree 4 4 1 }
    let m : ReadyMsg := { tag := 7, start := 1, expected := 2, count := 1 }
    let c : ChildCount := { port := 0, expected := m.expected, count := m.count }
    let b : Barrier := {
        tag := m.tag, start := m.start, own := none, children := [c], sent := some (m.expected, m.count), outcome := none }
    gives (exec (.ready 0 m) s) ((sendUp (.ready m) s).onStu fun u => { u with barriers := [b] }) = true ∧
      before s.stu.stitch m.start = true := by decide +kernel

theorem test_go_and_miss :
    let s := ((member 1).onStu fun u => { u with barriers := [barrier (some 2) []] }).onWork fun w => { w with entries := [armedEntry] }
    gives (exec (.go 0 7 8) s) (((sendDown s.stu.tree (.go 7 8) s).onWork fun w => { w with
      entries := [{ armedEntry with go := true }] }).onStu fun u => { u with barriers := [] }) = true ∧
    gives (exec (.miss 0 7 8) s) (((sendDown s.stu.tree (.miss 7 8) s).onWork fun w => { w with
      entries := [{ armedEntry with missed := true }] }).onStu fun u => { u with barriers := [] }) = true := by decide +kernel

theorem test_barrier_check :
    let s := ((member 0).onStu fun u => { u with pos := 95, barriers := [barrier (some 1) []] }).onWork fun w => { w with
      entries := [armedEntry] }
    gives (exec .barrierCheck s) ((s.onWork fun w => { w with
      entries := [{ armedEntry with go := true }] }).onStu fun u => { u with barriers := [] }) = true ∧
    barrierSum (barrier (some 1) []) = (1, 1) ∧ treeChildren s s.stu.tree = [] := by decide +kernel

theorem test_barrier_timeout :
    let s := ((member 0).onStu fun u => { u with stitch := 8, barriers := [barrier (some 1) []] }).onWork fun w => { w with
      entries := [{ armedEntry with go := true }] }
    gives (exec .barrierTimeout s) (s.onStu fun u => { u with barriers := [] }) = true := by decide +kernel

/-- An entry without GO at its start stitch is withdrawn; a READY of a seventeenth tag, or one whose start has passed, is discarded. -/
theorem test_barrier_ends :
    let s := ((member 0).onStu fun u => { u with stitch := 8, barriers := [barrier (some 1) []] }).onWork fun w => { w with
      entries := [armedEntry] }
    let n := (up.onSea fun a => { a with tree := putFld a.tree 4 4 1 }).onStu fun u => { u with
      barriers := (List.range 16).map fun k => { barrier none [] with tag := BitVec.ofNat 16 (100 + k) } }
    let m : ReadyMsg := { tag := 7, start := 1, expected := 2, count := 1 }
    gives (exec .barrierTimeout s) ((withdraw 0x32 7 8 armedEntry (undispatch armedEntry s)).onStu fun u => { u with barriers := [] }) =
      true ∧
    gives (exec (.ready 0 m) n) n = true ∧ gives (exec (.ready 0 { m with tag := 100, start := 0 }) n) n = true := by decide +kernel

theorem test_stitch_boundary :
    let s := ((member 1).onStu fun u => { u with pos := 100, missed := 126 }).onCtx 3 fun c => { c with state := .active }
    ∃ t, exec .stitchBoundary s = .next t ∧ t.stu.stitch = 1 ∧ t.stu.pos = 0 ∧ t.stu.cycle = 65436 ∧ t.stu.missed = 127 ∧
      t.ns = 65436 ∧ (t.ctx 3).age = 1 ∧ (t.ctx 4).age = 0 := ⟨_, rfl, by decide +kernel⟩

/-- A correction of 1,500 ps puts the boundary a cycle later and keeps half a cycle; a period written before the unit counted is in force
from it on; a power-on marks none. -/
theorem test_boundary_corrected :
    let s := up.onStu fun u => { u with pos := 100, correctionPs := 1500, immediate := some 51 }
    let p := up.onFlt fun f => { f with phase := .powerOn }
    gives (exec .stitchBoundary p) p = true ∧
    ∃ t, exec .stitchBoundary s = .next t ∧ t.stu.cycle = 65437 ∧ t.stu.phasePs = 500 ∧ t.stu.correctionPs = 0 ∧
      t.stu.periodUnits = 51 ∧ t.stu.length = 4 * 51 * 16 ∧ t.stu.stitch = 0 := ⟨by decide +kernel, _, rfl, by decide +kernel⟩

theorem test_phase_ledger_record :
    let s := (up.onCtx 2 fun c => { c with state := .active, serving := true }).onStu fun u => { u with
      phase := u.phase.set 2 { stitchCount := 65536 }, ledgerCfg := u.ledgerCfg.set 2 0 }
    gives (exec (.phaseLedgerRecord 2) s)
      ((closeSteps 2 (s.stu.phase[2]).step s).onStu fun u => { u with phase := u.phase.set 2 {} }) = true := by decide +kernel

set_option maxRecDepth 100000 in
/-- With its ring on, at entry 5 of 16. -/
theorem test_phase_ledger_ring :
    let s := (up.onCtx 2 fun c => { c with state := .active, serving := true }).onStu fun u => { u with
      phase := u.phase.set 2 { stitchCount := 65536 }, ledgerCfg := u.ledgerCfg.set 2 0x14, ledgerBase := u.ledgerBase.set 2 0x3000
      ledgerNext := u.ledgerNext.set 2 21 }
    let t := closeSteps 2 (s.stu.phase[2]).step s
    bit t.stu.ledgerCfg[2] 4 = true ∧ t.stu.ledgerNext[2].toNat % 2 ^ ledgerLog2 t.stu.ledgerCfg[2] = 5 ∧
    gives (exec (.phaseLedgerRecord 2) s) (post 2 0x05 [(16, leBytes 2 5), (24, leBytes 8 0)]
      ((t.setHostMem (Mem.write t.hostMem (0x3000 + 640 * 5) (phaseBytes t 2 { stitchCount := 65536 }))).onStu
        fun u => { u with phase := u.phase.set 2 {}, ledgerNext := u.ledgerNext.set 2 22 })) = true := by decide +kernel

theorem test_thermal :
    let s := up.onThm fun t => { t with panels := t.panels.set 7 { targetK := 31, hot := 256 } }
    let c := up.onThm fun t => { t with panels := t.panels.set 0 { targetK := 17, cooled := true, nominal := 1024 } }
    gives (exec (.thermalStepUp (.panel 7)) s) (s.onThm fun t => { t with panels := t.panels.set 7 { targetK := 32, hot := 0 } }) =
      true ∧
    gives (exec (.thermalWithdraw 0) c) (platformEvent 0x09 [0, 0] (logGeneral 0x09 0 [0, 0, 0] (c.onThm fun t =>
          { t with panels := t.panels.set 0 {} }))) = true := by decide +kernel

theorem test_rails :
    let s (l : List Nat) := up.onStu fun u => { u with supplyBad := l }
    railOperating up 31 48000 = true ∧ railHeld up 31 = false ∧ railOperating up 31 39999 = false ∧ railAbsolute up 31 39999 = 0 ∧
    railAbsolute up 31 35999 ≠ 0 ∧
    gives (exec (.supplyReason (.rail 31 48000)) (s [3, 31])) (s [3]) = true ∧
    gives (exec (.supplyReason (.rail 31 39999)) (s [3])) (platformEvent 0x09 [2] (logGeneral 0x09 0 [2, 0, 1] (up.onStu fun u => { u with
          supply := true, supplyOk := 0, supplyBad := [31, 3] }))) = true ∧
    gives (exec (.supplyReason (.rail 31 35999)) (s [3])) (s [31, 3]) = true := by decide +kernel

theorem test_supply :
    let s := up.onStu fun u => { u with hbmHot := 256, hbmTarget := 31 }
    let w := up.onStu fun u => { u with supply := true, supplyOk := 1024 }
    gives (exec (.thermalStepUp .hbm) s) (s.onStu fun u => { u with hbmTarget := 32, hbmHot := 0 }) = true ∧
    gives (exec (.supplyReason (.inputPower 9601)) up) (platformEvent 0x09 [2] (logGeneral 0x09 0 [2, 0, 1] (up.onStu fun u => { u with
          supply := true, supplyOk := 0, supplyBad := [32] }))) = true ∧
    gives (exec (.supplyReason (.inputPower 9600)) w) w = true ∧
    gives (exec .supplyWithdraw w) (platformEvent 0x09 [2] (logGeneral 0x09 0 [2, 0, 0] (w.onStu fun u => { u with
      supply := false, supplyOk := 0 }))) = true := by decide +kernel

/-! ## Descriptors, transfers and alterations -/

/-- Ring 1 polled with a tail one ahead of its head, and a descriptor of one byte waiting there. -/
def ringWith (tail : Nat) (type flags reserved : Byte) : State := ((up.onCtx 1 fun c => { c with state := .active }).onRing 1 fun r => { r with
  cfg := 0x106, state := 1, live := true, base := 0x2000, db := 0x40 }).setHostMem
    (Mem.write (Mem.write [] 0x40 (leBytes 4 tail)) 0x2000 [type, flags, 0, 0, reserved])

theorem test_doorbell_poll :
    let s := ringWith 1 0x0C 0 0
    gives (exec .doorbellPoll s) (writeStatus 1 ((s.onHif fun h => { h with polls := 1 }).onRing 1 fun r => { r with
          head := 1, taken := [{ index := 0, bytes := Mem.bytes s.hostMem 0x2000 64, poll := 1 }] })) = true ∧
    (∀ m : Ctx, m ≠ 1 → ringPolled s m.val = false) ∧ (∀ m : Ctx, bit (s.queue m.val).cfg 8 = false) := by decide +kernel

/-- An event queue that holds events, its line asking for interrupt 3 with EVQ_HEAD at 0. -/
theorem test_doorbell_interrupt :
    let s := ((up.onQueue 1 fun q => { q with cfg := 0x50106, tail := 2, statusTail := 2 }).onRing 1 fun r => { r with db := 0x40 }).setHostMem
      (Mem.write [] 0x48 [0, 0, 0, 0, 3])
    gives (exec .doorbellPoll s) (((s.onHif fun h => { h with polls := 1 }).emit (.msix 5)).onQueue 1 fun q => { q with honoured := 3 }) = true := by
  decide +kernel

theorem test_doorbell_stops :
    let stopped (s : State) (e : Nat) : State := (s.onHif fun h => { h with polls := 1 }).onRing 1 fun r => { r with state := 2, live := false, err := e, errPos := 0 }
    gives (exec .doorbellPoll (ringWith 65 0 0 0)) (stopped (ringWith 65 0 0 0) 1) = true ∧
    gives (exec .doorbellPoll (ringWith 1 0x0D 0 0)) (stopped (ringWith 1 0x0D 0 0) 2) = true ∧
    gives (exec .doorbellPoll (ringWith 1 0x0C 0 1)) (stopped (ringWith 1 0x0C 0 1) 3) = true := by decide +kernel

theorem test_nop_load_unload :
    let s := withDesc [(1, [1])]
    let l := withDesc [(0, [1, 0, 63])]
    let u (s : State) := taken 1 [] s
    waits s 1 (layout 64 [(1, [1])]) = false ∧ (s.ctx 1).state = .active ∧
    gives (exec (.descriptorNop 1) s) (postCompletion 1 0 0 0 5 0 0 [] (u s)) = true ∧
    gives (exec (.loadPattern 1) l) ((u l).onWork fun w => { w with loads := [
            { ctx := 1, handle := 63, ringIndex := 5, addr := 0, size := 0, panelMap := List.replicate 8 0, bandBase := List.replicate 8 0 }] }) =
      true ∧
    (let l := (withDesc [(0, [1, 0, 3])]).onWork fun w => { w with patterns := [emptyPattern] }
     gives (exec (.loadPattern 1) l) (postRefusal 1 0x20 1 5 3 3 0 (u l)) = true) := by decide +kernel

theorem test_arm :
    let arm (first len : Nat) := ((withDesc [(0, [2, 1, 3]), (8, leBytes 5 first), (16, leBytes 4 len)]).onWork fun w => { w with
      patterns := [emptyPattern] }).onStu fun u => { u with ctrl := 4, stitch := 6 }
    let u (s : State) := taken 1 [] s
    gives (exec (.arm 1) (arm 8 0)) ((u (arm 8 0)).onWork fun w => { w with order := w.order + 1, entries := [
            { ctx := 1, handle := 3, order := w.order, first := 8, last := none, notify := some 5, barrier := none, go := false
              missed := false, bands := [], ran := none }] }) = true ∧
    gives (exec (.arm 1) (arm 8 1)) ((u (arm 8 1)).onWork fun w => { w with order := w.order + 1, entries := [
            { ctx := 1, handle := 3, order := w.order, first := 8, last := some 8, notify := some 5, barrier := none, go := false
              missed := false, bands := [], ran := none }] }) = true ∧
    gives (exec (.arm 1) (arm 7 1)) (postRefusal 1 0x28 2 5 3 7 6 (u (arm 7 1))) = true ∧
    admission ((u (arm 8 0)).onWork fun w => { w with entries := ledgerEntries (u (arm 8 0)) }) emptyPattern 1 false 8 none = none := by
  decide +kernel

theorem test_vote_mark :
    let b (v : Nat) := [(0, [2, 5, 0xFF, 0xFF]), (8, leBytes 5 v)]
    let s (v : Nat) := ((withDesc (b v)).onStu fun u => { u with ctrl := 4, stitch := 6 }).onTrain 1 fun t => { t with vote := 9 }
    let held := (s 8).onTrain 1 fun t => { t with voteStitch := some 20 }
    gives (exec (.voteMark 1) (s 8)) (((taken 1 [] (s 8)).onTrain 1 fun t => { t with voteStitch := some 8 }).onWork fun w => { w with
      voteNotifies := [{ ctx := 1, ringIndex := 5, stitch := 8 }] }) = true ∧
    gives (exec (.voteMark 1) held) (postRefusal 1 0x29 2 5 0xFFFF 9 20 (taken 1 [] held)) = true ∧
    gives (exec (.voteMark 1) (s 7)) (postRefusal 1 0x28 2 5 0xFFFF 7 6 (taken 1 [] (s 7))) = true := by decide +kernel

theorem test_disarm_unload_fence :
    let d := (withDesc [(0, [3, 3, 3])]).onWork fun w => { w with patterns := [emptyPattern] }
    let e := (withDesc [(0, [3, 6, 3])]).onWork fun w => { w with patterns := [emptyPattern] }
    let f := (withDesc [(0, [0x0C, 1, 3]), (8, [9])]).onBolt fun b => { b with regions := [(0, boltRegion1)] }
    let u (s : State) := taken 1 [] s
    let p : PendingDisarm := {
          ctx := 1, handle := 3, ringIndex := 5, notify := true, first := none, unload := false, none_ := false, read := 0, order := 0 }
    gives (exec (.disarm 1) d) ((u d).onWork fun w => { w with disarms := [p] }) = true ∧
    gives (exec (.unload 1) e) ((u e).onWork fun w => { w with disarms := [{ p with unload := true, notify := false }] }) = true ∧
    pinned f boltRegion1 = false ∧
    gives (exec (.fence 1) f) ((onRegion 0 (fun x => { x with state := .fenced, filling := false }) (u f)).onWork
          fun w => { w with fences := [{ ctx := 1, ringIndex := 5, notify := true }] }) = true := by decide +kernel

theorem test_pinned_region :
    let ext : Extent := { region := 9, band := 0, slab := 0, first := 0, count := 1 }
    let s (b : List (Nat × List Byte)) := ((withDesc b).onBolt fun b => { b with regions := [(0, boltRegion1)] }).onWork fun w => { w with
      patterns := [{ emptyPattern with extents := [ext] }], entries := [armedEntry] }
    let f := s [(0, [0x0C, 1, 3]), (8, [9])]
    let c := s [(0, [4, 1, 3]), (24, [1, 9])]
    pinned f boltRegion1 = true ∧
    gives (exec (.fence 1) f) (postRefusal 1 0x26 0x0C 5 3 0xFFFFFFFF 0 (taken 1 [] f)) = true ∧
    gives (exec (.copyIn 1) c) (postRefusal 1 0x26 4 5 3 0xFFFFFFFF 0 (taken 1 [] c)) = true := by decide +kernel

theorem test_pattern_loaded :
    let j : LoadJob := { ctx := 1, handle := 3, ringIndex := 5, addr := 0, size := 0, panelMap := [], bandBase := [] }
    let s := (withDesc []).onWork fun w => { w with loads := [j] }
    gives (exec (.patternLoaded 1 false) s) (postRefusal 1 1 1 5 3 0 0 (dropLoad j s)) = true ∧
    gives (exec (.patternLoaded 1 true) s) (postRefusal 1 1 1 5 3 8 0 (dropLoad j s)) = true := by decide +kernel

theorem test_disarm_effect :
    let p : PendingDisarm := {
          ctx := 1, handle := 3, ringIndex := 5, notify := true, first := none, unload := true, none_ := false, read := 0, order := 0 }
    let s := ((withDesc []).onWork fun w => { w with disarms := [p], patterns := [emptyPattern] }).onStu fun u => { u with marks := 1 }
    gives (exec .disarmEffect s) (postCompletion 1 3 0 0 5 3 0 [] (unloadPattern 1 3 (s.onWork fun w => { w with disarms := [] }))) =
      true := by decide +kernel

/-- The state with one transfer of context 1 opened by the front descriptor. -/
def opened (notify : Bool) (k : TransferKind) (s : State) : State := (taken 1 [] s).onWork fun w => { w with
  nextTransfer := w.nextTransfer + 1, transfers := [{ id := w.nextTransfer, ctx := 1, ringIndex := 5, notify := notify, kind := k }] }

theorem test_copies_open :
    let c := withDesc [(0, [4, 1]), (8, leBytes 8 0x80), (16, leBytes 8 64), (24, [0, 2]), (32, leBytes 8 128)]
    let o := withDesc [(0, [5, 1]), (8, leBytes 8 0x80), (16, leBytes 8 64), (24, [1, 2]), (32, leBytes 8 128)]
    gives (exec (.copyIn 1) c) (opened true (.copyIn 0x80 64 false 2 128) c) = true ∧
    gives (exec (.copyOut 1) o) (opened true (.copyOut 0x80 64 true 2 128) o) = true ∧
    gives (exec (.loadBundle 1 true) (withDesc [(0, [6, 0])])) (postCompletion 1 6 4 0 5 0 0 [] (taken 1 [] (withDesc [(0, [6, 0])]))) =
      true := by decide +kernel

theorem test_shards_open :
    let b := [(0, [7, 0]), (20, [7, 0xF])]
    let s := (withDesc b).onTrain 1 fun t => { t with image := some emptyImage }
    let r := (withDesc b).onTrain 1 fun t => { t with reslicing := true }
    let e := withDesc [(0, [8, 0])]
    let f := e.onTrain 1 fun t => { t with reslicing := true }
    gives (exec (.ckptShard 1) s) (opened true (.shard (readShard (layout 64 b) .jobState)) s) = true ∧
    gives (exec (.ckptShard 1) r) (postCompletion 1 7 3 0 5 0 0 [] (taken 1 [] r)) = true ∧
    gives (exec (.restoreShard 1) e) (postCompletion 1 8 3 0 5 0 0 [] (taken 1 [] e)) = true ∧
    gives (exec (.restoreShard 1) f) (opened true (.restore {
          presser := 0, entry := 0, firstBlock := 0, blocks := 0, skip := 0, src := 0, digest := List.replicate 32 0, target := none }) f) =
      true := by decide +kernel

/-- Context 1 with a READY region 2 of 128 lines and one running transfer. -/
def moving (k : TransferKind) : State :=
  ((withDesc []).onWork fun w => { w with transfers := [{ id := 4, ctx := 1, ringIndex := 5, notify := true, kind := k }] }).onHbm fun h =>
    { h with regions := [(regionKey 1 2, { mode := 2, target := 0, pcLines := 2, parity := false, base := 0, ready := true, blocked := false })] }

theorem test_copy_done :
    let i := (moving (.copyIn 0x80 3 false 2 125)).setHostMem [(0x81, 7)]
    let o := (moving (.copyOut 0x80 2 false 2 126)).onHbm fun h => { h with mem := [(127, 9)] }
    let gone (s : State) := s.onWork fun w => { w with transfers := [] }
    let done (k status : Nat) (s : State) := postCompletion 1 k status 0 5 0 0 [] s
    (∀ r, hbmRegion i 1 2 = some r → 125 + 3 ≤ 64 * regionLines i r ∧
      gives (exec (.copyDone 4 true) i) (done 4 0 (unverifyBytes 1 2 125 3 (writeRegion 1 r 125 [0, 7, 0] (gone i)))) = true ∧
      gives (exec (.copyDone 4 true) o) (done 5 0 ((gone o).setHostMem [(0x81, 9)])) = true) ∧
    (hbmRegion i 1 2).isSome = true ∧ regionUsable i 1 2 = true ∧
    gives (exec (.copyDone 4 false) i) (done 4 6 (gone i)) = true := by
  refine ⟨?_, by decide +kernel⟩
  intro r h
  have : r = { mode := 2, target := 0, pcLines := 2, parity := false, base := 0, ready := true, blocked := false } := by
    have e : hbmRegion (moving (.copyIn 0x80 3 false 2 125)) 1 2 =
      some { mode := 2, target := 0, pcLines := 2, parity := false, base := 0, ready := true, blocked := false } := by decide +kernel
    exact (Option.some.inj (e.symm.trans h)).symm
  subst this
  decide +kernel

/-- A shard of nothing. -/
def shard0 : Shard :=
  { presser := 0, mirror := false, entry := 0, firstBlock := 0, blocks := 0, kind := .masters, snap := 0xF, snapLine := 0, template := 0
    dest := 0, header := [], data := [], captured := none }

theorem test_shard_capture_and_drain :
    let a := moving (.shard shard0)
    let d := moving (.shard { shard0 with captured := some 7, header := [1], data := [2] })
    let gone (s : State) := s.onWork fun w => { w with transfers := [] }
    let done (k status : Nat) (s : State) := postCompletion 1 k status 0 5 0 0 [] s
    shardData a 1 shard0 = none ∧ gives (exec (.captureEnd 4) a) (done 7 2 (gone a)) = true ∧
    gives (exec (.shardDrained 4 false) d) (done 7 6 (gone d)) = true ∧
    gives (exec (.shardDrained 4 true) d) (postCompletion 1 7 0 0 5 0 7 (sha256 [1, 2])
      ((gone d).setPortS (Mem.write d.portS 0 ([1, 2] ++ sha256 [1, 2])))) = true := by decide +kernel

theorem test_shard_capture_with_data :
    let e : PrsEntry := { firstBlock := 0, blockCount := 1, kind := .adamw, wfmt := 0, decay := false, momBf16 := false, nesterov := false
                          whbm := true, hp := 0, mreg := 2, oreg := 2, wreg := 2, mline := 0, oline := 0, wband := 0, wcol := 0, wline := 0, cols := 0 }
    let s := (moving (.shard shard0)).onTrain 1 fun t => { t with image := some { emptyImage with own := [e] :: List.replicate 7 [] } }
    shardData s 1 shard0 = some [] ∧ shardEntry s 1 shard0 = some e := by decide +kernel

theorem test_restore_and_bundle_done :
    let r := moving (.restore { presser := 0, entry := 0, firstBlock := 0, blocks := 0, skip := 0, src := 0, digest := [], target := none })
    let x : Bundle := { src := 0, portH := true, keyId := 0, model := 9, slot := 63, regions := [] }
    let b := moving (.bundle x)
    let gone (s : State) := s.onWork fun w => { w with transfers := [] }
    let done (k status : Nat) (s : State) := postCompletion 1 k status 0 5 0 0 [] s
    gives (exec (.restoreDone 4 false) r) (done 8 6 (gone r)) = true ∧
    gives (exec (.bundleDone 4 false) b) (done 6 6 (gone b)) = true ∧
    gives (exec (.bundleDone 4 true) b) (done 6 0 ((gone b).onBolt fun y => { y with
          slots := vMod y.slots 63 fun _ => { valid := true, id := 9, regions := [], stamp := b.stu.stitch } })) = true := by decide +kernel

theorem test_begin_and_rebuild :
    let b0 := withDesc [(0, [9, 1])]
    let b1 := withDesc [(0, [9, 3]), (8, [0]), (9, leBytes 5 16), (14, [2, 0, 3, 0, 4, 0, 5, 0])]
    let r0 := withDesc [(0, [9, 1]), (8, [1])]
    let r1 := r0.onTrain 1 fun t => { t with reslicing := true }
    let u (s : State) := taken 1 [] s
    gives (exec (.begin 1) b0) (postRefusal 1 0x33 9 5 0 0 0 (u b0)) = true ∧
    gives (exec (.begin 1) b1) ((u b1).onTrain 1 fun t => { t with begin := some {
          applyAt := 16, newEpoch := 2, newRank := 3, newMembers := 4, newMirrorRank := 5, forced := true, notify := true, ringIndex := 5 } }) =
      true ∧
    gives (exec (.rebuild 1) r0) (postRefusal 1 0x20 9 5 0 0xFFFF 0 (u r0)) = true ∧
    gives (exec (.rebuild 1) r1) ((u r1).onTrain 1 fun t => { t with
          rebuildRead := true, rebuild := some { notify := true, ringIndex := 5, complete := false } }) = true := by decide +kernel

theorem test_begin_apply :
    let p : PendingBegin := {
      applyAt := 16, newEpoch := 2, newRank := 3, newMembers := 4, newMirrorRank := 5, forced := false, notify := true, ringIndex := 5 }
    let s := ((withDesc []).onTrain 1 fun t => { t with begin := some p }).onStu fun u => { u with stitch := 16 }
    beginDue s 1 p = true ∧ pressersOf s 1 = [] ∧ liningCtx s = none ∧
    gives (exec (.beginApply 1) s) (complete 1 9 true 5 0 (alterationDone 1 0 0 2
          (((s.onTrain 1 fun t => { t with
            oldEpoch := t.current, current := 2, reslicing := true, rebuildRead := false, rebuild := none, begin := none
            vote := putFld (putFld t.vote 63 48 5) 31 16 4 }).onColCtx 1 fun c =>
              { c with seq := Vector.replicate 6 0, largest := Vector.replicate 6 none }).onCtx 1 fun c =>
                { c with rank := putFld c.rank 15 0 3 }))) = true := by decide +kernel

theorem test_rebuild_done :
    let r : RebuildState := { notify := true, ringIndex := 5, complete := false }
    let s := (withDesc []).onTrain 1 fun t => { t with rebuild := some r }
    let w := (s.onPresser 7 fun p => { p with bind := 0x11, staging := [(3, 1)] })
    gives (exec (.rebuildDone 1) s) (postCompletion 1 9 0 0 5 0 0 []
          (s.onTrain 1 fun t => { t with rebuild := some { r with complete := true } })) = true ∧
    pressersOf w 1 = [7] ∧ gives (exec (.rebuildDone 1) w) w = true := by decide +kernel

/-- A signed bundle of one HBM region record, region 2's first line, made with the key of test 1 of RFC 8032, section 7.1. -/
def bundleImage : List Byte :=
  patch (layout 256 [(0, leBytes 4 0x44424C4D), (4, [1, 0, 1, 0, 9]), (24, [8]), (32, leBytes 8 0x61a254a1df31fe21)]) 64 (leBytes 64
    0x9b2784861de76d5223d4e039ef46be9dcfaa62beca8fff9d98be6b170557192a45bfe23aea9203cb08fbe0888c20dcffa67f6acdbefaac5f01c055831fa8568) ++
  layout 64 [(0, [2, 2]), (4, [1]), (8, [0, 2]), (16, [64]),
    (24, leBytes 32 0xdf518b2e1620169d4e07355d969c82940a63106546f576f7325b0fb0ace6b9c8)]

/-- Serving context 1 with that publisher's key, a LOAD_BUNDLE of host memory's first byte on and the bundle there. -/
def bundled : State := (((withDesc [(0, [6]), (16, [1])]).onCtx 1 fun c => { c with serving := true }).onThm fun t => { t with
  pubKeys := t.pubKeys.set 15 (some 0x1a5107f7681a02af2523a6daf372e10e3a0764c9d3fe4bd5b70ab18201985ad7) }).onHbm (fun h => { h with
    regions := [(regionKey 1 2, { mode := 2, target := 0, pcLines := 2, parity := false, base := 0, ready := true, blocked := false })] })
  |>.setHostMem (Mem.write [] 0 bundleImage)

set_option maxRecDepth 100000 in
theorem test_signed_bundle : edVerify (leBytes 32 0x1a5107f7681a02af2523a6daf372e10e3a0764c9d3fe4bd5b70ab18201985ad7)
    (patch (Mem.bytes bundled.hostMem 0 256) 64 (List.replicate 64 0) ++ Mem.bytes bundled.hostMem 256 64)
    (slice (Mem.bytes bundled.hostMem 0 256) 64 64) = true := by decide +kernel

theorem test_bundle_hypotheses :
    let head := Mem.bytes bundled.hostMem 0 256
    let rec1 := Mem.bytes bundled.hostMem 256 64
    leAt head 0 4 = 0x44424C4D ∧ leAt head 4 2 = 1 ∧ leAt head 6 2 = 1 ∧ leAt head 24 1 = bundled.nPanels ∧ bundleRecordOk rec1 = true ∧
    publisherKey bundled (BitVec.ofNat 64 (leAt head 32 8)) = some 0x1a5107f7681a02af2523a6daf372e10e3a0764c9d3fe4bd5b70ab18201985ad7 ∧
    modelHeld bundled (BitVec.ofNat 128 (leAt head 8 16)) = false ∧ bundleRegionFits bundled 1 (leAt rec1 2 2) (bundleRegion rec1) = true ∧
    (takeSlot bundled (bundleBolt bundled 1 [bundleRegion rec1])).map (·.1) = some 0 ∧
    gives (exec (.loadBundle 1 false) bundled) (postCompletion 1 6 6 0 5 0 0 [] (taken 1 [] bundled)) = true := by decide +kernel

theorem test_bolt_copies :
    let b := [(0, [4, 1]), (16, leBytes 8 32), (24, [1, 9])]
    let s := (withDesc b).onBolt fun x => { x with regions := [(0, boltRegion1)] }
    let m (k : TransferKind) := (moving k).onBolt fun x => { x with regions := [(0, { boltRegion1 with state := .loading })] }
    let gone (s : State) := s.onWork fun w => { w with transfers := [] }
    let done (s : State) := postCompletion 1 4 0 0 5 0 0 [] s
    let w := m (.copyIn 0 32 true 9 32)
    let odd := m (.copyIn 0 33 true 9 32)
    pinned s boltRegion1 = false ∧
    gives (exec (.copyIn 1) s) (opened true (.copyIn 0 32 true 9 0) (onRegion 0 (fun x => { x with state := .loading }) s)) = true ∧
    gives (exec (.copyDone 4 true) w) (done (loadBytes 0 32 (List.replicate 32 0) (gone w))) = true ∧
    gives (exec (.copyDone 4 true) odd) (done (violate 1 0x06 (gone odd))) = true ∧
    (match exec (.copyDone 4 true) w with
      | .next t => (boltRegion t 0).any fun x => x.loaded == [(1, 2)]
      | _ => false) = true := by decide +kernel

/-- A job state shard of the empty image in the file store, good but for the digest the descriptor gives. -/
def restoring (digest : List Byte) (x : List Byte) : State :=
  let b := layout 256 [(0, leBytes 4 0x48534C4D), (4, [1, 0, 0, 1, 7, 0, 0, 8]), (104, [64]), (128, [64])]
  let data := List.replicate 64 (0 : Byte)
  ((moving (.restore { presser := 0, entry := 0, firstBlock := 0, blocks := 0, skip := 0, src := 0, digest := digest, target := none })).onTrain 1
    fun t => { t with reslicing := true, image := some emptyImage }).setPortS (Mem.write [] 0 (b ++ data ++ x))

set_option maxRecDepth 100000 in
theorem test_restores :
    let b := layout 256 [(0, leBytes 4 0x48534C4D), (4, [1, 0, 0, 1, 7, 0, 0, 8]), (104, [64]), (128, [64])]
    let h := sha256 (b ++ List.replicate 64 0)
    let good := restoring h h
    let bad := restoring h []
    let gone (s : State) := s.onWork fun w => { w with transfers := [] }
    gives (exec (.restoreDone 4 true) good) (postCompletion 1 8 0 1 5 0 0 h (gone good)) = true ∧
    gives (exec (.restoreDone 4 true) bad) (postCompletion 1 8 9 0 5 0 0 h (poison 1 (gone bad))) = true := by decide +kernel

theorem test_bundle_spoilt :
    let r : BundleRegion := { bolt := false, index := 2, lines := 1, offset := 0, size := 64, digest := [] }
    let x : Bundle := { src := 0, portH := true, keyId := 0, model := 9, slot := 63, regions := [r] }
    let b := moving (.bundle x)
    digestGood b x r = false ∧ streamed b x true = [r] ∧
    (match exec (.bundleDone 4 true) b with
      | .next t => decide (t.work.transfers = []) && (t.bolt.slots.toList.all fun m => !m.valid)
      | _ => false) = true := by decide +kernel

/-- A capture that keeps its data, and one that snapshots it into region 2 when it drains. -/
theorem test_shard_snapshots :
    let e : PrsEntry := { firstBlock := 0, blockCount := 1, kind := .adamw, wfmt := 0, decay := false, momBf16 := false, nesterov := false
                          whbm := true, hp := 0, mreg := 2, oreg := 2, wreg := 2, mline := 0, oline := 0, wband := 0, wcol := 0, wline := 0, cols := 0 }
    let at_ (h : Shard) := (moving (.shard h)).onTrain 1 fun t => { t with image := some { emptyImage with own := [e] :: List.replicate 7 [] } }
    let captured (t : State) : Bool := t.work.transfers.any fun x => match x.kind with
      | .shard h => h.captured == some 0
      | _ => false
    (match exec (.captureEnd 4) (at_ shard0) with | .next t => captured t | _ => false) = true ∧
    (match exec (.captureEnd 4) (at_ { shard0 with snap := 2, blocks := 1 }) with | .next t => captured t | _ => false) = true ∧
    (match exec (.shardDrained 4 true) (at_ { shard0 with snap := 2, captured := some 7, data := [0] }) with
      | .next t => decide (t.work.transfers = []) | _ => false) = true := by decide +kernel

/-! ## The training step -/

/-- A vote of the job tag 0, for the vote stitch 8. -/
def voteMsg (count : BitVec 16) (skip fail : Bool) : VoteMsg :=
  { tag := 0, voteStitch := 8, members := 2, count := count, skip := skip, fail := fail }

/-- A training context 1 that votes in stitch 8, its device in a role. -/
def voting (r : Nat) (stitch : Stitch) : State :=
  (((member r).onCtx 1 fun c => { c with state := .active }).onTrain 1 fun t => { t with
    voteStitch := some 8, vote := 0x0000000700020000 }).onStu fun u => { u with stitch := stitch }

theorem test_vote_form :
    let s := (voting 1 8).onTrain 1 fun t => { t with poisoned := true }
    activeTraining s 1 = true ∧ before s.stu.stitch 8 = false ∧ pressersOf s 1 = [] ∧ observer s 1 = false ∧
    gives (exec (.voteForm 1) s) (castVote { tag := 0, voteStitch := 8, members := 2, count := 1, skip := false, fail := true }
      (s.onTrain 1 fun t => { t with votedStitch := some 8 })) = true := by decide +kernel

theorem test_child_vote :
    let s := (voting 1 8).onSea fun a => { a with tree := putFld a.tree 4 4 1 }
    voteCancelled s 0 8 = false ∧
    gives (exec (.vote 0 (voteMsg 1 true false)) s) (pushVote 0 (s.onPrs fun x => { x with votes := [
        { tag := 0, voteStitch := 8, own := none, children := [(0, voteMsg 1 true false)], sent := none }] })) = true := by decide +kernel

/-- The leader's aggregate of two votes. -/
def aggregated (skip fail : Bool) (count : BitVec 16) : VoteState :=
  { tag := 0, voteStitch := 8, own := some (voteMsg 1 false false), children := [(3, voteMsg (count - 1) skip fail)], sent := none }

theorem test_verdict_decision :
    let s (x : VoteState) := (voting 0 16).onPrs fun p => { p with votes := [x] }
    let decides (x : VoteState) (v : Verdict) : Bool := gives (exec (.verdictDecision 0) (s x))
      (dropVote 0 ((s x).drew.onTrain 1 fun t => { t with verdict := some v }))
    voters (s (aggregated false false 2)) 0 = [1] ∧ before 16 (8 + BitVec.ofNat 40 (leadHalf (s (aggregated false false 2)) 1)) = false ∧
    treeChildren (voting 0 16) (voting 0 16).stu.tree = [] ∧
    decides (aggregated false false 2) .commit = true ∧ decides (aggregated true false 2) .skip = true ∧
    decides (aggregated true true 2) .rollback = true ∧ decides (aggregated false false 1) .rollback = true := by decide +kernel

theorem test_verdict_message :
    let s := voting 3 12
    let m : VerdictMsg := { tag := 0, voteStitch := 8, verdict := .skip, step := 0 }
    gives (exec (.verdict 0 m) s) (dropVote 0 (s.onTrain 1 fun t => { t with verdict := some .skip })) = true := by decide +kernel

theorem test_verdict_missing :
    let s := voting 1 24
    commitDue s 1 = true ∧
    gives (exec (.verdictMissing 1) s) (declareFault (alignmentRec s 4 4 8) (s.onTrain 1 fun t => { t with voteStitch := none })) =
      true := by decide +kernel

theorem test_commit_stitch :
    let s (v : Verdict) := (voting 1 24).onTrain 1 fun t => { t with verdict := some v }
    let after (v : Verdict) : Option TrainCtx := match exec (.commitStitch 1) (s v) with
      | .next t => some (t.train 1)
      | _ => none
    liningCtx (s .commit) = none ∧ commitDue (s .commit) 1 = true ∧
    (after .commit).map (fun t => (t.step, t.updates, t.skips, t.lastCommit)) = some (1, 1, 0, 24) ∧
    (after .skip).map (fun t => (t.step, t.updates, t.skips, t.voteStitch)) = some (1, 0, 1, none) ∧
    (after .rollback).map (fun t => (t.step, t.updates, t.skips, t.verdict)) = some (0, 0, 0, none) := by decide +kernel

/-- A presser entry of one block. -/
def oneBlock : PrsEntry :=
  { firstBlock := 5, blockCount := 1, kind := .sgd, wfmt := 3, decay := false, momBf16 := false, nesterov := false, whbm := false, hp := 0
    mreg := 0, oreg := 0, wreg := 0, mline := 0, oline := 0, wband := 0, wcol := 0, wline := 0, cols := 0 }

/-- A presser image that holds one block for presser 7, with the held clip. -/
def heldImage : PrsImage :=
  { hyper := [{ lrScale := 0, b1 := 0, b2 := 0, eps := 0, lambda := 0, mu := 0, gradScale := 0, eps1 := 0, expCount := 1, sigmaInit := 0 }]
    segs := [], held := true, clipMax := 0, own := List.replicate 7 [] ++ [[oneBlock]], mirror := List.replicate 7 [] ++ [[oneBlock]] }

/-- A record of block 5: its kind, its step and a block of zeros. -/
def recordWith (kind step : Nat) : List Byte :=
  leBytes 4 5 ++ leBytes 2 kind ++ leBytes 2 step ++ gsBytes { exp := 0, flags := 0, sigs := List.replicate 64 0 } 0 0 1

/-- Presser 7 bound to context 1 with its image, and one record arrived in its inbox ring. -/
def pressing (b : List Byte) : State :=
  ((up.onCtx 1 fun c => { c with state := .active }).onTrain 1 fun t => { t with image := some heldImage }).onPresser 7 fun p => { p with
    bind := 0x90013, slotsNow := 1, ring := Mem.write [] 0 b, lineWrites := [(0, 1), (1, 1), (2, 1)] }

set_option maxRecDepth 100000 in
theorem test_inbox_record :
    let s := pressing (recordWith 1 0)
    let u := s.onPresser 7 fun p => { p with nextTake := 1 }
    let x := pressing (recordWith 1 1)
    presserLive s 7 = some 1 ∧ nextRecord (s.presser 7) = some (0, recordWith 1 0) ∧ slotsMissing s 7 1 false (recordWith 1 0) = false ∧
    checkRecord s 7 1 false (recordWith 1 0) = .apply ∧ checkRecord x 7 1 false (recordWith 1 1) = .stale ∧
    gives (exec (.inboxRecord 7) s) (forwardRecord 7 (recordWith 1 0) (markTaken 7 false 5 (acceptRecord 7 1 false (recordWith 1 0) u))) =
      true ∧
    gives (exec (.inboxRecord 7) x) ((x.onPresser 7 fun p => { p with nextTake := 1 }).onPresser 7 fun p => { p with stale := 1 }) =
      true := by decide +kernel

set_option maxRecDepth 100000 in
/-- The outcomes of Table 7-4 for an own record, each with a record that has it: a block out of every entry, a bad CRC, a COUNT of
none, a block taken twice, a non-finite block; and one that the slots of the stitch do not reach. -/
theorem test_record_outcomes :
    let block (flags count : Nat) := gsBytes { exp := 0, flags := flags, sigs := List.replicate 64 0 } flags 0 count
    let rec_ (n kind : Nat) (b : List Byte) : List Byte := leBytes 4 n ++ leBytes 2 kind ++ leBytes 2 0 ++ b
    let check (b : List Byte) := checkRecord (pressing b) 7 1 false b
    check (rec_ 6 1 (block 0 1)) = .noEntry ∧ check (rec_ 5 1 (leBytes 2 9 ++ (block 0 1).drop 2)) = .crc ∧
    check (rec_ 5 1 (block 0 0)) = .count ∧ check (rec_ 5 1 (block 1 1)) = .nonFinite ∧
    checkRecord ((pressing (recordWith 1 0)).onPresser 7 fun p => { p with taken := [5] }) 7 1 false (recordWith 1 0) = .duplicate ∧
    slotsMissing ((pressing (recordWith 1 0)).onPresser 7 fun p => { p with slotsNow := 0 }) 7 1 false (recordWith 1 0) = true := by
  decide +kernel

theorem test_norm_record :
    let b := leBytes 4 0 ++ [2, 0] ++ leBytes 2 0 ++ leBytes 4 0x3F800000 ++ List.replicate 132 0
    let s := (pressing b).onTrain 1 fun t => { t with image := none }
    let x := s.onTrain 1 fun t => { t with step := 1 }
    leAt b 4 1 = 2 ∧ nextRecord (s.presser 7) = some (0, b) ∧
    gives (exec (.normRecord 7) s) ((s.onPresser 7 fun p => { p with nextTake := 1, normTaken := true }).onTrain 1 fun t =>
            { t with shadowLagged := some 0x3F800000 }) = true ∧
    gives (exec (.normRecord 7) x) (x.onPresser 7 fun p => { p with nextTake := 1, stale := 1 }) = true := by decide +kernel

theorem test_norm_partial :
    let s := (pressing []).onPresser 7 fun p => { p with taken := [5], normNan := true }
    partialDue s 7 1 = true ∧
    gives (exec (.normPartial 7) s) (writeView 7 1 0 false 0 (slice (leBytes 4 0x7FC00000) 0 64)
        (s.onPresser 7 fun p => { p with normWritten := true })) = true := by decide +kernel

set_option maxRecDepth 100000 in
theorem test_mirror_record :
    let b := recordWith 1 0
    let s (m : List Byte) := (pressing []).onPresser 7 fun p => { p with mirrorIn := [m] }
    let n := (s b).onTrain 1 fun t => { t with image := some emptyImage }
    mirrorOn (s b) 7 = true ∧ checkRecord (s b) 7 1 true b = .apply ∧ checkRecord n 7 1 true b = .noEntry ∧
    gives (exec (.mirrorRecord 7) (s b)) (acceptRecord 7 1 true b (markTaken 7 true 5 ((s b).onPresser 7 fun p => { p with mirrorIn := [] }))) =
      true ∧
    gives (exec (.mirrorRecord 7) (s (recordWith 1 1))) ((s (recordWith 1 1)).onPresser 7 fun p => { p with mirrorIn := [], stale := 1 }) =
      true ∧
    gives (exec (.mirrorRecord 7) n) (markStale 7 (violate 1 0x0E (n.onPresser 7 fun p => { p with mirrorIn := [] }))) = true := by decide +kernel

/-- A refill packet: kind 3 for a block, 4 for the state, and its data. -/
def refillPacket (kind : Nat) (crc : Bool) (d : List Byte) : Packet :=
  let h := leBytes 4 5 ++ [BitVec.ofNat 8 kind, BitVec.ofNat 8 (d.length / 64)] ++ List.replicate 24 0
  { header := cellOf (h ++ leBytes 2 (if crc then (crc16 (h ++ d)).toNat else 0))
    data := (List.range (d.length / 32)).map fun i => cellOf (d.drop (32 * i)) }

set_option maxRecDepth 100000 in
theorem test_refill :
    let d := leBytes 8 9 ++ leBytes 4 8 ++ leBytes 4 0 ++ List.replicate 48 0
    let s (q : Packet) (r : Bool) := ((pressing []).onPrs fun p => { p with refillIn := [q] }).onLin fun l => { l with receiving := r }
    let bad := refillPacket 3 false d
    let good := refillPacket 3 true d
    let state := refillPacket 4 true d
    refillFirst (s bad false) 1 7 3 = some bad ∧ refillOk bad = false ∧ refillOk good = true ∧ refillOk state = true ∧
    gives (exec (.refillBlock 7) (s bad false)) (markStale 7 (dropRefill bad (s bad false))) = true ∧
    gives (exec (.refillBlock 7) (s good false)) ((dropRefill good (s good false)).onPresser 7 fun p => { p with stale := 1 }) = true ∧
    gives (exec (.refillState 7) (s (refillPacket 4 false d) false))
      (markStale 7 (dropRefill (refillPacket 4 false d) (s (refillPacket 4 false d) false))) = true ∧
    gives (exec (.refillState 7) (s state true)) ((dropRefill state (s state true)).onTrain 1 fun t => { t with
          step := 9, updates := 8, lagged := 0, clipf := openingClipf { t with lagged := 0 } }) = true := by decide +kernel

theorem test_presser_load :
    let s := up.onPrs fun p => { p with tblAddr := 0x1000 }
    let b := s.onPrs fun p => { p with loading := some (0, 0) }
    gives (exec (.prsTblLoad 0xF0) s) (s.onPrs fun p => { p with tblCtx := 15, loading := some (15, 0x1000) }) = true ∧
    gives (exec (.prsTblLoad 0xF0) b) (b.onPrs fun p => { p with tblCtx := 15, result := 5 }) = true := by decide +kernel

theorem test_presser_bind :
    let s := up.onPresser 7 fun p => { p with bind := 0x90010 }
    let l := s.onPrs fun p => { p with ctrl := 1 }
    gives (exec (.prsBind 7 0xFFFFFF00FFF90010) s) (s.onPresser 7 fun p => { p with bind := 0xFFFFFF00FFF90010 }) = true ∧
    fld (0xFFFFFF00FFF90010 : W64) 39 16 % 9 = 0 ∧
    gives (exec (.prsBind 7 0x10) s) (violate 0 0x02 s) = true ∧
    gives (exec (.prsBind 7 0x120010) l) (violate 0 0x02 l) = true := by decide +kernel

theorem test_presser_registers :
    let s := up.onPrs fun p => { p with ctrl := 1 }
    let v := up.onTrain 15 fun t => { t with voteStitch := some 0 }
    gives (exec (.prsReserveWrite 7 0x0000FFF0FFFFFFFF) up) (up.onPresser 7 fun p => { p with reserve := 0x0000FFF0FFFFFFFF }) = true ∧
    gives (exec (.prsReserveWrite 7 1) s) (violate 0 0x02 s) = true ∧
    gives (exec (.prsMirrorWrite 0xFFFFFFFF) up) (up.onPrs fun p => { p with mirror := 0xFFFFFFFF }) = true ∧
    gives (exec (.prsStepWrite 15 false 0xFFFFFFFFFFF) up) (up.onTrain 15 fun t => { t with step := 0xFFFFFFFFFFF }) = true ∧
    gives (exec (.prsStepWrite 15 true 0xFFFFFFFF00000001) up) (up.onTrain 15 fun t => { t with skips := 0xFFFFFFFF, updates := 1 }) = true ∧
    gives (exec (.prsStepWrite 15 false 1) v) (violate 0 0x02 v) = true := by decide +kernel

theorem test_presser_image :
    let img : List Byte := leBytes 4 0x52504C4D ++ [1, 0, 1, 1, 1] ++ List.replicate 55 0 ++ List.replicate 72 0 ++ [1] ++ List.replicate 15 0
    let s := (up.onCtx 1 fun c => { c with state := .active }).onPrs fun p => { p with loading := some (1, 0) }
    let g := s.setHostMem (Mem.write [] 0 img)
    gives (exec (.presserImageChecked false) s) (s.onPrs fun p => { p with loading := none, result := 1 }) = true ∧
    (checkImage g 1 (Mem.bytes g.hostMem 0 (imageSize (Mem.bytes g.hostMem 0 64))) true).1 = 0 ∧
    gives (exec (.presserImageChecked true) g) (installImage 1 (readImage img) (g.onPrs fun p => { p with loading := none, result := 0 })) =
      true ∧
    gives (exec .presserLedgerRebuild up) up = true ∧
    gives (exec .presserLedgerRebuild (up.onWork fun w => { w with ledgerDue := true }))
      (rebuildLedger (up.onWork fun w => { w with ledgerDue := true })) = true := by decide +kernel

/-- A vote joined to an aggregate that holds an own part, one of an observer, one already given, and an aggregate already sent. -/
theorem test_vote_again :
    let held : VoteState := { tag := 0, voteStitch := 8, own := some (voteMsg 1 true false), children := [], sent := none }
    let s := (voting 1 8).onPrs fun p => { p with votes := [held] }
    let o := (voting 1 8).onLin fun l => { l with state := .carrying, pairCfg := 0x111 }
    let d := (voting 1 8).onTrain 1 fun t => { t with votedStitch := some 8 }
    let c := (voting 1 8).onPrs fun p => { p with votes := [{ held with sent := some (aggregate held) }] }
    (voteOf s 0).isSome = true ∧ observer s 1 = false ∧
    gives (exec (.voteForm 1) s) (pushVote 0 ((s.onTrain 1 fun t => { t with votedStitch := some 8 }).onPrs fun p => { p with votes := [
      { held with own := some (combineVotes 8 [voteMsg 1 true false, voteMsg 1 false false] 0) }] })) = true ∧
    observer o 1 = true ∧ gives (exec (.voteForm 1) o) (o.onTrain 1 fun t => { t with votedStitch := some 8 }) = true ∧
    gives (exec (.voteForm 1) d) d = true ∧ same (pushVote 0 c) c = true := by decide +kernel

/-- The last vote of a child stands; a verdict reaches the context whose vote it is. -/
theorem test_child_votes_again :
    let old : VoteState := { tag := 0, voteStitch := 8, own := none, children := [(0, voteMsg 1 true true)], sent := none }
    let s := ((voting 1 8).onSea fun a => { a with tree := putFld a.tree 4 4 1 }).onPrs fun p => { p with votes := [old] }
    gives (exec (.vote 0 (voteMsg 1 false false)) s) (pushVote 0 (s.onPrs fun x => { x with votes := [
        { old with children := [(0, voteMsg 1 false false)] }] })) = true ∧
    training s 1 = true ∧ voteTag s 1 = 0 ∧
    ((holdVerdict { tag := 0, voteStitch := 8, verdict := .skip, step := 0 } s).train 1).verdict = some .skip := by decide +kernel

/-- A COMMIT whose staging copy is not whole rolls back; an image that waited comes into force. -/
theorem test_commit_staged :
    let s := ((voting 1 24).onTrain 1 fun t => { t with verdict := some .commit, staged := some emptyImage }).onPresser 7 fun p => { p with
      bind := 0x11, staging := [(3, 1)] }
    stagingWhole s 1 = false ∧ commitDue s 1 = true ∧
    (match exec (.commitStitch 1) s with
      | .next t => (t.train 1).step == 0 && (t.train 1).updates == 0 && decide ((t.train 1).image = some emptyImage) &&
          decide ((t.train 1).staged = none)
      | _ => false) = true := by decide +kernel

/-- In held mode a norm record gives the clip factor and releases the held records; a second one is flagged. -/
theorem test_norm_held :
    let b := leBytes 4 0 ++ [2, 0] ++ leBytes 2 0 ++ leBytes 4 0x3F800000 ++ List.replicate 132 0
    let s := pressing b
    let d := s.onPresser 7 fun p => { p with normTaken := true }
    gives (exec (.normRecord 7) s) (applyHeld 7 1 ((s.onPresser 7 fun p => { p with nextTake := 1, normTaken := true }).onTrain 1 fun t =>
            { t with shadowLagged := some 0x3F800000, clipf := clipFactor 0 0x3F800000 })) = true ∧
    gives (exec (.normRecord 7) d) (d.onPresser 7 fun p => { p with nextTake := 1, flags := 1 <<< 6 }) = true := by decide +kernel

set_option maxRecDepth 100000 in
/-- Mirror records: mirroring off, no slot left, a bad block, and those of a device that is being refilled. -/
theorem test_mirror_outcomes :
    let b := recordWith 1 0
    let s := (pressing []).onPresser 7 fun p => { p with mirrorIn := [b] }
    let off (u : State) : State := u.onPresser 7 fun p => { p with mirrorIn := [] }
    let none_ := s.onPresser 7 fun p => { p with bind := 0x90011 }
    let full := s.onPresser 7 fun p => { p with slotsNow := 0 }
    let twice := s.onPresser 7 fun p => { p with takenMirror := [5] }
    let r (pending : Bool) (done : List Nat) := (s.onLin fun l => { l with receiving := true, refillPending := pending }).onPresser 7 fun p =>
      { p with refilled := done }
    mirrorOn none_ 7 = false ∧ gives (exec (.mirrorRecord 7) none_) (off none_) = true ∧
    slotsMissing full 7 1 true b = true ∧ gives (exec (.mirrorRecord 7) full) full = true ∧
    checkRecord twice 7 1 true b = .duplicate ∧
    gives (exec (.mirrorRecord 7) twice) (markStale 7 (markTaken 7 true 5 (off twice))) = true ∧
    gives (exec (.mirrorRecord 7) (r true [])) (markTaken 7 true 5 (off (r true []))) = true ∧
    gives (exec (.mirrorRecord 7) (r false [])) (markStale 7 (markTaken 7 true 5 (off (r false [])))) = true ∧
    gives (exec (.mirrorRecord 7) (r false [5])) (acceptRecord 7 1 true b (markTaken 7 true 5 (off (r false [5])))) = true := by
  decide +kernel

set_option maxRecDepth 100000 in
/-- A refill block of an entry and of none, taken in step 0, and a state that a device which is not being refilled drops. -/
theorem test_refill_taken :
    let d := List.replicate 64 0
    let s (q : Packet) := ((pressing []).onPrs fun p => { p with refillIn := [q] }).onLin fun l => { l with receiving := true }
    let good := refillPacket 3 true d
    let no := (s good).onTrain 1 fun t => { t with image := some emptyImage }
    let state := refillPacket 4 true d
    let x := (s state).onLin fun l => { l with receiving := false }
    refillField good 6 2 = 0 ∧ observer x 1 = false ∧
    gives (exec (.refillBlock 7) (s good)) ((((dropRefill good (s good)).each (refillPieces oneBlock 5 0 (packetData good)) fun s x =>
      writeView 7 1 x.1 false x.2.1 x.2.2 s).onPresser 7 fun p => { p with refilled := [5] }).onLin fun l => { l with refilled := 1 }) = true ∧
    gives (exec (.refillBlock 7) no) (markStale 7 (violate 1 0x0E (dropRefill good no))) = true ∧
    gives (exec (.refillState 7) x) (dropRefill state x) = true := by decide +kernel

/-- A binding that changes, one kept, and the registers of a presser that a TVM-7028 does not present. -/
theorem test_presser_binding :
    let s := (up.onCtx 1 fun c => { c with state := .active }).onPresser 7 fun p => { p with bind := 0x90010 }
    let g := up.setStraps { grade7 := true }
    activeTraining s 1 = true ∧
    gives (exec (.prsBind 7 0x90011) s) (bindPresser 7 (s.onPresser 7 fun p => { p with bind := 0x90011 })) = true ∧
    activeTraining s 2 = false ∧ gives (exec (.prsBind 7 0x90021) s) (violate 0 0x02 s) = true ∧
    gives (exec (.prsBind 7 0x90010) g) g = true ∧ gives (exec (.prsBind 7 4) g) (violate 0 0x02 g) = true ∧
    gives (exec (.prsReserveWrite 7 0x100000000) g) (violate 0 0x02 g) = true ∧
    gives (exec (.prsMirrorWrite 1) (up.onPrs fun p => { p with ctrl := 1 })) (violate 0 0x02 (up.onPrs fun p => { p with ctrl := 1 })) =
      true ∧
    gives (exec (.prsStepWrite 15 true 0x100000000) (up.onTrain 15 fun t => { t with voteStitch := some 0 }))
      (violate 0 0x02 (up.onTrain 15 fun t => { t with voteStitch := some 0 })) = true := by decide +kernel

/-- An image whose context waits for a vote is staged. -/
theorem test_presser_image_staged :
    let img : List Byte := leBytes 4 0x52504C4D ++ [1, 0, 1, 1, 1] ++ List.replicate 55 0 ++ List.replicate 72 0 ++ [1] ++ List.replicate 15 0
    let s := (((up.onCtx 1 fun c => { c with state := .active }).onPrs fun p => { p with loading := some (1, 0) }).onTrain 1 fun t => { t with
      voteStitch := some 9 }).setHostMem (Mem.write [] 0 img)
    (match exec (.presserImageChecked true) s with
      | .next t => (t.train 1).staged.isSome && (t.train 1).image.isNone && t.prs.result == 0
      | _ => false) = true := by decide +kernel

/-! ## Seams and collectives -/

theorem test_frame_send :
    let s := (member 0).onPort 0 fun p => { p with frame := 1599 }
    ((match exec (.frameSend 0) s with
      | .next t => (t.port 0).frame
      | _ => 0) = 1600) ∧ 25 * s.stu.periodUnits.toNat / 16 = 1600 := by decide +kernel

theorem test_frame_send_hypotheses :
    let s := (member 0).onPort 0 fun p => { p with frame := 1599 }
    let x := frameCells (departs s 1599) (s.port 0) (List.range 256)
    x.2.1.sent = [] ∧ x.2.1.frame = 1599 ∧ x.2.2 = [] := by decide +kernel

/-- A frame of no cells. -/
def bare : Frame := { cells := [], trailer := 0, badFec := 0, corrected := 0, uncorrectable := 0, symbols := 0 }

set_option maxRecDepth 100000 in
theorem test_frames :
    let full := (member 0).onPort 0 fun p => { p with frame := 1600 }
    let far (k : Fin 8) := (member 0).onPort 0 fun p => { p with state := .loopback, farLoop := true, loop := k }
    let near := (member 0).onPort 0 fun p => { p with state := .loopback, loop := 1 }
    gives (exec (.frameSend 0) full) full = true ∧
    gives (exec (.frameReceive 0 bare) (member 0)) (takeVc0 0 ((member 0).onPort 0 (receiveFrame bare))) = true ∧
    gives (exec (.frameReceive 0 bare) (far 3)) ((far 3).emit (.frame 0 bare)) = true ∧
    gives (exec (.frameReceive 0 bare) (far 4)) ((far 4).onPort 0 fun p => turnCells (receiveFrame bare p)) = true ∧
    (match exec (.frameSend 0) near with
      | .next t => t.out == [] && (t.port 0).frame == 1
      | _ => false) = true ∧
    gives (exec (.frameSend 1) (member 0)) (member 0) = true ∧ gives (exec (.frameReceive 1 bare) (member 0)) (member 0) = true := by
  decide +kernel

/-- A header cell for one data cell on VC_1 of context 1, to port 2, taken from the mesh with a sequence offset. -/
def headerCell (vc kind : Nat) : CellData :=
  let b := leBytes 1 (vc + 8 * kind) ++ [2, 0, 1] ++ List.replicate 8 0 ++ leBytes 4 0xFFFFFFFF ++ List.replicate 14 0
  cellOf (b ++ leBytes 2 (crc16 b).toNat)

set_option maxRecDepth 100000 in
theorem test_packet_take :
    let h := headerCell 1 0
    let s (credit : W64) (aborted : Bool) := up.onCol fun c => { c with
      packets := [(17, [{ header := h, data := [5] }])], ctxs := c.ctxs.set 1 { c.ctxs[1] with credit := credit, aborted := aborted } }
    let u (credit : W64) (aborted : Bool) := takeOffset 1 1 0xFFFFFFFF ((s credit aborted).onCol fun c => { c with packets := [(17, [])] })
    (parseHeader h).vc = 1 ∧ (parseHeader h).length = 0 ∧ (parseHeader h).port = 2 ∧ (parseHeader h).seq = 0xFFFFFFFF ∧
    gives (exec (.packetTake 1 1) (s 0 false)) (poison 1 ((u 0 false).onColCtx 1 fun c => { c with noCredit := 1 })) = true ∧
    gives (exec (.packetTake 1 1) (s 1 true)) (u 1 true) = true ∧
    gives (exec (.packetTake 1 1) (s 1 false)) (((u 1 false).onColCtx 1 fun c =>
          let c := { c with lent := Tab.put c.lent 9 2 }
          { c with peak := peakAfter c }).onPort 2 fun p =>
            let t := portStream p 1 1
            putStream p { t with tx := t.tx ++ [withSeq h 0 0xFFFFFFFF, 5].map fun d => { data := d, hem := 1, credit := true } }) =
      true := by decide +kernel

set_option maxRecDepth 100000 in
theorem test_packet_receive :
    let h := headerCell 1 0
    let s (rx : List CellData) := (up.onCtx 1 fun c => { c with state := .active }).onPort 2 fun p =>
      { p with streams := [{ vc := 1, ctx := 1, rx := rx }] }
    let put (rx : List CellData) (late : Nat) (p : Port) := putStream p { vc := 1, ctx := 1, rx := rx, late := late }
    let turned (rx : List CellData) := (s rx).onPort 2 fun p => { p with state := .loopback, farLoop := true, loop := 5 }
    let soon := (s [h]).onStu fun u => { u with stitch := 0xFFFFFFFFFF }
    let back : List QueuedCell := [h, 5].map fun d => { data := d, hem := 0, credit := false }
    packetCells 1 h = 1 ∧ deadlinePassed (s [h]) 1 h = true ∧ deadlinePassed soon 1 h = false ∧
    gives (exec (.packetReceive 2 1 1) (s [h, 5, 6])) (deliverPacket 2 1 h [5] ((s [h, 5, 6]).onPort 2 (put [6] 0))) = true ∧
    gives (exec (.packetReceive 2 1 1) (s [h])) (s [h]) = true ∧ gives (exec (.deadlineExpiry 2 1 1) soon) soon = true ∧
    gives (exec (.deadlineExpiry 2 1 1) (s [h, 5])) (s [h, 5]) = true ∧
    gives (exec (.packetReceive 2 1 1) (turned [h, 5])) ((turned [h, 5]).onPort 2 fun p => putStream p { vc := 1, ctx := 1, tx := back }) =
      true ∧
    (let ended := deliverPacket 2 1 h [0] ((s [h]).onPort 2 fun p => { put [] 1 p with poisoned := 1 })
     gives (exec (.deadlineExpiry 2 1 1) (s [h])) (poison 1 ended) = true) := by decide +kernel

theorem test_sequence_numbers :
    seqLater 0x7FFFFFFF 0 = true ∧ seqLater 0x80000000 0 = false ∧ seqEarlier 0x80000000 0 = true ∧ seqEarlier 0 1 = true := by decide +kernel

theorem test_port_lost_and_failed :
    let s := member 0
    let rebuilt (u : State) : State := u.onSea fun a => { a with ledgerDirty := true }
    let trains (full : Bool) (u : State) : State := rebuilt (u.onPort 0 fun p => { clearLink p with
      state := if full then .trainFull else .retune, retunes := satAdd 16 p.retunes 1, delayFails := 0, held := false
      laneLock := 0, met := false, miswired := false, loop := 0 })
    let f := s.onPort 0 fun p => { p with lost := some .nak, state := .check }
    gives (exec (.portLost 0 .laneLock 0xFE) s) ((trains false (declareFault (seamRec s 0x19 2 0 .laneLock 0xFE 2)
        ((discardPort 0 s).onPort 0 fun p => { p with state := .retune }))).onPort 0 fun p =>
          { p with lost := some .laneLock, laneLock := 0xFE }) = true ∧
    jobsOnPort s 0 = [] ∧
    gives (exec (.portFailed 0) f) (declareFault (seamRec f 0x1A 1 0 .nak 0 7) (rebuilt (f.onPort 0 fun p => { p with state := .failed }))) =
      true ∧
    gives (exec (.fullEqRetry 0) (s.onPort 0 fun p => { p with state := .trainFull }))
      (trains true (s.onPort 0 fun p => { p with state := .trainFull })) = true := by decide +kernel

theorem test_training_done :
    let s := up.onPort 15 fun p => { p with state := .retune }
    let o : TrainingObs := { success := true, nbSerial := 9, nbAddr := 3, nbPort := 15, delayPs := 4, sigmaPs := 80, errorsOk := true }
    let rebuilt (u : State) : State := u.onSea fun a => { a with ledgerDirty := true }
    wiringOk s 15 o = true ∧
    gives (exec (.trainingDone 15 o) s) (rebuilt (s.onPort 15 fun p => { p with
          laneLock := 0xFF, nbSerial := 9, nbAddr := 3, nbPort := 15, met := true, miswired := false
          delayPs := 4, sigmaPs := 80, saved := true, savedSerial := 9, lost := none, held := false
          fresh := false, state := .active })) = true ∧
    gives (exec (.trainingDone 15 { o with success := false }) s) (rebuilt (s.onPort 15 fun p => { clearLink p with
      state := .trainFull, retunes := 1, delayFails := 0, held := false, laneLock := 0, met := false, miswired := false, loop := 0 })) = true := by
  decide +kernel

theorem test_ser_window_and_loopback :
    let s := (member 0).onPort 0 fun p => { p with cfg := 0x41 }
    let l := s.onPort 0 fun p => { p with state := .loopback, farLoop := true, saved := true }
    let rebuilt (u : State) : State := u.onSea fun a => { a with ledgerDirty := true }
    gives (exec (.serWindow 0 1 99999) s) (logGeneral 0x04 0 (leBytes 1 0) (s.onPort 0 fun p => { p with degraded := true })) = true ∧
    gives (exec (.serWindow 0 1 100000) s) s = true ∧
    gives (exec (.farLoopbackRequest 0 5) s) (rebuilt ((discardPort 0 s).onPort 0 fun p =>
        { p with state := .loopback, loop := 5, farLoop := true, vc0 := [] })) = true ∧
    gives (exec (.farLoopbackRequest 0 0) l) (rebuilt (l.onPort 0 fun p => { clearLink p with
      state := .retune, retunes := 1, delayFails := 0, held := false, laneLock := 0, met := false, miswired := false, loop := 0, farLoop := false
      lost := none })) = true ∧
    gives (exec .portLedgerRebuild up) up = true ∧
    gives (exec .portLedgerRebuild (up.onWork fun w => { w with ledgerDue := true }))
      (rebuildLedger (up.onWork fun w => { w with ledgerDue := true })) = true := by decide +kernel

theorem test_seam_registers :
    let l := up.onSea fun a => { a with ctrl := 0x501 }
    gives (exec (.retune 15 5) up) (up.onPort 15 fun p => { p with trainPending := some .retune }) = true ∧
    gives (exec (.fullEq 15 3) up) (up.onPort 15 fun p => { p with trainPending := some .fullEq }) = true ∧
    gives (exec (.loopbackSelect 15 (putFld 1 5 3 5)) up)
      (up.onPort 15 fun p => { p with cfg := putFld p.cfg 5 3 5, loopPending := some 5 }) = true ∧
    gives (exec (.portEn 15 0) up) (up.onPort 15 fun p => { p with cfg := 0 }) = true ∧
    gives (exec (.portEn 15 0) l) (violate 0 0x02 l) = true ∧
    gives (exec (.seaRtDataAccess (some 14)) up) (up.onSea fun a => { a with route := Tab.put a.route 0 14 }) = true ∧
    gives (exec (.seaRtDataAccess none) up) (up.emit (.readData 15)) = true := by decide +kernel

theorem test_collective_registers :
    let s := up.onColCtx 3 fun c => { c with credit := 1023 }
    let e := up.onWork fun w => { w with entries := [armedEntry] }
    let j := up.onColCtx 1 fun c => { c with lent := [(9, 40), (2, 2)] }
    gives (exec (.colCreditWrite 1 1) s) (s.onColCtx 1 fun c => { c with creditPending := some 1 }) = true ∧
    gives (exec (.colCreditWrite 1 2) s) (violate 0 0x02 s) = true ∧
    gives (exec (.colSeqWrite 1 5 0xFFFFFFFF) up) (up.onColCtx 1 fun c => { c with seq := c.seq.set 5 0xFFFFFFFF }) = true ∧
    gives (exec (.colSeqWrite 1 5 1) e) (violate 0 0x02 e) = true ∧
    gives (exec (.peakClr 1 0) j) (j.onColCtx 1 fun c => { c with peak := BitVec.ofNat 16 (lentBoth c) }) = true ∧
    lentBoth (j.colCtx 1) = 42 ∧
    gives (exec (.abortSend (0x80000000#64 ||| (9#16).setWidth 64)) up) (originateAbort 9 0x04 up) = true := by decide +kernel

theorem test_abort :
    let m : AbortMsg := { groupId := 0, tag := 9, attempt := 3, origin := 0x7FFF, originStitch := 5, cause := 2 }
    let s := (member 0).onCol fun c => { c with ctrl := 0 }
    let k := s.onCol fun c => { c with keys := [{ job := 9, attempt := 3, entered := 0 }] }
    gives (exec (.abort 0 m) k) k = true ∧ gives (exec (.abort 0 { m with groupId := 1 }) s) s = true ∧
    gives (exec (.abort 1 m) s) s = true ∧ abortEn s = false ∧
    gives (exec (.abort 0 m) s) (s.onCol fun c => { c with
          keys := c.keys ++ [{ job := m.tag, attempt := m.attempt, entered := s.ns }]
          log0 := BitVec.ofNat 64 (m.cause.toNat * 2 ^ 56 + m.attempt.toNat * 2 ^ 40 + m.originStitch.toNat)
          log1 := BitVec.ofNat 64
            (m.tag.toNat * 2 ^ 48 + m.origin.toNat % 2 ^ 15 * 2 ^ 32 + satAdd 32 (fld c.log1 31 0) 1) }) = true := by decide +kernel

theorem test_abort_ends :
    let key (e : Nat) : AbortKey := { job := 9, attempt := 3, entered := e }
    let s := (up.setNs 32000).onCol fun c => { c with keys := [key 0, key 1] }
    let a (ns : Nat) := ((up.setNs ns).onColCtx 2 fun c => { c with aborted := true, abortPs := 7 }).onCtx 2 fun c => { c with serving := true }
    gives (exec .abortKeyExpiry s) (s.onCol fun c => { c with keys := [key 1] }) = true ∧
    gives (exec (.abortedEnd 2) (a 32007)) ((a 32007).onColCtx 2 fun c => { c with aborted := false }) = true ∧
    gives (exec (.abortedEnd 2) (a 32006)) (a 32006) = true := by decide +kernel

/-- A port that trained with another device retrains in full; a neighbour of the wrong role is held in CHECK; an uncertain delay is
measured again, three times; too many errors retrain; a lining port that fails leaves MIRRORED. -/
theorem test_training_outcomes :
    let s := up.onPort 15 fun p => { p with state := .check }
    let o : TrainingObs := { success := true, nbSerial := 9, nbAddr := 3, nbPort := 15, delayPs := 4, sigmaPs := 80, errorsOk := true }
    let x (wired : Bool) (u : State) := u.onPort 15 fun p => { p with
      laneLock := 0xFF, nbSerial := 9, nbAddr := 3, nbPort := 15, met := true, miswired := !wired, state := .check }
    let stranger := up.onPort 15 fun p => { p with state := .retune, saved := true, savedSerial := 8 }
    let l := (up.onPort 15 fun p => { p with state := .retune, lost := some .laneLock, laneLock := 1 }).onLin fun l => { l with state := .mirrored }
    let trains (u : State) : State := (u.onPort 15 fun p => { clearLink p with
      state := .trainFull, retunes := 1, delayFails := 0, held := false, laneLock := 0, met := false, miswired := false, loop := 0 }).onSea
        fun a => { a with ledgerDirty := true }
    gives (exec (.trainingDone 15 o) stranger) (trains stranger) = true ∧
    wiringOk s 15 { o with nbPort := 0 } = false ∧
    (match exec (.trainingDone 15 { o with nbPort := 0 }) s with
      | .next t => decide ((t.port 15).state = .check) && (t.port 15).miswired && (t.port 15).held
      | _ => false) = true ∧
    gives (exec (.trainingDone 15 { o with sigmaPs := 81 }) s) ((x true s).onPort 15 fun p => { p with delayFails := 1 }) = true ∧
    gives (exec (.trainingDone 15 { o with errorsOk := false }) s) (trains (x true s)) = true ∧
    (match exec (.portFailed 15) l with
      | .next t => decide ((t.port 15).state = .failed) && decide (t.lin.state = .pairing)
      | _ => false) = true ∧
    gives (exec (.portLost 0 .nak 0) (member 0)) (member 0) = true ∧
    gives (exec (.farLoopbackRequest 0 5) up) up = true := by decide +kernel

/-- A write of EN and LOOP over a lock, SEA_RT_DATA over a lock and with INC, and SEND with a reserved bit set. -/
theorem test_seam_locks :
    let l := up.onSea fun a => { a with ctrl := 0x501 }
    let i := up.onSea fun a => { a with rtSel := 0x8005 }
    let t := up.onTst fun t => { t with busy := true, test := 0x0401, target := 15 }
    gives (exec (.portEn 15 0x40) l) (violate 0 0x02 l) = true ∧
    gives (exec (.seaRtDataAccess (some 14)) l) (violate 0 0x02 l) = true ∧
    gives (exec (.seaRtDataAccess (some 0x1F)) i) ((violate 0 0x02 i).onSea fun a => { a with rtSel := 0x8006 }) = true ∧
    gives (exec (.loopbackSelect 15 (putFld 1 5 3 2)) t) ((t.onPort 15 fun p => { p with
      cfg := putFld p.cfg 5 3 2, loopPending := some 2 }).onTst fun t => { t with stopping := true }) = true ∧
    gives (exec (.abortSend 0x10000) up) (violate 0 0x02 up) = true := by decide +kernel

/-- An ABORT that ABORT_EN lets act, new and remembered, on the context of its job. -/
theorem test_abort_acts :
    let m : AbortMsg := { groupId := 0, tag := 9, attempt := 3, origin := 0x7FFF, originStitch := 5, cause := 2 }
    let s := (((member 0).onCtx 1 fun c => { c with state := .active }).onColCtx 1 fun c => { c with job := 9 }).onTrain 1 fun c =>
      { c with lastCommit := 3 }
    let k := s.onCol fun c => { c with keys := [{ job := 9, attempt := 3, entered := 0 }] }
    abortEn s = true ∧ abortActs s m false = [1] ∧
    gives (exec (.abort 0 m) k) (actOnAbort 1 m true k) = true ∧
    (match exec (.abort 0 m) s with
      | .next t => (t.colCtx 1).aborted && t.col.keys == [{ job := 9, attempt := 3, entered := 0 }]
      | _ => false) = true := by decide +kernel

/-! ## Serving -/

/-- A serving context 2 of a device whose other contexts serve nothing. -/
def serving (c : SrvCtx → SrvCtx) : State :=
  ((up.onCtx 2 fun c => { c with state := .active, serving := true }).onSrvCtx 2 fun x => { x with serving := true }).onSrvCtx 2 c

/-- An entry of a work list. -/
def listed : ListEntry :=
  { index := 0, slot := 7, kind := .decode, last := false, count := 1, position := 9, newSwatch := none, swatches := 1, window := 0
    globalMask := 0, gBase := 0, promptLine := 0 }

/-- A sequence that asks for a slot. -/
def asking : SeqSlot := { tag := 6, ctx := 2, promptLen := 4, maxLen := 4 }

theorem test_serving_passes :
    let s := serving fun c => { c with current := [listed] }
    let a := serving fun c => { c with admits := [{ slot := asking, resume := false, notify := none, taken := 1 }] }
    let short := (serving fun c => { c with cfg := 0x8000000200030000 }).onStu fun u => { u with periodUnits := 50 }
    servedContexts s = [2] ∧
    gives (exec .resultRead s) (s.onSrvCtx 2 fun c => { c with results := some [readResult s c 0], listBefore := [listed], current := [] }) = true ∧
    gives (exec .listBuild short) short = true ∧
    gives (exec .servingApply a) ((a.onSlot 0 fun _ => { asking with admitted := 0, state := .prefill }).onSrvCtx 2 fun c =>
            { c with admits := [] }) = true := by decide +kernel

theorem test_list :
    let s := serving fun c => { c with cfg := 0x8000000200030000 }
    let w := serving fun c => { c with next := [listed], list := 0x02000001_00010100 }
    gives (exec .listBuild s) (s.onSrvCtx 2 fun c => { c with
        next := [maskedEntry 0, maskedEntry 1, maskedEntry 2, maskedEntry 3, maskedEntry 4], victims := [], trims := [] }) = true ∧
    gives (exec .listWrite w) ((w.onCore (listPlace (w.srvCtx 2) 0).1 fun x => { x with
        scratch := Mem.write x.scratch (64 + 32 * (listPlace (w.srvCtx 2) 0).2) (listEntryBytes listed) }).onSrvCtx 2
          fun c => { c with current := [listed], next := [] }) = true := by decide +kernel

/-- The serving context 2 with a descriptor at the front of its ring. -/
def servingDesc (b : List (Nat × List Byte)) (c : SrvCtx → SrvCtx) : State := (serving c).onRing 2 fun r => { r with
  taken := [{ index := 5, bytes := layout 64 b }] }

/-- A SEQ_ADMIT waits at the head while EN is clear, and a malformed one with EN set is rejected with its record. -/
theorem test_seq_admit :
    let b := [(0, [0x0A, 1]), (8, leBytes 8 6), (16, leBytes 4 4), (24, leBytes 4 64)]
    let no := servingDesc b id
    let bad := servingDesc [(0, [0x0A, 0]), (8, leBytes 8 6)] fun c => { c with cfg := 1 <<< 63, tqBase := 0x3000 }
    let t : SeqSlot := { tag := 6, ctx := 2, promptLen := 4, maxLen := 64 }
    admitSlot 2 (layout 64 b) = t ∧ waits no 2 (layout 64 b) = false ∧ admitTakes no 2 (layout 64 b) = false ∧
    gives (exec (.seqAdmit 2) no) no = true ∧ headWaits bad 2 (layout 64 [(0, [0x0A, 0]), (8, leBytes 8 6)]) = false ∧
    gives (exec (.seqAdmit 2) bad) (tokenRecord 2 6 0 0 6 0xFFFF 0 0 (taken 2 [] bad)) = true := by decide +kernel

theorem test_seq_admit_ready :
    let b := [(0, [0x0A, 1]), (8, leBytes 8 6), (16, leBytes 4 4), (24, leBytes 4 64)]
    let s := (servingDesc b fun c => { c with cfg := 0x8000000000000001, pool := 0x0001_0001_0010 }).onHbm fun h => { h with regions :=
      [(regionKey 2 0, { mode := 0, target := 0, pcLines := 4096, parity := false, base := 0, ready := true, blocked := false })] }
    let t : SeqSlot := { tag := 6, ctx := 2, promptLen := 4, maxLen := 64 }
    admitRejected s 2 t = false ∧ headWaits s 2 (layout 64 b) = false ∧
    gives (exec (.seqAdmit 2) s) ((taken 2 [] s).onSrvCtx 2 fun c => { c with
      admits := [{ slot := t, resume := false, notify := some 5, taken := 0 }] }) = true ∧
    (let w := s.onSrvCtx 2 fun c => { c with cfg := 0x8000000000000000 }
     admitRejected w 2 t = false ∧ gives (exec (.seqAdmit 2) w) w = true) := by decide +kernel

theorem test_seq_release_and_cancel :
    let s := servingDesc [(0, [0x0B, 1]), (8, leBytes 8 6)] id
    gives (exec (.seqRelease 2) s) ((taken 2 [] s).onSrvCtx 2 fun c => { c with
      releases := [{ tag := 6, notify := some 5, read := 0 }] }) = true ∧
    gives (exec (.seqCancel 15 9) up) (up.onSrvCtx 15 fun c => { c with releases := [{ tag := 9, notify := none, read := 0 }] }) = true := by
  decide +kernel

/-- The serving context 2 with one sequence in slot 4095. -/
def slotted (t : SeqSlot) : State := ((serving id).onSrv fun v => { v with slots := [(4095, t)] }).onStu fun u => { u with stitch := 9 }

theorem test_slots :
    let t : SeqSlot := { tag := 6, ctx := 2, timeout := 9, state := .decode }
    let p : SeqSlot := { tag := 6, ctx := 2, timeout := 9, state := .parking }
    let r (since : Stitch) : SeqSlot := { tag := 6, ctx := 2, state := .retiring, since := since }
    timeoutDue (slotted t) t = true ∧
    gives (exec (.seqTimeout 4095) (slotted t)) (tokenRecord 2 6 0 0 4 4095 9 0
          ((slotted t).onSlot 4095 fun t => { t with state := .retiring, since := 9 })) = true ∧
    gives (exec (.seqTimeout 4095) (slotted p)) ((slotted p).onSlot 4095 fun t => { t with cause := some 4 }) = true ∧
    gives (exec (.slotFree 4095) (slotted (r 8))) (((slotted (r 8)).onSrvCtx 2 fun c => { c with owner := [] }).onSrv fun v =>
          { v with slots := [] }) = true ∧
    gives (exec (.slotFree 4095) (slotted (r 9))) (slotted (r 9)) = true := by decide +kernel

theorem test_swaps :
    let p : SeqSlot := { tag := 6, ctx := 2, state := .parking, swapAddr := 0x100, length := 3 }
    let q : SeqSlot := { tag := 6, ctx := 2, state := .resuming, swapAddr := 0x100 }
    let s := (slotted q).setHostMem (Mem.write [] 0x100 (swapHeader { p with swatches := 1 } 0))
    gives (exec (.swapOutDone 4095) (slotted p)) (tokenRecord 2 6 3 0 3 4095 9 0
          (freeSlot 4095 ((slotted p).setHostMem (Mem.write [] 0x100 (swapHeader p 0))))) = true ∧
    gives (exec (.swapInDone 4095) s) (s.onSlot 4095 fun t => { t with state := .prefill, length := 3, keepLow := 0, swatches := 1 }) =
      true := by decide +kernel

theorem test_admission_backlog :
    let s := serving fun c => { c with waited := 1 }
    gives (exec (.admissionBacklog 2) s) ((post 2 0x06 [(16, leBytes 4 1),
        (20, leBytes 2 (slotsHeld s 2)), (22, leBytes 2 0)] s).onSrvCtx 2 fun c => { c with lastBacklog := some 0 }) = true ∧
    gives (exec (.admissionBacklog 2) (serving id)) (serving id) = true := by decide +kernel

theorem test_serving_registers :
    let s := ((serving fun c => { c with list := 0x0001_0100 }).onSrvCtx 2 fun c => { c with pool := 2, serving := false }).onBand 0
      fun b => { b with owner := 2 }
    let g := s.onHbm fun h => { h with regions :=
      [(regionKey 2 2, { mode := 1, target := 0, pcLines := 2, parity := false, base := 0, ready := true, blocked := false })] }
    let on := up.onSrvCtx 2 fun c => { c with cfg := 0x8000000000010001 }
    srvErr g 2 0x10001 = 0 ∧ srvErr s 2 0x10001 = 3 ∧
    gives (exec (.srvEnable 2 0x8000000000010001) g) (g.onSrvCtx 2 fun x => { x with
      cfg := 0x8000000000010001, serving := true, disabling := false }) = true ∧
    gives (exec (.srvEnable 2 0x8000000000010001) s) (s.onSrvCtx 2 fun x => { x with cfg := putFld 0x10001 62 60 3 }) = true ∧
    gives (exec (.srvEnable 2 0x8000000000010000) on) (violate 0 0x02 on) = true ∧
    gives (exec (.srvRtWrite 2 false 0x8000000000010000) on) (violate 0 0x02 on) = true ∧
    gives (exec (.srvDisable 2 0x10001) on) (on.onSrvCtx 2 fun x => { x with cfg := 0x10001, disabling := true }) = true ∧
    gives (exec (.srvRtWrite 15 true 0xFFFFFFFF) up) (up.onSrvCtx 15 fun c => { c with rt := 0xFFFFFFFF }) = true := by decide +kernel


/-- At cycle 64 a victim parks, a slot retired in an earlier stitch is freed, a release of an earlier stitch ends its slot, and what was
read in this stitch waits; a list written while the period is too short is not in force. -/
theorem test_serving_apply :
    let slots (a b c : SeqSlot) : State := ((serving fun c => { c with
        victims := [7], releases := [{ tag := 3, notify := none, read := 8 }, { tag := 4, notify := none, read := 9 }] }).onSrv fun v =>
          { v with slots := [(7, a), (8, b), (9, c)] }).onStu fun u => { u with stitch := 9 }
    let a : SeqSlot := { tag := 1, ctx := 2, state := .decode }
    let b : SeqSlot := { tag := 2, ctx := 2, state := .retiring, since := 8 }
    let c : SeqSlot := { tag := 3, ctx := 2, state := .decode }
    let w := (serving fun c => { c with next := [maskedEntry 0], list := 0x02000001_00010100 }).onStu fun u => { u with periodUnits := 50 }
    (match exec .servingApply (slots a b c) with
      | .next t => decide ((t.slot 7).state = .parking) && decide ((t.slot 8).state = .free) && decide ((t.slot 9).state = .retiring) &&
          (t.srvCtx 2).releases == [{ tag := 4, notify := none, read := 9 }]
      | _ => false) = true ∧
    (match exec .listWrite w with
      | .next t => decide ((t.srvCtx 2).current = []) && decide ((t.srvCtx 2).next = [])
      | _ => false) = true := by decide +kernel

/-- A swap whose slot was ended meanwhile frees the slot with the record it owes; a resume without swatches to hold it waits. -/
theorem test_swaps_ended :
    let p : SeqSlot := { tag := 6, ctx := 2, state := .parking, swapAddr := 0x100, length := 3, cause := some 4 }
    let q (c : Option Nat) : SeqSlot := { tag := 6, ctx := 2, state := .resuming, swapAddr := 0x100, cause := c }
    let s := (slotted (q (some 1))).setHostMem (Mem.write [] 0x100 (swapHeader { p with swatches := 0 } 0))
    let w := (slotted (q none)).setHostMem (Mem.write [] 0x100 (swapHeader { p with swatches := 4095 } 4095))
    gives (exec (.swapOutDone 4095) (slotted p)) (tokenRecord 2 6 0 0 4 4095 9 0
          (freeSlot 4095 ((slotted p).setHostMem (Mem.write [] 0x100 (swapHeader p 0))))) = true ∧
    gives (exec (.swapInDone 4095) s) (tokenRecord 2 6 0 0 1 4095 9 0 (freeSlot 4095 s)) = true ∧
    freeSwatches (w.srvCtx 2) < 4095 ∧ gives (exec (.swapInDone 4095) w) w = true := by decide +kernel

/-- A timeout that is not due changes nothing, and one of a slot that retires only applies the results; a backlog event within 1,024
stitches of the last waits. -/
theorem test_timeouts_and_backlog :
    let t (d : Nat) : SeqSlot := { tag := 6, ctx := 2, timeout := d, state := .decode }
    let r : SeqSlot := { tag := 6, ctx := 2, timeout := 9, state := .retiring }
    let b (l : Stitch) := (serving fun c => { c with waited := 1, lastBacklog := some l }).onStu fun u => { u with stitch := 1024 }
    gives (exec (.seqTimeout 4095) (slotted (t 10))) (slotted (t 10)) = true ∧
    gives (exec (.seqTimeout 4095) (slotted r)) (applyResults 2 (slotted r)) = true ∧
    gives (exec (.admissionBacklog 2) (b 1)) (b 1) = true ∧
    gives (exec (.admissionBacklog 2) (b 0)) ((post 2 0x06 [(16, leBytes 4 1), (20, leBytes 2 0), (22, leBytes 2 0)] (b 0)).onSrvCtx 2
      fun c => { c with lastBacklog := some 1024 }) = true := by decide +kernel
/-! ## Lining, contexts and rings -/

theorem test_pairing :
    let s := up.onLin fun l => { l with state := .pairing, pairCfg := 0x11 }
    let o : PairingObs := { partnerSerial := 0, partnerFabric := 0, partnerFw := 0, partnerGrade := 8, partnerKey := 5, challengeOk := true
                            partnerReady := true, partnerOwnCounts := false }
    gives (exec (.pairing 31) up) (setLining .pairing (up.onLin fun l => { l with pairCfg := 31, lastEpoch := (up.train 15).current })) =
      true ∧
    gives (exec (.liningDisable 1) s) (setLining .solo (s.onLin fun l => { l with pairCfg := 1 })) = true ∧
    gives (exec (.pairingResult o) s) (setLining .solo (s.onLin fun l => { l with reason := 6 })) = true := by decide +kernel

theorem test_pairing_succeeds :
    let p : State → Nat → State := fun s m => s.onPort m fun p => { p with state := .active }
    let s := ((p (p (p (p up 12) 13) 14) 15).onLin fun l => { l with state := .pairing, pairCfg := 0x11 }).onCtx 1 fun c => { c with
      state := .active }
    let o : PairingObs := { partnerSerial := 0, partnerFabric := 0, partnerFw := fwId up, partnerGrade := 8, partnerKey := 5
                            challengeOk := true, partnerReady := true, partnerOwnCounts := false }
    pairingReason s o = 0 ∧ ownEntries s 1 = 0 ∧
    gives (exec (.pairingResult o) s) (setLining .mirrored (((recordPartner o s).onSea fun a => { a with thimbleIn := [] }).onLin
          fun l => { l with valid := true })) = true := by decide +kernel

theorem test_malformed_certificate :
    leAt (Mem.bytes up.hostMem (fld up.lin.certAddr 63 9 * 512) 512) 6 1 = 0 ∧
    gives (exec (.certSubmit (.register 0)) up) (up.onLin fun l => { l with certResult := 2 }) = true := by decide +kernel

theorem test_certificate_of_the_bmc :
    exec (.certSubmit (.bmc [])) up = .next (up.emit (.mctp .i3c (Config.encodeResponse 0x3F02 [[2]]))) := by rfl

theorem test_certificate_actions :
    let a (x : CertAction) := up.onLin fun l => { l with accepted := some (x, Config.serial) }
    let fences (on : Bool) (u : State) : State :=
        (u.onSea fun a => { a with ports := a.ports.map fun p => { p with fencePending := some on } }).onLin fun l =>
          { l with fencePending := some on }
    hostedJobs (a .isolate) = [] ∧
    gives (exec .release (a .release)) (fences false up) = true ∧
    gives (exec .leave (a .leave)) ((up.onLin fun l => { l with
        threshold := 0, fabricId := 0, keysValid := 0, mgrKeys := Vector.replicate 28 0, keyWords := 0, partnerSerial := 0
        partnerKey := 0, partnerKnown := false, lastEpoch := 0 }).onThm fun t => { t with flashBusy := true }) = true := by decide +kernel

theorem test_isolate :
    (up.onLin fun l => { l with accepted := some (.isolate, Config.serial) }).lin.accepted = some (.isolate, Config.serial) ∧
    gives (.next (fenceSeams true up)) ((up.onSea fun a => { a with ports := a.ports.map fun p => { p with
      fencePending := some true } }).onLin fun l => { l with fencePending := some true }) = true := ⟨rfl, by decide +kernel⟩

theorem test_create :
    let s := up.onCtx 15 fun c => { c with state := .faulted, serving := true }
    gives (exec (.create 0 0) up) (violate 0 0x02 up) = true ∧
    gives (exec (.create 15 0x10) up) ((resetContext 15 (up.onCtx 15 fun c => { c with serving := true, result := 0 })).onCtx 15 fun c =>
      { c with state := .active, result := 0 }) = true ∧
    gives (exec (.create 15 0x10) s) (s.onCtx 15 fun c => { c with result := 1 }) = true ∧
    gives (exec (.teardown 15 0x10) s) (s.onCtx 15 fun c => { c with result := 0, teardownPending := true }) = true := by decide +kernel

theorem test_ctx_switch :
    let s := (up.onCtx 3 fun c => { c with state := .active }).onHif fun h => { h with swHi := 0x8000000000000000 }
    let w : Switch := { from_ := 0, to_ := 3, bands := [127], started := false, due := false }
    switchRefusal s 0 3 [127] = 0 ∧ maskBands s.hif.swLo s.hif.swHi = [127] ∧
    gives (exec (.ctxSwitch 0x30) s) (s.onHif fun h => { h with sw := 0x30, swResult := 0, switch := some w }) = true ∧
    gives (exec (.ctxSwitch 0) s) (s.onHif fun h => { h with sw := 0, swResult := 3 }) = true := by decide +kernel

theorem test_switch :
    let s (w : Switch) := (up.onCtx 3 fun c => { c with state := .active }).onHif fun h => { h with switch := some w }
    let w : Switch := { from_ := 0, to_ := 3, bands := [127], started := false, due := true }
    coveringRegions (s w) 3 [127] = [] ∧
    gives (exec .switchBegin (s w)) ((quiesceBand (s w) 127).onHif fun h => { h with switch := some { w with started := true, due := false } }) =
      true := by decide +kernel

theorem test_switch_done :
    let w : Switch := { from_ := 0, to_ := 3, bands := [127], started := true, due := true }
    let s := (up.onCtx 3 fun c => { c with state := .active }).onHif fun h => { h with switch := some w }
    gives (exec .switchDone s) (blockCompletion 3 0xF0 (blockCompletion 0 0xF0
      ((s.onBand 127 fun b => { b with owner := 3, state := .on }).onHif fun h => { h with switch := none }))) = true := by decide +kernel

theorem test_teardown :
    let s := (up.onCtx 15 fun c => { c with state := .active, teardownDue := true }).onBand 127 fun b => { b with owner := 15 }
    let d := up.onCtx 15 fun c => { c with state := .tearingDown }
    let r := (d.onCtx 15 fun c => { c with resetBands := [3] }).onBand 3 fun b => { b with state := .resetting }
    gives (exec (.teardownBoundary 15) s) (closeRings 15 (blockCompletion 0 0xF1
        (releaseBand 15 (dropRegions 15 (dropBindings 15 (dropWork 15 (s.onCtx 15 fun c => { c with
          state := .tearingDown, teardownPending := false, teardownDue := false, resetBands := [] })))) 127))) = true ∧
    gives (exec (.teardownBoundary 15) d) d = true ∧
    gives (exec (.teardownDone 15) d) (d.onCtx 15 fun c => { c with state := .free }) = true ∧
    gives (exec (.teardownDone 15) r) r = true := by decide +kernel

theorem test_context_registers :
    let e := up.onWork fun w => { w with entries := [armedEntry] }
    hasEntries up 1 = false ∧ hasEntries e 1 = true ∧
    gives (exec (.ctxSeedWrite 1 false 0xFFFFFFFFFFFFFFFF) up) (up.onCtx 1 fun c => { c with seed := 0xFFFFFFFFFFFFFFFF }) = true ∧
    gives (exec (.ctxSeedWrite 1 true 0xFF0FFFF) up) (up.onCtx 1 fun c => { c with rank := 0xFF0FFFF }) = true ∧
    gives (exec (.ctxSeedWrite 1 false 1) e) (violate 0 0x02 e) = true ∧
    gives (exec (.ctxSeedWrite 1 true 1) e) (violate 0 0x02 e) = true ∧
    gives (exec (.ctxShareWrite 15 false 0xFFFFFFFFFFFFFFFF) up) (up.onCtx 15 fun c => { c with shareLo := 0xFFFFFFFFFFFFFFFF }) = true ∧
    gives (exec (.ctxShareWrite 15 true 7) up) (up.onCtx 15 fun c => { c with shareHi := 7 }) = true := by decide +kernel

theorem test_rings_and_queues :
    let on := up.onRing 15 fun r => { r with cfg := 0x10C, state := 1, live := true }
    gives (exec (.ringEnable 15 12) up) (writeStatus 15 (up.onRing 15 fun r => { r with
        cfg := 0x10C, head := 0, state := 1, live := true, stopping := false, err := 0, errPos := 0 })) = true ∧
    gives (exec (.ringDisable 15 12) on) (on.onRing 15 fun r => { r with cfg := 12, stopping := true }) = true ∧
    gives (exec (.ringEnable 15 6) on) (violate 0 0x02 on) = true ∧ gives (exec (.ringDisable 15 6) on) (violate 0 0x02 on) = true ∧
    gives (exec (.evqEnable 15 0x1E0006) up) (up.onQueue 15 fun q => { q with
          cfg := 0x1E0106, tail := 0, headRead := 0, statusTail := 0 }) = true ∧
    gives (exec (.evqEnable 15 0x1F0006) up) ((violate 0 0x02 up).onQueue 15 fun q => { q with
          cfg := 0x106, tail := 0, headRead := 0, statusTail := 0 }) = true := by decide +kernel

/-- A signed certificate of ISOLATE that names device 9 of fabric 6: its bytes 0 to 63, then slot 0's signature, made with the
key of test 1 of RFC 8032, section 7.1. -/
def isolating : List Byte :=
  layout 64 [(0, leBytes 4 0x43544C4D), (4, [1, 0, 1, 1]), (8, [9]), (16, [6]), (24, [3]), (32, [5])] ++ leBytes 64
    0x8d8463bcddb07068d0b113a045249694e6a8d9e99aa0633ffeb0f56aed6044bfd06bb678f650dacae8101322f0b28b2c669d8746c64e5c97d8f0c98d61b62ba ++
    List.replicate 384 0

/-- A device of fabric 6 lined with device 9, that takes certificates signed by one manager. -/
def lined : State := (up.onLin fun l => { l with
  state := .mirrored, partnerKnown := true, partnerSerial := 9, threshold := 1, fabricId := 6, keysValid := 1, lastEpoch := 3, lastNonce := 4
  mgrKeys := (((l.mgrKeys.set 0 0xb70ab18201985ad7).set 1 0x3a0764c9d3fe4bd5).set 2 0x2523a6daf372e10e).set 3 0x1a5107f7681a02af
  }).setHostMem (Mem.write [] 0 (isolating.take 128))

theorem test_ed25519 : edVerify
    (leBytes 32 0x1a5107f7681a02af2523a6daf372e10e3a0764c9d3fe4bd5b70ab18201985ad7) []
    (leBytes 64
      0x0b107a8e4341516524be5b59f0f55bd26bb4f91c70391ec6ac3ba3901582b85f5501492265e073d874d9e5b81e7f87848a826e80cce2869072ac60c3004356e5) =
    true := by decide +kernel

theorem test_accepted_certificate : checkCert lined isolating = (0, some (.isolate, 9)) := by
  have names : certNames lined .isolate 9 = true := by
    have h : lined.lin.partnerSerial = 9 ∧ lined.lin.partnerKnown = true ∧ lined.lin.state = .mirrored := by decide +kernel
    simp [certNames, h]
  have signed : goodSignatures lined.lin isolating = 1 := by decide +kernel
  have h : certAction isolating = some .isolate ∧ leAt isolating 0 4 = 0x43544C4D ∧ leAt isolating 4 2 = 1 ∧ lined.lin.threshold = 1 ∧
      leAt isolating 16 8 = 6 ∧ lined.lin.fabricId = 6 ∧ leAt isolating 8 8 = 9 ∧ leAt isolating 24 2 = 3 ∧ certEpoch lined = 3 ∧
      leAt isolating 32 8 = 5 ∧ lined.lin.lastNonce = 4 := by decide +kernel
  obtain ⟨h0, h1, h2, h3, h4, h5, h6, h7, h8, h9, h10⟩ := h
  simpa [checkCert, signed, h0, h1, h2, h3, h4, h5, h6, h7, h8, h9, h10] using names

theorem test_certificate_hypotheses :
    isolating = Mem.bytes lined.hostMem (fld lined.lin.certAddr 63 9 * 512) 512 ∧ thimbleRuns lined = true ∧
    lined.thm.commitCert = false ∧ lined.lin.accepted = none := by decide +kernel

/-! ## Faults, resets, power and clocks -/

/-- Nothing failed in a reset. -/
def allPassed : ResetObs :=
  { bands := [], panels := [], stackList := [], ports := [], stitchFailed := false, servingFailed := false, testsRun := 0, testsFailed := 0
    lastFailed := 0, fuses := [] }

theorem test_heartbeat :
    let s := up.onFlt fun f => { f with misses := f.misses.set 17 2 }
    let r := up.onThm fun t => { t with restarting := true }
    gives (exec (.heartbeatSample (BitVec.allOnes 18)) s) (s.onFlt fun f => { f with
          misses := Vector.replicate 18 0
          beats := Vector.ofFn fun u => if sampled s u.val then f.beats[u] + 1 else f.beats[u] }) = true ∧
    gives (exec (.heartbeatSample 0) r) r = true := by decide +kernel

theorem test_requested_resets :
    let held (trigger : BitVec 3) (u : State) : State := u.onFlt fun f => { f with
          jobFault := true, phase := .hold, resetting := true, restarts := 0, pendingTrigger := trigger, pendingCause := 0
          counted := false }
    hostedJobs up = [] ∧
    gives (exec (.deviceReset 0) up) (held 2 up) = true ∧
    gives (exec (.hotReset .functionLevel) up) (held 5 up) = true ∧
    gives (exec (.perst .h true) up) (held 4 (up.onPower fun p => { p with perstH := true, linkH := .down })) = true := by decide +kernel

theorem test_reset_hold_end :
    let s := up.onFlt fun f => { f with phase := .hold, resetting := true, pendingTrigger := 1, ctrl := 0 }
    gives (exec .resetHoldEnd s) (s.onFlt fun f => { f with phase := .stopped, resetting := false }) = true := by decide +kernel

theorem test_reset_runs :
    let s := ((up.onFlt fun f => { f with phase := .hold, resetting := true, pendingTrigger := 2, pendingCause := 5 }).setHostMem [(3, 4)]).onCtx 7
      fun c => { c with state := .active }
    ∃ t, exec .resetHoldEnd s = .next t ∧ t.flt.phase = .running ∧ t.flt.resetting = true ∧ t.flt.lastCause = 5 ∧ t.flt.lastTrigger = 2 ∧
      t.hif = {} ∧ t.work = {} ∧ t.cores = {} ∧ t.prs = {} ∧ t.srv = {} ∧ t.bolt.mem = [] ∧ t.hbm.mem = [] ∧ t.hostMem = [(3, 4)] :=
  ⟨_, rfl, by decide +kernel⟩

theorem test_device_reset_done :
    let s := up.onFlt fun f => { f with phase := .running, resetting := true, restarts := 1 }
    ∃ t, exec (.deviceResetDone { allPassed with stitchFailed := true }) s = .next t ∧ t.flt.resetting = false ∧ t.flt.phase = .none ∧ t.flt.restarts = 0 ∧
      t.power.faultLow = false ∧ t.stu.missed = 0 := ⟨_, rfl, by decide +kernel⟩

theorem test_unit_reset :
    let s := up.onBand 127 fun b => { b with owner := 3 }
    unitRefusal up 2 127 = none ∧ unitRefusal s 2 127 = some 1 ∧
    gives (exec (.unitReset (BitVec.ofNat 64 (2 * 2 ^ 24 + 127 * 2 ^ 32))) up) ((startBandReset 127 .resetting up).onFlt fun f => { f with
        unitBusy := true, unitKind := 2, unitIndex := 127 }) = true ∧
    gives (exec (.unitReset (BitVec.ofNat 64 (2 * 2 ^ 24 + 127 * 2 ^ 32))) s) (s.onFlt fun f => { f with unitResult := 1 }) = true := by
  decide +kernel

theorem test_unit_reset_done :
    let s := up.onFlt fun f => { f with unitBusy := true, unitKind := 6, unitIndex := 7 }
    gives (exec (.unitResetDone true) s) (s.onFlt fun f => { f with unitBusy := false, unitResult := 0 }) = true ∧
    gives (exec (.unitResetDone false) s) (declareFault (faultRec s 0x28 1 6 7 0 (tempWord s 7) 1 0 4)
        (s.onFlt fun f => { f with unitBusy := false, unitResult := 4, heldStacks := f.heldStacks ||| bitsOf 8 [7] })) = true := by decide +kernel

theorem test_violations_and_port_s :
    let s := violate 0 0x0C up
    let p := up.onPower fun p => { p with linkS := .loopback }
    let d := up.onPower fun p => { p with perstS := true, linkS := .down }
    gives (exec (.fltViolClr 0 0) s) up = true ∧ (s.flt.viol[0]).count = 1 ∧
    gives (exec .portSReset p) (p.onPower fun p => { p with linkS := .l0 }) = true ∧
    gives (exec (.perst .s true) up) d = true ∧
    gives (exec (.perst .s false) d) (d.onPower fun p => { p with perstS := false, linkS := .l0 }) = true := by decide +kernel

/-- Band 127 in a power state. -/
def band127 (x : BandState) (off : Bool) : State := up.onBand 127 fun b => { b with state := x, pwrOff := off }

/-- Band 127 in a power state one stitch after it entered it. -/
def band127Later (x : BandState) (off : Bool) : State := (band127 x off).onStu fun u => { u with marks := 1 }

theorem test_band_power :
    let band (f : Band → Band) (u : State) : State := u.onBand 127 f
    gives (exec (.powerDown 127 0) up) (band (fun b => { b with pwrOff := true, downPending := true }) up) = true ∧
    gives (exec (.powerUp 127 0) (band127 .off true)) (startBandReset 127 .poweringUp (band127 .off false)) = true ∧
    gives (exec (.powerUp 127 0) (band127 .poweringDown true)) (band (fun b => { b with upAfter := true })
      (band127 .poweringDown false)) = true ∧
    gives (exec (.powerDown 127 0) (band127 .resetting false)) (band (fun b => { b with pwrOff := true, downAfter := true })
      (band127 .resetting false)) = true ∧
    gives (exec (.dropsClr 127 0) (band (fun b => { b with drops := 5 }) up)) up = true ∧
    gives (exec (.dropsClr 127 0) (band (fun b => { b with drops := 5 }) (band127 .off true)))
      (startBandReset 127 .poweringUp (band127 .off false)) = true ∧
    gives (exec (.bandDomainOff 127) up) up = true ∧ gives (exec (.bandOn 127) up) up = true := by decide +kernel

/-- The ends of the transitions come at a later boundary than their starts. -/
theorem test_band_turns :
    let band (f : Band → Band) (u : State) : State := u.onBand 127 f
    gives (exec (.bandDomainOff 127) (band127Later .poweringDown true))
      (band (fun b => { b with state := .off }) (clearBand 127 (band127Later .poweringDown true))) = true ∧
    gives (exec (.bandDomainOff 127) (band127 .poweringDown true)) (band127 .poweringDown true) = true ∧
    gives (exec (.bandOn 127) (band127Later .poweringUp false)) (band127Later .on false) = true ∧
    gives (exec (.bandOn 127) (band (fun b => { b with downAfter := true }) (band127Later .resetting true)))
      (band (fun b => { b with downPending := true }) (band127Later .on true)) = true ∧
    gives (exec (.bandOn 127) (band127 .poweringUp false)) (band127 .poweringUp false) = true := by decide +kernel

theorem test_band_in_a_switch :
    let sw (s : State) : State := s.onHif fun h => { h with switch := some { from_ := 0, to_ := 1, bands := [127], started := false, due := false } }
    bandSwitching (sw up) 127 = true ∧
    gives (exec (.powerDown 127 0) (sw up)) (violate 0 0x02 (sw up)) = true ∧
    gives (exec (.powerUp 127 0) (sw (band127 .off true))) (violate 0 0x02 (sw (band127 .off true))) = true := by decide +kernel

theorem test_power_on :
    let s := (up.setHostMem [(1, 2)]).onPower fun p => { p with inputOk := false }
    ∃ t, exec .powerOn s = .next t ∧ exec .inputReturn s = .next t ∧ t.flt.resetting = true ∧ t.flt.phase = .powerOn ∧ t.stu = {} ∧
      t.work = {} ∧ t.hostMem = [(1, 2)] ∧ t.power.pwrgd = true ∧ t.power.inputOk = true :=
  ⟨_, rfl, rfl, by decide +kernel⟩

theorem test_power_on_done :
    let s := up.onFlt fun f => { f with phase := .powerOn, resetting := true }
    ∃ t, exec (.powerOnDone { allPassed with stitchFailed := true }) s = .next t ∧ t.flt.resetting = false ∧ t.flt.phase = .none ∧ t.power.linkH = .l0 :=
  ⟨_, rfl, by decide +kernel⟩

theorem test_input :
    let s := up.onFlt fun f => { f with phase := .powerOn, resetting := true }
    gives (exec (.inputLoss 39999) s) (s.onPower fun p => { p with inputOk := false, alwaysOn := true, pwrgd := false }) = true ∧
    gives (exec (.inputLoss 36000) up) up = true ∧ gives (exec (.inputLoss 63000) up) up = true ∧ gives (exec .inputReturn up) up = true := by
  decide +kernel

theorem test_device_faults :
    gives (exec (.panelThermal 95) up) (declareFault (faultRec up 0x21 4 0x03 7 0 0 1 0 95) up) = true ∧
    railAbsolute up 31 35999 = 1 ∧ railAbsolute up 31 63000 = 0 ∧
    gives (exec (.supply 31 63000) up) up = true ∧
    gives (exec (.supply 31 35999) up) ((declareFault (faultRec up 0x22 4 0x0C 31 0 35999 1 0 1) up).onPower fun p => { p with pwrgd := false }) =
      true := by decide +kernel

theorem test_clocks :
    let u := up.onThm fun t => { t with clkLock := 0 }
    let l := up.onThm fun t => { t with clkLock := 0x500000 }
    let a := l.onThm fun t => { t with clkLock := 0x400000 }
    gives (exec (.clockLost 24) up) up = true ∧
    gives (exec (.clockLost 20) l) (declareFault (clockRecord a 20) a) = true ∧
    gives (exec (.clockReturn 22) l) l = true ∧
    gives (exec (.clockReturn 22) u) (u.onThm fun t => { t with clkLock := 0x400000 }) = true := by decide +kernel

theorem test_thimble_restart :
    let h := up.onThm fun t => { t with halted := true }
    let r := up.onThm fun t => { t with restarting := true }
    gives (exec .thimbleRestart h) h = true ∧
    gives (exec .thimbleRestart up) (logCritical 0x0A [] (up.onThm fun t => { t with
        restarts := 1, restarting := true, halted := false, firstRestart := some 0 })) = true ∧
    gives (exec .thimbleRestartDone r) ((boot false (r.onThm fun t => { t with restarting := false })).onFlt fun f =>
        { f with misses := Vector.replicate 18 0, deferred := [] }) = true := by decide +kernel

theorem test_pcie_loopback :
    let h := up.onPower fun p => { p with linkH := .l0 }
    let s := up.onPower fun p => { p with linkS := .loopback }
    gives (exec (.pcieLoopback .h) h) (h.onPower fun p => { p with linkH := .loopback }) = true ∧
    gives (exec (.pcieLoopbackExit .s) s) (s.onPower fun p => { p with linkS := .l0 }) = true := by decide +kernel

/-! ## The Thimble and the tests -/

/-- A mailbox of `len` bytes at address 0x40, with THM_CTRL as given. -/
def boxed (len : Nat) (ctrl : W64) : State := up.onThm fun t => { t with mboxAddr := 0x40, mboxLen := BitVec.ofNat 64 len, ctrl := ctrl }

/-- What a mailbox command leaves: its argument, its result and vector 31. -/
def boxDone (arg : BitVec 32) (r : Byte) (s : State) : State :=
  (s.onThm fun t => { t with mboxArg := arg, mbox := none, mboxResult := r }).emit (.msix 31)

theorem test_mailbox_reads :
    let s := boxed 1228 0
    gives (exec (.logRead 0x7_00000000) s) (boxDone 7 0 (s.setHostMem (Mem.write [] 0x40 (logFrom s 7 9)))) = true ∧
    gives (exec (.logRead 0) (boxed 127 0)) (boxDone 0 2 (boxed 127 0)) = true ∧
    gives (exec (.clearCritical 0) s) (boxDone 0 0 (s.onThm fun t => { t with critical := [], critFull := false, flashBusy := true })) = true ∧
    (sensorBytes s).length = 1228 ∧
    gives (exec (.sensorSnapshot 0) s) (boxDone 0 0 (s.setHostMem (Mem.write [] 0x40 (sensorBytes s)))) = true ∧
    gives (exec (.pubkeyList 0) s) (boxDone 0 0 (s.setHostMem (Mem.write [] 0x40 (keyListBytes s)))) = true := by decide +kernel

theorem test_mailbox_keys :
    let s := (boxed 32 2).onThm fun t => { t with pubKeys := t.pubKeys.set 15 (some 9) }
    let b := s.onWork fun w => { w with transfers := [{ id := 0, ctx := 1, ringIndex := 0, notify := true, kind := .bundle {
      src := 0, portH := true, keyId := keyId 9, model := 0, slot := 0, regions := [] } }] }
    gives (exec (.pubkeyAdd 0) (boxed 32 0)) (boxDone 0 5 (boxed 32 0)) = true ∧
    gives (exec (.pubkeyRemove 0) (boxed 32 0)) (boxDone 0 5 (boxed 32 0)) = true ∧
    gives (exec (.pubkeyAdd 0) (boxed 32 2)) (boxDone 0 0 (addKey 0 (boxed 32 2)).2) = true ∧
    bundleUses b (keyId 9) = true ∧
    gives (exec (.pubkeyRemove (15 <<< 32)) s) (boxDone 15 0 (removeKey 15 s)) = true ∧
    gives (exec (.pubkeyRemove (15 <<< 32)) b) (b.onThm fun t => { t with
          mboxArg := 15, mbox := some { cmd := 5, arg := 15 }, removal := some 15 }) = true := by decide +kernel

theorem test_mailbox_fuses :
    let s := boxed 8 4
    gives (exec (.fuseAdd 0) (boxed 8 0)) (boxDone 0 5 (boxed 8 0)) = true ∧
    gives (exec (.fuseClear 0) (boxed 8 0)) (boxDone 0 5 (boxed 8 0)) = true ∧
    gives (exec (.fuseRead 0x3_00000000) s) (boxDone 3 6 s) = true ∧
    gives (exec (.fuseRead 0x2_00000000) s) (boxDone 2 0 (s.setHostMem (Mem.write [] 0x40 (fuseBytes s 2)))) = true ∧
    gives (exec (.fuseClear 0x2_00000000) s) (boxDone 2 0 (clearFuses 2 s)) = true ∧
    gives (exec (.fuseAdd 0x2_00000000) s) (boxDone 2 0 (addFuse 2 0 s).2) = true := by decide +kernel

theorem test_mailbox_closed :
    let r := up.onThm fun t => { t with restarting := true }
    let k := up.onThm fun t => { t with removal := some 3, pubKeys := t.pubKeys.set 3 (some 9) }
    gives (exec (.logRead 0) r) (r.onThm fun t => { t with mboxArg := 0, mboxResult := 1 }) = true ∧
    gives (exec (.keyRemovalDone 3) k) ((removeKey 3 k).onThm fun t => { t with removal := none }) = true := by decide +kernel

theorem test_identity_command :
    exec (.identity 0) (boxed 0 0) = exec (.identity 0) (boxed 0 0) ∧ (leBytes 32 Config.identityKey.toNat).length = 32 := by
  refine ⟨rfl, by simp [leBytes]⟩

theorem test_panel_sensors :
    let r := up.onThm fun t => { t with halted := true }
    (∃ u, exec (.panelSensorRead (List.replicate 96 1439)) up = .next u ∧ u.out = [] ∧ Tab.getD u.thm.sensors 95 0 = 1439) ∧
    gives (exec (.panelSensorRead []) r) r = true := ⟨⟨_, rfl, by decide +kernel⟩, by decide +kernel⟩

theorem test_thimble_upkeep :
    let h := up.onThm fun t => { t with receiver := some 8 }
    let f := up.onThm fun t => { t with flashBusy := true, commitCert := true }
    let r := up.onThm fun t => { t with trial := true }
    gives (exec .pldmHeartbeat h) (h.emit .pldmHeartbeat) = true ∧ gives (exec .pldmHeartbeat up) up = true ∧
    gives (exec .storeCommitDone f) ((f.onThm fun x => { x with flashBusy := false, generation := 1, commitCert := false }).onLin fun l =>
      { l with certResult := 0 }) = true ∧
    gives (exec .trialTimeout r) ((logCritical 0x07 [3] (r.onThm fun x => { x with activeB := true, trial := false, attempts := 0 })).onFlt
      fun f => { f with phase := .hold, resetting := true }) = true ∧
    gives (exec (.sensorMaxClr 306) up) (up.onThm fun x => { x with sensorSel := 306, sensorMax := Tab.put [] 306 0 }) = true := by decide +kernel

theorem test_update :
    let replies (code : Nat) (r : Byte) (via : Transport) (u : State) : State := u.emit (.mctp via (Config.encodeResponse code [[r]]))
    let v (x : UpdateState) := up.onThm fun t => { t with update := x }
    exec (.requestUpdate .pcie) up = .next (replies 0x0510 0 .pcie (logCritical 0x08 [0x10]
        ((up.onThm fun x => { x with imageB := [] }).onThm fun x => { x with update := .transferring, updateVia := .pcie }))) ∧
    exec (.transferComplete [1]) (v .transferring) = .next ((v .transferring).onThm fun x => { x with imageB := [1], update := .transferred }) ∧
    exec (.activateFirmware .i3c) (v .verified) = .next (replies 0x051A 0 .i3c (logCritical 0x08 [0x1A]
        ((v .verified).onThm fun x => { x with update := .idle, updatePending := true, attempts := 0, flashBusy := true }))) :=
  ⟨rfl, rfl, rfl⟩

theorem test_verify :
    let v := up.onThm fun t => { t with update := .transferred }
    imageValid v v.thm.imageB = false ∧
    exec .verifyComplete v = .next ((logCritical 0x08 [0x17] (v.onThm fun x => { x with update := .idle })).emit
      (.mctp .i3c (Config.encodeResponse 0x0517 [[1]]))) := ⟨by decide +kernel, rfl⟩

theorem test_oem_requests :
    let replies (code : Nat) (parts : List (List Byte)) (u : State) : State := u.emit (.mctp .i3c (Config.encodeResponse code parts))
    let r := up.onThm fun t => { t with restarting := true }
    exec (.oemLogRead .i3c 0) r = .next (replies 0x3F03 [[1]] r) ∧
    exec (.oemDeviceReset .i3c) up = .next (replies 0x3F01 [[0], []] (requestReset 3 up)) ∧
    exec (.oemLogRead .i3c 5) up = .next (replies 0x3F03 [[0], logFrom up 5 16] up) ∧
    exec (.oemPubkey .i3c .list) up = .next (replies 0x3F04 [[0], keyListBytes up] up) ∧
    exec (.oemFuse .i3c (.read 3)) up = .next (replies 0x3F06 [[6], []] up) ∧
    exec (.oemFuse .i3c (.read 2)) up = .next (replies 0x3F06 [[0], fuseBytes up 2] up) ∧
    exec (.oemFuse .i3c (.clear 0)) up = .next (replies 0x3F06 [[0], []] (clearFuses 0 up)) ∧
    exec (.domainState .i3c) up = .next (replies 0x3F07 [[0], domainBytes up] up) ∧
    exec (.mctpControl .i3c 0x01 9) up = .next ((up.onThm fun x => { x with eidI3c := 9 }).emit
        (.mctp .i3c (Config.encodeResponse 0 [[0x01], [9, up.thm.eidPcie]]))) := ⟨rfl, rfl, rfl, rfl, rfl, rfl, rfl, rfl, rfl⟩

theorem test_quorum_write :
    let w : QuorumWrite := { offset := 8, value := 3 }
    exec (.quorumWrite .pcie [w]) up = .next (((logCritical 0x0B (leBytes 2 8 ++ leBytes 8 3) (up.onLin fun l =>
          { l with fabricId := 3 })).onThm fun x => { x with flashBusy := true }).emit
      (.mctp .pcie (Config.encodeResponse 0x3F05 [[0], []]))) := by rfl

theorem test_pldm_and_spdm :
    let replies (code : Nat) (parts : List (List Byte)) (u : State) : State := u.emit (.mctp .pcie (Config.encodeResponse code parts))
    exec (.getTid .pcie) up = .next (replies 0x0002 [] up) ∧
    exec (.getPldmTypes .pcie) up = .next (replies 0x0004 [[0, 2, 4, 5, 63]] up) ∧
    exec (.sensorReading .pcie 307) up = .next (replies 0x0211 [[0], leBytes 4 0] up) ∧
    exec (.sensorReading .pcie 0) up = .next (replies 0x0211 [[1]] up) ∧
    exec (.pdrRepository .pcie) up = .next (replies 0x0251 [leBytes 2 307, [170, 0]] up) ∧
    exec (.setEventReceiver .pcie 4 true) up = .next (replies 0x0204 [] (up.onThm fun x => { x with receiver := some 4 })) ∧
    exec (.fruRecord .pcie) up = .next (replies 0x0402 [identityBytes up, [170, 0]] up) ∧
    exec (.queryDeviceIdentifiers .pcie) up = .next (replies 0x0501 [leBytes 2 Config.vendorId.toNat, identityBytes up] up) ∧
    exec (.getVersion .pcie) up = .next (replies 0x8404 [[0x12]] up) ∧
    exec (.negotiateAlgorithms .pcie) up = .next (replies 0x84E3 [] (up.onThm fun x => { x with spdmNegotiated := true })) ∧
    exec (.keyExchange .pcie) up = .next (replies 0x847F [[0xE4]] up) ∧
    exec (.pskExchange .pcie) up = .next (replies 0x847F [[0xE6]] up) :=
  ⟨rfl, rfl, rfl, rfl, rfl, rfl, rfl, rfl, rfl, rfl, rfl, rfl⟩

theorem test_attestation :
    let replies (code : Nat) (parts : List (List Byte)) (u : State) : State := u.emit (.mctp .pcie (Config.encodeResponse code parts))
    let body := leBytes 32 5 ++ sha256 Config.identityChain
    exec (.challenge .pcie 0 5) up = .next (replies 0x8483 [[0], body, Config.identitySign body] up) ∧
    exec (.getCertificate .pcie 0 1 2) up = .next (replies 0x8482 [[0], (Config.identityChain.drop 1).take 2] up) ∧
    exec (.getDigests .pcie) up = .next (replies 0x8481 [sha256 Config.identityChain] up) := ⟨rfl, rfl, rfl⟩

/-- The device with its TEST_MODE strap. -/
def strapped (on : Bool) : State := up.setStraps { testMode := on }

theorem test_tap :
    let set (s : State) (ir : Byte) (driven highz : Bool) (w : Option (Fin 8)) : State := s.onTap fun t => { t with
      ir := ir, driven := driven, highz := highz, wrapper := w }
    let bypassed := (set (strapped false) 0xFF false false none).emit (.tdo [0])
    gives (exec (.samplePreload (some [1]) [2]) (strapped false)) (((strapped false).onTap fun t => { t with
      ir := 0x02, driven := false, highz := false, wrapper := none, boundary := [1] }).emit (.tdo [2])) = true ∧
    gives (exec (.bypass 0) (strapped false)) bypassed = true ∧
    gives (exec .extest (strapped true)) (set (strapped true) 0x03 true false none) = true ∧
    gives (exec .highz (strapped true)) (set (strapped true) 0x04 false true none) = true ∧
    gives (exec .clamp (strapped true)) (set (strapped true) 0x05 true false none) = true ∧
    gives (exec .extestPulse (strapped true)) (set (strapped true) 0x06 true false none) = true ∧
    gives (exec .extestTrain (strapped true)) (set (strapped true) 0x07 true false none) = true ∧
    gives (exec (.hbmWrapper 7) (strapped true)) (set (strapped true) 0x10 false false (some 7)) = true ∧
    (∀ c ∈ [Instr.extest, .highz, .clamp, .extestPulse, .extestTrain, .hbmWrapper 7, .privateInstruction 0x20],
      gives (exec c (strapped false)) bypassed = true) := by decide +kernel

theorem test_private_instruction :
    exec (.privateInstruction 0x20) (strapped true) = .refused (.privateTest 0x20) ∧
    exec (.privateInstruction 0x3F) (strapped true) = .refused (.privateTest 0x3F) := ⟨rfl, rfl⟩

theorem test_test_block :
    let start (t p : Nat) : W64 := BitVec.ofNat 64 (t * 2 ^ 32 + p * 2 ^ 24)
    let r := up.onFlt fun f => { f with resetting := true }
    let o : TestObs := { passed := true, repaired := true, detail := 1, errors := 2, checked := 3, fuses := [] }
    let b := up.onTst fun t => { t with busy := true, test := 0x0502 }
    gives (exec (.tstStart (start 0x0201 7)) r) (r.onTst fun t => { t with cmd := start 0x0201 7, result := 3, test := 0x0201 }) = true ∧
    gives (exec (.tstStart (start 0x0201 7)) up) (up.onTst fun t => { t with cmd := start 0x0201 7, result := 4, test := 0x0201 }) = true ∧
    gives (exec (.tstStart (start 0x0502 0)) up) (up.onTst fun t => { t with cmd := start 0x0502 0, busy := true, test := 0x0502 }) = true ∧
    gives (exec (.tstStop 0) b) (b.onTst fun t => { t with cmd := 0, stopping := true }) = true ∧
    gives (exec (.testDone o 9) b) ((b.onTst fun t => { t with
        elapsed := 9, detail := 1, errors := 2, checked := 3, busy := false, result := 7 }).emit (.msix 31)) = true := by decide +kernel

/-! ## Further clauses of the lining, contexts, resets, power, Thimble and tests -/

theorem test_lining_states :
    let p := up.onLin fun l => { l with state := .pairing, pairCfg := 0x11 }
    let f := up.onLin fun l => { l with state := .fenced, pairCfg := 0x11 }
    let busy := up.onLin fun l => { l with accepted := some (.leave, 0) }
    let o : PairingObs := { partnerSerial := 0, partnerFabric := 0, partnerFw := fwId up, partnerGrade := 8, partnerKey := 5
                            challengeOk := true, partnerReady := true, partnerOwnCounts := true }
    let a : State := ([12, 13, 14, 15].foldl (fun s m => s.onPort m fun p => { p with state := .active }) p).onCtx 1 fun c =>
      { c with state := .active }
    gives (exec (.pairing 31) p) (p.onLin fun l => { l with pairCfg := 31 }) = true ∧
    gives (exec (.liningDisable 1) up) (up.onLin fun l => { l with pairCfg := 1 }) = true ∧
    gives (exec (.liningDisable 1) f) (f.onLin fun l => { l with pairCfg := 1 }) = true ∧
    gives (exec (.certSubmit (.register 0)) busy) (busy.onLin fun l => { l with certResult := 1 }) = true ∧
    pairingReason a o = 0 ∧
    (match exec (.pairingResult o) a with
      | .next t => decide (t.lin.state = .refilling) && t.lin.receiving && t.lin.refillPending && !t.lin.sending && !t.lin.valid
      | _ => false) = true := by decide +kernel

theorem test_isolate_of_the_partner :
    let s := up.onLin fun l => { l with accepted := some (.isolate, Config.serial + 1) }
    s.lin.accepted = some (.isolate, Config.serial + 1) ∧ Config.serial + 1 ≠ Config.serial := ⟨rfl, by simp⟩

theorem test_context_states :
    let t := up.onCtx 15 fun c => { c with state := .tearingDown }
    let w (x : Switch) (rt : Bool) := ((up.onCtx 3 fun c => { c with state := .active, serving := true }).onSrvCtx 3 fun c =>
      { c with rtNow := rt }).onHif (fun h => { h with switch := some x }) |>.onBand 127 fun b => { b with owner := 3 }
    let sw (started due : Bool) : Switch := { from_ := 3, to_ := 0, bands := [127], started := started, due := due }
    gives (exec (.teardown 15 0) up) (up.onCtx 15 fun c => { c with result := 1 }) = true ∧
    gives (exec (.teardown 15 0x10) t) (t.onCtx 15 fun c => { c with result := 1 }) = true ∧
    gives (exec (.teardown 0 0x10) up) ((violate 0 0x02 up).onCtx 0 fun c => { c with result := 2 }) = true ∧
    gives (exec .switchBegin (w (sw false false) false)) (w (sw false false) false) = true ∧
    gives (exec .switchDone (w (sw false true) false)) (w (sw false true) false) = true ∧
    gives (exec .switchBegin (w (sw true true) false)) (w (sw true true) false) = true ∧
    takesRealTime (w (sw false true) true) 3 0 [127] = true ∧
    gives (exec .switchBegin (w (sw false true) true)) ((w (sw false true) true).onHif fun h =>
      { h with switch := none, swResult := 4 }) = true := by decide +kernel

theorem test_context_registers_kept :
    let e := up.onWork fun w => { w with entries := [armedEntry] }
    let on := up.onRing 15 fun r => { r with cfg := 0x10C, state := 1, live := true }
    let q := up.onQueue 15 fun q => { q with cfg := 0x1E0106 }
    gives (exec (.ctxSeedWrite 1 false 0) e) e = true ∧
    gives (exec (.ctxSeedWrite 1 true 0xFF00000) e) (e.onCtx 1 fun c => { c with rank := 0xFF00000 }) = true ∧
    gives (exec (.ringEnable 15 12) on) on = true ∧ gives (exec (.ringDisable 15 6) up) (up.onRing 15 fun r => { r with cfg := 6 }) = true ∧
    gives (exec (.ringEnable 15 0x20C) on) (violate 0 0x02 on) = true ∧
    gives (exec (.evqEnable 15 0x1E0006) q) q = true ∧ gives (exec (.evqEnable 15 0x1E0007) q) (violate 0 0x02 q) = true := by decide +kernel

theorem test_hang_is_declared :
    let s (en : W64) := up.onFlt fun f => { f with ctrl := en, misses := f.misses.set 16 2 }
    let m (en : W64) := (s en).onFlt fun f => { f with misses := f.misses.set 16 3 }
    let h := (m 4).onFlt fun f => { f with hung := f.hung ||| BitVec.ofNat 18 (2 ^ 16) }
    sampled (s 4) 16 = true ∧ same (sampleOne false 16 (s 4)) (declareFault (hangRecord h 16) h) = true ∧
    same (sampleOne false 16 (s 0)) (logGeneral 0x04 0 [2, 16] (m 0)) = true := by decide +kernel

theorem test_reset_requests_while_busy :
    let r := up.onFlt fun f => { f with phase := .running, resetting := true }
    let d := up.onPower fun p => { p with perstH := true, linkH := .down }
    gives (exec (.deviceReset 0) r) r = true ∧ gives (exec (.hotReset .functionLevel) r) r = true ∧
    gives (exec (.deviceReset (1 <<< 63)) r) (violate 0 0x02 r) = true ∧
    gives (exec (.perst .h true) r) (r.onPower fun p => { p with perstH := true, linkH := .down }) = true ∧
    gives (exec (.perst .h true) d) d = true ∧
    gives (exec (.perst .h false) d) (d.onPower fun p => { p with perstH := false, linkH := .l0 }) = true := by decide +kernel

theorem test_unit_resets :
    let v (k i : Nat) : W64 := BitVec.ofNat 64 (k * 2 ^ 24 + i * 2 ^ 32)
    let runs (k i : Nat) (u : State) : State := u.onFlt fun f => { f with unitBusy := true, unitKind := k, unitIndex := i }
    unitRefusal up 3 7 = none ∧ unitRefusal up 6 7 = none ∧ unitRefusal up 8 15 = none ∧
    gives (exec (.unitReset (v 0 0)) up) up = true ∧
    gives (exec (.unitReset (v 3 7)) up) (runs 3 7 (up.each ((List.range 16).map (112 + ·)) fun u g => startBandReset g .resetting u)) = true ∧
    gives (exec (.unitReset (v 6 7)) up) (runs 6 7 (clearStack 7 up)) = true ∧
    gives (exec (.unitReset (v 8 15)) up) (runs 8 15 (if bit (up.port 15).cfg 0 then retrain 15 true (discardPort 15 up)
      else dropChild 15 up)) = true ∧
    gives (exec (.unitResetDone true) up) up = true := by decide +kernel

theorem test_power_clauses :
    let g := up.setStraps { grade7 := true }
    let off := up.onPower fun p => { p with inputOk := false }
    let a := up.onThm fun t => { t with clkLock := 0x1FFFFFF }
    let own := up.onThm fun t => { t with clkLock := 0x1FFFFFF &&& ~~~ 0x200000 }
    let half := up.onThm fun t => { t with clkLock := 0x1FFFFFF &&& ~~~ 0xA00000 }
    gives (exec (.panelThermal 95) g) g = true ∧ gives (exec (.panelThermal 0) off) off = true ∧
    gives (exec (.inputLoss 35999) up) ((supplyTrip 31 35999 up).onPower (fun p => { p with
      inputOk := false, alwaysOn := true, pwrgd := false }) |>.onFlt fun f => { f with phase := .powerOn, resetting := true }) = true ∧
    gives (exec (.inputLoss 0) off) off = true ∧
    gives (exec (.clockLost 7) g) g = true ∧
    gives (exec (.clockLost 15) a) (declareFault (clockRecord (a.onThm fun t => { t with clkLock := 0x1FF7FFF }) 15)
      (a.onThm fun t => { t with clkLock := 0x1FF7FFF })) = true ∧
    gives (exec (.clockLost 16) a) (a.onThm fun t => { t with clkLock := 0x1FEFFFF }) = true ∧
    gives (exec (.clockLost 21) a) (stopTestForThimble (own.onThm fun t => { t with restarting := true })) = true ∧
    gives (exec (.clockReturn 21) half) (half.onThm fun t => { t with clkLock := 0x1FFFFFF &&& ~~~ 0x800000 }) = true ∧
    (match exec (.clockReturn 21) own, exec .thimbleRestart a with
      | .next t, .next u => same t u
      | _, _ => false) = true := by decide +kernel

theorem test_thimble_restarts_again :
    let s := (up.onThm fun t => { t with firstRestart := some 0, restarts := 1 }).setNs 599999999999
    let l := s.setNs 600000000000
    let hold := up.onFlt fun f => { f with phase := .hold, resetting := true }
    gives (exec .thimbleRestart s) (logCritical 0x0A [] (s.onThm fun t => { t with restarts := 2, halted := true })) = true ∧
    gives (exec .thimbleRestart l) (logCritical 0x0A [] (l.onThm fun t => { t with
      restarts := 2, restarting := true, firstRestart := some 600000000000 })) = true ∧
    gives (exec .thimbleRestart hold) (triggerReset 1 0 (logCritical 0x0A [] (hold.onThm fun t => { t with
      restarts := 1, restarting := true, firstRestart := some 0 }))) = true ∧
    gives (exec .thimbleRestartDone up) up = true := by decide +kernel

theorem test_mailbox_refusals :
    let arg (n : Nat) : W64 := BitVec.ofNat 64 (n * 2 ^ 32)
    let m := (boxed 0 0).onThm fun t => { t with mbox := some { cmd := 4, arg := 0 } }
    gives (exec (.sensorSnapshot 0) (boxed 1227 0)) (boxDone 0 2 (boxed 1227 0)) = true ∧
    gives (exec (.pubkeyList 0) (boxed 639 0)) (boxDone 0 2 (boxed 639 0)) = true ∧
    gives (exec (.pubkeyAdd 0) (boxed 31 2)) (boxDone 0 2 (boxed 31 2)) = true ∧
    gives (exec (.pubkeyRemove (arg 16)) (boxed 0 2)) (boxDone 16 6 (boxed 0 2)) = true ∧
    gives (exec (.pubkeyRemove (arg 15)) (boxed 0 2)) (boxDone 15 6 (boxed 0 2)) = true ∧
    gives (exec (.fuseAdd (arg 3)) (boxed 8 4)) (boxDone 3 6 (boxed 8 4)) = true ∧
    gives (exec (.fuseAdd 0) (boxed 7 4)) (boxDone 0 2 (boxed 7 4)) = true ∧
    gives (exec (.fuseRead 0) ((boxed 0 4).onThm fun t => { t with fuses := t.fuses.set 0 [0] })) (boxDone 0 2
      ((boxed 0 4).onThm fun t => { t with fuses := t.fuses.set 0 [0] })) = true ∧
    gives (exec (.logRead 0) m) (violate 0 0x02 m) = true ∧ gives (exec (.logRead 0x20000) (boxed 0 0)) (boxDone 0 2
      (violate 0 0x02 (boxed 0 0))) = true := by decide +kernel

theorem test_key_removals :
    let k := up.onThm fun t => { t with removal := some 15, pubKeys := t.pubKeys.set 15 (some 9), mbox := some { cmd := 5, arg := 15 } }
    let b := k.onWork fun w => { w with transfers := [{ id := 0, ctx := 1, ringIndex := 0, notify := true, kind := .bundle {
      src := 0, portH := true, keyId := keyId 9, model := 0, slot := 0, regions := [] } }] }
    gives (exec (.keyRemovalDone 0) k) k = true ∧ gives (exec (.keyRemovalDone 15) b) b = true ∧
    gives (exec (.keyRemovalDone 15) k) (((removeKey 15 k).onThm fun t => { t with removal := none, mbox := none, mboxResult := 0 }).emit
      (.msix 31)) = true := by decide +kernel

theorem test_hot_panel :
    (∃ u, exec (.panelSensorRead (List.replicate 95 0 ++ [1440])) up = .next u ∧ (u.thm.panels[7]).targetK = 18 ∧
      (u.thm.panels[0]).targetK = 16) := ⟨_, rfl, by decide +kernel⟩

theorem test_stores_and_trials :
    let c (bmc : Bool) := (up.onThm fun t => { t with flashBusy := true, commitCert := bmc }).onLin fun l => { l with certBmc := bmc }
    let r := (up.onThm fun t => { t with trial := true }).onFlt fun f => { f with phase := .running, resetting := true, pendingTrigger := 4 }
    gives (exec .storeCommitDone up) up = true ∧
    gives (exec .storeCommitDone (c false)) ((c false).onThm fun x => { x with flashBusy := false, generation := 1 }) = true ∧
    exec .storeCommitDone (c true) = .next ((((c true).onThm fun x => { x with
      flashBusy := false, generation := 1, commitCert := false }).onLin fun l => { l with certBmc := false }).emit
        (.mctp .i3c (Config.encodeResponse 0x3F02 [[0]]))) ∧
    gives (exec .trialTimeout up) up = true ∧
    gives (exec .trialTimeout r) ((logCritical 0x07 [3] (r.onThm fun x => { x with activeB := true, trial := false, attempts := 0 })).onFlt
      fun f => { f with phase := .hold, resetting := true }) = true := ⟨by decide +kernel, by decide +kernel, rfl, by decide +kernel, by decide +kernel⟩

theorem test_recovery_and_silence :
    let r := up.onThm fun t => { t with recovery := true }
    let h := up.onThm fun t => { t with halted := true }
    exec (.getVersion .i3c) r = .next (r.emit (.mctpError .i3c)) ∧ exec (.oemLogRead .i3c 0) r = .next (r.emit (.mctpError .i3c)) ∧
    exec (.getVersion .i3c) h = .next h ∧ exec (.getTid .i3c) h = .next h ∧ exec (.requestUpdate .i3c) h = .next h ∧
    exec (.activateFirmware .i3c) up = .next (up.emit (.mctp .i3c (Config.encodeResponse 0x051A [[1]]))) := ⟨rfl, rfl, rfl, rfl, rfl, rfl⟩

theorem test_oem_keys :
    let replies (parts : List (List Byte)) (u : State) : State := u.emit (.mctp .i3c (Config.encodeResponse 0x3F04 parts))
    let k := up.onThm fun t => { t with pubKeys := t.pubKeys.set 15 (some 9) }
    exec (.oemPubkey .i3c (.remove 0)) up = .next (replies [[6], []] up) ∧
    exec (.oemPubkey .i3c (.remove 15)) k = .next (replies [[0], []] (if bundleUses k (keyId 9) then k.onThm fun x => { x with
      removal := some 15 } else removeKey 15 k)) ∧ bundleUses k (keyId 9) = false := ⟨rfl, rfl, by decide +kernel⟩

theorem test_tests_end :
    let o (p : Bool) : TestObs := { passed := p, repaired := false, detail := 1, errors := 2, checked := 3, fuses := [(0, 5)] }
    let b (test : BitVec 16) (stop : Bool) := up.onTst fun t => { t with busy := true, test := test, stopping := stop }
    let x (s : State) := s.onTst fun t => { t with elapsed := 9, detail := 1, errors := 2, checked := 3 }
    let ends (r : Byte) (u : State) : State := (u.onTst fun t => { t with busy := false, stopping := false, result := r }).emit (.msix 31)
    gives (exec (.testDone (o true) 9) up) up = true ∧
    gives (exec (.testDone (o true) 9) (b 0x0502 true)) (ends 6 (x (b 0x0502 true))) = true ∧
    gives (exec (.testDone (o false) 9) (b 0x0502 false)) (ends 1 (addFuse 0 5 (logGeneral 0x04 0 [0x10, 2, 5, 0]
      (x (b 0x0502 false)))).2) = true ∧
    testRefusal up 0xFFFF 0 0 = some 5 ∧
    gives (exec (.tstStop 0x20000) up) (up.onTst fun t => { t with cmd := 0x20000 }) = true := by decide +kernel

/-! ## Registers, resets and the invariant -/

theorem test_registers :
    (regAt up 0xC00030).isNone = true ∧ (regAt up 0xD00018).isSome = true ∧
    gives (exec (.registerWrite 0xC00030 true 0) up) up = true ∧
    gives (exec (.registerWrite 0xC00030 true 1) up) (violate 0 0x02 up) = true ∧
    gives (exec (.registerRead 0xC00030 true) up) ((violate 0 0x03 up).emit (.readData 0)) = true ∧
    gives (exec (.registerRead 0xC00034 false) up) ((violate 0 0x03 up).emit (.readData 0)) = true ∧
    (∀ r, regAt up 0xD00018 = some r → r.readable = true → gives (.next (r.write 0x40 up)) (up.onThm fun t => { t with mboxAddr := 0x40 }) =
      true) := by
  refine ⟨?_, ?_, ?_, ?_, ?_, ?_, ?_⟩
  iterate 6 (first | decide +kernel)
  intro r h _
  have e : regAt up 0xD00018 = some ((regAt up 0xD00018).get (by decide +kernel)) := by simp
  have : r = (regAt up 0xD00018).get (by decide +kernel) := Option.some.inj (h.symm.trans e)
  subst this
  decide +kernel

theorem test_register_accesses :
    gives (exec (.registerWrite 0xC00004 true 1) up) (violate 0 0x02 up) = true ∧
    gives (exec (.registerWrite 0xC00002 false 1) up) (violate 0 0x02 up) = true ∧
    gives (exec (.registerRead 0xC00004 true) up) ((violate 0 0x02 up).emit (.readData 0)) = true ∧
    gives (exec (.registerRead 0xC00000 true) up) (up.emit (.readData 6)) = true ∧
    gives (exec (.registerRead 0xC00000 false) up) (up.emit (.readData 6)) = true ∧
    gives (exec (.registerRead 0xC00004 false) up) (up.emit (.readData 0)) = true := by decide +kernel

theorem test_locks :
    let l := up.onFlt fun f => { f with ctrl := 5 }
    gives (exec (.registerWrite 0xC00000 true 7) up) (up.onFlt fun f => { f with ctrl := 7 }) = true ∧
    gives (exec (.registerWrite 0xC00000 true 3) l) (violate 0 0x02 l) = true ∧
    gives (exec (.registerWrite 0xC00000 true 4) l) l = true ∧
    gives (exec (.registerWrite 0xD00000 true 1) up) (up.onThm fun t => { t with ctrl := 1 }) = true ∧
    gives (exec (.registerWrite 0xE00000 true 3) up) (up.onTst fun t => { t with ctrl := 3 }) = true ∧
    gives (exec (.registerWrite 0xE00000 true 4) up) (violate 0 0x02 up) = true := by decide +kernel

theorem test_half_writes :
    let s := up.onThm fun t => { t with mboxAddr := 0x1111111122222240 }
    gives (exec (.registerWrite 0xD00018 false 0xFFFFFFC0) s) (s.onThm fun t => { t with mboxAddr := 0x11111111FFFFFFC0 }) = true ∧
    gives (exec (.registerWrite 0xD0001C false 0xFFFFFFC0) s) (s.onThm fun t => { t with mboxAddr := 0xFFFFFFC022222240 }) = true := by decide +kernel

theorem test_closed_blocks :
    let r := up.onFlt fun f => { f with resetting := true }
    let m := up.onFlt fun f => { f with mode := 2 }
    gives (exec (.stuPeriodWrite 51) r) r = true ∧ gives (exec (.stuPeriodWrite 51) m) (violate 0 0x02 m) = true ∧
    gives (exec (.create 15 0) r) r = true ∧ gives (exec (.create 15 0) m) (violate 0 0x02 m) = true := by decide +kernel

theorem test_step_takes_the_front_command :
    gives (step ((up.setPending [.stuPeriodWrite 51, .powerOn]))) ((up.setPending [.powerOn]).onStu fun u => { u with
      immediate := some 51, held := none }) = true := by decide +kernel

theorem test_idle_step :
    let s := up.onStu fun u => { u with pos := 65534 }
    gives (step s) ((s.setNs 1).onStu fun u => { u with cycle := 1, pos := 65535 }) = true := by decide +kernel

theorem test_invariant_at_reset : memWf State.reset := by unfold memWf; decide +kernel

theorem test_every_command : ∀ code : Byte, Instr.privateInstruction 0x1F = .privateInstruction code → code.toNat < 0x20 := by
  intro code h
  cases h
  decide

end Sys2Proof.Tests
end

/-! PROOFS, family 00_scope: what every step keeps, the requests of the BMC, and the accesses of BAR0. -/

namespace Sys2Proof.Machine

/-! What every step keeps. -/

/-- Every command keeps what no command touches: the arms of `exec`, each with the law of the meaning it calls. -/
theorem exec_keeps {s t : State} (h : Keeps s t) (c : Instr) : OutKeeps s (exec c t) := by
  cases c with
  | stitchBoundary => exact execStitchBoundary_keeps h
  | marker => exact execMarker_keeps h ..
  | stretchReq => exact execStretchReq_keeps h ..
  | stretchAnn port k apply => exact execStretchAnn_keeps h port k apply
  | periodAnn port units apply => exact execPeriodAnn_keeps h port units apply
  | ready => exact execReady_keeps h ..
  | go port tag start => exact execGo_keeps h port tag start
  | miss port tag start => exact execMiss_keeps h port tag start
  | barrierCheck => exact execBarrierCheck_keeps h
  | barrierTimeout => exact execBarrierTimeout_keeps h
  | masterTakeover => exact execMasterTakeover_keeps h
  | holdover => exact execHoldover_keeps h
  | alignmentFault => exact execAlignmentFault_keeps h
  | stretchChange => exact execStretchChange_keeps h
  | periodChange => exact execPeriodChange_keeps h
  | stuPeriodWrite => exact execStuPeriodWrite_keeps h ..
  | stuEnable => exact execStuEnable_keeps h ..
  | sysFactor => exact execSysFactor_keeps h ..
  | thermalStepUp => exact execThermalStepUp_keeps h ..
  | thermalWithdraw => exact execThermalWithdraw_keeps h ..
  | supplyReason => exact execSupplyReason_keeps h ..
  | supplyWithdraw => exact execSupplyWithdraw_keeps h
  | phaseLedgerRecord => exact execPhaseLedgerRecord_keeps h ..
  | nop => exact execNop_keeps h ..
  | load => exact execLoad_keeps h ..
  | ldsc => exact execLdsc_keeps h ..
  | mac => exact execMac_keeps h ..
  | accin => exact execAccin_keeps h ..
  | drain => exact execDrain_keeps h ..
  | clear => exact execClear_keeps h ..
  | setw => exact execSetw_keeps h ..
  | fadd => exact execFadd_keeps h ..
  | fsub => exact execFsub_keeps h ..
  | fmul => exact execFmul_keeps h ..
  | fma => exact execFma_keeps h ..
  | fmax => exact execFmax_keeps h ..
  | fmin => exact execFmin_keeps h ..
  | fabs => exact execFabs_keeps h ..
  | fneg => exact execFneg_keeps h ..
  | fcmplt => exact execFcmplt_keeps h ..
  | fcmpeq => exact execFcmpeq_keeps h ..
  | fcmple => exact execFcmple_keeps h ..
  | sel => exact execSel_keeps h ..
  | rsum => exact execRsum_keeps h ..
  | rmax => exact execRmax_keeps h ..
  | bcast => exact execBcast_keeps h ..
  | exp2 => exact execExp2_keeps h ..
  | exp => exact execExp_keeps h ..
  | log2 => exact execLog2_keeps h ..
  | ln => exact execLn_keeps h ..
  | rcp => exact execRcp_keeps h ..
  | rsqrt => exact execRsqrt_keeps h ..
  | sqrt => exact execSqrt_keeps h ..
  | fdiv => exact execFdiv_keeps h ..
  | tanh => exact execTanh_keeps h ..
  | sigmoid => exact execSigmoid_keeps h ..
  | salpha => exact execSalpha_keeps h ..
  | sexp => exact execSexp_keeps h ..
  | sfin => exact execSfin_keeps h ..
  | slse => exact execSlse_keeps h ..
  | iadd => exact execIadd_keeps h ..
  | isub => exact execIsub_keeps h ..
  | imul => exact execImul_keeps h ..
  | and => exact execAnd_keeps h ..
  | or => exact execOr_keeps h ..
  | xor => exact execXor_keeps h ..
  | shl => exact execShl_keeps h ..
  | shr => exact execShr_keeps h ..
  | sra => exact execSra_keeps h ..
  | icmplt => exact execIcmplt_keeps h ..
  | icmpeq => exact execIcmpeq_keeps h ..
  | imin => exact execImin_keeps h ..
  | imax => exact execImax_keeps h ..
  | nrwBf16 => exact execNrwBf16_keeps h ..
  | nrwFp16 => exact execNrwFp16_keeps h ..
  | nrwE4m3 => exact execNrwE4m3_keeps h ..
  | nrwE5m2 => exact execNrwE5m2_keeps h ..
  | nrwInt8 => exact execNrwInt8_keeps h ..
  | nrwInt32 => exact execNrwInt32_keeps h ..
  | cvtI2f => exact execCvtI2f_keeps h ..
  | mxeE4m3 => exact execMxeE4m3_keeps h ..
  | mxeE5m2 => exact execMxeE5m2_keeps h ..
  | mxeE3m2 => exact execMxeE3m2_keeps h ..
  | mxeE2m3 => exact execMxeE2m3_keeps h ..
  | mxeE2m1 => exact execMxeE2m1_keeps h ..
  | gse => exact execGse_keeps h ..
  | widBf16 => exact execWidBf16_keeps h ..
  | widFp16 => exact execWidFp16_keeps h ..
  | widE4m3 => exact execWidE4m3_keeps h ..
  | widE5m2 => exact execWidE5m2_keeps h ..
  | widInt8 => exact execWidInt8_keeps h ..
  | widMx => exact execWidMx_keeps h ..
  | rand => exact execRand_keeps h ..
  | vld => exact execVld_keeps h ..
  | vst => exact execVst_keeps h ..
  | gather => exact execGather_keeps h ..
  | msend => exact execMsend_keeps h ..
  | bset => exact execBset_keeps h ..
  | bld => exact execBld_keeps h ..
  | hrd => exact execHrd_keeps h ..
  | hwr => exact execHwr_keeps h ..
  | setdc => exact execSetdc_keeps h ..
  | stream => exact execStream_keeps h ..
  | draw => exact execDraw_keeps h ..
  | lmask => exact execLmask_keeps h ..
  | loop => exact execLoop_keeps h ..
  | setc => exact execSetc_keeps h ..
  | pset => exact execPset_keeps h ..
  | waits => exact execWaits_keeps h ..
  | phase => exact execPhase_keeps h ..
  | delay => exact execDelay_keeps h ..
  | hrdReturn => exact execHrdReturn_keeps h ..
  | flitArrival => exact execFlitArrival_keeps h ..
  | boltWriteBack => exact execBoltWriteBack_keeps h ..
  | doorbellPoll => exact execDoorbellPoll_keeps h
  | descriptorNop => exact execDescriptorNop_keeps h ..
  | loadPattern => exact execLoadPattern_keeps h ..
  | patternLoaded => exact execPatternLoaded_keeps h ..
  | arm => exact execArm_keeps h ..
  | voteMark => exact execVoteMark_keeps h ..
  | disarm => exact execDisarm_keeps h ..
  | unload => exact execUnload_keeps h ..
  | disarmEffect => exact execDisarmEffect_keeps h
  | copyIn => exact execCopyIn_keeps h ..
  | copyOut => exact execCopyOut_keeps h ..
  | copyDone => exact execCopyDone_keeps h ..
  | loadBundle => exact execLoadBundle_keeps h ..
  | bundleDone => exact execBundleDone_keeps h ..
  | ckptShard => exact execCkptShard_keeps h ..
  | captureEnd => exact execCaptureEnd_keeps h ..
  | shardDrained => exact execShardDrained_keeps h ..
  | restoreShard => exact execRestoreShard_keeps h ..
  | restoreDone => exact execRestoreDone_keeps h ..
  | fence => exact execFence_keeps h ..
  | begin => exact execBegin_keeps h ..
  | beginApply => exact execBeginApply_keeps h ..
  | rebuild => exact execRebuild_keeps h ..
  | seqAdmit => exact execSeqAdmit_keeps h ..
  | seqRelease => exact execSeqRelease_keeps h ..
  | voteForm => exact execVoteForm_keeps h ..
  | vote => exact execVote_keeps h ..
  | verdictDecision => exact execVerdictDecision_keeps h ..
  | verdict port m => exact execVerdict_keeps h port m
  | verdictMissing => exact execVerdictMissing_keeps h ..
  | commitStitch => exact execCommitStitch_keeps h ..
  | inboxRecord => exact execInboxRecord_keeps h ..
  | mirrorRecord => exact execMirrorRecord_keeps h ..
  | normRecord => exact execNormRecord_keeps h ..
  | normPartial => exact execNormPartial_keeps h ..
  | refillBlock => exact execRefillBlock_keeps h ..
  | refillState => exact execRefillState_keeps h ..
  | prsTblLoad => exact execPrsTblLoad_keeps h ..
  | presserImageChecked => exact execPresserImageChecked_keeps h ..
  | prsBind => exact execPrsBind_keeps h ..
  | prsReserveWrite => exact execPrsReserveWrite_keeps h ..
  | prsMirrorWrite => exact execPrsMirrorWrite_keeps h ..
  | presserLedgerRebuild => exact execPresserLedgerRebuild_keeps h
  | prsStepWrite => exact execPrsStepWrite_keeps h ..
  | frameSend => exact execFrameSend_keeps h ..
  | frameReceive => exact execFrameReceive_keeps h ..
  | packetTake => exact execPacketTake_keeps h ..
  | packetReceive => exact execPacketReceive_keeps h ..
  | deadlineExpiry => exact execDeadlineExpiry_keeps h ..
  | portLost => exact execPortLost_keeps h ..
  | portFailed => exact execPortFailed_keeps h ..
  | trainingDone => exact execTrainingDone_keeps h ..
  | fullEqRetry => exact execFullEqRetry_keeps h ..
  | serWindow => exact execSerWindow_keeps h ..
  | portLedgerRebuild => exact execPortLedgerRebuild_keeps h
  | retune => exact execRetune_keeps h ..
  | fullEq => exact execFullEq_keeps h ..
  | loopbackSelect => exact execLoopbackSelect_keeps h ..
  | portEn => exact execPortEn_keeps h ..
  | seaRtDataAccess => exact execSeaRtDataAccess_keeps h ..
  | abort => exact execAbort_keeps h ..
  | abortSend => exact execAbortSend_keeps h ..
  | abortKeyExpiry => exact execAbortKeyExpiry_keeps h
  | abortedEnd => exact execAbortedEnd_keeps h ..
  | colCreditWrite => exact execColCreditWrite_keeps h ..
  | colSeqWrite => exact execColSeqWrite_keeps h ..
  | peakClr => exact execPeakClr_keeps h ..
  | resultRead => exact execResultRead_keeps h
  | servingApply => exact execServingApply_keeps h
  | listWrite => exact execListWrite_keeps h
  | listBuild => exact execListBuild_keeps h
  | seqTimeout => exact execSeqTimeout_keeps h ..
  | seqCancel => exact execSeqCancel_keeps h ..
  | slotFree => exact execSlotFree_keeps h ..
  | swapOutDone => exact execSwapOutDone_keeps h ..
  | swapInDone => exact execSwapInDone_keeps h ..
  | admissionBacklog => exact execAdmissionBacklog_keeps h ..
  | srvEnable => exact execSrvEnable_keeps h ..
  | srvDisable => exact execSrvDisable_keeps h ..
  | srvRtWrite => exact execSrvRtWrite_keeps h ..
  | bltDefine => exact execBltDefine_keeps h ..
  | bltRelease => exact execBltRelease_keeps h ..
  | regionLoaded => exact execRegionLoaded_keeps h ..
  | regionWrittenBack => exact execRegionWrittenBack_keeps h ..
  | boltScrubLap => exact execBoltScrubLap_keeps h ..
  | scrubStarvation => exact execScrubStarvation_keeps h ..
  | hbtDefine => exact execHbtDefine_keeps h ..
  | hbtRelease => exact execHbtRelease_keeps h ..
  | zeroingDone => exact execZeroingDone_keeps h ..
  | hbmQueueArrival => exact execHbmQueueArrival_keeps h ..
  | wcDrain => exact execWcDrain_keeps h ..
  | refreshWindow => exact execRefreshWindow_keeps h
  | calibrationWindow => exact execCalibrationWindow_keeps h
  | hbmScrubLap => exact execHbmScrubLap_keeps h ..
  | scrubFloorWrite => exact execScrubFloorWrite_keeps h ..
  | hbmTempRead => exact execHbmTempRead_keeps h ..
  | hbmTempMaxClr => exact execHbmTempMaxClr_keeps h ..
  | bar2Access => exact execBar2Access_keeps h ..
  | bar2Timeout => exact execBar2Timeout_keeps h
  | bar0AccessError offset size write => exact execBar0AccessError_keeps h offset size write
  | pairing => exact execPairing_keeps h ..
  | liningDisable => exact execLiningDisable_keeps h ..
  | pairingResult => exact execPairingResult_keeps h ..
  | isolate => exact execIsolate_keeps h
  | release => exact execRelease_keeps h
  | leave => exact execLeave_keeps h
  | create => exact execCreate_keeps h ..
  | teardown => exact execTeardown_keeps h ..
  | teardownBoundary => exact execTeardownBoundary_keeps h ..
  | teardownDone => exact execTeardownDone_keeps h ..
  | ctxSwitch => exact execCtxSwitch_keeps h ..
  | switchBegin => exact execSwitchBegin_keeps h
  | switchDone => exact execSwitchDone_keeps h
  | ctxSeedWrite => exact execCtxSeedWrite_keeps h ..
  | ctxShareWrite => exact execCtxShareWrite_keeps h ..
  | ringEnable => exact execRingEnable_keeps h ..
  | ringDisable => exact execRingDisable_keeps h ..
  | evqEnable => exact execEvqEnable_keeps h ..
  | heartbeatSample => exact execHeartbeatSample_keeps h ..
  | resetHoldEnd => exact execResetHoldEnd_keeps h
  | deviceReset => exact execDeviceReset_keeps h ..
  | deviceResetDone => exact execDeviceResetDone_keeps h ..
  | unitReset => exact execUnitReset_keeps h ..
  | unitResetDone => exact execUnitResetDone_keeps h ..
  | fltViolClr => exact execFltViolClr_keeps h ..
  | powerDown => exact execPowerDown_keeps h ..
  | bandDomainOff => exact execBandDomainOff_keeps h ..
  | powerUp => exact execPowerUp_keeps h ..
  | bandOn => exact execBandOn_keeps h ..
  | dropsClr => exact execDropsClr_keeps h ..
  | powerOn => exact execPowerOn_keeps h
  | powerOnDone => exact execPowerOnDone_keeps h ..
  | inputLoss => exact execInputLoss_keeps h ..
  | inputReturn => exact execInputReturn_keeps h
  | perst => exact execPerst_keeps h ..
  | hotReset => exact execHotReset_keeps h ..
  | portSReset => exact execPortSReset_keeps h
  | pcieLoopback => exact execPcieLoopback_keeps h ..
  | panelThermal => exact execPanelThermal_keeps h ..
  | supply => exact execSupply_keeps h ..
  | clockLost => exact execClockLost_keeps h ..
  | panelSensorRead => exact execPanelSensorRead_keeps h ..
  | thimbleRestart => exact execThimbleRestart_keeps h
  | pldmHeartbeat => exact execPldmHeartbeat_keeps h
  | storeCommitDone => exact execStoreCommitDone_keeps h
  | trialTimeout => exact execTrialTimeout_keeps h
  | logRead => exact execLogRead_keeps h ..
  | clearCritical => exact execClearCritical_keeps h ..
  | sensorSnapshot => exact execSensorSnapshot_keeps h ..
  | pubkeyAdd => exact execPubkeyAdd_keeps h ..
  | pubkeyRemove => exact execPubkeyRemove_keeps h ..
  | keyRemovalDone => exact execKeyRemovalDone_keeps h ..
  | pubkeyList => exact execPubkeyList_keeps h ..
  | fuseAdd => exact execFuseAdd_keeps h ..
  | fuseRead => exact execFuseRead_keeps h ..
  | fuseClear => exact execFuseClear_keeps h ..
  | identity => exact execIdentity_keeps h ..
  | sensorMaxClr => exact execSensorMaxClr_keeps h ..
  | oemDeviceReset => exact execOemDeviceReset_keeps h ..
  | certSubmit => exact execCertSubmit_keeps h ..
  | oemLogRead => exact execOemLogRead_keeps h ..
  | oemPubkey => exact execOemPubkey_keeps h ..
  | quorumWrite => exact execQuorumWrite_keeps h ..
  | oemFuse => exact execOemFuse_keeps h ..
  | domainState => exact execDomainState_keeps h ..
  | mctpControl => exact execMctpControl_keeps h ..
  | getTid => exact execGetTid_keeps h ..
  | getPldmVersion => exact execGetPldmVersion_keeps h ..
  | getPldmTypes => exact execGetPldmTypes_keeps h ..
  | getPldmCommands => exact execGetPldmCommands_keeps h ..
  | sensorReading => exact execSensorReading_keeps h ..
  | pdrRepository => exact execPdrRepository_keeps h ..
  | setEventReceiver => exact execSetEventReceiver_keeps h ..
  | fruRecord => exact execFruRecord_keeps h ..
  | requestUpdate => exact execRequestUpdate_keeps h ..
  | transferComplete => exact execTransferComplete_keeps h ..
  | verifyComplete => exact execVerifyComplete_keeps h
  | activateFirmware => exact execActivateFirmware_keeps h ..
  | queryDeviceIdentifiers => exact execQueryDeviceIdentifiers_keeps h ..
  | getFirmwareParameters => exact execGetFirmwareParameters_keeps h ..
  | getVersion => exact execGetVersion_keeps h ..
  | getCapabilities => exact execGetCapabilities_keeps h ..
  | negotiateAlgorithms => exact execNegotiateAlgorithms_keeps h ..
  | getDigests => exact execGetDigests_keeps h ..
  | getCertificate => exact execGetCertificate_keeps h ..
  | challenge => exact execChallenge_keeps h ..
  | getMeasurements => exact execGetMeasurements_keeps h ..
  | keyExchange => exact execKeyExchange_keeps h ..
  | pskExchange => exact execPskExchange_keeps h ..
  | idcode => exact execIdcode_keeps h
  | samplePreload => exact execSamplePreload_keeps h ..
  | extest => exact execExtest_keeps h
  | highz => exact execHighz_keeps h
  | clamp => exact execClamp_keeps h
  | extestPulse => exact execExtestPulse_keeps h
  | extestTrain => exact execExtestTrain_keeps h
  | hbmWrapper => exact execHbmWrapper_keeps h ..
  | privateInstruction => exact execPrivateInstruction_keeps h ..
  | bypass code => exact execBypass_keeps h code
  | tstStart => exact execTstStart_keeps h ..
  | tstStop => exact execTstStop_keeps h ..
  | testDone => exact execTestDone_keeps h ..
  | registerWrite => exact execRegisterWrite_keeps h ..
  | thimbleRestartDone => exact execThimbleRestartDone_keeps h
  | clockReturn => exact execClockReturn_keeps h ..
  | farLoopbackRequest => exact execFarLoopbackRequest_keeps h ..
  | rebuildDone => exact execRebuildDone_keeps h ..
  | registerRead => exact execRegisterRead_keeps h ..
  | pcieLoopbackExit => exact execPcieLoopbackExit_keeps h ..

/-- A step keeps what no command touches of the state whose queue has lost its front. -/
theorem step_keeps {s t : State} (h : step s = .next t) : Keeps (s.setPending s.pending.tail) t := by
  unfold step at h
  split at h
  next c rest hp =>
    rw [hp]
    exact (exec_keeps (Keeps.refl _) c).next t h
  next hp =>
    have hs : s.setPending s.pending.tail = s := by
      rw [hp, List.tail_nil, ← hp]
      rfl
    cases h
    rw [hs]
    exact tick_keeps (Keeps.refl s)

/-- Settles O59: a step is its command, or a tick, on the state without the front command, and each keeps the rest. -/
theorem everyStepKeepsQueueStrapsAndOutput : Obligations.EveryStepKeepsQueueStrapsAndOutput := by
  intro s t h
  obtain ⟨hqueue, hstraps, hout, _⟩ := step_keeps h
  exact ⟨hqueue, hstraps, hout⟩

/-! The requests of the BMC (R398, R401 to R405). -/

section
variable {s : State} (t : Transport) (inRecovery : Bool) (code : Nat) (parts : List (List Byte))
  (f : State → Nat × List Byte × State)

/-- Thimble answers nothing while it restarts or is halted. -/
theorem answer_stopped (hrun : thimbleRuns s = false) : answer t inRecovery code parts s = s := by
  simp [answer, hrun]

/-- In recovery a request outside MCTP control and PLDM types 0 and 5 is an error (R398). -/
theorem answer_recovering (hrun : thimbleRuns s = true) (hrec : s.thm.recovery = true) :
    answer t false code parts s = s.emit (.mctpError t) := by
  simp [answer, hrun, hrec]

/-- A request of MCTP control or of PLDM type 0 or 5 is answered in recovery too (R398). -/
theorem answer_accepted (hrun : thimbleRuns s = true) :
    answer t true code parts s = s.emit (.mctp t (Config.encodeResponse code parts)) := by
  simp [answer, hrun]

/-- A Thimble that runs a valid image answers every request. -/
theorem answer_serving (hrun : thimbleRuns s = true) (hrec : s.thm.recovery = false) :
    answer t inRecovery code parts s = s.emit (.mctp t (Config.encodeResponse code parts)) := by
  simp [answer, hrun, hrec]

/-- An OEM command reports 0x01 and changes nothing while Thimble does not run (Table 15-17). -/
theorem oemAnswer_stopped (hrun : thimbleRuns s = false) :
    oemAnswer t code f s = s.emit (.mctp t (Config.encodeResponse code [[0x01]])) := by
  simp [oemAnswer, hrun]

theorem oemAnswer_recovering (hrun : thimbleRuns s = true) (hrec : s.thm.recovery = true) :
    oemAnswer t code f s = s.emit (.mctpError t) := by
  simp [oemAnswer, hrun, hrec]

/-- An OEM command of a Thimble that runs a valid image has its effect and reports its result and its data. -/
theorem oemAnswer_serving (hrun : thimbleRuns s = true) (hrec : s.thm.recovery = false) {r : Nat} {bs : List Byte} {u : State}
    (hf : f s = (r, bs, u)) :
    oemAnswer t code f s = u.emit (.mctp t (Config.encodeResponse code [[BitVec.ofNat 8 r], bs])) := by
  simp [oemAnswer, hrun, hrec, hf]

end

/-- The commands that run as OEM commands. -/
def OemRequest (t : Transport) (c : Instr) : Prop := ∃ code f, ∀ s, exec c s = .next (oemAnswer t code f s)

/-- In this state the command does nothing but answer, as one accepted in recovery or not. -/
def OnlyAnswers (t : Transport) (inRecovery : Bool) (s : State) (c : Instr) : Prop :=
  ∃ code parts, exec c s = .next (answer t inRecovery code parts s)

theorem OnlyAnswers.stopped {t : Transport} {inRecovery : Bool} {s : State} {c : Instr} (h : OnlyAnswers t inRecovery s c)
    (hrun : thimbleRuns s = false) : exec c s = .next s := by
  obtain ⟨code, parts, h⟩ := h
  rw [h, answer_stopped t _ _ _ hrun]

theorem OnlyAnswers.recovering {t : Transport} {s : State} {c : Instr} (h : OnlyAnswers t false s c)
    (hrun : thimbleRuns s = true) (hrec : s.thm.recovery = true) : exec c s = .next (s.emit (.mctpError t)) := by
  obtain ⟨code, parts, h⟩ := h
  rw [h, answer_recovering t _ _ hrun hrec]

theorem OemRequest.stopped {t : Transport} {c : Instr} (h : OemRequest t c) {s : State} (hrun : thimbleRuns s = false) :
    ∃ code, exec c s = .next (s.emit (.mctp t (Config.encodeResponse code [[0x01]]))) := by
  obtain ⟨code, f, h⟩ := h
  exact ⟨code, by rw [h, oemAnswer_stopped t _ _ hrun]⟩

theorem OemRequest.recovering {t : Transport} {c : Instr} (h : OemRequest t c) {s : State} (hrun : thimbleRuns s = true)
    (hrec : s.thm.recovery = true) : exec c s = .next (s.emit (.mctpError t)) := by
  obtain ⟨code, f, h⟩ := h
  rw [h, oemAnswer_recovering t _ _ hrun hrec]

/-- The commands of Table 15-7 run as OEM commands. -/
theorem oemRequest_of_mem {t : Transport} {seq : BitVec 32} {op : PubkeyOp} {fuse : FuseOp} {writes : List QuorumWrite} :
    ∀ c ∈ [Instr.oemDeviceReset t, .oemLogRead t seq, .oemPubkey t op, .oemFuse t fuse, .quorumWrite t writes, .domainState t],
      OemRequest t c := by
  simp only [List.forall_mem_cons, List.not_mem_nil, false_imp_iff, implies_true, and_true]
  exact ⟨⟨_, _, fun _ => rfl⟩, ⟨_, _, fun _ => rfl⟩, ⟨_, _, fun _ => rfl⟩, ⟨_, _, fun _ => rfl⟩, ⟨_, _, fun _ => rfl⟩,
    ⟨_, _, fun _ => rfl⟩⟩

section
variable {s : State} {t : Transport}

/-- MCTP control sets no endpoint ID and answers nothing while Thimble does not run. -/
theorem execMctpControl_stopped (hrun : thimbleRuns s = false) (command eid : Byte) :
    execMctpControl t command eid s = .next s := by
  simp [execMctpControl, hrun]

/-- The requests that are accepted in recovery change nothing while Thimble does not run. -/
theorem basic_onlyAnswers (hrun : thimbleRuns s = false) {b : Byte} :
    ∀ c ∈ [Instr.mctpControl t b b, .getTid t, .getPldmVersion t b, .getPldmTypes t, .getPldmCommands t b,
      .queryDeviceIdentifiers t, .getFirmwareParameters t], OnlyAnswers t true s c := by
  simp only [List.forall_mem_cons, List.not_mem_nil, false_imp_iff, implies_true, and_true]
  have hcontrol : OnlyAnswers t true s (.mctpControl t b b) :=
    ⟨0, [], (execMctpControl_stopped hrun b b).trans (congrArg _ (answer_stopped t _ _ _ hrun).symm)⟩
  exact ⟨hcontrol, ⟨_, _, rfl⟩, ⟨_, _, rfl⟩, ⟨_, _, rfl⟩, ⟨_, _, rfl⟩, ⟨_, _, rfl⟩, ⟨_, _, rfl⟩⟩

/-- SET_EVENT_RECEIVER sets no receiver unless Thimble runs a valid image. -/
theorem execSetEventReceiver_refused (h : thimbleRuns s = false ∨ s.thm.recovery = true) (b : Byte) (on : Bool) :
    execSetEventReceiver t b on s = .next (answer t false 0x0204 [] s) := by
  unfold execSetEventReceiver
  rw [if_pos (h.imp_left fun hrun => by simp [hrun])]

theorem execSetEventReceiver_serving (hrun : thimbleRuns s = true) (hrec : s.thm.recovery = false) (b : Byte) (on : Bool) :
    execSetEventReceiver t b on s = .next ((s.onThm fun x => { x with receiver := if on then some b else none }).emit
      (.mctp t (Config.encodeResponse 0x0204 []))) := by
  rw [execSetEventReceiver, if_neg (by simp [hrun, hrec])]
  exact congrArg _ (answer_serving t _ _ _ hrun hrec)

/-- NEGOTIATE_ALGORITHMS settles nothing unless Thimble runs a valid image. -/
theorem execNegotiateAlgorithms_refused (h : thimbleRuns s = false ∨ s.thm.recovery = true) :
    execNegotiateAlgorithms t s = .next (answer t false 0x84E3 [] s) := by
  have hoff : (thimbleRuns s && !s.thm.recovery) = false := by rcases h with h | h <;> simp [h]
  simp [execNegotiateAlgorithms, hoff, State.onThm]

theorem execNegotiateAlgorithms_serving (hrun : thimbleRuns s = true) (hrec : s.thm.recovery = false) :
    execNegotiateAlgorithms t s = .next ((s.onThm fun x => { x with spdmNegotiated := true }).emit
      (.mctp t (Config.encodeResponse 0x84E3 []))) := by
  have hon : (thimbleRuns s && !s.thm.recovery) = true := by simp [hrun, hrec]
  simp only [execNegotiateAlgorithms, hon, Bool.or_true]
  exact congrArg _ (answer_serving t _ _ _ hrun hrec)

/-- The requests that are not accepted in recovery change nothing unless Thimble runs a valid image. -/
theorem other_onlyAnswers (h : thimbleRuns s = false ∨ s.thm.recovery = true) {id off len : Nat} {b : Byte} {on : Bool}
    {nonce : BitVec 256} :
    ∀ c ∈ [Instr.sensorReading t id, .pdrRepository t, .setEventReceiver t b on, .fruRecord t, .getVersion t,
      .getCapabilities t, .negotiateAlgorithms t, .getDigests t, .getCertificate t b off len, .challenge t b nonce,
      .getMeasurements t id nonce, .keyExchange t, .pskExchange t], OnlyAnswers t false s c := by
  simp only [List.forall_mem_cons, List.not_mem_nil, false_imp_iff, implies_true, and_true]
  exact ⟨⟨_, _, rfl⟩, ⟨_, _, rfl⟩, ⟨_, _, execSetEventReceiver_refused h b on⟩, ⟨_, _, rfl⟩, ⟨_, _, rfl⟩, ⟨_, _, rfl⟩,
    ⟨_, _, execNegotiateAlgorithms_refused h⟩, ⟨_, _, rfl⟩, ⟨_, _, rfl⟩, ⟨_, _, rfl⟩, ⟨_, _, rfl⟩, ⟨_, _, rfl⟩, ⟨_, _, rfl⟩⟩

/-- Set Endpoint ID gives the endpoint its ID on the transport it came by (R401). -/
theorem execMctpControl_set (hrun : thimbleRuns s = true) (e : Byte) :
    execMctpControl .i3c 0x01 e s = .next ((s.onThm fun x => { x with eidI3c := e }).emit
      (.mctp .i3c (Config.encodeResponse 0 [[0x01], [e, s.thm.eidPcie]]))) ∧
    execMctpControl .pcie 0x01 e s = .next ((s.onThm fun x => { x with eidPcie := e }).emit
      (.mctp .pcie (Config.encodeResponse 0 [[0x01], [s.thm.eidI3c, e]]))) := by
  refine ⟨?_, ?_⟩
  · rw [execMctpControl, if_neg (by simp [hrun])]
    exact congrArg _ (answer_accepted .i3c _ _ hrun)
  · rw [execMctpControl, if_neg (by simp [hrun])]
    exact congrArg _ (answer_accepted .pcie _ _ hrun)

theorem execMctpControl_other (hrun : thimbleRuns s = true) {b : Byte} (hb : b ≠ 0x01) (e : Byte) :
    execMctpControl t b e s = .next (s.emit (.mctp t (Config.encodeResponse 0 [[b], [s.thm.eidI3c, s.thm.eidPcie]]))) := by
  unfold execMctpControl
  rw [if_neg (by simp [hrun]), if_pos hb]
  exact congrArg _ (answer_accepted t _ _ hrun)

/-- OEM PUBKEY remove of an empty slot, and of a slot that holds a key (R414). -/
theorem oemPubkeyRun_remove (i : Fin 16) :
    (s.thm.pubKeys[i] = none → oemPubkeyRun (.remove i) s = (6, [], s)) ∧
    ∀ k, s.thm.pubKeys[i] = some k → oemPubkeyRun (.remove i) s =
      (0, [], if bundleUses s (keyId k) then s.onThm fun x => { x with removal := some i } else removeKey i.val s) := by
  have hslot : vAt s.thm.pubKeys i.val none = s.thm.pubKeys[i] := vAt_of_lt _ _ i.isLt
  refine ⟨fun h => ?_, fun k h => ?_⟩
  · simp only [oemPubkeyRun, hslot, h]
  · simp only [oemPubkeyRun, hslot, h]
    split <;> rfl

/-- OEM FUSE refuses a map that does not exist (R413). -/
theorem oemFuseRun_absent {m : Nat} (hm : 3 ≤ m) (e : W64) :
    oemFuseRun (.read m) s = (6, [], s) ∧ oemFuseRun (.add m e) s = (6, [], s) ∧ oemFuseRun (.clear m) s = (6, [], s) := by
  simp [oemFuseRun, hm]

theorem oemFuseRun_present {m : Nat} (hm : m < 3) (e : W64) :
    oemFuseRun (.read m) s = (0, fuseBytes s m, s) ∧ oemFuseRun (.add m e) s = ((addFuse m e s).1, [], (addFuse m e s).2) ∧
      oemFuseRun (.clear m) s = (0, [], clearFuses m s) := by
  simp [oemFuseRun, Nat.not_le.2 hm]

/-- The first write of LIN_FABRIC settles the fabric identity, which is logged and goes to the flash (R325, R390). -/
theorem writeQuorumAt_fabric {w : QuorumWrite} (hoff : w.offset = 8) (hval : w.value ≠ 0) (hfree : s.lin.fabricId = 0) :
    writeQuorumAt s w = quorumChanged 8 w.value.toNat (s.onLin fun l => { l with fabricId := w.value }) := by
  have hnew : w.value.toNat ≠ 0 := fun h => hval (BitVec.eq_of_toNat_eq h)
  have honce : writeOnce s.lin.fabricId.toNat w.value.toNat = (some w.value.toNat, false) := by
    simp [writeOnce, hfree, hnew]
  simp [writeQuorumAt, hoff, writeFabric, honce]

/-- A sensor's ID is its index in Table 15-8 and one (R406). -/
theorem execSensorReading_known (i : Fin 307) : execSensorReading t (i.val + 1) s =
    .next (answer t false 0x0211 [[0], leBytes 4 (Tab.getD s.thm.sensors i.val 0).toNat] s) := by
  have hi : i.val + 1 ≤ 307 := i.isLt
  simp [execSensorReading, hi]

theorem execSensorReading_unknown {id : Nat} (hid : id = 0 ∨ 307 < id) :
    execSensorReading t id s = .next (answer t false 0x0211 [[1]] s) := by
  have hout : ¬ (1 ≤ id ∧ id ≤ 307) := by omega
  simp [execSensorReading, hout]

end

/-- Settles O53: a request is answered through `answer` or `oemAnswer`, which refuse it unless Thimble runs and, outside MCTP
control and PLDM types 0 and 5, unless it is out of recovery; where they take it, what it sets is the command's own. -/
theorem managementRequests : Obligations.ManagementRequests := by
  intro s t seq op fuse writes b id on off len nonce replies oem basic other counts
  refine ⟨fun hrun => ⟨fun c hc => (oemRequest_of_mem c hc).stopped hrun, fun c hc => ?_⟩,
    fun hrun hrec c hc => ?_, fun hrun => ?_, fun hrun hrec => ?_⟩
  · rcases List.mem_append.1 hc with hc | hc
    · exact (basic_onlyAnswers hrun c hc).stopped hrun
    · exact (other_onlyAnswers (.inl hrun) c hc).stopped hrun
  · rcases List.mem_append.1 hc with hc | hc
    · exact (oemRequest_of_mem c hc).recovering hrun hrec
    · exact (other_onlyAnswers (.inr hrec) c hc).recovering hrun hrec
  · have reply {code : Nat} {parts : List (List Byte)} :=
      congrArg (Host.Outcome.next : State → Out) (answer_accepted t code parts hrun)
    exact ⟨reply, reply, reply, reply, reply, reply, fun e => ⟨(execMctpControl_set hrun e).1, (execMctpControl_set hrun e).2,
      fun hb => execMctpControl_other hrun hb e⟩⟩
  · have reply {code : Nat} {parts : List (List Byte)} :=
      congrArg (Host.Outcome.next : State → Out) (answer_serving t false code parts hrun hrec)
    have oemReply {code : Nat} {f : State → Nat × List Byte × State} {r : Nat} {bs : List Byte} {u : State}
        (hf : f s = (r, bs, u)) := congrArg (Host.Outcome.next : State → Out) (oemAnswer_serving t code f hrun hrec hf)
    have pubkeyRemove (i : Fin 16) := oemPubkeyRun_remove (s := s) i
    refine ⟨oemReply rfl, oemReply rfl, oemReply rfl, fun k => oemReply rfl,
      fun i => ⟨fun hi => oemReply ((pubkeyRemove i).1 hi), fun k hi => oemReply ((pubkeyRemove i).2 k hi)⟩,
      fun m e => ⟨fun hm => ?_, fun hm => ?_⟩, oemReply rfl, fun w => writeQuorumAt_fabric, oemReply rfl,
      fun i => (execSensorReading_known i).trans reply, fun hid => (execSensorReading_unknown hid).trans reply, reply,
      execSetEventReceiver_serving hrun hrec b on, reply, reply, reply, execNegotiateAlgorithms_serving hrun hrec,
      reply, reply, reply, reply, reply, reply⟩
    · obtain ⟨hread, hadd, hclear⟩ := oemFuseRun_absent (s := s) hm e
      exact ⟨oemReply hread, oemReply hadd, oemReply hclear⟩
    · obtain ⟨hread, hadd, hclear⟩ := oemFuseRun_present (s := s) hm e
      exact ⟨oemReply hread, oemReply hadd, oemReply hclear⟩

/-! The accesses of BAR0 (R12, R373, R390). -/

/-- The bits of a mask. -/
theorem getLsbD_mask64 (hi lo i : Nat) : (mask64 hi lo).getLsbD i = (decide (lo ≤ i) && decide (i ≤ hi) && decide (i < 64)) := by
  unfold mask64
  rw [BitVec.getLsbD_ofNat, Nat.testBit_shiftLeft, Nat.testBit_two_pow_sub_one]
  by_cases hlo : lo ≤ i
  · have hhi : i - lo < hi + 1 - lo ↔ i ≤ hi := by omega
    simp [hlo, hhi, Bool.and_comm]
  · simp [hlo]

/-- Where the field that a mask selects is zero, so is every bit of it. -/
theorem getLsbD_of_and_mask {n : Nat} {x : BitVec n} {hi lo : Nat} (h : x &&& (mask64 hi lo).setWidth n = 0)
    {i : Nat} (hlo : lo ≤ i) (hhi : i ≤ hi) (h64 : i < 64) : x.getLsbD i = false := by
  have hbit : (x &&& (mask64 hi lo).setWidth n).getLsbD i = false := by rw [h]; exact BitVec.getLsbD_zero
  by_cases hn : i < n
  · simpa only [BitVec.getLsbD_and, BitVec.getLsbD_setWidth, getLsbD_mask64, hlo, hhi, h64, hn, decide_true, Bool.and_true]
      using hbit
  · exact BitVec.getLsbD_of_ge x i (by omega)

section
variable {s : State} {off : Nat} {wide : Bool} {r : Reg}

/-- A misaligned write, outside a device reset, is a violation of kind 0x02 and nothing else (R373). -/
theorem execRegisterWrite_misaligned (h : TakesWrites s) (ha : aligned off wide = false) (v : W64) :
    execRegisterWrite off wide v s = .next (violate 0 0x02 s) := by
  simp [execRegisterWrite, ha, h.1]

theorem execRegisterRead_misaligned (h : TakesWrites s) (ha : aligned off wide = false) :
    execRegisterRead off wide s = .next ((violate 0 0x02 s).emit (.readData 0)) := by
  simp [execRegisterRead, ha, h.1]

/-- An aligned write reaches its offset outside a device reset and MANAGEMENT_ONLY (R364, R366). -/
theorem execRegisterWrite_aligned (h : TakesWrites s) (ha : aligned off wide = true) (v : W64) :
    execRegisterWrite off wide v s = .next (writeAt off wide v s) := by
  obtain ⟨hreset, hmode⟩ := h
  simp [execRegisterWrite, ha, bar0Write, hreset, hmode]

theorem execRegisterRead_aligned (h : TakesWrites s) (ha : aligned off wide = true) :
    execRegisterRead off wide s = .next (readAt off wide s) := by
  obtain ⟨hreset, hmode⟩ := h
  simp [execRegisterRead, ha, bar0Read, hreset, hmode]

/-- A write of 64 bits where no register stands is a write of an RSV field (R12). -/
theorem execRegisterWrite_absent (h : TakesWrites s) (ha : aligned off true = true) (hr : regAt s off = none) (v : W64) :
    execRegisterWrite off true v s = .next (if v ≠ 0 then violate 0 0x02 s else s) := by
  have hall : v &&& mask64 63 0 = v := BitVec.and_allOnes
  rw [execRegisterWrite_aligned h ha]
  simp [writeAt, hr, checkRsv, hall]

theorem execRegisterWrite_present (h : TakesWrites s) (ha : aligned off wide = true) (hr : regAt s off = some r) (v : W64) :
    execRegisterWrite off wide v s = .next (writeReg r off wide v s) := by
  rw [execRegisterWrite_aligned h ha]
  simp [writeAt, hr]

/-- A read of no register, or of one without a readable field, returns zero and is a violation of kind 0x03 (R12). -/
theorem execRegisterRead_unreadable (h : TakesWrites s) (ha : aligned off wide = true)
    (hr : ∀ r, regAt s off = some r → r.readable = false) :
    execRegisterRead off wide s = .next ((violate 0 0x03 s).emit (.readData 0)) := by
  rw [execRegisterRead_aligned h ha]
  cases hreg : regAt s off with
  | none => simp [readAt, hreg]
  | some r => simp [readAt, hreg, hr r hreg]

/-- A read of a readable register changes nothing, but for SEA_RT_DATA's (R248). -/
theorem execRegisterRead_readable (h : TakesWrites s) (ha : aligned off wide = true) (hr : regAt s off = some r)
    (hread : r.readable = true) (hrt : isRtData off = false) :
    execRegisterRead off wide s = .next (s.emit (.readData (readPart off wide r.value))) := by
  rw [execRegisterRead_aligned h ha]
  simp [readAt, hr, hread, hrt]

/-! The two halves of a register. -/

theorem aligned_whole (h8 : off % 8 = 0) : aligned off true = true := by simp [aligned, h8]

theorem aligned_low (h8 : off % 8 = 0) : aligned off false = true := by
  have h4 : off % 4 = 0 := by omega
  simp [aligned, h4]

theorem aligned_upper (h8 : off % 8 = 0) : aligned (off + 4) false = true := by
  have h4 : (off + 4) % 4 = 0 := by omega
  simp [aligned, h4]

theorem aligned_whole_upper (h8 : off % 8 = 0) : aligned (off + 4) true = false := by
  have h : (off + 4) % 8 ≠ 0 := by omega
  simp [aligned, h]

theorem aligned_within_low (h8 : off % 8 = 0) : aligned (off + 2) false = false := by
  have h : (off + 2) % 4 ≠ 0 := by omega
  simp [aligned, h]

/-- Both halves find the same register. -/
theorem regAt_upper (h8 : off % 8 = 0) : regAt s (off + 4) = regAt s off := by
  have hblock : (off + 4) / 2 ^ 20 = off / 2 ^ 20 := by omega
  have hwithin : (off + 4) % 2 ^ 20 / 8 * 8 = off % 2 ^ 20 / 8 * 8 := by omega
  rw [regAt, regAt, hblock, hwithin]

theorem isRtData_low (h8 : off % 8 = 0) (hrt : off ≠ 0x800020) : isRtData off = false := by
  have hreg : off / 8 * 8 ≠ 0x800020 := by omega
  simp [isRtData, hreg]

theorem isRtData_upper (h8 : off % 8 = 0) (hrt : off ≠ 0x800020) : isRtData (off + 4) = false := by
  have hreg : (off + 4) / 8 * 8 ≠ 0x800020 := by omega
  simp [isRtData, hreg]

theorem readPart_low (h8 : off % 8 = 0) (v : W64) : readPart off false v = v &&& 0xFFFFFFFF := by
  have hmask : mask64 31 0 = 0xFFFFFFFF := rfl
  simp [readPart, h8, hmask]

theorem readPart_upper (h8 : off % 8 = 0) (v : W64) : readPart (off + 4) false v = v >>> 32 := by
  have h : (off + 4) % 8 ≠ 0 := by omega
  simp [readPart, h]

/-! LOCK (R390), of the control registers whose other fields are RWL. -/

/-- LOCK stays once set, a locked field keeps its value, and a write of another value, or of an RSV bit, is one violation. -/
theorem execRegisterWrite_lock (h : TakesWrites s) (ha : aligned off true = true) {w rsv rwl : W64} {set : W64 → State → State}
    (hr : regAt s off = some (lockReg w rsv 0 rwl 1 (bit w 0) set)) (v : W64) :
    execRegisterWrite off true v s = .next (set (((if bit w 0 then w else v) &&& rwl) ||| ((w ||| v) &&& 1))
      (if v &&& rsv ≠ 0 ∨ (bit w 0 = true ∧ (v ^^^ w) &&& rwl ≠ 0) then violate 0 0x02 s else s)) := by
  rw [execRegisterWrite_present h ha hr]
  simp [writeReg, lockReg]

theorem regAt_fltCtrl : regAt s 0xC00000 = some (lockReg s.flt.ctrl (mask64 63 3) 0 6 1 (bit s.flt.ctrl 0)
    fun v s => s.onFlt fun f => { f with ctrl := v }) := rfl

theorem regAt_thmCtrl : regAt s 0xD00000 = some (lockReg s.thm.ctrl (mask64 63 3) 0 6 1 (bit s.thm.ctrl 0)
    fun v s => s.onThm fun t => { t with ctrl := v }) := rfl

theorem regAt_tstCtrl : regAt s 0xE00000 = some (lockReg s.tst.ctrl (mask64 63 2) 0 2 1 (bit s.tst.ctrl 0)
    fun v s => s.onTst fun t => { t with ctrl := v }) := rfl

/-! THM_MBOX_ADDR: bits 63 to 6 are RW, and a write of one half keeps the other (Table 15-15, R373). -/

/-- THM_MBOX_ADDR as a register of the state. -/
def mboxAddrReg (s : State) : Reg :=
  rwReg s.thm.mboxAddr (mask64 5 0) (mask64 63 6) fun v s => s.onThm fun t => { t with mboxAddr := v }

theorem regAt_mboxAddr : regAt s 0xD00018 = some (mboxAddrReg s) := rfl

/-- A write of an address whose RSV bits are zero stores it. -/
theorem mboxAddrReg_write {y : W64} (hy : ∀ i < 6, y.getLsbD i = false) :
    (mboxAddrReg s).write y s = s.onThm fun t => { t with mboxAddr := y } := by
  have hrsv : y &&& mask64 5 0 = 0 := BitVec.eq_of_getLsbD_eq fun i _ => by
    rw [BitVec.getLsbD_and, getLsbD_mask64]
    by_cases h6 : i < 6
    · simp [hy i h6]
    · simp [show ¬ i ≤ 5 by omega]
  have hrw : y &&& mask64 63 6 = y := BitVec.eq_of_getLsbD_eq fun i hi => by
    rw [BitVec.getLsbD_and, getLsbD_mask64]
    by_cases h6 : i < 6
    · rw [hy i h6, Bool.false_and]
    · simp only [show 6 ≤ i by omega, show i ≤ 63 by omega, hi, decide_true, Bool.and_true]
  simp [mboxAddrReg, rwReg, checkRsv, hrsv, hrw]

theorem mboxAddr_mergeLow (x : BitVec 32) (a : W64) :
    (x.setWidth 64 &&& mask64 31 0) ||| (mask64 63 6 &&& a &&& ~~~ mask64 31 0) = a.extractLsb' 32 32 ++ x := by
  refine BitVec.eq_of_getLsbD_eq fun i hi => ?_
  simp only [BitVec.getLsbD_and, BitVec.getLsbD_or, BitVec.getLsbD_not, BitVec.getLsbD_setWidth, getLsbD_mask64,
    BitVec.getLsbD_append, BitVec.getLsbD_extractLsb']
  by_cases hhalf : i < 32
  · grind
  · grind

theorem mboxAddr_mergeUpper (x : BitVec 32) {a : W64} (ha : ∀ i < 6, a.getLsbD i = false) :
    ((x.setWidth 64 &&& mask64 31 0) <<< 32) ||| (mask64 63 6 &&& a &&& mask64 31 0) = x ++ a.extractLsb' 0 32 := by
  refine BitVec.eq_of_getLsbD_eq fun i hi => ?_
  simp only [BitVec.getLsbD_and, BitVec.getLsbD_or, BitVec.getLsbD_shiftLeft, BitVec.getLsbD_setWidth, getLsbD_mask64,
    BitVec.getLsbD_append, BitVec.getLsbD_extractLsb']
  by_cases hhalf : i < 32
  · grind
  · grind

/-- The low bits of a word put together from two halves are those of its low half. -/
theorem getLsbD_append_low (u x : BitVec 32) {i : Nat} (hi : i < 32) : (u ++ x : W64).getLsbD i = x.getLsbD i := by
  rw [BitVec.getLsbD_append, if_pos hi]

/-- A write of the low half of THM_MBOX_ADDR (R373). -/
theorem writeReg_mboxAddr_low {x : BitVec 32} (hx : x &&& 0x3F = 0) :
    writeReg (mboxAddrReg s) 0xD00018 false (x.setWidth 64) s =
      s.onThm fun t => { t with mboxAddr := s.thm.mboxAddr.extractLsb' 32 32 ++ x } := by
  have hzero : ∀ i < 6, (s.thm.mboxAddr.extractLsb' 32 32 ++ x : W64).getLsbD i = false := fun i h6 => by
    rw [getLsbD_append_low _ _ (by omega)]
    exact getLsbD_of_and_mask (hi := 5) (lo := 0) hx (by omega) (by omega) (by omega)
  rw [← mboxAddrReg_write hzero, ← mboxAddr_mergeLow]
  rfl

/-- A write of the upper half of THM_MBOX_ADDR (R373). -/
theorem writeReg_mboxAddr_upper (x : BitVec 32) (ha : s.thm.mboxAddr &&& 0x3F = 0) :
    writeReg (mboxAddrReg s) 0xD0001C false (x.setWidth 64) s =
      s.onThm fun t => { t with mboxAddr := x ++ s.thm.mboxAddr.extractLsb' 0 32 } := by
  have hlow : ∀ i < 6, s.thm.mboxAddr.getLsbD i = false := fun i h6 =>
    getLsbD_of_and_mask (hi := 5) (lo := 0) ha (by omega) (by omega) (by omega)
  have hzero : ∀ i < 6, (x ++ s.thm.mboxAddr.extractLsb' 0 32 : W64).getLsbD i = false := fun i h6 => by
    rw [getLsbD_append_low _ _ (by omega), BitVec.getLsbD_extractLsb', Nat.zero_add, hlow i h6, Bool.and_false]
  rw [← mboxAddrReg_write hzero, ← mboxAddr_mergeUpper x hlow]
  rfl

end

/-- Settles O55: an aligned access reaches the register of its offset, which takes a write by its form: a lock register, or RW
bits and RSV bits. -/
theorem registerAccesses : Obligations.RegisterAccesses := by
  intro s v htakes
  refine ⟨fun off h8 => ⟨fun hnone => ?_, fun r hr => ?_, ?_, ?_, ?_⟩, ?_⟩
  · have habsent : ∀ r, regAt s off = some r → r.readable = false := by simp [hnone]
    exact ⟨execRegisterWrite_absent htakes (aligned_whole h8) hnone 0,
      fun hv => (execRegisterWrite_absent htakes (aligned_whole h8) hnone v).trans (by rw [if_pos hv]),
      execRegisterRead_unreadable htakes (aligned_whole h8) habsent,
      execRegisterRead_unreadable htakes (aligned_upper h8) (regAt_upper h8 ▸ habsent)⟩
  · refine ⟨execRegisterWrite_present htakes (aligned_whole h8) hr v, fun hread hrt => ⟨?_, ?_, ?_⟩, fun hread => ?_⟩
    · exact execRegisterRead_readable htakes (aligned_whole h8) hr hread (isRtData_low h8 hrt)
    · rw [← readPart_low h8]
      exact execRegisterRead_readable htakes (aligned_low h8) hr hread (isRtData_low h8 hrt)
    · rw [← readPart_upper h8]
      exact execRegisterRead_readable htakes (aligned_upper h8) ((regAt_upper h8).trans hr) hread (isRtData_upper h8 hrt)
    · exact execRegisterRead_unreadable htakes (aligned_whole h8) (by simp [hr, hread])
  · exact execRegisterWrite_misaligned htakes (aligned_whole_upper h8) v
  · exact execRegisterWrite_misaligned htakes (aligned_within_low h8) v
  · exact execRegisterRead_misaligned htakes (aligned_whole_upper h8)
  · refine ⟨?_, ?_, ?_, fun x hx ha => ⟨?_, ?_⟩⟩
    · exact execRegisterWrite_lock htakes rfl regAt_fltCtrl v
    · exact execRegisterWrite_lock htakes rfl regAt_thmCtrl v
    · exact execRegisterWrite_lock htakes rfl regAt_tstCtrl v
    · rw [← writeReg_mboxAddr_low hx]
      exact execRegisterWrite_present htakes (aligned_low rfl) regAt_mboxAddr _
    · rw [← writeReg_mboxAddr_upper x ha]
      exact execRegisterWrite_present htakes (aligned_upper rfl) ((regAt_upper rfl).trans regAt_mboxAddr) _

end Sys2Proof.Machine

/-! PROOFS, family 02_numerics: the lane commands, narrowing and its edges, GS16 blocks, and the accumulator. -/

namespace Sys2Proof.Machine

/-! What a slot that changes its core only answers. -/

section
variable {c : Instr} {s : State} {i : Issue} {f g : Core → Core}

/-- A slot that leaves the state with its core changed by f changes it as any function that agrees with f on the core it finds. -/
theorem changesCore_of_onIssue {slot : Nat → Nat → State → State} (h : exec c s = .next (onIssue c i slot s))
    (hslot : slot (runCtx (s.core (coreNum i.core))) (coreNum i.core) (settled s i) = (settled s i).onCore (coreNum i.core) f)
    (hfg : f (coreAt s i) = g (coreAt s i)) : ChangesCore c s i g := by
  unfold ChangesCore
  rw [← onCore_congr hfg, ← hslot]
  exact slotAnswers h

theorem changesCore_of_onIssueCore (h : exec c s = .next (onIssueCore c i f s)) (hfg : f (coreAt s i) = g (coreAt s i)) :
    ChangesCore c s i g :=
  changesCore_of_onIssue h rfl hfg

end

/-! Lists over the lanes. -/

theorem getD_map_range {α : Type} (n : Nat) (f : Nat → α) (d : α) {j : Nat} (h : j < n) :
    ((List.range n).map f).getD j d = f j := by
  simp [List.getD, h]

/-- A result put off to VD under the slot's mask. -/
theorem writeLanes_vd (lat : Nat) (i : Issue) (v : VOp) (l : List W32) (k : Core) :
    writeLanes lat i v v.vd.val l k = later (i.cycle + lat) (.vreg v.vd (maskOf k v.mask.val) l) k := by
  simp [writeLanes]

section
variable {c : Instr} {s : State} {i : Issue} {v : VOp} {lat : Nat}

/-- A slot whose result for VD is a list of lanes. -/
theorem laneResult_of_writeLanes {out : Core → List W32} {lane : Nat → W32}
    (h : exec c s = .next (onIssueCore c i (fun k => writeLanes lat i v v.vd.val (out k) k) s))
    (hout : out (coreAt s i) = (List.range 32).map lane) : LaneResult c s i v lat lane :=
  changesCore_of_onIssueCore h (by rw [writeLanes_vd, hout])

/-- A command that computes each lane by itself, by a function that the statement writes as `lane`. -/
theorem laneResult_of_lanes (f : W32 → W32 → W32 → W32) {lane : Nat → W32} (h : exec c s = execLanes c lat i v f s)
    (hlane : ∀ j, f (laneOf (coreAt s i) v.va.val j) (laneOf (coreAt s i) v.vb.val j) (laneOf (coreAt s i) v.vd.val j) = lane j) :
    LaneResult c s i v lat lane :=
  laneResult_of_writeLanes h (List.map_congr_left fun j _ => hlane j)

/-- A command that writes one word to every lane the mask keeps. -/
theorem laneResult_of_allLanes {f : Core → W32} {w : W32}
    (h : exec c s = .next (onIssueCore c i (fun k => writeLanes lat i v v.vd.val (allLanes (f k)) k) s))
    (hw : f (coreAt s i) = w) : LaneResult c s i v lat fun _ => w :=
  laneResult_of_writeLanes h (by rw [hw]; rfl)

/-- The bits that a compare collects: bit j of the sum over the first n lanes is what lane j compares as. -/
theorem testBit_compareSum (p : Nat → Bool) (n : Nat) :
    (List.range n).foldl (fun m j => if p j then m + 2 ^ j else m) 0 < 2 ^ n ∧
      ∀ j < n, ((List.range n).foldl (fun m j => if p j then m + 2 ^ j else m) 0).testBit j = p j := by
  induction n with
  | zero => simp
  | succ n ih =>
    obtain ⟨hlt, hbit⟩ := ih
    rw [List.range_succ, List.foldl_append]
    generalize (List.range n).foldl (fun m j => if p j then m + 2 ^ j else m) 0 = m at hlt hbit ⊢
    simp only [List.foldl_cons, List.foldl_nil, Nat.pow_succ]
    refine ⟨by split <;> omega, fun j hj => ?_⟩
    rcases Nat.lt_succ_iff_lt_or_eq.1 hj with hj | rfl
    · rw [← hbit j hj]
      split
      · rw [Nat.add_comm, Nat.testBit_two_pow_add_gt hj]
      · rfl
    · split <;> rename_i hp
      · rw [Nat.add_comm, Nat.testBit_two_pow_add_eq, Nat.testBit_lt_two_pow hlt, hp]; rfl
      · rw [Nat.testBit_lt_two_pow hlt, eq_false_of_ne_true hp]

/-- A compare, by a relation that the statement writes as `bit`. -/
theorem maskResult_of_compare (f : W32 → W32 → Bool) {bit : Nat → Bool} (h : exec c s = execCompare c i v f s)
    (hbit : ∀ j, f (laneOf (coreAt s i) v.va.val j) (laneOf (coreAt s i) v.vb.val j) = bit j) : MaskResult c s i v bit := by
  obtain ⟨_, htest⟩ := testBit_compareSum
    (fun j => f (laneOf (coreAt s i) v.va.val j) (laneOf (coreAt s i) v.vb.val j)) 32
  refine ⟨_, fun j hj => ?_, changesCore_of_onIssueCore h rfl⟩
  rw [BitVec.getLsbD_ofNat, htest j hj, hbit j]
  simp [hj]

end

/-! The integer lanes, as Table 3-3 gives them on signed and unsigned values. -/

/-- The sign bit of a word cleared. -/
theorem and_maxSigned (a : W32) : a &&& 0x7FFFFFFF = (a.setWidth 31).setWidth 32 := by
  refine BitVec.eq_of_toNat_eq ?_
  have hmask : (0x7FFFFFFF : W32).toNat = 2 ^ 31 - 1 := rfl
  rw [BitVec.toNat_and, hmask, Nat.and_two_pow_sub_one_eq_mod, BitVec.toNat_setWidth, BitVec.toNat_setWidth]
  omega

/-- The sign bit of a word turned. -/
theorem xor_signBit (a : W32) : a ^^^ 0x80000000 = (~~~ a.extractLsb' 31 1) ++ a.extractLsb' 0 31 := by
  refine BitVec.eq_of_getLsbD_eq fun j hj => ?_
  have hsign : (0x80000000 : W32).getLsbD j = decide (j = 31) := by
    rw [show (0x80000000 : W32) = BitVec.twoPow 32 31 from rfl, BitVec.getLsbD_twoPow]
    simp [eq_comm]
  rw [BitVec.getLsbD_xor, hsign, BitVec.getLsbD_append]
  by_cases h31 : j < 31
  · simp [h31, Nat.ne_of_lt h31]
  · obtain rfl : j = 31 := by omega
    simp

theorem add_eq_ofInt (a b : W32) : a + b = BitVec.ofInt 32 (a.toInt + b.toInt) := by
  rw [BitVec.ofInt_add, BitVec.ofInt_toInt, BitVec.ofInt_toInt]

theorem mul_eq_ofInt (a b : W32) : a * b = BitVec.ofInt 32 (a.toInt * b.toInt) := by
  rw [BitVec.ofInt_mul, BitVec.ofInt_toInt, BitVec.ofInt_toInt]

theorem sub_eq_ofInt (a b : W32) : a - b = BitVec.ofInt 32 (a.toInt - b.toInt) := by
  rw [BitVec.sub_eq_add_neg, Int.sub_eq_add_neg, BitVec.ofInt_add, BitVec.ofInt_neg, BitVec.ofInt_toInt, BitVec.ofInt_toInt]

theorem shiftLeft_eq_ofNat (a : W32) (n : Nat) : a <<< n = BitVec.ofNat 32 (a.toNat * 2 ^ n) :=
  BitVec.eq_of_toNat_eq (by rw [BitVec.toNat_shiftLeft, BitVec.toNat_ofNat, Nat.shiftLeft_eq])

theorem ushiftRight_eq_ofNat (a : W32) (n : Nat) : a >>> n = BitVec.ofNat 32 (a.toNat / 2 ^ n) := by
  rw [← Nat.shiftRight_eq_div_pow, ← BitVec.toNat_ushiftRight, BitVec.ofNat_toNat, BitVec.setWidth_eq]

theorem sshiftRight_eq_ofInt (a : W32) (n : Nat) : a.sshiftRight n = BitVec.ofInt 32 (a.toInt / 2 ^ n) := by
  rw [BitVec.sshiftRight, Int.shiftRight_eq_div_pow]
  norm_cast

theorem minSigned (a b : W32) : (if a.slt b then a else b) = BitVec.ofInt 32 (min a.toInt b.toInt) := by
  rw [BitVec.slt_eq_decide]
  by_cases h : a.toInt < b.toInt
  · rw [Int.min_eq_left (Int.le_of_lt h)]; simp [h]
  · rw [Int.min_eq_right (Int.not_lt.1 h)]; simp [h]

theorem maxSigned (a b : W32) : (if a.slt b then b else a) = BitVec.ofInt 32 (max a.toInt b.toInt) := by
  rw [BitVec.slt_eq_decide]
  by_cases h : a.toInt < b.toInt
  · rw [Int.max_eq_right (Int.le_of_lt h)]; simp [h]
  · rw [Int.max_eq_left (Int.not_lt.1 h)]; simp [h]

/-- Settles O3: each command is the law of its lanes, with the lane function that the model gives it; the integer ones are that
function read as a number. -/
theorem laneCommands : Obligations.LaneCommands := by
  intro s i v a b d
  refine ⟨laneResult_of_lanes (fun a b _ => f32Add a b) rfl fun _ => rfl,
    laneResult_of_lanes (fun a b _ => f32Sub a b) rfl fun _ => rfl,
    laneResult_of_lanes (fun a b _ => f32Mul a b) rfl fun _ => rfl,
    laneResult_of_lanes f32Fma rfl fun _ => rfl,
    laneResult_of_lanes (fun a b _ => f32Max a b) rfl fun _ => rfl,
    laneResult_of_lanes (fun a b _ => f32Min a b) rfl fun _ => rfl,
    laneResult_of_lanes (fun a _ _ => a &&& 0x7FFFFFFF) rfl fun _ => and_maxSigned _,
    laneResult_of_lanes (fun a _ _ => a ^^^ 0x80000000) rfl fun _ => xor_signBit _,
    laneResult_of_lanes (fun a _ _ => f32Exp2 a) rfl fun _ => rfl,
    laneResult_of_lanes (fun a _ _ => f32Exp a) rfl fun _ => rfl,
    laneResult_of_lanes (fun a _ _ => f32Log2 a) rfl fun _ => rfl,
    laneResult_of_lanes (fun a _ _ => f32Ln a) rfl fun _ => rfl,
    laneResult_of_lanes (fun a _ _ => f32Rcp a) rfl fun _ => rfl,
    laneResult_of_lanes (fun a _ _ => f32Rsqrt a) rfl fun _ => rfl,
    laneResult_of_lanes (fun a _ _ => f32Sqrt a) rfl fun _ => rfl,
    laneResult_of_lanes (fun a b _ => f32Div a b) rfl fun _ => rfl,
    laneResult_of_lanes (fun a _ _ => f32Tanh a) rfl fun _ => rfl,
    laneResult_of_lanes (fun a _ _ => f32Sigmoid a) rfl fun _ => rfl,
    laneResult_of_lanes (fun a b _ => f32Salpha a b) rfl fun _ => rfl,
    laneResult_of_lanes (fun a b _ => f32Sexp a b) rfl fun _ => rfl,
    laneResult_of_lanes (fun a b _ => f32Slse a b) rfl fun _ => rfl,
    laneResult_of_lanes (fun a _ _ => f32OfInt a.toInt) rfl fun _ => rfl,
    laneResult_of_lanes (fun a b _ => a + b) rfl fun _ => add_eq_ofInt _ _,
    laneResult_of_lanes (fun a b _ => a - b) rfl fun _ => sub_eq_ofInt _ _,
    laneResult_of_lanes (fun a b _ => a * b) rfl fun _ => mul_eq_ofInt _ _,
    laneResult_of_lanes (fun a b _ => a &&& b) rfl fun _ => rfl,
    laneResult_of_lanes (fun a b _ => a ||| b) rfl fun _ => rfl,
    laneResult_of_lanes (fun a b _ => a ^^^ b) rfl fun _ => rfl,
    laneResult_of_lanes (fun a b _ => a <<< shiftBy b) rfl fun _ => shiftLeft_eq_ofNat _ _,
    laneResult_of_lanes (fun a b _ => a >>> shiftBy b) rfl fun _ => ushiftRight_eq_ofNat _ _,
    laneResult_of_lanes (fun a b _ => a.sshiftRight (shiftBy b)) rfl fun _ => sshiftRight_eq_ofInt _ _,
    laneResult_of_lanes (fun a b _ => if a.slt b then a else b) rfl fun _ => minSigned _ _,
    laneResult_of_lanes (fun a b _ => if a.slt b then b else a) rfl fun _ => maxSigned _ _,
    maskResult_of_compare f32Lt rfl fun _ => rfl,
    maskResult_of_compare f32Eq rfl fun _ => rfl,
    maskResult_of_compare f32Le rfl fun _ => rfl,
    maskResult_of_compare (fun a b => a.slt b) rfl fun _ => BitVec.slt_eq_decide,
    maskResult_of_compare (fun a b => a == b) rfl fun _ => rfl⟩

/-! Results across lanes (R99, R100). -/

section
variable (f : W32 → W32 → W32)

/-- One level of the tree: lane n of the next level combines lanes 2n and 2n + 1. -/
theorem pairUp_map_range (g : Nat → W32) (n : Nat) :
    pairUp f ((List.range (2 * n)).map g) = (List.range n).map fun j => f (g (2 * j)) (g (2 * j + 1)) := by
  induction n generalizing g with
  | zero => rfl
  | succ n ih =>
    rw [show 2 * (n + 1) = 2 * n + 1 + 1 by omega, List.range_succ_eq_map, List.range_succ_eq_map, List.range_succ_eq_map]
    simp only [List.map_cons, List.map_map, pairUp]
    exact congrArg _ (ih fun j => g (j + 1 + 1))

/-- The tree over the lanes of a register, level by level. -/
theorem tree32_registerLanes (k : Core) (r : Nat) :
    let level (l : Nat → W32) : Nat → W32 := fun n => f (l (2 * n)) (l (2 * n + 1))
    tree32 f (vregOf k r) = level (level (level (level (level (laneOf k r))))) 0 := by
  intro level
  have hlanes : vregOf k r = (List.range (2 * 16)).map (laneOf k r) :=
    List.map_congr_left fun j hj => (getD_map_range 32 (fun j => (vAt k.vr r []).getD j 0) 0 (List.mem_range.1 hj)).symm
  rw [hlanes, tree32, pairUp_map_range, pairUp_map_range f _ 8, pairUp_map_range f _ 4, pairUp_map_range f _ 2,
    pairUp_map_range f _ 1]
  rfl

end

/-- A merge of two registers under a mask. -/
theorem merge_vregOf (mask : W32) (k : Core) (old new : Nat) : merge mask (vregOf k old) (vregOf k new) =
    (List.range 32).map fun j => if mask.getLsbD j then laneOf k new j else laneOf k old j := rfl

/-- What SFIN counts in NF: the result of lane j is read back from the list of results. -/
theorem sfin_notFinite (m : W32) (a b : Nat → W32) :
    ((List.range 32).filter fun j =>
      m.getLsbD j && !isFinite (((List.range 32).map fun j => f32Sfin (a j) (b j)).getD j 0)) =
    (List.range 32).filter fun j => m.getLsbD j && !isFinite (f32Sfin (a j) (b j)) :=
  List.filter_congr fun j hj => by rw [getD_map_range 32 _ 0 (List.mem_range.1 hj)]

/-- Settles O4: RSUM and RMAX by the levels of the tree, SEL by the merge under the mask, SFIN by its lanes and its two counts. -/
theorem acrossLanes : Obligations.AcrossLanes := by
  intro s i v a b m lanes level tree
  refine ⟨laneResult_of_allLanes rfl (tree32_registerLanes f32Add _ _),
    laneResult_of_allLanes rfl (tree32_registerLanes f32Max _ _), laneResult_of_allLanes rfl rfl,
    changesCore_of_onIssueCore rfl ?_, changesCore_of_onIssueCore rfl ?_,
    fun x y hy => if_pos hy⟩
  · exact congrArg (fun l => later (i.cycle + 2) (.vreg v.vd _ l) _) (merge_vregOf _ _ _ _)
  · dsimp only
    rw [sfin_notFinite, writeLanes_vd]

/-! Narrowing at its edges (R69, R77). -/

section
variable {f : FFmt} {mode : Rnd} {ieee neg : Bool} {rv m : Nat} {e : Int} {x : FVal}

/-- A nonzero magnitude that rounds to no more than the largest finite one is written as it rounds, and a zero counts in FTZ. -/
theorem narrow_of_le_maxBits (hm : m ≠ 0) (h : f.roundMag mode rv m e ≤ f.maxBits) : f.narrow mode ieee rv (.fin neg m e) =
    { bits := f.signed neg (f.roundMag mode rv m e), ftz := f.roundMag mode rv m e == 0, exp := some (topExp m e) } := by
  simp [FFmt.narrow, FFmt.narrowFin, hm, Nat.not_lt.2 h]

/-- A value is not finite where it has no magnitude: a NaN or an infinity. -/
theorem finiteParts_eq_none : finiteParts x = none ↔ (∃ w, x = .nan w) ∨ ∃ n, x = .inf n := by
  cases x <;> simp [finiteParts]

/-- A block with a non-finite value takes the scale 0xFF. -/
theorem mxScale_of_mem {l : List FVal} (hx : x ∈ l) (h : finiteParts x = none) : (mxScale f l).1 = 255 := by
  have hany : (l.any fun v => (finiteParts v).isNone) = true := List.any_eq_true.2 ⟨x, hx, by rw [h]; rfl⟩
  rw [mxScale, if_pos hany]

/-- The elements of a block with the scale 0xFF are zero. -/
theorem mxElement_bits (f : FFmt) (mode : Rnd) (rv : Nat) (y : FVal) : (mxElement f mode 255 rv y).bits = 0 := by
  cases y <;> rfl

theorem mxElement_of_not_finite (f : FFmt) (mode : Rnd) (scale rv : Nat) (h : finiteParts x = none) :
    mxElement f mode scale rv x = { bits := 0, nf := true } := by
  obtain ⟨w, rfl⟩ | ⟨n, rfl⟩ := finiteParts_eq_none.1 h <;> rfl

theorem narrowToInt_of_not_finite (mode : Rnd) (rv : Nat) (w : W32) (h : finiteParts x = none) :
    narrowToInt 8 mode rv x w = { bits := 128, nf := true } := by
  obtain ⟨w, rfl⟩ | ⟨n, rfl⟩ := finiteParts_eq_none.1 h <;> rfl

end

/-- Settles O7: a magnitude that rounds to zero or to a finite one is written as it rounds; a value without a magnitude takes the
arm of its format that counts in NF. -/
theorem narrowingEdges : Obligations.NarrowingEdges := by
  refine ⟨fun f mode ieee neg rv m e t hm => ⟨fun hzero => ?_, fun hpos hmax => ?_⟩, fun mode ieee rv t =>
    ⟨fun neg => ⟨rfl, rfl⟩, fun x hx => ⟨fun f l hmem => ⟨mxScale_of_mem hmem hx, fun y _ => mxElement_bits f mode rv y, ?_⟩,
      fun w => ?_⟩⟩⟩
  · rw [narrow_of_le_maxBits hm (by omega), hzero]
    exact ⟨rfl, rfl⟩
  · rw [narrow_of_le_maxBits hm hmax, beq_false_of_ne (Nat.ne_of_gt hpos)]
    exact ⟨rfl, rfl⟩
  · rw [mxElement_of_not_finite f mode 255 rv hx]
    rfl
  · rw [narrowToInt_of_not_finite mode rv w hx]
    exact ⟨rfl, rfl⟩

/-! The edges of an accumulator cell (R57 to R61, R76). -/

section
variable {w : Int} {v : FVal} {c : AccCell}

/-- A value presented to a cell fixes its window, where none has since its clear (R57). -/
theorem fixWindow_eq (w : Int) (c : AccCell) : fixWindow w c = { c with window := some (c.window.getD w) } := by
  obtain ⟨acc, window, sticky, sat, poison⟩ := c
  cases window <;> rfl

theorem accumulate_fin (w : Int) (neg : Bool) (m : Nat) (e : Int) (c : AccCell) :
    accumulate w (.fin neg m e) c = addProduct neg m e { c with window := some (c.window.getD w) } := by
  rw [← fixWindow_eq]
  rfl

/-- A value that is not finite poisons the cell and leaves what it holds. -/
theorem accumulate_of_not_finite (w : Int) (c : AccCell) (h : finiteParts v = none) :
    accumulate w v c = { c with window := some (c.window.getD w), poison := true } := by
  have hfix : accumulate w v c = { fixWindow w c with poison := true } := by
    obtain ⟨x, rfl⟩ | ⟨n, rfl⟩ := finiteParts_eq_none.1 h <;> rfl
  rw [hfix, fixWindow_eq]

theorem addProduct_of_poison {neg : Bool} {m : Nat} {e : Int} (h : c.poison = true) : addProduct neg m e c = c := by
  simp [addProduct, h]

/-- A poisoned cell takes no product: only its window is fixed. -/
theorem accumulate_of_poison (w : Int) (v : FVal) (h : c.poison = true) :
    accumulate w v c = { c with window := some (c.window.getD w) } := by
  cases hv : finiteParts v with
  | none => rw [accumulate_of_not_finite w c hv, ← h]
  | some x =>
    cases v with
    | fin neg m e => exact (accumulate_fin w neg m e c).trans (addProduct_of_poison h)
    | nan _ => cases hv
    | inf _ => cases hv

/-- The largest magnitude that enters a cell, in units of 2^(W − 72), with a sign (R61). -/
theorem largestUnits (neg : Bool) (x : BitVec 112) :
    (if neg then x - BitVec.ofNat 112 (2 ^ 91 - 1) else x + BitVec.ofNat 112 (2 ^ 91 - 1)) =
      x + BitVec.ofInt 112 ((if neg then -1 else 1) * (2 ^ 91 - 1)) := by
  cases neg
  · rfl
  · exact BitVec.sub_eq_add_neg _ _

/-- A product past the top of the window enters as the largest magnitude with its sign, and saturates the cell (R61). -/
theorem accumulate_of_big {neg : Bool} {m : Nat} {e : Int} (hp : c.poison = false) (hm : m ≠ 0)
    (hbig : c.window.getD w + 19 ≤ topExp m e) : accumulate w (.fin neg m e) c =
    { c with
      window := some (c.window.getD w)
      sat := true
      acc := c.acc + BitVec.ofInt 112 ((if neg then -1 else 1) * (2 ^ 91 - 1)) } := by
  have hbig' : c.window.getD w - 72 + 91 ≤ topExp m e := by omega
  rw [accumulate_fin, ← largestUnits]
  simp only [addProduct, hp, hm, hbig', Option.getD_some, Bool.false_eq_true, or_self, if_false, decide_true, if_true,
    Bool.not_true, Bool.false_and, Bool.or_false, Bool.or_true]

/-! A product of a MAC. -/

/-- A product with an operand that is not finite is not finite. -/
theorem mulVal_not_finite {a b : FVal} (h : finiteParts a = none ∨ finiteParts b = none) : finiteParts (mulVal a b) = none := by
  have hspecial {p : Prop} [Decidable p] (n : Bool) : finiteParts (if p then .nan f32NaN else .inf n) = none := by split <;> rfl
  cases a with
  | nan x => rfl
  | inf x =>
    cases b with
    | nan y => rfl
    | inf y => rfl
    | fin n m e => exact hspecial _
  | fin n m e =>
    cases b with
    | nan y => rfl
    | inf y => exact hspecial _
    | fin n' m' e' => simp [finiteParts] at h

theorem scaleVal_not_finite {k : Int} (h : finiteParts v = none) : finiteParts (scaleVal k v) = none := by
  obtain ⟨x, rfl⟩ | ⟨n, rfl⟩ := finiteParts_eq_none.1 h <;> rfl

/-- Values presented one after another poison a cell where one of them is not finite. -/
theorem foldl_accumulate_poison {l : List Nat} (p : Nat → FVal) {k : Nat} (hk : k ∈ l) (h : finiteParts (p k) = none)
    (c : AccCell) : (l.foldl (fun c k => accumulate w (p k) c) c).poison = true := by
  have hstays : ∀ (l : List Nat) (c : AccCell), c.poison = true →
      (l.foldl (fun c k => accumulate w (p k) c) c).poison = true := by
    intro l
    induction l with
    | nil => exact fun c hc => hc
    | cons x l ih => exact fun c hc => ih _ ((congrArg AccCell.poison (accumulate_of_poison w _ hc)).trans hc)
  obtain ⟨before, after, rfl⟩ := List.append_of_mem hk
  rw [List.foldl_append, List.foldl_cons]
  exact hstays after _ (congrArg AccCell.poison (accumulate_of_not_finite w _ h))

/-- A MAC poisons the cell at a block scale of 0xFF, or where an element of one of its products is not finite. -/
theorem macCell_poison {f : MacFmt} {d : Int} {a b : BitVec 512} {sa sb : BitVec 128} {i j k : Nat} (hk : k < kSteps f)
    (h : (usesScales f = true ∧ (scaleByte sa i = 255 ∨ scaleByte sb j = 255)) ∨
      finiteParts (element f false a (16 * k + i)) = none ∨ finiteParts (element f true b (16 * k + j)) = none)
    (c : AccCell) : (macCell f d a b sa sb i j c).poison = true := by
  refine foldl_accumulate_poison _ (List.mem_range.2 hk) ?_ c
  rcases h with ⟨hs, hx⟩ | h
  · have hbad : (usesScales f && (scaleByte sa i == 255 || scaleByte sb j == 255)) = true := by simpa [hs] using hx
    rw [if_pos hbad]
    rfl
  · split
    · rfl
    · exact scaleVal_not_finite (mulVal_not_finite h)

/-! Draining a cell at its edges. -/

variable {cfg : DrainCfg} {rv : Nat}

theorem drainCell_of_poison (h : c.poison = true) : drainCell cfg rv c = ({ bits := poisonBits cfg.fmt c, nf := true }, false) := by
  simp only [drainCell, h, if_true]

theorem drainCell_of_sat (hp : c.poison = false) (h : c.sat = true) :
    (drainCell cfg rv c).1.bits = largestBits cfg.fmt (decide (c.acc.toInt < 0)) ∧ (drainCell cfg rv c).1.sat = true := by
  simp [drainCell, hp, h]

theorem poisonBits_of_fp {f : DrainFmt} {t : FFmt} (h : drainFp f = some t) : poisonBits f c = t.nanBits := by
  simp only [poisonBits, h]

theorem largestBits_of_fp {f : DrainFmt} {t : FFmt} (h : drainFp f = some t) (neg : Bool) :
    largestBits f neg = t.signed neg t.maxBits := by
  simp only [largestBits, h]

end

/-- Settles O12: what one value does to a cell by its kind and the cell's poison, a MAC as such values one after another, and the
drain of a poisoned and of a saturated cell. -/
theorem accumulatorLimits : Obligations.AccumulatorLimits := by
  refine ⟨fun w c => ⟨fun neg m e hp hm hbig => accumulate_of_big hp hm hbig,
    fun v hv => congrArg AccCell.poison (accumulate_of_not_finite w c hv), fun v hp => ?_⟩,
    fun f d a b sa sb i j k c hk h => macCell_poison hk h c, rfl, fun cfg rv c t => ⟨fun hp => ?_, fun hp hs => ?_⟩⟩
  · rw [accumulate_of_poison w v hp]
    exact ⟨hp, rfl, rfl, rfl⟩
  · rw [drainCell_of_poison hp]
    exact ⟨rfl, rfl, rfl, fun hf => by rw [hf]; rfl, fun f hf => poisonBits_of_fp hf⟩
  · obtain ⟨hbits, hsat⟩ := drainCell_of_sat (cfg := cfg) (rv := rv) hp hs
    exact ⟨by simp only [tallyOne, hsat]; rfl, fun f hf => hbits.trans (largestBits_of_fp hf _)⟩

/-! Narrowing and MX encoding (R50, R73, R101). -/

/-- A value of at most 32 bits has its bits in the lanes of its first and its last bit. -/
theorem packedLive_eq_all (mask : W32) {bits : Nat} (hpos : 0 < bits) (hle : bits ≤ 32) (j : Nat) :
    packedLive mask bits j = (List.range bits).all fun b => mask.getLsbD ((bits * j + b) / 32) := by
  refine Bool.eq_iff_iff.2 ?_
  simp only [packedLive, Bool.and_eq_true, List.all_eq_true, List.mem_range]
  refine ⟨fun ⟨hfirst, hlast⟩ b hb => ?_, fun h => ⟨h 0 hpos, ?_⟩⟩
  · obtain hlane | hlane : (bits * j + b) / 32 = bits * j / 32 ∨ (bits * j + b) / 32 = (bits * j + bits - 1) / 32 := by omega
    · rwa [hlane]
    · rwa [hlane]
  · rw [Nat.add_sub_assoc hpos]
    exact h (bits - 1) (by omega)

/-- The values written are those whose bits all lie in lanes that the mask keeps (R73). -/
theorem written_eq_filter (mask : W32) {bits : Nat} (hpos : 0 < bits) (hle : bits ≤ 32) (out : List Narrowed) :
    written mask bits out = (out.zipIdx.filter fun x => (List.range bits).all fun b =>
      mask.getLsbD ((bits * x.2 + b) / 32)).map (·.1) :=
  congrArg (List.map _) (List.filter_congr fun x _ => packedLive_eq_all mask hpos hle x.2)

/-- A core after a narrowing slot: the lanes put off to VD, the values written in the tallies, and under SR the
draw index passed. -/
def afterNarrow (i : Issue) (v : VOp) (lat bits : Nat) (out : List Narrowed) (lanes : List W32) (k : Core) : Core :=
  let k := tallyAll v.tg.val (written (maskOf k v.mask.val) bits out) (writeLanes lat i v v.vd.val lanes k)
  if v.rnd = .sr then advanceDraw v.srs.val 1 k else k

/-- The same as the statement has it, the mask read from the core that the slot finds. -/
def narrowsTo (k0 : Core) (i : Issue) (v : VOp) (lat bits : Nat) (out : List Narrowed) (lanes : List W32) (k : Core) : Core :=
  let kept := (out.zipIdx.filter fun x => (List.range bits).all fun b =>
    (maskOf k0 v.mask.val).getLsbD ((bits * x.2 + b) / 32)).map (·.1)
  let k := tallyAll v.tg.val kept (later (i.cycle + lat) (.vreg v.vd (maskOf k0 v.mask.val) lanes) k)
  if v.rnd = .sr then advanceDraw v.srs.val 1 k else k

section
variable {i : Issue} {v : VOp} {lat bits : Nat} {s : State} {c : Instr}

theorem afterNarrow_eq_narrowsTo (hpos : 0 < bits) (hle : bits ≤ 32) (out : List Narrowed) (lanes : List W32) (k : Core) :
    afterNarrow i v lat bits out lanes k = narrowsTo k i v lat bits out lanes k := by
  rw [afterNarrow, narrowsTo, writeLanes_vd, written_eq_filter _ hpos hle]

theorem changesCore_of_narrow (f : Nat → FVal → W32 → Narrowed) (hpos : 0 < bits) (hle : bits ≤ 32)
    (h : exec c s = .next (onIssue c i (narrowSlot i v bits f) s)) :
    let out := narrowed (settled s i) (runCtx (s.core (coreNum i.core))) (coreNum i.core) v f
    ChangesCore c s i (narrowsTo (coreAt s i) i v 4 bits out (packValues bits out)) :=
  changesCore_of_onIssue (f := afterNarrow i v 4 bits _ _) h rfl (afterNarrow_eq_narrowsTo hpos hle _ _ _)

theorem changesCore_of_narrowFp (t : FFmt) (hpos : 0 < t.width) (hle : t.width ≤ 32)
    (h : exec c s = execNarrowFp c i v t s) :
    let out := (List.range 32).map fun j => t.narrow v.rnd v.ieee
      (drawRv (settled s i) (runCtx (s.core (coreNum i.core))) (coreNum i.core) v.srs.val 0 j)
      (f32 (laneOf (coreAt s i) v.va.val j))
    ChangesCore c s i (narrowsTo (coreAt s i) i v 4 t.width out (packValues t.width out)) :=
  changesCore_of_narrow (fun rv x _ => t.narrow v.rnd v.ieee rv x) hpos hle h

theorem changesCore_of_narrowInt (hpos : 0 < bits) (hle : bits ≤ 32) (h : exec c s = execNarrowInt c i v bits s) :
    let out := (List.range 32).map fun j => narrowToInt bits v.rnd
      (drawRv (settled s i) (runCtx (s.core (coreNum i.core))) (coreNum i.core) v.srs.val 0 j)
      (f32 (laneOf (coreAt s i) v.va.val j)) (laneOf (coreAt s i) v.va.val j)
    ChangesCore c s i (narrowsTo (coreAt s i) i v 4 bits out (packValues bits out)) :=
  changesCore_of_narrow (narrowToInt bits v.rnd) hpos hle h

/-- The elements of an MX block under its scale, lane by lane. -/
theorem mxElements_eq_map (t : FFmt) (rnd : Rnd) (x : Nat) (rv : Nat → Nat) (val : Nat → FVal) :
    (((List.range 32).map val).zipIdx.map fun y => mxElement t rnd x (rv y.2) y.1) =
      (List.range 32).map fun j => mxElement t rnd x (rv j) (val j) := by
  refine List.ext_getElem (by simp) fun j _ _ => by simp

/-- The packed elements with the scale in lane 16. -/
theorem mxLanes_eq_map (bits x : Nat) (out : List Narrowed) :
    ((packValues bits out).zipIdx.map fun y => if y.2 = 16 then BitVec.ofNat 32 x else y.1) =
      (List.range 32).map fun j => if j = 16 then BitVec.ofNat 32 x else (packValues bits out).getD j 0 := by
  refine List.ext_getElem (by simp [packValues]) fun j hj _ => ?_
  have hlen : j < (packValues bits out).length := by simpa using hj
  simp [hlen]

theorem changesCore_of_mxe (t : FFmt) (hpos : 0 < t.width) (hle : t.width ≤ 32)
    (h : exec c s = .next (onIssue c i (mxeSlot i v t) s)) :
    let x := (mxScale t ((List.range 32).map fun j => f32 (laneOf (coreAt s i) v.va.val j))).1
    let out := (List.range 32).map fun j => mxElement t v.rnd x
      (drawRv (settled s i) (runCtx (s.core (coreNum i.core))) (coreNum i.core) v.srs.val 0 j)
      (f32 (laneOf (coreAt s i) v.va.val j))
    ChangesCore c s i (narrowsTo (coreAt s i) i v 6 t.width out
      ((List.range 32).map fun j => if j = 16 then BitVec.ofNat 32 x else (packValues t.width out).getD j 0)) := by
  intro x out
  have hout := mxElements_eq_map t v.rnd x
    (drawRv (settled s i) (runCtx (s.core (coreNum i.core))) (coreNum i.core) v.srs.val 0)
    fun j => f32 (laneOf (coreAt s i) v.va.val j)
  refine changesCore_of_onIssue (f := afterNarrow i v 6 t.width out
    ((packValues t.width out).zipIdx.map fun y => if y.2 = 16 then BitVec.ofNat 32 x else y.1)) h ?_ ?_
  · rw [show out = _ from hout.symm]
    rfl
  · rw [afterNarrow_eq_narrowsTo hpos hle, mxLanes_eq_map]

end

/-- Settles O6: the narrowing slot and the MX slot each pack their values under the mask, whatever the format. -/
theorem narrowedValues : Obligations.NarrowedValues := by
  intro s i v
  exact ⟨changesCore_of_narrowFp fmtBf16 (by decide) (by decide) rfl, changesCore_of_narrowFp fmtFp16 (by decide) (by decide) rfl,
    changesCore_of_narrowFp fmtE4m3 (by decide) (by decide) rfl, changesCore_of_narrowFp fmtE5m2 (by decide) (by decide) rfl,
    changesCore_of_narrowInt (bits := 8) (by decide) (by decide) rfl,
    changesCore_of_narrowInt (bits := 32) (by decide) (by decide) rfl,
    changesCore_of_mxe fmtE4m3 (by decide) (by decide) rfl, changesCore_of_mxe fmtE5m2 (by decide) (by decide) rfl,
    changesCore_of_mxe fmtE3m2 (by decide) (by decide) rfl, changesCore_of_mxe fmtE2m3 (by decide) (by decide) rfl,
    changesCore_of_mxe fmtE2m1 (by decide) (by decide) rfl⟩

/-! The check code of a GS16 block (R54). -/

@[simp] theorem length_leBytes (k x : Nat) : (leBytes k x).length = k := by
  induction k generalizing x with
  | zero => rfl
  | succ k ih => rw [leBytes, List.length_cons, ih]

/-- A number read back from its little-endian bytes. -/
theorem fromLe_leBytes (k x : Nat) : fromLe (leBytes k x) = x % 256 ^ k := by
  induction k generalizing x with
  | zero => rw [leBytes, fromLe, Nat.pow_zero, Nat.mod_one]
  | succ k ih => rw [leBytes, fromLe, ih, BitVec.toNat_ofNat, Nat.mod_mod, Nat.pow_succ', Nat.mod_mul]

/-- Numbers of k bytes each, one after another. -/
theorem length_flatten_leBytes {α : Type} (l : List α) (k : Nat) (f : α → Nat) :
    (l.map fun x => leBytes k (f x)).flatten.length = k * l.length := by
  induction l with
  | nil => rfl
  | cons x l ih => rw [List.map_cons, List.flatten_cons, List.length_append, ih, length_leBytes, List.length_cons, Nat.mul_succ,
      Nat.add_comm]

/-- A block carries the check code of its header and significands between the two (Table 2-3). -/
theorem gsBytes_eq (b : GsBlock) (flags epoch count : Nat) : ∃ head sig : List Byte,
    head.length = 6 ∧ sig.length = 2 * b.sigs.length ∧
      gsBytes b flags epoch count = head ++ leBytes 2 (crc16 (head ++ sig)).toNat ++ sig :=
  ⟨_, _, by simp, length_flatten_leBytes b.sigs 2 _, rfl⟩

/-- Settles O8: the code folds one bit at a time over the bytes, and stands in the block where `gsBytes` puts it. -/
theorem blockCheckCode : Obligations.BlockCheckCode := by
  refine ⟨rfl, fun l b => ?_, by decide +kernel, fun b flags epoch count hsigs => ?_⟩
  · rw [crc16, List.foldl_append]
    rfl
  · obtain ⟨head, sig, hhead, hsig, hbytes⟩ := gsBytes_eq b flags epoch count
    have hcode : fromLe (leBytes 2 (crc16 (head ++ sig)).toNat) = (crc16 (head ++ sig)).toNat := by
      rw [fromLe_leBytes]
      exact Nat.mod_eq_of_lt (crc16 (head ++ sig)).isLt
    simp only [hbytes, leAt, List.append_assoc]
    refine ⟨by simp [hhead, hsig, hsigs], ?_⟩
    rw [List.drop_left' hhead, List.take_left' hhead, List.take_left' (length_leBytes 2 _), hcode,
      ← List.append_assoc head, List.drop_left' (by simp [hhead])]

/-! GSE, RAND and the widening commands (R53, R101, R102). -/

/-- The high half of a draw. -/
theorem ushiftRight_setWidth_eq_highHalf (w : W64) : (w >>> 32).setWidth 32 = w.extractLsb' 32 32 := by
  refine BitVec.eq_of_getLsbD_eq fun j hj => ?_
  simp [hj]

/-- A core after GSE: the significands put off to VD, zeros to VD + 1 and the header to VD + 2, the tallies, and the draws
passed. -/
def afterGse (i : Issue) (v : VOp) (block : GsBlock) (flags : Nat) (vals : List FVal) (bytes : List Byte) (k : Core) : Core :=
  let k := writeLanes 8 i v v.vd.val (lanesOf (bytes.drop 8)) k
  let k := writeLanes 8 i v (v.vd.val + 1) (allLanes 0) k
  let k := writeLanes 8 i v (v.vd.val + 2) (lanesOf (bytes.take 8)) k
  let k := onTally v.tg.val (gsTally (maskOf k v.mask.val) block flags vals) k
  if v.rnd = .sr then advanceDraw v.srs.val 2 k else k

/-- The results of GSE go under the mask of the core that it finds. -/
theorem afterGse_eq (i : Issue) (v : VOp) (block : GsBlock) (flags : Nat) (vals : List FVal) (bytes : List Byte) (k : Core) :
    afterGse i v block flags vals bytes k =
      let put (r : Nat) (l : List W32) : Core → Core := later (i.cycle + 8) (.vreg (Fin.ofNat 32 r) (maskOf k v.mask.val) l)
      let k := onTally v.tg.val (gsTally (maskOf k v.mask.val) block flags vals) (put (v.vd.val + 2) (lanesOf (bytes.take 8))
        (put (v.vd.val + 1) (List.replicate 32 0) (put v.vd.val (lanesOf (bytes.drop 8)) k)))
      if v.rnd = .sr then advanceDraw v.srs.val 2 k else k := rfl

/-- FLAGS and COUNT of the header under the streams of R55 and under the others. -/
theorem gsHeader_eq (k : Core) (srs : Nat) (b : GsBlock) : gsHeader k srs b =
    let library : Bool := decide (0xFF00 ≤ (vAt k.srs srs {}).purpose.toNat)
    (if library then Nat.lor b.flags k.drained.flagsOut else b.flags, if library then k.drained.count else 1) := by
  unfold gsHeader forLibrary
  dsimp only
  split <;> rfl

/-- A core after RAND, given the draws of its lanes. -/
def afterRand (i : Issue) (v : VOp) (draws : List W64) (k : Core) : Core :=
  let k := writeLanes 10 i v v.vd.val (draws.map fun (w : W64) => w.setWidth 32) k
  let k := writeLanes 10 i v (v.vd.val + 1) (draws.map fun (w : W64) => (w >>> 32).setWidth 32) k
  advanceDraw v.srs.val 1 k

/-- The low and high halves of the draws go under the mask of the core that RAND finds. -/
theorem afterRand_eq (i : Issue) (v : VOp) (draws : List W64) (k : Core) : afterRand i v draws k =
    let put (r : Nat) (l : List W32) : Core → Core := later (i.cycle + 10) (.vreg (Fin.ofNat 32 r) (maskOf k v.mask.val) l)
    advanceDraw v.srs.val 1 (put (v.vd.val + 1) (draws.map fun w => w.extractLsb' 32 32)
      (put v.vd.val (draws.map fun w => w.extractLsb' 0 32) k)) := by
  rw [afterRand, List.map_congr_left fun w _ => ushiftRight_setWidth_eq_highHalf w,
    List.map_congr_left fun (w : W64) _ => BitVec.setWidth_eq_extractLsb' (by decide)]
  rfl

/-- Settles O9: GSE and RAND put off what the statement says, register by register; a widening is a law of its lanes. -/
theorem multiRegisterResults : Obligations.MultiRegisterResults := by
  intro s i v c n k0 elt put vals block library flags bytes draws
  refine ⟨changesCore_of_onIssue (slot := gseSlot i v) (f := afterGse i v block flags vals bytes) rfl ?_ ?_,
    changesCore_of_onIssue (f := afterRand i v draws) rfl rfl ?_, laneResult_of_writeLanes rfl rfl,
    laneResult_of_writeLanes rfl rfl, laneResult_of_writeLanes rfl rfl, laneResult_of_writeLanes rfl rfl,
    laneResult_of_writeLanes rfl rfl, laneResult_of_writeLanes rfl rfl⟩
  · have hheader : gsHeader k0 v.srs.val block = (flags, if library then k0.drained.count else 1) := gsHeader_eq ..
    have htrain : (settled s i).train n = s.train n := rfl
    change (settled s i).onCore c (afterGse i v block (gsHeader k0 v.srs.val block).1 vals
      (gsBytes block (gsHeader k0 v.srs.val block).1 ((settled s i).train n).current.toNat (gsHeader k0 v.srs.val block).2)) = _
    rw [hheader, htrain]
  · exact afterGse_eq i v block flags vals bytes k0
  · exact afterRand_eq i v draws k0

/-! The cells of a bank (R95, R96, R98). -/

/-- A second entry under the same key replaces the first. -/
theorem Tab.put_put {α : Type} (t : Tab α) (i : Nat) (x y : α) : Tab.put (Tab.put t i x) i y = Tab.put t i y := by
  induction t with
  | nil => simp [Tab.put]
  | cons z t ih =>
    obtain ⟨k, w⟩ := z
    by_cases hlt : i < k
    · simp [Tab.put, hlt]
    · by_cases heq : i = k
      · simp [Tab.put, heq]
      · simp [Tab.put, hlt, heq, ih]

theorem onCore_onCore (s : State) (c : Nat) (f g : Core → Core) : (s.onCore c f).onCore c g = s.onCore c fun k => g (f k) := by
  simp [State.onCore, State.onCores, Tab.put_put]

/-- The entries left by a filter on the keys. -/
theorem Tab.getD_filter {α : Type} (t : Tab α) (p : Nat → Bool) (j : Nat) (d : α) :
    Tab.getD (t.filter fun x => p x.1) j d = if p j then Tab.getD t j d else d := by
  have hfind : Tab.find (t.filter fun x => p x.1) j = if p j then Tab.find t j else none := by
    induction t with
    | nil => simp [Tab.find]
    | cons x t ih =>
      obtain ⟨k, w⟩ := x
      by_cases hk : k = j
      · subst hk
        by_cases hp : p k <;> simp [Tab.find, hp, ih]
      · by_cases hp : p k <;> simp [Tab.find, hp, hk, ih]
  rw [Tab.getD, hfind]
  split <;> rfl

theorem getD_onCells_other {l : List (Nat × (AccCell → AccCell))} {j : Nat} (h : ∀ x ∈ l, x.1 ≠ j) (k : Core) :
    Tab.getD (onCells l k).cells j {} = Tab.getD k.cells j {} := by
  induction l generalizing k with
  | nil => rfl
  | cons x l ih =>
    have hrest := ih (fun y hy => h y (List.mem_cons_of_mem x hy)) (onCells [x] k)
    exact hrest.trans (Tab.getD_put_other _ _ _ (h x List.mem_cons_self))

/-- A cell listed once is changed as the list says. -/
theorem getD_onCells_mem {l : List (Nat × (AccCell → AccCell))} (hl : (l.map (·.1)).Nodup) {x : Nat × (AccCell → AccCell)}
    (hx : x ∈ l) (k : Core) : Tab.getD (onCells l k).cells x.1 {} = x.2 (Tab.getD k.cells x.1 {}) := by
  induction l generalizing k with
  | nil => cases hx
  | cons y l ih =>
    obtain ⟨hy, hl⟩ := List.nodup_cons.1 hl
    have hstep : onCells (y :: l) k = onCells l (onCells [y] k) := rfl
    rw [hstep]
    rcases List.mem_cons.1 hx with rfl | hx
    · rw [getD_onCells_other fun z hz e => hy (List.mem_map.2 ⟨z, hz, e⟩)]
      exact Tab.getD_put_same ..
    · rw [ih hl hx]
      exact congrArg x.2 (Tab.getD_put_other _ _ _ fun e => hy (List.mem_map.2 ⟨x, hx, e.symm⟩))

/-- What a command does to the cells of one bank: each as g says, and those of the other bank nothing. -/
def ChangesCells (k0 : Core) (bank : Nat) (g : Nat → Nat → AccCell → AccCell) (k : Core) : Prop :=
  (∀ x y, x < 16 → y < 16 → cellAt k bank x y = g x y (cellAt k0 bank x y)) ∧
  ∀ j, j / 256 ≠ bank → Tab.getD k.cells j {} = Tab.getD k0.cells j {}

theorem cellIx_inj {bank x y x' y' : Nat} (hy : y < 16) (hy' : y' < 16) (h : cellIx bank x y = cellIx bank x' y') :
    x = x' ∧ y = y' := by
  simp only [cellIx] at h
  omega

theorem cellIx_div {bank x y : Nat} (hx : x < 16) (hy : y < 16) : cellIx bank x y / 256 = bank := by
  simp only [cellIx]
  omega

/-- Changes of cells of one bank: the n-th is at row and column `place n`. -/
def cellChanges (count bank : Nat) (place : Nat → Nat × Nat) (f : Nat → AccCell → AccCell) : List (Nat × (AccCell → AccCell)) :=
  (List.range count).map fun n => (cellIx bank (place n).1 (place n).2, f n)

section
variable {count bank : Nat} {place : Nat → Nat × Nat} {f : Nat → AccCell → AccCell} {g : Nat → Nat → AccCell → AccCell}

theorem nodup_cellChanges (hin : ∀ n < count, (place n).2 < 16) (hinj : ∀ n m, place n = place m → n = m) :
    ((cellChanges count bank place f).map (·.1)).Nodup := by
  rw [cellChanges, List.map_map]
  refine List.pairwise_map.2 (List.Pairwise.imp_of_mem (fun {m n} hm hn hne h => hne (hinj m n ?_)) List.nodup_range)
  obtain ⟨hrow, hcol⟩ := cellIx_inj (hin m (List.mem_range.1 hm)) (hin n (List.mem_range.1 hn)) h
  exact Prod.ext hrow hcol

/-- Where no place comes twice, each cell is changed as g says, if g is the n-th change at the n-th place and the identity
elsewhere. -/
theorem changesCells_onCells (k : Core) (hin : ∀ n < count, (place n).1 < 16 ∧ (place n).2 < 16)
    (hinj : ∀ n m, place n = place m → n = m) (hg : ∀ n < count, g (place n).1 (place n).2 = f n)
    (hother : ∀ x y, x < 16 → y < 16 → (∀ n < count, place n ≠ (x, y)) → g x y = id) :
    ChangesCells k bank g (onCells (cellChanges count bank place f) k) := by
  refine ⟨fun x y hx hy => ?_, fun j hj => getD_onCells_other (fun z hz => ?_) k⟩
  · by_cases hplace : ∃ n < count, place n = (x, y)
    · obtain ⟨n, hn, hxy⟩ := hplace
      have hmem : (cellIx bank (place n).1 (place n).2, f n) ∈ cellChanges count bank place f :=
        List.mem_map.2 ⟨n, List.mem_range.2 hn, rfl⟩
      have hcell := getD_onCells_mem (nodup_cellChanges (fun n hn => (hin n hn).2) hinj) hmem k
      rw [← hg n hn, hxy] at hcell
      exact hcell
    · rw [hother x y hx hy fun n hn e => hplace ⟨n, hn, e⟩]
      refine getD_onCells_other (fun z hz e => ?_) k
      obtain ⟨n, hn, rfl⟩ := List.mem_map.1 hz
      obtain ⟨hrow, hcol⟩ := cellIx_inj (hin n (List.mem_range.1 hn)).2 hy e
      exact hplace ⟨n, List.mem_range.1 hn, Prod.ext hrow hcol⟩
  · obtain ⟨n, hn, rfl⟩ := List.mem_map.1 hz
    obtain ⟨hrow, hcol⟩ := hin n (List.mem_range.1 hn)
    exact fun e => hj (e ▸ cellIx_div hrow hcol)

end

/-- A field of a word as a word of its own. -/
theorem ofNat_fld {n hi lo len : Nat} (a : BitVec n) (h : hi + 1 - lo = len) :
    BitVec.ofNat len (fld a hi lo) = a.extractLsb' lo len := by
  subst h
  exact BitVec.eq_of_toNat_eq (by simp [fld])

/-! MAC, ACCIN and CLEAR of one bank. -/

section
variable (bank pair set : Fin 2) (row : Fin 16) (k : Core)

theorem changesCells_macCore (f : MacFmt) :
    ChangesCells k bank.val (fun x y => macCell f (vAt k.wd bank.val 0).toInt
      (vAt k.ar pair.val 0) (vAt k.br pair.val 0) (vAt k.sa set.val 0) (vAt k.sb set.val 0) x y)
      (macCore bank.val pair.val set.val f k) := by
  rw [macCore, bankCells, List.map_map]
  refine changesCells_onCells (count := 256) (place := fun n => (n / 16, n % 16)) k (fun n hn => by dsimp only; omega)
    (fun n m h => ?_) (fun n hn => rfl) fun x y hx hy h => ?_
  · rw [Prod.mk.injEq] at h
    omega
  · exact absurd (Prod.ext (by dsimp only; omega) (by dsimp only; omega)) (h (16 * x + y) (by omega))

/-- ACCIN in FP32 form: 32-bit value y of the operand enters column y of the row (R96). -/
theorem changesCells_accinFp32 :
    ChangesCells k bank.val (fun x y cell => if x = row.val then
      accumulate (vAt k.wd bank.val 0).toInt (f32 ((vAt k.ar pair.val 0).extractLsb' (32 * y) 32)) cell else cell)
      (accinFp32 bank.val pair.val row.val k) := by
  refine changesCells_onCells (count := 16) (place := fun n => (row.val, n)) k (fun n hn => ⟨row.isLt, hn⟩)
    (fun n m h => congrArg Prod.snd h) (fun n hn => ?_) fun x y hx hy h => ?_
  · funext cell
    rw [if_pos rfl, ofNat_fld _ (by omega)]
  · funext cell
    exact if_neg fun hrow => h y hy (by rw [hrow])

/-- ACCIN in GS16 form: significand n of the operand enters column n mod 16 of the row or the next one (R96). -/
theorem changesCells_accinGs16 (hrow : row.val % 2 = 0) :
    ChangesCells k bank.val (fun x y cell =>
      let m := ((vAt k.ar pair.val 0).extractLsb' (16 * (16 * (x - row.val) + y)) 16).toInt
      if x = row.val ∨ x = row.val + 1 then
        accumulate ((scaleByte (vAt k.sa set.val 0) 0 : Int) - 127 + (vAt k.wd bank.val 0).toInt)
          (if scaleByte (vAt k.sa set.val 0) 0 = 255 then .nan 0
            else .fin (decide (m < 0)) m.natAbs ((scaleByte (vAt k.sa set.val 0) 0 : Int) - 142)) cell
      else cell) (accinGs16 bank.val pair.val row.val set.val k) := by
  have hlast := row.isLt
  refine changesCells_onCells (count := 32) (place := fun n => (row.val + n / 16, n % 16)) k (fun n hn => by dsimp only; omega)
    (fun n m h => ?_) (fun n hn => ?_) fun x y hx hy h => ?_
  · rw [Prod.mk.injEq] at h
    omega
  · funext cell
    have hn' : 16 * (row.val + n / 16 - row.val) + n % 16 = n := by omega
    dsimp only
    rw [if_pos (by omega), hn', ← ofNat_fld (hi := 16 * n + 15) _ (by omega)]
  · funext cell
    exact if_neg fun hx' => h (16 * (x - row.val) + y) (by omega) (Prod.ext (by dsimp only; omega) (by dsimp only; omega))

end

/-- A core whose bank CLEAR has cleared, and what was combined into it (R98). -/
def clearBank (bank : Fin 2) (k : Core) : Core :=
  { k with cells := k.cells.filter fun x => x.1 / 256 != bank.val, combined := k.combined.set bank {} }

/-- The filter takes out the cells of the bank and no other. -/
theorem changesCells_clearBank (bank : Fin 2) (k : Core) : ChangesCells k bank.val (fun _ _ _ => {}) (clearBank bank k) := by
  refine ⟨fun x y hx hy => ?_, fun j hj => ?_⟩
  · have hbank : (cellIx bank.val x y / 256 != bank.val) = false := by rw [cellIx_div hx hy, bne_self_eq_false]
    exact (Tab.getD_filter k.cells (fun j => j / 256 != bank.val) _ {}).trans (by rw [hbank]; rfl)
  · exact (Tab.getD_filter k.cells (fun j => j / 256 != bank.val) j {}).trans (if_pos (bne_iff_ne.2 hj))

/-! These commands touch nothing of the core but the cells. -/

theorem onCells_eq (l : List (Nat × (AccCell → AccCell))) (k : Core) :
    onCells l k = { k with cells := (onCells l k).cells } := rfl

theorem macCore_eq (bank pair set : Nat) (f : MacFmt) (k : Core) :
    macCore bank pair set f k = { k with cells := (macCore bank pair set f k).cells } := by
  unfold macCore
  exact onCells_eq _ k

theorem accinFp32_eq (bank pair row : Nat) (k : Core) :
    accinFp32 bank pair row k = { k with cells := (accinFp32 bank pair row k).cells } := by
  unfold accinFp32
  exact onCells_eq _ k

theorem accinGs16_eq (bank pair row set : Nat) (k : Core) :
    accinGs16 bank pair row set k = { k with cells := (accinGs16 bank pair row set k).cells } := by
  unfold accinGs16
  exact onCells_eq _ k

theorem clearBank_eq (bank : Fin 2) (k : Core) :
    clearBank bank k = { k with cells := (clearBank bank k).cells, combined := k.combined.set bank {} } := rfl

/-! ACCIN in GS16 form, by the epoch of its block and the program that issues it (R55, R56). -/

/-- What the slot of an ACCIN in GS16 form does. -/
def accinBlock (bank pair : Fin 2) (row : Fin 16) (set : Fin 2) (n c : Nat) (s : State) : State :=
  if blockEpoch (s.core c) set.val ≠ (s.train n).current then violate n 0x07 s
  else
    let s := if runsLibrary s c then combineBlock n c bank.val pair.val set.val s else s
    s.onCore c (accinGs16 bank.val pair.val row.val set.val)

theorem slotAnswers_accinGs16 (s : State) (i : Issue) (bank pair set : Fin 2) (row : Fin 16) :
    SlotAnswers (.accin i bank pair row set .gs16) s i
      (accinBlock bank pair row set (runCtx (s.core (coreNum i.core))) (coreNum i.core) (settled s i)) := slotAnswers rfl

section
variable {bank pair set : Fin 2} {row : Fin 16} {n c : Nat} {s : State}

theorem accinBlock_otherEpoch (h : blockEpoch (s.core c) set.val ≠ (s.train n).current) :
    accinBlock bank pair row set n c s = violate n 0x07 s := if_pos h

theorem accinBlock_plain (h : blockEpoch (s.core c) set.val = (s.train n).current) (hlib : runsLibrary s c = false) :
    accinBlock bank pair row set n c s = s.onCore c (accinGs16 bank.val pair.val row.val set.val) := by
  simp [accinBlock, h, hlib]

theorem accinBlock_library (h : blockEpoch (s.core c) set.val = (s.train n).current) (hlib : runsLibrary s c = true) :
    accinBlock bank pair row set n c s =
      (combineBlock n c bank.val pair.val set.val s).onCore c (accinGs16 bank.val pair.val row.val set.val) := by
  simp [accinBlock, h, hlib]

theorem combineBlock_firstHalf (h : ∀ first, (s.core c).half ≠ some (vAt (s.core c).sa set.val 0, first)) :
    combineBlock n c bank.val pair.val set.val s =
      s.onCore c (takeHalf (vAt (s.core c).sa set.val 0) (vAt (s.core c).ar pair.val 0)) := by
  unfold combineBlock
  dsimp only
  split
  next header first hhalf => exact if_pos fun e => h first (hhalf.trans (by rw [e]))
  next => rfl

theorem combineBlock_secondHalf {first : BitVec 512} (h : (s.core c).half = some (vAt (s.core c).sa set.val 0, first)) :
    combineBlock n c bank.val pair.val set.val s =
      (if blockCrcOk (vAt (s.core c).sa set.val 0) first (vAt (s.core c).ar pair.val 0) then s else poison n s).onCore c
        (takeWhole bank.val (vAt (s.core c).sa set.val 0)) := by
  unfold combineBlock
  dsimp only
  rw [h]
  exact if_neg (not_not_intro rfl)

theorem blockCrcOk_iff (header : BitVec 128) (first second : BitVec 512) : blockCrcOk header first second = true ↔
    fld header 63 48 = (crc16 (leBytes 6 (fld header 47 0) ++ (leBytes 64 first.toNat ++ leBytes 64 second.toNat))).toNat :=
  beq_iff_eq

end

/-- Settles O11: MAC, ACCIN and CLEAR change the cells of their bank; a GS16 block enters by its epoch, and in library code by the
half of it that came before. -/
theorem accumulatorCommands : Obligations.AccumulatorCommands := by
  intro s i bank pair set row f c n k0 cells header enters
  have hslot := slotAnswers_accinGs16 s i bank pair set row
  refine ⟨⟨_, changesCore_of_onIssueCore rfl rfl, macCore_eq .., changesCells_macCore bank pair set k0 f⟩,
    ⟨accinFp32 bank.val pair.val row.val, changesCore_of_onIssue rfl rfl rfl, accinFp32_eq ..,
      changesCells_accinFp32 bank pair row k0⟩,
    fun heven => ⟨accinGs16_eq .., changesCells_accinGs16 bank pair set row k0 heven⟩, fun hepoch => ?_,
    fun hepoch => ⟨fun hlib => ?_, fun hlib => ⟨fun hfirst => ?_, fun first hfirst => ?_⟩⟩,
    ⟨clearBank bank, changesCore_of_onIssueCore rfl rfl, clearBank_eq .., changesCells_clearBank bank k0⟩⟩
  · rwa [accinBlock_otherEpoch hepoch] at hslot
  · rwa [accinBlock_plain hepoch hlib] at hslot
  · rw [accinBlock_library hepoch hlib, combineBlock_firstHalf hfirst, onCore_onCore] at hslot
    exact hslot
  · rw [accinBlock_library hepoch hlib, combineBlock_secondHalf hfirst, onCore_onCore] at hslot
    simp only [blockCrcOk_iff] at hslot
    exact hslot

/-! A row drained (R63, R97). -/

/-- A core after DRAIN, given the configuration and what the 16 cells convert to. -/
def afterDrain (cycle bank row dst : Nat) (cfg : DrainCfg) (clr : Bool) (out : List (Narrowed × Bool)) (bytes : List Byte)
    (k : Core) : Core :=
  let k := scratchWrite cycle 0 (16 * dst) bytes (tallyAll cfg.tg.val (out.map (·.1)) k)
  let k := onTally cfg.tg.val (fun t => { t with underrun := satInc t.underrun (out.filter fun x => x.2).length }) k
  let k := if cfg.rnd = .sr then advanceDraw cfg.srs.val 1 k else k
  let k := { k with drained := vAt k.combined bank {} }
  if clr then { k with
    cells := k.cells.filter fun x => !(decide (cellIx bank row 0 ≤ x.1) && decide (x.1 < cellIx bank (row + 1) 0)) }
  else k

section
variable {cycle bank row dst : Nat} {cfg : DrainCfg} {clr : Bool} {out : List (Narrowed × Bool)} {bytes : List Byte} {k : Core}

/-- DRAIN field by field. -/
theorem afterDrain_eq : afterDrain cycle bank row dst cfg clr out bytes k =
    { k with
      scratch := (scratchWrite cycle 0 (16 * dst) bytes k).scratch
      recent := (scratchWrite cycle 0 (16 * dst) bytes k).recent
      cells := if clr then k.cells.filter fun x => !(decide (cellIx bank row 0 ≤ x.1) && decide (x.1 < cellIx bank (row + 1) 0))
        else k.cells
      tallies := vMod (vMod k.tallies cfg.tg.val fun t => (out.map (·.1)).foldl tallyOne t) cfg.tg.val
        fun t => { t with underrun := satInc t.underrun (out.filter fun x => x.2).length }
      srs := if cfg.rnd = .sr then vMod k.srs cfg.srs.val fun r => { r with index := r.index + 1 } else k.srs
      drained := vAt k.combined bank {} } := by
  unfold afterDrain
  by_cases hsr : cfg.rnd = .sr
  · simp only [hsr, if_true]
    cases clr <;> rfl
  · simp only [hsr, if_false]
    cases clr <;> rfl

/-- DRAIN changes nothing else of the core. -/
theorem afterDrain_frame : afterDrain cycle bank row dst cfg clr out bytes k =
    { k with
      scratch := (afterDrain cycle bank row dst cfg clr out bytes k).scratch
      recent := (afterDrain cycle bank row dst cfg clr out bytes k).recent
      cells := (afterDrain cycle bank row dst cfg clr out bytes k).cells
      tallies := (afterDrain cycle bank row dst cfg clr out bytes k).tallies
      srs := (afterDrain cycle bank row dst cfg clr out bytes k).srs
      drained := vAt k.combined bank {} } := by
  rw [afterDrain_eq]

theorem afterDrain_scratch : (afterDrain cycle bank row dst cfg clr out bytes k).scratch =
    (scratchWrite cycle 0 (16 * dst) bytes k).scratch := by
  rw [afterDrain_eq]

theorem afterDrain_tallies (t : Fin 4) : vAt (afterDrain cycle bank row dst cfg clr out bytes k).tallies t.val {} =
    let t0 := (out.map (·.1)).foldl tallyOne (vAt k.tallies cfg.tg.val {})
    if t = cfg.tg then { t0 with underrun := satInc t0.underrun (out.filter fun x => x.2).length } else vAt k.tallies t.val {} := by
  rw [afterDrain_eq]
  by_cases ht : t = cfg.tg
  · rw [if_pos ht, ht, vAt_vMod_same _ _ _ cfg.tg.isLt, vAt_vMod_same _ _ _ cfg.tg.isLt]
  · have hne : cfg.tg.val ≠ t.val := fun e => ht (Fin.ext e.symm)
    rw [if_neg ht, vAt_vMod_other _ _ _ hne, vAt_vMod_other _ _ _ hne]

theorem afterDrain_srs (t : Fin 4) : vAt (afterDrain cycle bank row dst cfg clr out bytes k).srs t.val {} =
    if cfg.rnd = .sr ∧ t = cfg.srs then { vAt k.srs t.val {} with index := (vAt k.srs t.val {}).index + 1 }
    else vAt k.srs t.val {} := by
  have hsrs : (afterDrain cycle bank row dst cfg clr out bytes k).srs =
      if cfg.rnd = .sr then vMod k.srs cfg.srs.val fun r => { r with index := r.index + 1 } else k.srs := by rw [afterDrain_eq]
  rw [hsrs]
  by_cases hsr : cfg.rnd = .sr
  · by_cases ht : t = cfg.srs
    · rw [if_pos hsr, if_pos ⟨hsr, ht⟩, ht, vAt_vMod_same _ _ _ cfg.srs.isLt]
    · rw [if_pos hsr, if_neg fun h => ht h.2, vAt_vMod_other _ _ _ fun e => ht (Fin.ext e.symm)]
  · rw [if_neg hsr, if_neg fun h => hsr h.1]

/-- CLR clears the cells of the row (R97). -/
theorem afterDrain_cells {b r j : Nat} (hrow : row < 16) (hr : r < 16) (hj : j < 16) :
    cellAt (afterDrain cycle bank row dst cfg clr out bytes k) b r j =
      if clr ∧ b = bank ∧ r = row then {} else cellAt k b r j := by
  rw [afterDrain_eq, cellAt]
  cases clr with
  | false => simp [cellAt]
  | true =>
    have hkept := Tab.getD_filter k.cells (fun x => !(decide (cellIx bank row 0 ≤ x) && decide (x < cellIx bank (row + 1) 0)))
      (cellIx b r j) {}
    have hin : (cellIx bank row 0 ≤ cellIx b r j ∧ cellIx b r j < cellIx bank (row + 1) 0) ↔ b = bank ∧ r = row := by
      simp only [cellIx]
      omega
    have hkeep : (!(decide (cellIx bank row 0 ≤ cellIx b r j) && decide (cellIx b r j < cellIx bank (row + 1) 0))) =
        !decide (b = bank ∧ r = row) := by rw [← Bool.decide_and, decide_eq_decide.2 hin]
    rw [if_pos rfl, hkept, hkeep]
    by_cases hcell : b = bank ∧ r = row
    · simp only [hcell, decide_true, Bool.not_true, Bool.false_eq_true, if_false, and_self, if_true]
    · simp only [hcell, decide_false, Bool.not_false, if_true, and_false, if_false, cellAt]

/-- A write in a core cycle that no other write reached is stored as it is (R90). -/
theorem scratchKept_of_first {rank addr : Nat} (h : ∀ w ∈ k.recent, w.cycle ≠ cycle) :
    scratchKept k cycle rank addr bytes = bytes := by
  have hany (a : Nat) : (k.recent.any fun w => w.takes cycle a && decide (rank < w.rank)) = false :=
    List.any_eq_false.2 fun w hw => by simp [ScratchWrite.takes, h w hw]
  simp [scratchKept, hany]

end

/-- A drain is its violation past the end of scratch and what it does to the core, which is settled before its conversion. -/
theorem drainRow_eq (n c cycle bank row dst dc : Nat) (clr : Bool) (s : State) :
    let cfg := vAt (s.core c).dc dc {}
    let out := (List.range 16).map fun j => drainCell cfg (drawRv s n c cfg.srs.val 0 j) (cellAt (s.core c) bank row j)
    let bytes := (out.map fun x => leBytes (drainBytes cfg.fmt) x.1.bits).flatten
    drainRow n c cycle bank row dst dc clr s =
      (scratchBound n (16 * dst) bytes.length s).onCore c (afterDrain cycle bank row dst cfg clr out bytes) := rfl

/-- Settles O13: DRAIN of the converted row, field by field. -/
theorem drainedRow : Obligations.DrainedRow := by
  intro s i bank row dst dc clr c n k0 cfg out bytes t0
  refine ⟨afterDrain i.cycle bank.val row.val dst.toNat cfg clr out bytes, ?_, ?_, fun hfirst => ?_, afterDrain_scratch,
    afterDrain_frame, afterDrain_tallies, afterDrain_srs, fun b r j _ hr hj => afterDrain_cells row.isLt hr hj⟩
  · exact slotAnswers (f := fun n c s => drainRow n c i.cycle bank.val row.val dst.toNat dc.val clr s) rfl
  · rw [length_flatten_leBytes, List.length_map, List.length_range, Nat.mul_comm]
  · rw [afterDrain_scratch, scratchWrite_scratch, scratchKept_of_first hfirst]
    rfl

end Sys2Proof.Machine

/-! PROOFS, family 03_core: canonical memories, late writes, scratch, the slots of an instruction word, and arrivals. -/

namespace Sys2Proof.Machine

/-! Canonical memories. -/

/-- Settles O60: what every step keeps of the state without the front command, whose memories are those of the state itself. -/
theorem everyStepKeepsMemoriesCanonical : Obligations.EveryStepKeepsMemoriesCanonical :=
  fun _ _ hs h => (step_keeps h).mem hs

/-! Late writes (R92). -/

section
variable {k : Core}

/-- Where one write waits, it has reached its registers from its cycle on, and nothing happens before. -/
theorem settle_later (h : k.pending = []) (due cycle : Nat) (w : LateWrite) : settle cycle (later due w k) =
    if due ≤ cycle then lateWrite k { due := due, write := w } else later due w k := by
  have hk : { k with pending := [] } = k := by rw [← h]
  by_cases hdue : due ≤ cycle
  · simp [settle, later, insertPending, h, hdue, hk]
  · simp [settle, later, insertPending, h, hdue]

theorem laneOf_of_lt (k : Core) (r : Nat) {j : Nat} (hj : j < 32) : laneOf k r j = (vAt k.vr r []).getD j 0 :=
  getD_map_range 32 (fun j => (vAt k.vr r []).getD j 0) 0 hj

/-- A late write of VD changes the lanes of VD that its mask keeps. -/
theorem laneOf_lateWrite_vreg (k : Core) (due : Nat) (r q : Fin 32) (live : W32) (l : List W32) {j : Nat} (hj : j < 32) :
    laneOf (lateWrite k { due := due, write := .vreg r live l }) q.val j =
      if q = r ∧ live.getLsbD j then l.getD j 0 else laneOf k q.val j := by
  have hvr : (lateWrite k { due := due, write := .vreg r live l }).vr = vMod k.vr r.val fun old => merge live old l := rfl
  rw [laneOf_of_lt _ _ hj, laneOf_of_lt _ _ hj, hvr]
  by_cases hq : q = r
  · rw [hq, vAt_vMod_same _ _ _ r.isLt, merge, getD_map_range 32 _ 0 hj]
    simp
  · rw [vAt_vMod_other _ _ _ fun e => hq (Fin.ext e.symm), if_neg fun h => hq h.1]

end

/-- Settles O5: the core is the one the write leaves from its cycle on, and the one put off before. -/
theorem lateWriteLandsWhenDue : Obligations.LateWriteLandsWhenDue := by
  intro k due cycle hk
  refine ⟨fun r live l j hj => ⟨fun hdue => ?_, fun hdue q => ?_⟩, fun p a b => ?_⟩
  · rw [settle_later hk, if_neg (Nat.not_le.2 hdue)]
    rfl
  · rw [settle_later hk, if_pos hdue, laneOf_lateWrite_vreg _ _ _ _ _ _ hj]
  · rw [settle_later hk]
    split
    · exact ⟨rfl, rfl⟩
    · exact ⟨rfl, rfl⟩

/-! Bytes of a memory beside those written, whatever its form. -/

theorem Mem.byte_put_other (m : Mem) {a c : Nat} (v : Byte) (h : c ≠ a) : Mem.byte (Mem.put m a v) c = Mem.byte m c := by
  have hac : a ≠ c := h.symm
  induction m with
  | nil =>
    rw [Mem.put]
    split
    · rfl
    · exact if_neg hac
  | cons x m ih =>
    obtain ⟨k, w⟩ := x
    rw [Mem.put]
    by_cases hlt : a < k
    · rw [if_pos hlt]
      split
      · rfl
      · exact if_neg hac
    · rw [if_neg hlt]
      by_cases heq : a = k
      · subst heq
        rw [if_pos rfl, Mem.byte, if_neg hac]
        split
        · rfl
        · exact if_neg hac
      · rw [if_neg heq, Mem.byte, Mem.byte, ih]

theorem Mem.byte_write_other (m : Mem) {a c : Nat} (bs : List Byte) (h : c < a ∨ a + bs.length ≤ c) :
    Mem.byte (Mem.write m a bs) c = Mem.byte m c := by
  induction bs generalizing m a with
  | nil => rfl
  | cons b bs ih =>
    rw [List.length_cons] at h
    rw [Mem.write, ih _ (by omega), Mem.byte_put_other _ _ (by omega)]

/-! Scratch (R89 to R91). -/

section
variable {k : Core} {cycle : Nat}

@[simp] theorem coreEcc_recent (b : Bool) (k : Core) (x : Nat × Ecc) : (coreEcc b k x).recent = k.recent := by
  unfold coreEcc
  split <;> rfl

theorem coreEccs_recent (b : Bool) (l : List (Nat × Ecc)) (k : Core) : (l.foldl (coreEcc b) k).recent = k.recent := by
  induction l generalizing k with
  | nil => rfl
  | cons x l ih => rw [List.foldl_cons, ih, coreEcc_recent]

@[simp] theorem scratchEcc_recent (l : List (Nat × Ecc)) (a n : Nat) (k : Core) : (scratchEcc l a n k).recent = k.recent :=
  coreEccs_recent _ _ _

@[simp] theorem lateWrite_recent (k : Core) (w : Pending) : (lateWrite k w).recent = k.recent := by
  unfold lateWrite
  split <;> rfl

theorem lateWrites_recent (l : List Pending) (k : Core) : (l.foldl lateWrite k).recent = k.recent := by
  induction l generalizing k with
  | nil => rfl
  | cons w l ih => rw [List.foldl_cons, ih, lateWrite_recent]

@[simp] theorem settle_recent (cycle : Nat) (k : Core) : (settle cycle k).recent = k.recent := lateWrites_recent _ _

@[simp] theorem length_scratchRead (k : Core) (cycle addr count : Nat) : (scratchRead k cycle addr count).length = count := by
  simp [scratchRead]

/-- A read sees the bytes of scratch and the writes of its cycle, and nothing else of the core. -/
theorem scratchRead_congr {k' : Core} (hs : k'.scratch = k.scratch) (hr : k'.recent = k.recent) (cycle addr count : Nat) :
    scratchRead k' cycle addr count = scratchRead k cycle addr count := by
  simp only [scratchRead, scratchByte, hs, hr]

theorem getD_scratchRead {addr count j : Nat} (hj : j < count) : (scratchRead k cycle addr count).getD j 0 =
    if addr + j < scratchBytes then scratchByte k cycle (addr + j) else 0 := getD_map_range count _ 0 hj

theorem not_takes {w : ScratchWrite} (h : w.cycle ≠ cycle) (a : Nat) : w.takes cycle a = false := by
  simp [ScratchWrite.takes, h]

theorem takes_iff {w : ScratchWrite} {a : Nat} : w.takes cycle a = true ↔
    w.cycle = cycle ∧ w.addr ≤ a ∧ a < w.addr + w.old.length := by
  simp [ScratchWrite.takes, and_assoc]

/-- In a cycle that no write has reached, a byte reads as it stands. -/
theorem scratchByte_of_first (h : ∀ w ∈ k.recent, w.cycle ≠ cycle) (a : Nat) : scratchByte k cycle a = Mem.byte k.scratch a := by
  have hnone : (k.recent.find? fun w => w.takes cycle a) = none :=
    List.find?_eq_none.2 fun w hw => by rw [not_takes (h w hw)]; exact Bool.false_ne_true
  rw [scratchByte, hnone]

/-- The write of a cycle as it is remembered: what stood in the bytes it takes. -/
def rememberedWrite (cycle rank addr : Nat) (bs : List Byte) (k : Core) : ScratchWrite :=
  { cycle := cycle, rank := rank, addr := addr,
    old := (List.range (bs.take (scratchBytes - addr)).length).map fun j => Mem.byte k.scratch (addr + j) }

theorem scratchWrite_recent (cycle rank addr : Nat) (bs : List Byte) (k : Core) : (scratchWrite cycle rank addr bs k).recent =
    (k.recent.filter fun w => w.cycle == cycle) ++ [rememberedWrite cycle rank addr bs k] := rfl

theorem rememberedWrite_takes {rank addr a : Nat} {bs : List Byte} : (rememberedWrite cycle rank addr bs k).takes cycle a = true ↔
    addr ≤ a ∧ a < addr + (bs.take (scratchBytes - addr)).length := by
  simp [takes_iff, rememberedWrite]

@[simp] theorem length_scratchKept (k : Core) (cycle rank addr : Nat) (bs : List Byte) :
    (scratchKept k cycle rank addr bs).length = bs.length := by
  simp [scratchKept]

/-- The writes of a cycle do not change what a read of that cycle finds (R90). -/
theorem scratchByte_scratchWrite (k : Core) (cycle rank addr : Nat) (bs : List Byte) (a : Nat) :
    scratchByte (scratchWrite cycle rank addr bs k) cycle a = scratchByte k cycle a := by
  have hsame : ((k.recent.filter fun w => w.cycle == cycle).find? fun w => w.takes cycle a) =
      k.recent.find? fun w => w.takes cycle a := by
    rw [List.find?_filter]
    congr 1
    funext w
    by_cases hw : w.cycle = cycle
    · simp [hw]
    · simp [not_takes hw]
  rw [scratchByte, scratchByte, scratchWrite_recent, List.find?_append, hsame]
  cases hfind : k.recent.find? fun w => w.takes cycle a with
  | some w => rfl
  | none =>
    rw [Option.none_or, List.find?_singleton]
    by_cases hin : (rememberedWrite cycle rank addr bs k).takes cycle a = true
    · rw [if_pos hin]
      obtain ⟨hle, hlt⟩ := rememberedWrite_takes.1 hin
      refine (getD_map_range _ _ 0 (by simp only [rememberedWrite]; omega)).trans ?_
      simp only [rememberedWrite]
      rw [Nat.add_sub_cancel' hle]
    · rw [if_neg hin]
      refine Mem.byte_write_other _ _ ?_
      rw [rememberedWrite_takes] at hin
      rw [length_scratchKept]
      omega

theorem scratchRead_scratchWrite (k : Core) (cycle rank dest : Nat) (bs : List Byte) (addr count : Nat) :
    scratchRead (scratchWrite cycle rank dest bs k) cycle addr count = scratchRead k cycle addr count := by
  simp only [scratchRead, scratchByte_scratchWrite]

/-- A write of the cycle that goes before one of this rank has taken the byte (R90). -/
def overridden (k : Core) (cycle rank a : Nat) : Bool := k.recent.any fun w => w.takes cycle a && decide (rank < w.rank)

theorem overridden_of_first (h : ∀ w ∈ k.recent, w.cycle ≠ cycle) (rank a : Nat) : overridden k cycle rank a = false :=
  List.any_eq_false.2 fun w hw => by simp [not_takes (h w hw)]

theorem getD_scratchKept {rank addr j : Nat} {bs : List Byte} (hj : j < bs.length) :
    (scratchKept k cycle rank addr bs).getD j 0 =
      if overridden k cycle rank (addr + j) then Mem.byte k.scratch (addr + j) else bs.getD j 0 := by
  simp [scratchKept, overridden, hj]

/-- A byte of scratch after a write: the byte written, where it lies inside scratch and no write of the cycle goes before it. -/
theorem byte_scratchWrite (h : Mem.wf k.scratch = true) (cycle rank addr : Nat) (bs : List Byte) (a : Nat) :
    Mem.byte (scratchWrite cycle rank addr bs k).scratch a =
      if (addr ≤ a ∧ a < addr + bs.length ∧ a < scratchBytes) ∧ overridden k cycle rank a = false then bs.getD (a - addr) 0
      else Mem.byte k.scratch a := by
  rw [scratchWrite_scratch, Mem.byte_write _ _ _ _ h, length_scratchKept, List.length_take]
  by_cases hin : addr ≤ a ∧ a < addr + bs.length ∧ a < scratchBytes
  · obtain ⟨hle, hlt, hend⟩ := hin
    have hj : a - addr < (bs.take (scratchBytes - addr)).length := by rw [List.length_take]; omega
    have htake : (bs.take (scratchBytes - addr)).getD (a - addr) 0 = bs.getD (a - addr) 0 := by
      rw [List.getD, List.getD, List.getElem?_take_of_lt (by omega)]
    rw [if_pos (by omega), getD_scratchKept hj, Nat.add_sub_cancel' hle, htake]
    cases overridden k cycle rank a <;> simp [hle, hlt, hend]
  · rw [if_neg (by omega), if_neg fun h => hin h.1]

/-- After the first write of a cycle, a byte of it is overridden for a write of a lower rank. -/
theorem overridden_scratchWrite (h : ∀ w ∈ k.recent, w.cycle ≠ cycle) {rank rank' addr a : Nat} {bs : List Byte}
    (ha : addr ≤ a ∧ a < addr + bs.length ∧ a < scratchBytes) :
    overridden (scratchWrite cycle rank addr bs k) cycle rank' a = decide (rank' < rank) := by
  have hnone : (k.recent.filter fun w => w.cycle == cycle) = [] := List.filter_eq_nil_iff.2 fun w hw => by simp [h w hw]
  have htakes : (rememberedWrite cycle rank addr bs k).takes cycle a = true :=
    rememberedWrite_takes.2 (by rw [List.length_take]; omega)
  rw [overridden, scratchWrite_recent, hnone, List.nil_append, List.any_cons, List.any_nil, Bool.or_false, htakes, Bool.true_and]
  rfl

/-- What the check code found is taken in the order it is listed, the bytes read alone (R91). -/
theorem scratchEcc_cons (a : Nat) (e : Ecc) (l : List (Nat × Ecc)) (addr count : Nat) (k : Core) :
    scratchEcc ((a, e) :: l) addr count k =
      scratchEcc l addr count (if addr ≤ a ∧ a < addr + count then coreEcc false k (a, e) else k) := by
  by_cases ha : addr ≤ a ∧ a < addr + count
  · simp [scratchEcc, ha]
  · rw [if_neg ha]
    simp only [scratchEcc, List.filter_cons]
    rw [if_neg (by simpa using ha)]

end

/-! What a slot's read leaves of the state. -/

section
variable (n addr count : Nat) (s : State)

@[simp] theorem scratchBound_cores : (scratchBound n addr count s).cores = s.cores := by unfold scratchBound; split <;> rfl
@[simp] theorem scratchBound_straps : (scratchBound n addr count s).straps = s.straps := by unfold scratchBound; split <;> rfl
@[simp] theorem scratchBound_thm : (scratchBound n addr count s).thm = s.thm := by unfold scratchBound; split <;> rfl
@[simp] theorem scratchBound_stu : (scratchBound n addr count s).stu = s.stu := by unfold scratchBound; split <;> rfl
@[simp] theorem scratchBound_ns : (scratchBound n addr count s).ns = s.ns := by unfold scratchBound; split <;> rfl

variable (c : Nat) (found : List (Nat × Ecc))

@[simp] theorem readSlot_straps : (readSlot n c addr count found s).straps = s.straps := scratchBound_straps ..
@[simp] theorem readSlot_thm : (readSlot n c addr count found s).thm = s.thm := scratchBound_thm ..
@[simp] theorem readSlot_stu : (readSlot n c addr count found s).stu = s.stu := scratchBound_stu ..
@[simp] theorem readSlot_ns : (readSlot n c addr count found s).ns = s.ns := scratchBound_ns ..

theorem core_readSlot : (readSlot n c addr count found s).core c = scratchEcc found addr count (s.core c) := by
  rw [readSlot, State.core_onCore, State.core, State.core, scratchBound_cores]

/-- A slot that reads twice finds the same bytes the second time. -/
theorem scratchRead_readSlot (cycle addr' count' : Nat) :
    scratchRead ((readSlot n c addr count found s).core c) cycle addr' count' = scratchRead (s.core c) cycle addr' count' := by
  rw [core_readSlot]
  exact scratchRead_congr (scratchEcc_scratch ..) (scratchEcc_recent ..) ..

end

/-- What a slot's command answers, where the slot leaves the state t. -/
theorem slotAnswers_eq {c : Instr} {s t : State} {i : Issue} {f : Nat → Nat → State → State}
    (h : exec c s = .next (onIssue c i f s))
    (ht : f (runCtx (s.core (coreNum i.core))) (coreNum i.core) (settled s i) = t) : SlotAnswers c s i t := by
  rw [← ht]
  exact slotAnswers h

/-! LOAD and LDSC. -/

/-- Settles O10: the slots as `operandB` has them for its two sources, and what a read of scratch finds. -/
theorem operandLoads : Obligations.OperandLoads := by
  refine ⟨?_, fun s n c addr count found => rfl, fun k addr count => ⟨⟨rfl, fun a e l => ?_⟩,
    fun cycle j hj => ⟨fun hend => ?_, fun hin hfirst => ?_⟩,
    fun cycle rank dest bs => scratchRead_scratchWrite k cycle rank dest bs addr count⟩⟩
  · intro s i x a c n s0 s64 s16 bytes
    refine ⟨fun b => ⟨slotAnswers_eq rfl ?_, slotAnswers_eq rfl ?_⟩, fun st => ⟨slotAnswers_eq rfl rfl, slotAnswers_eq rfl rfl⟩⟩
    · dsimp only [operandB]
      rw [scratchRead_readSlot]
      rfl
    · dsimp only [operandB]
      rw [scratchRead_readSlot, List.take_of_length_le (Nat.le_of_eq (length_scratchRead ..))]
      rfl
  · rw [scratchEcc_cons]
    cases e <;> rfl
  · exact (getD_scratchRead hj).trans (if_neg (Nat.not_lt.2 hend))
  · exact (getD_scratchRead hj).trans ((if_pos hin).trans (scratchByte_of_first hfirst _))

/-! The commands that set one register, and those that move bytes (Table 3-6). -/

theorem vMod_eq_set {α : Type} {n : Nat} (v : Vector α n) (i : Fin n) (f : α → α) (d : α) :
    vMod v i.val f = v.set i (f (vAt v i.val d)) := by
  simp [vMod, vAt]

section
variable {s t : State} (hstraps : t.straps = s.straps) (hthm : t.thm = s.thm)
include hstraps hthm

/-- The physical place of a core rests on the straps and the fuse map. -/
theorem physCol_congr (p row col : Nat) : physCol t p row col = physCol s p row col := by
  simp only [physCol, State.physPanel, hstraps, hthm]

theorem routerOfCore_congr (c : Nat) : routerOfCore t c = routerOfCore s c := by
  simp only [routerOfCore, physCol_congr hstraps hthm]

end

/-- Settles O14: the slots as the model has them, the router of MSEND's flit being that before its read, and a byte of scratch
after a store. -/
theorem coreRegisterSets : Obligations.CoreRegisterSets := by
  intro s i c n k0 read bytes
  refine ⟨fun bank d => changesCore_of_onIssueCore rfl rfl,
    fun dc fmt rnd ieee sigma tg srs => changesCore_of_onIssueCore rfl rfl,
    fun r purpose sub => changesCore_of_onIssueCore rfl ?_, fun r index => changesCore_of_onIssueCore rfl ?_,
    fun st start stride => changesCore_of_onIssueCore rfl rfl, fun vd vi => ⟨fun line => slotAnswers_eq rfl rfl,
      fun m a => slotAnswers_eq rfl rfl, fun bank base lenM1 => slotAnswers_eq rfl rfl⟩, fun vs a size => ?_,
    fun st line => slotAnswers_eq rfl rfl, fun a route => slotAnswers_eq rfl ?_, fun vs q route => slotAnswers_eq rfl rfl,
    fun k addr a bs hfirst hwf => ?_⟩
  · rw [vMod_eq_set _ r _ {}]
  · rw [vMod_eq_set _ r _ {}]
  · cases size <;> exact slotAnswers_eq rfl rfl
  · dsimp only [injectFlit]
    rw [routerOfCore_congr (readSlot_straps ..) (readSlot_thm ..)]
    rfl
  · rw [byte_scratchWrite hwf, overridden_of_first hfirst]
    simp only [and_true]
    rfl

/-! The accesses of an HBM slot (R105, R106, R122). -/

/-- What a core issues rests on its run, its instruction store and the loaded patterns. -/
theorem issuesNow_congr {s t : State} {i : Issue} (hrun : (t.core (coreNum i.core)).run = (s.core (coreNum i.core)).run)
    (hstore : (t.core (coreNum i.core)).istore = (s.core (coreNum i.core)).istore) (hwork : t.work = s.work) (cmd : Instr) :
    issuesNow t cmd i = issuesNow s cmd i := by
  simp only [issuesNow, storeWord, patternOf, hrun, hstore, hwork]

/-- The state with one more issue of a slot stream counted. -/
def countIssue (c slot : Nat) (s : State) : State :=
  s.onCore c fun x => { x with slotCount := Tab.put x.slotCount slot (Tab.getD (s.core c).slotCount slot 0 + 1) }

/-- An access of a slot's stream goes to a pseudo-channel's queue, which it reaches 64 cycles later. -/
def sendAccess (i : Issue) (t : SlotStream) (n c pc line : Nat) (a : AccessKind) (s : State) : State :=
  s.onHbm fun h => { h with inflight := h.inflight ++ [
    { pc := pc, line := line, source := .pattern, arrival := coreTime s c (i.cycle + 64), key := c, kind := a,
      owner := Fin.ofNat 16 n, region := t.region, transfer := none }] }

/-- What a slot does with line j of its stream, once its issue has been counted. -/
def accessLine (i : Issue) (t : SlotStream) (j : Option Nat) (kind : State → Nat → AccessKind)
    (stray : State → Nat → Option AccessKind) (ecc : Nat → Nat → State → State) (n c : Nat) (s : State) : State :=
  match streamTarget s n t j with
  | some (pc, line) => sendAccess i t n c pc line (kind s c) (ecc n c s)
  | none =>
    let v := violate n (if t.indirect then 0x0D else 0x01) s
    match stray v c with
    | some a => sendAccess i t n c t.pc 0 a v
    | none => v

section
variable {cmd : Instr} {i : Issue} {slot : Nat} {kind : State → Nat → AccessKind} {stray : State → Nat → Option AccessKind}
  {ecc : Nat → Nat → State → State} {s : State} {t : SlotStream}

theorem core_countIssue (c slot : Nat) (s : State) : (countIssue c slot s).core c =
    { s.core c with slotCount := Tab.put (s.core c).slotCount slot (Tab.getD (s.core c).slotCount slot 0 + 1) } :=
  State.core_onCore ..

/-- A slot that issues counts its issue, and unless it is gated off makes the access. -/
theorem hbmSlotIssue_issues (hissues : issuesNow s cmd i = true)
    (hstream : slotStream s (runCtx (s.core (coreNum i.core))) (coreNum i.core) slot = some t) :
    let c := coreNum i.core
    let u := settled (countIssue c slot s) i
    hbmSlotIssue cmd i slot kind stray ecc s = if gatedOff (s.core c) i then u
      else accessLine i t (streamLine (s.core c) i.cycle t (Tab.getD (s.core c).slotCount slot 0)) kind stray ecc
        (runCtx (s.core c)) c u := by
  intro c u
  have hcore := core_countIssue c slot s
  have hrun : ((countIssue c slot s).core c).run = (s.core c).run := by rw [hcore]
  have hstore : ((countIssue c slot s).core c).istore = (s.core c).istore := by rw [hcore]
  have hissues' : issuesNow (countIssue c slot s) cmd i = true := (issuesNow_congr hrun hstore rfl cmd).trans hissues
  have hgate : gatedOff ((countIssue c slot s).core c) i = gatedOff (s.core c) i := by rw [hcore]; rfl
  have hctx : runCtx ((countIssue c slot s).core c) = runCtx (s.core c) := by rw [hcore]; rfl
  unfold hbmSlotIssue
  dsimp only
  rw [if_neg (by simp [hissues]), hstream, ← hgate, ← hctx]
  exact onIssue_issues hissues' _

theorem accessLine_target {j : Option Nat} {n c pc line : Nat} (h : streamTarget s n t j = some (pc, line)) :
    accessLine i t j kind stray ecc n c s = sendAccess i t n c pc line (kind s c) (ecc n c s) := by
  rw [accessLine, h]

section
variable {j : Option Nat} {n c : Nat} (h : streamTarget s n t j = none)
include h

/-- A stray access is a violation, and what the command puts in its place goes to the stream's pseudo-channel (R105). -/
theorem accessLine_stray {a : AccessKind} (ha : stray (violate n (if t.indirect then 0x0D else 0x01) s) c = some a) :
    accessLine i t j kind stray ecc n c s =
      sendAccess i t n c t.pc 0 a (violate n (if t.indirect then 0x0D else 0x01) s) := by
  simp only [accessLine, h, ha]

theorem accessLine_stray_none (ha : stray (violate n (if t.indirect then 0x0D else 0x01) s) c = none) :
    accessLine i t j kind stray ecc n c s = violate n (if t.indirect then 0x0D else 0x01) s := by
  simp only [accessLine, h, ha]

end

/-- Where a stream's line lies rests on the HBM regions and the straps. -/
theorem streamTarget_countIssue (n c : Nat) (j : Option Nat) :
    streamTarget (settled (countIssue c slot s) i) n t j = streamTarget s n t j := rfl

end

/-- HWR reads its line as the slot finds it, though its issue has been counted. -/
theorem scratchRead_countIssue (s : State) (i : Issue) (slot addr count : Nat) :
    scratchRead ((settled (countIssue (coreNum i.core) slot s) i).core (coreNum i.core)) i.cycle addr count =
      scratchRead (coreAt s i) i.cycle addr count := by
  refine scratchRead_congr ?_ ?_ ..
  · rw [core_settled, coreAt_eq, settle_scratch, settle_scratch, core_countIssue]
  · rw [core_settled, coreAt_eq, settle_recent, settle_recent, core_countIssue]

theorem coreTime_readSlot (n addr count : Nat) (s : State) (c : Nat) (found : List (Nat × Ecc)) (d cycle : Nat) :
    coreTime (readSlot n c addr count found s) d cycle = coreTime s d cycle := by
  simp only [coreTime, readSlot_ns, readSlot_stu, readSlot_thm]

/-- Settles O15: a slot that issues counts its issue; ungated it sends its access, or counts a stray one. -/
theorem hbmSlotAccesses : Obligations.HbmSlotAccesses := by
  intro s i slot line t c n hstream count j s1 queue due stray
  have hgated {cmd kind stray ecc} (hissues : issuesNow s cmd i = true) (hgate : gatedOff (s.core c) i = true) :
      hbmSlotIssue cmd i slot.toNat kind stray ecc s = s1 :=
    (hbmSlotIssue_issues hissues hstream).trans (if_pos hgate)
  have hsends {cmd kind stray ecc} (hissues : issuesNow s cmd i = true) (hgate : gatedOff (s.core c) i = false) :
      hbmSlotIssue cmd i slot.toNat kind stray ecc s = accessLine i t j kind stray ecc n c s1 :=
    (hbmSlotIssue_issues hissues hstream).trans (if_neg (by simp [c, hgate]))
  have htarget (j : Option Nat) : streamTarget s1 n t j = streamTarget s n t j := streamTarget_countIssue ..
  refine ⟨fun hissues hgate => congrArg Host.Outcome.next (hgated hissues hgate),
    fun hissues hgate => congrArg Host.Outcome.next (hgated hissues hgate),
    fun hgate => ⟨fun hissues => ⟨fun pc l hpc => congrArg Host.Outcome.next ?_, fun hnone => congrArg Host.Outcome.next ?_⟩,
      fun hissues => ⟨fun pc l hpc => congrArg Host.Outcome.next ?_, fun hnone => congrArg Host.Outcome.next ?_⟩⟩⟩
  · exact (hsends hissues hgate).trans (accessLine_target ((htarget j).trans hpc))
  · exact (hsends hissues hgate).trans (accessLine_stray ((htarget j).trans hnone) rfl)
  · refine (hsends hissues hgate).trans ((accessLine_target ((htarget j).trans hpc)).trans ?_)
    have hread : scratchRead (s1.core c) i.cycle (64 * line.toNat) 64 = scratchRead (coreAt s i) i.cycle (64 * line.toNat) 64 :=
      scratchRead_countIssue ..
    rw [sendAccess, coreTime_readSlot, hread]
    rfl
  · exact (hsends hissues hgate).trans (accessLine_stray_none ((htarget j).trans hnone) rfl)

/-! The control slot (R106 to R109). -/

section
variable {cmd : Instr} {i : Issue} {s : State} {r : CoreRun}

/-- A control slot that issues has its effect on the core, its late writes in their registers and its word's check code taken. -/
theorem onControl_issues (hissues : issuesNow s cmd i = true) (hrun : (s.core (coreNum i.core)).run = some r)
    (f : CoreRun → Core → Core) : onControl cmd i f s =
      s.onCore (coreNum i.core) fun k => f r (wordEcc i.ecc (storeWord s (coreNum i.core) r) (settle i.cycle k)) := by
  unfold onControl
  dsimp only
  rw [if_neg (by simp [hissues]), hrun]

theorem exec_of_onControl {f : CoreRun → Core → Core} (hissues : issuesNow s cmd i = true)
    (hrun : (s.core (coreNum i.core)).run = some r) (h : exec cmd s = .next (onControl cmd i f s)) : exec cmd s =
      .next (s.onCore (coreNum i.core) fun k => f r (wordEcc i.ecc (storeWord s (coreNum i.core) r) (settle i.cycle k))) := by
  rw [h, onControl_issues hissues hrun]

end

/-- Settles O16: each command is its effect through `onControl`, and the end of a word by whether it ends the innermost loop. -/
theorem controlSlot : Obligations.ControlSlot := by
  refine ⟨fun s i r hrun => ?_, fun pc f rest => ⟨rfl, fun hinside => if_neg hinside, fun hend => if_pos hend⟩⟩
  refine ⟨fun h => (exec_of_onControl h hrun rfl :), fun slot hslot => ?_, fun cr v h => (exec_of_onControl h hrun rfl :),
    fun p level cmp imm h => (exec_of_onControl h hrun rfl :), fun d h => (exec_of_onControl h hrun rfl :),
    fun body count h => (exec_of_onControl h hrun rfl :), fun h => (exec_of_onControl h hrun rfl :)⟩
  cases slot with
  | control => exact absurd rfl hslot
  | array => rfl
  | vector => rfl
  | move => rfl

/-- The leader core of a band is the one at its first logical row and logical column 0 (R109). -/
theorem isLeader_coreNum (c : CoreId) : isLeader (coreNum c) = true ↔ c.row.val % 5 = 0 ∧ c.col.val = 0 := by
  have hcol := c.col.isLt
  rw [isLeader, beq_iff_eq, coreNum]
  omega

/-- Settles O17: PHASE ends its word as NOP does, and marks the band where its core is the leader. -/
theorem phaseMarksOnLeader : Obligations.PhaseMarks := by
  intro s i code r hissues hrun t
  have hword : onControl (.phase i code) i (goOn i 0) s = t := onControl_issues hissues hrun _
  refine congrArg Host.Outcome.next ?_
  rw [hword, hissues]
  by_cases hlead : i.core.row.val % 5 = 0 ∧ i.core.col.val = 0
  · exact (if_pos ⟨rfl, (isLeader_coreNum i.core).2 hlead⟩).trans (if_pos hlead).symm
  · exact (if_neg fun h => hlead ((isLeader_coreNum i.core).1 h.2)).trans (if_neg hlead).symm

/-! Arrivals at a router (R111 to R113, R116). -/

/-- The flits that reach a router are no longer on their way. -/
def takeFlits (r : Nat) (flits : List (MeshIn × Flit)) (s : State) : State := s.each flits fun s x => takeFlit r x s

section
variable {s : State} {r : Nat}

theorem takeFlits_flt_straps (r : Nat) (flits : List (MeshIn × Flit)) (s : State) :
    (takeFlits r flits s).flt = s.flt ∧ (takeFlits r flits s).straps = s.straps := by
  induction flits generalizing s with
  | nil => exact ⟨rfl, rfl⟩
  | cons x flits ih => exact ih (takeFlit r x s)

theorem band_takeFlits (flits : List (MeshIn × Flit)) (g : Nat) : (takeFlits r flits s).band g = s.band g := by
  rw [State.band, State.band, (takeFlits_flt_straps r flits s).1]

theorem bandState_takeFlits (flits : List (MeshIn × Flit)) (g : Nat) : bandState (takeFlits r flits s) g = bandState s g := by
  rw [bandState, bandState, band_takeFlits, State.nPanels, State.nPanels, (takeFlits_flt_straps r flits s).2]

/-- A band that is unavailable or not ON takes no flit (R85, R368); another routes them in the order of their inputs (R113). -/
theorem exec_flitArrival (router : RouterId) (flits : List (MeshIn × Flit)) (s : State) :
    let r := routerIdNum router
    let g := bandOfRouter r
    let u := takeFlits r flits s
    exec (.flitArrival router flits) s =
      if bandState s g = .unavailable then .next (u.each flits fun s _ => violate (s.band g).owner.val 0x05 s)
      else if bandDrops (s.band g) then .next (u.each flits fun s _ => fenceDrop g (s.band g).owner.val s)
      else .next ((byInput flits).foldl (fun (a : State × List Nat) x => routeFlit r x.2 a.2 a.1) (u, [])).1 := by
  intro r g u
  rw [← bandState_takeFlits (r := r) flits g, ← band_takeFlits (r := r) flits g]
  rfl

theorem exec_flitArrival_routed {router : RouterId} (havail : bandState s (bandOfRouter (routerIdNum router)) ≠ .unavailable)
    (hdrops : bandDrops (s.band (bandOfRouter (routerIdNum router))) = false) (flits : List (MeshIn × Flit)) :
    exec (.flitArrival router flits) s = .next ((byInput flits).foldl (fun (a : State × List Nat) x =>
      routeFlit (routerIdNum router) x.2 a.2 a.1) (takeFlits (routerIdNum router) flits s, [])).1 := by
  rw [exec_flitArrival, if_neg havail, if_neg (ne_true_of_eq_false hdrops)]

end

/-! One flit at a router that takes it. -/

theorem mem_entryOuts {e : BitVec 32} {o : Nat} : o ∈ entryOuts e ↔ (25 ≤ o ∧ o < 31) ∧ e.getLsbD o = true := by
  simp only [entryOuts, List.mem_filterMap, List.mem_range, Option.ite_none_right_eq_some, Option.some.injEq]
  constructor
  · rintro ⟨i, hi, hbit, rfl⟩
    exact ⟨by omega, hbit⟩
  · rintro ⟨ho, hbit⟩
    have hi : 25 + (o - 25) = o := by omega
    exact ⟨o - 25, by omega, (congrArg (bit e) hi).trans hbit, hi⟩

theorem nodup_entryOuts (e : BitVec 32) : (entryOuts e).Nodup := by
  refine List.pairwise_filterMap.2 (List.nodup_range.imp fun hne o ho p hp => ?_)
  simp only [Option.ite_none_right_eq_some, Option.some.injEq] at ho hp
  omega

theorem count_entryOuts {e : BitVec 32} {o : Nat} (ho : o ∈ entryOuts e) : (entryOuts e).count o = 1 :=
  (nodup_entryOuts e).count.trans (if_pos ho)

theorem contains_entryOuts (e : BitVec 32) {o : Nat} (ho : 25 ≤ o ∧ o < 31) : (entryOuts e).contains o = e.getLsbD o := by
  rw [Bool.eq_iff_iff, List.contains_iff_mem, mem_entryOuts]
  exact ⟨fun h => h.2, fun h => ⟨ho, h⟩⟩

theorem MeshOut.bitOf_bounds (o : MeshOut) : 25 ≤ o.bitOf ∧ o.bitOf < 31 := by
  cases o <;> exact ⟨by decide, by decide⟩

/-- A flit leaves by every output that its entry selects, the local one among them. -/
def passFlit (r : Nat) (e : BitVec 32) (f : Flit) (s : State) : State :=
  (if e.getLsbD 26 then ejectFlit r e f s else s).each (meshOuts.filter fun o => e.getLsbD o.bitOf) fun u o => leaveBy r f o u

section
variable {r : Nat} {f : Flit} {used : List Nat} {s : State} {e : BitVec 32}

theorem routeFlit_absent (h : routeEntry s r f.route.toNat = none) :
    routeFlit r f used s = (violate (pageContext s (bandOfRouter r)) 0x0A s, used) := by
  rw [routeFlit, h]

/-- A flit passes where each of its outputs carries one more. -/
theorem routeFlit_passes (h : routeEntry s r f.route.toNat = some e)
    (hfree : ∀ o ∈ entryOuts e, used.count o < outputCarries r o) :
    routeFlit r f used s = (passFlit r e f s, used ++ entryOuts e) := by
  have hany : ((entryOuts e).any fun o => decide (outputCarries r o ≤ used.count o)) = false :=
    List.any_eq_false.2 fun o ho => by simpa using hfree o ho
  have houts : (meshOuts.filter fun o => (entryOuts e).contains o.bitOf) = meshOuts.filter fun o => e.getLsbD o.bitOf :=
    List.filter_congr fun o _ => contains_entryOuts e o.bitOf_bounds
  rw [routeFlit, h]
  dsimp only
  rw [hany, houts, contains_entryOuts e (by decide)]
  rfl

/-- A flit is discarded where an output it asks for carries no more (R113). -/
theorem routeFlit_conflicts (h : routeEntry s r f.route.toNat = some e) {o : Nat} (ho : o ∈ entryOuts e)
    (hfull : outputCarries r o ≤ used.count o) : routeFlit r f used s = (meshConflict r f s, used) := by
  have hany : ((entryOuts e).any fun o => decide (outputCarries r o ≤ used.count o)) = true :=
    List.any_eq_true.2 ⟨o, ho, decide_eq_true hfull⟩
  rw [routeFlit, h]
  dsimp only
  rw [hany]
  rfl

theorem outputCarries_pos (r o : Nat) : 0 < outputCarries r o := by
  unfold outputCarries
  split <;> decide

/-- Away from the short edges an output carries one flit in a cycle (R113). -/
theorem outputCarries_one {r o : Nat} (heast : o ≠ MeshOut.east.bitOf ∨ r % 128 ≠ 127)
    (hwest : o ≠ MeshOut.west.bitOf ∨ r % 128 ≠ 0) : outputCarries r o = 1 :=
  if_neg fun h => h.elim (fun ⟨ho, hr⟩ => heast.elim (· ho) (· hr)) fun ⟨ho, hr⟩ => hwest.elim (· ho) (· hr)

/-- Over a short edge an output carries two (R116). -/
theorem outputCarries_two {r : Nat} {m : MeshOut} (h : (m = .east ∧ r % 128 = 127) ∨ (m = .west ∧ r % 128 = 0)) :
    outputCarries r m.bitOf = 2 :=
  if_pos (h.imp (fun ⟨hm, hr⟩ => ⟨congrArg _ hm, hr⟩) fun ⟨hm, hr⟩ => ⟨congrArg _ hm, hr⟩)

/-- The first flit that a router serves in a cycle passes. -/
theorem routeFlit_first (h : routeEntry s r f.route.toNat = some e) :
    routeFlit r f [] s = (passFlit r e f s, entryOuts e) :=
  routeFlit_passes h fun o _ => outputCarries_pos r o

end

/-! A flit that passes leaves the routing of the next as it is. -/

/-- The states agree in what a route entry is read from. -/
structure SameRoutes (s t : State) : Prop where
  routers : t.cores.routers = s.cores.routers
  stu : t.stu = s.stu
  work : t.work = s.work

section
variable {s t u : State}

theorem SameRoutes.refl (s : State) : SameRoutes s s := ⟨rfl, rfl, rfl⟩

theorem SameRoutes.trans (h : SameRoutes s t) (k : SameRoutes t u) : SameRoutes s u :=
  ⟨k.routers.trans h.routers, k.stu.trans h.stu, k.work.trans h.work⟩

theorem SameRoutes.routeEntry_eq (h : SameRoutes s t) (r route : Nat) : routeEntry t r route = routeEntry s r route := by
  simp only [routeEntry, routePage, State.router, h.routers, h.stu, h.work]

theorem ejectFlit_sameRoutes (r : Nat) (e : BitVec 32) (f : Flit) (s : State) : SameRoutes s (ejectFlit r e f s) := by
  unfold ejectFlit
  split <;> exact ⟨rfl, rfl, rfl⟩

theorem gatherCell_sameRoutes (hem r n : Nat) (d : CellData) (s : State) : SameRoutes s (gatherCell hem r n d s) := by
  unfold gatherCell
  dsimp only
  split
  · exact .refl s
  · split <;> exact ⟨rfl, rfl, rfl⟩

theorem leaveBy_sameRoutes (r : Nat) (f : Flit) (o : MeshOut) (s : State) : SameRoutes s (leaveBy r f o s) := by
  unfold leaveBy
  split
  · exact gatherCell_sameRoutes ..
  · split
    · exact .refl s
    · exact ⟨rfl, rfl, rfl⟩

theorem each_sameRoutes {α : Type} (l : List α) (f : State → α → State) (hf : ∀ s a, SameRoutes s (f s a)) (s : State) :
    SameRoutes s (s.each l f) := by
  induction l generalizing s with
  | nil => exact .refl s
  | cons a l ih => exact (hf s a).trans (ih (f s a))

theorem passFlit_sameRoutes (r : Nat) (e : BitVec 32) (f : Flit) (s : State) : SameRoutes s (passFlit r e f s) := by
  refine SameRoutes.trans ?_ (each_sameRoutes _ _ (fun s o => leaveBy_sameRoutes r f o s) _)
  split
  · exact ejectFlit_sameRoutes ..
  · exact .refl s

end

/-! Two flits at a router in one cycle. -/

theorem byInput_pair {a b : MeshIn} (f g : Flit) (h : inputRank a < inputRank b) :
    byInput [(a, f), (b, g)] = [(a, f), (b, g)] ∧ byInput [(b, g), (a, f)] = [(a, f), (b, g)] := by
  simp [byInput, insertFlit, h, Nat.not_lt.2 (Nat.le_of_lt h)]

section
variable {r o : Nat} {f g : Flit} {e d : BitVec 32} {s : State}

/-- Of two flits that ask for one output the second is discarded, but over a short edge (R113, R116). -/
theorem routeFlit_second_conflicts (he : routeEntry s r f.route.toNat = some e) (hd : routeEntry s r g.route.toNat = some d)
    (hoe : o ∈ entryOuts e) (hod : o ∈ entryOuts d) (hone : outputCarries r o = 1) :
    (routeFlit r g (routeFlit r f [] s).2 (routeFlit r f [] s).1).1 = meshConflict r g (routeFlit r f [] s).1 := by
  rw [routeFlit_first he]
  have hd' := ((passFlit_sameRoutes r e f s).routeEntry_eq r g.route.toNat).trans hd
  rw [routeFlit_conflicts hd' hod (Nat.le_of_eq (hone.trans (count_entryOuts hoe).symm))]

/-- Over a short edge the second flit passes too, by the one output that it asks for (R116). -/
theorem routeFlit_second_passes (he : routeEntry s r f.route.toNat = some e) (hd : routeEntry s r g.route.toNat = some d)
    (hoe : o ∈ entryOuts e) (honly : ∀ j ∈ entryOuts d, j = o) (htwo : outputCarries r o = 2) :
    (routeFlit r g (routeFlit r f [] s).2 (routeFlit r f [] s).1).1 = passFlit r d g (routeFlit r f [] s).1 := by
  rw [routeFlit_first he]
  have hd' := ((passFlit_sameRoutes r e f s).routeEntry_eq r g.route.toNat).trans hd
  rw [routeFlit_passes hd' fun j hj => by rw [honly j hj, count_entryOuts hoe, htwo]; decide]

end

/-- A flit that asks for one output only leaves by it. -/
theorem passFlit_single {d : BitVec 32} {m : MeshOut} (h : ∀ j, 25 ≤ j → j < 31 → (d.getLsbD j = true ↔ j = m.bitOf))
    (r : Nat) (g : Flit) (s : State) : passFlit r d g s = leaveBy r g m s := by
  have hbit (j : Nat) (hle : 25 ≤ j) (hlt : j < 31) : d.getLsbD j = decide (j = m.bitOf) := by
    rw [Bool.eq_iff_iff, h j hle hlt, decide_eq_true_iff]
  have hlocal : d.getLsbD 26 = false := by
    rw [hbit 26 (by decide) (by decide)]
    cases m <;> rfl
  have houts : (meshOuts.filter fun o => d.getLsbD o.bitOf) = [m] := by
    rw [List.filter_congr fun o _ => hbit _ o.bitOf_bounds.1 o.bitOf_bounds.2]
    cases m <;> rfl
  rw [passFlit, hlocal, houts]
  rfl

/-! Writes of one cycle that reach the same bytes of scratch (R90). -/

section
variable {k : Core} {cycle lower higher addr j : Nat} {x y : List Byte}

/-- The write of the higher rank stands where it comes second. -/
theorem byte_scratchWrite_higher_second (hrank : lower < higher) (hlen : x.length = y.length)
    (hfirst : ∀ w ∈ k.recent, w.cycle ≠ cycle) (hwf : Mem.wf k.scratch = true) (hj : j < y.length) (hend : addr + j < 0xC000) :
    Mem.byte (scratchWrite cycle higher addr y (scratchWrite cycle lower addr x k)).scratch (addr + j) = y.getD j 0 := by
  have hin {l : List Byte} (hl : l.length = y.length) :
      addr ≤ addr + j ∧ addr + j < addr + l.length ∧ addr + j < scratchBytes := ⟨by omega, by omega, hend⟩
  have hwf' : Mem.wf (scratchWrite cycle lower addr x k).scratch = true := Mem.write_wf _ _ _ hwf
  have hstands : overridden (scratchWrite cycle lower addr x k) cycle higher (addr + j) = false := by
    rw [overridden_scratchWrite hfirst (hin hlen)]
    exact decide_eq_false (by omega)
  rw [byte_scratchWrite hwf', if_pos ⟨hin rfl, hstands⟩, Nat.add_sub_cancel_left]

/-- It stands too where it comes first. -/
theorem byte_scratchWrite_higher_first (hrank : lower < higher)
    (hfirst : ∀ w ∈ k.recent, w.cycle ≠ cycle) (hwf : Mem.wf k.scratch = true) (hj : j < y.length) (hend : addr + j < 0xC000) :
    Mem.byte (scratchWrite cycle lower addr x (scratchWrite cycle higher addr y k)).scratch (addr + j) = y.getD j 0 := by
  have hin : addr ≤ addr + j ∧ addr + j < addr + y.length ∧ addr + j < scratchBytes := ⟨by omega, by omega, hend⟩
  have hwf' : Mem.wf (scratchWrite cycle higher addr y k).scratch = true := Mem.write_wf _ _ _ hwf
  have hover : overridden (scratchWrite cycle higher addr y k) cycle lower (addr + j) = true := by
    rw [overridden_scratchWrite hfirst hin]
    exact decide_eq_true hrank
  rw [byte_scratchWrite hwf', if_neg (by simp [hover]), byte_scratchWrite hwf, if_pos ⟨hin, overridden_of_first hfirst ..⟩,
    Nat.add_sub_cancel_left]

end

/-- The earliest read of a core lies in its scratch line, unless that lies past the end of scratch (R89, R90, R105). -/
theorem exec_hrdReturn {s : State} {core : CoreId} {r : HrdReturn}
    (hfirst : firstReturn (coreNum core) s.cores.returns = some r) :
    let c := coreNum core
    let taken := s.onCores fun k => { k with returns := k.returns.erase r }
    exec (.hrdReturn core) s = .next ((if 768 ≤ r.line then violate (runCtx (s.core c)) 0x0C taken else taken).onCore c
      (scratchWrite (cycleNow taken c) 2 (64 * r.line) (leBytes 64 r.data.toNat))) := by
  intro c taken
  have hend : scratchBytes < 64 * r.line + 64 ↔ 768 ≤ r.line := by
    simp only [scratchBytes]
    omega
  have hbound : scratchBound (runCtx (taken.core c)) (64 * r.line) 64 taken =
      if 768 ≤ r.line then violate (runCtx (s.core c)) 0x0C taken else taken := by
    by_cases hpast : 768 ≤ r.line
    · exact (if_pos (hend.2 hpast)).trans (if_pos hpast).symm
    · exact (if_neg fun h => hpast (hend.1 h)).trans (if_neg hpast).symm
  have hnow : cycleNow (scratchBound (runCtx (taken.core c)) (64 * r.line) 64 taken) c = cycleNow taken c := by
    simp only [cycleNow, scratchBound_stu, scratchBound_thm]
  change execHrdReturn core s = _
  unfold execHrdReturn
  dsimp only
  rw [hfirst]
  dsimp only
  rw [← hbound, ← hnow]

/-- Settles O18: a band's state and its route entry say what becomes of one flit; of two, the lower input's is served first and
takes its outputs; writes of one cycle stand by their rank. -/
theorem arrivalsAtCoresAndRouters : Obligations.ArrivalsAtCoresAndRouters := by
  refine ⟨fun s core r hfirst => exec_hrdReturn hfirst, fun s router input f => ?_, fun s router a b f g e d o => ?_,
    fun k cycle lower higher addr x y hrank _ hlen hfirst hwf j hj hend =>
      ⟨byte_scratchWrite_higher_second hrank hlen hfirst hwf hj hend, byte_scratchWrite_higher_first hrank hfirst hwf hj hend⟩⟩
  · intro r t s1
    refine ⟨fun hun => ?_, fun hav hdr => ?_, fun hav hdr => ⟨fun hnone => ?_, fun e he => ?_⟩⟩
    · rw [exec_flitArrival, if_pos hun]
      rfl
    · rw [exec_flitArrival, if_neg hav, if_pos hdr]
      rfl
    · rw [exec_flitArrival_routed hav hdr]
      exact congrArg (fun x => Host.Outcome.next x.1) (routeFlit_absent (s := s1) hnone)
    · intro key eject
      rw [exec_flitArrival_routed hav hdr]
      exact congrArg (fun x => Host.Outcome.next x.1) (routeFlit_first (s := s1) he)
  · intro r s2 hav hdr hrank he hd hle hlt hoe hod first
    obtain ⟨horder, horder'⟩ := byInput_pair f g hrank
    have hoe' : o ∈ entryOuts e := mem_entryOuts.2 ⟨⟨hle, hlt⟩, hoe⟩
    have hod' : o ∈ entryOuts d := mem_entryOuts.2 ⟨⟨hle, hlt⟩, hod⟩
    refine ⟨fun heast hwest => ?_, fun m hm hedge honly => ?_⟩
    · have hone := outputCarries_one heast hwest
      rw [exec_flitArrival_routed hav hdr, horder, exec_flitArrival_routed hav hdr, horder']
      exact ⟨congrArg Host.Outcome.next (routeFlit_second_conflicts (s := s2) he hd hoe' hod' hone),
        congrArg Host.Outcome.next
          (routeFlit_second_conflicts (s := takeFlit r (a, f) (takeFlit r (b, g) s)) he hd hoe' hod' hone)⟩
    · subst hm
      have hall : ∀ j ∈ entryOuts d, j = m.bitOf := fun j hj =>
        let ⟨⟨hle, hlt⟩, hbit⟩ := mem_entryOuts.1 hj
        (honly j hle hlt).1 hbit
      rw [exec_flitArrival_routed hav hdr, horder, ← passFlit_single honly]
      exact congrArg Host.Outcome.next (routeFlit_second_passes (s := s2) he hd hoe' hall (outputCarries_two hedge))

end Sys2Proof.Machine

/-! PROOFS, family 04_patterns: the descriptors of patterns, and what they leave in the ledger. -/

namespace Sys2Proof.Machine

/-! A descriptor that starts (R378, R379, R381). -/

section
variable {s : State} {n : Ctx} {d : Taken} {rest : List Taken}

/-- An ACTIVE context other than the system context takes every descriptor but those of one tenancy (R381). -/
theorem ringRefusal_active (hn : n ≠ 0) (hactive : (s.ctx n.val).state = .active) {type : Nat} (htype : type < 9 ∨ 11 < type) :
    ringRefusal s n.val type = none := by
  have hsystem : n.val ≠ 0 := fun h => hn (Fin.ext h)
  have hserving : ¬ ((s.ctx n.val).serving ∧ type = 9) := by omega
  have htraining : ¬ (¬ (s.ctx n.val).serving ∧ (type = 0x0A ∨ type = 0x0B)) := by omega
  simp only [ringRefusal, hsystem, hactive, hserving, htraining, reduceCtorEq, ne_eq, not_true_eq_false, if_false, ite_self]

/-- A descriptor that starts is taken off its ring and given to its own rules. -/
theorem onDescriptor_starts (hs : Starts s n d rest) {type : Nat} (htype : leAt d.bytes 0 1 = type)
    (hkind : type < 6 ∨ 11 < type) {fits : List Byte → Bool} (hfits : fits d.bytes = true) (f : Taken → State → State) :
    onDescriptor n.val type fits f s = f d (taken n rest s) := by
  obtain ⟨hfront, hwaits, hturn, hn, hactive⟩ := hs
  have hshard : ¬ (6 ≤ type ∧ type ≤ 8) := by omega
  have hrefusal : ringRefusal (taken n rest s) n.val type = none := ringRefusal_active hn hactive (by omega)
  rw [taken] at hrefusal ⊢
  simp [onDescriptor, hfront, hwaits, hturn, hfits, htype, hshard, hrefusal]

theorem exec_descriptorNop (hs : Starts s n d rest) (htype : leAt d.bytes 0 1 = 0) : exec (.descriptorNop n) s =
    .next (complete n.val 0 (flag d.bytes 0) d.index.toNat 0 (taken n rest s)) :=
  congrArg Host.Outcome.next (onDescriptor_starts hs htype (by decide) rfl _)

theorem exec_loadPattern (hs : Starts s n d rest) (htype : leAt d.bytes 0 1 = 1) :
    exec (.loadPattern n) s = .next (startLoad n.val d (taken n rest s)) :=
  congrArg Host.Outcome.next (onDescriptor_starts hs htype (by decide) rfl _)

theorem voteOnly_iff {b : List Byte} : voteOnly b = true ↔ handleOf b = 0xFFFF ∧ flag b 2 = true := by
  rw [voteOnly, Bool.and_eq_true, beq_iff_eq]

theorem exec_arm (hs : Starts s n d rest) (htype : leAt d.bytes 0 1 = 2)
    (hpattern : ¬ (handleOf d.bytes = 0xFFFF ∧ flag d.bytes 2 = true)) :
    exec (.arm n) s = .next (armPattern n.val d (taken n rest s)) :=
  have hfits : (!voteOnly d.bytes) = true := by simpa only [Bool.not_eq_true', ← Bool.not_eq_true, voteOnly_iff] using hpattern
  congrArg Host.Outcome.next (onDescriptor_starts hs htype (by decide) hfits _)

theorem exec_voteMark (hs : Starts s n d rest) (htype : leAt d.bytes 0 1 = 2)
    (hvote : handleOf d.bytes = 0xFFFF ∧ flag d.bytes 2 = true) :
    exec (.voteMark n) s = .next (armVote n.val d (taken n rest s)) :=
  congrArg Host.Outcome.next (onDescriptor_starts hs htype (by decide) (voteOnly_iff.2 hvote) _)

theorem exec_disarm (hs : Starts s n d rest) (htype : leAt d.bytes 0 1 = 3) (hkeeps : flag d.bytes 2 = false) :
    exec (.disarm n) s = .next (readDisarm n.val d (taken n rest s)) :=
  congrArg Host.Outcome.next (onDescriptor_starts hs htype (by decide) (by simp [hkeeps]) _)

theorem exec_unload (hs : Starts s n d rest) (htype : leAt d.bytes 0 1 = 3) (hunload : flag d.bytes 2 = true) :
    exec (.unload n) s = .next (readDisarm n.val d (taken n rest s)) :=
  congrArg Host.Outcome.next (onDescriptor_starts hs htype (by decide) hunload _)

theorem exec_fence (hs : Starts s n d rest) (htype : leAt d.bytes 0 1 = 0x0C) :
    exec (.fence n) s = .next (fenceRegion n.val d (taken n rest s)) :=
  congrArg Host.Outcome.next (onDescriptor_starts hs htype (by decide) rfl _)

end

/-! LOAD_PATTERN (R126, R127, R129). -/

/-- A handle is loaded or being loaded. -/
def handleUsed (s : State) (n h : Nat) : Bool :=
  (patternOf s n h).isSome || s.work.loads.any fun j => j.ctx.val == n && j.handle == h

section
variable {s : State} {n : Ctx} {d : Taken}

theorem startLoad_handle (h : 64 ≤ handleOf d.bytes ∨ handleUsed s n.val (handleOf d.bytes) = true) :
    startLoad n.val d s = refuse n.val d 0x20 (handleOf d.bytes) 0 s := if_pos h

variable (hfree : ¬ (64 ≤ handleOf d.bytes ∨ handleUsed s n.val (handleOf d.bytes) = true))
include hfree

theorem startLoad_deviceFull (htotal : 256 ≤ loadedTotal s) :
    startLoad n.val d s = refuse n.val d 0x14 (loadedTotal s) 256 s :=
  (if_neg hfree).trans (if_pos htotal)

theorem startLoad_contextFull (htotal : loadedTotal s < 256) (hcount : 64 ≤ loadedCount s n.val) :
    startLoad n.val d s = refuse n.val d 0x14 (loadedCount s n.val) 64 s :=
  (if_neg hfree).trans ((if_neg (Nat.not_le.2 htotal)).trans (if_pos hcount))

theorem startLoad_enters (htotal : loadedTotal s < 256) (hcount : loadedCount s n.val < 64) :
    let b := d.bytes
    startLoad n.val d s = s.onWork fun w => { w with loads := w.loads ++ [
      { ctx := n, handle := handleOf b, ringIndex := d.index.toNat, addr := leAt b 8 8, size := leAt b 16 4
        panelMap := (slice b 24 8).map (·.toNat), bandBase := (slice b 32 8).map (·.toNat) }] } := by
  refine (if_neg hfree).trans ((if_neg (Nat.not_le.2 htotal)).trans ((if_neg (Nat.not_le.2 hcount)).trans ?_))
  rw [Fin.ofNat_val_eq_self]

end

section
variable {s : State} {n : Nat} {j : LoadJob} {ok : Bool} (hj : s.work.loads.find? (fun j => j.ctx.val == n) = some j)
include hj

/-- A load that a check fails ends with the check's refusal. -/
theorem patternLoaded_refused {reason d0 d1 : Nat}
    (hcheck : checkLoad s j (Mem.bytes s.hostMem j.addr j.size) ok = .error (reason, d0, d1)) :
    patternLoaded n ok s = postRefusal n reason 0x01 j.ringIndex j.handle d0 d1 (dropLoad j s) := by
  unfold patternLoaded
  rw [hj]
  dsimp only
  rw [hcheck]

/-- A load that passes is installed and completes. -/
theorem patternLoaded_installs {p : Pattern} {copies : List (Nat × List Nat)} {fills : List RouteFill}
    (hcheck : checkLoad s j (Mem.bytes s.hostMem j.addr j.size) ok = .ok (p, copies, fills)) :
    patternLoaded n ok s =
      postCompletion n 0x01 0 0 j.ringIndex j.handle 0 [] (installPattern p copies fills (dropLoad j s)) := by
  unfold patternLoaded
  rw [hj]
  dsimp only
  rw [hcheck]

end

/-! ARM and VOTE_MARK (R130, R134, R190). -/

/-- FIRST_STITCH other than 0 is the start itself (R130). -/
theorem resolveFirst_of_ne_zero (s : State) (bands : List Nat) {f : Stitch} (hf : f ≠ 0) : resolveFirst s bands f = f := if_pos hf

/-- An entry as admission counts it runs on the bands of the entry armed. -/
theorem exists_bands_of_mem_ledgerEntries {s : State} {e : ArmEntry} (he : e ∈ ledgerEntries s) :
    ∃ a ∈ s.work.entries, e.bands = a.bands := by
  obtain ⟨a, ha, rfl⟩ := List.mem_map.1 he
  exact ⟨a, ha, by split <;> rfl⟩

/-- FIRST_STITCH 0 is two stitches ahead on bands that no entry is armed on (R130). -/
theorem resolveFirst_zero {s : State} {bands : List Nat} (hfree : ∀ e ∈ s.work.entries, ∀ g ∈ e.bands, g ∉ bands) :
    resolveFirst s bands 0 = s.stu.stitch + 2 := by
  have hon : ((ledgerEntries s).filter fun e => e.bands.any fun g => bands.contains g) = [] := by
    rw [List.filter_eq_nil_iff]
    intro e he
    obtain ⟨a, ha, hbands⟩ := exists_bands_of_mem_ledgerEntries he
    simpa [hbands] using hfree a ha
  unfold resolveFirst
  rw [if_neg (by simp), hon]
  rfl

/-- A vote-only ARM starts on no band: FIRST_STITCH 0 is two stitches ahead (R190). -/
theorem resolveFirst_nil (s : State) (f : Stitch) : resolveFirst s [] f = if f = 0 then s.stu.stitch + 2 else f := by
  split
  · next h => rw [h, resolveFirst_zero fun _ _ _ _ => List.not_mem_nil]
  · next h => exact resolveFirst_of_ne_zero s [] h

/-- A vote stitch is too early, or the new slices of its context are not read yet (R190, R311). -/
def voteTooEarly (s : State) (n : Nat) (v : Stitch) : Bool :=
  tooEarly s v 2 || (s.train n).reslicing && !(s.train n).rebuildRead

section
variable {s : State} {n : Nat} {v : Stitch}

theorem voteRefusal_early (h : voteTooEarly s n v = true) :
    voteRefusal s n v = some (0x28, v.toNat % 2 ^ 32, s.stu.stitch.toNat % 2 ^ 32) :=
  if_pos (by simpa [voteTooEarly] using h)

variable (h : voteTooEarly s n v = false)
include h

/-- A VOTE that START takes rests on the vote stitch that its context holds: one at most (R190). -/
theorem voteRefusal_inTime : voteRefusal s n v =
    (s.train n).voteStitch.map fun x => (0x29, fld (s.train n).vote 15 0, x.toNat % 2 ^ 32) := by
  unfold voteRefusal
  dsimp only
  rw [if_neg (by simpa [voteTooEarly] using h)]
  cases (s.train n).voteStitch <;> rfl

theorem voteRefusal_pending {x : Stitch} (hx : (s.train n).voteStitch = some x) :
    voteRefusal s n v = some (0x29, fld (s.train n).vote 15 0, x.toNat % 2 ^ 32) := by
  rw [voteRefusal_inTime h, hx, Option.map_some]

theorem voteRefusal_none (hx : (s.train n).voteStitch = none) : voteRefusal s n v = none := by
  rw [voteRefusal_inTime h, hx, Option.map_none]

end

section
variable {s : State} {n : Nat} {d : Taken}

theorem armVote_refused {v : Stitch} (hv : resolveFirst s [] (BitVec.ofNat 40 (leAt d.bytes 8 5)) = v) {r d0 d1 : Nat}
    (h : voteRefusal s n v = some (r, d0, d1)) : armVote n d s = refuse n d r d0 d1 s := by
  unfold armVote
  dsimp only
  rw [hv, h]

theorem armVote_marks {n : Ctx} {v : Stitch} (hv : resolveFirst s [] (BitVec.ofNat 40 (leAt d.bytes 8 5)) = v)
    (h : voteRefusal s n.val v = none) : armVote n.val d s =
      if flag d.bytes 0 then (markVote n.val v s).onWork fun w => { w with
        voteNotifies := w.voteNotifies ++ [{ ctx := n, ringIndex := d.index.toNat, stitch := v }] }
      else markVote n.val v s := by
  unfold armVote
  dsimp only
  rw [hv, h, Fin.ofNat_val_eq_self]

end

/-- ARM refuses a handle that is not loaded, or whose unload has been accepted (R129). -/
theorem armPattern_unknown {s : State} {n : Nat} {d : Taken}
    (h : patternOf s n (handleOf d.bytes) = none ∨ unloading s n (handleOf d.bytes) = true) :
    armPattern n d s = refuse n d 0x20 (handleOf d.bytes) 0 s := by
  have hnone : (if unloading s n (handleOf d.bytes) then none else patternOf s n (handleOf d.bytes)) = none := by
    obtain h | h := h
    · rw [h, ite_self]
    · exact if_pos h
  unfold armPattern
  dsimp only
  rw [hnone]

/-- The start that an ARM of a pattern asks for (R130). -/
def armFirst (s : State) (p : Pattern) (b : List Byte) : Stitch := resolveFirst s p.bands (BitVec.ofNat 40 (leAt b 8 5))

/-- The last stitch of an ARM's run; REPEAT 0 is an open run (R130). -/
def armLast (first : Stitch) (b : List Byte) : Option Stitch :=
  if leAt b 16 4 = 0 then none else some (first + BitVec.ofNat 40 (leAt b 16 4) - 1)

/-- What refuses an ARM that is not too early: its barrier, its vote or admission, in this order. -/
def armRefusal (s : State) (n : Nat) (p : Pattern) (b : List Byte) : Option (Nat × Nat × Nat) :=
  let first := armFirst s p b
  let bar := if flag b 1 then barrierRefusal s (BitVec.ofNat 16 (leAt b 20 2)) first else none
  let vot := if flag b 2 then voteRefusal s n first else none
  let view := s.onWork fun w => { w with entries := ledgerEntries s }
  (bar.orElse fun _ => vot).orElse fun _ => admission view p n (leAt b 8 5 == 0) first (armLast first b)

section
variable {s : State} {n : Ctx} {d : Taken} {p : Pattern} (hp : patternOf s n.val (handleOf d.bytes) = some p)
  (hun : unloading s n.val (handleOf d.bytes) = false)
include hp hun

theorem armPattern_early (hearly : tooEarly s (armFirst s p d.bytes) (if flag d.bytes 1 then 16 else 2) = true) :
    armPattern n.val d s = refuse n.val d 0x28 ((armFirst s p d.bytes).toNat % 2 ^ 32) (s.stu.stitch.toNat % 2 ^ 32) s := by
  unfold armPattern
  dsimp only
  rw [hun, if_neg Bool.false_ne_true, hp]
  exact if_pos hearly

section
variable (hearly : tooEarly s (armFirst s p d.bytes) (if flag d.bytes 1 then 16 else 2) = false)
include hearly

theorem armPattern_refused {r d0 d1 : Nat} (hrefused : armRefusal s n.val p d.bytes = some (r, d0, d1)) :
    armPattern n.val d s = refuse n.val d r d0 d1 s := by
  unfold armRefusal armFirst armLast at hrefused
  unfold armFirst at hearly
  unfold armPattern
  dsimp only at hrefused ⊢
  rw [hun, if_neg Bool.false_ne_true, hp]
  dsimp only
  rw [hearly, if_neg Bool.false_ne_true, hrefused]

/-- An ARM that nothing refuses enters its run, counts at its barrier, and marks its vote stitch. -/
theorem armPattern_entered (hadmitted : armRefusal s n.val p d.bytes = none) :
    let first := armFirst s p d.bytes
    let tag := BitVec.ofNat 16 (leAt d.bytes 20 2)
    let entered := s.onWork fun w => { w with order := w.order + 1, entries := w.entries ++ [
      { ctx := n, handle := handleOf d.bytes, order := w.order, first := first, last := armLast first d.bytes
        notify := if flag d.bytes 0 then some d.index.toNat else none, barrier := if flag d.bytes 1 then some tag else none
        go := false, missed := false, bands := p.bands, ran := none }] }
    let counted := if flag d.bytes 1 then armBarrier tag (BitVec.ofNat 16 (leAt d.bytes 22 2)) first entered else entered
    armPattern n.val d s = if flag d.bytes 2 then markVote n.val first counted else counted := by
  unfold armRefusal armFirst armLast at hadmitted
  unfold armFirst at hearly
  unfold armPattern
  dsimp only at hadmitted ⊢
  rw [hun, if_neg Bool.false_ne_true, hp]
  dsimp only
  rw [hearly, if_neg Bool.false_ne_true, hadmitted, Fin.ofNat_val_eq_self]
  rfl

end

end

/-! DISARM, UNLOAD and FENCE (R129, R132, R135). -/

/-- A DISARM as read, before it is known whether its entry is armed and its unload accepted. -/
def disarmOf (n : Ctx) (d : Taken) (s : State) : PendingDisarm :=
  { ctx := n, handle := handleOf d.bytes, ringIndex := d.index.toNat, notify := flag d.bytes 0
    first := if flag d.bytes 1 then none else some (BitVec.ofNat 40 (leAt d.bytes 8 5)), unload := false, none_ := false
    read := s.stu.marks, order := s.work.order }

/-- The armed entries of a handle. -/
def entriesOf (s : State) (n h : Nat) : List ArmEntry := s.work.entries.filter fun e => e.ctx.val == n && e.handle == h

/-- A DISARM of one entry names none. -/
def disarmMisses (n : Ctx) (d : Taken) (s : State) : Bool :=
  !flag d.bytes 1 && !(entriesOf s n.val (handleOf d.bytes)).any (disarms (disarmOf n d s))

/-- An entry of the handle stays armed beside a DISARM (R129). -/
def disarmLeaves (n : Ctx) (d : Taken) (s : State) : Bool :=
  (entriesOf s n.val (handleOf d.bytes)).any fun e => !disarms (disarmOf n d s) e && !s.work.disarms.any fun q => disarms q e

/-- A DISARM waits for its boundary, where it unloads its handle or not (R132). -/
def putDisarm (n : Ctx) (d : Taken) (unload : Bool) (s : State) : State := s.onWork fun w => { w with
  disarms := w.disarms ++ [{ disarmOf n d s with none_ := disarmMisses n d s, unload := unload }] }

theorem readDisarm_unknown {s : State} {n : Nat} {d : Taken} (h : patternOf s n (handleOf d.bytes) = none) :
    readDisarm n d s = refuse n d 0x20 (handleOf d.bytes) 0 s :=
  if_pos (by rw [h]; rfl)

section
variable {s : State} {n : Ctx} {d : Taken} (h : (patternOf s n.val (handleOf d.bytes)).isSome)
include h

theorem readDisarm_loaded :
    let asked := flag d.bytes 2 && !disarmMisses n d s
    let refused := asked && disarmLeaves n d s
    let read := putDisarm n d (asked && !refused) s
    readDisarm n.val d s = if refused then refuse n.val d 0x20 (handleOf d.bytes) 0 read else read := by
  have hknown : ¬ (patternOf s n.val (handleOf d.bytes)).isNone = true := by simpa [Option.isSome_iff_ne_none] using h
  have hone : (if flag d.bytes 1 then none else some (BitVec.ofNat 40 (leAt d.bytes 8 5))).isSome = !flag d.bytes 1 := by
    cases flag d.bytes 1 <;> rfl
  unfold readDisarm
  dsimp only
  rw [if_neg hknown, hone, Fin.ofNat_val_eq_self]
  rfl

theorem readDisarm_disarm (hkeeps : flag d.bytes 2 = false) : readDisarm n.val d s = putDisarm n d false s := by
  simp [readDisarm_loaded h, hkeeps]

theorem readDisarm_unload (hunload : flag d.bytes 2 = true) : readDisarm n.val d s =
    if disarmMisses n d s then putDisarm n d false s
    else if disarmLeaves n d s then refuse n.val d 0x20 (handleOf d.bytes) 0 (putDisarm n d false s)
    else putDisarm n d true s := by
  rw [readDisarm_loaded h, hunload]
  cases disarmMisses n d s with
  | true => rfl
  | false => cases disarmLeaves n d s <;> rfl

end

section
variable {s : State} {n : Ctx} {d : Taken}

theorem fenceRegion_absent (h : boltRegionOf s n.val (leAt d.bytes 8 1) = none) :
    fenceRegion n.val d s = refuse n.val d 0x26 0xFFFFFFFF (leAt d.bytes 8 1) s := by
  unfold fenceRegion
  dsimp only
  rw [h]

variable {k : Nat} {x : BoltRegion} (h : boltRegionOf s n.val (leAt d.bytes 8 1) = some (k, x))
include h

theorem fenceRegion_pinned (hpinned : pinned s x = true) : fenceRegion n.val d s = refuse n.val d 0x26 0xFFFFFFFF k s := by
  unfold fenceRegion
  dsimp only
  rw [h]
  exact if_pos hpinned

theorem fenceRegion_fences (hfree : pinned s x = false) : fenceRegion n.val d s =
    (onRegion k (fun x => { x with state := .fenced, filling := false }) s).onWork fun w => { w with
      fences := w.fences ++ [{ ctx := n, ringIndex := d.index.toNat, notify := flag d.bytes 0 }] } := by
  unfold fenceRegion
  dsimp only
  rw [h, Fin.ofNat_val_eq_self]
  exact if_neg (by simp [hfree])

end

/-- Settles O32: a descriptor that starts is given to its own rules, case by case; a load and a DISARM end as the model has it. -/
theorem patternDescriptors : Obligations.PatternDescriptors := by
  refine ⟨fun s n d rest hs => ?_, fun s bands f => ⟨resolveFirst_of_ne_zero s bands, resolveFirst_zero⟩,
    fun s n j hj ok => ?_, fun s j b => rfl, fun s => rfl, fun s p => rfl⟩
  · intro u b h asked refused soon
    refine ⟨fun htype => ?_, fun htype => ?_, fun htype hpattern => ?_, fun htype hhandle hvote => ?_, fun htype hnone => ?_,
      fun htype hsome => ?_, fun htype => ?_⟩
    · exact exec_descriptorNop hs htype
    · rw [exec_loadPattern hs htype]
      intro used
      refine ⟨fun h => congrArg Host.Outcome.next (startLoad_handle h), fun hh hused => ?_⟩
      have hfree : ¬ (64 ≤ h ∨ used = true) := by simp [hh, hused]
      exact ⟨fun htotal => congrArg Host.Outcome.next (startLoad_deviceFull hfree htotal),
        fun htotal hcount => congrArg Host.Outcome.next (startLoad_contextFull hfree htotal hcount),
        fun htotal hcount => congrArg Host.Outcome.next (startLoad_enters hfree htotal hcount)⟩
    · rw [exec_arm hs htype hpattern]
      refine ⟨fun h => congrArg Host.Outcome.next (armPattern_unknown h), ?_⟩
      intro p hp hun first last barrier vote tag early bar vot adm
      have hearly : tooEarly u first (if barrier then 16 else 2) = early := by
        simp only [early]
        cases barrier <;> rfl
      have hchecks : armRefusal u n.val p b = (bar.orElse fun _ => vot).orElse fun _ => adm := rfl
      refine ⟨fun he => congrArg Host.Outcome.next (armPattern_early hp hun (hearly.trans he)), fun he => ?_⟩
      have hrefuses {r d0 d1 : Nat} (hx : ((bar.orElse fun _ => vot).orElse fun _ => adm) = some (r, d0, d1)) :
          armPattern n.val d u = refused r d0 d1 u := armPattern_refused hp hun (hearly.trans he) (hchecks.trans hx)
      refine ⟨fun r d0 d1 hbar => congrArg Host.Outcome.next (hrefuses ?_),
        fun r d0 d1 hbar hvot => congrArg Host.Outcome.next (hrefuses ?_),
        fun r d0 d1 hbar hvot hadm => congrArg Host.Outcome.next (hrefuses ?_),
        fun hbar hvot hadm => congrArg Host.Outcome.next (armPattern_entered hp hun (hearly.trans he) (hchecks.trans ?_))⟩
      · rw [hbar, Option.orElse_some, Option.orElse_some]
      · rw [hbar, hvot, Option.orElse_none, Option.orElse_some]
      · rw [hbar, hvot, hadm, Option.orElse_none, Option.orElse_none]
      · rw [hbar, hvot, hadm, Option.orElse_none, Option.orElse_none]
    · rw [exec_voteMark hs htype ⟨hhandle, hvote⟩]
      intro f v marked early
      have hv : resolveFirst u [] f = v := resolveFirst_nil u f
      have hearly : voteTooEarly u n.val v = early := rfl
      exact ⟨fun he => congrArg Host.Outcome.next (armVote_refused hv (voteRefusal_early (hearly.trans he))),
        fun he => ⟨fun hx => congrArg Host.Outcome.next (armVote_marks hv (voteRefusal_none (hearly.trans he) hx)),
          fun x hx => congrArg Host.Outcome.next (armVote_refused hv (voteRefusal_pending (hearly.trans he) hx))⟩⟩
    · exact ⟨fun hkeeps => (exec_disarm hs htype hkeeps).trans (congrArg Host.Outcome.next (readDisarm_unknown hnone)),
        fun hunload => (exec_unload hs htype hunload).trans (congrArg Host.Outcome.next (readDisarm_unknown hnone))⟩
    · exact ⟨fun hkeeps => (exec_disarm hs htype hkeeps).trans (congrArg Host.Outcome.next (readDisarm_disarm hsome hkeeps)),
        fun hunload => (exec_unload hs htype hunload).trans (congrArg Host.Outcome.next (readDisarm_unload hsome hunload))⟩
    · rw [exec_fence hs htype]
      exact ⟨fun hnone => congrArg Host.Outcome.next (fenceRegion_absent hnone),
        fun k x hregion => ⟨fun hfree => congrArg Host.Outcome.next (fenceRegion_fences hregion hfree),
          fun hpinned => congrArg Host.Outcome.next (fenceRegion_pinned hregion hpinned)⟩⟩
  · rcases hcheck : checkLoad s j (Mem.bytes s.hostMem j.addr j.size) ok with ⟨reason, d0, d1⟩ | ⟨p, copies, fills⟩
    · exact congrArg Host.Outcome.next (patternLoaded_refused hj hcheck)
    · exact congrArg Host.Outcome.next (patternLoaded_installs hj hcheck)

end Sys2Proof.Machine

/-! PROOFS, family 05_bolt: the bolt's regions, the laps of the scrubbers, and the transfers. -/

namespace Sys2Proof.Machine

/-! Writes of BLT_RGN_CMD (R142, Table 5-7). -/

/-- Bits outside the field that is written keep their value. -/
theorem putFld_and_of_disjoint (w : W64) {hi lo hi' lo' : Nat} (h : hi < lo') (v : Nat) :
    putFld w hi lo v &&& mask64 hi' lo' = w &&& mask64 hi' lo' := by
  refine BitVec.eq_of_getLsbD_eq fun i hi64 => ?_
  simp only [putFld, BitVec.getLsbD_and, BitVec.getLsbD_or, BitVec.getLsbD_not, getLsbD_mask64]
  by_cases hin : lo' ≤ i
  · have hout : ¬ i ≤ hi := by omega
    simp [hin, hout, hi64]
  · simp [hin]

theorem fld_putFld (w : W64) {hi lo v : Nat} (hlo : lo ≤ hi) (h64 : hi < 64) (hv : v < 2 ^ (hi + 1 - lo)) :
    fld (putFld w hi lo v) hi lo = v := by
  refine Nat.eq_of_testBit_eq fun i => ?_
  rw [fld, Nat.testBit_mod_two_pow, Nat.testBit_shiftRight, BitVec.testBit_toNat]
  by_cases hin : i < hi + 1 - lo
  · have hfield : (mask64 hi lo).getLsbD (lo + i) = true := by
      simp only [getLsbD_mask64, show lo ≤ lo + i by omega, show lo + i ≤ hi by omega, show lo + i < 64 by omega, decide_true,
        Bool.and_true]
    have hvalue : (at64 lo v).getLsbD (lo + i) = v.testBit i := by
      rw [at64, BitVec.getLsbD_ofNat, Nat.testBit_shiftLeft]
      simp [show lo + i < 64 by omega]
    simp only [putFld, BitVec.getLsbD_or, BitVec.getLsbD_and, BitVec.getLsbD_not, hfield, hvalue, hin, decide_true, Bool.not_true,
      Bool.and_false, Bool.and_true, Bool.false_or, Bool.true_and]
  · have hzero : v.testBit i = false :=
      Nat.testBit_lt_two_pow (Nat.lt_of_lt_of_le hv (Nat.pow_le_pow_right (by decide) (by omega)))
    simp only [hin, decide_false, Bool.false_and, hzero]

/-- A register's write has its effect while the registers take writes (R364, R366). -/
theorem bar0Write_of_takes {s : State} (h : TakesWrites s) (f : State → State) : bar0Write f s = f s := by
  obtain ⟨hreset, hmode⟩ := h
  simp [bar0Write, hreset, hmode]

section
variable {s : State} (h : TakesWrites s) (v : W64)
include h

theorem exec_bltDefine : exec (.bltDefine v) s = .next (boltDefine (checkRsv (mask64 63 2) v s)) := by
  have hcmd : fld (putFld v 1 0 1) 1 0 = 1 := fld_putFld v (by decide) (by decide) (by decide)
  have hrsv : putFld v 1 0 1 &&& mask64 63 2 = v &&& mask64 63 2 := putFld_and_of_disjoint v (by decide) 1
  refine congrArg Host.Outcome.next ((bar0Write_of_takes h _).trans ?_)
  simp [writeBltCmd, checkRsv, hcmd, hrsv]

theorem exec_bltRelease : exec (.bltRelease v) s = .next (boltRelease (checkRsv (mask64 63 2) v s)) := by
  have hcmd : fld (putFld v 1 0 2) 1 0 = 2 := fld_putFld v (by decide) (by decide) (by decide)
  have hrsv : putFld v 1 0 2 &&& mask64 63 2 = v &&& mask64 63 2 := putFld_and_of_disjoint v (by decide) 2
  refine congrArg Host.Outcome.next ((bar0Write_of_takes h _).trans ?_)
  simp [writeBltCmd, checkRsv, hcmd, hrsv]

end

/-! DEFINE (R142, R143, R150). -/

/-- The bands that the configuration registers name. -/
def configuredBands (b : Bolt) : List Nat := maskBands b.bandsLo b.bandsHi

/-- Why the configured region cannot be placed (Table 5-7). -/
def configuredRefusal (s : State) : Option Nat :=
  let b := s.bolt
  defineRefusal s (fld b.cfg 3 0) (fld b.cfg 13 8) (fld b.cfg 33 18 + 1) (bit b.cfg 16) (bit b.cfg 17) (configuredBands b)

/-- The configured region placed, model slots evicted for it where need be. -/
def placeConfigured (s : State) : Option (List BoltRun) × State :=
  let b := s.bolt
  placeEvicting (configuredBands b) (fld b.cfg 33 18 + 1) (bit b.cfg 16) 64 s

/-- The region that the configuration registers describe, on its runs: LOADING, and nothing loaded. -/
def configuredBoltRegion (b : Bolt) (runs : List BoltRun) : BoltRegion := {
  ctx := Fin.ofNat 16 (fld b.cfg 3 0), index := fld b.cfg 13 8, lines := fld b.cfg 33 18 + 1, twin := bit b.cfg 16
  backed := bit b.cfg 17, hbmRegion := fld b.backing 55 52, offset := fld b.backing 35 0, bands := configuredBands b, runs := runs
  state := .loading, live := false, loaded := [], stagedLines := 0, slot := none, filling := false, stopped := false }

section
variable {s t : State}

theorem boltDefine_refused {r : Nat} (h : configuredRefusal s = some r) : boltDefine s = boltResult r s := by
  unfold configuredRefusal configuredBands at h
  unfold boltDefine
  dsimp only at h ⊢
  rw [h]

/-- The index in use is the first of the checks (log 93). -/
theorem configuredRefusal_inUse (h : (boltRegion s s.bolt.rgnSel).isSome) : configuredRefusal s = some 0x02 := if_pos (.inl h)

theorem boltDefine_full (h : configuredRefusal s = none) (hfull : placeConfigured s = (none, t)) :
    boltDefine s = boltResult 0x01 t := by
  unfold configuredRefusal configuredBands at h
  unfold placeConfigured configuredBands at hfull
  unfold boltDefine
  dsimp only at h hfull ⊢
  rw [h, hfull]

theorem boltDefine_placed {runs : List BoltRun} (h : configuredRefusal s = none) (hplaced : placeConfigured s = (some runs, t)) :
    boltDefine s = boltResult 0 (t.onBolt fun b => { b with
      regions := Tab.put b.regions b.rgnSel (configuredBoltRegion s.bolt runs) }) := by
  unfold configuredRefusal configuredBands at h
  unfold placeConfigured configuredBands at hplaced
  unfold boltDefine
  dsimp only at h hplaced ⊢
  rw [h, hplaced]
  rfl

end

section
variable {s : State} {bands : List Nat} {n : Nat} {twin : Bool}

/-- A region with room is placed without an eviction. -/
theorem placeEvicting_fits {runs : List BoltRun} (h : planRegion s bands n twin = some runs) (fuel : Nat) :
    placeEvicting bands n twin fuel s = (some runs, s) := by
  cases fuel <;> simp only [placeEvicting, h]

variable (h : planRegion s bands n twin = none)
include h

/-- A region without room evicts the candidate with the earliest stamp, and is placed again (R150). -/
theorem placeEvicting_evicts {k : Nat} (hk : earliestSlot s (evictable s (some bands)) = some k) (fuel : Nat) :
    placeEvicting bands n twin (fuel + 1) s = placeEvicting bands n twin fuel (evictSlot k s) := by
  simp only [placeEvicting, h, hk]

theorem placeEvicting_full (hnone : earliestSlot s (evictable s (some bands)) = none) (fuel : Nat) :
    placeEvicting bands n twin fuel s = (none, s) := by
  cases fuel <;> simp only [placeEvicting, h, hnone]

end

/-! RELEASE (R148, Table 5-7). -/

section
variable {s : State}

theorem boltRelease_none (h : boltRegion s s.bolt.rgnSel = none) : boltRelease s = boltResult 0x06 s := by
  simp only [boltRelease, h]

theorem boltRelease_some {x : BoltRegion} (h : boltRegion s s.bolt.rgnSel = some x) : boltRelease s =
    if pinned s x then boltResult 0x04 s else boltResult 0 (freeRegion s.bolt.rgnSel s) := by
  simp only [boltRelease, h]

end

/-! The end of a load and of a write-back (R148, Table 5-3). -/

section
variable {s : State} {i : Fin 512} {x : BoltRegion} (h : boltRegion s i.val = some x)
include h

theorem exec_regionLoaded_stays (hstays : x.state ≠ .loading ∨ x.stopped = true) : exec (.regionLoaded i) s = .next s := by
  change execRegionLoaded i s = _
  simp only [execRegionLoaded, h]
  exact if_pos hstays

section
variable (hstate : x.state = .loading) (hrun : x.stopped = false)
include hstate hrun

theorem exec_regionLoaded_filled (hfill : x.filling = true) : exec (.regionLoaded i) s =
    .next (onRegion i.val (fun y => { y with state := .resident, filling := false })
      (fillFromBacking i.val x (meetQueues .loader s))) := by
  change execRegionLoaded i s = _
  simp [execRegionLoaded, h, hstate, hrun, hfill]

theorem exec_regionLoaded_whole (hfill : x.filling = false) (hall : allLoaded x = true) (hidle : regionBusy s x = false) :
    exec (.regionLoaded i) s = .next (onRegion i.val (fun y => { y with state := .resident }) s) := by
  change execRegionLoaded i s = _
  simp [execRegionLoaded, h, hstate, hrun, hfill, hall, hidle]

end

theorem exec_regionWrittenBack_stays (hstate : x.state ≠ .dirty) : exec (.regionWrittenBack i) s = .next s := by
  change execRegionWrittenBack i s = _
  simp only [execRegionWrittenBack, h]
  exact if_pos hstate

theorem exec_regionWrittenBack_dirty (hstate : x.state = .dirty) : exec (.regionWrittenBack i) s = .next
    (onRegion i.val (fun y => { y with state := .resident }) (writeBacking x (meetQueues .loader s))) := by
  change execRegionWrittenBack i s = _
  simp [execRegionWrittenBack, h, hstate]

end

/-- Settles O19: DEFINE by its refusal and its placement, which evicts one slot at a time; RELEASE by the pin; the end of a load
and of a write-back by the region's state. -/
theorem boltRegionCommands : Obligations.BoltRegionCommands := by
  refine ⟨fun s v htakes => ?_, fun s bands n fuel twin => ?_, fun s i x hx => ?_⟩
  · rw [exec_bltDefine htakes, exec_bltRelease htakes]
    intro u b result bands
    refine ⟨fun hfree => ⟨fun runs t hplaced => ?_, fun t hfull => ?_⟩, fun hused => ?_, fun r hrefused => ?_, fun x hx => ?_,
      fun hnone => ?_⟩
    · exact congrArg Host.Outcome.next (boltDefine_placed hfree hplaced)
    · exact congrArg Host.Outcome.next (boltDefine_full hfree hfull)
    · exact congrArg Host.Outcome.next (boltDefine_refused (configuredRefusal_inUse hused))
    · exact congrArg Host.Outcome.next (boltDefine_refused hrefused)
    · rw [boltRelease_some hx]
      exact ⟨fun hfree => by rw [hfree]; rfl, fun hpinned => by rw [hpinned]; rfl⟩
    · exact congrArg Host.Outcome.next (boltRelease_none hnone)
  · exact ⟨fun runs hruns => placeEvicting_fits hruns fuel, fun hnone =>
      ⟨fun k hk => placeEvicting_evicts hnone hk fuel, fun hfull => placeEvicting_full hnone hfull fuel⟩⟩
  · exact ⟨fun hstate hrun hfill hall hidle => exec_regionLoaded_whole hx hstate hrun hfill hall hidle,
      fun hstate hrun hfill => exec_regionLoaded_filled hx hstate hrun hfill, exec_regionLoaded_stays hx,
      exec_regionWrittenBack_dirty hx, exec_regionWrittenBack_stays hx⟩

/-! BOLT_WRITE_BACK and SCRUB_STARVATION (R153, R156). -/

/-- A vector changed at an index of its own. -/
theorem vMod_fin {α : Type} {n : Nat} (v : Vector α n) (i : Fin n) (f : α → α) : vMod v i.val f = v.set i (f v[i]) :=
  dif_pos i.isLt

theorem exec_boltWriteBack {s : State} {p : Panel} {slab : Fin 128} {w : WriteBack} {ws : List WriteBack}
    (h : Tab.getD s.bolt.buffers (128 * p.val + slab.val) [] = w :: ws) :
    exec (.boltWriteBack p slab) s = .next (writeBoltLine p.val slab.val w.line (leBytes 32 w.data.toNat)
      (s.onBolt fun b => { b with
        buffers := if ws.isEmpty then Tab.drop b.buffers (128 * p.val + slab.val)
          else Tab.put b.buffers (128 * p.val + slab.val) ws })) := by
  have hpanel : (128 * p.val + slab.val) / 128 = p.val := by omega
  have hslab : (128 * p.val + slab.val) % 128 = slab.val := by omega
  change Host.Outcome.next (writeBackOldest _ s) = _
  simp only [writeBackOldest, h, hpanel, hslab]

theorem exec_scrubStarvation {s : State} {p : Panel} (hp : p.val < s.nPanels) (hon : bit s.bolt.ctrl 0 = true) :
    exec (.scrubStarvation p) s = .next (logGeneral 0x04 0 [1, BitVec.ofNat 8 p.val]
      (s.onBolt fun b => { b with starved := b.starved.set p true })) := by
  change execScrubStarvation p s = _
  rw [execScrubStarvation, if_neg (by simp [hon, hp])]
  simp only [vMod_fin]

/-! One error that a scrubber found (R155, R158, R179 to R182). -/

/-- A bolt line that the scrubber corrected: it is counted, and remembered for the lap that follows. -/
def boltScrubbed (p slab line j : Nat) (s : State) : State := s.onBolt fun b => { b with
  corrected := vMod b.corrected p fun c => satAdd 48 c 1
  weak := b.weak.filter (· != lineKey p slab line), lapCorrected := b.lapCorrected ++ [(lineKey p slab line, j)] }

/-- The bitline that a repair replaces: that of the failing bit, where the lap before corrected it on another wordline of the bank
as well (R158). -/
def failingBitline (p : Nat) (before : List (Nat × Nat)) (slab line j : Nat) : Option Nat :=
  if before.any fun k => k.2 == j && k.1 / slabLines == 128 * p + slab &&
    bankLocation (k.1 % slabLines) == bankLocation line && wordline (k.1 % slabLines) != wordline line
  then some (4 * j + (line / 32 % 1024 * 2 + line % 2) % 4) else none

/-- An HBM sector that the scrubber corrected: it is counted, rewritten, and remembered for the lap that follows. -/
def hbmScrubbed (pc line : Nat) (sector : Bool) (s : State) : State := (hbmCorrected pc line sector s).onHbm fun h => { h with
  weak := h.weak.filter (· != sectorKey pc line sector), lapCorrected := h.lapCorrected ++ [sectorKey pc line sector] }

section
variable {p : Nat} {before : List (Nat × Nat)} {slab : Fin 128} {line : BitVec 20} {j : Nat}

theorem scrubBolt_uncorrectable (y : BitVec 16) (sec : Bool) (s : State) :
    scrubBolt p before (slab, line, j, .uncorrectable y sec) s = boltUncorrectable p slab.val line.toNat y true s := rfl

theorem scrubBolt_once (h : before.contains (lineKey p slab.val line.toNat, j) = false) (s : State) :
    scrubBolt p before (slab, line, j, .corrected) s = boltScrubbed p slab.val line.toNat j s := by
  simp only [scrubBolt, h]
  rfl

theorem scrubBolt_again (h : before.contains (lineKey p slab.val line.toNat, j) = true) (s : State) :
    scrubBolt p before (slab, line, j, .corrected) s = boltRepair p slab.val line.toNat
      (failingBitline p before slab.val line.toNat j) (boltScrubbed p slab.val line.toNat j s) := by
  simp only [scrubBolt, h]
  rfl

end

section
variable {before : List Nat} {pc : Fin 256} {line : Nat} {sector : Bool}

/-- An uncorrectable sector of a free line: the line is excluded, and reads zero. -/
theorem scrubHbm_free {s : State} (h : hbmRegionAt s pc.val line = none) (y : BitVec 16) (sec : Bool) :
    scrubHbm before (pc, line, sector, .uncorrectable y sec) s = writeWhole pc.val line (List.replicate 64 0)
      ((hbmUncorrectable pc.val line y sec true s).onHbm fun h => { h with
        excluded := if h.excluded.contains (pc.val, line) then h.excluded else h.excluded ++ [(pc.val, line)] }) := by
  have hexcluded (l : List (Nat × Nat)) : (if (true && !l.contains (pc.val, line)) = true then l ++ [(pc.val, line)] else l) =
      if l.contains (pc.val, line) then l else l ++ [(pc.val, line)] := by cases l.contains (pc.val, line) <;> rfl
  simp only [scrubHbm, h, Option.isNone_none, if_true, hexcluded]

theorem scrubHbm_once (h : before.contains (sectorKey pc.val line sector) = false) (s : State) :
    scrubHbm before (pc, line, sector, .corrected) s = hbmScrubbed pc.val line sector s := by
  simp only [scrubHbm, h]
  rfl

theorem scrubHbm_again (h : before.contains (sectorKey pc.val line sector) = true) (s : State) :
    scrubHbm before (pc, line, sector, .corrected) s = hbmRepair pc.val line (hbmScrubbed pc.val line sector s) := by
  simp only [scrubHbm, h]
  rfl

end

/-! What a scrubber finds leaves the control register, and with it SCRUB_EVT, as it was. -/

/-- A fold keeps what each of its steps keeps. -/
theorem each_unchanged {α β : Type} (g : State → β) {f : State → α → State} (hf : ∀ s a, g (f s a) = g s)
    (l : List α) (s : State) : g (s.each l f) = g s := by
  induction l generalizing s with
  | nil => rfl
  | cons a l ih => exact (ih (f s a)).trans (hf s a)

@[simp] theorem addFuse_bolt (m : Nat) (e : W64) (s : State) : (addFuse m e s).2.bolt = s.bolt := by
  unfold addFuse
  dsimp only
  split <;> rfl

@[simp] theorem addFuse_hbm (m : Nat) (e : W64) (s : State) : (addFuse m e s).2.hbm = s.hbm := by
  unfold addFuse
  dsimp only
  split <;> rfl

theorem boltRepair_ctrl (p slab line : Nat) (bitline : Option Nat) (s : State) :
    (boltRepair p slab line bitline s).bolt.ctrl = s.bolt.ctrl := by
  simp only [boltRepair, State.onBolt, addFuse_bolt]

theorem boltUncorrectable_ctrl (p slab line : Nat) (y : BitVec 16) (scrub : Bool) (s : State) :
    (boltUncorrectable p slab line y scrub s).bolt.ctrl = s.bolt.ctrl := by
  simp only [boltUncorrectable, State.onBolt]
  split
  · exact boltRepair_ctrl ..
  · rfl

theorem scrubBolt_ctrl (p : Nat) (before : List (Nat × Nat)) (f : Fin 128 × BitVec 20 × Nat × Ecc) (s : State) :
    (scrubBolt p before f s).bolt.ctrl = s.bolt.ctrl := by
  obtain ⟨slab, line, j, _ | _ | ⟨y, sec⟩⟩ := f
  · rfl
  · cases h : before.contains (lineKey p slab.val line.toNat, j) with
    | false => rw [scrubBolt_once h]; rfl
    | true => rw [scrubBolt_again h, boltRepair_ctrl]; rfl
  · exact boltUncorrectable_ctrl ..

theorem hbmRepair_ctrl (pc line : Nat) (s : State) : (hbmRepair pc line s).hbm.ctrl = s.hbm.ctrl := by
  simp only [hbmRepair, State.onHbm, addFuse_hbm]

theorem hbmUncorrectable_ctrl (pc line : Nat) (y : BitVec 16) (sector scrub : Bool) (s : State) :
    (hbmUncorrectable pc line y sector scrub s).hbm.ctrl = s.hbm.ctrl := by
  simp only [hbmUncorrectable, State.onHbm]
  split
  · exact hbmRepair_ctrl ..
  · rfl

theorem drainEntry_ctrl (e : WcEntry) (s : State) : (drainEntry e s).hbm.ctrl = s.hbm.ctrl := by
  refine each_unchanged (fun s => s.hbm.ctrl) (fun u x => ?_) _ s
  rfl

theorem writeWhole_ctrl (pc line : Nat) (bs : List Byte) (s : State) : (writeWhole pc line bs s).hbm.ctrl = s.hbm.ctrl := by
  change (drainLine pc line s).hbm.ctrl = _
  unfold drainLine
  dsimp only
  split
  · rfl
  · exact each_unchanged (fun s => s.hbm.ctrl) (fun s e => drainEntry_ctrl e s) _ s

theorem scrubHbm_ctrl (before : List Nat) (f : Fin 256 × Nat × Bool × Ecc) (s : State) :
    (scrubHbm before f s).hbm.ctrl = s.hbm.ctrl := by
  obtain ⟨pc, line, sector, _ | _ | ⟨y, sec⟩⟩ := f
  · rfl
  · cases h : before.contains (sectorKey pc.val line sector) with
    | false => rw [scrubHbm_once h]; rfl
    | true => rw [scrubHbm_again h, hbmRepair_ctrl]; rfl
  · simp only [scrubHbm]
    split
    · exact (writeWhole_ctrl ..).trans (hbmUncorrectable_ctrl pc.val line y sec true s)
    · exact hbmUncorrectable_ctrl pc.val line y sec true s

/-! The end of a lap (R156, R180). -/

/-- The errors of a lap that were corrected. -/
def correctedCount (l : List Ecc) : Nat := (l.filter (· == .corrected)).length

/-- The errors of a lap that were not. -/
def uncorrectableCount (l : List Ecc) : Nat := (l.filter fun e => e != .corrected && e != .ok).length

/-- The scrub event of a lap (Table 14-7). -/
def scrubEvent (tier : Byte) (p : Panel) (length : Nat) (l : List Ecc) (s : State) : State :=
  post 0 0x09 [(16, [tier]), (17, leBytes 1 p.val), (24, leBytes 8 length), (32, leBytes 8 (correctedCount l)),
    (40, leBytes 8 (uncorrectableCount l))] s

/-- The bolt's registers as a panel's next lap starts (R155, R156). -/
def boltLapEnds (p : Panel) (length : Nat) (s : State) : State := s.onBolt fun b => { b with
  laps := b.laps.set p (satAdd 27 b.laps[p] 1), lastLap := b.lastLap.set p (min length (2 ^ 36 - 1))
  lapCorrected := b.lapCorrected.filter fun k => k.1 / slabLines / 128 != p.val
  covered := (List.range 16).foldl (fun v g => vMod v (16 * p.val + g) fun _ => 0) b.covered }

/-- The tier's registers as a stack's next lap starts (R180). -/
def hbmLapEnds (p : Panel) (length : Nat) (s : State) : State := s.onHbm fun h => { h with
  laps := h.laps.set p (satAdd 16 h.laps[p] 1), lastLap := h.lastLap.set p (min length (2 ^ 48 - 1))
  lapCorrected := h.lapCorrected.filter fun x => x / 2 / Config.pcLines / 32 != p.val
  scrubbed := h.scrubbed.filter fun x => x.1 / 32 != p.val }

theorem correctedCount_map {α : Type} (found : List α) (ecc : α → Ecc) :
    correctedCount (found.map ecc) = (found.filter fun f => ecc f == .corrected).length := by
  rw [correctedCount, List.filter_map, List.length_map]
  rfl

theorem uncorrectableCount_map {α : Type} (found : List α) (ecc : α → Ecc) :
    uncorrectableCount (found.map ecc) = (found.filter fun f => ecc f != .corrected && ecc f != .ok).length := by
  rw [uncorrectableCount, List.filter_map, List.length_map]
  rfl

theorem exec_boltScrubLap {s : State} {p : Panel} (hp : p.val < s.nPanels) (hon : bit s.bolt.ctrl 0 = true)
    (hcovered : lapCovered s p.val = true) (length : Nat) (found : List (Fin 128 × BitVec 20 × Nat × Ecc)) :
    let before := s.bolt.lapCorrected.filter fun k => k.1 / slabLines / 128 == p.val
    let t := (boltLapEnds p length s).each found fun u f => scrubBolt p.val before f u
    exec (.boltScrubLap p length found) s =
      .next (if bit s.bolt.ctrl 1 then scrubEvent 0 p length (found.map fun f => f.2.2.2) t else t) := by
  intro before t
  have hctrl : t.bolt.ctrl = s.bolt.ctrl := each_unchanged (fun u => u.bolt.ctrl) (fun u f => scrubBolt_ctrl ..) found _
  change execBoltScrubLap p length found s = _
  rw [execBoltScrubLap, if_neg (by simp [hon, hp, hcovered]), scrubEvent, correctedCount_map, uncorrectableCount_map, ← hctrl]
  simp only [vMod_fin]
  rfl

theorem exec_hbmScrubLap {s : State} {p : Panel} (hp : p.val < s.nPanels) (length : Nat)
    (found : List (Fin 256 × Nat × Bool × Ecc)) :
    let before := s.hbm.lapCorrected.filter fun x => x / 2 / Config.pcLines / 32 == p.val
    let t := (hbmLapEnds p length s).each found fun u f => scrubHbm before f u
    exec (.hbmScrubLap p length found) s =
      .next (if bit s.hbm.ctrl 1 then scrubEvent 1 p length (found.map fun f => f.2.2.2) t else t) := by
  intro before t
  have hctrl : t.hbm.ctrl = s.hbm.ctrl := each_unchanged (fun u => u.hbm.ctrl) (fun u f => scrubHbm_ctrl ..) found _
  change execHbmScrubLap p length found s = _
  rw [execHbmScrubLap, if_neg (Nat.not_le.2 hp), scrubEvent, correctedCount_map, uncorrectableCount_map, ← hctrl]
  simp only [vMod_fin]
  rfl

/-- Settles O20: each lap's end handles what was found, which leaves SCRUB_EVT as it was; one error by its outcome and by the lap
before. -/
theorem scrubLaps : Obligations.ScrubLaps := by
  refine ⟨fun s p slab w ws => exec_boltWriteBack, fun s p hp => ⟨exec_scrubStarvation hp, ?_⟩, fun s => ⟨?_, ?_⟩⟩
  · intro length event outcomes
    have hevent (tier : Byte) (l : List Ecc) (u : State) :
        event tier (outcomes l true) (outcomes l false) u = scrubEvent tier p length l u := by
      have hcorrected : outcomes l true = correctedCount l :=
        congrArg List.length (List.filter_congr fun e _ => by cases e <;> rfl)
      have huncorrectable : outcomes l false = uncorrectableCount l :=
        congrArg List.length (List.filter_congr fun e _ => by cases e <;> rfl)
      rw [hcorrected, huncorrectable]
      rfl
    refine ⟨fun found hon hcovered => ?_, fun found => ?_⟩
    · intro before t
      rw [hevent]
      exact exec_boltScrubLap hp hon hcovered length found
    · intro before t
      rw [hevent]
      exact exec_hbmScrubLap hp length found
  · intro p before slab line j key
    refine ⟨fun y sec => scrubBolt_uncorrectable y sec s, fun honce => scrubBolt_once honce s, fun hagain => ?_⟩
    refine ⟨failingBitline p before slab.val line.toNat j, ?_⟩
    rw [scrubBolt_again hagain, scrubBolt_once List.contains_nil]
  · intro before pc line sector key
    refine ⟨fun y sec hfree => scrubHbm_free hfree y sec, fun honce => scrubHbm_once honce s, fun hagain => ?_⟩
    rw [scrubHbm_again hagain, scrubHbm_once List.contains_nil]

/-! Descriptors that start a transfer (R378, R379, R381). -/

section
variable {s : State} {n : Ctx} {d : Taken} {rest : List Taken} (hs : Starts s n d rest)
include hs

/-- A checkpoint or bundle descriptor that starts is taken off its ring: it completes with ENTRY where its context is not of its
tenancy, and is given to its own rules otherwise. -/
theorem onDescriptor_shard {type : Nat} (htype : leAt d.bytes 0 1 = type) (hkind : 6 ≤ type ∧ type ≤ 8)
    (f : Taken → State → State) : onDescriptor n.val type (fun _ => true) f s =
      if (s.ctx n.val).serving = decide (type = 6) then f d (taken n rest s)
      else postCompletion n.val type 4 0 d.index.toNat 0 0 [] (taken n rest s) := by
  obtain ⟨hfront, hwaits, hturn, hn, hactive⟩ := hs
  have hsystem : n.val ≠ 0 := fun h => hn (Fin.ext h)
  have hmisfit : shardMisfit (taken n rest s) n.val type = !((s.ctx n.val).serving == decide (type = 6)) := by
    change (decide (n.val = 0) || (s.ctx n.val).state != .active ||
      (if type = 6 then !(s.ctx n.val).serving else (s.ctx n.val).serving)) = _
    by_cases h6 : type = 6 <;> cases (s.ctx n.val).serving <;> simp [hsystem, hactive, h6]
  rw [taken] at hmisfit ⊢
  by_cases htenancy : (s.ctx n.val).serving = decide (type = 6) <;>
    simp [onDescriptor, hfront, hwaits, hturn, htype, hkind, hmisfit, htenancy]

theorem exec_copyIn (htype : leAt d.bytes 0 1 = 4) : exec (.copyIn n) s = .next (copyIn n.val d (taken n rest s)) :=
  congrArg Host.Outcome.next (onDescriptor_starts hs htype (by decide) rfl _)

theorem exec_copyOut (htype : leAt d.bytes 0 1 = 5) : exec (.copyOut n) s = .next (copyOut n.val d (taken n rest s)) :=
  congrArg Host.Outcome.next (onDescriptor_starts hs htype (by decide) rfl _)

section
variable (htype : leAt d.bytes 0 1 = 6)
include htype

theorem exec_loadBundle_misfit (hjob : (s.ctx n.val).serving = false) (ok : Bool) : exec (.loadBundle n ok) s =
    .next (postCompletion n.val 6 4 0 d.index.toNat 0 0 [] (taken n rest s)) :=
  congrArg Host.Outcome.next ((onDescriptor_shard hs htype (by decide) _).trans (if_neg (by simp [hjob])))

theorem exec_loadBundle (hserving : (s.ctx n.val).serving = true) (ok : Bool) : exec (.loadBundle n ok) s =
    .next (startBundle n.val ok d (taken n rest s)) :=
  congrArg Host.Outcome.next ((onDescriptor_shard hs htype (by decide) _).trans (if_pos (by simp [hserving])))

end

section
variable (hjob : (s.ctx n.val).serving = false)
include hjob

theorem exec_ckptShard (htype : leAt d.bytes 0 1 = 7) : exec (.ckptShard n) s = .next (startShard n.val d (taken n rest s)) :=
  congrArg Host.Outcome.next ((onDescriptor_shard hs htype (by decide) _).trans (if_pos (by simp [hjob])))

theorem exec_restoreShard (htype : leAt d.bytes 0 1 = 8) : exec (.restoreShard n) s =
    .next (startRestore n.val d (taken n rest s)) :=
  congrArg Host.Outcome.next ((onDescriptor_shard hs htype (by decide) _).trans (if_pos (by simp [hjob])))

end

end

/-- A transfer that starts is its context's, under the next transfer number. -/
theorem startTransfer_ctx (n : Ctx) (d : Taken) (notify : Bool) (k : TransferKind) (s : State) :
    startTransfer n.val d notify k s = s.onWork fun w => { w with
      nextTransfer := w.nextTransfer + 1
      transfers := w.transfers ++ [
        { id := w.nextTransfer, ctx := n, ringIndex := d.index.toNat, notify := notify, kind := k }] } := by
  rw [startTransfer, Fin.ofNat_val_eq_self]

/-! How a copy opens (R135, R148, Table 14-5). -/

section
variable {s : State} {n : Nat} {d : Taken}

/-- A TARGET of the table names its region. -/
theorem copyFields_of_le {b : List Byte} (h : leAt b 24 1 ≤ 1) :
    copyFields b = (leAt b 8 8, leAt b 16 8, decide (leAt b 24 1 = 1), leAt b 25 1, leAt b 32 8) := by
  rw [copyFields, if_neg (Nat.not_lt.2 h)]
  rfl

theorem copyIn_hbm (h : leAt d.bytes 24 1 = 0) : copyIn n d s = startTransfer n d (flag d.bytes 0)
    (.copyIn (leAt d.bytes 8 8) (leAt d.bytes 16 8) false (leAt d.bytes 25 1) (leAt d.bytes 32 8)) s := by
  simp [copyIn, copyFields_of_le (b := d.bytes) (by omega), h]

section
variable (h : leAt d.bytes 24 1 = 1)
include h

theorem copyIn_boltAbsent (hnone : boltRegionOf s n (leAt d.bytes 25 1) = none) : copyIn n d s =
    startTransfer n d (flag d.bytes 0)
      (.copyIn (leAt d.bytes 8 8) (leAt d.bytes 16 8) true (leAt d.bytes 25 1) (leAt d.bytes 32 8)) s := by
  simp [copyIn, copyFields_of_le (b := d.bytes) (by omega), h, hnone]

/-- A copy into a bolt region is refused where the region is pinned; an unpinned one goes to LOADING. -/
theorem copyIn_bolt {k : Nat} {x : BoltRegion} (hx : boltRegionOf s n (leAt d.bytes 25 1) = some (k, x)) : copyIn n d s =
    if pinned s x then refuse n d 0x26 0xFFFFFFFF k s
    else startTransfer n d (flag d.bytes 0)
      (.copyIn (leAt d.bytes 8 8) (leAt d.bytes 16 8) true (leAt d.bytes 25 1) (leAt d.bytes 32 8)) (openLoad k s) := by
  simp [copyIn, copyFields_of_le (b := d.bytes) (by omega), h, hx]

end

theorem copyOut_opens (h : leAt d.bytes 24 1 ≤ 1) : copyOut n d s = startTransfer n d (flag d.bytes 0)
    (.copyOut (leAt d.bytes 8 8) (leAt d.bytes 16 8) (decide (leAt d.bytes 24 1 = 1)) (leAt d.bytes 25 1)
      (leAt d.bytes 32 8)) s := by
  simp only [copyOut, copyFields_of_le h]

end

/-! How a bundle load opens (R348, steps 1 to 4). -/

section
variable {s : State} {n : Nat} {d : Taken}

theorem startBundle_portError : startBundle n false d s = postCompletion n 6 6 0 d.index.toNat 0 0 [] s := rfl

/-- A bundle that passes every check opens its transfer in the slot it takes. -/
theorem startBundle_opens :
    let portH : Bool := leAt d.bytes 16 1 == 1
    let src := leAt d.bytes 8 8
    let head := Mem.bytes (bundleMem s portH) src 256
    let count := leAt head 6 2
    let dir := Mem.bytes (bundleMem s portH) (src + 256) (64 * count)
    let recs := (List.range count).map fun i => slice dir (64 * i) 64
    let id : W64 := BitVec.ofNat 64 (leAt head 32 8)
    let model : BitVec 128 := BitVec.ofNat 128 (leAt head 8 16)
    ∀ {key k v}, leAt head 0 4 = 0x44424C4D ∧ leAt head 4 2 = 1 ∧ 1 ≤ count ∧ count ≤ 80 → leAt head 24 1 = s.nPanels →
      recs.all bundleRecordOk = true → publisherKey s id = some key →
      edVerify (leBytes 32 key.toNat) (patch head 64 (List.replicate 64 0) ++ dir) (slice head 64 64) = true →
      modelHeld s model = false → recs.all (fun r => bundleRegionFits s n (leAt r 2 2) (bundleRegion r)) = true →
      takeSlot s (bundleBolt s n (recs.map bundleRegion)) = some (k, v) →
      startBundle n true d s = startTransfer n d true (.bundle {
        src := src, portH := portH, keyId := id, model := model, slot := k, regions := recs.map bundleRegion })
        (openBundle n (recs.map bundleRegion) v) := by
  intro portH src head count dir recs id model key k v hheader hpanels hrecords hkey hsigned hnew hfits hslot
  have hformat : ¬ (leAt head 0 4 ≠ 0x44424C4D ∨ leAt head 4 2 ≠ 1 ∨ count < 1 ∨ 80 < count) := by omega
  unfold startBundle
  dsimp only
  rw [if_neg (by simp), if_neg hformat, if_neg (Classical.not_not.2 hpanels), if_neg (Classical.not_not.2 hrecords), hkey]
  dsimp only
  rw [if_neg (Classical.not_not.2 hsigned), if_neg (ne_true_of_eq_false hnew), if_neg (Classical.not_not.2 hfits), hslot]

end

/-! How the capture and the restore of a shard open (R335 to R337, R340). -/

section
variable {s : State} {n : Nat} {d : Taken}

theorem startShard_of_kind {k : ShardKind} (hk : shardKind (leAt d.bytes 20 1) = some k) :
    startShard n d s =
      if shardRefusal s n (leAt d.bytes 9 1) (readShard d.bytes k) = 0
      then startTransfer n d true (.shard (readShard d.bytes k)) s
      else postCompletion n 7 (shardRefusal s n (leAt d.bytes 9 1) (readShard d.bytes k)) 0 d.index.toNat 0 0 [] s := by
  unfold startShard
  rw [hk]
  dsimp only
  split
  · next h => rw [if_pos h]
  · next h => rw [if_neg h]

/-- While RESLICING is set no shard is captured. -/
theorem startShard_reslicing (h : (s.train n).reslicing = true) :
    startShard n d s = postCompletion n 7 3 0 d.index.toNat 0 0 [] s := by
  cases hk : shardKind (leAt d.bytes 20 1) with
  | none => simp only [startShard, hk, h, if_true]
  | some k =>
    have hrefusal : shardRefusal s n (leAt d.bytes 9 1) (readShard d.bytes k) = 3 := if_pos h
    rw [startShard_of_kind hk, hrefusal]
    rfl

/-- The bolt region whose staging copy a RESTORE_SHARD writes. -/
def restoreTargetOf (s : State) (n : Nat) (b : List Byte) : Option (Nat × BoltRegion) :=
  restoreTarget s n (leAt b 8 1) (leAt b 10 2) (Mem.le s.portS (leAt b 24 8 + 8) 1)

/-- The restore that a RESTORE_SHARD descriptor names. -/
def restoreOf (b : List Byte) (target : Option (Nat × BoltRegion)) : Restore := {
  presser := leAt b 8 1, entry := leAt b 10 2, firstBlock := leAt b 12 4, blocks := leAt b 16 4, skip := leAt b 20 4
  src := leAt b 24 8, digest := slice b 32 32, target := target.map (·.1) }

/-- Outside RESLICING no shard is restored. -/
theorem startRestore_running (h : (s.train n).reslicing = false) :
    startRestore n d s = postCompletion n 8 3 0 d.index.toNat 0 0 [] s := by
  unfold startRestore
  dsimp only
  exact if_pos (by simp [h])

section
variable (h : (s.train n).reslicing = true)
include h

theorem startRestore_untargeted (hnone : restoreTargetOf s n d.bytes = none) :
    startRestore n d s = startTransfer n d true (.restore (restoreOf d.bytes (restoreTargetOf s n d.bytes))) s := by
  rw [hnone]
  unfold restoreTargetOf at hnone
  simp [startRestore, h, hnone, restoreOf]

theorem startRestore_targeted {k : Nat} {x : BoltRegion} (hx : restoreTargetOf s n d.bytes = some (k, x)) : startRestore n d s =
    if pinned s x then postCompletion n 8 5 0 d.index.toNat 0 0 [] s
    else startTransfer n d true (.restore (restoreOf d.bytes (restoreTargetOf s n d.bytes))) (openLoad k s) := by
  rw [hx]
  unfold restoreTargetOf at hx
  simp [startRestore, h, hx, restoreOf]

end

end

/-! How a copy ends (R146, R380). -/

theorem Mem.length_bytes (m : Mem) (a n : Nat) : (Mem.bytes m a n).length = n := by
  rw [Mem.bytes, List.length_map, List.length_range]

/-- A copy's descriptor completes where it asked for it. -/
def finishCopy (t : Transfer) (type status : Nat) (s : State) : State :=
  if t.notify then postCompletion t.ctx.val type status 0 t.ringIndex 0 0 [] s else s

/-- The state in which a copy's bytes move: it has ended, and what was ahead of it in the queues has taken effect. -/
def copyMet (t : Transfer) (s : State) : State := meetQueues .portH (endTransfer t.id s)

/-- Bytes of a copy outside its region count one violation. -/
def copySeen (n : Nat) (bolt : Bool) (region off len : Nat) (met : State) : State :=
  if copyInside met n bolt region off len < len then violate n 0x01 met else met

theorem narrowCopy_eq_true {bolt : Bool} {off len : Nat} :
    narrowCopy bolt off len = true ↔ bolt = true ∧ (off % 32 ≠ 0 ∨ len % 32 ≠ 0) := by
  simp [narrowCopy]

theorem narrowCopy_eq_false {bolt : Bool} {off len : Nat} :
    narrowCopy bolt off len = false ↔ bolt = false ∨ (off % 32 = 0 ∧ len % 32 = 0) := by
  cases bolt <;> simp [narrowCopy]

theorem copyInData_hbm {s : State} {n region : Nat} {r : HbmRegion} (h : hbmRegion s n region = some r) (off : Nat)
    (bs : List Byte) : copyInData n false region off bs s = unverifyBytes n region off bs.length (writeRegion n r off bs s) := by
  simp [copyInData, h]

theorem copyInData_bolt {s : State} {n region i : Nat} {x : BoltRegion} (h : boltRegionOf s n region = some (i, x)) (off : Nat)
    (bs : List Byte) : copyInData n true region off bs s = loadBytes i off bs s := by
  simp [copyInData, h]

section
variable {s : State} {t : Transfer} (ht : transferOf s t.id = some t) {a len region off : Nat} {bolt : Bool}
include ht

section
variable (hkind : t.kind = .copyIn a len bolt region off)
include hkind

theorem copyDone_copyIn_portError : copyDone t.id false s = finishCopy t 4 6 (endTransfer t.id s) := by
  simp only [copyDone, ht, hkind]
  rfl

theorem copyDone_copyIn_narrow (h : narrowCopy bolt off len = true) :
    copyDone t.id true s = finishCopy t 4 0 (violate t.ctx.val 0x06 (endTransfer t.id s)) := by
  simp only [copyDone, ht, hkind, h]
  rfl

/-- The bytes of a copy inside its region move. -/
theorem copyDone_copyIn_moves (h : narrowCopy bolt off len = false) :
    let met := copyMet t s
    let k := copyInside met t.ctx.val bolt region off len
    let seen := copySeen t.ctx.val bolt region off len met
    copyDone t.id true s = finishCopy t 4 0 (if k = 0 then seen
      else copyInData t.ctx.val bolt region off (Mem.bytes seen.hostMem a k) seen) := by
  simp only [copyDone, ht, hkind, h]
  rfl

end

section
variable (hkind : t.kind = .copyOut a len bolt region off)
include hkind

theorem copyDone_copyOut_portError : copyDone t.id false s = finishCopy t 5 6 (endTransfer t.id s) := by
  simp only [copyDone, ht, hkind]
  rfl

theorem copyDone_copyOut_moves :
    let read := copyOutFinds t.ctx.val bolt region off len (copySeen t.ctx.val bolt region off len (copyMet t s))
    copyDone t.id true s = finishCopy t 5 0
      (read.setHostMem (Mem.write read.hostMem a (copyOutData read t.ctx.val bolt region off len))) := by
  simp only [copyDone, ht, hkind]
  rfl

end

/-! How the capture and the drain of a shard end (R335). -/

section
variable {h : Shard} (hkind : t.kind = .shard h)
include hkind

theorem exec_captureEnd (hopen : h.captured = none) :
    exec (.captureEnd t.id) s = .next (captureEnd t h (meetQueues .portS s)) := by
  change execCaptureEnd t.id s = _
  simp [execCaptureEnd, ht, hkind, hopen]

theorem exec_shardDrained {c : Stitch} (hcaptured : h.captured = some c) (ok : Bool) : exec (.shardDrained t.id ok) s =
    .next (shardDrained t h c ok (meetQueues .portS s)) := by
  change execShardDrained t.id ok s = _
  simp only [execShardDrained, ht, hkind, hcaptured]

end

theorem exec_restoreDone {r : Restore} (hkind : t.kind = .restore r) (ok : Bool) :
    exec (.restoreDone t.id ok) s = .next (restoreDone t r ok (meetQueues .portS s)) := by
  change execRestoreDone t.id ok s = _
  simp only [execRestoreDone, ht, hkind]

theorem exec_bundleDone {b : Bundle} (hkind : t.kind = .bundle b) (ok : Bool) :
    exec (.bundleDone t.id ok) s = .next (bundleDone t b ok (meetQueues .portS s)) := by
  change execBundleDone t.id ok s = _
  simp only [execBundleDone, ht, hkind]

end

section
variable {s : State} {t : Transfer} {h : Shard}

/-- A shard whose source is gone ends with ABORTED (Table 12-5). -/
theorem captureEnd_gone (hnone : shardData s t.ctx.val h = none) :
    captureEnd t h s = postCompletion t.ctx.val 7 2 0 t.ringIndex 0 0 [] (endTransfer t.id s) := by
  simp only [captureEnd, hnone]

/-- The state that keeps what a capture of masters read, with its header, for the drain. -/
def mastersCaptured (t : Transfer) (h : Shard) (data : List Byte) (s : State) : State :=
  let read := shardFinds t.ctx.val h s
  setKind t.id (.shard { h with
    header := shardHeader read t.ctx.val h 0 (64 * h.blocks) data.length, data := data, captured := some read.stu.stitch }) read

section
variable {data : List Byte} {e : PrsEntry} (hdata : shardData s t.ctx.val h = some data)
  (hentry : shardEntry (shardFinds t.ctx.val h s) t.ctx.val h = some e) (hmasters : h.kind = .masters)
include hdata hentry hmasters

/-- A direct capture keeps its data for the drain. -/
theorem captureEnd_direct (hsnap : h.snap = 0xF) : captureEnd t h s = mastersCaptured t h data s := by
  simp [captureEnd, hdata, hentry, hmasters, hsnap, mastersCaptured, shardElem]

/-- A capture into a snapshot region writes its data there. -/
theorem captureEnd_snapshot {r : HbmRegion} (hsnap : h.snap ≠ 0xF) (hthere : hbmRegion s t.ctx.val h.snap = some r)
    (hkept : hbmRegion (mastersCaptured t h data s) t.ctx.val h.snap = some r) : captureEnd t h s =
      unverifyBytes t.ctx.val h.snap (64 * h.snapLine) data.length
        (writeRegion t.ctx.val r (64 * h.snapLine) data (mastersCaptured t h data s)) := by
  have hgone : (h.snap != 0xF && (hbmRegion s t.ctx.val h.snap).isNone) = false := by simp [hthere]
  simp only [mastersCaptured, hmasters] at hkept ⊢
  simp only [captureEnd, hdata, hentry, hmasters, hgone, hsnap, shardElem, hkept, if_false, reduceCtorEq, Bool.false_eq_true]

end

variable {c : Stitch}

theorem shardDrained_portError : shardDrained t h c false s =
    postCompletion t.ctx.val 7 6 0 t.ringIndex 0 0 [] (endTransfer t.id s) := rfl

/-- A drained shard: header, data and digest are at DEST. -/
def shardSent (t : Transfer) (h : Shard) (c : Stitch) (b : List Byte) (s : State) : State :=
  postCompletion t.ctx.val 7 0 0 t.ringIndex 0 c (sha256 b) (s.setPortS (Mem.write s.portS h.dest (b ++ sha256 b)))

/-- The drain of a direct capture, or of one whose snapshot region is gone, reads no line. -/
theorem shardDrained_direct (hsnap : h.snap = 0xF ∨ hbmRegion s t.ctx.val h.snap = none) : shardDrained t h c true s =
    shardSent t h c (h.header ++ drainData s t.ctx.val h) (endTransfer t.id s) := by
  have hnone : (if h.snap = 0xF then none else hbmRegion s t.ctx.val h.snap) = none := by
    obtain hsnap | hsnap := hsnap
    · exact if_pos hsnap
    · rw [hsnap, ite_self]
  simp only [shardDrained, hnone]
  rfl

theorem shardDrained_snapshot {r : HbmRegion} (hsnap : h.snap ≠ 0xF) (hr : hbmRegion s t.ctx.val h.snap = some r) :
    shardDrained t h c true s = shardSent t h c (h.header ++ drainData s t.ctx.val h)
      (readFinds t.ctx.val r (64 * h.snapLine) h.data.length (endTransfer t.id s)) := by
  have hsome : (if h.snap = 0xF then none else hbmRegion s t.ctx.val h.snap) = some r := (if_neg hsnap).trans hr
  simp only [shardDrained, hsome]
  rfl

end

/-! How a restore ends (R340, Table 12-7). -/

/-- The header that a restore reads. -/
def restoreHead (r : Restore) (s : State) : List Byte := Mem.bytes s.portS r.src 256

/-- The bytes of a shard's data, by its header. -/
def restoreSize (r : Restore) (s : State) : Nat := (headerData (restoreHead r s)).getD (leAt (restoreHead r s) 128 8)

/-- The data that a restore reads. -/
def restoreBytes (r : Restore) (s : State) : List Byte := Mem.bytes s.portS (r.src + 256) (restoreSize r s)

/-- The status of a restore that read all its bytes while RESLICING is set. -/
def restoreResult (n : Nat) (r : Restore) (s : State) : Nat :=
  restoreStatus s n r (restoreHead r s) (restoreBytes r s) (Mem.bytes s.portS (r.src + 256 + restoreSize r s) 32)

section
variable {s : State} {t : Transfer} {r : Restore}

/-- A restore ends with its status, and counts as a poisoned delivery while RESLICING is set unless that is DONE. -/
theorem restoreDone_eq (ok : Bool) :
    let met := endTransfer t.id s
    let b := restoreHead r met
    let status := if ok then (if (met.train t.ctx.val).reslicing then restoreResult t.ctx.val r met else 3) else 6
    let other := b2n (decide (status = 0) && decide (leAt b 136 8 ≠ (fwId met).toNat))
    restoreDone t r ok s = postCompletion t.ctx.val 8 status other t.ringIndex 0 0
      (if ok then sha256 (b ++ restoreBytes r met) else [])
      (if status = 0 then restoreData t.ctx.val r b (restoreBytes r met) met
        else if (met.train t.ctx.val).reslicing then poison t.ctx.val met else met) := by
  unfold restoreDone restoreResult restoreBytes restoreSize restoreHead
  cases hsize : headerData (Mem.bytes (endTransfer t.id s).portS r.src 256) <;> (dsimp only; rw [hsize]; rfl)

section
variable {met : State} (hmet : endTransfer t.id s = met)
include hmet

theorem restoreDone_portError : restoreDone t r false s = postCompletion t.ctx.val 8 6 0 t.ringIndex 0 0 []
    (if (met.train t.ctx.val).reslicing then poison t.ctx.val met else met) := by
  rw [restoreDone_eq, hmet]
  simp [b2n]

theorem restoreDone_running (h : (met.train t.ctx.val).reslicing = false) : restoreDone t r true s =
    postCompletion t.ctx.val 8 3 0 t.ringIndex 0 0 (sha256 (restoreHead r met ++ restoreBytes r met)) met := by
  rw [restoreDone_eq, hmet]
  simp [h, b2n]

variable (h : (met.train t.ctx.val).reslicing = true)
include h

theorem restoreDone_bad (hbad : restoreResult t.ctx.val r met ≠ 0) : restoreDone t r true s =
    postCompletion t.ctx.val 8 (restoreResult t.ctx.val r met) 0 t.ringIndex 0 0
      (sha256 (restoreHead r met ++ restoreBytes r met)) (poison t.ctx.val met) := by
  rw [restoreDone_eq, hmet]
  simp [h, hbad, b2n]

theorem restoreDone_good (hgood : restoreResult t.ctx.val r met = 0) : restoreDone t r true s =
    postCompletion t.ctx.val 8 0 (if leAt (restoreHead r met) 136 8 = (fwId met).toNat then 0 else 1) t.ringIndex 0 0
      (sha256 (restoreHead r met ++ restoreBytes r met))
      (restoreData t.ctx.val r (restoreHead r met) (restoreBytes r met) met) := by
  rw [restoreDone_eq, hmet]
  simp [h, hgood, b2n]

end

end

/-! How a bundle load ends (R348, R349). -/

section
variable {s : State} {t : Transfer} {b : Bundle}

theorem bundleDone_portError : bundleDone t b false s = postCompletion t.ctx.val 6 6 0 t.ringIndex 0 0 []
    (b.regions.foldl (spoilBundle t.ctx.val) (endTransfer t.id s)) := rfl

/-- What a bundle's load reads and writes: its records up to the first bad one. -/
def bundleStreamed (t : Transfer) (b : Bundle) (s : State) : State :=
  (streamed (endTransfer t.id s) b true).foldl (streamRegion t.ctx.val b) (endTransfer t.id s)

theorem bundleDone_bad (h : b.regions.all (digestGood (endTransfer t.id s) b) = false) :
    bundleDone t b true s = postCompletion t.ctx.val 6 9 0 t.ringIndex 0 0 []
      (b.regions.foldl (spoilBundle t.ctx.val) (bundleStreamed t b s)) := by
  unfold bundleDone
  dsimp only
  rw [h]
  rfl

/-- A bundle whose records are all good fills the model slot it took. -/
theorem bundleDone_good (h : b.regions.all (digestGood (endTransfer t.id s) b) = true) :
    let filled := b.regions.foldl (finishRegion t.ctx.val b) (bundleStreamed t b s)
    bundleDone t b true s = postCompletion t.ctx.val 6 0 0 t.ringIndex 0 0 []
      (filled.onBolt fun y => { y with slots := vMod y.slots b.slot fun _ => {
        valid := true, id := b.model, regions := bundleBolt (bundleStreamed t b s) t.ctx.val b.regions
        stamp := filled.stu.stitch } }) := by
  unfold bundleDone
  dsimp only
  rw [h]
  rfl

end

/-- Settles O33: a descriptor that starts is given to its own rules, which open its transfer or say why not; the end of a transfer
by its kind. -/
theorem transfers : Obligations.Transfers := by
  refine ⟨fun s n d rest hs => ?_, fun s t ht => ?_⟩
  · intro u b asked opens fails loading
    have hopens (notify : Bool) (k : TransferKind) (v : State) : opens notify k v = startTransfer n.val d notify k v :=
      (startTransfer_ctx n d notify k v).symm
    simp only [hopens]
    refine ⟨fun htype htarget => ?_, fun htype htarget => ⟨fun hnone => ?_, fun k x hx => ?_⟩, fun htype htarget => ?_,
      fun htype => ⟨fun hjob ok => ?_, fun hserving => ⟨?_, ?_⟩⟩, fun htype hjob => ?_, fun htype hjob => ?_⟩
    · exact (exec_copyIn hs htype).trans (congrArg Host.Outcome.next (copyIn_hbm htarget))
    · exact (exec_copyIn hs htype).trans (congrArg Host.Outcome.next (copyIn_boltAbsent htarget hnone))
    · have hcopy := (exec_copyIn hs htype).trans (congrArg Host.Outcome.next (copyIn_bolt (s := u) htarget hx))
      exact ⟨fun hfree => hcopy.trans (congrArg Host.Outcome.next (if_neg (ne_true_of_eq_false hfree))),
        fun hpinned => hcopy.trans (congrArg Host.Outcome.next ((if_pos hpinned).trans (by rw [refuse, htype]; rfl)))⟩
    · exact (exec_copyOut hs htype).trans (congrArg Host.Outcome.next (copyOut_opens htarget))
    · exact exec_loadBundle_misfit hs htype hjob ok
    · exact (exec_loadBundle hs htype hserving false).trans (congrArg Host.Outcome.next startBundle_portError)
    · intro key k v hmagic hversion hpos hle hpanels hrecords hkey hsigned hnew hfits hslot
      exact (exec_loadBundle hs htype hserving true).trans (congrArg Host.Outcome.next
        (startBundle_opens ⟨hmagic, hversion, hpos, hle⟩ hpanels hrecords hkey hsigned hnew hfits hslot))
    · rw [exec_ckptShard hs hjob htype]
      refine ⟨fun hreslicing => congrArg Host.Outcome.next (startShard_reslicing (s := u) hreslicing), fun k hk => ?_⟩
      exact congrArg Host.Outcome.next (startShard_of_kind (s := u) hk)
    · rw [exec_restoreShard hs hjob htype]
      exact ⟨fun hrunning => congrArg Host.Outcome.next (startRestore_running (s := u) hrunning), fun hreslicing =>
        ⟨fun hnone => congrArg Host.Outcome.next (startRestore_untargeted (s := u) hreslicing hnone),
          fun k x hx => congrArg Host.Outcome.next (startRestore_targeted (s := u) hreslicing hx)⟩⟩
  · intro n closed gone fin done
    refine ⟨fun a len bolt region off hkind => ?_, fun a len bolt region off hkind => ?_, fun h hkind hopen => ?_,
      fun h c hkind hcaptured => ?_, fun r hkind => ?_, fun x hkind => ?_⟩
    · intro met k seen
      have hmoves (hwhole : bolt = false ∨ (off % 32 = 0 ∧ len % 32 = 0)) : exec (.copyDone t.id true) s =
          .next (fin 4 0 (if k = 0 then seen else copyInData n bolt region off (Mem.bytes seen.hostMem a k) seen)) :=
        congrArg Host.Outcome.next (copyDone_copyIn_moves ht hkind (narrowCopy_eq_false.2 hwhole))
      refine ⟨congrArg Host.Outcome.next (copyDone_copyIn_portError ht hkind), fun hbolt hnarrow => ?_, fun hk hwhole => ?_,
        fun hk hbolt r hr => ?_, fun hk hbolt hoff hlen i x hx => ?_⟩
      · exact congrArg Host.Outcome.next (copyDone_copyIn_narrow ht hkind (narrowCopy_eq_true.2 ⟨hbolt, hnarrow⟩))
      · rw [hmoves hwhole, if_pos hk]
      · rw [hmoves (.inl hbolt), if_neg (Nat.ne_of_gt hk), hbolt, copyInData_hbm hr, Mem.length_bytes]
      · rw [hmoves (.inr ⟨hoff, hlen⟩), if_neg (Nat.ne_of_gt hk), hbolt, copyInData_bolt hx]
    · exact ⟨congrArg Host.Outcome.next (copyDone_copyOut_portError ht hkind),
        congrArg Host.Outcome.next (copyDone_copyOut_moves ht hkind)⟩
    · intro met read
      rw [exec_captureEnd ht hkind hopen]
      exact ⟨fun hnone => congrArg Host.Outcome.next (captureEnd_gone hnone), fun data e hdata hentry hmasters =>
        ⟨fun hsnap => congrArg Host.Outcome.next (captureEnd_direct hdata hentry hmasters hsnap),
          fun r hsnap hthere hkept =>
            congrArg Host.Outcome.next (captureEnd_snapshot hdata hentry hmasters hsnap hthere hkept)⟩⟩
    · rw [exec_shardDrained ht hkind hcaptured, exec_shardDrained ht hkind hcaptured]
      exact ⟨congrArg Host.Outcome.next shardDrained_portError,
        fun hsnap => congrArg Host.Outcome.next (shardDrained_direct hsnap),
        fun r hsnap hr => congrArg Host.Outcome.next (shardDrained_snapshot hsnap hr)⟩
    · rw [exec_restoreDone ht hkind, exec_restoreDone ht hkind]
      exact ⟨congrArg Host.Outcome.next (restoreDone_portError rfl),
        fun hrunning => congrArg Host.Outcome.next (restoreDone_running rfl hrunning),
        fun hreslicing => ⟨fun hbad => congrArg Host.Outcome.next (restoreDone_bad rfl hreslicing hbad),
          fun hgood => congrArg Host.Outcome.next (restoreDone_good rfl hreslicing hgood)⟩⟩
    · rw [exec_bundleDone ht hkind, exec_bundleDone ht hkind]
      exact ⟨congrArg Host.Outcome.next bundleDone_portError, fun hbad => congrArg Host.Outcome.next (bundleDone_bad hbad),
        fun hgood => congrArg Host.Outcome.next (bundleDone_good hgood)⟩

end Sys2Proof.Machine

/-! PROOFS, family 06_hbm_tier: the regions, the queues, the windows and the stack readings of the HBM tier. -/

namespace Sys2Proof.Machine

/-! Zeroing a region (R166). -/

/-- A byte after stretches of a memory have been cleared, one for each entry of a list. -/
theorem Mem.byte_clearRanges {α : Type} (first last : α → Nat) (l : List α) (m : Mem) (a : Nat) :
    Mem.byte (l.foldl (fun m x => Mem.clearRange m (first x) (last x)) m) a =
      if ∃ x ∈ l, first x ≤ a ∧ a < last x then 0 else Mem.byte m a := by
  induction l generalizing m with
  | nil => simp
  | cons x l ih =>
    rw [List.foldl_cons, ih, Mem.byte_clearRange]
    by_cases hx : first x ≤ a ∧ a < last x <;> simp [hx]

/-- A byte of the tier after a region has been zeroed. -/
theorem byte_zeroRegion (r : HbmRegion) (s : State) (a : Nat) : Mem.byte (zeroRegion r s).hbm.mem a =
    if ∃ pc ∈ (List.range 256).filter fun pc => usesPc s r pc,
      hbmAddr pc r.base ≤ a ∧ a < hbmAddr pc (r.base + regionSpan r) then 0 else Mem.byte s.hbm.mem a :=
  Mem.byte_clearRanges ..

/-- Settles O22: the zeroing clears one stretch of addresses for each pseudo-channel that the region uses. -/
theorem zeroedRegionReadsZero : Obligations.ZeroedRegionReadsZero := by
  intro s r a inside
  have hinside : inside ↔ ∃ pc ∈ (List.range 256).filter fun pc => usesPc s r pc,
      hbmAddr pc r.base ≤ a ∧ a < hbmAddr pc (r.base + regionSpan r) := by
    simp only [inside, List.mem_filter, List.mem_range, and_assoc]
  exact ⟨fun h => (byte_zeroRegion r s a).trans (if_pos (hinside.1 h)),
    fun h => (byte_zeroRegion r s a).trans (if_neg (mt hinside.2 h))⟩

/-! The queue of a pseudo-channel (R161). -/

section
variable {a b c : Access}

theorem accessBefore_iff : accessBefore a b = true ↔ a.arrival < b.arrival ∨ a.arrival = b.arrival ∧
    (sourceRank a.source < sourceRank b.source ∨ sourceRank a.source = sourceRank b.source ∧ a.key < b.key) := by
  simp [accessBefore]

theorem accessBefore_irrefl (a : Access) : accessBefore a a = false := by
  rw [← Bool.not_eq_true, accessBefore_iff]
  omega

theorem accessBefore_asymm (h : accessBefore a b = true) : accessBefore b a = false := by
  rw [accessBefore_iff] at h
  rw [← Bool.not_eq_true, accessBefore_iff]
  omega

/-- The order of a queue is a weak order: not to come before is transitive. -/
theorem not_accessBefore_trans (hcb : accessBefore c b = false) (hba : accessBefore b a = false) : accessBefore c a = false := by
  rw [← Bool.not_eq_true, accessBefore_iff] at hcb hba ⊢
  omega

end

theorem firstAccess_eq_none {l : List Access} (h : firstAccess l = none) : l = [] := by
  cases l with
  | nil => rfl
  | cons a l =>
    rw [firstAccess] at h
    split at h <;> cases h

/-- The first access of a list is one of it, and none of it comes before. -/
theorem firstAccess_eq_some {l : List Access} {a : Access} (h : firstAccess l = some a) :
    a ∈ l ∧ ∀ b ∈ l, accessBefore b a = false := by
  induction l generalizing a with
  | nil => cases h
  | cons x l ih =>
    rw [firstAccess] at h
    split at h
    next y hy =>
      obtain ⟨hmem, hfirst⟩ := ih hy
      cases hyx : accessBefore y x with
      | true =>
        obtain rfl : y = a := by simpa [hyx] using h
        exact ⟨List.mem_cons_of_mem x hmem, List.forall_mem_cons.2 ⟨accessBefore_asymm hyx, hfirst⟩⟩
      | false =>
        obtain rfl : x = a := by simpa [hyx] using h
        exact ⟨List.mem_cons_self, List.forall_mem_cons.2
          ⟨accessBefore_irrefl x, fun b hb => not_accessBefore_trans (hfirst b hb) hyx⟩⟩
    next hnone =>
      obtain rfl : x = a := by simpa using h
      obtain rfl := firstAccess_eq_none hnone
      simp [accessBefore_irrefl]

/-- The accesses that no engine holds back are accesses in flight. -/
theorem mem_of_mem_openAccesses {s : State} {a : Access} {l : List Access} {stuck : List AccessSource}
    (h : a ∈ openAccesses s l stuck) : a ∈ l := by
  induction l generalizing stuck with
  | nil => exact h
  | cons x l ih =>
    rw [openAccesses] at h
    split at h
    · exact List.mem_cons_of_mem x (ih h)
    · split at h
      · exact List.mem_cons_of_mem x (ih h)
      · rcases List.mem_cons.1 h with rfl | hrest
        · exact List.mem_cons_self
        · exact List.mem_cons_of_mem x (ih hrest)

/-- The next access of a pseudo-channel's queue is in flight to it, and none that is not held back comes before. -/
theorem nextAccess_eq_some {s : State} {pc : Nat} {a : Access} (h : nextAccess s pc = some a) :
    a ∈ s.hbm.inflight ∧ a.pc = pc ∧ ∀ b ∈ openAccesses s s.hbm.inflight [], b.pc = pc → accessBefore b a = false := by
  obtain ⟨hmem, hfirst⟩ := firstAccess_eq_some h
  obtain ⟨hopen, hpc⟩ := List.mem_filter.1 hmem
  exact ⟨mem_of_mem_openAccesses hopen, beq_iff_eq.1 hpc,
    fun b hb hbpc => hfirst b (List.mem_filter.2 ⟨hb, beq_iff_eq.2 hbpc⟩)⟩

theorem exec_hbmQueueArrival {s : State} {pc : Fin 256} {a : Access} (h : nextAccess s pc.val = some a) (e : LineEcc) :
    exec (.hbmQueueArrival pc e) s =
      .next (takeAccess a e (s.onHbm fun h => { h with inflight := h.inflight.erase a })) := by
  change execHbmQueueArrival pc e s = _
  simp only [execHbmQueueArrival, h]

/-! Draining a buffer, and the windows (R168, R175, R186). -/

theorem exec_wcDrain {s : State} {k : Panel} {e : WcEntry} (h : (vAt s.hbm.wc k.val []).find? (·.sealed) = some e) :
    exec (.wcDrain k) s = .next (drainOldest k.val e (meetQueues .drain s)) := by
  change execWcDrain k s = _
  simp only [execWcDrain, h]

/-- The drain of an entry whose sectors are each whole or empty reads no line. -/
theorem drainOldest_whole {e : WcEntry} (h : partlyValid e = false) (s : State) (k : Nat) :
    drainOldest k e s = setWc k ((wcEntries s e.pc).erase e) (drainEntry e s) := by
  simp [drainOldest, h]

/-- With nothing in flight nothing is ahead of an engine's access. -/
theorem meetQueues_idle {s : State} (h : s.hbm.inflight = []) (engine : AccessSource) : meetQueues engine s = s := by
  simp [meetQueues, h, meetAhead]

/-- A tally line written to the tally region of its context; without such a region it is dropped. -/
def writeTally (s : State) (x : Nat × Nat × List Byte) : State :=
  match hbmRegion s x.1 (fld (s.ctx x.1).rank 23 20) with
  | some r => unverifyBytes x.1 (fld (s.ctx x.1).rank 23 20) (64 * x.2.1) x.2.2.length (storeLines x.1 r (64 * x.2.1) x.2.2 s)
  | none => s

/-- The tier as a calibration window opens: the tally lines have left their list. -/
def calibrating (s : State) : State := s.onHbm fun h => { h with calibrations := h.calibrations + 1, tallyOut := [] }

theorem exec_calibrationWindow (s : State) :
    exec .calibrationWindow s = .next ((meetQueues .presser (calibrating s)).each s.hbm.tallyOut writeTally) := rfl

/-- A calibration window with one tally line, of a context without a tally region, drops it. -/
theorem exec_calibrationWindow_drops {s : State} {n l : Nat} {bs : List Byte} (hidle : s.hbm.inflight = [])
    (hout : s.hbm.tallyOut = [(n, l, bs)]) (hnone : hbmRegion s n (fld (s.ctx n).rank 23 20) = none) :
    exec .calibrationWindow s = .next (calibrating s) := by
  have hdrop : writeTally (calibrating s) (n, l, bs) = calibrating s := by
    have hnone' : hbmRegion (calibrating s) n (fld ((calibrating s).ctx n).rank 23 20) = none := hnone
    simp only [writeTally, hnone']
  rw [exec_calibrationWindow, meetQueues_idle (s := calibrating s) hidle, hout]
  exact congrArg Host.Outcome.next hdrop

/-! SCRUB_FLOOR and MAX_CLR (R181, Tables 6-8, 6-10). -/

/-- Bit i of a value placed at bit 16. -/
theorem getLsbD_floorWord (f : BitVec 9) (i : Nat) :
    (f.setWidth 64 <<< 16).getLsbD i = (decide (16 ≤ i) && f.getLsbD (i - 16)) := by
  rw [BitVec.getLsbD_shiftLeft, BitVec.getLsbD_setWidth]
  by_cases hf : i - 16 < 9
  · simp [show i < 64 by omega, show i - 16 < 64 by omega, ← decide_not]
  · simp [BitVec.getLsbD_of_ge f _ (Nat.not_lt.1 hf)]

/-- A word that holds a value in SCRUB_FLOOR and nothing else sets no other bit. -/
theorem floorWord_and {m : W64} (f : BitVec 9) (hm : m &&& mask64 24 16 = 0) : f.setWidth 64 <<< 16 &&& m = 0 := by
  refine BitVec.eq_of_getLsbD_eq fun i hi => ?_
  have hbit := congrArg (BitVec.getLsbD · i) hm
  simp only [BitVec.getLsbD_and, getLsbD_mask64, getLsbD_floorWord] at hbit ⊢
  by_cases hin : 16 ≤ i ∧ i ≤ 24
  · have hclear : m.getLsbD i = false := by simpa [hin, hi] using hbit
    simp [hclear]
  · have hout : (decide (16 ≤ i) && f.getLsbD (i - 16)) = false := by
      by_cases hlow : 16 ≤ i
      · rw [BitVec.getLsbD_of_ge f _ (by omega), Bool.and_false]
      · simp [hlow]
    simp [hout]

theorem fld_floorWord (f : BitVec 9) : fld (f.setWidth 64 <<< 16) 24 16 = f.toNat := by
  have hf := f.isLt
  simp only [fld, BitVec.toNat_shiftLeft, BitVec.toNat_setWidth, Nat.shiftLeft_eq, Nat.shiftRight_eq_div_pow]
  omega

section
variable {s : State} (htakes : TakesWrites s)
include htakes

/-- A value of 1 to 256 written to SCRUB_FLOOR is taken; any other leaves the one written before. -/
theorem exec_scrubFloorWrite (hopen : bit s.hbm.ctrl 2 = false) (f : BitVec 9) :
    exec (.scrubFloorWrite (f.setWidth 64 <<< 16)) s = .next (s.onHbm fun h => { h with
      ctrl := putFld 0 24 16 (if 1 ≤ f.toNat ∧ f.toNat ≤ 256 then f.toNat else fld s.hbm.ctrl 24 16) }) := by
  have hrsv : f.setWidth 64 <<< 16 &&& (mask64 63 25 ||| mask64 15 3 ||| 1) = 0 := floorWord_and f (by decide)
  have hother : f.setWidth 64 <<< 16 &&& 6 = 0 := floorWord_and f (by decide)
  refine congrArg Host.Outcome.next ((bar0Write_of_takes htakes _).trans ?_)
  simp only [writeHbtCtrl, hopen, hrsv, hother, fld_floorWord, ne_eq, not_true_eq_false, Bool.false_eq_true, false_and, or_self,
    if_false]

/-- MAX_CLR sets a stack's MAX to its present temperature. -/
theorem exec_hbmTempMaxClr {k : Panel} (hk : k.val < s.nPanels) :
    exec (.hbmTempMaxClr k 0) s = .next (s.onHbm fun h => { h with tempMax := h.tempMax.set k h.temp[k] }) := by
  have hrsv : checkRsv (mask64 63 32 ||| mask64 30 28 ||| mask64 23 16) (putFld 0 31 31 1) s = s := if_neg (by decide)
  have hclr : bit (putFld 0 31 31 1) 31 = true := by decide
  have htemp (h : Hbm) : vAt h.temp k.val 0 = h.temp[k] := vAt_of_lt h.temp 0 k.isLt
  refine congrArg Host.Outcome.next ((bar0Write_of_takes htakes _).trans ?_)
  simp only [writeHbtTemp, hrsv, if_neg (Nat.not_le.2 hk), hclr, if_true, vMod_fin, htemp]

end

/-! The temperature reason (R33, Table 6-3). -/

@[simp] theorem platformEvent_stu (kind : Byte) (bytes : List Byte) (s : State) : (platformEvent kind bytes s).stu = s.stu := by
  unfold platformEvent
  split <;> rfl

@[simp] theorem platformEvent_hbm (kind : Byte) (bytes : List Byte) (s : State) : (platformEvent kind bytes s).hbm = s.hbm := by
  unfold platformEvent
  split <;> rfl

/-- The stack readings of the tier stay as they are while the reason follows one. -/
@[simp] theorem hbmReason_hbm (c : Int) (s : State) : (hbmReason c s).hbm = s.hbm := by
  unfold hbmReason
  dsimp only
  split
  · exact platformEvent_hbm ..
  · split
    · exact platformEvent_hbm ..
    · rfl

section
variable {s : State} {c : Int}

theorem presented_cool_iff :
    ((presented s).all fun k => decide (stackTemp s k ≤ 90)) = true ↔ ∀ j < s.nPanels, stackTemp s j ≤ 90 := by
  simp [presented]

/-- A reading of 95 °C or more raises the factor. -/
theorem hbmReason_rises (hc : 95 ≤ c) (hrest : s.stu.hbmTarget = 16) : (hbmReason c s).stu.hbmTarget = 20 := by
  rw [hbmReason, if_pos ⟨hc, hrest⟩, platformEvent_stu]
  rfl

/-- A raised factor falls once every stack is at 90 °C or below. -/
theorem hbmReason_falls (hraised : s.stu.hbmTarget ≠ 16) (hcool : ∀ j < s.nPanels, stackTemp s j ≤ 90) :
    (hbmReason c s).stu.hbmTarget = 16 := by
  rw [hbmReason, if_neg (fun h => hraised h.2), if_pos ⟨presented_cool_iff.2 hcool, hraised⟩, platformEvent_stu]
  rfl

/-- A reading below 95 °C leaves a factor at rest. -/
theorem hbmReason_rests (hc : c < 95) (hrest : s.stu.hbmTarget = 16) : hbmReason c s = s := by
  rw [hbmReason, if_neg (fun h => absurd h.1 (by omega)), if_neg (fun h => h.2 hrest)]

/-- A raised factor stays while a stack is above 90 °C. -/
theorem hbmReason_stays (hraised : s.stu.hbmTarget ≠ 16) (hhot : ∃ j < s.nPanels, 90 < stackTemp s j) : hbmReason c s = s := by
  obtain ⟨j, hj, hhot⟩ := hhot
  rw [hbmReason, if_neg (fun h => hraised h.2), if_neg]
  exact fun h => absurd (presented_cool_iff.1 h.1 j hj) (by omega)

/-- While a stack is above 90 °C, a reading of 95 °C or more leaves the factor raised. -/
theorem hbmReason_hot (hc : 95 ≤ c) (hhot : ∃ j < s.nPanels, 90 < stackTemp s j) : (hbmReason c s).stu.hbmTarget ≠ 16 := by
  by_cases hrest : s.stu.hbmTarget = 16
  · rw [hbmReason_rises hc hrest]
    decide
  · rwa [hbmReason_stays hrest hhot]

end

/-! Readings of a stack (R172, Table 6-3). -/

/-- The tier with a reading of a stack kept. -/
def readingKept (k : Panel) (c : Int) (s : State) : State := s.onHbm fun h => { h with
  temp := h.temp.set k (BitVec.ofInt 8 c), tempFails := h.tempFails.set k 0
  tempMax := h.tempMax.set k (if (h.tempMax[k]).toInt < c then BitVec.ofInt 8 c else h.tempMax[k]) }

/-- The tier with a number of failed reads of a stack in a row. -/
def readsFailed (k : Panel) (n : Nat) (s : State) : State := s.onHbm fun h => { h with tempFails := h.tempFails.set k n }

theorem vAt_readsFailed (k : Panel) (n : Nat) (s : State) : vAt (readsFailed k n s).hbm.tempFails k.val 0 = n := by
  rw [vAt_of_lt _ _ k.isLt]
  exact Vector.getElem_set_self k.isLt

/-- A stack with three failed reads counts as one at 105 °C. -/
theorem stackTemp_readsFailed (k : Panel) (s : State) : stackTemp (readsFailed k 3 s) k.val = 105 := by
  simp [stackTemp, vAt_readsFailed]

section
variable {s : State} {k : Panel} (hk : k.val < s.nPanels) (hread : tempSuspended s k.val = false)
include hk hread

theorem exec_hbmTempRead_reading (c : Int) :
    let kept := readingKept k c s
    let t := hbmReason c (if s.thm.restarting ∨ s.thm.halted then kept else takeReading (96 + k.val) c kept)
    exec (.hbmTempRead k (.reading c)) s = .next (if 105 ≤ c then stackThermal k.val 1 t else t) := by
  change execHbmTempRead k (.reading c) s = _
  rw [execHbmTempRead, if_neg (by simp [hk, hread])]
  simp only [vMod_fin]
  rfl

theorem exec_hbmTempRead_failed {n : Nat} (hn : min 3 (vAt s.hbm.tempFails k.val 0 + 1) = n) :
    exec (.hbmTempRead k .failed) s =
      .next (if n = 3 then stackThermal k.val 2 (hbmReason 105 (readsFailed k n s)) else readsFailed k n s) := by
  change execHbmTempRead k .failed s = _
  rw [execHbmTempRead, if_neg (by simp [hk, hread])]
  simp only [vMod_fin, hn]
  rfl

/-- A failed read counts, to 3. -/
theorem exec_hbmTempRead_counts (hfew : vAt s.hbm.tempFails k.val 0 < 2) : exec (.hbmTempRead k .failed) s =
    .next (s.onHbm fun h => { h with tempFails := h.tempFails.set k (h.tempFails[k] + 1) }) := by
  have hfails : vAt s.hbm.tempFails k.val 0 = s.hbm.tempFails[k] := vAt_of_lt _ _ k.isLt
  rw [hfails] at hfew
  rw [exec_hbmTempRead_failed hk hread rfl, hfails, Nat.min_eq_right (by omega), if_neg (by omega)]
  rfl

/-- The third failed read in a row is a device fault of the stack, with the factor raised. -/
theorem exec_hbmTempRead_third (hsecond : vAt s.hbm.tempFails k.val 0 = 2) :
    ∃ t, exec (.hbmTempRead k .failed) s = .next (stackThermal k.val 2 t) ∧
      vAt t.hbm.tempFails k.val 0 = 3 ∧ t.stu.hbmTarget ≠ 16 := by
  have hthird : min 3 (vAt s.hbm.tempFails k.val 0 + 1) = 3 := by rw [hsecond]; rfl
  refine ⟨hbmReason 105 (readsFailed k 3 s), exec_hbmTempRead_failed hk hread hthird, ?_, ?_⟩
  · rw [hbmReason_hbm, vAt_readsFailed]
  · exact hbmReason_hot (by decide) ⟨k.val, hk, by rw [stackTemp_readsFailed]; decide⟩

end

/-- Settles O23: the queue by the order of its accesses, which is one of arrival, source and key; the windows and controls each by
their one write of the tier; a reading by what is kept of it and by the reason that follows it. -/
theorem hbmQueuesAndWindows : Obligations.HbmQueuesAndWindows := by
  refine ⟨fun s pc e a hnext => ⟨exec_hbmQueueArrival hnext e, nextAccess_eq_some hnext⟩, fun s k e => exec_wcDrain,
    fun s k e hwhole => drainOldest_whole hwhole s k, fun s => rfl, fun s => ?_, fun s htakes => ?_, fun s k hk hread => ?_⟩
  · exact ⟨exec_calibrationWindow s, fun n l bs => exec_calibrationWindow_drops⟩
  · exact ⟨fun f hopen => exec_scrubFloorWrite htakes hopen f, fun k => exec_hbmTempMaxClr htakes⟩
  · refine ⟨fun c => ?_, exec_hbmTempRead_counts hk hread, exec_hbmTempRead_third hk hread, fun c => ?_⟩
    · intro kept taken
      have hexec := exec_hbmTempRead_reading hk hread c
      exact ⟨fun hc => hexec.trans (congrArg Host.Outcome.next (if_neg (Int.not_le.2 hc))),
        fun hc => hexec.trans (congrArg Host.Outcome.next (if_pos hc))⟩
    · refine ⟨hbmReason_rises, hbmReason_rests, fun hc hcool => ?_, fun hc => hbmReason_stays⟩
      by_cases hrest : s.stu.hbmTarget = 16
      · rw [hbmReason_rests hc hrest, hrest]
      · exact hbmReason_falls hrest hcool

/-! Writes of HBT_RGN_CMD (R162, R166, Table 6-9). -/

/-- A write of the command register checks the written word's reserved bits and runs the command. -/
theorem writeHbtCmd_putFld (v : W64) {c : Nat} (hc : c < 4) (s : State) : writeHbtCmd (putFld v 1 0 c) s =
    (if c = 1 then hbmDefine else if c = 2 then hbmRelease else id) (checkRsv (mask64 63 2) v s) := by
  have hcmd : fld (putFld v 1 0 c) 1 0 = c := fld_putFld v (by decide) (by decide) hc
  have hrsv : putFld v 1 0 c &&& mask64 63 2 = v &&& mask64 63 2 := putFld_and_of_disjoint v (by decide) c
  simp only [writeHbtCmd, checkRsv, hcmd, hrsv]
  split
  · rfl
  · split <;> rfl

section
variable {s : State} (h : TakesWrites s) (v : W64)
include h

theorem exec_hbtDefine : exec (.hbtDefine v) s = .next (hbmDefine (checkRsv (mask64 63 2) v s)) :=
  congrArg Host.Outcome.next ((bar0Write_of_takes h _).trans (writeHbtCmd_putFld v (by decide) s))

theorem exec_hbtRelease : exec (.hbtRelease v) s = .next (hbmRelease (checkRsv (mask64 63 2) v s)) :=
  congrArg Host.Outcome.next ((bar0Write_of_takes h _).trans (writeHbtCmd_putFld v (by decide) s))

end

/-- The context that the select register names. -/
def selectedCtx (s : State) : Nat := fld s.hbm.rgnSel 7 4

/-- The region index that the select register names. -/
def selectedIndex (s : State) : Nat := fld s.hbm.rgnSel 3 0

section
variable {s : State}

theorem hbmDefine_inUse (h : (hbmRegion s (selectedCtx s) (selectedIndex s)).isSome) : hbmDefine s = hbmResult 0x02 s :=
  if_pos h

theorem hbmRelease_none (h : hbmRegion s (selectedCtx s) (selectedIndex s) = none) : hbmRelease s = hbmResult 0x06 s :=
  if_pos (Option.isNone_iff_eq_none.2 h)

theorem hbmRelease_some (h : (hbmRegion s (selectedCtx s) (selectedIndex s)).isSome) : hbmRelease s =
    if 0 < regionRefs s (selectedCtx s) (selectedIndex s) then hbmResult 0x04 s
    else hbmResult 0 (s.onHbm fun h => { h with
      regions := Tab.drop h.regions (regionKey (selectedCtx s) (selectedIndex s))
      checked := h.checked.filter fun c => !(c.ctx == selectedCtx s && c.region == selectedIndex s) }) :=
  if_neg fun hnone => absurd h (Option.not_isSome_iff_eq_none.2 (Option.isNone_iff_eq_none.1 hnone))

section
variable (hfree : hbmRegion s (selectedCtx s) (selectedIndex s) = none)
include hfree

theorem hbmDefine_free : hbmDefine s =
    if invalidRegion s (selectedCtx s) (configuredRegion s.hbm.cfg) then hbmResult 0x05 s
    else match findHbmBase s (configuredRegion s.hbm.cfg) with
      | none => hbmResult 0x01 s
      | some b => hbmResult 0 (s.onHbm fun h => { h with
          regions := Tab.put h.regions (regionKey (selectedCtx s) (selectedIndex s))
            { configuredRegion s.hbm.cfg with base := b } }) :=
  if_neg (Option.not_isSome_iff_eq_none.2 hfree)

theorem hbmDefine_invalid (hbad : invalidRegion s (selectedCtx s) (configuredRegion s.hbm.cfg) = true) :
    hbmDefine s = hbmResult 0x05 s := by
  rw [hbmDefine_free hfree, hbad, if_pos rfl]

section
variable (hvalid : invalidRegion s (selectedCtx s) (configuredRegion s.hbm.cfg) = false)
include hvalid

theorem hbmDefine_full (hfull : findHbmBase s (configuredRegion s.hbm.cfg) = none) : hbmDefine s = hbmResult 0x01 s := by
  simp [hbmDefine_free hfree, hvalid, hfull]

theorem hbmDefine_placed {b : Nat} (hroom : findHbmBase s (configuredRegion s.hbm.cfg) = some b) : hbmDefine s =
    hbmResult 0 (s.onHbm fun h => { h with
      regions := Tab.put h.regions (regionKey (selectedCtx s) (selectedIndex s))
        { configuredRegion s.hbm.cfg with base := b } }) := by
  simp [hbmDefine_free hfree, hvalid, hroom]

end
end
end

/-- The region's zeroing writes are done: it reads zero and is READY. -/
theorem exec_zeroingDone {s : State} {m : Ctx} {j : Fin 16} {x : HbmRegion} (hx : hbmRegion s m.val j.val = some x)
    (hnew : x.ready = false) : exec (.zeroingDone m j) s = .next ((zeroRegion x (meetQueues .drain s)).onHbm fun h => { h with
      regions := Tab.put h.regions (regionKey m.val j.val) { x with ready := true } }) := by
  change execZeroingDone m j s = _
  simp [execZeroingDone, hx, hnew]

/-- Settles O21: DEFINE by the index, the configuration and the room; RELEASE by the index and its references; the end of zeroing by
the region that is not READY. -/
theorem hbmRegionCommands : Obligations.HbmRegionCommands := by
  refine ⟨fun s v htakes => ?_, fun s m j x => exec_zeroingDone⟩
  rw [exec_hbtDefine htakes, exec_hbtRelease htakes]
  exact ⟨fun b hfree hvalid hroom => congrArg Host.Outcome.next (hbmDefine_placed hfree hvalid hroom),
    fun hfree hbad => congrArg Host.Outcome.next (hbmDefine_invalid hfree hbad),
    fun hfree hvalid hfull => congrArg Host.Outcome.next (hbmDefine_full hfree hvalid hfull),
    fun hused => ⟨congrArg Host.Outcome.next (hbmDefine_inUse hused), congrArg Host.Outcome.next (hbmRelease_some hused)⟩,
    fun hnone => congrArg Host.Outcome.next (hbmRelease_none hnone)⟩

end Sys2Proof.Machine

/-! PROOFS, family 07_training_step: the presser registers, the records that pressers take, and the vote of a step. -/

namespace Sys2Proof.Machine

/-! Words of the presser registers (Tables 7-12 to 7-15). -/

@[simp] theorem violate_prs (n : Nat) (kind : Byte) (s : State) : (violate n kind s).prs = s.prs := rfl

/-- A field above the one that is written keeps its value. -/
theorem fld_putFld_above (w : W64) {hi lo hi' lo' : Nat} (h : hi < lo') (v : Nat) :
    fld (putFld w hi lo v) hi' lo' = fld w hi' lo' := by
  refine Nat.eq_of_testBit_eq fun i => ?_
  have hout : (mask64 hi lo).getLsbD (lo' + i) = false := by
    rw [getLsbD_mask64, decide_eq_false (show ¬ lo' + i ≤ hi by omega), Bool.and_false, Bool.false_and]
  have hkept : (putFld w hi lo v).getLsbD (lo' + i) = w.getLsbD (lo' + i) := by
    simp only [putFld, BitVec.getLsbD_or, BitVec.getLsbD_and, BitVec.getLsbD_not, hout, Bool.not_false, Bool.and_true,
      Bool.and_false, Bool.or_false]
    by_cases h64 : lo' + i < 64
    · simp only [h64, decide_true, Bool.and_true]
    · rw [BitVec.getLsbD_of_ge w _ (Nat.not_lt.1 h64), Bool.false_and]
  simp only [fld, Nat.testBit_mod_two_pow, Nat.testBit_shiftRight, BitVec.testBit_toNat, hkept]

/-- The bits from `lo` up are zero where a shift by `lo` leaves nothing. -/
theorem and_mask64_eq_zero_iff (v : W64) (lo : Nat) : v &&& mask64 63 lo = 0 ↔ v >>> lo = 0 := by
  constructor <;> intro h <;> refine BitVec.eq_of_getLsbD_eq fun i hi => ?_
  · have hbit := congrArg (·.getLsbD (lo + i)) h
    by_cases h64 : lo + i < 64
    · simp only [BitVec.getLsbD_and, getLsbD_mask64] at hbit
      simpa [h64, Nat.le_of_lt_succ h64] using hbit
    · simpa using BitVec.getLsbD_of_ge v _ (Nat.not_lt.1 h64)
  · by_cases hlo : lo ≤ i
    · have hbit := congrArg (·.getLsbD (i - lo)) h
      simp only [BitVec.getLsbD_ushiftRight, Nat.add_sub_cancel' hlo] at hbit
      simp [hbit]
    · simp [getLsbD_mask64, hlo]

/-- The low bits of a word as a word of their own. -/
theorem fld_low_word (v : W64) {hi len : Nat} (h : hi + 1 = len) : BitVec.ofNat len (fld v hi 0) = v.setWidth len := by
  subst h
  exact BitVec.eq_of_toNat_eq (by simp [fld])

section
variable {s : State} (h : TakesWrites s)
include h

/-- A LOAD starts a read, or reports BUSY while one is under way (R202). -/
theorem exec_prsTblLoad (v : W64) : exec (.prsTblLoad v) s = .next
    (let x := checkRsv (mask64 63 24 ||| mask64 15 10 ||| mask64 3 2) v s
    let c : Ctx := Fin.ofNat 16 (fld v 7 4)
    if s.prs.loading.isSome then x.onPrs fun p => { p with tblCtx := c, result := 5 }
    else x.onPrs fun p => { p with tblCtx := c, loading := some (c, p.tblAddr) }) := by
  refine congrArg Host.Outcome.next ((bar0Write_of_takes h _).trans ?_)
  have hcmd : fld (putFld v 1 0 1) 1 0 = 1 := fld_putFld v (by decide) (by decide) (by decide)
  have hctx : fld (putFld v 1 0 1) 7 4 = fld v 7 4 := fld_putFld_above v (by decide) 1
  have hrsv : putFld v 1 0 1 &&& (mask64 63 24 ||| mask64 15 10 ||| mask64 3 2) =
      v &&& (mask64 63 24 ||| mask64 15 10 ||| mask64 3 2) := by
    simp only [BitVec.and_or_distrib_left, putFld_and_of_disjoint v (show 1 < 24 by decide),
      putFld_and_of_disjoint v (show 1 < 10 by decide), putFld_and_of_disjoint v (show 1 < 2 by decide)]
  simp only [writePrsTblCmd, checkRsv, hcmd, hctx, hrsv, State.onPrs_prs, apply_ite State.prs, violate_prs, ite_self, ne_eq,
    not_true_eq_false, if_false]
  split <;> rfl

end

/-! PRS_BIND_s (Table 7-14). -/

theorem bindRefused_iff {s : State} {old v : W64} : bindRefused s old v = true ↔
    (fld v 39 16 ≠ fld old 39 16 ∧ (fld v 39 16 = 0 ∨ fld v 39 16 % 9 ≠ 0)) ∨
      (bit v 0 = true ∧ (bit old 0 = false ∨ fld v 7 4 ≠ fld old 7 4) ∧ activeTraining s (fld v 7 4) = false) := by
  simp [bindRefused, and_assoc]

section
variable {s : State} {k : Nat} (v : W64)

theorem writePrsBind_absent (hk : s.nPanels ≤ k) : writePrsBind k v s = checkRsv 0xFF0C#64 v s := if_pos hk

section
variable (hk : k < s.nPanels)
include hk

/-- While LOCK is set a write changes nothing, and one that would is refused. -/
theorem writePrsBind_locked (hlock : bit s.prs.ctrl 0 = true) : writePrsBind k v s =
    if v &&& ~~~ 0xFF0C#64 ≠ (s.presser k).bind then violate 0 0x02 s else checkRsv 0xFF0C#64 v s := by
  unfold writePrsBind prsLocked
  rw [if_neg (Nat.not_le.2 hk)]
  have hmask : mask64 15 8 ||| mask64 3 2 = 0xFF0C#64 := by decide
  simp only [hmask, hlock, apply_ite State.prs, violate_prs, ite_self, or_true, if_true, decide_eq_true_eq]
  by_cases hnew : v &&& ~~~ 0xFF0C#64 = (s.presser k).bind
  · simp only [hnew, ne_eq, not_true, false_or, if_false, checkRsv]
  · simp only [hnew, ne_eq, not_false_eq_true, true_or, if_true]

section
variable (hopen : bit s.prs.ctrl 0 = false)
include hopen

theorem writePrsBind_refused (hbad : bindRefused s (s.presser k).bind v = true) : writePrsBind k v s = violate 0 0x02 s := by
  unfold writePrsBind prsLocked
  rw [if_neg (Nat.not_le.2 hk)]
  simp only [hopen, hbad, Bool.false_eq_true, if_false, true_or, if_true]

/-- A write that is not refused is kept; one that changes EN or CONTEXT starts the presser afresh. -/
theorem writePrsBind_kept (hgood : bindRefused s (s.presser k).bind v = false) : writePrsBind k v s =
    (let old := (s.presser k).bind
    let new := v &&& ~~~ 0xFF0C#64
    let kept := (checkRsv 0xFF0C#64 v s).onPresser k fun p => { p with bind := new }
    if bit new 0 = bit old 0 ∧ fld new 7 4 = fld old 7 4 then kept else bindPresser k kept) := by
  unfold writePrsBind prsLocked
  rw [if_neg (Nat.not_le.2 hk)]
  have hmask : mask64 15 8 ||| mask64 3 2 = 0xFF0C#64 := by decide
  simp only [hmask, hopen, hgood, Bool.false_eq_true, if_false, false_or, apply_ite State.prs, violate_prs, ite_self,
    ← Decidable.not_and_iff_or_not, ne_eq, ite_not, checkRsv]

end
end
end

/-! PRS_RESERVE_s and PRS_MIRROR (Tables 7-13, 7-14). -/

section
variable {s : State} {k : Nat} (v : W64)

theorem writePrsReserve_absent (hk : s.nPanels ≤ k) : writePrsReserve k v s = checkRsv 0xFFFF000F00000000 v s := if_pos hk

theorem writePrsReserve_open (hk : k < s.nPanels) (hopen : bit s.prs.ctrl 0 = false) : writePrsReserve k v s =
    (checkRsv 0xFFFF000F00000000 v s).onPresser k fun p => { p with reserve := v &&& ~~~ 0xFFFF000F00000000 } := by
  unfold writePrsReserve prsLocked
  rw [if_neg (Nat.not_le.2 hk)]
  have hmask : mask64 63 48 ||| mask64 35 32 = 0xFFFF000F00000000 := by decide
  simp only [hmask, hopen, Bool.false_eq_true, false_and, or_false, apply_ite State.prs, violate_prs, ite_self, if_false, checkRsv]

theorem writePrsReserve_locked (hk : k < s.nPanels) (hlock : bit s.prs.ctrl 0 = true) : writePrsReserve k v s =
    if v &&& ~~~ 0xFFFF000F00000000 ≠ (s.presser k).reserve then violate 0 0x02 s else checkRsv 0xFFFF000F00000000 v s := by
  unfold writePrsReserve prsLocked
  rw [if_neg (Nat.not_le.2 hk)]
  have hmask : mask64 63 48 ||| mask64 35 32 = 0xFFFF000F00000000 := by decide
  simp only [hmask, hlock, true_and, apply_ite State.prs, violate_prs, ite_self, if_true, checkRsv]
  by_cases hnew : v &&& ~~~ 0xFFFF000F00000000 = (s.presser k).reserve
  · simp only [hnew, ne_eq, not_true, or_false, if_false]
  · simp only [hnew, ne_eq, not_false_eq_true, or_true, if_true]

theorem writePrsMirror_open (hopen : bit s.prs.ctrl 0 = false) : writePrsMirror v s =
    (if v >>> 32 ≠ 0 then violate 0 0x02 s else s).onPrs fun p => { p with mirror := v.setWidth 32 } := by
  unfold writePrsMirror prsLocked
  simp only [hopen, Bool.false_eq_true, false_and, or_false, apply_ite State.prs, violate_prs, ite_self, if_false, fld_low_word v rfl,
    ne_eq, and_mask64_eq_zero_iff]

theorem writePrsMirror_locked (hlock : bit s.prs.ctrl 0 = true) : writePrsMirror v s =
    if v.setWidth 32 ≠ s.prs.mirror then violate 0 0x02 s else if v >>> 32 ≠ 0 then violate 0 0x02 s else s := by
  unfold writePrsMirror prsLocked
  simp only [hlock, true_and, apply_ite State.prs, violate_prs, ite_self, if_true, fld_low_word v rfl, ne_eq, and_mask64_eq_zero_iff]
  by_cases hnew : v.setWidth 32 = s.prs.mirror
  · simp only [hnew, not_true, or_false, if_false]
  · simp only [hnew, not_false_eq_true, or_true, if_true]

end

/-! PRS_STEP_n and PRS_COUNT_n (R217, R390). -/

section
variable {s : State} {n : Nat}

theorem writePrsStep_step (v : W64) (hfree : (s.train n).voteStitch = none) : writePrsStep n false v s =
    (if v >>> 44 ≠ 0 then violate 0 0x02 s else s).onTrain n fun t => { t with step := v.setWidth 44 } := by
  simp only [writePrsStep, hfree, Option.isSome_none, Bool.false_and, Bool.false_eq_true, false_or, if_false,
    fld_low_word v rfl, ne_eq, and_mask64_eq_zero_iff]

theorem writePrsStep_count (a b : BitVec 32) (hfree : (s.train n).voteStitch = none) : writePrsStep n true (a ++ b) s =
    s.onTrain n fun t => { t with skips := a, updates := b } := by
  have hskips : BitVec.ofNat 32 (fld (a ++ b) 63 32) = a := (ofNat_fld _ rfl).trans BitVec.extractLsb'_append_eq_left
  have hupdates : BitVec.ofNat 32 (fld (a ++ b) 31 0) = b := (ofNat_fld _ rfl).trans BitVec.extractLsb'_append_eq_right
  simp [writePrsStep, hfree, hskips, hupdates]

/-- The low 44 bits of a word whose other bits are cleared. -/
theorem setWidth_clear_reserved (v : W64) : (v &&& ~~~ mask64 63 44).setWidth 44 = v.setWidth 44 := by
  refine BitVec.eq_of_getLsbD_eq fun i hi => ?_
  simp only [BitVec.getLsbD_setWidth, BitVec.getLsbD_and, BitVec.getLsbD_not, getLsbD_mask64, hi,
    decide_eq_false (Nat.not_le.2 hi)]
  simp [Nat.lt_trans hi (show 44 < 64 by decide)]

/-- Two halves placed side by side. -/
theorem at64_or_at64 (a b : BitVec 32) : at64 32 a.toNat ||| at64 0 b.toNat = a ++ b := by
  refine BitVec.eq_of_getLsbD_eq fun i hi => ?_
  simp only [at64, BitVec.getLsbD_or, BitVec.getLsbD_ofNat, BitVec.getLsbD_append, Nat.testBit_shiftLeft, BitVec.testBit_toNat]
  by_cases hlow : i < 32
  · simp [hlow, hi, Nat.not_le.2 hlow]
  · simp [hlow, hi, Nat.not_lt.1 hlow]

section
variable (hvote : (s.train n).voteStitch.isSome)
include hvote

theorem writePrsStep_step_refused (v : W64) (hnew : v.setWidth 44 ≠ (s.train n).step) :
    writePrsStep n false v s = violate 0 0x02 s := by
  have hheld : v &&& ~~~ mask64 63 44 ≠ at64 0 (s.train n).step.toNat := fun h => hnew <| by
    rw [← setWidth_clear_reserved, h]
    simp [at64]
  simp only [writePrsStep, hvote, Bool.false_eq_true, if_false, hheld, ne_eq, not_false_eq_true, decide_true, Bool.and_true,
    true_or, if_true]

theorem writePrsStep_count_refused (a b : BitVec 32) (hnew : a ≠ (s.train n).skips ∨ b ≠ (s.train n).updates) :
    writePrsStep n true (a ++ b) s = violate 0 0x02 s := by
  have hheld : a ++ b ≠ (s.train n).skips ++ (s.train n).updates := fun h => by
    have hskips := congrArg (BitVec.extractLsb' 32 32) h
    have hupdates := congrArg (BitVec.extractLsb' 0 32) h
    simp only [BitVec.extractLsb'_append_eq_left, BitVec.extractLsb'_append_eq_right] at hskips hupdates
    exact hnew.elim (· hskips) (· hupdates)
  have hall : (a ++ b : W64) &&& ~~~ 0 = a ++ b := BitVec.and_allOnes
  simp only [writePrsStep, hvote, if_true, hall, at64_or_at64, hheld, ne_eq, not_false_eq_true, decide_true, Bool.and_true, true_or]

end
end

/-! The end of an image's read, and the ledger (R202, R218). -/

theorem exec_presserImageChecked {s : State} {n : Ctx} {addr : W64} (h : s.prs.loading = some (n, addr)) (portOk : Bool) :
    exec (.presserImageChecked portOk) s = .next
      (let found := checkImage s n.val (Mem.bytes s.hostMem addr.toNat (imageSize (Mem.bytes s.hostMem addr.toNat 64))) portOk
      let u := s.onPrs fun p => { p with loading := none, result := BitVec.ofNat 8 found.1 }
      match found.2 with
      | some img => stageImage n.val img u
      | none => u) := by
  change execPresserImageChecked portOk s = _
  simp only [execPresserImageChecked, h]
  split <;> simp only [*]

theorem exec_presserLedgerRebuild (s : State) : exec .presserLedgerRebuild s =
    .next (if s.work.ledgerDue = true ∧ s.stu.pos < 96 then rebuildLedger s else s) := by
  change Host.Outcome.next (rebuildDue s) = _
  simp only [rebuildDue, inMaintenance, decide_eq_true_eq]

section
variable {s : State} (h : TakesWrites s)
include h

theorem exec_prsBind (k : Panel) (v : W64) : exec (.prsBind k v) s = .next (writePrsBind k.val v s) :=
  congrArg Host.Outcome.next (bar0Write_of_takes h _)

theorem exec_prsReserveWrite (k : Panel) (v : W64) : exec (.prsReserveWrite k v) s = .next (writePrsReserve k.val v s) :=
  congrArg Host.Outcome.next (bar0Write_of_takes h _)

theorem exec_prsMirrorWrite (v : W64) : exec (.prsMirrorWrite v) s = .next (writePrsMirror v s) :=
  congrArg Host.Outcome.next (bar0Write_of_takes h _)

theorem exec_prsStepWrite (n : Ctx) (count : Bool) (v : W64) : exec (.prsStepWrite n count v) s =
    .next (writePrsStep n.val count v s) := congrArg Host.Outcome.next (bar0Write_of_takes h _)

end

/-- Settles O37: each register's write by its lock and its refusals, an image by the result of its check. -/
theorem presserRegisters : Obligations.PresserRegisters := by
  refine fun s k n => ⟨fun h => ⟨fun v => ?_, fun v => ?_, fun v => ?_, fun v => ?_, fun v => ?_, fun a b => ?_⟩,
    fun addr portOk hload => ?_, exec_presserLedgerRebuild s⟩
  · rw [exec_prsTblLoad h]
    exact ⟨fun hidle => by rw [hidle]; rfl, fun hbusy => by rw [hbusy]; rfl⟩
  · rw [exec_prsBind h]
    exact ⟨fun hk => congrArg Host.Outcome.next (writePrsBind_absent v hk),
      fun hk hlock => congrArg Host.Outcome.next (writePrsBind_locked v hk hlock),
      fun hk hopen hbad => congrArg Host.Outcome.next (writePrsBind_refused v hk hopen (bindRefused_iff.2 hbad)),
      fun hk hopen hgood => congrArg Host.Outcome.next
        (writePrsBind_kept v hk hopen (Bool.eq_false_iff.2 (mt bindRefused_iff.1 hgood)))⟩
  · rw [exec_prsReserveWrite h]
    exact ⟨fun hk => congrArg Host.Outcome.next (writePrsReserve_absent v hk),
      fun hk hopen => congrArg Host.Outcome.next (writePrsReserve_open v hk hopen),
      fun hk hlock => congrArg Host.Outcome.next (writePrsReserve_locked v hk hlock)⟩
  · rw [exec_prsMirrorWrite h]
    exact ⟨fun hopen => congrArg Host.Outcome.next (writePrsMirror_open v hopen),
      fun hlock => congrArg Host.Outcome.next (writePrsMirror_locked v hlock)⟩
  · rw [exec_prsStepWrite h]
    exact ⟨fun hfree => congrArg Host.Outcome.next (writePrsStep_step v hfree),
      fun hvote hnew => congrArg Host.Outcome.next (writePrsStep_step_refused hvote v hnew)⟩
  · rw [exec_prsStepWrite h]
    exact ⟨fun hfree => congrArg Host.Outcome.next (writePrsStep_count a b hfree),
      fun hvote hnew => congrArg Host.Outcome.next (writePrsStep_count_refused hvote a b hnew)⟩
  · rw [exec_presserImageChecked hload]
    refine ⟨fun r hnone => by rw [hnone], fun r img hgood => ?_⟩
    rw [hgood]
    simp only [stageImage, Option.isNone_iff_eq_none]
    rfl

/-! The records that a presser in service takes (R198 to R200, R203, R210, R320, R321). -/

/-- A presser without its first mirror record. -/
def dropMirror (k : Nat) (rest : List (List Byte)) (s : State) : State := s.onPresser k fun p => { p with mirrorIn := rest }

theorem outOfService_of_serving {s : State} (hreset : s.flt.resetting = false) (hmode : s.flt.mode ≠ 2) :
    outOfService s = false := by
  simp [outOfService, hreset, hmode]

theorem isNorm_iff {b : List Byte} : isNorm b = true ↔ leAt b 4 1 = 2 := beq_iff_eq

section
variable {s : State} {k : Panel} {n : Nat} (hserve : outOfService s = false) (hlive : presserLive s k.val = some n)
include hserve hlive

section
variable {r : Nat} {b : List Byte} (hnext : nextRecord (s.presser k.val) = some (r, b))
include hnext

theorem readyRecord_of_next : readyRecord s k.val = some (n, r, b) := by
  simp [readyRecord, hserve, hlive, hnext]

theorem exec_inboxRecord_waits (hmissing : slotsMissing s k.val n false b = true) : exec (.inboxRecord k) s = .next s := by
  change execInboxRecord k s = _
  simp [execInboxRecord, readyRecord_of_next hserve hlive hnext, hmissing]

theorem exec_inboxRecord_takes (hkind : leAt b 4 1 ≠ 2) (hslots : slotsMissing s k.val n false b = false) :
    exec (.inboxRecord k) s = .next (takeRecord k.val n b (takeNext k.val r (meetQueues .presser s))) := by
  change execInboxRecord k s = _
  simp [execInboxRecord, readyRecord_of_next hserve hlive hnext, isNorm_iff, hkind, hslots]

theorem exec_normRecord (hkind : leAt b 4 1 = 2) :
    exec (.normRecord k) s = .next (takeNorm k.val n b (takeNext k.val r (meetQueues .presser s))) := by
  change execNormRecord k s = _
  simp [execNormRecord, readyRecord_of_next hserve hlive hnext, isNorm_iff, hkind]

end

theorem exec_normPartial (hdue : partialDue s k.val n = true) :
    exec (.normPartial k) s = .next (writePartial k.val n (meetQueues .presser s)) := by
  change execNormPartial k s = _
  simp [execNormPartial, hlive, hserve, hdue]

theorem exec_mirrorRecord {b : List Byte} {rest : List (List Byte)} (hin : (s.presser k.val).mirrorIn = b :: rest) :
    exec (.mirrorRecord k) s = .next
    (if mirrorOn s k.val = false ∨ s.lin.state = .carrying then dropMirror k.val rest s
    else if slotsMissing s k.val n true b then s
    else takeMirror k.val n b (dropMirror k.val rest (meetQueues .presser s))) := by
  change execMirrorRecord k s = _
  simp only [execMirrorRecord, hin, hlive, hserve, Bool.false_eq_true, false_or, Bool.not_eq_true]
  split
  · rfl
  · split <;> rfl

end

section
variable {s : State} {k : Panel} {n : Nat} (hlive : presserLive s k.val = some n) {q : Packet}
include hlive

theorem exec_refillBlock (hfirst : refillFirst s n k.val 3 = some q) :
    exec (.refillBlock k) s = .next (takeBlock k.val n q (dropRefill q (meetQueues .presser s))) := by
  change execRefillBlock k s = _
  simp [execRefillBlock, hlive, hfirst]

theorem exec_refillState (hfirst : refillFirst s n k.val 4 = some q) :
    exec (.refillState k) s = .next (takeState k.val n q (dropRefill q s)) := by
  change execRefillState k s = _
  simp [execRefillState, hlive, hfirst]

end

/-! A norm record (R199, R211). -/

/-- The state with a context's shadow lagged norm taken from a norm record. -/
def normStored (k n : Nat) (b : List Byte) (s : State) : State :=
  (s.onPresser k fun p => { p with normTaken := true }).onTrain n fun t => { t with
    shadowLagged := some (BitVec.ofNat 32 (leAt b 8 4)) }

section
variable {s : State} {k n : Nat} {b : List Byte}

theorem takeNorm_stale (h : leAt b 6 2 ≠ (s.train n).step.toNat % 65536) : takeNorm k n b s = dropStale k s := if_pos h

section
variable (hstep : leAt b 6 2 = (s.train n).step.toNat % 65536)
include hstep

theorem takeNorm_again (htaken : (s.presser k).normTaken = true) : takeNorm k n b s = setFlag k 6 s := by
  simp [takeNorm, hstep, htaken]

section
variable (hfirst : (s.presser k).normTaken = false)
include hfirst

theorem takeNorm_plain (hplain : ∀ img, (s.train n).image = some img → img.held = false) :
    takeNorm k n b s = normStored k n b s := by
  unfold takeNorm
  rw [if_neg (not_not_intro hstep), if_neg (by rw [hfirst]; decide)]
  cases himage : (s.train n).image with
  | none => rfl
  | some img => simp only [hplain img himage]; rfl

theorem takeNorm_held {img : PrsImage} (himage : (s.train n).image = some img) (hheld : img.held = true) :
    takeNorm k n b s = applyHeld k n ((normStored k n b s).onTrain n fun t =>
      { t with clipf := clipFactor img.clipMax (BitVec.ofNat 32 (leAt b 8 4)) }) := by
  unfold takeNorm
  rw [if_neg (not_not_intro hstep), if_neg (by rw [hfirst]; decide)]
  simp only [himage, hheld]
  rfl

end
end
end

theorem vMod_vMod {α : Type} {n : Nat} (v : Vector α n) (i : Nat) (f g : α → α) :
    vMod (vMod v i f) i g = vMod v i fun x => g (f x) := by
  by_cases h : i < n <;> simp [vMod, h]

theorem onTrain_onTrain (s : State) (n : Nat) (f g : TrainCtx → TrainCtx) :
    (s.onTrain n f).onTrain n g = s.onTrain n fun t => g (f t) := by
  simp only [State.onTrain, State.onPrs, vMod_vMod]

/-! A BLOCK packet and a STATE packet (R320 to R322). -/

/-- The lines of a BLOCK packet in the committed view of the mirror, and its block among those refilled. -/
def blockRefilled (k n : Nat) (q : Packet) (e : PrsEntry) (s : State) : State :=
  let block := refillField q 0 4
  (s.each (refillPieces e block ((s.presser k).refilled.count block) (packetData q)) fun s x =>
    writeView k n x.1 false x.2.1 x.2.2 s).onPresser k fun p => { p with refilled := p.refilled ++ [block] }

/-- A BLOCK packet comes too late: no refill of this step is under way. -/
def blockLate (n : Nat) (q : Packet) (s : State) : Prop :=
  s.lin.receiving = false ∨ s.lin.refillPending = true ∨ refillField q 6 2 ≠ (s.train n).step.toNat % 65536

section
variable {s : State} {k n : Nat} {q : Packet}

theorem takeBlock_bad (hbad : refillOk q = false) : takeBlock k n q s = markStale k s := by
  simp [takeBlock, hbad]

section
variable (hgood : refillOk q = true)
include hgood

theorem takeBlock_late (hlate : blockLate n q s) : takeBlock k n q s = dropStale k s := by
  unfold takeBlock
  rw [if_neg (not_not_intro hgood), if_pos (by simpa [blockLate] using hlate)]

theorem takeBlock_noEntry (hlate : ¬ blockLate n q s)
    (hnone : ((s.train n).image.bind fun img => entryOfBlock (tableOf img true k) (refillField q 0 4)) = none) :
    takeBlock k n q s = markStale k (violate n 0x0E s) := by
  unfold takeBlock
  rw [if_neg (not_not_intro hgood), if_neg (by simpa [blockLate] using hlate), hnone]

theorem takeBlock_entry (hlate : ¬ blockLate n q s) {i : Nat} {e : PrsEntry}
    (hentry : ((s.train n).image.bind fun img => entryOfBlock (tableOf img true k) (refillField q 0 4)) = some (i, e)) :
    takeBlock k n q s = if (s.presser k).refilled.count (refillField q 0 4) = 0
      then (blockRefilled k n q e s).onLin fun l => { l with refilled := l.refilled + 1 } else blockRefilled k n q e s := by
  unfold takeBlock
  rw [if_neg (not_not_intro hgood), if_neg (by simpa [blockLate] using hlate), hentry]
  rfl

end

theorem takeState_bad (hbad : refillOk q = false) : takeState k n q s = markStale k s := by
  simp [takeState, hbad]

theorem takeState_ignored (hgood : refillOk q = true) (hobs : observer s n = false) (hreceiving : s.lin.receiving = false) :
    takeState k n q s = s := by
  simp [takeState, hgood, hobs, hreceiving]

theorem takeState_taken (hgood : refillOk q = true) (htakes : observer s n = true ∨ s.lin.receiving = true) :
    takeState k n q s = s.onTrain n fun t =>
      let d := packetData q
      let u := { t with
        step := BitVec.ofNat 44 (leAt d 0 8), updates := BitVec.ofNat 32 (leAt d 8 4), lagged := BitVec.ofNat 32 (leAt d 12 4) }
      { u with clipf := openingClipf u } := by
  unfold takeState
  rw [if_neg (not_not_intro hgood), if_neg (not_not_intro (by simpa using htakes))]
  exact onTrain_onTrain ..

end

/-- Settles O36: each record by the lemma of its command, then by the outcome of its check. -/
theorem presserRecords : Obligations.PresserRecords := by
  intro s k n hreset hmode hlive p m stale flagged forward
  have hserve := outOfService_of_serving hreset hmode
  refine ⟨fun r b hnext => ?_, fun hdue => ?_, fun b rest hin => ?_, fun q hfirst => ?_, fun q hfirst => ?_⟩
  · intro u failed
    refine ⟨fun _ hmissing => exec_inboxRecord_waits hserve hlive hnext hmissing, fun hkind hslots => ?_, fun hkind => ?_⟩
    · rw [exec_inboxRecord_takes hserve hlive hnext hkind hslots, show takeNext k.val r (meetQueues .presser s) = u from rfl,
        takeRecord]
      cases checkRecord u k.val n false b <;> rfl
    · rw [exec_normRecord hserve hlive hnext hkind]
      exact ⟨fun hstale => congrArg Host.Outcome.next (takeNorm_stale hstale),
        fun hstep htaken => congrArg Host.Outcome.next (takeNorm_again hstep htaken),
        fun hstep hfirst => ⟨fun hplain => congrArg Host.Outcome.next (takeNorm_plain hstep hfirst hplain),
          fun img himage hheld => congrArg Host.Outcome.next (takeNorm_held hstep hfirst himage hheld)⟩⟩
  · rw [exec_normPartial hserve hlive hdue, writePartial]
    simp only [Bool.not_eq_true]
    rfl
  · rw [exec_mirrorRecord hserve hlive hin]
    intro off u seen
    refine ⟨fun hoff => by rw [if_pos hoff]; rfl, fun hon hlining hslots => ?_, fun hon hlining hslots => ?_⟩
    · rw [if_neg (by simp [hon, hlining]), if_pos hslots]
    · rw [if_neg (by simp [hon, hlining]), if_neg (by simp [hslots]), show dropMirror k.val rest (meetQueues .presser s) = u from rfl,
        takeMirror]
      cases checkRecord u k.val n true b with
      | apply => simp only [List.contains_iff_mem]; rfl
      | _ => rfl
  · rw [exec_refillBlock hlive hfirst]
    exact ⟨fun hbad => congrArg Host.Outcome.next (takeBlock_bad hbad),
      fun hgood hlate => congrArg Host.Outcome.next (takeBlock_late hgood hlate),
      fun hgood hlate => ⟨fun hnone => congrArg Host.Outcome.next (takeBlock_noEntry hgood hlate hnone),
        fun i e hentry => congrArg Host.Outcome.next (takeBlock_entry hgood hlate hentry)⟩⟩
  · rw [exec_refillState hlive hfirst]
    exact ⟨fun hbad => congrArg Host.Outcome.next (takeState_bad hbad),
      fun hgood hobs hreceiving => congrArg Host.Outcome.next (takeState_ignored hgood hobs hreceiving),
      fun hgood htakes => congrArg Host.Outcome.next (takeState_taken hgood htakes)⟩

/-! Votes (R212). -/

theorem stitchStops_of_serving {s : State} (hmode : s.flt.mode ≠ 2) : stitchStops s = false := by simp [stitchStops, hmode]

section
variable {s : State} {tag : BitVec 16}

/-- The first VOTE of a tag opens its state. -/
theorem onVote_opens (h : voteOf s tag = none) (first : Stitch) (f : VoteState → VoteState) : onVote tag first f s =
    s.onPrs fun p => { p with votes := p.votes ++
      [f { tag := tag, voteStitch := first, own := none, children := [], sent := none }] } := by
  simp only [onVote, State.onPrs]
  rw [show s.prs.votes.find? (fun v => v.tag == tag) = none from h]

theorem onVote_changes (h : (voteOf s tag).isSome) (first : Stitch) (f : VoteState → VoteState) : onVote tag first f s =
    s.onPrs fun p => { p with votes := p.votes.map fun v => if v.tag = tag then f v else v } := by
  obtain ⟨x, hx⟩ := Option.isSome_iff_exists.1 h
  simp only [onVote, State.onPrs]
  rw [show s.prs.votes.find? (fun v => v.tag == tag) = some x from hx]

theorem pushVote_some {x : VoteState} (h : voteOf s tag = some x) : pushVote tag s =
    if x.sent = some (aggregate x) then s else sendUp (.vote (aggregate x)) (s.onPrs fun p => { p with
      votes := p.votes.map fun w => if w.tag = tag then { w with sent := some (aggregate x) } else w }) := by
  simp only [pushVote, h, onVote_changes (Option.isSome_of_eq_some h)]

end

/-- A context whose pressers are latched for its vote stitch. -/
def voteLatched (n : Nat) (v : Stitch) (s : State) : State :=
  (s.each (pressersOf s n) (voteLatch n)).onTrain n fun t => { t with votedStitch := some v }

section
variable {s : State} {n : Ctx} {v : Stitch} (hvote : (s.train n.val).voteStitch = some v)
include hvote

theorem exec_voteForm_formed (hvoted : (s.train n.val).votedStitch = some v) : exec (.voteForm n) s = .next s := by
  change execVoteForm n s = _
  simp [execVoteForm, hvote, hvoted]

theorem exec_voteForm (hactive : activeTraining s n.val = true) (hserve : outOfService s = false)
    (hdue : before s.stu.stitch v = false) (hfirst : (s.train n.val).votedStitch ≠ some v) :
    exec (.voteForm n) s = .next (if observer (voteLatched n.val v s) n.val then voteLatched n.val v s
      else castVote (localVote (voteLatched n.val v s) n.val v) (voteLatched n.val v s)) := by
  change execVoteForm n s = _
  simp only [execVoteForm, hvote, hactive, hserve, hdue, hfirst, not_true_eq_false, Bool.false_eq_true, or_false, if_false]
  rfl

end

section
variable {s : State} (hmode : s.flt.mode ≠ 2)
include hmode

theorem exec_vote {p : PortId} {m : VoteMsg} (hchild : (treeChildren s false).contains p.val = true)
    (hvalid : voteCancelled s m.tag m.voteStitch = false) : exec (.vote p m) s =
      .next (pushVote m.tag (onVote m.tag m.voteStitch
        (fun v => { v with children := v.children.filter (fun c => c.1 != p) ++ [(p, m)] }) s)) := by
  change execVote p m s = _
  simp only [execVote, stitchStops_of_serving hmode, hchild, hvalid, not_true_eq_false, Bool.false_eq_true, or_false, if_false]

/-! Verdicts (R213). -/

theorem exec_verdictDecision {tag : BitVec 16} {x : VoteState} (hx : voteOf s tag = some x) (hleads : leads s = true)
    (hdue : decisionDue s x = true) : exec (.verdictDecision tag) s =
      .next (let m : VerdictMsg :=
        { tag := tag, voteStitch := x.voteStitch, verdict := decide213 (aggregate x), step := verdictStep s tag }
      dropVote tag (holdVerdict m (sendDown (downTree s) (.verdict m) s.drew))) := by
  change execVerdictDecision tag s = _
  simp only [execVerdictDecision, hx, hleads, stitchStops_of_serving hmode, hdue, not_true_eq_false, Bool.false_eq_true, or_false,
    if_false]

theorem exec_verdict (p : PortId) {m : VerdictMsg} (hrole : role s = 1 ∨ role s = 3)
    (hvalid : voteCancelled s m.tag m.voteStitch = false) : exec (.verdict p m) s =
      .next (dropVote m.tag (holdVerdict m (sendDown (downTree s) (.verdict m) s))) := by
  have hfollows : follows s = true := by simpa [follows] using hrole
  change execVerdict p m s = _
  simp only [execVerdict, stitchStops_of_serving hmode, hfollows, hvalid, not_true_eq_false, Bool.false_eq_true, or_false, if_false]

end

/-- A verdict that is given to every context of a list is held by each of them, and by those that held it. -/
theorem verdict_each {n : Ctx} {x : Verdict} (l : List Nat) (s : State) (h : n.val ∈ l ∨ (s.train n.val).verdict = some x) :
    ((s.each l fun s n => s.onTrain n fun t => { t with verdict := some x }).train n.val).verdict = some x := by
  induction l generalizing s with
  | nil => exact h.resolve_left List.not_mem_nil
  | cons a l ih =>
    refine ih _ ?_
    by_cases ha : a = n.val
    · exact .inr (by rw [ha, State.train_onTrain _ _ _ n.isLt])
    · rw [State.train_onTrain_other _ _ _ _ ha]
      exact h.imp_left fun hmem => (List.mem_cons.1 hmem).resolve_left (Ne.symm ha)

theorem mem_jobContexts {n : Ctx} (h : n ≠ 0) : n.val ∈ jobContexts := by
  have hpos : n.val ≠ 0 := fun h0 => h (Fin.ext h0)
  exact List.mem_map.2 ⟨n.val - 1, List.mem_range.2 (by omega), by omega⟩

theorem verdict_holdVerdict {s : State} {n : Ctx} {m : VerdictMsg} (htraining : training s n.val = true)
    (htag : voteTag s n.val = m.tag) (hvote : (s.train n.val).voteStitch = some m.voteStitch) (hn : n ≠ 0) :
    ((holdVerdict m s).train n.val).verdict = some m.verdict :=
  verdict_each _ s (.inl (by simp [voters, mem_jobContexts hn, htraining, htag, hvote]))

theorem exec_verdictMissing {s : State} {n : Ctx} {v : Stitch} (hdue : commitDue s n.val = true)
    (hvote : (s.train n.val).voteStitch = some v) (hnone : (s.train n.val).verdict = none) : exec (.verdictMissing n) s =
      .next (declareFault (alignmentRec s 4 4 v.toNat) (s.onTrain n.val fun t => { t with voteStitch := none })) := by
  change execVerdictMissing n s = _
  simp [execVerdictMissing, hvote, hdue, hnone]

theorem exec_commitStitch {s : State} {n : Ctx} {x : Verdict} (hdue : commitDue s n.val = true)
    (hheld : (s.train n.val).verdict = some x) : exec (.commitStitch n) s = .next (applyVerdict n.val x s) := by
  change execCommitStitch n s = _
  simp [execCommitStitch, hdue, hheld]

/-! What the work around a verdict leaves of the step: the training state of every context, and the stitch. -/

/-- The training state of the contexts, and the present stitch. -/
def stepView (s : State) : Vector TrainCtx 16 × Stitch := (s.prs.ctxs, s.stu.stitch)

theorem train_of_stepView {s t : State} (h : stepView t = stepView s) (n : Nat) : t.train n = s.train n :=
  congrArg (fun v : Vector TrainCtx 16 × Stitch => vAt v.1 n {}) h

theorem stepView_each {α : Type} (l : List α) {f : State → α → State} (h : ∀ s a, stepView (f s a) = stepView s) (s : State) :
    stepView (s.each l f) = stepView s :=
  each_unchanged stepView h l s

theorem stepView_onTrain (n : Nat) (f : TrainCtx → TrainCtx) (s : State) :
    stepView (s.onTrain n f) = (vMod (stepView s).1 n f, (stepView s).2) := rfl

theorem stepView_onStu {f : Stu → Stu} (h : ∀ u, (f u).stitch = u.stitch) (s : State) : stepView (s.onStu f) = stepView s :=
  congrArg (Prod.mk s.prs.ctxs) (h s.stu)

theorem stepView_setHostMem (m : Mem) (s : State) : stepView (s.setHostMem m) = stepView s := rfl

theorem stepView_post (n type : Nat) (body : List (Nat × List Byte)) (s : State) : stepView (post n type body s) = stepView s := by
  unfold post
  dsimp only
  split
  · rfl
  · split <;> rfl

theorem stepView_platformEvent (kind : Byte) (bs : List Byte) (s : State) : stepView (platformEvent kind bs s) = stepView s := by
  unfold platformEvent
  split <;> rfl

theorem stepView_setLining (new : LiningState) (s : State) : stepView (setLining new s) = stepView s := by
  unfold setLining
  dsimp only
  split
  · rfl
  · rw [stepView_platformEvent]
    split
    · rw [stepView_post, stepView_post]; rfl
    · rw [stepView_post]; rfl

/-! Reads of the HBM tier. -/

theorem stepView_addFuse (m : Nat) (e : W64) (s : State) : stepView (addFuse m e s).2 = stepView s := by
  unfold addFuse
  dsimp only
  split <;> rfl

theorem stepView_onHbm (f : Hbm → Hbm) (s : State) : stepView (s.onHbm f) = stepView s := rfl

theorem stepView_hbmRepair (pc line : Nat) (s : State) : stepView (hbmRepair pc line s) = stepView s := by
  unfold hbmRepair
  rw [stepView_onHbm, stepView_addFuse]

theorem stepView_hbmUncorrectable (pc line : Nat) (y : BitVec 16) (sector scrub : Bool) (s : State) :
    stepView (hbmUncorrectable pc line y sector scrub s) = stepView s := by
  unfold hbmUncorrectable
  rw [stepView_onHbm]
  split
  · exact stepView_hbmRepair pc line s
  · rfl

theorem stepView_sectorEcc (e : Ecc) (pc line : Nat) (sector : Bool) (s : State) :
    stepView (sectorEcc e pc line sector s) = stepView s := by
  cases e with
  | ok => rfl
  | corrected => rfl
  | uncorrectable y _ => exact stepView_hbmUncorrectable ..

theorem stepView_hbmEcc (e : LineEcc) (pc line : Nat) (s : State) : stepView (hbmEcc e pc line s) = stepView s :=
  (stepView_sectorEcc ..).trans (stepView_sectorEcc ..)

theorem stepView_viewFinds (n region : Nat) (shadow : Bool) (first count : Nat) (s : State) :
    stepView (viewFinds n region shadow first count s) = stepView s := by
  unfold viewFinds readFinds
  split
  · split
    · rfl
    · refine stepView_each _ (fun s i => ?_) s
      split
      · exact stepView_hbmEcc ..
      · rfl
  · rfl

theorem stepView_blockFinds (n : Nat) (e : PrsEntry) (i : Nat) (s : State) : stepView (blockFinds n e i s) = stepView s := by
  unfold blockFinds
  cases e.kind <;> simp only [stepView_viewFinds]

theorem stepView_refillFinds (n k : Nat) (s : State) : stepView (refillFinds n k s) = stepView s := by
  unfold refillFinds
  split
  · rfl
  · exact stepView_each _ (fun s e => stepView_each _ (fun s i => stepView_blockFinds ..) s) s

/-! The lining (R320, R321, R323). -/

theorem stepView_sendMirror (n : Nat) (s : State) (k : Nat) : stepView (sendMirror n s k) = stepView s := by
  unfold sendMirror
  split <;> rfl

theorem stepView_startRefill (n : Nat) (sending receiving : Bool) (s : State) :
    stepView (startRefill n sending receiving s) = stepView s := by
  refine (stepView_each _ (fun s k => (stepView_sendMirror ..).trans ?_) _).trans rfl
  cases sending with
  | true => exact stepView_refillFinds ..
  | false => rfl

theorem stepView_sendState (n : Nat) (s : State) : stepView (sendState n s) = stepView s := by
  refine stepView_each _ (fun s k => ?_) s
  split
  · unfold queueFirst
    split <;> rfl
  · rfl

theorem stepView_liningCommit (n : Nat) (commit : Bool) (x : LiningSeen) (s : State) :
    stepView (liningCommit n commit x s) = stepView s := by
  unfold liningCommit
  split
  · rfl
  · dsimp only
    generalize hw : (if x.asked = true then s.onSea fun a => { a with thimbleIn := [] } else s) = w
    have hview : stepView w = stepView s := by
      rw [← hw]
      split <;> rfl
    refine Eq.trans ?_ hview
    split
    · split
      · exact (stepView_setLining ..).trans (stepView_startRefill ..)
      · exact stepView_sendState ..
    · split
      · exact stepView_startRefill ..
      · split
        · exact stepView_startRefill ..
        · split
          · exact stepView_startRefill ..
          · exact (stepView_sendState ..).trans (stepView_setLining ..)
    · split <;> rfl
    · rfl

/-! Records and events (R45, R74, R309). -/

theorem stepView_closeSteps (n : Nat) (step : W64) (s : State) : stepView (closeSteps n step s) = stepView s := by
  refine (stepView_post ..).trans (stepView_each _ (fun s x => ?_) s)
  rfl

theorem stepView_closePhase (n : Nat) (s : State) : stepView (closePhase n s) = stepView s := by
  unfold closePhase
  dsimp only
  split <;> simp only [stepView_post, stepView_onStu, stepView_setHostMem, stepView_closeSteps, implies_true]

theorem stepView_failShards (n status : Nat) (s : State) : stepView (failShards n status s) = stepView s := by
  refine stepView_each _ (fun s t => (stepView_post ..).trans ?_) s
  rfl

theorem stepView_alterationDone (n phase : Nat) (old new : BitVec 16) (s : State) :
    stepView (alterationDone n phase old new s) = stepView s :=
  (stepView_post ..).trans (stepView_post ..)

theorem stepView_commitViews (n : Nat) (s : State) : stepView (commitViews n s) = stepView s := by
  refine (stepView_each _ (fun s k => ?_) _).trans ((stepView_each _ (fun s d => ?_) _).trans ?_) <;> rfl

/-! A verdict's effect on its context (R214, R313, Table 7-11). -/

/-- A training context after a verdict of a step, or of a re-slice. -/
def countedTrain (v : Verdict) (t : TrainCtx) : TrainCtx :=
  if t.reslicing then
    let t := { t with rebuildRead := false, rebuild := none }
    if v = .commit then { t with reslicing := false, vEpoch := t.current } else t
  else { countVerdict v t with vEpoch := if v == .commit then t.current else t.vEpoch }

/-- A training context with the image that waited in force. -/
def imageInForce (t : TrainCtx) : TrainCtx := match t.staged with
  | some i => { t with image := some i, staged := none }
  | none => t

/-- V+1 has become V where the verdict is COMMIT. -/
def versionsTaken (n : Nat) (v : Verdict) (s : State) : State := if v == .commit then commitViews n (failShards n 1 s) else s

/-- The verdict is counted, or ends a re-slice's vote. -/
def verdictCounted (n : Nat) (v : Verdict) (s : State) : State :=
  if (s.train n).reslicing then endReslice n v (versionsTaken n v s)
  else (versionsTaken n v s).onTrain n fun t => { countVerdict v t with vEpoch := if v == .commit then t.current else t.vEpoch }

/-- The open phase record tells a SKIP and a ROLLBACK. -/
def verdictFlagged (n : Nat) (v : Verdict) (s : State) : State := match v with
  | .commit => s
  | .skip => phaseFlag n 0 s
  | .rollback => phaseFlag n 2 s

/-- The step's state in the pressers and in the staged regions is gone. -/
def pressersReset (n : Nat) (s : State) : State :=
  (s.each (pressersOf s n) fun s k => resetStep k s).onBolt fun b => { b with regions := b.regions.map fun x =>
    (x.1, if x.2.ctx.val = n then { x.2 with stagedLines := 0 } else x.2) }

/-- The step's state in the context and its vote are gone. -/
def stepCleared (n : Nat) (s : State) : State := dropVote (voteTag s n) (s.onTrain n (clearStep s))

/-- The image that waited is installed. -/
def waitingInstalled (n : Nat) (s : State) : State := match (s.train n).staged with
  | some img => installImage n img s
  | none => s

theorem applyVerdict_eq (n : Nat) (held : Verdict) (s : State) :
    let v := verdictAt s n held
    applyVerdict n held s = liningCommit n (v == .commit) (seeLining n (v == .commit && !(s.train n).reslicing) s)
      (closePhase n (((waitingInstalled n (stepCleared n (pressersReset n (verdictFlagged n v (verdictCounted n v s))))).onTrain n
        fun t => { t with clipf := openingClipf t }).onColCtx n fun c => { c with aborted := false })) := rfl

/-- Changes that agree on a context's present state. -/
theorem onTrain_congr {s : State} {n : Nat} {f g : TrainCtx → TrainCtx} (h : f (s.train n) = g (s.train n)) :
    s.onTrain n f = s.onTrain n g := by
  have hctxs : vMod s.prs.ctxs n f = vMod s.prs.ctxs n g := by
    unfold vMod
    split
    · next hn => rw [← vAt_of_lt _ {} hn]; exact congrArg (s.prs.ctxs.set n · hn) h
    · rfl
  simp only [State.onTrain, State.onPrs, hctxs]

theorem stepView_onTrain_congr {s t : State} (h : stepView t = stepView s) (n : Nat) (f : TrainCtx → TrainCtx) :
    stepView (t.onTrain n f) = stepView (s.onTrain n f) := by
  rw [stepView_onTrain, stepView_onTrain, h]

section
variable (n : Nat) (v : Verdict) (s : State)

theorem stepView_versionsTaken : stepView (versionsTaken n v s) = stepView s := by
  unfold versionsTaken
  split
  · exact (stepView_commitViews ..).trans (stepView_failShards ..)
  · rfl

theorem stepView_endReslice (h : (s.train n).reslicing = true) :
    stepView (endReslice n v s) = stepView (s.onTrain n (countedTrain v)) := by
  have hcounted := onTrain_congr (s := s) (n := n) (f := countedTrain v) (g := fun t =>
    let t := { t with rebuildRead := false, rebuild := none }
    if v = .commit then { t with reslicing := false, vEpoch := t.current } else t) (by exact if_pos h)
  rw [hcounted]
  unfold endReslice
  by_cases hcommit : v = .commit
  · simp only [hcommit, ne_eq, not_true_eq_false, if_false, if_true, stepView_alterationDone, onTrain_onTrain]
  · simp only [hcommit, ne_eq, not_false_eq_true, if_true, if_false]

theorem stepView_verdictCounted : stepView (verdictCounted n v s) = stepView (s.onTrain n (countedTrain v)) := by
  have hviews := stepView_versionsTaken n v s
  have htrain := train_of_stepView hviews n
  unfold verdictCounted
  cases hreslicing : (s.train n).reslicing with
  | true =>
    exact (stepView_endReslice n v _ (by rw [htrain, hreslicing])).trans (stepView_onTrain_congr hviews n _)
  | false =>
    refine (stepView_onTrain_congr hviews n _).trans (congrArg stepView (onTrain_congr ?_))
    exact (if_neg (by rw [hreslicing]; decide)).symm

theorem stepView_verdictFlagged : stepView (verdictFlagged n v s) = stepView s := by
  cases v <;> rfl

theorem stepView_pressersReset : stepView (pressersReset n s) = stepView s := by
  refine (stepView_each _ (fun s k => ?_) s)
  rfl

theorem stepView_installImage (img : PrsImage) : stepView (installImage n img s) =
    stepView (s.onTrain n fun t => { t with image := some img, staged := none }) := by
  refine stepView_onTrain_congr ?_ n _
  refine (stepView_each _ (fun s k => ?_) _).trans (stepView_failShards n 1 s)
  rfl

end

/-- What a verdict that is applied makes of its context. -/
def verdictTrain (s : State) (v : Verdict) (t : TrainCtx) : TrainCtx :=
  let t := imageInForce (clearStep s (countedTrain v t))
  { t with clipf := openingClipf t }

section
variable (n : Ctx) (s : State)

theorem train_stepCleared : (stepCleared n.val s).train n.val = clearStep s (s.train n.val) :=
  State.train_onTrain s n.val (clearStep s) n.isLt

theorem train_waitingInstalled : (waitingInstalled n.val s).train n.val = imageInForce (s.train n.val) := by
  unfold waitingInstalled
  cases hstaged : (s.train n.val).staged with
  | some img =>
    rw [train_of_stepView (stepView_installImage n.val s img), State.train_onTrain _ _ _ n.isLt]
    simp only [imageInForce, hstaged]
  | none => simp only [imageInForce, hstaged]

theorem train_applyVerdict (held : Verdict) :
    (applyVerdict n.val held s).train n.val = verdictTrain s (verdictAt s n.val held) (s.train n.val) := by
  rw [applyVerdict_eq]
  generalize verdictAt s n.val held = v
  have hreset : stepView (pressersReset n.val (verdictFlagged n.val v (verdictCounted n.val v s))) =
      stepView (s.onTrain n.val (countedTrain v)) :=
    (stepView_pressersReset ..).trans ((stepView_verdictFlagged ..).trans (stepView_verdictCounted ..))
  have hclear (t : TrainCtx) : clearStep (pressersReset n.val (verdictFlagged n.val v (verdictCounted n.val v s))) t =
      clearStep s t := by
    simp only [clearStep, show (pressersReset n.val (verdictFlagged n.val v (verdictCounted n.val v s))).stu.stitch = s.stu.stitch from
      congrArg Prod.snd hreset]
  rw [train_of_stepView ((stepView_liningCommit ..).trans (stepView_closePhase ..))]
  change (State.onTrain _ n.val _).train n.val = _
  rw [State.train_onTrain _ _ _ n.isLt, train_waitingInstalled, train_stepCleared, hclear, train_of_stepView hreset,
    State.train_onTrain _ _ _ n.isLt]
  rfl

end

/-! The fields of a context after a verdict. -/

section
variable (s : State) (v : Verdict) (t : TrainCtx)

theorem countedTrain_staged : (countedTrain v t).staged = t.staged := by
  unfold countedTrain
  cases v <;> split <;> rfl

/-- COMMIT and SKIP count a step, COMMIT an update, SKIP a skip; a re-slice's vote counts none. -/
theorem countedTrain_counts :
    (countedTrain v t).step = t.step + (if t.reslicing = false ∧ v ≠ .rollback then 1 else 0) ∧
    (countedTrain v t).updates = t.updates + (if t.reslicing = false ∧ v = .commit then 1 else 0) ∧
    (countedTrain v t).skips = t.skips + (if t.reslicing = false ∧ v = .skip then 1 else 0) := by
  cases hreslicing : t.reslicing <;> cases v <;> simp [countedTrain, countVerdict, hreslicing]

theorem verdictTrain_cleared : (verdictTrain s v t).voteStitch = none ∧ (verdictTrain s v t).verdict = none ∧
    (verdictTrain s v t).lastCommit = s.stu.stitch := by
  unfold verdictTrain imageInForce
  dsimp only
  split <;> exact ⟨rfl, rfl, rfl⟩

theorem verdictTrain_counts : (verdictTrain s v t).step = (countedTrain v t).step ∧
    (verdictTrain s v t).updates = (countedTrain v t).updates ∧ (verdictTrain s v t).skips = (countedTrain v t).skips := by
  unfold verdictTrain imageInForce
  dsimp only
  split <;> exact ⟨rfl, rfl, rfl⟩

theorem verdictTrain_image : (verdictTrain s v t).staged = none ∧
    ∀ i, t.staged = some i → (verdictTrain s v t).image = some i := by
  have hstaged : (clearStep s (countedTrain v t)).staged = t.staged := countedTrain_staged v t
  unfold verdictTrain imageInForce
  rw [hstaged]
  cases h : t.staged with
  | none => exact ⟨hstaged.trans h, nofun⟩
  | some i => exact ⟨rfl, fun _ e => e⟩

end

/-- Settles O35: a vote by the state of its tag, a verdict by the device's role, and the commit stitch by what an applied verdict
makes of its context. -/
theorem votesAndVerdicts : Obligations.VotesAndVerdicts := by
  refine fun s n v hmode => ⟨fun hactive hreset hvote hdue hfirst => ?_, exec_voteForm_formed, fun p m hchild hvalid => ?_,
    fun tag x hx => ⟨pushVote_some hx, exec_verdictDecision hmode hx⟩, fun p m hrole hvalid => exec_verdict hmode p hrole hvalid,
    fun m => verdict_holdVerdict, fun hdue hvote => ⟨exec_verdictMissing hdue hvote, fun x hheld =>
      ⟨_, exec_commitStitch hdue hheld, ?_⟩⟩⟩
  · rw [exec_voteForm hvote hactive (outOfService_of_serving hreset hmode) hdue hfirst]
    intro u flags own mine
    rw [show voteLatched n.val v s = u from rfl, show localVote u n.val v = own from rfl, castVote]
    refine ⟨fun hobserver => congrArg Host.Outcome.next (if_pos hobserver), fun hcasts hnone => ?_, fun hcasts hopen => ?_⟩
    · rw [if_neg (by rw [hcasts]; decide)]
      exact congrArg (fun w => Host.Outcome.next (pushVote own.tag w)) (onVote_opens hnone ..)
    · rw [if_neg (by rw [hcasts]; decide)]
      exact congrArg (fun w => Host.Outcome.next (pushVote own.tag w)) (onVote_changes hopen ..)
  · rw [exec_vote hmode hchild hvalid]
    exact ⟨fun hnone => congrArg (fun w => Host.Outcome.next (pushVote m.tag w)) (onVote_opens hnone ..),
      fun hopen => congrArg (fun w => Host.Outcome.next (pushVote m.tag w)) (onVote_changes hopen ..)⟩
  · intro y counts
    have hy : verdictAt s n.val x = y := by simp only [verdictAt, Bool.not_eq_true, y]
    rw [train_applyVerdict, hy]
    obtain ⟨hvoteStitch, hverdict, hcommit⟩ := verdictTrain_cleared s y (s.train n.val)
    obtain ⟨hstep, hupdates, hskips⟩ := verdictTrain_counts s y (s.train n.val)
    obtain ⟨hstaged, himage⟩ := verdictTrain_image s y (s.train n.val)
    obtain ⟨hsteps, hupdated, hskipped⟩ := countedTrain_counts y (s.train n.val)
    simp only [counts, Bool.not_eq_true']
    exact ⟨hvoteStitch, hverdict, hstaged, hstep.trans hsteps, hupdates.trans hupdated, hskips.trans hskipped, hcommit, himage⟩

end Sys2Proof.Machine

/-! PROOFS, family 08_seams: the seam and collective registers, the states of a port, and the frames and packets. -/

namespace Sys2Proof.Machine

/-! Writes of SEA_PORT_CFG_m and accesses of SEA_RT_DATA (R240, R244, R248, Tables 8-11, 8-12). -/

/-- A register's read has its effect while the registers take writes (R364, R366). -/
theorem bar0Read_of_takes {s : State} (h : TakesWrites s) (f : State → State) : bar0Read f s = f s := by
  obtain ⟨hreset, hmode⟩ := h
  simp [bar0Read, hreset, hmode]

section
variable {s : State} (h : TakesWrites s)
include h

theorem exec_retune (m : PortId) (v : W64) : exec (.retune m v) s = .next (writePortCfg m.val (v ||| 4) s) :=
  congrArg Host.Outcome.next (bar0Write_of_takes h _)

theorem exec_fullEq (m : PortId) (v : W64) : exec (.fullEq m v) s = .next (writePortCfg m.val (v ||| 2) s) :=
  congrArg Host.Outcome.next (bar0Write_of_takes h _)

theorem exec_loopbackSelect (m : PortId) (v : W64) : exec (.loopbackSelect m v) s = .next (writePortCfg m.val v s) :=
  congrArg Host.Outcome.next (bar0Write_of_takes h _)

theorem exec_portEn (m : PortId) (v : W64) : exec (.portEn m v) s = .next (writePortCfg m.val v s) :=
  congrArg Host.Outcome.next (bar0Write_of_takes h _)

theorem exec_seaRtDataAccess_write (v : W64) : exec (.seaRtDataAccess (some v)) s = .next (writeSeaRt v s) :=
  congrArg Host.Outcome.next (bar0Write_of_takes h _)

theorem exec_seaRtDataAccess_read : exec (.seaRtDataAccess none) s =
    .next (seaRtNext (s.emit (.readData ((seaRtHeld s).setWidth 64)))) := congrArg Host.Outcome.next (bar0Read_of_takes h _)

theorem exec_colCreditWrite (n : Ctx) (v : W64) : exec (.colCreditWrite n v) s = .next (writeColCredit n.val v s) :=
  congrArg Host.Outcome.next (bar0Write_of_takes h _)

theorem exec_colSeqWrite (n : Ctx) (k : Fin 6) (v : W64) : exec (.colSeqWrite n k v) s =
    .next (writeColSeq n.val (k.val + 1) v s) := congrArg Host.Outcome.next (bar0Write_of_takes h _)

theorem exec_peakClr (n : Ctx) (v : W64) : exec (.peakClr n v) s = .next (writeColBook n.val (v ||| at64 63 1) s) :=
  congrArg Host.Outcome.next (bar0Write_of_takes h _)

theorem exec_abortSend (v : W64) : exec (.abortSend v) s = .next (writeColAbort v s) :=
  congrArg Host.Outcome.next (bar0Write_of_takes h _)

end

/-! COL_CREDIT_n, COL_SEQ_n_v and COL_BOOK_n (R266, R273, Tables 9-9, 9-10). -/

/-- The units that the other contexts' pools take in a hem die, as a later boundary leaves them. -/
def otherUnits (s : State) (n : Nat) : Nat :=
  (((List.range 16).filter (· ≠ n)).map fun k => creditUnits (creditToBe (s.colCtx k))).sum

section
variable {s : State} {n : Nat} {v : W64}

theorem writeColCredit_waits (hfits : otherUnits s n + creditUnits v ≤ 1024) : writeColCredit n v s =
    (let u := s.onColCtx n fun c => { c with creditPending := some (v &&& mask64 49 0) }
    if v ≠ v &&& mask64 49 0 then violate 0 0x02 u else u) :=
  (if_neg (Nat.not_lt.2 hfits)).trans (ite_not ..).symm

/-- Pools that do not fit leave the setting, and are a violation unless they are the setting itself. -/
theorem writeColCredit_refused (hover : 1024 < otherUnits s n + creditUnits v)
    (hnew : v ≠ creditToBe (s.colCtx n) ∨ v ≠ v &&& mask64 49 0) : writeColCredit n v s = violate 0 0x02 s :=
  (if_pos hover).trans (if_neg fun ⟨hheld, hpools⟩ => hnew.elim (· (hpools.trans hheld)) (· hpools))

end

section
variable {s : State} {n : Nat} {k : Fin 6} {v : W64}

theorem seqOf_channel (c : ColCtx) (k : Fin 6) : seqOf c (k.val + 1) = c.seq[k] := vAt_of_lt _ _ k.isLt

theorem writeColSeq_refused (hentry : hasEntry s n = true) (hnew : v.setWidth 32 ≠ (s.colCtx n).seq[k]) :
    writeColSeq n (k.val + 1) v s = violate 0 0x02 s := if_pos ⟨hentry, by rwa [seqOf_channel]⟩

theorem writeColSeq_kept (hfree : ¬ (hasEntry s n = true ∧ v.setWidth 32 ≠ (s.colCtx n).seq[k])) :
    writeColSeq n (k.val + 1) v s =
      (let u := s.onColCtx n fun c => { c with seq := c.seq.set k (v.setWidth 32) }
      if v >>> 32 ≠ 0 then violate 0 0x02 u else u) := by
  have hupper : ~~~ mask64 31 0 = mask64 63 32 := by decide
  unfold writeColSeq
  rw [if_neg (by rwa [seqOf_channel])]
  simp only [hupper, ne_eq, and_mask64_eq_zero_iff, decide_not, Bool.not_eq_true', decide_eq_false_iff_not, Nat.add_sub_cancel,
    vMod_fin]

end

/-- PEAK_CLR is outside the reserved bits, and set by the command. -/
theorem writeColBook_peakClr (n : Nat) (v : W64) (s : State) : writeColBook n (v ||| at64 63 1) s =
    (if v &&& mask64 62 32 ≠ 0 then violate 0 0x02 s else s).onColCtx n fun c =>
      { c with peak := BitVec.ofNat 16 (lentBoth c) } := by
  have hrsv : (v ||| at64 63 1) &&& mask64 62 32 = v &&& mask64 62 32 := by
    have hapart : mask64 62 32 &&& at64 63 1 = 0#64 := by decide
    rw [BitVec.and_comm, BitVec.and_or_distrib_left, hapart, BitVec.or_zero, BitVec.and_comm]
  have hset : bit (v ||| at64 63 1) 63 = true := by
    rw [bit, BitVec.getLsbD_or, show (at64 63 1).getLsbD 63 = true by decide, Bool.or_true]
  simp only [writeColBook, hrsv, hset, if_true]

/-- Settles O41: each register's write by what it keeps and what it refuses, the accesses of SEA_RT_DATA by the selected entry. -/
theorem seamAndCollectiveRegisters : Obligations.SeamAndCollectiveRegisters := by
  intro s m n v h
  refine ⟨exec_retune h m v, exec_fullEq h m v, exec_loopbackSelect h m v, exec_portEn h m v, exec_seaRtDataAccess_write h v,
    exec_seaRtDataAccess_read h, fun hfits => ?_, fun hover hnew => ?_,
    fun k => ⟨fun ⟨hentry, hnew⟩ => ?_, fun hfree => ?_⟩, ?_, exec_abortSend h v⟩
  · exact (exec_colCreditWrite h n v).trans (congrArg Host.Outcome.next (writeColCredit_waits hfits))
  · exact (exec_colCreditWrite h n v).trans (congrArg Host.Outcome.next (writeColCredit_refused hover hnew))
  · exact (exec_colSeqWrite h n k v).trans (congrArg Host.Outcome.next (writeColSeq_refused hentry hnew))
  · exact (exec_colSeqWrite h n k v).trans (congrArg Host.Outcome.next (writeColSeq_kept hfree))
  · exact (exec_peakClr h n v).trans (congrArg Host.Outcome.next (writeColBook_peakClr n.val v s))

/-! What a loss and a miswiring leave of a port's standing (R220, R243). -/

/-- The standing of a port: its state, and whether it is miswired and held. -/
def standing (m : Nat) (s : State) : PortState × Bool × Bool := ((s.port m).state, (s.port m).miswired, (s.port m).held)

theorem onPort_onPort (s : State) (m : Nat) (f g : Port → Port) : (s.onPort m f).onPort m g = s.onPort m fun p => g (f p) := by
  simp only [State.onPort, State.onSea, vMod_vMod]

/-- A change of a port's queues leaves the standing of every port. -/
theorem standing_onPort (i m : Nat) (s : State) {f : Port → Port}
    (hf : ∀ p, (f p).state = p.state ∧ (f p).miswired = p.miswired ∧ (f p).held = p.held) :
    standing m (s.onPort i f) = standing m s := by
  by_cases him : i = m
  · subst him
    by_cases hi : i < 16
    · obtain ⟨hstate, hwired, hheld⟩ := hf (s.port i)
      simp only [standing, State.port_onPort _ _ _ hi, hstate, hwired, hheld]
    · simp only [standing, State.port, State.onPort, State.onSea_sea, vMod, dif_neg hi]
  · simp only [standing, State.port_onPort_other _ _ _ _ him]

theorem standing_discardStream (i : Nat) (t : PortStream) (m : Nat) (s : State) :
    standing m (discardStream i t s) = standing m s := by
  unfold discardStream
  exact standing_onPort i m _ fun _ => ⟨rfl, rfl, rfl⟩

theorem standing_discardStreams (i m : Nat) (s : State) : standing m (discardStreams i s) = standing m s :=
  each_unchanged _ (fun u t => standing_discardStream i t m u) _ s

theorem standing_sendUp (msg : Vc0Msg) (m : Nat) (s : State) : standing m (sendUp msg s) = standing m s := by
  unfold sendUp sendVc0 queueVc0
  split
  · split
    · exact standing_onPort _ m s fun _ => ⟨rfl, rfl, rfl⟩
    · rfl
  · rfl

theorem standing_onBarrier (tag : BitVec 16) (start : Stitch) (f : Barrier → Barrier) (m : Nat) (s : State) :
    standing m (onBarrier tag start f s) = standing m s := by
  unfold onBarrier
  split <;> rfl

theorem standing_pushReady (tag : BitVec 16) (start : Stitch) (m : Nat) (s : State) :
    standing m (pushReady tag start s) = standing m s := by
  unfold pushReady
  split
  · rfl
  · dsimp only
    split
    · rfl
    · exact (standing_onBarrier ..).trans (standing_sendUp ..)

theorem standing_dropChild (i m : Nat) (s : State) : standing m (dropChild i s) = standing m s :=
  each_unchanged _ (fun u _ => (standing_pushReady _ _ m _).trans (standing_onBarrier _ _ _ m u)) _ s

theorem standing_discardPort (i m : Nat) (s : State) : standing m (discardPort i s) = standing m s :=
  (standing_dropChild i m _).trans (standing_discardStreams i m s)

/-- A port that fails R220 is held in CHECK, its queues dropped if it was in service. -/
def heldInCheck (s : State) (j : Nat) : State :=
  (if (s.port j).state = .active then discardPort j s else s).onPort j fun p =>
    { p with state := .check, miswired := true, held := true, vc0 := [] }

theorem standing_heldInCheck_same {j : Nat} (hj : j < 16) (s : State) : standing j (heldInCheck s j) = (.check, true, true) := by
  simp only [heldInCheck, standing, State.port_onPort _ _ _ hj]

theorem standing_heldInCheck_other {j m : Nat} (hjm : j ≠ m) (s : State) : standing m (heldInCheck s j) = standing m s := by
  have hother : standing m (heldInCheck s j) = standing m (if (s.port j).state = .active then discardPort j s else s) := by
    simp only [heldInCheck, standing, State.port_onPort_other _ _ _ _ hjm]
  rw [hother]
  split
  · exact standing_discardPort j m s
  · rfl

/-- Every port of a list is held in CHECK by its own turn, and stays so. -/
theorem standing_each_heldInCheck {m : Nat} (hm : m < 16) (l : List Nat) (s : State)
    (h : m ∈ l ∨ standing m s = (.check, true, true)) : standing m (s.each l heldInCheck) = (.check, true, true) := by
  induction l generalizing s with
  | nil => exact h.resolve_left List.not_mem_nil
  | cons j l ih =>
    refine ih _ ?_
    by_cases hjm : j = m
    · subst hjm
      exact .inr (standing_heldInCheck_same hm s)
    · rw [standing_heldInCheck_other hjm]
      exact h.imp_left fun hmem => (List.mem_cons.1 hmem).resolve_left (Ne.symm hjm)

/-- The port is among those that its miswiring holds, whether it holds the other lining ports or not. -/
theorem standing_holdMiswired (m : PortId) (o : TrainingObs) (s : State) :
    standing m.val (holdMiswired m.val o s) = (.check, true, true) := by
  refine standing_each_heldInCheck m.isLt _ s (.inl ?_)
  split
  case isTrue h =>
    have hlining : m.val ∈ [12, 13, 14, 15] := by
      have hport := m.isLt
      simp only [List.mem_cons, List.not_mem_nil, or_false]
      omega
    exact List.mem_filter.2 ⟨hlining, by simp⟩
  case isFalse => exact List.mem_singleton_self _

/-! A training that succeeds (R220, R239 to R241). -/

/-- The neighbour that a training met, taken over; the port is in CHECK. -/
def neighbourTaken (m : Nat) (o : TrainingObs) (s : State) : State := s.onPort m fun p => { p with
  laneLock := 0xFF, nbSerial := o.nbSerial, nbAddr := o.nbAddr, nbPort := o.nbPort, met := true
  miswired := !(wiringOk s m o), state := .check }

/-- A fast retune met another device than the one whose coefficients are saved (R240). -/
def MetStranger (s : State) (m : Nat) (o : TrainingObs) : Prop :=
  (s.port m).state = .retune ∧ (s.port m).saved = true ∧ (s.port m).savedSerial ≠ o.nbSerial

section
variable {s : State} {m : Nat} {o : TrainingObs}

theorem finishTraining_stranger (h : MetStranger s m o) : finishTraining m o s = startTraining m true s := if_pos h

section
variable (h : ¬ MetStranger s m o)
include h

theorem finishTraining_miswired (hwrong : wiringOk s m o = false) :
    finishTraining m o s = holdMiswired m o (neighbourTaken m o s) :=
  (if_neg h).trans (if_pos (by rw [hwrong]; decide))

section
variable (hright : wiringOk s m o = true)
include hright

theorem finishTraining_wired : finishTraining m o s =
    (let u := neighbourTaken m o s
    if o.sigmaPs.toNat > 80 then
      u.onPort m fun p => { p with delayFails := p.delayFails + 1, held := decide (3 ≤ p.delayFails + 1) }
    else if ¬ o.errorsOk then startTraining m true u
    else
      (u.onPort m fun p => { p with
        delayPs := o.delayPs, sigmaPs := o.sigmaPs, saved := true, savedSerial := o.nbSerial, lost := none, held := false,
        fresh := false, state := if p.fence then .fenced else .active }).onSea fun a => { a with ledgerDirty := true }) :=
  (if_neg h).trans (if_neg (by rw [hright]; decide))

theorem finishTraining_unsteady (hsigma : 80 < o.sigmaPs.toNat) : finishTraining m o s =
    (neighbourTaken m o s).onPort m fun p => { p with delayFails := p.delayFails + 1, held := decide (3 ≤ p.delayFails + 1) } :=
  (finishTraining_wired h hright).trans (if_pos hsigma)

theorem finishTraining_errors (hsigma : o.sigmaPs.toNat ≤ 80) (hbad : o.errorsOk = false) :
    finishTraining m o s = startTraining m true (neighbourTaken m o s) :=
  (finishTraining_wired h hright).trans ((if_neg (Nat.not_lt.2 hsigma)).trans (if_pos (by rw [hbad]; decide)))

theorem finishTraining_succeeds (hsigma : o.sigmaPs.toNat ≤ 80) (hgood : o.errorsOk = true) : finishTraining m o s =
    ((neighbourTaken m o s).onPort m fun p => { p with
      delayPs := o.delayPs, sigmaPs := o.sigmaPs, saved := true, savedSerial := o.nbSerial, lost := none, held := false
      fresh := false, state := if p.fence then .fenced else .active }).onSea fun a => { a with ledgerDirty := true } :=
  (finishTraining_wired h hright).trans ((if_neg (Nat.not_lt.2 hsigma)).trans (if_neg (by rw [hgood]; decide)))

end
end
end

/-! The commands of a port's state (Table 8-7, R240, R243, R244). -/

section
variable {s : State} {m : PortId}

theorem inReset_iff : inReset s = true ↔ s.flt.phase = .hold ∨ s.flt.phase = .running := by simp [inReset]

/-- A record of a port outside a device reset (Table 13-15). -/
def reported (r : FaultRec) (s u : State) : State :=
  if s.flt.phase = .hold ∨ s.flt.phase = .running then u else declareFault r u

theorem reported_eq (r : FaultRec) (u : State) : (if inReset s = true then u else declareFault r u) = reported r s u := by
  simp only [reported, inReset_iff]

theorem exec_trainingDone_success {o : TrainingObs} (hstate : (s.port m.val).state = .trainFull ∨
    (s.port m.val).state = .retune ∨ ((s.port m.val).state = .check ∧ (s.port m.val).held = false)) (hgood : o.success = true) :
    exec (.trainingDone m o) s = .next (finishTraining m.val o s) := by
  change execTrainingDone m o s = _
  obtain h | h | ⟨h, hfree⟩ := hstate
  · simp only [execTrainingDone, h, hgood, if_true]
  · simp only [execTrainingDone, h, hgood, if_true]
  · simp only [execTrainingDone, h, hgood, hfree, Bool.false_eq_true, not_false_eq_true, and_self, if_true]

theorem exec_trainingDone_retuneFails {o : TrainingObs} (hstate : (s.port m.val).state = .retune) (hbad : o.success = false) :
    exec (.trainingDone m o) s = .next (startTraining m.val true s) := by
  change execTrainingDone m o s = _
  simp only [execTrainingDone, hstate, hbad, Bool.false_eq_true, if_false]

theorem losePort_eq (m : Nat) (loss : PortLoss) (lanes : BitVec 8) (s : State) : losePort m loss lanes s =
    (let jobs := jobsOnPort s m
    let r := { seamRec s 0x19 2 m loss lanes 2 with flags := if jobs.any (originates s · 2) then 4 else 0 }
    let x := (discardPort m s).onPort m fun p => { p with state := .retune }
    (startTraining m false (reported r s (x.each jobs fun u j => originateAbort j 0x02 u))).onPort m fun p =>
      { p with lost := some loss, laneLock := lanes }) :=
  congrArg (fun u => (startTraining m false u).onPort m fun p => { p with lost := some loss, laneLock := lanes }) (reported_eq _ _)

theorem exec_portFailed {loss : PortLoss} (hlost : (s.port m.val).lost = some loss)
    (hstate : (s.port m.val).state = .retune ∨ (s.port m.val).state = .trainFull ∨ (s.port m.val).state = .check) :
    exec (.portFailed m) s = .next
      (let x := (s.onPort m.val fun p => { p with state := .failed }).onSea fun a => { a with ledgerDirty := true }
      reported (seamRec s 0x1A 1 m.val loss (s.port m.val).laneLock 7) s
        (if 12 ≤ m.val ∧ s.lin.state = .mirrored then setLining .pairing x else x)) := by
  change execPortFailed m s = _
  simp only [execPortFailed, hlost, if_pos hstate, reported_eq]

/-- Depth 0 is no far-end depth: it returns a port that its neighbour put in loop-back. -/
theorem exec_farLoopbackRequest_returns (hstate : (s.port m.val).state = .loopback) (hfar : (s.port m.val).farLoop = true) :
    exec (.farLoopbackRequest m 0) s =
      .next ((retrain m.val (!(s.port m.val).saved) s).onPort m.val fun p => { p with farLoop := false }) := by
  change execFarLoopbackRequest m 0 s = _
  simp [execFarLoopbackRequest, hstate, hfar]

end

/-- Settles O40: each command by the state of its port; a training that succeeds by its wiring, its delay and its errors. -/
theorem portStates : Obligations.PortStates := by
  intro s m
  refine ⟨fun loss lanes => ⟨fun hactive hlost => ?_, fun hidle => ?_⟩, fun loss => exec_portFailed,
    fun o hstate hgood => ?_, fun o => exec_trainingDone_retuneFails, fun hstate => if_pos hstate,
    fun errors symbols hactive => ⟨fun hmany => if_pos ⟨hactive, hmany⟩, fun hfew => if_neg fun h => Nat.not_lt.2 hfew h.2⟩,
    fun depth hlow hhigh hactive => ⟨fun haccept => if_pos ⟨hlow, hhigh, hactive, haccept⟩, fun hdeny => ?_⟩,
    fun hstate hfar => ?_, exec_presserLedgerRebuild s⟩
  · exact (if_pos ⟨hactive, hlost⟩).trans (congrArg Host.Outcome.next (losePort_eq m.val loss lanes s))
  · exact if_neg fun ⟨hactive, hlost⟩ => hidle.elim (· hactive) fun ⟨hlanes, hother⟩ => hlost.elim hlanes hother
  · rw [exec_trainingDone_success hstate hgood]
    refine ⟨fun h => congrArg Host.Outcome.next (finishTraining_stranger h), fun h hwrong => ⟨_, rfl, ?_⟩, fun h hright =>
      ⟨fun hsigma => congrArg Host.Outcome.next (finishTraining_unsteady h hright hsigma),
        fun hsigma hbad => congrArg Host.Outcome.next (finishTraining_errors h hright hsigma hbad),
        fun hsigma hclean => congrArg Host.Outcome.next (finishTraining_succeeds h hright hsigma hclean)⟩⟩
    rw [finishTraining_miswired h hwrong]
    simpa only [standing, Prod.mk.injEq] using standing_holdMiswired m o (neighbourTaken m.val o s)
  · have hdepth : depth ≠ 0 := fun h => by rw [h] at hlow; exact absurd hlow (by decide)
    refine (if_neg fun h => ?_).trans (if_neg fun h => hdepth h.1)
    exact Bool.false_ne_true (hdeny.symm.trans h.2.2.2)
  · exact (exec_farLoopbackRequest_returns hstate hfar).trans (congrArg Host.Outcome.next (onPort_onPort ..))

/-! Frames (R222, R223, R232, R244). -/

theorem framing_iff {p : Port} : framing p = true ↔ p.state = .active ∨ p.state = .fenced ∨ p.state = .loopback := by
  simp [framing, or_assoc]

section
variable {s : State} {m : Nat}

theorem frameSend_none (h : ¬ framing (s.port m) = true ∨ framesPerStitch s.stu.periodUnits.toNat ≤ (s.port m).frame) :
    frameSend m s = s := by
  unfold frameSend
  exact if_pos h

/-- The near-end loop-back before the FEC encoder (R244). -/
theorem nearLoop_iff {p : Port} : (p.state == .loopback && p.loop == 1 && !p.farLoop) = true ↔
    p.state = .loopback ∧ p.loop = 1 ∧ p.farLoop = false := by
  simp [and_assoc]

/-- The frame of some payload cells (R222, R232). -/
def frameOf (q : Port) (cells : List FrameCell) : Frame :=
  { cells := cells, trailer := trailerOf q cells, badFec := 0, corrected := 0, uncorrectable := 0, symbols := 0 }

/-- The port after a frame of these cells, which it has numbered and keeps for replay (R232, R233). -/
def afterFrame (q : Port) (cells : List FrameCell) : Port :=
  let kept := q.sent ++ [{ fseq := q.fseq, cells := cells }]
  { q with
    fseq := q.fseq + 1, frame := q.frame + 1, group := (q.group + 1) % 5, nak := q.nak.drop 1
    sent := kept.drop (kept.length - 32) }

theorem composeFrame_eq (at_ : Nat → Int) (p : Port) : composeFrame at_ p =
    (let out := frameCells at_ p (List.range 256)
    (frameOf out.2.1 out.1, afterFrame out.2.1 out.1, out.2.2)) := by
  unfold composeFrame
  generalize frameCells at_ p (List.range 256) = out
  rfl

/-- What a frame of these cells does: it leaves by the port, or enters the port's own receiver in the near-end loop-back (R244), and
the credits it returns are paid. -/
def frameSent (m : Nat) (out : List FrameCell × Port × List (Nat × Nat × Nat)) (s : State) : State :=
  let p := s.port m
  let f := frameOf out.2.1 out.1
  let q := afterFrame out.2.1 out.1
  let paid (u : State) : State := u.each out.2.2 fun u c => returnCredits c.1 c.2.1 c.2.2 1 u
  if p.state = .loopback ∧ p.loop = 1 ∧ p.farLoop = false then paid (s.onPort m fun _ => receiveFrame f q)
  else (paid (s.onPort m fun _ => q)).emit (.frame m f)

theorem frameSend_sends (hruns : framing (s.port m) = true) (hroom : (s.port m).frame < framesPerStitch s.stu.periodUnits.toNat) :
    frameSend m s = frameSent m (frameCells (departs s (s.port m).frame) (s.port m) (List.range 256)) s := by
  have hsends : ¬ (¬ framing (s.port m) = true ∨ framesPerStitch s.stu.periodUnits.toNat ≤ (s.port m).frame) :=
    fun h => h.elim (· hruns) (Nat.not_le.2 hroom)
  unfold frameSend
  simp only [if_neg hsends, nearLoop_iff, composeFrame_eq]
  generalize frameCells (departs s (s.port m).frame) (s.port m) (List.range 256) = out
  split
  case isTrue hnear => exact (if_pos hnear).symm
  case isFalse hnear => exact (if_neg hnear).symm

end

section
variable {s : State} {m : PortId}

theorem exec_frameSend_sends (hruns : framing (s.port m.val) = true)
    (hroom : (s.port m.val).frame < framesPerStitch s.stu.periodUnits.toNat) : exec (.frameSend m) s =
      .next (frameSent m.val (frameCells (departs s (s.port m.val).frame) (s.port m.val) (List.range 256)) s) :=
  congrArg Host.Outcome.next (frameSend_sends hruns hroom)

theorem exec_frameReceive_none (f : Frame) (h : ¬ framing (s.port m.val) = true) : exec (.frameReceive m f) s = .next s := if_pos h

/-- The far end of a loop-back goes on framing (R244). -/
theorem framing_of_far {p : Port} (h : (p.state == .loopback && p.farLoop) = true) : framing p = true :=
  framing_iff.2 (.inr (.inr (beq_iff_eq.1 (Bool.and_eq_true_iff.1 h).1)))

section
variable (f : Frame) (hfar : ((s.port m.val).state == .loopback && (s.port m.val).farLoop) = true)
include hfar

theorem exec_frameReceive_retimed (hloop : (s.port m.val).loop = 3) :
    exec (.frameReceive m f) s = .next (s.emit (.frame m.val f)) :=
  (if_neg (not_not_intro (framing_of_far hfar))).trans (if_pos ⟨hfar, hloop⟩)

theorem exec_frameReceive_turned (hloop : (s.port m.val).loop = 4) :
    exec (.frameReceive m f) s = .next (s.onPort m.val fun p => turnCells (receiveFrame f p)) := by
  have hdepth : (s.port m.val).loop ≠ 3 := by rw [hloop]; decide
  exact (if_neg (not_not_intro (framing_of_far hfar))).trans ((if_neg fun h => hdepth h.2).trans (if_pos ⟨hfar, hloop⟩))

end

theorem exec_frameReceive_taken (f : Frame) (hruns : framing (s.port m.val) = true)
    (hkeeps : ¬ (((s.port m.val).state == .loopback && (s.port m.val).farLoop) = true ∧
      ((s.port m.val).loop = 3 ∨ (s.port m.val).loop = 4))) :
    exec (.frameReceive m f) s = .next (takeVc0 m (s.onPort m.val (receiveFrame f))) :=
  (if_neg (not_not_intro hruns)).trans ((if_neg fun h => hkeeps (h.imp_right .inl)).trans
    (if_neg fun h => hkeeps (h.imp_right .inr)))

end

/-! Packets that a hem die takes (R228, R260, R263, R270). -/

theorem abortChannel_iff {v : Nat} : abortChannel v = true ↔ v = 1 ∨ v = 2 ∨ v = 3 ∨ v = 5 := by
  simp [abortChannel, or_assoc]

/-- The oldest packet out of its queue, its offset counted. -/
def packetOut (hem n : Nat) (x : Packet) (rest : List Packet) (s : State) : State :=
  takeOffset n (parseHeader x.header).vc (parseHeader x.header).seq
    (s.onCol fun c => { c with packets := Tab.put c.packets (16 * hem + n) rest })

/-- The credits that a hem die's book has lent to a context on a channel. -/
def lentTo (s : State) (hem n vc : Nat) : Nat := Tab.getD (s.colCtx n).lent (8 * hem + vc) 0

section
variable {s : State} {hem : Fin 2} {n : Ctx} {x : Packet} {rest : List Packet}

theorem exec_packetTake (hqueue : Tab.getD s.col.packets (16 * hem.val + n.val) [] = x :: rest) :
    exec (.packetTake hem n) s = .next
      (let u := packetOut hem.val n.val x rest s
      if (u.colCtx n.val).aborted = true ∧ abortChannel (parseHeader x.header).vc = true then u
      else admitPacket hem.val n.val x u) := by
  change Host.Outcome.next (packetTake hem.val n.val s) = _
  simp only [packetTake, hqueue]
  rfl

theorem admitPacket_short (hshort : poolCells (s.colCtx n.val).credit (parseHeader x.header).vc <
      lentTo s hem.val n.val (parseHeader x.header).vc + ((parseHeader x.header).length + 2)) :
    admitPacket hem.val n.val x s =
      poison n.val (s.onColCtx n.val fun c => { c with noCredit := satInc c.noCredit 1 }) := if_pos hshort

theorem admitPacket_lends (hpool : lentTo s hem.val n.val (parseHeader x.header).vc + ((parseHeader x.header).length + 2) ≤
      poolCells (s.colCtx n.val).credit (parseHeader x.header).vc) : admitPacket hem.val n.val x s =
    (let hd := parseHeader x.header
    (s.onColCtx n.val fun c =>
      let c := { c with lent := Tab.put c.lent (8 * hem.val + hd.vc) (lentTo s hem.val n.val hd.vc + (hd.length + 2)) }
      { c with peak := peakAfter c }).onPort hd.port fun p =>
        let t := portStream p hd.vc n.val
        putStream p { t with tx := t.tx ++
          (withSeq x.header (s.train n.val).current (seqOf (s.colCtx n.val) hd.vc + hd.seq) :: x.data).map fun d =>
            { data := d, hem := hem, credit := true } }) := by
  have hdie : Fin.ofNat 2 hem.val = hem := Fin.ofNat_val_eq_self hem
  refine (if_neg (Nat.not_lt.2 hpool)).trans ?_
  simp only [hdie]
  rfl

end

/-! Packets that a port has received (R229, R236, R244). -/

/-- A stream of a port is the channel's that is asked for, listed or not. -/
theorem portStream_vc (p : Port) (vc : Fin 8) (n : Nat) : (portStream p vc.val n).vc = vc := by
  unfold portStream
  cases hfound : p.streams.find? fun t => t.vc.val == vc.val && t.ctx.val == n with
  | none => exact Fin.ofNat_val_eq_self vc
  | some t =>
    have hlisted := List.find?_some hfound
    exact Fin.ext (beq_iff_eq.1 (Bool.and_eq_true_iff.1 hlisted).1)

section
variable {s : State} {m : PortId} {n : Ctx} {vc : Fin 8} {h : CellData} {data : List CellData}
  (hrx : (portStream (s.port m.val) vc.val n.val).rx = h :: data)
include hrx

theorem headPacket_of_rx : headPacket (portStream (s.port m.val) vc.val n.val) =
    if data.length < packetCells vc.val h then none
    else some ({ header := h, data := data.take (packetCells vc.val h) },
      { portStream (s.port m.val) vc.val n.val with rx := data.drop (packetCells vc.val h) }) := by
  simp only [headPacket, hrx, portStream_vc]

/-- A whole packet leaves its stream, for its destination or, where a far end turns it, for the port it came from. -/
theorem exec_packetReceive_whole (hwhole : packetCells vc.val h ≤ data.length) : exec (.packetReceive m n vc) s = .next
    (let t := portStream (s.port m.val) vc.val n.val
    let k := packetCells vc.val h
    if (s.port m.val).state = .loopback ∧ (s.port m.val).farLoop = true ∧ (s.port m.val).loop = 5 then
      s.onPort m.val fun p => putStream p { t with rx := data.drop k, tx := t.tx ++ (h :: data.take k).map fun d =>
        { data := d, hem := Fin.ofNat 2 (m.val / 8), credit := false } }
    else deliverPacket m.val vc.val h (data.take k) (s.onPort m.val fun p => putStream p { t with rx := data.drop k })) := by
  change Host.Outcome.next (packetReceive m.val n.val vc.val s) = _
  simp only [packetReceive, headPacket_of_rx hrx, if_neg (Nat.not_lt.2 hwhole)]

theorem exec_packetReceive_part (hpart : data.length < packetCells vc.val h) : exec (.packetReceive m n vc) s = .next s := by
  change Host.Outcome.next (packetReceive m.val n.val vc.val s) = _
  simp only [packetReceive, headPacket_of_rx hrx, if_pos hpart]

theorem exec_deadlineExpiry_none (hkeeps : packetCells vc.val h ≤ data.length ∨ deadlinePassed s vc.val h = false) :
    exec (.deadlineExpiry m n vc) s = .next s := by
  change Host.Outcome.next (deadlineExpiry m.val n.val vc.val s) = _
  simp only [deadlineExpiry, hrx, Bool.not_eq_true, if_pos hkeeps]

/-- A packet past its deadline is delivered completed with zeros; its context has a poisoned delivery while it is defined. -/
theorem exec_deadlineExpiry_completed (hpart : data.length < packetCells vc.val h) (hpast : deadlinePassed s vc.val h = true) :
    exec (.deadlineExpiry m n vc) s = .next
      (let missing := packetCells vc.val h - data.length
      let ended := deliverPacket m.val vc.val h (data ++ List.replicate missing 0)
        (s.onPort m.val fun p => let p := passPart vc.val n.val missing p; { p with poisoned := satAdd 32 p.poisoned 1 })
      let d := (parseHeader h).destCtx
      if (ended.ctx d).state = .free then ended else poison d ended) := by
  have hdue : ¬ (packetCells vc.val h ≤ data.length ∨ ¬ deadlinePassed s vc.val h = true) := by simp [hpart, hpast]
  change Host.Outcome.next (deadlineExpiry m.val n.val vc.val s) = _
  simp only [deadlineExpiry, hrx, if_neg hdue, ctxDefined, decide_eq_true_eq, ne_eq, ite_not]

end

/-- Settles O38: a frame by the state and the loop-back of its port, a packet taken by the abort and the pool, a packet received by
whether its cells are there. -/
theorem framesAndPackets : Obligations.FramesAndPackets := by
  intro s m n
  refine ⟨fun h => ?_, fun hruns hroom => ⟨fun hnear => ?_, fun hnear => ?_⟩,
    fun f => ⟨fun h => exec_frameReceive_none f (mt framing_iff.1 h), exec_frameReceive_retimed f, exec_frameReceive_turned f,
      fun hruns => exec_frameReceive_taken f (framing_iff.2 hruns)⟩,
    fun hem x rest hqueue => ⟨fun hcut => ?_, fun hcut hshort => ?_, fun hcut hpool => ?_⟩,
    fun vc h data hrx => ⟨fun hwhole hturns => ?_, fun hwhole hturns => ?_, exec_deadlineExpiry_none hrx,
      exec_packetReceive_part hrx, exec_deadlineExpiry_completed hrx⟩⟩
  · exact congrArg Host.Outcome.next (frameSend_none (h.imp_left (mt framing_iff.1)))
  · exact (exec_frameSend_sends (framing_iff.2 hruns) hroom).trans (congrArg Host.Outcome.next (if_pos hnear))
  · exact (exec_frameSend_sends (framing_iff.2 hruns) hroom).trans (congrArg Host.Outcome.next (if_neg hnear))
  · exact (exec_packetTake hqueue).trans (congrArg Host.Outcome.next (if_pos (hcut.imp_right abortChannel_iff.2)))
  · exact (exec_packetTake hqueue).trans (congrArg Host.Outcome.next
      ((if_neg fun h => hcut (h.imp_right abortChannel_iff.1)).trans (admitPacket_short hshort)))
  · exact (exec_packetTake hqueue).trans (congrArg Host.Outcome.next
      ((if_neg fun h => hcut (h.imp_right abortChannel_iff.1)).trans (admitPacket_lends hpool)))
  · exact (exec_packetReceive_whole hrx hwhole).trans (congrArg Host.Outcome.next (if_neg hturns))
  · exact (exec_packetReceive_whole hrx hwhole).trans (congrArg Host.Outcome.next (if_pos hturns))

end Sys2Proof.Machine

/-! PROOFS, family 09_collectives: the order of sequence numbers, and the aborts. -/

namespace Sys2Proof.Machine

/-! The order of sequence numbers (R261). -/

section
variable {a b : BitVec 32}

theorem seqLater_iff : seqLater a b = true ↔ 1 ≤ (a - b).toNat ∧ (a - b).toNat < 2 ^ 31 := by
  simp only [seqLater, Bool.and_eq_true, decide_eq_true_eq]

/-- The lower half of the circle is later, the upper half earlier, and the point opposite falls to the upper half. -/
theorem seqEarlier_iff : seqEarlier a b = true ↔ 2 ^ 31 ≤ (a - b).toNat := by
  have hback : (b - a).toNat = (2 ^ 32 - (a - b).toNat) % 2 ^ 32 := by bv_omega
  simp only [seqEarlier, Bool.and_eq_true, decide_eq_true_eq, hback]
  omega

/-- The numbers that are neither earlier than 256 before nor later than 255 after are one run of 512, wherever the counter wraps
(R262). -/
theorem seqWindow_iff : seqEarlier a (b - 256) = false ∧ seqLater a (b + 255) = false ↔ (a - (b - 256)).toNat ≤ 511 := by
  have hspan : a - (b + 255) = a - (b - 256) - 511#32 := by bv_omega
  rw [Bool.eq_false_iff, Bool.eq_false_iff, ne_eq, ne_eq, seqEarlier_iff, seqLater_iff, hspan]
  bv_omega

end

/-- Settles O39: a difference and its opposite add up to 2^32, so each half of the circle decides one order. -/
theorem sequenceNumbersCompare : Obligations.SequenceNumbersCompare := by
  intro a b ahead behind
  have hahead : (a - b).toNat = ahead := by rw [BitVec.toNat_sub, Nat.add_comm]
  have ha := a.isLt
  have hb := b.isLt
  refine ⟨?_, ?_, seqWindow_iff⟩
  · rw [seqLater_iff, hahead]
    omega
  · rw [seqEarlier_iff, hahead]
    omega

/-! Aborts (R269, R270). -/

theorem keyKnown_iff {s : State} {m : AbortMsg} :
    keyKnown s m = true ↔ ∃ k ∈ s.col.keys, k.job = m.tag ∧ k.attempt = m.attempt := by
  simp only [keyKnown, List.any_eq_true, Bool.and_eq_true, beq_iff_eq]

/-- The contexts that an ABORT concerns act on it, while ABORT_EN lets them (R270). -/
def abortActed (s : State) (m : AbortMsg) (u : State) : State :=
  if abortEn s then u.each (abortActs s m false) fun u n => actOnAbort n m true u else u

section
variable {s : State} {port : Nat} {m : AbortMsg}

theorem receiveAbort_ignored
    (h : ¬ ((s.port port).state = .active ∧ m.groupId.toNat = fld s.stu.ctrl 31 16)) : receiveAbort port m s = s := by
  unfold receiveAbort
  by_cases hport : (s.port port).state = .active
  · rw [if_neg (not_not_intro hport), if_pos fun hgroup => h ⟨hport, hgroup⟩]
  · rw [if_pos hport]

theorem receiveAbort_ours (hport : (s.port port).state = .active) (hgroup : m.groupId.toNat = fld s.stu.ctrl 31 16) :
    receiveAbort port m s = abortActed s m (if keyKnown s m then s else passAbort port m s) := by
  unfold receiveAbort abortActed
  rw [if_neg (not_not_intro hport), if_neg (not_not_intro hgroup)]
  by_cases hen : abortEn s = true
  · simp only [if_pos hen]
  · simp only [if_neg hen]
    rfl

end

section
variable {s : State} {n : Ctx}

theorem exec_abortedEnd_due (hset : (s.colCtx n.val).aborted = true) (hserves : (s.ctx n.val).serving = true)
    (hdue : (s.colCtx n.val).abortPs + 32000 ≤ s.ns) (hboundary : s.stu.pos = 0) :
    exec (.abortedEnd n) s = .next (s.onColCtx n.val fun c => { c with aborted := false }) :=
  if_pos ⟨hset, hserves, hdue, hboundary⟩

theorem exec_abortedEnd_early (h : s.ns < (s.colCtx n.val).abortPs + 32000 ∨ s.stu.pos ≠ 0) :
    exec (.abortedEnd n) s = .next s :=
  if_neg fun ⟨_, _, hdue, hboundary⟩ => h.elim (Nat.not_lt.2 hdue) (· hboundary)

end

/-- Settles O42: an ABORT by the port, the group and the remembered keys, the end of ABORTED by the time and the boundary. -/
theorem aborts : Obligations.Aborts := by
  intro s port m
  refine ⟨fun hother => ?_, fun ⟨hport, hgroup⟩ hnew => ?_, fun ⟨hport, hgroup⟩ hknown => ?_, rfl,
    fun n hset hserves => ⟨exec_abortedEnd_due hset hserves, exec_abortedEnd_early⟩⟩
  · exact congrArg Host.Outcome.next (receiveAbort_ignored hother)
  · exact congrArg Host.Outcome.next ((receiveAbort_ours hport hgroup).trans
      (congrArg (abortActed s m) (if_neg (mt keyKnown_iff.1 hnew))))
  · exact congrArg Host.Outcome.next ((receiveAbort_ours hport hgroup).trans
      (congrArg (abortActed s m) (if_pos (keyKnown_iff.2 hknown))))

end Sys2Proof.Machine

/-! PROOFS, family 10_serving: the passes and the registers of the serving unit, and the life of a sequence. -/

namespace Sys2Proof.Machine

/-! The passes (R275, R276, R286, R288). -/

theorem periodServes_iff {s : State} : periodServes s = true ↔ 51 ≤ s.stu.periodUnits.toNat := decide_eq_true_iff

/-- A change of a context's serving state is told by what it makes of the present one. -/
theorem onSrvCtx_congr {s : State} {k : Nat} {f g : SrvCtx → SrvCtx} (h : f (s.srvCtx k) = g (s.srvCtx k)) :
    s.onSrvCtx k f = s.onSrvCtx k g := by
  simp only [State.onSrvCtx, State.onSrv, vMod]
  split
  next hk => rw [State.srvCtx, vAt_of_lt _ _ hk] at h; rw [h]
  next => rfl

theorem exec_resultRead (s : State) : exec .resultRead s = .next (s.each (servedContexts s) fun u k =>
    if (u.srvCtx k).current = [] then u else u.onSrvCtx k fun c => { c with
      results := some (c.current.map fun e => readResult u c e.index), listBefore := c.current, current := [] }) :=
  congrArg (fun pass => Host.Outcome.next (s.each (servedContexts s) pass))
    (funext₂ fun _ _ => if_congr List.isEmpty_iff rfl (onSrvCtx_congr rfl))

/-- An entry of a list is written to its place in the landing area of its leader core. -/
def landEntry (c : SrvCtx) (s : State) (e : ListEntry) : State :=
  s.onCore (listPlace c e.index).1 fun x => { x with
    scratch := Mem.write x.scratch (fld c.list 41 32 * 64 + 32 * (listPlace c e.index).2) (listEntryBytes e) }

/-- A list is in force while the period is at least 51, which no entry's landing changes (R276). -/
theorem exec_listWrite (s : State) : exec .listWrite s = .next (s.each (servedContexts s) fun s k =>
    if (s.srvCtx k).next = [] then s else (s.each (s.srvCtx k).next (landEntry (s.srvCtx k))).onSrvCtx k fun c =>
      { c with current := if 51 ≤ s.stu.periodUnits.toNat then c.next else [], next := [] }) := by
  refine congrArg (fun pass => Host.Outcome.next (s.each (servedContexts s) pass))
    (funext₂ fun u k => if_congr List.isEmpty_iff rfl ?_)
  have hperiod : (u.each (u.srvCtx k).next (landEntry (u.srvCtx k))).stu = u.stu := 
    each_unchanged State.stu (f := landEntry (u.srvCtx k)) (fun _ _ => rfl) _ u
  have hruns : periodServes (u.each (u.srvCtx k).next (landEntry (u.srvCtx k))) = periodServes u := by
    simp only [periodServes, hperiod]
  change (u.each (u.srvCtx k).next (landEntry (u.srvCtx k))).onSrvCtx k (fun c => { c with
    current := if periodServes (u.each (u.srvCtx k).next (landEntry (u.srvCtx k))) then c.next else [], next := [] }) = _
  simp only [hruns, periodServes_iff]

theorem exec_listBuild_short {s : State} (h : s.stu.periodUnits.toNat < 51) : exec .listBuild s = .next s :=
  if_neg (mt periodServes_iff.1 (Nat.not_le.2 h))

theorem exec_listBuild {s : State} (h : 51 ≤ s.stu.periodUnits.toNat) :
    exec .listBuild s = .next (s.each (listedContexts s) fun s k => buildList k s) := if_pos (periodServes_iff.2 h)

/-! The places of a list (R287). -/

/-- A part of a list: its entries at the places from `base` on, masked ones after them. -/
def numberedPart (base size : Nat) (es : List ListEntry) : List ListEntry :=
  (List.range size).map fun i => match es[i]? with
    | some e => { e with index := base + i }
    | none => maskedEntry (base + i)

theorem numberedPart_index (base size : Nat) (es : List ListEntry) :
    (numberedPart base size es).map (·.index) = (List.range size).map (base + ·) := by
  rw [numberedPart, List.map_map]
  refine List.map_congr_left fun i _ => ?_
  dsimp only [Function.comp]
  split <;> rfl

theorem numberedPart_nil (base size : Nat) :
    numberedPart base size [] = ((List.range size).map (base + ·)).map maskedEntry := by
  rw [List.map_map]
  rfl

/-- A built list is a part of decode entries and a part of prefill entries, of the sizes that SRV_CFG_n gives. -/
theorem buildList_next (s : State) {n : Nat} (hn : n < 16) : ∃ decode prefill : List ListEntry,
    ((buildList n s).srvCtx n).next = numberedPart 0 (srvDecodeMax (s.srvCtx n)) decode ++
      numberedPart (srvDecodeMax (s.srvCtx n)) (srvPrefillMax (s.srvCtx n)) prefill :=
  ⟨_, _, congrArg SrvCtx.next (State.srvCtx_onSrvCtx _ n _ hn)⟩

theorem buildList_next_none {s : State} {n : Nat} (hn : n < 16) (hnone : slotsOf s n = []) :
    ((buildList n s).srvCtx n).next = numberedPart 0 (srvDecodeMax (s.srvCtx n)) [] ++
      numberedPart (srvDecodeMax (s.srvCtx n)) (srvPrefillMax (s.srvCtx n)) [] := by
  simp [buildList, hnone, hn, State.each, sortBy, takeVictims, numberedPart]

/-! SRV_CFG_n and SRV_RT_n (R299, R301, R390, Table 10-11). -/

/-- Two words that agree but for EN. -/
def SameButEn (w v : W64) : Prop := ∀ i ≠ 63, w.getLsbD i = v.getLsbD i

theorem getLsbD_enMask {i : Nat} (hi : i ≠ 63) : (mask64 63 63).getLsbD i = false := by
  simp only [getLsbD_mask64, Bool.and_eq_false_iff, decide_eq_false_iff_not]
  omega

theorem sameButEn_set (v : W64) : SameButEn (v ||| mask64 63 63) v := fun i hi => by
  rw [BitVec.getLsbD_or, getLsbD_enMask hi, Bool.or_false]

theorem sameButEn_clear (v : W64) : SameButEn (v &&& ~~~ mask64 63 63) v := fun i hi => by
  by_cases h64 : i < 64
  · rw [BitVec.getLsbD_and, BitVec.getLsbD_not, getLsbD_enMask hi, decide_eq_true h64, Bool.not_false, Bool.and_true, Bool.and_true]
  · rw [BitVec.getLsbD_of_ge _ _ (Nat.not_lt.1 h64), BitVec.getLsbD_of_ge _ _ (Nat.not_lt.1 h64)]

theorem en_set (v : W64) : bit (v ||| mask64 63 63) 63 = true := by simp [bit, getLsbD_mask64]

theorem en_clear (v : W64) : bit (v &&& ~~~ mask64 63 63) 63 = false := by simp [bit, getLsbD_mask64]

section
variable {w v : W64} (h : SameButEn w v)
include h

theorem SameButEn.and_eq {m : W64} (hm : m.getLsbD 63 = false) : w &&& m = v &&& m := by
  refine BitVec.eq_of_getLsbD_eq fun i _ => ?_
  by_cases hi : i = 63
  · simp only [BitVec.getLsbD_and, hi, hm, Bool.and_false]
  · simp only [BitVec.getLsbD_and, h i hi]

theorem SameButEn.xor (c : W64) : SameButEn (w ^^^ c) (v ^^^ c) := fun i hi => by
  rw [BitVec.getLsbD_xor, BitVec.getLsbD_xor, h i hi]

end

/-- A write of SRV_CFG_n differs from the setting in a field other than EN. -/
def settingDiffers (s : State) (n : Nat) (v : W64) : Prop := (v ^^^ (s.srvCtx n).cfg) &&& (srvCfgMask ||| mask64 59 59) ≠ 0

/-- A write of SRV_CFG_n sets a reserved bit, or differs in a field that SRV_CTRL.LOCK locks. -/
abbrev settingBad (s : State) (n : Nat) (v : W64) : Prop :=
  v &&& (mask64 58 57 ||| mask64 47 42 ||| mask64 31 29 ||| mask64 15 13) ≠ 0 ∨
    (bit s.srv.ctrl 0 = true ∧ (v ^^^ (s.srvCtx n).cfg) &&& mask64 59 59 ≠ 0)

/-- The setting that a write of SRV_CFG_n leaves, without EN and ERR: RT stays while it is locked. -/
def settingKept (s : State) (n : Nat) (v : W64) : W64 :=
  (v &&& srvCfgMask) ||| (if bit s.srv.ctrl 0 then (s.srvCtx n).cfg &&& mask64 59 59 else v &&& mask64 59 59)

/-- The state after a write of SRV_CFG_n that is not refused, by the EN it writes. -/
def settingWritten (s : State) (n : Nat) (v : W64) (on : Bool) : State :=
  let held : Bool := bit (s.srvCtx n).cfg 63
  if on ∧ ¬ held then
    if srvErr s n (settingKept s n v) = 0 ∧ ¬ s.srv.failed then
      s.onSrvCtx n fun c => { c with cfg := settingKept s n v ||| mask64 63 63, serving := true }
    else s.onSrvCtx n fun c => { c with cfg := putFld (settingKept s n v) 62 60 (srvErr s n (settingKept s n v)) }
  else if on then s
  else if held then s.onSrvCtx n fun c => { c with cfg := settingKept s n v ||| (c.cfg &&& mask64 62 60), disabling := true }
  else s.onSrvCtx n fun c => { c with cfg := settingKept s n v ||| (c.cfg &&& mask64 62 60) }

section
variable {s : State} {n : Nat} {v : W64}

theorem settingWritten_on_of_on (hen : bit (s.srvCtx n).cfg 63 = true) : settingWritten s n v true = s := by
  simp [settingWritten, hen]

theorem settingWritten_off_of_on (hen : bit (s.srvCtx n).cfg 63 = true) : settingWritten s n v false =
    s.onSrvCtx n fun c => { c with cfg := settingKept s n v ||| (c.cfg &&& mask64 62 60), disabling := true } := by
  simp [settingWritten, hen]

section
variable (hoff : bit (s.srvCtx n).cfg 63 = false)
include hoff

theorem settingWritten_off_of_off : settingWritten s n v false =
    s.onSrvCtx n fun c => { c with cfg := settingKept s n v ||| (c.cfg &&& mask64 62 60) } := by
  simp [settingWritten, hoff]

theorem settingWritten_on_good (hgood : srvErr s n (settingKept s n v) = 0) (hworks : s.srv.failed = false) :
    settingWritten s n v true =
      s.onSrvCtx n fun c => { c with cfg := settingKept s n v ||| mask64 63 63, serving := true } := by
  simp [settingWritten, hoff, hgood, hworks]

theorem settingWritten_on_bad (hbad : srvErr s n (settingKept s n v) ≠ 0 ∨ s.srv.failed = true) :
    settingWritten s n v true =
      s.onSrvCtx n fun c => { c with cfg := putFld (settingKept s n v) 62 60 (srvErr s n (settingKept s n v)) } :=
  (if_pos ⟨rfl, by simp [hoff]⟩).trans (if_neg fun ⟨hgood, hworks⟩ => hbad.elim (· hgood) hworks)

end

end

section
variable {s : State} {n : Nat} {w v : W64} (hsame : SameButEn w v)
include hsame

theorem writeSrvCfg_refused (hen : bit (s.srvCtx n).cfg 63 = true) (hdiffers : settingDiffers s n v) :
    writeSrvCfg n w s = violate 0 0x02 s := by
  have hset := (hsame.xor (s.srvCtx n).cfg).and_eq (m := srvCfgMask ||| mask64 59 59) (by decide)
  exact if_pos ⟨hen, hset ▸ hdiffers⟩

theorem writeSrvCfg_taken (htaken : ¬ (bit (s.srvCtx n).cfg 63 = true ∧ settingDiffers s n v)) : writeSrvCfg n w s =
    if settingBad s n v then violate 0 0x02 (settingWritten s n v (bit w 63)) else settingWritten s n v (bit w 63) := by
  have hset := (hsame.xor (s.srvCtx n).cfg).and_eq (m := srvCfgMask ||| mask64 59 59) (by decide)
  have hrt := hsame.and_eq (m := mask64 59 59) (by decide)
  have hrtDiffers := (hsame.xor (s.srvCtx n).cfg).and_eq (m := mask64 59 59) (by decide)
  have hrsv := hsame.and_eq (m := mask64 58 57 ||| mask64 47 42 ||| mask64 31 29 ||| mask64 15 13) (by decide)
  have hkept := hsame.and_eq (m := srvCfgMask) (by decide)
  rw [settingDiffers] at htaken
  simp only [writeSrvCfg, hset, if_neg htaken, hrt, hrtDiffers, hrsv, hkept, Bool.and_eq_true, decide_eq_true_eq]
  rfl

end

section
variable {s : State} (h : TakesWrites s) (n : Ctx) (v : W64)
include h

theorem exec_srvRtWrite_setting : exec (.srvRtWrite n false v) s = .next (writeSrvCfg n.val v s) :=
  congrArg Host.Outcome.next (bar0Write_of_takes h _)

theorem exec_srvRtWrite_reserve : exec (.srvRtWrite n true v) s = .next (writeSrvRt n.val v s) :=
  congrArg Host.Outcome.next (bar0Write_of_takes h _)

/-- A write of SRV_CFG_n through any of its three commands has one effect (R299, R301). -/
theorem exec_srvEnable : exec (.srvEnable n v) s = .next (writeSrvCfg n.val (v ||| mask64 63 63) s) :=
  exec_srvRtWrite_setting h n _

theorem exec_srvDisable : exec (.srvDisable n v) s = .next (writeSrvCfg n.val (v &&& ~~~ mask64 63 63) s) :=
  exec_srvRtWrite_setting h n _

section
variable {n v}

theorem exec_srvEnable_taken (htaken : ¬ (bit (s.srvCtx n.val).cfg 63 = true ∧ settingDiffers s n.val v)) {t : State}
    (ht : settingWritten s n.val v true = t) :
    exec (.srvEnable n v) s = .next (if settingBad s n.val v then violate 0 0x02 t else t) := by
  rw [exec_srvEnable h, writeSrvCfg_taken (sameButEn_set v) htaken, en_set, ht]

theorem exec_srvDisable_taken (htaken : ¬ (bit (s.srvCtx n.val).cfg 63 = true ∧ settingDiffers s n.val v)) {t : State}
    (ht : settingWritten s n.val v false = t) :
    exec (.srvDisable n v) s = .next (if settingBad s n.val v then violate 0 0x02 t else t) := by
  rw [exec_srvDisable h, writeSrvCfg_taken (sameButEn_clear v) htaken, en_clear, ht]

end

end

/-- Settles O43: the passes as folds over the contexts served, a list by its two parts, and the registers by the EN held and written. -/
theorem servingPasses : Obligations.ServingPasses := by
  intro s n
  refine ⟨exec_resultRead s, rfl, exec_listWrite s, exec_listBuild_short, exec_listBuild, ⟨?_, fun hnone => ?_⟩,
    fun v h => ⟨fun hen hdiffers => ⟨?_, ?_, ?_⟩, fun hen hsame => ?_, fun hoff hgood hworks => ?_, fun hoff hbad => ?_,
      fun hen hsame => ?_, fun hoff => ?_, exec_srvRtWrite_reserve h n v⟩⟩
  · obtain ⟨decode, prefill, hnext⟩ := buildList_next s n.isLt
    rw [hnext, List.map_append, numberedPart_index, numberedPart_index, List.range_add]
    simp [srvDecodeMax, srvPrefillMax]
  · rw [buildList_next_none n.isLt hnone, numberedPart_nil, numberedPart_nil, ← List.map_append, List.range_add]
    simp [srvDecodeMax, srvPrefillMax]
  · exact (exec_srvEnable h n v).trans (congrArg Host.Outcome.next (writeSrvCfg_refused (sameButEn_set v) hen hdiffers))
  · exact (exec_srvDisable h n v).trans (congrArg Host.Outcome.next (writeSrvCfg_refused (sameButEn_clear v) hen hdiffers))
  · exact (exec_srvRtWrite_setting h n v).trans (congrArg Host.Outcome.next (writeSrvCfg_refused (fun _ _ => rfl) hen hdiffers))
  · have hkept := exec_srvEnable_taken h (mt And.right hsame) (settingWritten_on_of_on hen)
    exact ⟨hkept, hkept⟩
  · exact ⟨exec_srvEnable_taken h (by simp [hoff]) (settingWritten_on_good hoff hgood hworks), rfl⟩
  · exact exec_srvEnable_taken h (by simp [hoff]) (settingWritten_on_bad hoff hbad)
  · exact exec_srvDisable_taken h (mt And.right hsame) (settingWritten_off_of_on hen)
  · exact ⟨exec_srvDisable_taken h (by simp [hoff]) (settingWritten_off_of_off hoff), rfl⟩

/-! SEQ_ADMIT and SEQ_RELEASE (R279, R280, R282). -/

/-- An ACTIVE serving context other than the system context takes the descriptors of its tenancy (R381). -/
theorem ringRefusal_serving {s : State} {n : Ctx} (hn : n ≠ 0) (hactive : (s.ctx n.val).state = .active)
    (hserving : (s.ctx n.val).serving = true) {type : Nat} (htype : type ≠ 9) : ringRefusal s n.val type = none := by
  have hsystem : n.val ≠ 0 := fun h => hn (Fin.ext h)
  simp [ringRefusal, hsystem, hactive, hserving, htype]

/-- A SEQ_ADMIT that the serving unit does not take waits at the head of its ring. -/
theorem headWaits_admit {s : State} {n : Ctx} (hn : n ≠ 0) (hactive : (s.ctx n.val).state = .active)
    (hserving : (s.ctx n.val).serving = true) {b : List Byte} (htype : leAt b 0 1 = 0x0A)
    (hroom : admitTakes s n.val b = false) : headWaits s n.val b = true := by
  simp [headWaits, htype, ringRefusal_serving hn hactive hserving, hroom]

section
variable {s : State} {n : Ctx} {d : Taken} {rest : List Taken} (hserving : (s.ctx n.val).serving = true)
include hserving

theorem exec_seqAdmit_waits (htype : leAt d.bytes 0 1 = 0x0A) (hn : n ≠ 0) (hactive : (s.ctx n.val).state = .active)
    (hfront : (s.ring n.val).taken = d :: rest) (hroom : admitTakes s n.val d.bytes = false) :
    exec (.seqAdmit n) s = .next s := by
  have hwaits := headWaits_admit hn hactive hserving htype hroom
  change Host.Outcome.next (onDescriptor n.val 0x0A (fun _ => true) (takeAdmit n.val) s) = _
  simp [onDescriptor, hfront, hwaits]

section
variable (hs : Starts s n d rest)
include hs

/-- A serving descriptor that starts is taken off its ring and given to its own rules. -/
theorem onDescriptor_serving {type : Nat} (htype : leAt d.bytes 0 1 = type) (hkind : 9 < type) (f : Taken → State → State) :
    onDescriptor n.val type (fun _ => true) f s = f d (taken n rest s) := by
  obtain ⟨hfront, hwaits, hturn, hn, hactive⟩ := hs
  have hshard : ¬ (6 ≤ type ∧ type ≤ 8) := by omega
  have hrefusal : ringRefusal (taken n rest s) n.val type = none := ringRefusal_serving hn hactive hserving (by omega)
  rw [taken] at hrefusal ⊢
  simp [onDescriptor, hfront, hwaits, hturn, htype, hshard, hrefusal]

theorem exec_seqAdmit (htype : leAt d.bytes 0 1 = 0x0A) :
    exec (.seqAdmit n) s = .next (takeAdmit n.val d (taken n rest s)) :=
  congrArg Host.Outcome.next (onDescriptor_serving hserving hs htype (by decide) _)

theorem exec_seqRelease (htype : leAt d.bytes 0 1 = 0x0B) :
    exec (.seqRelease n) s = .next ((taken n rest s).onSrvCtx n.val fun c => { c with releases := c.releases ++
      [{ tag := BitVec.ofNat 64 (leAt d.bytes 8 8), read := s.stu.stitch
         notify := if flag d.bytes 0 then some d.index.toNat else none }] }) :=
  congrArg Host.Outcome.next (onDescriptor_serving hserving hs htype (by decide) _)

end

end

section
variable {s : State} {n : Nat} {d : Taken}

theorem takeAdmit_taken (hfits : admitRejected s n (admitSlot n d.bytes) = false) : takeAdmit n d s =
    s.onSrvCtx n fun c => { c with admits := c.admits ++ [{
      slot := admitSlot n d.bytes, resume := flag d.bytes 1, notify := if flag d.bytes 0 then some d.index.toNat else none
      taken := s.stu.stitch }] } :=
  if_neg (Bool.not_eq_true _ ▸ hfits)

theorem takeAdmit_rejected (hbad : admitRejected s n (admitSlot n d.bytes) = true) : takeAdmit n d s =
    complete n 0x0A (flag d.bytes 0) d.index.toNat 0 (tokenRecord n (admitSlot n d.bytes).tag 0 0 6 0xFFFF s.stu.stitch 0 s) :=
  if_pos hbad

end

/-! A slot's end and its TIMEOUT (R282). -/

section
variable {s : State} {i : Nat} (kind : Nat)

theorem endSlot_listed (h : (s.slot i).state = .decode ∨ (s.slot i).state = .prefill) : endSlot i kind s =
    tokenRecord (s.slot i).ctx.val (s.slot i).tag 0 0 kind i s.stu.stitch 0 (retireSlot i s) := by
  rcases h with h | h <;> simp only [endSlot, h]

theorem endSlot_swapping (h : (s.slot i).state = .parking ∨ (s.slot i).state = .resuming) : endSlot i kind s =
    s.onSlot i fun t => { t with cause := some (t.cause.getD kind) } := by
  rcases h with h | h <;> simp only [endSlot, h]

theorem endSlot_ended (h : (s.slot i).state = .retiring ∨ (s.slot i).state = .free) : endSlot i kind s = s := by
  rcases h with h | h <;> simp only [endSlot, h]

end

theorem resultsKnown_iff {c : SrvCtx} : resultsKnown c = true ↔ c.results.isSome ∨ c.current = [] := by
  rw [resultsKnown, Bool.or_eq_true, List.isEmpty_iff]

/-- The TIMEOUT of a slot is acted on. -/
def timesOut (s : State) (i : Nat) : Prop :=
  let k := (s.slot i).ctx.val
  k ∈ servedContexts s ∧ inMaintenance s = true ∧ ((s.srvCtx k).results.isSome ∨ (s.srvCtx k).current = []) ∧
    timeoutDue s (s.slot i) = true

section
variable {s : State} {i : Fin 4096}

theorem exec_seqTimeout (h : timesOut s i.val) :
    exec (.seqTimeout i) s = .next (endSlot i.val 4 (applyResults (s.slot i.val).ctx.val s)) := by
  obtain ⟨hserved, hslot, hknown, hdue⟩ := h
  exact if_pos ⟨List.contains_iff_mem.2 hserved, hslot, resultsKnown_iff.2 hknown, hdue⟩

theorem exec_seqTimeout_none (h : ¬ timesOut s i.val) : exec (.seqTimeout i) s = .next s :=
  if_neg fun ⟨hserved, hslot, hknown, hdue⟩ => h ⟨List.contains_iff_mem.1 hserved, hslot, resultsKnown_iff.1 hknown, hdue⟩

end

/-! Slots freed (R285, R289). -/

theorem freeDue_iff {s : State} {t : SeqSlot} : freeDue s t = true ↔ t.state = .retiring ∧ t.since ≠ s.stu.stitch := by
  simp only [freeDue, Bool.and_eq_true, beq_iff_eq, bne_iff_ne]

/-- A slot is freed by SLOT_FREE. -/
def slotFrees (s : State) (i : Nat) : Prop :=
  let t := s.slot i
  t.state = .retiring ∧ t.since ≠ s.stu.stitch ∧ inMaintenance s = true ∧ (s.ctx t.ctx.val).state = .active

section
variable {s : State} {i : Fin 4096}

theorem exec_slotFree (h : slotFrees s i.val) : exec (.slotFree i) s = .next (freeSlot i.val s) := by
  obtain ⟨hretiring, hsince, hslot, hactive⟩ := h
  exact if_pos ⟨hslot, freeDue_iff.2 ⟨hretiring, hsince⟩, hactive⟩

theorem exec_slotFree_none (h : ¬ slotFrees s i.val) : exec (.slotFree i) s = .next s :=
  if_neg fun ⟨hslot, hdue, hactive⟩ =>
    have ⟨hretiring, hsince⟩ := freeDue_iff.1 hdue
    h ⟨hretiring, hsince, hslot, hactive⟩

end

/-! Swaps (R294, R295). -/

/-- The pool swatches of a slot in ascending swatch number, as a swap image holds them. -/
def imageSwatches (s : State) (i : Nat) : List (Nat × Nat × Nat) :=
  sortBy (fun a b => decide (a.2.2 < b.2.2)) (swatchesOf (s.srvCtx (s.slot i).ctx.val) i)

/-- The state with the swap image of a slot in host memory and the slot freed. -/
def swappedOut (s : State) (i : Nat) : State :=
  let t := s.slot i
  let k := t.ctx.val
  let own := imageSwatches s i
  let x := (meetQueues .portH s).each own fun s o => swatchFinds k o.1 s
  freeSlot i (x.setHostMem (Mem.write x.hostMem t.swapAddr.toNat
    (swapHeader t own.length ++ (own.map fun o => readSwatch x k o.1).flatten)))

/-- The header of the swap image that a slot names. -/
def imageHeader (s : State) (i : Nat) : List Byte := Mem.bytes s.hostMem (s.slot i).swapAddr.toNat 64

/-- The state with the swatches of a slot's swap image read into new ones. -/
def swappedIn (s : State) (i : Nat) : State :=
  let t := s.slot i
  let h := imageHeader s i
  let numbers := imageNumbers (leAt h 12 2) (leAt h 32 2) (leAt h 20 4) (BitVec.ofNat 64 (leAt h 24 8))
  (meetQueues .portH s).each numbers.zipIdx (swapInOne t.ctx.val i t.swapAddr.toNat)

section
variable {s : State} {i : Fin 4096}

section
variable (hparking : (s.slot i.val).state = .parking)
include hparking

theorem exec_swapOutDone_parked (hruns : (s.slot i.val).cause = none) : exec (.swapOutDone i) s =
    .next (tokenRecord (s.slot i.val).ctx.val (s.slot i.val).tag (s.slot i.val).length 0 3 i.val
      (swappedOut s i.val).stu.stitch (imageSwatches s i.val).length (swappedOut s i.val)) := by
  change execSwapOutDone i s = _
  simp only [execSwapOutDone, hparking, hruns]
  rfl

theorem exec_swapOutDone_ended {cause : Nat} (hended : (s.slot i.val).cause = some cause) : exec (.swapOutDone i) s =
    .next (tokenRecord (s.slot i.val).ctx.val (s.slot i.val).tag 0 0 cause i.val
      (swappedOut s i.val).stu.stitch 0 (swappedOut s i.val)) := by
  change execSwapOutDone i s = _
  simp only [execSwapOutDone, hparking, hended]
  rfl

end

section
variable (hresuming : (s.slot i.val).state = .resuming)
include hresuming

theorem exec_swapInDone_waits (hfew : freeSwatches (s.srvCtx (s.slot i.val).ctx.val) < leAt (imageHeader s i.val) 32 2) :
    exec (.swapInDone i) s = .next s :=
  (if_neg (· hresuming)).trans (if_pos hfew)

section
variable (hroom : leAt (imageHeader s i.val) 32 2 ≤ freeSwatches (s.srvCtx (s.slot i.val).ctx.val))
include hroom

theorem exec_swapInDone_resumed (hruns : (s.slot i.val).cause = none) : exec (.swapInDone i) s =
    .next ((swappedIn s i.val).onSlot i.val fun t => { t with
      state := .prefill, length := leAt (imageHeader s i.val) 8 4, keepLow := leAt (imageHeader s i.val) 14 2
      swatches := leAt (imageHeader s i.val) 12 2 }) := by
  refine (if_neg (· hresuming)).trans ((if_neg (Nat.not_lt.2 hroom)).trans ?_)
  simp only [hruns]
  rfl

theorem exec_swapInDone_ended {cause : Nat} (hended : (s.slot i.val).cause = some cause) : exec (.swapInDone i) s =
    .next (tokenRecord (s.slot i.val).ctx.val (s.slot i.val).tag 0 0 cause i.val
      (swappedIn s i.val).stu.stitch 0 (freeSlot i.val (swappedIn s i.val))) := by
  refine (if_neg (· hresuming)).trans ((if_neg (Nat.not_lt.2 hroom)).trans ?_)
  simp only [hended]
  rfl

end

end

end

/-! The event of a SEQ_ADMIT that stands at the head (R281). -/

/-- The backlog event of a context is posted. -/
def backlogPosts (s : State) (n : Nat) : Prop :=
  let c := s.srvCtx n
  c.waited ≠ 0 ∧ admitHead s n = c.head ∧ ¬ ∃ l, c.lastBacklog = some l ∧ (s.stu.stitch - l).toNat < 1024

section
variable {s : State} {n : Ctx}

theorem exec_admissionBacklog_posts (h : backlogPosts s n.val) : exec (.admissionBacklog n) s =
    .next ((post n.val 0x06 [(16, leBytes 4 (s.srvCtx n.val).waited), (20, leBytes 2 (slotsHeld s n.val)),
      (22, leBytes 2 ((admitHead s n.val).getD 0).toNat)] s).onSrvCtx n.val fun c =>
        { c with lastBacklog := some s.stu.stitch }) := by
  obtain ⟨hwaited, hstands, hold⟩ := h
  refine if_neg ?_
  rintro (hnone | hmoved | hrecent)
  · exact hwaited hnone
  · exact hmoved hstands
  · split at hrecent
    next l hlast => exact hold ⟨l, hlast, of_decide_eq_true hrecent⟩
    next => exact Bool.false_ne_true hrecent

theorem exec_admissionBacklog_none (h : ¬ backlogPosts s n.val) : exec (.admissionBacklog n) s = .next s := by
  refine if_pos ?_
  by_contra hnow
  obtain ⟨hwaited, hrest⟩ := not_or.1 hnow
  obtain ⟨hstands, hold⟩ := not_or.1 hrest
  refine h ⟨hwaited, not_not.1 hstands, fun ⟨l, hlast, hrecent⟩ => hold ?_⟩
  rw [hlast]
  exact decide_eq_true hrecent

end

/-- Settles O44: descriptors by what they wait for, a slot by its state and the end it owes, the backlog event by its head. -/
theorem sequenceLife : Obligations.SequenceLife := by
  intro s n
  refine ⟨fun d rest hserving => ⟨exec_seqAdmit_waits hserving, fun hs htype => ⟨fun hfits => ?_, fun hbad => ?_⟩,
      exec_seqRelease hserving⟩,
    fun tag h => congrArg Host.Outcome.next (bar0Write_of_takes h _),
    fun i => ⟨fun htimes hlisted => ?_, fun htimes hswapping => ?_, fun htimes hended => ?_, exec_seqTimeout_none,
      ⟨exec_slotFree, exec_slotFree_none⟩,
      fun hparking => ⟨exec_swapOutDone_parked hparking, fun _ => exec_swapOutDone_ended hparking⟩,
      fun hresuming => ⟨exec_swapInDone_waits hresuming, exec_swapInDone_resumed hresuming,
        fun _ hroom => exec_swapInDone_ended hresuming hroom⟩⟩,
    exec_admissionBacklog_posts, exec_admissionBacklog_none⟩
  · exact (exec_seqAdmit hserving hs htype).trans (congrArg Host.Outcome.next (takeAdmit_taken hfits))
  · exact (exec_seqAdmit hserving hs htype).trans (congrArg Host.Outcome.next (takeAdmit_rejected hbad))
  · exact (exec_seqTimeout htimes).trans (congrArg Host.Outcome.next (endSlot_listed 4 hlisted))
  · exact (exec_seqTimeout htimes).trans (congrArg Host.Outcome.next (endSlot_swapping 4 hswapping))
  · exact (exec_seqTimeout htimes).trans (congrArg Host.Outcome.next (endSlot_ended 4 hended))

end Sys2Proof.Machine

/-! PROOFS, family other: the step, the reset state, the closed blocks, and the answer of every command. -/

namespace Sys2Proof.Machine

/-- Settles O1: `step` hands the front of the queue to `exec`, with the rest as the state's queue. -/
theorem stepRunsTheFrontCommand : Obligations.StepRunsTheFrontCommand := fun _ _ _ => rfl

/-! The state right after reset. -/

/-- After reset the system context alone is ACTIVE (Table 14-12). -/
theorem ctx_reset (n : Ctx) : (State.reset.ctx n.val).state = if n = 0 then .active else .free := by
  revert n
  decide

/-- After reset no ring is enabled (Table 14-10). -/
theorem ring_reset (n : Ctx) : bit (State.reset.ring n.val).cfg 8 = false := by
  revert n
  decide

/-- After reset no event queue is enabled (Table 14-11). -/
theorem queue_reset (n : Ctx) : bit (State.reset.queue n.val).cfg 8 = false := by
  revert n
  decide

/-- Settles O57: each field is the default of its block, and the memories are empty. -/
theorem resetState : Obligations.ResetState :=
  ⟨rfl, rfl, rfl, rfl, rfl, rfl, rfl, rfl, rfl, rfl, rfl, ctx_reset, ring_reset, queue_reset, rfl, rfl, rfl, rfl, rfl,
    Tests.test_invariant_at_reset⟩

/-! The blocks that take no write during a device reset and in MANAGEMENT_ONLY (R364, R366). -/

/-- The command is a write of a register in a block that a device reset and MANAGEMENT_ONLY close. -/
def WritesClosedBlock (c : Instr) : Prop := ∃ f : State → State, ∀ s, exec c s = .next (bar0Write f s)

section
variable {c : Instr} {s : State} (hc : WritesClosedBlock c)
include hc

theorem WritesClosedBlock.resetting (hreset : s.flt.resetting = true) : exec c s = .next s := by
  obtain ⟨f, hf⟩ := hc
  rw [hf, bar0Write, if_pos hreset]

theorem WritesClosedBlock.management (hreset : s.flt.resetting = false) (hmode : s.flt.mode = 2) :
    exec c s = .next (violate 0 0x02 s) := by
  obtain ⟨f, hf⟩ := hc
  rw [hf, bar0Write, if_neg (by simp [hreset]), if_pos hmode]

end

/-- Settles O56: each command of the list is a write of a register in a closed block. -/
theorem closedBlocksTakeNoWrites : Obligations.ClosedBlocksTakeNoWrites := by
  intro s n k p v x q c hmem
  have hc : WritesClosedBlock c := by
    revert c
    simp only [List.forall_mem_cons, List.not_mem_nil, false_imp_iff, implies_true, and_true]
    and_intros <;> exact ⟨_, fun _ => rfl⟩
  exact ⟨hc.resetting, hc.management⟩

/-! Every command answers a next state but a PRIVATE instruction in TEST_MODE (R422). -/

theorem Answers.next (t : State) : Answers (.next t) := ⟨t, rfl⟩

theorem Answers.ite {p : Prop} [Decidable p] {a b : Out} (ha : Answers a) (hb : Answers b) : Answers (if p then a else b) := by
  split <;> assumption

/-- Outside TEST_MODE, and with a code that is not PRIVATE, a PRIVATE instruction acts as BYPASS (R422, Table 16-2). -/
theorem exec_privateInstruction_bypasses {s : State} {code : Byte}
    (h : s.straps.testMode = false ∨ code.toNat < 0x20 ∨ 0x3F < code.toNat) :
    exec (.privateInstruction code) s = .next (tapBypass s) :=
  if_neg fun ⟨htest, hlow, hhigh⟩ => h.elim (fun hoff => Bool.false_ne_true (hoff.symm.trans htest)) fun hout => by omega

/-- Settles O58: each command is a tree of branches whose leaves answer a next state; those of the first arms branch on what the
state holds, those of the last one do not branch. -/
theorem everyCommandCompletes : Obligations.EveryCommandCompletes := by
  intro c s hprivate
  cases c with
  | privateInstruction code => exact ⟨_, exec_privateInstruction_bypasses (hprivate code rfl)⟩
  | stitchBoundary | marker | stretchReq | stretchAnn | periodAnn | ready | go | miss | barrierCheck | barrierTimeout |
  masterTakeover | holdover | alignmentFault | thermalWithdraw | supplyWithdraw | phaseLedgerRecord | doorbellPoll | vote |
  verdict | portLost | fullEqRetry | serWindow | abortedEnd | listBuild | seqTimeout | slotFree | admissionBacklog | boltScrubLap
  | scrubStarvation | hbmScrubLap | teardownBoundary | teardownDone | heartbeatSample | deviceResetDone | unitResetDone |
  bandDomainOff | bandOn | powerOnDone | inputLoss | inputReturn | panelThermal | supply | panelSensorRead | thimbleRestart |
  pldmHeartbeat | trialTimeout | mctpControl | setEventReceiver | requestUpdate | transferComplete | verifyComplete |
  activateFirmware | testDone | thimbleRestartDone =>
    exact .ite (.next _) (.next _)
  | supplyReason | flitArrival | pairingResult | resetHoldEnd | keyRemovalDone | clockReturn | farLoopbackRequest =>
    exact .ite (.next _) (.ite (.next _) (.next _))
  | registerRead | registerWrite | frameReceive | storeCommitDone =>
    exact .ite (.next _) (.ite (.next _) (.ite (.next _) (.next _)))
  | clockLost => exact .ite (.next _) (.ite (.next _) (.ite (.next _) (.ite (.next _) (.next _))))
  | stretchChange | periodChange | thermalStepUp | nop | hrdReturn | bundleDone | captureEnd | shardDrained | restoreDone |
  beginApply | voteForm | verdictDecision | verdictMissing | commitStitch | inboxRecord | mirrorRecord | normRecord | normPartial
  | refillBlock | refillState | presserImageChecked | portFailed | trainingDone | seaRtDataAccess | swapOutDone | swapInDone |
  regionLoaded | regionWrittenBack | zeroingDone | hbmQueueArrival | wcDrain | hbmTempRead | bar2Access | bar2Timeout | isolate |
  release | leave | switchBegin | switchDone | perst | hotReset | pcieLoopback | certSubmit | rebuildDone | pcieLoopbackExit =>
    dsimp only [exec, execStretchChange, execPeriodChange, execThermalStepUp, execNop, execHrdReturn, execBundleDone,
      execCaptureEnd, execShardDrained, execRestoreDone, execBeginApply, execVoteForm, execVerdictDecision, execVerdictMissing,
      execCommitStitch, execInboxRecord, execMirrorRecord, execNormRecord, execNormPartial, execRefillBlock, execRefillState,
      execPresserImageChecked, execPortFailed, execTrainingDone, execSeaRtDataAccess, execSwapOutDone, execSwapInDone,
      execRegionLoaded, execRegionWrittenBack, execZeroingDone, execHbmQueueArrival, execWcDrain, execHbmTempRead, execBar2Access,
      execBar2Timeout, execIsolate, execRelease, execLeave, execSwitchBegin, execSwitchDone, execPerst, execHotReset,
      execPcieLoopback, execCertSubmit, execRebuildDone, execPcieLoopbackExit]
    (repeat' split) <;> exact .next _
  | _ => exact .next _

end Sys2Proof.Machine

/-! PROOFS, family 14_host_interface: the poll of the doorbell lines. -/

namespace Sys2Proof.Machine

section
variable {s : State} {n : Nat}

/-- Changes of an entry that agree on what stands there. -/
theorem vMod_congr {α : Type} {k : Nat} {v : Vector α k} (d : α) {f g : α → α} (h : f (vAt v n d) = g (vAt v n d)) :
    vMod v n f = vMod v n g := by
  by_cases hn : n < k
  · rw [vAt_of_lt _ _ hn] at h
    simp [vMod, hn, h]
  · simp [vMod, hn]

theorem onRing_congr {f g : Ring → Ring} (h : f (s.ring n) = g (s.ring n)) : s.onRing n f = s.onRing n g := by
  rw [State.onRing, State.onRing, State.onHif, State.onHif, vMod_congr _ h]

/-! What is taken from a ring leaves the event queues alone. -/

@[simp] theorem queue_onRing (m : Nat) (f : Ring → Ring) : (s.onRing n f).queue m = s.queue m := rfl

@[simp] theorem queue_setHostMem (m : Nat) (v : Mem) : (s.setHostMem v).queue m = s.queue m := rfl

@[simp] theorem queue_stopRing (m e : Nat) : (stopRing n e s).queue m = s.queue m := rfl

theorem queue_takeDescriptors (tail : BitVec 32) (m k : Nat) (s : State) : (takeDescriptors n tail k s).queue m = s.queue m := by
  induction k generalizing s with
  | zero => rfl
  | succ k ih =>
    rw [takeDescriptors]
    dsimp only
    split_ifs
    · rfl
    · rfl
    · rfl
    · rw [ih]
      rfl

/-- A descriptor that is well formed is taken at the head of its ring, which then passes it (R378). -/
theorem takeDescriptors_next {tail : BitVec 32} (hhead : (s.ring n).head ≠ tail) (k : Nat) :
    let r := s.ring n
    let pos := r.head.toNat % 2 ^ ringLog2 r.cfg
    let b := Mem.bytes s.hostMem (fld r.base 63 12 * 4096 + 64 * pos) 64
    takeDescriptors n tail (k + 1) s = if 0x0C < leAt b 0 1 then stopRing n 2 s
      else if reservedSet b then stopRing n 3 s
      else takeDescriptors n tail k (s.onRing n fun r => { r with
        head := r.head + 1, taken := r.taken ++ [{ index := BitVec.ofNat 32 pos, bytes := b, poll := s.hif.polls }] }) := by
  intro r pos b
  rw [takeDescriptors, if_neg hhead]
  exact congrArg (fun u => if 0x0C < leAt b 0 1 then _ else if reservedSet b then _ else takeDescriptors n tail k u)
    (onRing_congr rfl)

/-- What the poll of a running ring does with its doorbell's RING_TAIL (R378). -/
def takenTo (n : Nat) (tail : BitVec 32) (s : State) : State :=
  if 2 ^ ringLog2 (s.ring n).cfg < (tail - (s.ring n).head).toNat then stopRing n 1 s else takeDescriptors n tail 32 s

theorem queue_takenTo (tail : BitVec 32) (m : Nat) : (takenTo n tail s).queue m = s.queue m := by
  rw [takenTo]
  split
  · rfl
  · exact queue_takeDescriptors tail m 32 s

/-! One context's line (R377, R378, R384). -/

/-- RING_TAIL as a context's doorbell line gives it (Table 14-2). -/
def doorbellTail (s : State) (n : Nat) : BitVec 32 := BitVec.ofNat 32 (Mem.le s.hostMem (fld (s.ring n).db 63 6 * 64) 4)

@[simp] theorem ring_onQueue (m : Nat) (f : EventQueue → EventQueue) : (s.onQueue n f).ring m = s.ring m := rfl

@[simp] theorem ringPolled_onQueue (m : Nat) (f : EventQueue → EventQueue) : ringPolled (s.onQueue n f) m = ringPolled s m := rfl

/-- A ring that stops keeps its RING_HEAD (R378). -/
theorem head_stopRing (hn : n < 16) (e : Nat) : ((stopRing n e s).ring n).head = (s.ring n).head :=
  (congrArg Ring.head (State.ring_onRing s n _ hn) :)

theorem ringPolled_iff : ringPolled s n = true ↔ (s.ring n).live = true ∧ (s.ring n).state = 1 := by simp [ringPolled]

theorem ringPolled_eq_false (h : (s.ring n).live = false ∨ (s.ring n).state ≠ 1) : ringPolled s n = false := by
  simpa [ringPolled, ← Bool.not_eq_true, imp_iff_not_or] using h

theorem pollOne_off (hqueue : bit (s.queue n).cfg 8 = false) (hring : ringPolled s n = false) : pollOne n s = s := by
  simp [pollOne, hqueue, hring]

/-- The status line leaves the configuration of the queue alone. -/
theorem cfg_writeStatus (hn : n < 16) : ((writeStatus n s).queue n).cfg = (s.queue n).cfg := by
  simp [writeStatus, hn]

/-- Without an event queue the poll takes what the ring holds, and shows RING_HEAD where it moved. -/
theorem pollOne_ring (hn : n < 16) (hqueue : bit (s.queue n).cfg 8 = false) (hring : ringPolled s n = true)
    (hshown : (s.queue n).tail = (s.queue n).statusTail) :
    pollOne n s = if ((takenTo n (doorbellTail s n) s).ring n).head = (s.ring n).head then takenTo n (doorbellTail s n) s
      else writeStatus n (takenTo n (doorbellTail s n) s) := by
  have hkeeps : (takenTo n (doorbellTail s n) s).queue n = s.queue n := queue_takenTo _ n
  simp only [pollOne, hqueue, hring, Bool.false_eq_true, or_false, not_true_eq_false, if_true, if_false]
  rw [← doorbellTail, ← takenTo, hkeeps]
  by_cases hmoved : ((takenTo n (doorbellTail s n) s).ring n).head = (s.ring n).head
  · simp [hmoved, hshown, hkeeps, hqueue]
  · simp [hmoved, cfg_writeStatus hn, hkeeps, hqueue]

/-- Without a running ring the poll takes EVQ_HEAD, and honours a request for an interrupt of a queue that holds events (R384). -/
theorem pollOne_queue (hn : n < 16) (hqueue : bit (s.queue n).cfg 8 = true) (hring : ringPolled s n = false)
    (hshown : (s.queue n).tail = (s.queue n).statusTail) :
    let line := fld (s.ring n).db 63 6 * 64
    let head := BitVec.ofNat 32 (Mem.le s.hostMem (line + 8) 4)
    let want := BitVec.ofNat 16 (Mem.le s.hostMem (line + 12) 2)
    let heard := s.onQueue n fun q => { q with headRead := head }
    pollOne n s = if want ≠ (s.queue n).honoured ∧ (s.queue n).tail ≠ head then
      (heard.emit (.msix (fld (s.queue n).cfg 20 16))).onQueue n fun q => { q with honoured := want } else heard := by
  simp only [pollOne, hqueue, hring, or_true, not_true_eq_false, if_true, if_false, ringPolled_onQueue, ring_onQueue,
    State.queue_onQueue _ _ _ hn, hshown, ne_eq, or_self, true_and, Bool.false_eq_true]

end

/-- Settles O31: a poll serves the contexts one by one; each line by whether the ring and the queue are on, and the descriptors
of a ring one at a time. -/
theorem doorbellPolls : Obligations.DoorbellPolls := by
  refine ⟨fun s ⟨hreset, hmode⟩ => if_neg (by simp [outOfService, hreset, hmode]), fun s n => ⟨?_, ?_, ?_⟩, fun s n tail k => ⟨?_, rfl, ?_⟩⟩
  · exact fun hqueue hring => pollOne_off hqueue (ringPolled_eq_false hring)
  · intro hqueue hlive hstate hshown
    have hpoll := pollOne_ring n.isLt hqueue (ringPolled_iff.mpr ⟨hlive, hstate⟩) hshown
    refine ⟨fun hbeyond => ?_, fun hwithin => ?_⟩
    · have htaken : takenTo n.val (doorbellTail s n.val) s = stopRing n.val 1 s := if_pos hbeyond
      rw [hpoll, htaken, if_pos (head_stopRing n.isLt 1)]
      rfl
    · have htaken : takenTo n.val (doorbellTail s n.val) s = takeDescriptors n.val (doorbellTail s n.val) 32 s :=
        if_neg (Nat.not_lt.mpr hwithin)
      rw [hpoll, htaken]
      rfl
  · exact fun hqueue hring hshown => pollOne_queue n.isLt hqueue (ringPolled_eq_false hring) hshown
  · intro hhead
    cases k with
    | zero => rfl
    | succ k => exact if_pos hhead
  · exact fun hhead => takeDescriptors_next hhead k

end Sys2Proof.Machine

/-! PROOFS, family 14_host_interface: the registers of contexts, rings and event queues. -/

namespace Sys2Proof.Machine

/-! Words with one field replaced. -/

/-- Where a word meets a mask that leaves a field out, writing the field changes nothing. -/
theorem putFld_and {hi lo : Nat} {m : W64} (h : mask64 hi lo &&& m = 0) (w : W64) (v : Nat) : putFld w hi lo v &&& m = w &&& m := by
  refine BitVec.eq_of_getLsbD_eq fun i hi64 => ?_
  have hbit : ((mask64 hi lo).getLsbD i && m.getLsbD i) = false := by
    rw [← BitVec.getLsbD_and, h]
    exact BitVec.getLsbD_zero
  simp only [putFld, BitVec.getLsbD_and, BitVec.getLsbD_or, BitVec.getLsbD_not, hi64, decide_true, Bool.true_and]
  revert hbit
  cases (mask64 hi lo).getLsbD i <;> cases m.getLsbD i <;> simp

/-- A field of a word is what stands under its mask. -/
theorem fld_congr {a b : W64} {hi lo : Nat} (h : a &&& mask64 hi lo = b &&& mask64 hi lo) : fld a hi lo = fld b hi lo := by
  refine Nat.eq_of_testBit_eq fun i => ?_
  simp only [fld, Nat.testBit_mod_two_pow, Nat.testBit_shiftRight, BitVec.testBit_toNat]
  by_cases hin : i < hi + 1 - lo
  · by_cases h64 : lo + i < 64
    · have hbit := congrArg (·.getLsbD (lo + i)) h
      simpa only [BitVec.getLsbD_and, getLsbD_mask64, show lo ≤ lo + i by omega, show lo + i ≤ hi by omega, h64, decide_true,
        Bool.and_true, hin, Bool.true_and] using hbit
    · rw [BitVec.getLsbD_of_ge a _ (Nat.not_lt.1 h64), BitVec.getLsbD_of_ge b _ (Nat.not_lt.1 h64)]
  · simp only [hin, decide_false, Bool.false_and]

/-- A field that does not meet the one that is written keeps its value. -/
theorem fld_putFld_apart {hi lo hi' lo' : Nat} (h : mask64 hi lo &&& mask64 hi' lo' = 0) (w : W64) (v : Nat) :
    fld (putFld w hi lo v) hi' lo' = fld w hi' lo' :=
  fld_congr (putFld_and h w v)

/-- Two fields that do not meet are written in either order. -/
theorem putFld_comm {hi lo hi' lo' : Nat} (h : mask64 hi lo &&& mask64 hi' lo' = 0) (w : W64) (v v' : Nat) :
    putFld (putFld w hi lo v) hi' lo' v' = putFld (putFld w hi' lo' v') hi lo v := by
  refine BitVec.eq_of_getLsbD_eq fun i hi64 => ?_
  have hbit : ((mask64 hi lo).getLsbD i && (mask64 hi' lo').getLsbD i) = false := by
    rw [← BitVec.getLsbD_and, h]
    exact BitVec.getLsbD_zero
  simp only [putFld, BitVec.getLsbD_and, BitVec.getLsbD_or, BitVec.getLsbD_not, hi64, decide_true, Bool.true_and]
  revert hbit
  cases (mask64 hi lo).getLsbD i <;> cases (mask64 hi' lo').getLsbD i <;> simp

/-- A bit that is written reads as it was written. -/
theorem bit_putFld_bit (w : W64) {k : Nat} (hk : k < 64) (v : Nat) : bit (putFld w k k v) k = v.testBit 0 := by
  simp only [bit, putFld, BitVec.getLsbD_or, BitVec.getLsbD_and, BitVec.getLsbD_not, getLsbD_mask64, at64, BitVec.getLsbD_ofNat,
    Nat.testBit_shiftLeft, hk, le_refl, decide_true, Nat.sub_self, Bool.and_true, Bool.true_and, Bool.not_true,
    Bool.and_false, Bool.false_or]

/-! SEED and RANK (R389, Table 14-12). -/

section
variable {s : State} {n : Nat} {v : W64}

theorem writeCtxSeed_kept (h : hasEntries s n = false ∨ v = (s.ctx n).seed) :
    writeCtxSeed n v s = s.onCtx n fun c => { c with seed := v } :=
  if_neg fun ⟨hentries, hnew⟩ => h.elim (fun hnone => Bool.false_ne_true (hnone.symm.trans hentries)) hnew

theorem writeCtxSeed_refused (hentries : hasEntries s n = true) (hnew : v ≠ (s.ctx n).seed) :
    writeCtxSeed n v s = violate 0 0x02 s :=
  if_pos ⟨hentries, hnew⟩

theorem writeCtxRank_kept (h : hasEntries s n = false ∨ fld v 15 0 = fld (s.ctx n).rank 15 0) :
    writeCtxRank n v s = (checkRsv (mask64 63 28 ||| mask64 19 16) v s).onCtx n fun c =>
      { c with rank := v &&& ~~~ (mask64 63 28 ||| mask64 19 16) } := by
  have hkept : (hasEntries s n && decide (fld v 15 0 ≠ fld (s.ctx n).rank 15 0)) = false := by
    rcases h with h | h <;> simp [h]
  simp only [writeCtxRank, hkept, Bool.false_eq_true, false_or, if_false, checkRsv]

theorem writeCtxRank_refused (hentries : hasEntries s n = true) (hnew : fld v 15 0 ≠ fld (s.ctx n).rank 15 0) :
    writeCtxRank n v s = violate 0 0x02 s := by
  simp [writeCtxRank, hentries, hnew]

/-! HRG_RING_CFG_n (R386, Table 14-10). -/

/-- The reserved bits of HRG_RING_CFG_n. -/
def ringRsv : W64 := mask64 31 28 ||| mask64 23 18 ||| mask64 15 9 ||| mask64 7 5

/-- The state after a write of HRG_RING_CFG_n that is not refused, but for what EN starts or stops. -/
def ringSet (n : Nat) (v : W64) (s : State) : State :=
  (checkRsv ringRsv v s).onRing n fun r => { r with cfg := v &&& (mask64 8 8 ||| mask64 4 0) }

theorem writeRingCfg_refused (hen : bit (s.ring n).cfg 8 = true) (hlog : fld v 4 0 ≠ fld (s.ring n).cfg 4 0) :
    writeRingCfg n v s = violate 0 0x02 s := by
  simp [writeRingCfg, hen, hlog]

theorem writeRingCfg_taken (htaken : bit (s.ring n).cfg 8 = false ∨ fld v 4 0 = fld (s.ring n).cfg 4 0) :
    writeRingCfg n v s =
      if bit v 8 = true ∧ ¬ bit (s.ring n).cfg 8 = true then enableRing n (ringSet n v s)
      else if ¬ bit v 8 = true ∧ bit (s.ring n).cfg 8 = true then (ringSet n v s).onRing n fun r => { r with stopping := true }
      else ringSet n v s := by
  have hkept : (bit (s.ring n).cfg 8 && decide (fld v 4 0 ≠ fld (s.ring n).cfg 4 0)) = false := by
    rcases htaken with h | h <;> simp [h]
  simp only [writeRingCfg, hkept, Bool.false_eq_true, false_or, if_false]
  rfl

end

/-! EVQ_CFG_n (R384, R386, Table 14-11). -/

/-- The reserved bits of EVQ_CFG_n. -/
def evqRsv : W64 := mask64 63 21 ||| mask64 15 9 ||| mask64 7 5

/-- The fields of EVQ_CFG_n that may not change while EN is set. -/
def evqGuarded : W64 := mask64 20 16 ||| mask64 4 0

/-- A written word with the vector it leaves: the old one where it asks for vector 31. -/
def evqWord (cfg v : W64) : W64 := if fld v 20 16 == 31 then putFld v 20 16 (fld cfg 20 16) else v

/-- The state after a write of EVQ_CFG_n that is not refused, but for what EN starts. -/
def evqSet (n : Nat) (v : W64) (s : State) : State :=
  (if v &&& evqRsv ≠ 0 ∨ (fld v 20 16 == 31) = true then violate 0 0x02 s else s).onQueue n fun q =>
    { q with cfg := evqWord (s.queue n).cfg v &&& ~~~ evqRsv }

section
variable {s : State} {n : Nat} {v : W64}

theorem writeEvqCfg_refused (hen : bit (s.queue n).cfg 8 = true)
    (hnew : evqWord (s.queue n).cfg v &&& evqGuarded ≠ (s.queue n).cfg &&& evqGuarded) : writeEvqCfg n v s = violate 0 0x02 s := by
  have hrefused : (bit (s.queue n).cfg 8 && decide (evqWord (s.queue n).cfg v &&& evqGuarded ≠ (s.queue n).cfg &&& evqGuarded)) =
      true := by simp [hen, hnew]
  rw [writeEvqCfg, ← evqWord, ← evqGuarded]
  simp only [hrefused, true_or, if_true]

theorem writeEvqCfg_taken (htaken : bit (s.queue n).cfg 8 = false ∨
      evqWord (s.queue n).cfg v &&& evqGuarded = (s.queue n).cfg &&& evqGuarded) :
    writeEvqCfg n v s = if bit v 8 = true ∧ ¬ bit (s.queue n).cfg 8 = true then
      (evqSet n v s).onQueue n fun q => { q with tail := 0, headRead := 0, statusTail := 0 } else evqSet n v s := by
  have hkept : (bit (s.queue n).cfg 8 && decide (evqWord (s.queue n).cfg v &&& evqGuarded ≠ (s.queue n).cfg &&& evqGuarded)) =
      false := by rcases htaken with h | h <;> simp [h]
  rw [writeEvqCfg, ← evqWord, ← evqGuarded]
  simp only [hkept, Bool.false_eq_true, false_or, if_false]
  rfl

/-- EN is outside VECTOR, which decides what stands in the queue's configuration. -/
theorem evqWord_putFld (cfg : W64) (en : Nat) : evqWord cfg (putFld v 8 8 en) = putFld (evqWord cfg v) 8 8 en := by
  rw [evqWord, evqWord, fld_putFld_apart (by decide) v en, putFld_comm (by decide)]
  split <;> rfl

theorem evqSet_putFld (en : Nat) : evqSet n (putFld v 8 8 en) s =
    (if v &&& evqRsv ≠ 0 ∨ (fld v 20 16 == 31) = true then violate 0 0x02 s else s).onQueue n fun q =>
      { q with cfg := putFld (evqWord (s.queue n).cfg v) 8 8 en &&& ~~~ evqRsv } := by
  have hvector : fld (putFld v 8 8 en) 20 16 = fld v 20 16 := fld_putFld_apart (by decide) v en
  have hrsv : putFld v 8 8 en &&& evqRsv = v &&& evqRsv := putFld_and (by decide) v en
  rw [evqSet, hvector, hrsv, evqWord_putFld]

/-- No guarded field is reserved. -/
theorem and_not_evqRsv (w : W64) : (w &&& ~~~ evqRsv) &&& evqGuarded = w &&& evqGuarded := by
  have h : ~~~ evqRsv &&& evqGuarded = evqGuarded := by decide
  rw [BitVec.and_assoc, h]

end

/-! The three registers as commands. -/

/-- The words that a write of HRG_RING_CFG_n with EN replaced puts there. -/
theorem ringSet_putFld (m : Nat) (v : W64) (en : Nat) (s : State) : ringSet m (putFld v 8 8 en) s =
    (checkRsv ringRsv v s).onRing m fun r => { r with cfg := putFld v 8 8 en &&& (mask64 8 8 ||| mask64 4 0) } := by
  have hrsv : putFld v 8 8 en &&& ringRsv = v &&& ringRsv := putFld_and (by decide) v en
  rw [ringSet, checkRsv, hrsv, checkRsv]

section
variable {s : State} (htakes : TakesWrites s) (n : Ctx) (v : W64)
include htakes

theorem exec_ctxSeedWrite (rank : Bool) : exec (.ctxSeedWrite n rank v) s =
    .next ((if rank then writeCtxRank n.val v else writeCtxSeed n.val v) s) :=
  congrArg Host.Outcome.next (bar0Write_of_takes htakes _)

theorem exec_ctxShareWrite (hi : Bool) : exec (.ctxShareWrite n hi v) s = .next (writeCtxShare n.val hi v s) :=
  congrArg Host.Outcome.next (bar0Write_of_takes htakes _)

theorem exec_ringEnable : exec (.ringEnable n v) s = .next (writeRingCfg n.val (putFld v 8 8 1) s) :=
  congrArg Host.Outcome.next (bar0Write_of_takes htakes _)

theorem exec_ringDisable : exec (.ringDisable n v) s = .next (writeRingCfg n.val (putFld v 8 8 0) s) :=
  congrArg Host.Outcome.next (bar0Write_of_takes htakes _)

theorem exec_evqEnable : exec (.evqEnable n v) s = .next (writeEvqCfg n.val (putFld v 8 8 1) s) :=
  congrArg Host.Outcome.next (bar0Write_of_takes htakes _)

end

/-- EN as it is written. -/
theorem bit_enabled (v : W64) : bit (putFld v 8 8 1) 8 = true := bit_putFld_bit v (by decide) 1

theorem bit_disabled (v : W64) : bit (putFld v 8 8 0) 8 = false := bit_putFld_bit v (by decide) 0

/-- Without EN the LOG2_ENTRIES field alone is kept. -/
theorem putFld_disabled (v : W64) : putFld v 8 8 0 &&& (mask64 8 8 ||| mask64 4 0) = v &&& mask64 4 0 := by
  have hzero : putFld v 8 8 0 &&& mask64 8 8 = 0 := by
    refine BitVec.eq_of_getLsbD_eq fun i hi => ?_
    simp [putFld, at64]
  rw [BitVec.and_or_distrib_left, hzero, putFld_and (by decide)]
  exact BitVec.zero_or

/-- Settles O47: each register's write by the field that may not change and the EN held and written. -/
theorem contextRegisters : Obligations.ContextRegisters := by
  intro s n v htakes
  have hlog (en : Nat) : fld (putFld v 8 8 en) 4 0 = fld v 4 0 := fld_putFld_apart (by decide) v en
  refine ⟨⟨fun h => ?_, fun hentries hnew => ?_, fun h => ?_, fun hentries hnew => ?_⟩, ?_, ?_, ⟨fun hen hnew => ⟨?_, ?_⟩,
    fun hen hsame => ⟨?_, ?_⟩, fun hen => ⟨?_, ?_⟩⟩, ⟨fun hen hnew => ?_, fun hen hsame => ?_, fun hen => ?_⟩⟩
  · exact (exec_ctxSeedWrite htakes n v false).trans (congrArg _ (writeCtxSeed_kept h))
  · exact (exec_ctxSeedWrite htakes n v false).trans (congrArg _ (writeCtxSeed_refused hentries hnew))
  · exact (exec_ctxSeedWrite htakes n v true).trans (congrArg _ (writeCtxRank_kept h))
  · exact (exec_ctxSeedWrite htakes n v true).trans (congrArg _ (writeCtxRank_refused hentries hnew))
  · exact exec_ctxShareWrite htakes n v false
  · exact exec_ctxShareWrite htakes n v true
  · exact (exec_ringEnable htakes n v).trans (congrArg _ (writeRingCfg_refused hen (by rwa [hlog])))
  · exact (exec_ringDisable htakes n v).trans (congrArg _ (writeRingCfg_refused hen (by rwa [hlog])))
  · rw [exec_ringEnable htakes, writeRingCfg_taken (.inr (by rwa [hlog])), ringSet_putFld, if_neg (by simp [hen]),
      if_neg (by simp [bit_enabled])]
    rfl
  · rw [exec_ringDisable htakes, writeRingCfg_taken (.inr (by rwa [hlog])), ringSet_putFld, putFld_disabled,
      if_neg (by simp [hen]), if_pos (by simp [bit_disabled, hen])]
    rfl
  · rw [exec_ringDisable htakes, writeRingCfg_taken (.inl hen), ringSet_putFld, putFld_disabled,
      if_neg (by simp [bit_disabled]), if_neg (by simp [hen])]
    rfl
  · rw [exec_ringEnable htakes, writeRingCfg_taken (.inl hen), ringSet_putFld, if_pos (by simp [bit_enabled, hen])]
    rfl
  · refine (exec_evqEnable htakes n v).trans (congrArg _ (writeEvqCfg_refused hen ?_))
    rwa [evqWord_putFld, ← and_not_evqRsv]
  · rw [exec_evqEnable htakes, writeEvqCfg_taken (.inr (by rwa [evqWord_putFld, ← and_not_evqRsv])), evqSet_putFld,
      if_neg (by simp [hen])]
    rfl
  · rw [exec_evqEnable htakes, writeEvqCfg_taken (.inl hen), evqSet_putFld, if_pos (by simp [bit_enabled, hen])]
    rfl

end Sys2Proof.Machine

/-! PROOFS, family 13_faults_and_resets: the power of a band. -/

namespace Sys2Proof.Machine

theorem vMod_same {α : Type} {k : Nat} (v : Vector α k) (n : Nat) : vMod v n (fun x => x) = v := by
  by_cases hn : n < k <;> simp [vMod, hn]

theorem onBand_congr {s : State} {g : Nat} {f f' : Band → Band} (h : f (s.band g) = f' (s.band g)) : s.onBand g f = s.onBand g f' := by
  rw [State.onBand, State.onBand, State.onFlt, State.onFlt, vMod_congr _ h]

/-- A change that leaves a band as it stands is none. -/
theorem onBand_same {s : State} {g : Nat} {f : Band → Band} (h : f (s.band g) = s.band g) : s.onBand g f = s := by
  rw [onBand_congr (f' := fun b => b) h, State.onBand, State.onFlt, vMod_same]

/-- A bit outside the field that is written keeps its value. -/
theorem bit_putFld_apart {i k : Nat} (hik : i ≠ k) (w : W64) (hi : i < 64) (v : Nat) : bit (putFld w k k v) i = bit w i := by
  have hout : (mask64 k k).getLsbD i = false := by
    rw [getLsbD_mask64]
    simp only [Bool.and_eq_false_iff, decide_eq_false_iff_not]
    omega
  simp only [bit, putFld, BitVec.getLsbD_or, BitVec.getLsbD_and, BitVec.getLsbD_not, hout, hi, decide_true, Bool.not_false,
    Bool.and_true, Bool.and_false, Bool.or_false]

/-! Writes of FLT_BAND_g (R368, Table 13-18). -/

/-- The reserved bits of FLT_BAND_g. -/
def bandRsv : W64 := mask64 31 20 ||| mask64 15 11 ||| mask64 7 2

/-- A write that asks for another PWR_OFF is refused while the band is in a switch or a unit reset. -/
def powerRefused (s : State) (g : Nat) (off : Bool) : Prop :=
  (s.band g).state ≠ .unavailable ∧ (bandSwitching s g = true ∨ bandUnitReset s g = true) ∧ off ≠ (s.band g).pwrOff

/-- A band with PWR_OFF written, by its state: at once, at its boundary, or at the end of its transition. -/
def powerAsked (off : Bool) (b : Band) : Band := match b.state with
  | .on => { b with pwrOff := off, downPending := off }
  | .fenced | .poweringDown => { b with pwrOff := off, upAfter := !off }
  | .off => { b with pwrOff := off, upAfter := false }
  | .poweringUp | .resetting => { b with pwrOff := off, downAfter := off }
  | .unavailable => b

theorem requestPower_of_available {b : Band} (h : b.state ≠ .unavailable) (off : Bool) : requestPower off b = powerAsked off b := by
  obtain ⟨⟩ := b
  rename_i st _ _ _ _ _ _ _
  cases st
  case unavailable => exact absurd rfl h
  all_goals rfl

/-- The state after a write of FLT_BAND_g that is not refused, before PWR_OFF acts: DROPS_CLR. -/
def dropsTaken (g : Nat) (v : W64) (s : State) : State :=
  (checkRsv bandRsv v s).onBand g fun b => if bit v 1 then { b with drops := 0 } else b

section
variable {s : State} {g : Nat} {v : W64} (hg : g < 16 * s.nPanels)

theorem band_checkRsv (rsv : W64) : (checkRsv rsv v s).band g = s.band g := by
  unfold checkRsv
  split <;> rfl

theorem dropsTaken_band (hg' : g < 128) : ((dropsTaken g v s).band g).state = (s.band g).state := by
  rw [dropsTaken, State.band_onBand _ _ _ hg', band_checkRsv]
  split <;> rfl

include hg

/-- A presented band shows its own state (R370). -/
theorem bandState_presented : bandState s g = (s.band g).state := if_neg (by omega)

theorem writeFltBand_refused (h : powerRefused s g (bit v 0)) : writeFltBand g v s = violate 0 0x02 s := by
  obtain ⟨havailable, hbusy, hother⟩ := h
  simp [writeFltBand, bandState_presented hg, havailable, hbusy, hother]

theorem writeFltBand_taken (h : ¬ powerRefused s g (bit v 0)) : writeFltBand g v s =
    if (s.band g).state = .unavailable then dropsTaken g v s
    else if (s.band g).state = .off ∧ ¬ bit v 0 = true then
      startBandReset g .poweringUp ((dropsTaken g v s).onBand g fun b => { b with pwrOff := false, upAfter := false })
    else (dropsTaken g v s).onBand g (requestPower (bit v 0)) := by
  have hkept : (!((s.band g).state == .unavailable) && (bandSwitching s g || bandUnitReset s g) && bit v 0 != (s.band g).pwrOff) =
      false := by
    rw [← Bool.not_eq_true]
    simpa [powerRefused, and_assoc] using h
  simp only [writeFltBand, bandState_presented hg, hkept, Bool.false_eq_true, false_or, if_false, beq_iff_eq]
  rfl

/-- A band that is OFF powers up at once. -/
theorem writeFltBand_starts (h : ¬ powerRefused s g (bit v 0)) (hstate : (s.band g).state = .off) (hup : bit v 0 = false) :
    writeFltBand g v s =
      startBandReset g .poweringUp ((dropsTaken g v s).onBand g fun b => { b with pwrOff := false, upAfter := false }) := by
  rw [writeFltBand_taken hg h]
  simp [hstate, hup]

theorem writeFltBand_asks (hg' : g < 128) (h : ¬ powerRefused s g (bit v 0)) (hwaits : (s.band g).state ≠ .off ∨ bit v 0 = true) :
    writeFltBand g v s = (dropsTaken g v s).onBand g (powerAsked (bit v 0)) := by
  have hstate := dropsTaken_band (s := s) (v := v) hg'
  rw [writeFltBand_taken hg h]
  by_cases hgone : (s.band g).state = .unavailable
  · rw [if_pos hgone, onBand_same]
    rw [powerAsked, hstate, hgone]
  · rw [if_neg hgone, if_neg fun ⟨hoff, hup⟩ => hwaits.elim (· hoff) hup]
    exact onBand_congr (requestPower_of_available (by rwa [hstate]) _)

end

/-- What DROPS_CLR does is told by the word without PWR_OFF. -/
theorem dropsTaken_pwrOff (g : Nat) (v : W64) (off : Nat) (s : State) : dropsTaken g (putFld v 0 0 off) s = dropsTaken g v s := by
  have hrsv : putFld v 0 0 off &&& bandRsv = v &&& bandRsv := putFld_and (by decide) v off
  have hclr : bit (putFld v 0 0 off) 1 = bit v 1 := bit_putFld_apart (by decide) v (by decide) off
  rw [dropsTaken, dropsTaken, hclr, checkRsv, hrsv, checkRsv]

/-- With DROPS_CLR written the count of dropped flits starts over. -/
theorem dropsTaken_clr (g : Nat) (v : W64) (s : State) :
    dropsTaken g (putFld v 1 1 1) s = (checkRsv bandRsv v s).onBand g fun b => { b with drops := 0 } := by
  have hrsv : putFld v 1 1 1 &&& bandRsv = v &&& bandRsv := putFld_and (by decide) v 1
  have hclr : bit (putFld v 1 1 1) 1 = true := bit_putFld_bit v (by decide) 1
  rw [dropsTaken, checkRsv, hrsv, checkRsv]
  simp only [hclr, if_true]

/-! The boundaries of a band's power (R368, R387). -/

theorem laterBoundary_iff {s : State} {g : Nat} : laterBoundary s g = true ↔ (s.band g).since < s.stu.marks ∧ s.stu.pos < 96 := by
  simp [laterBoundary, inMaintenance]

/-- Settles O49: a write by whether it is refused and by the state of the band; the ends of the transitions by their boundary. -/
theorem bandPower : Obligations.BandPower := by
  intro s g v hg
  have hdown : bit (putFld v 0 0 1) 0 = true := bit_putFld_bit v (by decide) 1
  have hup : bit (putFld v 0 0 0) 0 = false := bit_putFld_bit v (by decide) 0
  have hkeeps : bit (putFld v 1 1 1) 0 = bit v 0 := bit_putFld_apart (by decide) v (by decide) 1
  refine ⟨fun h => ?_, fun h => ?_, fun h => ?_, fun h hstate => ?_, fun h hstate => ?_,
    ⟨fun h => ?_, fun h hwaits => ?_, fun h hstate hoff => ?_⟩, fun hstate hlater => ?_, fun h => ?_, fun hturns => ?_,
    fun hturns => ?_⟩
  · exact congrArg _ (writeFltBand_refused hg (by rwa [hdown]))
  · exact congrArg _ (writeFltBand_refused hg (by rwa [hup]))
  · refine congrArg _ ((writeFltBand_asks hg g.isLt (by rwa [hdown]) (.inr hdown)).trans ?_)
    rw [hdown, dropsTaken_pwrOff]
    rfl
  · refine congrArg _ ((writeFltBand_asks hg g.isLt (by rwa [hup]) (.inl hstate)).trans ?_)
    rw [hup, dropsTaken_pwrOff]
    rfl
  · refine congrArg _ ((writeFltBand_starts hg (by rwa [hup]) hstate hup).trans ?_)
    rw [dropsTaken_pwrOff]
    rfl
  · exact congrArg _ (writeFltBand_refused hg (by rwa [hkeeps]))
  · refine congrArg _ ((writeFltBand_asks hg g.isLt (by rwa [hkeeps]) (by rwa [hkeeps])).trans ?_)
    rw [hkeeps, dropsTaken_clr]
    rfl
  · refine congrArg _ ((writeFltBand_starts hg (by rwa [hkeeps]) hstate (by rwa [hkeeps])).trans ?_)
    rw [dropsTaken_clr]
    rfl
  · exact if_pos ⟨hstate, laterBoundary_iff.mpr hlater⟩
  · exact if_neg fun ⟨hstate, hlater⟩ => h.elim (· hstate) (· (laterBoundary_iff.mp hlater))
  · refine if_pos ⟨laterBoundary_iff.mpr hturns.1, ?_⟩
    simpa using hturns.2
  · refine if_neg fun ⟨hlater, hstate⟩ => hturns ⟨laterBoundary_iff.mp hlater, ?_⟩
    simpa using hstate

end Sys2Proof.Machine

/-! PROOFS, family 14_host_interface: the accesses of BAR2 and the access errors of BAR0. -/

namespace Sys2Proof.Machine

/-! BAR2_ACCESS (R364, R366, R374). -/

/-- The bytes an access asks for or brings. -/
def bar2Count : Bar2Kind → Nat
  | .read m => m
  | .write bs => bs.length

/-- A read that is not served returns zeros; a write is lost. -/
def bar2Zeros (k : Bar2Kind) (u : State) : State := match k with
  | .read m => u.emit (.bar2Data (List.replicate m 0))
  | .write _ => u

/-- The register of the window that a BAR2 offset lies in (R374). -/
def bar2Window (s : State) (offset : Nat) : W64 := vAt s.hif.windows (offset / 2 ^ 34 % 16) 0

/-- The parts of an access, one for each line it touches. -/
def partsOf (offset : Nat) (k : Bar2Kind) : List (Nat × Nat × Nat) := bar2Parts (bar2Count k + 1) (offset % 2 ^ 34) (bar2Count k)

/-- Each part of an access reaches the queue of its line, one after another. -/
def bar2Sent (n : Nat) (r : HbmRegion) (i base : Nat) (k : Bar2Kind) (parts : List (Nat × Nat × Nat)) (s : State) : State :=
  (parts.foldl (fun acc p => (bar2Part n r i base k acc.2 p acc.1, acc.2 + p.2.2)) (s, 0)).1

section
variable {s : State} {offset : Nat} {k : Bar2Kind}

theorem exec_bar2Access_resetting (hreset : s.flt.resetting = true) : exec (.bar2Access offset k) s = .next (bar2Zeros k s) := by
  cases k <;> exact if_pos hreset

/-- What a window names: the context and the index of its region, and the line it starts at. -/
def bar2Region (s : State) (offset : Nat) : Option HbmRegion :=
  hbmRegion s (fld (bar2Window s offset) 43 40) (fld (bar2Window s offset) 39 36)

/-- A part of the access lies beyond the region. -/
def bar2Beyond (s : State) (offset : Nat) (k : Bar2Kind) (r : HbmRegion) : Bool :=
  (partsOf offset k).any fun p => decide (regionLines s r ≤ fld (bar2Window s offset) 35 0 + p.1)

theorem bar2Beyond_iff {r : HbmRegion} : bar2Beyond s offset k r = true ↔
    ∃ p ∈ partsOf offset k, regionLines s r ≤ fld (bar2Window s offset) 35 0 + p.1 := by
  simp [bar2Beyond]

section
variable (hreset : s.flt.resetting = false)
include hreset

theorem exec_bar2Access_noRegion (hregion : bar2Region s offset = none) :
    exec (.bar2Access offset k) s = .next (bar2Zeros k (violate 0 0x01 s)) := by
  rw [bar2Region, bar2Window] at hregion
  cases k <;>
  · dsimp only [exec, execBar2Access]
    rw [if_neg (by simp [hreset])]
    simp only [hregion]
    rfl

variable {r : HbmRegion} (hregion : bar2Region s offset = some r)
include hregion

theorem exec_bar2Access_shut
    (hshut : s.flt.mode = 2 ∨ bit (bar2Window s offset) 63 = false ∨ bar2Beyond s offset k r = true) :
    exec (.bar2Access offset k) s = .next (bar2Zeros k (violate 0 0x01 s)) := by
  rw [bar2Region, bar2Window] at hregion
  rw [← Bool.not_eq_true] at hshut
  cases k <;>
  · dsimp only [exec, execBar2Access]
    rw [if_neg (by simp [hreset])]
    simp only [hregion]
    exact if_pos hshut

theorem exec_bar2Access_served (hmode : s.flt.mode ≠ 2) (hopen : bit (bar2Window s offset) 63 = true)
    (hwithin : ¬ bar2Beyond s offset k r = true) :
    exec (.bar2Access offset k) s = .next (bar2Sent (fld (bar2Window s offset) 43 40) r (fld (bar2Window s offset) 39 36)
      (fld (bar2Window s offset) 35 0) k (partsOf offset k) s) := by
  rw [bar2Region, bar2Window] at hregion
  cases k <;>
  · dsimp only [exec, execBar2Access]
    rw [if_neg (by simp [hreset])]
    simp only [hregion]
    exact if_neg (not_or.mpr ⟨hmode, not_or.mpr ⟨not_not.mpr hopen, hwithin⟩⟩)

end

end

/-! Parts of an access (R374). -/

theorem bar2Part_sends {s : State} {n region base : Nat} {r : HbmRegion} {part : Nat × Nat × Nat} {pc found : Nat}
    (hline : lineOf s n r (base + part.1) = some (pc, found)) (k : Bar2Kind) (skip : Nat) :
    bar2Part n r region base k skip part s = s.onHbm fun h => { h with inflight := h.inflight ++ [
      { pc := pc, line := found, source := .portH, arrival := s.ns, key := 0
        kind := match k with
          | .read _ => .bar2Read part.2.2 part.2.1
          | .write bs => .bytesWrite (mask64 (part.2.1 + part.2.2 - 1) part.2.1)
              (BitVec.ofNat 512 (fromLe ((bs.drop skip).take part.2.2) * 2 ^ (8 * part.2.1)))
        owner := Fin.ofNat 16 n, region := region, transfer := none }] } := by
  cases k <;> simp only [bar2Part, hline]

/-! BAR2_TIMEOUT (R375). -/

/-- The access is a read of BAR2. -/
def isBar2Read (a : Access) : Bool := match a.kind with
  | .bar2Read _ _ => true
  | _ => false

theorem isBar2Read_iff {a : Access} : isBar2Read a = true ↔ ∃ m b, a.kind = .bar2Read m b := by
  unfold isBar2Read
  split
  · next m b h => simp [h]
  · next h => simpa using h

/-- The oldest read leaves the queue alone. -/
theorem erase_first_read {before after : List Access} {a : Access} (ha : isBar2Read a = true)
    (hbefore : ∀ x ∈ before, ¬ isBar2Read x = true) : (before ++ a :: after).erase a = before ++ after := by
  have hnot : a ∉ before := fun hmem => hbefore a hmem ha
  rw [List.erase_append_right _ hnot, List.erase_cons_head]

theorem exec_bar2Timeout {s : State} {before after : List Access} {a : Access} (hqueue : s.hbm.inflight = before ++ a :: after)
    (ha : isBar2Read a = true) (hbefore : ∀ x ∈ before, ¬ isBar2Read x = true) : exec .bar2Timeout s =
      .next (((s.onHbm fun h => { h with inflight := before ++ after }).onHif fun h =>
        { h with bar2Timeouts := satAdd 32 h.bar2Timeouts 1 }).emit .bar2Abort) := by
  have hfind : s.hbm.inflight.find? isBar2Read = some a := by
    rw [hqueue, List.find?_append, List.find?_eq_none.mpr hbefore, List.find?_cons_of_pos ha]
    rfl
  have herase : s.hbm.inflight.erase a = before ++ after := by rw [hqueue, erase_first_read ha hbefore]
  have htimeout : execBar2Timeout s = match s.hbm.inflight.find? isBar2Read with
    | none => .next s
    | some a => .next (((s.onHbm fun h => { h with inflight := h.inflight.erase a }).onHif fun h =>
        { h with bar2Timeouts := satAdd 32 h.bar2Timeouts 1 }).emit .bar2Abort) := rfl
  refine htimeout.trans ?_
  rw [hfind]
  simp only [State.onHbm, herase]

/-- Settles O24: an access by the reset, the region and the window; a part by the line it finds; the oldest read of the queue by
the reads before it. -/
theorem bar2Accesses : Obligations.Bar2Accesses := by
  refine ⟨fun s offset k => ?_, fun s n region base skip line first count pc found r hline => ?_,
    fun s before after a m b hqueue ha hbefore => ?_, fun s off size => ⟨rfl, rfl⟩⟩
  · refine ⟨exec_bar2Access_resetting, fun hreset => ⟨fun r hregion hmode hopen => ⟨fun hall => ?_, fun hbeyond => ?_⟩, ?_⟩⟩
    · refine exec_bar2Access_served hreset hregion hmode hopen ?_
      rw [bar2Beyond_iff]
      rintro ⟨p, hp, hpast⟩
      exact absurd (hall p hp) (Nat.not_lt.mpr hpast)
    · exact exec_bar2Access_shut hreset hregion (.inr (.inr (bar2Beyond_iff.mpr hbeyond)))
    · intro hshut
      cases hregion : bar2Region s offset with
      | none => exact exec_bar2Access_noRegion hreset hregion
      | some r =>
        refine exec_bar2Access_shut hreset hregion ?_
        rcases hshut with hclosed | hnone | hmode
        · exact .inr (.inl hclosed)
        · exact absurd (hregion.symm.trans hnone) (Option.some_ne_none r)
        · exact .inl hmode
  · exact ⟨fun m => bar2Part_sends hline (.read m) skip, fun bs => bar2Part_sends hline (.write bs) skip⟩
  · refine exec_bar2Timeout hqueue (isBar2Read_iff.mpr ⟨m, b, ha⟩) fun x hx hread => ?_
    obtain ⟨m', b', hkind⟩ := isBar2Read_iff.mp hread
    exact hbefore x hx m' b' hkind

end Sys2Proof.Machine

/-! PROOFS, family 16_bringup_and_test: the test access port and the test block. -/

namespace Sys2Proof.Machine

section
variable {s : State}

/-! The test access port (R422, Table 16-2). -/

theorem tapInTest_on (f : Tap → Tap) (htest : s.straps.testMode = true) : tapInTest f s = s.onTap f := if_pos htest

theorem tapInTest_off (f : Tap → Tap) (htest : s.straps.testMode = false) : tapInTest f s = tapBypass s := if_neg (by simp [htest])

/-- A PRIVATE instruction in TEST_MODE has no effect in the spec. -/
theorem exec_privateInstruction_refused {code : Byte} (htest : s.straps.testMode = true) (hlow : 0x20 ≤ code.toNat)
    (hhigh : code.toNat ≤ 0x3F) : exec (.privateInstruction code) s = .refused (.privateTest code) :=
  if_pos ⟨htest, hlow, hhigh⟩

/-- The instructions that need TEST_MODE act as BYPASS without it (R422). -/
theorem exec_testInstruction_off (htest : s.straps.testMode = false) {select : Fin 8} {code : Byte} :
    ∀ c ∈ [Instr.extest, .highz, .clamp, .extestPulse, .extestTrain, .hbmWrapper select, .privateInstruction code],
      exec c s = .next (tapBypass s) := by
  have hoff (f : Tap → Tap) : Host.Outcome.next (tapInTest f s) = (.next (tapBypass s) : Out) :=
    congrArg _ (tapInTest_off f htest)
  simp only [List.forall_mem_cons, List.not_mem_nil, false_imp_iff, implies_true, and_true]
  exact ⟨hoff _, hoff _, hoff _, hoff _, hoff _, hoff _, exec_privateInstruction_bypasses (.inl htest)⟩

/-! TST_CMD (R428, R429, Table 16-8). -/

/-- The state in which a write of TST_CMD takes its command. -/
def testAsked (v : W64) (s : State) : State :=
  (checkRsv (mask64 63 48 ||| mask64 15 2) v s).onTst fun t => { t with cmd := v &&& mask64 47 16 }

theorem testAsked_resetting (v : W64) : (testAsked v s).flt.resetting = s.flt.resetting := by
  unfold testAsked checkRsv
  split <;> rfl

/-- During a device reset no test starts (R428). -/
theorem testRefusal_resetting {id target edge : Nat} (h : s.flt.resetting = true) : testRefusal s id target edge = some 0x03 := if_pos h

/-- A test that does not exist is no test (Table 16-4). -/
theorem testRefusal_unknown {id target edge : Nat} (h : s.flt.resetting = false) (hid : testOf id = none) :
    testRefusal s id target edge = some 0x05 := by
  rw [testRefusal, if_neg (by simp [h]), hid]

/-- The bands that a test takes: those of its unit that are available. -/
def testTakes (u : TestUnit) (target edge : Nat) (s : State) : List Nat :=
  (testBands u target edge).filter fun g => bandState s g != .unavailable

/-- A START: its refusal, or the test with its bands. -/
def testStarted (v : W64) (x : State) : State :=
  match testRefusal x (fld v 47 32) (fld v 31 24) (fld v 23 16) with
  | some r => x.onTst fun t =>
      if t.busy then { t with result := r } else { t with result := r, test := BitVec.ofNat 16 (fld v 47 32) }
  | none =>
    (x.each (match testOf (fld v 47 32) with
      | some (u, _) => testTakes u (fld v 31 24) (fld v 23 16) x
      | none => []) fun u g => u.onBand g fun b => { b with state := .resetting, test := true }).onTst fun t => { t with
        busy := true, test := BitVec.ofNat 16 (fld v 47 32), target := fld v 31 24, edge := fld v 23 16, stopping := false
        elapsed := 0 }

/-- What a write of TST_CMD reads beside its command. -/
theorem writeTstCmd_putFld (v : W64) {c : Nat} (hc : c < 4) : writeTstCmd (putFld v 1 0 c) s =
    if c = 1 then testStarted v (testAsked v s)
    else if c = 2 then (testAsked v s).onTst fun t => { t with stopping := t.busy } else testAsked v s := by
  have hcmd : fld (putFld v 1 0 c) 1 0 = c := fld_putFld v (by decide) (by decide) hc
  have hid : fld (putFld v 1 0 c) 47 32 = fld v 47 32 := fld_putFld_apart (by decide) v c
  have htarget : fld (putFld v 1 0 c) 31 24 = fld v 31 24 := fld_putFld_apart (by decide) v c
  have hedge : fld (putFld v 1 0 c) 23 16 = fld v 23 16 := fld_putFld_apart (by decide) v c
  have hrsv : putFld v 1 0 c &&& (mask64 63 48 ||| mask64 15 2) = v &&& (mask64 63 48 ||| mask64 15 2) := putFld_and (by decide) v c
  have hkept : putFld v 1 0 c &&& mask64 47 16 = v &&& mask64 47 16 := putFld_and (by decide) v c
  simp only [writeTstCmd, hcmd, hid, htarget, hedge, hrsv, hkept]
  rfl

theorem exec_tstStart (v : W64) : exec (.tstStart v) s = .next (testStarted v (testAsked v s)) :=
  congrArg Host.Outcome.next (writeTstCmd_putFld v (c := 1) (by decide))

theorem exec_tstStop (v : W64) : exec (.tstStop v) s = .next ((testAsked v s).onTst fun t => { t with stopping := t.busy }) :=
  congrArg Host.Outcome.next (writeTstCmd_putFld v (c := 2) (by decide))

section
variable {v : W64} {x : State}

theorem testStarted_refused {r : Byte} (h : testRefusal x (fld v 47 32) (fld v 31 24) (fld v 23 16) = some r) :
    testStarted v x = x.onTst fun t =>
      if t.busy then { t with result := r } else { t with result := r, test := BitVec.ofNat 16 (fld v 47 32) } := by
  simp only [testStarted, h]

theorem testStarted_starts {u : TestUnit} {d : Bool} (h : testRefusal x (fld v 47 32) (fld v 31 24) (fld v 23 16) = none)
    (htest : testOf (fld v 47 32) = some (u, d)) : testStarted v x =
      (x.each (testTakes u (fld v 31 24) (fld v 23 16) x) fun u g => u.onBand g fun b =>
        { b with state := .resetting, test := true }).onTst fun t => { t with
          busy := true, test := BitVec.ofNat 16 (fld v 47 32), target := fld v 31 24, edge := fld v 23 16, stopping := false
          elapsed := 0 } := by
  simp only [testStarted, h, htest]

end

/-! TEST_DONE (R428, R429, R432). -/

/-- RESULT of a test that ends. -/
def testResult (o : TestObs) (s : State) : Byte :=
  if s.tst.stopping then 0x06 else if o.passed = false then 0x01 else if o.repaired then 0x07 else 0x00

/-- The state after a test's counts, the log of its failure and its repairs. -/
def testCounted (o : TestObs) (us : BitVec 32) (s : State) : State :=
  let x := s.onTst fun t => { t with elapsed := us, detail := o.detail, errors := o.errors, checked := o.checked }
  let x := if testResult o s = 0x01 then logGeneral 0x04 0 (0x10 :: leBytes 2 s.tst.test.toNat ++ leBytes 1 s.tst.target) x else x
  if s.tst.stopping then x else x.each o.fuses fun s f => (addFuse f.1 f.2 s).2

section
variable {o : TestObs} {us : BitVec 32}

theorem exec_testDone_waits (h : s.tst.busy = false ∨ thimbleRuns s = false) : exec (.testDone o us) s = .next s :=
  if_pos (by simpa using h)

variable (hbusy : s.tst.busy = true) (hrun : thimbleRuns s = true)
include hbusy hrun

/-- A destructive test ends with the unit reset of its unit. -/
theorem exec_testDone_destructive {u : TestUnit} (htest : testOf s.tst.test.toNat = some (u, true)) :
    exec (.testDone o us) s =
      .next (endTest (testResult o s) (afterTest u s.tst.target s.tst.edge (testCounted o us s))) := by
  dsimp only [exec, execTestDone]
  rw [if_neg (by simp [hbusy, hrun])]
  simp only [htest, Bool.not_eq_true]
  rfl

theorem exec_testDone_other (htest : ∀ u, testOf s.tst.test.toNat ≠ some (u, true)) :
    exec (.testDone o us) s = .next (endTest (testResult o s) (testCounted o us s)) := by
  dsimp only [exec, execTestDone]
  rw [if_neg (by simp [hbusy, hrun])]
  simp only [Bool.not_eq_true]
  cases hunit : testOf s.tst.test.toNat with
  | none => rfl
  | some x =>
    obtain ⟨u, destructive⟩ := x
    cases destructive with
    | false => rfl
    | true => exact absurd hunit (htest u)

end

end

/-- Settles O54: the test access port by TEST_MODE, a START by its refusal, and the end of a test by the kind of test. -/
theorem testPortAndTests : Obligations.TestPortAndTests := by
  intro s select code
  refine ⟨rfl, fun p balls => rfl, rfl, fun htest => ?_, fun hcode => exec_privateInstruction_bypasses (.inr hcode),
    fun htest => exec_testInstruction_off htest, fun v => ⟨fun hreset => ?_, fun hreset hunknown => ?_, fun r hrefused => ?_,
      fun u d hnone htest => ?_, exec_tstStop v⟩, fun o us => ⟨exec_testDone_waits, fun hbusy hrun => ⟨fun u htest => ?_,
      fun htest => ?_⟩⟩⟩
  · have hon (f : Tap → Tap) : Host.Outcome.next (tapInTest f s) = (.next (s.onTap f) : Out) := congrArg _ (tapInTest_on f htest)
    exact ⟨hon _, hon _, hon _, hon _, hon _, hon _, exec_privateInstruction_refused htest⟩
  · exact testRefusal_resetting ((testAsked_resetting v).trans hreset)
  · exact testRefusal_unknown ((testAsked_resetting v).trans hreset) hunknown
  · exact (exec_tstStart v).trans (congrArg _ (testStarted_refused hrefused))
  · exact (exec_tstStart v).trans (congrArg _ (testStarted_starts hnone htest))
  · exact exec_testDone_destructive hbusy hrun htest
  · exact exec_testDone_other hbusy hrun htest

end Sys2Proof.Machine

/-! PROOFS, family 15_thimble: the mailbox. -/

namespace Sys2Proof.Machine

/-! A write of THM_MBOX_CMD (R392, R415, Table 15-17). -/

/-- The argument of a mailbox command. -/
def mboxArg (v : W64) : BitVec 32 := v.extractLsb' 32 32

/-- The state in which a mailbox command runs: its reserved bits are judged and its argument is taken. -/
def mboxAsked (v : W64) (s : State) : State :=
  (checkRsv (mask64 23 17 ||| mask64 15 8) v s).onThm fun t => { t with mboxArg := mboxArg v }

section
variable (v : W64) (s : State)

theorem thm_checkRsv (rsv : W64) : (checkRsv rsv v s).thm = s.thm := by
  unfold checkRsv
  split <;> rfl

theorem thm_mboxAsked : (mboxAsked v s).thm = { s.thm with mboxArg := mboxArg v } := by
  rw [mboxAsked, State.onThm_thm, thm_checkRsv]

theorem mboxLen_asked : mboxLen (mboxAsked v s) = mboxLen s := by rw [mboxLen, thm_mboxAsked]; rfl

theorem mboxAddr_asked : mboxAddr (mboxAsked v s) = mboxAddr s := by rw [mboxAddr, thm_mboxAsked]; rfl

theorem ctrl_mboxAsked : (mboxAsked v s).thm.ctrl = s.thm.ctrl := by rw [thm_mboxAsked]

theorem pubKeys_mboxAsked : (mboxAsked v s).thm.pubKeys = s.thm.pubKeys := by rw [thm_mboxAsked]

theorem bundleUses_mboxAsked (id : W64) : bundleUses (mboxAsked v s) id = bundleUses s id := by
  have hwork : (mboxAsked v s).work = s.work := by
    unfold mboxAsked checkRsv
    split <;> rfl
  rw [bundleUses, bundleUses, hwork]

end

section
variable {s : State} {v : W64} {c : Nat} (hc : 0 < c) (hc8 : c < 256)
include hc hc8

/-- A mailbox command by what is under way and by whether Thimble runs. -/
theorem mboxCommand_eq : mboxCommand c v s =
    if s.thm.mbox.isSome = true then violate 0 0x02 s
    else if s.thm.restarting = true ∨ s.thm.halted = true then (mboxAsked v s).onThm fun t => { t with mboxResult := 1 }
    else match mboxRun c (mboxArg v) (mboxAsked v s) with
      | some x => mboxDone x.1 x.2
      | none => (mboxAsked v s).onThm fun t => { t with
          mbox := some { cmd := BitVec.ofNat 8 c, arg := mboxArg v }, removal := some (Fin.ofNat 16 (mboxArg v).toNat) } := by
  have hcmd : fld (putFld v 7 0 c) 7 0 = c := fld_putFld v (by decide) (by decide) hc8
  have harg : BitVec.ofNat 32 (fld (putFld v 7 0 c) 63 32) = mboxArg v := by
    rw [fld_putFld_apart (by decide) v c, ofNat_fld v (by decide)]
    rfl
  have hrsv : putFld v 7 0 c &&& (mask64 23 17 ||| mask64 15 8) = v &&& (mask64 23 17 ||| mask64 15 8) :=
    putFld_and (by decide) v c
  have hsome : (c != 0) = true := bne_iff_ne.mpr (by omega)
  rw [mboxCommand, writeMbox]
  simp only [hcmd, harg, hrsv, hsome, Bool.true_and, show c ≠ 0 by omega, if_false]
  by_cases hbusy : s.thm.mbox.isSome = true
  · simp only [hbusy, true_or, if_true]
  · rw [Bool.not_eq_true] at hbusy
    simp only [hbusy, Bool.false_eq_true, false_or, if_false]
    rw [← checkRsv, thm_checkRsv]
    by_cases hstop : s.thm.restarting = true ∨ s.thm.halted = true
    · rw [if_pos hstop, if_pos hstop]
      rfl
    · rw [if_neg hstop, if_neg hstop, ← mboxAsked]
      cases mboxRun c (mboxArg v) (mboxAsked v s) <;> rfl

theorem mboxCommand_busy (hbusy : s.thm.mbox.isSome) : mboxCommand c v s = violate 0 0x02 s := by
  rw [mboxCommand_eq hc hc8, if_pos hbusy]

section
variable (hidle : s.thm.mbox = none)
include hidle

theorem mboxCommand_stopped (hstop : s.thm.restarting = true ∨ s.thm.halted = true) :
    mboxCommand c v s = (mboxAsked v s).onThm fun t => { t with mboxResult := 1 } := by
  rw [mboxCommand_eq hc hc8, if_neg (by simp [hidle]), if_pos hstop]

variable (hrun : ¬ (s.thm.restarting = true ∨ s.thm.halted = true))
include hrun

theorem mboxCommand_completes {x : Nat × State} (hx : mboxRun c (mboxArg v) (mboxAsked v s) = some x) :
    mboxCommand c v s = mboxDone x.1 x.2 := by
  rw [mboxCommand_eq hc hc8, if_neg (by simp [hidle]), if_neg hrun, hx]

theorem mboxCommand_waits (hx : mboxRun c (mboxArg v) (mboxAsked v s) = none) : mboxCommand c v s =
    (mboxAsked v s).onThm fun t => { t with
      mbox := some { cmd := BitVec.ofNat 8 c, arg := mboxArg v }, removal := some (Fin.ofNat 16 (mboxArg v).toNat) } := by
  rw [mboxCommand_eq hc hc8, if_neg (by simp [hidle]), if_neg hrun, hx]

end

end

/-! What each command answers (Table 15-9). -/

/-- The mailbox commands with their CMD. -/
theorem mbox_of_mem {v : W64} : ∀ c ∈ [Instr.logRead v, .clearCritical v, .sensorSnapshot v, .pubkeyAdd v, .pubkeyRemove v,
      .pubkeyList v, .fuseAdd v, .fuseRead v, .fuseClear v, .identity v],
    ∃ k, 0 < k ∧ k < 256 ∧ ∀ s, exec c s = .next (mboxCommand k v s) := by
  simp only [List.forall_mem_cons, List.not_mem_nil, false_imp_iff, implies_true, and_true]
  exact ⟨⟨1, by decide, by decide, fun _ => rfl⟩, ⟨2, by decide, by decide, fun _ => rfl⟩, ⟨3, by decide, by decide, fun _ => rfl⟩,
    ⟨4, by decide, by decide, fun _ => rfl⟩, ⟨5, by decide, by decide, fun _ => rfl⟩, ⟨6, by decide, by decide, fun _ => rfl⟩,
    ⟨7, by decide, by decide, fun _ => rfl⟩, ⟨8, by decide, by decide, fun _ => rfl⟩, ⟨9, by decide, by decide, fun _ => rfl⟩,
    ⟨10, by decide, by decide, fun _ => rfl⟩⟩

section
variable {s : State} {arg : BitVec 32}

/-- A command that puts out bytes: into a buffer long enough, or RESULT 0x02. -/
def mboxOut (bs : List Byte) (s : State) : Option (Nat × State) :=
  if mboxLen s < bs.length then some (0x02, s) else some (0x00, mboxWrite bs s)

theorem mboxOut_fits {bs : List Byte} (h : bs.length ≤ mboxLen s) : mboxOut bs s = some (0x00, mboxWrite bs s) :=
  if_neg (Nat.not_lt.mpr h)

theorem mboxOut_short {bs : List Byte} (h : mboxLen s < bs.length) : mboxOut bs s = some (0x02, s) := if_pos h

theorem mboxRun_logRead_fits (h : 128 ≤ mboxLen s) :
    mboxRun 0x01 arg s = some (0x00, mboxWrite (logFrom s arg (mboxLen s / 128)) s) := if_neg (Nat.not_lt.mpr h)

theorem mboxRun_logRead_short (h : mboxLen s < 128) : mboxRun 0x01 arg s = some (0x02, s) := if_pos h

/-! Keys change only where THM_CTRL lets the host (R414). -/

theorem mboxRun_keys_locked (h : bit s.thm.ctrl 1 = false) :
    mboxRun 0x04 arg s = some (0x05, s) ∧ mboxRun 0x05 arg s = some (0x05, s) := by
  have hlocked : ¬ bit s.thm.ctrl 1 = true := by simp [h]
  exact ⟨if_pos hlocked, if_pos hlocked⟩

section
variable (hkeys : bit s.thm.ctrl 1 = true)
include hkeys

theorem mboxRun_pubkeyAdd (h : 32 ≤ mboxLen s) :
    mboxRun 0x04 arg s = some (addKey (BitVec.ofNat 256 (Mem.le s.hostMem (mboxAddr s) 32)) s) :=
  (if_neg (not_not.mpr hkeys)).trans (if_neg (Nat.not_lt.mpr h))

theorem mboxRun_pubkeyAdd_short (h : mboxLen s < 32) : mboxRun 0x04 arg s = some (0x02, s) :=
  (if_neg (not_not.mpr hkeys)).trans (if_pos h)

/-- No slot of that number, or an empty one. -/
theorem mboxRun_pubkeyRemove_empty (h : 16 ≤ arg.toNat ∨ ∃ i : Fin 16, arg.toNat = i.val ∧ s.thm.pubKeys[i] = none) :
    mboxRun 0x05 arg s = some (0x06, s) := by
  refine (if_neg (not_not.mpr hkeys)).trans ?_
  rcases h with hbeyond | ⟨i, hi, hempty⟩
  · exact if_pos hbeyond
  · refine (if_neg (by omega)).trans ?_
    have hslot : vAt s.thm.pubKeys arg.toNat none = none := by rw [hi, vAt_of_lt _ _ i.isLt]; exact hempty
    rw [hslot]

section
variable {i : Fin 16} {k : BitVec 256} (hi : arg.toNat = i.val) (hkey : s.thm.pubKeys[i] = some k)
include hi hkey

theorem mboxRun_pubkeyRemove :
    mboxRun 0x05 arg s = if bundleUses s (keyId k) then none else some (0x00, removeKey i.val s) := by
  refine (if_neg (not_not.mpr hkeys)).trans ((if_neg (by omega)).trans ?_)
  have hslot : vAt s.thm.pubKeys arg.toNat none = some k := by rw [hi, vAt_of_lt _ _ i.isLt]; exact hkey
  rw [hslot, hi]

/-- A key in use waits. -/
theorem mboxRun_pubkeyRemove_used (hused : bundleUses s (keyId k) = true) : mboxRun 0x05 arg s = none :=
  (mboxRun_pubkeyRemove hkeys hi hkey).trans (if_pos hused)

theorem mboxRun_pubkeyRemove_free (hfree : bundleUses s (keyId k) = false) :
    mboxRun 0x05 arg s = some (0x00, removeKey i.val s) :=
  (mboxRun_pubkeyRemove hkeys hi hkey).trans (if_neg (by simp [hfree]))

end

end

/-! Fuse maps (R413). -/

theorem mboxRun_fuses_locked (h : bit s.thm.ctrl 2 = false) :
    mboxRun 0x07 arg s = some (0x05, s) ∧ mboxRun 0x09 arg s = some (0x05, s) := by
  have hlocked : ¬ bit s.thm.ctrl 2 = true := by simp [h]
  exact ⟨if_pos hlocked, if_pos hlocked⟩

theorem mboxRun_fuseRead_absent (h : 3 ≤ arg.toNat) : mboxRun 0x08 arg s = some (0x06, s) := if_pos h

theorem mboxRun_fuseRead (h : arg.toNat < 3) : mboxRun 0x08 arg s = mboxOut (fuseBytes s arg.toNat) s :=
  if_neg (Nat.not_le.mpr h)

section
variable (hfuses : bit s.thm.ctrl 2 = true)
include hfuses

theorem mboxRun_fuses_absent (h : 3 ≤ arg.toNat) :
    mboxRun 0x07 arg s = some (0x06, s) ∧ mboxRun 0x09 arg s = some (0x06, s) :=
  ⟨(if_neg (not_not.mpr hfuses)).trans (if_pos h), (if_neg (not_not.mpr hfuses)).trans (if_pos h)⟩

variable (hmap : arg.toNat < 3)
include hmap

theorem mboxRun_fuseClear : mboxRun 0x09 arg s = some (0x00, clearFuses arg.toNat s) :=
  (if_neg (not_not.mpr hfuses)).trans (if_neg (Nat.not_le.mpr hmap))

theorem mboxRun_fuseAdd (h : 8 ≤ mboxLen s) :
    mboxRun 0x07 arg s = some (addFuse arg.toNat (BitVec.ofNat 64 (Mem.le s.hostMem (mboxAddr s) 8)) s) :=
  (if_neg (not_not.mpr hfuses)).trans ((if_neg (Nat.not_le.mpr hmap)).trans (if_neg (Nat.not_lt.mpr h)))

theorem mboxRun_fuseAdd_short (h : mboxLen s < 8) : mboxRun 0x07 arg s = some (0x02, s) :=
  (if_neg (not_not.mpr hfuses)).trans ((if_neg (Nat.not_le.mpr hmap)).trans (if_pos h))

end

end

/-! KEY_REMOVAL_DONE (R350, R414). -/

section
variable {s : State} {i : Fin 16}

theorem exec_keyRemovalDone_other (h : s.thm.removal ≠ some i) : exec (.keyRemovalDone i) s = .next s := if_pos h

variable (hremoval : s.thm.removal = some i) {k : BitVec 256} (hkey : s.thm.pubKeys[i] = some k)
include hremoval hkey

/-- The state without the key. -/
theorem exec_keyRemovalDone : exec (.keyRemovalDone i) s =
    let gone := (removeKey i.val s).onThm fun t => { t with removal := none }
    if bundleUses s (keyId k) = true then .next s else .next (if s.thm.mbox.isSome then mboxDone 0x00 gone else gone) := by
  have hslot : vAt s.thm.pubKeys i.val none = some k := (vAt_of_lt _ _ i.isLt).trans hkey
  refine (if_neg (not_not.mpr hremoval)).trans ?_
  simp only [hslot]

end

section
variable {s : State} (hidle : s.thm.mbox = none) (hrun : ¬ (s.thm.restarting = true ∨ s.thm.halted = true)) {v : W64} {k : Nat}
  (hk : 0 < k) (hk8 : k < 256) {c : Instr} (hc : exec c s = .next (mboxCommand k v s))
include hidle hrun hk hk8 hc

theorem exec_mbox_completes {x : Nat × State} (hx : mboxRun k (mboxArg v) (mboxAsked v s) = some x) :
    exec c s = .next (mboxDone x.1 x.2) :=
  hc.trans (congrArg _ (mboxCommand_completes hk hk8 hidle hrun hx))

/-- The bytes go to the buffer that THM_MBOX_ADDR names. -/
theorem exec_mbox_writes {bs : List Byte} (hx : mboxRun k (mboxArg v) (mboxAsked v s) = some (0, mboxWrite bs (mboxAsked v s))) :
    exec c s = .next
      (mboxDone 0 ((mboxAsked v s).setHostMem (Mem.write (mboxAsked v s).hostMem (fld s.thm.mboxAddr 63 6 * 64) bs))) := by
  rw [exec_mbox_completes hidle hrun hk hk8 hc hx, mboxWrite, mboxAddr_asked]
  rfl

end

/-- Settles O51: a command by what is under way, then by its own answer; the end of a removal by the bundles of the key. -/
theorem mailboxCommands : Obligations.MailboxCommands := by
  intro s v
  refine ⟨fun hidle hrestart hhalt => ?_, fun hidle hstop c hmem => ?_, fun hbusy c hmem => ?_, fun i => ⟨exec_keyRemovalDone_other,
    fun k hremoval hkey => ?_⟩⟩
  · have hrun : ¬ (s.thm.restarting = true ∨ s.thm.halted = true) := by simp [hrestart, hhalt]
    have hlen : mboxLen (mboxAsked v s) = mboxLen s := mboxLen_asked v s
    have haddr : mboxAddr (mboxAsked v s) = fld s.thm.mboxAddr 63 6 * 64 := mboxAddr_asked v s
    have hctrl : (mboxAsked v s).thm.ctrl = s.thm.ctrl := ctrl_mboxAsked v s
    have hpub : (mboxAsked v s).thm.pubKeys = s.thm.pubKeys := pubKeys_mboxAsked v s
    have hbuffer : Mem.le (mboxAsked v s).hostMem (mboxAddr (mboxAsked v s)) = Mem.le (mboxAsked v s).hostMem
        (fld s.thm.mboxAddr 63 6 * 64) := by rw [haddr]
    have hdone {k : Nat} (hk : 0 < k) (hk8 : k < 256) := @exec_mbox_completes s hidle hrun v k hk hk8
    have hwrites {k : Nat} (hk : 0 < k) (hk8 : k < 256) := @exec_mbox_writes s hidle hrun v k hk hk8
    refine ⟨fun h => ?_, fun h => ?_, ?_, fun h => ?_, fun h => ?_, fun h => ?_, fun h => ?_, fun h => ?_, fun h => ?_,
      fun h => ⟨?_, ?_⟩, fun hkeys h => ?_, fun hkeys h => ?_, fun hkeys h => ?_, fun hkeys i k hi hkey => ⟨fun h => ?_, fun h => ?_⟩,
      fun h => ⟨?_, ?_⟩, fun h => ⟨?_, fun hfuses => ⟨?_, ?_⟩⟩, fun hmap => ⟨fun h => ?_, fun h => ?_,
        fun hfuses => ⟨?_, fun h => ?_, fun h => ?_⟩⟩⟩
    · refine hwrites (k := 1) (by decide) (by decide) rfl ?_
      rw [mboxRun_logRead_fits (h.trans_eq hlen.symm), hlen]
      rfl
    · exact hdone (k := 1) (by decide) (by decide) rfl (mboxRun_logRead_short (hlen.trans_lt h))
    · exact hdone (k := 2) (by decide) (by decide) rfl rfl
    · exact hwrites (k := 3) (by decide) (by decide) rfl (mboxOut_fits (h.trans_eq hlen.symm))
    · exact hdone (k := 3) (by decide) (by decide) rfl (mboxOut_short (hlen.trans_lt h))
    · exact hwrites (k := 6) (by decide) (by decide) rfl (mboxOut_fits (h.trans_eq hlen.symm))
    · exact hdone (k := 6) (by decide) (by decide) rfl (mboxOut_short (hlen.trans_lt h))
    · exact hwrites (k := 10) (by decide) (by decide) rfl (mboxOut_fits (h.trans_eq hlen.symm))
    · exact hdone (k := 10) (by decide) (by decide) rfl (mboxOut_short (hlen.trans_lt h))
    · exact hdone (k := 4) (by decide) (by decide) rfl (mboxRun_keys_locked (by rwa [hctrl])).1
    · exact hdone (k := 5) (by decide) (by decide) rfl (mboxRun_keys_locked (by rwa [hctrl])).2
    · refine (hdone (k := 4) (by decide) (by decide) rfl (mboxRun_pubkeyAdd (by rwa [hctrl]) (h.trans_eq hlen.symm))).trans ?_
      rw [hbuffer]
      rfl
    · exact hdone (k := 4) (by decide) (by decide) rfl (mboxRun_pubkeyAdd_short (by rwa [hctrl]) (hlen.trans_lt h))
    · exact hdone (k := 5) (by decide) (by decide) rfl (mboxRun_pubkeyRemove_empty (by rwa [hctrl]) (by rwa [hpub]))
    · exact hdone (k := 5) (by decide) (by decide) rfl
        (mboxRun_pubkeyRemove_free (by rwa [hctrl]) hi (by rwa [hpub]) (by rwa [bundleUses_mboxAsked]))
    · refine congrArg Host.Outcome.next ((mboxCommand_waits (c := 5) (by decide) (by decide) hidle hrun
        (mboxRun_pubkeyRemove_used (by rwa [hctrl]) hi (by rwa [hpub]) (by rwa [bundleUses_mboxAsked]))).trans ?_)
      have hslot : Fin.ofNat 16 (mboxArg v).toNat = i := Fin.ext ((congrArg (· % 16) hi).trans (Nat.mod_eq_of_lt i.isLt))
      rw [hslot]
      rfl
    · exact hdone (k := 7) (by decide) (by decide) rfl (mboxRun_fuses_locked (by rwa [hctrl])).1
    · exact hdone (k := 9) (by decide) (by decide) rfl (mboxRun_fuses_locked (by rwa [hctrl])).2
    · exact hdone (k := 8) (by decide) (by decide) rfl (mboxRun_fuseRead_absent h)
    · exact hdone (k := 7) (by decide) (by decide) rfl (mboxRun_fuses_absent (by rwa [hctrl]) h).1
    · exact hdone (k := 9) (by decide) (by decide) rfl (mboxRun_fuses_absent (by rwa [hctrl]) h).2
    · exact hwrites (k := 8) (by decide) (by decide) rfl ((mboxRun_fuseRead hmap).trans (mboxOut_fits (h.trans_eq hlen.symm)))
    · exact hdone (k := 8) (by decide) (by decide) rfl ((mboxRun_fuseRead hmap).trans (mboxOut_short (hlen.trans_lt h)))
    · exact hdone (k := 9) (by decide) (by decide) rfl (mboxRun_fuseClear (by rwa [hctrl]) hmap)
    · refine (hdone (k := 7) (by decide) (by decide) rfl (mboxRun_fuseAdd (by rwa [hctrl]) hmap (h.trans_eq hlen.symm))).trans ?_
      rw [hbuffer]
      rfl
    · exact hdone (k := 7) (by decide) (by decide) rfl (mboxRun_fuseAdd_short (by rwa [hctrl]) hmap (hlen.trans_lt h))
  · obtain ⟨k, hk, hk8, hc⟩ := mbox_of_mem c hmem
    exact (hc s).trans (congrArg _ (mboxCommand_stopped hk hk8 hidle hstop))
  · obtain ⟨k, hk, hk8, hc⟩ := mbox_of_mem c hmem
    exact (hc s).trans (congrArg _ (mboxCommand_busy hk hk8 hbusy))
  · have hends := exec_keyRemovalDone hremoval hkey
    refine ⟨fun hused => ?_, fun hfree hidle => ?_, fun hfree hbusy => ?_⟩
    · exact hends.trans (if_pos hused)
    · exact hends.trans ((if_neg (by simp [hfree])).trans (congrArg _ (if_neg (by simp [hidle]))))
    · exact hends.trans ((if_neg (by simp [hfree])).trans (congrArg _ (if_pos hbusy)))

end Sys2Proof.Machine

/-! PROOFS, family 15_thimble: Thimble's own work. -/

namespace Sys2Proof.Machine

/-! What logs and events leave alone. -/

section
variable (kind flags : Byte) (body : List Byte) (s : State)

@[simp] theorem flt_logCritical : (logCritical kind body s).flt = s.flt := by
  unfold logCritical
  split <;> rfl

@[simp] theorem thimbleRuns_logCritical : thimbleRuns (logCritical kind body s) = thimbleRuns s := by
  unfold logCritical
  split <;> rfl

@[simp] theorem thm_platformEvent : (platformEvent kind body s).thm = s.thm := by
  unfold platformEvent
  split <;> rfl

@[simp] theorem straps_platformEvent : (platformEvent kind body s).straps = s.straps := by
  unfold platformEvent
  split <;> rfl

end

theorem onFlt_congr {s : State} {f g : Flt → Flt} (h : f s.flt = g s.flt) : s.onFlt f = s.onFlt g := by
  rw [State.onFlt, h]
  rfl

/-! The readings of the panels (R406). -/

/-- The first n readings are taken over. -/
def readTo (r : List Int) (n : Nat) (s : State) : State := s.each (List.range n) fun s i => takeReading i (r.getD i 0) s

theorem readTo_succ (r : List Int) (n : Nat) (s : State) : readTo r (n + 1) s = takeReading n (r.getD n 0) (readTo r n s) := by
  simp [readTo, State.each, List.range_succ]

/-- Each reading is the value of its sensor. -/
theorem sensors_readTo (r : List Int) {n i : Nat} (hi : i < n) (s : State) :
    Tab.getD (readTo r n s).thm.sensors i 0 = BitVec.ofInt 32 (r.getD i 0) := by
  induction n with
  | zero => exact absurd hi (Nat.not_lt_zero i)
  | succ n ih =>
    rw [readTo_succ]
    rcases Nat.lt_succ_iff_lt_or_eq.mp hi with hlt | rfl
    · exact (Tab.getD_put_other _ _ _ (Nat.ne_of_gt hlt)).trans (ih hlt)
    · exact Tab.getD_put_same _ _ _ _

theorem panels_readTo (r : List Int) (n : Nat) (s : State) : (readTo r n s).thm.panels = s.thm.panels := by
  unfold readTo
  exact each_unchanged (fun s => s.thm.panels) (f := fun s i => takeReading i (r.getD i 0) s) (fun _ _ => rfl) _ s

theorem straps_readTo (r : List Int) (n : Nat) (s : State) : (readTo r n s).straps = s.straps := by
  unfold readTo
  exact each_unchanged State.straps (f := fun s i => takeReading i (r.getD i 0) s) (fun _ _ => rfl) _ s

theorem out_readTo (r : List Int) (n : Nat) (s : State) : (readTo r n s).out = s.out := by
  unfold readTo
  exact each_unchanged State.out (f := fun s i => takeReading i (r.getD i 0) s) (fun _ _ => rfl) _ s

/-! The clocks of the panels (R407). -/

section
variable (h : Int) (p : Nat) (s : State)

/-- A panel's clock after its readings (R407). -/
def panelRead (x : PanelClock) : PanelClock := { x with
  hottest := BitVec.ofInt 16 h
  targetK := if 1440 ≤ h ∧ x.targetK = 16 then 18 else x.targetK
  hot := if 1440 ≤ h ∧ x.targetK = 16 then 0 else x.hot
  nominal := if 1440 ≤ h then 0 else x.nominal
  cooled := if 1440 ≤ h then false else if h ≤ 1360 ∧ x.targetK ≠ 16 then true else x.cooled }

theorem sensors_managePanel : (managePanel h p s).thm.sensors = s.thm.sensors := by
  unfold managePanel
  dsimp only
  split
  · rw [thm_platformEvent]
    rfl
  · rfl

theorem panels_managePanel : (managePanel h p s).thm.panels = vMod s.thm.panels p (panelRead h) := by
  unfold managePanel
  dsimp only
  split
  · rw [thm_platformEvent]
    rfl
  · rfl

/-- A panel below 90 °C raises no event. -/
theorem out_managePanel (hcool : h < 1440) : (managePanel h p s).out = s.out := by
  unfold managePanel
  rw [if_neg fun hhot => absurd hhot.1 (Int.not_le.mpr hcool)]
  rfl

end

/-- The first n panels are managed by their hottest reading. -/
def managedTo (r : List Int) (n : Nat) (s : State) : State :=
  s.each (List.range n) fun s p => managePanel (hottestOf r p) p s

section
variable (r : List Int) (s : State)

theorem managedTo_succ (n : Nat) : managedTo r (n + 1) s = managePanel (hottestOf r n) n (managedTo r n s) := by
  simp [managedTo, State.each, List.range_succ]

theorem sensors_managedTo (n : Nat) : (managedTo r n s).thm.sensors = s.thm.sensors := by
  unfold managedTo
  exact each_unchanged (fun s => s.thm.sensors) (fun s p => sensors_managePanel _ p s) _ s

/-- A panel's clock is told by its own readings. -/
theorem panels_managedTo {n p : Nat} (hp : p < 8) : vAt (managedTo r n s).thm.panels p {} =
    if p < n then panelRead (hottestOf r p) (vAt s.thm.panels p {}) else vAt s.thm.panels p {} := by
  induction n with
  | zero => rfl
  | succ n ih =>
    rw [managedTo_succ, panels_managePanel]
    by_cases hnp : n = p
    · subst hnp
      rw [vAt_vMod_same _ _ _ hp, ih, if_neg (Nat.lt_irrefl n), if_pos (Nat.lt_succ_self n)]
    · rw [vAt_vMod_other _ _ _ hnp, ih]
      exact ite_congr (propext (by omega)) (fun _ => rfl) fun _ => rfl

/-- Panels that are all below 90 °C raise no event. -/
theorem out_managedTo {n : Nat} (hcool : ∀ p, hottestOf r p < 1440) : (managedTo r n s).out = s.out := by
  unfold managedTo
  exact each_unchanged State.out (fun s p => out_managePanel _ p s (hcool p)) _ s

end

theorem foldl_max_lt {c : Int} {l : List Int} {i : Int} (hi : i < c) (hl : ∀ x ∈ l, x < c) : l.foldl max i < c := by
  induction l generalizing i with
  | nil => exact hi
  | cons x l ih =>
    rw [List.forall_mem_cons] at hl
    exact ih (max_lt hi hl.1) hl.2

/-- Where every reading is below a bound above zero, so is every panel's hottest. -/
theorem hottestOf_lt {r : List Int} {c : Int} (hc : 0 < c) (hr : ∀ x ∈ r, x < c) (p : Nat) : hottestOf r p < c := by
  refine foldl_max_lt ?_ fun x hx => hr x (List.mem_of_mem_drop (List.mem_of_mem_take hx))
  by_cases hp : 12 * p < r.length
  · rw [List.getD_eq_getElem _ _ hp]
    exact hr _ (List.getElem_mem hp)
  · rw [List.getD_eq_default _ _ (Nat.le_of_not_lt hp)]
    exact hc

/-- The readings as they are kept: a sensor of a panel not presented reads 0. -/
def keptReadings (s : State) (readings : List Int) : List Int :=
  (List.range 96).map fun i => if i / 12 < s.nPanels then readings.getD i 0 else 0

theorem exec_panelSensorRead {s : State} (hrun : thimbleRuns s = true) (readings : List Int) :
    exec (.panelSensorRead readings) s =
      .next (managedTo (keptReadings s readings) s.nPanels (readTo (keptReadings s readings) 96 s)) := by
  have hpanels : presented (readTo (keptReadings s readings) 96 s) = List.range s.nPanels := by
    rw [presented, State.nPanels, straps_readTo]
    rfl
  refine (if_neg (not_not.mpr hrun)).trans ?_
  rw [managedTo, ← hpanels]
  rfl

/-- A presented panel's target clock after the readings (R407). -/
theorem targetK_managedTo (r : List Int) (s : State) {p : Fin 8} (hp : p.val < s.nPanels) :
    (managedTo r s.nPanels (readTo r 96 s)).thm.panels[p].targetK =
      if 1440 ≤ hottestOf r p.val ∧ s.thm.panels[p].targetK = 16 then 18 else s.thm.panels[p].targetK := by
  have hpanel : (managedTo r s.nPanels (readTo r 96 s)).thm.panels[p] = panelRead (hottestOf r p.val) s.thm.panels[p] := by
    rw [Fin.getElem_fin, Fin.getElem_fin, ← vAt_of_lt _ {} p.isLt, ← vAt_of_lt _ {} p.isLt, panels_managedTo r _ p.isLt,
      if_pos hp, panels_readTo]
  rw [hpanel]
  rfl

/-! Commits, trials and updates (R394, R398, R399). -/

section
variable {s : State}

theorem answer_runs (hrun : thimbleRuns s = true) (t : Transport) (code : Nat) (parts : List (List Byte)) {u : State}
    (hu : thimbleRuns u = thimbleRuns s) :
    answer t true code parts u = u.emit (.mctp t (Config.encodeResponse code parts)) :=
  answer_accepted t code parts (hu.trans hrun)

/-- An abandoned trial starts a device reset at once, from rest or again (R398). -/
theorem exec_trialTimeout (htrial : s.thm.trial = true) : exec .trialTimeout s = .next (revertReset (abandonTrial s)) :=
  if_neg (not_not.mpr htrial)

theorem flt_abandonTrial : (abandonTrial s).flt = s.flt := by
  rw [abandonTrial, flt_logCritical]
  rfl

theorem revertReset_idle (hidle : s.flt.phase = .none ∨ s.flt.phase = .stopped) : revertReset s = s.onFlt fun f => { f with
    phase := .hold, resetting := true, restarts := 0, pendingTrigger := 0, pendingCause := 0, counted := false } :=
  onFlt_congr (if_pos hidle)

theorem revertReset_busy (hbusy : s.flt.phase ≠ .none) (hstopped : s.flt.phase ≠ .stopped) :
    revertReset s = s.onFlt fun f => { f with phase := .hold, resetting := true } :=
  onFlt_congr (if_neg (not_or.mpr ⟨hbusy, hstopped⟩))

/-- MAX_CLR starts MAX again from the present value (R406). -/
theorem exec_sensorMaxClr (v : W64) : exec (.sensorMaxClr v) s =
    .next ((checkRsv (mask64 63 16 ||| mask64 14 9) v s).onThm fun x => { x with
      sensorSel := BitVec.ofNat 64 (fld v 8 0)
      sensorMax := Tab.put x.sensorMax (fld v 8 0) (Tab.getD x.sensors (fld v 8 0) 0) }) := by
  have hindex : fld (putFld v 15 15 1) 8 0 = fld v 8 0 := fld_putFld_apart (by decide) v 1
  have hclr : bit (putFld v 15 15 1) 15 = true := bit_putFld_bit v (by decide) 1
  have hrsv : putFld v 15 15 1 &&& (mask64 63 16 ||| mask64 14 9) = v &&& (mask64 63 16 ||| mask64 14 9) :=
    putFld_and (by decide) v 1
  refine congrArg Host.Outcome.next ?_
  rw [writeSensorSel]
  simp only [hindex, hclr, hrsv, if_true]
  rfl

@[simp] theorem thimbleRuns_setInactive (b : Bytes) (s : State) : thimbleRuns (setInactive b s) = thimbleRuns s := by
  unfold setInactive thimbleRuns
  rw [State.onThm]
  dsimp only
  split <;> rfl

/-- The image that does not run. -/
theorem inactiveImage_eq (s : State) : inactiveImage s = if s.thm.runningB then s.thm.imageA else s.thm.imageB := by
  unfold inactiveImage imageOf
  cases s.thm.runningB <;> rfl

end

/-- Settles O52: the readings by the folds over sensors and panels; each other command by what Thimble holds. -/
theorem thimbleUpkeep : Obligations.ThimbleUpkeep := by
  intro s t
  have hstopped (h : thimbleRuns s = false) : ¬ thimbleRuns s = true := by simp [h]
  refine ⟨fun readings => ⟨fun h => if_pos (hstopped h), fun hrun => ⟨_, exec_panelSensorRead hrun readings, fun i hi => ?_,
    fun p hp => ⟨fun hhot => ?_, fun hcool => ?_⟩, fun hcool => ?_⟩⟩, fun hreceiver hrun => if_pos ⟨hreceiver, hrun⟩,
    fun h => if_neg ?_, fun h => if_pos (by simp [h]), fun hbusy => ⟨fun hcert => ?_, fun hcert hhost => ?_, fun hcert hbmc => ?_⟩,
    fun h => if_pos (by simp [h]), fun htrial => ⟨fun hidle => ?_, fun hphase hphase' => ?_⟩, exec_sensorMaxClr,
    fun image => ⟨fun h => ⟨if_pos (hstopped h), if_pos (.inr (hstopped h)), ?_⟩, fun h => if_neg (not_not.mpr h), fun h => if_pos h,
      fun hrun => ⟨?_, fun h => if_pos (.inl h), fun h => ?_, fun h => ?_, fun h => ?_⟩⟩⟩
  · rw [sensors_managedTo]
    exact sensors_readTo _ hi s
  · exact (targetK_managedTo _ s hp).trans (if_pos hhot)
  · exact (targetK_managedTo _ s hp).trans (if_neg hcool)
  · have hkept : ∀ x ∈ keptReadings s readings, x < 1440 := hcool
    exact (out_managedTo _ _ (hottestOf_lt (by decide) hkept)).trans (out_readTo _ _ s)
  · rintro ⟨hreceiver, hrun⟩
    rcases h with hnone | hstop
    · simp [hnone] at hreceiver
    · exact hstopped hstop hrun
  · exact (if_neg (not_not.mpr hbusy)).trans (if_pos (by simp [hcert]))
  · exact (if_neg (not_not.mpr hbusy)).trans ((if_neg (not_not.mpr hcert)).trans (if_neg (by simp [hhost])))
  · exact (if_neg (not_not.mpr hbusy)).trans ((if_neg (not_not.mpr hcert)).trans (if_pos hbmc))
  · rw [exec_trialTimeout htrial, revertReset_idle (by rwa [flt_abandonTrial])]
    rfl
  · rw [exec_trialTimeout htrial, revertReset_busy (by rwa [flt_abandonTrial]) (by rwa [flt_abandonTrial])]
    rfl
  · refine (if_pos (.inr (hstopped h))).trans ?_
    rw [answer_stopped _ _ _ _ h]
  · refine (if_neg (not_not.mpr hrun)).trans (congrArg Host.Outcome.next (answer_runs hrun t _ _ ?_))
    exact (thimbleRuns_logCritical ..).trans (thimbleRuns_setInactive [] s)
  · rw [← inactiveImage_eq]
    refine (if_neg (by simp [h, hrun])).trans (congrArg Host.Outcome.next (answer_runs hrun s.thm.updateVia _ _ ?_))
    exact thimbleRuns_logCritical ..
  · refine (if_pos (.inl h)).trans ?_
    rw [answer_runs hrun _ _ _ rfl]
  · refine (if_neg (by simp [h, hrun])).trans (congrArg Host.Outcome.next (answer_runs hrun t _ _ ?_))
    exact thimbleRuns_logCritical ..

end Sys2Proof.Machine

/-! PROOFS, family 11_alterations: the descriptors of alterations. -/

namespace Sys2Proof.Machine

/-! An ALTER descriptor that starts (R378, R381). -/

section
variable {s : State} {n : Ctx} {d : Taken} {rest : List Taken}

/-- A training context takes an ALTER descriptor off its ring and gives it to its own rules. -/
theorem onDescriptor_alter (hs : Starts s n d rest) (htype : leAt d.bytes 0 1 = 9) (htrains : (s.ctx n.val).serving = false)
    {fits : List Byte → Bool} (hfits : fits d.bytes = true) (f : Taken → State → State) :
    onDescriptor n.val 9 fits f s = f d (taken n rest s) := by
  obtain ⟨hfront, hwaits, hturn, hn, hactive⟩ := hs
  have hsystem : n.val ≠ 0 := fun h => hn (Fin.ext h)
  have hrefusal : ringRefusal s n.val 9 = none := by simp [ringRefusal, hsystem, hactive, htrains]
  replace hrefusal : ringRefusal (taken n rest s) n.val 9 = none := hrefusal
  rw [taken] at hrefusal ⊢
  simp [onDescriptor, hfront, hwaits, hturn, hfits, htype, hrefusal]

theorem exec_begin (hs : Starts s n d rest) (htype : leAt d.bytes 0 1 = 9) (htrains : (s.ctx n.val).serving = false)
    (hop : leAt d.bytes 8 1 ≠ 1) : exec (.begin n) s = .next (readAlter n.val d (taken n rest s)) :=
  congrArg Host.Outcome.next (onDescriptor_alter hs htype htrains (by simpa [alterOp] using hop) _)

theorem exec_rebuild (hs : Starts s n d rest) (htype : leAt d.bytes 0 1 = 9) (htrains : (s.ctx n.val).serving = false)
    (hop : leAt d.bytes 8 1 = 1) : exec (.rebuild n) s = .next (readRebuild n.val d (taken n rest s)) :=
  congrArg Host.Outcome.next (onDescriptor_alter hs htype htrains (by simp [alterOp, hop]) _)

/-- A refused ALTER names its own type (Table 14-7). -/
theorem refuse_alter (htype : leAt d.bytes 0 1 = 9) (reason d0 d1 : Nat) (u : State) :
    refuse n.val d reason d0 d1 u = postRefusal n.val reason 9 d.index.toNat (leAt d.bytes 2 2) d0 d1 u := by
  rw [refuse, htype, handleOf]

/-- What a BEGIN asks for (Table 11-2). -/
def askedBegin (d : Taken) : PendingBegin :=
  { applyAt := BitVec.ofNat 40 (leAt d.bytes 9 5), newEpoch := BitVec.ofNat 16 (leAt d.bytes 14 2),
    newRank := BitVec.ofNat 16 (leAt d.bytes 16 2), newMembers := BitVec.ofNat 16 (leAt d.bytes 18 2),
    newMirrorRank := BitVec.ofNat 16 (leAt d.bytes 20 2), forced := (leAt d.bytes 1 1).testBit 1,
    notify := (leAt d.bytes 1 1).testBit 0, ringIndex := d.index.toNat }

theorem readBegin_refused {u : State} {r d0 d1 : Nat} (h : beginRefusal u n.val d.bytes = some (r, d0, d1)) :
    readBegin n.val d u = refuse n.val d r d0 d1 u := by
  simp [readBegin, h]

theorem readBegin_accepted {u : State} (h : beginRefusal u n.val d.bytes = none) :
    readBegin n.val d u = u.onTrain n.val fun t => { t with begin := some (askedBegin d) } := by
  simp only [readBegin, h]
  rfl

end

/-! BEGIN_APPLY (R308, R309). -/

section
variable {s : State} {n : Nat} {p : PendingBegin}

/-- A forced BEGIN whose AT comes before the commit stitch of any vote that waits cancels the vote (R308). -/
def beginCancels (s : State) (n : Nat) (p : PendingBegin) : Prop :=
  p.forced = true ∧ ∀ v, (s.train n).voteStitch = some v → before p.applyAt (commitAt s n v) = true

/-- The ROLLBACK effects of a forced BEGIN, without a commit stitch. -/
def cancelledVote (n : Nat) (s : State) : State :=
  let t := s.train n
  (applyVerdict n .rollback s).onTrain n fun u => { u with
    cancelled := t.cancelled ++ t.voteStitch.toList, lastCommit := t.lastCommit, everCommitted := t.everCommitted }

theorem beginVerdict_cancels (h : beginCancels s n p) : beginVerdict n p s = some (cancelledVote n s) := by
  obtain ⟨hforced, hearly⟩ := h
  refine if_pos ?_
  rw [hforced]
  cases hv : (s.train n).voteStitch with
  | none => rfl
  | some v => simpa [hv] using hearly v hv

theorem beginVerdict_of_not_cancels (h : ¬ beginCancels s n p) : beginVerdict n p s =
    match (s.train n).voteStitch, (s.train n).verdict with
    | none, _ => some s
    | some _, some v => some (applyVerdict n v s)
    | some _, none => none := by
  refine if_neg fun hnow => h ?_
  rw [Bool.and_eq_true] at hnow
  refine ⟨hnow.1, fun v hv => ?_⟩
  simpa [hv] using hnow.2

theorem exec_beginApply {n : Ctx} (hbegin : (s.train n.val).begin = some p) (hdue : beginDue s n.val p = true) :
    exec (.beginApply n) s = match beginVerdict n.val p s with
      | some w => .next (applyBegin n.val p w)
      | none => .next s := by
  show execBeginApply n s = _
  unfold execBeginApply
  rw [hbegin]
  exact if_neg (not_not.mpr hdue)

end

/-! REBUILD_DONE (R312). -/

theorem exec_rebuildDone {s : State} {n : Ctx} {r : RebuildState} (hr : (s.train n.val).rebuild = some r)
    (hopen : r.complete = false) : exec (.rebuildDone n) s =
      if ∃ k ∈ pressersOf s n.val, (s.presser k).staging ≠ [] ∨ stageWaits s k = true then .next s
      else .next (complete n.val 9 r.notify r.ringIndex 0
        (s.onTrain n.val fun t => { t with rebuild := some { r with complete := true } })) := by
  show execRebuildDone n s = _
  unfold execRebuildDone
  rw [hr]
  refine ite_congr (propext ?_) (fun _ => rfl) fun _ => rfl
  simp [hopen, List.any_eq_true]

/-- Settles O34: the refusals by Table 11-3's order, the boundary by its verdict, the end by the copies that wait. -/
theorem alterationDescriptors : Obligations.AlterationDescriptors := by
  intro s n d rest
  refine ⟨fun hs htype htrains => ⟨fun hop => ?_, fun hop hop' => ?_, fun hop hcalm => ?_, fun hop hreslices => ?_⟩,
    fun p hbegin hdue => ⟨fun hcancels => ?_, fun hcancels hnone => ?_, fun v hcancels hv => ⟨fun hx => ?_, fun x hx => ?_⟩⟩,
    fun r hr hopen => ⟨fun hwaits => ?_, fun hwaits => ?_⟩⟩
  · have hexec : exec (.begin n) s = .next (readBegin n.val d (taken n rest s)) :=
      (exec_begin hs htype htrains (by omega)).trans (congrArg Host.Outcome.next (if_pos hop))
    refine ⟨fun h => ?_, fun hzero hnew h => ?_, fun hzero hnew hlead h => ?_, fun hzero hnew hlead h => ?_⟩
    · rw [hexec, readBegin_refused (u := taken n rest s) (if_pos h), refuse_alter htype]
      rfl
    · rw [hexec, readBegin_refused (u := taken n rest s) ((if_neg (not_or.mpr ⟨hzero, hnew⟩)).trans (if_pos h)),
        refuse_alter htype]
      rfl
    · have hepoch := not_or.mpr ⟨hzero, hnew⟩
      have hlead := Bool.eq_false_iff.mp hlead
      rw [hexec, readBegin_refused (u := taken n rest s) ((if_neg hepoch).trans ((if_neg hlead).trans (if_pos h))),
        refuse_alter htype]
    · have hepoch := not_or.mpr ⟨hzero, hnew⟩
      have hlead := Bool.eq_false_iff.mp hlead
      rw [hexec, readBegin_accepted (u := taken n rest s) ((if_neg hepoch).trans ((if_neg hlead).trans (if_neg h)))]
      rfl
  · refine (exec_begin hs htype htrains hop').trans (congrArg Host.Outcome.next ?_)
    exact (if_neg hop).trans (refuse_alter htype ..)
  · refine (exec_rebuild hs htype htrains hop).trans (congrArg Host.Outcome.next ?_)
    exact (if_pos (Bool.eq_false_iff.mp hcalm)).trans (refuse_alter htype ..)
  · exact (exec_rebuild hs htype htrains hop).trans (congrArg Host.Outcome.next (if_neg (not_not.mpr hreslices)))
  · rw [exec_beginApply hbegin hdue, beginVerdict_cancels hcancels]
    rfl
  · rw [exec_beginApply hbegin hdue, beginVerdict_of_not_cancels hcancels, hnone]
    rfl
  · rw [exec_beginApply hbegin hdue, beginVerdict_of_not_cancels hcancels, hv, hx]
  · rw [exec_beginApply hbegin hdue, beginVerdict_of_not_cancels hcancels, hv, hx]
    rfl
  · exact (exec_rebuildDone hr hopen).trans (if_pos hwaits)
  · exact (exec_rebuildDone hr hopen).trans (if_neg hwaits)

end Sys2Proof.Machine

/-! PROOFS, family 11_alterations: the lining and its certificates. -/

namespace Sys2Proof.Machine

section
variable (rsv v : W64) (s : State)

@[simp] theorem lin_checkRsv : (checkRsv rsv v s).lin = s.lin := by
  unfold checkRsv
  split <;> rfl

@[simp] theorem prs_checkRsv : (checkRsv rsv v s).prs = s.prs := by
  unfold checkRsv
  split <;> rfl

@[simp] theorem hostMem_checkRsv : (checkRsv rsv v s).hostMem = s.hostMem := by
  unfold checkRsv
  split <;> rfl

end

/-! A write of LIN_PAIR_CFG (Tables 11-7, 11-14). -/

section
variable {s : State}

/-- LIN_PAIR_CFG as it is written, EN as the command gives it. -/
def pairWritten (v : W64) (en : Nat) (s : State) : State :=
  (checkRsv pairRsv v s).onLin fun l => { l with pairCfg := putFld v 4 4 en &&& ~~~ pairRsv }

/-- The binding with LAST_EPOCH of the bound context. -/
def pairBound (v : W64) (s : State) : State := (checkRsv pairRsv v s).onLin fun l => { l with
  pairCfg := putFld v 4 4 1 &&& ~~~ pairRsv, lastEpoch := (s.train (fld v 3 0)).current }

theorem writePairCfg_on (v : W64) (s : State) :
    writePairCfg (putFld v 4 4 1) s = bindLining (pairWritten v 1 s) := by
  have hrsv : putFld v 4 4 1 &&& pairRsv = v &&& pairRsv := putFld_and (by decide) v 1
  have hen : bit (putFld v 4 4 1) 4 = true := bit_putFld_bit v (by decide) 1
  rw [writePairCfg, hrsv]
  exact if_pos hen

theorem writePairCfg_off (v : W64) (s : State) : writePairCfg (putFld v 4 4 0) s =
    if bit s.lin.pairCfg 4 then unbindLining (pairWritten v 0 s) else pairWritten v 0 s := by
  have hrsv : putFld v 4 4 0 &&& pairRsv = v &&& pairRsv := putFld_and (by decide) v 0
  have hen : bit (putFld v 4 4 0) 4 = false := bit_putFld_bit v (by decide) 0
  rw [writePairCfg, hrsv, ← lin_checkRsv pairRsv v s]
  exact if_neg (Bool.eq_false_iff.mp hen)

theorem state_pairWritten (v : W64) (en : Nat) (s : State) : (pairWritten v en s).lin.state = s.lin.state :=
  congrArg Lin.state (a₁ := (checkRsv pairRsv v s).lin) (lin_checkRsv pairRsv v s)

theorem state_pairBound (v : W64) (s : State) : (pairBound v s).lin.state = s.lin.state :=
  congrArg Lin.state (a₁ := (checkRsv pairRsv v s).lin) (lin_checkRsv pairRsv v s)

/-- LAST_EPOCH follows the context that the written word binds. -/
theorem pairWritten_epoch (v : W64) (s : State) :
    ((pairWritten v 1 s).onLin fun l => { l with
      lastEpoch := ((pairWritten v 1 s).train (fld (pairWritten v 1 s).lin.pairCfg 3 0)).current }) = pairBound v s := by
  have hctx : fld (putFld v 4 4 1 &&& ~~~ pairRsv) 3 0 = fld v 3 0 := fld_congr (by
    rw [BitVec.and_assoc, show ~~~ pairRsv &&& mask64 3 0 = mask64 3 0 by decide]
    exact putFld_and (by decide) v 1)
  have htrain (n : Nat) : (pairWritten v 1 s).train n = s.train n :=
    congrArg (fun p : Prs => vAt p.ctxs n {}) (prs_checkRsv pairRsv v s)
  rw [htrain, show fld (pairWritten v 1 s).lin.pairCfg 3 0 = fld v 3 0 from hctx]
  rfl

theorem bindLining_starts {v : W64} (h : s.lin.state = .solo ∨ s.lin.state = .carrying) :
    bindLining (pairWritten v 1 s) = sendIdentity (setLining .pairing (pairBound v s)) := by
  rw [bindLining, pairWritten_epoch, state_pairBound]
  rcases h with h | h <;> rw [h]

theorem bindLining_stays {v : W64} (hsolo : s.lin.state ≠ .solo) (hcarrying : s.lin.state ≠ .carrying) :
    bindLining (pairWritten v 1 s) = pairBound v s := by
  rw [bindLining, pairWritten_epoch, state_pairBound]
  cases h : s.lin.state with
  | solo => exact absurd h hsolo
  | carrying => exact absurd h hcarrying
  | _ => rfl

end

/-! Certificates (R325 to R327, Table 11-13). -/

section
variable {s : State} {b : List Byte}

/-- No certificate is taken: an earlier one waits, or Thimble does not run. -/
def certBusy (s : State) : Prop := thimbleRuns s = false ∨ s.thm.commitCert = true ∨ s.lin.accepted.isSome

/-- A certificate is accepted: LAST_NONCE, its log entry, and the commit that its RESULT waits for. -/
def certTaken (bmc : Bool) (b : List Byte) (a : CertAction × W64) (s : State) : State :=
  (logCritical 0x06 (slice b 0 64) (s.onLin fun l => { l with
    lastNonce := BitVec.ofNat 64 (leAt b 32 8), accepted := some a, certBmc := bmc })).onThm fun t =>
      { t with commitCert := true, flashBusy := true }

theorem submitCert_busy (bmc : Bool) (h : certBusy s) : submitCert bmc b s = (1, s) := by
  refine if_pos ?_
  rwa [Bool.not_eq_true]

theorem submitCert_free (bmc : Bool) (h : ¬ certBusy s) : submitCert bmc b s =
    match checkCert s b with
    | (r, none) => (r, s)
    | (r, some a) => (r, certTaken bmc b a s) := by
  refine if_neg ?_
  rwa [Bool.not_eq_true]

theorem submitCert_refused (bmc : Bool) (h : ¬ certBusy s) {r : Nat} (hc : checkCert s b = (r, none)) :
    submitCert bmc b s = (r, s) := by
  rw [submitCert_free bmc h, hc]

theorem submitCert_accepted (bmc : Bool) (h : ¬ certBusy s) {a : CertAction × W64} (hc : checkCert s b = (0, some a)) :
    submitCert bmc b s = (0, certTaken bmc b a s) := by
  rw [submitCert_free bmc h, hc]

/-- Neither the action nor the header of a malformed certificate is one of Table 11-9. -/
theorem checkCert_malformed (h : leAt b 6 1 = 0 ∨ 3 < leAt b 6 1 ∨ leAt b 0 4 ≠ 0x43544C4D ∨ leAt b 4 2 ≠ 1) :
    checkCert s b = (2, none) := by
  unfold checkCert
  cases ha : certAction b with
  | none => rfl
  | some a =>
    have hknown : leAt b 6 1 = 1 ∨ leAt b 6 1 = 2 ∨ leAt b 6 1 = 3 := by
      unfold certAction at ha
      split at ha
      case h_4 => cases ha
      all_goals omega
    exact if_pos (by omega)

/-- The certificate that stands at LIN_CERT_ADDR. -/
def certBytes (s : State) : List Byte := Mem.bytes s.hostMem (fld s.lin.certAddr 63 9 * 512) 512

theorem certBytes_checkRsv (rsv v : W64) (s : State) : certBytes (checkRsv rsv v s) = certBytes s := by
  rw [certBytes, hostMem_checkRsv, lin_checkRsv, certBytes]

/-- RESULT as LIN_CERT_CMD shows it: an accepted certificate reads busy. -/
def certShown (y : Nat × State) : State :=
  match y with
  | (r, s) => s.onLin fun l => { l with certResult := if r = 0 then 1 else BitVec.ofNat 8 r }

/-- The state that a written SUBMIT finds. -/
def certAsked (v : W64) (s : State) : State := checkRsv (mask64 63 24 ||| mask64 15 2) v s

theorem writeCertCmd_submits (v : W64) (s : State) : writeCertCmd (putFld v 1 0 1) s =
    certShown (submitCert false (certBytes s) (certAsked v s)) := by
  have hrsv : putFld v 1 0 1 &&& (mask64 63 24 ||| mask64 15 2) = v &&& (mask64 63 24 ||| mask64 15 2) :=
    putFld_and (by decide) v 1
  have hsubmit : fld (putFld v 1 0 1) 1 0 = 1 := fld_putFld v (by decide) (by decide) (by decide)
  have hbytes : certBytes (certAsked v s) = certBytes s := certBytes_checkRsv ..
  have hjudged : certAsked (putFld v 1 0 1) s = certAsked v s := by
    rw [certAsked, checkRsv, hrsv]
    rfl
  unfold writeCertCmd
  rw [if_neg (not_not.mpr hsubmit), ← hbytes, ← hjudged, certBytes, certAsked, checkRsv]
  rfl

theorem certBusy_asked (v : W64) (s : State) : certBusy (certAsked v s) ↔ certBusy s := by
  rw [certBusy, certAsked, thimbleRuns, thm_checkRsv, lin_checkRsv]
  rfl

theorem exec_certSubmit_register (htakes : TakesWrites s) (v : W64) : exec (.certSubmit (.register v)) s =
    .next (certShown (submitCert false (certBytes s) (certAsked v s))) :=
  congrArg Host.Outcome.next ((bar0Write_of_takes htakes _).trans (writeCertCmd_submits v s))

theorem exec_certSubmit_bmc (hrecovery : s.thm.recovery = false) (b : List Byte) : exec (.certSubmit (.bmc b)) s =
    .next (if (submitCert true b s).1 = 0 then (submitCert true b s).2 else
      (submitCert true b s).2.emit (.mctp .i3c (Config.encodeResponse 0x3F02 [[BitVec.ofNat 8 (submitCert true b s).1]]))) :=
  congrArg Host.Outcome.next (if_neg (by simp [hrecovery]))

end

/-- An accepted ISOLATE fails the re-slice votes, then fences this device or carries on without the partner (R328). -/
theorem exec_isolate {s : State} {serial : W64} (h : s.lin.accepted = some (.isolate, serial)) : exec .isolate s =
    let failed := failReslices (certActed s)
    if serial = Config.serial then .next (fenceSeams true (failed.each (hostedJobs failed) fun s j => originateAbort j 0x04 s))
    else .next (setLining .carrying failed) := by
  show execIsolate s = _
  rw [execIsolate, h]

/-- Settles O45: EN by the state it finds, the certificate by its RESULT, each action by the accepted one. -/
theorem liningAndCertificates : Obligations.LiningAndCertificates := by
  intro s
  refine ⟨fun htakes v => ?_, fun b => ⟨checkCert_malformed, fun hrun hrecovery hcommit hfree => ?_⟩, fun hpairing hrun o => ?_,
    fun serial => ⟨fun h => ⟨fun hself => ?_, fun hother => ?_⟩, fun h => ?_, fun h => ?_⟩⟩
  · have hon : exec (.pairing v) s = .next (bindLining (pairWritten v 1 s)) := by
      rw [← writePairCfg_on]
      exact congrArg Host.Outcome.next (bar0Write_of_takes htakes _)
    have hoff : exec (.liningDisable v) s =
        .next (if bit s.lin.pairCfg 4 then unbindLining (pairWritten v 0 s) else pairWritten v 0 s) := by
      rw [← writePairCfg_off]
      exact congrArg Host.Outcome.next (bar0Write_of_takes htakes _)
    refine ⟨fun h => ?_, fun hsolo hcarrying => ?_, fun hen hfenced => ?_, fun h => ?_, fun hbusy => ?_,
      fun hbusy => ⟨fun r hc hr => ?_, fun a hc => ?_⟩⟩
    · rw [hon, bindLining_starts h]
      rfl
    · rw [hon, bindLining_stays hsolo hcarrying]
      rfl
    · rw [hoff, if_pos hen, unbindLining, if_neg (by rwa [state_pairWritten])]
      rfl
    · rw [hoff]
      by_cases hen : bit s.lin.pairCfg 4 = true
      · have hfenced : s.lin.state = .fenced := h.resolve_left (by simp [hen])
        rw [if_pos hen, unbindLining, if_pos (by rwa [state_pairWritten])]
        rfl
      · rw [if_neg hen]
        rfl
    · rw [exec_certSubmit_register htakes, submitCert_busy _ ((certBusy_asked v s).mpr hbusy)]
      rfl
    · rw [exec_certSubmit_register htakes, submitCert_refused (b := certBytes s) _ (mt (certBusy_asked v s).mp hbusy) hc,
        certShown, if_neg hr]
      rfl
    · rw [exec_certSubmit_register htakes, submitCert_accepted (b := certBytes s) _ (mt (certBusy_asked v s).mp hbusy) hc]
      rfl
  · have hbusy : ¬ certBusy s := by simp [certBusy, hrun, hcommit, hfree]
    refine ⟨fun r hc hr => ?_, fun a hc => ?_⟩
    · rw [exec_certSubmit_bmc hrecovery, submitCert_refused _ hbusy hc]
      exact congrArg Host.Outcome.next (if_neg hr)
    · rw [exec_certSubmit_bmc hrecovery, submitCert_accepted _ hbusy hc]
      rfl
  · have hexec : exec (.pairingResult o) s = if pairingReason s o = 0 then .next (paired o s)
        else .next (setLining .solo (s.onLin fun l => { l with reason := BitVec.ofNat 8 (pairingReason s o) })) :=
      if_neg (by simp [hpairing, hrun])
    refine ⟨fun hreason => hexec.trans (if_neg hreason), fun hreason => ⟨fun hsends hreceives => ?_, fun hrefills => ?_⟩⟩
    · refine (hexec.trans (if_pos hreason)).trans (congrArg Host.Outcome.next (if_neg ?_))
      exact not_or.mpr ⟨Bool.eq_false_iff.mp hsends, Bool.eq_false_iff.mp hreceives⟩
    · exact (hexec.trans (if_pos hreason)).trans (congrArg Host.Outcome.next (if_pos hrefills))
  · exact (exec_isolate h).trans (if_pos hself)
  · exact (exec_isolate h).trans (if_neg hother)
  · show execRelease s = _
    rw [execRelease, h]
    rfl
  · show execLeave s = _
    rw [execLeave, h]
    rfl

end Sys2Proof.Machine

/-! PROOFS, family 01_stitch: the time base, and stretch and period messages with their changes. -/

namespace Sys2Proof.Machine

/-- Two changes of the stitch unit that agree on it as it stands. -/
theorem onStu_congr {s : State} {f g : Stu → Stu} (h : f s.stu = g s.stu) : s.onStu f = s.onStu g := by
  rw [State.onStu, h]
  rfl

theorem onStu_onStu (s : State) (f g : Stu → Stu) : (s.onStu f).onStu g = s.onStu fun u => g (f u) := rfl

/-- Settles O2: with no command waiting a step is a tick, and inside a stitch a tick is one cycle. -/
theorem idleStepTicks : Obligations.IdleStepTicks := by
  intro s hidle hinside
  have hstep : step s = .next (tick s) := by rw [step, hidle]
  rw [hstep, tick, if_pos hinside]

/-! Roles and trees (Tables 1-2, 8-11). -/

theorem follows_iff {s : State} : follows s = true ↔ role s = 1 ∨ role s = 3 := by simp [follows]

theorem leads_iff {s : State} : leads s = true ↔ role s = 0 ∨ role s = 2 := by simp [leads]

theorem follows_of_role {s : State} (h : role s = 1 ∨ role s = 3) : follows s = true := follows_iff.mpr h

theorem not_follows_of_leads {s : State} (h : role s = 0 ∨ role s = 2) : follows s = false := by
  refine Bool.eq_false_iff.mpr fun hf => ?_
  have := follows_iff.mp hf
  omega

theorem not_leads_of_follows {s : State} (h : role s = 1 ∨ role s = 3) : leads s = false := by
  refine Bool.eq_false_iff.mpr fun hl => ?_
  have := leads_iff.mp hl
  omega

theorem downTree_of_follows {s : State} (h : role s = 1 ∨ role s = 3) : downTree s = s.stu.tree :=
  if_neg (by omega)

/-- A port is a child of the primary tree where its bit of the tree register is set. -/
theorem mem_primaryChildren {s : State} {p : PortId} :
    p.val ∈ treeChildren s false ↔ s.sea.tree.getLsbD (4 + p.val) = true := by
  have hbit : (fld s.sea.tree 19 4).testBit p.val = s.sea.tree.getLsbD (4 + p.val) := by
    rw [fld, Nat.testBit_mod_two_pow, Nat.testBit_shiftRight, BitVec.testBit_toNat, decide_eq_true (by omega), Bool.true_and]
  simp [treeChildren, allPorts, hbit]

/-! STRETCH_REQ, STRETCH_ANN and PERIOD_ANN (R18, R34). -/

section
variable {s : State} (hmode : s.flt.mode ≠ 2)
include hmode

theorem exec_stretchReq {p : PortId} (hchild : s.sea.tree.getLsbD (4 + p.val) = true) (k : BitVec 6) (r : BitVec 4) :
    exec (.stretchReq p k r) s = .next (updateSubtree (s.onStu fun u => { u with
      childFactors := Tab.put u.childFactors p.val k, childReasons := Tab.put u.childReasons p.val r })) :=
  if_neg (by simp [stitchStops_of_serving hmode, mem_primaryChildren.mpr hchild])

theorem exec_stretchAnn (hrole : role s = 1 ∨ role s = 3) (p : PortId) (k : BitVec 6) (apply : Stitch) :
    exec (.stretchAnn p k apply) s =
      .next (sendDown s.stu.tree (.stretchAnn k apply) (announce { kind := .stretch k, apply := apply } s)) := by
  rw [← downTree_of_follows hrole]
  exact if_neg (by simp [stitchStops_of_serving hmode, follows_of_role hrole])

theorem exec_periodAnn (hrole : role s = 1 ∨ role s = 3) (p : PortId) (units : BitVec 24) (apply : Stitch) :
    exec (.periodAnn p units apply) s =
      .next (sendDown s.stu.tree (.periodAnn units apply) (announce { kind := .period units, apply := apply } s)) := by
  rw [← downTree_of_follows hrole]
  exact if_neg (by simp [stitchStops_of_serving hmode, follows_of_role hrole])

end

/-! The queue of announcements (R34). -/

theorem announce_full {s : State} (a : Announcement) (h : 8 ≤ s.stu.queue.length) : announce a s = s := if_pos h

/-- An announcement stands behind those that apply no later than it. -/
theorem announce_joins {s : State} (a : Announcement) (h : s.stu.queue.length < 8) : announce a s = s.onStu fun u => { u with
    queue := s.stu.queue.takeWhile (fun b => !before a.apply b.apply) ++
      a :: s.stu.queue.dropWhile fun b => !before a.apply b.apply } := by
  rw [announce, if_neg (by omega), List.span_eq_takeWhile_dropWhile]

theorem announce_empty {s : State} (a : Announcement) (h : s.stu.queue = []) :
    announce a s = s.onStu fun u => { u with queue := [a] } := by
  rw [announce_joins a (by simp [h]), h]
  rfl

/-- Where an announcement joins the queue. -/
theorem announce_place {s : State} (a : Announcement) (h : s.stu.queue.length < 8) : ∃ early late, s.stu.queue = early ++ late ∧
    announce a s = s.onStu (fun u => { u with queue := early ++ a :: late }) ∧
    (∀ b ∈ early, before a.apply b.apply = false) ∧ ∀ b ∈ late.head?, before a.apply b.apply = true := by
  refine ⟨_, _, List.takeWhile_append_dropWhile.symm, announce_joins a h, fun b hb => ?_, fun b hb => ?_⟩
  · simpa using List.mem_takeWhile_imp hb
  · have hfirst := List.head?_dropWhile_not (fun b : Announcement => !before a.apply b.apply) s.stu.queue
    rw [Option.mem_def.mp hb] at hfirst
    simpa using hfirst

theorem announce_ctrl (a : Announcement) (s : State) : (announce a s).stu.ctrl = s.stu.ctrl := by
  unfold announce
  split <;> rfl

/-! Changes that are due (R31, R36). -/

/-- The announcement at the head of the queue applies in this stitch. -/
theorem dueHead_of_due {s : State} {a : Announcement} {rest : List Announcement} (hmode : s.flt.mode ≠ 2) (hpos : s.stu.pos < 96)
    (hcounts : s.stu.counting = true) (hqueue : s.stu.queue = a :: rest) (hdue : before s.stu.stitch a.apply = false) :
    dueHead s = some a := by
  rw [dueHead, hqueue]
  exact if_pos (by simp [inMaintenance, stitchStops_of_serving hmode, hpos, hcounts, hdue])

theorem exec_stretchChange {s : State} {k : BitVec 6} {apply : Stitch} {rest : List Announcement}
    (hqueue : s.stu.queue = { kind := .stretch k, apply := apply } :: rest)
    (hdue : dueHead s = some { kind := .stretch k, apply := apply }) :
    exec .stretchChange s = .next (announceAfter (applyStretch k (s.onStu fun u => { u with queue := rest }))) := by
  change execStretchChange s = _
  rw [execStretchChange, hdue]
  exact congrArg (fun t => Host.Outcome.next (announceAfter (applyStretch k t))) (onStu_congr (by rw [hqueue]; rfl))

theorem exec_periodChange {s : State} {units : BitVec 24} {apply : Stitch} {rest : List Announcement}
    (hqueue : s.stu.queue = { kind := .period units, apply := apply } :: rest)
    (hdue : dueHead s = some { kind := .period units, apply := apply }) :
    exec .periodChange s = .next (announceAfter (applyPeriod units (s.onStu fun u => { u with queue := rest }))) := by
  change execPeriodChange s = _
  rw [execPeriodChange, hdue]
  exact congrArg (fun t => Host.Outcome.next (announceAfter (applyPeriod units t))) (onStu_congr (by rw [hqueue]; rfl))

/-- A change tells the contexts unless it changes nothing. -/
theorem announceAfter_told {α : Type} [DecidableEq α] (old new : α) (t u : State) :
    announceAfter (if old = new then t else u) = if new = old then announceAfter t else announceAfter u := by
  simp only [eq_comm (a := old), apply_ite announceAfter]

/-! What the leader announces (R34, R35). -/

theorem announceAfter_sent {s : State} (h : s.stu.annSent = true ∨ role s = 1 ∨ role s = 3) : announceAfter s = s := by
  rcases h with hsent | hrole
  · exact if_pos (by simp [hsent])
  · unfold announceAfter
    split
    · rfl
    · exact if_pos (by simp [not_leads_of_follows hrole])

/-- A standalone device announces its new factor, which is no lower than the one in force. -/
theorem announceAfter_standalone {s : State} (hmode : s.flt.mode ≠ 2) (hsent : s.stu.annSent = false) (hrole : role s = 0)
    (hnew : s.stu.subtreeFactor ≠ s.stu.lastAnnounced) (hraised : s.stu.curFactor.toNat ≤ s.stu.subtreeFactor.toNat)
    (hroom : s.stu.queue.length < 8) : announceAfter s =
      (announce { kind := .stretch s.stu.subtreeFactor, apply := s.stu.stitch + 8 } s).onStu fun u => { u with
        annSent := true, stretchSent := true, lastAnnounced := s.stu.subtreeFactor } := by
  have hleads : leads s = true := leads_iff.mpr (.inl hrole)
  have hlower : ¬ s.stu.subtreeFactor.toNat < s.stu.curFactor.toNat := by omega
  have hstays : ∀ f : Stu → Stu, (∀ u, (f u).ctrl = u.ctrl) →
      role ((announce { kind := .stretch s.stu.subtreeFactor, apply := s.stu.stitch + 8 } s).onStu f) ≠ 2 := fun f hf => by
    rw [role, State.onStu_stu, hf, announce_ctrl, ← role, hrole]
    decide
  rw [announceAfter, if_neg (by simp [hsent, stitchStops_of_serving hmode]), leaderAnnounce, if_neg (by simp [hleads])]
  dsimp only
  rw [if_pos ⟨hnew, by simp [hlower], hroom⟩]
  exact if_neg (hstays _ fun _ => rfl)

/-- Settles O26: each message by what it queues and sends, each change by its due head, an announcement by its place. -/
theorem stretchAndPeriodMessages : Obligations.StretchAndPeriodMessages := by
  refine ⟨fun s p hmode => ⟨fun k r hchild => exec_stretchReq hmode hchild k r, fun hrole apply =>
      ⟨fun k => exec_stretchAnn hmode hrole p k apply, fun units => exec_periodAnn hmode hrole p units apply⟩,
      fun hpos hcounts apply rest hdue => ⟨fun k hqueue => ?_, fun units hqueue => ?_⟩⟩,
    fun s a => ⟨announce_full a, announce_place a⟩,
    fun s hmode => ⟨announceAfter_sent, fun hsent hrole hnew hraised hroom =>
      announceAfter_standalone hmode hsent hrole hnew hraised hroom⟩⟩
  · rw [exec_stretchChange hqueue (dueHead_of_due hmode hpos hcounts hqueue hdue)]
    exact congrArg Host.Outcome.next (announceAfter_told ..)
  · rw [exec_periodChange hqueue (dueHead_of_due hmode hpos hcounts hqueue hdue)]
    exact congrArg Host.Outcome.next (announceAfter_told ..)

end Sys2Proof.Machine

/-! PROOFS, family 01_stitch: the registers of the stitch unit. -/

namespace Sys2Proof.Machine

/-! Words that hold one field. -/

section
variable {n lo : Nat} (x : BitVec n)

theorem getLsbD_fieldWord (hfits : lo + n ≤ 64) (i : Nat) :
    (x.setWidth 64 <<< lo).getLsbD i = (decide (lo ≤ i) && x.getLsbD (i - lo)) := by
  rw [BitVec.getLsbD_shiftLeft, BitVec.getLsbD_setWidth]
  by_cases hi : i < lo + n
  · by_cases hlo : lo ≤ i
    · simp [show i < 64 by omega, show i - lo < 64 by omega, hlo, Nat.not_lt.mpr hlo]
    · simp [hlo, Nat.not_le.mp hlo]
  · simp [BitVec.getLsbD_of_ge x (i - lo) (by omega)]

/-- A word of one field has no bit under a mask that leaves the field out. -/
theorem fieldWord_and {m : W64} {hi : Nat} (hfield : hi + 1 = lo + n) (hfits : hi < 64) (hm : mask64 hi lo &&& m = 0) :
    (x.setWidth 64 <<< lo) &&& m = 0 := by
  refine BitVec.eq_of_getLsbD_eq fun i hi64 => ?_
  have hbit : ((mask64 hi lo).getLsbD i && m.getLsbD i) = false := by
    rw [← BitVec.getLsbD_and, hm]
    exact BitVec.getLsbD_zero
  refine Eq.trans ?_ BitVec.getLsbD_zero.symm
  rw [BitVec.getLsbD_and, getLsbD_fieldWord x (by omega)]
  by_cases hin : i ≤ hi
  · by_cases hlo : lo ≤ i
    · rw [getLsbD_mask64] at hbit
      simp only [hlo, hin, hi64, decide_true, Bool.true_and] at hbit
      rw [hbit, Bool.and_false]
    · simp [hlo]
  · simp [BitVec.getLsbD_of_ge x (i - lo) (by omega)]

theorem fld_fieldWord {hi : Nat} (hfield : hi + 1 = lo + n) (hfits : hi < 64) : fld (x.setWidth 64 <<< lo) hi lo = x.toNat := by
  refine Nat.eq_of_testBit_eq fun i => ?_
  rw [fld, Nat.testBit_mod_two_pow, Nat.testBit_shiftRight, BitVec.testBit_toNat, getLsbD_fieldWord x (by omega),
    BitVec.testBit_toNat, Nat.add_sub_cancel_left]
  by_cases hin : i < n
  · simp [show i < hi + 1 - lo by omega]
  · simp [BitVec.getLsbD_of_ge x i (by omega)]

end

/-! STU_ENABLE (R421, Table 1-2). -/

/-- STU_CTRL with a group, ENABLE and a role. -/
def stuWord (g : BitVec 16) (r : BitVec 2) : W64 := (g.setWidth 64 <<< 16) ||| 4 ||| r.setWidth 64

section
variable (g : BitVec 16) (r : BitVec 2)

/-- What a mask finds in STU_CTRL's fields, where it leaves the group out. -/
theorem stuWord_and {m : W64} (hm : mask64 31 16 &&& m = 0) : stuWord g r &&& m = (4 &&& m) ||| (r.setWidth 64 &&& m) := by
  have hgroup := fieldWord_and (m := m) (lo := 16) g (hi := 31) rfl (by decide) hm
  rw [stuWord, BitVec.and_or_distrib_right, BitVec.and_or_distrib_right, hgroup]
  exact congrArg (· ||| _) BitVec.zero_or

theorem role_and {m : W64} (hm : mask64 1 0 &&& m = 0) : r.setWidth 64 &&& m = 0 := by
  simpa using fieldWord_and (m := m) (lo := 0) r (hi := 1) rfl (by decide) hm

theorem stuWord_reserved : stuWord g r &&& ~~~ (0xFFFF000F : W64) = 0 := by
  rw [stuWord_and g r (by decide), role_and r (by decide)]
  decide

theorem stuWord_kept : stuWord g r &&& 0xFFFF000F = stuWord g r := by
  have hbits := stuWord_reserved g r
  refine BitVec.eq_of_getLsbD_eq fun i hi => ?_
  have hbit := congrArg (·.getLsbD i) hbits
  simp only [BitVec.getLsbD_and, BitVec.getLsbD_not, hi, decide_true, Bool.true_and] at hbit ⊢
  revert hbit
  cases (stuWord g r).getLsbD i <;> simp

theorem stuWord_enable : bit (stuWord g r) 2 = true := by simp [bit, stuWord]

theorem stuWord_enabled : stuWord g r ||| 4 = stuWord g r := by
  rw [stuWord, BitVec.or_assoc, BitVec.or_comm (r.setWidth 64) 4, ← BitVec.or_assoc, BitVec.or_assoc _ 4 4, BitVec.or_self]

theorem stuWord_role : fld (stuWord g r) 1 0 = r.toNat := by
  have hlow : fld (stuWord g r) 1 0 = fld (r.setWidth 64 : W64) 1 0 := fld_congr (by
    rw [stuWord_and g r (by decide)]
    exact BitVec.zero_or)
  rw [hlow]
  simpa using fld_fieldWord (lo := 0) r (hi := 1) rfl (by decide)

end

theorem enableChange_enables (s : State) : enableChange false true s =
    if follows s then s.onStu fun u => { u with acquiring := true, holdover := true, missed := 0, counting := false }
    else s.onStu fun u => { u with counting := false } := if_pos (by simp)

/-- A disabled, unlocked unit that is enabled starts its epoch again; a follower starts its acquisition. -/
theorem writeStuCtrl_enables {s : State} (hopen : bit s.stu.ctrl 3 = false) (hoff : bit s.stu.ctrl 2 = false) (g : BitVec 16)
    (r : BitVec 2) : writeStuCtrl (stuWord g r) s = s.onStu fun u =>
      let u := { u with
        ctrl := stuWord g r, epochHeld := false, epoch := 0, counting := false
        sendsAlt := u.sendsAlt && decide (r.toNat = fld u.ctrl 1 0) }
      if r = 1 ∨ r = 3 then { u with acquiring := true, holdover := true, missed := 0 } else u := by
  have hfollows (u : State) (hctrl : u.stu.ctrl = stuWord g r) : follows u = true ↔ r = 1 ∨ r = 3 := by
    simp only [follows_iff, role, hctrl, stuWord_role, ← BitVec.toNat_inj]
    exact Iff.rfl
  have hclean : ¬ stuWord g r &&& ~~~ (0xFFFF000F : W64) ≠ 0 := not_not.mpr (stuWord_reserved g r)
  unfold writeStuCtrl
  dsimp only
  rw [hopen, hoff, stuWord_enable, stuWord_kept, stuWord_role, if_neg Bool.false_ne_true, if_neg hclean, enableChange_enables]
  by_cases hr : r = 1 ∨ r = 3
  · rw [if_pos ((hfollows _ rfl).mpr hr), onStu_onStu]
    simp only [hr, if_true, Bool.beq_eq_decide_eq]
  · rw [if_neg (mt (hfollows _ rfl).mp hr), onStu_onStu]
    simp only [hr, if_false, Bool.beq_eq_decide_eq]

theorem exec_stuEnable {s : State} (htakes : TakesWrites s) (g : BitVec 16) (r : BitVec 2) :
    exec (.stuEnable (stuWord g r)) s = .next (writeStuCtrl (stuWord g r) s) := by
  refine congrArg Host.Outcome.next ((bar0Write_of_takes htakes _).trans ?_)
  rw [stuWord_enabled]

/-! STU_PERIOD_WRITE (R18, R35, R275). -/

theorem leastPeriod_bounds (s : State) : 32 ≤ leastPeriod s ∧ leastPeriod s ≤ 51 := by
  unfold leastPeriod
  split <;> decide

/-- While a context serves the least period is that of serving. -/
theorem leastPeriod_serving {s : State} (h : ∃ n : Ctx, bit (s.srvCtx n.val).cfg 63 = true) : leastPeriod s = 51 := by
  obtain ⟨n, hn⟩ := h
  exact if_pos (List.any_eq_true.mpr ⟨n.val, List.mem_range.mpr n.isLt, by simp [hn]⟩)

theorem periodWord_reserved (units : BitVec 24) : (units.setWidth 64 : W64) &&& mask64 61 48 = 0 := by
  simpa using fieldWord_and (m := mask64 61 48) (lo := 0) units (hi := 23) rfl (by decide) (by decide)

section
variable {s : State} {units : BitVec 24}

/-- A leader's write of a period: too short it is refused, else it is accepted. -/
theorem writeStuPeriod_leads (hrole : role s = 0 ∨ role s = 2) : writeStuPeriod (units.setWidth 64) s =
    if units.toNat < leastPeriod s then postWithdrawal 0 0x3F 0 units.toNat 0 s else acceptPeriod units s := by
  have hunits : (units.setWidth 64).setWidth 24 = units := by simp
  have hleads : ¬ follows s = true := Bool.eq_false_iff.mp (not_follows_of_leads hrole)
  unfold writeStuPeriod
  dsimp only
  rw [hunits, periodWord_reserved,
    if_neg (show ¬ ((0 : W64) ≠ 0 ∨ follows s = true ∧ units ≠ s.stu.periodUnits) by simp [hleads]),
    if_neg hleads]

/-- A follower takes no period: one other than that in force counts a violation. -/
theorem writeStuPeriod_follows (hrole : role s = 1 ∨ role s = 3) : writeStuPeriod (units.setWidth 64) s =
    if units = s.stu.periodUnits then s else violate 0 0x02 s := by
  have hunits : (units.setWidth 64).setWidth 24 = units := by simp
  have hfollows : follows s = true := follows_of_role hrole
  unfold writeStuPeriod
  dsimp only
  rw [hunits, periodWord_reserved]
  by_cases hsame : units = s.stu.periodUnits
  · rw [if_neg (show ¬ ((0 : W64) ≠ 0 ∨ follows s = true ∧ units ≠ s.stu.periodUnits) by simp [hsame]), if_pos hfollows,
      if_pos hsame]
  · rw [if_pos (show (0 : W64) ≠ 0 ∨ follows s = true ∧ units ≠ s.stu.periodUnits from .inr ⟨hfollows, hsame⟩),
      if_pos (show follows (violate 0 0x02 s) = true from hfollows), if_neg hsame]

theorem exec_stuPeriodWrite (htakes : TakesWrites s) :
    exec (.stuPeriodWrite (units.setWidth 64)) s = .next (writeStuPeriod (units.setWidth 64) s) :=
  congrArg Host.Outcome.next (bar0Write_of_takes htakes _)

theorem acceptPeriod_off (hoff : bit s.stu.ctrl 2 = false) :
    acceptPeriod units s = s.onStu fun u => { u with immediate := some units, held := none } := if_pos (by simp [hoff])

/-- A running unit with no period under way takes a new one: a standalone device announces it where the stitch has no
announcement yet, else it is held. -/
theorem acceptPeriod_running (hon : bit s.stu.ctrl 2 = true) (hqueue : s.stu.queue = []) (hnone : s.stu.immediate = none)
    (hnew : units ≠ s.stu.periodUnits) (hrole : role s = 0) : acceptPeriod units s =
      if s.stu.annSent = true then s.onStu fun u => { u with held := some units } else announcePeriod units s := by
  unfold acceptPeriod
  dsimp only
  rw [if_neg (by simp [hon]), hqueue, hnone]
  by_cases hsent : s.stu.annSent = true
  · rw [if_pos hsent]
    exact (if_neg hnew).trans (if_neg (by simp [hsent]))
  · rw [if_neg hsent]
    exact (if_neg hnew).trans (if_pos ⟨hrole, hsent, by decide, by simp [periodAnnounced, hqueue]⟩)

theorem announcePeriod_standalone (hqueue : s.stu.queue = []) (hrole : role s = 0) : announcePeriod units s =
    s.onStu fun u => { u with
      queue := [{ kind := .period units, apply := u.stitch + 8 }], annSent := true, held := none } := by
  have hstays (f : Stu → Stu) (hf : (f s.stu).ctrl = s.stu.ctrl) : ¬ role (s.onStu f) = 2 := by
    rw [role, State.onStu_stu, hf, ← role, hrole]
    decide
  rw [announcePeriod, announce_empty _ hqueue]
  exact if_neg (hstays _ rfl)

end

/-! SYS_FACTOR (R33, Table 1-5). -/

theorem writeStretchReq_factor (k : BitVec 6) (s : State) :
    writeStretchReq (k.setWidth 64 <<< 16) s = s.onStu fun u => { u with sysFactor := k } := by
  have hfactor : fld (k.setWidth 64 <<< 16 : W64) 21 16 = k.toNat := fld_fieldWord k rfl (by decide)
  have hclean : (k.setWidth 64 <<< 16 : W64) &&& (mask64 63 28 ||| mask64 23 22 ||| mask64 15 14 ||| mask64 7 6) = 0 :=
    fieldWord_and k (hi := 21) rfl (by decide) (by decide)
  unfold writeStretchReq
  dsimp only
  rw [hfactor, if_neg (not_not.mpr hclean), BitVec.ofNat_toNat, BitVec.setWidth_eq]

/-- Settles O27: STU_CTRL by its fields, a period by the role, the least period and what is under way, SYS_FACTOR by its bits. -/
theorem stitchUnitRegisters : Obligations.StitchUnitRegisters := by
  intro s htakes
  refine ⟨fun g r hopen hoff => ?_, fun units hrole => ?_, fun units hrole => ?_, fun k => ?_⟩
  · exact (exec_stuEnable htakes g r).trans (congrArg Host.Outcome.next (writeStuCtrl_enables hopen hoff g r))
  · have hbounds := leastPeriod_bounds s
    have hexec := (exec_stuPeriodWrite (units := units) htakes).trans (congrArg Host.Outcome.next (writeStuPeriod_leads hrole))
    have htaken (h51 : 51 ≤ units.toNat) : exec (.stuPeriodWrite (units.setWidth 64)) s = .next (acceptPeriod units s) :=
      hexec.trans (congrArg Host.Outcome.next (if_neg (by omega)))
    refine ⟨fun hshort => hexec.trans (congrArg Host.Outcome.next (if_pos ?_)),
      fun h51 hoff => (htaken h51).trans (congrArg Host.Outcome.next (acceptPeriod_off hoff)),
      fun h51 hon hstandalone hsent hqueue hnone hnew => ?_, fun h51 hon hstandalone hsent hqueue hnone hnew => ?_⟩
    · rcases hshort with hshort | ⟨hshort, hserving⟩
      · omega
      · rwa [leastPeriod_serving hserving]
    · rw [htaken h51, acceptPeriod_running hon hqueue hnone hnew hstandalone, if_neg (by simp [hsent]),
        announcePeriod_standalone hqueue hstandalone]
    · rw [htaken h51, acceptPeriod_running hon hqueue hnone hnew hstandalone, if_pos hsent]
  · exact (exec_stuPeriodWrite htakes).trans (congrArg Host.Outcome.next (writeStuPeriod_follows hrole))
  · exact congrArg Host.Outcome.next ((bar0Write_of_takes htakes _).trans (writeStretchReq_factor k s))

end Sys2Proof.Machine

/-! PROOFS, family 01_stitch: the start barrier. -/

namespace Sys2Proof.Machine

/-! Barriers held (R29). -/

/-- The barrier is the one of a tag and start stitch. -/
def barrierIs (tag : BitVec 16) (start : Stitch) (b : Barrier) : Bool := b.tag == tag && b.start == start

/-- A barrier of which nothing has come yet. -/
def newBarrier (tag : BitVec 16) (start : Stitch) : Barrier :=
  { tag := tag, start := start, own := none, children := [], sent := none, outcome := none }

/-- The barriers held after one of them is changed, or opened and changed. -/
def changedBarriers (tag : BitVec 16) (start : Stitch) (f : Barrier → Barrier) (l : List Barrier) : List Barrier :=
  match l.find? (barrierIs tag start) with
  | some _ => l.map fun b => if b.tag = tag ∧ b.start = start then f b else b
  | none => l ++ [f (newBarrier tag start)]

theorem onBarrier_eq (tag : BitVec 16) (start : Stitch) (f : Barrier → Barrier) (s : State) : onBarrier tag start f s =
    s.onStu fun u => { u with barriers := changedBarriers tag start f u.barriers } := by
  unfold onBarrier
  cases h : barrierOf s tag start with
  | some b => exact onStu_congr (by rw [changedBarriers, show s.stu.barriers.find? (barrierIs tag start) = some b from h])
  | none =>
    exact onStu_congr (by
      rw [changedBarriers, show s.stu.barriers.find? (barrierIs tag start) = none from h]
      rfl)

theorem barrierIs_iff {tag : BitVec 16} {start : Stitch} {b : Barrier} :
    barrierIs tag start b = true ↔ b.tag = tag ∧ b.start = start := by simp [barrierIs]

section
variable {tag : BitVec 16} {start : Stitch} {f : Barrier → Barrier} (hf : ∀ b, (f b).tag = b.tag ∧ (f b).start = b.start)
include hf

theorem find_map_barrier (tag' : BitVec 16) (start' : Stitch) (l : List Barrier) :
    (l.map fun b => if b.tag = tag ∧ b.start = start then f b else b).find? (barrierIs tag' start') =
      (l.find? (barrierIs tag' start')).map fun b => if b.tag = tag ∧ b.start = start then f b else b := by
  rw [List.find?_map]
  congr 2
  funext b
  simp only [Function.comp_apply, barrierIs]
  split
  · rw [(hf b).1, (hf b).2]
  · rfl

/-- The barrier that was changed. -/
theorem find_changedBarriers_same (l : List Barrier) : (changedBarriers tag start f l).find? (barrierIs tag start) =
    some (f ((l.find? (barrierIs tag start)).getD (newBarrier tag start))) := by
  unfold changedBarriers
  cases hfind : l.find? (barrierIs tag start) with
  | some b =>
    have hb : b.tag = tag ∧ b.start = start := barrierIs_iff.mp (List.find?_some hfind)
    simp only [find_map_barrier hf, hfind, Option.map_some, Option.getD_some, if_pos hb]
  | none =>
    have hnew : barrierIs tag start (f (newBarrier tag start)) = true :=
      barrierIs_iff.mpr ⟨(hf _).1, (hf _).2⟩
    simp only [List.find?_append, hfind, Option.none_or, List.find?_singleton, hnew, if_true, Option.getD_none]

/-- The barriers that were not. -/
theorem find_changedBarriers_other {tag' : BitVec 16} {start' : Stitch} (h : tag' ≠ tag ∨ start' ≠ start) (l : List Barrier) :
    (changedBarriers tag start f l).find? (barrierIs tag' start') = l.find? (barrierIs tag' start') := by
  have hother (b : Barrier) (hb : barrierIs tag' start' b = true) : ¬ (b.tag = tag ∧ b.start = start) := by
    obtain ⟨rfl, rfl⟩ := barrierIs_iff.mp hb
    exact fun hsame => h.elim (· hsame.1) (· hsame.2)
  unfold changedBarriers
  split
  · rw [find_map_barrier hf]
    cases hfind : l.find? (barrierIs tag' start') with
    | some b => rw [Option.map_some, if_neg (hother b (List.find?_some hfind))]
    | none => rfl
  · have hnew : barrierIs tag' start' (f (newBarrier tag start)) = false :=
      Bool.eq_false_iff.mpr fun hb => hother _ hb ⟨(hf _).1, (hf _).2⟩
    simp only [List.find?_append, List.find?_singleton, hnew, Bool.false_eq_true, if_false, Option.or_none]

end

/-! READY (R29). -/

theorem queueVc0_onStu (m : Nat) (q : QueuedMsg) (f : Stu → Stu) (s : State) :
    queueVc0 m q (s.onStu f) = (queueVc0 m q s).onStu f := by
  have hport : (s.onStu f).port m = s.port m := rfl
  unfold queueVc0
  rw [hport]
  split <;> rfl

/-- A message goes up by the ports, whatever the stitch unit holds. -/
theorem sendUp_onStu (msg : Vc0Msg) (f : Stu → Stu) (s : State) : sendUp msg (s.onStu f) = (sendUp msg s).onStu f := by
  have hparent : treeParent (s.onStu f) false = treeParent s false := rfl
  unfold sendUp
  rw [hparent]
  split
  · exact queueVc0_onStu ..
  · rfl

/-- A barrier's child count is the last that came. -/
def takeCount (c : ChildCount) (b : Barrier) : Barrier :=
  { b with children := (b.children.filter fun x => x.port != c.port) ++ [c] }

/-- The counts last sent up. -/
def sentCount (x : BitVec 16 × BitVec 16) (b : Barrier) : Barrier := { b with sent := some x }

/-- The READY of a tag and start stitch with summed counts. -/
def readyUp (tag : BitVec 16) (start : Stitch) (sum : BitVec 16 × BitVec 16) : Vc0Msg :=
  .ready { tag := tag, start := start, expected := sum.1, count := sum.2 }

/-- A child's count of a barrier, held; a changed aggregate goes up. -/
theorem ready_counts (tag : BitVec 16) (start : Stitch) (c : ChildCount) (s : State) :
    let old := (barrierOf s tag start).getD (newBarrier tag start)
    let sum := barrierSum (takeCount c old)
    ∃ l, pushReady tag start (onBarrier tag start (takeCount c) s) =
        (if old.sent = some sum then s else sendUp (readyUp tag start sum) s).onStu (fun u => { u with barriers := l }) ∧
      l.find? (barrierIs tag start) = some (sentCount sum (takeCount c old)) ∧
      ∀ tag' start', tag' ≠ tag ∨ start' ≠ start → l.find? (barrierIs tag' start') = barrierOf s tag' start' := by
  intro old sum
  have htake : ∀ b, (takeCount c b).tag = b.tag ∧ (takeCount c b).start = b.start := fun _ => ⟨rfl, rfl⟩
  have hsent : ∀ b, (sentCount sum b).tag = b.tag ∧ (sentCount sum b).start = b.start := fun _ => ⟨rfl, rfl⟩
  let taken := changedBarriers tag start (takeCount c) s.stu.barriers
  have hfound : taken.find? (barrierIs tag start) = some (takeCount c old) := find_changedBarriers_same htake _
  have hstate : onBarrier tag start (takeCount c) s = s.onStu fun u => { u with barriers := taken } :=
    (onBarrier_eq ..).trans (onStu_congr rfl)
  have hpush : pushReady tag start (onBarrier tag start (takeCount c) s) =
      if old.sent = some sum then s.onStu fun u => { u with barriers := taken }
      else onBarrier tag start (sentCount sum) (sendUp (readyUp tag start sum) (s.onStu fun u => { u with barriers := taken })) := by
    have hof : barrierOf (s.onStu fun u => { u with barriers := taken }) tag start = some (takeCount c old) := hfound
    rw [hstate, pushReady, hof]
    rfl
  by_cases hsame : old.sent = some sum
  · refine ⟨taken, by rw [hpush, if_pos hsame, if_pos hsame], ?_, fun tag' start' h => find_changedBarriers_other htake h _⟩
    rw [hfound]
    exact congrArg some (by rw [sentCount, ← hsame]; rfl)
  · refine ⟨changedBarriers tag start (sentCount sum) taken, ?_, ?_, fun tag' start' h =>
      (find_changedBarriers_other hsent h _).trans (find_changedBarriers_other htake h _)⟩
    · rw [hpush, if_neg hsame, if_neg hsame, sendUp_onStu, onBarrier_eq]
      rfl
    · rw [find_changedBarriers_same hsent, hfound]
      rfl

section
variable {s : State} (hmode : s.flt.mode ≠ 2)
include hmode

theorem exec_ready {p : PortId} {m : ReadyMsg} (hchild : s.sea.tree.getLsbD (4 + p.val) = true)
    (hearly : before s.stu.stitch m.start = true)
    (hroom : (barrierOf s m.tag m.start).isSome ∨ s.stu.barriers.length < 16) : exec (.ready p m) s =
      .next (pushReady m.tag m.start (onBarrier m.tag m.start
        (takeCount { port := p, expected := m.expected, count := m.count }) s)) := by
  refine if_neg ?_
  rcases hroom with hknown | hfew
  · simp [stitchStops_of_serving hmode, mem_primaryChildren.mpr hchild, hearly, hknown]
  · simp [stitchStops_of_serving hmode, mem_primaryChildren.mpr hchild, hearly, Nat.not_le.mpr hfew]

omit hmode in
theorem exec_ready_discarded {p : PortId} {m : ReadyMsg} (h : before s.stu.stitch m.start = false ∨
    ((barrierOf s m.tag m.start).isNone ∧ 16 ≤ s.stu.barriers.length)) : exec (.ready p m) s = .next s := by
  refine if_pos ?_
  rcases h with hlate | ⟨hunknown, hfull⟩
  · simp [hlate]
  · simp [Option.isNone_iff_eq_none.mp hunknown, hfull]

/-! GO and MISS (R30). -/

theorem exec_go (hrole : role s = 1 ∨ role s = 3) (p : PortId) (tag : BitVec 16) {start : Stitch}
    (hearly : before s.stu.stitch start = true) : exec (.go p tag start) s = .next (barrierOutcome tag start true s) :=
  if_neg (by simp [stitchStops_of_serving hmode, follows_of_role hrole, hearly])

theorem exec_miss (hrole : role s = 1 ∨ role s = 3) (p : PortId) (tag : BitVec 16) {start : Stitch}
    (hearly : before s.stu.stitch start = true) : exec (.miss p tag start) s = .next (barrierOutcome tag start false s) :=
  if_neg (by simp [stitchStops_of_serving hmode, follows_of_role hrole, hearly])

/-! The decision and the timeout (R30). -/

theorem exec_barrierCheck (hpos : s.stu.pos < 96) (hrole : role s = 0 ∨ role s = 2) : exec .barrierCheck s =
    .next (s.each (s.stu.barriers.filter fun b => b.start == s.stu.stitch + 8) fun u b =>
      barrierOutcome b.tag b.start (barrierMet b) u) :=
  if_neg (by simp [stitchStops_of_serving hmode, leads_iff.mpr hrole, inMaintenance, hpos])

theorem exec_barrierTimeout (hpos : s.stu.pos < 96) : exec .barrierTimeout s = .next (expireBarriers s) :=
  if_neg (by simp [stitchStops_of_serving hmode, inMaintenance, hpos])

end

theorem exec_outcome_late {s : State} {start : Stitch} (hlate : before s.stu.stitch start = false) (p : PortId) (tag : BitVec 16) :
    exec (.go p tag start) s = .next s ∧ exec (.miss p tag start) s = .next s :=
  ⟨if_pos (by simp [hlate]), if_pos (by simp [hlate])⟩

theorem barrierMet_eq (b : Barrier) :
    barrierMet b = decide ((barrierSum b).1 = (barrierSum b).2 ∧ (barrierSum b).1 ≠ 0) := by
  simp only [barrierMet, Bool.decide_and, bne, Bool.beq_eq_decide_eq, decide_not]

/-- Settles O28: READY by the counts it leaves, GO and MISS by their outcome, the decision by the counts summed. -/
theorem startBarrier : Obligations.StartBarrier := by
  intro s hmode down outcome
  refine ⟨fun p m => ⟨fun hchild hearly hroom => ?_, exec_ready_discarded⟩,
    fun p tag start hrole => ⟨fun hearly => ⟨exec_go hmode hrole p tag hearly, exec_miss hmode hrole p tag hearly⟩,
      fun hlate => exec_outcome_late hlate p tag⟩,
    fun hpos => ⟨fun hrole => ?_, exec_barrierTimeout hmode hpos⟩⟩
  · obtain ⟨l, hstate, hmine, hothers⟩ := ready_counts m.tag m.start { port := p, expected := m.expected, count := m.count } s
    refine ⟨_, exec_ready hmode hchild hearly hroom, ?_⟩
    rw [hstate]
    exact ⟨hmine, hothers, rfl⟩
  · rw [exec_barrierCheck hmode hpos hrole]
    simp only [barrierMet_eq]
    rfl

end Sys2Proof.Machine

/-! PROOFS, family 01_stitch: the boundary, the period that waits for it, and the phase ledger. -/

namespace Sys2Proof.Machine

/-! What withdrawals and events leave alone. -/

/-- What a change of the period sets, and the flags of faults and resets. -/
def periodView (s : State) : BitVec 24 × BitVec 6 × Nat × Option (BitVec 24) × Flt :=
  (s.stu.periodUnits, s.stu.curFactor, s.stu.length, s.stu.immediate, s.flt)

theorem periodView_post (n type : Nat) (body : List (Nat × List Byte)) (s : State) :
    periodView (post n type body s) = periodView s := by
  unfold post
  dsimp only
  split
  · rfl
  · split <;> rfl

theorem periodView_withdrawNow (reason d0 d1 : Nat) (e : ArmEntry) (s : State) :
    periodView (withdrawNow reason d0 d1 e s) = periodView s := by
  refine (periodView_post ..).trans ?_
  change periodView (undispatch e s) = _
  unfold undispatch
  split <;> rfl

theorem periodView_budgetCheck (s : State) : periodView (budgetCheck s) = periodView s := by
  refine each_unchanged _ (fun u e => ?_) _ s
  split
  · split
    · exact periodView_withdrawNow ..
    · rfl
  · rfl

theorem periodView_rebuildFrom (entries kept : List ArmEntry) (s : State) :
    periodView (rebuildFrom entries kept s) = periodView s := by
  induction entries generalizing kept s with
  | nil => rfl
  | cons e rest ih =>
    rw [rebuildFrom]
    split
    · exact ih kept s
    · split
      · exact (ih kept _).trans (periodView_withdrawNow ..)
      · exact ih _ s

theorem periodView_stretchEvent (k : BitVec 6) (units : BitVec 24) (s : State) :
    periodView (stretchEvent k units s) = periodView s :=
  each_unchanged _ (fun _ _ => periodView_post ..) _ s

/-- A period takes effect with the length of its stitch; nothing else of the view changes. -/
theorem periodView_applyPeriod (units : BitVec 24) (s : State) : periodView (applyPeriod units s) =
    (units, s.stu.curFactor, 4 * units.toNat * s.stu.curFactor.toNat, s.stu.immediate, s.flt) := by
  have hledger : periodView (rebuildLedger (budgetCheck (relength (s.onStu fun u => { u with periodUnits := units })))) =
      (units, s.stu.curFactor, 4 * units.toNat * s.stu.curFactor.toNat, s.stu.immediate, s.flt) :=
    (periodView_rebuildFrom ..).trans (periodView_budgetCheck _)
  unfold applyPeriod
  dsimp only
  split
  · exact hledger
  · exact (periodView_stretchEvent ..).trans hledger

/-! A period written while the unit was disabled (R18, R420). -/

theorem applyImmediate_none {s : State} (h : s.stu.immediate = none) : applyImmediate s = s := by
  rw [applyImmediate, h]

theorem applyImmediate_some {s : State} {units : BitVec 24} (h : s.stu.immediate = some units) :
    applyImmediate s = applyPeriod units (s.onStu fun x => { x with immediate := none }) := by
  rw [applyImmediate, h]

theorem periodView_applyImmediate {s : State} {units : BitVec 24} (h : s.stu.immediate = some units) :
    periodView (applyImmediate s) = (units, s.stu.curFactor, 4 * units.toNat * s.stu.curFactor.toNat, none, s.flt) := by
  rw [applyImmediate_some h, periodView_applyPeriod]
  rfl

theorem flt_applyImmediate (s : State) : (applyImmediate s).flt = s.flt := by
  cases h : s.stu.immediate with
  | none => rw [applyImmediate_none h]
  | some units => exact congrArg (·.2.2.2.2) (periodView_applyImmediate h)

/-! STITCH_BOUNDARY (R14, R20, R23, R71). -/

/-- Charging a stitch changes the open records and what the contexts ran, nothing else. -/
theorem chargePhases_eq (s : State) : ∃ phase ran,
    chargePhases s = s.onStu fun u => { u with phase := phase, pleatRan := ran } := by
  have hcharged (l : List Nat) (u : State) : ∃ phase,
      (u.each l fun u n => u.onStu fun x => { x with phase := vMod x.phase n (chargePhase u n) }) =
        u.onStu fun x => { x with phase := phase } := by
    induction l generalizing u with
    | nil => exact ⟨u.stu.phase, rfl⟩
    | cons n l ih => exact ih (u.onStu fun x => { x with phase := vMod x.phase n (chargePhase u n) })
  obtain ⟨phase, hphase⟩ := hcharged (liveContexts s) s
  refine ⟨phase, bitsOf 16 ((liveContexts s).filter (ranPleat s)), ?_⟩
  unfold chargePhases
  dsimp only
  rw [hphase]
  rfl

/-- What a stitch that ends is charged and counted changes neither its time nor what its markers set. -/
theorem countReasons_chargePhases (s : State) : ∃ panels phase ran hot ok, countReasons (chargePhases s) =
    (s.onThm fun t => { t with panels := panels }).onStu fun u =>
      { u with phase := phase, pleatRan := ran, hbmHot := hot, supplyOk := ok } := by
  obtain ⟨phase, ran, hcharged⟩ := chargePhases_eq s
  let counted := countReasons (s.onStu fun u => { u with phase := phase, pleatRan := ran })
  refine ⟨counted.thm.panels, phase, ran, counted.stu.hbmHot, counted.stu.supplyOk, ?_⟩
  rw [hcharged]
  rfl

/-- The state in which a new stitch opens: the old one ended, its counters advanced, with the length in force. -/
def stitchEnded (s : State) : State := relength (advance (closeTime (countReasons (chargePhases s))))

/-- The new stitch with the contexts' ages and a period that waited for it. -/
def stitchOpened (s : State) : State :=
  applyImmediate (if (stitchEnded s).stu.counting then ageContexts (stitchEnded s) else stitchEnded s)

theorem flt_stitchOpened (s : State) : (stitchOpened s).flt = s.flt := by
  obtain ⟨panels, phase, ran, hot, ok, hcounted⟩ := countReasons_chargePhases s
  have hended : (stitchEnded s).flt = s.flt := by
    rw [stitchEnded, hcounted]
    rfl
  refine (flt_applyImmediate _).trans ?_
  split
  · exact hended
  · exact hended

theorem exec_stitchBoundary {s : State} (hphase : s.flt.phase ≠ .powerOn) :
    let served := if s.flt.resetting = true ∨ s.flt.mode = 2 then boundaryHeld (stitchOpened s) else boundaryService (stitchOpened s)
    exec .stitchBoundary s = .next (logSeconds (panelClocks (if served.flt.mode = 2 then served else boundaryMessages served))) := by
  have hopened : applyImmediate (relength (if (advance (closeTime (countReasons (chargePhases s)))).stu.counting then
      ageContexts (advance (closeTime (countReasons (chargePhases s)))) else advance (closeTime (countReasons (chargePhases s))))) =
      stitchOpened s := congrArg applyImmediate (apply_ite relength ..)
  have hservice : outOfService (stitchOpened s) = true ↔ s.flt.resetting = true ∨ s.flt.mode = 2 := by
    simp [outOfService, flt_stitchOpened]
  have hstops (u : State) : stitchStops u = true ↔ u.flt.mode = 2 := by simp [stitchStops]
  refine (if_neg hphase).trans ?_
  rw [hopened]
  simp only [hservice, hstops]

/-! PHASE_LEDGER_RECORD (R45). -/

theorem exec_phaseLedgerRecord {s : State} {n : Ctx} (hserves : (s.ctx n.val).serving = true)
    (hdefined : (s.ctx n.val).state ≠ .free)
    (hfull : 65536 ≤ s.stu.phase[n].stitchCount.toNat) : exec (.phaseLedgerRecord n) s = .next (closePhase n.val s) :=
  if_pos ⟨hserves, by simp [ctxDefined, hdefined], by rwa [vAt_of_lt _ _ n.isLt]⟩

/-- A record that closes: with the context's ring on it is written there, with its event. -/
theorem closePhase_eq (n : Ctx) (s : State) :
    let t := closeSteps n.val s.stu.phase[n].step s
    let e := t.stu.ledgerNext[n].toNat % 2 ^ ledgerLog2 t.stu.ledgerCfg[n]
    closePhase n.val s = if bit t.stu.ledgerCfg[n] 4 = false then t.onStu fun u => { u with phase := u.phase.set n {} }
      else post n.val 0x05 [(16, leBytes 2 e), (24, leBytes 8 s.stu.phase[n].step.toNat)]
        ((t.setHostMem (Mem.write t.hostMem (fld t.stu.ledgerBase[n] 63 12 * 4096 + 640 * e)
          (phaseBytes t n.val s.stu.phase[n]))).onStu fun u =>
            { u with phase := u.phase.set n {}, ledgerNext := u.ledgerNext.set n (u.ledgerNext[n] + 1) }) := by
  have hat {α : Type} (v : Vector α 16) (d : α) : vAt v n.val d = v[n] := vAt_of_lt _ _ n.isLt
  simp only [closePhase, hat, vMod_fin, Bool.not_eq_true]
  rfl

/-- Settles O29: the boundary by what it ends and opens, a waiting period by what it sets, a full record by its ring. -/
theorem boundaryAndPhaseRecord : Obligations.BoundaryAndPhaseRecord := by
  refine ⟨fun s => ⟨fun hpower => if_pos hpower, fun hphase => ?_⟩,
    fun s => ⟨applyImmediate_none, fun units h => ?_⟩, fun s n hserves hdefined hfull => ?_⟩
  · intro u ps rest on follower ended opened served
    have hended : stitchEnded s = ended := by
      obtain ⟨panels, phase, ran, hot, ok, hcounted⟩ := countReasons_chargePhases s
      have hfollower (v : State) : (counts v && follows v && v.stu.counting) =
          (counts v && v.stu.counting && decide (role v = 1 ∨ role v = 3)) := by
        rw [Bool.and_assoc, Bool.and_comm (follows v), ← Bool.and_assoc]
        exact congrArg _ (Bool.eq_iff_iff.mpr (follows_iff.trans decide_eq_true_iff.symm))
      simp only [ended, u, stitchEnded, advance, hfollower, hcounted]
      rfl
    have hopened : stitchOpened s = opened := by
      rw [stitchOpened, hended]
      rfl
    have hexec := exec_stitchBoundary hphase
    rw [hopened] at hexec
    exact hexec
  · have hview := periodView_applyImmediate h
    exact ⟨congrArg (·.1) hview, congrArg (·.2.2.2.1) hview, congrArg (·.2.2.1) hview⟩
  · exact (exec_phaseLedgerRecord hserves hdefined hfull).trans (congrArg Host.Outcome.next (closePhase_eq n s))

end Sys2Proof.Machine

/-! PROOFS, family 01_stitch: the reasons of a stretch request. -/

namespace Sys2Proof.Machine

/-! Thermal reasons (R33, R407). -/

section
variable {s : State} {p : Panel}

/-- The state with a panel's clock and thermal state replaced. -/
theorem onThm_panel (f : PanelClock → PanelClock) : (s.onThm fun t => { t with panels := vMod t.panels p.val f }) =
    s.onThm fun t => { t with panels := t.panels.set p (f s.thm.panels[p]) } := by
  simp only [State.onThm, vMod_fin]

theorem exec_thermalStepUp_panel (hhot : 256 ≤ s.thm.panels[p].hot) (hraised : 16 < s.thm.panels[p].targetK) :
    exec (.thermalStepUp (.panel p)) s = .next (s.onThm fun t => { t with
      panels := t.panels.set p { s.thm.panels[p] with targetK := min 32 (s.thm.panels[p].targetK + 2), hot := 0 } }) := by
  have hpanel : vAt s.thm.panels p.val {} = s.thm.panels[p] := vAt_of_lt _ _ p.isLt
  refine (if_pos ?_).trans (congrArg Host.Outcome.next (onThm_panel fun x => { x with targetK := stepUp x.targetK, hot := 0 }))
  rw [hpanel]
  exact ⟨hhot, hraised⟩

theorem exec_thermalStepUp_hbm (hhot : 256 ≤ s.stu.hbmHot) (hraised : 16 < s.stu.hbmTarget) : exec (.thermalStepUp .hbm) s =
    .next (s.onStu fun u => { u with hbmTarget := min 32 (u.hbmTarget + 2), hbmHot := 0 }) := if_pos ⟨hhot, hraised⟩

theorem exec_thermalWithdraw (hraised : 16 < s.thm.panels[p].targetK) (hcooled : s.thm.panels[p].cooled = true)
    (hnominal : 1024 ≤ s.thm.panels[p].nominal) : exec (.thermalWithdraw p) s =
      .next (platformEvent 0x09 [0, BitVec.ofNat 8 p.val] (logGeneral 0x09 0 [0, BitVec.ofNat 8 p.val, 0] (s.onThm fun t =>
        { t with panels := t.panels.set p { s.thm.panels[p] with targetK := 16, cooled := false, nominal := 0, hot := 0 } }))) := by
  have hpanel : vAt s.thm.panels p.val {} = s.thm.panels[p] := vAt_of_lt _ _ p.isLt
  change execThermalWithdraw p s = _
  unfold execThermalWithdraw
  dsimp only
  rw [hpanel, if_pos ⟨hraised, hcooled, hnominal⟩, onThm_panel]

end

/-! The supply reason (R408, R440). -/

/-- What the rail monitor last saw outside its limits, without one number. -/
def supplyOthers (i : Nat) (s : State) : List Nat := s.stu.supplyBad.filter fun x => x != i

/-- The supply reason is raised by a number. -/
def supplyRaised (i : Nat) (s : State) : State :=
  s.onStu fun u => { u with supply := true, supplyOk := 0, supplyBad := i :: supplyOthers i s }

section
variable {s : State} (hruns : s.thm.restarting = false) (hlives : s.thm.halted = false) (hinput : s.power.inputOk = true)
  {o : SupplyObs} {i : Nat} {raises : Bool}
include hruns hlives hinput

/-- An observation while Thimble runs: by whether it lies outside its limit, and whether that raises the reason. -/
theorem exec_supplyReason {bad : Bool} (hseen : supplySeen s o = (i, bad, raises)) : exec (.supplyReason o) s =
    if bad ∧ raises then
      .next (if s.stu.supply then supplyRaised i s else platformEvent 0x09 [2] (logGeneral 0x09 0 [2, 0, 1] (supplyRaised i s)))
    else .next (s.onStu fun u => { u with supplyBad := if bad then i :: supplyOthers i s else supplyOthers i s }) := by
  change execSupplyReason o s = _
  unfold execSupplyReason
  rw [if_neg (by simp [hruns, hlives, hinput]), hseen]
  dsimp only
  split
  · rename_i hraises
    cases hsupply : s.stu.supply
    · rw [if_pos (show (!(s.onStu _).stu.supply) = true by simp [hsupply])]
      simp only [hraises.1, if_true]
      rfl
    · rw [if_neg (show ¬ (!(s.onStu _).stu.supply) = true by simp [hsupply])]
      simp only [hraises.1, if_true]
      rfl
  · rfl

theorem exec_supplyReason_within (hseen : supplySeen s o = (i, false, raises)) : exec (.supplyReason o) s =
    .next (s.onStu fun u => { u with supplyBad := supplyOthers i s }) :=
  (exec_supplyReason hruns hlives hinput hseen).trans (if_neg (by simp))

theorem exec_supplyReason_raised (hseen : supplySeen s o = (i, true, true)) : exec (.supplyReason o) s =
    .next (if s.stu.supply then supplyRaised i s else platformEvent 0x09 [2] (logGeneral 0x09 0 [2, 0, 1] (supplyRaised i s))) :=
  (exec_supplyReason hruns hlives hinput hseen).trans (if_pos ⟨rfl, rfl⟩)

/-- A rail outside its absolute range trips its comparator instead (R440). -/
theorem exec_supplyReason_trips (hseen : supplySeen s o = (i, true, false)) : exec (.supplyReason o) s =
    .next (s.onStu fun u => { u with supplyBad := i :: supplyOthers i s }) :=
  (exec_supplyReason hruns hlives hinput hseen).trans (if_neg (by simp))

end

theorem exec_supplyWithdraw {s : State} (hraised : s.stu.supply = true) (hmet : 1024 ≤ s.stu.supplyOk)
    (hnone : s.stu.supplyBad = []) : exec .supplyWithdraw s = .next (platformEvent 0x09 [2]
      (logGeneral 0x09 0 [2, 0, 0] (s.onStu fun u => { u with supply := false, supplyOk := 0 }))) :=
  if_pos ⟨hraised, hmet, hnone⟩

section
variable {s : State} (r : Fin 32) (mv : Nat)

theorem supplySeen_rail_within (h : railHeld s r.val = true ∨ railOperating s r.val mv = true) :
    supplySeen s (.rail r mv) = (r.val, false, railAbsolute s r.val mv == 0) := by
  rcases h with hheld | hoperates
  · simp [supplySeen, hheld]
  · simp [supplySeen, hoperates]

theorem supplySeen_rail_outside (hon : railHeld s r.val = false) (hout : railOperating s r.val mv = false) :
    supplySeen s (.rail r mv) = (r.val, true, railAbsolute s r.val mv == 0) := by
  simp [supplySeen, hon, hout]

end

/-- Settles O30: the thermal reasons by their counts, the supply reason by what the rail monitor sees. -/
theorem stretchReasons : Obligations.StretchReasons := by
  intro s
  refine ⟨fun p => ⟨exec_thermalStepUp_panel, exec_thermalWithdraw⟩, exec_thermalStepUp_hbm, fun hruns hlives hinput =>
    ⟨fun w => ⟨fun hover => ?_, fun hin => ?_⟩, fun r mv => ⟨fun hin => ?_, fun hon hout => ⟨fun hin => ?_, fun htrips => ?_⟩⟩⟩,
    exec_supplyWithdraw⟩
  · exact exec_supplyReason_raised hruns hlives hinput (by simp [supplySeen, hover])
  · exact exec_supplyReason_within hruns hlives hinput (raises := true) (by simp [supplySeen, hin])
  · exact exec_supplyReason_within hruns hlives hinput (supplySeen_rail_within r mv hin)
  · exact exec_supplyReason_raised hruns hlives hinput ((supplySeen_rail_outside r mv hon hout).trans (by rw [hin]; rfl))
  · exact exec_supplyReason_trips hruns hlives hinput
      ((supplySeen_rail_outside r mv hon hout).trans (by rw [beq_eq_false_iff_ne.mpr htrips]))

end Sys2Proof.Machine

/-! PROOFS, family 13_faults_and_resets: heartbeats and hangs. -/

namespace Sys2Proof.Machine

/-! HEARTBEAT_SAMPLE (R354, R355). -/

/-- Nothing is sampled: Thimble does not run, or a reset does. -/
abbrev SamplesNone (s : State) : Prop :=
  s.thm.restarting = true ∨ s.thm.halted = true ∨ s.flt.phase ≠ .none ∨ s.flt.resetting = true

theorem exec_heartbeatSample_none {s : State} (h : SamplesNone s) (m : BitVec 18) : exec (.heartbeatSample m) s = .next s :=
  if_pos h

theorem exec_heartbeatSample {s : State} (h : ¬ SamplesNone s) (m : BitVec 18) : exec (.heartbeatSample m) s =
    .next ((s.each (List.range 18) fun u k => sampleOne (beatMoved u (m.getLsbD k) k) k u).onFlt fun f => { f with beaten := 0 }) :=
  if_neg h

/-- A moved counter is counted by the sample: the source is sampled, and no maintenance slot has counted its beat. -/
abbrev CountsBeat (s : State) (u : Nat) : Prop := sampled s u = true ∧ ¬ (u < 8 ∧ s.flt.beaten.getLsbD u = true)

/-- The state with other miss counts and beat counts. -/
def withSamples (misses : Vector Nat 18) (beats : Vector (BitVec 32) 18) (s : State) : State :=
  s.onFlt fun f => { f with misses := misses, beats := beats }

theorem withSamples_withSamples (misses misses' : Vector Nat 18) (beats beats' : Vector (BitVec 32) 18) (s : State) :
    withSamples misses beats (withSamples misses' beats' s) = withSamples misses beats s := rfl

theorem countsBeat_withSamples (misses : Vector Nat 18) (beats : Vector (BitVec 32) 18) (s : State) (u : Nat) :
    CountsBeat (withSamples misses beats s) u ↔ CountsBeat s u := Iff.rfl

/-- A source whose counter moved has no miss, and its beat is counted. -/
theorem sampleOne_moved (u : Nat) (s : State) : sampleOne true u s = withSamples (vMod s.flt.misses u fun _ => 0)
    (if CountsBeat s u then vMod s.flt.beats u (· + 1) else s.flt.beats) s := by
  unfold sampleOne
  by_cases hsampled : sampled s u = true
  · rw [if_neg (by simp [hsampled]), if_pos rfl]
    refine onFlt_congr ?_
    by_cases hslot : u < 8 ∧ s.flt.beaten.getLsbD u = true
    · rw [if_neg (show ¬ CountsBeat s u from fun h => h.2 hslot), if_pos hslot]
    · rw [if_pos (show CountsBeat s u from ⟨hsampled, hslot⟩), if_neg hslot]
  · rw [if_pos hsampled]
    refine onFlt_congr ?_
    rw [if_neg (show ¬ CountsBeat s u from fun h => hsampled h.1)]

theorem sampleOne_withSamples (u : Nat) (misses : Vector Nat 18) (beats : Vector (BitVec 32) 18) (s : State) :
    sampleOne true u (withSamples misses beats s) =
      withSamples (vMod misses u fun _ => 0) (if CountsBeat s u then vMod beats u (· + 1) else beats) s :=
  (sampleOne_moved u (withSamples misses beats s)).trans
    ((withSamples_withSamples ..).trans (congrArg (withSamples _ · s) (if_congr (countsBeat_withSamples ..) rfl rfl)))

theorem vMod_ofFn {α : Type} {k n : Nat} (g : Fin k → α) (f : α → α) :
    vMod (Vector.ofFn g) n f = Vector.ofFn fun u => if u.val = n then f (g u) else g u := by
  unfold vMod
  split
  · refine Vector.ext fun i hi => ?_
    rw [Vector.getElem_set, Vector.getElem_ofFn, Vector.getElem_ofFn, Vector.getElem_ofFn]
    by_cases hin : n = i
    · subst hin
      simp
    · simp [hin, Ne.symm hin]
  · rename_i hn
    refine congrArg Vector.ofFn (funext fun u => (if_neg ?_).symm)
    have := u.isLt
    omega

/-- The miss counts when the first n counters were sampled and had moved. -/
def missesTo (s : State) (n : Nat) : Vector Nat 18 := Vector.ofFn fun u => if u.val < n then 0 else s.flt.misses[u]

/-- The beat counts when the first n counters were sampled and had moved. -/
def beatsTo (s : State) (n : Nat) : Vector (BitVec 32) 18 :=
  Vector.ofFn fun u => if u.val < n ∧ CountsBeat s u.val then s.flt.beats[u] + 1 else s.flt.beats[u]

theorem missesTo_zero (s : State) : missesTo s 0 = s.flt.misses := Vector.ext fun i hi => by simp [missesTo]

theorem beatsTo_zero (s : State) : beatsTo s 0 = s.flt.beats := Vector.ext fun i hi => by simp [beatsTo]

theorem missesTo_succ (s : State) (n : Nat) : missesTo s (n + 1) = vMod (missesTo s n) n fun _ => 0 := by
  rw [missesTo, missesTo, vMod_ofFn]
  refine congrArg Vector.ofFn (funext fun u => ?_)
  by_cases hu : u.val = n
  · rw [if_pos hu, if_pos (by omega)]
  · rw [if_neg hu]
    exact if_congr (by omega) rfl rfl

theorem beatsTo_succ (s : State) (n : Nat) :
    beatsTo s (n + 1) = if CountsBeat s n then vMod (beatsTo s n) n (· + 1) else beatsTo s n := by
  by_cases hcounts : CountsBeat s n
  · rw [if_pos hcounts, beatsTo, beatsTo, vMod_ofFn]
    refine congrArg Vector.ofFn (funext fun u => ?_)
    by_cases hu : u.val = n
    · rw [if_pos hu, if_pos (⟨by omega, hu ▸ hcounts⟩ : u.val < n + 1 ∧ CountsBeat s u.val), if_neg (by omega)]
    · rw [if_neg hu]
      exact if_congr (and_congr_left' (by omega)) rfl rfl
  · rw [if_neg hcounts]
    refine congrArg Vector.ofFn (funext fun u => if_congr (and_congr_left fun hu => ?_) rfl rfl)
    have hne : u.val ≠ n := fun h => hcounts (h ▸ hu)
    omega

theorem beatMoved_true (s : State) (u : Nat) : beatMoved s true u = true := by rw [beatMoved, Bool.true_or]

theorem each_range_succ (f : State → Nat → State) (n : Nat) (s : State) :
    s.each (List.range (n + 1)) f = f (s.each (List.range n) f) n := by
  rw [List.range_succ]
  exact List.foldl_append ..

/-- The first n sources are sampled, and every counter has moved. -/
theorem each_sampleOne_moved (s : State) (n : Nat) (hn : n ≤ 18) :
    (s.each (List.range n) fun u k => sampleOne (beatMoved u ((BitVec.allOnes 18).getLsbD k) k) k u) =
      withSamples (missesTo s n) (beatsTo s n) s := by
  induction n with
  | zero =>
    rw [missesTo_zero, beatsTo_zero]
    rfl
  | succ n ih =>
    have hbit : (BitVec.allOnes 18).getLsbD n = true := by rw [BitVec.getLsbD_allOnes, decide_eq_true (by omega)]
    rw [each_range_succ, ih (by omega), hbit, beatMoved_true, sampleOne_withSamples, missesTo_succ, beatsTo_succ]

/-- Every counter has moved: no source has a miss, and each sampled one counts its beat. -/
theorem exec_heartbeatSample_all {s : State} (h : ¬ SamplesNone s) : exec (.heartbeatSample (BitVec.allOnes 18)) s =
    .next (s.onFlt fun f => { f with
      misses := Vector.replicate 18 0, beaten := 0
      beats := Vector.ofFn fun u =>
        if sampled s u.val = true ∧ ¬ (u.val < 8 ∧ f.beaten.getLsbD u.val = true) then f.beats[u] + 1 else f.beats[u] }) := by
  have hmisses : missesTo s 18 = Vector.replicate 18 0 := Vector.ext fun i hi => by simp [missesTo]
  have hbeats : beatsTo s 18 = Vector.ofFn fun u => if CountsBeat s u.val then s.flt.beats[u] + 1 else s.flt.beats[u] :=
    congrArg Vector.ofFn (funext fun u => if_congr (and_iff_right u.isLt) rfl rfl)
  rw [exec_heartbeatSample h, each_sampleOne_moved s 18 (Nat.le_refl _), hmisses, hbeats]
  rfl

/-! The third miss in a row (R355). -/

/-- The third miss of a source is judged by HANG_EN. -/
theorem sampleOne_third {s : State} {u : Fin 18} (hsampled : sampled s u.val = true) (hmisses : s.flt.misses[u] = 2) :
    sampleOne false u.val s =
      let missed := s.onFlt fun f => { f with misses := f.misses.set u 3 }
      if bit s.flt.ctrl 2 then
        let hung := missed.onFlt fun f => { f with hung := f.hung ||| BitVec.ofNat 18 (2 ^ u.val) }
        if s.flt.phase = .none then declareFault (hangRecord hung u.val) hung
        else postRecord { hangRecord hung u.val with contexts := contextMask (liveContexts hung) } hung
      else logGeneral 0x04 0 [2, BitVec.ofNat 8 u.val] missed := by
  have hthird : vAt s.flt.misses u.val 0 + 1 = 3 := by
    rw [vAt_of_lt _ _ u.isLt]
    exact congrArg (· + 1) hmisses
  have hset : (s.onFlt fun f => { f with misses := vMod f.misses u.val fun _ => 3 }) =
      s.onFlt fun f => { f with misses := f.misses.set u 3 } :=
    onFlt_congr (by rw [vMod_fin])
  unfold sampleOne
  rw [if_neg (by simp [hsampled]), if_neg Bool.false_ne_true]
  dsimp only
  rw [hthird, if_neg (not_not_intro rfl), hset]
  rfl

end Sys2Proof.Machine

/-! PROOFS, family 13_faults_and_resets: requested resets, the device reset and the unit resets. -/

namespace Sys2Proof.Machine

/-! A requested reset (R361, Table 13-10): the jobs of the device are aborted, and the reset holds. -/

/-- What a request for a reset is judged by. -/
def resetView (s : State) : ResetPhase × Tst := (s.flt.phase, s.tst)

theorem resetView_onSea (f : Sea → Sea) (s : State) : resetView (s.onSea f) = resetView s := rfl

theorem resetView_onCol (f : Col → Col) (s : State) : resetView (s.onCol f) = resetView s := rfl

theorem resetView_onPrs (f : Prs → Prs) (s : State) : resetView (s.onPrs f) = resetView s := rfl

theorem resetView_queueRecord (r : FaultRec) (s : State) : resetView (queueRecord r s) = resetView s := rfl

theorem resetView_sendVc0 (m : Nat) (msg : Vc0Msg) (s : State) : resetView (sendVc0 m msg s) = resetView s := by
  unfold sendVc0 queueVc0
  split
  · exact resetView_onSea ..
  · rfl

theorem resetView_discardStream (m : Nat) (t : PortStream) (s : State) : resetView (discardStream m t s) = resetView s := by
  unfold discardStream returnCredits State.onPort State.onColCtx
  rw [resetView_onSea, resetView_onCol, resetView_onCol]

theorem resetView_discardAborted (n : Nat) (s : State) : resetView (discardAborted n s) = resetView s := by
  unfold discardAborted
  rw [resetView_onSea]
  exact each_unchanged resetView (fun u m => each_unchanged resetView (fun _ _ => resetView_discardStream ..) _ u) allPorts s

theorem resetView_poisoned (n : Nat) (f : ColCtx → ColCtx) (s : State) : resetView (poison n (s.onColCtx n f)) = resetView s := by
  rw [poison, State.onTrain, State.onColCtx, resetView_onPrs, resetView_onCol]

theorem resetView_actOnAbort (n : Nat) (m : AbortMsg) (record : Bool) (s : State) :
    resetView (actOnAbort n m record s) = resetView s := by
  unfold actOnAbort
  dsimp only
  split
  · rw [resetView_queueRecord, resetView_poisoned, resetView_discardAborted]
  · rw [resetView_poisoned, resetView_discardAborted]

theorem resetView_originateAbort (job : BitVec 16) (cause : Nat) (s : State) :
    resetView (originateAbort job cause s) = resetView s := by
  unfold originateAbort
  dsimp only
  split
  · rfl
  · rw [each_unchanged resetView (fun u n => resetView_actOnAbort ..), rememberKey, resetView_onCol]
    exact each_unchanged resetView (fun u p => resetView_sendVc0 ..) allPorts s

/-- No reset runs, so that one may be requested. -/
abbrev ResetIdle (s : State) : Prop := s.flt.phase = .none ∨ s.flt.phase = .stopped

/-- An on-demand test ends when a reset is requested. -/
def testEnded (s : State) : State :=
  if s.tst.busy then s.onTst fun t => { t with busy := false, result := 0x06, stopping := false } else s

/-- A reset with its trigger holds. -/
def resetHeld (trigger : BitVec 3) (cause : Byte) (s : State) : State := s.onFlt fun f => { f with
  phase := .hold, resetting := true, restarts := 0, pendingTrigger := trigger, pendingCause := cause, counted := false }

theorem triggerReset_idle {s : State} (h : ResetIdle s) (trigger : Nat) (cause : Byte) :
    triggerReset trigger cause s = testEnded (resetHeld (BitVec.ofNat 3 trigger) cause s) := by
  unfold triggerReset
  rcases h with h | h <;> rw [h] <;> rfl

/-- The hosted jobs are aborted for a reset. -/
def jobsAborted (s : State) : State :=
  (s.each (hostedJobs s) fun u j => originateAbort j 0x04 u).onFlt fun f => { f with jobFault := true }

theorem resetView_jobsAborted (s : State) : resetView (jobsAborted s) = resetView s :=
  each_unchanged resetView (fun _ _ => resetView_originateAbort ..) _ s

theorem requestReset_idle {s : State} (h : ResetIdle s) (trigger : Nat) :
    requestReset trigger s = testEnded (resetHeld (BitVec.ofNat 3 trigger) 0 (jobsAborted s)) := by
  have hphase : (jobsAborted s).flt.phase = s.flt.phase := congrArg Prod.fst (resetView_jobsAborted s)
  refine Eq.trans ?_ (triggerReset_idle (by rw [ResetIdle, hphase]; exact h) trigger 0)
  unfold requestReset
  rcases h with h | h <;> rw [h] <;> rfl

theorem requestReset_busy {s : State} (h : ¬ ResetIdle s) (trigger : Nat) : requestReset trigger s = s := by
  unfold requestReset
  split
  · exact absurd (.inl ‹_›) h
  · exact absurd (.inr ‹_›) h
  · rfl

/-- A test that ends does so by what the state before the request says of it. -/
theorem testEnded_resetHeld (trigger : BitVec 3) (s : State) : testEnded (resetHeld trigger 0 (jobsAborted s)) =
    if s.tst.busy then
      (resetHeld trigger 0 (jobsAborted s)).onTst fun t => { t with busy := false, result := 0x06, stopping := false }
    else resetHeld trigger 0 (jobsAborted s) := by
  have htst : (jobsAborted s).tst = s.tst := congrArg Prod.snd (resetView_jobsAborted s)
  exact if_congr (by rw [← htst]; rfl) rfl rfl

/-! Writes of FLT_RESET (Table 13-17). -/

/-- The bits of FLT_RESET that are reserved. -/
def resetReserved : W64 := mask64 63 40 ||| mask64 31 28 ||| mask64 23 2

/-- A write of FLT_RESET, judged by its reserved bits. -/
def resetJudged (v : W64) (s : State) : State := if v &&& resetReserved ≠ 0 then violate 0 0x02 s else s

theorem phase_resetJudged (v : W64) (s : State) : (resetJudged v s).flt.phase = s.flt.phase := by
  unfold resetJudged
  split <;> rfl

theorem tst_resetJudged (v : W64) (s : State) : (resetJudged v s).tst = s.tst := by
  unfold resetJudged
  split <;> rfl

theorem writeFltReset_cmd (v : W64) {c : Nat} (hc : c < 4) (s : State) : writeFltReset (putFld v 1 0 c) s =
    if c = 1 then requestReset 2 (resetJudged v s)
    else if c = 2 then startUnitReset (fld v 27 24) (fld v 39 32) (resetJudged v s)
    else resetJudged v s := by
  have hcmd : fld (putFld v 1 0 c) 1 0 = c := fld_putFld v (by decide) (by decide) hc
  have hkind : fld (putFld v 1 0 c) 27 24 = fld v 27 24 := fld_putFld_apart (by decide) v c
  have hindex : fld (putFld v 1 0 c) 39 32 = fld v 39 32 := fld_putFld_apart (by decide) v c
  have hrsv : putFld v 1 0 c &&& resetReserved = v &&& resetReserved := putFld_and (by decide) v c
  unfold writeFltReset
  rw [hcmd, hkind, hindex, ← resetReserved, hrsv]
  rfl

theorem exec_deviceReset (v : W64) (s : State) : exec (.deviceReset v) s = .next (requestReset 2 (resetJudged v s)) :=
  congrArg Host.Outcome.next (writeFltReset_cmd v (by decide) s)

theorem exec_unitReset (v : W64) (s : State) :
    exec (.unitReset v) s = .next (startUnitReset (fld v 27 24) (fld v 39 32) (resetJudged v s)) :=
  congrArg Host.Outcome.next (writeFltReset_cmd v (by decide) s)

theorem exec_hotReset (k : HotResetKind) (s : State) : exec (.hotReset k) s = .next (requestReset 5 s) := by
  cases k <;> rfl

/-! PERST# (R361, R419). -/

theorem exec_perstH {s : State} (h : s.power.perstH = false) : exec (.perst .h true) s =
    .next (requestReset 4 (s.onPower fun p => { p with perstH := true, linkH := .down })) :=
  if_neg (by simp [h])

theorem exec_perstH_again {s : State} (h : s.power.perstH = true) : exec (.perst .h true) s = .next s := if_pos h

theorem exec_perstH_released {s : State} (h : s.power.perstH = true) : exec (.perst .h false) s = .next (s.onPower fun p =>
    { p with perstH := false, linkH := if s.flt.phase = .powerOn then .down else .l0 }) := by
  refine (if_pos h).trans ?_
  have hlink : linkAfter s true = if s.flt.phase = .powerOn then .down else .l0 := by
    unfold linkAfter
    by_cases hphase : s.flt.phase = .powerOn <;> simp [hphase]
  rw [hlink]

theorem exec_perstS {s : State} (h : s.power.perstS = false) : exec (.perst .s true) s =
    .next ((resetPortS s).onPower fun p => { p with perstS := true, linkS := .down }) :=
  if_neg (by simp [h])

theorem exec_perstS_released {s : State} (h : s.power.perstS = true) : exec (.perst .s false) s = .next (s.onPower fun p =>
    { p with perstS := false, linkS := if s.straps.portS = true ∧ s.flt.phase ≠ .powerOn then .l0 else .down }) := by
  refine (if_pos h).trans ?_
  have hlink : linkAfter s s.straps.portS = if s.straps.portS = true ∧ s.flt.phase ≠ .powerOn then .l0 else .down := by
    unfold linkAfter
    by_cases hphase : s.flt.phase = .powerOn <;> simp [hphase]
  rw [hlink]

/-! Unit resets (R363, Tables 13-8, 13-9). -/

section
variable {kind i : Nat} {s : State}

theorem startUnitReset_unknown (hband : kind ≠ 2) (hpanel : kind ≠ 3) (hstack : kind ≠ 6) (hport : kind ≠ 8) :
    startUnitReset kind i s = s := if_pos ⟨hband, hpanel, hstack, hport⟩

theorem startUnitReset_known (h : kind = 2 ∨ kind = 3 ∨ kind = 6 ∨ kind = 8) : startUnitReset kind i s =
    match unitRefusal s kind i with
    | some r => s.onFlt fun f => { f with unitResult := BitVec.ofNat 8 r }
    | none => (unitEffect kind i s).onFlt fun f => { f with unitBusy := true, unitKind := kind, unitIndex := i } :=
  if_neg (by omega)

theorem startUnitReset_refused (h : kind = 2 ∨ kind = 3 ∨ kind = 6 ∨ kind = 8) {r : Nat}
    (hr : unitRefusal s kind i = some r) :
    startUnitReset kind i s = s.onFlt fun f => { f with unitResult := BitVec.ofNat 8 r } := by
  rw [startUnitReset_known h, hr]

theorem startUnitReset_runs (h : kind = 2 ∨ kind = 3 ∨ kind = 6 ∨ kind = 8) (hnone : unitRefusal s kind i = none) :
    startUnitReset kind i s =
      (unitEffect kind i s).onFlt fun f => { f with unitBusy := true, unitKind := kind, unitIndex := i } := by
  rw [startUnitReset_known h, hnone]

end

theorem exec_unitResetDone_idle {s : State} (h : s.flt.unitBusy = false) (ok : Bool) : exec (.unitResetDone ok) s = .next s :=
  if_neg (by simp [h])

theorem exec_unitResetDone {s : State} (h : s.flt.unitBusy = true) (ok : Bool) :
    exec (.unitResetDone ok) s = .next (endUnitReset ok s) := if_pos h

/-! FLT_VIOL_CLR (R367). -/

theorem exec_fltViolClr (n : Ctx) (v : W64) (s : State) : exec (.fltViolClr n v) s =
    .next (if v &&& mask64 55 33 ≠ 0 then violate 0 0x02 (s.onFlt fun f => { f with viol := f.viol.set n {} })
      else s.onFlt fun f => { f with viol := f.viol.set n {} }) := by
  have hclr : bit (putFld v 32 32 1) 32 = true := bit_putFld_bit v (by decide) 1
  have hrsv : putFld v 32 32 1 &&& mask64 55 33 = v &&& mask64 55 33 := putFld_and (by decide) v 1
  have hset : (s.onFlt fun f => { f with viol := vMod f.viol n.val fun _ => {} }) =
      s.onFlt fun f => { f with viol := f.viol.set n {} } := onFlt_congr (by rw [vMod_fin])
  change Host.Outcome.next (writeFltViol n.val (putFld v 32 32 1) s) = _
  unfold writeFltViol
  rw [if_pos hclr, hrsv, hset]

end Sys2Proof.Machine

/-! PROOFS, family 13_faults_and_resets: the device reset, from its hold to its end. -/

namespace Sys2Proof.Machine

/-! What may change the seams and the credits alone (Table 13-12: the ports are retuned last). -/

/-- The second state is the first with other seams and other credit books. -/
def SeamsOnly (s t : State) : Prop := ∃ a c, t = (s.onSea fun _ => a).onCol fun _ => c

theorem SeamsOnly.refl (s : State) : SeamsOnly s s := ⟨s.sea, s.col, rfl⟩

theorem SeamsOnly.onSea {s t : State} (h : SeamsOnly s t) (f : Sea → Sea) : SeamsOnly s (t.onSea f) := by
  obtain ⟨a, c, rfl⟩ := h
  exact ⟨f a, c, rfl⟩

theorem SeamsOnly.onCol {s t : State} (h : SeamsOnly s t) (f : Col → Col) : SeamsOnly s (t.onCol f) := by
  obtain ⟨a, c, rfl⟩ := h
  exact ⟨a, f c, rfl⟩

theorem SeamsOnly.each {α : Type} {s t : State} (h : SeamsOnly s t) {f : State → α → State}
    (hf : ∀ {u}, SeamsOnly s u → ∀ a, SeamsOnly s (f u a)) (l : List α) : SeamsOnly s (t.each l f) := by
  induction l generalizing t with
  | nil => exact h
  | cons a l ih => exact ih (hf h a)

theorem SeamsOnly.discardStream {s t : State} (h : SeamsOnly s t) (m : Nat) (x : PortStream) :
    SeamsOnly s (discardStream m x t) := by
  unfold Machine.discardStream returnCredits State.onColCtx State.onPort
  exact ((h.onCol _).onCol _).onSea _

theorem SeamsOnly.retrain {s t : State} (h : SeamsOnly s t) (m : Nat) (full : Bool) : SeamsOnly s (retrain m full t) := by
  unfold Machine.retrain startTraining State.onPort
  exact (((h.each (fun hu x => hu.discardStream m x) _).onSea _).onSea _).onSea _

/-- The enabled ports are retuned. -/
theorem seamsOnly_retuned (s : State) : SeamsOnly s (s.each (List.range 16) fun s m =>
    if bit (s.port m).cfg 0 then (retrain m (!(s.port m).saved) s).onPort m fun p => { p with powered := true } else s) := by
  refine (SeamsOnly.refl s).each (fun {u} hu m => ?_) _
  split
  · exact (hu.retrain m _).onSea _
  · exact hu

/-! Thimble's part: its log, the boot of an image and the confirmation of one. -/

theorem logCritical_thm (kind : Byte) (body : List Byte) (s : State) : ∃ t, logCritical kind body s = s.onThm fun _ => t := by
  unfold logCritical
  split
  · exact ⟨_, rfl⟩
  · exact ⟨_, rfl⟩

/-- A boot changes what Thimble keeps; a trial image that fails starts a reset besides. -/
theorem boot_thm (take : Bool) (s : State) :
    ∃ t, boot take s = (s.onThm fun _ => t) ∨ boot take s = revertReset (s.onThm fun _ => t) := by
  unfold boot
  extract_lets t now a trial okA okB run back booted logged
  obtain ⟨t₁, h₁⟩ := logCritical_thm 0x07 [if run then 1 else 0, if trial && okA then 1 else 0] booted
  obtain ⟨t₂, h₂⟩ := logCritical_thm 0x07 [3] logged
  split
  · refine ⟨t₂, .inr ?_⟩
    rw [h₂, show logged = booted.onThm fun _ => t₁ from h₁]
    rfl
  · exact ⟨t₁, .inl h₁⟩

theorem onThm_self (s : State) : (s.onThm fun _ => s.thm) = s := rfl

theorem confirmImage_thm (s : State) : ∃ t, confirmImage s = s.onThm fun _ => t := by
  unfold confirmImage
  split
  · exact ⟨s.thm, rfl⟩
  · extract_lets b slot below confirmed
    obtain ⟨t₁, h₁⟩ := logCritical_thm 0x07 [2] confirmed
    obtain ⟨t₂, h₂⟩ := logCritical_thm 0x08 [1] (confirmed.onThm fun _ => t₁)
    exact ⟨t₂, by rw [h₁, h₂]; rfl⟩

theorem revertReset_running {s : State} (h : s.flt.phase = .running) :
    revertReset s = s.onFlt fun f => { f with phase := .hold, resetting := true } :=
  onFlt_congr (if_neg (by simp [h]))

/-! The end of the hold (R359, R364, Tables 13-10 and 13-12). -/

/-- The state of a reset whose domains are cleared: it runs, and is entered in the reset registers. -/
def resetCleared (s : State) : State := (deviceClear s).onFlt fun x => { x with
  phase := .running, resetting := true, counted := true, lastCause := s.flt.pendingCause, lastTrigger := s.flt.pendingTrigger
  resets := if s.flt.counted then x.resets else satInc x.resets 1 }

/-- A pending image is booted, or the active one where another runs. -/
def resetBooted (s : State) : State :=
  let s := resetCleared s
  if s.thm.updatePending ∨ s.thm.activeB ≠ s.thm.runningB then boot true s else s

/-- The cleared state with what a boot leaves, the fuse maps applied. -/
def resetApplied (s : State) (t : Thm) (phase : ResetPhase) : State :=
  applyFuses (((resetCleared s).onThm fun _ => t).onFlt fun f => { f with phase := phase, resetting := true })

theorem resetBooted_shape (s : State) : ∃ t phase,
    resetBooted s = ((resetCleared s).onThm fun _ => t).onFlt (fun f => { f with phase := phase, resetting := true }) ∧
    (s.thm.updatePending = false → s.thm.activeB = s.thm.runningB → phase = .running) := by
  have hthm : (resetCleared s).thm.updatePending = s.thm.updatePending ∧ (resetCleared s).thm.activeB = s.thm.activeB ∧
      (resetCleared s).thm.runningB = s.thm.runningB := ⟨rfl, rfl, rfl⟩
  obtain ⟨hpending, hactive, hrunning⟩ := hthm
  unfold resetBooted
  dsimp only
  rw [hpending, hactive, hrunning]
  by_cases hboots : s.thm.updatePending = true ∨ s.thm.activeB ≠ s.thm.runningB
  · rw [if_pos hboots]
    have hno (hnone : s.thm.updatePending = false) (hsame : s.thm.activeB = s.thm.runningB) : False :=
      hboots.elim (fun h => Bool.false_ne_true (hnone.symm.trans h)) fun h => h hsame
    obtain ⟨t, ht | ht⟩ := boot_thm true (resetCleared s)
    · exact ⟨t, .running, ht, fun _ _ => rfl⟩
    · exact ⟨t, .hold, ht.trans (revertReset_running rfl), fun h h' => (hno h h').elim⟩
  · rw [if_neg hboots]
    exact ⟨(resetCleared s).thm, .running, rfl, fun _ _ => rfl⟩

theorem resetDomains_shape (s : State) : ∃ t phase a c,
    resetDomains s = ((resetApplied s t phase).onSea fun _ => a).onCol (fun _ => c) ∧
    (s.thm.updatePending = false → s.thm.activeB = s.thm.runningB → phase = .running) := by
  obtain ⟨t, phase, hbooted, hrunning⟩ := resetBooted_shape s
  obtain ⟨a, c, hretuned⟩ := seamsOnly_retuned (applyFuses (resetBooted s))
  refine ⟨t, phase, a, c, ?_, hrunning⟩
  rw [resetApplied, ← hbooted, ← hretuned]
  rfl

theorem exec_resetHoldEnd_stops {s : State} (hhold : s.flt.phase = .hold)
    (h : s.flt.pendingTrigger = 1 ∧ bit s.flt.ctrl 1 = false ∧ s.flt.restarts = 0) :
    exec .resetHoldEnd s = .next (s.onFlt fun f => { f with phase := .stopped, resetting := false }) := by
  obtain ⟨htrigger, hauto, hfirst⟩ := h
  exact (if_neg (not_not_intro hhold)).trans (if_pos ⟨htrigger, by simp [hauto], hfirst⟩)

theorem exec_resetHoldEnd {s : State} (hhold : s.flt.phase = .hold)
    (h : ¬ (s.flt.pendingTrigger = 1 ∧ bit s.flt.ctrl 1 = false ∧ s.flt.restarts = 0)) :
    exec .resetHoldEnd s = .next (resetDomains s) :=
  (if_neg (not_not_intro hhold)).trans
    (if_neg fun ⟨htrigger, hauto, hfirst⟩ => h ⟨htrigger, Bool.eq_false_of_not_eq_true hauto, hfirst⟩)

/-- A device is as at reset; the count of the stitches and the host's memory are those of a state. -/
structure AsAtReset (s t : State) : Prop where
  hif : t.hif = {}
  work : t.work = {}
  cores : t.cores = {}
  prs : t.prs = {}
  srv : t.srv = {}
  bolt : t.bolt.mem = []
  hbm : t.hbm.mem = []
  stitch : t.stu.stitch = s.stu.stitch
  cycle : t.stu.cycle = s.stu.cycle
  hostMem : t.hostMem = s.hostMem

theorem asAtReset_deviceClear (s : State) : AsAtReset s (deviceClear s) :=
  ⟨rfl, rfl, rfl, rfl, rfl, rfl, rfl, rfl, rfl, rfl⟩

section
variable {s t : State} (h : AsAtReset s t)
include h

theorem AsAtReset.onFlt (f : Flt → Flt) : AsAtReset s (t.onFlt f) :=
  ⟨h.hif, h.work, h.cores, h.prs, h.srv, h.bolt, h.hbm, h.stitch, h.cycle, h.hostMem⟩

theorem AsAtReset.onThm (f : Thm → Thm) : AsAtReset s (t.onThm f) :=
  ⟨h.hif, h.work, h.cores, h.prs, h.srv, h.bolt, h.hbm, h.stitch, h.cycle, h.hostMem⟩

theorem AsAtReset.onSea (f : Sea → Sea) : AsAtReset s (t.onSea f) :=
  ⟨h.hif, h.work, h.cores, h.prs, h.srv, h.bolt, h.hbm, h.stitch, h.cycle, h.hostMem⟩

theorem AsAtReset.onCol (f : Col → Col) : AsAtReset s (t.onCol f) :=
  ⟨h.hif, h.work, h.cores, h.prs, h.srv, h.bolt, h.hbm, h.stitch, h.cycle, h.hostMem⟩

theorem AsAtReset.applyFuses : AsAtReset s (applyFuses t) :=
  ⟨h.hif, h.work, h.cores, h.prs, h.srv, h.bolt, h.hbm, h.stitch, h.cycle, h.hostMem⟩

end

/-- The reset goes on, and is entered in the reset registers with what it was pending with. -/
structure ResetEntered (s t : State) : Prop where
  resetting : t.flt.resetting = true
  running : s.thm.updatePending = false → s.thm.activeB = s.thm.runningB → t.flt.phase = .running
  cause : t.flt.lastCause = s.flt.pendingCause
  trigger : t.flt.lastTrigger = s.flt.pendingTrigger

theorem flt_applyFuses (s : State) : (applyFuses s).flt = s.flt := rfl

theorem lastCause_resetCleared (s : State) : (resetCleared s).flt.lastCause = s.flt.pendingCause := by
  rw [resetCleared, State.onFlt_flt]

theorem lastTrigger_resetCleared (s : State) : (resetCleared s).flt.lastTrigger = s.flt.pendingTrigger := by
  rw [resetCleared, State.onFlt_flt]

theorem asAtReset_resetDomains (s : State) : AsAtReset s (resetDomains s) := by
  obtain ⟨t, phase, a, c, hshape, -⟩ := resetDomains_shape s
  rw [hshape]
  exact (((((((asAtReset_deviceClear s).onFlt _).onThm _).onFlt _)).applyFuses).onSea _).onCol _

theorem resetEntered_resetDomains (s : State) : ResetEntered s (resetDomains s) := by
  obtain ⟨t, phase, a, c, hshape, hrunning⟩ := resetDomains_shape s
  have hflt : (resetDomains s).flt = { (resetCleared s).flt with phase := phase, resetting := true } := by
    rw [hshape, State.onCol_flt, State.onSea_flt, resetApplied, flt_applyFuses, State.onFlt_flt, State.onThm_flt]
  constructor
  case resetting => rw [hflt]
  case running =>
    rw [hflt]
    exact hrunning
  case cause => rw [hflt, ← lastCause_resetCleared]
  case trigger => rw [hflt, ← lastTrigger_resetCleared]

/-! The end of the reset (R364 step 8, R366). -/

/-- What is left of a reset's end when its results are posted: MODE is decided, RESETTING clears. -/
def resetEnded (mode : Nat) (locked : BitVec 25) (s : State) : State :=
  (((s.onFlt fun f => { f with
    mode := mode, resetting := false, phase := .none, restarts := 0, misses := Vector.replicate 18 0 }).onStu fun u =>
      { u with missed := 0 }).onPower fun p => { p with faultLow := false }).onThm fun t => { t with clkLock := locked }

theorem finishReset_ended (o : ResetObs) (s : State) :
    ∃ u mode locked t, finishReset o s = (resetEnded mode locked u).onThm fun _ => t := by
  unfold finishReset
  extract_lets _ _ _ _ _ _ _ _ _ _ _ _ _ mode _ _ posted ended missed pins locked clocks
  obtain ⟨t, ht⟩ := confirmImage_thm clocks
  split
  · exact ⟨posted, mode, bitsOf 25 locked, t, ht⟩
  · exact ⟨posted, mode, bitsOf 25 locked, clocks.thm, (onThm_self clocks).symm⟩

/-- The device is out of its reset. -/
structure ResetOver (t : State) : Prop where
  resetting : t.flt.resetting = false
  phase : t.flt.phase = .none
  restarts : t.flt.restarts = 0
  faultLow : t.power.faultLow = false
  missed : t.stu.missed = 0

theorem resetOver_resetEnded (mode : Nat) (locked : BitVec 25) (s : State) : ResetOver (resetEnded mode locked s) :=
  ⟨rfl, rfl, rfl, rfl, rfl⟩

theorem ResetOver.onThm {t : State} (h : ResetOver t) (f : Thm → Thm) : ResetOver (t.onThm f) :=
  ⟨h.resetting, h.phase, h.restarts, h.faultLow, h.missed⟩

theorem ResetOver.trainLinks {t : State} (h : ResetOver t) : ResetOver (trainLinks t) :=
  ⟨h.resetting, h.phase, h.restarts, h.faultLow, h.missed⟩

theorem resetOver_finishReset (o : ResetObs) (s : State) : ResetOver (finishReset o s) := by
  obtain ⟨u, mode, locked, t, hended⟩ := finishReset_ended o s
  rw [hended]
  exact (resetOver_resetEnded mode locked u).onThm _

theorem exec_deviceResetDone {s : State} (h : s.flt.phase = .running) (o : ResetObs) :
    exec (.deviceResetDone o) s = .next (trainLinks (finishReset o s)) := if_neg (not_not_intro h)

end Sys2Proof.Machine

/-! PROOFS, family 13_faults_and_resets: hangs and resets. -/

namespace Sys2Proof.Machine

/-! The clauses of O48, in the order of its statement. -/

theorem sampleOne_third_hang {s : State} {u : Fin 18} (hsampled : sampled s u.val = true) (hmisses : s.flt.misses[u] = 2)
    (hen : bit s.flt.ctrl 2 = true) (hphase : s.flt.phase = .none) : sampleOne false u.val s =
      let x := (s.onFlt fun f => { f with misses := f.misses.set u 3 }).onFlt fun f =>
        { f with hung := f.hung ||| BitVec.ofNat 18 (2 ^ u.val) }
      declareFault (hangRecord x u.val) x :=
  (sampleOne_third hsampled hmisses).trans ((if_pos hen).trans (if_pos hphase))

theorem sampleOne_third_logged {s : State} {u : Fin 18} (hsampled : sampled s u.val = true) (hmisses : s.flt.misses[u] = 2)
    (hen : bit s.flt.ctrl 2 = false) : sampleOne false u.val s =
      logGeneral 0x04 0 [2, BitVec.ofNat 8 u.val] (s.onFlt fun f => { f with misses := f.misses.set u 3 }) :=
  (sampleOne_third hsampled hmisses).trans (if_neg (by simp [hen]))

/-- The device after a request for a reset: the hosted jobs are aborted, the reset holds, a running test ends. -/
def resetRequested (trigger : BitVec 3) (u s : State) : State :=
  let x := (u.each (hostedJobs u) fun u j => originateAbort j 0x04 u).onFlt fun f => { f with
    jobFault := true, phase := .hold, resetting := true, restarts := 0, pendingTrigger := trigger
    pendingCause := 0, counted := false }
  if s.tst.busy then x.onTst fun t => { t with busy := false, result := 0x06, stopping := false } else x

theorem requestReset_requested {u s : State} (h : ResetIdle u) (htst : u.tst = s.tst) (trigger : Nat) :
    requestReset trigger u = resetRequested (BitVec.ofNat 3 trigger) u s := by
  rw [requestReset_idle h, testEnded_resetHeld, htst]
  rfl

section
variable {s : State}

theorem requests_idle (h : ResetIdle s) (v : W64) :
    exec (.deviceReset v) s = .next (resetRequested 2 (resetJudged v s) s) ∧
    (∀ k : HotResetKind, exec (.hotReset k) s = .next (resetRequested 5 s s)) ∧
    (s.power.perstH = false → exec (.perst .h true) s =
      .next (resetRequested 4 (s.onPower fun p => { p with perstH := true, linkH := .down }) s)) := by
  have hjudged : ResetIdle (resetJudged v s) := by
    rw [ResetIdle, phase_resetJudged]
    exact h
  refine ⟨?_, fun k => ?_, fun hhigh => ?_⟩
  · rw [exec_deviceReset, requestReset_requested hjudged (tst_resetJudged v s)]
    rfl
  · rw [exec_hotReset, requestReset_requested h rfl]
    rfl
  · exact (exec_perstH hhigh).trans (congrArg _ (requestReset_requested (u := s.onPower _) h rfl 4))

theorem requests_busy (h : ¬ ResetIdle s) (v : W64) :
    exec (.deviceReset v) s = .next (resetJudged v s) ∧ (∀ k : HotResetKind, exec (.hotReset k) s = .next s) ∧
    (s.power.perstH = false →
      exec (.perst .h true) s = .next (s.onPower fun p => { p with perstH := true, linkH := .down })) := by
  have hjudged : ¬ ResetIdle (resetJudged v s) := by
    rw [ResetIdle, phase_resetJudged]
    exact h
  refine ⟨?_, fun k => ?_, fun hhigh => ?_⟩
  · rw [exec_deviceReset, requestReset_busy hjudged]
  · rw [exec_hotReset, requestReset_busy h]
  · exact (exec_perstH hhigh).trans (congrArg _ (requestReset_busy (s := s.onPower _) h 4))

theorem resetHoldEnd_clears (hhold : s.flt.phase = .hold)
    (h : ¬ (s.flt.pendingTrigger = 1 ∧ bit s.flt.ctrl 1 = false ∧ s.flt.restarts = 0)) :
    ∃ t, exec .resetHoldEnd s = .next t ∧ ResetEntered s t ∧ AsAtReset s t :=
  ⟨resetDomains s, exec_resetHoldEnd hhold h, resetEntered_resetDomains s, asAtReset_resetDomains s⟩

theorem deviceResetDone_over (h : s.flt.phase = .running) (o : ResetObs) :
    ∃ t, exec (.deviceResetDone o) s = .next t ∧ ResetOver t :=
  ⟨_, exec_deviceResetDone h o, (resetOver_finishReset o s).trainLinks⟩

end

theorem unitEffect_band {kind : Nat} (h : kind = 2) (i : Nat) (s : State) : unitEffect kind i s = startBandReset i .resetting s :=
  if_pos h

theorem unitEffect_panel {kind : Nat} (h : kind = 3) (i : Nat) (s : State) : unitEffect kind i s =
    s.each ((List.range 16).map (16 * i + ·)) fun u g =>
      if bandState u g = .unavailable then u else startBandReset g .resetting u := by
  subst h
  rfl

theorem unitEffect_stack {kind : Nat} (h : kind = 6) (i : Nat) (s : State) : unitEffect kind i s = clearStack i s := by
  subst h
  rfl

theorem unitEffect_port {kind : Nat} (h : kind = 8) (i : Nat) (s : State) : unitEffect kind i s =
    if bit (s.port i).cfg 0 then retrain i (!(s.port i).saved) (discardPort i s) else dropChild i s := by
  subst h
  rfl

theorem exec_unitReset_runs {s : State} {v : W64}
    (hnone : unitRefusal (resetJudged v s) (fld v 27 24) (fld v 39 32) = none)
    (hkind : fld v 27 24 = 2 ∨ fld v 27 24 = 3 ∨ fld v 27 24 = 6 ∨ fld v 27 24 = 8) {t : State}
    (heffect : unitEffect (fld v 27 24) (fld v 39 32) (resetJudged v s) = t) : exec (.unitReset v) s =
      .next (t.onFlt fun f => { f with unitBusy := true, unitKind := fld v 27 24, unitIndex := fld v 39 32 }) := by
  rw [exec_unitReset, startUnitReset_runs hkind hnone, heffect]

theorem tempWord_onFlt (f : Flt → Flt) (s : State) (k : Nat) : tempWord (s.onFlt f) k = tempWord s k := rfl

theorem endUnitReset_done (s : State) : endUnitReset true s =
    (s.onFlt fun f => { f with unitBusy := false, unitResult := 0 }).each (unitBands s.flt.unitKind s.flt.unitIndex) fun u g =>
      if (u.band g).state = .resetting then bandBecomesOn g u else u := by
  unfold endUnitReset
  simp only [if_true]

theorem endUnitReset_failed (s : State) : endUnitReset false s =
    let ended := s.onFlt fun f => { f with unitBusy := false, unitResult := 4 }
    declareFault
      (faultRec ended 0x28 1 s.flt.unitKind s.flt.unitIndex 0 (if s.flt.unitKind = 6 then tempWord s s.flt.unitIndex else 0) 1 0 4)
      (holdUnit s.flt.unitKind s.flt.unitIndex ended) := by
  unfold endUnitReset
  simp only [Bool.false_eq_true, if_false, tempWord_onFlt]

/-- Settles O48: each command by the equation of its own. -/
theorem hangsAndResets : Obligations.HangsAndResets := by
  unfold Obligations.HangsAndResets
  intro s n v judged quiet
  refine ⟨fun m => ⟨fun h => exec_heartbeatSample_none h m, fun h => exec_heartbeatSample h m⟩, exec_heartbeatSample_all,
    fun u hsampled hmisses => ⟨sampleOne_third_hang hsampled hmisses, sampleOne_third_logged hsampled hmisses⟩,
    ⟨fun h => requests_idle h v, fun h => requests_busy h v⟩, fun hhold => ⟨exec_resetHoldEnd_stops hhold, fun hgoes => ?_⟩,
    fun hrunning o => ?_, ⟨?_, ?_, fun hnone => ⟨?_, ?_, ?_, ?_⟩⟩, exec_unitResetDone_idle,
    fun hbusy => ⟨(exec_unitResetDone hbusy true).trans (congrArg _ (endUnitReset_done s)),
      (exec_unitResetDone hbusy false).trans (congrArg _ (endUnitReset_failed s))⟩, exec_fltViolClr n v s, ⟨rfl, exec_perstS⟩,
    fun h => ⟨exec_perstH_again h, exec_perstH_released h⟩, exec_perstS_released⟩
  · obtain ⟨t, ht, hentered, hreset⟩ := resetHoldEnd_clears hhold hgoes
    exact ⟨t, ht, hentered.resetting, hentered.running, hentered.cause, hentered.trigger, hreset.hif, hreset.work, hreset.cores,
      hreset.prs, hreset.srv, hreset.bolt, hreset.hbm, hreset.stitch, hreset.cycle, hreset.hostMem⟩
  · obtain ⟨t, ht, hover⟩ := deviceResetDone_over hrunning o
    exact ⟨t, ht, hover.resetting, hover.phase, hover.restarts, hover.faultLow, hover.missed⟩
  · intro hband hpanel hstack hport
    exact (exec_unitReset v s).trans (congrArg _ (startUnitReset_unknown hband hpanel hstack hport))
  · intro r hr hkind
    exact (exec_unitReset v s).trans (congrArg _ (startUnitReset_refused hkind hr))
  · exact fun hband => exec_unitReset_runs hnone (.inl hband) (unitEffect_band hband _ _)
  · exact fun hpanel => exec_unitReset_runs hnone (.inr (.inl hpanel)) (unitEffect_panel hpanel _ _)
  · exact fun hstack => exec_unitReset_runs hnone (.inr (.inr (.inl hstack))) (unitEffect_stack hstack _ _)
  · exact fun hport => exec_unitReset_runs hnone (.inr (.inr (.inr hport))) (unitEffect_port hport _ _)

end Sys2Proof.Machine
